-- ==== Sys2Proof/Word.lean ====
section
/-! DEFINITION. The word types of the S9 (R3, R54): bytes, 32-bit lane words and 64-bit uniform words. -/

namespace Sys2Proof

/-- One byte of memory. -/
abbrev Byte := BitVec 8
/-- One 32-bit instruction word, or one lane of a vector register (R21, R37). -/
abbrev W32 := BitVec 32
/-- One uniform register, or one 64-bit word of a descriptor (R21). -/
abbrev W64 := BitVec 64

/-- A sparse table: keys rise strictly and no entry equals what an unlisted key reads as. -/
abbrev Tab (α : Type) := List (Nat × α)

end Sys2Proof
end

