-- ==== Sys2Proof/Machine/Bits.lean ====
section
/-! DEFINITION. Bit fields, sign extension and little-endian bytes (R3, R28, R54). -/

namespace Sys2Proof

/-- Bits `lo + len - 1 : lo` of a natural number. -/
def field (n lo len : Nat) : Nat := (n >>> lo) % 2 ^ len

/-- Bit `i` of a natural number as a Boolean. -/
def bitAt (n i : Nat) : Bool := (n >>> i) % 2 == 1

/-- A natural number below 2^w read as a two's complement integer. -/
def toSigned (w n : Nat) : Int := if n % 2 ^ w < 2 ^ (w - 1) then ((n % 2 ^ w : Nat) : Int) else ((n % 2 ^ w : Nat) : Int) - 2 ^ w

/-- An integer modulo 2^w. -/
def wrapNat (w : Nat) (i : Int) : Nat := (i % (2 ^ w : Int)).toNat

/-- The `n` little-endian bytes of a number (R3). -/
def bytesOf : Nat → Nat → List Byte
  | 0, _ => []
  | n + 1, v => BitVec.ofNat 8 v :: bytesOf n (v / 256)

/-- The number whose little-endian bytes are given (R3). -/
def natOf : List Byte → Nat
  | [] => 0
  | b :: bs => b.toNat + 256 * natOf bs

/-- The numbers `a, a + 1, …, a + n - 1`. -/
def rangeFrom (a n : Nat) : List Nat := (List.range n).map (a + ·)

/-- The list without repeats, first occurrences kept. -/
def dedupNat : List Nat → List Nat
  | [] => []
  | x :: xs => x :: (dedupNat xs).filter (· != x)

/-- Rounds a quotient up. -/
def ceilDiv (a b : Nat) : Nat := (a + b - 1) / b

/-- The position of the highest set bit plus one: the number of significant bits. -/
def bitLen (n : Nat) : Nat := if n = 0 then 0 else Nat.log2 n + 1

end Sys2Proof
end

