-- ==== Sys2Proof/Machine/Compress.lean ====
section
/-! DEFINITION. Block compression (20 R375, R376, R380, R381): which encodings a block's 256 bytes fit, the one the base
die chooses, chunk decoding and the CRC of a chunk. -/

namespace Sys2Proof.Machine

/-- The sectors of an encoding code (R375). -/
def encSectors (code : Nat) : Nat :=
  match code with
  | 0 => 0 | 1 => 1 | 2 => 2 | 3 => 3 | 4 => 3 | 5 => 5 | 6 => 6 | _ => 8

/-- The little-endian words of `w` bytes each. -/
def blockWords (w : Nat) : Nat → List Byte → List Nat
  | 0, _ => []
  | n + 1, bs => natOf (bs.take w) :: blockWords w n (bs.drop w)

/-- Every delta to the first word, modulo 2^(8w) and read as signed, lies in the signed range of `d` bytes (R375). -/
def bdiFits (w d : Nat) (bs : List Byte) : Bool :=
  let ws := blockWords w (256 / w) bs
  let w0 := ws.headD 0
  ws.all fun x =>
    let y := toSigned (8 * w) (x + 2 ^ (8 * w) - w0)
    decide (-(2 ^ (8 * d - 1) : Int) ≤ y) && decide (y < 2 ^ (8 * d - 1))

/-- The exponent fields of the 128 bf16 elements (R375, EXPW). -/
def expFields (bs : List Byte) : List Nat := (blockWords 2 128 bs).map fun e => field e 7 8

/-- Whether a block's bytes fit an encoding (R375). -/
def encFits (code : Nat) (bs : List Byte) : Bool :=
  match code with
  | 0 => bs.all (· == 0#8)
  | 1 => (blockWords 16 16 bs).all (· == natOf (bs.take 16))
  | 2 => bdiFits 8 1 bs
  | 3 => bdiFits 8 2 bs
  | 4 => bdiFits 4 1 bs
  | 5 => bdiFits 4 2 bs
  | 6 =>
    let es := expFields bs
    decide (es.foldl max 0 ≤ es.foldl min 255 + 7)
  | _ => true

/-- The encoding the base die chooses for a block (R376). -/
def selectEnc (raw : Bool) (bs : List Byte) : Nat :=
  if raw then 7 else ((List.range 8).find? (fun c => encFits c bs)).getD 7

/-- One bit of CRC-32C, reflected (R380). -/
def crcBit (c : Nat) : Nat := if c % 2 = 1 then (c / 2) ^^^ 0x82F63B78 else c / 2

/-- One byte of CRC-32C. -/
def crcByte (c : Nat) (b : Byte) : Nat :=
  crcBit (crcBit (crcBit (crcBit (crcBit (crcBit (crcBit (crcBit (c ^^^ b.toNat))))))))

/-- The CRC-32C of RFC 3720 (R380). -/
def crc32c (bs : List Byte) : Nat := bs.foldl crcByte 0xFFFFFFFF ^^^ 0xFFFFFFFF

/-- What a chunk header says (R380): the encoding and the payload's sectors, when the header is valid (R381). -/
def chunkHeader (h : Nat) : Option (Nat × Nat) :=
  let enc := field h 0 3
  let len := field h 4 4
  if bitAt h 3 || h / 256 ≠ 0 || 8 < len || len ≠ encSectors enc then none else some (enc, len)

/-- The words a BDI payload rebuilds (R375), when its first delta is 0 (R381). -/
def bdiDecode (w d : Nat) (pay : List Byte) : Option (List Byte) :=
  let w0 := natOf (pay.take w)
  let ds := blockWords d (256 / w) (pay.drop w)
  if ds.headD 0 ≠ 0 then none
  else some ((ds.map fun x => bytesOf w (wrapNat (8 * w) ((w0 : Int) + toSigned (8 * d) x))).flatten)

/-- The bytes of a payload's fields (R375): every payload byte from this one on must be zero (R381). -/
def payUsed (enc : Nat) : Nat :=
  match enc with
  | 0 => 0 | 1 => 16 | 2 => 40 | 3 => 72 | 4 => 68 | 5 => 132 | 6 => 177 | _ => 256

/-- The 256 bytes of a chunk's payload (R375), or none where the payload is invalid (R381). -/
def decodePayload (enc : Nat) (pay : List Byte) : Option (List Byte) :=
  if (pay.drop (payUsed enc)).any (· != 0#8) then none
  else
    match enc with
    | 0 => some (List.replicate 256 0#8)
    | 1 => some ((List.replicate 16 (pay.take 16)).flatten)
    | 2 => bdiDecode 8 1 pay
    | 3 => bdiDecode 8 2 pay
    | 4 => bdiDecode 4 1 pay
    | 5 => bdiDecode 4 2 pay
    | 6 =>
      let x := natOf (pay.take 1)
      let f := natOf ((pay.drop 1).take 176)
      let es := (List.range 128).map fun j => field f (11 * j) 11
      if es.any (fun e => 255 < x + field e 7 3) then none
      else some ((es.map fun e => bytesOf 2 (field e 10 1 * 2 ^ 15 + (x + field e 7 3) * 2 ^ 7 + field e 0 7)).flatten)
    | _ => some (pay.take 256)

end Sys2Proof.Machine
end

