-- ==== Sys2Proof/Config.lean ====
section
/-! DEFINITION. What the spec leaves to the implementation or calls unpredictable (R4): free values, as constants with
no body, each drawn with a number from the counter in the state and an index inside the step. -/

namespace Sys2Proof.Config

/-- A free choice between two values the spec allows (R51, R191, R283): `false` is the old one
(log 6, DESIGN CHOICE; log 19, DESIGN CHOICE). -/
opaque freeBit : Nat → Nat → Bool

/-- Whether a read finds a write that its party has not seen (R386, R403): by the number drawn, the write's number and the reader's
(log 5, DESIGN CHOICE; log 6, DESIGN CHOICE). -/
opaque freeSees : Nat → Nat → Nat → Bool

/-- Whether a write comes before another in the order co, when nothing orders the two (R387, R403): by the number drawn and both numbers
(log 5, DESIGN CHOICE; log 6, DESIGN CHOICE). -/
opaque freeOrder : Nat → Nat → Nat → Bool

/-- A free 32-bit value (unpredictable tile elements, R190, R200, R201) (log 6, DESIGN CHOICE). -/
opaque free32 : Nat → Nat → W32

/-- A free byte (unpredictable scratchpad or memory bytes, R200) (log 6, DESIGN CHOICE). -/
opaque free8 : Nat → Nat → Byte

/-- A free number: a choice among several allowed ones (placement R240, victim lines R373, runs R374, R377)
(log 6, DESIGN CHOICE). -/
opaque freeNat : Nat → Nat → Nat

/-- Which of the floats within its bound a special function of R113 returns, as a fixed function of the function's
number and the operand's bits. -/
opaque fsfPick : Nat → W32 → Nat

/-- Which of the floats within its bound xexp of R330 returns, as a fixed function of the exact operand: its
numerator and the exponent of its power-of-two denominator. -/
opaque xexpPick : Int → Nat → Nat

/-- The scratchpad bytes that a context's earlier teams left on a core, as a launch's first team there finds them (R16): a list
of places and bytes, as a function of what stood there. -/
opaque leftBytes : Nat → List (Nat × Byte) → List (Nat × Byte)

/-- The tile and row-pair elements left on a core in the same way (R16), as places and elements. -/
opaque leftWords : Nat → List (Nat × W32) → List (Nat × W32)

/-- The device's serial number (R431) (log 21, DESIGN CHOICE). -/
opaque serial : BitVec 128

/-- The SHA-384 of the boot firmware image (R431) (log 21, DESIGN CHOICE). -/
opaque bootHash : BitVec 384

/-- The SHA-384 of the runtime firmware image (R431) (log 21, DESIGN CHOICE). -/
opaque runtimeHash : BitVec 384

/-- The two signatures of an attestation report over its signed bytes (R431): RSASSA-PSS and SLH-DSA (log 21, DESIGN CHOICE). -/
opaque reportSignatures : List Byte → List Byte

/-- The AES-256-XTS key pair drawn at a CREATE of a confidential context (R433) (log 13, DESIGN CHOICE). -/
opaque contextKey : Nat → BitVec 512

/-- The hottest junction temperature, in degrees Celsius, that the management block reports (R448) (log 21, DESIGN CHOICE). -/
opaque temperature : Nat → BitVec 8

/-- The number of logical cores (R6). -/
def cores : Nat := 160

/-- The sectors of physical memory: 512 GiB in 32-byte sectors (R2, R374). -/
def sectors : Nat := 2 ^ 34

/-- The sectors of one stack (R374). -/
def stackSectors : Nat := 2 ^ 31

end Sys2Proof.Config
end

