-- ==== Sys2Proof/Syntax.lean ====
section
/-! DEFINITION. The instructions and events of the S9: one constructor of `Instr` for each row of the table of
operations and events (03 R37-R47, R42, and the chapters that own the events). -/

namespace Sys2Proof

/-- A vector register field (R37): a base number, to which x is added (R39). -/
abbrev VReg := BitVec 7
/-- A nine-bit uniform field (R38): k0 to k383. -/
abbrev KReg := BitVec 9
/-- A predicate p0 to p7. -/
abbrev PReg := BitVec 3

/-- The IMM hints in front of an instruction (R28, R46): none, one, or two with the highest piece first. -/
inductive ImmHints where
  | none
  | one (lo : BitVec 22)
  | two (hi lo : BitVec 22)
  deriving DecidableEq, Repr

/-- Element types of IADD, ISUB and IMNX (R42). -/
inductive IntTy where
  | i32 | n32 | i64 | n64 | i16x2 | n16x2 | i8x4 | n8x4
  deriving DecidableEq, Repr

/-- Variants of IMUL and IMAD (R88). -/
inductive MulVar where
  | lo | hiI32 | hiN32 | wideI32 | wideN32
  deriving DecidableEq, Repr

/-- Result selection of IDIV (R89). -/
inductive DivRes where
  | q | r | qr
  deriving DecidableEq, Repr

/-- Shift kinds (R92). -/
inductive ShKind where
  | shl | shr | sra | rot
  deriving DecidableEq, Repr

/-- Operations of BITS (R93). -/
inductive BitsOp where
  | popc | clz | ctz | brev | bfeI32 | bfeN32 | bfi | perm
  deriving DecidableEq, Repr

/-- Conditions of ICMP and ICMPI (R95). -/
inductive Cond where
  | eq | ne | lt | le | gt | ge
  deriving DecidableEq, Repr

/-- Operations of LOPI (R91). -/
inductive LopiOp where
  | and | or | xor | andn
  deriving DecidableEq, Repr

/-- Variants of IADDK (R87). -/
inductive IaddkVar where
  | i32 | i32sat | n32sat | i64
  deriving DecidableEq, Repr

/-- Variants of MOVK (R97). -/
inductive MovkVar where
  | lo | hi | b64
  deriving DecidableEq, Repr

/-- The special values MOVS reads (R43, R101). -/
inductive Sv where
  | lane | row | team | core | part | pair | cluster | die | dev | time | launch | groups | bolt | flags | fault
  deriving DecidableEq, Repr

/-- Rounding modes (R65). -/
inductive RMode where
  | rne | rz | rd | ru
  deriving DecidableEq, Repr

/-- Element types of vector float arithmetic (R42). -/
inductive FTy where
  | f32 | f16x2 | bf16x2
  deriving DecidableEq, Repr

/-- Conditions of FCMP (R112). -/
inductive FCond where
  | eq | ne | lt | le | gt | ge | ord | uno | ult | ule | ugt | uge | one | ueq
  deriving DecidableEq, Repr

/-- Functions of FSF (R113). -/
inductive FsfFn where
  | rcp | rsqrt | sqrt | exp2 | log2 | sinpi | cospi | tanh | sigm
  deriving DecidableEq, Repr

/-- Forms of PACK (R117). -/
inductive PackForm where
  | f16x2 | bf16x2 | i16x2sat | n16x2sat | lo16 | hi16
  deriving DecidableEq, Repr

/-- Forms of DP4 (R118): the integer forms with each operand's signedness and saturation, and the FP8 forms with
each operand's format (`true` is e5m2). -/
inductive Dp4Form where
  | int (aSigned bSigned sat : Bool)
  | fp8 (aE5m2 bE5m2 : Bool)
  deriving DecidableEq, Repr

/-- Source formats of FCLS (R114). -/
inductive FclsTy where
  | f32 | f16 | bf16
  deriving DecidableEq, Repr

/-- Kinds of SHFL (R120). -/
inductive ShflKind where
  | idx | up | down | xor
  deriving DecidableEq, Repr

/-- Kinds of VOTE (R122). -/
inductive VoteKind where
  | all | any | ballot | uni
  deriving DecidableEq, Repr

/-- Operations of RDX and SCAN (R123). -/
inductive RdxOp where
  | iadd | imin | imax | nmin | nmax | fadd | fmin | fmax
  deriving DecidableEq, Repr

/-- Kinds of LMOV (R121). -/
inductive LmovKind where
  | bcast | rot | swap
  deriving DecidableEq, Repr

/-- Access widths (R160). -/
inductive Width where
  | b8 | b16 | b32 | b64
  deriving DecidableEq, Repr

/-- Cache policies (R162). -/
inductive Pol where
  | l1 | pnd | strm | last
  deriving DecidableEq, Repr

/-- Scopes (R172, R388). -/
inductive Scope where
  | dev | core | clu | sys | team
  deriving DecidableEq, Repr

/-- Kinds of FENCE (R172). -/
inductive FenceKind where
  | acq | rel | acqrel | sc
  deriving DecidableEq, Repr

/-- Operations of ATOM and RED (R45, R168). -/
inductive AtomOp where
  | add | min | max | and | or | xor | exch | cas
  deriving DecidableEq, Repr

/-- Operand types of ATOM and RED (R45). -/
inductive AtomTy where
  | signed | unsigned | float
  deriving DecidableEq, Repr

/-- Orderings of ATOM and RED (R45, R170). -/
inductive AtomOrd where
  | rlx | acq | rel | acqrel | sc
  deriving DecidableEq, Repr

/-- The MOD fields of ATOM and RED (R45). -/
structure AtomMod where
  op : AtomOp
  ty : AtomTy
  ord : AtomOrd
  deriving DecidableEq, Repr

/-- The fields that every M-format instruction has (R37, R156): data register, lane offset, base and displacement. -/
structure MArgs where
  t : VReg
  a : VReg
  b : BitVec 7
  imm : ImmHints
  deriving DecidableEq, Repr

/-- Conditions of BRK (R130). -/
inductive BrkCond where
  | z | nz | lt | ge | le | gt | al
  deriving DecidableEq, Repr

/-- Loop counters l0 to l2 (R135). -/
inductive LoopCtr where
  | l0 | l1 | l2
  deriving DecidableEq, Repr

/-- Forms of COPY (R279). -/
inductive CopyForm where
  | tensor | stream | mx6e4m3 | mx6bf16 | decomp
  deriving DecidableEq, Repr

/-- Element formats of MMA (R183). -/
inductive MmaFmt where
  | e4m3 | e5m2 | bf16 | f16 | o4
  deriving DecidableEq, Repr

/-- Scale formats of MACS (R195). -/
inductive ScaleFmt where
  | e8m0 | f32 | bf16
  deriving DecidableEq, Repr

/-- The causes an ILLEGAL word records (R52). -/
inductive IllegalCause where
  | op | fn | field | hint
  deriving DecidableEq, Repr

/-- The space a host transaction names (R429): a context's virtual space or table space. -/
inductive Space where
  | ctx (id : Nat)
  | table
  deriving DecidableEq, Repr

/-- What HOST_READ reads (R429, R448): bytes of a space, or of the management block in table space's control window. -/
inductive HostSource where
  | space (sp : Space)
  | control
  deriving DecidableEq, Repr

/-- A command packet read from the control, page-command or core-command sequence (R218, R365, R410): its eight
words and its slot. -/
structure Packet where
  w0 : W64
  w1 : W64
  w2 : W64
  w3 : W64
  w4 : W64
  w5 : W64
  w6 : W64
  w7 : W64
  slot : Nat
  deriving DecidableEq, Repr

/-- The loom forms the host can name (R429). -/
inductive LoomForm where
  | seqReserve | seqAddr | seqCommit | seqVoid | seqWatch | seqWait | seqFork | seqLen
  | ptreeLookup | ptreeInsert | ptreeUnref | kvtPage | kvtRope | kvtBoth
  deriving DecidableEq, Repr

/-- An inbound peer access (R426, R427): a read of `len` bytes, a masked store, or one atomic request with the
operands of its lanes in ascending index. -/
inductive PeerAccess where
  | read (addr len : Nat)
  | write (addr : Nat) (bytes : List (Option Byte))
  | rmw (addr : Nat) (w : Width) (md : AtomMod) (operands : List (W64 × W64))
  deriving DecidableEq, Repr

/-- What a peer answers (R173): data bytes or an acknowledgement, or a failure with its cause. -/
inductive PeerAnswer where
  | ok (data : List Byte)
  | failed (cause : BitVec 8)
  deriving DecidableEq, Repr

/-- What a link training comes to (R422). -/
inductive TrainResult where
  | full | half | failed
  deriving DecidableEq, Repr

/-- What a scrub read of a sector finds (R439). -/
inductive ScrubResult where
  | clean | corrected | uncorrectable
  deriving DecidableEq, Repr

/-- The unit an uncorrectable error strikes (R411). -/
inductive ErrUnit where
  | block (b : Nat)
  | blockMeta (b : Nat)
  | granule (core addr : Nat)
  | tileElem (core tile row col : Nat)
  | team (uid : Nat)
  | core (core : Nat)
  | stackRow (stack chan bank row : Nat)
  | linkLane (port lane : Nat)
  | context (ctx : Nat)
  | task (core idx : Nat)
  | lock (core idx : Nat)
  deriving DecidableEq, Repr

/-- The instructions and events of the S9, in the order of the table. Encoded rows carry the fields of their words
and of the hints in front of them; event rows carry what names the unit the event strikes. -/
inductive Instr where
  -- integer and logic, per lane (R82-R97)
  | iadd (ty : IntTy) (sat : Bool) (d a b : VReg)
  | isub (ty : IntTy) (sat : Bool) (d a b : VReg)
  | imul (v : MulVar) (d a b : VReg)
  | imad (v : MulVar) (d a b : VReg)
  | idiv (b64 : Bool) (res : DivRes) (unsigned : Bool) (d a b : VReg)
  | lop (tt : BitVec 4) (d a b : VReg)
  | shf (kind : ShKind) (clamp : Bool) (d a b : VReg)
  | bits (op : BitsOp) (d a b : VReg)
  | imnx (max : Bool) (ty : IntTy) (d a b : VReg)
  | icmp (c : Cond) (unsigned : Bool) (p : PReg) (a b : VReg)
  | sel (p : PReg) (neg : Bool) (d a b : VReg)
  | iaddi (d a : VReg) (imm : BitVec 11) (h : ImmHints)
  | ishi (kind : ShKind) (d a : VReg) (n : BitVec 5)
  | icmpi (c : Cond) (unsigned : Bool) (p : PReg) (a : VReg) (imm : BitVec 11) (h : ImmHints)
  | lopi (op : LopiOp) (d a : VReg) (imm : BitVec 9) (h : ImmHints)
  | iaddk (v : IaddkVar) (d a : VReg) (k : KReg)
  | ilea (scale : BitVec 2) (d a : VReg) (k : KReg)
  | movk (v : MovkVar) (d : VReg) (k : KReg)
  -- uniform (R98-R100)
  | kadd (d a : KReg) (b : BitVec 7)
  | ksub (d a : KReg) (b : BitVec 7)
  | kmul (d a : KReg) (b : BitVec 7)
  | kand (d a : KReg) (b : BitVec 7)
  | kor (d a : KReg) (b : BitVec 7)
  | kxor (d a : KReg) (b : BitVec 7)
  | kshl (d a : KReg) (b : BitVec 7)
  | kshr (d a : KReg) (b : BitVec 7)
  | ksra (d a : KReg) (b : BitVec 7)
  | kmin (d a : KReg) (b : BitVec 7)
  | kmax (d a : KReg) (b : BitVec 7)
  | kdiv (d a : KReg) (b : BitVec 7)
  | kli (d : KReg) (imm : BitVec 16) (h : ImmHints)
  | kaddi (d : KReg) (imm : BitVec 16) (h : ImmHints)
  | klui (d : KReg) (imm : BitVec 16)
  | movs (vec : Bool) (d : KReg) (sv : Sv)
  -- float and cross-lane (R105-R124)
  | fadd (ty : FTy) (rm : RMode) (sat : Bool) (d a b : VReg)
  | fsub (ty : FTy) (rm : RMode) (sat : Bool) (d a b : VReg)
  | fmul (ty : FTy) (rm : RMode) (sat : Bool) (d a b : VReg)
  | ffma (ty : FTy) (rm : RMode) (sat : Bool) (d a b : VReg)
  | fmnx (max nan : Bool) (ty : FTy) (d a b : VReg)
  | fcmp (c : FCond) (p : PReg) (a b : VReg)
  | fsf (fn : FsfFn) (d a : VReg)
  | cvt (code : BitVec 7) (rm : RMode) (sat : Bool) (d a : VReg)
  | pack (form : PackForm) (d a b : VReg)
  | dp4 (form : Dp4Form) (d a b : VReg)
  | fcls (ty : FclsTy) (d a : VReg)
  | shfl (kind : ShflKind) (team : Bool) (d a b : VReg)
  | vote (kind : VoteKind) (team : Bool) (d : VReg) (q : PReg) (neg : Bool)
  | rdx (op : RdxOp) (team : Bool) (d a : VReg)
  | scan (op : RdxOp) (team excl : Bool) (d a : VReg)
  | lmov (kind : LmovKind) (d a b : VReg)
  -- memory (R155-R178)
  | ld (w : Width) (pol : Pol) (sx : Bool) (m : MArgs)
  | st (w : Width) (pol : Pol) (m : MArgs)
  | lds (w : Width) (sx : Bool) (m : MArgs)
  | sts (w : Width) (m : MArgs)
  | ldt (w : Width) (m : MArgs)
  | atom (w : Width) (scope : Scope) (md : AtomMod) (m : MArgs)
  | red (w : Width) (scope : Scope) (md : AtomMod) (m : MArgs)
  | kld (w : Width) (pol : Pol) (sx : Bool) (a b : KReg) (h : ImmHints)
  | kst (w : Width) (pol : Pol) (a b : KReg) (h : ImmHints)
  | fence (kind : FenceKind) (scope : Scope)
  | cacheZero (a : VReg) (b : BitVec 7) (h : ImmHints)
  | cacheInv (a : VReg) (b : BitVec 7) (h : ImmHints)
  | cacheEvict (a : VReg) (b : BitVec 7) (h : ImmHints)
  | cacheFetch (a : VReg) (b : BitVec 7) (h : ImmHints)
  | ldb (w : Width) (pol : Pol) (m : MArgs)
  -- control (R125-R154)
  | bra (p : PReg) (neg : Bool) (off : BitVec 21)
  | brk (a : KReg) (c : BrkCond) (off : BitVec 13)
  | jmpi (a : VReg) (k : KReg)
  | land
  | call (off : BitVec 21)
  | ret (a : KReg)
  | loop (a : KReg) (l : LoopCtr) (n : BitVec 13)
  | regionCommit
  | setx (a : KReg) (i : BitVec 7)
  | maskSet (a : KReg)
  | maskGet (a : KReg)
  | maskPred (a : KReg) (p : PReg)
  | exit
  | yield
  | yieldResume (uid : Nat)
  | trap (code : BitVec 16)
  | bkpt (code : BitVec 16)
  | nop
  -- locks (R265-R277)
  | lockInit (a n : KReg)
  | lockArrive (a n : KReg)
  | lockExpect (a n : KReg)
  | lockWait (a n : KReg) (s : Scope)
  | lockTry (a n : KReg) (s : Scope)
  | lockInval (a n : KReg)
  | lockFill (a n : KReg)
  | lockDrain (a n : KReg)
  -- copy engine (R278-R292)
  | copy (a n : KReg) (q : BitVec 2) (f : CopyForm)
  | copyUnitWrite (core queue : Nat)
  | copyRetry (core queue : Nat)
  -- matrix unit (R179-R202, R325-R336)
  | mma (a : KReg) (f : MmaFmt) (acca pair zero : Bool)
  | mfenceOpr
  | mfenceBatch (a : KReg)
  | mwait (a : KReg)
  | macs (a : KReg) (f : ScaleFmt)
  | accmvT2s (a : KReg)
  | accmvS2t (a : KReg)
  | accmvT2t (a : KReg)
  | accmvT2g (a : KReg)
  | accmvG2t (a : KReg)
  | accmvZero (a : KReg)
  | attn (a : KReg) (causal : Bool)
  | attnFin (a : KReg)
  | matrixOpRetire (core part : Nat)
  -- sequences, tree, key-value (R293-R324)
  | seqReserve (a b : KReg)
  | seqAddr (a b : KReg)
  | seqCommit (a b : KReg)
  | seqVoid (a b : KReg)
  | seqWatch (a b : KReg)
  | seqWait (a b : KReg)
  | seqFork (a b : KReg)
  | seqLen (a b : KReg)
  | ptreeLookup (a b : KReg)
  | ptreeInsert (a b : KReg)
  | ptreeUnref (a b : KReg)
  | kvtPage (a b : KReg)
  | kvtRope (a b : KReg)
  | kvtBoth (a b : KReg)
  -- tasks, launches, bounds pass, freeboard, trace
  | fork (a b : KReg) (n : BitVec 4)
  | join (n : KReg)
  | launch (a b : KReg)
  | bpassInfo (a : KReg)
  | bpassUndec (a : KReg)
  | freebCtx (a : KReg)
  | freebSlice (a : KReg)
  | traceOn (a : KReg)
  | traceOff (a : KReg)
  | traceBind (a b : KReg)
  | traceFlush (a : KReg)
  | traceSyncDue (uid : Nat)
  | hintStall (f : BitVec 18)
  | hintMark (m : BitVec 16)
  | illegalWord (c : IllegalCause)
  -- events of the memory system and the dispatcher
  | loadReturn (uid : Nat)
  | variableResultWriteback (uid : Nat)
  | fenceComplete (uid : Nat)
  | scRmwPerform (uid : Nat)
  | freeOldRun (idx : Nat)
  | walkBatchStart (die : Nat)
  | pageWalkDone (die idx : Nat)
  | gatherExpand (uid : Nat)
  | arbiterSelect
  | queueReadRetry (ctx handle : Nat)
  | dispatchWriteApply (ctx handle : Nat)
  | teamPlace (core part : Nat)
  | preempt (core : Nat)
  | evict (core : Nat)
  | taskSteal (core : Nat)
  | teamEnd (uid : Nat)
  | fillRetry (uid : Nat)
  | handoffAppend (uid : Nat)
  | appendRetry (ctx : Nat)
  -- host commands
  | create (p : Packet)
  | destroy (p : Packet)
  | deflate (p : Packet)
  | inflate (p : Packet)
  | resolve (p : Packet)
  | save (p : Packet)
  | saveComplete (ctx : Nat)
  | restore (p : Packet)
  | power (p : Packet)
  | map (p : Packet)
  | unmap (p : Packet)
  | perm (p : Packet)
  | migrateIndev (p : Packet)
  | migrateTodev (p : Packet)
  | migrateTohost (p : Packet)
  | clearacc (p : Packet)
  | pageDrainDone
  | resume (p : Packet)
  | skip (p : Packet)
  | kill (p : Packet)
  | rdstate (p : Packet)
  | wrstate (p : Packet)
  | step (p : Packet)
  | halt (p : Packet)
  | list (p : Packet)
  | hostRead (src : HostSource) (addr len : Nat)
  | hostWrite (sp : Space) (addr : Nat) (bytes : List (Option Byte))
  | hostRmw (sp : Space) (addr : Nat) (w : Width) (md : AtomMod) (operand new : W64)
  | hostLoom (sp : Space) (form : LoomForm) (handle : W64) (ops : List W64)
  | ptreeRemove (sp : Space) (pool node : Nat)
  | attest (nonce : BitVec 384) (ctx : Nat)
  -- links
  | train (port : Nat)
  | linkTrained (port : Nat) (r : TrainResult)
  | laneFailure (port lane : Nat)
  | flitCrcError (port idx : Nat)
  | peerInboundAccess (dev rctx : Nat) (acc : PeerAccess)
  | peerResponse (id : Nat) (ans : PeerAnswer)
  | peerTimeout (id : Nat)
  -- memory stacks
  | refresh (stack chan bank : Nat)
  | mitigationRefresh (stack chan bank row : Nat)
  | poundReissue (uid : Nat)
  | scrubRead (stack sector : Nat) (r : ScrubResult)
  | bucketLeak (stack : Nat)
  | rowSpare (stack chan bank row : Nat) (ue : Bool)
  -- containment, power and management
  | uncorrectableError (u : ErrUnit)
  | coreOffline (core : Nat)
  | thermalTrip (temp : Nat)
  | reset (bootOk runtimeOk : Bool)
  | timeWrite (v : W64)
  | mgmtWrite (field : Nat) (v : W64)
  deriving DecidableEq, Repr

end Sys2Proof
end

