-- ==== Sys2Proof/Machine/State.lean ====
section
/-! DEFINITION. The state of the S9: everything the spec gives the machine, as plain data, and its value after reset
(25 R447). Sparse tables list only the entries that differ from the value an unlisted key reads as. -/

namespace Sys2Proof.Machine

/-! ## What a party has seen of memory (R382-R403) -/

/-- The parties that order is judged by (R382, R388): a lane of a team or an engine that works for it, with the team and its core; a loom or
the dispatcher; and the host or a link agent. -/
inductive Party where
  | team (uid core : Nat)
  | device
  | outside
  deriving DecidableEq, Repr

/-- What a party has seen of memory: the bytes of writes, each numbered 16 × write + place in its granule, and the largest clock it has
received (R392) (log 5, DESIGN CHOICE). -/
structure View where
  seen : List Nat
  clock : Nat
  deriving DecidableEq, Repr

/-- A release (R389): who made it, at which scope, and what that party had seen by then. `always` marks an edge that no scope decides
(R391). -/
structure Rel where
  party : Party
  scope : Scope
  view : View
  always : Bool
  deriving DecidableEq, Repr

/-- A write of bytes of one 16-byte granule (R386): its number, its masked bytes, whether it is an RMW's and an SC one's, and the releases
that a read of it may synchronize with (R389). -/
structure Write where
  n : Nat
  bytes : List (Option Byte)
  rmw : Bool
  sc : Bool
  rels : List Rel
  deriving DecidableEq, Repr

/-- The writes of a granule in the order co, the newest first, and the bytes that stood there before the first. -/
structure Grain where
  base : List Byte
  writes : List Write
  deriving DecidableEq, Repr

/-- A commit to a sequence (R321): the sequence's space and handle, the least CL that tells of it, and what its party had seen. A pool of
the prefix tree has them too, for what its nodes came after. -/
structure SeqRel where
  sp : Nat
  handle : Nat
  level : Nat
  view : View
  deriving DecidableEq, Repr

/-- The sticky flags of one engine (R72). -/
structure FlagSet where
  nv : Bool
  ov : Bool
  uf : Bool
  nx : Bool
  deriving DecidableEq, Repr

/-- The sticky flags of a matrix unit, with APPROX (R72). -/
structure MFlagSet where
  fl : FlagSet
  approx : Bool
  deriving DecidableEq, Repr

/-- The state of one lane (R125); an unlisted lane of a team is active. -/
inductive LaneState where
  | active
  | waiting (resume depth : Nat)
  | held
  | exited
  deriving DecidableEq, Repr

/-- A hardware loop counter and its entry (R135): the body starts at `start` and has `len` words. -/
structure LoopEntry where
  ctr : W32
  on : Bool
  start : Nat
  len : Nat
  depth : Nat
  deriving DecidableEq, Repr

/-- The divergence state of a team, its pc, x and loops: what a snapshot records (R127, R148). `uni` is uniform-only
mode (R140). -/
structure Flow where
  pc : Nat
  lanes : Tab LaneState
  depth : Nat
  x : Nat
  loops : List LoopEntry
  uni : Bool
  deriving DecidableEq, Repr

/-- Kinds of interval (R340). -/
inductive IKind where
  | I | N | F | W
  deriving DecidableEq, Repr

/-- An affine tag (R340). -/
structure ATag where
  a : Int
  b : Int
  base : Int
  deriving DecidableEq, Repr

/-- What an interval-mode register holds beside its 32 bits (R340): a point is those bits; the ends of an F interval
are f32 bit patterns; `upper` marks the odd half of a W pair. An unlisted register is a point. -/
inductive IVal where
  | point
  | iv (k : IKind) (lo hi : Int) (nanp : Bool) (tag : Option ATag)
  | upper
  | full
  deriving DecidableEq, Repr

/-- A lane that is unsure at a BRA (R345): its address, the arrivals, the call depth and the marked registers. -/
structure Unsure where
  lane : Nat
  bra : Nat
  count : Nat
  depth : Nat
  regs : List Nat
  preds : List Nat
  deriving DecidableEq, Repr

/-- A tile or subtile a lane stands for (R338, R349): `path` holds quadrant q1 in bits 1:0, q2 in 3:2, q3 in 5:4. -/
structure TileId where
  g : Nat
  depth : Nat
  path : Nat
  deriving DecidableEq, Repr

/-- A recorded fill (R346). -/
structure Fill where
  lane : Nat
  origin : Nat
  a : Int
  b : Int
  width : Nat
  val : Nat
  deriving DecidableEq, Repr

/-- The fate of an undecided tile (R348): quartered, or handed off with a reason. -/
inductive Fate where
  | quartered
  | handoff (reason : Nat)
  deriving DecidableEq, Repr

/-- A register a result is waiting for (R48). -/
inductive RegRef where
  | v (n : Nat)
  | k (n : Nat)
  | p (n : Nat)
  deriving DecidableEq, Repr

/-- A fixed-latency result in flight (R48, R49): the clk its reader still needs and the register's old contents. -/
structure InFlight where
  reg : RegRef
  need : Nat
  oldV : Tab W32
  oldP : Tab Bool
  oldK : W64
  oldIv : Tab IVal
  oldPm : Tab Bool
  deriving DecidableEq, Repr

/-- One write of a result that is still outstanding. -/
structure PendWrite where
  lane : Nat
  reg : Nat
  val : W32
  deriving DecidableEq, Repr

/-- A fault that a load's data met (R173, R177): its cause, lane and address, and the record's detail. -/
structure DataFault where
  cause : Nat
  lane : Option Nat
  addr : Nat
  w5 : Nat
  deriving DecidableEq, Repr

/-- A variable-latency result or load still outstanding (R48, R160, R163): the registers it will write, its values,
the fault its data met, the peer requests it waits for, its gather packets, the time of a
retry hint, the banks it needs, and the blocks that it will bring into the caches when they have served it (R437). -/
structure Pending where
  isLoad : Bool
  regs : List RegRef
  writes : List PendWrite
  preds : List (Nat × Nat × Bool)
  kwrite : Option (Nat × W64)
  fault : Option DataFault
  peers : List Nat
  gather : Nat
  retryAt : Option Nat
  banks : List Nat
  keep : List (Nat × Nat × Pol)
  deriving DecidableEq, Repr

/-- A read of a peer that a copy command has asked for (R281, R291): its address and length, its request, and the answer. -/
structure CopyAsk where
  addr : Nat
  len : Nat
  id : Nat
  answer : Option PeerAnswer
  deriving DecidableEq, Repr

/-- A queued copy command (R278, R280): its descriptor, form and lock; the bytes written; the cause it is stalled at and when
it tries again (R289); whom it was issued by; for .decomp where the next chunk stands, and `some r` once no further chunk can
be read: r is 0 after a chunk of reason 2 (R286), or the cause an unreadable header met; whether its 0x82 is written (R291);
its peer reads; the source bytes it has fetched ahead (R290); whether its team has been killed (R292); and what its team had seen when it
was accepted, and what it has written (R391). -/
structure CopyCmd where
  w0 : W64
  w1 : W64
  w2 : W64
  w3 : W64
  form : CopyForm
  lock : Nat
  off : Nat
  stall : Option Nat
  retryAt : Nat
  uid : Nat
  team : Nat
  pc : Nat
  chunkAt : Nat
  dead : Option Nat
  failed : Bool
  asks : List CopyAsk
  stage : List (Nat × Byte)
  gone : Bool
  view : View
  deriving DecidableEq, Repr

/-- The kinds of matrix-unit operation (R179). -/
inductive MKind where
  | mma (f : MmaFmt) (acca pair zero : Bool)
  | macs (f : ScaleFmt)
  | t2s | s2t | t2t | t2g | g2t | zero
  | attn (causal : Bool)
  | fin
  deriving DecidableEq, Repr

/-- An accepted matrix-unit operation (R180): its descriptor words; the register operand as read at acceptance and the
registers it names; the scratchpad ranges it uses; what its operand reads have seen, by the team's last MFENCE.OPR (R191, R391);
`made` what its own writes come after, and once it has made them those writes, or for an ATTN what its reads of pages have seen (R328); the tiles, row pairs and scratchpad ranges it writes; what its loom step read (R328), what it holds, and its peer reads. `slave` is
the follower's half of a pair (R189); `tainted` says that something it uses was written too early (R194). `unit` is its unit, and
`destBlocks` the blocks that a .t2g writes, each beside the memory it lies in (0 the device's, 1 the host's, 2 + slot a peer's). -/
structure MOp where
  kind : MKind
  desc : List W64
  uid : Nat
  order : Nat
  batch : Option Nat
  pc : Nat
  regsA : List W32
  opRegs : List Nat
  spadUse : List (Nat × Nat)
  seen : List Nat
  made : List Nat
  destTiles : List Nat
  destRows : List Nat
  destSpad : List (Nat × Nat)
  pages : List (Nat × Option Nat)
  voids : List Nat
  held : Nat
  slave : Bool
  tainted : Bool
  asks : List CopyAsk
  unit : Nat
  destBlocks : List (Nat × Nat)
  deriving DecidableEq, Repr

/-- A failed operation no MWAIT or EXIT has reported (R200). -/
structure MFail where
  batch : Option Nat
  order : Nat
  addr : Nat
  follower : Bool
  cause : Nat
  deriving DecidableEq, Repr

/-- One lane's operation of an ATOM or RED: its address, its operand, and the new value of a .cas (R168). -/
structure RmwOp where
  lane : Nat
  addr : Nat
  o : Nat
  n : Nat
  deriving DecidableEq, Repr

/-- What a team in WAITING waits for (R238), and the other holds of an issuing team. A ticket tells which of two waits began
first. -/
inductive Wait where
  | join (lock : Nat)
  | lockPhase (core lock phase : Nat) (s : Scope)
  | lockFill (lock k : Nat) (w : W64) (ticket : Nat)
  | copyPlace (queue : Nat) (cmd : CopyCmd) (ticket : Nat)
  | matrixPlace
  | seqWait (cl v : Nat)
  | mwait (batch : Nat)
  | fence (k : FenceKind) (s : Scope) (ts : Nat)
  | scRmw (ts : Nat) (w : Width) (sc : Scope) (md : AtomMod) (ops : List RmwOp) (dst : Option Nat)
  | walk
  | load
  | peerRmw (ts : Nat) (w : Width) (sc : Scope) (md : AtomMod) (ops : List RmwOp) (dst : Option Nat)
  | fetch
  deriving DecidableEq, Repr

/-- The life-cycle states of a team (R238) that the model keeps in the team; STOPPED is its core's, TASK its deque's
and SAVED its context's. `ending` is a team whose last lane has exited and whose end waits for its operations. -/
inductive TeamStatus where
  | unplaced
  | ready
  | waiting (w : Wait)
  | parked
  | ending
  | ended
  deriving DecidableEq, Repr

/-- What made a team (R339, R242). -/
inductive TeamKind where
  | launch
  | forked
  | quarter
  | handoff (j slot : Nat)
  deriving DecidableEq, Repr

/-- The trace state of a team (R415-R419, R455-R458): the staged packets, the references, the SYNC that precedes the
next packet (`syncDue`) or the next group (`syncNext`), and the losses a LOSS has yet to report. -/
structure TraceState where
  on : Bool
  staged : List Byte
  count : Nat
  refPc : Nat
  refTime : Nat
  lastSync : Nat
  sinceSync : Nat
  syncDue : Bool
  syncNext : Bool
  loss : Nat
  lossDue : Bool
  deriving DecidableEq, Repr

/-- The last fault record written for a team (R102). -/
structure SvFault where
  cause : Nat
  fv : Bool
  slot : Nat
  deriving DecidableEq, Repr

/-- The group being issued (R47): the team, the address of its first word, of its instruction word and of the word
after it, and the device time of its issue (R457). -/
structure Issue where
  uid : Nat
  group : Nat
  word : Nat
  next : Nat
  time : Nat
  deriving DecidableEq, Repr

/-- A team (R21, R238, R241, R242). `kLane` holds what the lanes of the instruction being issued find of uniform registers written too
early (R51), and nothing between instructions. `cur` is the group it issued last and `booking` the fixed-latency results its
instruction will have in flight (none for a hint); `yielded` holds YIELD off until the teams
listed have issued (R142); `woken` says that what it waited for has happened, so that its instruction completes when it issues
again (R310); `pols` are the policies of the blocks in its log (R162);
`asks` are the words and summaries it has asked peers for (R144, R344); `exitFlow` is the divergence state before the
EXIT of its last lanes (R200); `late` are early writes of registers that show their old value until the MWAIT (R194). `seen` is what
the team has seen of memory, `laneSeen` what single lanes have beyond it until the next uniform event (R387), `got` the releases that its
reads have found, `relFs` its release fences, `oprSeen` what its last MFENCE.OPR made visible, and `start` what its first issue
acquires (R389-R391). -/
structure Team where
  uid : Nat
  kid : Nat
  id : Nat
  kind : TeamKind
  ctx : Nat
  core : Nat
  part : Nat
  placed : Bool
  saved : Bool
  lanes : Nat
  allot : Nat
  logSize : Nat
  bounds : Bool
  status : TeamStatus
  v : Tab W32
  iv : Tab IVal
  p : Tab Bool
  pm : Tab Bool
  k : Tab W64
  kLane : Tab W64
  flow : Flow
  snap : Flow
  log : List (Nat × Byte)
  zeros : List Nat
  pols : List (Nat × Pol)
  debited : List Nat
  batch : Nat
  failed : List MFail
  svFault : SvFault
  counts : List Nat
  flight : List InFlight
  pend : List Pending
  oprV : Tab W32
  seen : List Nat
  laneSeen : List (Nat × Nat)
  got : List Rel
  relFs : List Rel
  oprSeen : List Nat
  start : View
  late : Tab W32
  unsure : List Unsure
  tiles : List (Nat × TileId)
  fills : List Fill
  fillDone : Nat
  fillStall : Option Nat
  fates : List (Nat × Fate)
  endPc : Nat
  parent : Nat
  jv : Bool
  jl : Nat
  parentCore : Nat
  trace : TraceState
  walked : List (Nat × Bool)
  stepOnce : Bool
  cur : Issue
  booking : Option (List InFlight)
  yielded : List Nat
  boltCores : List Nat
  woken : Bool
  asks : List CopyAsk
  exitFlow : Option Flow
  deriving DecidableEq, Repr

/-- A FORK task in a deque (R248); `view` is what the FORK releases. -/
structure Task where
  kid : Nat
  ctx : Nat
  entry : Nat
  args : List W64
  id : Nat
  parent : Nat
  parentCore : Nat
  jv : Bool
  jl : Nat
  view : View
  deriving DecidableEq, Repr

/-- Lock states (R267). -/
inductive LockSt where
  | invalid | valid | broken
  deriving DecidableEq, Repr

/-- A lock (R266). `rels` holds the releases that count toward its phases, each with its phase, and `joined` what the ends of bound teams
have released (R276, R251). -/
structure Lock where
  phase : W32
  st : LockSt
  gate : Bool
  gv : Bool
  grp : Nat
  joinc : Nat
  na : Nat
  nd : Nat
  penda : Nat
  eng : Nat
  bexp : Nat
  bdone : Nat
  rels : List (Nat × Rel)
  joined : View
  deriving DecidableEq, Repr

/-- A committed-length register and the sequence it is bound to (R309). -/
structure ClReg where
  val : W64
  bound : Option Nat
  deriving DecidableEq, Repr

/-- A fault record before it is appended (R406). -/
structure FaultRec where
  cause : Nat
  park : Bool
  stopc : Bool
  lane : Option Nat
  uid : Option Nat
  ctx : Nat
  core : Nat
  part : Nat
  team : Nat
  qnum : Nat
  pc : Nat
  addr : Nat
  time : Nat
  w5 : Nat
  w6 : Nat
  w7 : Nat
  lost : Nat
  deriving DecidableEq, Repr

/-- A precise stop of a core (R409, R410): the team whose instruction stopped, whether that instruction completed
before the stop (TRAP, BKPT, STEP, HALT), and the record that waits until everything issued has completed; with no
record the core is in STOPPED. -/
structure Stop where
  uid : Option Nat
  cause : Nat
  completed : Bool
  record : Option FaultRec
  deriving DecidableEq, Repr

/-- A logical core (R6, R9, R21). `launches` holds the kernels that have started a team here since the core began to serve its
context (R16); `matDone` the operations that have retired and that no MWAIT has covered (R194). `l1` holds the blocks of L1's lines; of these
`l1Last` will be read once more, and `l1Early` are first in line for eviction (R162); `lateSpad` is as `Team.late`. -/
structure Core where
  ctx : Nat
  launches : List Nat
  word : Nat
  offline : Bool
  spareDue : Bool
  spad : Tab Byte
  tile : Tab W32
  rowM : Tab W32
  rowL : Tab W32
  lateSpad : Tab Byte
  spadPoison : List Nat
  tilePoison : List Nat
  locks : Tab Lock
  cl : Tab ClReg
  deque : List Task
  slice : Nat
  l1 : List Nat
  l1Last : List Nat
  l1Early : List Nat
  copyQ : List (List CopyCmd)
  copyTurn : Nat
  matQ : List (List MOp)
  matDone : List MOp
  vflags : List FlagSet
  mflags : List MFlagSet
  cflags : FlagSet
  stop : Option Stop
  tbind : Nat
  clock : Nat
  deriving DecidableEq, Repr

/-- The states of a context (R204). -/
inductive CtxSt where
  | free | active | saving | saved | fenced
  deriving DecidableEq, Repr

/-- The device's working copy of a context (R203-R214). `flags` holds the flag words of the cores that have set flags for it and
serve another context now (R75); `seen` is where CL and TAIL of the fault queue stood when an append failed, and `lostCommit` says that
a record's commit could not be stored (R407); `image` what the device keeps of the cores of a saved context beyond the save area's layout. -/
structure Ctx where
  st : CtxSt
  conf : Bool
  ratio : Nat
  ptroot : Nat
  grant : Nat
  alloc : Nat
  pool : Nat
  z : Nat
  wmark : Nat
  fq : Nat
  savea : Nat
  infl : Nat
  mapped : Nat
  held : Nat
  armed : Bool
  above : Bool
  pend : List FaultRec
  lost : Nat
  due : Bool
  seen : Nat
  lostCommit : Bool
  openRecs : List (Nat × Nat)
  key : BitVec 512
  saveSlot : Nat
  flags : Tab Nat
  image : List (Nat × Core)
  deriving DecidableEq, Repr

/-- One entry of a group table as read at selection (R255, R256). -/
structure Group where
  num : Nat
  ranges : List (Nat × Nat)
  bolt : Bool
  deriving DecidableEq, Repr

/-- The states of a kernel (R237); RETIRED and COMPLETE kernels wait here only for their record. -/
inductive KernelSt where
  | dispatching | running | complete
  deriving DecidableEq, Repr

/-- A selected launch packet (R228, R237) and what the dispatcher keeps for it; `qctx` is the space of its queue, 0 for table
space; `ran` says that some team of it has run (R230); `start` is what its packet's commit released (R232), and `made` the writes of its
fills and hand-off records (R355). -/
structure Kernel where
  kid : Nat
  ctx : Nat
  qctx : Nat
  qh : Nat
  qnum : Nat
  slot : Nat
  st : KernelSt
  status : Nat
  entry : Nat
  deadline : Nat
  cls : Nat
  chksb : Bool
  bounds : Bool
  logSize : Nat
  lanes : Nat
  allot : Nat
  part : Nat
  teams : Nat
  args : Nat
  cpl : Nat
  tr : Nat
  tc : Nat
  budget : Nat
  summ : Nat
  hoff : Nat
  user : W64
  ran : Bool
  nextId : Nat
  nextLaunch : Nat
  late : Bool
  killed : Bool
  tsel : Nat
  trun : Nat
  tend : Nat
  groups : List Group
  start : View
  made : List Nat
  deriving DecidableEq, Repr

/-- A completion record that waits for its append (R230): its context, the handle it goes to, its words, and the writes that its append
releases (R355). -/
structure Cpl where
  ctx : Nat
  handle : Nat
  words : List W64
  made : List Nat
  deriving DecidableEq, Repr

/-- The dispatcher's own record of a queue (R225, R226, R460): `again` says that a queue whose header or block is forbidden or poisoned
is to be read again. -/
structure QueueSt where
  ctx : Nat
  handle : Nat
  head : Nat
  busy : Bool
  heldWrites : List (Nat × Bool × Nat)
  failed : Option Nat
  again : Bool
  deriving DecidableEq, Repr

/-- The metadata entry of a block (R374). -/
structure BlockMeta where
  len : Nat
  run : Nat
  enc : Nat
  poison : Bool
  prot : Bool
  fix : Bool
  deriving DecidableEq, Repr

/-- A block held in the pound (R373): `once` says that it will be read once more and is then first in line for eviction, as it is
with `early` (R162). -/
structure PoundBlk where
  b : Nat
  len : Nat
  dirty : Bool
  early : Bool
  once : Bool
  deriving DecidableEq, Repr

/-- A translation-cache entry of a die (R363): the context, the page's first address and size, and the leaf. -/
structure TlbEntry where
  ctx : Nat
  base : Nat
  size : Nat
  leaf : Nat
  deriving DecidableEq, Repr

/-- A pending batch of walks (R364): the waiting team, the pages not yet started and the times passed over. -/
structure Batch where
  uid : Nat
  ctx : Nat
  pages : List Nat
  passed : Nat
  starting : Bool
  deriving DecidableEq, Repr

/-- A walk in progress (R364). -/
structure Walk where
  uid : Nat
  ctx : Nat
  page : Nat
  deriving DecidableEq, Repr

/-- The walk scheduler and translation caches of one die (R363, R364). -/
structure Walker where
  tlb : List TlbEntry
  batches : List Batch
  busy : List Walk
  deriving DecidableEq, Repr

/-- Port states (R422). -/
inductive PortSt where
  | down | training | up | spared | degraded | failed
  deriving DecidableEq, Repr

/-- A link port (R420-R422): its state, how many flits it has sent, and the first flit that the far end may still ask for again. -/
structure Port where
  st : PortSt
  tx : Nat
  rx : Nat
  deriving DecidableEq, Repr

/-- An access sent to a peer and not yet answered, or a store that failed (R173, R424, R427). A load carries the bytes that
its team's log supplies, and the register its value goes to: vector registers of `lanes`, or a uniform register when there
is none; an RMW carries its operands, lane by lane. `va` is the initiator's address. -/
structure PeerReq where
  id : Nat
  uid : Nat
  port : Nat
  dev : Nat
  rctx : Nat
  lctx : Nat
  va : Nat
  addr : Nat
  store : Bool
  bytes : List (Option Byte)
  rmw : Option (Width × AtomMod × List (W64 × W64))
  lanes : List Nat
  reg : Option Nat
  size : Nat
  sx : Bool
  sent : Nat
  failed : Option Nat
  deriving DecidableEq, Repr

/-- A leaky bucket of corrected errors (R441). -/
structure Bucket where
  row : Nat
  count : Nat
  deriving DecidableEq, Repr

/-- A spare row in use (R442). -/
structure Spare where
  bank : Nat
  k : Nat
  row : Nat
  ue : Bool
  deriving DecidableEq, Repr

/-- One memory stack (R434-R444). A bank is numbered 64 × channel + bank, a row 32768 × bank + row. `taken` counts a bank's
refreshes, `busy` holds when it is free again, `acts` the times of a row's activations, and `leakAt` when the buckets last leaked;
`scrub` holds the corrected sectors not yet written back, with the sequence number their read found (log 46, DEDUCED). `met` holds the
banks that have answered a request of this step with a retry, and `wanted` those at which such a request waits (R436, R437). -/
structure Stack where
  taken : Tab Nat
  busy : Tab Nat
  acts : Tab (List Nat)
  buckets : List Bucket
  spares : List Spare
  seqNo : Tab Nat
  scrub : List (Nat × Nat)
  leakAt : Nat
  met : List Nat
  wanted : List Nat
  deriving DecidableEq, Repr

/-- The management block (R448); `ran` and `created` say that a POWER to RUN and a CREATE have completed since reset. -/
structure Mgmt where
  pstate : Nat
  trip : Bool
  bootok : Bool
  temp : BitVec 8
  devnum : Nat
  time : Nat
  tsbase : Nat
  tssize : Nat
  ctlq : Nat
  replyq : Nat
  pageq : Nat
  coreq : Nat
  eventq : Nat
  outb : Nat
  inb : Nat
  remap : Nat
  ran : Bool
  created : Bool
  deriving DecidableEq, Repr

/-- A page command in progress (R367, R368): it waits for the drain of its page, or, with `switching`, its data is copied and MIG
is set. -/
structure PageWork where
  p : Packet
  ctx : Nat
  base : Nat
  size : Nat
  slotAt : Nat
  oldLeaf : Nat
  switching : Bool
  deriving DecidableEq, Repr

/-- What the device answers a host transaction (R429) or an inbound peer access (R426) with. -/
inductive Answer where
  | data (bytes : List Byte)
  | ack
  | failed (cause : Nat)
  | words (ws : List W64)
  | report (bytes : List Byte)
  deriving DecidableEq, Repr

/-- Which agent or input moves next: a team issues its next group, an event or host transaction happens, the next
packet of a command sequence is performed, time passes, or a demand read corrects a sector (R440). -/
inductive Agendum where
  | issue (uid : Nat)
  | event (i : Instr)
  | control
  | page
  | coreCmd
  | tick (ns : Nat)
  | corrected (stack sector : Nat)
  deriving DecidableEq, Repr

/-- The whole device. `spareOf` lists the logical cores that their cluster's spare serves, or will serve at the next launch.
`hist` holds the writes of each 16-byte granule that has been written (R386), and `nextWrite` their next number; `scRels` the SC fences,
`seqRels` the commits to sequences, and `hostSeen` and `linkSeen` what the host and the link agent of each peer device have seen (R382, R389, R390, R397);
`freed` the pages of sequences that were freed, by space and address, with the number of the next write then (R317); `lostRuns` the
contexts, starts and lengths of runs whose entries were lost (R379); `hostAsks` the accesses to peers made for the host (R429); `tails` the TAIL that the loom read last of a ring, by space and handle
(R308); `evSeen` is as `Ctx.seen`. -/
structure State where
  teams : List (Nat × Team)
  nextUid : Nat
  cores : List (Nat × Core)
  spareOf : List Nat
  ctxs : List (Nat × Ctx)
  kernels : List Kernel
  nextKid : Nat
  queues : List QueueSt
  mem : List Host.Cell
  hist : Tab Grain
  nextWrite : Nat
  scRels : List Rel
  seqRels : List SeqRel
  hostSeen : View
  linkSeen : Tab View
  freed : List (Nat × Nat × Nat)
  metas : Tab BlockMeta
  oldRuns : List (Nat × Nat)
  lostRuns : List (Nat × Nat × Nat)
  tails : List (Nat × Nat × Nat)
  runStack : Tab Nat
  reserve : Nat
  tspace : List Host.Cell
  hostMem : List Host.Cell
  pound : Tab (List (List PoundBlk))
  walkers : List Walker
  pageWork : Option PageWork
  ctlNext : Nat
  pageNext : Nat
  coreNext : Nat
  evPend : List FaultRec
  evLost : Nat
  evDue : Bool
  evSeen : Nat
  sliceClock : Tab Nat
  mgmt : Mgmt
  ports : List Port
  peers : List PeerReq
  nextPeer : Nat
  hostAsks : List Nat
  stks : List Stack
  cpls : List Cpl
  replies : List (List W64)
  answers : List Answer
  agenda : List Agendum
  issue : Issue
  free : Nat
  deriving DecidableEq, Repr

/-- No step of this machine ends in a fault: every exception the spec describes is taken as a next state, and no
behaviour of the spec stops the device for good (log 10, DESIGN CHOICE). -/
inductive Fault where
  deriving DecidableEq, Repr

/-- Why a step can be refused. -/
inductive Refusal where
  /-- An arm of `exec` that has no meaning yet raises it; safe, since it only stops. -/
  | notModelled (mnemonic : String)
  deriving DecidableEq, Repr

/-! ## Values after reset -/

/-- No flag set (R75). -/
def FlagSet.none : FlagSet := ⟨false, false, false, false⟩

/-- An inactive loop entry (R241). -/
def LoopEntry.reset : LoopEntry := ⟨0#32, false, 0, 1, 0⟩

/-- The divergence state at team start (R125, R241), at an entry address. -/
def Flow.start (entry : Nat) : Flow :=
  ⟨entry, [], 0, 0, [LoopEntry.reset, LoopEntry.reset, LoopEntry.reset], false⟩

/-- A lock of all zeros: INVALID (R265). -/
def Lock.reset : Lock := ⟨0#32, .invalid, false, false, 0, 0, 0, 0, 0, 0, 0, 0, [], ⟨[], 0⟩⟩

/-- A committed-length register that nothing is bound to (log 1, DESIGN CHOICE). -/
def ClReg.reset : ClReg := ⟨0#64, none⟩

/-- A core that serves no context (R203, R265; log 1, log 2). -/
def Core.reset : Core where
  ctx := 0
  launches := []
  word := 0
  offline := false
  spareDue := false
  spad := []
  tile := []
  rowM := []
  rowL := []
  lateSpad := []
  spadPoison := []
  tilePoison := []
  locks := []
  cl := []
  deque := []
  slice := 0
  l1 := []
  l1Last := []
  l1Early := []
  copyQ := [[], [], [], []]
  copyTurn := 0
  matQ := [[], [], [], []]
  matDone := []
  vflags := [FlagSet.none, FlagSet.none, FlagSet.none, FlagSet.none]
  mflags := [⟨FlagSet.none, false⟩, ⟨FlagSet.none, false⟩, ⟨FlagSet.none, false⟩, ⟨FlagSet.none, false⟩]
  cflags := FlagSet.none
  stop := none
  tbind := 0
  clock := 0

/-- A context that does not exist (R204) (log 1, DESIGN CHOICE). -/
def Ctx.reset : Ctx where
  st := .free
  conf := false
  ratio := 0
  ptroot := 0
  grant := 0
  alloc := 0
  pool := 0
  z := 0
  wmark := 0
  fq := 0
  savea := 0
  infl := 0
  mapped := 0
  held := 0
  armed := true
  above := false
  pend := []
  lost := 0
  due := false
  seen := 0
  lostCommit := false
  openRecs := []
  key := 0#512
  saveSlot := 0
  flags := []
  image := []

/-- A block of a page just mapped: ZERO (R374). -/
def BlockMeta.reset : BlockMeta := ⟨0, 0, 0, false, false, false⟩

/-- A team's trace state at its first issue (R455). -/
def TraceState.reset : TraceState := ⟨false, [], 0, 0, 0, 0, 0, false, false, 0, false⟩

/-- A team before it is given an identity: one lane row, no allotment, at address 0. -/
def Team.blank : Team where
  uid := 0
  kid := 0
  id := 0
  kind := .launch
  ctx := 0
  core := 0
  part := 0
  placed := false
  saved := false
  lanes := 32
  allot := 8
  logSize := 16384
  bounds := false
  status := .unplaced
  v := []
  iv := []
  p := []
  pm := []
  k := []
  kLane := []
  flow := Flow.start 0
  snap := Flow.start 0
  log := []
  zeros := []
  pols := []
  debited := []
  batch := 0
  failed := []
  svFault := ⟨0, false, 0⟩
  counts := []
  flight := []
  pend := []
  oprV := []
  seen := []
  laneSeen := []
  got := []
  relFs := []
  oprSeen := []
  start := ⟨[], 0⟩
  late := []
  unsure := []
  tiles := []
  fills := []
  fillDone := 0
  fillStall := none
  fates := []
  endPc := 0
  parent := 0
  jv := false
  jl := 0
  parentCore := 0
  trace := TraceState.reset
  walked := []
  stepOnce := false
  cur := ⟨0, 0, 0, 0, 0⟩
  booking := none
  yielded := []
  boltCores := []
  woken := false
  asks := []
  exitFlow := none

/-- A translation-cache set with no entry and no walk. -/
def Walker.reset : Walker := ⟨[], [], []⟩

/-- A port that is DOWN (R422). -/
def Port.reset : Port := ⟨.down, 0, 0⟩

/-- A stack that owes nothing and has spared nothing (log 1, DESIGN CHOICE). -/
def Stack.reset : Stack := ⟨[], [], [], [], [], [], [], 0, [], []⟩

/-- The management block's reset values (R448) (log 1, DESIGN CHOICE). -/
def Mgmt.reset : Mgmt where
  pstate := 1
  trip := false
  bootok := false
  temp := 0#8
  devnum := 0
  time := 0
  tsbase := 0
  tssize := 0
  ctlq := 0
  replyq := 0
  pageq := 0
  coreq := 0
  eventq := 0
  outb := 0
  inb := 0
  remap := 0
  ran := false
  created := false

/-- The device right after reset (R447): IDLE, no context, no team, every port DOWN, memory with nothing listed
(log 1, DESIGN CHOICE; log 2, DESIGN CHOICE; log 6, DESIGN CHOICE). -/
def State.reset : State where
  teams := []
  nextUid := 1
  cores := []
  spareOf := []
  ctxs := []
  kernels := []
  nextKid := 1
  queues := []
  mem := []
  hist := []
  nextWrite := 0
  scRels := []
  seqRels := []
  hostSeen := ⟨[], 0⟩
  linkSeen := []
  freed := []
  metas := []
  oldRuns := []
  lostRuns := []
  tails := []
  runStack := []
  reserve := Config.sectors
  tspace := []
  hostMem := []
  pound := []
  walkers := [Walker.reset, Walker.reset]
  pageWork := none
  ctlNext := 0
  pageNext := 0
  coreNext := 0
  evPend := []
  evLost := 0
  evDue := false
  evSeen := 0
  sliceClock := []
  mgmt := Mgmt.reset
  ports := List.replicate 17 Port.reset
  peers := []
  nextPeer := 1
  hostAsks := []
  stks := List.replicate 8 Stack.reset
  cpls := []
  replies := []
  answers := []
  agenda := []
  issue := ⟨0, 0, 0, 0, 0⟩
  free := 0

end Sys2Proof.Machine
end

