-- ==== Sys2Proof/Machine/Tab.lean ====
section
/-! DEFINITION. Sparse tables and byte memories: reading, writing and their canonical form (keys rise strictly, and no
entry equals what an unlisted key reads as). -/

namespace Sys2Proof.Machine

/-- The value at a key; an unlisted key reads as `d`. -/
def tabGet {α : Type} (d : α) : Tab α → Nat → α
  | [], _ => d
  | (k, v) :: t, n => if n = k then v else tabGet d t n

/-- Puts an entry at its place in the order of the keys. -/
def tabPut {α : Type} : Tab α → Nat → α → Tab α
  | [], n, v => [(n, v)]
  | (k, w) :: t, n, v =>
    if n = k then (n, v) :: t else if n < k then (n, v) :: (k, w) :: t else (k, w) :: tabPut t n v

/-- Removes the entry of a key. -/
def tabErase {α : Type} : Tab α → Nat → Tab α
  | [], _ => []
  | (k, w) :: t, n => if n = k then tabErase t n else (k, w) :: tabErase t n

/-- Writes a key: the default value removes the entry, so that equal contents are equal tables. -/
def tabSet {α : Type} [DecidableEq α] (d : α) (t : Tab α) (n : Nat) (v : α) : Tab α :=
  if v = d then tabErase t n else tabPut t n v

/-- Writes the values at consecutive keys from `n`. -/
def tabSetMany {α : Type} [DecidableEq α] (d : α) (t : Tab α) (n : Nat) : List α → Tab α
  | [] => t
  | v :: vs => tabSetMany d (tabSet d t n v) (n + 1) vs

/-- Writes a list of keys and values, in order. -/
def tabSetAll {α : Type} [DecidableEq α] (d : α) (t : Tab α) : List (Nat × α) → Tab α
  | [] => t
  | (n, v) :: vs => tabSetAll d (tabSet d t n v) vs

/-- Removes every entry with a key from `lo` up to but not including `hi`. -/
def tabDrop {α : Type} (t : Tab α) (lo hi : Nat) : Tab α := t.filter (fun e => e.1 < lo || hi ≤ e.1)

/-- The entries with a key from `lo` up to but not including `hi`. -/
def tabKeep {α : Type} (t : Tab α) (lo hi : Nat) : Tab α := t.filter (fun e => lo ≤ e.1 && e.1 < hi)

/-- Keys rise strictly. -/
def tabSorted {α : Type} : Tab α → Bool
  | [] => true
  | (k, _) :: t => t.all (fun e => k < e.1) && tabSorted t

/-- The canonical form of a sparse table. -/
def tabWf {α : Type} [DecidableEq α] (d : α) (t : Tab α) : Bool := tabSorted t && t.all (fun e => e.2 ≠ d)

/-- What an unlisted byte of any memory reads as (log 2, DESIGN CHOICE). -/
def unlistedByte : Byte := 0#8

/-- One byte of a memory (log 2, DESIGN CHOICE). -/
def memByte (m : List Host.Cell) (a : Nat) : Byte := tabGet unlistedByte m a

/-- `n` bytes of a memory from `a` up. -/
def memBytes (m : List Host.Cell) (a n : Nat) : List Byte := (rangeFrom a n).map (memByte m)

/-- The little-endian number in `n` bytes of a memory (R3). -/
def memNat (m : List Host.Cell) (a n : Nat) : Nat := natOf (memBytes m a n)

/-- Writes bytes from `a` up. -/
def memWrite (m : List Host.Cell) (a : Nat) (bs : List Byte) : List Host.Cell := tabSetMany unlistedByte m a bs

/-- Writes the bytes that are present of a masked run from `a` up. -/
def memWriteMasked (m : List Host.Cell) (a : Nat) : List (Option Byte) → List Host.Cell
  | [] => m
  | some b :: bs => memWriteMasked (tabSet unlistedByte m a b) (a + 1) bs
  | none :: bs => memWriteMasked m (a + 1) bs

/-- Writes the `n` little-endian bytes of a number. -/
def memWriteNat (m : List Host.Cell) (a n v : Nat) : List Host.Cell := memWrite m a (bytesOf n v)

/-- The canonical form of a memory: addresses rise strictly and no entry equals what an unlisted address reads as. -/
def memoryWf (m : List Host.Cell) : Bool := tabWf unlistedByte m

/-- The first value at a key of an association list. -/
def find? {α : Type} : List (Nat × α) → Nat → Option α
  | [], _ => none
  | (k, v) :: t, n => if n = k then some v else find? t n

/-- Replaces element `i` of a list, when there is one. -/
def setAt {α : Type} : List α → Nat → α → List α
  | [], _, _ => []
  | _ :: t, 0, v => v :: t
  | x :: t, n + 1, v => x :: setAt t n v

/-- Element `i` of a list, or `d`. -/
def nth {α : Type} (d : α) : List α → Nat → α
  | [], _ => d
  | x :: _, 0 => x
  | _ :: t, n + 1 => nth d t n

end Sys2Proof.Machine
end

