-- ==== Sys2Proof/Machine/Flow.lean ====
section
/-! DEFINITION. Divergence state, the choice of the next program counter and the hardware loops (07 R125-R127,
R135-R137, R140). -/

namespace Sys2Proof.Machine

/-- The state of a lane (R125). -/
def laneState (fl : Flow) (i : Nat) : LaneState := tabGet .active fl.lanes i

/-- Whether a lane is in em. -/
def laneActive (fl : Flow) (i : Nat) : Bool := laneState fl i == .active

/-- The active lanes of a team of `nl` lanes, ascending. -/
def activeLanes (nl : Nat) (fl : Flow) : List Nat := (List.range nl).filter (laneActive fl)

/-- Sets the state of a lane. -/
def setLane (fl : Flow) (i : Nat) (l : LaneState) : Flow := { fl with lanes := tabSet .active fl.lanes i l }

/-- Sets the state of several lanes. -/
def setLanes (fl : Flow) (is : List Nat) (l : LaneState) : Flow := is.foldl (fun f i => setLane f i l) fl

/-- The lesser of two addresses, where none stands for infinity. -/
def omin : Option Nat → Option Nat → Option Nat
  | none, b => b
  | a, none => a
  | some a, some b => some (min a b)

/-- The lanes that wait at a call depth, with their resume addresses. -/
def waitingAt (fl : Flow) (d : Nat) : List (Nat × Nat) :=
  fl.lanes.filterMap fun e =>
    match e.2 with
    | .waiting r d' => if d' = d then some (e.1, r) else none
    | _ => none

/-- The frontier of a call depth (R125): none when no lane waits there. -/
def frontier (fl : Flow) (d : Nat) : Option Nat := (waitingAt fl d).foldl (fun m e => omin m (some e.2)) none

/-- The highest call depth below `d` at which some lane waits (R126). -/
def lowerDepth (fl : Flow) : Nat → Option Nat
  | 0 => none
  | d + 1 => if (waitingAt fl d).isEmpty then lowerDepth fl d else some d

/-- Every lane waiting at depth `d` with resume address `n` becomes active (R126). -/
def mergeAt (fl : Flow) (d n : Nat) : Flow :=
  setLanes fl ((waitingAt fl d).filterMap fun e => if e.2 = n then some e.1 else none) .active

/-- Puts the team at address `n` of depth `d`, given the next addresses of its active lanes (R126). -/
def goTo (fl : Flow) (d n : Nat) (nexts : List (Nat × Nat)) : Flow :=
  let parked := nexts.foldl (fun f e => if n < e.2 then setLane f e.1 (.waiting e.2 d) else f) fl
  let merged := mergeAt parked d n
  { merged with pc := n, depth := d, uni := fl.uni && (waitingAt parked d).all (fun e => e.2 ≠ n) }

/-- The team's next address after an instruction (R126, R140): `nexts` holds the next address of every active lane and
`u` the uniform next address, none for infinity. None when the team ends. -/
def chooseNext (fl : Flow) (nexts : List (Nat × Nat)) (u : Option Nat) : Option Flow :=
  let own := if fl.uni then u else nexts.foldl (fun m e => omin m (some e.2)) none
  match omin (frontier fl fl.depth) own with
  | some n => some (goTo fl fl.depth n nexts)
  | none =>
    match lowerDepth fl fl.depth with
    | none => none
    | some d =>
      match frontier fl d with
      | none => none
      | some n => some (goTo { fl with uni := false } d n [])

/-- A loop entry by number. -/
def loopAt (fl : Flow) (i : Nat) : LoopEntry := nth LoopEntry.reset fl.loops i

/-- The address of the last word of a loop's body (R135). -/
def loopEnd (e : LoopEntry) : Nat := e.start + 4 * (e.len - 1)

/-- Inserts a number into a list ordered by descending key. -/
def insertDesc (key : Nat → Nat) (x : Nat) : List Nat → List Nat
  | [] => [x]
  | y :: ys => if key y ≤ key x then x :: y :: ys else y :: insertDesc key x ys

/-- A list ordered by descending key. -/
def sortDesc (key : Nat → Nat) (xs : List Nat) : List Nat := xs.foldr (insertDesc key) []

/-- The active entries of the current depth that end at a word, innermost first (R136). -/
def loopsEnding (fl : Flow) (w : Nat) : List Nat :=
  let is := [0, 1, 2].filter fun i =>
    let e := loopAt fl i
    e.on && loopEnd e == w && e.depth == fl.depth
  sortDesc (fun i => (loopAt fl i).start) is

/-- Decides the back-edges of the entries given, innermost first (R136): the counters that fall, the entries that pop and
the start a taken back-edge leads to. -/
def backEdges (fl : Flow) : List Nat → Flow × Option Nat
  | [] => (fl, none)
  | i :: is =>
    let e := loopAt fl i
    let c := e.ctr - 1#32
    if c = 0#32 then backEdges { fl with loops := setAt fl.loops i { e with ctr := c, on := false } } is
    else ({ fl with loops := setAt fl.loops i { e with ctr := c } }, some e.start)

/-- The loop decision after the word at `w` completes (R136): the flow, the next addresses and the uniform next address,
and whether a back-edge is taken. -/
def loopStep (fl : Flow) (w : Nat) (nexts : List (Nat × Nat)) (u : Option Nat) :
    Flow × List (Nat × Nat) × Option Nat × Bool :=
  let due := if fl.uni then u == some (w + 4) else nexts.any (fun e => e.2 == w + 4)
  if due then
    match backEdges fl (loopsEnding fl w) with
    | (f, some st) =>
      (f, nexts.map (fun e => if e.2 = w + 4 then (e.1, st) else e), if u = some (w + 4) then some st else u, true)
    | (f, none) => (f, nexts, u, false)
  else (fl, nexts, u, false)

/-- Pops the entries that the team has left (R137). -/
def popLoops (fl : Flow) : Flow :=
  { fl with loops := fl.loops.map fun e =>
      if e.on && (decide (fl.depth < e.depth) ||
          (fl.depth == e.depth && (decide (fl.pc < e.start) || decide (loopEnd e < fl.pc))))
      then { e with on := false } else e }

/-- Word `w` of em (R21, R139) (log 12, DEDUCED). -/
def emWord (nl : Nat) (fl : Flow) (w : Nat) : Nat :=
  (List.range 32).foldl (fun a j => if 32 * w + j < nl && laneActive fl (32 * w + j) then a + 2 ^ j else a) 0

/-- The summary word of em (R21). -/
def emSummary (nl : Nat) (fl : Flow) : Nat :=
  (List.range 32).foldl (fun a w => if emWord nl fl w = 0 then a else a + 2 ^ w) 0

end Sys2Proof.Machine
end

