-- ==== Sys2Proof/Machine/Base.lean ====
section
/-! DEFINITION. Reading and writing the parts of the state: cores, contexts, teams and registers; sectors (10 R207-R216);
translation (19 R356-R363); and the store of a block (20 R376-R378). -/

namespace Sys2Proof.Machine

/-! ## Parts of the state -/

/-- A core by number. -/
def getCore (s : State) (n : Nat) : Core := tabGet Core.reset s.cores n

/-- Replaces a core. -/
def setCore (s : State) (n : Nat) (c : Core) : State := { s with cores := tabPut s.cores n c }

/-- A context by number. -/
def getCtx (s : State) (n : Nat) : Ctx := tabGet Ctx.reset s.ctxs n

/-- Replaces a context. -/
def setCtx (s : State) (n : Nat) (c : Ctx) : State := { s with ctxs := tabPut s.ctxs n c }

/-- A team by its number. -/
def getTeam (s : State) (u : Nat) : Team := tabGet Team.blank s.teams u

/-- Replaces a team. -/
def setTeam (s : State) (u : Nat) (t : Team) : State := { s with teams := tabPut s.teams u t }

/-- Changes a team. -/
def modTeam (s : State) (u : Nat) (f : Team → Team) : State := setTeam s u (f (getTeam s u))

/-- Changes a core. -/
def modCore (s : State) (n : Nat) (f : Core → Core) : State := setCore s n (f (getCore s n))

/-- Changes a context. -/
def modCtx (s : State) (n : Nat) (f : Ctx → Ctx) : State := setCtx s n (f (getCtx s n))

/-- The die of a core (R6). -/
def dieOf (core : Nat) : Nat := core / 80

/-- The cluster of a core (R6). -/
def clusterOf (core : Nat) : Nat := core / 16

/-- The register-file bytes, scratchpad bytes and tiles of a partition word (R11). -/
def rfgBytes (word : Nat) : Nat := field word 0 6 * 65536
def spgBytes (word : Nat) : Nat := field word 6 6 * 65536
def actTiles (word : Nat) : Nat := field word 12 8

/-- Whether a partition word is valid (R12). -/
def wordOk (w : Nat) : Bool :=
  decide (1 ≤ field w 0 6) && decide (field w 0 6 ≤ 32) && decide (field w 6 6 ≤ 48) && decide (field w 12 8 ≤ 192) &&
    decide (w / 2 ^ 20 = 0) && decide (field w 0 6 * 64 + field w 6 6 * 64 + field w 12 8 * 16 ≤ 4096)

/-- The teams on a core. -/
def teamsOn (s : State) (core : Nat) : List (Nat × Team) :=
  s.teams.filter fun e => e.2.placed && e.2.core == core && !(e.2.status == .ended)

/-! ## Registers (R21, R41) -/

/-- The key of a lane's vector register. -/
def vkey (lane r : Nat) : Nat := lane * 128 + r

/-- Vector register `r` of a lane. -/
def vreg (t : Team) (lane r : Nat) : W32 := tabGet 0#32 t.v (vkey lane r)

/-- Writes a vector register of a lane. -/
def setV (t : Team) (lane r : Nat) (w : W32) : Team := { t with v := tabSet 0#32 t.v (vkey lane r) w }

/-- Uniform register `n`: k0 reads 0 (R21). -/
def kreg (t : Team) (n : Nat) : W64 := if n = 0 then 0#64 else tabGet 0#64 t.k n

/-- The key of a uniform register as a lane finds it. -/
def klKey (lane n : Nat) : Nat := lane * 512 + n

/-- Uniform register `n` as a lane of the instruction being issued finds it (R51). -/
def kregAt (t : Team) (lane n : Nat) : W64 := (find? t.kLane (klKey lane n)).getD (kreg t n)

/-- Writes a uniform register: a write to k0 is discarded (R41). -/
def setK (t : Team) (n : Nat) (w : W64) : Team := if n = 0 then t else { t with k := tabSet 0#64 t.k n w }

/-- Predicate `p` of a lane: p0 reads true (R21). -/
def preg (t : Team) (lane p : Nat) : Bool := p == 0 || tabGet false t.p (lane * 8 + p)

/-- Writes a predicate of a lane: a write to p0 is ignored (R21). -/
def setP (t : Team) (lane p : Nat) (b : Bool) : Team :=
  if p = 0 then t else { t with p := tabSet false t.p (lane * 8 + p) b }

/-- The active lanes of a team. -/
def lanesOf (t : Team) : List Nat := activeLanes t.lanes t.flow

/-- The descriptor words k(n), k(n+1), … -/
def kRun (t : Team) (n count : Nat) : List Nat := (rangeFrom n count).map fun i => (kreg t i).toNat

/-! ## Records and sectors (R207-R216, R407) -/

/-- A record with no team, no core and no detail (R406). -/
def blankRec (s : State) (cause ctx : Nat) : FaultRec :=
  { cause := cause, park := false, stopc := false, lane := none, uid := none, ctx := ctx, core := 255, part := 0,
    team := 0, qnum := 0, pc := 0, addr := 0, time := s.mgmt.time, w5 := 0, w6 := 0, w7 := 0, lost := 0 }

/-- Puts a record into the pending buffer of its context or of the device (R407): a report that finds sixteen records
waiting is dropped and counted; a replay or stop record never is. -/
def pushRec (s : State) (r : FaultRec) : State :=
  let report := !r.park && !r.stopc
  if r.ctx = 0 then
    if report && decide (16 ≤ s.evPend.length) then { s with evLost := s.evLost + 1 }
    else { s with evPend := s.evPend ++ [r], evDue := s.evDue || s.evPend.isEmpty }
  else
    let c := getCtx s r.ctx
    if report && decide (16 ≤ c.pend.length) then setCtx s r.ctx { c with lost := c.lost + 1 }
    else setCtx s r.ctx { c with pend := c.pend ++ [r], due := c.due || c.pend.isEmpty }

/-- The sectors in the slices of a context's cores: S of R207. -/
def slicesOf (s : State) (id : Nat) : Nat :=
  s.cores.foldl (fun a e => if e.2.ctx = id then a + e.2.slice else a) 0

/-- The available freeboard V (R207). -/
def availOf (s : State) (id : Nat) : Nat := (getCtx s id).pool + slicesOf s id

/-- Watches V against the low watermark (R213): a fall below WMARK is recorded when no record has been appended since V
last stood at WMARK + Z or more (log 58, DEDUCED). -/
def watchLow (s : State) (id : Nat) : State :=
  let c := getCtx s id
  let v := availOf s id
  if v < c.wmark then
    let s1 := if c.above then setCtx s id { c with above := false, armed := false } else s
    if c.above && c.armed then pushRec s1 { blankRec s 0x22 id with w5 := v } else s1
  else setCtx s id { c with above := true, armed := c.armed || decide (c.wmark + c.z ≤ v) }

/-- Sectors enter POOL: a pending inflate takes them first, and its end is recorded (R214). -/
def enterPool (s : State) (id n : Nat) : State :=
  let c := getCtx s id
  let take := min n c.infl
  let c' := { c with pool := c.pool + (n - take), infl := c.infl - take, grant := c.grant - take }
  let s1 := { setCtx s id c' with reserve := s.reserve + take }
  let s2 := if take ≠ 0 ∧ c'.infl = 0 then pushRec s1 { blankRec s 0x23 id with w5 := c'.grant } else s1
  watchLow s2 id

/-- The core's whole slice returns to POOL (R208, R212). -/
def returnSlice (s : State) (core : Nat) : State :=
  let c := getCore s core
  if c.slice = 0 then s else enterPool (setCore s core { c with slice := 0 }) c.ctx c.slice

/-- Sectors return to a core's slice, and what lies above Z goes to POOL when the slice holds more than 2Z (R208). A core
that no longer serves the context passes them to POOL. -/
def giveSlice (s : State) (core id n : Nat) : State :=
  let c := getCore s core
  if c.ctx ≠ id then enterPool s id n
  else
    let z := (getCtx s id).z
    let have_ := c.slice + n
    if 2 * z < have_ then enterPool (setCore s core { c with slice := z }) id (have_ - z)
    else watchLow (setCore s core { c with slice := have_ }) id

/-- Who pays a debit: a core's slice, or POOL for a party with no core. -/
inductive Payer where
  | core (n : Nat)
  | pool
  deriving DecidableEq, Repr

/-- Debits 8 sectors (R208, R209): whether the debit was covered, after a draw where the slice was short. -/
def debit8 (s : State) (p : Payer) (id : Nat) : State × Bool :=
  let c := getCtx s id
  match p with
  | .pool =>
    if 8 ≤ c.pool then (watchLow (setCtx s id { c with pool := c.pool - 8, held := c.held + 8 }) id, true)
    else (s, false)
  | .core n =>
    let k := getCore s n
    let draw := if k.slice < 8 then min c.z c.pool else 0
    if 8 ≤ k.slice + draw then
      (watchLow (setCore (setCtx s id { c with pool := c.pool - draw, held := c.held + 8 }) n
        { k with slice := k.slice + draw - 8 }) id, true)
    else (setCore (setCtx s id { c with pool := c.pool - draw }) n { k with slice := k.slice + draw }, false)

/-- Sectors go back to whoever paid (R210). -/
def giveBack (s : State) (p : Payer) (id n : Nat) : State :=
  match p with
  | .core c => giveSlice s c id n
  | .pool => enterPool s id n

/-- A debit of `n` sectors leaves D and returns to whoever paid (R152, R216). -/
def undebit (s : State) (p : Payer) (id n : Nat) : State :=
  if n = 0 then s else giveBack (modCtx s id fun c => { c with held := c.held - n }) p id n

/-! ## Runs (R374, R377) -/

/-- The home slice of a block (R370). -/
def homeSlice (b : Nat) : Nat := field b 0 7 ^^^ field b 7 7 ^^^ field b 14 7 ^^^ field b 21 7 ^^^ field b 28 5

/-- The stack of a block's home slice, and its die (R8, R370) (log 7, DESIGN CHOICE). -/
def homeStack (b : Nat) : Nat := homeSlice b / 16
def homeDie (b : Nat) : Nat := homeStack b / 4

/-- The metadata of a block. -/
def metaOf (s : State) (b : Nat) : BlockMeta := tabGet BlockMeta.reset s.metas b

/-- Writes the metadata of a block. -/
def setMeta (s : State) (b : Nat) (m : BlockMeta) : State := { s with metas := tabSet BlockMeta.reset s.metas b m }

/-- The runs in use: those of the entries, the old runs not yet freed, and those that lost their entry (R379). -/
def runsInUse (s : State) : List (Nat × Nat) :=
  (s.metas.filterMap fun e => if e.2.len = 0 then none else some (e.2.run, e.2.len)) ++ s.oldRuns ++ s.lostRuns.map (·.2)

/-- The first place from `x` on, in a stack, where a run of `n` sectors overlaps no run in use and crosses no aligned
2 KiB boundary (R374) (log 7, DESIGN CHOICE). -/
def findRun (used : List (Nat × Nat)) (stack n : Nat) : Nat → Nat → Nat
  | 0, x => x
  | fuel + 1, x =>
    let y := stack * 2 ^ 31 + x % 2 ^ 31
    if y % 64 + n ≤ 64 ∧ used.all (fun r => r.1 + r.2 ≤ y || y + n ≤ r.1) then y
    else findRun used stack n fuel (x + 1)

/-- A new run of `n` sectors for a block (R377): in the stack of its old run, or in the stack its page was last moved to,
or in its home stack; where in the stack is free (log 7, DESIGN CHOICE). -/
def newRun (s : State) (b n : Nat) : Nat :=
  let m := metaOf s b
  let stack :=
    if m.len ≠ 0 then m.run / 2 ^ 31
    else match find? s.runStack (b / 256) with
      | some k => k
      | none => homeStack b
  findRun (runsInUse s) stack n (64 * (s.metas.length + s.oldRuns.length + s.lostRuns.length + 2) + 2 ^ 31) (Config.freeNat s.free b)

/-! ## The pound (R373) -/

/-- The blocks and lines of a slice of the pound. -/
def poundOf (s : State) (sl : Nat) : List (List PoundBlk) := tabGet [] s.pound sl

/-- The sectors of a line in use. -/
def lineSectors (l : List PoundBlk) : Nat := l.foldl (fun a k => a + k.len) 0

/-- Removes a block from the pound; it is written back first when dirty, which changes nothing else (R373). -/
def poundDrop (s : State) (b : Nat) : State :=
  let ls := (poundOf s (homeSlice b)).map (fun l => l.filter (fun k => k.b != b))
  { s with pound := tabSet [] s.pound (homeSlice b) (ls.filter (fun l => !l.isEmpty)) }

/-- Whether a block of length `n` finds room in a line: a block of 8 sectors, RAW or protected, fills a line alone (R373). -/
def lineRoom (n : Nat) (l : List PoundBlk) : Bool :=
  l.isEmpty || (decide (n < 8) && l.all (fun k => decide (k.len < 8)) && decide (lineSectors l + n ≤ 8) && decide (l.length < 4))

/-- The mates a line keeps beside a block of length `n`: those first in line for eviction leave first, and then the oldest, at
most four of them (R162, R373). -/
def lineFit (n : Nat) : Nat → List PoundBlk → List PoundBlk
  | 0, l => l
  | fuel + 1, l =>
    if lineRoom n l then l
    else
      match l.find? (·.early) with
      | some k => lineFit n fuel (l.filter (fun j => j.b != k.b))
      | none => lineFit n fuel (l.drop 1)

/-- A line with a block put into it, once its mates have made room; after four evictions the block is not kept (R373). -/
def lineTake (k : PoundBlk) (l : List PoundBlk) : List PoundBlk :=
  let r := lineFit k.len 4 l
  if lineRoom k.len r then r ++ [k] else r

/-- Keeps a block in the pound after a read or a write (R162, R373): in the line that holds it, or in a line with room, or
in a new line while the slice has one, or in a victim line: one that holds a block that is first in line for eviction, or one that is
free to choose (log 19, DESIGN CHOICE). A block that was to
be read once more is first in line for eviction after that read. -/
def poundKeep (s : State) (b : Nat) (dirty : Bool) (pol : Pol) : State :=
  let m := metaOf s b
  let sl := homeSlice b
  let ls := poundOf s sl
  let was := ls.flatten.find? fun j => j.b == b
  let k : PoundBlk :=
    ⟨b, m.len, dirty || (match was with | some j => j.dirty | none => false),
      pol == .strm || (!dirty && (match was with | some j => j.once | none => false)), pol == .last⟩
  let ls1 :=
    match was with
    | some _ => ls.map fun l => if l.any (fun j => j.b == b) then lineTake k (l.filter (fun j => j.b != b)) else l
    | none =>
      match ls.findIdx? (lineRoom m.len) with
      | some i => setAt ls i (nth [] ls i ++ [k])
      | none =>
        if ls.length < 4096 then ls ++ [[k]]
        else
          let i := (ls.findIdx? fun l => l.any (·.early)).getD (Config.freeNat s.free (b + 1) % 4096)
          setAt ls i (lineTake k (nth [] ls i))
  { s with pound := tabSet [] s.pound sl ls1 }

/-- The policy of a write marks the block it left in the pound (R162). -/
def poundMark (s : State) (b : Nat) (pol : Pol) : State :=
  let mark := fun (k : PoundBlk) => if k.b = b then { k with early := pol == .strm, once := pol == .last } else k
  { s with pound := tabSet [] s.pound (homeSlice b) ((poundOf s (homeSlice b)).map fun l => l.map mark) }

/-- Whether a block lies in the pound. -/
def inPound (s : State) (b : Nat) : Bool := (poundOf s (homeSlice b)).any fun l => l.any fun k => k.b == b

/-! ## Sector sequence numbers, refresh and activations (R434-R440) -/

/-- Stack `k` of the device. -/
def stackOf (s : State) (k : Nat) : Stack := nth Stack.reset s.stks k

/-- Changes a stack. -/
def modStack (s : State) (k : Nat) (f : Stack → Stack) : State := { s with stks := setAt s.stks k (f (stackOf s k)) }

/-- A write, an allocation or a freeing of `n` sectors of a run raises their sequence numbers (R440) (log 46, DEDUCED). -/
def bumpSeq (s : State) (run n : Nat) : State :=
  if n = 0 then s
  else modStack s (run / 2 ^ 31) fun k => { k with
    seqNo := (rangeFrom run n).foldl (fun t x => tabSet 0 t x ((tabGet 0 t x + 1) % 65536)) k.seqNo }

/-- The bank and the row of a sector, as a stack numbers them (R434). -/
def bankOf (run : Nat) : Nat := 64 * field run 3 5 + field run 8 6
def rowKey (run : Nat) : Nat := 32768 * bankOf run + field run 16 15

/-- The banks and the rows that a run of `n` sectors lies in: a run may pass from one channel to the next. -/
def runBanks (run n : Nat) : List Nat := dedupNat ((rangeFrom run n).map bankOf)
def runRows (run n : Nat) : List Nat := dedupNat ((rangeFrom run n).map rowKey)

/-- The activations of a row within the last 32 ms (R436) (log 45, DEDUCED). -/
def actCount (time : Nat) (k : Stack) (row : Nat) : Nat :=
  ((tabGet [] k.acts row).filter fun x => decide (time < x + 32000000)).length

/-- An activation of a row (R438); those of more than 32 ms ago are forgotten. -/
def actRow (time : Nat) (k : Stack) (row : Nat) : Stack :=
  { k with acts := tabSet [] k.acts row ((tabGet [] k.acts row).filter (fun x => decide (time < x + 32000000)) ++ [time]) }

/-- The refreshes that a bank owes: one each 3900 ns, at most eight (R436) (log 45, DEDUCED). -/
def owedBy (time : Nat) (k : Stack) (bank : Nat) : Nat := min 8 (time / 3900 - tabGet 0 k.taken bank)

/-- A bank is busy for a time (R437). -/
def busyFor (time ns bank : Nat) (k : Stack) : Stack :=
  { k with busy := tabSet 0 k.busy bank (max time (tabGet 0 k.busy bank) + ns) }

/-- `n` refreshes of a bank are taken, and the bank is busy for a time (R436-R438) (log 45, DEDUCED). -/
def takeRefresh (time n ns bank : Nat) (k : Stack) : Stack :=
  busyFor time ns bank { k with taken := tabSet 0 k.taken bank (max (tabGet 0 k.taken bank) (time / 3900 - 8) + n) }

/-- A bank that owes all eight refreshes takes one before it serves (R436). -/
def serveBank (time : Nat) (k : Stack) (bank : Nat) : Stack :=
  if owedBy time k bank = 8 ∧ tabGet 0 k.busy bank ≤ time then takeRefresh time 1 350 bank k else k

/-- The same of a bank numbered over all stacks. -/
def serveAt (s : State) (k : Nat) : State := modStack s (k / 2048) fun x => serveBank s.mgmt.time x (k % 2048)

/-- The latest time at which one of some banks is free again, when one is busy (R437). -/
def banksBusy (s : State) (banks : List Nat) : Option Nat :=
  banks.foldl (fun m k =>
    let till := tabGet 0 (stackOf s (k / 2048)).busy (k % 2048)
    if s.mgmt.time < till then some (max till (m.getD 0)) else m) none

/-- Whether a bank answers a request with a retry: it is busy, or owes all eight refreshes (R436, R437). -/
def bankShut (time : Nat) (k : Stack) (bank : Nat) : Bool := decide (time < tabGet 0 k.busy bank) || owedBy time k bank == 8

/-- A request reaches some banks and rows of a stack: they serve it, and the rows are activated (R438), or a bank answers with a retry
(R437). -/
def askBanks (time : Nat) (banks rows : List Nat) (k : Stack) : Stack :=
  let shut := banks.filter (bankShut time k)
  if shut.isEmpty then rows.foldl (actRow time) { k with wanted := k.wanted.filter fun b => !banks.contains b }
  else { k with met := k.met ++ shut }

/-- A request for a run reaches its banks (R436-R438). Every access but a load's happens in a step that a retry response undoes
(log 45, DEDUCED). -/
def serveRun (s : State) (run n : Nat) : State :=
  if n = 0 then s else modStack s (run / 2 ^ 31) (askBanks s.mgmt.time (runBanks run n) (runRows run n))

/-- A read of a block that is not in the pound goes to its run (R438). -/
def activate (s : State) (b : Nat) : State :=
  if inPound s b then s else serveRun s (metaOf s b).run (metaOf s b).len

/-- A read of a block that no core makes: a loom's, the dispatcher's, a fetch of instructions, or one from outside (R373, R438). -/
def readThrough (s : State) (b : Nat) : State := poundKeep (activate s b) b false .l1

/-- The banks, over all stacks, that have answered a request of this step with a retry. -/
def banksMet (s : State) : List Nat := dedupNat (s.stks.zipIdx.flatMap fun k => k.1.met.map (2048 * k.2 + ·))

/-! ## The store of a block (R377, R378) -/

/-- The bytes of a block after a masked write (R377). -/
def mergeBytes : List Byte → List (Option Byte) → List Byte
  | _ :: os, some b :: bs => b :: mergeBytes os bs
  | o :: os, none :: bs => o :: mergeBytes os bs
  | os, _ => os

/-- The base die applies a write of a block's bytes, present bytes only (R377, R378): `deb` says that a debit of 8 covers
it, and `pay` who gets the refund (R210). -/
def storeBlock (s : State) (id : Nat) (pay : Payer) (deb : Bool) (b : Nat) (bytes : List (Option Byte)) : State :=
  let m := metaOf s b
  let full := bytes.all Option.isSome && bytes.length == 256
  if m.poison && !full then (if deb then undebit s pay id 8 else s)
  else
    let v := mergeBytes (memBytes s.mem (b * 256) 256) bytes
    let code := selectEnc (m.prot || m.fix) v
    let n := encSectors code
    let o := m.len
    let s0 := if full then s else activate s b
    let s1 := { s0 with mem := memWriteMasked s0.mem (b * 256) bytes }
    let m' := { m with enc := code, len := n, poison := false, run := if n = o then m.run else if n = 0 then 0 else newRun s b n }
    let s2 := setMeta s1 b m'
    let s3 := if n ≠ o ∧ o ≠ 0 then { s2 with oldRuns := s2.oldRuns ++ [(m.run, o)] } else s2
    let s4 := modCtx s3 id fun c => { c with alloc := c.alloc + n - o, held := if deb then c.held - 8 else c.held }
    let s5 := poundKeep (serveRun (bumpSeq (if n = o then s4 else bumpSeq s4 m'.run n) m'.run n) m'.run n) b true .l1
    giveBack s5 pay id ((if deb then 8 else 0) + o - n)

/-! ## Translation (R356-R363) -/

/-- A 64-bit entry of table space. -/
def tableWord (s : State) (a : Nat) : Nat := memNat s.tspace a 8

/-- A leaf found by a walk: its entry, the address of its slot, and the page it maps. -/
structure Leaf where
  bits : Nat
  slotAt : Nat
  base : Nat
  size : Nat
  deriving DecidableEq, Repr

/-- Rights and fields of a leaf entry (R359). -/
def leafR (l : Nat) : Bool := bitAt l 2
def leafW (l : Nat) : Bool := bitAt l 3
def leafX (l : Nat) : Bool := bitAt l 4
def leafUpg (l : Nat) : Bool := bitAt l 5
def leafProt (l : Nat) : Bool := bitAt l 6
def leafTgt (l : Nat) : Nat := field l 7 2
def leafPslot (l : Nat) : Nat := field l 9 6
def leafMig (l : Nat) : Bool := bitAt l 15
def leafFrame (l : Nat) : Nat := field l 16 40
def leafFix (l : Nat) : Bool := bitAt l 56

/-- Whether a present leaf entry is well formed for a page of 64 KiB or of 2 MiB (R359, R360). -/
def leafOk (big : Bool) (e : Nat) : Bool :=
  bitAt e 1 && decide (field e 57 7 = 0) && decide (leafTgt e ≤ 2) &&
    (if leafTgt e = 2 then decide (leafPslot e < 48) else decide (leafPslot e = 0)) &&
    (!leafFix e || leafTgt e == 0) && (leafTgt e != 0 || decide (leafFrame e < 2 ^ 25)) &&
    (!big || leafFrame e % 32 == 0)

/-- The table a pointer entry names (R358), when it is present and well formed. -/
def ptrTable (align e : Nat) : Option Nat :=
  let t := field e 9 47 * 512
  if bitAt e 0 && !bitAt e 1 && field e 2 7 == 0 && field e 56 8 == 0 && t % align == 0 then some t else none

/-- The slot of the L1 entry of an address, when the L3 and L2 pointers lead to it (R357). -/
def l1Slot (s : State) (root va : Nat) : Option Nat :=
  match ptrTable 65536 (tableWord s (root + 16 * field va 44 12)) with
  | none => none
  | some t2 =>
    match ptrTable 32768 (tableWord s (t2 + 16 * field va 32 12)) with
    | none => none
    | some t1 => some (t1 + 16 * field va 21 11)

/-- The walk of a virtual address (R357, R360); none where it stops. -/
def walk (s : State) (id va : Nat) : Option Leaf :=
  match l1Slot s (getCtx s id).ptroot va with
  | none => none
  | some a1 =>
    let e1 := tableWord s a1
    if bitAt e1 0 && bitAt e1 1 then
      if leafOk true e1 then some ⟨e1, a1, va / 2 ^ 21 * 2 ^ 21, 2 ^ 21⟩ else none
    else
      match ptrTable 512 e1 with
      | none => none
      | some t0 =>
        let a0 := t0 + 16 * field va 16 5
        let e0 := tableWord s a0
        if bitAt e0 0 && leafOk false e0 then some ⟨e0, a0, va / 65536 * 65536, 65536⟩ else none

/-- What a write of table space writes: not the mirror of the remap table, which is read-only (R442). -/
def spareMirror (s : State) (a : Nat) (bytes : List (Option Byte)) : List (Option Byte) :=
  let m := s.mgmt.remap
  if m = 0 then bytes
  else (bytes.zipIdx a).map fun e => if m ≤ e.2 ∧ e.2 < m + 2 ^ 20 then none else e.1

/-- Writes table space. -/
def tableWrite (s : State) (a : Nat) (bytes : List (Option Byte)) : State :=
  { s with tspace := memWriteMasked s.tspace a (spareMirror s a bytes) }

/-- Writes a number to table space. -/
def tableWriteNat (s : State) (a n v : Nat) : State := tableWrite s a ((bytesOf n v).map some)

/-- Sets bits of a leaf's companion word (R363). -/
def setCompanion (s : State) (slotAt mask : Nat) : State :=
  let c := tableWord s (slotAt + 8)
  if c ||| mask = c then s else tableWriteNat s (slotAt + 8) 8 (c ||| mask)

/-- The translation-cache entry of a die that covers an address. -/
def tlbFind (s : State) (die id va : Nat) : Option TlbEntry :=
  (nth Walker.reset s.walkers die).tlb.find? fun e =>
    e.ctx == id && decide (e.base ≤ va) && decide (va < e.base + e.size)

/-- Installs a leaf in a die's translation caches after setting its ACC bit (R363). -/
def tlbInstall (s : State) (die id : Nat) (l : Leaf) : State :=
  let s1 := setCompanion s l.slotAt (2 ^ die)
  let w := nth Walker.reset s1.walkers die
  let e : TlbEntry := ⟨id, l.base, l.size, l.bits⟩
  if w.tlb.contains e then s1 else { s1 with walkers := setAt s1.walkers die { w with tlb := w.tlb ++ [e] } }

/-- What an access needs of a leaf (R361). -/
inductive Need where
  | load | store | rmw | fetch
  deriving DecidableEq, Repr

/-- The cause an access meets at a leaf, if any (R361). -/
def leafCause (n : Need) (l : Nat) : Option Nat :=
  match n with
  | .load => if !leafR l then some 0x64 else if leafMig l then some 0x21 else none
  | .store => if leafW l then none else if leafUpg l then some 0x02 else some 0x64
  | .rmw =>
    if leafR l && leafW l then (if leafMig l then some 0x21 else none)
    else if leafR l && leafUpg l then some 0x02 else some 0x64
  | .fetch => if leafX l then none else some 0x4F

/-- Where an address lies once translated. -/
inductive Place where
  | dev (key : Nat)
  | host (a : Nat)
  | peer (slot a : Nat)
  | table (a : Nat)
  deriving DecidableEq, Repr

/-- The place of an address in a page (R359, R370). -/
def placeOf (leaf base va : Nat) : Place :=
  let a := leafFrame leaf * 65536 + (va - base)
  match leafTgt leaf with
  | 0 => .dev a
  | 1 => .host a
  | _ => .peer (leafPslot leaf) a

/-- A translation: the place and the leaf's entry, a cause, or no cached leaf. -/
inductive Xlate where
  | ok (p : Place) (leaf : Nat)
  | bad (cause : Nat)
  | miss
  deriving DecidableEq, Repr

/-- Translates through a die's caches (R361, R363). -/
def xlateCached (s : State) (die id va : Nat) (n : Need) : Xlate :=
  match tlbFind s die id va with
  | none => .miss
  | some e =>
    match leafCause n e.leaf with
    | some c => .bad c
    | none => .ok (placeOf e.leaf e.base va) e.leaf

/-- Translates by a walk of the tables (R360, R361): an absent or malformed entry is 0x01, or 0x4F for a fetch. An
address of 2^56 or more that no instruction has turned away with 0x61, such as LAUNCH's kb, is 0x64 (R232) (log 73, DESIGN CHOICE). -/
def xlateWalk (s : State) (id va : Nat) (n : Need) : Xlate :=
  if 2 ^ 56 ≤ va then .bad (if n = .fetch then 0x4F else 0x64)
  else
    match walk s id va with
    | none => .bad (if n = .fetch then 0x4F else 0x01)
    | some l =>
      match leafCause n l.bits with
      | some c => .bad c
      | none => .ok (placeOf l.bits l.base va) l.bits

/-- Translates an address for an access from outside the device (R361, R426): a protected page refuses every one, whatever its rights. -/
def xlateOuter (s : State) (id va : Nat) (n : Need) : Xlate :=
  match (if 2 ^ 56 ≤ va then none else walk s id va) with
  | some l => if leafProt l.bits then .bad 0x64 else xlateWalk s id va n
  | none => xlateWalk s id va n

/-- A die's walker brings the leaf of an address into the die's caches, when there is one
(log 19, DESIGN CHOICE; log 52, DEDUCED). -/
def bring (s : State) (die id va : Nat) : State :=
  match tlbFind s die id va with
  | some _ => s
  | none =>
    match walk s id va with
    | none => s
    | some l => tlbInstall s die id l

/-- Marks a page dirty through a die before a write reaches the pound (R363) (log 52, DEDUCED). -/
def markDirty (s : State) (die id va : Nat) : State :=
  match walk s id va with
  | none => s
  | some l => setCompanion s l.slotAt (2 ^ (50 + die))

/-- Whether the block of a device address debits: its page is neither protected nor fixed (R209). -/
def leafDebits (leaf : Nat) : Bool := leafTgt leaf == 0 && !leafProt leaf && !leafFix leaf

end Sys2Proof.Machine
end

