-- ==== Sys2Proof/Machine/Num.lean ====
section
/-! DEFINITION. Number formats, exact values, rounding and conversion, with the flags each raises (04 R54-R73). A finite
value is an exact dyadic: a sign, a natural mantissa and a power of two. -/

namespace Sys2Proof.Machine

/-- The specials a float format has (R56). -/
inductive FmtKind where
  | ieee | e4m3 | bare
  deriving DecidableEq, Repr

/-- A float format (R56): exponent bits, fraction bits and bias. -/
structure Fmt where
  kind : FmtKind
  eb : Nat
  fb : Nat
  bias : Nat
  deriving DecidableEq, Repr

def fmtF32 : Fmt := ⟨.ieee, 8, 23, 127⟩
def fmtF16 : Fmt := ⟨.ieee, 5, 10, 15⟩
def fmtBf16 : Fmt := ⟨.ieee, 8, 7, 127⟩
def fmtE5m2 : Fmt := ⟨.ieee, 5, 2, 15⟩
def fmtE4m3 : Fmt := ⟨.e4m3, 4, 3, 7⟩
def fmtE3m2 : Fmt := ⟨.bare, 3, 2, 3⟩
def fmtE2m3 : Fmt := ⟨.bare, 2, 3, 1⟩

/-- The width of a format. -/
def fmtWidth (f : Fmt) : Nat := 1 + f.eb + f.fb

/-- The bits of the largest finite magnitude (R56). -/
def fmtMax (f : Fmt) : Nat :=
  match f.kind with
  | .ieee => (2 ^ f.eb - 1) * 2 ^ f.fb - 1
  | .e4m3 => 2 ^ (f.eb + f.fb) - 2
  | .bare => 2 ^ (f.eb + f.fb) - 1

/-- The bits of +∞ of an IEEE-style format. -/
def fmtInf (f : Fmt) : Nat := (2 ^ f.eb - 1) * 2 ^ f.fb

/-- The default NaN (R57). -/
def fmtNan (f : Fmt) : Nat :=
  match f.kind with
  | .ieee => (2 ^ f.eb - 1) * 2 ^ f.fb + 2 ^ (f.fb - 1)
  | _ => 2 ^ (f.eb + f.fb) - 1

/-- The bits of a sign and a magnitude. -/
def fmtSigned (f : Fmt) (neg : Bool) (mag : Nat) : Nat := if neg then 2 ^ (f.eb + f.fb) + mag else mag

/-- The exponent of the last bit of a subnormal. -/
def fmtEmin (f : Fmt) : Int := 1 - (f.bias : Int) - (f.fb : Int)

/-- An exact value: a NaN (signalling or not), an infinity, or (−1)^neg × m × 2^e. -/
inductive FVal where
  | nan (snan : Bool)
  | inf (neg : Bool)
  | fin (neg : Bool) (m : Nat) (e : Int)
  deriving DecidableEq, Repr

/-- The value of the bits of a format (R56, R57). -/
def fval (f : Fmt) (bits : Nat) : FVal :=
  let neg := bitAt bits (f.eb + f.fb)
  let ex := field bits f.fb f.eb
  let fr := bits % 2 ^ f.fb
  let num := if ex = 0 then FVal.fin neg fr (fmtEmin f) else FVal.fin neg (2 ^ f.fb + fr) (fmtEmin f + (ex : Int) - 1)
  match f.kind with
  | .ieee =>
    if ex = 2 ^ f.eb - 1 then
      if fr = 0 then .inf neg else .nan (decide (f.fb ≠ 2) && fr < 2 ^ (f.fb - 1))
    else num
  | .e4m3 => if ex = 15 ∧ fr = 7 then .nan false else num
  | .bare => num

/-- Rounds a magnitude m × 2^e to a multiple of 2^ex: the multiple and whether it is inexact (R65). -/
def roundAt (rm : RMode) (neg : Bool) (m : Nat) (e ex : Int) : Nat × Bool :=
  if ex ≤ e then (m * 2 ^ (e - ex).toNat, false)
  else
    let sh := (ex - e).toNat
    let q := m / 2 ^ sh
    let r := m % 2 ^ sh
    let up := match rm with
      | .rne => decide (2 ^ sh < 2 * r) || (decide (2 ^ sh = 2 * r) && q % 2 == 1)
      | .rz => false
      | .rd => neg && decide (r ≠ 0)
      | .ru => !neg && decide (r ≠ 0)
    (if up then q + 1 else q, decide (r ≠ 0))

/-- A rounded magnitude: its bits, and whether it is inexact, tiny (R66) and beyond the largest finite (R67). -/
structure Rounded where
  mag : Nat
  inexact : Bool
  tiny : Bool
  beyond : Bool
  deriving DecidableEq, Repr

/-- Whether m1 × 2^e1 exceeds m2 × 2^e2. -/
def dyLt (m2 : Nat) (e2 : Int) (m1 : Nat) (e1 : Int) : Bool :=
  if e1 ≤ e2 then decide (m2 * 2 ^ (e2 - e1).toNat < m1) else decide (m2 < m1 * 2 ^ (e1 - e2).toNat)

/-- Rounds a nonzero magnitude to a format (R65-R67). -/
def roundMag (f : Fmt) (rm : RMode) (neg : Bool) (m : Nat) (e : Int) : Rounded :=
  let exU := e + (bitLen m : Int) - (f.fb + 1 : Nat)
  let u := roundAt rm neg m e exU
  let ex := max exU (fmtEmin f)
  let r := roundAt rm neg m e ex
  let mag := (ex - fmtEmin f).toNat * 2 ^ f.fb + r.1
  { mag := mag
    inexact := r.2
    tiny := dyLt u.1 exU 1 (1 - (f.bias : Int))
    beyond := decide (fmtMax f < mag) }

/-- The union of two sets of flags. -/
def flagOr (a b : FlagSet) : FlagSet := ⟨a.nv || b.nv, a.ov || b.ov, a.uf || b.uf, a.nx || b.nx⟩

/-- The union of a list of sets of flags. -/
def flagAll (l : List FlagSet) : FlagSet := l.foldl flagOr FlagSet.none

/-- Only the invalid flag. -/
def flagNv (b : Bool) : FlagSet := ⟨b, false, false, false⟩

/-- Only the overflow flag (R55). -/
def flagOv (b : Bool) : FlagSet := ⟨false, b, false, false⟩

/-- The flags of an overflow or of a clamp (R67, R69, R70). -/
def flagOver : FlagSet := ⟨false, true, false, true⟩

/-- Delivers an exact float arithmetic result in an IEEE-style format (R65-R68). -/
def deliver (f : Fmt) (rm : RMode) (sat : Bool) : FVal → Nat × FlagSet
  | .nan s => (fmtNan f, flagNv s)
  | .inf neg => if sat then (fmtSigned f neg (fmtMax f), flagOver) else (fmtSigned f neg (fmtInf f), FlagSet.none)
  | .fin neg m e =>
    if m = 0 then (fmtSigned f neg 0, FlagSet.none)
    else
      let r := roundMag f rm neg m e
      if r.beyond then
        let toInf := match rm with
          | .rne => true
          | .rz => false
          | .rd => neg
          | .ru => !neg
        (fmtSigned f neg (if toInf && !sat then fmtInf f else fmtMax f), flagOver)
      else (fmtSigned f neg r.mag, ⟨false, false, r.tiny && r.inexact, r.inexact⟩)

/-- Converts a value to a float format (R69). -/
def convF (f : Fmt) (rm : RMode) : FVal → Nat × FlagSet
  | .nan s =>
    match f.kind with
    | .bare => (0, flagNv true)
    | _ => (fmtNan f, flagNv s)
  | .inf neg =>
    match f.kind with
    | .ieee => (fmtSigned f neg (fmtInf f), FlagSet.none)
    | _ => (fmtSigned f neg (fmtMax f), flagOver)
  | .fin neg m e =>
    if m = 0 then (fmtSigned f neg 0, FlagSet.none)
    else
      let r := roundMag f rm neg m e
      if r.beyond then (fmtSigned f neg (fmtMax f), flagOver)
      else (fmtSigned f neg r.mag, ⟨false, false, r.tiny && r.inexact, r.inexact⟩)

/-- Converts a float to an integer between two bounds (R70). -/
def convI (rm : RMode) (lo hi : Int) : FVal → Int × FlagSet
  | .nan _ => (0, flagNv true)
  | .inf neg => (if neg then lo else hi, flagOver)
  | .fin neg m e =>
    let r := roundAt rm neg m e 0
    let i : Int := if neg then -(r.1 : Int) else r.1
    if i < lo then (lo, flagOver) else if hi < i then (hi, flagOver) else (i, ⟨false, false, false, r.2⟩)

/-- The exact value of an integer (R71). -/
def ofInt (i : Int) : FVal := .fin (decide (i < 0)) i.natAbs 0

/-- The exact value of a finite sum of signed dyadics, with the sign an exact zero takes. -/
def dySum (zneg : Bool) (n1 : Bool) (m1 : Nat) (e1 : Int) (n2 : Bool) (m2 : Nat) (e2 : Int) : FVal :=
  if m1 = 0 ∧ m2 = 0 then .fin (if n1 = n2 then n1 else zneg) 0 0
  else
    let e := min e1 e2
    let a : Int := (m1 * 2 ^ (e1 - e).toNat : Nat)
    let b : Int := (m2 * 2 ^ (e2 - e).toNat : Nat)
    let s := (if n1 then -a else a) + (if n2 then -b else b)
    if s = 0 then .fin zneg 0 0 else .fin (decide (s < 0)) s.natAbs e

/-- Whether a value is a signalling NaN. -/
def isSnan : FVal → Bool
  | .nan s => s
  | _ => false

/-- The exact sum of two values; an invalid operation is a signalling NaN (R68). An exact zero sum of opposite signs is
−0 under .rd and +0 otherwise. -/
def fvAdd (rm : RMode) : FVal → FVal → FVal
  | .nan a, b => .nan (a || isSnan b)
  | a, .nan b => .nan (isSnan a || b)
  | .inf a, .inf b => if a = b then .inf a else .nan true
  | .inf a, .fin _ _ _ => .inf a
  | .fin _ _ _, .inf b => .inf b
  | .fin n1 m1 e1, .fin n2 m2 e2 => dySum (rm == .rd) n1 m1 e1 n2 m2 e2

/-- The value with its sign turned. -/
def fvNeg : FVal → FVal
  | .nan s => .nan s
  | .inf n => .inf (!n)
  | .fin n m e => .fin (!n) m e

/-- The exact product of two values; an invalid operation is a signalling NaN (R68). -/
def fvMul : FVal → FVal → FVal
  | .nan a, b => .nan (a || isSnan b)
  | a, .nan b => .nan (isSnan a || b)
  | .inf a, .inf b => .inf (a != b)
  | .inf a, .fin n m _ => if m = 0 then .nan true else .inf (a != n)
  | .fin n m _, .inf b => if m = 0 then .nan true else .inf (b != n)
  | .fin n1 m1 e1, .fin n2 m2 e2 => .fin (n1 != n2) (m1 * m2) (e1 + e2)

/-- The exact a × b + c; an invalid operation is a signalling NaN (R65, R68) (log 62, DESIGN CHOICE). -/
def fvFma (rm : RMode) (a b c : FVal) : FVal :=
  match fvMul a b with
  | .nan s => .nan (s || isSnan c)
  | p => fvAdd rm p c

/-- The exact value as an integer times a power of two: what a finite value is worth. -/
def dyInt (neg : Bool) (m : Nat) : Int := if neg then -(m : Int) else m

/-- The order of two values that are not NaN, −0 and +0 alike: less, equal or greater. -/
def fvCmp : FVal → FVal → Ordering
  | .inf a, .inf b => if a = b then .eq else if a then .lt else .gt
  | .inf a, _ => if a then .lt else .gt
  | _, .inf b => if b then .gt else .lt
  | .fin n1 m1 e1, .fin n2 m2 e2 =>
    let e := min e1 e2
    let a := dyInt n1 m1 * 2 ^ (e1 - e).toNat
    let b := dyInt n2 m2 * 2 ^ (e2 - e).toNat
    if a < b then .lt else if a = b then .eq else .gt
  | _, _ => .eq

/-- Whether a value is a NaN. -/
def isNan : FVal → Bool
  | .nan _ => true
  | _ => false

/-- The sign of a value that is not NaN. -/
def fvSign : FVal → Bool
  | .nan _ => false
  | .inf n => n
  | .fin n _ _ => n

/-- Whether a value is a zero. -/
def fvZero : FVal → Bool
  | .fin _ m _ => m == 0
  | _ => false

/-- Whether a is before b in the order of min and max, where −0 is less than +0 (R68). -/
def fvBefore (a b : FVal) : Bool :=
  match fvCmp a b with
  | .lt => true
  | .eq => fvZero a && fvZero b && fvSign a && !fvSign b
  | .gt => false

/-- One element of an MXFP6 block expanded to a target (R61, R62). -/
def mx6Expand (src dst : Fmt) (scale elem : Nat) : Nat × FlagSet :=
  if scale = 255 then (fmtNan dst, flagNv true)
  else
    match fval src elem with
    | .fin n m e => convF dst .rne (.fin n m (e + (scale : Int) - 127))
    | v => convF dst .rne v

/-- An element of an O4 unit as the exact value it decodes to, and whether the unit is malformed (R63, R64). -/
def o4Unit (u : Nat) : List FVal × Bool :=
  let nib := fun j => field u (4 * j) 4
  let zero := FVal.fin false 0 0
  let int := fun j => ofInt (toSigned 4 (nib j))
  let marks := (List.range 4).filter fun j => nib j == 8
  match marks with
  | [] => ((List.range 4).map int, false)
  | [j] =>
    let b := j / 2
    let other := fval fmtE4m3 (field u (8 * (1 - b)) 8)
    ((List.range 4).map fun i => if i = j then other else if i / 2 = b then int i else zero, false)
  | _ => (List.replicate 4 zero, true)

end Sys2Proof.Machine
end

