-- ==== Sys2Proof/Machine/Flags.lean ====
section
/-! DEFINITION. The sticky flags of the engines (04 R72-R76): setting them, the word MOVS sv.flags returns (R75) and the
word of the save area (10 R221). -/

namespace Sys2Proof.Machine

/-- The flags of a partition's vector unit and matrix unit. -/
def vflagsOf (c : Core) (part : Nat) : FlagSet := nth FlagSet.none c.vflags part
def mflagsOf (c : Core) (part : Nat) : MFlagSet := nth ⟨FlagSet.none, false⟩ c.mflags part

/-- Sets flags of a partition's vector unit (R73). -/
def raiseVector (s : State) (core part : Nat) (f : FlagSet) : State :=
  if f = FlagSet.none then s
  else modCore s core fun c => { c with vflags := setAt c.vflags part (flagOr (vflagsOf c part) f) }

/-- Sets flags of a partition's matrix unit (R72, R73). -/
def raiseMatrix (s : State) (core part : Nat) (f : FlagSet) (approx : Bool) : State :=
  modCore s core fun c =>
    let m := mflagsOf c part
    { c with mflags := setAt c.mflags part ⟨flagOr m.fl f, m.approx || approx⟩ }

/-- Sets flags of a core's copy engine (R73). -/
def raiseCopy (s : State) (core : Nat) (f : FlagSet) : State :=
  modCore s core fun c => { c with cflags := flagOr c.cflags f }

/-- NV, OF, UF and NX as four bits. -/
def flagNat (f : FlagSet) : Nat :=
  (if f.nv then 1 else 0) + (if f.ov then 2 else 0) + (if f.uf then 4 else 0) + (if f.nx then 8 else 0)

/-- Four bits as NV, OF, UF and NX. -/
def flagOfNat (n : Nat) : FlagSet := ⟨bitAt n 0, bitAt n 1, bitAt n 2, bitAt n 3⟩

/-- The flags of a team's engines as MOVS sv.flags returns them (R75). -/
def flagsWord (c : Core) (part : Nat) : Nat :=
  let m := mflagsOf c part
  flagNat (vflagsOf c part) + flagNat m.fl * 2 ^ 4 + (if m.approx then 2 ^ 8 else 0) + flagNat c.cflags * 2 ^ 12

/-- A core's flag word in the save area (R221). -/
def coreFlagWord (c : Core) : Nat :=
  ([0, 1, 2, 3].foldl (fun a p =>
    let m := mflagsOf c p
    a + flagNat (vflagsOf c p) * 2 ^ (4 * p) + (flagNat m.fl + (if m.approx then 16 else 0)) * 2 ^ (16 + 5 * p)) 0) +
    flagNat c.cflags * 2 ^ 36

/-- A core with the flags of a save-area word (R221, R75) (log 54, DEDUCED). -/
def coreWithFlags (c : Core) (w : Nat) : Core :=
  { c with
    vflags := [0, 1, 2, 3].map fun p => flagOfNat (field w (4 * p) 4)
    mflags := [0, 1, 2, 3].map fun p => ⟨flagOfNat (field w (16 + 5 * p) 4), bitAt w (20 + 5 * p)⟩
    cflags := flagOfNat (field w 36 4) }

end Sys2Proof.Machine
end

