-- ==== Sys2Proof/Machine/Order.lean ====
section
/-! DEFINITION. Memory ordering (21 R382-R404): the scopes, what a party has seen, the place of a write in the order co of its granule,
what a read finds there, and the releases and acquires that join what parties have seen. -/

namespace Sys2Proof.Machine

/-! ## Scopes (R388, R389) -/

/-- Whether a scope covers a party, for an event of a party (R388). -/
def covers (sc : Scope) (p q : Party) : Bool :=
  match sc, p, q with
  | .sys, _, _ => true
  | .dev, _, .outside => false
  | .dev, _, _ => true
  | .clu, .team _ c, .team _ d => clusterOf c == clusterOf d
  | .core, .team _ c, .team _ d => c == d
  | .team, .team u _, .team v _ => u == v
  | _, _, _ => false

/-- Whether a release and an acquire of a party at a scope are inclusive (R389); an edge of ac is one whatever the scopes (R391). -/
def inclusive (r : Rel) (sc : Scope) (p : Party) : Bool :=
  r.always || (covers r.scope r.party p && covers sc p r.party)

/-! ## What a party has seen -/

/-- Bytes seen, with more. -/
def joinSeen (a b : List Nat) : List Nat := a ++ (b.eraseDups.filter fun x => !a.contains x)

/-- What two parties have seen together. -/
def joinView (a b : View) : View := ⟨joinSeen a.seen b.seen, max a.clock b.clock⟩

/-- What a list of releases gives. -/
def relsView (l : List Rel) : View := l.foldl (fun v r => joinView v r.view) ⟨[], 0⟩

/-- Releases with more; one that its list holds already is not held twice. -/
def addRels (a b : List Rel) : List Rel := a ++ (b.eraseDups.filter fun r => !a.contains r)

/-- The number of byte `i` of write `n`. -/
def seenCode (n i : Nat) : Nat := 16 * n + i

/-- The bytes of the writes made between two states. -/
def madeSince (s0 s1 : State) : List Nat := rangeFrom (16 * s0.nextWrite) (16 * (s1.nextWrite - s0.nextWrite))

/-! ## Granules -/

/-- The number of the first granule of host memory and of a core's scratchpad; a device granule has its own (R382). -/
def hostGrains : Nat := 2 ^ 60
def spadGrains (core : Nat) : Nat := 2 ^ 61 + core * 2 ^ 32

/-- The granules that `n` bytes from `a` on lie in, each with the first place it takes of them there and how many. -/
def grainsOf (a n : Nat) : List (Nat × Nat × Nat) :=
  (rangeFrom (a / 16) ((a + n + 15) / 16 - a / 16)).map fun g =>
    let lo := max a (16 * g)
    (g, lo - 16 * g, min (a + n) (16 * g + 16) - lo)

/-- Whether a write writes place `i` of its granule. -/
def writesAt (w : Write) (i : Nat) : Bool :=
  match w.bytes[i]? with
  | some (some _) => true
  | _ => false

/-- The byte a write writes at a place. -/
def writeByte (w : Write) (i : Nat) : Byte := ((w.bytes[i]?).getD none).getD 0#8

/-- What a read takes of places of a granule, the newest write first (R394, R402): a write gives all the places it wrote that no newer one
has given, when it is taken, or when the reader has seen it at one of them. -/
def takeWrites (knows : Nat → Bool) (take : Nat → Bool) : List Write → List Nat → List (Nat × Write)
  | [], _ => []
  | w :: ws, todo =>
    let mine := todo.filter (writesAt w)
    if !mine.isEmpty && (take w.n || mine.any fun i => knows (seenCode w.n i)) then
      mine.map (fun i => (i, w)) ++ takeWrites knows take ws (todo.filter fun i => !mine.contains i)
    else takeWrites knows take ws todo

/-- What a read finds: its bytes, the bytes of writes that it has now seen, and the releases these carry. -/
structure Found where
  bytes : List Byte
  seen : List Nat
  rels : List Rel
  deriving DecidableEq, Repr

/-- What a read finds in `n` places of a granule from `lo` on. -/
def readGrain (g : Grain) (knows : Nat → Bool) (take : Nat → Bool) (lo n : Nat) : Found :=
  let got := takeWrites knows take g.writes (rangeFrom lo n)
  ⟨(rangeFrom lo n).map fun i => match find? got i with | some w => writeByte w i | none => nth 0#8 g.base i,
    got.map fun e => seenCode e.2.n e.1, got.foldl (fun l e => addRels l e.2.rels) []⟩

/-- What a read of bytes at `a` finds (R386, R394, R400, R403), where `now` stands in memory: granule by granule, a write that the reader has
not seen gives its bytes or not, which is free. `first` is the number of the memory's first granule. -/
def readBytes (s : State) (knows : Nat → Bool) (reader first a : Nat) (now : List Byte) : Found :=
  (grainsOf a now.length).foldl (fun f e =>
    match find? s.hist (first + e.1) with
    | none => { f with bytes := f.bytes ++ (now.drop (16 * e.1 + e.2.1 - a)).take e.2.2 }
    | some g =>
      let r := readGrain g knows (fun n => Config.freeSees s.free n reader) e.2.1 e.2.2
      ⟨f.bytes ++ r.bytes, f.seen ++ r.seen, addRels f.rels r.rels⟩) ⟨[], [], []⟩

/-! ## Writes (R386, R394, R395) -/

/-- Who writes: the matrix unit, if it is one, by core and unit; what its write comes after in co; whether it comes last in co; and the
releases it carries. -/
structure Author where
  unit : Option (Nat × Nat)
  seen : List Nat
  last : Bool
  rels : List Rel
  deriving DecidableEq, Repr

/-- A loom, the dispatcher or another agent of the device, whose writes come last in co (R293) (log 5, DESIGN CHOICE). -/
def deviceWrites : Author := ⟨none, [], true, []⟩

/-- The places of a masked run of 16 bytes that are written. -/
def maskOf (bytes : List (Option Byte)) : List Nat :=
  bytes.zipIdx.filterMap fun e => if e.1.isSome then some e.2 else none

/-- Splits the writes of a granule, the newest first, where a new write may stand: after every write of the same bytes that `pass` does not
let it pass, and never between an RMW and the write that the RMW has read from (R395). `edge` holds the places whose nearest newer
write is an RMW's. -/
def splitWrites (pass : Write → Bool) (mask : List Nat) : List Nat → List Write → Option (List Write × List Write)
  | edge, [] => if edge.isEmpty then some ([], []) else none
  | edge, w :: ws =>
    let hit := mask.filter (writesAt w)
    let next := edge.filter (fun i => !hit.contains i) ++ (if w.rmw then hit else [])
    let deeper := if hit.isEmpty || pass w then (splitWrites pass mask next ws).map fun x => (w :: x.1, x.2) else none
    match deeper with
    | some x => some x
    | none => if edge.isEmpty then some ([], w :: ws) else none

/-- Where a write of some places stands among a granule's writes: the newer ones and the older ones. It may come before a write that its
author has not seen, which is free (R394); an SC operation comes after every other (R393). -/
def placeWrite (s : State) (a : Author) (sc : Bool) (mask : List Nat) (ws : List Write) : List Write × List Write :=
  let pass := fun (w : Write) => !a.last && !(sc && w.sc) && Config.freeOrder s.free s.nextWrite w.n &&
    !(mask.any fun i => writesAt w i && a.seen.contains (seenCode w.n i))
  (splitWrites pass mask [] ws).getD ([], ws)

/-- Enters a write of a granule into its order; the places that newer writes already cover are given back. -/
def enterWrite (s : State) (key : Nat) (base : List Byte) (w : Write) (newer older : List Write) : State × List Nat :=
  ({ s with hist := tabPut s.hist key ⟨base, newer ++ w :: older⟩, nextWrite := s.nextWrite + 1 },
    (maskOf w.bytes).filter fun i => newer.any fun x => writesAt x i)

/-- One granule's write: the state, and the places whose bytes in memory stay. -/
def writeGrain (s : State) (a : Author) (key : Nat) (now : List Byte) (bytes : List (Option Byte)) : State × List Nat :=
  let g := (find? s.hist key).getD ⟨now, []⟩
  let at_ := placeWrite s a false (maskOf bytes) g.writes
  enterWrite s key g.base ⟨s.nextWrite, bytes, false, false, a.rels⟩ at_.1 at_.2

/-- A write of masked bytes from `a` on, as one write for each granule (R386): the state, and the bytes that memory takes. A byte that a newer
write covers stays as memory has it, and is written over with itself. `now` reads memory. -/
def enterBytes (s : State) (au : Author) (first a : Nat) (now : Nat → Byte) (bytes : List (Option Byte)) :
    State × List (Option Byte) :=
  let r := (grainsOf a bytes.length).foldl (fun g e =>
    let part := (rangeFrom (16 * e.1) 16).map fun x => if a ≤ x then (bytes[x - a]?).getD none else none
    if part.any Option.isSome then
      match writeGrain g.1 au (first + e.1) ((rangeFrom (16 * e.1) 16).map now) part with
      | (s1, l) => (s1, g.2 ++ l.map (16 * e.1 + ·))
    else g) (s, [])
  (r.1, (bytes.zipIdx a).map fun e => if r.2.contains e.2 then e.1.map (fun _ => now e.2) else e.1)

/-- The writes of some granules are forgotten: what stands there is what every read finds. -/
def forgetGrains (s : State) (g n : Nat) : State := { s with hist := tabDrop s.hist g (g + n) }

/-- A core's scratchpad holds values that no write of its teams made (R16, R203): its writes are forgotten. -/
def forgetSpad (s : State) (core : Nat) : State := forgetGrains s (spadGrains core) (2 ^ 32)

/-- The device writes a table or a buffer in host memory (log 8, DEDUCED): every read finds it from then on (log 5, DESIGN CHOICE). -/
def hostPut (s : State) (a : Nat) (bs : List Byte) : State :=
  { forgetGrains s (hostGrains + a / 16) ((a + bs.length + 15) / 16 - a / 16) with hostMem := memWrite s.hostMem a bs }

/-- The contents of `n` granules have moved: their writes stand at their new place, and what stood there is gone (R384, R403). -/
def moveGrains (s : State) (src dst n : Nat) : State :=
  let moved := (tabKeep s.hist src (src + n)).map fun e => (e.1 - src + dst, e.2)
  { s with hist := moved.foldl (fun t e => tabPut t e.1 e.2) (tabDrop (tabDrop s.hist src (src + n)) dst (dst + n)) }

/-! ## Teams -/

/-- The party of a team's events, its engines' among them (R388). -/
def teamParty (t : Team) : Party := .team t.uid t.core

/-- The numbers of readers that are no lanes: the copy engine, and the matrix unit at element `j` of those that share the byte at `x`, since
it reads element by element (R400). -/
def copyReader : Nat := 1025
def elemReader (x j : Nat) : Nat := 2 ^ 20 + 8 * x + j

/-- The lane number under which stands what a team of a bounds pass has read itself: its silent reads are coherent with those, and nothing
else orders them (R344). -/
def silentLane : Nat := 1024

/-- What a team has seen, with its core's clock. -/
def teamView (s : State) (u : Nat) : View :=
  let t := getTeam s u
  ⟨joinSeen t.seen ((t.laneSeen.filter fun e => e.2 != silentLane).map (·.1)), (getCore s t.core).clock⟩

/-- Whether a lane of a team has seen a byte of a write. -/
def laneKnows (t : Team) (lane c : Nat) : Bool := t.seen.contains c || t.laneSeen.contains (c, lane)

/-- What single lanes have seen is seen by the whole team, at a uniform event or a commit (R387). -/
def meldLanes (s : State) (u : Nat) : State :=
  let t := getTeam s u
  let mine := t.laneSeen.filter fun e => e.2 != silentLane
  if mine.isEmpty then s
  else setTeam s u { t with
    seen := joinSeen t.seen (mine.map (·.1)), laneSeen := t.laneSeen.filter fun e => e.2 == silentLane }

/-- A core raises its clock (R392). -/
def raiseClock (s : State) (core c : Nat) : State :=
  if (getCore s core).clock < c then modCore s core fun k => { k with clock := c } else s

/-- A team joins what others have seen. -/
def teamJoins (s : State) (u : Nat) (v : View) : State :=
  let t := getTeam s u
  let s1 := if v.seen.all t.seen.contains then s else setTeam s u { t with seen := joinSeen t.seen v.seen }
  raiseClock s1 t.core v.clock

/-- Some bytes under a lane's number. -/
def laneCodes (t : Team) (lane : Nat) (l : List Nat) : List (Nat × Nat) :=
  t.laneSeen ++ ((l.map fun c => (c, lane)).filter fun e => !t.laneSeen.contains e)

/-- A lane of a team reads bytes of a memory: it has seen what it found, as the team has by coherence (R394), and the releases that go
with it. -/
def laneReads (s : State) (u lane first a : Nat) (now : List Byte) : State × List Byte :=
  let t := getTeam s u
  let f := readBytes s (laneKnows t lane) lane first a now
  if f.seen.all t.seen.contains && f.rels.all t.got.contains then (s, f.bytes)
  else
    (setTeam s u { t with
      seen := joinSeen t.seen f.seen, got := addRels t.got f.rels
      laneSeen := if t.bounds then laneCodes t silentLane f.seen else t.laneSeen }, f.bytes)

/-- A silent read of a team (R344). -/
def silentReads (s : State) (u first a : Nat) (now : List Byte) : State × List Byte :=
  let t := getTeam s u
  let f := readBytes s (fun c => t.laneSeen.contains (c, silentLane)) silentLane first a now
  (if f.seen.isEmpty then s else setTeam s u { t with laneSeen := laneCodes t silentLane f.seen }, f.bytes)

/-- What a team writes comes after all it has seen, and carries its release fences (R389). -/
def teamWrites (t : Team) : Author := ⟨none, t.seen, false, t.relFs⟩

/-- What a lane of a team writes at once (R383). -/
def laneWrites (t : Team) (lane : Nat) : Author :=
  { teamWrites t with seen := t.seen ++ (t.laneSeen.filter fun e => e.2 == lane).map (·.1) }

/-- What has been written since `s0` is seen by the team that wrote it. -/
def teamWrote (s0 s : State) (u : Nat) : State :=
  if s0.nextWrite = s.nextWrite then s
  else modTeam s u fun t => { t with seen := joinSeen t.seen (madeSince s0 s) }

/-- A release of a team now, at a scope. -/
def teamRelease (s : State) (u : Nat) (sc : Scope) : Rel := ⟨teamParty (getTeam s u), sc, teamView s u, false⟩

/-- Of some releases, what an acquire of a team at a scope joins (R389). -/
def teamAcquires (s : State) (u : Nat) (sc : Scope) (l : List Rel) : State :=
  teamJoins s u (relsView (l.filter fun r => inclusive r sc (teamParty (getTeam s u))))

/-- L1 holds no line (R18, R170). -/
def dropL1 (s : State) (core : Nat) : State := modCore s core fun c => { c with l1 := [], l1Last := [], l1Early := [] }

/-- AN ACQUIRE of a team at a scope (R18, R170, R389): it joins the releases it synchronizes with, and at .core or wider its core's L1 is
invalidated. -/
def acquire (s : State) (u : Nat) (sc : Scope) (l : List Rel) : State :=
  teamAcquires (if sc = .team then s else dropL1 s (getTeam s u).core) u sc l

/-- An acquire whose releases no scope decides (R232, R248, R251, R321, R391). -/
def acquireView (s : State) (u : Nat) (v : View) : State := teamJoins (dropL1 s (getTeam s u).core) u v

/-! ## Sequences (R321) -/

/-- A commit to a sequence that a CL of `level` or more tells of. -/
def addSeqRel (s : State) (sp h level : Nat) (v : View) : State := { s with seqRels := s.seqRels ++ [⟨sp, h, level, v⟩] }

/-- What the commits and voids of the slots of a sequence below `cl` have released (R321). -/
def seqView (s : State) (sp h cl : Nat) : View :=
  (s.seqRels.filter fun r => r.sp == sp && r.handle == h && decide (r.level ≤ cl)).foldl (fun v r => joinView v r.view) ⟨[], 0⟩

/-- A sequence begins anew: nothing has been committed to it. -/
def dropSeqRels (s : State) (sp h : Nat) : State := { s with seqRels := s.seqRels.filter fun r => !(r.sp == sp && r.handle == h) }

/-- Whether a place of a granule has been written since write `n`. -/
def writtenSince (s : State) (n key i : Nat) : Bool :=
  match find? s.hist key with
  | none => false
  | some g => g.writes.any fun w => decide (n ≤ w.n) && writesAt w i

end Sys2Proof.Machine
end

