-- ==== Sys2Proof/Machine/Loom.lean ====
section
/-! DEFINITION. Loom operations as transactions over a space (16 R293-R308, R321-R324): their reads and writes, the order
of their faults, the debit and the stores; sequence headers, fill bits and the advance of CL; and the append of one slot. -/

namespace Sys2Proof.Machine

/-- A loom operation in progress: the state it reads, the bytes it will write, the faults it has met, the pages it has touched
(R364), the ranges whose contents it leaves unpredictable (R308, R317), the TAIL it has read of a ring at a handle (R308), the pages that
it frees and that it takes (R317), the pages that it copies (R401), and the handle of a sequence that has begun anew. -/
structure Txn where
  s : State
  sp : Space
  host : Bool
  buf : Tab Byte
  poisons : List Nat
  replay : Option (Nat × Nat)
  hard : Option (Nat × Nat)
  bad58 : Bool
  bad59 : Bool
  pages : List Nat
  spoils : List (Nat × Nat)
  tail : Option (Nat × Nat)
  frees : List Nat
  takes : List Nat
  cows : List (Nat × Nat)
  begins : Option Nat
  deriving DecidableEq, Repr

/-- A loom operation that has done nothing yet. -/
def txStart (s : State) (sp : Space) (host : Bool) : Txn := ⟨s, sp, host, [], [], none, none, false, false, [], [], none, [], [], [], none⟩

/-- Records the first fault of each rank of R324. -/
def txFault (t : Txn) (cause addr : Nat) : Txn :=
  if cause = 0x01 ∨ cause = 0x02 ∨ cause = 0x21 then { t with replay := t.replay.or (some (cause, addr)) }
  else { t with hard := t.hard.or (some (cause, addr)) }

/-- The page of an address, as a walk finds it, in units of 64 KiB (R364). -/
def pageKey (s : State) (id va : Nat) : Nat :=
  match walk s id va with
  | some l => l.base / 65536
  | none => va / 65536

/-- An operation touches the page of an address. -/
def txTouch (t : Txn) (id va : Nat) : Txn :=
  let k := pageKey t.s id va
  if t.pages.contains k then t else { t with pages := t.pages ++ [k] }

/-- Translates an address of the operation's space (R293, R361). A peer window is a forbidden place for every loom operation and for LAUNCH
(0x64), of which R231 says nothing (log 73, DESIGN CHOICE). -/
def txPlace (t0 : Txn) (va : Nat) (n : Need) : Txn × Option Place :=
  match t0.sp with
  | .table => (t0, some (.table va))
  | .ctx id =>
    let t := txTouch t0 id va
    match (if t.host then xlateOuter t.s id va n else xlateWalk t.s id va n) with
    | .bad c => (txFault t c va, none)
    | .miss => (t, none)
    | .ok (.peer _ _) _ => (txFault t 0x64 va, none)
    | .ok p _ => (t, some p)

/-- Bytes at a place. -/
def placeBytes (s : State) (p : Place) (n : Nat) : List Byte :=
  match p with
  | .dev k => memBytes s.mem k n
  | .host a => memBytes s.hostMem a n
  | .table a => memBytes s.tspace a n
  | .peer _ _ => List.replicate n 0#8

/-- Whether a place is in a poisoned block (R177). -/
def placePoison (s : State) (p : Place) : Bool :=
  match p with
  | .dev k => (metaOf s (k / 256)).poison
  | _ => false

/-- Bytes with the operation's own writes on top. -/
def overlay (buf : Tab Byte) (va : Nat) : List Byte → List Byte
  | [] => []
  | b :: bs => (match find? buf va with | some x => x | none => b) :: overlay buf (va + 1) bs

/-- A read of the operation at a place goes to its block (R373, R438). -/
def txMeets (t : Txn) (p : Place) : Txn :=
  match p with
  | .dev k => { t with s := readThrough t.s (k / 256) }
  | _ => t

/-- Reads bytes that lie in one block; a fault is recorded and reads zeros. -/
def txBytes (t : Txn) (va n : Nat) : Txn × List Byte :=
  match txPlace t va .load with
  | (t1, none) => (t1, List.replicate n 0#8)
  | (t1, some p) =>
    if placePoison t1.s p then (txFault t1 0x63 va, List.replicate n 0#8)
    else (txMeets t1 p, overlay t1.buf va (placeBytes t1.s p n))

/-- Reads a number. -/
def txRead (t : Txn) (va n : Nat) : Txn × Nat :=
  match txBytes t va n with
  | (t1, bs) => (t1, natOf bs)

/-- Writes bytes that lie in one block. -/
def txPut (t : Txn) (va : Nat) (bs : List Byte) : Txn :=
  match txPlace t va .store with
  | (t1, none) => t1
  | (t1, some _) => { t1 with buf := (bs.zipIdx va).foldl (fun b e => tabPut b e.2 e.1) t1.buf }

/-- Writes a number. -/
def txWrite (t : Txn) (va n v : Nat) : Txn := txPut t va (bytesOf n v)

/-- Writes a long run of bytes, block by block. -/
def txPutLong : Nat → Txn → Nat → List Byte → Txn
  | 0, t, _, _ => t
  | fuel + 1, t, va, bs =>
    if bs.isEmpty then t
    else
      let n := 256 - va % 256
      txPutLong fuel (txPut t va (bs.take n)) (va + n) (bs.drop n)

/-- Reads a long run of bytes, block by block. -/
def txBytesLong : Nat → Txn → Nat → Nat → Txn × List Byte
  | 0, t, _, _ => (t, [])
  | fuel + 1, t, va, n =>
    if n = 0 then (t, [])
    else
      let m := min n (256 - va % 256)
      match txBytes t va m with
      | (t1, bs) =>
        match txBytesLong fuel t1 (va + m) (n - m) with
        | (t2, rest) => (t2, bs ++ rest)

/-- The virtual blocks an operation writes, ascending. -/
def txBlocks (t : Txn) : List Nat := dedupNat (t.buf.map fun e => e.1 / 256)

/-- Of those, the ones that debit (R209, R323). -/
def txDebits (t : Txn) : List Nat :=
  match t.sp with
  | .table => []
  | .ctx id => (txBlocks t).filter fun b =>
    match xlateWalk t.s id (b * 256) .store with
    | .ok _ leaf => leafDebits leaf
    | _ => false

/-- Debits 8 sectors for each of `n` blocks: the state and how many were covered, stopping at the first that is not. -/
def debitN (s : State) (p : Payer) (id : Nat) : Nat → State × Nat
  | 0 => (s, 0)
  | n + 1 =>
    match debit8 s p id with
    | (s1, false) => (s1, 0)
    | (s1, true) =>
      match debitN s1 p id n with
      | (s2, k) => (s2, k + 1)

/-- The contents of `n` bytes of a device block, from device address `a` on, become unpredictable (R194, R308, R317, R335): any bytes whose
run is no longer than the block's, so that no count of sectors is owed (log 61, DESIGN CHOICE). -/
def spoilBytes (s : State) (id a n : Nat) : State :=
  let b := a / 256
  let pick := Config.leftBytes s.free [(b, 0#8)]
  let bytes := (rangeFrom (b * 256) 256).map fun x => if a ≤ x ∧ x < a + n then find? pick x else none
  let m := metaOf s b
  if bytes.any Option.isSome &&
      decide (encSectors (selectEnc (m.prot || m.fix) (mergeBytes (memBytes s.mem (b * 256) 256) bytes)) ≤ m.len) then
    match enterBytes s deviceWrites 0 (b * 256) (memByte s.mem) bytes with
    | (s1, bs) => storeBlock s1 id .pool false b bs
  else s

/-- The contents of a device block become unpredictable. -/
def spoilBlock (s : State) (id b : Nat) : State := spoilBytes s id (b * 256) 256

/-- The contents of `n` bytes of host memory become unpredictable (R194, R308, R317) (log 61, DESIGN CHOICE). -/
def spoilHost (s : State) (a n : Nat) : State :=
  let pick := (Config.leftBytes s.free [(a, 0#8)]).filter fun e => decide (a ≤ e.1) && decide (e.1 < a + n)
  pick.foldl (fun s e =>
    match enterBytes s deviceWrites hostGrains e.1 (memByte s.hostMem) [some e.2] with
    | (s1, bs) => { s1 with hostMem := memWriteMasked s1.hostMem e.1 bs }) s

/-- The matrix operations of a core that no MWAIT has covered. -/
def openOps (c : Core) : List MOp := c.matQ.flatten ++ c.matDone

/-- Whether an operation of a core will store, or has stored, a block, and is not of the unit that writes it now. A block is numbered
beside the memory it lies in: 0 the device's, 1 the host's, 2 + slot a peer's. -/
def storesTo (own : Option (Nat × Nat)) (b : Nat × Nat) (core : Nat) (o : MOp) : Bool :=
  o.destBlocks.contains b && own != some (core, o.unit)

/-- Whether a block is the destination of a .t2g that no MWAIT has covered. -/
def openDest (own : Option (Nat × Nat)) (s : State) (b : Nat × Nat) : Bool :=
  s.cores.any fun e => (openOps e.2).any (storesTo own b e.1)

/-- The destination of a .t2g that no MWAIT has covered has been written (R194): what a queued one will store, and what a retired one has
stored, is unpredictable (log 17, DESIGN CHOICE). -/
def strikeStores (own : Option (Nat × Nat)) (s : State) (b : Nat × Nat) : State :=
  let hit := storesTo own b
  let struck := s.cores.flatMap fun e => (e.2.matDone.filter (hit e.1)).flatMap fun o => o.destBlocks.map fun x => (e.2.ctx, x)
  let taint := fun (n : Nat) (o : MOp) => if hit n o then { o with tainted := true } else o
  let s1 : State := { s with cores := s.cores.map fun e => (e.1, { e.2 with matQ := e.2.matQ.map fun q => q.map (taint e.1) }) }
  struck.foldl (fun s x =>
    match x.2.1 with
    | 0 => spoilBlock s x.1 x.2.2
    | 1 => spoilHost s (x.2.2 * 256) 256
    | _ => s) s1

/-- The bytes of a write to the destination of such a .t2g: each is the old or the new one, which is free (log 17, DESIGN CHOICE). -/
def mixedBytes (n a : Nat) (bytes : List (Option Byte)) : List (Option Byte) :=
  (bytes.zipIdx a).map fun x => if Config.freeBit n (2 ^ 47 + x.2) then x.1 else none

/-- Bytes that are to be written to a block: where it is the destination of a .t2g that no MWAIT has covered, they hold the old or the
new value (R194). `n` numbers their places. -/
def mixOver (own : Option (Nat × Nat)) (s : State) (b : Nat × Nat) (n : Nat) (bytes : List (Option Byte)) : List (Option Byte) :=
  if openDest own s b then mixedBytes s.free n bytes else bytes

/-- What a write of a block does to such a .t2g (R194). -/
def strikeOver (own : Option (Nat × Nat)) (s : State) (b : Nat × Nat) : State := if openDest own s b then strikeStores own s b else s

/-- The bytes of a write of a device block, which `enter` puts into the order co, reach the block (R377); a poisoned block that they do not
cover takes none (R376). -/
def storeEntered (own : Option (Nat × Nat)) (s : State) (id : Nat) (pay : Payer) (deb : Bool) (b : Nat) (bytes : List (Option Byte))
    (enter : List (Option Byte) → State × List (Option Byte)) : State :=
  if (metaOf s b).poison && !(bytes.all Option.isSome && bytes.length == 256) then storeBlock s id pay deb b bytes
  else
    match enter (if (metaOf s b).poison then bytes else mixOver own s (0, b) (b * 256) bytes) with
    | (s1, bs) => strikeOver own (storeBlock s1 id pay deb b bs) (0, b)

/-- A write of a device block by an author (R377, R386). -/
def storeOver (au : Author) (s : State) (id : Nat) (pay : Payer) (deb : Bool) (b : Nat) (bytes : List (Option Byte)) : State :=
  storeEntered au.unit s id pay deb b bytes (enterBytes s au 0 (b * 256) (memByte s.mem))

/-- The bytes of a write of host memory, within one block, which `enter` puts into the order co, reach it (R155). -/
def hostEntered (own : Option (Nat × Nat)) (s : State) (a : Nat) (bytes : List (Option Byte))
    (enter : List (Option Byte) → State × List (Option Byte)) : State :=
  match enter (mixOver own s (1, a / 256) (hostGrains + a) bytes) with
  | (s1, bs) => strikeOver own { s1 with hostMem := memWriteMasked s1.hostMem a bs } (1, a / 256)

/-- A write of host memory by an author, within one block (R155, R386). -/
def hostStore (au : Author) (s : State) (a : Nat) (bytes : List (Option Byte)) : State :=
  hostEntered au.unit s a bytes (enterBytes s au hostGrains a (memByte s.hostMem))

/-- Performs the write of one virtual block, through the caches of the loom's die (R293, R363). -/
def txStore (sp : Space) (die : Nat) (pay : Payer) (t : Txn) (s0 : State) (b : Nat) : State :=
  let bytes := (rangeFrom (b * 256) 256).map fun a => find? t.buf a
  match sp with
  | .table => tableWrite s0 (b * 256) bytes
  | .ctx id =>
    let s := bring s0 die id (b * 256)
    match xlateWalk s id (b * 256) .store with
    | .ok (.dev k) leaf =>
      let s1 := storeOver deviceWrites (markDirty s die id (b * 256)) id pay (leafDebits leaf) (k / 256) bytes
      if t.poisons.contains b then setMeta s1 (k / 256) { metaOf s1 (k / 256) with poison := true } else s1
    | .ok (.host a) _ => hostStore deviceWrites s a bytes
    | _ => s

/-- The contents of a range of a space become unpredictable, and nothing outside it (R308, R317); table space and host memory take any
bytes (log 61, DESIGN CHOICE). -/
def spoilRange (sp : Space) (s : State) (r : Nat × Nat) : State :=
  match sp with
  | .table =>
    let pick := (Config.leftBytes s.free [(r.1, 0#8)]).filter fun e => decide (r.1 ≤ e.1) && decide (e.1 < r.1 + r.2)
    pick.foldl (fun s e => tableWrite s e.1 [some e.2]) s
  | .ctx id => (rangeFrom (r.1 / 256) ((r.1 + r.2 + 255) / 256 - r.1 / 256)).foldl (fun s b =>
      let lo := max r.1 (b * 256)
      let n := min (r.1 + r.2) (b * 256 + 256) - lo
      match xlateWalk s id (b * 256) .store with
      | .ok (.dev k) _ => spoilBytes s id (k + lo % 256) n
      | .ok (.host a) _ => spoilHost s (a + lo % 256) n
      | _ => s) s

/-- How a loom operation ends: done, or with the first fault in the order of R324. -/
inductive TxOut where
  | done (s : State)
  | fault (cause addr : Nat) (s : State)
  deriving DecidableEq, Repr

/-- The number of a space: its context's, and 0 for table space. -/
def spaceNo : Space → Nat
  | .table => 0
  | .ctx id => id

/-- The TAIL that the loom has read of a ring is kept once its operation is done (R308). -/
def keepTail (t : Txn) (s : State) : State :=
  match t.tail with
  | none => s
  | some (h, x) =>
    { s with tails := (s.tails.filter fun e => !(e.1 == spaceNo t.sp && e.2.1 == h)) ++ [(spaceNo t.sp, h, x)] }

/-- The granules of `n` bytes of a space from an address on, block by block, each with the address of its first place. -/
def grainKeys (s : State) (sp : Space) (va n : Nat) : List (Nat × Nat) :=
  match sp with
  | .table => []
  | .ctx id => (rangeFrom (va / 16) ((va + n + 15) / 16 - va / 16)).filterMap fun g =>
    match xlateWalk s id (g * 16) .load with
    | .ok (.dev k) _ => some (k / 16, g * 16)
    | .ok (.host a) _ => some (hostGrains + a / 16, g * 16)
    | _ => none

/-- The bytes of a page that have been written since it was freed (R317). -/
def storedSince (s : State) (sp : Space) (page n : Nat) : List (Nat × Nat) :=
  match s.freed.find? fun e => e.1 == spaceNo sp && e.2.1 == page with
  | none => []
  | some e => (grainKeys s sp page n).flatMap fun g =>
    ((rangeFrom 0 16).filter (writtenSince s e.2.2 g.1)).map fun i => (g.2 + i, 1)

/-- The pages that an operation has taken are free no more, and those that it has freed are, from the next write on (R317). -/
def keepFreed (t : Txn) (s : State) : State :=
  { s with freed := (s.freed.filter fun e => !(e.1 == spaceNo t.sp && (t.takes ++ t.frees).contains e.2.1)) ++
      t.frees.map fun page => (spaceNo t.sp, page, s.nextWrite) }

/-- The bytes of the writes that an operation has made in the pages it copied (R401). -/
def copiedCodes (t : Txn) (s : State) : List Nat :=
  t.cows.flatMap fun r => (grainKeys s t.sp r.1 r.2).flatMap fun k =>
    match find? s.hist k.1 with
    | none => []
    | some g => (g.writes.filter fun w => decide (t.s.nextWrite ≤ w.n)).flatMap fun w => (maskOf w.bytes).map (seenCode w.n)

/-- A sequence that begins anew has no commits. -/
def keepBegins (t : Txn) (s : State) : State :=
  match t.begins with
  | some h => dropSeqRels s (spaceNo t.sp) h
  | none => s

/-- Ends a loom operation: its first fault, or the debit and then every store, in one step (R323, R324) (log 52, DEDUCED). -/
def txFinish (t : Txn) (die : Nat) (pay : Payer) : TxOut :=
  match t.replay, t.hard with
  | some (c, a), _ => .fault c a t.s
  | none, some (c, a) => .fault c a t.s
  | none, none =>
    if t.bad58 then .fault 0x58 0 t.s
    else if t.bad59 then .fault 0x59 0 t.s
    else
      let id := match t.sp with | .ctx i => i | .table => 0
      let need := txDebits t
      match debitN t.s pay id need.length with
      | (s1, k) =>
        if k < need.length then .fault 0x20 (nth 0 need k * 256) (undebit s1 pay id (8 * k))
        else
          .done (keepBegins t (keepFreed t (keepTail t
            ((txBlocks t).foldl (txStore t.sp die pay t) (t.spoils.foldl (spoilRange t.sp) s1)))))

/-! ## Sequence headers (R294-R296) -/

/-- The fields of a sequence header and its block. -/
structure Hdr where
  at_ : Nat
  cl : Nat
  rl : Nat
  cap : Nat
  slg : Nat
  tpg : Nat
  ring : Nat
  pt : Nat
  parent : Nat
  tail : Nat
  flen : Nat
  depth : Nat
  prc : Nat
  queue : Bool
  kv : Bool
  released : Bool
  done : Bool
  lkup : Bool
  approx : Nat
  fbm : Nat
  wlg : Nat
  vmap : Nat
  pool : Nat
  ok : Bool
  deriving DecidableEq, Repr

/-- Reads a header from its nine words; `ok` says that it keeps R294 and R295. -/
def hdrOf (h : Nat) (w : List Nat) : Hdr :=
  let a := fun i => nth 0 w i
  let kv := bitAt (a 5) 1
  let queue := bitAt (a 5) 0
  let cap := field (a 1) 0 32
  let slg := field (a 1) 32 5
  let tpg := field (a 1) 37 3
  let ring := field (a 1) 40 5
  let pt := field (a 2) 0 56
  let wlg := field (a 6) 56 5
  let vmap := field (a 7) 0 56
  let fbm := field (a 6) 0 56
  let parent := field (a 3) 0 56
  let ok :=
    decide (1 ≤ cap) && (!kv || decide (cap ≤ 2 ^ 28)) && decide (slg ≤ 16) && (!kv || decide (tpg ≤ 4)) &&
      field (a 1) 45 19 == 0 && (!kv || ring == 0) && field (a 2) 56 8 == 0 &&
      (if kv then pt % 8 == 0 else pt % 16 == 0 && pt % 2 ^ slg == 0) &&
      (if kv then field (a 3) 56 8 == 0 && field (a 4) 34 6 == 0 && parent % 64 == 0
        else field (a 3) 32 32 == 0 && a 4 == 0) &&
      field (a 5) 5 27 == 0 && !(queue && kv) && fbm % 8 == 0 && decide (6 ≤ wlg) && decide (wlg ≤ 20) &&
      field (a 6) 61 3 == 0 && vmap % 8 == 0 && field (a 7) 56 8 == 0 &&
      decide (field (a 0) 0 32 ≤ field (a 0) 32 32) && (!kv || field (a 8) 56 8 == 0)
  { at_ := h, cl := field (a 0) 0 32, rl := field (a 0) 32 32, cap := cap, slg := slg, tpg := tpg, ring := ring, pt := pt,
    parent := if kv then parent else 0, tail := if kv then 0 else field (a 3) 0 32, flen := field (a 4) 0 32,
    depth := field (a 4) 32 2, prc := field (a 4) 40 24, queue := queue, kv := kv, released := bitAt (a 5) 2,
    done := bitAt (a 5) 3, lkup := bitAt (a 5) 4, approx := field (a 5) 32 32, fbm := fbm, wlg := wlg, vmap := vmap,
    pool := field (a 8) 0 56, ok := ok }

/-- Splits bytes into 64-bit words. -/
def wordsOf (bs : List Byte) : List Nat := blockWords 8 (bs.length / 8) bs

/-- Reads the header a handle names (R293), and the key-value block where KV = 1: a handle that is misaligned or has bits
63:56 set, or a header that breaks R294 or R295, is 0x58. -/
def txHdr (t : Txn) (h : Nat) : Txn × Hdr :=
  if h % 64 ≠ 0 ∨ 2 ^ 56 ≤ h then ({ t with bad58 := true }, hdrOf h [])
  else
    match txBytes t h 64 with
    | (t1, bs) =>
      let ws := wordsOf bs
      match (if bitAt (nth 0 ws 5) 1 then txRead t1 (h + 64) 8 else (t1, 0)) with
      | (t2, w8) =>
        let hd := hdrOf h (ws ++ [w8])
        ({ t2 with bad58 := t2.bad58 || !hd.ok }, hd)

/-- Writes CL and RL. -/
def txLens (t : Txn) (hd : Hdr) (cl rl : Nat) : Txn := txWrite t hd.at_ 8 (cl + rl * 2 ^ 32)

/-- The address of a slot of a flat sequence (R296). -/
def flatSlot (hd : Hdr) (s : Nat) : Nat := hd.pt + (if hd.ring = 0 then s else s % 2 ^ hd.ring) * 2 ^ hd.slg

/-- Reads a bit of a map. -/
def txBit (t : Txn) (base i : Nat) : Txn × Bool :=
  match txRead t (base + i / 8) 1 with
  | (t1, b) => (t1, bitAt b (i % 8))

/-- Writes a bit of a map. -/
def txSetBit (t : Txn) (base i : Nat) (v : Bool) : Txn :=
  match txRead t (base + i / 8) 1 with
  | (t1, b) =>
    let m := 2 ^ (i % 8)
    txWrite t1 (base + i / 8) 1 (if v then b ||| m else if bitAt b (i % 8) then b - m else b)

/-- The fill bit of a slot (R300). -/
def txFill (t : Txn) (hd : Hdr) (s : Nat) : Txn × Bool := txBit t hd.fbm (s % 2 ^ hd.wlg)
def txSetFill (t : Txn) (hd : Hdr) (s : Nat) (v : Bool) : Txn := txSetBit t hd.fbm (s % 2 ^ hd.wlg) v

/-- CL moves over the longest run of filled slots (R306). -/
def txAdvance (hd : Hdr) : Nat → Txn → Nat → Txn × Nat
  | 0, t, cl => (t, cl)
  | fuel + 1, t, cl =>
    match txFill t hd cl with
    | (t1, false) => (t1, cl)
    | (t1, true) => txAdvance hd fuel (txSetFill t1 hd cl false) (cl + 1)

/-- Sets the fill bits, and for a void the void bits, of `n` slots (R306). -/
def txClose (hd : Hdr) (void : Bool) : Nat → Txn → Nat → Txn
  | 0, t, _ => t
  | n + 1, t, s =>
    let t1 := txSetFill t hd s true
    txClose hd void n (if void then txSetBit t1 hd.vmap s true else t1) (s + 1)

/-- Whether every one of `n` slots is RESERVED (R300). -/
def txReserved (hd : Hdr) : Nat → Txn → Nat → Txn × Bool
  | 0, t, _ => (t, true)
  | n + 1, t, s =>
    if s < hd.cl ∨ hd.rl ≤ s then (t, false)
    else
      match txFill t hd s with
      | (t1, true) => (t1, false)
      | (t1, false) => txReserved hd n t1 (s + 1)

/-- The status a reservation of `n` slots returns before NOPAGE is judged (R302). -/
def reserveStatus (hd : Hdr) (n : Nat) : Option Nat :=
  if hd.released then some 5
  else if hd.kv ∧ 2 ^ 28 < hd.rl + n then some 2
  else if hd.cap < hd.rl + n then some 1
  else if hd.ring ≠ 0 ∧ 2 ^ hd.ring < hd.rl + n - hd.tail then some 9
  else if 2 ^ hd.wlg < hd.rl + n - hd.cl then some 3
  else none

/-- A reservation in a ring reads TAIL: one that exceeds CL, or that has fallen since the loom last read it, leaves the contents of
the ring's slots unpredictable (R308). A ring of which no slot has been reserved is a new one. -/
def txRing (t : Txn) (hd : Hdr) : Txn :=
  let seen := t.s.tails.find? fun e => e.1 == spaceNo t.sp && e.2.1 == hd.at_
  let last := if hd.rl = 0 then 0 else match seen with | some e => e.2.2 | none => 0
  let t1 : Txn := { t with tail := some (hd.at_, hd.tail) }
  if hd.ring = 0 then t
  else if hd.cl < hd.tail ∨ hd.tail < last then { t1 with spoils := t1.spoils ++ [(hd.pt, 2 ^ (hd.ring + hd.slg))] }
  else t1

/-- The die whose loom performs an operation on a handle (R293). -/
def loomDie (s : State) (sp : Space) (h : Nat) : Nat :=
  match sp with
  | .table => 0
  | .ctx id =>
    match xlateWalk s id h .load with
    | .ok (.dev k) _ => homeDie (k / 256)
    | _ => 0

/-- Sends CL to the cl registers of a core that are bound to a sequence (R309). -/
def bumpCl (id h cl : Nat) (k : Core) : Core :=
  if k.ctx = id then
    { k with cl := k.cl.map fun e =>
        (e.1, if e.2.bound = some h then { e.2 with val := BitVec.ofNat 64 cl } else e.2) }
  else k

/-- A team that waits for a cl register is woken once the value is reached, and completes its SEQ.WAIT (R310). -/
def wakeSeq (s : State) (t : Team) : Team :=
  match t.status with
  | .waiting (.seqWait j v) =>
    if v ≤ (tabGet ClReg.reset (getCore s t.core).cl j).val.toNat then { t with status := .ready, woken := true } else t
  | _ => t

/-- The pool that the key-value block of a sequence names. -/
def rawPool (s : State) (sp : Space) (h : Nat) : Nat :=
  match sp with
  | .table => memNat s.tspace (h + 64) 8
  | .ctx id =>
    match xlateWalk s id (h + 64) .load with
    | .ok p _ => natOf (placeBytes s p 8)
    | _ => 0

/-- Words 0 to 7 of a header as they stand, unchecked. -/
def rawHdr (s : State) (sp : Space) (h : Nat) : Hdr :=
  match sp with
  | .table => hdrOf h ((rangeFrom 0 8).map fun i => memNat s.tspace (h + 8 * i) 8)
  | .ctx id =>
    match xlateWalk s id h .load with
    | .ok p _ => hdrOf h (blockWords 8 8 (placeBytes s p 64))
    | _ => hdrOf h []

/-- The dispatcher watches a sequence with the QUEUE flag from then on (R224): its own HEAD begins at 0. -/
def noteQueue (s : State) (sp : Space) (h : Nat) : State :=
  let ctx := match sp with | .table => 0 | .ctx id => id
  if (rawHdr s sp h).queue && !(s.queues.any fun q => q.ctx == ctx && q.handle == h) then
    { s with queues := s.queues ++ [⟨ctx, h, 0, false, [], none, false⟩] }
  else s

/-- A commit to a queue, or a page command of its context, has it read again where it could not be (R460). -/
def readAgain (s : State) (which : QueueSt → Bool) : State :=
  { s with queues := s.queues.map fun q => if which q && q.failed.isSome then { q with again := true } else q }

/-- A commit to the sequence that a handle names (R460). -/
def commitTo (s : State) (sp : Space) (h : Nat) : State := readAgain s fun q => q.ctx == spaceNo sp && q.handle == h

/-- CL or TAIL of a sequence has advanced: bound cl registers take CL, waiters whose value is reached go on, a fault
queue's waiting records are tried again, and a queue is watched (R224, R306, R309, R310, R407). -/
def afterCl (s0 : State) (sp : Space) (h cl : Nat) : State :=
  let s := noteQueue s0 sp h
  match sp with
  | .table => if s.mgmt.eventq = h then { s with evDue := !s.evPend.isEmpty } else s
  | .ctx id =>
    let c := getCtx s id
    let s1 : State := if c.fq = h then setCtx s id { c with due := !c.pend.isEmpty } else s
    let s2 : State := { s1 with cores := s1.cores.map fun e => (e.1, bumpCl id h cl e.2) }
    { s2 with teams := s2.teams.map fun e => (e.1, wakeSeq s2 e.2) }

/-- How an append of one slot ends (R407, R419): appended; not appended, because no OPEN flat sequence of that slot size could be
read, its reservation failed or its debit is not covered; or lost, because a part of the commit cannot be stored. -/
inductive Append where
  | ok (s : State) (slot : Nat)
  | failed
  | lost
  deriving DecidableEq, Repr

/-- The device appends one slot with a reservation of 1 and a commit (R407, R419), which releases its bytes and what `v` holds (R321). -/
def appendOne (s : State) (sp : Space) (pay : Payer) (h slg : Nat) (bytes : List Byte) (v : View) : Append :=
  let released := fun (s1 : State) (n : Nat) => addSeqRel s1 (spaceNo sp) h n (joinView v ⟨madeSince s s1, 0⟩)
  match txHdr (txStart s sp false) h with
  | (t1, hd) =>
    if hd.kv || hd.slg != slg || (reserveStatus hd 1).isSome || t1.bad58 || t1.replay.isSome || t1.hard.isSome then .failed
    else
      let t2 := txPutLong 300 (txRing t1 hd) (flatSlot hd hd.rl) bytes
      let t3 := txSetFill t2 hd hd.rl true
      match txAdvance hd (hd.rl + 1 - hd.cl) t3 hd.cl with
      | (t4, cl) =>
        match txFinish (txLens t4 hd cl (hd.rl + 1)) (loomDie s sp h) pay with
        | .done s1 => .ok (released (if cl = hd.cl then s1 else afterCl s1 sp h cl) (hd.rl + 1)) hd.rl
        | .fault c _ _ => if c = 0x20 then .failed else .lost

/-- An append of one slot: the state and the slot, or none where it is not made. -/
def appendSlot (s : State) (sp : Space) (pay : Payer) (h slg : Nat) (bytes : List Byte) : Option (State × Nat) :=
  match appendOne s sp pay h slg bytes ⟨[], 0⟩ with
  | .ok s1 n => some (s1, n)
  | _ => none

/-- What tells that CL or TAIL of a sequence has advanced (R407). -/
def seenOf (s : State) (sp : Space) (h : Nat) : Nat := (rawHdr s sp h).cl + (rawHdr s sp h).tail * 2 ^ 32

end Sys2Proof.Machine
end

