-- ==== Sys2Proof/Machine/Ops.lean ====
section
/-! DEFINITION. The named operations on the machine: the trace staging (22 R415-R419), fault records (R406-R408), the region
log and its commit (07 R146-R153), taking a precise stop (R409) or a replayable fault (R152) and the returns from them, the
end of a group (R126, R136, R137), and the send of an access to a peer (23 R424). -/

namespace Sys2Proof.Machine

/-- What a meaning answers. -/
abbrev Out := Host.Outcome State Fault Refusal

/-! ## Trace (R415-R419, R455-R458) -/

/-- An unsigned LEB128 varint (R417). -/
def varint : Nat → Nat → List Byte
  | 0, n => [BitVec.ofNat 8 n]
  | fuel + 1, n => if n < 128 then [BitVec.ofNat 8 n] else BitVec.ofNat 8 (128 + n % 128) :: varint fuel (n / 128)

/-- A signed value mapped for a varint (R417). -/
def zigzag (d : Int) : Nat := if d < 0 then (-2 * d - 1).toNat else (2 * d).toNat

/-- Appends the staged record; a record that cannot be appended is dropped and counted (R416, R419, R455). -/
def traceAppend (s : State) (u : Nat) : State :=
  let t := getTeam s u
  if t.trace.staged.isEmpty then s
  else
    let body := bytesOf 4 t.id ++ bytesOf 2 t.trace.staged.length ++ t.trace.staged
    let bytes := body ++ List.replicate (256 - body.length) 0#8
    let h := (getCore s t.core).tbind
    let sent := if h = 0 then none else appendSlot s (.ctx t.ctx) (.core t.core) h 8 bytes
    match sent with
    | some (s1, _) =>
      modTeam s1 u fun t => { t with trace := { t.trace with
        staged := [], count := 0, loss := if t.trace.staged.head? = some 0x04#8 then 0 else t.trace.loss } }
    | none =>
      modTeam s u fun t => { t with trace := { t.trace with
        staged := [], count := 0, loss := t.trace.loss + t.trace.count, lossDue := true } }

/-- What a group changed, as its packets describe it: its pc, the flow before it and the flow after it (R457). -/
structure GroupView where
  pc : Nat
  before : Flow
  after : Flow
  deriving DecidableEq, Repr

/-- The packets a group can ask for (R417). -/
inductive Pkt where
  | sync
  | br
  | mark (v : BitVec 16)
  deriving DecidableEq, Repr

/-- The bytes of a SYNC packet (R417, R457): its time is that of its group's issue. -/
def syncBytes (t : Team) (g : GroupView) : List Byte :=
  let ws := (List.range 32).map (emWord t.lanes g.before)
  [0x01#8] ++ bytesOf 7 g.pc ++ bytesOf 4 t.id ++ bytesOf 8 t.cur.time ++ bytesOf 4 (emSummary t.lanes g.before) ++
    ((ws.filter (· != 0)).map (bytesOf 4)).flatten

/-- The bytes of a BR packet (R417). -/
def brBytes (t : Team) (g : GroupView) : List Byte :=
  let ws := (List.range 32).map fun w => (emWord t.lanes g.before w, emWord t.lanes g.after w)
  let map := ws.zipIdx.foldl (fun a e => if e.1.1 = e.1.2 then a else a + 2 ^ e.2) 0
  [0x02#8] ++ varint 10 (zigzag (((g.after.pc : Int) - t.trace.refPc) / 4)) ++ bytesOf 4 map ++
    (ws.map fun e => if e.1 = e.2 then [] else bytesOf 4 e.2).flatten

/-- Stages a packet when it fits, or appends the staged record first and answers that nothing was staged. -/
def tracePut (s : State) (u : Nat) (bytes : List Byte) : State × Bool :=
  let t := getTeam s u
  if 250 < t.trace.staged.length + bytes.length ∧ !t.trace.staged.isEmpty then (traceAppend s u, false)
  else
    (modTeam s u fun t => { t with trace := { t.trace with staged := t.trace.staged ++ bytes, count := t.trace.count + 1 } },
      true)

/-- Emits a packet with what must precede it: LOSS with its SYNC, a due SYNC, a DT (R418, R419, R458). -/
def traceEmit (g : GroupView) (p : Pkt) : Nat → State → Nat → State
  | 0, s, _ => s
  | fuel + 1, s, u =>
    let t := getTeam s u
    let now := s.mgmt.time
    let synced := fun (s : State) => modTeam s u fun t => { t with trace := { t.trace with
      refPc := g.pc, refTime := t.cur.time, lastSync := now, sinceSync := 0, syncDue := false, syncNext := false } }
    if t.trace.lossDue then
      match tracePut s u ([0x04#8] ++ varint 10 t.trace.loss) with
      | (s1, true) =>
        traceEmit g p fuel
          (modTeam s1 u fun t => { t with trace := { t.trace with lossDue := false, syncDue := true } }) u
      | (s1, false) => traceEmit g p fuel s1 u
    else if t.trace.syncDue || t.trace.syncNext || decide (64 ≤ t.trace.sinceSync) || decide (t.trace.lastSync + 2560 ≤ now) ||
        p == .sync then
      match tracePut s u (syncBytes t g) with
      | (s1, true) => if p = .sync then synced s1 else traceEmit g p fuel (synced s1) u
      | (s1, false) => traceEmit g p fuel s1 u
    else if t.trace.refTime < now then
      match tracePut s u ([0x03#8] ++ varint 10 (now - t.trace.refTime)) with
      | (s1, true) =>
        traceEmit g p fuel (modTeam s1 u fun t => { t with trace := { t.trace with
          refTime := now, sinceSync := t.trace.sinceSync + 1 } }) u
      | (s1, false) => traceEmit g p fuel s1 u
    else
      let bytes := match p with
        | .sync => []
        | .br => brBytes t g
        | .mark v => [0x05#8] ++ bytesOf 2 v.toNat
      match tracePut s u bytes with
      | (s1, true) => modTeam s1 u fun t => { t with trace := { t.trace with
          refPc := if p = .br then g.after.pc else t.trace.refPc, sinceSync := t.trace.sinceSync + 1 } }
      | (s1, false) => traceEmit g p fuel s1 u

/-- Whether a team emits packets (R416). -/
def traced (t : Team) : Bool := t.trace.on && !t.bounds

/-- 4096 clk have passed since a team's last SYNC (R418) (log 3, DESIGN CHOICE). -/
def syncTime (s : State) (t : Team) : Bool := decide (t.trace.lastSync + 2560 ≤ s.mgmt.time)

/-! ## Fault records (R406-R408) -/

/-- The bytes of a record (R406). -/
def recBytes (r : FaultRec) : List Byte :=
  let b := fun (x : Bool) => if x then 1 else 0
  let w0 := r.cause % 256 + b r.park * 2 ^ 8 + b r.stopc * 2 ^ 9 + b r.lane.isSome * 2 ^ 10 + b r.uid.isSome * 2 ^ 11 +
    (r.ctx % 4096) * 2 ^ 16 + (r.core % 256) * 2 ^ 28 + (r.part % 4) * 2 ^ 36 + (r.lane.getD 0 % 1024) * 2 ^ 38 +
    (min r.lost 65535) * 2 ^ 48
  (([w0, r.team % 2 ^ 32 + (r.qnum % 65536) * 2 ^ 32, r.pc % 2 ^ 56, r.addr, r.time, r.w5, r.w6, r.w7]).map (bytesOf 8)).flatten

/-- What follows the commit of a record: sv.fault of its team (R408), and an open record for a parked team (R152)
(log 55, DEDUCED). -/
def recDone (s : State) (r : FaultRec) (slot : Nat) : State :=
  match r.uid with
  | none => s
  | some u =>
    let s1 := modTeam s u fun t => { t with svFault := ⟨r.cause, true, slot⟩ }
    if r.park then modCtx s1 r.ctx fun c => { c with openRecs := c.openRecs ++ [(slot, u)] } else s1

/-- Appends the waiting records of a context in the order they were formed, until one cannot be appended (R407). A commit that
cannot be stored has the context fenced (R413). -/
def flushCtx : Nat → State → Nat → State
  | 0, s, _ => s
  | fuel + 1, s, id =>
    let c := getCtx s id
    if !c.due then s
    else
      match c.pend with
      | [] => setCtx s id { c with due := false }
      | r :: rest =>
        match appendOne s (.ctx id) .pool c.fq 6 (recBytes { r with lost := c.lost }) ⟨[], 0⟩ with
        | .failed => setCtx s id { c with due := false, seen := seenOf s (.ctx id) c.fq }
        | .lost => setCtx s id { c with due := false, seen := seenOf s (.ctx id) c.fq, lostCommit := true }
        | .ok s1 slot =>
          let s2 := modCtx s1 id fun k => { k with pend := rest ++ k.pend.drop (rest.length + 1), lost := 0 }
          flushCtx fuel (recDone s2 r slot) id

/-- Appends the waiting records of the device event sequence (R407). -/
def flushDev : Nat → State → State
  | 0, s => s
  | fuel + 1, s =>
    if !s.evDue then s
    else
      match s.evPend with
      | [] => { s with evDue := false }
      | r :: rest =>
        match appendSlot s .table .pool s.mgmt.eventq 6 (recBytes { r with lost := s.evLost }) with
        | none => { s with evDue := false, evSeen := seenOf s .table s.mgmt.eventq }
        | some (s1, _) => flushDev fuel { s1 with evPend := rest ++ s1.evPend.drop (rest.length + 1), evLost := 0 }

/-- Whether a context's records are to be tried: they are due, or CL or TAIL of its fault queue has advanced (R407). -/
def ctxDue (s : State) (id : Nat) : Bool :=
  let c := getCtx s id
  c.due || (!c.pend.isEmpty && seenOf s (.ctx id) c.fq != c.seen)

/-- Whether the records of the device event sequence are to be tried. -/
def devDue (s : State) : Bool := s.evDue || (!s.evPend.isEmpty && seenOf s .table s.mgmt.eventq != s.evSeen)

/-- Appends whatever records may be appended now. -/
def settle (s : State) : State :=
  let s1 := s.ctxs.foldl (fun a e =>
    if ctxDue a e.1 then flushCtx 64 (modCtx a e.1 fun c => { c with due := true }) e.1 else a) s
  if devDue s1 then flushDev 64 { s1 with evDue := true } else s1

/-- A step's next state, once the records it formed have been appended where they can be. -/
def done (s : State) : Out := .next (settle s)

/-- The kernel of a number. -/
def kernelOf (s : State) (kid : Nat) : Option Kernel := s.kernels.find? (fun k => k.kid == kid)

/-- The queue number of a kernel (R224). -/
def qnumOf (s : State) (kid : Nat) : Nat := match kernelOf s kid with | some k => k.qnum | none => 0

/-- A record that names a team, at the group it issued last (R406) (log 55, DEDUCED). -/
def teamRec (s : State) (u cause : Nat) (lane : Option Nat) (addr : Nat) : FaultRec :=
  let t := getTeam s u
  { blankRec s cause t.ctx with
    lane := lane, uid := some u, core := t.core, part := t.part, team := t.id, qnum := qnumOf s t.kid, pc := t.cur.group,
    addr := addr }

/-! ## Peers (R173, R424) -/

/-- Whether a port carries flits (R424). -/
def portUsable (p : Port) : Bool := p.st == .up || p.st == .spared || p.st == .degraded

/-- The host link's port (R420). -/
def hostPort : Nat := 16

/-- Whether the host link carries flits. -/
def hostUp (s : State) : Bool := portUsable (nth Port.reset s.ports hostPort)

/-- The first usable port from `q` on, of the sixteen (R424); none when no port is usable. -/
def pathFrom (s : State) : Nat → Nat → Option Nat
  | 0, _ => none
  | fuel + 1, q => if portUsable (nth Port.reset s.ports (q % 16)) then some (q % 16) else pathFrom s fuel (q + 1)

/-- The path of an access to a peer address (R424). -/
def pathOf (s : State) (a : Nat) : Option Nat :=
  pathFrom s 16 (field a 8 4 ^^^ field a 12 4 ^^^ field a 16 4 ^^^ field a 20 4)

/-- What an access to a peer asks for. -/
structure PeerAsk where
  store : Bool
  bytes : List (Option Byte)
  rmw : Option (Width × AtomMod × List (W64 × W64))
  lanes : List Nat
  reg : Option Nat
  size : Nat
  sx : Bool
  deriving DecidableEq, Repr

/-- Sends an access of a context to a peer (R424, R425): accesses still in flight to the same block keep their path. Port 16 stands
for no path: no port is usable, or the entry is not in use or is another context's (log 43, DEDUCED; log 60, DEDUCED). -/
def sendPeer (s : State) (u ctx slot va addr : Nat) (q : PeerAsk) : State × Nat :=
  let e := memNat s.tspace (s.mgmt.outb + 8 * slot) 8
  let dev := field e 1 8
  let rctx := field e 9 12
  let same := fun (r : PeerReq) =>
    r.dev == dev && r.rctx == rctx && r.addr / 256 == addr / 256 && r.failed.isNone && r.port != 16
  let port :=
    if !(bitAt e 0) || field e 21 12 != ctx then 16
    else
      match s.peers.find? same with
      | some r => r.port
      | none => (pathOf s addr).getD 16
  let r : PeerReq :=
    { id := s.nextPeer, uid := u, port := port, dev := dev, rctx := rctx, lctx := field e 21 12, va := va, addr := addr,
      store := q.store, bytes := q.bytes, rmw := q.rmw, lanes := q.lanes, reg := q.reg, size := q.size, sx := q.sx,
      sent := s.mgmt.time, failed := none }
  let sent := fun (p : Port) => { p with tx := p.tx + 1 }
  ({ s with
    peers := s.peers ++ [r], nextPeer := s.nextPeer + 1
    ports := if port < 16 then setAt s.ports port (sent (nth Port.reset s.ports port)) else s.ports }, s.nextPeer)

/-- What a team knows of bytes it has asked a peer for (R144, R344): the bytes, that the read failed, that no answer has come, or
that it has not asked. -/
inductive Asked where
  | got (bs : List Byte)
  | failed
  | waits
  | unasked
  deriving DecidableEq, Repr

/-- What a team knows of `n` bytes at an address in a peer window. -/
def askedOf (t : Team) (va n : Nat) : Asked :=
  match t.asks.find? (fun a => a.addr == va && a.len == n) with
  | none => .unasked
  | some a =>
    match a.answer with
    | none => .waits
    | some (.ok data) => .got ((data ++ List.replicate n 0#8).take n)
    | some (.failed _) => .failed

/-- A team asks a peer for `n` bytes. -/
def askPeer (n u : Nat) (s : State) (e : Nat × Nat × Nat) : State :=
  let t := getTeam s u
  if askedOf t e.1 n = .unasked then
    match sendPeer s 0 t.ctx e.2.1 e.1 e.2.2 ⟨false, List.replicate n none, none, [], none, n, false⟩ with
    | (s1, id) => modTeam s1 u fun t => { t with asks := t.asks ++ [⟨e.1, n, id, none⟩] }
  else s

/-- A team asks peers for `n` bytes at each of some addresses, given with their slots and peer addresses, and waits (R144, R344). -/
def askPeers (s : State) (u n : Nat) (l : List (Nat × Nat × Nat)) : State :=
  modTeam (l.foldl (askPeer n u) s) u fun t => { t with status := .waiting .fetch }

/-! ## Regions (R146-R153) -/

/-- The sectors of the log and its zero entries: the entries in use (R150, R175). -/
def logEntries (t : Team) : Nat := (dedupNat (t.log.map fun e => e.1 / 32)).length + t.zeros.length

/-- The place of an address whose translation was checked when its store entered the log (R362). -/
def loggedPlace (s : State) (id va : Nat) : Option (Place × Nat) :=
  match walk s id va with
  | none => none
  | some l => some (placeOf l.bits l.base va, l.bits)

/-- The masked bytes a log holds for a block. -/
def logBlock (log : List (Nat × Byte)) (b : Nat) : List (Option Byte) := (rangeFrom (b * 256) 256).map (find? log)

/-- The first byte that a masked write of a block writes. -/
def firstByte (bytes : List (Option Byte)) : Nat := bytes.findIdx (·.isSome)

/-- A write of masked bytes to one block reaches its home, its host range or its peer (R147, R161, R175, R386)
(log 52, DEDUCED). A host range takes it at once, in whatever state the host port is (log 70, DESIGN CHOICE). -/
def writeHome (s : State) (u b : Nat) (bytes : List (Option Byte)) (deb : Bool) (pol : Pol) : State :=
  let t := getTeam s u
  match loggedPlace s t.ctx (b * 256) with
  | some (.dev k, _) =>
    poundMark (teamWrote s (storeOver (teamWrites t) (markDirty s (dieOf t.core) t.ctx (b * 256)) t.ctx (.core t.core) deb (k / 256)
      bytes) u) (k / 256) pol
  | some (.host a, _) => teamWrote s (hostStore (teamWrites t) s a bytes) u
  | some (.peer slot a, _) =>
    (sendPeer (strikeOver none s (2 + slot, a / 256)) u t.ctx slot (b * 256 + firstByte bytes) a ⟨true, bytes, none, [], none, 256, false⟩).1
  | _ => s

/-- The lines that L1 has room for beside the region logs of the core's teams (R2, R17). -/
def l1Room (s : State) (core : Nat) : Nat := (262144 - (teamsOn s core).foldl (fun n e => n + e.2.logSize) 0) / 256

/-- The lines of L1 with one fewer: one that is first in line for eviction, or one that is free to choose (R162)
(log 19, DESIGN CHOICE). -/
def l1Victim (n i : Nat) (c : Core) : Core :=
  let v := match c.l1Early with
    | x :: _ => x
    | [] => nth 0 c.l1 (Config.freeNat n (2 ^ 41 + i) % c.l1.length)
  { c with l1 := c.l1.filter (· != v), l1Last := c.l1Last.filter (· != v), l1Early := c.l1Early.filter (· != v) }

/-- L1 gives up lines when the region log of a team that has come leaves it less room (R2, R17). -/
def l1Trim (s : State) (core : Nat) : State :=
  let c := getCore s core
  setCore s core ((List.range (c.l1.length - l1Room s core)).foldl (fun c i => l1Victim s.free i c) c)

/-- L1 lets go of a block. -/
def l1Drop (c : Core) (b : Nat) : Core :=
  { c with l1 := c.l1.filter (· != b), l1Last := c.l1Last.filter (· != b), l1Early := c.l1Early.filter (· != b) }

/-- Whether a policy keeps a block in L1 (R162). -/
def polL1 : Pol → Bool
  | .l1 | .last => true
  | _ => false

/-- An access keeps a block in a core's L1, as its policy says (R2, R162): a block that was to be read once more is then first in
line for eviction. A policy that does not keep it leaves a line as it is (log 19, DESIGN CHOICE). -/
def l1Keep (s : State) (core b : Nat) (pol : Pol) (read : Bool) : State :=
  let c := getCore s core
  let seen := c.l1Last.contains b && read
  let c1 : Core := if seen then { c with l1Last := c.l1Last.filter (· != b), l1Early := c.l1Early ++ [b] } else c
  if !(polL1 pol) then setCore s core c1
  else if c1.l1.contains b then
    setCore s core (if pol == .last && !seen then { c1 with l1Last := dedupNat (c1.l1Last ++ [b]) } else c1)
  else if l1Room s core = 0 then setCore s core c1
  else
    let c2 := if l1Room s core ≤ c1.l1.length then l1Victim s.free 0 c1 else c1
    setCore s core { c2 with l1 := c2.l1 ++ [b], l1Last := if pol == .last then c2.l1Last ++ [b] else c2.l1Last }

/-- Whether a block of a context lies in device memory: L1 holds no block of a host or a peer window (R155). -/
def l1Holds (s : State) (id b : Nat) : Bool :=
  match loggedPlace s id (b * 256) with
  | some (.dev _, _) => true
  | _ => false

/-- Commits one block of the log: the zero entry first, then the sectors (R175). -/
def commitBlock (u : Nat) (t : Team) (s : State) (b : Nat) : State :=
  let zero := List.replicate 256 (some 0#8)
  let pol := (find? t.pols b).getD .l1
  let s1 := if t.zeros.contains b then writeHome s u b zero false pol else s
  let part := logBlock t.log b
  let s2 := if part.any Option.isSome then writeHome s1 u b part (t.debited.contains b) pol else s1
  if l1Holds s2 t.ctx b then l1Keep s2 t.core b pol false else s2

/-- The blocks a region has written. -/
def logBlocks (t : Team) : List Nat := dedupNat (t.zeros ++ t.log.map fun e => e.1 / 256)

/-- Commits a team's region (R147, R386): every logged block, then an empty log. All that its lanes have done comes before the commit
(R387). -/
def commitRegion (s : State) (u : Nat) : State :=
  let t := getTeam s u
  modTeam ((logBlocks t).foldl (commitBlock u t) (meldLanes s u)) u fun t => { t with log := [], zeros := [], pols := [], debited := [] }

/-- Discards a team's region log and returns its debit (R152, R153). -/
def abortRegion (s : State) (u : Nat) : State :=
  let t := getTeam s u
  let s1 := undebit s (.core t.core) t.ctx (8 * t.debited.length)
  modTeam s1 u fun t => { t with log := [], zeros := [], pols := [], debited := [] }

/-- Takes a new snapshot (R147, R148). -/
def takeSnap (s : State) (u : Nat) : State := modTeam s u fun t => { t with snap := t.flow }

/-! ## Taking an exception, and the returns (R145, R152, R409, R410) -/

/-- The keys of a tile's elements and of a row pair (R13). -/
def tileKey (tile row col : Nat) : Nat := tile * 4096 + row * 64 + col
def rowPairKey (tile row : Nat) : Nat := tile * 64 + row

/-- The tiles and row pairs that an operation writes become unpredictable. -/
def spoilTiles (n : Nat) (c : Core) (o : MOp) : Core :=
  let tiles := o.destTiles.foldl (fun t d => (rangeFrom (tileKey d 0 0) 4096).foldl
    (fun t k => tabSet 0#32 t k (Config.free32 n k)) t) c.tile
  let rows := fun (off : Nat) (t : Tab W32) => o.destRows.foldl (fun t d => (rangeFrom (rowPairKey d 0) 64).foldl
    (fun t k => tabSet 0#32 t k (Config.free32 n (off + k))) t) t
  { c with tile := tiles, rowM := rows (2 ^ 21) c.rowM, rowL := rows (2 ^ 22) c.rowL }

/-- Bytes of a core's scratchpad as they show. -/
def spadBytes (c : Core) (a n : Nat) : List Byte := (rangeFrom a n).map fun x => tabGet 0#8 c.spad x

/-- The newest byte of a core's scratchpad, an early write's among them. -/
def spadNow (c : Core) (x : Nat) : Byte := (find? c.lateSpad x).getD (tabGet 0#8 c.spad x)

/-- A range of a core's scratchpad becomes unpredictable. -/
def spoilSpad (n : Nat) (s : State) (core : Nat) (r : Nat × Nat) : State :=
  let bytes := (rangeFrom r.1 r.2).map fun k => some (Config.free8 n k)
  match enterBytes s deviceWrites (spadGrains core) r.1 (spadNow (getCore s core)) bytes with
  | (s1, _) => modCore s1 core fun c => { c with
      spad := (rangeFrom r.1 r.2).foldl (fun t k => tabSet 0#8 t k (Config.free8 n k)) c.spad
      lateSpad := tabDrop c.lateSpad r.1 (r.1 + r.2) }

/-- The destination of an operation becomes unpredictable (R194, R200, R201): its tiles, row pairs and scratchpad
(log 17, DESIGN CHOICE). -/
def spoil (n : Nat) (s : State) (core : Nat) (o : MOp) : State :=
  o.destSpad.foldl (fun s r => spoilSpad n s core r) (modCore s core fun c => spoilTiles n c o)

/-- Something that open operations use has been written (R194): queued ones will leave an unpredictable destination, and the
destinations of retired ones become so. `own` is the unit that wrote, whose order covers its own operations
(log 17, DESIGN CHOICE). -/
def strike (s : State) (core : Nat) (own : Option Nat) (uses : MOp → Bool) : State :=
  let c := getCore s core
  let hit := fun (o : MOp) => own != some o.unit && uses o
  if (openOps c).any hit then
    let mark := fun (o : MOp) => if hit o then { o with tainted := true } else o
    (c.matDone.filter hit).foldl (fun s o => spoil s.free s core o) (setCore s core { c with matQ := c.matQ.map fun q => q.map mark })
  else s

/-- The registers of a team that an open matrix operation reads (R194). -/
def heldRegs (s : State) (u core : Nat) : List Nat :=
  (((openOps (getCore s core)).filter fun o => o.uid == u && !o.slave).map (·.opRegs)).flatten

/-- Writes a vector register of a lane: one that an open matrix operation reads shows the old or the new value, which is
free, until the MWAIT (R194). -/
def setVHeld (n : Nat) (held : List Nat) (t : Team) (lane r : Nat) (w : W32) : Team :=
  if held.contains r then
    if vreg t lane r = w || Config.freeBit n (vkey lane r) then { setV t lane r w with late := tabErase t.late (vkey lane r) }
    else { t with late := tabPut t.late (vkey lane r) w }
  else setV t lane r w

/-- The destinations of open matrix operations that read a register just written become unpredictable (R194)
(log 15, DESIGN CHOICE). -/
def taintRegs (s : State) (u core : Nat) (regs : List Nat) : State :=
  if (heldRegs s u core).any (fun r => regs.contains r) then
    strike s core none fun o => o.uid == u && !o.slave && o.opRegs.any (fun r => regs.contains r)
  else s

/-- Writes the results of a team that have arrived. -/
def applyPending (n : Nat) (held : List Nat) (t : Team) (p : Pending) : Team :=
  let t0 := p.writes.foldl (fun t w => setVHeld n held t w.lane w.reg w.val) t
  let t1 := p.preds.foldl (fun t w => setP t w.1 w.2.1 w.2.2) t0
  match p.kwrite with
  | some (k, w) => setK t1 k w
  | none => t1

/-- Whether an operation uses a scratchpad byte. -/
def opUses (o : MOp) (x : Nat) : Bool := o.spadUse.any fun r => decide (r.1 ≤ x) && decide (x < r.1 + r.2)

/-- Writes bytes to a core's scratchpad for an author (R386): a byte that an open matrix operation uses shows the old or the new value,
which is free, until the MWAIT, and the operation's destination becomes unpredictable (R194). Whether a poisoned granule that is
overwritten whole still reads as poison is free (log 15, DESIGN CHOICE; log 30, DESIGN CHOICE). -/
def spadWriteBy (au : Author) (s0 : State) (core a : Nat) (bs : List Byte) : State :=
  let c := getCore s0 core
  let own := au.unit.map (·.2)
  let entered := enterBytes s0 au (spadGrains core) a (spadNow c) (bs.map some)
  let s := entered.1
  let xs := (entered.2.map fun b => b.getD 0#8).zipIdx a
  let ops := (openOps c).filter fun o => own != some o.unit
  let old := fun (e : Byte × Nat) =>
    ops.any (fun o => opUses o e.2) && tabGet 0#8 c.spad e.2 != e.1 && !(Config.freeBit s.free (2 ^ 24 + e.2))
  let put := fun (t : Tab Byte) (e : Byte × Nat) => if old e then t else tabSet 0#8 t e.2 e.1
  let note := fun (t : Tab Byte) (e : Byte × Nat) => if old e then tabPut t e.2 e.1 else tabErase t e.2
  let lates := if c.lateSpad.isEmpty && ops.isEmpty then c.lateSpad else xs.foldl note c.lateSpad
  let whole := fun (g : Nat) => decide (a ≤ 16 * g) && decide (16 * g + 16 ≤ a + bs.length)
  let bad := c.spadPoison.filter fun g => !(whole g) || Config.freeBit s.free (2 ^ 43 + g)
  strike (setCore s core { c with spad := xs.foldl put c.spad, lateSpad := lates, spadPoison := bad }) core own
    fun o => xs.any fun e => opUses o e.2

/-- A team writes bytes to its core's scratchpad (R161, R319). -/
def spadWrite (s : State) (u lane a : Nat) (bs : List Byte) : State :=
  let t := getTeam s u
  teamWrote s (spadWriteBy (laneWrites t lane) s t.core a bs) u

/-- Bytes of a core's scratchpad that have been found, where an early write shows what it shows (R194). -/
def spadShown (c : Core) (a : Nat) (bs : List Byte) : List Byte :=
  (bs.zipIdx a).map fun e => if (find? c.lateSpad e.2).isSome then tabGet 0#8 c.spad e.2 else e.1

/-- What a party finds in a core's scratchpad (R386, R394, R400). -/
def spadSees (s : State) (core : Nat) (knows : Nat → Bool) (reader a n : Nat) : List Byte :=
  let c := getCore s core
  spadShown c a (readBytes s knows reader (spadGrains core) a ((rangeFrom a n).map (spadNow c))).bytes

/-- A lane of a team reads its core's scratchpad (R394). -/
def spadRead (s : State) (u lane a n : Nat) : State × List Byte :=
  let core := (getTeam s u).core
  let c := getCore s core
  match laneReads s u lane (spadGrains core) a ((rangeFrom a n).map (spadNow c)) with
  | (s1, bs) => (s1, spadShown c a bs)

/-- Early writes of a core's scratchpad show their new values once no open operation uses what they wrote (R194). -/
def flushSpad (s : State) (core : Nat) : State :=
  let c := getCore s core
  if c.lateSpad.isEmpty then s
  else
    let used := fun (e : Nat × Byte) => (openOps c).any fun o => opUses o e.1
    setCore s core { c with
      spad := tabSetAll 0#8 c.spad (c.lateSpad.filter fun e => !(used e)), lateSpad := c.lateSpad.filter used }

/-- Early writes show their new values once no open operation holds what they wrote (R194): those of a team's registers, and those of the
scratchpads of its core and of the core's follower. -/
def flushLate (s : State) (u core : Nat) : State :=
  let t := getTeam s u
  let held := heldRegs s u core
  let s1 : State :=
    if t.late.isEmpty then s
    else
      let go := t.late.filter fun e => !(held.contains (e.1 % 128))
      setTeam s u { t with v := tabSetAll 0#32 t.v go, late := t.late.filter fun e => held.contains (e.1 % 128) }
  let s2 := flushSpad s1 core
  if core % 2 = 0 then flushSpad s2 (core + 1) else s2

/-- Whether a team's instruction has issued and is being performed: an ATOM, RED or FENCE that is held or waits for answers. -/
def performing (t : Team) : Bool :=
  match t.status with
  | .waiting (.scRmw _ _ _ _ _ _) | .waiting (.peerRmw _ _ _ _ _ _) | .waiting (.fence _ _ _) => true
  | _ => false

/-- Whether a core still has something issued that has not completed (R409): results outstanding, instructions that are being
performed, or matrix operations. -/
def coreBusy (s : State) (core : Nat) : Bool :=
  (teamsOn s core).any (fun e => !e.2.pend.isEmpty || performing e.2) ||
    (getCore s core).matQ.any (fun q => q.any fun o => !o.slave)

/-- Whether a core is in STOPPED (R409) (log 37, DEDUCED). -/
def isStopped (s : State) (core : Nat) : Bool :=
  match (getCore s core).stop with
  | some st => st.record.isNone
  | none => false

/-- Once everything issued has completed, the stop's record is formed and the core is in STOPPED (R409). -/
def settleStop (s : State) (core : Nat) : State :=
  match (getCore s core).stop with
  | some st =>
    match st.record with
    | some r =>
      if coreBusy s core then s
      else pushRec (modCore s core fun c => { c with stop := some { st with record := none } })
        { r with time := s.mgmt.time }
    | none => s
  | none => s

/-- A PRECISE STOP (R409): the core issues nothing further, what was issued completes, the record is appended with STOPC,
and the core enters STOPPED; every log is kept. `completed` says that the instruction completed before the stop. A core
that is already stopping keeps its first stop. -/
def preciseStop (s : State) (core : Nat) (u : Option Nat) (r : FaultRec) (completed : Bool) : State :=
  match (getCore s core).stop with
  | some _ => settleStop s core
  | none =>
    let s1 := match u with
      | some x => modTeam s x fun t => { t with stepOnce := false }
      | none => s
    settleStop (modCore s1 core fun c => { c with stop := some ⟨u, r.cause, completed, some { r with stopc := true }⟩ }) core

/-- The precise stop of a team's instruction, with the details of its record. -/
def teamStopWith (s : State) (u cause : Nat) (lane : Option Nat) (addr w5 w6 w7 : Nat) : State :=
  preciseStop s (getTeam s u).core (some u) { teamRec s u cause lane addr with w5 := w5, w6 := w6, w7 := w7 } false

/-- The precise stop of a team's instruction. -/
def teamStop (s : State) (u cause : Nat) (lane : Option Nat) (addr : Nat) : State :=
  teamStopWith s u cause lane addr 0 0 0

/-- The results of IDIV, FSF, KDIV and .team forms that a team has issued are written (R84, R106); a load in flight writes nothing
(log 15, DESIGN CHOICE). -/
def finishIssued (s : State) (u : Nat) : State :=
  let t := getTeam s u
  let ps := t.pend.filter fun p => !p.isLoad
  let s1 := setTeam s u (ps.foldl (applyPending s.free (heldRegs s u t.core)) { t with pend := [] })
  taintRegs s1 u t.core ((ps.map fun p => p.writes.map (·.reg)).flatten)

/-- The stop after the one group that STEP lets a team issue (R410). -/
def stepStop (s : State) (u : Nat) : State :=
  preciseStop (modTeam s u fun t => { t with stepOnce := false }) (getTeam s u).core (some u) (teamRec s u 0x5E none 0) true

/-- A REPLAYABLE FAULT (R152): the region's log is discarded and its debit returned, what the team has issued is written, the record
is appended with PARK, and the team is parked until the host resolves the record; a capacity fault then returns the core's slice
(R212). Staged trace is appended as the team leaves issue (R416). The one group of a team that STEP lets issue has been issued, and
its core stops again (R410). -/
def replayFault (s : State) (u : Nat) (r : FaultRec) : State :=
  let t := getTeam s u
  let s1 := traceAppend (finishIssued (abortRegion s u) u) u
  let s2 := modTeam (pushRec s1 { r with park := true }) u fun t => { t with status := .parked, walked := [], asks := [] }
  let s3 := settleStop (if r.cause = 0x20 then returnSlice s2 t.core else s2) t.core
  if t.stepOnce then stepStop s3 u else s3

/-- The replayable fault of a team's instruction. -/
def teamReplay (s : State) (u cause : Nat) (lane : Option Nat) (addr : Nat) : State :=
  replayFault s u (teamRec s u cause lane addr)

/-- A fault of a team's instruction: 0x01, 0x02, 0x20 and 0x21 are replayable, every other cause is a precise stop (R405). -/
def teamFault (s : State) (u cause : Nat) (lane : Option Nat) (addr : Nat) : State :=
  if cause = 0x01 ∨ cause = 0x02 ∨ cause = 0x20 ∨ cause = 0x21 then teamReplay s u cause lane addr
  else teamStop s u cause lane addr

/-- A restart from the snapshot (R152, R243): the divergence state, x and loops are those of the region's start, no stall
count and no result is left, and a traced team's next group is preceded by a SYNC (R418). -/
def restartTeam (s : State) (u : Nat) : State :=
  modTeam s u fun t => { t with
    flow := t.snap, status := .ready, counts := [], flight := [], pend := [], walked := [], yielded := [], asks := [],
    trace := { t.trace with syncNext := t.trace.on } }

/-- THE RETURN FROM A REPLAYABLE FAULT (R152, R218): the record closes, and its team restarts at its region's start. A
record that parked no team has no effect; a saved team restarts once its context is restored. -/
def resolveRecord (s : State) (id slot : Nat) : State :=
  let c := getCtx s id
  match find? c.openRecs slot with
  | none => s
  | some u =>
    let s1 := setCtx s id { c with openRecs := tabErase c.openRecs slot }
    if (getTeam s1 u).status = .parked then restartTeam s1 u else s1

/-! ## The end of a group (R126, R136, R137) -/

/-- The next addresses of a group after which every lane goes on. -/
def plainNexts (t : Team) : List (Nat × Nat) := (lanesOf t).map fun i => (i, t.cur.next)

/-- Whether em differs between two flows. -/
def emChanged (nl : Nat) (a b : Flow) : Bool := decide (activeLanes nl a ≠ activeLanes nl b)

/-- A result in flight after `c` more clk have been counted (R49) (log 3, DESIGN CHOICE). -/
def ageFlight (c : Nat) (l : List InFlight) : List InFlight :=
  (l.map fun f => { f with need := f.need - c }).filter (fun f => f.need != 0)

/-- The stall counts and results in flight once the group has issued: an instruction takes the next count, and its own
results join those in flight; a hint takes none (R49). -/
def bookGroup (t : Team) : Team :=
  match t.booking with
  | none => t
  | some b => { t with counts := t.counts.drop 1, flight := ageFlight (t.counts.headD 0) t.flight ++ b, booking := none }

/-- After a group with a flow `fl` (its own change to lanes, x, depth or loops made), the next address is chosen, loops are
decided, and a drain point, such as a jump to the frontier, discards counts and waits for results (R50); `snap` takes a new snapshot. A team with no next
address begins to end. A team that the host lets issue one group stops again (R410) (log 11, DEDUCED; log 53, DEDUCED). -/
def advance (s : State) (u : Nat) (fl : Flow) (nexts : List (Nat × Nat)) (un : Option Nat) (redirect snap : Bool) : State :=
  let t := bookGroup (getTeam s u)
  match loopStep fl t.cur.word nexts un with
  | (fl1, nexts1, un1, back) =>
    match chooseNext fl1 nexts1 un1 with
    | none =>
      let s1 := setTeam s u { t with flow := fl1, status := .ending, counts := [], flight := [], walked := [], asks := [] }
      if t.stepOnce then stepStop s1 u else s1
    | some f =>
      let f1 := popLoops f
      let jump := if fl1.uni then un1 != some f1.pc else nexts1.all fun e => e.2 != f1.pc
      let drain := redirect || back || jump || f1.pc != t.cur.next
      let t1 := { t with
        flow := f1, status := .ready, walked := [], asks := [],
        counts := if drain then [] else t.counts, flight := if drain then [] else t.flight,
        snap := if snap then f1 else t.snap }
      let s1 := setTeam s u t1
      let s2 :=
        if traced t && (f1.pc != t.cur.next || emChanged t.lanes t.flow f1)
        then traceEmit ⟨t.cur.group, t.flow, f1⟩ .br 12 s1 u else s1
      if t.stepOnce then stepStop s2 u else s2

/-- A group after which every lane goes on to the next word. -/
def fallThrough (s : State) (u : Nat) (snap : Bool) : State :=
  let t := getTeam s u
  advance s u t.flow (plainNexts t) (some t.cur.next) false snap

/-- Whether a wait puts its team into WAITING (R238): the others only hold an instruction that is being performed. -/
def teamWait : Wait → Bool
  | .join _ | .lockPhase _ _ _ _ | .lockFill _ _ _ _ | .seqWait _ _ | .mwait _ => true
  | _ => false

/-- A team waits at its instruction, which it issues again when it is woken (R238); where STEP let it issue one group, its core stops
again (R410). -/
def waitFor (s : State) (u : Nat) (w : Wait) : State :=
  let s1 := modTeam s u fun t => { t with status := .waiting w }
  if teamWait w && (getTeam s u).stepOnce then stepStop s1 u else s1

/-- SKIP of a team's instruction (R410): it takes no effect, nothing of it is in flight, and its team goes on at the next group. A
team that has stopped with 0x80 at EXIT has its lanes back (R200). -/
def skipInstr (s : State) (u : Nat) : State :=
  fallThrough (modTeam s u fun t => { t with
    flow := t.exitFlow.getD t.flow, exitFlow := none, status := .ready, pend := [], walked := [], asks := [], booking := none }) u false

/-- No team of a core is stepped alone any longer (R410). -/
def clearStep (s : State) (core : Nat) : State :=
  { s with teams := s.teams.map fun e => if e.2.core = core then (e.1, { e.2 with stepOnce := false }) else e }

/-- THE RETURN FROM A PRECISE STOP (R410): every team of the core goes on; the stopping instruction runs again, unless it
had completed. With `skip` it takes no effect; a fetch is tried again (R145), and a team that is ending for another reason than
EXIT goes on ending. -/
def leaveStop (s : State) (core : Nat) (skip : Bool) : State :=
  match (getCore s core).stop with
  | none => s
  | some st =>
    let s1 := modCore (clearStep s core) core fun c => { c with stop := none }
    let drain := fun (s : State) => (teamsOn s core).foldl
      (fun a e => modTeam a e.1 fun t => { t with counts := [], flight := [] }) s
    let s2 := drain s1
    match st.uid with
    | none => s2
    | some u =>
      let t := getTeam s2 u
      if st.completed || st.cause == 0x4F || t.status == .ended then s2
      else if t.status == .ending then (if skip && t.exitFlow.isSome then skipInstr s2 u else s2)
      else if skip then skipInstr s2 u
      else modTeam s2 u fun t => { t with status := .ready, pend := [], walked := [], asks := [] }

end Sys2Proof.Machine
end

