-- ==== Sys2Proof/Machine/Interval.lean ====
section
/-! DEFINITION. Interval registers of a bounds pass (18 R340-R343): reading an operand as a type, writing a result, the
corner rules, and what makes a tile undecided (R348, R453). -/

namespace Sys2Proof.Machine

/-- An operand read as a type: its ends, its affine tag (a point has A = B = 0), and whether it may be NaN. The ends of
an f32 are bit patterns. -/
structure IRead where
  lo : Int
  hi : Int
  tag : Option ATag
  nanp : Bool
  deriving DecidableEq, Repr

/-- What a register holds in a lane. -/
def ivreg (t : Team) (lane r : Nat) : IVal := tabGet .point t.iv (vkey lane r)

/-- Whether a register holds a point. -/
def isPoint (t : Team) (lane r : Nat) : Bool := ivreg t lane r == .point

/-- Reads a register as i32 or n32 (R341). -/
def readInt (signed : Bool) (t : Team) (lane r : Nat) : IRead :=
  let full : IRead := if signed then ⟨-(2 ^ 31), 2 ^ 31 - 1, none, false⟩ else ⟨0, 2 ^ 32 - 1, none, false⟩
  match ivreg t lane r with
  | .point =>
    let b := (vreg t lane r).toNat
    let v := if signed then toSigned 32 b else (b : Int)
    ⟨v, v, some ⟨0, 0, v⟩, false⟩
  | .iv k lo hi _ tag => if k = (if signed then IKind.I else IKind.N) then ⟨lo, hi, tag, false⟩ else full
  | _ => full

/-- An integer point. -/
def intPoint (v : Int) : IRead := ⟨v, v, some ⟨0, 0, v⟩, false⟩

/-- The bits of −∞ and +∞ in f32. -/
def f32NegInf : Nat := 0xFF800000
def f32PosInf : Nat := 0x7F800000

/-- Reads a register as f32 (R341): a point that is NaN bounds nothing (log 34, DEDUCED). -/
def readF (t : Team) (lane r : Nat) : IRead :=
  let full : IRead := ⟨f32NegInf, f32PosInf, none, true⟩
  match ivreg t lane r with
  | .point =>
    let b := (vreg t lane r).toNat
    if isNan (fval fmtF32 b) then full else ⟨b, b, none, false⟩
  | .iv .F lo hi nanp _ => ⟨lo, hi, none, nanp⟩
  | _ => full

/-- A register's content after a write in interval mode: an interval or the bits of a point. -/
structure IOut where
  reg : Nat
  val : IVal
  bits : W32
  deriving DecidableEq, Repr

/-- A point result. -/
def outPoint (r : Nat) (b : W32) : IOut := ⟨r, .point, b⟩

/-- A full result. -/
def outFull (r : Nat) : IOut := ⟨r, .full, 0#32⟩

/-- An integer result (R343): full when an end falls outside the range, a point when its ends coincide (log 34, DEDUCED). -/
def outInt (signed : Bool) (r : Nat) (lo hi : Int) (tag : Option ATag) : IOut :=
  let mn : Int := if signed then -(2 ^ 31) else 0
  let mx : Int := if signed then 2 ^ 31 - 1 else 2 ^ 32 - 1
  if lo < mn ∨ mx < hi then outFull r
  else if lo = hi then outPoint r (BitVec.ofInt 32 lo)
  else ⟨r, .iv (if signed then .I else .N) lo hi false tag, 0#32⟩

/-- An f32 result (R343): a point when its ends coincide and no NaN is possible (log 34, DEDUCED). -/
def outF (r : Nat) (lo hi : Nat) (nanp : Bool) : IOut :=
  if lo = hi ∧ !nanp then outPoint r (BitVec.ofNat 32 lo) else ⟨r, .iv .F lo hi nanp none, 0#32⟩

/-- A 64-bit interval in an even and odd pair (R340). -/
def outW (r : Nat) (lo hi : Int) (tag : Option ATag) : List IOut :=
  if lo < 0 ∨ 2 ^ 64 ≤ hi then [outFull r, outFull (r + 1)]
  else if lo = hi then
    [outPoint r (BitVec.ofNat 32 lo.toNat), outPoint (r + 1) (BitVec.ofNat 32 (lo.toNat / 2 ^ 32))]
  else [⟨r, .iv .W lo hi false tag, 0#32⟩, ⟨r + 1, .upper, 0#32⟩]

/-- Sums and differences of tags (R343). -/
def tagAdd (x y : Option ATag) : Option ATag :=
  match x, y with
  | some a, some b => some ⟨a.a + b.a, a.b + b.b, a.base + b.base⟩
  | _, _ => none
def tagSub (x y : Option ATag) : Option ATag :=
  match x, y with
  | some a, some b => some ⟨a.a - b.a, a.b - b.b, a.base - b.base⟩
  | _, _ => none
def tagScale (x : Option ATag) (k : Int) : Option ATag := x.map fun a => ⟨a.a * k, a.b * k, a.base * k⟩

/-- Whether an operand is a point. -/
def ipt (x : IRead) : Bool := x.lo == x.hi

/-- The least and the greatest of a list of integers. -/
def iminL : List Int → Int
  | [] => 0
  | x :: xs => xs.foldl min x
def imaxL : List Int → Int
  | [] => 0
  | x :: xs => xs.foldl max x

/-- The corner products of two boxes. -/
def corners (x y : IRead) : List Int := [x.lo * y.lo, x.lo * y.hi, x.hi * y.lo, x.hi * y.hi]

/-- Truth of a condition over a box (R340). -/
inductive Tri where
  | f | t | m
  deriving DecidableEq, Repr

/-- A decided truth. -/
def triOf (b : Bool) : Tri := if b then .t else .f

/-- Negates a truth; maybe stays maybe. -/
def triNot : Tri → Tri
  | .f => .t
  | .t => .f
  | .m => .m

/-- Whether a condition holds at every pair, at none, or at some of two integer boxes (R343). -/
def triCmp (c : Cond) (x y : IRead) : Tri :=
  let lt := fun (a b : IRead) => if a.hi < b.lo then Tri.t else if b.hi ≤ a.lo then .f else .m
  let le := fun (a b : IRead) => if a.hi ≤ b.lo then Tri.t else if b.hi < a.lo then .f else .m
  let eq := if x.lo = x.hi ∧ y.lo = y.hi ∧ x.lo = y.lo then Tri.t else if x.hi < y.lo ∨ y.hi < x.lo then .f else .m
  match c with
  | .eq => eq
  | .ne => triNot eq
  | .lt => lt x y
  | .le => le x y
  | .gt => lt y x
  | .ge => le y x

/-- The truth of a predicate in a lane (R341). -/
def triP (t : Team) (lane p : Nat) : Tri :=
  if p = 0 then .t else if tabGet false t.pm (lane * 8 + p) then .m else triOf (preg t lane p)

/-- What an instruction does to one lane in interval mode: the registers and predicates it writes, or its tile becomes
undecided. -/
structure ILane where
  regs : List IOut
  preds : List (Nat × Tri)
  undec : Bool
  deriving DecidableEq, Repr

/-- A lane that only writes registers. -/
def ilRegs (l : List IOut) : ILane := ⟨l, [], false⟩

/-- A lane whose tile becomes undecided. -/
def ilUndec : ILane := ⟨[], [], true⟩

/-- Adds to the marks of an unsure lane the registers and predicates it writes (R345). -/
def markUnsure (t : Team) (lane : Nat) (regs preds : List Nat) : Team :=
  { t with unsure := t.unsure.map fun u =>
      if u.lane = lane then { u with regs := dedupNat (u.regs ++ regs), preds := dedupNat (u.preds ++ preds) } else u }

/-- Writes one register in interval mode. -/
def ivSet (t : Team) (lane : Nat) (o : IOut) : Team :=
  { t with
    v := tabSet 0#32 t.v (vkey lane o.reg) o.bits
    iv := tabSet .point t.iv (vkey lane o.reg) o.val }

/-- Writes one predicate in interval mode. -/
def triSet (t : Team) (lane p : Nat) (x : Tri) : Team :=
  if p = 0 then t
  else
    { t with
      p := tabSet false t.p (lane * 8 + p) (x == .t)
      pm := tabSet false t.pm (lane * 8 + p) (x == .m) }

/-- Applies what one lane writes. -/
def ilaneWrite (t : Team) (lane : Nat) (o : ILane) : Team :=
  let t1 := o.regs.foldl (fun t r => ivSet t lane r) t
  let t2 := o.preds.foldl (fun t e => triSet t lane e.1 e.2) t1
  markUnsure t2 lane (o.regs.map (·.reg)) (o.preds.map (·.1))

/-! ## Tiles (R338, R349) -/

/-- The tile of a lane. -/
def tileOf (t : Team) (lane : Nat) : TileId := (find? t.tiles lane).getD ⟨0, 0, 0⟩

/-- The first row and column and the size of a tile or subtile (R338, R349). -/
structure TileBox where
  row0 : Nat
  col0 : Nat
  h : Nat
  w : Nat
  deriving DecidableEq, Repr

/-- Narrows a box to a quadrant. -/
def quadrant (b : TileBox) (q : Nat) : TileBox :=
  ⟨b.row0 + q / 2 * (b.h / 2), b.col0 + q % 2 * (b.w / 2), b.h / 2, b.w / 2⟩

/-- The box of a tile of a kernel. -/
def tileBox (k : Kernel) (x : TileId) : TileBox :=
  let b0 : TileBox := ⟨x.g * k.tr, 0, k.tr, k.tc⟩
  let b1 := if 1 ≤ x.depth then quadrant b0 (field x.path 0 2) else b0
  let b2 := if 2 ≤ x.depth then quadrant b1 (field x.path 2 2) else b1
  if 3 ≤ x.depth then quadrant b2 (field x.path 4 2) else b2

/-- The subtile code that sv.row returns (R350). -/
def tileCode (x : TileId) : Nat := x.depth + x.path * 4

/-- A kernel of no launch, where a team names none. -/
def noKernel : Kernel :=
  { kid := 0, ctx := 0, qctx := 0, qh := 0, qnum := 0, slot := 0, st := .complete, status := 0, entry := 0, deadline := 0, cls := 0,
    chksb := false, bounds := false, logSize := 0, lanes := 32, allot := 8, part := 0, teams := 0, args := 0, cpl := 0,
    tr := 8, tc := 8, budget := 0, summ := 0, hoff := 0, user := 0#64, ran := false, nextId := 0, nextLaunch := 0, late := false,
    killed := false, tsel := 0, trun := 0, tend := 0, groups := [], start := ⟨[], 0⟩, made := [] }

/-- The kernel of a team. -/
def teamKernel (s : State) (t : Team) : Kernel := (kernelOf s t.kid).getD noKernel

/-- Changes a kernel. -/
def modKernel (s : State) (kid : Nat) (f : Kernel → Kernel) : State :=
  { s with kernels := s.kernels.map fun k => if k.kid = kid then f k else k }

/-- One lane's tile becomes undecided: it draws from the budget, its fate is fixed, its fills are discarded and the lane
exits (R343, R348). A tile whose fate a region that restarts had fixed draws no second time (log 34, DEDUCED). -/
def undecide (s : State) (u lane : Nat) : State :=
  let t := getTeam s u
  let k := teamKernel s t
  let d := (tileOf t lane).depth
  let fated := (find? t.fates lane).isSome
  let fate := if d = 3 then Fate.handoff 1 else if k.budget = 0 then .handoff 2 else .quartered
  let s1 := if fate = .quartered ∧ !fated then modKernel s t.kid fun k => { k with budget := k.budget - 1 } else s
  modTeam s1 u fun t =>
    { t with
      flow := setLane t.flow lane .exited
      fills := t.fills.filter (fun f => f.lane != lane)
      unsure := t.unsure.filter (fun f => f.lane != lane)
      fates := if fated then t.fates else t.fates ++ [(lane, fate)] }

/-- The tiles of several lanes become undecided, in ascending lane order (R453). -/
def undecideAll (s : State) (u : Nat) (lanes : List Nat) : State := lanes.foldl (fun s i => undecide s u i) s

/-- Whether a lane is unsure (R345). -/
def isUnsure (t : Team) (lane : Nat) : Bool := t.unsure.any (fun u => u.lane == lane)

end Sys2Proof.Machine
end

