-- ==== Sys2Proof/Machine/Operands.lean ====
section
/-! DEFINITION. Operand forms and the issue of an instruction: immediates (02 R28, R46), the registers an instruction
reads and writes and their checks (03 R39-R41, R48-R53), and the frame that every vector instruction shares (05 R82,
06 R105, 18 R343). -/

namespace Sys2Proof.Machine

/-! ## Immediates (R28, R46) -/

/-- The combined immediate: an own field of `w` bits below the hints' pieces, and its width. -/
def immBits (w own : Nat) : ImmHints → Nat × Nat
  | .none => (own, w)
  | .one lo => (own + lo.toNat * 2 ^ w, w + 22)
  | .two hi lo => (own + lo.toNat * 2 ^ w + hi.toNat * 2 ^ (w + 22), w + 44)

/-- The combined immediate read as signed. -/
def immSigned (w own : Nat) (h : ImmHints) : Int :=
  match immBits w own h with
  | (v, n) => if n = 0 then 0 else toSigned n v

/-- The displacement of a memory operand (R156): 0 with no hint. -/
def dispOf (h : ImmHints) : Int := immSigned 0 0 h

/-! ## Registers an instruction uses -/

/-- A run of vector registers from a field: the field and how many it names. -/
structure VUse where
  fld : Nat
  n : Nat
  deriving DecidableEq, Repr

/-- The registers an instruction reads and writes, its fixed latency (0 where it is variable or none), and whether it is
a vector instruction. -/
structure Access where
  rv : List VUse
  wv : List VUse
  rk : List (Nat × Nat)
  wk : List (Nat × Nat)
  rp : List Nat
  wp : List Nat
  lat : Nat
  vector : Bool
  deriving DecidableEq, Repr

/-- An access that uses no register. -/
def noAccess : Access := ⟨[], [], [], [], [], [], 0, false⟩

/-- A vector register field that names one register, a pair or a quad. -/
def v1 (f : VReg) : VUse := ⟨f.toNat, 1⟩
def v2 (f : VReg) : VUse := ⟨f.toNat, 2⟩
def v4 (f : VReg) : VUse := ⟨f.toNat, 4⟩

/-- The effective registers of a run (R39). -/
def vUseRegs (x : Nat) (u : VUse) : List Nat := rangeFrom (u.fld + x) u.n

/-- Whether a run passes the allotment (R39) or is misaligned (R40). -/
def vUseOver (x allot : Nat) (u : VUse) : Bool := decide (allot < u.fld + x + u.n)
def vUseOdd (x : Nat) (u : VUse) : Bool := decide ((u.fld + x) % u.n ≠ 0)

/-- The registers an instruction reads or rewrites, as a result in flight would name them. -/
def accRegs (x : Nat) (a : Access) : List RegRef :=
  ((a.rv ++ a.wv).map fun u => (vUseRegs x u).map RegRef.v).flatten ++
    ((a.rk ++ a.wk).map fun e => (rangeFrom e.1 e.2).map RegRef.k).flatten ++ (a.rp ++ a.wp).map RegRef.p

/-- The registers it writes. -/
def accWrites (x : Nat) (a : Access) : List RegRef :=
  (a.wv.map fun u => (vUseRegs x u).map RegRef.v).flatten ++
    (a.wk.map fun e => (rangeFrom e.1 e.2).map RegRef.k).flatten ++ a.wp.map RegRef.p

/-- k0 and p0 hold constants: no result is ever in flight for them. -/
def refConst : RegRef → Bool
  | .k 0 => true
  | .p 0 => true
  | _ => false

/-- The results an instruction of fixed latency will have in flight, with the registers' old contents (R48, R51). -/
def bookings (t : Team) (a : Access) : List InFlight :=
  if a.lat = 0 then []
  else ((accWrites t.flow.x a).filter (fun r => !refConst r)).map fun r =>
    match r with
    | .v n =>
      ⟨r, a.lat, (lanesOf t).map (fun i => (i, vreg t i n)), [], 0#64, (lanesOf t).map (fun i => (i, ivreg t i n)), []⟩
    | .p n =>
      ⟨r, a.lat, [], (lanesOf t).map (fun i => (i, preg t i n)), 0#64, [],
        (lanesOf t).map (fun i => (i, tabGet false t.pm (i * 8 + n)))⟩
    | .k n => ⟨r, a.lat, [], [], kreg t n, [], []⟩

/-- The results an instruction would meet too early (R49): those it depends on whose clk the counts have not covered
(log 15, DESIGN CHOICE). -/
def earlyResults (t : Team) (a : Access) : List InFlight :=
  (ageFlight (t.counts.headD 0) t.flight).filter fun f => (accRegs t.flow.x a).contains f.reg

/-- A register value an early read may find (R51): the new one, or the old one where they differ and the free choice takes
it (log 15, DESIGN CHOICE). -/
def earlyPick {α : Type} [DecidableEq α] (s : State) (idx : Nat) (new old : α) : α :=
  if new = old then new else if Config.freeBit s.free idx then new else old

/-- A lane's vector register as an early read finds it, with what interval mode keeps beside its bits (R51, R340). -/
def earlyV (s : State) (n : Nat) (old : Tab IVal) (t : Team) (e : Nat × W32) : Team :=
  let iv := tabGet .point old e.1
  let i := e.1 * 512 + n
  if iv = ivreg t e.1 n then setV t e.1 n (earlyPick s i (vreg t e.1 n) e.2)
  else if Config.freeBit s.free i then t
  else { setV t e.1 n e.2 with iv := tabSet .point t.iv (vkey e.1 n) iv }

/-- A lane's predicate as an early read finds it. -/
def earlyP (s : State) (n : Nat) (old : Tab Bool) (t : Team) (e : Nat × Bool) : Team :=
  let m := tabGet false old e.1
  let i := e.1 * 512 + 128 + n
  if m = tabGet false t.pm (e.1 * 8 + n) then setP t e.1 n (earlyPick s i (preg t e.1 n) e.2)
  else if Config.freeBit s.free i then t
  else { setP t e.1 n e.2 with pm := tabSet false t.pm (e.1 * 8 + n) m }

/-- A uniform register as an early read finds it (R51): each lane finds the old or the new value, and so does an instruction that reads
the register once (log 15, DESIGN CHOICE). -/
def earlyK (s : State) (t : Team) (n : Nat) (old : W64) : Team :=
  let new := kreg t n
  let lane := fun (l : Tab W64) (i : Nat) => tabPut l (klKey i n) (earlyPick s (2 ^ 20 + klKey i n) new old)
  setK { t with kLane := (lanesOf t).foldl lane t.kLane } n (earlyPick s (2 ^ 20 + 2 ^ 19 + n) new old)

/-- The registers as the instruction reads them when a result it depends on is not correctly counted (R51)
(log 15, DESIGN CHOICE). -/
def earlyView (s : State) (t : Team) : List InFlight → Team
  | [] => t
  | f :: fs =>
    let t1 := match f.reg with
      | .v n => f.oldV.foldl (earlyV s n f.oldIv) t
      | .p n => f.oldP.foldl (earlyP s n f.oldPm) t
      | .k n => earlyK s t n f.oldK
    earlyView s t1 fs

/-- Whether a register still waits for a variable-latency result (R48) (log 14, DESIGN CHOICE). -/
def awaits (t : Team) (a : Access) : Bool :=
  t.pend.any fun p => p.regs.any fun r => !refConst r && (accRegs t.flow.x a).contains r

/-- The first of the causes 0x44, 0x45, 0x46 and 0x48 that an instruction meets (R39-R41, R51, R53). -/
def accCause (s : State) (t : Team) (a : Access) : Option Nat :=
  let x := t.flow.x
  if (a.rv ++ a.wv).any (vUseOver x t.allot) then some 0x44
  else if (a.rv ++ a.wv).any (vUseOdd x) then some 0x45
  else if (a.rk ++ a.wk).any (fun e => decide (383 < e.1 + e.2 - 1)) then some 0x46
  else if (teamKernel s t).chksb && !(earlyResults t a).isEmpty then some 0x48
  else none

/-- The state with a group begun: the team knows the group it issues and what its instruction will have in flight; other
teams of the partition that yielded to it may count it (R142), and a SYNC that is due for this group is emitted (R418). -/
def beginGroup (s : State) (b : Option (List InFlight)) : State :=
  let u := s.issue.uid
  let t0 := getTeam s u
  let s1 := setTeam s u { t0 with cur := s.issue, booking := b }
  let s2 := if s1.teams.any (fun e => e.2.yielded.contains u)
    then { s1 with teams := s1.teams.map fun e => (e.1, { e.2 with yielded := e.2.yielded.filter (fun y => y != u) }) }
    else s1
  if traced t0 && t0.trace.syncNext then traceEmit ⟨s.issue.group, t0.flow, t0.flow⟩ .sync 12 s2 u else s2

/-- THE ISSUE OF AN INSTRUCTION (R39-R41, R48-R53): a vector instruction with em zero only goes on; the register causes
come first; an instruction that depends on a result still outstanding waits; the effect sees the registers it may read
(log 12, DEDUCED). -/
def issueOp (a : Access) (eff : State → Nat → Team → Out) (s : State) : Out :=
  let u := s.issue.uid
  let t0 := getTeam s u
  let s1 := beginGroup s (some (bookings t0 a))
  let t := getTeam s1 u
  if a.vector && (lanesOf t).isEmpty then done (fallThrough s1 u false)
  else
    match accCause s1 t a with
    | some c => done (teamStop s1 u c none 0)
    | none =>
      if awaits t a then .next s
      else eff s1 u (earlyView s1 t (earlyResults t a))

/-- A BOUNDARY INSTRUCTION (R146, R147): it waits for the region's loads (R386), the preceding region commits, and a
snapshot is taken at the instruction; then it runs. -/
def boundaryOp (a : Access) (eff : State → Nat → Team → Out) (s : State) : Out :=
  issueOp a (fun s1 u t =>
    if (getTeam s1 u).pend.any (·.isLoad) then .next s
    else eff (takeSnap (commitRegion s1 u) u) u t) s

/-- An instruction that a bounds pass forbids (R343, R354). -/
def normalOnly (eff : State → Nat → Team → Out) (s : State) (u : Nat) (t : Team) : Out :=
  if t.bounds then done (teamStop s u 0x5C none 0) else eff s u t

/-- A uniform instruction that writes one uniform register with a value of its operands. -/
def uniformOp (a : Access) (d : KReg) (f : State → Team → W64) (s : State) : Out :=
  issueOp a (fun s u t => done (fallThrough (modTeam s u fun t' => setK t' d.toNat (f s t)) u false)) s

/-! ## Vector instructions -/

/-- What an instruction writes in one lane, and the flags it raises there. -/
structure LaneOut where
  regs : List (Nat × W32)
  preds : List (Nat × Bool)
  flags : FlagSet
  deriving DecidableEq, Repr

/-- A lane that writes registers and raises no flag. -/
def lregs (l : List (Nat × W32)) : LaneOut := ⟨l, [], FlagSet.none⟩

/-- A 64-bit value in an even and odd pair (R54). -/
def pairOut (r v : Nat) : List (Nat × W32) := [(r, BitVec.ofNat 32 v), (r + 1, BitVec.ofNat 32 (v / 2 ^ 32))]

/-- Reads a pair (R54). -/
def vpair (t : Team) (lane r : Nat) : Nat := (vreg t lane r).toNat + (vreg t lane (r + 1)).toNat * 2 ^ 32

/-- Applies the writes of one lane. -/
def laneWrite (n : Nat) (held : List Nat) (t : Team) (lane : Nat) (o : LaneOut) : Team :=
  let t1 := o.regs.foldl (fun t e => setVHeld n held t lane e.1 e.2) t
  o.preds.foldl (fun t e => setP t lane e.1 e.2) t1

/-- Applies the writes of several lanes: every read came before (R119). -/
def lanesWrite (n : Nat) (held : List Nat) (t : Team) (outs : List (Nat × LaneOut)) : Team :=
  outs.foldl (fun t e => laneWrite n held t e.1 e.2) t

/-- Writes what the lanes of a team write (R105, R119, R194). -/
def writeLanes (s : State) (u : Nat) (outs : List (Nat × LaneOut)) : State :=
  let t := getTeam s u
  let s1 := setTeam s u (lanesWrite s.free (heldRegs s u t.core) t outs)
  taintRegs s1 u t.core ((outs.map fun e => e.2.regs.map (·.1)).flatten)

/-- The interval rule of an opcode that gives a point from points and full otherwise (R343). -/
def pointRule (a : Access) (f : Team → Nat → LaneOut) (t : Team) (lane : Nat) : ILane :=
  let x := t.flow.x
  if (a.rv.all fun u => (vUseRegs x u).all (isPoint t lane)) && a.rp.all (fun p => triP t lane p != .m) then
    let o := f t lane
    ⟨o.regs.map (fun e => outPoint e.1 e.2), o.preds.map (fun e => (e.1, triOf e.2)), false⟩
  else ⟨((a.wv.map fun u => vUseRegs x u).flatten).map outFull, a.wp.map (fun p => (p, Tri.m)), false⟩

/-- Applies the interval rule of an instruction in every active lane, as `t` reads the registers, and then makes tiles undecided
(R343, R453) (log 34, DEDUCED). -/
def ivApply (s : State) (u : Nat) (t : Team) (g : Team → Nat → ILane) : State :=
  let outs := (lanesOf t).map fun i => (i, g t i)
  let s1 := modTeam s u fun t => outs.foldl (fun t e => if e.2.undec then t else ilaneWrite t e.1 e.2) t
  undecideAll s1 u ((outs.filter (fun e => e.2.undec)).map (·.1))

/-- Goes on after an interval instruction: the flow is the team's own, so that lanes whose tiles became undecided are gone
and R126 applies to the rest. -/
def ivNext (s : State) (u : Nat) : State :=
  let t := getTeam s u
  advance s u t.flow (plainNexts t) (some t.cur.next) false false

/-- A VECTOR INSTRUCTION of fixed latency (R82, R105): `f` gives what each active lane writes, all reads before any write;
in interval mode `g` gives each lane's rule (R343), in which no flag is set (R74) (log 12, DEDUCED). -/
def vecOp (a : Access) (f : Team → Nat → LaneOut) (g : Option (Team → Nat → ILane)) (s : State) : Out :=
  issueOp a (fun s u t =>
    if t.bounds then done (ivNext (ivApply s u t (g.getD (pointRule a f))) u)
    else
      let outs := (lanesOf t).map fun i => (i, f t i)
      let s1 := writeLanes s u outs
      done (fallThrough (raiseVector s1 t.core t.part (flagAll (outs.map (·.2.flags)))) u false)) s

/-- A vector instruction of variable latency (R48, R84, R106): its results are outstanding until they are written back,
and a reader waits for them. In interval mode they are written at once. -/
def vecLater (a : Access) (f : Team → Nat → LaneOut) (g : Option (Team → Nat → ILane)) (s : State) : Out :=
  issueOp a (fun s u t =>
    if t.bounds then done (ivNext (ivApply s u t (g.getD (pointRule a f))) u)
    else
      let outs := (lanesOf t).map fun i => (i, f t i)
      let ws := (outs.map fun e => e.2.regs.map fun r => PendWrite.mk e.1 r.1 r.2).flatten
      let ps := (outs.map fun e => e.2.preds.map fun p => (e.1, p)).flatten
      let p : Pending := ⟨false, accWrites t.flow.x a, ws, ps, none, none, [], 0, none, [], []⟩
      let s1 := modTeam s u fun t' => { t' with pend := t'.pend ++ [p] }
      done (fallThrough (raiseVector s1 t.core t.part (flagAll (outs.map (·.2.flags)))) u false)) s

end Sys2Proof.Machine
end

