-- ==== Sys2Proof/Machine/Integer.lean ====
section
/-! DEFINITION. The vector integer and logic instructions (05 R82-R97) with their interval rules (18 R343). -/

namespace Sys2Proof.Machine

/-- The effective register of a field (R39). -/
def ef (t : Team) (f : VReg) : Nat := f.toNat + t.flow.x

/-- The bits of a lane's register. -/
def vnat (t : Team) (lane : Nat) (f : VReg) : Nat := (vreg t lane (ef t f)).toNat

/-- The bits of a lane's pair. -/
def vnat64 (t : Team) (lane : Nat) (f : VReg) : Nat := vpair t lane (ef t f)

/-- Element width, count and signedness of a type (R42, R54). -/
def tyWidth : IntTy → Nat
  | .i32 | .n32 => 32
  | .i64 | .n64 => 64
  | .i16x2 | .n16x2 => 16
  | .i8x4 | .n8x4 => 8
def tySigned : IntTy → Bool
  | .i32 | .i64 | .i16x2 | .i8x4 => true
  | _ => false
def tyPair : IntTy → Bool
  | .i64 | .n64 => true
  | _ => false

/-- The registers of a field under a type (R83). -/
def vTy (ty : IntTy) (f : VReg) : VUse := if tyPair ty then v2 f else v1 f

/-- The value of an element (R54). -/
def elemVal (signed : Bool) (w n : Nat) : Int := if signed then toSigned w n else ((n % 2 ^ w : Nat) : Int)

/-- The least and greatest value of a type. -/
def loOf (signed : Bool) (w : Nat) : Int := if signed then -(2 ^ (w - 1) : Int) else 0
def hiOf (signed : Bool) (w : Nat) : Int := if signed then 2 ^ (w - 1) - 1 else 2 ^ w - 1

/-- Clamps to a type's range, and whether it clamped (R55). -/
def satTo (signed : Bool) (w : Nat) (v : Int) : Int × Bool :=
  if v < loOf signed w then (loOf signed w, true) else if hiOf signed w < v then (hiOf signed w, true) else (v, false)

/-- Wraps, or clamps with .sat: the element's bits and whether it clamped (R55, R87). -/
def combine (signed sat : Bool) (w : Nat) (v : Int) : Nat × Bool :=
  if sat then (wrapNat w (satTo signed w v).1, (satTo signed w v).2) else (wrapNat w v, false)

/-- An operation on each element of a packed word or of a 64-bit value (R54, R83). -/
def perElem (signed sat : Bool) (w total : Nat) (f : Int → Int → Int) (a b : Nat) : Nat × Bool :=
  (List.range (total / w)).foldl (fun acc j =>
    let r := combine signed sat w (f (elemVal signed w (a / 2 ^ (w * j))) (elemVal signed w (b / 2 ^ (w * j))))
    (acc.1 + r.1 * 2 ^ (w * j), acc.2 || r.2)) (0, false)

/-- An element-wise operation of a lane under a type. -/
def tyLane (ty : IntTy) (sat : Bool) (f : Int → Int → Int) (d a b : VReg) (t : Team) (lane : Nat) : LaneOut :=
  let w := tyWidth ty
  if tyPair ty then
    let r := perElem (tySigned ty) sat w 64 f (vnat64 t lane a) (vnat64 t lane b)
    ⟨pairOut (ef t d) r.1, [], flagOv r.2⟩
  else
    let r := perElem (tySigned ty) sat w 32 f (vnat t lane a) (vnat t lane b)
    ⟨[(ef t d, BitVec.ofNat 32 r.1)], [], flagOv r.2⟩

/-- The access of a V3 instruction with one type for every operand. -/
def accTy (ty : IntTy) (d a b : VReg) (lat : Nat) : Access :=
  { noAccess with rv := [vTy ty a, vTy ty b], wv := [vTy ty d], lat := lat, vector := true }

/-- Clamps the ends of an integer interval for .sat (R343). -/
def ivClamp (signed : Bool) (v : Int) : Int := (satTo signed 32 v).1

/-- The interval rule of 32-bit sums and differences (R343). -/
def ivAddSub (sub signed sat : Bool) (x y : IRead) (r : Nat) : ILane :=
  let lo := if sub then x.lo - y.hi else x.lo + y.lo
  let hi := if sub then x.hi - y.lo else x.hi + y.hi
  let tag := if sub then tagSub x.tag y.tag else tagAdd x.tag y.tag
  if sat then
    let lo1 := ivClamp signed lo
    let hi1 := ivClamp signed hi
    ilRegs [outInt signed r lo1 hi1 (if lo1 = lo ∧ hi1 = hi then tag else none)]
  else ilRegs [outInt signed r lo hi tag]

/-- The interval rule of IADD and ISUB: the 32-bit types alone have one (R343). -/
def ivTyAdd (sub : Bool) (ty : IntTy) (sat : Bool) (d a b : VReg) : Option (Team → Nat → ILane) :=
  match ty with
  | .i32 => some fun t i => ivAddSub sub true sat (readInt true t i (ef t a)) (readInt true t i (ef t b)) (ef t d)
  | .n32 => some fun t i => ivAddSub sub false sat (readInt false t i (ef t a)) (readInt false t i (ef t b)) (ef t d)
  | _ => none

/-- IADD (R87). -/
def execIadd (ty : IntTy) (sat : Bool) (d a b : VReg) (s : State) : Out :=
  vecOp (accTy ty d a b 4) (tyLane ty sat (· + ·) d a b) (ivTyAdd false ty sat d a b) s

/-- ISUB (R87). -/
def execIsub (ty : IntTy) (sat : Bool) (d a b : VReg) (s : State) : Out :=
  vecOp (accTy ty d a b 4) (tyLane ty sat (· - ·) d a b) (ivTyAdd true ty sat d a b) s

/-- The exact product a variant forms (R88). -/
def mulExact (v : MulVar) (a b : Nat) : Int :=
  match v with
  | .hiN32 | .wideN32 => (a : Int) * b
  | _ => toSigned 32 a * toSigned 32 b

/-- Whether a variant writes a pair. -/
def mulWide : MulVar → Bool
  | .wideI32 | .wideN32 => true
  | _ => false

/-- The registers of the destination of a multiply. -/
def vMul (v : MulVar) (f : VReg) : VUse := if mulWide v then v2 f else v1 f

/-- What a multiply writes, with an addend that is 0 for IMUL (R88). -/
def mulOut (v : MulVar) (r : Nat) (prod : Int) (addend : Nat) : List (Nat × W32) :=
  match v with
  | .lo => [(r, BitVec.ofNat 32 (wrapNat 32 prod + addend))]
  | .hiI32 | .hiN32 => [(r, BitVec.ofNat 32 (wrapNat 32 (prod / 2 ^ 32) + addend))]
  | .wideI32 | .wideN32 => pairOut r ((wrapNat 64 prod + addend) % 2 ^ 64)

/-- The interval rule of the .lo products (R343): corner products and the addend's ends; the tag is scaled by a point factor, and
the addend's is added (log 34, DEDUCED). -/
def ivMul (x y : IRead) (add : IRead) (r : Nat) : ILane :=
  let c := corners x y
  let tag := if ipt y then tagScale x.tag y.lo else if ipt x then tagScale y.tag x.lo else none
  ilRegs [outInt true r (iminL c + add.lo) (imaxL c + add.hi) (tagAdd tag add.tag)]

/-- IMUL (R88). -/
def execImul (v : MulVar) (d a b : VReg) (s : State) : Out :=
  vecOp { noAccess with rv := [v1 a, v1 b], wv := [vMul v d], lat := 6, vector := true }
    (fun t i => lregs (mulOut v (ef t d) (mulExact v (vnat t i a) (vnat t i b)) 0))
    (if v = .lo then some fun t i => ivMul (readInt true t i (ef t a)) (readInt true t i (ef t b)) (intPoint 0) (ef t d)
      else none) s

/-- IMAD (R88): the destination is read as well as written (R85). -/
def execImad (v : MulVar) (d a b : VReg) (s : State) : Out :=
  vecOp { noAccess with rv := [v1 a, v1 b, vMul v d], wv := [vMul v d], lat := 6, vector := true }
    (fun t i => lregs (mulOut v (ef t d) (mulExact v (vnat t i a) (vnat t i b))
      (if mulWide v then vnat64 t i d else vnat t i d)))
    (if v = .lo then some fun t i =>
        ivMul (readInt true t i (ef t a)) (readInt true t i (ef t b)) (readInt true t i (ef t d)) (ef t d)
      else none) s

/-- Quotient and remainder truncated toward zero, with the results of R89 for division by zero and for overflow. -/
def divide (w : Nat) (unsigned : Bool) (a b : Nat) : Nat × Nat :=
  let x := elemVal (!unsigned) w a
  let y := elemVal (!unsigned) w b
  if y = 0 then
    (if unsigned then 2 ^ w - 1 else if 0 ≤ x then wrapNat w (-1) else 1, a % 2 ^ w)
  else if !unsigned ∧ x = -(2 ^ (w - 1)) ∧ y = -1 then (wrapNat w x, 0)
  else
    let q := x.tdiv y
    (wrapNat w q, wrapNat w (x - q * y))

/-- The registers of an IDIV destination (R89). -/
def vDiv (b64 : Bool) (res : DivRes) (f : VReg) : VUse :=
  match res, b64 with
  | .qr, true => v4 f
  | .qr, false => v2 f
  | _, true => v2 f
  | _, false => v1 f

/-- What IDIV writes in a lane (R89). -/
def divLane (b64 : Bool) (res : DivRes) (unsigned : Bool) (d a b : VReg) (t : Team) (i : Nat) : LaneOut :=
  let r := ef t d
  if b64 then
    let o := divide 64 unsigned (vnat64 t i a) (vnat64 t i b)
    match res with
    | .q => lregs (pairOut r o.1)
    | .r => lregs (pairOut r o.2)
    | .qr => lregs (pairOut r o.1 ++ pairOut (r + 2) o.2)
  else
    let o := divide 32 unsigned (vnat t i a) (vnat t i b)
    match res with
    | .q => lregs [(r, BitVec.ofNat 32 o.1)]
    | .r => lregs [(r, BitVec.ofNat 32 o.2)]
    | .qr => lregs [(r, BitVec.ofNat 32 o.1), (r + 1, BitVec.ofNat 32 o.2)]

/-- The interval rule of the 32-bit quotients (R343). -/
def ivDiv (signed : Bool) (x y : IRead) (r : Nat) : ILane :=
  if y.lo ≤ 0 ∧ 0 ≤ y.hi then ilRegs [outFull r]
  else if signed ∧ x.lo = -(2 ^ 31) ∧ y.lo ≤ -1 ∧ -1 ≤ y.hi then ilRegs [outFull r]
  else
    let c := [x.lo.tdiv y.lo, x.lo.tdiv y.hi, x.hi.tdiv y.lo, x.hi.tdiv y.hi]
    ilRegs [outInt signed r (iminL c) (imaxL c) none]

/-- IDIV (R89): of variable latency; it always completes once issued (R84). -/
def execIdiv (b64 : Bool) (res : DivRes) (unsigned : Bool) (d a b : VReg) (s : State) : Out :=
  let src := fun (f : VReg) => if b64 then v2 f else v1 f
  vecLater { noAccess with rv := [src a, src b], wv := [vDiv b64 res d], vector := true }
    (divLane b64 res unsigned d a b)
    (if res = .q ∧ !b64 then some fun t i =>
        ivDiv (!unsigned) (readInt (!unsigned) t i (ef t a)) (readInt (!unsigned) t i (ef t b)) (ef t d)
      else none) s

/-- The result bit of a truth table (R90). -/
def lopBits (tt : Nat) (a b : Nat) : Nat :=
  (List.range 32).foldl (fun acc j =>
    if bitAt tt (2 * field a j 1 + field b j 1) then acc + 2 ^ j else acc) 0

/-- LOP (R90). -/
def execLop (tt : BitVec 4) (d a b : VReg) (s : State) : Out :=
  vecOp { noAccess with rv := [v1 a, v1 b], wv := [v1 d], lat := 4, vector := true }
    (fun t i => lregs [(ef t d, BitVec.ofNat 32 (lopBits tt.toNat (vnat t i a) (vnat t i b)))]) none s

/-- A shift by an amount that may be 32 or more (R92). -/
def shiftBits (k : ShKind) (a n : Nat) : Nat :=
  match k with
  | .shl => (a * 2 ^ (min n 32)) % 2 ^ 32
  | .shr => a / 2 ^ (min n 32)
  | .sra => wrapNat 32 (toSigned 32 a / 2 ^ (min n 32))
  | .rot => (a * 2 ^ (n % 32)) % 2 ^ 32 + a / 2 ^ (32 - n % 32)

/-- The interval rule of a shift by a point amount (R343). -/
def ivShift (k : ShKind) (n : Nat) (t : Team) (i : Nat) (a : Nat) (r : Nat) : ILane :=
  match k with
  | .shl =>
    if 32 ≤ n then ilRegs [outPoint r 0#32]
    else
      let signed := match ivreg t i a with
        | .iv .N _ _ _ _ => false
        | _ => true
      let x := readInt signed t i a
      ilRegs [outInt signed r (x.lo * 2 ^ n) (x.hi * 2 ^ n) (tagScale x.tag (2 ^ n))]
  | .shr =>
    if 32 ≤ n then ilRegs [outPoint r 0#32]
    else
      let x := readInt false t i a
      ilRegs [outInt false r (x.lo / 2 ^ n) (x.hi / 2 ^ n) none]
  | .sra =>
    let x := readInt true t i a
    ilRegs [outInt true r (x.lo / 2 ^ (min n 31)) (x.hi / 2 ^ (min n 31)) none]
  | .rot => ilRegs [outFull r]

/-- The interval rule of SHF: a shift by an interval is a point from points, full otherwise. -/
def ivShf (k : ShKind) (clamp : Bool) (d a b : VReg) (t : Team) (i : Nat) : ILane :=
  if isPoint t i (ef t b) then
    ivShift k (if clamp then vnat t i b else vnat t i b % 32) t i (ef t a) (ef t d)
  else ilRegs [outFull (ef t d)]

/-- SHF (R92). -/
def execShf (k : ShKind) (clamp : Bool) (d a b : VReg) (s : State) : Out :=
  vecOp { noAccess with rv := [v1 a, v1 b], wv := [v1 d], lat := 4, vector := true }
    (fun t i => lregs [(ef t d, BitVec.ofNat 32
      (shiftBits k (vnat t i a) (if clamp then vnat t i b else vnat t i b % 32)))])
    (some (ivShf k clamp d a b)) s

/-- The number of set bits below 2^32. -/
def popcount (n : Nat) : Nat := (List.range 32).foldl (fun c j => c + field n j 1) 0

/-- The number of trailing zeros, 32 for 0. -/
def ctz (n : Nat) : Nat := ((List.range 32).find? (bitAt n)).getD 32

/-- The bits of a 32-bit word in the opposite order. -/
def brev (n : Nat) : Nat := (List.range 32).foldl (fun c j => c + field n j 1 * 2 ^ (31 - j)) 0

/-- A bit field extracted (R93). -/
def bfe (signed : Bool) (a b : Nat) : Nat :=
  let pos := min (field b 0 8) 32
  let len := min (field b 8 8) 32
  let ext := if signed then wrapNat 64 (toSigned 32 a) else a
  if len = 0 then 0
  else if signed then wrapNat 32 (toSigned len (field ext pos len)) else field ext pos len

/-- A bit field inserted (R93). -/
def bfi (d a b : Nat) : Nat :=
  let pos := min (field b 0 8) 32
  let len := min (field b 8 8) 32
  let m := ((2 ^ len - 1) * 2 ^ pos) % 2 ^ 32
  (d &&& (2 ^ 32 - 1 - m)) ||| ((a * 2 ^ pos) &&& m)

/-- Bytes selected by the destination's old value (R93). -/
def permBytes (d a b : Nat) : Nat :=
  let pool := a + b * 2 ^ 32
  (List.range 4).foldl (fun acc j =>
    let y := field pool (8 * field d (4 * j) 3) 8
    let z := if bitAt d (4 * j + 3) then (if 128 ≤ y then 255 else 0) else y
    acc + z * 2 ^ (8 * j)) 0

/-- The result of a BITS operation (R93). -/
def bitsVal (op : BitsOp) (d a b : Nat) : Nat :=
  match op with
  | .popc => popcount a
  | .clz => 32 - bitLen a
  | .ctz => ctz a
  | .brev => brev a
  | .bfeI32 => bfe true a b
  | .bfeN32 => bfe false a b
  | .bfi => bfi d a b
  | .perm => permBytes d a b

/-- The registers BITS reads: vb only from .bfe on, and the destination under .bfi and .perm (R85, R93). -/
def bitsReads (op : BitsOp) (d a b : VReg) : List VUse :=
  match op with
  | .popc | .clz | .ctz | .brev => [v1 a]
  | .bfeI32 | .bfeN32 => [v1 a, v1 b]
  | .bfi | .perm => [v1 a, v1 b, v1 d]

/-- BITS (R93). -/
def execBits (op : BitsOp) (d a b : VReg) (s : State) : Out :=
  vecOp { noAccess with rv := bitsReads op d a b, wv := [v1 d], lat := 4, vector := true }
    (fun t i => lregs [(ef t d, BitVec.ofNat 32 (bitsVal op (vnat t i d) (vnat t i a) (vnat t i b)))])
    (match op with
      | .popc | .clz | .ctz => some fun t _ => ilRegs [outInt true (ef t d) 0 32 none]
      | _ => none) s

/-- IMNX (R94). -/
def execImnx (mx : Bool) (ty : IntTy) (d a b : VReg) (s : State) : Out :=
  let f : Int → Int → Int := if mx then max else min
  let iv := fun (signed : Bool) => some fun (t : Team) (i : Nat) =>
    let x := readInt signed t i (ef t a)
    let y := readInt signed t i (ef t b)
    ilRegs [outInt signed (ef t d) (f x.lo y.lo) (f x.hi y.hi) none]
  vecOp (accTy ty d a b 4) (tyLane ty false f d a b)
    (match ty with
      | .i32 => iv true
      | .n32 => iv false
      | _ => none) s

/-- A condition on two integers (R95). -/
def condHolds (c : Cond) (x y : Int) : Bool :=
  match c with
  | .eq => decide (x = y)
  | .ne => decide (x ≠ y)
  | .lt => decide (x < y)
  | .le => decide (x ≤ y)
  | .gt => decide (y < x)
  | .ge => decide (y ≤ x)

/-- ICMP (R95). -/
def execIcmp (c : Cond) (unsigned : Bool) (p : PReg) (a b : VReg) (s : State) : Out :=
  vecOp { noAccess with rv := [v1 a, v1 b], wp := [p.toNat], lat := 4, vector := true }
    (fun t i => ⟨[], [(p.toNat, condHolds c (elemVal (!unsigned) 32 (vnat t i a)) (elemVal (!unsigned) 32 (vnat t i b)))],
      FlagSet.none⟩)
    (some fun t i => ⟨[], [(p.toNat, triCmp c (readInt (!unsigned) t i (ef t a)) (readInt (!unsigned) t i (ef t b)))],
      false⟩) s

/-- The hull of two operands of one kind under a maybe predicate (R343). -/
def ivHull (t : Team) (i a b r : Nat) : ILane :=
  let intHull := fun (signed : Bool) =>
    let x := readInt signed t i a
    let y := readInt signed t i b
    ilRegs [outInt signed r (min x.lo y.lo) (max x.hi y.hi) none]
  let fHull := fun (_ : Unit) =>
    let x := readF t i a
    let y := readF t i b
    let lo := if fvBefore (fval fmtF32 y.lo.toNat) (fval fmtF32 x.lo.toNat) then y.lo else x.lo
    let hi := if fvBefore (fval fmtF32 x.hi.toNat) (fval fmtF32 y.hi.toNat) then y.hi else x.hi
    ilRegs [outF r lo.toNat hi.toNat (x.nanp || y.nanp)]
  match ivreg t i a, ivreg t i b with
  | .point, .point => if vreg t i a = vreg t i b then ilRegs [outPoint r (vreg t i a)] else ilRegs [outFull r]
  | .iv .I _ _ _ _, .iv .I _ _ _ _ | .iv .I _ _ _ _, .point | .point, .iv .I _ _ _ _ => intHull true
  | .iv .N _ _ _ _, .iv .N _ _ _ _ | .iv .N _ _ _ _, .point | .point, .iv .N _ _ _ _ => intHull false
  | .iv .F _ _ _ _, .iv .F _ _ _ _ | .iv .F _ _ _ _, .point | .point, .iv .F _ _ _ _ => fHull ()
  | _, _ => ilRegs [outFull r]

/-- SEL (R96, R343): half of a 64-bit interval is no value of 32 bits, and gives full (log 34, DEDUCED). -/
def execSel (p : PReg) (neg : Bool) (d a b : VReg) (s : State) : Out :=
  vecOp { noAccess with rv := [v1 a, v1 b], wv := [v1 d], rp := [p.toNat], lat := 4, vector := true }
    (fun t i => lregs [(ef t d, vreg t i (if xor (preg t i p.toNat) neg then ef t a else ef t b))])
    (some fun t i =>
      let c := if neg then triNot (triP t i p.toNat) else triP t i p.toNat
      let keep := fun (r : Nat) =>
        match ivreg t i r with
        | .upper | .iv .W _ _ _ _ => ilRegs [outFull (ef t d)]
        | v => ilRegs [⟨ef t d, v, vreg t i r⟩]
      match c with
      | .t => keep (ef t a)
      | .f => keep (ef t b)
      | .m => ivHull t i (ef t a) (ef t b) (ef t d)) s

/-- IADDI (R87): the low 32 bits of the signed combined immediate. -/
def execIaddi (d a : VReg) (imm : BitVec 11) (h : ImmHints) (s : State) : Out :=
  let k := wrapNat 32 (immSigned 11 imm.toNat h)
  vecOp { noAccess with rv := [v1 a], wv := [v1 d], lat := 4, vector := true }
    (fun t i => lregs [(ef t d, BitVec.ofNat 32 (vnat t i a + k))])
    (some fun t i => ivAddSub false true false (readInt true t i (ef t a)) (intPoint (toSigned 32 k)) (ef t d)) s

/-- ISHI (R92). -/
def execIshi (k : ShKind) (d a : VReg) (n : BitVec 5) (s : State) : Out :=
  vecOp { noAccess with rv := [v1 a], wv := [v1 d], lat := 4, vector := true }
    (fun t i => lregs [(ef t d, BitVec.ofNat 32 (shiftBits k (vnat t i a) n.toNat))])
    (some fun t i => ivShift k n.toNat t i (ef t a) (ef t d)) s

/-- ICMPI (R95): the combined signed immediate, sign-extended to 32 bits. -/
def execIcmpi (c : Cond) (unsigned : Bool) (p : PReg) (a : VReg) (imm : BitVec 11) (h : ImmHints) (s : State) : Out :=
  let k := elemVal (!unsigned) 32 (wrapNat 32 (immSigned 11 imm.toNat h))
  vecOp { noAccess with rv := [v1 a], wp := [p.toNat], lat := 4, vector := true }
    (fun t i => ⟨[], [(p.toNat, condHolds c (elemVal (!unsigned) 32 (vnat t i a)) k)], FlagSet.none⟩)
    (some fun t i => ⟨[], [(p.toNat, triCmp c (readInt (!unsigned) t i (ef t a)) (intPoint k))], false⟩) s

/-- The result of a LOPI operation (R91). -/
def lopiVal (op : LopiOp) (a k : Nat) : Nat :=
  match op with
  | .and => a &&& k
  | .or => a ||| k
  | .xor => a ^^^ k
  | .andn => a &&& (2 ^ 32 - 1 - k)

/-- LOPI (R91): the low 32 bits of the unsigned combined immediate. -/
def execLopi (op : LopiOp) (d a : VReg) (imm : BitVec 9) (h : ImmHints) (s : State) : Out :=
  let k := (immBits 9 imm.toNat h).1 % 2 ^ 32
  vecOp { noAccess with rv := [v1 a], wv := [v1 d], lat := 4, vector := true }
    (fun t i => lregs [(ef t d, BitVec.ofNat 32 (lopiVal op (vnat t i a) k))]) none s

/-- The interval rule of IADDK on 32-bit elements (R341). -/
def ivAddK (signed sat : Bool) (d a : VReg) (k : KReg) (t : Team) (i : Nat) : ILane :=
  ivAddSub false signed sat (readInt signed t i (ef t a)) (intPoint (elemVal signed 32 (kregAt t i k.toNat).toNat)) (ef t d)

/-- IADDK (R87). -/
def execIaddk (v : IaddkVar) (d a : VReg) (k : KReg) (s : State) : Out :=
  let use := fun (f : VReg) => if v = .i64 then v2 f else v1 f
  let kw := fun (t : Team) (i : Nat) => (kregAt t i k.toNat).toNat
  vecOp { noAccess with rv := [use a], wv := [use d], rk := [(k.toNat, 1)], lat := 4, vector := true }
    (fun t i =>
      let one := fun (signed sat : Bool) =>
        let r := combine signed sat 32 (elemVal signed 32 (vnat t i a) + elemVal signed 32 (kw t i))
        LaneOut.mk [(ef t d, BitVec.ofNat 32 r.1)] [] (flagOv r.2)
      match v with
      | .i32 => one true false
      | .i32sat => one true true
      | .n32sat => one false true
      | .i64 => lregs (pairOut (ef t d) ((vnat64 t i a + kw t i) % 2 ^ 64)))
    (match v with
      | .i32 => some (ivAddK true false d a k)
      | .i32sat => some (ivAddK true true d a k)
      | .n32sat => some (ivAddK false true d a k)
      | .i64 => none) s

/-- ILEA (R97): the uniform register is read once for all lanes (log 34, DEDUCED). -/
def execIlea (sc : BitVec 2) (d a : VReg) (k : KReg) (s : State) : Out :=
  let kw := fun (t : Team) => (kreg t k.toNat).toNat
  vecOp { noAccess with rv := [v1 a], wv := [v2 d], rk := [(k.toNat, 1)], lat := 4, vector := true }
    (fun t i => lregs (pairOut (ef t d) ((kw t + vnat t i a * 2 ^ sc.toNat) % 2 ^ 64)))
    (some fun t i =>
      let x := readInt false t i (ef t a)
      let tag := x.tag.map fun g => ATag.mk (g.a * 2 ^ sc.toNat) (g.b * 2 ^ sc.toNat) (kw t + g.base * 2 ^ sc.toNat)
      ilRegs (outW (ef t d) (kw t + x.lo * 2 ^ sc.toNat) (kw t + x.hi * 2 ^ sc.toNat) tag)) s

/-- MOVK (R97): the uniform register is read once for all lanes. -/
def execMovk (v : MovkVar) (d : VReg) (k : KReg) (s : State) : Out :=
  let kw := fun (t : Team) => (kreg t k.toNat).toNat
  let f := fun (t : Team) (_ : Nat) =>
    match v with
    | .lo => lregs [(ef t d, BitVec.ofNat 32 (kw t))]
    | .hi => lregs [(ef t d, BitVec.ofNat 32 (kw t / 2 ^ 32))]
    | .b64 => lregs (pairOut (ef t d) (kw t))
  vecOp { noAccess with wv := [if v = .b64 then v2 d else v1 d], rk := [(k.toNat, 1)], lat := 4, vector := true } f none s

end Sys2Proof.Machine
end

