-- ==== Sys2Proof/Machine/Special.lean ====
section
/-! DEFINITION. Real functions to many bits: square roots, exponentials, logarithms and circular functions in fixed point,
and the results that the special functions of 06 R113 may return. A fixed-point number is an integer over 2^prec; its error
lies far below any difference the results depend on (log 20, UNVERIFIED). -/

namespace Sys2Proof.Machine

/-- The fraction bits of a fixed-point number (log 20, UNVERIFIED). -/
def prec : Nat := 448

/-- The integer square root, found bit by bit. -/
def isqrtFrom (n : Nat) : Nat → Nat → Nat
  | 0, r => if (r + 1) * (r + 1) ≤ n then r + 1 else r
  | i + 1, r => isqrtFrom n i (if (r + 2 ^ (i + 1)) * (r + 2 ^ (i + 1)) ≤ n then r + 2 ^ (i + 1) else r)

/-- The integer square root. -/
def isqrt (n : Nat) : Nat := isqrtFrom n (bitLen n / 2 + 1) 0

/-- A product of fixed-point numbers. -/
def fxMul (a b : Int) : Int := a * b / 2 ^ prec

/-- A quotient of fixed-point numbers. -/
def fxDiv (a b : Int) : Int := a * 2 ^ prec / b

/-- A dyadic as a fixed-point number. -/
def fxOf (neg : Bool) (m : Nat) (e : Int) : Int :=
  let v : Int := if neg then -(m : Int) else m
  let k := e + prec
  if 0 ≤ k then v * 2 ^ k.toNat else v / 2 ^ (-k).toNat

/-- A fixed-point number as a value. -/
def fxVal (v : Int) : FVal := .fin (decide (v < 0)) v.natAbs (-(prec : Int))

/-- The sum of x^i / i! from a term on. -/
def expTerms (x : Int) : Nat → Nat → Int → Int → Int
  | 0, _, _, acc => acc
  | fuel + 1, i, term, acc => if term = 0 then acc else expTerms x fuel (i + 1) (fxMul term x / (i + 1)) (acc + term)

/-- e^x for a small x. -/
def expSmall (x : Int) : Int := expTerms x 200 0 (2 ^ prec) 0

/-- The sum of z^(2i+1) / (2i+1), alternating when `alt`. -/
def atanTerms (z2 : Int) (alt : Bool) : Nat → Nat → Int → Int → Int
  | 0, _, _, acc => acc
  | fuel + 1, i, pow, acc =>
    if pow = 0 then acc
    else
      let t := pow / (2 * i + 1)
      atanTerms z2 alt fuel (i + 1) (fxMul pow z2) (if alt && i % 2 == 1 then acc - t else acc + t)

/-- The inverse hyperbolic tangent of z, at most 1/3. -/
def atanhSmall (z : Int) : Int := atanTerms (fxMul z z) false 300 0 z 0

/-- The natural logarithm of 2. -/
def ln2 : Int := 2 * atanhSmall (2 ^ prec / 3)

/-- π, by Machin's formula. -/
def piFx : Int :=
  let at_ := fun (n : Int) => atanTerms (2 ^ prec / (n * n)) true 300 0 (2 ^ prec / n) 0
  16 * at_ 5 - 4 * at_ 239

/-- e^x as a value: a power of two times a fixed-point number from 1 to 2 (log 20, UNVERIFIED). -/
def expVal (x : Int) : FVal :=
  let k := x / ln2
  let r := expSmall (x - k * ln2)
  .fin false r.toNat (k - (prec : Int))

/-- The fixed-point number of a value that is finite. -/
def fxOfVal : FVal → Int
  | .fin n m e => fxOf n m e
  | _ => 0

/-- The natural logarithm of m × 2^e, m nonzero: with m = f × 2^k and f from 3/4 to 3/2 (log 20, UNVERIFIED). -/
def lnVal (m : Nat) (e : Int) : Int :=
  let l := (bitLen m : Int)
  let f0 := fxOf false m (-l)
  let k := if 4 * f0 < 3 * 2 ^ prec then (f0 * 2, l - 1) else (f0, l)
  let z := fxDiv (k.1 - 2 ^ prec) (k.1 + 2 ^ prec)
  2 * atanhSmall z + (k.2 + e) * ln2

/-- sin x for x from 0 to π/2: the terms x^(2i+1)/(2i+1)!, alternating. -/
def sinTerms (x2 : Int) : Nat → Nat → Int → Int → Int
  | 0, _, _, acc => acc
  | fuel + 1, i, term, acc =>
    if term = 0 then acc
    else sinTerms x2 fuel (i + 1) (fxMul term x2 / ((2 * i + 2) * (2 * i + 3))) (if i % 2 = 1 then acc - term else acc + term)

/-- sin (π x) for a fixed-point x from 0 to 1/2. -/
def sinPiSmall (x : Int) : Int :=
  let y := fxMul piFx x
  sinTerms (fxMul y y) 200 0 y 0

/-- sin (π m 2^e), and whether it is exact: zero at an integer, one in magnitude halfway between (log 20, UNVERIFIED). -/
def sinPi (neg : Bool) (m : Nat) (e : Int) : FVal × Bool :=
  let h : Int := 2 ^ prec
  let x := if 1 ≤ e then 0 else fxOf false m e % (2 * h)
  let flip := decide (h ≤ x)
  let y := if flip then x - h else x
  let z := if h < 2 * y then h - y else y
  if z = 0 then (.fin neg 0 0, true)
  else if 2 * z = h then (.fin (neg != flip) 1 0, true)
  else
    match fxVal (sinPiSmall z) with
    | .fin _ m e => (.fin (neg != flip) m e, false)
    | v => (v, false)

/-- cos (π m 2^e), the same way (log 20, UNVERIFIED). -/
def cosPi (m : Nat) (e : Int) : FVal × Bool :=
  let h : Int := 2 ^ prec
  let x := if 1 ≤ e then 0 else fxOf false m e % (2 * h)
  let w := if h < x then 2 * h - x else x
  if 2 * w = h then (.fin false 0 0, true)
  else if w = 0 then (.fin false 1 0, true)
  else if w = h then (.fin true 1 0, true)
  else if 2 * w < h then (fxVal (sinPiSmall (h / 2 - w)), false)
  else
    match fxVal (sinPiSmall (w - h / 2)) with
    | .fin _ m e => (.fin true m e, false)
    | v => (v, false)

/-! ## The special functions (R113) -/

/-- A quotient with a sticky bit: enough bits that one rounding of it is the rounding of the exact quotient. -/
def stickyDiv (neg : Bool) (n d : Nat) (e : Int) : FVal :=
  let k := 80 + bitLen d
  let q := n * 2 ^ k / d
  .fin neg (2 * q + (if n * 2 ^ k % d = 0 then 0 else 1)) (e - (k : Int) - 1)

/-- A square root with a sticky bit. -/
def stickySqrt (m : Nat) (e : Int) : FVal :=
  let m1 := if e % 2 = 0 then m else 2 * m
  let e1 := if e % 2 = 0 then e else e - 1
  let n := m1 * 2 ^ 128
  let r := isqrt n
  .fin false (2 * r + (if r * r = n then 0 else 1)) (e1 / 2 - 64 - 1)

/-- A reciprocal square root with a sticky bit. -/
def stickyRsqrt (m : Nat) (e : Int) : FVal :=
  let m1 := if e % 2 = 0 then m else 2 * m
  let e1 := if e % 2 = 0 then e else e - 1
  let r := isqrt (2 ^ 256 / m1)
  .fin false (2 * r + (if r * r * m1 = 2 ^ 256 then 0 else 1)) (-(e1 / 2) - 128 - 1)

/-- The value on the line of f32 numbers in order: 0 is zero, n and −n the n-th above and below it. -/
def lineVal (n : Int) : FVal := fval fmtF32 (fmtSigned fmtF32 (decide (n < 0)) n.natAbs)

/-- Bits of a place on the line; a zero takes the sign given. -/
def lineBits (zneg : Bool) (n : Int) : Nat := fmtSigned fmtF32 (decide (n < 0) || (n == 0 && zneg)) n.natAbs

/-- The exponent of an f32's last place. -/
def lastPlace (n : Int) : Int := fmtEmin fmtF32 + ((max (field n.natAbs 23 8) 1 : Nat) : Int) - 1

/-- Whether a place on the line lies within `ulps` units of its last place of a value. -/
def withinUlp (ulps : Nat) (v : FVal) (n : Int) : Bool :=
  match fvAdd .rne (lineVal n) (fvNeg v) with
  | .fin _ m e => !dyLt ulps (lastPlace n) m e
  | _ => false

/-- Whether two values are equal. -/
def fvSame (a b : FVal) : Bool := fvCmp a b == .eq

/-- A result within `ulps` of a value `v`: of the f32 numbers that lie so near it, `pick` chooses one. NX is set when it
differs from `v`, which is exact or else differs from every f32 (log 18, DESIGN CHOICE). -/
def nearWith (pick ulps : Nat) (v : FVal) (exact : Bool) : Nat × FlagSet :=
  match v with
  | .fin neg m e =>
    let r := roundMag fmtF32 .rne neg m e
    let c : Int := if neg then -(r.mag : Int) else r.mag
    let near := ((List.range (2 * ulps + 3)).map fun (i : Nat) => c + (i : Int) - (ulps : Int) - 1).filter
      fun n => decide (n.natAbs ≤ fmtMax fmtF32) && withinUlp ulps v n
    let n := nth c near (pick % (max near.length 1))
    let nx := !(exact && fvSame (lineVal n) v)
    (lineBits neg n, ⟨false, false, r.tiny && nx, nx⟩)
  | w => deliver fmtF32 .rne false w

/-- The result of a special function (R113): a fixed function of the operand bits (log 18, DESIGN CHOICE; log 20, UNVERIFIED). -/
def nearResult (fn : Nat) (bits : W32) (ulps : Nat) (v : FVal) (exact : Bool) : Nat × FlagSet :=
  nearWith (Config.fsfPick fn bits) ulps v exact

/-- The least exponent below which every result of exp2 is the same for rounding, and the bound of an overflow. -/
def clampDy (lim : Nat) (neg : Bool) (m : Nat) (e : Int) : Bool × Nat × Int :=
  if dyLt lim 0 m e then (neg, lim, 0) else (neg, m, e)

/-- exp2 of a finite operand (R113): exact at integers in range. -/
def exp2Val (bits : W32) (neg : Bool) (m : Nat) (e : Int) : Nat × FlagSet :=
  match clampDy 1024 neg m e with
  | (n, m1, e1) =>
    let x := fxOf n m1 e1
    let k := x / 2 ^ prec
    let fr := x % 2 ^ prec
    if fr = 0 ∧ -149 ≤ k then deliver fmtF32 .rne false (.fin false 1 k)
    else if 128 ≤ k then deliver fmtF32 .rne false (.fin false 1 k)
    else
      let r := if fr = 0 then (2 : Int) ^ prec else expSmall (fxMul fr ln2)
      nearResult 3 bits 1 (.fin false r.toNat (k - (prec : Int))) (fr = 0)

/-- log2 of a positive finite operand (R113): exact at powers of two. -/
def log2Val (bits : W32) (m : Nat) (e : Int) : Nat × FlagSet :=
  let l := bitLen m
  if m = 2 ^ (l - 1) then deliver fmtF32 .rne false (ofInt ((l : Int) - 1 + e))
  else nearResult 4 bits 1 (fxVal (fxDiv (lnVal m e) ln2)) false

/-- tanh of a nonzero finite operand (R113). -/
def tanhVal (bits : W32) (neg : Bool) (m : Nat) (e : Int) : Nat × FlagSet :=
  match clampDy 64 neg m e with
  | (_, m1, e1) =>
    let ex := fxOfVal (expVal (2 * fxOf false m1 e1))
    match fxVal (fxDiv (ex - 2 ^ prec) (ex + 2 ^ prec)) with
    | .fin _ m2 e2 => nearResult 7 bits 2 (.fin neg m2 e2) false
    | v => nearResult 7 bits 2 v false

/-- 1/(1 + e^−x) of a finite operand (R113): exact at 0. -/
def sigmVal (bits : W32) (neg : Bool) (m : Nat) (e : Int) : Nat × FlagSet :=
  if m = 0 then nearResult 8 bits 2 (.fin false 1 (-1)) true
  else
    match clampDy 200 neg m e with
    | (n, m1, e1) =>
      let ex := fxOfVal (expVal (-(fxOf n m1 e1)))
      nearResult 8 bits 2 (fxVal (fxDiv (2 ^ prec) (2 ^ prec + ex))) false

/-- The default NaN with NV (R68). -/
def nanNv : Nat × FlagSet := (fmtNan fmtF32, flagNv true)

/-- A result that raises no flag. -/
def plainBits (n : Nat) : Nat × FlagSet := (n, FlagSet.none)

/-- FSF (R113): the result and its flags (log 18, DESIGN CHOICE). -/
def fsfVal (fn : FsfFn) (bits : W32) : Nat × FlagSet :=
  let inf := fun (neg : Bool) => plainBits (fmtSigned fmtF32 neg (fmtInf fmtF32))
  let zero := fun (neg : Bool) => plainBits (fmtSigned fmtF32 neg 0)
  let one := fun (neg : Bool) => plainBits (fmtSigned fmtF32 neg 0x3F800000)
  match fval fmtF32 bits.toNat with
  | .nan s => (fmtNan fmtF32, flagNv s)
  | .inf neg =>
    match fn with
    | .rcp => zero neg
    | .rsqrt => if neg then nanNv else zero false
    | .sqrt | .log2 => if neg then nanNv else inf false
    | .exp2 => if neg then zero false else inf false
    | .sinpi | .cospi => nanNv
    | .tanh => one neg
    | .sigm => if neg then zero false else one false
  | .fin neg m e =>
    match fn with
    | .rcp => if m = 0 then inf neg else deliver fmtF32 .rne false (stickyDiv neg 1 m (-e))
    | .rsqrt => if m = 0 then inf neg else if neg then nanNv else deliver fmtF32 .rne false (stickyRsqrt m e)
    | .sqrt => if m = 0 then zero neg else if neg then nanNv else deliver fmtF32 .rne false (stickySqrt m e)
    | .exp2 => exp2Val bits neg m e
    | .log2 => if m = 0 then inf true else if neg then nanNv else log2Val bits m e
    | .sinpi =>
      if m = 0 then zero neg
      else
        match sinPi neg m e with
        | (v, ex) => if fvZero v then zero neg else nearResult 5 bits 1 v ex
    | .cospi =>
      match cosPi m e with
      | (v, ex) => if fvZero v then zero false else nearResult 6 bits 1 v ex
    | .tanh => if m = 0 then zero neg else tanhVal bits neg m e
    | .sigm => sigmVal bits neg m e

end Sys2Proof.Machine
end

