-- ==== Sys2Proof/Machine/Float.lean ====
section
/-! DEFINITION. The vector floating-point instructions, conversions, packing and dot products (06 R105-R118), with their
interval rules (18 R343). -/

namespace Sys2Proof.Machine

/-- The format of an element type (R42, R58). -/
def ftyFmt : FTy → Fmt
  | .f32 => fmtF32
  | .f16x2 => fmtF16
  | .bf16x2 => fmtBf16

/-- An operation on each element of a register (R58): elements ascending, flags together. -/
def eachElem (ty : FTy) (f : Nat → Nat × FlagSet) : Nat × FlagSet :=
  match ty with
  | .f32 => f 0
  | _ =>
    let lo := f 0
    let hi := f 1
    (lo.1 + hi.1 * 2 ^ 16, flagOr lo.2 hi.2)

/-- Element `e` of a register. -/
def elemAt (ty : FTy) (e n : Nat) : Nat := if ty = .f32 then n else field n (16 * e) 16

/-- A lane that writes one register and raises flags. -/
def lflag (r : Nat) (o : Nat × FlagSet) : LaneOut := ⟨[(r, BitVec.ofNat 32 o.1)], [], o.2⟩

/-- The four operations of R109 on exact values. -/
inductive FOp where
  | add | sub | mul | fma
  deriving DecidableEq, Repr

/-- The exact result of an operation, with `c` the destination's old value. -/
def fopVal (op : FOp) (rm : RMode) (a b c : FVal) : FVal :=
  match op with
  | .add => fvAdd rm a b
  | .sub => fvAdd rm a (fvNeg b)
  | .mul => fvMul a b
  | .fma => fvFma rm a b c

/-- FADD, FSUB, FMUL or FFMA in one lane (R109). -/
def fopLane (op : FOp) (ty : FTy) (rm : RMode) (sat : Bool) (d a b : VReg) (t : Team) (i : Nat) : LaneOut :=
  let f := ftyFmt ty
  let v := fun (r : VReg) (e : Nat) => fval f (elemAt ty e (vnat t i r))
  lflag (ef t d) (eachElem ty fun e => deliver f rm sat (fopVal op rm (v a e) (v b e) (v d e)))

/-- The least or the greatest of a list of f32 bit patterns, −0 before +0; `z` for none. -/
def f32Least (z : Nat) : List Nat → Nat
  | [] => z
  | x :: xs => xs.foldl (fun m y => if fvBefore (fval fmtF32 y) (fval fmtF32 m) then y else m) x
def f32Most (z : Nat) : List Nat → Nat
  | [] => z
  | x :: xs => xs.foldl (fun m y => if fvBefore (fval fmtF32 m) (fval fmtF32 y) then y else m) x

/-- Whether an f32 operand may be zero, or infinite. -/
def mayZero (x : IRead) : Bool :=
  let z := FVal.fin false 0 0
  fvCmp (fval fmtF32 x.lo.toNat) z != .gt && fvCmp (fval fmtF32 x.hi.toNat) z != .lt
def mayInf (x : IRead) : Bool := x.lo.toNat == f32NegInf || x.hi.toNat == f32PosInf

/-- The interval rule of f32 arithmetic (R343): over the corners, lo rounded .rd and hi rounded .ru. -/
def ivFop (op : FOp) (sat : Bool) (x y z : IRead) (r : Nat) : ILane :=
  let ends := fun (q : IRead) => if q.lo = q.hi then [q.lo.toNat] else [q.lo.toNat, q.hi.toNat]
  let zs := if op = .fma then ends z else [0]
  let combos := ((ends x).map fun a => ((ends y).map fun b => zs.map fun c => (a, b, c)).flatten).flatten
  let run := fun (rm : RMode) => combos.map fun c =>
    (deliver fmtF32 rm sat (fopVal op rm (fval fmtF32 c.1) (fval fmtF32 c.2.1) (fval fmtF32 c.2.2))).1
  let num := fun (l : List Nat) => l.filter fun n => !isNan (fval fmtF32 n)
  let los := run .rd
  let mulNan := (op == .mul || op == .fma) && ((mayZero x && mayInf y) || (mayZero y && mayInf x))
  let nanp := x.nanp || y.nanp || (op == .fma && z.nanp) || mulNan || los.any (fun n => isNan (fval fmtF32 n))
  ilRegs [outF r (f32Least f32NegInf (num los)) (f32Most f32PosInf (num (run .ru))) nanp]

/-- A vector float operation of R109. -/
def fopExec (op : FOp) (ty : FTy) (rm : RMode) (sat : Bool) (d a b : VReg) (s : State) : Out :=
  let rv := if op = .fma then [v1 a, v1 b, v1 d] else [v1 a, v1 b]
  vecOp { noAccess with rv := rv, wv := [v1 d], lat := 5, vector := true } (fopLane op ty rm sat d a b)
    (if ty = .f32 then some fun t i =>
        ivFop op sat (readF t i (ef t a)) (readF t i (ef t b)) (readF t i (ef t d)) (ef t d)
      else none) s

/-- FADD (R109). -/
def execFadd (ty : FTy) (rm : RMode) (sat : Bool) (d a b : VReg) (s : State) : Out := fopExec .add ty rm sat d a b s

/-- FSUB (R109). -/
def execFsub (ty : FTy) (rm : RMode) (sat : Bool) (d a b : VReg) (s : State) : Out := fopExec .sub ty rm sat d a b s

/-- FMUL (R109). -/
def execFmul (ty : FTy) (rm : RMode) (sat : Bool) (d a b : VReg) (s : State) : Out := fopExec .mul ty rm sat d a b s

/-- FFMA (R109): fused, with the destination's old value as addend. -/
def execFfma (ty : FTy) (rm : RMode) (sat : Bool) (d a b : VReg) (s : State) : Out := fopExec .fma ty rm sat d a b s

/-- FMNX of two elements (R111): the bits and the flags. -/
def fmnxVal (mx nan : Bool) (f : Fmt) (a b : Nat) : Nat × FlagSet :=
  let x := fval f a
  let y := fval f b
  let nv := flagNv (isSnan x || isSnan y)
  match isNan x, isNan y with
  | true, true => (fmtNan f, nv)
  | true, false => (if nan then fmtNan f else b, nv)
  | false, true => (if nan then fmtNan f else a, nv)
  | false, false => (if mx then (if fvBefore x y then b else a) else (if fvBefore y x then b else a), FlagSet.none)

/-- The interval rule of FMNX .f32 (R343). -/
def ivFmnx (mx nan : Bool) (x y : IRead) (r : Nat) : ILane :=
  if !nan && (x.nanp || y.nanp) then
    ilRegs [outF r (f32Least 0 [x.lo.toNat, y.lo.toNat]) (f32Most 0 [x.hi.toNat, y.hi.toNat]) (x.nanp && y.nanp)]
  else
    ilRegs [outF r (fmnxVal mx false fmtF32 x.lo.toNat y.lo.toNat).1 (fmnxVal mx false fmtF32 x.hi.toNat y.hi.toNat).1
      (x.nanp || y.nanp)]

/-- FMNX (R111). -/
def execFmnx (mx nan : Bool) (ty : FTy) (d a b : VReg) (s : State) : Out :=
  vecOp { noAccess with rv := [v1 a, v1 b], wv := [v1 d], lat := 5, vector := true }
    (fun t i => lflag (ef t d) (eachElem ty fun e =>
      fmnxVal mx nan (ftyFmt ty) (elemAt ty e (vnat t i a)) (elemAt ty e (vnat t i b))))
    (if ty = .f32 then some fun t i => ivFmnx mx nan (readF t i (ef t a)) (readF t i (ef t b)) (ef t d) else none) s

/-- Whether an FCMP condition holds for operands in an order, none for unordered (R112). -/
def fcondHolds (c : FCond) (o : Option Ordering) : Bool :=
  match c with
  | .eq => o == some .eq
  | .ne => o != some .eq
  | .lt => o == some .lt
  | .le => o == some .lt || o == some .eq
  | .gt => o == some .gt
  | .ge => o == some .gt || o == some .eq
  | .ord => o != none
  | .uno => o == none
  | .ult => o == none || o == some .lt
  | .ule => o != some .gt
  | .ugt => o == none || o == some .gt
  | .uge => o != some .lt
  | .one => o == some .lt || o == some .gt
  | .ueq => o == none || o == some .eq

/-- The order of two f32 operands, none where one is NaN. -/
def fOrder (x y : FVal) : Option Ordering := if isNan x || isNan y then none else some (fvCmp x y)

/-- The conditions that set NV for any NaN (R112). -/
def fcondSignals : FCond → Bool
  | .lt | .le | .gt | .ge => true
  | _ => false

/-- FCMP over two boxes (R343): maybe whenever an operand is NaN-possible. -/
def ivFcmp (c : FCond) (x y : IRead) : Tri :=
  if x.nanp || y.nanp then .m
  else
    let o := fun (a b : Int) => fvCmp (fval fmtF32 a.toNat) (fval fmtF32 b.toNat)
    let orders := [Ordering.lt, .eq, .gt].filter fun r =>
      match r with
      | .lt => o x.lo y.hi == .lt
      | .gt => o x.hi y.lo == .gt
      | .eq => o x.lo y.hi != .gt && o x.hi y.lo != .lt
    if orders.all (fun r => fcondHolds c (some r)) then .t
    else if orders.any (fun r => fcondHolds c (some r)) then .m else .f

/-- FCMP (R112). -/
def execFcmp (c : FCond) (p : PReg) (a b : VReg) (s : State) : Out :=
  vecOp { noAccess with rv := [v1 a, v1 b], wp := [p.toNat], lat := 5, vector := true }
    (fun t i =>
      let x := fval fmtF32 (vnat t i a)
      let y := fval fmtF32 (vnat t i b)
      let nv := isSnan x || isSnan y || (fcondSignals c && (isNan x || isNan y))
      ⟨[], [(p.toNat, fcondHolds c (fOrder x y))], flagNv nv⟩)
    (some fun t i => ⟨[], [(p.toNat, ivFcmp c (readF t i (ef t a)) (readF t i (ef t b)))], false⟩) s

/-- The place of f32 bits on the line of its numbers, the infinities at its ends. -/
def linePlace (n : Nat) : Int := if bitAt n 31 then -((n % 2 ^ 31 : Nat) : Int) else n

/-- An end moved by units in the last place, no further than an infinity (R343). -/
def stepUlp (n : Nat) (k : Int) : Nat :=
  let p := max (-(0x7F800000 : Int)) (min 0x7F800000 (linePlace n + k))
  fmtSigned fmtF32 (decide (p < 0)) p.natAbs

/-- How far FSF moves an end outward: twice its bound (R113, R343). -/
def fsfWiden : FsfFn → Int
  | .rcp | .rsqrt | .sqrt => 0
  | .exp2 | .log2 | .sinpi | .cospi => 2
  | .tanh | .sigm => 4

/-- The interval rules of FSF (R343). -/
def ivFsf (fn : FsfFn) (x : IRead) (r : Nat) : ILane :=
  let lo := BitVec.ofNat 32 x.lo.toNat
  let hi := BitVec.ofNat 32 x.hi.toNat
  let below := fvCmp (fval fmtF32 lo.toNat) (.fin false 0 0) == .lt
  let plain := fun (_ : Unit) =>
    let a := (fsfVal fn lo).1
    let b := (fsfVal fn hi).1
    let w := fsfWiden fn
    if w = 0 then ilRegs [outF r a b x.nanp] else ilRegs [outF r (stepUlp a (-w)) (stepUlp b w) x.nanp]
  match fn with
  | .sinpi | .cospi => ilRegs [outF r 0xBF800000 0x3F800000 (x.nanp || mayInf x)]
  | .rcp => if mayZero x then ilRegs [outFull r] else ilRegs [outF r (fsfVal fn hi).1 (fsfVal fn lo).1 x.nanp]
  | .rsqrt =>
    if mayZero x || below then ilRegs [outFull r] else ilRegs [outF r (fsfVal fn hi).1 (fsfVal fn lo).1 x.nanp]
  | .sqrt | .log2 => if below then ilRegs [outFull r] else plain ()
  | .exp2 | .tanh | .sigm => plain ()

/-- FSF (R113): of variable latency. -/
def execFsf (fn : FsfFn) (d a : VReg) (s : State) : Out :=
  vecLater { noAccess with rv := [v1 a], wv := [v1 d], vector := true }
    (fun t i => lflag (ef t d) (fsfVal fn (vreg t i (ef t a))))
    (some fun t i => ivFsf fn (readF t i (ef t a)) (ef t d)) s

/-! ## Conversions (R69-R71, R115, R116) -/

/-- Integers a conversion reads or writes: signedness and width. -/
structure CvtInt where
  signed : Bool
  w : Nat
  deriving DecidableEq, Repr

/-- What a conversion code does (R116). -/
inductive Cvt where
  | fromF32 (f : Fmt)
  | toF32 (f : Fmt) (lo : Nat)
  | both (src dst : Fmt)
  | toInt (lo hi : Int) (i : CvtInt)
  | ofInt (i : CvtInt) (f : Fmt)
  | narrow (src dst : CvtInt)
  | widen (src dst : CvtInt)
  deriving DecidableEq, Repr

/-- A conversion to an integer type's whole range. -/
def cvtTo (signed : Bool) (w : Nat) : Cvt := .toInt (loOf signed w) (hiOf signed w) ⟨signed, w⟩

/-- The table of R116; none for a code it does not list. -/
def cvtOf (code : Nat) : Option Cvt :=
  match code with
  | 0x00 => some (.fromF32 fmtF16)
  | 0x01 => some (.fromF32 fmtBf16)
  | 0x02 => some (.fromF32 fmtE4m3)
  | 0x03 => some (.fromF32 fmtE5m2)
  | 0x04 => some (.toF32 fmtF16 0)
  | 0x05 => some (.toF32 fmtF16 16)
  | 0x06 => some (.toF32 fmtBf16 0)
  | 0x07 => some (.toF32 fmtBf16 16)
  | 0x08 => some (.toF32 fmtE4m3 0)
  | 0x09 => some (.toF32 fmtE4m3 8)
  | 0x0A => some (.toF32 fmtE4m3 16)
  | 0x0B => some (.toF32 fmtE4m3 24)
  | 0x0C => some (.toF32 fmtE5m2 0)
  | 0x0D => some (.toF32 fmtE5m2 8)
  | 0x0E => some (.toF32 fmtE5m2 16)
  | 0x0F => some (.toF32 fmtE5m2 24)
  | 0x10 => some (.both fmtF16 fmtBf16)
  | 0x11 => some (.both fmtBf16 fmtF16)
  | 0x20 => some (cvtTo true 32)
  | 0x21 => some (cvtTo false 32)
  | 0x22 => some (cvtTo true 64)
  | 0x23 => some (cvtTo false 64)
  | 0x24 => some (cvtTo true 16)
  | 0x25 => some (cvtTo false 16)
  | 0x26 => some (cvtTo true 8)
  | 0x27 => some (cvtTo false 8)
  | 0x28 => some (.toInt (-7) 7 ⟨true, 4⟩)
  | 0x30 => some (.ofInt ⟨true, 32⟩ fmtF32)
  | 0x31 => some (.ofInt ⟨false, 32⟩ fmtF32)
  | 0x32 => some (.ofInt ⟨true, 64⟩ fmtF32)
  | 0x33 => some (.ofInt ⟨false, 64⟩ fmtF32)
  | 0x34 => some (.ofInt ⟨true, 32⟩ fmtF16)
  | 0x35 => some (.ofInt ⟨true, 32⟩ fmtBf16)
  | 0x40 => some (.narrow ⟨true, 64⟩ ⟨true, 32⟩)
  | 0x41 => some (.narrow ⟨false, 64⟩ ⟨false, 32⟩)
  | 0x42 => some (.narrow ⟨true, 32⟩ ⟨true, 16⟩)
  | 0x43 => some (.narrow ⟨false, 32⟩ ⟨false, 16⟩)
  | 0x44 => some (.narrow ⟨true, 32⟩ ⟨true, 8⟩)
  | 0x45 => some (.narrow ⟨false, 32⟩ ⟨false, 8⟩)
  | 0x46 => some (.widen ⟨true, 32⟩ ⟨true, 64⟩)
  | 0x47 => some (.widen ⟨false, 32⟩ ⟨false, 64⟩)
  | 0x48 => some (.widen ⟨true, 16⟩ ⟨true, 32⟩)
  | 0x49 => some (.widen ⟨true, 8⟩ ⟨true, 32⟩)
  | 0x4A => some (.narrow ⟨true, 32⟩ ⟨false, 32⟩)
  | 0x4B => some (.narrow ⟨false, 32⟩ ⟨true, 32⟩)
  | _ => none

/-- Whether a conversion reads or writes a pair (R115). -/
def cvtWideSrc : Cvt → Bool
  | .ofInt i _ => i.w == 64
  | .narrow i _ => i.w == 64
  | _ => false
def cvtWideDst : Cvt → Bool
  | .toInt _ _ i => i.w == 64
  | .widen _ i => i.w == 64
  | _ => false

/-- The result of a conversion, in as many bits as its target takes (R115). -/
def cvtVal (c : Cvt) (rm : RMode) (sat : Bool) (a : Nat) : Nat × FlagSet :=
  match c with
  | .fromF32 f => convF f rm (fval fmtF32 a)
  | .toF32 f lo => convF fmtF32 rm (fval f (field a lo (fmtWidth f)))
  | .both f g => eachElem .f16x2 fun e => convF g rm (fval f (field a (16 * e) 16))
  | .toInt lo hi i =>
    let r := convI rm lo hi (fval fmtF32 a)
    (wrapNat (max 32 i.w) r.1, r.2)
  | .ofInt i f => convF f rm (ofInt (elemVal i.signed i.w a))
  | .narrow src dst =>
    let r := combine dst.signed sat dst.w (elemVal src.signed src.w a)
    (wrapNat 32 (elemVal dst.signed dst.w r.1), flagOv r.2)
  | .widen src dst => (wrapNat dst.w (elemVal src.signed src.w a), FlagSet.none)

/-- The interval rules of CVT codes 0x20, 0x21, 0x30 and 0x31 (R343): the ends converted by the instruction's mode. -/
def ivCvt (code : Nat) (rm : RMode) (t : Team) (i a r : Nat) : ILane :=
  if code = 0x20 ∨ code = 0x21 then
    let signed := code == 0x20
    let x := readF t i a
    let conv := fun (n : Int) => (convI rm (loOf signed 32) (hiOf signed 32) (fval fmtF32 n.toNat)).1
    if x.nanp then ilRegs [outFull r] else ilRegs [outInt signed r (conv x.lo) (conv x.hi) none]
  else
    let x := readInt (code == 0x30) t i a
    let conv := fun (n : Int) => (convF fmtF32 rm (ofInt n)).1
    ilRegs [outF r (conv x.lo) (conv x.hi) false]

/-- CVT (R115): a code that R116 does not list is never decoded; it changes nothing here. -/
def execCvt (code : BitVec 7) (rm : RMode) (sat : Bool) (d a : VReg) (s : State) : Out :=
  match cvtOf code.toNat with
  | none => vecOp { noAccess with vector := true } (fun _ _ => lregs []) none s
  | some c =>
    let src := if cvtWideSrc c then v2 a else v1 a
    let dst := if cvtWideDst c then v2 d else v1 d
    vecOp { noAccess with rv := [src], wv := [dst], lat := 5, vector := true }
      (fun t i =>
        let o := cvtVal c rm sat (if cvtWideSrc c then vnat64 t i a else vnat t i a)
        if cvtWideDst c then ⟨pairOut (ef t d) o.1, [], o.2⟩ else lflag (ef t d) o)
      (if code.toNat = 0x20 ∨ code.toNat = 0x21 ∨ code.toNat = 0x30 ∨ code.toNat = 0x31 then
        some fun t i => ivCvt code.toNat rm t i (ef t a) (ef t d) else none) s

/-- PACK of two words (R117). -/
def packVal (form : PackForm) (a b : Nat) : Nat × FlagSet :=
  let two := fun (x y : Nat × FlagSet) => (x.1 + y.1 * 2 ^ 16, flagOr x.2 y.2)
  let clampTo := fun (signed : Bool) (n : Nat) =>
    let r := combine signed true 16 (toSigned 32 n)
    (r.1, flagOv r.2)
  match form with
  | .f16x2 => two (convF fmtF16 .rne (fval fmtF32 a)) (convF fmtF16 .rne (fval fmtF32 b))
  | .bf16x2 => two (convF fmtBf16 .rne (fval fmtF32 a)) (convF fmtBf16 .rne (fval fmtF32 b))
  | .i16x2sat => two (clampTo true a) (clampTo true b)
  | .n16x2sat => two (clampTo false a) (clampTo false b)
  | .lo16 => (a % 2 ^ 16 + b % 2 ^ 16 * 2 ^ 16, FlagSet.none)
  | .hi16 => (field a 16 16 + field b 16 16 * 2 ^ 16, FlagSet.none)

/-- PACK (R117). -/
def execPack (form : PackForm) (d a b : VReg) (s : State) : Out :=
  vecOp { noAccess with rv := [v1 a, v1 b], wv := [v1 d], lat := 5, vector := true }
    (fun t i => lflag (ef t d) (packVal form (vnat t i a) (vnat t i b))) none s

/-- The exact sum of a list of values with one outcome for all of them: a NaN among them makes it NaN, infinities of both
signs are invalid, and an exact zero keeps the sign its terms share (R68, R110) (log 62, DESIGN CHOICE). -/
def fvSum (l : List FVal) : FVal :=
  if l.any isNan then .nan (l.any isSnan)
  else
    match l with
    | [] => .fin false 0 0
    | x :: xs => xs.foldl (fvAdd .rne) x

/-- The integer forms of DP4 (R118). -/
def dp4Int (aS bS sat : Bool) (d a b : Nat) : Nat × FlagSet :=
  let signed := aS || bS
  let sum := (List.range 4).foldl
    (fun acc j => acc + elemVal aS 8 (field a (8 * j) 8) * elemVal bS 8 (field b (8 * j) 8)) (elemVal signed 32 d)
  let r := combine signed sat 32 sum
  (r.1, flagOv r.2)

/-- The FP8 forms of DP4 (R118): one rounding. -/
def dp4Fp8 (aF bF : Fmt) (d a b : Nat) : Nat × FlagSet :=
  let prods := (List.range 4).map fun j => fvMul (fval aF (field a (8 * j) 8)) (fval bF (field b (8 * j) 8))
  deliver fmtF32 .rne false (fvSum (fval fmtF32 d :: prods))

/-- DP4 of three words (R118). -/
def dp4Val (form : Dp4Form) (d a b : Nat) : Nat × FlagSet :=
  let f := fun (e5 : Bool) => if e5 then fmtE5m2 else fmtE4m3
  match form with
  | .int aS bS sat => dp4Int aS bS sat d a b
  | .fp8 a5 b5 => dp4Fp8 (f a5) (f b5) d a b

/-- DP4 (R118): the destination is read as well as written. -/
def execDp4 (form : Dp4Form) (d a b : VReg) (s : State) : Out :=
  vecOp { noAccess with rv := [v1 a, v1 b, v1 d], wv := [v1 d], lat := 6, vector := true }
    (fun t i => lflag (ef t d) (dp4Val form (vnat t i d) (vnat t i a) (vnat t i b))) none s

/-- The class bit of FCLS (R114). -/
def fclsBit (f : Fmt) (bits : Nat) : Nat :=
  match fval f bits with
  | .nan s => if s then 8 else 9
  | .inf n => if n then 0 else 7
  | .fin n m _ =>
    if m = 0 then (if n then 3 else 4)
    else if m < 2 ^ f.fb then (if n then 2 else 5)
    else if n then 1 else 6

/-- FCLS (R114). -/
def execFcls (ty : FclsTy) (d a : VReg) (s : State) : Out :=
  let f := match ty with
    | .f32 => fmtF32
    | .f16 => fmtF16
    | .bf16 => fmtBf16
  vecOp { noAccess with rv := [v1 a], wv := [v1 d], lat := 5, vector := true }
    (fun t i => lregs [(ef t d, BitVec.ofNat 32 (2 ^ fclsBit f (vnat t i a % 2 ^ fmtWidth f)))]) none s

end Sys2Proof.Machine
end

