-- ==== Sys2Proof/Machine/CrossLane.lean ====
section
/-! DEFINITION. The instructions that move values between lanes (06 R119-R124) and the order of reductions and scans
(04 R80, R81). -/

namespace Sys2Proof.Machine

/-- A cross-lane instruction: `outs` gives what the active lanes write, all reads before any write (R119). The .row forms
have a fixed latency, the .team forms are written back later; in interval mode the tile of every active lane becomes
undecided (R343). -/
def crossOp (a : Access) (later : Bool) (outs : Team → List (Nat × LaneOut)) (s : State) : Out :=
  let und : Team → Nat → ILane := fun _ _ => ilUndec
  issueOp (if later then { a with lat := 0 } else a) (fun s u t =>
    if t.bounds then done (ivNext (ivApply s u t und) u)
    else
      let os := outs t
      let flags := flagAll (os.map (·.2.flags))
      if later then
        let ws := (os.map fun e => e.2.regs.map fun r => PendWrite.mk e.1 r.1 r.2).flatten
        let ps := (os.map fun e => e.2.preds.map fun p => (e.1, p)).flatten
        let p : Pending := ⟨false, accWrites t.flow.x a, ws, ps, none, none, [], 0, none, [], []⟩
        let s1 := modTeam s u fun t' => { t' with pend := t'.pend ++ [p] }
        done (fallThrough (raiseVector s1 t.core t.part flags) u false)
      else
        let s1 := writeLanes s u os
        done (fallThrough (raiseVector s1 t.core t.part flags) u false)) s

/-- The first lane of a lane's row. -/
def rowBase (i : Nat) : Nat := i / 32 * 32

/-- The source lane of SHFL, where it is valid (R120). -/
def shflSource (kind : ShflKind) (team : Bool) (n i d : Nat) : Option Nat :=
  let b := rowBase i
  match kind with
  | .idx => if team then (if d < n then some d else none) else if d < 32 then some (b + d) else none
  | .up => if d ≤ i ∧ (if team then 0 else b) ≤ i - d then some (i - d) else none
  | .down => if i + d < (if team then n else b + 32) then some (i + d) else none
  | .xor =>
    if team then (if i ^^^ (d % 1024) < n then some (i ^^^ (d % 1024)) else none) else some (i ^^^ (d % 32))

/-- SHFL (R120). -/
def execShfl (kind : ShflKind) (team : Bool) (d a b : VReg) (s : State) : Out :=
  crossOp { noAccess with rv := [v1 a, v1 b], wv := [v1 d], lat := 6, vector := true } team
    (fun t => (lanesOf t).map fun i =>
      (i, lregs [(ef t d, vreg t ((shflSource kind team t.lanes i (vnat t i b)).getD i) (ef t a))])) s

/-- The ballot word of a row: the active lanes where the predicate holds (R122). -/
def ballotWord (t : Team) (q : Nat → Bool) (row : Nat) : Nat :=
  (List.range 32).foldl (fun a j =>
    if 32 * row + j < t.lanes && laneActive t.flow (32 * row + j) && q (32 * row + j) then a + 2 ^ j else a) 0

/-- What VOTE writes in an active lane (R122). -/
def voteLane (kind : VoteKind) (team : Bool) (t : Team) (d : VReg) (q : Nat → Bool) (i : Nat) : LaneOut :=
  let ext := (lanesOf t).filter fun j => team || rowBase j == rowBase i
  let p := fun (b : Bool) => LaneOut.mk [] [(d.toNat % 8, b)] FlagSet.none
  match kind with
  | .all => p (ext.all q)
  | .any => p (ext.any q)
  | .uni => p (ext.all q || ext.all (fun j => !q j))
  | .ballot => lregs [(ef t d, BitVec.ofNat 32 (ballotWord t q (if team then i % 32 else i / 32)))]

/-- VOTE (R122): the predicate forms name their predicate in bits 2:0 of the destination field. -/
def execVote (kind : VoteKind) (team : Bool) (d : VReg) (q : PReg) (neg : Bool) (s : State) : Out :=
  let bal := kind == .ballot
  crossOp { noAccess with
      rp := [q.toNat], wv := if bal then [v1 d] else [], wp := if bal then [] else [d.toNat % 8], lat := 6, vector := true }
    team
    (fun t => (lanesOf t).map fun i => (i, voteLane kind team t d (fun j => xor (preg t j q.toNat) neg) i)) s

/-- The identity of a reduction (R80). -/
def rdxIdentity : RdxOp → Nat
  | .iadd => 0
  | .imin => 0x7FFFFFFF
  | .imax => 0x80000000
  | .nmin => 0xFFFFFFFF
  | .nmax => 0
  | .fadd => 0x80000000
  | .fmin => 0x7F800000
  | .fmax => 0xFF800000

/-- One combination of a reduction (R123), the lower position on the left. -/
def rdxStep (op : RdxOp) (a b : Nat) : Nat × FlagSet :=
  let pick := fun (c : Bool) => plainBits (if c then a else b)
  match op with
  | .iadd => plainBits ((a + b) % 2 ^ 32)
  | .imin => pick (decide (toSigned 32 a ≤ toSigned 32 b))
  | .imax => pick (decide (toSigned 32 b ≤ toSigned 32 a))
  | .nmin => pick (decide (a ≤ b))
  | .nmax => pick (decide (b ≤ a))
  | .fadd => deliver fmtF32 .rne false (fvAdd .rne (fval fmtF32 a) (fval fmtF32 b))
  | .fmin => fmnxVal false false fmtF32 a b
  | .fmax => fmnxVal true false fmtF32 a b

/-- One level of the tree: neighbours combine (R80). -/
def pairUp (op : RdxOp) : List Nat → List Nat × FlagSet
  | a :: b :: l =>
    let r := rdxStep op a b
    let rest := pairUp op l
    (r.1 :: rest.1, flagOr r.2 rest.2)
  | l => (l, FlagSet.none)

/-- The tree over 32 positions (R80). -/
def rdxTree (op : RdxOp) : Nat → List Nat → Nat × FlagSet
  | 0, l => (l.headD (rdxIdentity op), FlagSet.none)
  | n + 1, l =>
    let p := pairUp op l
    let r := rdxTree op n p.1
    (r.1, flagOr p.2 r.2)

/-- The reduction of a row (R80): every inactive lane supplies the identity. -/
def rdxRow (op : RdxOp) (t : Team) (a row : Nat) : Nat × FlagSet :=
  rdxTree op 5 ((List.range 32).map fun j =>
    let i := 32 * row + j
    if i < t.lanes && laneActive t.flow i then (vreg t i a).toNat else rdxIdentity op)

/-- The results of RDX: one for each row that has an active lane, or one for the team (R80, R123). -/
def rdxOuts (op : RdxOp) (team : Bool) (d a : VReg) (t : Team) : List (Nat × LaneOut) :=
  let rows := (List.range 32).map fun w => if w < t.lanes / 32 then rdxRow op t (ef t a) w else plainBits (rdxIdentity op)
  if team then
    let r := rdxTree op 5 (rows.map (·.1))
    let fl := flagOr (flagAll (rows.map (·.2))) r.2
    (lanesOf t).map fun i => (i, lflag (ef t d) (r.1, fl))
  else (lanesOf t).map fun i => (i, lflag (ef t d) (nth (plainBits 0) rows (i / 32)))

/-- RDX (R123). -/
def execRdx (op : RdxOp) (team : Bool) (d a : VReg) (s : State) : Out :=
  crossOp { noAccess with rv := [v1 a], wv := [v1 d], lat := 8, vector := true } team (rdxOuts op team d a) s

/-- The fold of a scan (R81): the lanes still to visit, and the fold so far, none before the first active lane. -/
def scanFold (op : RdxOp) (excl : Bool) (r : Nat) (val : Nat → Nat) : Option Nat → List Nat → List (Nat × LaneOut)
  | _, [] => []
  | acc, i :: is =>
    let o := match acc with
      | none => plainBits (val i)
      | some x => rdxStep op x (val i)
    let out := if excl then acc.getD (rdxIdentity op) else o.1
    (i, lflag r (out, o.2)) :: scanFold op excl r val (some o.1) is

/-- The results of SCAN, row by row or over the team (R124). In .excl the last step of an extent is not part of any result. -/
def scanOuts (op : RdxOp) (team excl : Bool) (d a : VReg) (t : Team) : List (Nat × LaneOut) :=
  let val := fun (i : Nat) => (vreg t i (ef t a)).toNat
  let quiet := fun (l : List (Nat × LaneOut)) =>
    if excl then
      match l.getLast? with
      | some e => l.dropLast ++ [(e.1, { e.2 with flags := FlagSet.none })]
      | none => l
    else l
  if team then quiet (scanFold op excl (ef t d) val none (lanesOf t))
  else ((List.range 32).map fun w =>
    quiet (scanFold op excl (ef t d) val none ((lanesOf t).filter fun i => i / 32 == w))).flatten

/-- SCAN (R124): it reads its destination's old value where a lane is inactive (R106). -/
def execScan (op : RdxOp) (team excl : Bool) (d a : VReg) (s : State) : Out :=
  crossOp { noAccess with rv := [v1 a, v1 d], wv := [v1 d], lat := 8, vector := true } team (scanOuts op team excl d a) s

/-- The lane of its row that LMOV reads for position `j` (R121). -/
def lmovFrom (kind : LmovKind) (j n : Nat) : Nat :=
  match kind with
  | .bcast => n
  | .rot => (j + n) % 32
  | .swap => j ^^^ n

/-- LMOV (R121): the amount comes from the lowest active lane of the row. -/
def execLmov (kind : LmovKind) (d a b : VReg) (s : State) : Out :=
  crossOp { noAccess with rv := [v1 a, v1 b], wv := [v1 d], lat := 6, vector := true } false
    (fun t => (lanesOf t).map fun i =>
      let low := ((lanesOf t).find? (fun j => rowBase j == rowBase i)).getD i
      let n := vnat t low b % 32
      (i, lregs [(ef t d, vreg t (rowBase i + lmovFrom kind (i - rowBase i) n) (ef t a))])) s

end Sys2Proof.Machine
end

