-- ==== Sys2Proof/Machine/Uniform.lean ====
section
/-! DEFINITION. The uniform instructions and the special values (05 R98-R104, 13 R258, R263). -/

namespace Sys2Proof.Machine

/-- The access of a K3 instruction. -/
def accK3 (d a : KReg) (b : BitVec 7) (lat : Nat) : Access :=
  { noAccess with rk := [(a.toNat, 1), (b.toNat, 1)], wk := [(d.toNat, 1)], lat := lat }

/-- A K3 instruction of fixed latency: kd := f ka kb7 (R98, R99). -/
def k3Op (d a : KReg) (b : BitVec 7) (lat : Nat) (f : W64 → W64 → W64) (s : State) : Out :=
  uniformOp (accK3 d a b lat) d (fun _ t => f (kreg t a.toNat) (kreg t b.toNat)) s

/-- KADD (R99). -/
def execKadd (d a : KReg) (b : BitVec 7) (s : State) : Out := k3Op d a b 2 (· + ·) s

/-- KSUB (R99). -/
def execKsub (d a : KReg) (b : BitVec 7) (s : State) : Out := k3Op d a b 2 (· - ·) s

/-- KMUL (R99): bits 63:0 of the product. -/
def execKmul (d a : KReg) (b : BitVec 7) (s : State) : Out := k3Op d a b 4 (· * ·) s

/-- KAND (R99). -/
def execKand (d a : KReg) (b : BitVec 7) (s : State) : Out := k3Op d a b 2 (· &&& ·) s

/-- KOR (R99). -/
def execKor (d a : KReg) (b : BitVec 7) (s : State) : Out := k3Op d a b 2 (· ||| ·) s

/-- KXOR (R99). -/
def execKxor (d a : KReg) (b : BitVec 7) (s : State) : Out := k3Op d a b 2 (· ^^^ ·) s

/-- KSHL (R99): by kb7 5:0. -/
def execKshl (d a : KReg) (b : BitVec 7) (s : State) : Out := k3Op d a b 2 (fun x y => x <<< (y.toNat % 64)) s

/-- KSHR (R99): zero fill. -/
def execKshr (d a : KReg) (b : BitVec 7) (s : State) : Out := k3Op d a b 2 (fun x y => x >>> (y.toNat % 64)) s

/-- KSRA (R99): sign fill. -/
def execKsra (d a : KReg) (b : BitVec 7) (s : State) : Out := k3Op d a b 2 (fun x y => x.sshiftRight (y.toNat % 64)) s

/-- KMIN (R99): signed. -/
def execKmin (d a : KReg) (b : BitVec 7) (s : State) : Out := k3Op d a b 2 (fun x y => if x.sle y then x else y) s

/-- KMAX (R99): signed. -/
def execKmax (d a : KReg) (b : BitVec 7) (s : State) : Out := k3Op d a b 2 (fun x y => if x.sle y then y else x) s

/-- A uniform result of variable latency: it is outstanding until it is written back (R48). -/
def kLater (s : State) (u n : Nat) (w : W64) : State :=
  modTeam s u fun t => { t with pend := t.pend ++ [⟨false, [.k n], [], [], some (n, w), none, [], 0, none, [], []⟩] }

/-- KDIV (R99): the signed quotient of R89, of variable latency. -/
def execKdiv (d a : KReg) (b : BitVec 7) (s : State) : Out :=
  issueOp (accK3 d a b 0) (fun s u t =>
    let q := (divide 64 false (kreg t a.toNat).toNat (kreg t b.toNat).toNat).1
    done (fallThrough (kLater s u d.toNat (BitVec.ofNat 64 q)) u false)) s

/-- KLI (R100): the signed combined immediate. -/
def execKli (d : KReg) (imm : BitVec 16) (h : ImmHints) (s : State) : Out :=
  uniformOp { noAccess with wk := [(d.toNat, 1)], lat := 2 } d
    (fun _ _ => BitVec.ofInt 64 (immSigned 16 imm.toNat h)) s

/-- KADDI (R100). -/
def execKaddi (d : KReg) (imm : BitVec 16) (h : ImmHints) (s : State) : Out :=
  uniformOp { noAccess with rk := [(d.toNat, 1)], wk := [(d.toNat, 1)], lat := 2 } d
    (fun _ t => kreg t d.toNat + BitVec.ofInt 64 (immSigned 16 imm.toNat h)) s

/-- KLUI (R100): bits 47:0 stay. -/
def execKlui (d : KReg) (imm : BitVec 16) (s : State) : Out :=
  uniformOp { noAccess with rk := [(d.toNat, 1)], wk := [(d.toNat, 1)], lat := 2 } d
    (fun _ t => BitVec.ofNat 64 ((kreg t d.toNat).toNat % 2 ^ 48 + imm.toNat * 2 ^ 48)) s

/-! ## Special values (R101, R102) -/

/-- The groups a team belongs to, ascending (R255, R258): launch teams alone are members. -/
def groupsOf (s : State) (t : Team) : List Group :=
  if t.kind = .launch then
    (teamKernel s t).groups.filter fun g => g.ranges.any fun r => decide (r.1 ≤ t.id) && decide (t.id ≤ r.2)
  else []

/-- sv.groups (R102). -/
def svGroups (s : State) (t : Team) : Nat :=
  ((groupsOf s t).take 4).zipIdx.foldl (fun a e => a + e.1.num * 2 ^ (8 * e.2) + 2 ^ (32 + e.2)) 0

/-- sv.bolt (R102, R263): zero for a team of no bolt. -/
def svBolt (s : State) (t : Team) : Nat :=
  match (groupsOf s t).find? (·.bolt) with
  | none => 0
  | some g =>
    let rank := (t.boltCores.filter (fun c => decide (c < t.core))).length
    g.num + 2 ^ 8 + rank * 2 ^ 9 + (t.boltCores.length - 1) * 2 ^ 11

/-- sv.fault (R102). -/
def svFaultWord (f : SvFault) : Nat := f.cause + (if f.fv then 2 ^ 8 else 0) + f.slot * 2 ^ 32

/-- The width of a special value (R101). -/
def svWide : Sv → Bool
  | .time | .launch | .groups | .flags | .fault => true
  | _ => false

/-- A special value; `lane` is the lane a vector destination reads it for (R101, R104). -/
def svValue (s : State) (t : Team) (sv : Sv) (lane : Nat) : Nat :=
  match sv with
  | .lane => if t.bounds then (tileOf t lane).g else lane
  | .row => if t.bounds then tileCode (tileOf t lane) else lane / 32
  | .team => t.id
  | .core => t.core
  | .part => t.part
  | .pair => t.core / 2
  | .cluster => t.core / 16
  | .die => t.core / 80
  | .dev => s.mgmt.devnum
  | .time => s.mgmt.time
  | .launch => (teamKernel s t).slot + (teamKernel s t).qnum * 2 ^ 32
  | .groups => svGroups s t
  | .bolt => svBolt s t
  | .flags => flagsWord (getCore s t.core) t.part
  | .fault => svFaultWord t.svFault

/-- MOVS (R101): to a uniform register, or to a vector register or pair in each active lane. -/
def execMovs (vec : Bool) (d : KReg) (sv : Sv) (s : State) : Out :=
  if vec then
    let f : VReg := BitVec.ofNat 7 d.toNat
    vecOp { noAccess with wv := [if svWide sv then v2 f else v1 f], lat := 2, vector := true }
      (fun t i =>
        let w := svValue s t sv i
        lregs (if svWide sv then pairOut (ef t f) w else [(ef t f, BitVec.ofNat 32 w)])) none s
  else
    uniformOp { noAccess with wk := [(d.toNat, 1)], lat := 2 } d (fun s t => BitVec.ofNat 64 (svValue s t sv 0)) s

end Sys2Proof.Machine
end

