-- ==== Sys2Proof/Machine/Access.lean ====
section
/-! DEFINITION. Memory operands and accesses (08 R155-R166, R176): addresses, their checks and translation, the walk a team
waits for (19 R364), reading a block through L1 and the pound (R162, 21 R394), and entering stores into the region log
(07 R150, 10 R209). -/

namespace Sys2Proof.Machine

/-- The bytes of a width. -/
def widthBytes : Width → Nat
  | .b8 => 1
  | .b16 => 2
  | .b32 => 4
  | .b64 => 8

/-! ## Addresses (R156, R157) -/

/-- The address of a lane of a global access. -/
def globalAddr (t : Team) (a : VReg) (b : BitVec 7) (disp : Int) (lane : Nat) : Nat :=
  let off : Int :=
    if a = 0#7 then 0
    else if b = 0#7 then (vnat64 t lane a : Int)
    else toSigned 32 (vnat t lane a)
  wrapNat 64 ((kregAt t lane b.toNat).toNat + off + disp)

/-- The address of a lane of a scratchpad access. -/
def spadAddr (t : Team) (m : MArgs) (lane : Nat) : Nat :=
  let off : Int := if m.a = 0#7 then 0 else toSigned 32 (vnat t lane m.a)
  wrapNat 64 ((kregAt t lane m.b.toNat).toNat + off + dispOf m.imm)

/-- The lane offset as a register use: none for field 0, a pair for a global access with base 0. -/
def offUse (global : Bool) (a : VReg) (b : BitVec 7) : List VUse :=
  if a = 0#7 then [] else if global && b == 0#7 then [v2 a] else [v1 a]

/-- The data register of a width. -/
def dataUse (w : Width) (r : VReg) : VUse := if w = .b64 then v2 r else v1 r

/-- One lane's address. -/
structure LaneAddr where
  lane : Nat
  addr : Nat
  deriving DecidableEq, Repr

/-- One lane's address and the place it translates to. -/
structure Touch where
  lane : Nat
  addr : Nat
  place : Place
  leaf : Nat
  deriving DecidableEq, Repr

/-- What the checks of a global access come to (R176): every lane's place, pages that need a walk, or the first fault. -/
inductive Checked where
  | ok (l : List Touch)
  | walk (pages : List Nat)
  | fault (cause lane addr : Nat)
  deriving DecidableEq, Repr

/-- The alignment and range causes of an address (R157). -/
def addrCause (w a : Nat) : Option Nat := if a % w ≠ 0 then some 0x60 else if 2 ^ 56 ≤ a then some 0x61 else none

/-- A lane's translation through the caches of the team's die; a page whose walk found nothing is absent. -/
def laneXlate (s : State) (t : Team) (a : Nat) (n : Need) : Xlate :=
  match xlateCached s (dieOf t.core) t.ctx a n with
  | .miss => if t.walked.any (fun e => e.1 == a / 65536 && e.2) then .bad 0x01 else .miss
  | x => x

/-- The first lane that meets one of the precise stops, or else one of the replayable faults. -/
def firstCause (l : List (LaneAddr × Option Nat)) (hard : Bool) : Option (LaneAddr × Nat) :=
  l.findSome? fun e =>
    match e.2 with
    | some c => if (c == 0x60 || c == 0x61 || c == 0x64) == hard then some (e.1, c) else none
    | none => none

/-- Checks every lane of a global access (R176): within each step the lowest lane decides. -/
def checkLanes (s : State) (t : Team) (w : Nat) (n : Need) (lanes : List LaneAddr) : Checked :=
  let early := lanes.takeWhile fun e => (addrCause w e.addr).isNone
  let unknown := dedupNat ((early.filter fun e => laneXlate s t e.addr n == .miss).map fun e => pageKey s t.ctx e.addr)
  if !unknown.isEmpty then .walk unknown
  else
    let causes := lanes.map fun e =>
      (e, match addrCause w e.addr with
        | some c => some c
        | none =>
          match laneXlate s t e.addr n with
          | .bad c => some c
          | _ => none)
    match firstCause causes true with
    | some (e, c) => .fault c e.lane e.addr
    | none =>
      match firstCause causes false with
      | some (e, c) => .fault c e.lane e.addr
      | none => .ok (lanes.filterMap fun e =>
        match laneXlate s t e.addr n with
        | .ok p leaf => some ⟨e.lane, e.addr, p, leaf⟩
        | _ => none)

/-- A team waits for walks of a die's scheduler: one batch holds each distinct page that the die does not hold (R364). -/
def requestWalkAt (s : State) (die u : Nat) (pages : List Nat) : State :=
  let w := nth Walker.reset s.walkers die
  let s1 := { s with walkers := setAt s.walkers die { w with batches := w.batches ++ [⟨u, (getTeam s u).ctx, pages, 0, false⟩] } }
  waitFor s1 u .walk

/-- A team waits for walks of its own die. -/
def requestWalk (s : State) (u : Nat) (pages : List Nat) : State := requestWalkAt s (dieOf (getTeam s u).core) u pages

/-- Of some pages, those that a die does not hold and that no walk of the team has found absent (R364). -/
def pagesUnknown (s : State) (die : Nat) (t : Team) (pages : List Nat) : List Nat :=
  dedupNat (pages.filter fun p =>
    (tlbFind s die t.ctx (p * 65536)).isNone && !(t.walked.any fun e => e.1 == p && e.2))

/-- Goes on with the places of a checked access, or waits for its walks, or takes its fault; `un` is for a uniform
instruction, whose record names no lane. -/
def withChecked (s : State) (u : Nat) (c : Checked) (un : Bool) (k : List Touch → Out) : Out :=
  match c with
  | .ok l => k l
  | .walk pages => done (requestWalk s u pages)
  | .fault cause lane a => done (teamFault s u cause (if un then none else some lane) a)

/-! ## Reading (R151, R160, R162) -/

/-- Bytes with the team's own region log on top: its zeroed blocks, then its sectors (R151, R175). -/
def logOverlay (t : Team) : Nat → List Byte → List Byte
  | _, [] => []
  | a, b :: bs =>
    (match find? t.log a with
      | some x => x
      | none => if t.zeros.contains (a / 256) then 0#8 else b) :: logOverlay t (a + 1) bs

/-- The bytes that the team's own log supplies for a range. -/
def logSupply (t : Team) (a n : Nat) : List (Option Byte) :=
  (rangeFrom a n).map fun x =>
    match find? t.log x with
    | some b => some b
    | none => if t.zeros.contains (x / 256) then some 0#8 else none

/-- A response of a home slice carries the largest timestamp it has performed (R392). -/
def hearSlice (s : State) (core b : Nat) : State :=
  let ts := tabGet 0 s.sliceClock (homeSlice b)
  if (getCore s core).clock < ts then modCore s core fun c => { c with clock := ts } else s

/-- The banks, over all stacks, that the run of a block lies in; none where the pound answers. -/
def blockBanks (s : State) (b : Nat) : List Nat :=
  let m := metaOf s b
  if m.len = 0 || inPound s b then [] else (runBanks m.run m.len).map fun k => m.run / 2 ^ 31 * 2048 + k

/-- A read of a device block for a core goes through its L1 line, or the pound (R18, R162, R438) (log 19, DESIGN CHOICE). -/
def throughCaches (s : State) (core : Nat) (pol : Pol) (va b : Nat) : State :=
  let hit := (getCore s core).l1.contains (va / 256) && polL1 pol
  let s1 := if (metaOf s b).poison then s else l1Keep s core (va / 256) pol true
  if hit then s1 else hearSlice (poundKeep (activate s1 b) b false pol) core b

/-- A read of `n` bytes at a place other than a peer's, by `reads` from the number of its memory's first granule, its address and what stands
there (R386, R394): the state, the bytes, and whether the block is poisoned (R177). -/
def placeReadBy (s : State) (core : Nat) (pol : Pol) (va n : Nat) (p : Place)
    (reads : State → Nat → Nat → List Byte → State × List Byte) : State × List Byte × Bool :=
  match p with
  | .dev k =>
    match reads (throughCaches s core pol va (k / 256)) 0 k (memBytes s.mem k n) with
    | (s1, bs) => (s1, bs, (metaOf s (k / 256)).poison)
  | .host a =>
    match reads s hostGrains a (memBytes s.hostMem a n) with
    | (s1, bs) => (s1, bs, false)
  | q => (s, placeBytes s q n, false)

/-- A read of a lane of a team at a place other than a peer's. A host window is read at once, in whatever state the host port is (log 70,
DESIGN CHOICE). -/
def placeRead (s : State) (u lane : Nat) (pol : Pol) (va n : Nat) (p : Place) : State × List Byte × Bool :=
  placeReadBy s (getTeam s u).core pol va n p fun s first a now => laneReads s u lane first a now

/-- A loaded value as the register bits of its width (R160): sign-extended or zero-extended. -/
def loadVal (w : Width) (sx : Bool) (bs : List Byte) : Nat :=
  let n := natOf bs
  match w with
  | .b64 => n
  | _ => if sx then wrapNat 32 (toSigned (8 * widthBytes w) n) else n

/-- What a load writes in a lane. -/
def loadOut (w : Width) (r v : Nat) : List (Nat × W32) :=
  if w = .b64 then pairOut r v else [(r, BitVec.ofNat 32 v)]

/-- The gather packets of some lanes of one stack, as their blocks and addresses: a packet's base is its lowest address, and a lane
that lies more than 2^31 bytes from it goes into another. Those are counted of which some block misses in the pound (R163). -/
def stackPackets (s : State) : Nat → List (Nat × Nat) → Nat
  | 0, _ => 0
  | fuel + 1, l =>
    match l with
    | [] => 0
    | x :: _ =>
      let base := l.foldl (fun m e => min m e.2) x.2
      let near := fun (e : Nat × Nat) => decide (e.2 ≤ base + 2 ^ 31)
      (if l.any (fun e => near e && !(inPound s e.1)) then 1 else 0) + stackPackets s fuel (l.filter fun e => !(near e))

/-- The gather packets of a row that the base dies must expand (R163, R435): a row that touches at most two blocks sends none. -/
def rowPackets (s : State) (l : List Touch) : Nat :=
  if (dedupNat (l.map fun e => e.addr / 256)).length ≤ 2 then 0
  else
    let keys := l.filterMap fun e =>
      match e.place with
      | .dev k => some (k / 256, e.addr)
      | _ => none
    (List.range 8).foldl (fun a k => a + stackPackets s 32 (keys.filter fun e => homeStack e.1 == k)) 0

/-- The gather packets of a load. -/
def packetsOf (s : State) (l : List Touch) : Nat :=
  (List.range 32).foldl (fun a w => a + rowPackets s (l.filter fun e => e.lane / 32 == w)) 0

/-- A load in progress: the state, and what has been read so far. -/
structure Reading where
  s : State
  writes : List PendWrite
  fault : Option DataFault
  peers : List Nat
  deriving DecidableEq, Repr

/-- The bytes a log supplies, when it supplies all of a range. -/
def logAll (t : Team) (a n : Nat) : Option (List Byte) := (logSupply t a n).mapM id

/-- Reads the data of one lane (R160), from the team's own log where it holds every byte; a peer's data is asked for. -/
def readLane (u : Nat) (t : Team) (w : Width) (pol : Pol) (sx : Bool) (r : Nat) (g : Reading) (e : Touch) : Reading :=
  let n := widthBytes w
  let put := fun (g : Reading) (bs : List Byte) =>
    { g with writes := g.writes ++ (loadOut w r (loadVal w sx bs)).map fun x => ⟨e.lane, x.1, x.2⟩ }
  match logAll t e.addr n with
  | some bs => put g bs
  | none =>
    match e.place with
    | .peer slot a =>
      match sendPeer g.s u t.ctx slot e.addr a ⟨false, logSupply t e.addr n, none, [e.lane], some r, n, sx⟩ with
      | (s1, id) => { g with s := s1, peers := g.peers ++ [id] }
    | p =>
      match placeRead g.s u e.lane pol e.addr n p with
      | (s1, bs, poison) =>
        if poison then { g with s := s1, fault := g.fault.or (some ⟨0x63, some e.lane, e.addr, 0⟩) }
        else put { g with s := s1 } (logOverlay t e.addr bs)

/-- The banks that a load needs: those of the blocks that neither L1 nor the pound holds. -/
def loadBanks (s : State) (core : Nat) (pol : Pol) (l : List Touch) : List Nat :=
  dedupNat (l.map fun e =>
    match e.place with
    | .dev k => if (getCore s core).l1.contains (e.addr / 256) && polL1 pol then [] else blockBanks s (k / 256)
    | _ => []).flatten

/-- The device blocks that a load reads, which enter the caches once the banks have served them (R437). -/
def loadKeeps (l : List Touch) (pol : Pol) : List (Nat × Nat × Pol) :=
  (l.filterMap fun e =>
    match e.place with
    | .dev k => some (e.addr / 256 * 256, k / 256, pol)
    | _ => none).eraseDups

/-- A load that a bank has answered with a retry leaves the caches and the rows of the stacks as they were (R437). -/
def uncached (s0 s : State) (core : Nat) : State :=
  let c := getCore s0 core
  modCore { s with pound := s0.pound, stks := s0.stks } core fun k =>
    { k with l1 := c.l1, l1Last := c.l1Last, l1Early := c.l1Early }

/-- THE ISSUE OF A GLOBAL LOAD (R160): its data is read, and its results are outstanding until LOAD_RETURN. A load whose data
is poisoned or comes from a peer holds its team until it returns, so that nothing after it has run if it stops; one that meets a busy bank
is issued again by the pound (R437) (log 14, DESIGN CHOICE). -/
def globalLoad (s : State) (u : Nat) (t : Team) (w : Width) (pol : Pol) (sx : Bool) (d : VReg) (l : List Touch) : Out :=
  let r := ef t d
  let banks := loadBanks s t.core pol l
  let s0 := banks.foldl serveAt s
  let retry := banksBusy s0 banks
  let gather := packetsOf s0 l
  let g := l.foldl (readLane u t w pol sx r) ⟨s0, [], none, []⟩
  let regs := (vUseRegs t.flow.x (dataUse w d)).map RegRef.v
  let p : Pending := ⟨true, regs, g.writes, [], none, g.fault, g.peers, gather, retry, banks, if retry.isNone then [] else loadKeeps l pol⟩
  let s1 := modTeam (if retry.isNone then g.s else uncached s0 g.s t.core) u fun t' => { t' with pend := t'.pend ++ [p] }
  if g.fault.isNone && g.peers.isEmpty then done (fallThrough s1 u false) else done (waitFor s1 u .load)

/-! ## The region log (R150, R161, R209) -/

/-- One store of a lane: the bytes it writes at an address. -/
structure LaneStore where
  lane : Nat
  addr : Nat
  bytes : List Byte
  leaf : Nat
  deriving DecidableEq, Repr

/-- The sectors a region's log would hold with more stores (R150). -/
def logWith (t : Team) (l : List LaneStore) : Nat :=
  (dedupNat (t.log.map (fun e => e.1 / 32) ++ l.map fun e => e.addr / 32)).length + t.zeros.length

/-- Debits the blocks that stores write for the first time in the region, in lane order; the first store whose debit is not
covered, if any (R161, R209, R212). -/
def debitStores (u : Nat) : State → List LaneStore → State × Option LaneStore
  | s, [] => (s, none)
  | s, e :: es =>
    let t := getTeam s u
    if !leafDebits e.leaf || t.debited.contains (e.addr / 256) then debitStores u s es
    else
      match debit8 s (.core t.core) t.ctx with
      | (s1, false) => (s1, some e)
      | (s1, true) => debitStores u (modTeam s1 u fun t => { t with debited := t.debited ++ [e.addr / 256] }) es

/-- Writes bytes into the log: later stores overwrite earlier ones (R150). -/
def logPut (log : List (Nat × Byte)) (a : Nat) (bs : List Byte) : List (Nat × Byte) :=
  (bs.zipIdx a).foldl (fun l e => tabPut l e.2 e.1) log

/-- The policy that the last store to a block names (R162). -/
def polPut (l : List (Nat × Pol)) (b : Nat) (pol : Pol) : List (Nat × Pol) :=
  if pol = .l1 then tabErase l b else tabPut l b pol

/-- THE ENTRY OF STORES INTO THE REGION LOG (R150, R161, R176): 0x4C when their entries do not fit, 0x20 when a debit is not
covered, and otherwise every byte, lanes ascending. -/
def logStores (s : State) (u : Nat) (un : Bool) (pol : Pol) (l : List LaneStore) (k : State → Out) : Out :=
  let t := getTeam s u
  let name := fun (e : LaneStore) => if un then none else some e.lane
  if t.logSize / 64 < logWith t l then
    match l with
    | [] => k s
    | e :: _ => done (teamStopWith s u 0x4C (name e) e.addr (logEntries t) 0 0)
  else
    match debitStores u s l with
    | (s1, some e) => done (teamReplay s1 u 0x20 (name e) e.addr)
    | (s1, none) =>
      k (modTeam s1 u fun t => { t with
        log := l.foldl (fun g e => logPut g e.addr e.bytes) t.log
        pols := l.foldl (fun g e => polPut g (e.addr / 256) pol) t.pols })

end Sys2Proof.Machine
end

