-- ==== Sys2Proof/Machine/Memory.lean ====
section
/-! DEFINITION. Loads, stores and cache operations (08 R160-R166, R174-R178), with their interval rules (18 R343, R344,
R346). -/

namespace Sys2Proof.Machine

/-- The registers of an M-format instruction: its data register is read, written or both. -/
def accM (global : Bool) (w : Width) (m : MArgs) (read write : Bool) : Access :=
  { noAccess with
    rv := offUse global m.a m.b ++ (if read then [dataUse w m.t] else []), wv := if write then [dataUse w m.t] else []
    rk := [(m.b.toNat, 1)], vector := true }

/-- The lane addresses of the active lanes. -/
def globalLanes (t : Team) (a : VReg) (b : BitVec 7) (h : ImmHints) : List LaneAddr :=
  (lanesOf t).map fun i => ⟨i, globalAddr t a b (dispOf h) i⟩

/-- In interval mode the tile of every active lane becomes undecided (R343). -/
def undecideActive (s : State) (u : Nat) : Out := done (ivNext (ivApply s u (getTeam s u) (fun _ _ => ilUndec)) u)

/-! ## Interval forms -/

/-- What LD and LDS write in interval mode: no access is made (R343) (log 34, DEDUCED). -/
def ivLoad (w : Width) (sx : Bool) (d : VReg) (t : Team) (_ : Nat) : ILane :=
  let r := ef t d
  let narrow := fun (n : Nat) =>
    if sx then ilRegs [outInt true r (loOf true n) (hiOf true n) none] else ilRegs [outInt false r 0 (hiOf false n) none]
  match w with
  | .b8 => narrow 8
  | .b16 => narrow 16
  | .b32 => ilRegs [outFull r]
  | .b64 => ilRegs [outFull r, outFull (r + 1)]

/-- The node of a tile in its summary record (R344). -/
def summaryNode (x : TileId) : Nat :=
  let q := fun i => field x.path (2 * i) 2
  match x.depth with
  | 0 => 0
  | 1 => 1 + q 0
  | 2 => 5 + 4 * q 0 + q 1
  | _ => 21 + 16 * q 0 + 4 * q 1 + q 2

/-- The address of the summary entry of a lane's tile, when F is one that R344 allows. -/
def summaryAddr (s : State) (m : MArgs) (t : Team) (i : Nat) : Option Nat :=
  let f := dispOf m.imm
  let x := tileOf t i
  if f % 1024 ≠ 0 ∨ f < 0 ∨ 7168 < f then none
  else some ((teamKernel s t).summ + 8192 * x.g + f.toNat + 8 * summaryNode x)

/-- The silent read of a lane's entry of a summary record, with the .l1 policy: none where it meets a fault (R344). -/
def summaryRead (s : State) (u : Nat) (a : Nat) : State × Option Nat :=
  let t := getTeam s u
  match xlateWalk s t.ctx a .load with
  | .ok (.peer _ _) _ => (s, match askedOf t a 8 with | .got bs => some (natOf bs) | _ => none)
  | .ok p _ =>
    match placeReadBy s t.core .l1 a 8 p fun s first a now => silentReads s u first a now with
    | (s1, bs, poison) => (s1, if poison then none else some (natOf bs))
  | _ => (s, none)

/-- The entries that the active lanes of an LDB read, lanes ascending (R344). -/
def summaryReads (s : State) (u : Nat) (m : MArgs) (t : Team) : State × List (Nat × Nat) :=
  (lanesOf t).foldl (fun g i =>
    match summaryAddr s m t i with
    | none => g
    | some a =>
      match summaryRead g.1 u a with
      | (s1, none) => (s1, g.2)
      | (s1, some e) => (s1, g.2 ++ [(i, e)])) (s, [])

/-- The entries in peer windows that an LDB has yet to hear of, with their slots and peer addresses (R344). -/
def summaryAsks (s : State) (m : MArgs) (t : Team) : List (Nat × Nat × Nat) :=
  (lanesOf t).filterMap fun i =>
    match summaryAddr s m t i with
    | none => none
    | some a =>
      match xlateWalk s t.ctx a .load with
      | .ok (.peer slot x) _ => if askedOf t a 8 = .unasked ∨ askedOf t a 8 = .waits then some (a, slot, x) else none
      | _ => none

/-- The pages that an LDB's summary entries lie in (R344, R364). -/
def summaryPages (s : State) (m : MArgs) (t : Team) : List Nat :=
  ((lanesOf t).filterMap (summaryAddr s m t)).filterMap fun a => if a < 2 ^ 56 then some (pageKey s t.ctx a) else none

/-- What LDB writes in interval mode from the entries its lanes have read (R344): an end that is NaN bounds nothing and makes NaN possible
(log 34, DEDUCED). -/
def ivSummary (w : Width) (m : MArgs) (es : List (Nat × Nat)) (t : Team) (i : Nat) : ILane :=
  let r := ef t m.t
  let full := if w = .b64 then ilRegs [outFull r, outFull (r + 1)] else ilRegs [outFull r]
  match find? es i with
  | none => full
  | some e =>
    let lo := e % 2 ^ 32
    let hi := e / 2 ^ 32
    if w = .b64 then
      let l := toSigned 32 lo
      let h := toSigned 32 hi
      if h < l then full else ilRegs [outInt true r l h none, outFull (r + 1)]
    else
      let a := fval fmtF32 lo
      let b := fval fmtF32 hi
      if !isNan a && !isNan b && fvCmp a b == .gt then full
      else
        ilRegs [outF r (if isNan a then f32NegInf else lo) (if isNan b then f32PosInf else hi) (isNan a || isNan b)]

/-- The tag of a 32-bit lane offset whose sign extension is affine (R346) (log 34, DEDUCED). -/
def offTag (t : Team) (i r : Nat) : Option ATag :=
  match ivreg t i r with
  | .point => some ⟨0, 0, toSigned 32 (vreg t i r).toNat⟩
  | .iv .I _ _ _ tag => tag
  | .iv .N _ hi _ tag => if hi < 2 ^ 31 then tag else none
  | _ => none

/-- The tag of a 64-bit address in a pair (R346) (log 34, DEDUCED). -/
def pairTag (t : Team) (i r : Nat) : Option ATag :=
  match ivreg t i r with
  | .iv .W _ _ _ tag => if ivreg t i (r + 1) = .upper then tag else none
  | .point => if isPoint t i (r + 1) then some ⟨0, 0, vpair t i r⟩ else none
  | _ => none

/-- The fill a lane's ST records, when every condition of R346 holds. -/
def fillOf (s : State) (w : Width) (m : MArgs) (t : Team) (i : Nat) : Option Fill :=
  let r := ef t m.t
  let wb := widthBytes w
  let datum := isPoint t i r && (w != .b64 || isPoint t i (r + 1))
  let k : Int := (kregAt t i m.b.toNat).toNat
  let d := dispOf m.imm
  let tag : Option ATag :=
    if m.a = 0#7 then some ⟨0, 0, 0⟩ else if m.b = 0#7 then pairTag t i (ef t m.a) else offTag t i (ef t m.a)
  match tag with
  | none => none
  | some g =>
    let o : Int := wrapNat 64 (k + g.base + d)
    let b := tileBox (teamKernel s t) (tileOf t i)
    let x := g.a * ((b.h : Int) - 1)
    let y := g.b * ((b.w : Int) - 1)
    let inside := [o, o + x, o + y, o + x + y].all fun c => decide (0 ≤ c) && decide (c < 2 ^ 56)
    if datum && o % wb == 0 && g.a % wb == 0 && g.b % wb == 0 && inside && !isUnsure t i &&
        decide ((t.fills.filter fun f => f.lane == i).length < 8) then
      some ⟨i, o.toNat, g.a, g.b, wb, (if w = .b64 then vpair t i r else (vreg t i r).toNat % 2 ^ (8 * wb))⟩
    else none

/-- ST in interval mode (R346): each active lane records a fill, or its tile becomes undecided. -/
def ivStore (s : State) (u : Nat) (t : Team) (w : Width) (m : MArgs) : Out :=
  let outs := (lanesOf t).map fun i => (i, fillOf s w m t i)
  let s1 := modTeam s u fun t' => { t' with fills := t'.fills ++ outs.filterMap (·.2) }
  done (ivNext (undecideAll s1 u ((outs.filter fun e => e.2.isNone).map (·.1))) u)

/-! ## Global loads and stores -/

/-- LD in normal mode, which LDB shares (R160, R166). -/
def loadNormal (w : Width) (pol : Pol) (sx : Bool) (m : MArgs) (s : State) (u : Nat) (t : Team) : Out :=
  withChecked s u (checkLanes s t (widthBytes w) .load (globalLanes t m.a m.b m.imm)) false
    fun l => globalLoad s u t w pol sx m.t l

/-- LD (R160). -/
def execLd (w : Width) (pol : Pol) (sx : Bool) (m : MArgs) (s : State) : Out :=
  issueOp (accM true w m false true) (fun s u t =>
    if t.bounds then done (ivNext (ivApply s u t (ivLoad w sx m.t)) u) else loadNormal w pol sx m s u t) s

/-- LDB (R166, R344): in interval mode its entries are read once the walks of their pages are done (R364). -/
def execLdb (w : Width) (pol : Pol) (m : MArgs) (s : State) : Out :=
  issueOp (accM true w m false true) (fun s u t =>
    if t.bounds then
      let pages := pagesUnknown s (dieOf t.core) t (summaryPages s m t)
      let asks := summaryAsks s m t
      if !pages.isEmpty then done (requestWalk s u pages)
      else if asks.isEmpty then
        match summaryReads s u m t with
        | (s1, es) => done (ivNext (ivApply s1 u t (ivSummary w m es)) u)
      else done (askPeers s u 8 asks)
    else loadNormal w pol false m s u t) s

/-- The low bytes of a lane's data register (R160). -/
def storeBytes (w : Width) (t : Team) (r : VReg) (i : Nat) : List Byte :=
  bytesOf (widthBytes w) (if w = .b64 then vnat64 t i r else vnat t i r)

/-- ST (R160, R161): every lane is checked before anything is logged; the policy changes no value (R162). -/
def execSt (w : Width) (pol : Pol) (m : MArgs) (s : State) : Out :=
  issueOp (accM true w m true false) (fun s u t =>
    if t.bounds then ivStore s u t w m
    else
      withChecked s u (checkLanes s t (widthBytes w) .store (globalLanes t m.a m.b m.imm)) false fun l =>
        logStores s u false pol (l.map fun e => ⟨e.lane, e.addr, storeBytes w t m.t e.lane, e.leaf⟩)
          fun s1 => done (fallThrough s1 u false)) s

/-- The value of a uniform load (R165). -/
def kldVal (sx : Bool) (bs : List Byte) : W64 :=
  if sx then BitVec.ofInt 64 (toSigned (8 * bs.length) (natOf bs)) else BitVec.ofNat 64 (natOf bs)

/-- The read of a KLD whose address has been checked (R165). -/
def kldRead (pol : Pol) (wb : Nat) (sx : Bool) (a : Nat) (s : State) (u : Nat) (t : Team) (e : Touch) : Out :=
  let put := fun (s : State) (bs : List Byte) => done (fallThrough (modTeam s u fun t' => setK t' a (kldVal sx bs)) u false)
  match logAll t e.addr wb with
  | some bs => put s bs
  | none =>
    match e.place with
    | .peer slot x =>
      match sendPeer s u t.ctx slot e.addr x ⟨false, logSupply t e.addr wb, none, [], some a, wb, sx⟩ with
      | (s1, id) =>
        let p : Pending := ⟨true, [.k a], [], [], none, none, [id], 0, none, [], []⟩
        done (waitFor (modTeam s1 u fun t' => { t' with pend := t'.pend ++ [p] }) u .load)
    | p =>
      match placeRead s u 0 pol e.addr wb p with
      | (s1, bs, poison) =>
        if poison then done (teamStop s1 u 0x63 none e.addr) else put s1 (logOverlay t e.addr bs)

/-- KLD (R165): once per team; a peer's data holds the team until it comes (log 14, DESIGN CHOICE). -/
def execKld (w : Width) (pol : Pol) (sx : Bool) (a b : KReg) (h : ImmHints) (s : State) : Out :=
  issueOp { noAccess with rk := [(b.toNat, 1)], wk := [(a.toNat, 1)] } (fun s u t =>
    let wb := widthBytes w
    let va := wrapNat 64 ((kreg t b.toNat).toNat + dispOf h)
    withChecked s u (checkLanes s t wb .load [⟨0, va⟩]) true fun l =>
      match l with
      | [] => done (fallThrough s u false)
      | e :: _ => kldRead pol wb sx a.toNat (meldLanes s u) u t e) s

/-- KST (R165): logged and debited as ST is. -/
def execKst (w : Width) (pol : Pol) (a b : KReg) (h : ImmHints) (s : State) : Out :=
  issueOp { noAccess with rk := [(b.toNat, 1), (a.toNat, 1)] } (fun s u t =>
    if t.bounds then undecideActive s u
    else
      let wb := widthBytes w
      let va := wrapNat 64 ((kreg t b.toNat).toNat + dispOf h)
      withChecked s u (checkLanes s t wb .store [⟨0, va⟩]) true fun l =>
        logStores s u true pol (l.map fun e => ⟨0, va, bytesOf wb (kreg t a.toNat).toNat, e.leaf⟩)
          fun s1 => done (fallThrough (meldLanes s1 u) u false)) s

/-! ## Scratchpad -/

/-- The first cause of a scratchpad access (R157, R176): aligned to `al` bytes and within the scratchpad. -/
def spadCause (limit al n a : Nat) : Option Nat :=
  if a % al ≠ 0 then some 0x60 else if limit < a + n then some 0x62 else none

/-- The first lane whose scratchpad access faults. -/
def spadFault (limit al n : Nat) (l : List LaneAddr) : Option (LaneAddr × Nat) :=
  l.findSome? fun e => (spadCause limit al n e.addr).map fun c => (e, c)

/-- Whether a scratchpad range meets a poisoned granule (R411). -/
def spadPoisoned (c : Core) (a n : Nat) : Bool :=
  c.spadPoison.any fun g => decide (g * 16 < a + n) && decide (a < g * 16 + 16)

/-- The reads of some lanes of a team in its core's scratchpad, lanes ascending: `addrs` gives each lane's pieces of `n` bytes. -/
def spadReads (u n : Nat) (addrs : Nat → List Nat) (s : State) (lanes : List Nat) : State × List (Nat × List Byte) :=
  lanes.foldl (fun g i =>
    match (addrs i).foldl (fun (h : State × List Byte) a =>
      match spadRead h.1 u i a n with
      | (s1, bs) => (s1, h.2 ++ bs)) (g.1, []) with
    | (s1, bs) => (s1, g.2 ++ [(i, bs)])) (s, [])

/-- The addresses of the active lanes of a scratchpad access. -/
def spadLanes (t : Team) (m : MArgs) : List LaneAddr := (lanesOf t).map fun i => ⟨i, spadAddr t m i⟩

/-- LDS (R160). -/
def execLds (w : Width) (sx : Bool) (m : MArgs) (s : State) : Out :=
  issueOp (accM false w m false true) (fun s u t =>
    if t.bounds then done (ivNext (ivApply s u t (ivLoad w sx m.t)) u)
    else
      let c := getCore s t.core
      let wb := widthBytes w
      let l := spadLanes t m
      match spadFault (spgBytes c.word) wb wb l with
      | some (e, cause) => done (teamStop s u cause (some e.lane) e.addr)
      | none =>
        match l.find? (fun e => spadPoisoned c e.addr wb) with
        | some e => done (teamStop s u 0x63 (some e.lane) e.addr)
        | none =>
          match spadReads u wb (fun i => [spadAddr t m i]) s (lanesOf t) with
          | (s1, got) =>
            done (fallThrough (writeLanes s1 u (got.map fun e => (e.1, lregs (loadOut w (ef t m.t) (loadVal w sx e.2))))) u false)) s

/-- STS (R160, R161): it takes effect in the scratchpad at once, lanes ascending. -/
def execSts (w : Width) (m : MArgs) (s : State) : Out :=
  issueOp (accM false w m true false) (fun s u t =>
    if t.bounds then undecideActive s u
    else
      let wb := widthBytes w
      let l := spadLanes t m
      match spadFault (spgBytes (getCore s t.core).word) wb wb l with
      | some (e, cause) => done (teamStop s u cause (some e.lane) e.addr)
      | none =>
        done (fallThrough (l.foldl (fun s e => spadWrite s u e.lane e.addr (storeBytes w t m.t e.lane)) s) u false)) s

/-- Splits a value into 32-bit registers. -/
def splitRegs (r : Nat) : Nat → Nat → List (Nat × W32)
  | 0, _ => []
  | n + 1, v => (r, BitVec.ofNat 32 v) :: splitRegs (r + 1) n (v / 2 ^ 32)

/-- The registers an LDT destination takes (R164). -/
def ldtUse (w : Width) (f : VReg) : VUse :=
  match w with
  | .b16 => v2 f
  | .b32 => v4 f
  | _ => v1 f

/-- The memory rows that lane `i` of an LDT takes its elements from, and the element's byte offset (R164). -/
def ldtRows (t : Team) (m : MArgs) (wb i : Nat) : List Nat :=
  let j := i % 32
  (List.range 4).map fun k => spadAddr t m (rowBase i + 16 * (j / 16) + 4 * (j % 4) + k) + (j % 16) / 4 * wb

/-- LDT (R164): the addresses of every lane of a row with an active lane are checked (log 64, DESIGN CHOICE). -/
def execLdt (w : Width) (m : MArgs) (s : State) : Out :=
  issueOp { accM false .b32 m false false with wv := [ldtUse w m.t] } (fun s u t =>
    let wb := widthBytes w
    if t.bounds then
      done (ivNext (ivApply s u t (fun t _ => ilRegs ((vUseRegs t.flow.x (ldtUse w m.t)).map outFull))) u)
    else
      let c := getCore s t.core
      let rows := dedupNat ((lanesOf t).map (· / 32))
      let all := (rows.map fun r => (rangeFrom (32 * r) 32).map fun i => (⟨i, spadAddr t m i⟩ : LaneAddr)).flatten
      match spadFault (spgBytes c.word) (4 * wb) (4 * wb) all with
      | some (e, cause) => done (teamStop s u cause (some e.lane) e.addr)
      | none =>
        match (lanesOf t).findSome? (fun i =>
            ((ldtRows t m wb i).find? (fun a => spadPoisoned c a wb)).map fun a => (i, a)) with
        | some (i, a) => done (teamStop s u 0x63 (some i) a)
        | none =>
          match spadReads u wb (ldtRows t m wb) s (lanesOf t) with
          | (s1, got) =>
            done (fallThrough (writeLanes s1 u (got.map fun e => (e.1, lregs (splitRegs (ef t m.t) wb (natOf e.2))))) u false)) s

/-! ## Cache operations (R174, R175) -/

/-- The registers of a CACHE instruction. -/
def accCache (a : VReg) (b : BitVec 7) : Access :=
  { noAccess with rv := offUse true a b, rk := [(b.toNat, 1)], vector := true }

/-- CACHE.ZERO (R175, R216): one log entry for each distinct block; the region's earlier entries for the block are discarded
and their debit returns. -/
def execCacheZero (a : VReg) (b : BitVec 7) (h : ImmHints) (s : State) : Out :=
  issueOp (accCache a b) (fun s u t =>
    if t.bounds then undecideActive s u
    else
      withChecked s u (checkLanes s t 1 .store (globalLanes t a b h)) false fun l =>
        let bs := dedupNat (l.map fun e => e.addr / 256)
        let log := t.log.filter fun e => !bs.contains (e.1 / 256)
        let zeros := dedupNat (t.zeros ++ bs)
        let t1 := { t with log := log, zeros := zeros }
        if t.logSize / 64 < logEntries t1 then
          match l with
          | [] => done (fallThrough s u false)
          | e :: _ => done (teamStopWith s u 0x4C (some e.lane) e.addr (logEntries t) 0 0)
        else
          let freed := t.debited.filter fun x => bs.contains x
          let s1 := undebit s (.core t.core) t.ctx (8 * freed.length)
          done (fallThrough (modTeam s1 u fun t => { t with
            log := log, zeros := zeros, debited := t.debited.filter (fun x => !bs.contains x)
            pols := t.pols.filter fun e => !bs.contains e.1 }) u false)) s

/-- A cache operation that changes no value and raises no fault (R174): `f` acts on each lane's block, once the walks of its pages
are done (R364); where an address has no translation it does nothing. -/
def cacheQuiet (a : VReg) (b : BitVec 7) (h : ImmHints) (f : State → Nat → Nat → Place → State) (s : State) : Out :=
  issueOp (accCache a b) (fun s u t =>
    if t.bounds then done (fallThrough s u false)
    else
      let die := dieOf t.core
      let lanes := (globalLanes t a b h).filter fun e => decide (e.addr < 2 ^ 56)
      let pages := pagesUnknown s die t (lanes.map fun e => pageKey s t.ctx e.addr)
      if !pages.isEmpty then done (requestWalk s u pages)
      else
        let one := fun (s : State) (e : LaneAddr) =>
          match tlbFind s die t.ctx e.addr with
          | some x => f s u e.addr (placeOf x.leaf x.base e.addr)
          | none => s
        done (fallThrough (lanes.foldl one s) u false)) s

/-- CACHE.INV (R174): the block is dropped from this core's L1. -/
def execCacheInv (a : VReg) (b : BitVec 7) (h : ImmHints) (s : State) : Out :=
  cacheQuiet a b h (fun s u va _ => modCore s (getTeam s u).core fun c => l1Drop c (va / 256)) s

/-- CACHE.EVICT (R174): the block is written back from the pound to its stack and dropped. -/
def execCacheEvict (a : VReg) (b : BitVec 7) (h : ImmHints) (s : State) : Out :=
  cacheQuiet a b h (fun s _ _ p =>
    match p with
    | .dev k => poundDrop s (k / 256)
    | _ => s) s

/-- CACHE.FETCH (R174): the block is fetched into the pound and L1. -/
def execCacheFetch (a : VReg) (b : BitVec 7) (h : ImmHints) (s : State) : Out :=
  cacheQuiet a b h (fun s u va p =>
    match p with
    | .dev k =>
      let core := (getTeam s u).core
      let s1 := if (metaOf s (k / 256)).poison then s else l1Keep s core (va / 256) .l1 true
      hearSlice (poundKeep (activate s1 (k / 256)) (k / 256) false .l1) core (k / 256)
    | _ => s) s

end Sys2Proof.Machine
end

