-- ==== Sys2Proof/Machine/Atomic.lean ====
section
/-! DEFINITION. Atomics, reductions and fences (08 R167-R173), the order of SC operations (21 R392, R393), and the events
that complete loads, results and fences. -/

namespace Sys2Proof.Machine

/-- A boundary instruction that a bounds pass forbids (R343, R354): in interval mode it stops and changes nothing. ATOM and RED stop there
with em zero too: R178 says that they trap, R140 that no vector instruction does (log 69, DESIGN CHOICE). -/
def boundaryNormal (a : Access) (eff : State → Nat → Team → Out) (s : State) : Out :=
  issueOp a (fun s u t =>
    if t.bounds then done (teamStop s u 0x5C none 0)
    else if (getTeam s u).pend.any (·.isLoad) then .next s
    else eff (takeSnap (commitRegion s u) u) u t) s

/-! ## The operations (R168, R169) -/

/-- The bits of an RMW width. -/
def rmwBits (w : Width) : Nat := 8 * widthBytes w

/-- The new memory value (R168): `m` the old one, `o` the operand (the compare value of a .cas), `n` a .cas's new value. -/
def rmwNew (w : Width) (md : AtomMod) (m o n : Nat) : Nat :=
  let b := rmwBits w
  let flt := md.ty == .float
  let pick := fun (mx : Bool) =>
    if flt then (fmnxVal mx false fmtF32 m o).1
    else
      let less := decide (elemVal (md.ty == .signed) b m ≤ elemVal (md.ty == .signed) b o)
      if less == mx then o else m
  match md.op with
  | .add =>
    if flt then (deliver fmtF32 .rne false (fvAdd .rne (fval fmtF32 m) (fval fmtF32 o))).1 else (m + o) % 2 ^ b
  | .min => pick false
  | .max => pick true
  | .and => m &&& o
  | .or => m ||| o
  | .xor => m ^^^ o
  | .exch => o
  | .cas => if m = o then n else m

/-- Who performs an RMW (R170, R389): its party and scope, its roles, what the party has seen, what its lanes have seen beyond that, and its
release fences. -/
structure RmwBy where
  party : Party
  scope : Scope
  acq : Bool
  rel : Bool
  sc : Bool
  view : View
  laneSeen : List (Nat × Nat)
  relFs : List Rel
  deriving DecidableEq, Repr

/-- Operations on memory in progress: the state, the bytes that device blocks will take, and the old value of each lane; the bytes found
or made, the releases found, what each lane has joined, and the last write of each row at a location. -/
structure RmwRun where
  s : State
  buf : Tab Byte
  olds : List (Nat × Nat)
  seen : List Nat
  got : List Rel
  joined : List (Nat × View)
  last : List ((Nat × Nat) × Nat)
  deriving DecidableEq, Repr

/-- Where an RMW stands among a granule's writes, the newer and the older ones: directly after the one before it in its row (R169), or where
a write of its party may stand (R394). -/
def rmwPlace (b : RmwBy) (g : RmwRun) (lane loc : Nat) (mask : List Nat) (ws : List Write) : List Write × List Write :=
  match g.last.find? (fun e => e.1 == (lane / 32, loc)) with
  | some e => (ws.takeWhile (fun w => w.n != e.2), ws.dropWhile fun w => w.n != e.2)
  | none =>
    let known := b.view.seen ++ g.seen ++ (b.laneSeen.filter fun e => e.2 == lane).map (·.1)
    placeWrite g.s ⟨none, known, false, []⟩ b.sc mask ws

/-- One lane's operation at place `i` of a granule (R168-R170, R389, R395): it reads from the writes directly before it, and carries on
their releases. `now` is what stands in the granule; the answer gives the bytes that memory takes. -/
def rmwGrain (w : Width) (md : AtomMod) (b : RmwBy) (g : RmwRun) (o : RmwOp) (key i : Nat) (now : List Byte) : RmwRun × List Byte :=
  let mask := rangeFrom i (widthBytes w)
  let gr := (find? g.s.hist key).getD ⟨now, []⟩
  let at_ := rmwPlace b g o.lane (16 * key + i) mask gr.writes
  let from_ := fun (x : Nat) => at_.2.find? fun w => writesAt w x
  let m := natOf (mask.map fun x => match from_ x with | some w => writeByte w x | none => nth 0#8 gr.base x)
  let bytes := bytesOf (widthBytes w) (rmwNew w md m o.o o.n)
  let rels := mask.foldl (fun l x => match from_ x with | some w => addRels l w.rels | none => l) []
  let joined := if b.acq then relsView (rels.filter fun r => inclusive r b.scope b.party) else ⟨[], 0⟩
  let own : List Rel := if b.rel then [⟨b.party, b.scope, joinView b.view joined, false⟩] else []
  let wr : Write := ⟨g.s.nextWrite, List.replicate i none ++ bytes.map some, true, b.sc, addRels (b.relFs ++ own) rels⟩
  match enterWrite g.s key gr.base wr at_.1 at_.2 with
  | (s1, covered) =>
    ({ g with
        s := s1, olds := g.olds ++ [(o.lane, m)], got := addRels g.got rels
        seen := g.seen ++ mask.flatMap fun x =>
          seenCode wr.n x :: (match from_ x with | some w => [seenCode w.n x] | none => [])
        joined := g.joined ++ [(o.lane, joined)], last := ((o.lane / 32, 16 * key + i), wr.n) :: g.last },
      (bytes.zipIdx i).map fun e => if covered.contains e.2 then nth 0#8 now e.2 else e.1)

/-- The bytes that an RMW leaves, already in the order co, where R194 has some of them show the old value. -/
def rmwEnter (s : State) (first a : Nat) (now : Nat → Byte) (bytes bs : List (Option Byte)) : State × List (Option Byte) :=
  if bs = bytes then (s, bs)
  else
    enterBytes s deviceWrites first a now ((bytes.zip bs).zipIdx a |>.map fun e =>
      if e.1.1.isSome && e.1.2.isNone then some (now e.2) else e.1.2)

/-- One lane's operation (R169). At a host window it is performed at once, in whatever state the host port is (log 70, DESIGN CHOICE). -/
def rmwOne (w : Width) (md : AtomMod) (b : RmwBy) (g : RmwRun) (e : RmwOp × Place) : RmwRun :=
  match e.2 with
  | .dev k =>
    let r := rmwGrain w md b g e.1 (k / 16) (k % 16) (overlay g.buf (k / 16 * 16) (memBytes g.s.mem (k / 16 * 16) 16))
    { r.1 with buf := logPut g.buf k r.2 }
  | .host a =>
    let r := rmwGrain w md b g e.1 (hostGrains + a / 16) (a % 16) (memBytes g.s.hostMem (a / 16 * 16) 16)
    let bytes := r.2.map some
    { r.1 with s := hostEntered none r.1.s a bytes (rmwEnter r.1.s hostGrains a (memByte g.s.hostMem) bytes) }
  | _ => g

/-- Nothing performed yet. -/
def rmwNone (s : State) : RmwRun := ⟨s, [], [], [], [], [], []⟩

/-- A device block takes the bytes that RMWs leave. -/
def rmwStore (g : RmwRun) (s : State) (id : Nat) (pay : Payer) (deb : Bool) (b : Nat) : State :=
  let bytes := (rangeFrom (b * 256) 256).map (find? g.buf)
  storeEntered none s id pay deb b bytes (rmwEnter s 0 (b * 256) (memByte s.mem) bytes)

/-- The device blocks that a list of operations addresses. -/
def rmwBlocks (l : List (RmwOp × Place × Nat)) : List Nat :=
  dedupNat (l.filterMap fun e =>
    match e.2.1 with
    | .dev k => some (k / 256)
    | _ => none)

/-- Of those, the blocks that debit (R167, R209). -/
def rmwDebits (l : List (RmwOp × Place × Nat)) : List Nat := rmwBlocks (l.filter fun e => leafDebits e.2.2)

/-- The home slices perform a list of operations, lanes ascending (R169): the memory after them, every block stored once and
its debit settled, and what was found. `core` is the issuing core, which pays and hears the slices. -/
def rmwPerform (s : State) (by_ : RmwBy) (id core : Nat) (w : Width) (md : AtomMod) (l : List (RmwOp × Place × Nat)) :
    State × RmwRun :=
  let g := (l.map fun e => (e.1, e.2.1)).foldl (rmwOne w md by_) (rmwNone s)
  let debs := rmwDebits l
  let s1 := l.foldl (fun s e =>
    match e.2.1 with
    | .dev _ => markDirty s (dieOf core) id e.1.addr
    | _ => s) g.s
  let s2 := (rmwBlocks l).foldl (fun s b => hearSlice (rmwStore g s id (.core core) (debs.contains b) b) core b) s1
  (modCore s2 core fun c => l.foldl (fun c e => l1Drop c (e.1.addr / 256)) c, g)

/-! ## SC order (R392, R393) -/

/-- The key of a timestamp (C + 1, sv.dev, core) (R392). -/
def scKey (c dev core : Nat) : Nat := c * 65536 + dev % 256 * 256 + core

/-- The timestamp an SC event of a core takes (R392). -/
def takeTs (s : State) (core : Nat) : State × Nat :=
  let c := (getCore s core).clock + 1
  (modCore s core fun k => { k with clock := c }, scKey c s.mgmt.devnum core)

/-- The timestamp of an SC operation that a team waits with; 0 is none. -/
def waitTs (t : Team) : Nat :=
  match t.status with
  | .waiting (.scRmw x _ _ _ _ _) => x
  | .waiting (.peerRmw x _ _ _ _ _) => x
  | _ => 0

/-- Whether some SC operation that is not yet performed has a smaller timestamp. -/
def scBelow (s : State) (ts : Nat) : Bool := s.teams.any fun e => waitTs e.2 != 0 && decide (waitTs e.2 < ts)

/-- The clock watermarks that cores exchange before an SC operation is performed (R393): no core's clock stays below its
timestamp, so that none with a smaller one can still arrive; the slices it is performed at carry it. -/
def scMark (s : State) (ts : Nat) (blocks : List Nat) : State :=
  let c := ts / 65536
  { s with
    cores := (rangeFrom 0 Config.cores).foldl
      (fun l n => if (tabGet Core.reset l n).clock < c then tabPut l n { tabGet Core.reset l n with clock := c } else l) s.cores
    sliceClock := blocks.foldl (fun t b => tabSet 0 t (homeSlice b) (max c (tabGet 0 t (homeSlice b)))) s.sliceClock }

/-! ## ATOM and RED -/

/-- Whether an ordering acquires or releases (R170). -/
def ordAcq : AtomOrd → Bool
  | .acq | .acqrel | .sc => true
  | _ => false
def ordRel : AtomOrd → Bool
  | .rel | .acqrel | .sc => true
  | _ => false

/-- The peer stores of a team that wait for an answer, and those that failed (R173). -/
def peerWaiting (s : State) (u : Nat) : Bool := s.peers.any fun r => r.uid == u && r.store && r.failed.isNone
def peerFailed (s : State) (u : Nat) : List PeerReq := s.peers.filter fun r => r.uid == u && r.store && r.failed.isSome

/-- The failed store of the lowest address. -/
def lowestFailed : List PeerReq → Option PeerReq
  | [] => none
  | r :: rs => some (rs.foldl (fun m x => if x.va < m.va then x else m) r)

/-- The stop of a release at .sys some of whose peer stores failed (R173): they are reported and forgotten, unless the core is
stopping for another cause (log 60, DEDUCED). -/
def peerStoreStop (s : State) (u : Nat) (r : PeerReq) : State :=
  let s1 : State :=
    if (getCore s (getTeam s u).core).stop.isSome then s
    else { s with peers := s.peers.filter fun q => !(q.uid == u && q.store && q.failed.isSome) }
  teamStopWith s1 u 0x66 none r.va (r.failed.getD 0 + r.dev * 2 ^ 8) 0 0

/-- The operand and the .cas value of a lane (R168). -/
def rmwOperand (w : Width) (md : AtomMod) (t : Team) (d : VReg) (i a : Nat) : RmwOp :=
  let r := ef t d
  let cas := md.op == .cas
  if w = .b64 then ⟨i, a, vpair t i r, if cas then vpair t i (r + 2) else 0⟩
  else ⟨i, a, (vreg t i r).toNat, if cas then (vreg t i (r + 1)).toNat else 0⟩

/-- The data registers of an RMW: for .cas a pair or a quad (R168). -/
def rmwUse (w : Width) (md : AtomMod) (f : VReg) : VUse :=
  if md.op = .cas then (if w = .b64 then v4 f else v2 f) else dataUse w f

/-- The writes of old values to their lanes. -/
def rmwWrites (w : Width) (r : Nat) (olds : List (Nat × Nat)) : List (Nat × LaneOut) :=
  olds.map fun e => (e.1, lregs (loadOut w r e.2))

/-- The places of a list of operations through a team's context, as they stood when they were checked. -/
def rmwPlaces (s : State) (t : Team) (ops : List RmwOp) : List (RmwOp × Place × Nat) :=
  ops.filterMap fun o =>
    match loggedPlace s t.ctx o.addr with
    | some (p, leaf) => some (o, p, leaf)
    | none => none

/-- A team's RMW, with its scope and its roles (R170). -/
def rmwBy (s : State) (u : Nat) (sc : Scope) (ord : AtomOrd) : RmwBy :=
  let t := getTeam s u
  ⟨teamParty t, sc, ordAcq ord, ordRel ord, ord == .sc, teamView s u, t.laneSeen, t.relFs⟩

/-- What the lanes of an RMW have found: the team has seen it by coherence (R394), and each lane joins the releases it acquires, while its
core takes their clocks (R170, R389, R392). -/
def rmwFound (s : State) (u : Nat) (g : RmwRun) : State :=
  let s1 := modTeam s u fun t => { t with
    seen := joinSeen t.seen g.seen, got := addRels t.got g.got
    laneSeen := g.joined.foldl (fun l e => laneCodes { t with laneSeen := l } e.1 e.2.seen) t.laneSeen }
  g.joined.foldl (fun s e => raiseClock s (getTeam s u).core e.2.clock) s1

/-- Completes an RMW at its slices: the memory and the registers (R168), the acquire (R170), and the team goes on with a new
snapshot (R147). -/
def rmwFinish (s : State) (u : Nat) (w : Width) (sc : Scope) (md : AtomMod) (l : List (RmwOp × Place × Nat)) (dst : Option Nat) : State :=
  let t := getTeam s u
  match rmwPerform s (rmwBy s u sc md.ord) t.ctx t.core w md l with
  | (s1, g) =>
    let s2 := rmwFound (match dst with
      | some r => writeLanes s1 u (rmwWrites w r g.olds)
      | none => s1) u g
    let s3 := if ordAcq md.ord then dropL1 s2 t.core else s2
    settleStop (fallThrough (modTeam s3 u fun t => { t with debited := [] }) u true) t.core

/-- Ends an RMW whose data meets poison or whose peer fails (R176, R177): its debit returns and its instruction stops. -/
def rmwStop (s : State) (u cause : Nat) (lane : Option Nat) (addr w5 : Nat) : State :=
  teamStopWith (modTeam (abortRegion s u) u fun t => { t with status := .ready }) u cause lane addr w5 0 0

/-- An RMW is performed at the slices of its local lanes, unless one of them is poisoned (R167-R170, R176); `ts` is the timestamp of
an SC operation, 0 for another. -/
def rmwEnd (s : State) (u ts : Nat) (w : Width) (sc : Scope) (md : AtomMod) (l : List (RmwOp × Place × Nat)) (dst : Option Nat) : State :=
  match l.find? (fun e => placePoison s e.2.1) with
  | some e => rmwStop s u 0x63 (some e.1.lane) e.1.addr 0
  | none => rmwFinish (if ts = 0 then s else scMark s ts (rmwBlocks l)) u w sc md l dst

/-- Debits the device blocks of an RMW (R167): the first address that is not covered, if any. -/
def debitRmw (u : Nat) : State → List Nat → State × Option Nat
  | s, [] => (s, none)
  | s, b :: bs =>
    let t := getTeam s u
    match debit8 s (.core t.core) t.ctx with
    | (s1, false) => (s1, some b)
    | (s1, true) => debitRmw u (modTeam s1 u fun t => { t with debited := t.debited ++ [b] }) bs

/-- The lane whose operation first addresses a block. -/
def laneOfBlock (l : List (RmwOp × Place × Nat)) (b : Nat) : Option RmwOp :=
  (l.find? fun e =>
    match e.2.1 with
    | .dev k => k / 256 == b
    | _ => false).map (·.1)

/-- The location of a lane at a peer, as one number: the fields of its outbound entry, and the address (R425, R427). -/
def peerLoc (s : State) (slot a : Nat) : Nat := a * 2 ^ 33 + memNat s.tspace (s.mgmt.outb + 8 * slot) 8 % 2 ^ 33

/-- The requests of one row to peers: one for each location (R427). -/
def rowRequests (s : State) (l : List (RmwOp × Place × Nat)) : List (Nat × Nat × List RmwOp) :=
  let pe := l.filterMap fun e =>
    match e.2.1 with
    | .peer slot a => some (peerLoc s slot a, slot, a, e.1)
    | _ => none
  (dedupNat (pe.map (·.1))).filterMap fun k =>
    let same := pe.filter fun e => e.1 == k
    same.head?.map fun e => (e.2.1, e.2.2.1, same.map (·.2.2.2))

/-- Sends the peer requests of an RMW: row by row, one for each location (R427) (log 60, DEDUCED). -/
def rmwSend (u : Nat) (w : Width) (md : AtomMod) (dst : Option Nat) (s : State) (l : List (RmwOp × Place × Nat)) :
    State × List Nat :=
  let reqs := ((List.range 32).map fun r => rowRequests s (l.filter fun e => e.1.lane / 32 == r)).flatten
  let id := (getTeam s u).ctx
  reqs.foldl (fun g q =>
    let ops := q.2.2.map fun o => (BitVec.ofNat 64 o.o, BitVec.ofNat 64 o.n)
    let va := (q.2.2.headD ⟨0, 0, 0, 0⟩).addr
    match sendPeer g.1 u id q.1 va q.2.1 ⟨false, [], some (w, md, ops), q.2.2.map (·.lane), dst, widthBytes w, false⟩ with
    | (s1, n) => (s1, g.2 ++ [n])) (s, [])

/-- An RMW leaves its core: lanes at a peer are asked for, and only once all have been answered are the others performed, so that a
failure at a peer stops the instruction before any effect here (R176, R427) (log 60, DEDUCED). -/
def rmwStart (s : State) (u ts : Nat) (w : Width) (sc : Scope) (md : AtomMod) (l : List (RmwOp × Place × Nat)) (dst : Option Nat) : State :=
  match rmwSend u w md dst s l with
  | (s1, []) => rmwEnd s1 u ts w sc md l dst
  | (s1, ids) =>
    let p : Pending := ⟨false, [], [], [], none, none, ids, 0, none, [], []⟩
    waitFor (modTeam s1 u fun t => { t with pend := t.pend ++ [p] }) u (.peerRmw ts w sc md (l.map (·.1)) dst)

/-- The effect of an ATOM or RED whose lanes have been checked (R167-R170). Poison stops it before any effect, and its debit
returns. An SC operation takes its timestamp, and may be held at its slice (log 5, DESIGN CHOICE). -/
def rmwGo (w : Width) (sc : Scope) (md : AtomMod) (dst : Option Nat) (s : State) (u : Nat) (l : List (RmwOp × Place × Nat)) : Out :=
  let t := getTeam s u
  match debitRmw u s (rmwDebits l) with
  | (s1, some b) =>
    let o := (laneOfBlock l b).getD ⟨0, 0, 0, 0⟩
    done (teamReplay s1 u 0x20 (some o.lane) o.addr)
  | (s1, none) =>
    match l.find? (fun e => placePoison s1 e.2.1) with
    | some e => done (rmwStop s1 u 0x63 (some e.1.lane) e.1.addr 0)
    | none =>
      if md.ord = .sc then
        match takeTs s1 t.core with
        | (s2, ts) =>
          if scBelow s2 ts || Config.freeBit s.free (2 ^ 41) then done (waitFor s2 u (.scRmw ts w sc md (l.map (·.1)) dst))
          else done (rmwStart s2 u ts w sc md l dst)
      else done (rmwStart s1 u 0 w sc md l dst)

/-- ATOM and RED (R167-R171): `dst` says whether the old values are returned. -/
def rmwExec (w : Width) (scope : Scope) (md : AtomMod) (m : MArgs) (ret : Bool) (s : State) : Out :=
  let idle := (lanesOf (getTeam s s.issue.uid)).isEmpty
  let data := rmwUse w md m.t
  let a : Access :=
    { noAccess with
      rv := offUse true m.a m.b ++ [data], wv := if ret then [dataUse w m.t] else [], rk := [(m.b.toNat, 1)] }
  boundaryNormal (if idle then noAccess else a) (fun s u t =>
    if idle then done (fallThrough s u true)
    else
      withChecked s u (checkLanes s t (widthBytes w) .rmw (globalLanes t m.a m.b m.imm)) false fun l =>
        if ordRel md.ord && scope == .sys && peerWaiting s u then .next s
        else
          match (if ordRel md.ord && scope == .sys then lowestFailed (peerFailed s u) else none) with
          | some r => done (peerStoreStop s u r)
          | none =>
            rmwGo w scope md (if ret then some (ef t m.t) else none) s u
              (l.map fun e => (rmwOperand w md t m.t e.lane e.addr, e.place, e.leaf))) s

/-- ATOM (R168). -/
def execAtom (w : Width) (scope : Scope) (md : AtomMod) (m : MArgs) (s : State) : Out := rmwExec w scope md m true s

/-- RED (R168): it writes no register. -/
def execRed (w : Width) (scope : Scope) (md : AtomMod) (m : MArgs) (s : State) : Out := rmwExec w scope md m false s

/-- Writes a pending result of a team and takes it off the list. -/
def writeBack (s : State) (u i : Nat) (p : Pending) : State :=
  let t := getTeam s u
  let t1 := applyPending s.free (heldRegs s u t.core) { t with pend := t.pend.eraseIdx i } p
  settleStop (taintRegs (setTeam s u t1) u t.core (p.writes.map (·.reg))) t.core

/-- The last of a team's pending results that still needs a peer, once it needs none (R427). -/
def peerPend (t : Team) : Option (Pending × Nat) :=
  match t.pend.getLast? with
  | some p => if !p.isLoad && p.peers.isEmpty then some (p, t.pend.length - 1) else none
  | none => none

/-- An RMW whose last request has been answered stops with 0x65 and no effect here, or is performed at its local lanes and completes
(R427); an SC operation is held while one with a smaller timestamp is (R393) (log 60, DEDUCED). -/
def rmwAnswered (s : State) (u : Nat) : State :=
  let t := getTeam s u
  match t.status, peerPend t with
  | .waiting (.peerRmw ts w sc md ops dst), some (p, i) =>
    let l := rmwPlaces s t ops
    let local_ := l.find? fun e => placePoison s e.2.1
    let stop := fun (c : Nat) (lane : Option Nat) (a x : Nat) =>
      rmwStop (modTeam s u fun t => { t with pend := t.pend.eraseIdx i }) u c lane a x
    match p.fault, local_ with
    | some f, some e =>
      if e.1.lane < f.lane.getD 0 then stop 0x63 (some e.1.lane) e.1.addr 0 else stop f.cause f.lane f.addr f.w5
    | some f, none => stop f.cause f.lane f.addr f.w5
    | none, some e => stop 0x63 (some e.1.lane) e.1.addr 0
    | none, none =>
      if ts ≠ 0 ∧ scBelow s ts = true then s
      else rmwEnd (writeBack (modTeam s u fun t => { t with status := .ready }) u i p) u ts w sc md l dst
  | _, _ => s

/-- SC_RMW_PERFORM (R393): a held operation is performed once no operation with a smaller timestamp is held, or goes on once its
peers have answered (log 5, DESIGN CHOICE). -/
def execScRmwPerform (u : Nat) (s : State) : Out :=
  match (getTeam s u).status with
  | .waiting (.scRmw ts w sc md ops dst) =>
    if scBelow s ts then .next s
    else done (rmwStart (modTeam s u fun t => { t with status := .ready }) u ts w sc md (rmwPlaces s (getTeam s u) ops) dst)
  | .waiting (.peerRmw _ _ _ _ _ _) => done (rmwAnswered s u)
  | _ => .next s

/-! ## FENCE (R172, R173) -/

/-- Whether a fence kind releases or acquires. -/
def fenceRel : FenceKind → Bool
  | .acq => false
  | _ => true
def fenceAcq : FenceKind → Bool
  | .rel => false
  | _ => true

/-- A release fence of a team: what it writes from then on carries it, in place of an older one of that scope (R389). -/
def putRelFence (s : State) (u : Nat) (sc : Scope) : State :=
  modTeam s u fun t => { t with relFs := (t.relFs.filter fun r => r.scope != sc) ++ [teamRelease s u sc] }

/-- The order of an SC fence (R397): it joins the earlier SC fences with whose team its scope and theirs cover each other, and takes its
place after them. -/
def scFence (s : State) (u : Nat) (sc : Scope) : State :=
  let s1 := teamAcquires s u sc ((getTeam s u).got ++ s.scRels)
  { s1 with scRels := s1.scRels ++ [teamRelease s1 u sc] }

/-- A fence's completion: the peer stores of a .sys release are all answered, and none failed (R173); an SC fence finds no
held operation below its timestamp (R393). An acquire joins the releases that the team's reads have found (R389). -/
def fenceEnd (s : State) (u : Nat) (k : FenceKind) (sc : Scope) : State :=
  let t := getTeam s u
  match (if fenceRel k && sc == .sys then lowestFailed (peerFailed s u) else none) with
  | some r => peerStoreStop (modTeam s u fun t => { t with status := .ready }) u r
  | none =>
    let s1 := if fenceAcq k then acquire s u sc t.got else s
    settleStop (fallThrough (if fenceRel k then putRelFence s1 u sc else s1) u true) t.core

/-- Whether a fence may complete now; `ts` is the timestamp of an SC fence. -/
def fenceReady (s : State) (u : Nat) (k : FenceKind) (sc : Scope) (ts : Nat) : Bool :=
  !(fenceRel k && sc == .sys && peerWaiting s u) && !(k == .sc && scBelow s ts)

/-- FENCE (R172): a region boundary; an SC fence takes a place in S (R392, R397) (log 5, DESIGN CHOICE). -/
def execFence (k : FenceKind) (sc : Scope) (s : State) : Out :=
  boundaryOp noAccess (fun s u t =>
    let p : State × Nat := if k = .sc then takeTs s t.core else (s, 0)
    let s1 : State := if k = .sc then scFence (scMark p.1 p.2 []) u sc else p.1
    if fenceReady s1 u k sc p.2 then done (fenceEnd s1 u k sc) else done (waitFor s1 u (.fence k sc p.2))) s

/-- FENCE_COMPLETE (R172, R173). -/
def execFenceComplete (u : Nat) (s : State) : Out :=
  match (getTeam s u).status with
  | .waiting (.fence k sc ts) => if fenceReady s u k sc ts then done (fenceEnd s u k sc) else .next s
  | _ => .next s

/-! ## Completion of loads and results -/

/-- The place in the list of the first pending result that is a load, or is none. -/
def firstPend (t : Team) (load : Bool) : Option (Nat × Pending) :=
  ((t.pend.zipIdx.find? fun e => e.1.isLoad == load)).map fun e => (e.2, e.1)

/-- LOAD_RETURN (R160, R173, R177): a team's oldest load writes its destinations; one whose data was poisoned, or that a peer
failed, stops at its instruction and writes none (log 14, DESIGN CHOICE). -/
def execLoadReturn (u : Nat) (s : State) : Out :=
  match firstPend (getTeam s u) true with
  | none => .next s
  | some (i, p) =>
    if p.gather != 0 || p.retryAt.isSome || !p.peers.isEmpty then .next s
    else
      let held := (getTeam s u).status == .waiting .load && i + 1 == (getTeam s u).pend.length
      match p.fault with
      | some f =>
        let s1 := modTeam s u fun t => { t with pend := t.pend.eraseIdx i, status := .ready }
        done (teamStopWith s1 u f.cause f.lane f.addr f.w5 0 0)
      | none =>
        let s1 := writeBack s u i p
        done (if held then fallThrough s1 u false else s1)

/-- VARIABLE_RESULT_WRITEBACK (R48): a result of variable latency that is no load is written (log 14, DESIGN CHOICE). -/
def execVariableResultWriteback (u : Nat) (s : State) : Out :=
  match firstPend (getTeam s u) false with
  | none => .next s
  | some (i, p) =>
    let held := match (getTeam s u).status with
      | .waiting (.peerRmw _ _ _ _ _ _) => i + 1 == (getTeam s u).pend.length
      | _ => false
    if p.peers.isEmpty && !held then done (writeBack s u i p) else .next s

/-- Changes a team's oldest load that is still being served. -/
def modLoad (s : State) (u : Nat) (ok : Pending → Bool) (f : Pending → Pending) : State :=
  match (getTeam s u).pend.zipIdx.find? (fun e => e.1.isLoad && ok e.1) with
  | none => s
  | some (p, i) => modTeam s u fun t => { t with pend := setAt t.pend i (f p) }

/-- GATHER_EXPAND (R435): the base die expands one of a load's gather packets and returns its lanes' bytes. -/
def execGatherExpand (u : Nat) (s : State) : Out :=
  .next (modLoad s u (fun p => p.gather != 0 && p.retryAt.isNone) fun p => { p with gather := p.gather - 1 })

/-- POUND_REISSUE (R436, R437): once the time of its hint has passed, a request that received a retry response is issued again: it is
served when its banks are free then, and its blocks enter the caches; it receives another hint when they are not. -/
def execPoundReissue (u : Nat) (s : State) : Out :=
  let due := fun (p : Pending) => match p.retryAt with | some x => decide (x ≤ s.mgmt.time) | none => false
  match (getTeam s u).pend.find? (fun p => p.isLoad && due p) with
  | none => .next s
  | some p =>
    let s1 := p.banks.foldl serveAt s
    match banksBusy s1 p.banks with
    | some x => .next (modLoad s1 u due fun p => { p with retryAt := some x })
    | none =>
      let s2 := p.keep.foldl (fun s e => throughCaches s (getTeam s u).core e.2.2 e.1 e.2.1) s1
      .next (modLoad s2 u due fun p => { p with retryAt := none, keep := [] })

end Sys2Proof.Machine
end

