-- ==== Sys2Proof/Machine/LoomOps.lean ====
section
/-! DEFINITION. The operations of the loom on sequences and the prefix tree (16 R293-R317), each as one transaction: its reads and
writes, its result, and the new CL of its sequence. -/

namespace Sys2Proof.Machine

/-! ## Loom operations -/

/-- What a loom operation comes to: its transaction, its result word, and the new CL of its sequence where CL moved. -/
structure Loomed where
  tx : Txn
  res : Nat
  cl : Option Nat
  deriving DecidableEq, Repr

/-- Whether a transaction has met no fault. -/
def txOk (t : Txn) : Bool := t.replay.isNone && t.hard.isNone && !t.bad58 && !t.bad59

/-- A status word (R302). -/
def statusWord (c : Nat) : Nat := 2 ^ 63 + c * 2 ^ 56

/-- An operation that returns a status changes nothing else (R302). -/
def loomStatus (t : Txn) (c : Nat) : Loomed := ⟨{ t with buf := [], poisons := [] }, statusWord c, none⟩

/-- An operation that stops at a fault its transaction has recorded. -/
def loomStuck (t : Txn) : Loomed := ⟨t, 0, none⟩

/-- An operation that completes with a result. -/
def loomRes (t : Txn) (r : Nat) : Loomed := ⟨t, r, none⟩

/-- Goes on with the header a handle names; a form for key-value sequences meets 0x58 at a flat one (R324). -/
def withHdr (t : Txn) (h : Nat) (kv : Bool) (k : Txn → Hdr → Loomed) : Loomed :=
  match txHdr t h with
  | (t1, hd) =>
    if !txOk t1 then loomStuck t1
    else if kv && !hd.kv then loomStuck { t1 with bad58 := true }
    else k t1 hd

/-- Reads and writes a number that may cross a block. -/
def txReadL (t : Txn) (va n : Nat) : Txn × Nat :=
  match txBytesLong 3 t va n with
  | (t1, bs) => (t1, natOf bs)
def txWriteL (t : Txn) (va n v : Nat) : Txn := txPutLong 3 t va (bytesOf n v)

/-- Adds to a 32-bit count, and gives its new value. -/
def txCount (t : Txn) (va : Nat) (d : Int) : Txn × Nat :=
  match txReadL t va 4 with
  | (t1, v) =>
    let w := wrapNat 32 ((v : Int) + d)
    (txWriteL t1 va 4 w, w)

/-! ## Pools and pages (R298, R303) -/

/-- A pool's descriptor (R298). -/
structure Pool where
  at_ : Nat
  pbase : Nat
  npage : Nat
  pcnt : Nat
  pfree : Nat
  ptop : Nat
  nhead : Nat
  nbase : Nat
  tbase : Nat
  nnode : Nat
  deriving DecidableEq, Repr

/-- The slots and the bytes of a page (R296). -/
def pageSlots (hd : Hdr) : Nat := 2 ^ (hd.tpg + 4)
def pageBytes (hd : Hdr) : Nat := 2 ^ (hd.slg + hd.tpg + 4)

/-- Whether a pool's words keep R296 and R298 for a sequence. -/
def poolOk (hd : Hdr) (w : Nat → Nat) : Bool :=
  let lg := hd.slg + hd.tpg + 4
  let np := field (w 1) 0 32
  decide (8 ≤ lg) && decide (lg ≤ 21) && decide (w 0 < 2 ^ 56) && w 0 % pageBytes hd == 0 && decide (1 ≤ np) &&
    decide (np ≤ 2 ^ 31) && field (w 1) 32 5 == hd.slg && field (w 1) 37 3 == hd.tpg && decide (w 1 < 2 ^ 40) &&
    decide (w 2 < 2 ^ 56) && decide (w 3 < 2 ^ 56) && decide (field (w 4) 0 32 ≤ np) && decide (w 5 < 2 ^ 56) &&
    decide (w 6 < 2 ^ 56) && decide (w 7 < 2 ^ 30) && decide (1 ≤ w 7)

/-- Goes on with a sequence's pool; one that breaks R298 is 0x58. -/
def withPool (t : Txn) (hd : Hdr) (k : Txn → Pool → Loomed) : Loomed :=
  match txBytesLong 3 t hd.pool 64 with
  | (t1, bs) =>
    let w := nth 0 (wordsOf bs)
    if !txOk t1 then loomStuck t1
    else if !(poolOk hd w) then loomStuck { t1 with bad58 := true }
    else k t1 ⟨hd.pool, w 0, field (w 1) 0 32, w 2, w 3, field (w 4) 0 32, field (w 4) 32 32, w 5, w 6, w 7⟩

/-- The fields of a page-table entry (R297). -/
def entPage (e : Nat) : Nat := field e 0 32
def entNode (e : Nat) : Nat := field e 32 30
def entW (e : Nat) : Bool := bitAt e 62
def entV (e : Nat) : Bool := bitAt e 63

/-- The address of page-table entry `i`. -/
def entAt (hd : Hdr) (i : Nat) : Nat := hd.pt + 8 * i

/-- The entry through which a sequence finds page `i`, and whether it is its own (R303): at most four tables. -/
def resolveFrom : Nat → Txn → Hdr → Nat → Bool → Txn × Option (Nat × Bool)
  | 0, t, _, _, _ => (t, none)
  | fuel + 1, t, hd, i, own =>
    match txRead t (entAt hd i) 8 with
    | (t1, e) =>
      if entV e then (t1, some (e, own))
      else if hd.parent = 0 ∨ hd.flen ≤ i * pageSlots hd then (t1, none)
      else
        match txHdr t1 hd.parent with
        | (t2, p) =>
          if !txOk t2 then (t2, none)
          else if !p.kv then ({ t2 with bad58 := true }, none)
          else resolveFrom fuel t2 p i false

/-- The entry for page `i` of a sequence (R303). -/
def resolvePage (t : Txn) (hd : Hdr) (i : Nat) : Txn × Option (Nat × Bool) := resolveFrom 4 t hd i true

/-- The count of a page, changed by `d`. -/
def pageCount (t : Txn) (p : Pool) (page : Nat) (d : Int) : Txn × Nat := txCount t (p.pcnt + 4 * page) d

/-- The address of a tree node, and a change to its REFS (R313). -/
def nodeAt (p : Pool) (node : Nat) : Nat := p.nbase + 128 * node
def nodeRefs (t : Txn) (p : Pool) (node : Nat) (d : Int) : Txn := if node = 0 then t else (txCount t (nodeAt p node + 12) d).1

/-- The address of a page. -/
def pageAt (hd : Hdr) (p : Pool) (page : Nat) : Nat := p.pbase + page * pageBytes hd

/-- Pops a page off the free stack. -/
def popPage (t : Txn) (hd : Hdr) (p : Pool) : Txn × Nat :=
  match txReadL t (p.at_ + 32) 4 with
  | (t1, top) =>
    match txReadL t1 (p.pfree + 4 * (top - 1)) 4 with
    | (t2, page) =>
      let t3 := txWriteL t2 (p.at_ + 32) 4 (top - 1)
      ({ t3 with takes := t3.takes ++ [pageAt hd p page], frees := t3.frees.filter (· != pageAt hd p page) }, page)

/-- Pushes a page on the free stack. -/
def pushPage (hd : Hdr) (p : Pool) (t : Txn) (page : Nat) : Txn :=
  match txReadL t (p.at_ + 32) 4 with
  | (t1, top) =>
    let t2 := txWriteL (txWriteL t1 (p.pfree + 4 * top) 4 page) (p.at_ + 32) 4 (top + 1)
    { t2 with frees := t2.frees ++ [pageAt hd p page] }

/-! ## Reserving (R304) -/

/-- Whether a page a sequence has resolved is shared for it (R303). -/
def pageShared (t : Txn) (p : Pool) (e : Nat) (own : Bool) : Txn × Bool :=
  if !own then (t, true)
  else if entW e then (t, false)
  else
    match txReadL t (p.pcnt + 4 * entPage e) 4 with
    | (t1, n) => (t1, decide (1 < n))

/-- The pages that a reservation must take: those absent and those shared, with their entries (R304). -/
def reservePlan (hd : Hdr) (p : Pool) : Txn → List Nat → Txn × List (Nat × Option (Nat × Bool))
  | t, [] => (t, [])
  | t, i :: is =>
    match resolvePage t hd i with
    | (t1, none) =>
      match reservePlan hd p t1 is with
      | (t2, l) => (t2, (i, none) :: l)
    | (t1, some (e, own)) =>
      match pageShared t1 p e own with
      | (t2, sh) =>
        match reservePlan hd p t2 is with
        | (t3, l) => (t3, if sh then (i, some (e, own)) :: l else l)

/-- Copies one block; a poisoned block is written poisoned and raises no fault (R323). -/
def copyPageBlock (src dst : Nat) (t : Txn) (o : Nat) : Txn :=
  match txPlace t (src + o) .load with
  | (t1, none) => t1
  | (t1, some p) =>
    let t2 := txPut (txMeets t1 p) (dst + o) (overlay t1.buf (src + o) (placeBytes t1.s p 256))
    if placePoison t1.s p then { t2 with poisons := t2.poisons ++ [(dst + o) / 256] } else t2

/-- Takes one page of a reservation's plan (R304). The bytes stored into a page since it was freed are unpredictable (R317). -/
def reserveTake (hd : Hdr) (p : Pool) (t : Txn) (x : Nat × Option (Nat × Bool)) : Txn :=
  match popPage t hd p with
  | (t1, page) =>
    let t2 := txWriteL t1 (p.pcnt + 4 * page) 4 1
    let n := pageBytes hd
    let dst := pageAt hd p page
    let t3 := match x.2 with
      | none => { t2 with spoils := t2.spoils ++ storedSince t2.s t2.sp dst n }
      | some (e, own) =>
        let t' := (List.range (n / 256)).foldl (fun t b => copyPageBlock (pageAt hd p (entPage e)) dst t (256 * b)) t2
        let t' := { t' with cows := t'.cows ++ [(dst, n)] }
        let t' := (pageCount t' p (entPage e) (-1)).1
        if own then nodeRefs t' p (entNode e) (-1) else t'
    txWrite t3 (entAt hd x.1) 8 (page + 2 ^ 62 + 2 ^ 63)

/-- SEQ.RESERVE of `n` slots (R302, R304). -/
def loomReserve (t : Txn) (h n : Nat) : Loomed :=
  withHdr t h false fun t1 hd =>
    match reserveStatus hd n with
    | some c => loomStatus t1 c
    | none =>
      let t1 := { t1 with begins := if hd.rl = 0 then some h else none }
      if !hd.kv then loomRes (txLens (txRing t1 hd) hd hd.cl (hd.rl + n)) hd.rl
      else
        withPool t1 hd fun t2 p =>
          let first := hd.rl / pageSlots hd
          match reservePlan hd p t2 (rangeFrom first ((hd.rl + n - 1) / pageSlots hd + 1 - first)) with
          | (t3, plan) =>
            if !txOk t3 then loomStuck t3
            else if p.ptop < plan.length then loomStatus t3 4
            else loomRes (txLens (plan.foldl (reserveTake hd p) t3) hd hd.cl (hd.rl + n)) hd.rl

/-! ## The other forms of SEQ (R305-R312) -/

/-- SEQ.ADDR (R305); a slot whose page no table holds has no address, as one at or above RL (log 36, DEDUCED). -/
def loomAddr (t : Txn) (h slot : Nat) : Loomed :=
  withHdr t h false fun t1 hd =>
    if hd.rl ≤ slot ∨ (hd.ring ≠ 0 ∧ slot < hd.tail) then loomStatus t1 8
    else if !hd.kv then loomRes t1 (flatSlot hd slot % 2 ^ 56)
    else
      withPool t1 hd fun t2 p =>
        match resolvePage t2 hd (slot / pageSlots hd) with
        | (t3, none) => if txOk t3 then loomStatus t3 8 else loomStuck t3
        | (t3, some (e, _)) =>
          loomRes t3 ((pageAt hd p (entPage e) + slot % pageSlots hd * 2 ^ hd.slg) % 2 ^ 56)

/-- SEQ.COMMIT and SEQ.VOID (R299, R306). -/
def loomClose (t : Txn) (void : Bool) (h base n : Nat) : Loomed :=
  withHdr t h false fun t1 hd =>
    if hd.released || (void && hd.vmap == 0) then loomStuck { t1 with bad59 := true }
    else
      match txReserved hd n t1 base with
      | (t2, false) => loomStuck { t2 with bad59 := true }
      | (t2, true) =>
        match txAdvance hd (hd.rl - hd.cl) (txClose hd void n t2 base) hd.cl with
        | (t3, cl) => if cl = hd.cl then loomRes t3 0 else ⟨txLens t3 hd cl hd.rl, 0, some cl⟩

/-- SEQ.LEN (R307). -/
def loomLen (t : Txn) (h : Nat) : Loomed := withHdr t h false fun t1 hd => loomRes t1 (hd.cl + hd.rl * 2 ^ 32)

/-- The bindings of a die's loom (R302, R309), but for the one register that is bound anew. -/
def boundCount (s : State) (die core j : Nat) : Nat :=
  s.cores.foldl (fun a e => a + (e.2.cl.filter fun r =>
    !(e.1 == core && r.1 == j) && (match r.2.bound with
      | some h => loomDie s (.ctx e.2.ctx) h == die
      | none => false)).length) 0

/-- SEQ.WATCH reads the sequence's CL (R309): its result is CL. -/
def loomWatch (t : Txn) (h core j : Nat) : Loomed :=
  withHdr t h false fun t1 hd =>
    if hd.released then loomStatus t1 5
    else if 4096 ≤ boundCount t1.s (loomDie t1.s t1.sp h) core j then loomStatus t1 6
    else loomRes t1 hd.cl

/-- The SEQ.FORK descriptor (R311). -/
structure ForkDesc where
  child : Nat
  cpt : Nat
  cfbm : Nat
  cwlg : Nat
  cvmap : Nat
  n : Nat
  deriving DecidableEq, Repr

/-- Reads the descriptor. -/
def forkDesc (w : Nat → Nat) : ForkDesc := ⟨w 0, w 1, field (w 2) 0 56, field (w 2) 56 5, w 3, field (w 4) 0 32⟩

/-- Whether a fork descriptor keeps R311 (log 36, DEDUCED). -/
def forkDescOk (w : Nat → Nat) : Bool :=
  let d := forkDesc w
  decide (w 0 < 2 ^ 56) && w 0 % 64 == 0 && decide (w 1 < 2 ^ 56) && w 1 % 8 == 0 && decide (w 2 < 2 ^ 61) && d.cfbm % 8 == 0 &&
    decide (6 ≤ d.cwlg) && decide (d.cwlg ≤ 20) && decide (w 3 < 2 ^ 56) && w 3 % 8 == 0 && decide (w 4 < 2 ^ 32)

/-- The child takes one inherited page of its parent (R312): a reference, and an entry of its own where it is flattened. -/
def forkPage (hd : Hdr) (p : Pool) (d : ForkDesc) (flat : Bool) (t : Txn) (i : Nat) : Txn :=
  match resolvePage t hd i with
  | (t1, none) => t1
  | (t1, some (e, _)) =>
    let t2 := (pageCount t1 p (entPage e) 1).1
    if flat then nodeRefs (txWrite t2 (d.cpt + 8 * i) 8 (entPage e + entNode e * 2 ^ 32 + 2 ^ 63)) p (entNode e) 1 else t2

/-- PRC of a header (R294). -/
def txPrc (t : Txn) (hd : Hdr) (prc : Nat) : Txn :=
  txWrite t (hd.at_ + 32) 8 (hd.flen + hd.depth * 2 ^ 32 + prc % 2 ^ 24 * 2 ^ 40)

/-- SEQ.FORK (R312). -/
def loomFork (t : Txn) (h : Nat) (w : Nat → Nat) : Loomed :=
  withHdr t h true fun t1 hd =>
    let d := forkDesc w
    if hd.released then loomStatus t1 5
    else if hd.cl < d.n then loomStatus t1 10
    else
      withPool t1 hd fun t2 p =>
        let over_ := decide (d.n ≠ 0) && decide (hd.depth < 3)
        let words := [d.n + d.n * 2 ^ 32, hd.cap + hd.slg * 2 ^ 32 + hd.tpg * 2 ^ 37, d.cpt, if over_ then h else 0,
          d.n + (if over_ then hd.depth + 1 else 0) * 2 ^ 32, 2, d.cfbm + d.cwlg * 2 ^ 56, d.cvmap]
        let t3 := txPutLong 3 t2 d.child (words.flatMap (bytesOf 8))
        let t4 := txWrite t3 (d.child + 64) 8 hd.pool
        let t5 := if over_ then txPrc t4 hd (hd.prc + 1) else t4
        loomRes ((List.range (ceilDiv d.n (pageSlots hd))).foldl (forkPage hd p d (!over_)) t5) d.child

/-! ## The prefix tree (R313-R317) -/

/-- One step of the reflected CRC-64 of ECMA-182 (R313). -/
def crc64Bit (c : Nat) : Nat := if c % 2 = 1 then (c / 2) ^^^ 0xC96C5795D7870F42 else c / 2
def crc64Byte (c : Nat) (b : Byte) : Nat := (List.range 8).foldl (fun c _ => crc64Bit c) (c ^^^ b.toNat)

/-- The hash of a page of tokens (R313). -/
def tokenHash (bs : List Byte) : Nat := bs.foldl crc64Byte (2 ^ 64 - 1) ^^^ (2 ^ 64 - 1)

/-- The bytes of a page's tokens. -/
def tokenBytes (hd : Hdr) : Nat := 4 * pageSlots hd

/-- The tokens of page `i` of an array. -/
def tokensAt (hd : Hdr) (t : Txn) (arr i : Nat) : Txn × List Byte :=
  txBytesLong 8 t (arr + tokenBytes hd * i) (tokenBytes hd)

/-- The first node of a chain of siblings that matches a page of tokens (R313); 0 for none. -/
def matchChain (hd : Hdr) (p : Pool) (toks : List Byte) : Nat → Txn → Nat → Txn × Nat
  | 0, t, _ => (t, 0)
  | fuel + 1, t, c =>
    if c = 0 ∨ !(txOk t) then (t, 0)
    else
      match txReadL t (nodeAt p c) 8 with
      | (t1, hash) =>
        match (if hash = tokenHash toks then txBytesLong 8 t1 (p.tbase + tokenBytes hd * c) (tokenBytes hd) else (t1, [])) with
        | (t2, own) =>
          if hash = tokenHash toks ∧ own = toks then (t2, c)
          else
            match txReadL t2 (nodeAt p c + 24) 4 with
            | (t3, next) => matchChain hd p toks fuel t3 next

/-- The child of a node that matches a page of tokens. -/
def matchChild (hd : Hdr) (p : Pool) (t : Txn) (node : Nat) (toks : List Byte) : Txn × Nat :=
  match txReadL t (nodeAt p node + 20) 4 with
  | (t1, first) => matchChain hd p toks p.nnode t1 first

/-- The nodes that match a prompt's pages, from the root (R315). -/
def lookupWalk (hd : Hdr) (p : Pool) (arr : Nat) : Nat → Txn → Nat → Nat → Txn × List Nat
  | 0, t, _, _ => (t, [])
  | fuel + 1, t, i, node =>
    match tokensAt hd t arr i with
    | (t1, toks) =>
      match matchChild hd p t1 node toks with
      | (t2, c) =>
        if c = 0 ∨ !(txOk t2) then (t2, [])
        else
          match lookupWalk hd p arr fuel t2 (i + 1) c with
          | (t3, cs) => (t3, c :: cs)

/-- How many leading entries of a table came from the tree (R315). -/
def installedRun (hd : Hdr) : Nat → Txn → Nat → Txn × Nat
  | 0, t, i => (t, i)
  | fuel + 1, t, i =>
    match txRead t (entAt hd i) 8 with
    | (t1, e) => if entV e && entNode e != 0 then installedRun hd fuel t1 (i + 1) else (t1, i)

/-- Drops one installed entry (R315). -/
def dropInstalled (hd : Hdr) (p : Pool) (t : Txn) (i : Nat) : Txn :=
  match txRead t (entAt hd i) 8 with
  | (t1, e) =>
    match pageCount (nodeRefs t1 p (entNode e) (-1)) p (entPage e) (-1) with
    | (t2, n) => txWrite (if n = 0 then pushPage hd p t2 (entPage e) else t2) (entAt hd i) 8 0

/-- Installs a matched node's page as entry `i` (R315). -/
def installPage (hd : Hdr) (p : Pool) (t : Txn) (x : Nat × Nat) : Txn :=
  match txReadL t (nodeAt p x.1 + 8) 4 with
  | (t1, page) =>
    let t2 := txWrite t1 (entAt hd x.2) 8 (page + x.1 * 2 ^ 32 + 2 ^ 63)
    nodeRefs (pageCount t2 p page 1).1 p x.1 1

/-- Bits RELEASED, DONE and LKUP of a header. -/
def txState (t : Txn) (hd : Hdr) (released done_ lkup : Bool) : Txn :=
  let b := fun (x : Bool) (n : Nat) => if x then 2 ^ n else 0
  txWrite t (hd.at_ + 40) 4 (b hd.queue 0 + b hd.kv 1 + b released 2 + b done_ 3 + b lkup 4)

/-- Whether a table has no entry of its own among `n` from `i` on (R315). -/
def noOwnFrom (hd : Hdr) : Nat → Txn → Nat → Txn × Bool
  | 0, t, _ => (t, true)
  | n + 1, t, i =>
    match txRead t (entAt hd i) 8 with
    | (t1, e) => if entV e || !(txOk t1) then (t1, false) else noOwnFrom hd n t1 (i + 1)

/-- PTREE.LOOKUP (R315): a target that still holds exactly what a lookup installed is emptied first (log 36, DEDUCED). -/
def loomLookup (t : Txn) (h arr count : Nat) : Loomed :=
  withHdr t h true fun t1 hd =>
    if hd.released then loomStatus t1 5
    else
      withPool t1 hd fun t2 p =>
        let n := pageSlots hd
        match (if hd.lkup && hd.cl == hd.rl && hd.parent == 0 then installedRun hd (min (hd.cl / n + 1) (ceilDiv hd.cap n)) t2 0 else (t2, 0)) with
        | (t3, m0) =>
          let most := min (count / n) (min (hd.cap / n) (2 ^ 28 / n))
          match noOwnFrom hd (ceilDiv hd.cap n - m0) t3 m0 with
          | (t4, fresh) =>
          if !txOk t4 then loomStuck t4
          else if hd.parent ≠ 0 ∨ hd.cl ≠ hd.rl ∨ hd.cl ≠ m0 * n ∨ !fresh then loomStatus t4 7
          else
            match lookupWalk hd p arr most ((List.range m0).foldl (dropInstalled hd p) t4) 0 0 with
            | (t5, cs) =>
              let m := cs.length
              let t6 := (cs.zipIdx).foldl (installPage hd p) t5
              let t7 := txState (txLens t6 hd (m * n) (m * n)) hd false false true
              ⟨t7, m, if hd.cl < m * n then some (m * n) else none⟩

/-- An insertion in progress: the node reached, and the pages registered. -/
structure Inserting where
  tx : Txn
  node : Nat
  count : Nat
  full : Bool
  deriving DecidableEq, Repr

/-- Registers a page of tokens under the current node (R316). -/
def insertNode (hd : Hdr) (p : Pool) (g : Inserting) (i c page : Nat) (toks : List Byte) : Inserting :=
  match txReadL g.tx (nodeAt p c + 24) 4 with
  | (t1, next) =>
    match txReadL (txWriteL t1 (p.at_ + 36) 4 next) (nodeAt p g.node + 20) 4 with
    | (t2, first) =>
      let words := [tokenHash toks, page, g.node, first + (i + 1) * 2 ^ 32, 1]
      let t3 := txPutLong 3 t2 (nodeAt p c) (words.flatMap (bytesOf 8))
      let t4 := txPutLong 8 t3 (p.tbase + tokenBytes hd * c) toks
      let t5 := (pageCount (txWriteL t4 (nodeAt p g.node + 20) 4 c) p page 1).1
      { g with tx := t5, node := c, count := g.count + 1 }

/-- The walk of PTREE.INSERT (R316) (log 36, DEDUCED). -/
def insertWalk (hd : Hdr) (p : Pool) (arr : Nat) : Nat → Nat → Inserting → Inserting
  | 0, _, g => g
  | fuel + 1, i, g =>
    match tokensAt hd g.tx arr i with
    | (t1, toks) =>
      match matchChild hd p t1 g.node toks with
      | (t2, c) =>
        if !txOk t2 then { g with tx := t2 }
        else if c ≠ 0 then insertWalk hd p arr fuel (i + 1) { g with tx := t2, node := c }
        else
          match resolvePage t2 hd i with
          | (t3, none) => { g with tx := t3 }
          | (t3, some (e, _)) =>
            match txReadL t3 (p.at_ + 36) 4 with
            | (t4, free) =>
              if !txOk t4 then { g with tx := t4 }
              else if free = 0 then { g with tx := t4, full := true }
              else insertWalk hd p arr fuel (i + 1) (insertNode hd p { g with tx := t4 } i free (entPage e) toks)

/-- PTREE.INSERT (R316): NONODE leaves what has been registered. -/
def loomInsert (t : Txn) (h arr : Nat) : Loomed :=
  withHdr t h true fun t1 hd =>
    if hd.released then loomStatus t1 5
    else
      withPool t1 hd fun t2 p =>
        let g := insertWalk hd p arr (hd.cl / pageSlots hd) 0 ⟨t2, 0, 0, false⟩
        loomRes g.tx (if g.full then statusWord 11 else g.count)

/-- Drops the reference a sequence holds for page `i`, and gives the page where its count has come to 0 (R317). -/
def dropPage (hd : Hdr) (p : Pool) (g : Txn × List Nat) (i : Nat) : Txn × List Nat :=
  match txRead g.1 (entAt hd i) 8 with
  | (t1, e) =>
    let drop := fun (t : Txn) (page : Nat) =>
      match pageCount t p page (-1) with
      | (t2, n) => (t2, if n = 0 then g.2 ++ [page] else g.2)
    if entV e then drop (nodeRefs t1 p (entNode e) (-1)) (entPage e)
    else if hd.parent = 0 ∨ hd.flen ≤ i * pageSlots hd then (t1, g.2)
    else
      match resolvePage t1 hd i with
      | (t2, none) => (t2, g.2)
      | (t2, some (f, _)) => drop t2 (entPage f)

/-- Puts a number at its place in an ascending list. -/
def insertAsc (n : Nat) : List Nat → List Nat
  | [] => [n]
  | x :: xs => if n ≤ x then n :: x :: xs else x :: insertAsc n xs

/-- A sequence drops its references, and a DRAINING parent that no child reads any more drops its own in the same step
(R317). -/
def dropChain (p : Pool) : Nat → Txn → Hdr → Txn
  | 0, t, _ => t
  | fuel + 1, t, hd =>
    match (List.range (ceilDiv (max hd.rl hd.flen) (pageSlots hd))).foldl (dropPage hd p) (t, []) with
    | (t1, gone) =>
      let t2 := (gone.foldl (fun l n => insertAsc n l) []).foldl (pushPage hd p) t1
      let t3 := txState t2 hd true true hd.lkup
      if hd.parent = 0 then t3
      else
        match txHdr t3 hd.parent with
        | (t4, q) =>
          if !txOk t4 then t4
          else
            let t5 := txPrc t4 q (q.prc + 2 ^ 24 - 1)
            if q.released && !q.done && q.prc == 1 then dropChain p fuel t5 { q with prc := 0 } else t5

/-- PTREE.UNREF (R317): a second one has no effect. -/
def loomUnref (t : Txn) (h : Nat) : Loomed :=
  withHdr t h true fun t1 hd =>
    if hd.released then loomRes t1 0
    else if hd.prc ≠ 0 then loomRes (txState t1 hd true hd.done hd.lkup) 0
    else withPool t1 hd fun t2 p => loomRes (dropChain p 5 t2 hd) 0

/-- A node leaves the chain of children it stands in (R430): `at_` is the address of the link that may name it. -/
def unlinkNode (p : Pool) (node next : Nat) : Nat → Txn → Nat → Txn
  | 0, t, _ => t
  | fuel + 1, t, at_ =>
    match txReadL t at_ 4 with
    | (t1, c) =>
      if c = node then txWriteL t1 at_ 4 next
      else if c = 0 ∨ !(txOk t1) then t1
      else unlinkNode p node next fuel t1 (nodeAt p c + 24)

end Sys2Proof.Machine
end

