-- ==== Sys2Proof/Machine/Locks.lean ====
section
/-! DEFINITION. Locks (14 R265-R277): the step of a lock and what it wakes, the counts of the copy engine, and the LOCK
forms. -/

namespace Sys2Proof.Machine

/-! ## A lock's step (R268) -/

/-- A core's lock. -/
def getLock (s : State) (core n : Nat) : Lock := tabGet Lock.reset (getCore s core).locks n

/-- Replaces a core's lock. -/
def setLock (s : State) (core n : Nat) (l : Lock) : State :=
  modCore s core fun c => { c with locks := tabSet Lock.reset c.locks n l }

/-- Whether a phase is done (R268). -/
def phaseDone (l : Lock) (p : W32) : Bool :=
  let d := (l.phase - p).toNat
  decide (1 ≤ d) && decide (d ≤ 2 ^ 31)

/-- A lock with one more release that counts toward its current phase (R276); releases of phases that no wait can name any more are
forgotten. -/
def lockReleased (l : Lock) (r : Rel) : Lock :=
  let p := l.phase.toNat
  let same := fun (e : Nat × Rel) => e.1 == p && e.2.party == r.party && e.2.scope == r.scope && e.2.always == r.always
  let keep := l.rels.filter fun e => decide ((l.phase - BitVec.ofNat 32 e.1).toNat ≤ 2 ^ 31)
  { l with rels :=
      if keep.any same then keep.map fun e => if same e then (p, { r with view := joinView e.2.view r.view }) else e
      else keep ++ [(p, r)] }

/-- An arrival of a team at a lock is a release at .dev (R276). -/
def lockArrived (s : State) (u : Nat) (l : Lock) : Lock := lockReleased l (teamRelease s u .dev)

/-- An acquire of a phase of a lock at a scope (R276). -/
def lockAcquire (s : State) (u : Nat) (sc : Scope) (l : Lock) (p : W32) : State :=
  acquire s u sc ((l.rels.filter fun e => e.1 == p.toNat).map (·.2))

/-- The record of a lock that has become BROKEN (R275, R406). -/
def brokenRec (s : State) (core n : Nat) (l : Lock) : FaultRec :=
  { blankRec s 0x81 (getCore s core).ctx with core := core, w5 := n, w6 := l.bdone }

/-- The waiters of a lock that has broken issue their LOCK again, which stops with 0x55 whatever the lock is by then (R275). -/
def lockRetry (s : State) (core n : Nat) : State :=
  let again := fun (t : Team) =>
    match t.status with
    | .waiting (.lockPhase c l _ _) => if c = core ∧ l = n then { t with status := .ready, woken := true } else t
    | .waiting (.lockFill l _ _ _) => if t.core = core ∧ l = n then { t with status := .ready, woken := true } else t
    | _ => t
  { s with teams := s.teams.map fun e => (e.1, again e.2) }

/-- A lock becomes BROKEN (R275). -/
def lockBreak (s : State) (core n : Nat) : State :=
  let l := { getLock s core n with st := .broken }
  lockRetry (pushRec (setLock s core n l) (brokenRec s core n l)) core n

/-- The evaluation of a lock after a change to its counts (R268). -/
def lockEval (s : State) (core n : Nat) : State :=
  let l := getLock s core n
  if l.penda = 0 ∧ l.bdone = l.bexp then
    let p := l.phase + 1#32
    setLock s core n { l with
      phase := p, bexp := 0, bdone := 0, penda := if l.gate && bitAt p.toNat 0 then l.nd else l.na }
  else if l.penda = 0 ∧ l.bexp < l.bdone then lockBreak s core n
  else s

/-- The effect of a .fill at an even phase (R271): the lock after it, where its requires hold. -/
def lockFillStep (l : Lock) (w : W64) : Option Lock :=
  let b := field w.toNat 0 40
  let arr := bitAt w.toNat 63
  if 2 ^ 40 ≤ l.bexp + b ∨ (arr ∧ l.penda = 0) then none
  else some { l with bexp := l.bexp + b, penda := if arr then l.penda - 1 else l.penda }

/-- The waiting .fill of a lock that waited first: its team, register, word and ticket. -/
def firstFill (s : State) (core n : Nat) : Option (Nat × Nat × W64) :=
  let fills := s.teams.filterMap fun e =>
    match e.2.status with
    | .waiting (.lockFill l k w at_) => if e.2.core = core ∧ l = n then some (at_, e.1, k, w) else none
    | _ => none
  match fills with
  | [] => none
  | f :: fs => some (fs.foldl (fun m x => if x.1 < m.1 then x else m) f).2

/-- The acquire of a .fill at .dev, of the phase whose end has opened its own; with ARR it is an arrival too (R271, R276). -/
def lockFillSync (s : State) (u : Nat) (l0 l1 : Lock) (w : W64) : State × Lock :=
  let s1 := lockAcquire s u .dev l0 (l0.phase - 1#32)
  (s1, if bitAt w.toNat 63 then lockArrived s1 u l1 else l1)

/-- A .fill completes (R271): its result, its step, and its acquire at .dev. -/
def lockFillEnd (s : State) (core n u k : Nat) (l0 l1 : Lock) (w : W64) : State :=
  match lockFillSync s u l0 l1 w with
  | (s0, l2) =>
    let s1 := setLock s0 core n l2
    let s2 := modTeam s1 u fun t => setK t k (BitVec.ofNat 64 l0.phase.toNat)
    fallThrough (lockEval s2 core n) u true

/-- The waiting .fills of a lock that is in an even phase take effect, one at a time (R271); one whose requires fail stops. -/
def lockFills : Nat → State → Nat → Nat → State
  | 0, s, _, _ => s
  | fuel + 1, s, core, n =>
    let l := getLock s core n
    if l.st ≠ .valid ∨ bitAt l.phase.toNat 0 then s
    else
      match firstFill s core n with
      | none => s
      | some (u, k, w) =>
        match lockFillStep l w with
        | some l1 => lockFills fuel (lockFillEnd s core n u k l l1 w) core n
        | none => lockFills fuel (teamStop (modTeam s u fun t => { t with status := .ready }) u 0x55 none 0) core n

/-- The waiters whose phase of a lock is done go on (R268, R276). -/
def lockWakes (s : State) (core n : Nat) : State :=
  let l := getLock s core n
  s.teams.foldl (fun s e =>
    match e.2.status with
    | .waiting (.lockPhase c m p sc) =>
      if c = core ∧ m = n ∧ l.st = .valid ∧ phaseDone l (BitVec.ofNat 32 p) then
        fallThrough (lockAcquire s e.1 sc l (BitVec.ofNat 32 p)) e.1 true
      else s
    | _ => s) s

/-- A step of a lock (R268): its evaluation, the waiting .fills that it lets through, and the waiters it wakes. -/
def lockStep (s : State) (core n : Nat) : State :=
  lockWakes (lockFills (s.teams.length + 1) (lockEval s core n) core n) core n

/-- Adds bytes to a lock's count, which has 40 bits (R266), in one step; a lock that is not VALID discards them (R275) (log 29, DEDUCED).
They come before the completion of the phase (R276): `r` is what the command has seen and written. -/
def lockAdd (core n : Nat) (r : Rel) (s : State) (bytes : Nat) : State :=
  let l := getLock s core n
  if l.st = .valid then lockStep (setLock s core n { lockReleased l r with bdone := (l.bdone + bytes) % 2 ^ 40 }) core n else s

/-- The copy engine counts bytes at a lock (R275): each byte is a step of its own, so a byte that completes the phase ends it,
and the bytes after it count in the next. No other byte of a unit can change what the lock is (log 29, DEDUCED). -/
def lockCount (s : State) (core n bytes : Nat) (r : Rel) : State :=
  let l := getLock s core n
  if l.penda = 0 ∧ l.bdone < l.bexp ∧ l.bexp < l.bdone + bytes then
    lockAdd core n r (lockAdd core n r s (l.bexp - l.bdone)) (bytes - (l.bexp - l.bdone))
  else lockAdd core n r s bytes

/-- A copy command bound to a lock has ended (R275). -/
def lockEngEnd (s : State) (core n : Nat) : State :=
  setLock s core n { getLock s core n with eng := (getLock s core n).eng - 1 }

/-- Whether a lock accepts a copy command (R275). -/
def lockTakes (l : Lock) : Bool := l.st == .valid && !l.gv && decide (l.eng < 65535)

/-! ## The forms (R270-R274) -/

/-- Whether an operand word has zeros outside its fields, and its fields within their limits (R270). -/
def initWordOk (w : Nat) : Bool :=
  decide (w < 2 ^ 33) && decide (1 ≤ field w 0 16) && (if bitAt w 32 then decide (1 ≤ field w 16 16) else field w 16 16 == 0)
def arriveWordOk (w : Nat) : Bool := decide (w < 2 ^ 25) && (bitAt w 24 || field w 16 8 == 0)
def byteWordOk (w : Nat) : Bool := field w 40 23 == 0
def waitWordOk (w : Nat) : Bool := decide (w < 2 ^ 41) && (bitAt w 40 || field w 32 8 == 0)

/-- The bolt of a number in a team's launch (R272). -/
def boltOf (s : State) (t : Team) (g : Nat) : Option Group := (teamKernel s t).groups.find? fun x => x.num == g && x.bolt

/-- Whether a team is a member of a group (R256). -/
def inGroup (t : Team) (g : Group) : Bool := t.kind == .launch && g.ranges.any fun r => decide (r.1 ≤ t.id) && decide (t.id ≤ r.2)

/-- The member teams of a group (R256). -/
def groupSize (g : Group) : Nat := g.ranges.foldl (fun a r => a + (r.2 + 1 - r.1)) 0

/-- The rank-0 core of a team's bolt closure (R263, R272). -/
def rankZero (t : Team) : Nat := t.boltCores.foldl min t.core

/-- The rank-0 core of the bolt closure that holds a group, while a member is placed (R272). -/
def boltCore (s : State) (t : Team) (g : Group) : Option Nat :=
  if inGroup t g then some (rankZero t)
  else (s.teams.find? fun e => e.2.kid == t.kid && e.2.placed && inGroup e.2 g).map fun e => rankZero e.2

/-- The precise stops of LOCK (R271, R272) (log 23, DEDUCED). -/
def lockState (s : State) (u : Nat) : Out := done (teamStop s u 0x55 none 0)
def lockGroup (s : State) (u : Nat) : Out := done (teamStop s u 0x56 none 0)

/-- The registers of a LOCK form: its operand word and its result. -/
def lockAcc (ka : KReg) (word res : Bool) : Access :=
  { noAccess with rk := if word then [(ka.toNat, 1)] else [], wk := if res then [(ka.toNat + 1, 1)] else [] }

/-- A LOCK form: a region boundary, its operand word, and the lock it names (log 23, DEDUCED). -/
def lockOp (ka : KReg) (word res : Bool) (ok : Nat → Bool) (eff : State → Nat → Team → Nat → Out) (s : State) : Out :=
  boundaryNormal (lockAcc ka word res) (fun s u t =>
    let w := if word then (kreg t ka.toNat).toNat else 0
    if ok w then eff s u t w else lockState s u) s

/-- A form that may wait stops with 0x55 when the lock has broken while it waited (R271, R275). -/
def lockWaited (s : State) (u : Nat) (k : State → Out) : Out :=
  if (getTeam s u).woken then lockState (modTeam s u fun t => { t with woken := false }) u else k s

/-- A form that completes: the lock's change, its result, and its step. -/
def lockDone (s : State) (u core n : Nat) (l : Lock) (res : Option (Nat × W64)) : Out :=
  let s1 := match res with
    | some (k, v) => modTeam s u fun t => setK t k v
    | none => s
  done (lockStep (fallThrough (setLock s1 core n l) u true) core n)

/-- The lock that an arrival or a wait names, and whether the team may name it (R272, R273): of the issuing core, or, when GV is set,
of the rank-0 core of the bolt closure that holds GRP. A group arrival that finds the lock INVALID sets it up. None where GRP is no
bolt, or no member of it is placed (log 23, DEDUCED). -/
def lockNamed (s : State) (t : Team) (n : Nat) (gv arrive : Bool) (grp : Nat) : Option (Nat × Lock × Bool) :=
  if !gv then some (t.core, getLock s t.core n, true)
  else
    match boltOf s t grp with
    | none => none
    | some g =>
      match boltCore s t g with
      | none => none
      | some c =>
        let l := getLock s c n
        if arrive && l.st == .invalid then
          some (c, { l with st := .valid, gv := true, grp := grp, na := groupSize g, penda := groupSize g, gate := false }, inGroup t g)
        else some (c, l, inGroup t g)

/-- Whether a lock is not the group lock that a group form names (R273) (log 23, DEDUCED). -/
def lockStrange (l : Lock) (gv : Bool) (grp : Nat) : Bool := gv && !(l.gv && l.grp == grp)

/-- LOCK.INIT (R271). -/
def execLockInit (a n : KReg) (s : State) : Out :=
  lockOp a true false initWordOk (fun s u t w =>
    let l := getLock s t.core n.toNat
    if l.st ≠ .invalid then lockState s u
    else
      let na := field w 0 16
      let l1 := { l with na := na, nd := field w 16 16, gate := bitAt w 32, penda := na, st := .valid }
      done (fallThrough (setLock s t.core n.toNat l1) u true)) s

/-- LOCK.ARRIVE (R271, R273). -/
def execLockArrive (a n : KReg) (s : State) : Out :=
  lockOp a true true arriveWordOk (fun s u t w =>
    let gv := bitAt w 24
    let grp := field w 16 8
    match lockNamed s t n.toNat gv true grp with
    | none => lockGroup s u
    | some (c, l, mine) =>
      let cnt := max 1 (field w 0 16)
      if l.st ≠ .valid ∨ (l.gate ∧ bitAt l.phase.toNat 0) ∨ l.penda < cnt then lockState s u
      else if !mine || lockStrange l gv grp then lockGroup s u
      else
        lockDone s u c n.toNat (lockArrived s u { l with penda := l.penda - cnt })
          (some (a.toNat + 1, BitVec.ofNat 64 l.phase.toNat))) s

/-- LOCK.EXPECT (R271, R273). -/
def execLockExpect (a n : KReg) (s : State) : Out :=
  lockOp a true false byteWordOk (fun s u t w =>
    let l := getLock s t.core n.toNat
    if l.st ≠ .valid ∨ l.gate ∨ l.gv then lockState s u
    else
      match lockFillStep l (BitVec.ofNat 64 w) with
      | none => lockState s u
      | some l1 => lockDone s u t.core n.toNat (if bitAt w 63 then lockArrived s u l1 else l1) none) s

/-- LOCK.WAIT (R271, R273). -/
def execLockWait (a n : KReg) (sc : Scope) (s : State) : Out :=
  lockOp a true false waitWordOk (fun s u t w => lockWaited s u fun s =>
    let gv := bitAt w 40
    let grp := field w 32 8
    match lockNamed s t n.toNat gv false grp with
    | none => lockGroup s u
    | some (c, l, mine) =>
      if l.st ≠ .valid then lockState s u
      else if !mine || lockStrange l gv grp then lockGroup s u
      else if phaseDone l (BitVec.ofNat 32 w) then
        done (fallThrough (lockAcquire s u sc l (BitVec.ofNat 32 w)) u true)
      else done (waitFor s u (.lockPhase c n.toNat (field w 0 32) sc))) s

/-- LOCK.TRY (R271, R273). -/
def execLockTry (a n : KReg) (sc : Scope) (s : State) : Out :=
  lockOp a true true waitWordOk (fun s u t w =>
    let gv := bitAt w 40
    let grp := field w 32 8
    match lockNamed s t n.toNat gv false grp with
    | none => lockGroup s u
    | some (_, l, mine) =>
      if l.st ≠ .valid then lockState s u
      else if !mine || lockStrange l gv grp then lockGroup s u
      else
        let d := phaseDone l (BitVec.ofNat 32 w)
        let v := (if d then 2 ^ 63 else 0) + field l.bdone 0 40
        let s1 := modTeam s u fun t => setK t (a.toNat + 1) (BitVec.ofNat 64 v)
        done (fallThrough (if d then lockAcquire s1 u sc l (BitVec.ofNat 32 w) else s1) u true)) s

/-- Whether a team waits on a lock (R271). -/
def lockAwaited (s : State) (core n : Nat) : Bool :=
  s.teams.any fun e =>
    match e.2.status with
    | .waiting (.lockPhase c m _ _) => c == core && m == n
    | .waiting (.lockFill m _ _ _) => e.2.core == core && m == n
    | _ => false

/-- A lock becomes INVALID: the commands that were abandoned while they were bound to it have no lock any longer (R275, R292); 64 stands
for none. -/
def copyUnbind (s : State) (core n : Nat) : State :=
  let one := fun (c : CopyCmd) => if c.gone ∧ c.lock = n then { c with lock := 64 } else c
  modCore s core fun k => { k with copyQ := k.copyQ.map (·.map one) }

/-- LOCK.INVAL (R271). -/
def execLockInval (a n : KReg) (s : State) : Out :=
  lockOp a false false (fun _ => true) (fun s u t _ =>
    let l := getLock s t.core n.toNat
    if lockAwaited s t.core n.toNat ∨ l.eng ≠ 0 then lockState s u
    else
      let s1 := copyUnbind s t.core n.toNat
      done (fallThrough (setLock s1 t.core n.toNat { Lock.reset with joinc := l.joinc, joined := l.joined }) u true)) s

/-- LOCK.FILL (R271, R273): in an odd phase it waits, and its effect is part of the step that opens an even phase. -/
def execLockFill (a n : KReg) (s : State) : Out :=
  lockOp a true true byteWordOk (fun s u t w => lockWaited s u fun s =>
    let l := getLock s t.core n.toNat
    if l.st ≠ .valid ∨ !l.gate ∨ l.gv then lockState s u
    else if bitAt l.phase.toNat 0 then
      done (waitFor s u (.lockFill n.toNat (a.toNat + 1) (BitVec.ofNat 64 w) s.free))
    else
      match lockFillStep l (BitVec.ofNat 64 w) with
      | none => lockState s u
      | some l1 =>
        let x := lockFillSync s u l l1 (BitVec.ofNat 64 w)
        lockDone x.1 u t.core n.toNat x.2
          (some (a.toNat + 1, BitVec.ofNat 64 l.phase.toNat))) s

/-- LOCK.DRAIN (R271, R273). -/
def execLockDrain (a n : KReg) (s : State) : Out :=
  lockOp a false true (fun _ => true) (fun s u t _ =>
    let l := getLock s t.core n.toNat
    if l.st ≠ .valid ∨ !l.gate ∨ l.gv ∨ !(bitAt l.phase.toNat 0) ∨ l.penda = 0 then lockState s u
    else
      lockDone s u t.core n.toNat (lockArrived s u { l with penda := l.penda - 1 })
        (some (a.toNat + 1, BitVec.ofNat 64 l.phase.toNat))) s

end Sys2Proof.Machine
end

