-- ==== Sys2Proof/Machine/Copy.lean ====
section
/-! DEFINITION. The copy engine (15 R278-R292): the descriptor and its checks, the units a command writes, compressed streams,
stalls and undeliverable bytes. -/

namespace Sys2Proof.Machine

/-! ## The descriptor (R280, R281) -/

/-- What a descriptor says: source and destination, rows, the total T of output bytes, and the form's own fields. -/
structure CopyShape where
  src : Nat
  ssp : Bool
  dst : Nat
  dsp : Bool
  rb : Nat
  nr : Nat
  sstr : Nat
  dstr : Nat
  e3m2 : Bool
  scale : Nat
  handle : Nat
  deriving DecidableEq, Repr

/-- The shape of a descriptor; every form but .tensor is one row. -/
def copyShape (f : CopyForm) (w0 w1 w2 w3 : Nat) : CopyShape :=
  let row := fun (n : Nat) => (n, 1, n, n)
  let g := match f with
    | .tensor => (field w2 0 24, field w2 24 16, field w3 0 32, field w3 32 32)
    | .stream => row (field w2 0 40)
    | .mx6e4m3 => row (32 * field w2 0 24)
    | .mx6bf16 => row (64 * field w2 0 24)
    | .decomp => row (256 * field w2 0 24)
  { src := field w0 0 56, ssp := bitAt w0 56, dst := field w1 0 56, dsp := bitAt w1 56
    rb := g.1, nr := g.2.1, sstr := g.2.2.1, dstr := g.2.2.2
    e3m2 := bitAt w2 24, scale := field w3 0 56, handle := w3 }

/-- The shape of a queued command. -/
def shapeOf (c : CopyCmd) : CopyShape := copyShape c.form c.w0.toNat c.w1.toNat c.w2.toNat c.w3.toNat

/-- The output bytes of a command: T of R281. -/
def copyTotal (h : CopyShape) : Nat := h.rb * h.nr

/-- The source and destination addresses of output offset `o` of a plain row copy. -/
def copySrc (h : CopyShape) (o : Nat) : Nat := h.src + o / h.rb * h.sstr + o % h.rb
def copyDst (h : CopyShape) (o : Nat) : Nat := h.dst + o / h.rb * h.dstr + o % h.rb

/-- Whether a descriptor has a nonzero reserved bit or a field out of range (R280). -/
def copyFieldsBad (f : CopyForm) (h : CopyShape) (w0 w1 w2 w3 : Nat) : Bool :=
  decide (2 ^ 57 ≤ w0) || decide (2 ^ 57 ≤ w1) || (h.ssp && f != .tensor) ||
    (match f with
    | .tensor =>
      decide (2 ^ 40 ≤ w2) || decide (h.rb < 16) || h.rb % 16 != 0 || h.nr == 0 || decide (h.sstr < h.rb) ||
        decide (h.dstr < h.rb)
    | .stream => decide (2 ^ 40 ≤ w2) || w3 != 0 || h.rb == 0 || h.rb % 256 != 0 || !h.dsp
    | .mx6e4m3 | .mx6bf16 => decide (2 ^ 25 ≤ w2) || h.rb == 0 || decide (2 ^ 56 ≤ w3)
    | .decomp => decide (2 ^ 24 ≤ w2) || h.rb == 0)

/-- Whether a handle names a sequence of 16-byte slots (R287, R288) (log 32, DEDUCED). -/
def badSeqOk (s : State) (id h : Nat) : Bool :=
  match txHdr (txStart s (.ctx id) false) h with
  | (t, hd) => !t.bad58 && t.replay.isNone && t.hard.isNone && hd.slg == 4

/-- Whether the first destination byte lies in a host or peer window (R288). -/
def dstWindow (s : State) (id : Nat) (h : CopyShape) : Bool :=
  !h.dsp && (match walk s id h.dst with | some l => leafTgt l.bits != 0 | none => false)

/-- One past the last source address, of global addresses, that a descriptor names. -/
def copySrcEnd (f : CopyForm) (h : CopyShape) : Nat :=
  match f with
  | .tensor => if h.ssp then 0 else h.src + (h.nr - 1) * h.sstr + h.rb
  | .stream => h.src + h.rb
  | .mx6e4m3 => max (h.src + 24 * (h.rb / 32)) (h.scale + h.rb / 32)
  | .mx6bf16 => max (h.src + 24 * (h.rb / 64)) (h.scale + h.rb / 64)
  | .decomp => h.src + 8 * (h.rb / 256)

/-- One past the last destination address. -/
def copyDstEnd (h : CopyShape) : Nat := h.dst + (h.nr - 1) * h.dstr + h.rb

/-- The alignments of SRC and DST (R281). -/
def copyAligned (f : CopyForm) (h : CopyShape) : Bool :=
  match f with
  | .tensor => h.src % 16 == 0 && h.dst % 16 == 0 && h.sstr % 16 == 0 && h.dstr % 16 == 0
  | .stream => h.src % 256 == 0 && h.dst % 16 == 0
  | .mx6e4m3 | .mx6bf16 => h.src % 8 == 0 && h.dst % 16 == 0
  | .decomp => h.src % 8 == 0 && h.dst % (if h.dsp then 16 else 256) == 0

/-- The walks that a COPY's acceptance needs (R288, R364): of the page of the first destination byte, at its own die, and of a BAD
sequence's pages, at the die of that sequence's loom. -/
def copyWalks (s : State) (t : Team) (f : CopyForm) (w0 w1 w2 w3 : Nat) : Option (Nat × List Nat) :=
  let h := copyShape f w0 w1 w2 w3
  if copyFieldsBad f h w0 w1 w2 w3 then none
  else
    let dst := if h.dsp then [] else pagesUnknown s (dieOf t.core) t [pageKey s t.ctx h.dst]
    if !dst.isEmpty then some (dieOf t.core, dst)
    else if dstWindow s t.ctx h || f != .decomp || w3 == 0 then none
    else
      let die := loomDie s (.ctx t.ctx) w3
      let bad := pagesUnknown s die t (txHdr (txStart s (.ctx t.ctx) false) w3).1.pages
      if bad.isEmpty then none else some (die, bad)

/-- The state once the header of a BAD sequence has been read (R288). -/
def copyReads (s : State) (t : Team) (f : CopyForm) (w3 : Nat) : State :=
  if f == .decomp && w3 != 0 then (txHdr (txStart s (.ctx t.ctx) false) w3).1.s else s

/-- The cause a COPY meets at acceptance, in the order of R288 (log 32, DEDUCED). -/
def copyCause (s : State) (t : Team) (f : CopyForm) (n w0 w1 w2 w3 : Nat) : Option Nat :=
  let h := copyShape f w0 w1 w2 w3
  let limit := spgBytes (getCore s t.core).word
  if copyFieldsBad f h w0 w1 w2 w3 || dstWindow s t.ctx h || (f == .decomp && w3 != 0 && !(badSeqOk s t.ctx w3)) then some 0x57
  else if 2 ^ 56 < copySrcEnd f h ∨ (!h.dsp ∧ 2 ^ 56 < copyDstEnd h) then some 0x61
  else if !(copyAligned f h) then some 0x60
  else if (h.ssp && decide (limit < h.src + (h.nr - 1) * h.sstr + h.rb)) || (h.dsp && decide (limit < copyDstEnd h)) then
    some 0x62
  else if !(lockTakes (getLock s t.core n)) then some 0x55
  else none

/-! ## Reading the source -/

/-- Why a reading of the engine ended: nothing stopped it, a replayable cause with its address (R289), data that cannot be delivered
(R291), or a peer's answer that has not come. -/
inductive EngEnd where
  | all
  | replay (cause addr : Nat)
  | bad (cause : Nat)
  | wait
  deriving DecidableEq, Repr

/-- The engine at work on a command: the state, the peer reads of the command, the source bytes it holds (R290), what its reads have
seen (R391), and the bytes of an element for the matrix unit, which reads element by element (R400), 0 for the copy engine. -/
structure Engine where
  s : State
  asks : List CopyAsk
  stage : List (Nat × Byte)
  seen : List Nat
  elem : Nat
  deriving DecidableEq, Repr

/-- The engine holds source bytes from an address on. -/
def stagePut (g : Engine) (va : Nat) (bs : List Byte) : Engine := { g with stage := logPut g.stage va bs }

/-- What an engine finds of bytes that stand in a memory (R283, R386, R400): each granule at one moment, or each element. -/
def engSees (s : State) (g : Engine) (first a : Nat) (now : List Byte) : List Byte :=
  let at_ := fun (reader x : Nat) (bs : List Byte) => (readBytes s g.seen.contains reader first x bs).bytes
  if g.elem = 0 then at_ copyReader a now
  else
    (List.range (now.length / g.elem)).flatMap fun i =>
      at_ (elemReader (a + g.elem * i) 0) (a + g.elem * i) ((now.drop (g.elem * i)).take g.elem)

/-- Fetches a source sector that the engine does not hold, for a byte at `at_` (R281, R289, R291). -/
def engFetch (core id : Nat) (pol : Pol) (window : Bool) (at_ : Nat) (g : Engine) (va : Nat) : Engine × EngEnd :=
  match xlateWalk g.s id va .load with
  | .bad c => (g, if c = 0x01 ∨ c = 0x02 ∨ c = 0x21 then .replay c (max at_ va) else .bad c)
  | .miss => (g, .bad 0x64)
  | .ok p _ =>
    match p with
    | .dev k =>
      if (metaOf g.s (k / 256)).poison then (g, .bad 0x63)
      else
        let s1 := l1Keep (bring g.s (dieOf core) id va) core (va / 256) pol true
        let s2 := hearSlice (poundKeep (activate s1 (k / 256)) (k / 256) false pol) core (k / 256)
        (stagePut { g with s := s2 } va (engSees s2 g 0 k (memBytes s2.mem k 32)), .all)
    | .host a =>
      if !window then (g, .bad 0x64)
      else if hostUp g.s then (stagePut g va (engSees g.s g hostGrains a (memBytes g.s.hostMem a 32)), .all)
      else (g, .bad 0x65)
    | .peer slot a =>
      if !window then (g, .bad 0x64)
      else
        match g.asks.find? (fun q => q.addr == va) with
        | some q =>
          match q.answer with
          | some (.ok bs) => (stagePut g va ((bs ++ List.replicate 32 0#8).take 32), .all)
          | some (.failed _) => (g, .bad 0x65)
          | none => (g, .wait)
        | none =>
          match sendPeer g.s 0 id slot va a ⟨false, List.replicate 32 none, none, [], none, 32, false⟩ with
          | (s1, i) => ({ g with s := s1, asks := g.asks ++ [⟨va, 32, i, none⟩] }, .wait)
    | .table _ => (g, .bad 0x64)

/-- Fetches what the engine does not hold of the sectors of a range; it asks every peer before it waits. -/
def engSectors (core id : Nat) (pol : Pol) (window : Bool) (at_ : Nat) : Nat → Engine → Nat → Engine × List (Nat × EngEnd)
  | 0, g, _ => (g, [])
  | n + 1, g, va =>
    if (find? g.stage va).isSome then engSectors core id pol window at_ n g (va + 32)
    else
      match engFetch core id pol window at_ g va with
      | (g1, .all) => engSectors core id pol window at_ n g1 (va + 32)
      | (g1, .wait) =>
        match engSectors core id pol window at_ n g1 (va + 32) with
        | (g2, l) => (g2, (va, .wait) :: l)
      | (g1, e) => (g1, [(va, e)])

/-- Reads source bytes: those before the first sector that stops the reading, and what stopped it. -/
def engRead (core id : Nat) (pol : Pol) (window : Bool) (g : Engine) (va n : Nat) : Engine × List Byte × EngEnd :=
  let lo := va / 32 * 32
  match engSectors core id pol window va ((va + n - lo + 31) / 32) g lo with
  | (g1, l) =>
    match l with
    | [] => (g1, overlay g1.stage va (List.replicate n 0#8), .all)
    | (x, e) :: _ =>
      let e1 := if l.any (fun y => y.2 == .wait) then .wait else e
      (g1, overlay g1.stage va (List.replicate (x - va) 0#8), e1)

/-- An output byte: made, or one that cannot be delivered, with its cause (R291). -/
inductive OutB where
  | ok (b : Byte)
  | bad (cause : Nat)
  deriving DecidableEq, Repr

/-- Output bytes as far as they could be made, the flags they raise, and what stopped their making. -/
structure Made where
  g : Engine
  out : List OutB
  fl : FlagSet
  stop : EngEnd
  deriving DecidableEq, Repr

/-- Output bytes after `bs` of `n`: the rest cannot be delivered where the data is bad, and nothing follows where it stalls. -/
def madeOf (g : Engine) (n : Nat) (bs : List Byte) (fl : FlagSet) (e : EngEnd) : Made :=
  match e with
  | .bad c => ⟨g, bs.map .ok ++ List.replicate (n - bs.length) (.bad c), fl, .all⟩
  | _ => ⟨g, bs.map .ok, fl, e⟩

/-- The bytes and flags of `cnt` consecutive MXFP6 elements of a block (R60-R62). -/
def mxBytes (e3m2 : Bool) (bf : Bool) (raw scale cnt : Nat) : List Byte × FlagSet :=
  let outs := (List.range cnt).map fun i =>
    mx6Expand (if e3m2 then fmtE3m2 else fmtE2m3) (if bf then fmtBf16 else fmtE4m3) scale (field raw (6 * i) 6)
  ((outs.map fun o => bytesOf (if bf then 2 else 1) o.1).flatten, flagAll (outs.map (·.2)))

/-- A granule of an MXFP6 form at output offset `o` (R281): the bytes of its elements, and its block's scale. -/
def mxGrain (core id : Nat) (h : CopyShape) (bf : Bool) (g : Engine) (o : Nat) : Made :=
  let eb := if bf then 2 else 1
  let b := o / (32 * eb)
  match engRead core id .l1 true g (h.scale + b) 1 with
  | (g1, sc, .all) =>
    match engRead core id .l1 true g1 (h.src + 24 * b + o % (32 * eb) / eb * 6 / 8) (12 / eb) with
    | (g2, raw, e) =>
      let r := mxBytes h.e3m2 bf (natOf raw) (natOf sc) (8 * raw.length / 6)
      madeOf g2 16 r.1 r.2 e
  | (g1, _, e) => madeOf g1 16 [] FlagSet.none e

/-- A granule of .tensor or .stream (R281). -/
def rowGrain (core id : Nat) (h : CopyShape) (pol : Pol) (g : Engine) (o : Nat) : Made :=
  let a := copySrc h o
  if h.ssp then
    if spadPoisoned (getCore g.s core) a 16 then madeOf g 16 [] FlagSet.none (.bad 0x63)
    else madeOf g 16 (spadSees g.s core g.seen.contains copyReader a 16) FlagSet.none .all
  else
    match engRead core id pol true g a 16 with
    | (g1, bs, e) => madeOf g1 16 bs FlagSet.none e

/-- A granule of any form but .decomp. -/
def copyGrain (core id : Nat) (f : CopyForm) (h : CopyShape) (g : Engine) (o : Nat) : Made :=
  match f with
  | .mx6e4m3 => mxGrain core id h false g o
  | .mx6bf16 => mxGrain core id h true g o
  | .stream => rowGrain core id h .strm g o
  | _ => rowGrain core id h .l1 g o

/-- The `n` output bytes from `o` on, up to the first replayable fault. -/
def copyMake (core id : Nat) (f : CopyForm) (h : CopyShape) : Nat → Engine → Nat → Nat → Made
  | 0, g, _, _ => ⟨g, [], FlagSet.none, .all⟩
  | fuel + 1, g, o, n =>
    if n = 0 then ⟨g, [], FlagSet.none, .all⟩
    else
      let m := copyGrain core id f h g (o / 16 * 16)
      let want := min n (16 - o % 16)
      let got := (m.out.drop (o % 16)).take want
      if got.length < want then
        match m.stop with
        | .wait =>
          let r := copyMake core id f h fuel m.g (o + want) (n - want)
          ⟨r.g, got, m.fl, .wait⟩
        | e => ⟨m.g, got, m.fl, e⟩
      else
        let r := copyMake core id f h fuel m.g (o + want) (n - want)
        ⟨r.g, got ++ r.out, flagOr m.fl r.fl, r.stop⟩

/-! ## Compressed streams (R286) -/

/-- A chunk read: its 256 output bytes, the reason it is bad (0 for none), and where the next chunk stands. -/
structure Chunk where
  made : Made
  reason : Nat
  next : Nat
  dead : Option Nat
  deriving DecidableEq, Repr

/-- Where the chunk after one that is not judged would start (R286, R287): the LEN field of its header gives its length; where that
cannot be read it is free (log 31, DESIGN CHOICE). -/
def chunkAfter (s : State) (g : Engine) (id a : Nat) : Nat :=
  match xlateWalk s id a .load, xlateWalk s id (a + 3) .load with
  | .ok (.dev k) _, .ok (.dev k2) _ =>
    if placePoison s (.dev k) || placePoison s (.dev k2) then Config.freeNat s.free a % 2 ^ 56
    else a + 8 + 32 * field (natOf (engSees s g 0 k (memBytes s.mem k 1))) 4 4
  | _, _ => Config.freeNat s.free a % 2 ^ 56

/-- The chunk at the command's place in its stream (R286, R380, R381). A header that cannot be read leaves no later chunk
readable (log 31, DESIGN CHOICE) (log 32, DEDUCED). -/
def readChunk (core id : Nat) (g : Engine) (c : CopyCmd) : Chunk :=
  let at_ := c.chunkAt
  let zero := fun (g : Engine) => madeOf g 256 (List.replicate 256 0#8) FlagSet.none .all
  match c.dead with
  | some 0 => ⟨zero g, 4, chunkAfter g.s g id at_, c.dead⟩
  | some x => ⟨madeOf g 256 [] FlagSet.none (.bad x), 0, at_, c.dead⟩
  | none =>
    match engRead core id .l1 false g at_ 4 with
    | (g1, hb, .all) =>
      match chunkHeader (natOf hb) with
      | none => ⟨zero g1, 2, at_ + 8 + 32 * field (natOf hb) 4 4, some 0⟩
      | some (enc, len) =>
        let next := at_ + 8 + 32 * len
        match engRead core id .l1 false g1 (at_ + 4) (32 * len + 4) with
        | (g2, rest, .all) =>
          let pay := rest.take (32 * len)
          if crc32c (hb ++ pay) ≠ natOf (rest.drop (32 * len)) then ⟨zero g2, 1, next, none⟩
          else
            match decodePayload enc pay with
            | some bs => ⟨madeOf g2 256 bs FlagSet.none .all, 0, next, none⟩
            | none => ⟨zero g2, 3, next, none⟩
        | (g2, _, e) => ⟨madeOf g2 256 [] FlagSet.none e, 0, next, none⟩
    | (g1, _, .bad x) => ⟨madeOf g1 256 [] FlagSet.none (.bad x), 0, at_, some x⟩
    | (g1, _, e) => ⟨madeOf g1 256 [] FlagSet.none e, 0, at_, none⟩

/-! ## Writing a unit -/

/-- How a unit's write ends: stalled at its first byte, or done with the causes of bytes whose destination may not be
written. -/
inductive UnitPut where
  | stall (s : State) (cause addr : Nat)
  | done (s : State) (cause : Option Nat)
  deriving DecidableEq, Repr

/-- The first byte that cannot be delivered: its place, and its cause. -/
def firstBad (bs : List OutB) : Option (Nat × Nat) :=
  bs.zipIdx.findSome? fun e =>
    match e.1 with
    | .bad c => some (e.2, c)
    | _ => none

/-- The bytes that are made. -/
def okBytes (bs : List OutB) : List Byte := bs.filterMap fun b => match b with | .ok x => some x | _ => none

/-- Poisons a block (R291). -/
def poisonBlock (s : State) (b : Nat) : State := setMeta s b { metaOf s b with poison := true }

/-- Writes bytes to the block that holds global address `a` (R283, R284, R291). -/
def putGlobal (au : Author) (s : State) (core id a : Nat) (bs : List OutB) : UnitPut :=
  match xlateWalk s id a .store with
  | .bad c => if c = 0x01 ∨ c = 0x02 ∨ c = 0x21 then .stall s c a else .done s (some c)
  | .miss => .done s (some 0x64)
  | .ok p leaf =>
    match p with
    | .dev k =>
      let deb := leafDebits leaf
      let paid : State × Bool := if deb then debit8 s (.core core) id else (s, true)
      if !paid.2 then .stall paid.1 0x20 a
      else
        let s1 := markDirty (bring paid.1 (dieOf core) id a) (dieOf core) id a
        if (firstBad bs).isSome then .done (poisonBlock (if deb then undebit s1 (.core core) id 8 else s1) (k / 256)) none
        else
          let data := (okBytes bs).map some
          let bytes := List.replicate (a % 256) none ++ data ++ List.replicate (256 - a % 256 - data.length) none
          .done (storeOver au s1 id (.core core) deb (k / 256) bytes) none
    | _ => .done s (some 0x64)

/-- Writes bytes to the scratchpad, granule by granule; one with a byte that cannot be delivered is poisoned (R291). -/
def putSpad (au : Author) (core : Nat) (h : CopyShape) : Nat → State → Nat → List OutB → State
  | 0, s, _, _ => s
  | fuel + 1, s, o, bs =>
    if bs.isEmpty then s
    else
      let a := copyDst h o
      let n := 16 - o % 16
      let part := bs.take n
      let s1 :=
        if (firstBad part).isSome then modCore s core fun c => { c with spadPoison := dedupNat (c.spadPoison ++ [a / 16]) }
        else spadWriteBy au s core a (okBytes part)
      putSpad au core h fuel s1 (o + n) (bs.drop n)

/-- The length of the next unit (R278, R284): a unit of a global destination lies in one block. -/
def unitLen (h : CopyShape) (o : Nat) : Nat :=
  let left := copyTotal h - o
  if h.dsp then min (256 - o % 256) left
  else
    let row := if h.dstr = h.rb ∨ h.nr = 1 then left else h.rb - o % h.rb
    min (256 - copyDst h o % 256) (min left row)

/-- Whether a lock is a gate lock in a drain phase, in which a bound command writes nothing (R274); a broken one holds no command
(R275) (log 29, DEDUCED). -/
def gateShutOf (l : Lock) : Bool := l.st == .valid && l.gate && bitAt l.phase.toNat 0

/-- Of `n` bytes, those that a command may write now: none in a drain phase of its gate lock, and no more than complete a fill phase
that waits for bytes alone (R274, R275) (log 29, DEDUCED). -/
def gateRoom (l : Lock) (n : Nat) : Nat :=
  if gateShutOf l then 0
  else if l.gate ∧ l.st = .valid ∧ l.penda = 0 ∧ l.bdone < l.bexp then min n (l.bexp - l.bdone)
  else n

/-- The record that the engine writes for a command (R450). -/
def copyRec (s : State) (core q : Nat) (c : CopyCmd) (cause addr w5 w6 : Nat) : FaultRec :=
  { teamRec s c.uid cause none addr with
    core := core, pc := c.pc, w5 := w5 + q * 2 ^ 40 + c.lock * 2 ^ 42, w6 := w6 }

/-- Replaces the command at the head of a queue. -/
def setHead (s : State) (core q : Nat) (c : CopyCmd) : State :=
  modCore s core fun k => { k with copyQ := setAt k.copyQ q (c :: (nth [] k.copyQ q).drop 1) }

/-- The waiting COPY of a queue that waited first: its ticket, team and command. -/
def firstCopy (s : State) (core q : Nat) : Option (Nat × Nat × CopyCmd) :=
  let ws := s.teams.filterMap fun e =>
    match e.2.status with
    | .waiting (.copyPlace p c at_) => if e.2.core = core ∧ p = q then some (at_, e.1, c) else none
    | _ => none
  match ws with
  | [] => none
  | w :: l => some (l.foldl (fun m x => if x.1 < m.1 then x else m) w)

/-- A place has freed in a queue: the COPY that waited first is appended, and its team goes on (R278, R282). -/
def copyAdmit (s : State) (core q : Nat) : State :=
  if 8 ≤ (nth [] (getCore s core).copyQ q).length then s
  else
    match firstCopy s core q with
    | none => s
    | some (_, u, c) =>
      fallThrough (modCore s core fun k => { k with copyQ := setAt k.copyQ q (nth [] k.copyQ q ++ [c]) }) u true

/-- Every freed place of every queue is taken, while a COPY waits for one. -/
def copyAdmitAll (s : State) (core : Nat) : State :=
  [0, 1, 2, 3].foldl (fun s q => (List.range 8).foldl (fun s _ => copyAdmit s core q) s) s

/-- The command at the head of a queue has written its last byte (R275). -/
def copyFinish (s : State) (core q : Nat) (c : CopyCmd) : State :=
  let s1 := modCore s core fun k => { k with copyQ := setAt k.copyQ q ((nth [] k.copyQ q).drop 1) }
  copyAdmit (if c.gone then s1 else lockEngEnd s1 core c.lock) core q

/-- Appends a 16-byte record to the sequence BAD by a reservation and a commit, in one loom step (R287); none where the reservation
fails. -/
def badAppend (s : State) (id core h : Nat) (bytes : List Byte) : Option State :=
  let sp := Space.ctx id
  let r := loomReserve (txStart s sp false) h 1
  if 2 ^ 63 ≤ r.res ∨ !txOk r.tx then none
  else
    let a := loomAddr r.tx h r.res
    if 2 ^ 63 ≤ a.res ∨ !txOk a.tx then none
    else
      let c := loomClose (txPutLong 2 a.tx a.res bytes) false h r.res 1
      match txFinish c.tx (loomDie s sp h) (.core core) with
      | .done s1 =>
        some (addSeqRel (match c.cl with | some n => afterCl s1 sp h n | none => s1) (spaceNo sp) h (r.res + 1)
          ⟨madeSince s s1, 0⟩)
      | .fault _ _ _ => none

/-- A bad chunk's record on the BAD sequence, or 0x83 (R287). -/
def badChunk (s : State) (core id q : Nat) (c : CopyCmd) (reason : Nat) : State :=
  if reason = 0 ∨ c.w3 = 0#64 ∨ c.off % 256 ≠ 0 then s
  else
    let i := c.off / 256
    match badAppend s id core c.w3.toNat (bytesOf 8 (i + reason * 2 ^ 32) ++ bytesOf 8 c.chunkAt) with
    | some s1 => s1
    | none => pushRec s (copyRec s core q c 0x83 0 0 i)

/-- A command stalls (R289): a retry that meets the same cause writes no new record. -/
def copyStall (s : State) (core q : Nat) (c : CopyCmd) (cause addr : Nat) : State :=
  let s1 := if c.stall = some cause then s else pushRec s (copyRec s core q c cause addr c.off 0)
  setHead s1 core q { c with stall := some cause, retryAt := s.mgmt.time + 50000 }

/-- Who writes for a command: what it writes comes after all that its team had seen when it was accepted (R391). -/
def copyWrites (c : CopyCmd) : Author := ⟨none, c.view.seen, false, []⟩

/-- What the bytes that a command counts come after (R276, R391): its acceptance, and its own writes. -/
def copyRel (core : Nat) (c : CopyCmd) (made : List Nat) : Rel := ⟨.team c.uid core, .dev, joinView c.view ⟨made, 0⟩, true⟩

/-- What a command writes and counts (R281, R285, R291), its writes numbered `made`: the bytes that are made or cannot be delivered. What it has fetched for them
alone is let go; where a fault stops it after them, it keeps what it fetched without fault (R290). -/
def unitDone (s : State) (core q : Nat) (c : CopyCmd) (m : Made) (dcause : Option Nat) (stopped : Bool) (made : List Nat) :
    State × CopyCmd :=
  let n := m.out.length
  let fail := match dcause with
    | some x => some (0, x)
    | none => firstBad m.out
  let s1 := raiseCopy s core m.fl
  let s2 := match fail with
    | some (o, x) => if c.failed then s1 else pushRec s1 (copyRec s1 core q c 0x82 0 (c.off + o + x * 2 ^ 48) 0)
    | none => s1
  let off := c.off + n
  let whole := !stopped && (if c.form = .decomp then off % 256 == 0 else off % 16 == 0)
  (lockCount s2 core c.lock n (copyRel core c made), { c with
    off := off, stall := none, failed := c.failed || fail.isSome
    asks := if whole then [] else c.asks, stage := if whole then [] else c.stage })

/-- Poisons the `n` output bytes from `o` on, a unit at a time (R291, R292). -/
def copyPoison (core id : Nat) (h : CopyShape) : Nat → State → Nat → Nat → State
  | 0, s, _, _ => s
  | fuel + 1, s, o, n =>
    if n = 0 then s
    else
      let m := min n (unitLen h o)
      let s1 :=
        if h.dsp then putSpad deviceWrites core h 17 s o (List.replicate m (.bad 0))
        else
          match xlateWalk s id (copyDst h o) .store with
          | .ok (.dev k) _ => poisonBlock s (k / 256)
          | _ => s
      copyPoison core id h fuel s1 (o + m) (n - m)

/-- An abandoned command (R275, R292): what its lock lets it count now is poisoned and counted; no record is written. -/
def copyAbandon (core : Nat) (s : State) (c : CopyCmd) : State × CopyCmd :=
  let h := shapeOf c
  let n := gateRoom (getLock s core c.lock) (copyTotal h - c.off)
  let s1 := copyPoison core (getCore s core).ctx h (copyTotal h) s c.off n
  (lockCount s1 core c.lock n (copyRel core c []), { c with off := c.off + n, stall := none, gone := true })

/-- A command goes on after a unit, or has written its last byte. -/
def copyNow (s : State) (core q : Nat) (c : CopyCmd) : State :=
  if copyTotal (shapeOf c) ≤ c.off then copyFinish s core q c else setHead s core q c

/-- The next unit of the command at the head of a queue (R278, R281, R289) (log 29, DEDUCED). -/
def copyUnit (s : State) (core q : Nat) (c : CopyCmd) : State :=
  let h := shapeOf c
  let id := (getCore s core).ctx
  let n := gateRoom (getLock s core c.lock) (unitLen h c.off)
  if c.gone then
    match copyAbandon core s c with
    | (s1, c1) => copyNow s1 core q c1
  else
    let g : Engine := ⟨s, c.asks, c.stage, c.view.seen, 0⟩
    let r : Chunk := match c.form with
      | .decomp =>
        let k := readChunk core id g c
        let m := min n (256 - c.off % 256)
        { k with made := { k.made with out := (k.made.out.drop (c.off % 256)).take m } }
      | f => ⟨copyMake core id f h 18 g c.off n, 0, c.chunkAt, c.dead⟩
    let m := r.made
    let c0 := { c with asks := m.g.asks, stage := m.g.stage }
    if m.stop = .wait then setHead m.g.s core q c0
    else
      let fault := match m.stop with | .replay x a => some (x, a) | _ => none
      let put := if m.out.isEmpty then .done m.g.s none
        else if h.dsp then .done (putSpad (copyWrites c) core h 18 m.g.s c.off m.out) none
        else putGlobal (copyWrites c) m.g.s core id (copyDst h c.off) m.out
      match put with
      | .stall s1 x a => copyStall s1 core q c0 x a
      | .done s1 dcause =>
        if m.out.isEmpty then
          match fault with
          | some (x, a) => copyStall s1 core q c0 x a
          | none => s1
        else
          let s2 := badChunk s1 core id q c0 r.reason
          let c1 := if (c.off + m.out.length) % 256 = 0 then { c0 with chunkAt := r.next, dead := r.dead } else c0
          match unitDone s2 core q c1 m dcause fault.isSome (madeSince m.g.s s1) with
          | (s3, c2) =>
            match fault with
            | some (x, a) => copyStall s3 core q c2 x a
            | none => copyNow s3 core q c2

/-! ## The instruction and the events -/

/-- COPY (R279-R282): the walks of its acceptance come first (R364). -/
def execCopy (a n : KReg) (q : BitVec 2) (f : CopyForm) (s : State) : Out :=
  boundaryNormal { noAccess with rk := [(a.toNat, 4)] } (fun s u t =>
    let w := fun i => kreg t (a.toNat + i)
    match copyWalks s t f (w 0).toNat (w 1).toNat (w 2).toNat (w 3).toNat with
    | some (die, pages) => done (requestWalkAt s die u pages)
    | none =>
    let s := copyReads s t f (w 3).toNat
    match copyCause s t f n.toNat (w 0).toNat (w 1).toNat (w 2).toNat (w 3).toNat with
    | some x => done (teamStop s u x none 0)
    | none =>
      let l := getLock s t.core n.toNat
      let s1 := setLock s t.core n.toNat { l with eng := l.eng + 1 }
      let c : CopyCmd :=
        { w0 := w 0, w1 := w 1, w2 := w 2, w3 := w 3, form := f, lock := n.toNat, off := 0, stall := none, retryAt := 0
          uid := u, team := t.id, pc := t.cur.group, chunkAt := field (w 0).toNat 0 56, dead := none, failed := false
          asks := [], stage := [], gone := false, view := teamView s u }
      let l := nth [] (getCore s t.core).copyQ q.toNat
      if 8 ≤ l.length then done (waitFor s1 u (.copyPlace q.toNat c s.free))
      else
        done (fallThrough (modCore s1 t.core fun k => { k with copyQ := setAt k.copyQ q.toNat (l ++ [c]) }) u true)) s

/-- Whether a command's gate lock is in a drain phase (R274). -/
def gateShut (c : Core) (k : CopyCmd) : Bool := gateShutOf (tabGet Lock.reset c.locks k.lock)

/-- The command at the head of a queue, when it may write its next unit: it is not stalled, its gate lock is not in a drain
phase (R274), and no peer read of it is unanswered (log 29, DEDUCED). -/
def copyRuns (c : Core) (q : Nat) : Option CopyCmd :=
  match (nth [] c.copyQ q).head? with
  | none => none
  | some k =>
    if k.stall.isSome || gateShut c k || k.asks.any (fun a => a.answer.isNone) then none else some k

/-- The queue whose turn it is (R278). -/
def copyNext (c : Core) : Option Nat :=
  ((rangeFrom c.copyTurn 4).map (· % 4)).find? fun q => (copyRuns c q).isSome

/-- COPY_UNIT_WRITE (R278, R281): the queues share the engine in turn, a unit at a time. -/
def execCopyUnitWrite (core q : Nat) (s : State) : Out :=
  let k := getCore s core
  if copyNext k = some q then
    match copyRuns k q with
    | some c => done (copyUnit (modCore s core fun k => { k with copyTurn := (q + 1) % 4 }) core q c)
    | none => .next s
  else .next s

/-- COPY_RETRY (R289): a stalled command tries its faulting access again (log 29, DEDUCED). -/
def execCopyRetry (core q : Nat) (s : State) : Out :=
  match (nth [] (getCore s core).copyQ q).head? with
  | some c =>
    if c.stall.isSome && decide (c.retryAt ≤ s.mgmt.time) && !(gateShut (getCore s core) c) then done (copyUnit s core q c)
    else .next s
  | none => .next s

/-! ## What other events do to copy commands -/

/-- A list in which the first entry equal to `c` is replaced by `l`. -/
def replaceFirst (c : CopyCmd) (l : List CopyCmd) : List CopyCmd → List CopyCmd
  | [] => []
  | x :: xs => if x = c then l ++ xs else x :: replaceFirst c l xs

/-- A change of a context's pages or grant lets its stalled commands try again at once (R289). -/
def copyDue (s : State) (id : Nat) : State :=
  let due := fun (c : CopyCmd) => if c.stall.isSome then { c with retryAt := 0 } else c
  { s with cores := s.cores.map fun e =>
      if e.2.ctx = id then (e.1, { e.2 with copyQ := e.2.copyQ.map fun q => q.map due }) else e }

/-- A command of a killed team is abandoned, in its queue (R275, R292): ENG falls, and a command whose gate lock lets it count only a
part stays for the rest. -/
def copyKillOne (core q : Nat) (s : State) (c : CopyCmd) : State :=
  match copyAbandon core s c with
  | (s1, c1) =>
    let rest := if copyTotal (shapeOf c1) ≤ c1.off then [] else [c1]
    lockEngEnd (modCore s1 core fun k =>
      { k with copyQ := setAt k.copyQ q (replaceFirst c rest (nth [] k.copyQ q)) }) core c.lock

/-- The output that a core's abandoned commands still owe is poisoned, when the core leaves its context (R292). -/
def copyAbandoned (s : State) (core : Nat) : State :=
  ((getCore s core).copyQ.flatten.filter (·.gone)).foldl (fun s c =>
    let h := shapeOf c
    copyPoison core (getCore s core).ctx h (copyTotal h) s c.off (copyTotal h - c.off)) s

/-- The copy commands of a team are abandoned (R292), and the places that free are taken. -/
def copyKill (s : State) (core u : Nat) : State :=
  let s1 := match (getTeam s u).status with
    | .waiting (.copyPlace _ c _) => lockEngEnd (modTeam s u fun t => { t with status := .ready }) core c.lock
    | _ => s
  let s2 := [0, 1, 2, 3].foldl (fun s q =>
    ((nth [] (getCore s core).copyQ q).filter fun c => c.uid == u && !c.gone).foldl (copyKillOne core q) s) s1
  copyAdmitAll s2 core

/-- Whether a team has copy commands that have not counted their last byte (R239, R292). -/
def copyBusy (s : State) (core u : Nat) : Bool := ((getCore s core).copyQ.flatten).any (·.uid == u)

end Sys2Proof.Machine
end

