-- ==== Sys2Proof/Machine/Matrix.lean ====
section
/-! DEFINITION. The matrix unit (09 R179-R202): products and sums (04 R77-R79), the queue and its acceptance, batches and
waiting, and what MMA, MACS and ACCMV compute when they retire. -/

namespace Sys2Proof.Machine

/-! ## Products and sums (R77, R78) -/

/-- A product of the matrix unit (R77): a zero factor makes it +0, whatever the other is. -/
def matProd (a b : FVal) : FVal := if fvZero a || fvZero b then .fin false 0 0 else fvMul a b

/-- An exact zero sum is taken as +0 (R78). -/
def plusZero : FVal → FVal
  | .fin n m e => if m = 0 then .fin false 0 0 else .fin n m e
  | v => v

/-- Adds one group's exact sum to an accumulator (R78). -/
def accAdd (acc : Nat) (prods : List FVal) : Nat × FlagSet :=
  deliver fmtF32 .rne false (fvAdd .rne (fval fmtF32 acc) (plusZero (fvSum prods)))

/-- Adds products to an accumulator, group by group (R78). -/
def dotGroups (g : Nat) : Nat → List FVal → Nat → Nat × FlagSet
  | 0, _, acc => (acc, FlagSet.none)
  | fuel + 1, ps, acc =>
    if ps.isEmpty then (acc, FlagSet.none)
    else
      match accAdd acc (ps.take g) with
      | (a1, f1) =>
        match dotGroups g fuel (ps.drop g) a1 with
        | (a2, f2) => (a2, flagOr f1 f2)

/-- The products of two rows of elements. -/
def prodsOf : List FVal → List FVal → List FVal
  | a :: as, b :: bs => matProd a b :: prodsOf as bs
  | _, _ => []

/-- A dot product added to an accumulator. -/
def dotInto (g : Nat) (a b : List FVal) (acc : Nat) : Nat × FlagSet := dotGroups g (a.length + 1) (prodsOf a b) acc

/-- The float format of an MMA format; O4 has none. -/
def mmaFmt : MmaFmt → Option Fmt
  | .e4m3 => some fmtE4m3
  | .e5m2 => some fmtE5m2
  | .bf16 => some fmtBf16
  | .f16 => some fmtF16
  | .o4 => none

/-- The group size of a format (R78). -/
def mmaGroup : MmaFmt → Nat
  | .bf16 | .f16 => 8
  | _ => 32

/-- The bits of an element (R55-R58, R64). -/
def mmaBits : MmaFmt → Nat
  | .bf16 | .f16 => 16
  | .o4 => 4
  | _ => 8

/-- The elements of a row in a float format. -/
def floatElems (f : Fmt) (bs : List Byte) : List FVal :=
  let w := fmtWidth f / 8
  (blockWords w (bs.length / w) bs).map (fval f)

/-- The elements of a 64-byte operand row, and the flags of decoding it (R185, R187). -/
def rowElems (f : MmaFmt) (bs : List Byte) : List FVal × FlagSet :=
  match mmaFmt f with
  | some x => (floatElems x bs, FlagSet.none)
  | none =>
    let us := (blockWords 2 (bs.length / 2) bs).map o4Unit
    ((us.map (·.1)).flatten, flagNv (us.any (·.2)))

/-! ## Operands -/

/-- Tile elements, and whether a range of them holds a poisoned one (R411). -/
def tileWord (c : Core) (t i j : Nat) : Nat := (tabGet 0#32 c.tile (tileKey t i j)).toNat
def tileBad (c : Core) (t : Nat) : Bool := c.tilePoison.any fun k => k / 4096 == t

/-- The words of a tile, row by row. -/
def tileWords (c : Core) (t : Nat) : List Nat := (rangeFrom (tileKey t 0 0) 4096).map fun k => (tabGet 0#32 c.tile k).toNat

/-- Writes a tile. Whether a poisoned element that is written still reads as poison is free (log 30, DESIGN CHOICE). -/
def setTile (n : Nat) (c : Core) (t : Nat) (ws : List Nat) : Core :=
  { c with
    tile := tabSetMany 0#32 c.tile (tileKey t 0 0) (ws.map (BitVec.ofNat 32))
    tilePoison := c.tilePoison.filter fun k => k / 4096 != t || Config.freeBit n (2 ^ 44 + k) }

/-- The row pair of a tile. -/
def rowPair (c : Core) (t : Nat) : List W32 × List W32 :=
  let get := fun (m : Tab W32) => (rangeFrom (rowPairKey t 0) 64).map (tabGet 0#32 m)
  (get c.rowM, get c.rowL)

/-- Writes a row pair. -/
def setRowPair (c : Core) (t : Nat) (m l : List W32) : Core :=
  { c with rowM := tabSetMany 0#32 c.rowM (rowPairKey t 0) m, rowL := tabSetMany 0#32 c.rowL (rowPairKey t 0) l }

/-- `cnt` elements of `w` bits as an operation reads them (R191): each is the old one or the new one, which is free
(log 15, DESIGN CHOICE). -/
def pickElems (n key w old new : Nat) : Nat → Nat
  | 0 => 0
  | cnt + 1 =>
    let x := if Config.freeBit n (key + cnt) then new else old
    pickElems n key w old new cnt + field x (w * cnt) w * 2 ^ (w * cnt)

/-- `cnt` bytes of an operand with elements of `w` bits as an operation reads them in a core's scratchpad, element by element (R191, R400). -/
def opBytes (s : State) (core : Nat) (o : MOp) (w a cnt : Nat) : List Byte :=
  let es := max 1 (w / 8)
  let elem := fun (x j : Nat) => field (natOf (spadSees s core o.seen.contains (elemReader x j) x es)) (w * j) w * 2 ^ (w * j)
  (List.range (cnt / es)).flatMap fun i =>
    bytesOf es ((List.range (8 * es / w)).foldl (fun v j => v + elem (a + es * i) j) 0)

/-- Whether any of the scratchpad an operation reads is poisoned. -/
def rowsBad (c : Core) (a st len rows : Nat) : Bool := (List.range rows).any fun i => spadPoisoned c (a + i * st) len

/-! ## Descriptors -/

/-- The MMA descriptor (R184). -/
structure MmaDesc where
  dt : Nat
  at_ : Nat
  areg : Nat
  ar : Bool
  akoff : Nat
  spa : Nat
  spb : Nat
  sta : Nat
  stb : Nat
  deriving DecidableEq, Repr

/-- Reads an MMA descriptor. -/
def mmaDesc (w0 w1 w2 : Nat) : MmaDesc :=
  ⟨field w0 0 8, field w0 8 8, field w0 16 7, bitAt w0 23, field w0 24 1, field w1 0 32, field w1 32 32, field w2 0 16,
    field w2 16 16⟩

/-- Whether an MMA descriptor breaks R184 or R185 (R199 step 1); the range of AT is taken to be that of DT (log 63, DEDUCED). -/
def mmaDescBad (f : MmaFmt) (acca : Bool) (w0 w1 w2 : Nat) : Bool :=
  let d := mmaDesc w0 w1 w2
  let inSpad := !d.ar && !acca
  decide (2 ^ 25 ≤ w0) || decide (2 ^ 32 ≤ w2) || (d.ar && acca) || (acca && d.at_ == d.dt) || (!acca && d.at_ != 0) ||
    (!d.ar && d.areg != 0) || (d.akoff != 0 && !(acca && (f == .bf16 || f == .f16))) ||
    (!inSpad && (d.spa != 0 || d.sta != 0)) || (inSpad && (d.sta % 16 != 0 || decide (d.sta < 64))) ||
    d.stb % 16 != 0 || decide (d.stb < 64) || decide (191 < d.dt) || decide (191 < d.at_)

/-- Whether a run of rows passes the scratchpad. -/
def spadOver (c : Core) (a st len rows : Nat) : Bool := decide (spgBytes c.word < a + (rows - 1) * st + len)

/-- Whether the follower of a pair is not ready (R188). -/
def pairBad (s : State) (core dt at_ : Nat) (acca ar : Bool) : Bool :=
  let c := getCore s core
  let f := getCore s (core + 1)
  core % 2 == 1 || f.offline || f.ctx != c.ctx || f.word != c.word || decide (actTiles f.word ≤ dt) ||
    (acca && decide (actTiles f.word ≤ at_)) || ar

/-- The cause an MMA meets at acceptance (R199) (log 33, DEDUCED). -/
def mmaCause (s : State) (core : Nat) (f : MmaFmt) (acca pair : Bool) (w0 w1 w2 : Nat) : Option Nat :=
  let d := mmaDesc w0 w1 w2
  let c := getCore s core
  let inSpad := !d.ar && !acca
  if mmaDescBad f acca w0 w1 w2 then some 0x51
  else if actTiles c.word ≤ d.dt ∨ (acca ∧ actTiles c.word ≤ d.at_) then some 0x47
  else if pair && pairBad s core d.dt d.at_ acca d.ar then some 0x52
  else if d.spb % 16 ≠ 0 ∨ (inSpad ∧ d.spa % 16 ≠ 0) then some 0x60
  else if (inSpad && spadOver c d.spa d.sta 64 64) || spadOver c d.spb d.stb 64 64 then some 0x62
  else none

/-- The MACS descriptor's scale size (R195). -/
def scaleBytes : ScaleFmt → Nat
  | .e8m0 => 1
  | .f32 => 4
  | .bf16 => 2

/-- The cause a MACS meets at acceptance (R199); the range of SRC and DST is taken to be that of DT (log 63, DEDUCED). -/
def macsCause (s : State) (core : Nat) (f : ScaleFmt) (w0 w1 w2 : Nat) : Option Nat :=
  let c := getCore s core
  let act := actTiles c.word
  let r := field w1 0 32
  let k := field w1 32 32
  if 2 ^ 16 ≤ w0 ∨ w2 ≠ 0 ∨ 191 < field w0 0 8 ∨ 191 < field w0 8 8 then some 0x51
  else if act ≤ field w0 0 8 ∨ act ≤ field w0 8 8 then some 0x47
  else if r % 16 ≠ 0 ∨ k % 16 ≠ 0 then some 0x60
  else if spadOver c r 0 (64 * scaleBytes f) 1 || spadOver c k 0 (64 * scaleBytes f) 1 then some 0x62
  else none

/-- The ACCMV descriptor (R196). -/
structure MvDesc where
  t : Nat
  u : Nat
  fmt : Nat
  rows : Bool
  addr : Nat
  str : Nat
  deriving DecidableEq, Repr

/-- Reads an ACCMV descriptor. -/
def mvDesc (w0 w1 w2 : Nat) : MvDesc := ⟨field w0 0 8, field w0 8 8, field w0 16 3, bitAt w0 19, w1, field w2 0 16⟩

/-- The bytes of a memory element and the rows of a move (R196). -/
def mvElem (fmt : Nat) : Nat := if fmt = 0 then 4 else if fmt ≤ 2 then 2 else 1
def mvRowLen (d : MvDesc) : Nat := 64 * mvElem d.fmt
def mvRows (d : MvDesc) : Nat := if d.rows then 66 else 64

/-- Whether a kind of move uses the scratchpad, or global memory, or goes into a tile. -/
def mvSpad : MKind → Bool
  | .t2s | .s2t => true
  | _ => false
def mvGlobal : MKind → Bool
  | .t2g | .g2t => true
  | _ => false
def mvInto : MKind → Bool
  | .s2t | .g2t => true
  | _ => false

/-- The cause an ACCMV meets before its global accesses (R199); the range of T and U is taken to be that of DT (log 63, DEDUCED). -/
def mvCause (s : State) (core : Nat) (k : MKind) (w0 w1 w2 : Nat) : Option Nat :=
  let d := mvDesc w0 w1 w2
  let c := getCore s core
  let act := actTiles c.word
  let plain := k == .t2t || k == .zero
  if 2 ^ 20 ≤ w0 ∨ 2 ^ 16 ≤ w2 ∨ 4 < d.fmt ∨ (k ≠ .t2t ∧ d.u ≠ 0) ∨ (d.rows ∧ d.fmt ≠ 0) ∨ (mvInto k ∧ 3 ≤ d.fmt) ∨
      (plain ∧ (d.fmt ≠ 0 ∨ d.addr ≠ 0 ∨ d.str ≠ 0)) ∨ (mvGlobal k ∧ d.str ≠ 0) ∨
      (mvSpad k ∧ (2 ^ 32 ≤ d.addr ∨ d.str % 16 ≠ 0 ∨ d.str < mvRowLen d)) ∨ 191 < d.t ∨ 191 < d.u then some 0x51
  else if act ≤ d.t ∨ (k = .t2t ∧ act ≤ d.u) then some 0x47
  else if (mvSpad k ∧ d.addr % 16 ≠ 0) ∨ (mvGlobal k ∧ d.addr % 256 ≠ 0) then some 0x60
  else if mvSpad k && spadOver c d.addr d.str (mvRowLen d) (mvRows d) then some 0x62
  else none

/-! ## Acceptance (R179, R180) -/

/-- The queue of a partition. -/
def matQueue (c : Core) (part : Nat) : List MOp := nth [] c.matQ part

/-- Whether a unit has no place (R179). -/
def matFull (s : State) (core part : Nat) : Bool := decide (16 ≤ (matQueue (getCore s core) part).length)

/-- Puts an operation into a unit's queue. -/
def matPush (s : State) (core part : Nat) (o : MOp) : State :=
  modCore s core fun c => { c with matQ := setAt c.matQ part (matQueue c part ++ [o]) }

/-- An operation as it is accepted, with nothing of its own yet. -/
def newOp (s : State) (u : Nat) (t : Team) (k : MKind) (desc : List W64) : MOp :=
  { kind := k, desc := desc, uid := u, order := s.free, batch := none, pc := t.cur.group, regsA := [], opRegs := []
    spadUse := [], seen := t.oprSeen, made := (teamView s u).seen, destTiles := [], destRows := [], destSpad := [], pages := [], voids := [], held := 0
    slave := false, tainted := false, asks := [], unit := t.part, destBlocks := [] }

/-- A scratchpad operand of `rows` rows as ranges. -/
def spadRows (a st len rows : Nat) : List (Nat × Nat) := (List.range rows).map fun i => (a + i * st, len)

/-- The registers of A held in vector registers (R185): row `i`'s word `w` as a lane and an effective register. -/
def aRegOf (t : Team) (areg i w : Nat) : Nat × Nat :=
  if 64 ≤ t.lanes then (i, areg + t.flow.x + w) else (i % 32, areg + t.flow.x + 16 * (i / 32) + w)

/-- How many registers A takes in vector registers. -/
def aRegs (t : Team) : Nat := if 64 ≤ t.lanes then 16 else 32

/-- A's words as an operation reads them at acceptance (R191): each element has the value of the last MFENCE.OPR or the value now. -/
def aWords (n : Nat) (t : Team) (f : MmaFmt) (areg : Nat) : List W32 :=
  ((List.range 64).map fun i => (List.range 16).map fun w =>
    let r := aRegOf t areg i w
    let new := vreg t r.1 r.2
    let old := tabGet 0#32 t.oprV (vkey r.1 r.2)
    if old = new then new
    else BitVec.ofNat 32 (pickElems n (2 ^ 46 + 8 * vkey r.1 r.2) (mmaBits f) old.toNat new.toNat (32 / mmaBits f))).flatten

/-- The MMA that a team's descriptor asks for. -/
def mmaOp (s : State) (u : Nat) (t : Team) (f : MmaFmt) (acca pair zero : Bool) (w : Nat → W64) : MOp :=
  let d := mmaDesc (w 0).toNat (w 1).toNat (w 2).toNat
  let inSpad := !d.ar && !acca
  let use := (if inSpad then spadRows d.spa d.sta 64 64 else []) ++ spadRows d.spb d.stb 64 64
  { newOp s u t (.mma f acca pair zero) [w 0, w 1, w 2] with
    regsA := if d.ar then aWords s.free t f d.areg else []
    opRegs := if d.ar then rangeFrom (d.areg + t.flow.x) (aRegs t) else []
    spadUse := use, destTiles := [d.dt] }

/-- The follower's half of a pair (R189). -/
def slaveOp (o : MOp) (acca : Bool) : MOp :=
  let d := mmaDesc ((nth 0#64 o.desc 0).toNat) ((nth 0#64 o.desc 1).toNat) ((nth 0#64 o.desc 2).toNat)
  let use := if acca then [] else spadRows d.spa d.sta 64 64
  { o with slave := true, spadUse := use, opRegs := [], regsA := [] }

/-- The stop of an instruction at acceptance. -/
def matStop (s : State) (u cause : Nat) : Out := done (teamStop s u cause none 0)

/-- MMA (R184-R189): a region boundary. That the registers of A pass the allotment (R185) is judged first among its own
faults (R53, log 33, DEDUCED). -/
def execMma (a : KReg) (f : MmaFmt) (acca pair zero : Bool) (s : State) : Out :=
  boundaryNormal { noAccess with rk := [(a.toNat, 3)] } (fun s u t =>
    let w := fun i => kreg t (a.toNat + i)
    let d := mmaDesc (w 0).toNat (w 1).toNat (w 2).toNat
    if d.ar && decide (t.allot < d.areg + t.flow.x + aRegs t) then matStop s u 0x44
    else
      match mmaCause s t.core f acca pair (w 0).toNat (w 1).toNat (w 2).toNat with
      | some c => matStop s u c
      | none =>
        if matFull s t.core t.part || (pair && matFull s (t.core + 1) t.part) then done (waitFor s u .matrixPlace)
        else
          let o := mmaOp s u t f acca pair zero w
          let s1 := matPush s t.core t.part o
          let s2 := if pair then matPush s1 (t.core + 1) t.part (slaveOp o acca) else s1
          done (fallThrough s2 u true)) s

/-- Accepts an operation of a kind that is no region boundary (R202). -/
def matAccept (s : State) (u : Nat) (t : Team) (o : MOp) : Out :=
  if matFull s t.core t.part then done (waitFor s u .matrixPlace)
  else done (fallThrough (matPush s t.core t.part o) u false)

/-- MACS (R195). -/
def execMacs (a : KReg) (f : ScaleFmt) (s : State) : Out :=
  issueOp { noAccess with rk := [(a.toNat, 3)] } (normalOnly fun s u t =>
    let w := fun i => kreg t (a.toNat + i)
    let w1 := (w 1).toNat
    match macsCause s t.core f (w 0).toNat w1 (w 2).toNat with
    | some c => matStop s u c
    | none =>
      let use := [(field w1 0 32, 64 * scaleBytes f), (field w1 32 32, 64 * scaleBytes f)]
      matAccept s u t { newOp s u t (.macs f) [w 0, w 1, w 2] with
        spadUse := use, destTiles := [field (w 0).toNat 8 8] }) s

/-- The operation of an ACCMV (R197). -/
def mvOp (s : State) (u : Nat) (t : Team) (k : MKind) (w : Nat → W64) : MOp :=
  let d := mvDesc (w 0).toNat (w 1).toNat (w 2).toNat
  let ranges := if mvSpad k then spadRows d.addr d.str (mvRowLen d) (mvRows d) else []
  let dst := match k with
    | .s2t | .g2t | .zero => [d.t]
    | .t2t => if d.t = d.u then [] else [d.u]
    | _ => []
  { newOp s u t k [w 0, w 1, w 2] with
    spadUse := ranges, destTiles := dst, destRows := if d.rows then dst else [], destSpad := if k = .t2s then ranges else [] }

/-- An ACCMV that touches no global memory. -/
def mvExec (a : KReg) (k : MKind) (s : State) : Out :=
  issueOp { noAccess with rk := [(a.toNat, 3)] } (normalOnly fun s u t =>
    let w := fun i => kreg t (a.toNat + i)
    match mvCause s t.core k (w 0).toNat (w 1).toNat (w 2).toNat with
    | some c => matStop s u c
    | none => matAccept s u t (mvOp s u t k w)) s

/-- Debits 8 sectors for each block of a list: how many were covered before the first that was not, if any. -/
def debitBlocks (s : State) (core id : Nat) : List Touch → State × Option Nat
  | [] => (s, none)
  | e :: es =>
    if !leafDebits e.leaf then debitBlocks s core id es
    else
      match debit8 s (.core core) id with
      | (s1, false) => (s1, some e.addr)
      | (s1, true) => debitBlocks s1 core id es

/-- The sectors a list of blocks debits. -/
def debitSum (l : List Touch) : Nat := 8 * (l.filter fun e => leafDebits e.leaf).length

/-- The blocks of checked accesses, each beside the memory it lies in. -/
def touchBlocks (l : List Touch) : List (Nat × Nat) :=
  l.filterMap fun e =>
    match e.place with
    | .dev k => some (0, k / 256)
    | .host a => some (1, a / 256)
    | .peer slot a => some (2 + slot, a / 256)
    | .table _ => none

/-- An ACCMV of global memory (R198): every block is checked as R176 checks lanes, and a store debits every block. -/
def mvGlobalExec (a : KReg) (k : MKind) (s : State) : Out :=
  issueOp { noAccess with rk := [(a.toNat, 3)] } (normalOnly fun s u t =>
    let w := fun i => kreg t (a.toNat + i)
    let d := mvDesc (w 0).toNat (w 1).toNat (w 2).toNat
    match mvCause s t.core k (w 0).toNat (w 1).toNat (w 2).toNat with
    | some c => matStop s u c
    | none =>
      let blocks := (List.range (mvRows d * mvRowLen d / 256)).map fun i => (⟨i, d.addr + 256 * i⟩ : LaneAddr)
      withChecked s u (checkLanes s t 256 (if k = .t2g then .store else .load) blocks) true fun l =>
        if matFull s t.core t.part then done (waitFor s u .matrixPlace)
        else if k = .t2g then
          match debitBlocks s t.core t.ctx l with
          | (s1, some x) =>
            let paid := debitSum (l.takeWhile fun e => e.addr != x)
            done (teamReplay (undebit s1 (.core t.core) t.ctx paid) u 0x20 none x)
          | (s1, none) => matAccept s1 u t { mvOp s u t k w with held := debitSum l, destBlocks := touchBlocks l }
        else matAccept s u t (mvOp s u t k w)) s

/-- ACCMV (R196-R198). -/
def execAccmvT2s (a : KReg) (s : State) : Out := mvExec a .t2s s
def execAccmvS2t (a : KReg) (s : State) : Out := mvExec a .s2t s
def execAccmvT2t (a : KReg) (s : State) : Out := mvExec a .t2t s
def execAccmvT2g (a : KReg) (s : State) : Out := mvGlobalExec a .t2g s
def execAccmvG2t (a : KReg) (s : State) : Out := mvGlobalExec a .g2t s
def execAccmvZero (a : KReg) (s : State) : Out := mvExec a .zero s

/-! ## Readiness, batches and waiting (R191-R193, R200) -/

/-- MFENCE.OPR (R191, R391): it waits for the results still in flight; what stands in the registers then, and what the team has seen of
memory, is visible to the operations that follow. -/
def execMfenceOpr (s : State) : Out :=
  issueOp noAccess (fun s1 u _ =>
    if !(getTeam s1 u).pend.isEmpty then .next s
    else
      done (fallThrough (modTeam (meldLanes s1 u) u fun t => { t with oprSeen := t.seen, oprV := t.v }) u false)) s

/-- The operations of a team that are in no batch join one (R192). -/
def closeOps (u n : Nat) (o : MOp) : MOp := if o.uid = u ∧ o.batch = none then { o with batch := some n } else o

/-- Changes a core, and its pair's follower where that holds halves of a team's operations (R189). -/
def modBoth (s : State) (core u : Nat) (f : Core → Core) : State :=
  let s1 := modCore s core f
  if core % 2 = 0 && (openOps (getCore s (core + 1))).any (fun o => o.uid == u && o.slave) then modCore s1 (core + 1) f else s1

/-- MFENCE.BATCH (R192). -/
def execMfenceBatch (a : KReg) (s : State) : Out :=
  issueOp { noAccess with wk := [(a.toNat, 1)] } (fun s u t =>
    let n := t.batch + 1
    let s1 := modBoth s t.core u fun c => { c with
      matQ := c.matQ.map fun q => q.map (closeOps u n), matDone := c.matDone.map (closeOps u n) }
    let s2 := modTeam s1 u fun t => setK { t with
      batch := n
      failed := t.failed.map fun f => if f.batch = none then { f with batch := some n } else f } a.toNat (BitVec.ofNat 64 n)
    done (fallThrough s2 u false)) s

/-- Whether an operation is one of a team's batches 1 to `n`. -/
def inBatches (u n : Nat) (o : MOp) : Bool :=
  o.uid == u && (match o.batch with | some b => decide (b ≤ n) | none => false)

/-- Whether a failure comes before another in the order of reports (R200): an operation in no batch comes last. -/
def failBefore (a b : MFail) : Bool :=
  match a.batch, b.batch with
  | some x, some y => decide (x < y) || (x == y && decide (a.order < b.order))
  | some _, none => true
  | none, some _ => false
  | none, none => decide (a.order < b.order)

/-- The first failure to report. -/
def firstFail : List MFail → Option MFail
  | [] => none
  | f :: fs => some (fs.foldl (fun m x => if failBefore x m then x else m) f)

/-- The stop 0x80 of a failure, which counts as reported (R200). The batch number of an operation in no batch is free
(log 57, DESIGN CHOICE). -/
def failStop (s : State) (u : Nat) (f : MFail) : State :=
  let s1 := modTeam s u fun t => { t with failed := t.failed.filter fun x => x != f }
  let b := f.batch.getD (Config.freeNat s.free 0)
  teamStopWith s1 u 0x80 none 0 (b % 2 ^ 32 + (if f.follower then 2 ^ 32 else 0) + f.cause % 256 * 2 ^ 40) f.addr 0

/-- MWAIT (R193, R194, R200): what its operations wrote is observed from then on (R391). -/
def execMwait (a : KReg) (s : State) : Out :=
  issueOp { noAccess with rk := [(a.toNat, 1)] } (fun s u t =>
    let n := (kreg t a.toNat).toNat
    if t.batch < n then matStop s u 0x53
    else if (getCore s t.core).matQ.flatten.any (inBatches u n) then done (waitFor s u (.mwait n))
    else
      match firstFail (t.failed.filter fun f => match f.batch with | some b => decide (b ≤ n) | none => false) with
      | some f => done (failStop s u f)
      | none =>
        let made := ((getCore s t.core).matDone.filter (inBatches u n)).flatMap (·.made)
        let s1 := modBoth s t.core u fun c => { c with matDone := c.matDone.filter fun o => !(inBatches u n o) }
        done (fallThrough (teamJoins (meldLanes (flushLate s1 u t.core) u) u ⟨made, 0⟩) u false)) s

/-! ## What the operations compute -/

/-- How an operation ends: a core with its results and flags, a failure with its cause, or a wait for a peer or for metadata. -/
inductive MatOut where
  | done (c : Core) (fl : FlagSet)
  | fail (cause : Nat)
  deriving DecidableEq, Repr

/-- The elements of the rows of A (R185, R186); `bad` is the cause that fails the operation. -/
def mmaRows (s : State) (core : Nat) (o : MOp) (f : MmaFmt) (acca : Bool) (d : MmaDesc) :
    Except Nat (List (List FVal) × FlagSet) :=
  let c := getCore s core
  if acca then
    if tileBad c d.at_ then .error 0x63
    else
      let k := if mmaBits f = 16 then 32 else 64
      let fm := (mmaFmt f).getD fmtE4m3
      let row := fun (i : Nat) => (List.range k).map fun j => convF fm .rne (fval fmtF32 (tileWord c d.at_ i (j + 32 * d.akoff)))
      let rows := (List.range 64).map row
      .ok (rows.map (fun r => r.map fun e => fval fm e.1), flagAll (rows.flatten.map (·.2)))
  else
    let bytes : Nat → List Byte :=
      if d.ar then fun i => ((o.regsA.drop (16 * i)).take 16).flatMap fun w => bytesOf 4 w.toNat
      else fun i => opBytes s core o (mmaBits f) (d.spa + i * d.sta) 64
    if !d.ar && rowsBad c d.spa d.sta 64 64 then .error 0x63
    else
      let rows := (List.range 64).map fun i => rowElems f (bytes i)
      .ok (rows.map (·.1), flagAll (rows.map (·.2)))

/-- The columns of B (R185). -/
def mmaCols (s : State) (core : Nat) (o : MOp) (f : MmaFmt) (d : MmaDesc) : Except Nat (List (List FVal) × FlagSet) :=
  if rowsBad (getCore s core) d.spb d.stb 64 64 then .error 0x63
  else
    let cols := (List.range 64).map fun j => rowElems f (opBytes s core o (mmaBits f) (d.spb + j * d.stb) 64)
    .ok (cols.map (·.1), flagAll (cols.map (·.2)))

/-- The result of a 64×64 product into tile DT (R186). -/
def mmaInto (n : Nat) (c : Core) (f : MmaFmt) (zero : Bool) (dt : Nat) (as bs : List (List FVal)) (fl : FlagSet) : MatOut :=
  if !zero && tileBad c dt then .fail 0x63
  else
    let outs := (as.zipIdx.map fun a => bs.zipIdx.map fun b =>
      dotInto (mmaGroup f) a.1 b.1 (if zero then 0 else tileWord c dt a.2 b.2)).flatten
    .done (setTile n c dt (outs.map (·.1))) (flagOr fl (flagAll (outs.map (·.2))))

/-- The descriptor words of an operation. -/
def opWord (o : MOp) (i : Nat) : Nat := (nth 0#64 o.desc i).toNat

/-- One half of an MMA: its own rows of A with the columns of B that the leader reads (R186, R189). -/
def mmaHalf (n : Nat) (s : State) (core : Nat) (o : MOp) (f : MmaFmt) (acca zero : Bool) (cols : List (List FVal)) (cfl : FlagSet) :
    MatOut :=
  let d := mmaDesc (opWord o 0) (opWord o 1) (opWord o 2)
  match mmaRows s core o f acca d with
  | .error x => .fail x
  | .ok (rows, fl) => mmaInto n (getCore s core) f zero d.dt rows cols (flagOr cfl fl)

/-- A scale factor (R59, R195): an E8M0 of 0xFF counts as a NaN that sets NV. -/
def scaleVal (f : ScaleFmt) (bs : List Byte) : FVal :=
  match f with
  | .e8m0 => if natOf bs = 255 then .nan true else .fin false 1 ((natOf bs : Int) - 127)
  | .f32 => fval fmtF32 (natOf bs)
  | .bf16 => fval fmtBf16 (natOf bs)

/-- The three-factor product of MACS (R195). -/
def matProd3 (a b c : FVal) : FVal := if fvZero a || fvZero b || fvZero c then .fin false 0 0 else fvMul (fvMul a b) c

/-- MACS (R195). -/
def macsRun (s : State) (core : Nat) (o : MOp) (f : ScaleFmt) : MatOut :=
  let c := getCore s core
  let src := field (opWord o 0) 0 8
  let dst := field (opWord o 0) 8 8
  let sz := scaleBytes f
  let ra := field (opWord o 1) 0 32
  let ca := field (opWord o 1) 32 32
  if spadPoisoned c ra (64 * sz) || spadPoisoned c ca (64 * sz) || tileBad c src || (src != dst && tileBad c dst) then .fail 0x63
  else
    let scale := fun (a i : Nat) => scaleVal f (opBytes s core o (8 * sz) (a + sz * i) sz)
    let rs := (List.range 64).map (scale ra)
    let cs := (List.range 64).map (scale ca)
    let outs := (rs.zipIdx.map fun r => cs.zipIdx.map fun k =>
      let p := matProd3 (fval fmtF32 (tileWord c src r.2 k.2)) r.1 k.1
      if src = dst then deliver fmtF32 .rne false p
      else deliver fmtF32 .rne false (fvAdd .rne (fval fmtF32 (tileWord c dst r.2 k.2)) p)).flatten
    .done (setTile s.free c dst (outs.map (·.1))) (flagAll (outs.map (·.2)))

/-- The float format of ACCMV's FMT (R196). -/
def mvFmt (fmt : Nat) : Fmt :=
  match fmt with
  | 0 => fmtF32
  | 1 => fmtBf16
  | 2 => fmtF16
  | 3 => fmtE4m3
  | _ => fmtE5m2

/-- An element out of a tile, and into one (R197): f32 is copied. -/
def mvOut (fmt w : Nat) : Nat × FlagSet := if fmt = 0 then (w, FlagSet.none) else convF (mvFmt fmt) .rne (fval fmtF32 w)
def mvIn (fmt w : Nat) : Nat × FlagSet := if fmt = 0 then (w, FlagSet.none) else convF fmtF32 .rne (fval (mvFmt fmt) w)

/-- The memory rows of a tile (R196, R197), or a failure; of the row pair the running maximum is row 64 (log 65, DESIGN CHOICE). -/
def tileOutRows (c : Core) (d : MvDesc) : Except Nat (List (List Byte) × FlagSet) :=
  if tileBad c d.t then .error 0x63
  else
    let es := mvElem d.fmt
    let rows := (List.range 64).map fun i => (List.range 64).map fun j => mvOut d.fmt (tileWord c d.t i j)
    let bytes := rows.map fun r => r.flatMap fun e => bytesOf es e.1
    let pair := rowPair c d.t
    let extra := if d.rows then [pair.1.flatMap fun w => bytesOf 4 w.toNat, pair.2.flatMap fun w => bytesOf 4 w.toNat] else []
    .ok (bytes ++ extra, flagAll (rows.flatten.map (·.2)))

/-- A tile, and its row pair, from memory rows (R197). -/
def tileInRows (n : Nat) (c : Core) (d : MvDesc) (rows : List (List Byte)) : MatOut :=
  let es := mvElem d.fmt
  let outs := (rows.take 64).flatMap fun r => (blockWords es 64 r).map (mvIn d.fmt)
  let c1 := setTile n c d.t (outs.map (·.1))
  let words := fun (i : Nat) => (blockWords 4 64 (nth [] rows i)).map (BitVec.ofNat 32)
  .done (if d.rows then setRowPair c1 d.t (words 64) (words 65) else c1) (flagAll (outs.map (·.2)))

/-- ACCMV .t2t and .zero (R197). -/
def tileCopy (n : Nat) (c : Core) (d : MvDesc) : MatOut :=
  if d.t = d.u then .done c FlagSet.none
  else if tileBad c d.t then .fail 0x63
  else
    let c1 := setTile n c d.u (tileWords c d.t)
    let p := rowPair c d.t
    .done (if d.rows then setRowPair c1 d.u p.1 p.2 else c1) FlagSet.none
def tileZero (n : Nat) (c : Core) (d : MvDesc) : MatOut :=
  let c1 := setTile n c d.t (List.replicate 4096 0)
  .done (if d.rows then setRowPair c1 d.t (List.replicate 64 0xFF800000#32) (List.replicate 64 0#32) else c1) FlagSet.none

/-! ## Retirement (R180, R200) -/

/-- Teams that wait for a place in a unit, or for a batch, go on to their instruction again. -/
def matWake (s : State) (core part : Nat) : State :=
  let again := fun (t : Team) =>
    match t.status with
    | .waiting .matrixPlace => if t.part = part ∧ (t.core = core ∨ t.core + 1 = core) then { t with status := .ready } else t
    | .waiting (.mwait n) => if t.core = core ∧ !((getCore s core).matQ.flatten.any (inBatches t.uid n)) then { t with status := .ready } else t
    | _ => t
  { s with teams := s.teams.map fun e => (e.1, again e.2) }

/-- Takes an operation off the head of its unit's queue, keeping it until an MWAIT covers it (R194). -/
def matPop (s : State) (core part : Nat) : State :=
  let q := matQueue (getCore s core) part
  matWake (modCore s core fun c => { c with matQ := setAt c.matQ part (q.drop 1), matDone := c.matDone ++ q.take 1 }) core part

/-- An operation has retired: a stop that waits for it may now be recorded (R409). -/
def matEnd (s : State) (core part : Nat) : State := settleStop (matPop s core part) core

/-- Replaces the operation at the head of a queue. -/
def setOpHead (s : State) (core part : Nat) (o : MOp) : State :=
  modCore s core fun c => { c with matQ := setAt c.matQ part (o :: (matQueue c part).drop 1) }

/-- Whether two lists of scratchpad ranges meet. -/
def rangesMeet (a b : List (Nat × Nat)) : Bool :=
  a.any fun r => b.any fun q => decide (r.1 < q.1 + q.2) && decide (q.1 < r.1 + r.2)

/-- A unit has written the tiles of an operation, and its scratchpad where it failed: operations of other units whose destination or
operands those are suffer it (R194). -/
def strikeDest (s : State) (core : Nat) (o : MOp) : State :=
  strike s core (some o.unit) fun p => o.destTiles.any p.destTiles.contains || rangesMeet o.destSpad p.spadUse

/-- The destination of an operation of a core becomes unpredictable (R190, R194, R200, R201). -/
def matSpoil (n : Nat) (s : State) (core : Nat) (o : MOp) : State := strikeDest (spoil n s core o) core o

/-- An operation retires as failed (R200): its destination is unpredictable, and its team's MWAIT will report it. -/
def matFail (s : State) (core part : Nat) (o : MOp) (cause : Nat) (follower : Bool) : State :=
  let s1 := modTeam (matSpoil s.free s core o) o.uid fun t =>
    { t with failed := t.failed ++ [⟨o.batch, o.order, o.pc, follower, cause⟩] }
  matEnd s1 core part

/-- A core in which the tiles that an operation has written, and their row pairs, hold the old or the new value of each element where they
are the destination of another unit's queued operation, which will leave them unpredictable (R194) (log 17, DESIGN CHOICE). -/
def mixTiles (n : Nat) (old : Core) (o : MOp) (c : Core) : Core :=
  let early := o.destTiles.filter fun d => old.matQ.flatten.any fun p => p.unit != o.unit && p.destTiles.contains d
  let mix := fun (off lo len : Nat) (a b : Tab W32) => (rangeFrom lo len).foldl (fun t k =>
    if Config.freeBit n (2 ^ 48 + off + k) then t else tabSet 0#32 t k (tabGet 0#32 a k)) b
  early.foldl (fun c d => { c with
    tile := mix 0 (tileKey d 0 0) 4096 old.tile c.tile
    rowM := mix (2 ^ 21) (rowPairKey d 0) 64 old.rowM c.rowM
    rowL := mix (2 ^ 22) (rowPairKey d 0) 64 old.rowL c.rowL }) c

/-- An operation writes its results and sets its flags (R73), or leaves its destination unpredictable where something it uses was
written too early (R194): nothing else of it is disturbed. -/
def matWrite (n : Nat) (s : State) (core part : Nat) (o : MOp) (c : Core) (fl : FlagSet) (approx : Bool) : State :=
  let s1 := if o.tainted then matSpoil n s core o else strikeDest (setCore s core (mixTiles n (getCore s core) o c)) core o
  raiseMatrix s1 core part fl approx

/-- An operation retires with its results. -/
def matFinish (s : State) (core part : Nat) (o : MOp) (r : MatOut) : State :=
  match r with
  | .fail x => matFail s core part o x false
  | .done c fl => matEnd (matWrite s.free s core part o c fl false) core part

/-- The pair's two halves retire together (R189, R190); a malformed O4 unit of B sets NV in both units (log 62, DESIGN CHOICE). -/
def pairRetire (s : State) (core part : Nat) (o : MOp) (f : MmaFmt) (acca zero : Bool) : State :=
  match (matQueue (getCore s (core + 1)) part).head? with
  | none => s
  | some so =>
    if !so.slave || so.order != o.order then s
    else
      let d := mmaDesc (opWord o 0) (opWord o 1) (opWord o 2)
      let other := s.free + 2 ^ 32
      let abort := fun (cause : Nat) (fol : Bool) =>
        matEnd (matSpoil other (matFail s core part o cause fol) (core + 1) so) (core + 1) part
      match mmaCols s core o f d with
      | .error x => abort x false
      | .ok (cols, cfl) =>
        match mmaHalf s.free s core o f acca zero cols cfl, mmaHalf s.free s (core + 1) so f acca zero cols cfl with
        | .fail x, _ => abort x false
        | _, .fail x => abort x true
        | .done c1 f1, .done k1 f2 =>
          let bad := o.tainted || so.tainted
          let s1 := matWrite s.free s core part { o with tainted := bad } c1 f1 false
          let s2 := matWrite other s1 (core + 1) part { so with tainted := bad } k1 f2 false
          matEnd (matEnd s2 core part) (core + 1) part

/-- Who writes for an operation of a core's unit: what it writes comes after what its team had seen when it was accepted (R180)
(log 5, DESIGN CHOICE). -/
def unitWrites (core : Nat) (o : MOp) : Author := ⟨some (core, o.unit), o.made, false, []⟩

/-- The unit writes rows to the scratchpad (R197). -/
def spadRowsWrite (au : Author) (core : Nat) (d : MvDesc) (s : State) (rows : List (List Byte)) : State :=
  rows.zipIdx.foldl (fun s r => spadWriteBy au s core (d.addr + r.2 * d.str) r.1) s

/-- The unit writes a 256-byte block of global memory at its home slice (R198): its translation was checked, and its debit made, at
acceptance. A store to a peer is noted. -/
def unitStore (core : Nat) (r : State × MOp) (va : Nat) (bs : List Byte) : State × MOp :=
  let s := r.1
  let o := r.2
  let id := (getTeam s o.uid).ctx
  let masked := bs.map some
  match loggedPlace s id va with
  | some (.dev k, bits) =>
    let s1 := markDirty s (dieOf core) id va
    (storeOver (unitWrites core o) s1 id (.core core) (leafDebits bits) (k / 256) masked, o)
  | some (.host a, _) => (hostStore (unitWrites core o) s a masked, o)
  | some (.peer slot a, _) =>
    match sendPeer (strikeOver (some (core, o.unit)) s (2 + slot, a / 256)) o.uid id slot va a ⟨true, masked, none, [], none, 256, false⟩ with
    | (s1, i) => (s1, { o with asks := o.asks ++ [⟨va, 256, i, none⟩] })
  | _ => (s, o)

/-- Splits bytes into blocks of 256. -/
def blocksOf : Nat → List Byte → List (List Byte)
  | 0, _ => []
  | n + 1, bs => if bs.isEmpty then [] else bs.take 256 :: blocksOf n (bs.drop 256)

/-- Free bytes, for a destination in memory that is unpredictable (log 17, DESIGN CHOICE). -/
def freeRows (n a cnt : Nat) : List Byte := (rangeFrom a cnt).map (Config.free8 n)

/-- The unit stores the rows of a .t2g (R198), and the operation holds what it has written. -/
def t2gPut (core : Nat) (s : State) (o : MOp) (bs : List Byte) : State × MOp :=
  match (blocksOf (bs.length / 256 + 1) bs).zipIdx.foldl (fun r b =>
    unitStore core r ((mvDesc 0 (opWord o 1) 0).addr + 256 * b.2) b.1) (s, o) with
  | (s1, o1) => (s1, { o1 with made := madeSince s s1 })

/-- The bytes of an unpredictable .t2g. -/
def t2gFree (n : Nat) (o : MOp) : List Byte :=
  let d := mvDesc (opWord o 0) (opWord o 1) (opWord o 2)
  freeRows n d.addr (mvRows d * mvRowLen d)

/-- Whether a store that an operation has sent to a peer is not answered yet (R198). -/
def opSent (s : State) (o : MOp) : Bool := o.asks.any fun a => s.peers.any fun r => r.id == a.id && r.failed.isNone

/-- .t2g retires (R198), once a peer has answered its stores; a failure, or an early write of what it uses, leaves its destination
unpredictable. -/
def t2gRetire (s : State) (core part : Nat) (o : MOp) : State :=
  let out := tileOutRows (getCore s core) (mvDesc (opWord o 0) (opWord o 1) (opWord o 2))
  let finish := fun (s : State) =>
    let o1 := { o with asks := [] }
    match out with
    | .error x => matFail (setOpHead s core part o1) core part o1 x false
    | .ok (_, fl) => matEnd (raiseMatrix (setOpHead s core part o1) core part fl false) core part
  if !o.asks.isEmpty then (if opSent s o then s else finish s)
  else
    match t2gPut core s o (match out with
      | .ok (rows, _) => if o.tainted then t2gFree s.free o else rows.flatten
      | .error _ => t2gFree s.free o) with
    | (s1, o1) => if o1.asks.isEmpty then finish s1 else setOpHead s1 core part o1

/-- Splits bytes into rows of a length. -/
def rowsOf (len : Nat) : Nat → List Byte → List (List Byte)
  | 0, _ => []
  | n + 1, bs => bs.take len :: rowsOf len n (bs.drop len)

/-- .g2t retires (R198), once every sector has been read; a peer's data is asked for and waited for. -/
def g2tRetire (s : State) (core part : Nat) (o : MOp) : State :=
  let d := mvDesc (opWord o 0) (opWord o 1) (opWord o 2)
  match engRead core (getTeam s o.uid).ctx .l1 true ⟨s, o.asks, [], o.seen, mvElem d.fmt⟩ d.addr (mvRows d * mvRowLen d) with
  | (g, bytes, .all) =>
    let o1 := { o with asks := [] }
    let s1 := setOpHead g.s core part o1
    matFinish s1 core part o1 (tileInRows s.free (getCore s1 core) d (rowsOf (mvRowLen d) (mvRows d) bytes))
  | (g, _, .bad x) =>
    let o1 := { o with asks := [] }
    matFail (setOpHead g.s core part o1) core part o1 x false
  | (g, _, _) => setOpHead g.s core part { o with asks := g.asks }

/-- An MMA, MACS or ACCMV at the head of its queue retires. -/
def plainRetire (s : State) (core part : Nat) (o : MOp) : State :=
  let c := getCore s core
  let d := mvDesc (opWord o 0) (opWord o 1) (opWord o 2)
  match o.kind with
  | .mma f acca true zero => pairRetire s core part o f acca zero
  | .mma f acca false zero =>
    match mmaCols s core o f (mmaDesc (opWord o 0) (opWord o 1) (opWord o 2)) with
    | .error x => matFail s core part o x false
    | .ok (cols, cfl) => matFinish s core part o (mmaHalf s.free s core o f acca zero cols cfl)
  | .macs f => matFinish s core part o (macsRun s core o f)
  | .t2s =>
    match tileOutRows c d with
    | .error x => matFail s core part o x false
    | .ok (rows, fl) =>
      if o.tainted then matFinish s core part o (.done c fl)
      else
        let s1 := spadRowsWrite (unitWrites core o) core d s rows
        matEnd (raiseMatrix (setOpHead s1 core part { o with made := madeSince s s1 }) core part fl false) core part
  | .s2t =>
    if rowsBad c d.addr d.str (mvRowLen d) (mvRows d) then matFail s core part o 0x63 false
    else
      let rows := (List.range (mvRows d)).map fun i => opBytes s core o (8 * mvElem d.fmt) (d.addr + i * d.str) (mvRowLen d)
      matFinish s core part o (tileInRows s.free c d rows)
  | .t2t => matFinish s core part o (tileCopy s.free c d)
  | .t2g => t2gRetire s core part o
  | .g2t => g2tRetire s core part o
  | .zero => matFinish s core part o (tileZero s.free c d)
  | _ => s

/-! ## What other events do to operations (R190, R201) -/

/-- Whether a team has operations that have not retired. -/
def matBusy (s : State) (core u : Nat) : Bool := ((getCore s core).matQ.flatten).any fun o => o.uid == u && !o.slave

/-- Abandons one operation of a killed team (R201): its destination is unpredictable, and what it holds returns
(log 17, DESIGN CHOICE). -/
def matAbandonOp (core : Nat) (s : State) (o : MOp) : State :=
  let s1 := matSpoil s.free s core o
  match o.kind with
  | .t2g => (t2gPut core s1 o (t2gFree s.free o)).1
  | _ => undebit s1 (.core core) (getTeam s o.uid).ctx o.held

/-- A team's operations are abandoned (R190, R201), a slaved half with its pair. -/
def matKill (s : State) (core u : Nat) : State :=
  let mine := (getCore s core).matQ.flatten.filter fun o => o.uid == u && !o.slave
  let theirs := (getCore s (core + 1)).matQ.flatten.filter fun o => o.uid == u && o.slave
  let drop := fun (sl : Bool) (c : Core) => { c with
    matQ := c.matQ.map fun q => q.filter fun o => !(o.uid == u && o.slave == sl)
    matDone := c.matDone.filter fun o => !(o.uid == u && o.slave == sl) }
  let s1 := mine.foldl (matAbandonOp core) (modCore s core (drop false))
  let s2 := if core % 2 = 1 then s1
    else theirs.foldl (fun s o => matSpoil (s.free + 2 ^ 32) s (core + 1) o) (modCore s1 (core + 1) (drop true))
  let s3 := flushLate s2 u core
  if mine.isEmpty then s3
  else settleStop ([0, 1, 2, 3].foldl (fun s p => matWake (matWake s core p) (core + 1) p) s3) core

/-- The slaved halves of a core that is taken offline (R190): the pair aborts, and the leader's data fault records it, with the cause
of the core's loss (log 17, DESIGN CHOICE; log 66, DESIGN CHOICE). -/
def pairLost (s : State) (core : Nat) : State :=
  if core % 2 = 0 then s
  else
    let lead := core - 1
    let lose := fun (s : State) (part : Nat) =>
      let slaves := (matQueue (getCore s core) part).filter (·.slave)
      let hit := fun (o : MOp) => slaves.any fun x => x.order == o.order
      let s1 := ((matQueue (getCore s lead) part).filter hit).foldl (fun s o =>
        modTeam (matSpoil s.free s lead o) o.uid fun t =>
          { t with failed := t.failed ++ [⟨o.batch, o.order, o.pc, true, 0xA0⟩] }) s
      matWake (modCore s1 lead fun c => { c with matQ := setAt c.matQ part ((matQueue c part).filter fun o => !(hit o)) }) lead part
    settleStop ([0, 1, 2, 3].foldl lose s) lead

/-- What accepted ATTN operations of a context read has been released or unmapped before the MWAIT that covers them (R335): their tiles
and row pairs are unpredictable (log 17, DESIGN CHOICE). -/
def attnStrike (s : State) (id : Nat) (uses : MOp → Bool) : State :=
  let isAttn := fun (o : MOp) => match o.kind with | .attn _ => true | _ => false
  let one := fun (s : State) (e : Nat × Core) =>
    if e.2.ctx = id ∧ (openOps e.2).any (fun o => isAttn o && uses o) then
      strike s e.1 none fun o => isAttn o && uses o
    else s
  s.cores.foldl one s

/-- The addresses in global memory that an accepted operation uses (R198, R328, R367). -/
def opPins (o : MOp) : Option (Nat × Nat) :=
  match o.kind with
  | .t2g | .g2t =>
    let d := mvDesc (opWord o 0) (opWord o 1) (opWord o 2)
    some (d.addr, mvRows d * mvRowLen d)
  | .attn _ => some (opWord o 2, 256)
  | _ => none

end Sys2Proof.Machine
end

