-- ==== Sys2Proof/Machine/Sequence.lean ====
section
/-! DEFINITION. The SEQ, PTREE and KVT forms (16 R301-R324), each performed by the loom as one transaction. -/

namespace Sys2Proof.Machine

/-! ## Performing an operation -/

/-- Performs a loom operation for a team, once the walks of the pages it touches are done (R364): its fault, or its stores, the cl
registers and waiters it reaches, and what follows (R323, R324). The team's lanes meet at it (R387), and the copy of a page comes before
what the team does next (R401); nothing else is ordered by every form (R321). -/
def loomGo (s0 : State) (u h : Nat) (f : Txn → Loomed) (k : State → Nat → Out) : Out :=
  let s := meldLanes s0 u
  let t := getTeam s u
  let sp := Space.ctx t.ctx
  let die := loomDie s sp h
  let r := f (txStart s sp false)
  let pages := pagesUnknown s die t r.tx.pages
  if !pages.isEmpty then done (requestWalkAt s die u pages)
  else
    match txFinish r.tx die (.core t.core) with
    | .fault c a s1 => done (teamFault s1 u c none a)
    | .done s1 =>
      let s2 := match r.cl with
        | some c => afterCl s1 sp h c
        | none => s1
      k (if r.tx.cows.isEmpty then s2 else teamJoins s2 u ⟨copiedCodes r.tx s1, 0⟩) r.res

/-- The stop at an operand word that breaks its form (R324). -/
def seqDesc (s : State) (u : Nat) : Out := done (teamStop s u 0x5A none 0)

/-- A SEQ form (R322): a region boundary that a bounds pass forbids. -/
def seqOp (a b : KReg) (res : Option Nat) (ok : Nat → Bool) (f : Nat → Nat → Txn → Loomed)
    (k : State → Nat → Nat → Out) (s : State) : Out :=
  boundaryNormal { noAccess with
      rk := (if res = some 0 then [] else [(a.toNat, 1)]) ++ [(b.toNat, 1)]
      wk := match res with | some i => [(a.toNat + i, 1)] | none => [] } (fun s u t =>
    let w := if res = some 0 then 0 else (kreg t a.toNat).toNat
    let h := (kreg t b.toNat).toNat
    if !(ok w) then seqDesc s u
    else loomGo s u h (f w h) fun s1 r =>
      k (match res with
        | some i => modTeam s1 u fun t => setK t (a.toNat + i) (BitVec.ofNat 64 r)
        | none => s1) u r) s

/-- A completed form that is a region boundary, and one that is not. -/
def seqNext (s : State) (u _r : Nat) : Out := done (fallThrough s u true)

/-- SEQ.RESERVE (R304). -/
def execSeqReserve (a b : KReg) (s : State) : Out :=
  seqOp a b (some 1) (fun w => decide (w < 2 ^ 16) && decide (1 ≤ w)) (fun w h t => loomReserve t h w) seqNext s

/-- SEQ.ADDR (R305). -/
def execSeqAddr (a b : KReg) (s : State) : Out :=
  seqOp a b (some 1) (fun w => decide (w < 2 ^ 32)) (fun w h t => loomAddr t h w) seqNext s

/-- What a read of a sequence's CL by a team acquires (R321): the commits of the slots below it. -/
def clAcquire (s : State) (u h cl : Nat) : State := acquireView s u (seqView s (getTeam s u).ctx h cl)

/-- The commit of slots from `base` on is a release of all the team's earlier accesses (R321). -/
def clRelease (s : State) (u h base : Nat) : State := addSeqRel s (getTeam s u).ctx h (base + 1) (teamView s u)

/-- SEQ.COMMIT and SEQ.VOID (R306): releases at .sys, which wait for the team's stores to peers (R173, R321). -/
def seqClose (a b : KReg) (void : Bool) (s : State) : Out :=
  boundaryNormal { noAccess with rk := [(a.toNat, 1), (b.toNat, 1)] } (fun s u t =>
    let w := (kreg t a.toNat).toNat
    let h := (kreg t b.toNat).toNat
    if !(decide (w < 2 ^ 48) && decide (1 ≤ field w 32 16)) then seqDesc s u
    else if peerWaiting s u then .next s
    else
      match lowestFailed (peerFailed s u) with
      | some r => done (peerStoreStop s u r)
      | none =>
        loomGo s u h (fun x => loomClose x void h (field w 0 32) (field w 32 16)) fun s1 r => seqNext (clRelease (commitTo s1 (.ctx t.ctx) h) u h (field w 0 32)) u r) s
def execSeqCommit (a b : KReg) (s : State) : Out := seqClose a b false s
def execSeqVoid (a b : KReg) (s : State) : Out := seqClose a b true s

/-- Binds a cl register and loads it (R309); a waiter whose value it now holds is woken. -/
def bindCl (s : State) (core j h cl : Nat) : State :=
  let s1 := modCore s core fun c => { c with cl := tabSet ClReg.reset c.cl j ⟨BitVec.ofNat 64 cl, some h⟩ }
  { s1 with teams := s1.teams.map fun e => (e.1, if e.2.core = core then wakeSeq s1 e.2 else e.2) }

/-- SEQ.WATCH (R309): handle 0 unbinds, and the register keeps its value. -/
def execSeqWatch (a b : KReg) (s : State) : Out :=
  boundaryNormal { noAccess with rk := [(a.toNat, 1), (b.toNat, 1)], wk := [(a.toNat + 1, 1)] } (fun s u t =>
    let w := (kreg t a.toNat).toNat
    let h := (kreg t b.toNat).toNat
    let put := fun (s : State) (r : Nat) => modTeam s u fun t => setK t (a.toNat + 1) (BitVec.ofNat 64 r)
    if 2 ^ 4 ≤ w then seqDesc s u
    else if h = 0 then
      done (fallThrough (put (modCore s t.core fun c =>
        { c with cl := tabSet ClReg.reset c.cl w { tabGet ClReg.reset c.cl w with bound := none } }) 0) u true)
    else
      loomGo s u h (fun x => loomWatch x h t.core w) fun s1 r =>
        if 2 ^ 63 ≤ r then done (fallThrough (put s1 r) u true)
        else done (fallThrough (put (bindCl s1 t.core w h r) 0) u true)) s

/-- SEQ.WAIT (R310): an acquire at .dev when it completes (log 36, DEDUCED). -/
def execSeqWait (a _b : KReg) (s : State) : Out :=
  boundaryNormal { noAccess with rk := [(a.toNat, 1)] } (fun s u t =>
    let w := (kreg t a.toNat).toNat
    let v := field w 0 32
    let j := field w 32 4
    let r := tabGet ClReg.reset (getCore s t.core).cl j
    let go := fun (s : State) =>
      let s1 := modTeam s u fun t => { t with woken := false }
      done (fallThrough (match r.bound with
        | some h => clAcquire s1 u h (field r.val.toNat 0 32)
        | none => s1) u true)
    if 2 ^ 36 ≤ w then seqDesc s u
    else if t.woken then go s
    else if r.bound.isNone then done (teamStop s u 0x59 none 0)
    else if v ≤ field r.val.toNat 0 32 then go s
    else done (waitFor s u (.seqWait j v))) s

/-- The child of a fork (R321): an acquire of its CL synchronizes-with the commits below N in its ancestors, and with the fork. -/
def forkRels (s : State) (sp h child n : Nat) (v : View) : State :=
  addSeqRel (dropSeqRels s sp child) sp child 0 (joinView v (seqView s sp h n))

/-- SEQ.FORK (R312): a release at .dev (R321). -/
def execSeqFork (a b : KReg) (s : State) : Out :=
  boundaryNormal { noAccess with rk := [(a.toNat, 5), (b.toNat, 1)], wk := [(a.toNat + 5, 1)] } (fun s u t =>
    let w := fun i => (kreg t (a.toNat + i)).toNat
    let h := (kreg t b.toNat).toNat
    if !(forkDescOk w) then seqDesc s u
    else loomGo s u h (fun x => loomFork x h w) fun s1 r =>
      let s2 := if r < 2 ^ 63 then forkRels s1 t.ctx h (forkDesc w).child (forkDesc w).n (teamView s1 u) else s1
      seqNext (modTeam s2 u fun t => setK t (a.toNat + 5) (BitVec.ofNat 64 r)) u r) s

/-- SEQ.LEN (R307): an acquire at .dev. -/
def execSeqLen (a b : KReg) (s : State) : Out :=
  seqOp a b (some 0) (fun _ => true) (fun _ h t => loomLen t h)
    (fun s u r => seqNext (clAcquire s u (kreg (getTeam s u) b.toNat).toNat (r % 2 ^ 32)) u r) s

/-! ## PTREE -/

/-- Writes a result and goes on; PTREE and KVT are no region boundaries (R322). -/
def loomPut (s : State) (u k r : Nat) : Out :=
  done (fallThrough (modTeam s u fun t => setK t k (BitVec.ofNat 64 r)) u false)

/-- Whether a token array's word keeps R314. -/
def tokenWordOk (w : Nat) : Bool := decide (w < 2 ^ 56) && w % 4 == 0

/-- INSERT comes after the commits that its sequence's CL covers, and what reads the tree comes after it (R321): the tree is known by its
pool. -/
def insertRels (s : State) (sp : Space) (h : Nat) : State :=
  addSeqRel s (spaceNo sp) (rawPool s sp h) 0 (seqView s (spaceNo sp) h (rawHdr s sp h).cl)

/-- LOOKUP comes after INSERT, and a read of its target's CL comes after LOOKUP (R321). -/
def lookupRels (s : State) (sp : Space) (h : Nat) : State × View :=
  let v := seqView s (spaceNo sp) (rawPool s sp h) 0
  (addSeqRel (dropSeqRels s (spaceNo sp) h) (spaceNo sp) h 0 v, v)

/-- The acquire of a LOOKUP for its team (R321). -/
def lookupSync (s : State) (u h : Nat) : State :=
  match lookupRels s (.ctx (getTeam s u).ctx) h with
  | (s1, v) => acquireView s1 u v

/-- PTREE.LOOKUP (R315): an acquire at .dev, unless it returns a status (R321). -/
def execPtreeLookup (a b : KReg) (s : State) : Out :=
  issueOp { noAccess with rk := [(a.toNat, 2), (b.toNat, 1)], wk := [(a.toNat + 2, 1)] } (normalOnly fun s u t =>
    let w := fun i => (kreg t (a.toNat + i)).toNat
    let h := (kreg t b.toNat).toNat
    if !(tokenWordOk (w 0)) ∨ 2 ^ 32 ≤ w 1 then seqDesc s u
    else loomGo s u h (fun x => loomLookup x h (w 0) (w 1)) fun s1 r =>
      loomPut (if r < 2 ^ 63 then lookupSync s1 u h else s1) u (a.toNat + 2) r) s

/-- PTREE.INSERT (R316). -/
def execPtreeInsert (a b : KReg) (s : State) : Out :=
  issueOp { noAccess with rk := [(a.toNat, 1), (b.toNat, 1)], wk := [(a.toNat + 1, 1)] } (normalOnly fun s u t =>
    let w := (kreg t a.toNat).toNat
    let h := (kreg t b.toNat).toNat
    if !(tokenWordOk w) then seqDesc s u
    else loomGo s u h (fun x => loomInsert x h w) fun s1 r => loomPut (insertRels s1 (.ctx t.ctx) h) u (a.toNat + 1) r) s

/-- PTREE.UNREF (R317): it orders the team's earlier loads before any reuse of the freed pages (R321); an ATTN that still reads the
sequence suffers it (R335). -/
def execPtreeUnref (a b : KReg) (s : State) : Out :=
  issueOp { noAccess with rk := [(b.toNat, 1)], wk := [(a.toNat, 1)] } (normalOnly fun s u t =>
    let h := (kreg t b.toNat).toNat
    if (getTeam s u).pend.any (·.isLoad) then .next s
    else loomGo s u h (fun x => loomUnref x h) fun s1 r =>
      loomPut (attnStrike s1 t.ctx fun o => opWord o 2 == h) u a.toNat r) s

/-! ## KVT (R318, R319) -/

/-- A position rounded to 24 significant bits, ties to even, as a mantissa and an exponent (R319). -/
def ropePos (p : Nat) : Nat × Nat :=
  let ex := bitLen p - 24
  ((roundAt .rne false p 0 ex).1, ex)

/-- The f32 nearest to THETA^(−i/H) (R319); THETA is finite and at least 1. -/
def ropeFreq (theta h i : Nat) : Nat :=
  if i = 0 then 0x3F800000
  else
    match fval fmtF32 theta with
    | .fin _ m e => (deliver fmtF32 .rne false (expVal (-(lnVal m e * i / h)))).1
    | _ => 0

/-- Whether an angle is so small that its sine lies just below it and its cosine just below 1. -/
def ropeTiny (m : Nat) (e : Int) : Bool := dyLt m e 1 (-100)

/-- The angle over π as a fixed-point number. -/
def ropeTurns (m : Nat) (e : Int) : Int := fxDiv (fxOf false m e) piFx

/-- The cosine and sine of the exact angle m × 2^e, each rounded once (R319). -/
def ropeCos (m : Nat) (e : Int) : Nat :=
  let v : FVal :=
    if m = 0 then .fin false 1 0
    else if ropeTiny m e then .fin false (2 ^ 200 - 1) (-200)
    else (cosPi (ropeTurns m e).toNat (-(prec : Int))).1
  (deliver fmtF32 .rne false v).1
def ropeSin (m : Nat) (e : Int) : Nat :=
  let v : FVal :=
    if m = 0 then .fin false 0 0
    else if ropeTiny m e then .fin false (m * 2 ^ 64 - 1) (e - 64)
    else (sinPi false (ropeTurns m e).toNat (-(prec : Int))).1
  (deliver fmtF32 .rne false v).1

/-- The 8 bytes of one pair: the cosine and then the sine (R319) (log 20, UNVERIFIED). -/
def ropePair (theta h p i : Nat) : List Byte :=
  match fval fmtF32 (ropeFreq theta h i) with
  | .fin _ m e =>
    let q := ropePos p
    let a := q.1 * m
    let x := e + (q.2 : Int)
    bytesOf 4 (ropeCos a x) ++ bytesOf 4 (ropeSin a x)
  | _ => List.replicate 8 0#8

/-- The KVT descriptor (R318). -/
structure KvtDesc where
  p0 : Nat
  m : Nat
  out : Nat
  theta : Nat
  h : Nat
  deriving DecidableEq, Repr

/-- Reads the descriptor (log 35, DEDUCED). -/
def kvtDesc (w : Nat → Nat) : KvtDesc := ⟨field (w 0) 0 28, field (w 0) 32 7, field (w 1) 0 32, field (w 2) 0 32, field (w 2) 32 7⟩

/-- Whether the reserved bits of the first word are zero, and whether every field keeps R318 for angle rows. -/
def kvtWordOk (w0 : Nat) : Bool := field w0 28 4 == 0 && decide (w0 < 2 ^ 39)
def kvtRopeOk (w : Nat → Nat) : Bool :=
  let d := kvtDesc w
  let th := match fval fmtF32 d.theta with
    | .fin false m e => !dyLt m e 1 0
    | _ => false
  kvtWordOk (w 0) && decide (w 1 < 2 ^ 32) && d.out % 16 == 0 && decide (w 2 < 2 ^ 39) && th && decide (1 ≤ d.h) &&
    decide (d.h ≤ 64) && decide (d.p0 + d.m < 2 ^ 28)

/-- The angle rows (R319): M + 1 positions, since the field holds their number minus 1 (log 35, DEDUCED). -/
def ropeRows (d : KvtDesc) : List Byte :=
  (rangeFrom d.p0 (d.m + 1)).flatMap fun p => (List.range d.h).flatMap fun i => ropePair d.theta d.h p i

/-- KVT.page (R319) (log 36, DEDUCED). -/
def loomKvtPage (t : Txn) (h p0 : Nat) : Loomed :=
  withHdr t h true fun t1 hd =>
    if hd.rl ≤ p0 then loomStatus t1 8
    else
      withPool t1 hd fun t2 p =>
        match resolvePage t2 hd (p0 / pageSlots hd) with
        | (t3, none) => if txOk t3 then loomStatus t3 8 else loomStuck t3
        | (t3, some (e, _)) => loomRes t3 (pageAt hd p (entPage e) % 2 ^ 56)

/-- KVT.rope reads the header alone. -/
def loomKvtRope (t : Txn) (h : Nat) : Loomed := withHdr t h true fun t1 _ => loomRes t1 0

/-- A KVT form: `page` says whether it finds a page, `rope` whether it writes rows; a status writes no row. -/
def kvtOp (a b : KReg) (page rope : Bool) (s : State) : Out :=
  issueOp { noAccess with
      rk := [(a.toNat, if rope then 3 else 1), (b.toNat, 1)]
      wk := if page then [(a.toNat + 3, 1)] else [] } (normalOnly fun s u t =>
    let w := fun i => (kreg t (a.toNat + i)).toNat
    let h := (kreg t b.toNat).toNat
    let d := kvtDesc w
    if !(if rope then kvtRopeOk w else kvtWordOk (w 0)) then seqDesc s u
    else if rope && decide (spgBytes (getCore s t.core).word < d.out + 8 * d.h * (d.m + 1)) then
      done (teamStop s u 0x62 none d.out)
    else
      loomGo s u h (fun x => if page then loomKvtPage x h d.p0 else loomKvtRope x h) fun s1 r =>
        let s2 := if rope && decide (r < 2 ^ 63) then spadWrite s1 u 0 d.out (ropeRows d) else s1
        if page then loomPut s2 u (a.toNat + 3) r else done (fallThrough s2 u false)) s

/-- KVT (R319). -/
def execKvtPage (a b : KReg) (s : State) : Out := kvtOp a b true false s
def execKvtRope (a b : KReg) (s : State) : Out := kvtOp a b false true s
def execKvtBoth (a b : KReg) (s : State) : Out := kvtOp a b true true s

end Sys2Proof.Machine
end

