-- ==== Sys2Proof/Machine/Attention.lean ====
section
/-! DEFINITION. The attention tile (17 R325-R336): acceptance, the walk over the keys, absent pages, the final division, and
the retirement of matrix-unit operations of every kind. -/

namespace Sys2Proof.Machine

/-! ## The descriptor (R326) -/

/-- What the five words of an ATTN descriptor say. -/
structure AttnDesc where
  dt : Nat
  hd : Bool
  fmt : Nat
  nq : Nat
  qaddr : Nat
  qstr : Nat
  seqh : Nat
  p0 : Nat
  p1 : Nat
  scale : Nat
  qpos : Nat
  deriving DecidableEq, Repr

/-- Reads an ATTN descriptor. -/
def attnDesc (w : Nat → Nat) : AttnDesc :=
  ⟨field (w 0) 0 8, bitAt (w 0) 8, field (w 0) 9 3, field (w 0) 12 6 + 1, field (w 1) 0 32, field (w 1) 32 16, w 2,
    field (w 3) 0 28, field (w 3) 32 29, field (w 4) 0 32, field (w 4) 32 28⟩

/-- The head dimension, the bytes of an element, its format and the group size (R326, R330). -/
def attnDim (d : AttnDesc) : Nat := if d.hd then 128 else 64
def attnElem (d : AttnDesc) : Nat := if d.fmt < 2 then 1 else 2
def attnFmt (d : AttnDesc) : Fmt :=
  match d.fmt with
  | 0 => fmtE4m3
  | 1 => fmtE5m2
  | 2 => fmtBf16
  | _ => fmtF16
def attnGroup (d : AttnDesc) : Nat := if d.fmt < 2 then 32 else 8

/-- The bytes of a query, key or value row, and the tiles of the output. -/
def attnRow (d : AttnDesc) : Nat := attnDim d * attnElem d
def attnTiles (d : AttnDesc) : List Nat := if d.hd then [d.dt, d.dt + 1] else [d.dt]

/-- Whether a descriptor breaks the first check of R329. -/
def attnDescBad (causal : Bool) (w : Nat → Nat) : Bool :=
  let d := attnDesc w
  let finite := match fval fmtF32 d.scale with
    | .fin _ _ _ => true
    | _ => false
  decide (2 ^ 18 ≤ w 0) || decide (2 ^ 48 ≤ w 1) || field (w 3) 28 4 != 0 || decide (2 ^ 61 ≤ w 3) || decide (2 ^ 60 ≤ w 4) ||
    decide (3 < d.fmt) || !finite || (!causal && d.qpos != 0) || decide (d.qstr < attnRow d) || d.qstr % 16 != 0 ||
    decide (2 ^ 28 < d.p1) || decide (d.p1 < d.p0)

/-- The cause an ATTN meets before its loom step (R329, steps 1 to 4). -/
def attnCause (s : State) (core : Nat) (causal : Bool) (w : Nat → Nat) : Option Nat :=
  let d := attnDesc w
  let c := getCore s core
  if attnDescBad causal w then some 0x5B
  else if (attnTiles d).any (fun x => decide (actTiles c.word ≤ x)) then some 0x47
  else if d.qaddr % 16 ≠ 0 then some 0x60
  else if spadOver c d.qaddr d.qstr (attnRow d) d.nq then some 0x62
  else none

/-! ## The loom step of acceptance (R328) -/

/-- What the loom step reads: the pages of the range with their addresses, the void positions, and the sequence's SLG and TPG;
`refused` says that the eighth check fails, and `cl` is the CL that it reads. -/
structure AttnStep where
  tx : Txn
  pages : List (Nat × Option Nat)
  voids : List Nat
  slg : Nat
  tpg : Nat
  refused : Bool
  cl : Nat
  deriving DecidableEq, Repr

/-- A step that stops at a fault. -/
def attnStuck (t : Txn) : AttnStep := ⟨t, [], [], 0, 0, false, 0⟩

/-- A transaction that goes on reading with no fault on record, and one with the faults of another before its own. -/
def txClean (t : Txn) : Txn := { t with replay := none, hard := none, bad58 := false, bad59 := false }
def txAfter (a t : Txn) : Txn :=
  { t with replay := a.replay.or t.replay, hard := a.hard.or t.hard, bad58 := a.bad58 || t.bad58, bad59 := a.bad59 || t.bad59 }

/-- Resolves pages (R303): the tables of each are read whatever an earlier one met (R329) (log 36, DEDUCED). -/
def attnPages (hd : Hdr) (p : Pool) : Txn → List Nat → Txn × List (Nat × Option Nat)
  | t, [] => (t, [])
  | t, i :: is =>
    match resolvePage (txClean t) hd i with
    | (t1, r) =>
      match attnPages hd p (txAfter t t1) is with
      | (t2, l) => (t2, (i, r.map fun e => pageAt hd p (entPage e.1)) :: l)

/-- Reads the void bits of positions. -/
def attnVoids (hd : Hdr) : Txn → List Nat → Txn × List Nat
  | t, [] => (t, [])
  | t, j :: js =>
    match txBit t hd.vmap j with
    | (t1, v) =>
      match attnVoids hd t1 js with
      | (t2, l) => (t2, if v then j :: l else l)

/-- The pool of a sequence as its words give it. -/
def poolWords (hd : Hdr) (w : Nat → Nat) : Pool :=
  ⟨hd.pool, w 0, field (w 1) 0 32, w 2, w 3, field (w 4) 0 32, field (w 4) 32 32, w 5, w 6, w 7⟩

/-- The loom step (R328, R329): the header's page must grant W, since retirement may write the counter. Every access of step 5 is tried
before a later step's fault is answered. -/
def attnStep (t0 : Txn) (d : AttnDesc) : AttnStep :=
  if d.seqh % 64 ≠ 0 ∨ 2 ^ 56 ≤ d.seqh then attnStuck { t0 with bad58 := true }
  else
    match txHdr t0 d.seqh with
    | (th, hd) =>
      let t1 := (txPlace th d.seqh .store).1
      if !txOk th then attnStuck t1
      else if !hd.kv then attnStuck { t1 with bad58 := true }
      else
        match txBytesLong 3 (txClean t1) hd.pool 64 with
        | (t2, bs) =>
          let w := nth 0 (wordsOf bs)
          let n := pageSlots hd
          let is := if d.p0 < d.p1 then rangeFrom (d.p0 / n) ((d.p1 - 1) / n + 1 - d.p0 / n) else []
          match attnPages hd (poolWords hd w) (txClean t2) is with
          | (t3, pages) =>
            match (if hd.vmap = 0 then (txClean t3, []) else attnVoids hd (txClean t3) (rangeFrom d.p0 (d.p1 - d.p0))) with
            | (t4, voids) =>
              let t5 := txAfter t1 (txAfter t2 (txAfter t3 t4))
              ⟨{ t5 with bad58 := t5.bad58 || (txOk t2 && !(poolOk hd w)), bad59 := t5.bad59 || hd.released },
                pages, voids, hd.slg, hd.tpg, decide (hd.cl < d.p1) || decide (2 ^ hd.slg < 2 * attnRow d), hd.cl⟩

/-- Whether the header's block debits (R209, R328). -/
def attnDebits (s : State) (id h : Nat) : Bool := match walk s id h with | some l => leafDebits l.bits | none => false

/-- The operation that an ATTN is accepted as: beside its five words it keeps SLG and TPG of the sequence. -/
def attnOp (s : State) (u : Nat) (t : Team) (causal : Bool) (w : Nat → W64) (g : AttnStep) (held : Nat) : MOp :=
  let d := attnDesc fun i => (w i).toNat
  let use := spadRows d.qaddr d.qstr (attnRow d) d.nq
  { newOp s u t (.attn causal) [w 0, w 1, w 2, w 3, w 4, BitVec.ofNat 64 (g.slg + g.tpg * 2 ^ 8)] with
    spadUse := use, destTiles := attnTiles d, destRows := [d.dt]
    pages := g.pages, voids := g.voids, held := held }

/-- ATTN .none and .causal (R328, R329): a region boundary, and an acquire at .dev. A fault returns the header's debit whole. -/
def execAttn (a : KReg) (causal : Bool) (s : State) : Out :=
  boundaryNormal { noAccess with rk := [(a.toNat, 5)] } (fun s u t =>
    let w := fun i => kreg t (a.toNat + i)
    let d := attnDesc fun i => (w i).toNat
    match attnCause s t.core causal fun i => (w i).toNat with
    | some c => matStop s u c
    | none =>
      if matFull s t.core t.part then done (waitFor s u .matrixPlace)
      else
        let g := attnStep (txStart s (.ctx t.ctx) false) d
        let die := loomDie s (.ctx t.ctx) d.seqh
        let pages := pagesUnknown s die t g.tx.pages
        let debits := attnDebits s t.ctx d.seqh
        if !pages.isEmpty then done (requestWalkAt s die u pages)
        else
          let s := g.tx.s
          match g.tx.replay with
          | some (c, x) => done (teamReplay s u c none x)
          | none =>
            match (if debits then debit8 s (.core t.core) t.ctx else (s, true)) with
            | (s1, false) => done (teamReplay s1 u 0x20 none d.seqh)
            | (s1, true) =>
              let back := fun (s : State) => undebit s (.core t.core) t.ctx (if debits then 8 else 0)
              match g.tx.hard with
              | some (c, x) => done (teamStop (back s1) u c none x)
              | none =>
                if g.tx.bad58 then matStop (back s1) u 0x58
                else if g.tx.bad59 then matStop (back s1) u 0x59
                else if g.refused then matStop (back s1) u 0x5B
                else
                  let s2 := clAcquire s1 u d.seqh g.cl
                  done (fallThrough (matPush s2 t.core t.part (attnOp s2 u t causal w g (if debits then 8 else 0))) u true)) s

/-- ATTN.FIN at acceptance (R329): the checks of its word and of its tiles. -/
def execAttnFin (a : KReg) (s : State) : Out :=
  boundaryNormal { noAccess with rk := [(a.toNat, 1)] } (fun s u t =>
    let w := kreg t a.toNat
    let d := attnDesc fun i => if i = 0 then w.toNat else 0
    if 2 ^ 18 ≤ w.toNat then matStop s u 0x5B
    else if (attnTiles d).any (fun x => decide (actTiles (getCore s t.core).word ≤ x)) then matStop s u 0x47
    else if matFull s t.core t.part then done (waitFor s u .matrixPlace)
    else
      done (fallThrough (matPush s t.core t.part { newOp s u t .fin [w] with destTiles := attnTiles d }) u true)) s

/-! ## Numbers (R330) -/

/-- An exact operand of xexp as a numerator and the exponent of its power-of-two denominator, in lowest terms. -/
def xexpKey (neg : Bool) (m : Nat) (e : Int) : Int × Nat :=
  if 0 ≤ e then (dyInt neg (m * 2 ^ e.toNat), 0)
  else
    let k := (-e).toNat
    let g := Nat.gcd m (2 ^ k)
    (dyInt neg (m / g), k - Nat.log2 g)

/-- xexp of the exact difference of two f32 values (R330): within 1 ulp of e^x, a fixed function of x
(log 18, DESIGN CHOICE; log 54, DEDUCED). -/
def xexp (a b : Nat) : Nat × FlagSet :=
  match fvAdd .rne (fval fmtF32 a) (fvNeg (fval fmtF32 b)) with
  | .nan sn => (fmtNan fmtF32, flagNv sn)
  | .inf neg => (if neg then 0 else fmtInf fmtF32, FlagSet.none)
  | .fin neg m e =>
    if m = 0 then (0x3F800000, FlagSet.none)
    else
      match clampDy 200 neg m e with
      | (n, m1, e1) =>
        let key := xexpKey neg m e
        nearWith (Config.xexpPick key.1 key.2) 1 (expVal (fxOf n m1 e1)) false

/-- A quotient of f32 values (R333): a division by zero gives an infinity and no flag. -/
def fvDiv (a b : FVal) : FVal :=
  match a, b with
  | .nan x, y => .nan (x || isSnan y)
  | x, .nan y => .nan (isSnan x || y)
  | .inf _, .inf _ => .nan true
  | .inf n, .fin k _ _ => .inf (n != k)
  | .fin n _ _, .inf k => .fin (n != k) 0 0
  | .fin n m e, .fin k d f =>
    if d = 0 then (if m = 0 then .nan true else .inf (n != k))
    else if m = 0 then .fin (n != k) 0 0
    else stickyDiv (n != k) m d (e - f)

/-! ## Reading the keys (R330, R331) -/

/-- A key that has been read: its position, its K elements and its V elements. -/
structure KvRow where
  pos : Nat
  k : List FVal
  v : List FVal
  deriving DecidableEq, Repr

/-- What the read of a key comes to. -/
inductive KeyRead where
  | row (r : KvRow)
  | absent
  | wait
  | fail (cause : Nat)
  deriving DecidableEq, Repr

/-- Reads one key: an absent translation or poison makes its page absent (R331). -/
def readKey (core id : Nat) (d : AttnDesc) (g : Engine) (pos va : Nat) : Engine × KeyRead :=
  match engRead core id .l1 true g va (2 * attnRow d) with
  | (g1, bs, .all) =>
    (g1, .row ⟨pos, floatElems (attnFmt d) (bs.take (attnRow d)), floatElems (attnFmt d) (bs.drop (attnRow d))⟩)
  | (g1, _, .replay 0x21 _) => (g1, .wait)
  | (g1, _, .replay _ _) => (g1, .absent)
  | (g1, _, .bad c) => (g1, if c = 0x63 then .absent else .fail c)
  | (g1, _, .wait) => (g1, .wait)

/-- Whether a position is live for some row, its page aside (R330). -/
def keyWanted (o : MOp) (d : AttnDesc) (causal : Bool) (j : Nat) : Bool :=
  decide (d.p0 ≤ j) && decide (j < d.p1) && !(o.voids.contains j) && (!causal || decide (j < d.qpos + d.nq))

/-- Reads keys of one page. -/
def readKeys (core id : Nat) (d : AttnDesc) (at_ : Nat → Nat) : Engine → List Nat → Engine × List KeyRead
  | g, [] => (g, [])
  | g, j :: js =>
    match readKey core id d g j (at_ j) with
    | (g1, r) =>
      match readKeys core id d at_ g1 js with
      | (g2, rs) => (g2, r :: rs)

/-- What the read of every page comes to: the keys, and how many pages are absent; or a wait, or a failure. -/
structure KeyWalk where
  rows : List KvRow
  absent : Nat
  wait : Bool
  fail : Option Nat
  deriving DecidableEq, Repr

/-- Reads the live keys of an operation, page by page; one absent key masks its whole page (R331). -/
def readPages (core id : Nat) (o : MOp) (d : AttnDesc) (causal : Bool) (slg tpg : Nat) :
    Engine → List (Nat × Option Nat) → Engine × KeyWalk
  | g, [] => (g, ⟨[], 0, false, none⟩)
  | g, (i, pg) :: ps =>
    let n := 2 ^ (tpg + 4)
    let js := (rangeFrom (i * n) n).filter (keyWanted o d causal)
    match (match pg with
      | some a => readKeys core id d (fun j => a + j % n * 2 ^ slg) g js
      | none => (g, js.map fun _ => KeyRead.absent)) with
    | (g1, rs) =>
      match readPages core id o d causal slg tpg g1 ps with
      | (g2, k) =>
        let fail := rs.findSome? fun r => match r with | .fail c => some c | _ => none
        let rows := rs.filterMap fun r => match r with | .row x => some x | _ => none
        let gone := rs.contains .absent
        (g2, ⟨(if gone then [] else rows) ++ k.rows, (if gone then 1 else 0) + k.absent, rs.contains .wait || k.wait,
          fail.or k.fail⟩)

/-! ## The walk (R330) -/

/-- A query row in progress: its maximum, its sum, its output elements, and the flags so far. -/
structure AttnRow where
  m : Nat
  l : Nat
  o : List Nat
  fl : FlagSet
  deriving DecidableEq, Repr

/-- The score of a row and a key. -/
def attnScore (d : AttnDesc) (q k : List FVal) : Nat × FlagSet :=
  match dotInto (attnGroup d) q k 0 with
  | (x, f1) =>
    match deliver fmtF32 .rne false (matProd (fval fmtF32 x) (fval fmtF32 d.scale)) with
    | (y, f2) => (y, flagOr f1 f2)

/-- One position of a block for a row: its key when it is live there. -/
def liveKey (kv : List KvRow) (d : AttnDesc) (causal : Bool) (i j : Nat) : Option KvRow :=
  if causal && decide (d.qpos + i < j) then none else kv.find? fun r => r.pos == j

/-- One block of 64 positions for a row (R330) (log 62, DESIGN CHOICE). -/
def attnBlock (d : AttnDesc) (causal : Bool) (kv : List KvRow) (q : List FVal) (i : Nat) (r : AttnRow) (base : Nat) : AttnRow :=
  let keys := (rangeFrom base 64).map (liveKey kv d causal i)
  let scores := keys.map fun k => k.map fun x => attnScore d q x.k
  let top := scores.foldl (fun (a : Nat × FlagSet) x =>
    match fmnxVal true false fmtF32 a.1 (match x with | some y => y.1 | none => 0xFF800000) with
    | (v, f) => (v, flagOr a.2 f)) (r.m, FlagSet.none)
  let fs := flagOr top.2 (flagAll (scores.filterMap fun x => x.map (·.2)))
  let mn := top.1
  if mn = 0xFF800000 then { r with fl := flagOr r.fl fs }
  else
    let c := xexp r.m mn
    let ps := scores.map fun x =>
      match x with
      | none => ((0 : Nat), FlagSet.none)
      | some y =>
        let e := xexp y.1 mn
        let p := convF (attnFmt d) .rne (fval fmtF32 e.1)
        (p.1, flagOr e.2 p.2)
    let pv := ps.map fun p => fval (attnFmt d) p.1
    let l := deliver fmtF32 .rne false (fvAdd .rne (matProd (fval fmtF32 c.1) (fval fmtF32 r.l)) (plusZero (fvSum pv)))
    let outs := r.o.zipIdx.map fun e =>
      let o1 := deliver fmtF32 .rne false (matProd (fval fmtF32 c.1) (fval fmtF32 e.1))
      let vs := keys.map fun k => match k with
        | some x => nth (.fin false 0 0) x.v e.2
        | none => .fin false 0 0
      let o2 := dotInto (attnGroup d) pv vs o1.1
      (o2.1, flagOr o1.2 o2.2)
    ⟨mn, l.1, outs.map (·.1),
      flagOr r.fl (flagOr fs (flagOr c.2 (flagOr l.2 (flagOr (flagAll (ps.map (·.2))) (flagAll (outs.map (·.2)))))))⟩

/-- The elements of output row `i`, over one tile or two. -/
def outRow (c : Core) (d : AttnDesc) (i : Nat) : List Nat :=
  (attnTiles d).flatMap fun t => (List.range 64).map (tileWord c t i)

/-- Writes output rows 0 on. Whether a poisoned element that is written still reads as poison is free (log 30, DESIGN CHOICE). -/
def setOutRows (n : Nat) (d : AttnDesc) (c : Core) (rows : List (List Nat)) : Core :=
  let put := fun (c : Core) (t : Nat) (i : Nat) (ws : List Nat) => { c with
    tile := tabSetMany 0#32 c.tile (tileKey t i 0) (ws.map (BitVec.ofNat 32))
    tilePoison := c.tilePoison.filter fun k =>
      decide (k < tileKey t i 0) || decide (tileKey t i 0 + 64 ≤ k) || Config.freeBit n (2 ^ 44 + k) }
  rows.zipIdx.foldl (fun c r =>
    (attnTiles d).zipIdx.foldl (fun c t => put c t.1 r.2 ((r.1.drop (64 * t.2)).take 64)) c) c

/-- Whether an output row that an operation uses holds a poisoned element (R411). -/
def outBad (c : Core) (d : AttnDesc) : Bool :=
  c.tilePoison.any fun k => (attnTiles d).contains (k / 4096) && decide (k % 4096 / 64 < d.nq)

/-- The walk of an accepted ATTN over keys that have been read (R330): the core with its tiles and row pair, and the flags
(log 54, DEDUCED). -/
def attnRun (s : State) (core : Nat) (o : MOp) (d : AttnDesc) (causal : Bool) (kv : List KvRow) : MatOut :=
  let c := getCore s core
  if d.p1 ≤ d.p0 then .done c FlagSet.none
  else if rowsBad c d.qaddr d.qstr (attnRow d) d.nq || outBad c d then .fail 0x63
  else
    let pair := rowPair c d.dt
    let bases := (List.range (ceilDiv (d.p1 - d.p0) 64)).map fun b => d.p0 + 64 * b
    let rows := (List.range d.nq).map fun i =>
      let q := floatElems (attnFmt d) (opBytes s core o (8 * attnElem d) (d.qaddr + i * d.qstr) (attnRow d))
      bases.foldl (attnBlock d causal kv q i) ⟨(nth 0#32 pair.1 i).toNat, (nth 0#32 pair.2 i).toNat, outRow c d i, FlagSet.none⟩
    let ms := rows.map fun r => BitVec.ofNat 32 r.m
    let ls := rows.map fun r => BitVec.ofNat 32 r.l
    .done (setRowPair (setOutRows s.free d c (rows.map (·.o))) d.dt (ms ++ pair.1.drop d.nq) (ls ++ pair.2.drop d.nq))
      (flagAll (rows.map (·.fl)))

/-- ATTN.FIN (R333). -/
def attnFinRun (n : Nat) (c : Core) (o : MOp) : MatOut :=
  let d := attnDesc (opWord o)
  if outBad c d then .fail 0x63
  else
    let ls := (rowPair c d.dt).2
    let outs := (List.range d.nq).map fun i =>
      let l := (nth 0#32 ls i).toNat
      (outRow c d i).map fun x =>
        if l = 0 then ((0 : Nat), FlagSet.none) else deliver fmtF32 .rne false (fvDiv (fval fmtF32 x) (fval fmtF32 l))
    .done (setOutRows n d c (outs.map fun r => r.map (·.1))) (flagAll (outs.flatten.map (·.2)))

/-! ## Retirement -/

/-- Adds to the sequence's APPROX counter, saturating (R331): a partial write of the header block, whose right was checked at acceptance
(R328), and which settles the debit; a write that does not happen returns it whole. -/
def attnCount (s : State) (core id : Nat) (o : MOp) (n : Nat) : State :=
  let h := opWord o 2
  let back := undebit s (.core core) id o.held
  if n = 0 then back
  else
    match loggedPlace s id h with
    | some (.dev k, _) =>
      let v := min (memNat s.mem (k + 44) 4 + n) (2 ^ 32 - 1)
      let bytes := List.replicate (k % 256 + 44) none ++ (bytesOf 4 v).map some ++ List.replicate (208 - k % 256) none
      storeOver deviceWrites (markDirty s (dieOf core) id h) id (.core core) (o.held != 0) (k / 256) bytes
    | some (.host a, _) =>
      hostStore deviceWrites back (a + 44) ((bytesOf 4 (min (memNat s.hostMem (a + 44) 4 + n) (2 ^ 32 - 1))).map some)
    | _ => back

/-- An ATTN at the head of its queue retires (R330, R331, R334): a metadata retry, or a peer that has not answered, makes the
unit read again; over an empty range it writes nothing (R332). -/
def attnRetire (s : State) (core part : Nat) (o : MOp) (causal : Bool) : State :=
  let d := attnDesc (opWord o)
  let id := (getTeam s o.uid).ctx
  match readPages core id o d causal (field (opWord o 5) 0 8) (field (opWord o 5) 8 8) ⟨s, o.asks, [], joinSeen o.seen o.made, attnElem d⟩ o.pages with
  | (g, k) =>
    let o1 := { o with asks := [] }
    let s1 := setOpHead g.s core part o1
    let fail := fun (x : Nat) => matFail (undebit s1 (.core core) id o.held) core part o1 x false
    match k.fail with
    | some x => fail x
    | none =>
      if k.wait then setOpHead g.s core part { o with asks := g.asks }
      else
        match attnRun s1 core o d causal k.rows with
        | .fail x => fail x
        | .done c fl =>
          let wrote := if d.p1 ≤ d.p0 then { o1 with destTiles := [], destRows := [] } else o1
          matEnd (attnCount (matWrite s.free s1 core part wrote c fl (k.absent != 0)) core id o k.absent) core part

/-- The operation at the head of a unit's queue retires (R180, R200). A follower's half retires with its pair. -/
def retireHead (s : State) (core part : Nat) : State :=
  match (matQueue (getCore s core) part).head? with
  | none => s
  | some o =>
    if o.slave then s
    else
      match o.kind with
      | .attn causal => attnRetire s core part o causal
      | .fin => matFinish s core part o (attnFinRun s.free (getCore s core) o)
      | _ => plainRetire s core part o

/-- MATRIX_OP_RETIRE (R180, R200). -/
def execMatrixOpRetire (core part : Nat) (s : State) : Out :=
  match (matQueue (getCore s core) part).head? with
  | none => .next s
  | some o => if o.slave then .next s else done (retireHead s core part)

/-- Operations of a core and its pair retire in their order while `more` holds, as before a save (R190, R201, R245); one that waits for a
peer stops it. -/
def drainOps (core : Nat) (more : State → Bool) : Nat → State → State
  | 0, s => s
  | fuel + 1, s =>
    let pair := if core % 2 = 0 then core + 1 else core - 1
    if more s then
      drainOps core more fuel ([0, 1, 2, 3].foldl (fun s p =>
        retireHead { retireHead { s with free := s.free + 1 } core p with free := s.free + 2 } pair p) s)
    else s

/-- Whether a save of teams of a core must wait (R190, R201): their own operations, or halves of a pair's operation there, have not
retired. -/
def saveHeld (core : Nat) (us : List Nat) (s : State) : Bool :=
  us.any (matBusy s core) || ((getCore s core).matQ.flatten).any (·.slave)

end Sys2Proof.Machine
end

