-- ==== Sys2Proof/WellFormed.lean ====
section
/-! DEFINITION. Which instructions an encoding can carry: the limits of R38, R42, R43, R45 and R46 that the field
widths of `Instr` do not already say. -/

namespace Sys2Proof

/-- A nine-bit uniform field names k0 to k383 (R38). -/
def KReg.ok (k : KReg) : Bool := k.toNat ≤ 383

/-- A lock number is 0 to 63 (R42). -/
def lockOk (n : KReg) : Bool := n.toNat ≤ 63

/-- The conversion codes R116 lists. -/
def cvtKnown (c : BitVec 7) : Bool :=
  let n := c.toNat
  n ≤ 0x11 || (0x20 ≤ n && n ≤ 0x28) || (0x30 ≤ n && n ≤ 0x35) || (0x40 ≤ n && n ≤ 0x4B)

/-- The conversion codes that accept .sat (R116). -/
def cvtSat (c : BitVec 7) : Bool :=
  let n := c.toNat
  (0x40 ≤ n && n ≤ 0x45) || n == 0x4A || n == 0x4B

/-- The MOD fields ATOM may carry (R45). -/
def AtomMod.okAtom (m : AtomMod) (w : Width) : Bool :=
  m.ty != .float || ((m.op == .add || m.op == .min || m.op == .max) && w == .b32)

/-- The MOD fields RED may carry (R45). -/
def AtomMod.okRed (m : AtomMod) (w : Width) : Bool :=
  m.okAtom w && m.op != .exch && m.op != .cas && (m.ord == .rlx || m.ord == .rel)

/-- ATOM and RED have widths .b32 and .b64 and the four scopes of their pol field (R42, R170). -/
def atomShape (w : Width) (s : Scope) : Bool :=
  (w == .b32 || w == .b64) && s != .team

/-- The sign-extension bit applies to .b8 and .b16 loads only (R45). -/
def sxOk (w : Width) (sx : Bool) : Bool := !sx || w == .b8 || w == .b16

/-- Every instruction that some group of words encodes. An event row has no words, so it is well formed only as an
event (`Instr.encoded` tells the two apart). -/
def Instr.wellFormed : Instr → Bool
  | .iaddk _ _ _ k | .ilea _ _ _ k | .movk _ _ k => k.ok
  | .kadd d a _ | .ksub d a _ | .kmul d a _ | .kand d a _ | .kor d a _ | .kxor d a _ | .kshl d a _ | .kshr d a _
  | .ksra d a _ | .kmin d a _ | .kmax d a _ | .kdiv d a _ => d.ok && a.ok
  | .kli d _ _ | .kaddi d _ _ | .klui d _ => d.ok
  | .bits op _ _ b => b == 0#7 || op == .bfeI32 || op == .bfeN32 || op == .bfi || op == .perm
  | .movs vec d sv => if vec then d.toNat < 128 else d.ok && sv != .lane && sv != .row
  | .cvt c _ sat _ _ => cvtKnown c && (!sat || cvtSat c)
  | .vote k _ d _ _ => k == .ballot || d.toNat < 8
  | .ld w _ sx _ | .lds w sx _ => sxOk w sx
  | .ldt w _ => w != .b64
  | .atom w s md _ => atomShape w s && md.okAtom w
  | .red w s md _ => atomShape w s && md.okRed w
  | .kld _ _ _ a b _ | .kst _ _ a b _ => a.ok && b.ok
  | .ldb w _ _ => w == .b32 || w == .b64
  | .brk a _ _ => a.ok
  | .jmpi _ k => k.ok
  | .ret a | .maskSet a | .maskGet a => a.ok
  | .maskPred a _ => a.ok
  | .loop a _ n => a.ok && 1 ≤ n.toNat && n.toNat ≤ 256
  | .setx a _ => a.ok
  | .lockInit a n | .lockArrive a n | .lockExpect a n | .lockInval a n | .lockFill a n | .lockDrain a n =>
    a.ok && lockOk n
  | .lockWait a n _ | .lockTry a n _ => a.ok && lockOk n
  | .copy a n _ _ => a.ok && lockOk n
  | .mma a f acca _ _ => a.ok && !(acca && f == .o4)
  | .mfenceBatch a | .mwait a | .macs a _ | .accmvT2s a | .accmvS2t a | .accmvT2t a | .accmvT2g a | .accmvG2t a
  | .accmvZero a | .attn a _ | .attnFin a => a.ok
  | .seqReserve a b | .seqAddr a b | .seqCommit a b | .seqVoid a b | .seqWatch a b | .seqWait a b | .seqFork a b
  | .seqLen a b | .ptreeLookup a b | .ptreeInsert a b | .ptreeUnref a b | .kvtPage a b | .kvtRope a b
  | .kvtBoth a b | .launch a b => a.ok && b.ok
  | .fork a b n => a.ok && b.ok && n.toNat ≤ 8
  | .join n => lockOk n
  | .bpassInfo a | .bpassUndec a | .freebCtx a | .freebSlice a | .traceOn a | .traceOff a | .traceFlush a => a.ok
  | .traceBind a b => a.ok && b.ok
  | .iadd .. | .isub .. | .imul .. | .imad .. | .idiv .. | .lop .. | .shf .. | .imnx .. | .icmp ..
  | .sel .. | .iaddi .. | .ishi .. | .icmpi .. | .lopi .. | .fadd .. | .fsub .. | .fmul .. | .ffma .. | .fmnx ..
  | .fcmp .. | .fsf .. | .pack .. | .dp4 .. | .fcls .. | .shfl .. | .rdx .. | .scan .. | .lmov .. | .st .. | .sts ..
  | .fence .. | .cacheZero .. | .cacheInv .. | .cacheEvict .. | .cacheFetch .. | .bra .. | .land | .call ..
  | .regionCommit | .exit | .yield | .trap .. | .bkpt .. | .nop | .mfenceOpr | .hintStall .. | .hintMark .. => true
  | .yieldResume .. | .copyUnitWrite .. | .copyRetry .. | .matrixOpRetire .. | .traceSyncDue .. | .illegalWord ..
  | .loadReturn .. | .variableResultWriteback .. | .fenceComplete .. | .scRmwPerform .. | .freeOldRun ..
  | .walkBatchStart .. | .pageWalkDone .. | .gatherExpand .. | .arbiterSelect | .queueReadRetry ..
  | .dispatchWriteApply .. | .teamPlace .. | .preempt .. | .evict .. | .taskSteal .. | .teamEnd .. | .fillRetry ..
  | .handoffAppend .. | .appendRetry .. | .create .. | .destroy .. | .deflate .. | .inflate .. | .resolve ..
  | .save .. | .saveComplete .. | .restore .. | .power .. | .map .. | .unmap .. | .perm .. | .migrateIndev ..
  | .migrateTodev .. | .migrateTohost .. | .clearacc .. | .pageDrainDone | .resume .. | .skip .. | .kill ..
  | .rdstate .. | .wrstate .. | .step .. | .halt .. | .list .. | .hostRead .. | .hostWrite .. | .hostRmw ..
  | .hostLoom .. | .ptreeRemove .. | .attest .. | .train .. | .linkTrained .. | .laneFailure .. | .flitCrcError ..
  | .peerInboundAccess .. | .peerResponse .. | .peerTimeout .. | .refresh .. | .mitigationRefresh ..
  | .poundReissue .. | .scrubRead .. | .bucketLeak .. | .rowSpare .. | .uncorrectableError .. | .coreOffline ..
  | .thermalTrip .. | .reset .. | .timeWrite .. | .mgmtWrite .. => true

end Sys2Proof
end

