-- ==== Sys2Proof/Decode.lean ====
section
/-! DEFINITION. The decoder of instruction words and hint groups (R37-R53) and, after it, the encoder.
Decoding is total: every group of words is an instruction or one of the four ILLEGAL causes of R52. -/

namespace Sys2Proof

/-! ## Sub-field codes (R42) -/

/-- The code of each value of `IntTy`. -/
def IntTy.code : IntTy → BitVec 3
  | .i32 => 0#3
  | .n32 => 1#3
  | .i64 => 2#3
  | .n64 => 3#3
  | .i16x2 => 4#3
  | .n16x2 => 5#3
  | .i8x4 => 6#3
  | .n8x4 => 7#3

/-- The value of `IntTy` a code names. -/
def IntTy.ofCode (b : BitVec 3) : IntTy :=
  match b.toNat with
  | 0 => .i32
  | 1 => .n32
  | 2 => .i64
  | 3 => .n64
  | 4 => .i16x2
  | 5 => .n16x2
  | 6 => .i8x4
  | _ => .n8x4

/-- The code of each value of `ShKind`. -/
def ShKind.code : ShKind → BitVec 2
  | .shl => 0#2
  | .shr => 1#2
  | .sra => 2#2
  | .rot => 3#2

/-- The value of `ShKind` a code names. -/
def ShKind.ofCode (b : BitVec 2) : ShKind :=
  match b.toNat with
  | 0 => .shl
  | 1 => .shr
  | 2 => .sra
  | _ => .rot

/-- The code of each value of `BitsOp`. -/
def BitsOp.code : BitsOp → BitVec 3
  | .popc => 0#3
  | .clz => 1#3
  | .ctz => 2#3
  | .brev => 3#3
  | .bfeI32 => 4#3
  | .bfeN32 => 5#3
  | .bfi => 6#3
  | .perm => 7#3

/-- The value of `BitsOp` a code names. -/
def BitsOp.ofCode (b : BitVec 3) : BitsOp :=
  match b.toNat with
  | 0 => .popc
  | 1 => .clz
  | 2 => .ctz
  | 3 => .brev
  | 4 => .bfeI32
  | 5 => .bfeN32
  | 6 => .bfi
  | _ => .perm

/-- The code of each value of `Cond`. -/
def Cond.code : Cond → BitVec 3
  | .eq => 0#3
  | .ne => 1#3
  | .lt => 2#3
  | .le => 3#3
  | .gt => 4#3
  | .ge => 5#3

/-- The value of `Cond` a code names, when it names one. -/
def Cond.ofCode (b : BitVec 3) : Option Cond :=
  match b.toNat with
  | 0 => some .eq
  | 1 => some .ne
  | 2 => some .lt
  | 3 => some .le
  | 4 => some .gt
  | 5 => some .ge
  | _ => none

/-- The code of each value of `LopiOp`. -/
def LopiOp.code : LopiOp → BitVec 2
  | .and => 0#2
  | .or => 1#2
  | .xor => 2#2
  | .andn => 3#2

/-- The value of `LopiOp` a code names. -/
def LopiOp.ofCode (b : BitVec 2) : LopiOp :=
  match b.toNat with
  | 0 => .and
  | 1 => .or
  | 2 => .xor
  | _ => .andn

/-- The code of each value of `IaddkVar`. -/
def IaddkVar.code : IaddkVar → BitVec 2
  | .i32 => 0#2
  | .i32sat => 1#2
  | .n32sat => 2#2
  | .i64 => 3#2

/-- The value of `IaddkVar` a code names. -/
def IaddkVar.ofCode (b : BitVec 2) : IaddkVar :=
  match b.toNat with
  | 0 => .i32
  | 1 => .i32sat
  | 2 => .n32sat
  | _ => .i64

/-- The code of each value of `MovkVar`. -/
def MovkVar.code : MovkVar → BitVec 2
  | .lo => 0#2
  | .hi => 1#2
  | .b64 => 2#2

/-- The value of `MovkVar` a code names, when it names one. -/
def MovkVar.ofCode (b : BitVec 2) : Option MovkVar :=
  match b.toNat with
  | 0 => some .lo
  | 1 => some .hi
  | 2 => some .b64
  | _ => none

/-- The code of each value of `DivRes`. -/
def DivRes.code : DivRes → BitVec 2
  | .q => 0#2
  | .r => 1#2
  | .qr => 2#2

/-- The value of `DivRes` a code names, when it names one. -/
def DivRes.ofCode (b : BitVec 2) : Option DivRes :=
  match b.toNat with
  | 0 => some .q
  | 1 => some .r
  | 2 => some .qr
  | _ => none

/-- The code of each value of `RMode`. -/
def RMode.code : RMode → BitVec 2
  | .rne => 0#2
  | .rz => 1#2
  | .rd => 2#2
  | .ru => 3#2

/-- The value of `RMode` a code names. -/
def RMode.ofCode (b : BitVec 2) : RMode :=
  match b.toNat with
  | 0 => .rne
  | 1 => .rz
  | 2 => .rd
  | _ => .ru

/-- The code of each value of `FTy`. -/
def FTy.code : FTy → BitVec 2
  | .f32 => 0#2
  | .f16x2 => 1#2
  | .bf16x2 => 2#2

/-- The value of `FTy` a code names, when it names one. -/
def FTy.ofCode (b : BitVec 2) : Option FTy :=
  match b.toNat with
  | 0 => some .f32
  | 1 => some .f16x2
  | 2 => some .bf16x2
  | _ => none

/-- The code of each value of `FCond`. -/
def FCond.code : FCond → BitVec 4
  | .eq => 0#4
  | .ne => 1#4
  | .lt => 2#4
  | .le => 3#4
  | .gt => 4#4
  | .ge => 5#4
  | .ord => 6#4
  | .uno => 7#4
  | .ult => 8#4
  | .ule => 9#4
  | .ugt => 10#4
  | .uge => 11#4
  | .one => 12#4
  | .ueq => 13#4

/-- The value of `FCond` a code names, when it names one. -/
def FCond.ofCode (b : BitVec 4) : Option FCond :=
  match b.toNat with
  | 0 => some .eq
  | 1 => some .ne
  | 2 => some .lt
  | 3 => some .le
  | 4 => some .gt
  | 5 => some .ge
  | 6 => some .ord
  | 7 => some .uno
  | 8 => some .ult
  | 9 => some .ule
  | 10 => some .ugt
  | 11 => some .uge
  | 12 => some .one
  | 13 => some .ueq
  | _ => none

/-- The code of each value of `FsfFn`. -/
def FsfFn.code : FsfFn → BitVec 4
  | .rcp => 0#4
  | .rsqrt => 1#4
  | .sqrt => 2#4
  | .exp2 => 3#4
  | .log2 => 4#4
  | .sinpi => 5#4
  | .cospi => 6#4
  | .tanh => 7#4
  | .sigm => 8#4

/-- The value of `FsfFn` a code names, when it names one. -/
def FsfFn.ofCode (b : BitVec 4) : Option FsfFn :=
  match b.toNat with
  | 0 => some .rcp
  | 1 => some .rsqrt
  | 2 => some .sqrt
  | 3 => some .exp2
  | 4 => some .log2
  | 5 => some .sinpi
  | 6 => some .cospi
  | 7 => some .tanh
  | 8 => some .sigm
  | _ => none

/-- The code of each value of `PackForm`. -/
def PackForm.code : PackForm → BitVec 4
  | .f16x2 => 0#4
  | .bf16x2 => 1#4
  | .i16x2sat => 2#4
  | .n16x2sat => 3#4
  | .lo16 => 4#4
  | .hi16 => 5#4

/-- The value of `PackForm` a code names, when it names one. -/
def PackForm.ofCode (b : BitVec 4) : Option PackForm :=
  match b.toNat with
  | 0 => some .f16x2
  | 1 => some .bf16x2
  | 2 => some .i16x2sat
  | 3 => some .n16x2sat
  | 4 => some .lo16
  | 5 => some .hi16
  | _ => none

/-- The code of each value of `FclsTy`. -/
def FclsTy.code : FclsTy → BitVec 4
  | .f32 => 0#4
  | .f16 => 1#4
  | .bf16 => 2#4

/-- The value of `FclsTy` a code names, when it names one. -/
def FclsTy.ofCode (b : BitVec 4) : Option FclsTy :=
  match b.toNat with
  | 0 => some .f32
  | 1 => some .f16
  | 2 => some .bf16
  | _ => none

/-- The code of each value of `ShflKind`. -/
def ShflKind.code : ShflKind → BitVec 2
  | .idx => 0#2
  | .up => 1#2
  | .down => 2#2
  | .xor => 3#2

/-- The value of `ShflKind` a code names. -/
def ShflKind.ofCode (b : BitVec 2) : ShflKind :=
  match b.toNat with
  | 0 => .idx
  | 1 => .up
  | 2 => .down
  | _ => .xor

/-- The code of each value of `VoteKind`. -/
def VoteKind.code : VoteKind → BitVec 2
  | .all => 0#2
  | .any => 1#2
  | .ballot => 2#2
  | .uni => 3#2

/-- The value of `VoteKind` a code names. -/
def VoteKind.ofCode (b : BitVec 2) : VoteKind :=
  match b.toNat with
  | 0 => .all
  | 1 => .any
  | 2 => .ballot
  | _ => .uni

/-- The code of each value of `RdxOp`. -/
def RdxOp.code : RdxOp → BitVec 3
  | .iadd => 0#3
  | .imin => 1#3
  | .imax => 2#3
  | .nmin => 3#3
  | .nmax => 4#3
  | .fadd => 5#3
  | .fmin => 6#3
  | .fmax => 7#3

/-- The value of `RdxOp` a code names. -/
def RdxOp.ofCode (b : BitVec 3) : RdxOp :=
  match b.toNat with
  | 0 => .iadd
  | 1 => .imin
  | 2 => .imax
  | 3 => .nmin
  | 4 => .nmax
  | 5 => .fadd
  | 6 => .fmin
  | _ => .fmax

/-- The code of each value of `LmovKind`. -/
def LmovKind.code : LmovKind → BitVec 4
  | .bcast => 0#4
  | .rot => 1#4
  | .swap => 2#4

/-- The value of `LmovKind` a code names, when it names one. -/
def LmovKind.ofCode (b : BitVec 4) : Option LmovKind :=
  match b.toNat with
  | 0 => some .bcast
  | 1 => some .rot
  | 2 => some .swap
  | _ => none

/-- The code of each value of `Width`. -/
def Width.code : Width → BitVec 2
  | .b8 => 0#2
  | .b16 => 1#2
  | .b32 => 2#2
  | .b64 => 3#2

/-- The value of `Width` a code names. -/
def Width.ofCode (b : BitVec 2) : Width :=
  match b.toNat with
  | 0 => .b8
  | 1 => .b16
  | 2 => .b32
  | _ => .b64

/-- The code of each value of `Pol`. -/
def Pol.code : Pol → BitVec 2
  | .l1 => 0#2
  | .pnd => 1#2
  | .strm => 2#2
  | .last => 3#2

/-- The value of `Pol` a code names. -/
def Pol.ofCode (b : BitVec 2) : Pol :=
  match b.toNat with
  | 0 => .l1
  | 1 => .pnd
  | 2 => .strm
  | _ => .last

/-- The code of each value of `Scope`. -/
def Scope.code : Scope → BitVec 3
  | .dev => 0#3
  | .core => 1#3
  | .clu => 2#3
  | .sys => 3#3
  | .team => 4#3

/-- The value of `Scope` a code names, when it names one. -/
def Scope.ofCode (b : BitVec 3) : Option Scope :=
  match b.toNat with
  | 0 => some .dev
  | 1 => some .core
  | 2 => some .clu
  | 3 => some .sys
  | 4 => some .team
  | _ => none

/-- The code of each value of `FenceKind`. -/
def FenceKind.code : FenceKind → BitVec 3
  | .acq => 0#3
  | .rel => 1#3
  | .acqrel => 2#3
  | .sc => 3#3

/-- The value of `FenceKind` a code names, when it names one. -/
def FenceKind.ofCode (b : BitVec 3) : Option FenceKind :=
  match b.toNat with
  | 0 => some .acq
  | 1 => some .rel
  | 2 => some .acqrel
  | 3 => some .sc
  | _ => none

/-- The code of each value of `AtomOp`. -/
def AtomOp.code : AtomOp → BitVec 3
  | .add => 0#3
  | .min => 1#3
  | .max => 2#3
  | .and => 3#3
  | .or => 4#3
  | .xor => 5#3
  | .exch => 6#3
  | .cas => 7#3

/-- The value of `AtomOp` a code names. -/
def AtomOp.ofCode (b : BitVec 3) : AtomOp :=
  match b.toNat with
  | 0 => .add
  | 1 => .min
  | 2 => .max
  | 3 => .and
  | 4 => .or
  | 5 => .xor
  | 6 => .exch
  | _ => .cas

/-- The code of each value of `AtomTy`. -/
def AtomTy.code : AtomTy → BitVec 2
  | .signed => 0#2
  | .unsigned => 1#2
  | .float => 2#2

/-- The value of `AtomTy` a code names, when it names one. -/
def AtomTy.ofCode (b : BitVec 2) : Option AtomTy :=
  match b.toNat with
  | 0 => some .signed
  | 1 => some .unsigned
  | 2 => some .float
  | _ => none

/-- The code of each value of `AtomOrd`. -/
def AtomOrd.code : AtomOrd → BitVec 3
  | .rlx => 0#3
  | .acq => 1#3
  | .rel => 2#3
  | .acqrel => 3#3
  | .sc => 4#3

/-- The value of `AtomOrd` a code names, when it names one. -/
def AtomOrd.ofCode (b : BitVec 3) : Option AtomOrd :=
  match b.toNat with
  | 0 => some .rlx
  | 1 => some .acq
  | 2 => some .rel
  | 3 => some .acqrel
  | 4 => some .sc
  | _ => none

/-- The code of each value of `BrkCond`. -/
def BrkCond.code : BrkCond → BitVec 3
  | .z => 0#3
  | .nz => 1#3
  | .lt => 2#3
  | .ge => 3#3
  | .le => 4#3
  | .gt => 5#3
  | .al => 6#3

/-- The value of `BrkCond` a code names, when it names one. -/
def BrkCond.ofCode (b : BitVec 3) : Option BrkCond :=
  match b.toNat with
  | 0 => some .z
  | 1 => some .nz
  | 2 => some .lt
  | 3 => some .ge
  | 4 => some .le
  | 5 => some .gt
  | 6 => some .al
  | _ => none

/-- The code of each value of `LoopCtr`. -/
def LoopCtr.code : LoopCtr → BitVec 3
  | .l0 => 0#3
  | .l1 => 1#3
  | .l2 => 2#3

/-- The value of `LoopCtr` a code names, when it names one. -/
def LoopCtr.ofCode (b : BitVec 3) : Option LoopCtr :=
  match b.toNat with
  | 0 => some .l0
  | 1 => some .l1
  | 2 => some .l2
  | _ => none

/-- The code of each value of `CopyForm`. -/
def CopyForm.code : CopyForm → BitVec 3
  | .tensor => 0#3
  | .stream => 1#3
  | .mx6e4m3 => 2#3
  | .mx6bf16 => 3#3
  | .decomp => 4#3

/-- The value of `CopyForm` a code names, when it names one. -/
def CopyForm.ofCode (b : BitVec 3) : Option CopyForm :=
  match b.toNat with
  | 0 => some .tensor
  | 1 => some .stream
  | 2 => some .mx6e4m3
  | 3 => some .mx6bf16
  | 4 => some .decomp
  | _ => none

/-- The code of each value of `MmaFmt`. -/
def MmaFmt.code : MmaFmt → BitVec 3
  | .e4m3 => 0#3
  | .e5m2 => 1#3
  | .bf16 => 2#3
  | .f16 => 3#3
  | .o4 => 4#3

/-- The value of `MmaFmt` a code names, when it names one. -/
def MmaFmt.ofCode (b : BitVec 3) : Option MmaFmt :=
  match b.toNat with
  | 0 => some .e4m3
  | 1 => some .e5m2
  | 2 => some .bf16
  | 3 => some .f16
  | 4 => some .o4
  | _ => none

/-- The code of each value of `ScaleFmt`. -/
def ScaleFmt.code : ScaleFmt → BitVec 2
  | .e8m0 => 0#2
  | .f32 => 1#2
  | .bf16 => 2#2

/-- The value of `ScaleFmt` a code names, when it names one. -/
def ScaleFmt.ofCode (b : BitVec 2) : Option ScaleFmt :=
  match b.toNat with
  | 0 => some .e8m0
  | 1 => some .f32
  | 2 => some .bf16
  | _ => none

/-- The code of each value of `Sv`. -/
def Sv.code : Sv → BitVec 8
  | .lane => 0#8
  | .row => 1#8
  | .team => 2#8
  | .core => 3#8
  | .part => 4#8
  | .pair => 5#8
  | .cluster => 6#8
  | .die => 7#8
  | .dev => 8#8
  | .time => 9#8
  | .launch => 10#8
  | .groups => 11#8
  | .bolt => 12#8
  | .flags => 13#8
  | .fault => 14#8

/-- The value of `Sv` a code names, when it names one. -/
def Sv.ofCode (b : BitVec 8) : Option Sv :=
  match b.toNat with
  | 0 => some .lane
  | 1 => some .row
  | 2 => some .team
  | 3 => some .core
  | 4 => some .part
  | 5 => some .pair
  | 6 => some .cluster
  | 7 => some .die
  | 8 => some .dev
  | 9 => some .time
  | 10 => some .launch
  | 11 => some .groups
  | 12 => some .bolt
  | 13 => some .flags
  | 14 => some .fault
  | _ => none

/-- The fn code of IMUL and IMAD (R88). -/
def MulVar.code : MulVar → BitVec 4
  | .lo => 0#4
  | .hiI32 => 4#4
  | .hiN32 => 5#4
  | .wideI32 => 8#4
  | .wideN32 => 9#4

/-- The variant an fn value names (R88). -/
def MulVar.ofCode (b : BitVec 4) : Option MulVar :=
  match b.toNat with
  | 0 => some .lo
  | 4 => some .hiI32
  | 5 => some .hiN32
  | 8 => some .wideI32
  | 9 => some .wideN32
  | _ => none

/-- The fn code of DP4 (R118). -/
def Dp4Form.code : Dp4Form → BitVec 4
  | .int a b s => 0#1 ++ BitVec.ofBool s ++ BitVec.ofBool b ++ BitVec.ofBool a
  | .fp8 a b => 1#1 ++ 0#1 ++ BitVec.ofBool b ++ BitVec.ofBool a

/-- The form an fn value names; fn 2 must be 0 in the FP8 forms (R42). -/
def Dp4Form.ofCode (b : BitVec 4) : Dp4Form :=
  if b.getLsbD 3 then .fp8 (b.getLsbD 0) (b.getLsbD 1) else .int (b.getLsbD 0) (b.getLsbD 1) (b.getLsbD 2)

/-! ## Hints and groups (R44-R47) -/

/-- The hint kind of a word with major 0x7F. -/
def hintKind (w : W32) : BitVec 3 := w.extractLsb' 22 3

/-- The 22-bit payload of a hint word. -/
def hintPayload (w : W32) : BitVec 22 := w.extractLsb' 0 22

/-- A word is a hint word when its major opcode is 0x7F (R44). -/
def isHint (w : W32) : Bool := w.extractLsb' 25 7 == 0x7F#7

/-- IMM and MOD hints open or continue a group (R47). -/
def isGroupHint (w : W32) : Bool := isHint w && (hintKind w == 1#3 || hintKind w == 2#3)

/-- The hints collected in front of an instruction word; `bad` when their order or number breaks R47. -/
structure Hints where
  md : Option (BitVec 22)
  imm : ImmHints
  bad : Bool
  deriving DecidableEq, Repr

/-- No hints. -/
def Hints.empty : Hints := ⟨none, .none, false⟩

/-- Adds the next IMM or MOD hint of a group, in address order (R47). -/
def Hints.push (h : Hints) (w : W32) : Hints :=
  if hintKind w == 2#3 then
    match h.md, h.imm with
    | none, .none => ⟨some (hintPayload w), .none, h.bad⟩
    | _, _ => ⟨h.md, h.imm, true⟩
  else
    match h.imm with
    | .none => ⟨h.md, .one (hintPayload w), h.bad⟩
    | .one p => ⟨h.md, .two p (hintPayload w), h.bad⟩
    | .two _ _ => ⟨h.md, h.imm, true⟩

/-- What an instruction's MOD hint may hold (R45). -/
inductive ModUse where
  | none
  | fsat
  | sx
  deriving DecidableEq, Repr

/-- The MOD payload, 0 when there is no hint (R45). -/
def Hints.payload (h : Hints) : BitVec 22 := h.md.getD 0#22

/-- A MOD hint without a field that applies to the instruction must be zero in every bit but those of its use. -/
def Hints.modOk (h : Hints) : ModUse → Bool
  | .none => h.payload == 0#22
  | .fsat => h.payload.extractLsb' 0 8 == 0#8 && h.payload.extractLsb' 9 13 == 0#13
  | .sx => h.payload.extractLsb' 0 9 == 0#9 && h.payload.extractLsb' 10 12 == 0#12

/-- The atomic fields of a MOD payload, when each holds an assigned value (R45). -/
def Hints.atom (h : Hints) : Option AtomMod :=
  match AtomTy.ofCode (h.payload.extractLsb' 3 2), AtomOrd.ofCode (h.payload.extractLsb' 5 3) with
  | some ty, some ord =>
    if h.payload.extractLsb' 8 14 == 0#14 then some ⟨AtomOp.ofCode (h.payload.extractLsb' 0 3), ty, ord⟩ else none
  | _, _ => none

/-! ## One instruction word with its hints -/

/-- The first cause under R53 among those a word raises, or the instruction. -/
def verdict (fn field hint : Bool) (i : Instr) : Except IllegalCause Instr :=
  if !fn then .error .fn else if !field then .error .field else if !hint then .error .hint else .ok i

/-- A verdict on a word whose fn names a value only sometimes. -/
def verdictOpt {α : Type} (fn : Option α) (field hint : Bool) (i : α → Instr) : Except IllegalCause Instr :=
  match fn with
  | some v => verdict true field hint (i v)
  | none => .error .fn

/-- No IMM hint stands in front of the instruction. -/
def Hints.noImm (h : Hints) : Bool := h.imm == .none

/-- The instruction takes no hint at all, beyond a MOD hint of zeros. -/
def Hints.plain (h : Hints) : Bool := !h.bad && h.noImm && h.modOk .none

/-- The instruction takes IMM hints and no MOD field. -/
def Hints.immOnly (h : Hints) : Bool := !h.bad && h.modOk .none

/-- Decodes an instruction word with the hints in front of it (R37-R46, R52, R53). A field that names a register number above 383 makes the
word ILLEGAL with 0x42, FORK's kb with n = 0 too, which R246 calls ignored (log 75, DESIGN CHOICE). -/
def decodeWord (w : W32) (h : Hints) : Except IllegalCause Instr :=
  let d : VReg := w.extractLsb' 18 7
  let a : VReg := w.extractLsb' 11 7
  let b : VReg := w.extractLsb' 4 7
  let fn : BitVec 4 := w.extractLsb' 0 4
  let kv : KReg := w.extractLsb' 2 9
  let fn2 : BitVec 2 := w.extractLsb' 0 2
  let imm11 : BitVec 11 := w.extractLsb' 0 11
  let kd : KReg := w.extractLsb' 16 9
  let ka : KReg := w.extractLsb' 7 9
  let kb7 : BitVec 7 := w.extractLsb' 0 7
  let imm16 : BitVec 16 := w.extractLsb' 0 16
  let wid : Width := Width.ofCode (w.extractLsb' 2 2)
  let pol : BitVec 2 := w.extractLsb' 0 2
  let fn7 : BitVec 7 := w.extractLsb' 0 7
  let low25 : BitVec 25 := w.extractLsb' 0 25
  let m : MArgs := ⟨d, a, b, h.imm⟩
  let p3 : PReg := w.extractLsb' 18 3
  let single (i : Instr) := verdict true (low25 == 0#25) h.plain i
  let k3 (i : Instr) := verdict true (kd.ok && ka.ok) h.plain i
  let aOp (i : Instr) := verdict true (kd.ok && ka.ok) h.plain i
  match (w.extractLsb' 25 7).toNat with
  | 0x01 => verdict true true h.plain (.iadd (IntTy.ofCode (w.extractLsb' 0 3)) (fn.getLsbD 3) d a b)
  | 0x02 => verdict true true h.plain (.isub (IntTy.ofCode (w.extractLsb' 0 3)) (fn.getLsbD 3) d a b)
  | 0x03 => verdictOpt (MulVar.ofCode fn) true h.plain (.imul · d a b)
  | 0x04 => verdictOpt (MulVar.ofCode fn) true h.plain (.imad · d a b)
  | 0x05 => verdictOpt (DivRes.ofCode (w.extractLsb' 1 2)) true h.plain (.idiv (fn.getLsbD 3) · (fn.getLsbD 0) d a b)
  | 0x06 => verdict true true h.plain (.lop fn d a b)
  | 0x07 => verdict true (!fn.getLsbD 3) h.plain (.shf (ShKind.ofCode fn2) (fn.getLsbD 2) d a b)
  | 0x08 => 
    verdict (!fn.getLsbD 3) (fn.getLsbD 2 || b == 0#7) h.plain (.bits (BitsOp.ofCode (w.extractLsb' 0 3)) d a b)
  | 0x09 => verdict true true h.plain (.imnx (fn.getLsbD 0) (IntTy.ofCode (w.extractLsb' 1 3)) d a b)
  | 0x0a => 
    verdictOpt (Cond.ofCode (w.extractLsb' 0 3)) (w.extractLsb' 21 4 == 0#4) h.plain (.icmp · (fn.getLsbD 3) p3 a b)
  | 0x0b => verdict true true h.plain (.sel (w.extractLsb' 0 3) (fn.getLsbD 3) d a b)
  | 0x0c => verdict true true h.immOnly (.iaddi d a imm11 h.imm)
  | 0x0d => 
    verdict true (w.extractLsb' 5 4 == 0#4) h.plain (.ishi (ShKind.ofCode (w.extractLsb' 9 2)) d a (w.extractLsb' 0 5))
  | 0x0e => 
    verdictOpt (Cond.ofCode (w.extractLsb' 21 3)) true h.immOnly (.icmpi · (w.getLsbD 24) p3 a imm11 h.imm)
  | 0x0f => 
    verdict true true h.immOnly (.lopi (LopiOp.ofCode (w.extractLsb' 9 2)) d a (w.extractLsb' 0 9) h.imm)
  | 0x10 => verdict true kv.ok h.plain (.iaddk (IaddkVar.ofCode fn2) d a kv)
  | 0x11 => verdict true kv.ok h.plain (.ilea fn2 d a kv)
  | 0x12 => verdictOpt (MovkVar.ofCode fn2) (a == 0#7 && kv.ok) h.plain (.movk · d kv)
  | 0x18 => k3 (.kadd kd ka kb7)
  | 0x19 => k3 (.ksub kd ka kb7)
  | 0x1a => k3 (.kmul kd ka kb7)
  | 0x1b => k3 (.kand kd ka kb7)
  | 0x1c => k3 (.kor kd ka kb7)
  | 0x1d => k3 (.kxor kd ka kb7)
  | 0x1e => k3 (.kshl kd ka kb7)
  | 0x1f => k3 (.kshr kd ka kb7)
  | 0x20 => k3 (.ksra kd ka kb7)
  | 0x21 => k3 (.kmin kd ka kb7)
  | 0x22 => k3 (.kmax kd ka kb7)
  | 0x23 => k3 (.kdiv kd ka kb7)
  | 0x24 => verdict true kd.ok h.immOnly (.kli kd imm16 h.imm)
  | 0x25 => verdict true kd.ok h.immOnly (.kaddi kd imm16 h.imm)
  | 0x26 => verdict true kd.ok h.plain (.klui kd imm16)
  | 0x27 => 
    match Sv.ofCode (w.extractLsb' 0 8) with
    | some sv =>
      verdict true
        (w.extractLsb' 8 7 == 0#7 &&
          (if w.getLsbD 15 then kd.extractLsb' 7 2 == 0#2 else kd.ok && sv != .lane && sv != .row))
        h.plain (.movs (w.getLsbD 15) kd sv)
    | none => .error .field
  | 0x28 => 
    verdictOpt (FTy.ofCode (w.extractLsb' 2 2)) true (!h.bad && h.noImm && h.modOk .fsat)
      (.fadd · (RMode.ofCode fn2) (h.payload.getLsbD 8) d a b)
  | 0x29 => 
    verdictOpt (FTy.ofCode (w.extractLsb' 2 2)) true (!h.bad && h.noImm && h.modOk .fsat)
      (.fsub · (RMode.ofCode fn2) (h.payload.getLsbD 8) d a b)
  | 0x2a => 
    verdictOpt (FTy.ofCode (w.extractLsb' 2 2)) true (!h.bad && h.noImm && h.modOk .fsat)
      (.fmul · (RMode.ofCode fn2) (h.payload.getLsbD 8) d a b)
  | 0x2b => 
    verdictOpt (FTy.ofCode (w.extractLsb' 2 2)) true (!h.bad && h.noImm && h.modOk .fsat)
      (.ffma · (RMode.ofCode fn2) (h.payload.getLsbD 8) d a b)
  | 0x2c => verdictOpt (FTy.ofCode (w.extractLsb' 2 2)) true h.plain (.fmnx (fn.getLsbD 0) (fn.getLsbD 1) · d a b)
  | 0x2d => verdictOpt (FCond.ofCode fn) (w.extractLsb' 21 4 == 0#4) h.plain (.fcmp · p3 a b)
  | 0x2e => verdictOpt (FsfFn.ofCode fn) (b == 0#7) h.plain (.fsf · d a)
  | 0x2f => 
    verdict (cvtKnown b) (!fn.getLsbD 3 && (!fn.getLsbD 2 || cvtSat b)) h.plain
      (.cvt b (RMode.ofCode fn2) (fn.getLsbD 2) d a)
  | 0x30 => verdictOpt (PackForm.ofCode fn) true h.plain (.pack · d a b)
  | 0x31 => verdict true (!(fn.getLsbD 3 && fn.getLsbD 2)) h.plain (.dp4 (Dp4Form.ofCode fn) d a b)
  | 0x32 => verdictOpt (FclsTy.ofCode fn) (b == 0#7) h.plain (.fcls · d a)
  | 0x38 => verdict true (!fn.getLsbD 3) h.plain (.shfl (ShflKind.ofCode fn2) (fn.getLsbD 2) d a b)
  | 0x39 => 
    let kind := VoteKind.ofCode fn2
    verdict true
      (!fn.getLsbD 3 && w.extractLsb' 15 3 == 0#3 && b == 0#7 && (kind == .ballot || w.extractLsb' 21 4 == 0#4)) h.plain
      (.vote kind (fn.getLsbD 2) d (w.extractLsb' 11 3) (w.getLsbD 14))
  | 0x3a => verdict true (b == 0#7) h.plain (.rdx (RdxOp.ofCode (w.extractLsb' 0 3)) (fn.getLsbD 3) d a)
  | 0x3b => 
    verdict (b == 0#7 || b == 1#7) true h.plain
      (.scan (RdxOp.ofCode (w.extractLsb' 0 3)) (fn.getLsbD 3) (b == 1#7) d a)
  | 0x3c => verdictOpt (LmovKind.ofCode fn) true h.plain (.lmov · d a b)
  | 0x40 => 
    verdict true true (!h.bad && h.modOk .sx && sxOk wid (h.payload.getLsbD 9))
      (.ld wid (Pol.ofCode pol) (h.payload.getLsbD 9) m)
  | 0x41 => verdict true true h.immOnly (.st wid (Pol.ofCode pol) m)
  | 0x42 => 
    verdict true (pol == 0#2) (!h.bad && h.modOk .sx && sxOk wid (h.payload.getLsbD 9))
      (.lds wid (h.payload.getLsbD 9) m)
  | 0x43 => verdict true (pol == 0#2) h.immOnly (.sts wid m)
  | 0x44 => verdict (wid != .b64) (pol == 0#2) h.immOnly (.ldt wid m)
  | 0x45 => 
    match h.atom, Scope.ofCode (0#1 ++ pol) with
    | some md, some s =>
      verdict (wid == .b32 || wid == .b64) true (!h.bad && md.okAtom wid) (.atom wid s md m)
    | _, _ => if wid == .b32 || wid == .b64 then .error .hint else .error .fn
  | 0x46 => 
    match h.atom, Scope.ofCode (0#1 ++ pol) with
    | some md, some s =>
      verdict (wid == .b32 || wid == .b64) true (!h.bad && md.okRed wid) (.red wid s md m)
    | _, _ => if wid == .b32 || wid == .b64 then .error .hint else .error .fn
  | 0x47 => 
    verdict true (fn7.extractLsb' 5 2 == 0#2 && kd.ok && ka.ok) h.immOnly
      (.kld (Width.ofCode fn2) (Pol.ofCode (w.extractLsb' 2 2)) (fn7.getLsbD 4) kd ka h.imm)
  | 0x48 => 
    verdict true (fn7.extractLsb' 4 3 == 0#3 && kd.ok && ka.ok) h.immOnly
      (.kst (Width.ofCode fn2) (Pol.ofCode (w.extractLsb' 2 2)) kd ka h.imm)
  | 0x49 => 
    match FenceKind.ofCode (w.extractLsb' 3 3), Scope.ofCode (w.extractLsb' 0 3) with
    | some k, some s => verdict true (kd == 0#9 && ka == 0#9 && !fn7.getLsbD 6) h.plain (.fence k s)
    | _, _ => .error .fn
  | 0x4a => 
    let i : Instr :=
      match wid with
      | .b8 => .cacheZero a b h.imm
      | .b16 => .cacheInv a b h.imm
      | .b32 => .cacheEvict a b h.imm
      | .b64 => .cacheFetch a b h.imm
    verdict true (d == 0#7 && pol == 0#2) h.immOnly i
  | 0x4b => verdict (wid == .b32 || wid == .b64) true h.immOnly (.ldb wid (Pol.ofCode pol) m)
  | 0x50 => verdict true true h.plain (.bra (w.extractLsb' 22 3) (w.getLsbD 21) (w.extractLsb' 0 21))
  | 0x51 => verdictOpt (BrkCond.ofCode (w.extractLsb' 13 3)) kd.ok h.plain (.brk kd · (w.extractLsb' 0 13))
  | 0x52 => verdict true (d == 0#7 && fn2 == 0#2 && kv.ok) h.plain (.jmpi a kv)
  | 0x53 => single .land
  | 0x54 => verdict true (w.extractLsb' 21 4 == 0#4) h.plain (.call (w.extractLsb' 0 21))
  | 0x55 => verdict true (imm16 == 0#16 && kd.ok) h.plain (.ret kd)
  | 0x56 => 
    let n : BitVec 13 := w.extractLsb' 0 13
    verdictOpt (LoopCtr.ofCode (w.extractLsb' 13 3)) (kd.ok && 1 ≤ n.toNat && n.toNat ≤ 256) h.plain (.loop kd · n)
  | 0x57 => verdict (fn7 == 0#7) (kd == 0#9 && ka == 0#9) h.plain .regionCommit
  | 0x58 => verdict true (kd == 0#9 && ka.ok) h.plain (.setx ka kb7)
  | 0x59 => 
    match fn7.toNat with
    | 0 => verdict true (ka == 0#9 && kd.ok) h.plain (.maskSet kd)
    | 1 => verdict true (ka == 0#9 && kd.ok) h.plain (.maskGet kd)
    | 2 => verdict true (w.extractLsb' 10 6 == 0#6 && kd.ok) h.plain (.maskPred kd (w.extractLsb' 7 3))
    | _ => .error .fn
  | 0x5a => single .exit
  | 0x5b => single .yield
  | 0x5c => verdict true (kd == 0#9) h.plain (.trap imm16)
  | 0x5d => verdict true (kd == 0#9) h.plain (.bkpt imm16)
  | 0x5e => single .nop
  | 0x60 => 
    let lk (i : Instr) := verdict true (kd.ok && lockOk ka && w.extractLsb' 4 3 == 0#3) h.plain i
    let sc (i : Scope → Instr) := verdictOpt (Scope.ofCode (w.extractLsb' 4 3)) (kd.ok && lockOk ka) h.plain i
    match fn.toNat with
    | 0 => lk (.lockInit kd ka)
    | 1 => lk (.lockArrive kd ka)
    | 2 => lk (.lockExpect kd ka)
    | 3 => sc (.lockWait kd ka ·)
    | 4 => sc (.lockTry kd ka ·)
    | 5 => lk (.lockInval kd ka)
    | 6 => lk (.lockFill kd ka)
    | 7 => lk (.lockDrain kd ka)
    | _ => .error .fn
  | 0x61 => 
    verdictOpt (CopyForm.ofCode (w.extractLsb' 0 3)) (fn7.extractLsb' 5 2 == 0#2 && kd.ok && lockOk ka) h.plain
      (.copy kd ka (w.extractLsb' 3 2) ·)
  | 0x62 => 
    match MmaFmt.ofCode (w.extractLsb' 0 3) with
    | some f =>
      verdict true (ka == 0#9 && !fn7.getLsbD 6 && kd.ok && !(fn7.getLsbD 3 && f == .o4)) h.plain
        (.mma kd f (fn7.getLsbD 3) (fn7.getLsbD 4) (fn7.getLsbD 5))
    | none => .error .fn
  | 0x63 => 
    match fn7.toNat with
    | 0 => verdict true (ka == 0#9 && kd == 0#9) h.plain .mfenceOpr
    | 1 => verdict true (ka == 0#9 && kd.ok) h.plain (.mfenceBatch kd)
    | _ => .error .fn
  | 0x64 => verdict true (imm16 == 0#16 && kd.ok) h.plain (.mwait kd)
  | 0x65 => 
    verdictOpt (ScaleFmt.ofCode fn2) (ka == 0#9 && fn7.extractLsb' 2 5 == 0#5 && kd.ok) h.plain (.macs kd ·)
  | 0x66 => 
    match fn7.toNat with
    | 0 => verdict true (ka == 0#9 && kd.ok) h.plain (.accmvT2s kd)
    | 1 => verdict true (ka == 0#9 && kd.ok) h.plain (.accmvS2t kd)
    | 2 => verdict true (ka == 0#9 && kd.ok) h.plain (.accmvT2t kd)
    | 3 => verdict true (ka == 0#9 && kd.ok) h.plain (.accmvT2g kd)
    | 4 => verdict true (ka == 0#9 && kd.ok) h.plain (.accmvG2t kd)
    | 5 => verdict true (ka == 0#9 && kd.ok) h.plain (.accmvZero kd)
    | _ => .error .fn
  | 0x67 => 
    match fn7.toNat with
    | 0 => verdict true (ka == 0#9 && kd.ok) h.plain (.attn kd false)
    | 1 => verdict true (ka == 0#9 && kd.ok) h.plain (.attn kd true)
    | 2 => verdict true (ka == 0#9 && kd.ok) h.plain (.attnFin kd)
    | _ => .error .fn
  | 0x68 => 
    match fn7.toNat with
    | 0 => aOp (.seqReserve kd ka)
    | 1 => aOp (.seqAddr kd ka)
    | 2 => aOp (.seqCommit kd ka)
    | 3 => aOp (.seqVoid kd ka)
    | 4 => aOp (.seqWatch kd ka)
    | 5 => aOp (.seqWait kd ka)
    | 6 => aOp (.seqFork kd ka)
    | 7 => aOp (.seqLen kd ka)
    | _ => .error .fn
  | 0x69 => 
    match fn7.toNat with
    | 0 => aOp (.ptreeLookup kd ka)
    | 1 => aOp (.ptreeInsert kd ka)
    | 2 => aOp (.ptreeUnref kd ka)
    | _ => .error .fn
  | 0x6a => 
    match fn7.toNat with
    | 0 => aOp (.kvtPage kd ka)
    | 1 => aOp (.kvtRope kd ka)
    | 2 => aOp (.kvtBoth kd ka)
    | _ => .error .fn
  | 0x6b => 
    verdict (fn.toNat ≤ 8) (fn7.extractLsb' 4 3 == 0#3 && kd.ok && ka.ok) h.plain (.fork kd ka fn)
  | 0x6c => verdict true (kd == 0#9 && fn7 == 0#7 && lockOk ka) h.plain (.join ka)
  | 0x6d => verdict true (fn7 == 0#7 && kd.ok && ka.ok) h.plain (.launch kd ka)
  | 0x6e => 
    match fn7.toNat with
    | 0 => verdict true (ka == 0#9 && kd.ok) h.plain (.bpassInfo kd)
    | 1 => verdict true (ka == 0#9 && kd.ok) h.plain (.bpassUndec kd)
    | _ => .error .fn
  | 0x6f => 
    match fn7.toNat with
    | 0 => verdict true (ka == 0#9 && kd.ok) h.plain (.freebCtx kd)
    | 1 => verdict true (ka == 0#9 && kd.ok) h.plain (.freebSlice kd)
    | _ => .error .fn
  | 0x70 => 
    match fn7.toNat with
    | 0 => verdict true (ka == 0#9 && kd.ok) h.plain (.traceOn kd)
    | 1 => verdict true (ka == 0#9 && kd.ok) h.plain (.traceOff kd)
    | 2 => aOp (.traceBind kd ka)
    | 3 => verdict true (ka == 0#9 && kd.ok) h.plain (.traceFlush kd)
    | _ => .error .fn
  | 0x7f => 
    match (hintKind w).toNat with
    | 0 => verdict true true (!h.bad && h.noImm && h.md == none && w.extractLsb' 18 4 == 0#4) (.hintStall (w.extractLsb' 0 18))
    | 3 => verdict true true (!h.bad && h.noImm && h.md == none && w.extractLsb' 16 6 == 0#6) (.hintMark (w.extractLsb' 0 16))
    | _ => .error .hint
  | _ => .error .op

/-- Decodes the words of one group: the run of IMM and MOD hints and the word after it (R47). The answer holds the
number of words the group has. An empty list, or a run with no word after it, has no group. -/
def decodeGroup : List W32 → Hints → Nat → Option (Except IllegalCause Instr × Nat)
  | [], _, _ => none
  | w :: ws, h, n => if isGroupHint w then decodeGroup ws (h.push w) (n + 1) else some (decodeWord w h, n + 1)

/-- Decodes a list of words as one group. -/
def decode (ws : List W32) : Option (Except IllegalCause Instr × Nat) := decodeGroup ws Hints.empty 0

/-- Words `0 … n - 1` of a number whose lowest 32 bits are the first word (R3, R37). -/
def wordsOfNat : Nat → Nat → List W32
  | 0, _ => []
  | n + 1, v => BitVec.ofNat 32 v :: wordsOfNat n (v / 2 ^ 32)

/-- The longest legal group: one MOD hint, two IMM hints and the instruction word (R47). -/
def maxGroupWords : Nat := 4

/-- The instruction the decoder reads from the bits `w` of a table row with `nbits` bits, zeros above them. -/
def decodeTableWord (nbits w : Nat) : Option Instr :=
  match decode (wordsOfNat maxGroupWords (w % 2 ^ nbits)) with
  | some (.ok i, _) => some i
  | _ => none

/-! ## The encoder (R37, R42, R44-R46) -/

/-- A V3 word. -/
def packV3 (m : BitVec 7) (d a b : BitVec 7) (fn : BitVec 4) : W32 := m ++ d ++ a ++ b ++ fn
/-- A VK word. -/
def packVK (m : BitVec 7) (d a : BitVec 7) (k : BitVec 9) (fn2 : BitVec 2) : W32 := m ++ d ++ a ++ k ++ fn2
/-- A VI word. -/
def packVI (m : BitVec 7) (d a : BitVec 7) (imm : BitVec 11) : W32 := m ++ d ++ a ++ imm
/-- A K3 word, and an A word: two uniform fields and seven bits. -/
def packK3 (m : BitVec 7) (d a : BitVec 9) (b : BitVec 7) : W32 := m ++ d ++ a ++ b
/-- A KI word. -/
def packKI (m : BitVec 7) (d : BitVec 9) (imm : BitVec 16) : W32 := m ++ d ++ imm
/-- An M word. -/
def packM (m : BitVec 7) (x : MArgs) (w p : BitVec 2) : W32 := m ++ x.t ++ x.a ++ x.b ++ w ++ p
/-- A B word. -/
def packB (m : BitVec 7) (p : BitVec 3) (neg : Bool) (off : BitVec 21) : W32 := m ++ p ++ BitVec.ofBool neg ++ off
/-- A KB word. -/
def packKB (m : BitVec 7) (a : BitVec 9) (c : BitVec 3) (off : BitVec 13) : W32 := m ++ a ++ c ++ off
/-- A hint word (R44). -/
def packH (kind : BitVec 3) (payload : BitVec 22) : W32 := 0x7F#7 ++ kind ++ payload

/-- The IMM hint words in front of an instruction, the highest piece first (R28). -/
def ImmHints.words : ImmHints → List W32
  | .none => []
  | .one p => [packH 1#3 p]
  | .two p q => [packH 1#3 p, packH 1#3 q]

/-- The MOD hint in front of an instruction, none when every field is 0 (R45). -/
def modWords (p : BitVec 22) : List W32 := if p == 0#22 then [] else [packH 2#3 p]

/-- The MOD payload of an atomic (R45). -/
def AtomMod.payload (m : AtomMod) : BitVec 22 := 0#14 ++ m.ord.code ++ m.ty.code ++ m.op.code
/-- The MOD payload of a float saturation bit (R45). -/
def satPayload (s : Bool) : BitVec 22 := 0#13 ++ BitVec.ofBool s ++ 0#8
/-- The MOD payload of a sign-extension bit (R45). -/
def sxPayload (s : Bool) : BitVec 22 := 0#12 ++ BitVec.ofBool s ++ 0#9

/-- The pol field that holds a scope (R42). -/
def Scope.pol (s : Scope) : BitVec 2 := s.code.extractLsb' 0 2

/-- The words of an instruction, hints first, in the order MOD, IMM, IMM, instruction (R47); an event and an illegal
word have none. -/
def encode : Instr → List W32
  | .iadd ty s d a b => [packV3 1#7 d a b (BitVec.ofBool s ++ ty.code)]
  | .isub ty s d a b => [packV3 2#7 d a b (BitVec.ofBool s ++ ty.code)]
  | .imul v d a b => [packV3 3#7 d a b v.code]
  | .imad v d a b => [packV3 4#7 d a b v.code]
  | .idiv w res u d a b => [packV3 5#7 d a b (BitVec.ofBool w ++ res.code ++ BitVec.ofBool u)]
  | .lop tt d a b => [packV3 6#7 d a b tt]
  | .shf k c d a b => [packV3 7#7 d a b (0#1 ++ BitVec.ofBool c ++ k.code)]
  | .bits op d a b => [packV3 8#7 d a b (0#1 ++ op.code)]
  | .imnx x ty d a b => [packV3 9#7 d a b (ty.code ++ BitVec.ofBool x)]
  | .icmp c u p a b => [packV3 0x0A#7 (0#4 ++ p) a b (BitVec.ofBool u ++ c.code)]
  | .sel p n d a b => [packV3 0x0B#7 d a b (BitVec.ofBool n ++ p)]
  | .iaddi d a i h => h.words ++ [packVI 0x0C#7 d a i]
  | .ishi k d a n => [packVI 0x0D#7 d a (k.code ++ 0#4 ++ n)]
  | .icmpi c u p a i h => h.words ++ [packVI 0x0E#7 (BitVec.ofBool u ++ c.code ++ p) a i]
  | .lopi op d a i h => h.words ++ [packVI 0x0F#7 d a (op.code ++ i)]
  | .iaddk v d a k => [packVK 0x10#7 d a k v.code]
  | .ilea s d a k => [packVK 0x11#7 d a k s]
  | .movk v d k => [packVK 0x12#7 d 0#7 k v.code]
  | .kadd d a b => [packK3 0x18#7 d a b]
  | .ksub d a b => [packK3 0x19#7 d a b]
  | .kmul d a b => [packK3 0x1a#7 d a b]
  | .kand d a b => [packK3 0x1b#7 d a b]
  | .kor d a b => [packK3 0x1c#7 d a b]
  | .kxor d a b => [packK3 0x1d#7 d a b]
  | .kshl d a b => [packK3 0x1e#7 d a b]
  | .kshr d a b => [packK3 0x1f#7 d a b]
  | .ksra d a b => [packK3 0x20#7 d a b]
  | .kmin d a b => [packK3 0x21#7 d a b]
  | .kmax d a b => [packK3 0x22#7 d a b]
  | .kdiv d a b => [packK3 0x23#7 d a b]
  | .kli d i h => h.words ++ [packKI 0x24#7 d i]
  | .kaddi d i h => h.words ++ [packKI 0x25#7 d i]
  | .klui d i => [packKI 0x26#7 d i]
  | .movs v d sv => [packKI 0x27#7 d (BitVec.ofBool v ++ 0#7 ++ sv.code)]
  | .fadd ty rm s d a b => modWords (satPayload s) ++ [packV3 0x28#7 d a b (ty.code ++ rm.code)]
  | .fsub ty rm s d a b => modWords (satPayload s) ++ [packV3 0x29#7 d a b (ty.code ++ rm.code)]
  | .fmul ty rm s d a b => modWords (satPayload s) ++ [packV3 0x2a#7 d a b (ty.code ++ rm.code)]
  | .ffma ty rm s d a b => modWords (satPayload s) ++ [packV3 0x2b#7 d a b (ty.code ++ rm.code)]
  | .fmnx x n ty d a b => [packV3 0x2C#7 d a b (ty.code ++ BitVec.ofBool n ++ BitVec.ofBool x)]
  | .fcmp c p a b => [packV3 0x2D#7 (0#4 ++ p) a b c.code]
  | .fsf f d a => [packV3 0x2E#7 d a 0#7 f.code]
  | .cvt c rm s d a => [packV3 0x2F#7 d a c (0#1 ++ BitVec.ofBool s ++ rm.code)]
  | .pack f d a b => [packV3 0x30#7 d a b f.code]
  | .dp4 f d a b => [packV3 0x31#7 d a b f.code]
  | .fcls t d a => [packV3 0x32#7 d a 0#7 t.code]
  | .shfl k t d a b => [packV3 0x38#7 d a b (0#1 ++ BitVec.ofBool t ++ k.code)]
  | .vote k t d q n => [packV3 0x39#7 d (0#3 ++ BitVec.ofBool n ++ q) 0#7 (0#1 ++ BitVec.ofBool t ++ k.code)]
  | .rdx op t d a => [packV3 0x3A#7 d a 0#7 (BitVec.ofBool t ++ op.code)]
  | .scan op t x d a => [packV3 0x3B#7 d a (0#6 ++ BitVec.ofBool x) (BitVec.ofBool t ++ op.code)]
  | .lmov k d a b => [packV3 0x3C#7 d a b k.code]
  | .ld w p sx m => modWords (sxPayload sx) ++ m.imm.words ++ [packM 0x40#7 m w.code p.code]
  | .st w p m => m.imm.words ++ [packM 0x41#7 m w.code p.code]
  | .lds w sx m => modWords (sxPayload sx) ++ m.imm.words ++ [packM 0x42#7 m w.code 0#2]
  | .sts w m => m.imm.words ++ [packM 0x43#7 m w.code 0#2]
  | .ldt w m => m.imm.words ++ [packM 0x44#7 m w.code 0#2]
  | .atom w s md m => modWords md.payload ++ m.imm.words ++ [packM 0x45#7 m w.code s.pol]
  | .red w s md m => modWords md.payload ++ m.imm.words ++ [packM 0x46#7 m w.code s.pol]
  | .kld w p sx a b h => h.words ++ [packK3 0x47#7 a b (0#2 ++ BitVec.ofBool sx ++ p.code ++ w.code)]
  | .kst w p a b h => h.words ++ [packK3 0x48#7 a b (0#3 ++ p.code ++ w.code)]
  | .fence k s => [packK3 0x49#7 0#9 0#9 (0#1 ++ k.code ++ s.code)]
  | .cacheZero a b h => h.words ++ [packM 0x4A#7 ⟨0#7, a, b, h⟩ 0#2 0#2]
  | .cacheInv a b h => h.words ++ [packM 0x4A#7 ⟨0#7, a, b, h⟩ 1#2 0#2]
  | .cacheEvict a b h => h.words ++ [packM 0x4A#7 ⟨0#7, a, b, h⟩ 2#2 0#2]
  | .cacheFetch a b h => h.words ++ [packM 0x4A#7 ⟨0#7, a, b, h⟩ 3#2 0#2]
  | .ldb w p m => m.imm.words ++ [packM 0x4B#7 m w.code p.code]
  | .bra p n o => [packB 0x50#7 p n o]
  | .brk a c o => [packKB 0x51#7 a c.code o]
  | .jmpi a k => [packVK 0x52#7 0#7 a k 0#2]
  | .land => [0xA6000000#32]
  | .call o => [packB 0x54#7 0#3 false o]
  | .ret a => [packKI 0x55#7 a 0#16]
  | .loop a l n => [packKB 0x56#7 a l.code n]
  | .regionCommit => [0xAE000000#32]
  | .setx a i => [packK3 0x58#7 0#9 a i]
  | .maskSet a => [packK3 0x59#7 a 0#9 0#7]
  | .maskGet a => [packK3 0x59#7 a 0#9 1#7]
  | .maskPred a p => [packK3 0x59#7 a (0#6 ++ p) 2#7]
  | .exit => [0xB4000000#32]
  | .yield => [0xB6000000#32]
  | .trap i => [packKI 0x5C#7 0#9 i]
  | .bkpt i => [packKI 0x5D#7 0#9 i]
  | .nop => [0xBC000000#32]
  | .lockInit a n => [packK3 0x60#7 a n 0#7]
  | .lockArrive a n => [packK3 0x60#7 a n 1#7]
  | .lockExpect a n => [packK3 0x60#7 a n 2#7]
  | .lockWait a n s => [packK3 0x60#7 a n (s.code ++ 3#4)]
  | .lockTry a n s => [packK3 0x60#7 a n (s.code ++ 4#4)]
  | .lockInval a n => [packK3 0x60#7 a n 5#7]
  | .lockFill a n => [packK3 0x60#7 a n 6#7]
  | .lockDrain a n => [packK3 0x60#7 a n 7#7]
  | .copy a n q f => [packK3 0x61#7 a n (0#2 ++ q ++ f.code)]
  | .mma a f c p z => [packK3 0x62#7 a 0#9 (0#1 ++ BitVec.ofBool z ++ BitVec.ofBool p ++ BitVec.ofBool c ++ f.code)]
  | .mfenceOpr => [0xC6000000#32]
  | .mfenceBatch a => [packK3 0x63#7 a 0#9 1#7]
  | .mwait a => [packK3 0x64#7 a 0#9 0#7]
  | .macs a f => [packK3 0x65#7 a 0#9 (0#5 ++ f.code)]
  | .accmvT2s a => [packK3 0x66#7 a 0#9 0#7]
  | .accmvS2t a => [packK3 0x66#7 a 0#9 1#7]
  | .accmvT2t a => [packK3 0x66#7 a 0#9 2#7]
  | .accmvT2g a => [packK3 0x66#7 a 0#9 3#7]
  | .accmvG2t a => [packK3 0x66#7 a 0#9 4#7]
  | .accmvZero a => [packK3 0x66#7 a 0#9 5#7]
  | .attn a c => [packK3 0x67#7 a 0#9 (0#6 ++ BitVec.ofBool c)]
  | .attnFin a => [packK3 0x67#7 a 0#9 2#7]
  | .seqReserve a b => [packK3 0x68#7 a b 0#7]
  | .seqAddr a b => [packK3 0x68#7 a b 1#7]
  | .seqCommit a b => [packK3 0x68#7 a b 2#7]
  | .seqVoid a b => [packK3 0x68#7 a b 3#7]
  | .seqWatch a b => [packK3 0x68#7 a b 4#7]
  | .seqWait a b => [packK3 0x68#7 a b 5#7]
  | .seqFork a b => [packK3 0x68#7 a b 6#7]
  | .seqLen a b => [packK3 0x68#7 a b 7#7]
  | .ptreeLookup a b => [packK3 0x69#7 a b 0#7]
  | .ptreeInsert a b => [packK3 0x69#7 a b 1#7]
  | .ptreeUnref a b => [packK3 0x69#7 a b 2#7]
  | .kvtPage a b => [packK3 0x6A#7 a b 0#7]
  | .kvtRope a b => [packK3 0x6A#7 a b 1#7]
  | .kvtBoth a b => [packK3 0x6A#7 a b 2#7]
  | .fork a b n => [packK3 0x6B#7 a b (0#3 ++ n)]
  | .join n => [packK3 0x6C#7 0#9 n 0#7]
  | .launch a b => [packK3 0x6D#7 a b 0#7]
  | .bpassInfo a => [packK3 0x6E#7 a 0#9 0#7]
  | .bpassUndec a => [packK3 0x6E#7 a 0#9 1#7]
  | .freebCtx a => [packK3 0x6F#7 a 0#9 0#7]
  | .freebSlice a => [packK3 0x6F#7 a 0#9 1#7]
  | .traceOn a => [packK3 0x70#7 a 0#9 0#7]
  | .traceOff a => [packK3 0x70#7 a 0#9 1#7]
  | .traceBind a b => [packK3 0x70#7 a b 2#7]
  | .traceFlush a => [packK3 0x70#7 a 0#9 3#7]
  | .hintStall f => [packH 0#3 (0#4 ++ f)]
  | .hintMark m => [packH 3#3 (0#6 ++ m)]
  | .yieldResume .. | .copyUnitWrite .. | .copyRetry .. | .matrixOpRetire .. | .traceSyncDue ..
  | .illegalWord .. | .loadReturn .. | .variableResultWriteback .. | .fenceComplete .. | .scRmwPerform ..
  | .freeOldRun .. | .walkBatchStart .. | .pageWalkDone .. | .gatherExpand .. | .arbiterSelect
  | .queueReadRetry .. | .dispatchWriteApply .. | .teamPlace .. | .preempt .. | .evict .. | .taskSteal ..
  | .teamEnd .. | .fillRetry .. | .handoffAppend .. | .appendRetry .. | .create .. | .destroy ..
  | .deflate .. | .inflate .. | .resolve .. | .save .. | .saveComplete .. | .restore .. | .power .. | .map ..
  | .unmap .. | .perm .. | .migrateIndev .. | .migrateTodev .. | .migrateTohost .. | .clearacc ..
  | .pageDrainDone | .resume .. | .skip .. | .kill .. | .rdstate .. | .wrstate .. | .step .. | .halt ..
  | .list .. | .hostRead .. | .hostWrite .. | .hostRmw .. | .hostLoom .. | .ptreeRemove .. | .attest ..
  | .train .. | .linkTrained .. | .laneFailure .. | .flitCrcError .. | .peerInboundAccess ..
  | .peerResponse .. | .peerTimeout .. | .refresh .. | .mitigationRefresh .. | .poundReissue ..
  | .scrubRead .. | .bucketLeak .. | .rowSpare .. | .uncorrectableError .. | .coreOffline ..
  | .thermalTrip .. | .reset .. | .timeWrite .. | .mgmtWrite .. => []

/-- The rows of the table that have words. -/
def Instr.encoded (i : Instr) : Bool := encode i != []

end Sys2Proof
end

