-- ==== Sys2Proof/Machine/Fetch.lean ====
section
/-! DEFINITION. Fetching a group (03 R47, 07 R144), which teams may issue, and the placing of an instruction where the next
step fetches it. -/

namespace Sys2Proof.Machine

/-- Whether a team may issue (R9, R142, R238, R409, R445): the device runs, its context is ACTIVE, its core is not
stopping, the team is READY and has not yielded, and no other team of its core, saved ones among them, is stepped alone (R410)
(log 26, DEDUCED). -/
def canIssue (s : State) (u : Nat) : Bool :=
  match find? s.teams u with
  | none => false
  | some t =>
    t.placed && t.status == .ready && t.yielded.isEmpty && (getCore s t.core).stop.isNone &&
      !(getCore s t.core).offline && s.mgmt.pstate == 0 && (getCtx s t.ctx).st == .active &&
      (t.stepOnce || !(s.teams.any fun e => e.2.stepOnce && e.2.core == t.core))

/-- What a fetch finds at an address: a word, nothing that may be fetched, or a place in a peer window that has yet to answer. -/
inductive WordAt where
  | got (w : W32)
  | bad
  | peer (slot a : Nat)
  deriving DecidableEq, Repr

/-- A word at an address, as a team's instruction fetch reads it (R144, R361): bad where the address is misaligned, where no
translation allows fetch, where the data is poisoned, or where a peer has failed the read (log 56, DEDUCED). -/
def fetchWord (s : State) (t : Team) (a : Nat) : WordAt :=
  if a % 4 ≠ 0 then .bad
  else
    match xlateWalk s t.ctx a .fetch with
    | .ok (.peer slot x) _ =>
      match askedOf t a 4 with
      | .got bs => .got (BitVec.ofNat 32 (natOf bs))
      | .failed => .bad
      | _ => .peer slot x
    | .ok p _ => if placePoison s p then .bad else .got (BitVec.ofNat 32 (natOf (placeBytes s p 4)))
    | _ => .bad

/-- What the fetch of a group comes to: its words, the address of the word that cannot be fetched, or the word a peer is to give. -/
inductive GroupAt where
  | words (ws : List W32)
  | bad (addr : Nat)
  | peer (addr slot a : Nat)
  deriving DecidableEq, Repr

/-- The words of the group at an address: its hints and the word after them. -/
def fetchGroup (s : State) (t : Team) : Nat → Nat → List W32 → GroupAt
  | 0, a, _ => .bad a
  | fuel + 1, a, ws =>
    match fetchWord s t a with
    | .bad => .bad a
    | .peer slot x => .peer a slot x
    | .got w => if isGroupHint w then fetchGroup s t fuel (a + 4) (ws ++ [w]) else .words (ws ++ [w])

/-- What the issue of a team's next group comes to: the state with the group latched and its instruction, the address
whose fetch failed, or a wait for a peer. -/
inductive Fetched where
  | run (s : State) (i : Instr)
  | fault (s : State) (addr : Nat)
  | wait (s : State)
  deriving DecidableEq, Repr

/-- The first issue of a team (R230, R232, R241): an acquire at .dev, and the time its kernel first ran. -/
def firstIssue (s : State) (u : Nat) : State :=
  let t := getTeam s u
  if t.cur.uid ≠ 0 then s
  else
    modKernel (acquireView s u t.start) t.kid fun k => if k.ran then k else { k with ran := true, trun := s.mgmt.time }

/-- The words of a group come from their blocks (R373, R438). -/
def fetchedFrom (s : State) (t : Team) (pc n : Nat) : State :=
  (dedupNat ((List.range n).filterMap fun i =>
    match xlateWalk s t.ctx (pc + 4 * i) .fetch with
    | .ok (.dev k) _ => some (k / 256)
    | _ => none)).foldl readThrough s

/-- Fetches and decodes a team's next group (R47, R144, R363) (log 56, DEDUCED). -/
def fetchNext (s0 : State) (u : Nat) : Fetched :=
  let s := firstIssue s0 u
  let t := getTeam s u
  let pc := t.flow.pc
  let die := dieOf t.core
  let at_ := fun (n : Nat) => ({ s with issue := ⟨u, pc, pc + 4 * (n - 1), pc + 4 * n, s.mgmt.time⟩ } : State)
  match fetchGroup s t (2 ^ 54) pc [] with
  | .bad a => .fault (at_ 1) a
  | .peer a slot x => .wait (askPeers s u 4 [(a, slot, x)])
  | .words ws =>
    let s1 := bring (bring (fetchedFrom (at_ ws.length) t pc ws.length) die t.ctx pc) die t.ctx (pc + 4 * (ws.length - 1))
    match decode ws with
    | some (.ok i, _) => .run s1 i
    | some (.error c, _) => .run s1 (.illegalWord c)
    | none => .fault s1 pc

/-- The precise stop of a fetch (R144). -/
def fetchStop (s : State) (u a : Nat) : Out :=
  done (teamStop (modTeam s u fun t => { t with cur := s.issue, asks := [] }) u 0x4F none a)

/-! ## Placing an instruction -/

/-- The device byte the next step fetches from, when an issuing team stands first in the agenda. -/
def fetchPlace (s : State) : Option Nat :=
  match s.agenda with
  | .issue u :: _ =>
    if canIssue s u then
      match xlateWalk s (getTeam s u).ctx (getTeam s u).flow.pc .fetch with
      | .ok (.dev k) _ => some k
      | _ => none
    else none
  | _ => none

/-- A context with one page of 2 MiB at address 0, in device frame 0, that may be read, written and fetched from, a team of
32 lanes on core 0, and that team first in the agenda: what the fetch of an instruction needs (log 4, DESIGN CHOICE). -/
def fetchStage (s : State) : State :=
  let u := s.nextUid
  let t1 := memWriteNat s.tspace 0x10000 8 0x20001
  let t2 := memWriteNat t1 0x20000 8 0x30001
  let t3 := memWriteNat t2 0x30000 8 0x1F
  let s1 := setCtx s 1 { Ctx.reset with st := .active, ptroot := 0x10000 }
  let s2 := setCore s1 0 { Core.reset with ctx := 1, word := 0x1041 }
  let s3 := setTeam s2 u { Team.blank with uid := u, ctx := 1, placed := true, status := .ready, allot := 128 }
  { s3 with
    nextUid := u + 1
    tspace := t3
    mgmt := { s.mgmt with pstate := 0 }
    agenda := .issue u :: s.agenda }

/-- Stores an instruction's bytes where the next step fetches, after staging a context and a team when none issues next. -/
def placeWord (s : State) (w : Nat) : State :=
  match fetchPlace s with
  | some k => { s with mem := memWriteNat s.mem k 16 w }
  | none =>
    let s1 := fetchStage s
    { s1 with mem := memWriteNat s1.mem 0 16 w }

end Sys2Proof.Machine
end

