-- ==== Sys2Proof/Machine/Place.lean ====
section
/-! DEFINITION. Room on a core and the placing of teams (01 R15-R17, 12 R237-R244, R249, R252, 13 R259-R261): what a core
begins to serve, the state of a team at its first issue, the sources of R240, pre-emption, eviction and stealing. -/

namespace Sys2Proof.Machine

/-! ## Room (R15, R17, R190) -/

/-- What the room for a team depends on. -/
structure TeamShape where
  ctx : Nat
  word : Nat
  lanes : Nat
  allot : Nat
  logSize : Nat
  bounds : Bool
  deriving DecidableEq, Repr

/-- The shape of a kernel's teams: interval teams double the vector term (R17, R340) (log 27, DEDUCED). -/
def kernelShape (k : Kernel) (bounds : Bool) : TeamShape := ⟨k.ctx, k.part, k.lanes, k.allot, k.logSize, bounds⟩

/-- The register-file bytes of a team (R17) (log 27, DEDUCED). -/
def footprint (lanes allot : Nat) (bounds : Bool) : Nat := lanes * allot * 4 * (if bounds then 2 else 1) + 3072

/-- The teams that take room on a core: those resident there. -/
def roomTeams (s : State) (core : Nat) : List Team := (teamsOn s core).map (·.2)

/-- The teams a core holds: those that stand there and those saved for it (R15, R243) (log 40, DEDUCED). -/
def heldTeams (s : State) (core : Nat) : List Team :=
  (s.teams.map (·.2)).filter fun t => t.core == core && (t.placed || t.saved) && !(t.status == .ended) &&
    !((getCtx s t.ctx).st == .saved)

/-- Whether a core holds teams, those saved for it among them, or halves of a pair's operation (R15, R190) (log 40, DEDUCED). -/
def coreHeld (s : State) (core : Nat) : Bool :=
  !(heldTeams s core).isEmpty || ((getCore s core).matQ.flatten).any (·.slave)

/-- Whether what a core holds is of a context and runs under a partition word (R15, R203). A spare that has just been mapped serves no
context yet: the teams saved for its number say which (R7, R243). -/
def heldAs (s : State) (core ctx word : Nat) : Bool :=
  let c := getCore s core
  if c.ctx = 0 then (heldTeams s core).all fun t => t.ctx == ctx && (teamKernel s t).part == word
  else c.ctx == ctx && c.word == word

/-- How many more teams of a shape a core admits when `gone` of its teams have left (R15, R17). -/
def roomWithout (s : State) (core : Nat) (sh : TeamShape) (gone : List Nat) : Nat :=
  let c := getCore s core
  let ts := (roomTeams s core).filter fun t => !(gone.contains t.uid)
  if c.offline || (coreHeld s core && !(heldAs s core sh.ctx sh.word)) then 0
  else
    let n1 := (rfgBytes sh.word - ts.foldl (fun a t => a + footprint t.lanes t.allot t.bounds) 0) /
      footprint sh.lanes sh.allot sh.bounds
    let n2 := (196608 - ts.foldl (fun a t => a + t.logSize) 0) / sh.logSize
    let n3 := [0, 1, 2, 3].foldl (fun a p => a + (32 - (ts.filter fun t => t.part == p).length)) 0
    min n1 (min n2 n3)

/-- How many more teams of a shape a core admits (log 26, DEDUCED). -/
def coreRoom (s : State) (core : Nat) (sh : TeamShape) : Nat := roomWithout s core sh []

/-- Whether a partition holds fewer than 32 teams (R17). -/
def partRoom (s : State) (core part : Nat) : Bool := decide (((roomTeams s core).filter fun t => t.part == part).length < 32)

/-- The partitions of a core that have a place. -/
def openParts (s : State) (core : Nat) : List Nat := [0, 1, 2, 3].filter (partRoom s core)

/-- Whether a core and a partition admit a team. -/
def admits (s : State) (core part : Nat) (sh : TeamShape) : Bool := decide (1 ≤ coreRoom s core sh) && partRoom s core part

/-! ## What a core serves (R15, R16, R203, R208, R265) -/

/-- A core that serves no context any longer keeps its tasks, its clock and its mapping; one that stopped with HALT semantics, or while
the device has tripped, stays STOPPED until the host resumes it (R409, R446) (log 50, DEDUCED). -/
def vacantCore (trip : Bool) (c : Core) : Core :=
  let stop := match c.stop with
    | some x => if trip || x.uid.isNone then some { x with uid := none, completed := true, record := none } else none
    | none => none
  { Core.reset with deque := c.deque, clock := c.clock, offline := c.offline, spareDue := c.spareDue, stop := stop }

/-- A core stops serving its context: its slice returns, and its flags stay with the context (R75, R208) (log 54, DEDUCED). -/
def leaveCtx (s : State) (core : Nat) : State :=
  let c := getCore s core
  if c.ctx = 0 then s
  else
    let s1 := modCtx (returnSlice (forgetSpad s core) core) c.ctx fun x => { x with flags := tabSet 0 x.flags core (coreFlagWord c) }
    setCore s1 core (vacantCore s.mgmt.trip c)

/-- What a launch's first team finds on a core whose earlier teams were of its context (R16): unpredictable values
(log 16, DESIGN CHOICE). -/
def leftOver (n word : Nat) (c : Core) : Core :=
  let keep := fun (lim : Nat) (t : Tab W32) => tabSetAll 0#32 [] ((Config.leftWords n t).filter fun e => decide (e.1 < lim))
  { c with
    spad := tabSetAll 0#8 [] ((Config.leftBytes n c.spad).filter fun e => decide (e.1 < spgBytes word))
    tile := keep (tileKey (actTiles word) 0 0) c.tile
    rowM := keep (rowPairKey (actTiles word) 0) c.rowM
    rowL := keep (rowPairKey (actTiles word) 0) c.rowL }

/-- A core takes a team of a kernel (R15, R16): it begins to serve the context, or, holding no team, divides its pool anew for the
launch's first team there or for another word (log 16, DESIGN CHOICE). -/
def serveCore (s : State) (core id word kid : Nat) : State :=
  let c := getCore s core
  if c.ctx ≠ id then
    let s1 := leaveCtx (copyAbandoned s core) core
    let w := tabGet 0 (getCtx s1 id).flags core
    let s2 := modCtx s1 id fun x => { x with flags := tabErase x.flags core }
    modCore s2 core fun c => coreWithFlags { c with ctx := id, word := word, launches := [kid] } w
  else
    let ls := if c.launches.contains kid then c.launches else c.launches ++ [kid]
    if coreHeld s core || (c.launches.contains kid && c.word == word) then setCore s core { c with launches := ls }
    else setCore (forgetSpad s core) core { leftOver s.free word c with word := word, launches := ls }

/-! ## The state of a team at its first issue (R241, R342, R351) -/

/-- The uniform registers of a team at its first issue (R241). -/
def startK (k : Kernel) (parent : Nat) (args : List W64) : Tab W64 :=
  tabSetAll 0#64 [] ([(2, BitVec.ofNat 64 k.args), (3, BitVec.ofNat 64 k.teams), (4, BitVec.ofNat 64 parent)] ++
    (args.zipIdx 5).map fun e => (e.2, e.1))

/-- A team of a kernel before its first issue, which acquires the commit of the kernel's packet (R232). -/
def makeTeam (k : Kernel) (u id : Nat) (kind : TeamKind) (entry parent : Nat) (args : List W64) : Team :=
  { Team.blank with
    uid := u, kid := k.kid, id := id, kind := kind, ctx := k.ctx, lanes := k.lanes, allot := k.allot, logSize := k.logSize
    k := startK k parent args, flow := Flow.start entry, snap := Flow.start entry, parent := parent, start := k.start }

/-- An interval team's lanes stand for tiles (R338, R342): v0 and v1 hold the rows and the columns. A lane with no subtile has
exited. -/
def startInterval (k : Kernel) (tiles : List (Nat × TileId)) (t : Team) : Team :=
  let put := fun (t : Team) (e : Nat × TileId) =>
    let b := tileBox k e.2
    let iv := fun (lo n : Nat) (x y : Int) => IVal.iv .I lo (lo + n - 1 : Int) false (some ⟨x, y, lo⟩)
    { t with iv := tabPut (tabPut t.iv (vkey e.1 0) (iv b.row0 b.h 1 0)) (vkey e.1 1) (iv b.col0 b.w 0 1) }
  let idle := (List.range t.lanes).filter fun i => !(tiles.any fun e => e.1 == i)
  let t1 := tiles.foldl put { t with bounds := true, tiles := tiles }
  let fl := setLanes t1.flow idle .exited
  { t1 with flow := fl, snap := fl }

/-- A hand-off team's lanes stand for elements of a record's box (R351) (log 16, DESIGN CHOICE). -/
def startElements (b : TileBox) (j : Nat) (t : Team) : Team :=
  let put := fun (t : Team) (i : Nat) =>
    let e := j * t.lanes + i
    setV (setV t i 0 (BitVec.ofNat 32 (b.row0 + e / b.w))) i 1 (BitVec.ofNat 32 (b.col0 + e % b.w))
  let live := (List.range t.lanes).filter fun i => decide (j * t.lanes + i < b.h * b.w)
  let t1 := live.foldl put t
  let fl := setLanes t1.flow ((List.range t.lanes).filter fun i => !(live.contains i)) .exited
  { t1 with flow := fl, snap := fl }

/-- All ones: k4 of a launch team (R241). -/
def noParent : Nat := 2 ^ 64 - 1

/-- A launch team (R241, R338). -/
def launchTeam (k : Kernel) (u id : Nat) : Team :=
  let t := makeTeam k u id .launch k.entry noParent []
  if k.bounds then startInterval k ((List.range k.lanes).map fun i => (i, ⟨id * k.lanes + i, 0, 0⟩)) t else t

/-- A forked team (R241, R249): its first issue acquires its FORK. -/
def forkedTeam (k : Kernel) (u : Nat) (x : Task) : Team :=
  { makeTeam k u x.id .forked x.entry x.parent x.args with
    jv := x.jv, jl := x.jl, parentCore := x.parentCore, start := joinView k.start x.view }

/-- A team takes its place on a core and a partition (R240): READY, or as it was when it was saved. -/
def admitTeam (s : State) (u core part : Nat) : State :=
  let t := getTeam s u
  let k := teamKernel s t
  let s1 := serveCore s core t.ctx k.part t.kid
  let fresh := t.cur.uid == 0
  let s2 := setTeam s1 u { t with
    core := core, part := part, placed := true, saved := false, woken := false
    status := if t.status = .parked then .parked else .ready
    oprV := if fresh then t.v else t.oprV }
  l1Trim s2 core

/-- A new team takes its place. -/
def placeNew (s : State) (t : Team) (core part : Nat) : State :=
  admitTeam { setTeam s s.nextUid t with nextUid := s.nextUid + 1 } s.nextUid core part

/-! ## Bolt closures (R259-R261) -/

/-- The members of a bolt of a kernel. -/
def groupMembers (g : Group) : List Nat := (g.ranges.map fun r => rangeFrom r.1 (r.2 + 1 - r.1)).flatten

/-- Adds a bolt to the closures: those it shares a member with become one (R259). -/
def joinClosure (cs : List (List Nat)) (b : List Nat) : List (List Nat) :=
  let hit := cs.filter fun c => c.any (b.contains ·)
  let rest := cs.filter fun c => !(c.any (b.contains ·))
  rest ++ [dedupNat (hit.flatten ++ b)]

/-- Inserts a number into an ascending list. -/
def insertNat (n : Nat) : List Nat → List Nat
  | [] => [n]
  | x :: xs => if n ≤ x then n :: x :: xs else x :: insertNat n xs

/-- A list of numbers in ascending order. -/
def sortNat (l : List Nat) : List Nat := l.foldl (fun a x => insertNat x a) []

/-- The bolt closures of a list of groups, their members ascending. -/
def closuresOf (gs : List Group) : List (List Nat) :=
  (((gs.filter (·.bolt)).map groupMembers).foldl joinClosure []).map sortNat

/-- The closure of a launch team, if it is a member of a bolt. -/
def closureOf (k : Kernel) (id : Nat) : Option (List Nat) := (closuresOf k.groups).find? (·.contains id)

/-- The cores of pairs `j` and `j + 1` when they lie in one cluster (R260). -/
def pairWindow (j : Nat) : Option (List Nat) := if j / 8 = (j + 1) / 8 then some (rangeFrom (2 * j) 4) else none

/-- Cores for `n` members of a closure among cores with room, a free choice at each (R240, R260) (log 22, DESIGN CHOICE). -/
def pickCores (n : Nat) (room : List (Nat × Nat)) : Nat → List Nat
  | 0 => []
  | m + 1 =>
    let free := room.filter fun e => e.2 != 0
    let c := (nth (0, 0) free (Config.freeNat n (64 + m) % free.length)).1
    c :: pickCores n (room.map fun e => if e.1 = c then (c, e.2 - 1) else e) m

/-- Cores for `n` members of a closure, one of them the core that fills its room (R240). -/
def pickWith (n core : Nat) (room : List (Nat × Nat)) (m : Nat) : List Nat :=
  let cs := pickCores n (room.map fun e => if e.1 = core then (core, e.2 - 1) else e) (m - 1)
  let i := Config.freeNat n 62 % m
  cs.take i ++ core :: cs.drop i

/-- The windows that hold a core and have room for `n` teams of a shape, each core with its room (log 22, DESIGN CHOICE). -/
def boltWindows (room : Nat → Nat) (core n : Nat) : List (List (Nat × Nat)) :=
  [core / 2 - 1, core / 2].eraseDups.filterMap fun j =>
    match pairWindow j with
    | none => none
    | some cs =>
      let r := cs.map fun c => (c, room c)
      if cs.contains core ∧ n ≤ r.foldl (fun a e => a + e.2) 0 then some r else none

/-- A partition of a core with a place, a free choice (R240) (log 22, DESIGN CHOICE). -/
def pickPart (s : State) (core i : Nat) : Nat :=
  let ps := openParts s core
  nth 0 ps (Config.freeNat s.free (192 + i) % ps.length)

/-- The members of a closure take their places, at one moment (R260, R263); the first of a core takes the partition that had room. -/
def placeClosure (s : State) (k : Kernel) (core part : Nat) (ids cores : List Nat) : State :=
  let at_ := sortNat (dedupNat cores)
  (ids.zip cores).zipIdx.foldl (fun s e =>
    let p := if cores.idxOf core = e.2 then part else pickPart s e.1.2 e.1.1
    placeNew s { launchTeam k s.nextUid e.1.1 with boltCores := at_ } e.1.2 p) s

/-! ## The sources of R240 -/

/-- The arbitration key of a kernel (R233). -/
def kernelKey (k : Kernel) : List Nat := [k.cls, k.deadline, k.ctx, k.qnum]

/-- Whether a key comes before another. -/
def keyBefore : List Nat → List Nat → Bool
  | x :: xs, y :: ys => decide (x < y) || (x == y && keyBefore xs ys)
  | [], _ :: _ => true
  | _, [] => false

/-- Inserts into a list ordered by key, after equal keys. -/
def insertKey {α : Type} (key : α → List Nat) (x : α) : List α → List α
  | [] => [x]
  | y :: ys => if keyBefore (key x) (key y) then x :: y :: ys else y :: insertKey key x ys

/-- A list in the order of its keys. -/
def sortKey {α : Type} (key : α → List Nat) (l : List α) : List α := l.foldl (fun a x => insertKey key x a) []

/-- Skips launch teams that a lower member's closure has placed (log 25, DEDUCED). -/
def skipPlaced (k : Kernel) : Nat → Nat → Nat
  | 0, id => id
  | fuel + 1, id =>
    match closureOf k id with
    | some (m :: _) => if m < id then skipPlaced k fuel (id + 1) else id
    | _ => id

/-- The next launch team of a kernel that is not placed. -/
def nextLaunch (k : Kernel) : Nat := skipPlaced k (k.teams - k.nextLaunch) k.nextLaunch

/-- What a kernel has to place next: a launch team, its whole closure, or a team that an interval team's end made. -/
inductive Unplaced where
  | launch (id : Nat)
  | closure (ids : List Nat)
  | made (t : Team)
  deriving DecidableEq, Repr

/-- The first unplaced team of a kernel (R240, R260); the quarter teams of a team wait until it has ended (R348)
(log 25, DEDUCED). -/
def firstUnplaced (s : State) (k : Kernel) : Option Unplaced :=
  let id := nextLaunch k
  if id < k.teams then
    match closureOf k id with
    | some ids => some (.closure ids)
    | none => some (.launch id)
  else
    let ending := fun (t : Team) => t.kind == .quarter &&
      s.teams.any fun e => e.2.kid == t.kid && e.2.id == t.parent && e.2.status == .ending
    let ts := (s.teams.map (·.2)).filter fun t =>
      t.kid == k.kid && t.status == .unplaced && !t.placed && !t.saved && !(ending t)
    ((sortKey (fun t => [t.id]) ts).head?).map .made

/-- The shape of what a kernel has to place. -/
def unplacedShape (k : Kernel) (x : Unplaced) : TeamShape :=
  kernelShape k (match x with | .made t => t.bounds | _ => k.bounds)

/-- The kernels with unplaced teams, in the key order, of class 0 or of the others (sources 1 and 4). -/
def placing (s : State) (zero : Bool) : List Kernel :=
  sortKey kernelKey (s.kernels.filter fun k =>
    !(k.st == .complete) && (k.cls == 0) == zero && (getCtx s k.ctx).st == .active && (firstUnplaced s k).isSome)

/-- Places the first unplaced team of a kernel on a core and partition, if they admit it
(log 22, DESIGN CHOICE; log 25, DEDUCED). -/
def placeKernel (s : State) (core part : Nat) (k : Kernel) : Option State :=
  match firstUnplaced s k with
  | none => none
  | some x =>
    let sh := unplacedShape k x
    match x with
    | .launch id =>
      if admits s core part sh then
        some (placeNew (modKernel s k.kid fun k => { k with nextLaunch := id + 1 }) (launchTeam k s.nextUid id) core part)
      else none
    | .made t => if admits s core part sh then some (admitTeam s t.uid core part) else none
    | .closure ids =>
      match boltWindows (fun c => coreRoom s c sh) core ids.length with
      | [] => none
      | w :: ws =>
        let win := nth [] (w :: ws) (Config.freeNat s.free 63 % (ws.length + 1))
        if admits s core part sh then
          some (placeClosure (modKernel s k.kid fun k => { k with nextLaunch := ids.headD 0 + 1 }) k core part ids
            (pickWith s.free core win ids.length))
        else none

/-- The teams saved for a core and partition that may come back (source 2). -/
def savedFor (s : State) (core part : Nat) : List Team :=
  let ts := (s.teams.map (·.2)).filter fun t =>
    t.saved && !t.placed && t.core == core && t.part == part && (t.status == .unplaced || t.status == .ready) &&
      (getCtx s t.ctx).st == .active
  sortKey (fun t => kernelKey (teamKernel s t) ++ [t.id]) ts

/-- The teams that come back together with a saved team: its closure's saved members (R261). -/
def savedMates (s : State) (t : Team) : List Team :=
  match (if t.kind = .launch then closureOf (teamKernel s t) t.id else none) with
  | none => [t]
  | some ids => (s.teams.map (·.2)).filter fun m => m.kid == t.kid && m.kind == .launch && ids.contains m.id && m.saved && !m.placed

/-- A saved team comes back, with its closure when it is a member of one (R243, R261). -/
def placeSaved (s : State) (t : Team) : Option State :=
  let ms := savedMates s t
  let sh := kernelShape (teamKernel s t) t.bounds
  let fits := fun (m : Team) =>
    let near := ms.filter fun x => x.core == m.core
    let part := (roomTeams s m.core).filter fun t => t.part == m.part
    decide (near.length ≤ coreRoom s m.core sh) &&
      decide (part.length + (near.filter fun x => x.part == m.part).length ≤ 32) &&
      (m.status == .unplaced || m.status == .ready || m.status == .parked)
  if ms.all fits then some (ms.foldl (fun s m => admitTeam s m.uid m.core m.part) s) else none

/-- The first of a list that can be placed. -/
def firstPlaced {α : Type} (f : α → Option State) : List α → Option State
  | [] => none
  | x :: xs =>
    match f x with
    | some s => some s
    | none => firstPlaced f xs

/-- A task becomes a team on a core (R249). -/
def placeTask (s : State) (x : Task) (core part : Nat) : State :=
  placeNew s (forkedTeam ((kernelOf s x.kid).getD noKernel) s.nextUid x) core part

/-- Whether a core may admit a task (R252) (log 27, DEDUCED). -/
def taskShape (s : State) (x : Task) : TeamShape := kernelShape ((kernelOf s x.kid).getD noKernel) false
def mayTake (s : State) (core : Nat) (x : Task) : Bool :=
  (getCtx s x.ctx).st == .active && decide (1 ≤ coreRoom s core (taskShape s x)) && !(openParts s core).isEmpty

/-- The head of a core's own deque (source 3). -/
def placeOwn (s : State) (core part : Nat) : Option State :=
  match (getCore s core).deque with
  | [] => none
  | x :: rest =>
    if mayTake s core x && partRoom s core part then
      some (placeTask (modCore s core fun c => { c with deque := rest }) x core part)
    else none

/-- The first of sources 1 to 4 that holds a team the core may admit (R240). -/
def placeFirst (s : State) (core part : Nat) : Option State :=
  ((firstPlaced (placeKernel s core part) (placing s true)).or (firstPlaced (placeSaved s) (savedFor s core part))).or
    ((placeOwn s core part).or (firstPlaced (placeKernel s core part) (placing s false)))

/-- The writes of HEAD and BUSY, and of LATE where it rises, that the dispatcher has to make (R225): each is debited, and held, by
itself. -/
def queueNote (s : State) (ctx h : Nat) (f : QueueSt → QueueSt) (late : Nat) : State :=
  { s with queues := s.queues.map fun q =>
      if q.ctx = ctx ∧ q.handle = h then
        let q1 := f q
        { q1 with heldWrites := q1.heldWrites ++ [(q1.head, q1.busy, 0)] ++ (if late = 0 then [] else [(q1.head, q1.busy, late)]) }
      else q }

/-- A kernel whose last launch team has been placed is RUNNING, and its queue leaves DISPATCHING (R226, R237). -/
def kernelPlaced (s : State) (k : Kernel) : State :=
  if k.st = .dispatching ∧ k.teams ≤ nextLaunch k then
    queueNote (modKernel s k.kid fun k => { k with st := .running, nextLaunch := k.teams }) k.qctx k.qh
      (fun q => { q with busy := false }) 0
  else s

/-! ## Stealing (R252) -/

/-- The other cores of a cluster, in the ring order of a core. -/
def ringOf (core : Nat) : List Nat := (rangeFrom 1 15).map fun i => core / 16 * 16 + (core % 16 + i) % 16

/-- The first deque in the ring whose tail task a core may admit. -/
def stealFrom (s : State) (core : Nat) : List Nat → Option (Nat × Task)
  | [] => none
  | v :: vs =>
    match (getCore s v).deque.getLast? with
    | some x => if mayTake s core x then some (v, x) else stealFrom s core vs
    | none => stealFrom s core vs

/-- Whether the partition of a saved team is free: the core has room for the team, and the partition a place (R240, R243)
(log 26, DEDUCED). -/
def partFree (s : State) (t : Team) : Bool :=
  decide (1 ≤ coreRoom s t.core (kernelShape (teamKernel s t) t.bounds)) && partRoom s t.core t.part

/-- Whether a core steals (R252): its own deque holds no task that it may admit, and sources 1, 2 and 4 are empty. -/
def mayStealNow (s : State) (core : Nat) : Bool :=
  !((getCore s core).deque.any (mayTake s core)) && (placing s true).isEmpty && (placing s false).isEmpty &&
    [0, 1, 2, 3].all fun p => !((savedFor s core p).any (partFree s))

/-- A core takes the tail task of the first deque in its ring whose tail it may admit, to one of its partitions. -/
def stealTask (s : State) (core part : Nat) : Option State :=
  if mayStealNow s core && partRoom s core part then
    (stealFrom s core (ringOf core)).map fun e =>
      placeTask (modCore s e.1 fun c => { c with deque := c.deque.dropLast }) e.2 core part
  else none

/-- TASK_STEAL (R252, R253) (log 22, DESIGN CHOICE). -/
def execTaskSteal (core : Nat) (s : State) : Out :=
  if core < Config.cores ∧ s.mgmt.pstate = 0 then
    match stealTask s core (pickPart s core 0) with
    | some s1 => done s1
    | none => .next s
  else .next s

/-! ## Room is filled at once (R240) -/

/-- A partition of a core fills its room: from sources 1 to 4, or by stealing. -/
def fillPart (s : State) (e : Nat × Nat) : Option State := (placeFirst s e.1 e.2).or (stealTask s e.1 e.2)

/-- Whether any source holds a team (R240). -/
def anySource (s : State) : Bool :=
  !((placing s true).isEmpty && (placing s false).isEmpty) || s.cores.any (fun e => !e.2.deque.isEmpty) ||
    s.teams.any fun e => e.2.saved && !e.2.placed && (e.2.status == .unplaced || e.2.status == .ready)

/-- The partitions that have room and a team to fill it with. -/
def dueParts (s : State) : List (Nat × Nat) :=
  if s.mgmt.pstate = 0 && anySource s then
    ((List.range Config.cores).flatMap fun c => [0, 1, 2, 3].map fun p => (c, p)).filter fun e => (fillPart s e).isSome
  else []

/-! ## Saving a team at its region's start (R153, R243-R245) -/

/-- Whether a team can be saved now: an RMW that waits for its peer is being performed and must be answered first. -/
def canSave (t : Team) : Bool :=
  match t.status with
  | .waiting (.peerRmw _ _ _ _ _ _) => false
  | _ => true

/-- Leaves a wait that holds a place of its own: a COPY that waits for a place gives up its count at its lock. -/
def leaveWait (s : State) (u : Nat) : State :=
  match (getTeam s u).status with
  | .waiting (.copyPlace _ c _) => lockEngEnd s (getTeam s u).core c.lock
  | _ => s

/-- The walks a team waits for no longer concern it. -/
def dropWalks (s : State) (u : Nat) : State :=
  { s with walkers := s.walkers.map fun w => { w with batches := w.batches.filter fun b => b.uid != u } }

/-- A team stands at its region's start (R153): its log is discarded and it will run from its snapshot. -/
def rewindTeam (s : State) (u : Nat) : State :=
  let s1 := dropWalks (leaveWait (abortRegion (finishIssued s u) u) u) u
  modTeam (traceAppend s1 u) u fun t => { t with
    flow := t.snap, counts := [], flight := [], walked := [], yielded := [], woken := false, asks := []
    trace := { t.trace with syncNext := t.trace.on } }

/-- Pre-emption saves a team for its core (R243); a parked member of a closure stays parked (R261). -/
def preemptTeam (s : State) (u : Nat) : State :=
  modTeam (rewindTeam s u) u fun t =>
    { t with placed := false, saved := true, status := if t.status = .parked then .parked else .unplaced }

/-- Eviction saves a team that waits in JOIN (R244): it still waits for its count. -/
def evictTeam (s : State) (u : Nat) : State :=
  let w := (getTeam s u).status
  modTeam (rewindTeam s u) u fun t => { t with placed := false, saved := true, status := w }

/-! ## Pre-emption (R236, R261) -/

/-- Whether a resident team is READY or WAITING. -/
def readyOrWaiting (t : Team) : Bool :=
  match t.status with
  | .ready | .waiting _ => true
  | _ => false

/-- The resident members of a team's closure, which go with it (R261). -/
def withClosure (s : State) (u : Nat) : List Nat :=
  let t := getTeam s u
  match (if t.kind = .launch then closureOf (teamKernel s t) t.id else none) with
  | none => [u]
  | some ids => (s.teams.filter fun e => e.2.kid == t.kid && e.2.kind == .launch && ids.contains e.2.id && e.2.placed &&
      !(e.2.status == .ended)).map (·.1)

/-- Whether a team and its closure can be pre-empted: none is ending, and none is on a core that is stopped, where members stay
resident (R261). -/
def freeToLeave (s : State) (u : Nat) : Bool :=
  (withClosure s u).all fun m =>
    let t := getTeam s m
    (readyOrWaiting t || t.status == .parked) && (getCore s t.core).stop.isNone

/-- The class-2 teams of a core that may be pre-empted, the highest identifier first. -/
def victimsOn (s : State) (core : Nat) : List Team :=
  let ts := ((teamsOn s core).map (·.2)).filter fun t =>
    readyOrWaiting t && (teamKernel s t).cls == 2 && freeToLeave s t.uid
  (sortKey (fun t => [t.id, t.uid]) ts).reverse

/-- The fewest victims, from the front, whose leaving makes room for a team (R236). -/
def fewest (s : State) (core : Nat) (sh : TeamShape) : List Team → List Nat → Option (List Nat)
  | vs, gone =>
    if 1 ≤ roomWithout s core sh gone then some gone
    else
      match vs with
      | [] => none
      | v :: rest => fewest s core sh rest (gone ++ [v.uid])

/-- The victims of a core for the first unplaced team of a class-0 kernel, if pre-emption on it serves (R236)
(log 22, DESIGN CHOICE). It serves only on a core of the packet's context and word (log 74, DESIGN CHOICE). -/
def preemptVictims (s : State) (core : Nat) (k : Kernel) : Option (List Nat) :=
  match firstUnplaced s k with
  | none => none
  | some x =>
    let c := getCore s core
    let sh := unplacedShape k x
    let vs := victimsOn s core
    if c.stop.isSome || c.offline || c.ctx != k.ctx || c.word != k.part then none
    else
      match x with
      | .closure ids =>
        let all := fun (c : Nat) => roomWithout s c sh ((victimsOn s c).map (·.uid))
        let now := fun (c : Nat) => coreRoom s c sh
        if (List.range Config.cores).any (fun c => !(boltWindows now c ids.length).isEmpty) then none
        else if (boltWindows all core ids.length).isEmpty then none
        else (vs.head?).map fun v => [v.uid]
      | _ =>
        if (List.range Config.cores).any (fun c => decide (1 ≤ coreRoom s c sh) && !(openParts s c).isEmpty) then none
        else fewest s core sh vs []

/-- The operations that teams have accepted retire before the teams are saved (R190, R201, R245). -/
def retireFirst (s : State) (us : List Nat) : State :=
  (dedupNat (us.map fun u => (getTeam s u).core)).foldl (fun s c => drainOps c (saveHeld c us) 64 s) s

/-- Whether teams may be saved now: everything that must retire or be answered first has done so. -/
def maySave (s : State) (us : List Nat) : Bool :=
  us.all fun u => canSave (getTeam s u) && !(saveHeld (getTeam s u).core us s)

/-- PREEMPT (R236): class-2 teams of a core make room for a class-0 packet. -/
def execPreempt (core : Nat) (s : State) : Out :=
  match (placing s true).findSome? (preemptVictims s core) with
  | none => .next s
  | some vs =>
    let all := dedupNat ((vs.map (withClosure s)).flatten)
    let s1 := retireFirst s all
    if maySave s1 all && all.all (freeToLeave s1) then done (all.foldl preemptTeam s1) else done s1

/-! ## Eviction (R244) -/

/-- The team that R244 evicts: the highest identifier that waits in JOIN and belongs to the head task's kernel
(log 22, DESIGN CHOICE). -/
def evictee (s : State) (core : Nat) (x : Task) : Option Team :=
  let ts := ((teamsOn s core).map (·.2)).filter fun t =>
    t.kid == x.kid && (match t.status with | .waiting (.join _) => true | _ => false) &&
      (t.kind != .launch || (closureOf (teamKernel s t) t.id).isNone)
  (sortKey (fun t => [t.id]) ts).getLast?

/-- EVICT (R244). -/
def execEvict (core : Nat) (s : State) : Out :=
  let c := getCore s core
  match c.deque with
  | [] => .next s
  | x :: _ =>
    if c.stop.isSome || c.offline || mayTake s core x then .next s
    else
      match evictee s core x with
      | some t =>
        let s1 := retireFirst s [t.uid]
        done (if maySave s1 [t.uid] && (getCore s1 core).stop.isNone then evictTeam s1 t.uid else s1)
      | none => .next s

end Sys2Proof.Machine
end

