-- ==== Sys2Proof/Machine/Queue.lean ====
section
/-! DEFINITION. Queues, arbitration and completion (11 R224-R236, R460, 12 R237, 13 R255-R260, 18 R337): what the dispatcher
reads of a queue, the checks of a packet, its selection, and the completion records. -/

namespace Sys2Proof.Machine

/-! ## The dispatcher's writes (R225) -/

/-- The space of a queue. -/
def queueSpace (ctx : Nat) : Space := if ctx = 0 then .table else .ctx ctx

/-- Writes bytes of a queue's block at its home slice for the dispatcher: none where the block cannot be written, POOL cannot cover the
debit, or a bank answers with a retry. -/
def dispatchStore (s : State) (ctx a : Nat) (bs : List Byte) : Option State :=
  let bytes := List.replicate (a % 256) none ++ bs.map some ++ List.replicate (256 - a % 256 - bs.length) none
  if ctx = 0 then some (tableWrite s a (bs.map some))
  else
    match xlateWalk s ctx a .rmw with
    | .ok (.dev k) leaf =>
      let deb := leafDebits leaf
      let paid : State × Bool := if deb then debit8 s .pool ctx else (s, true)
      if paid.2 then
        let die := homeDie (k / 256)
        let s1 := storeOver deviceWrites (markDirty (bring paid.1 die ctx a) die ctx a) ctx .pool deb (k / 256) bytes
        if (banksMet s1).isEmpty then some s1 else none
      else none
    | .ok (.host b) _ => some (hostStore deviceWrites s b (bs.map some))
    | _ => none

/-- The words of a queue's block as they stand. -/
def blockWord (s : State) (ctx a : Nat) : Nat :=
  if ctx = 0 then memNat s.tspace a 8
  else
    match xlateWalk s ctx a .rmw with
    | .ok p _ => natOf (placeBytes s p 8)
    | _ => 0

/-- One write of the dispatcher: HEAD and BUSY in q0 with the rest of q0 as it stands, or what LATE gains in q1. -/
def queueWrite (s : State) (ctx h : Nat) (w : Nat × Bool × Nat) : Option State :=
  let q0 := blockWord s ctx (h + 64)
  let rest := q0 - q0 % 2 ^ 32 - (if bitAt q0 61 then 2 ^ 61 else 0)
  if w.2.2 = 0 then dispatchStore s ctx (h + 64) (bytesOf 8 (rest + w.1 % 2 ^ 32 + (if w.2.1 then 2 ^ 61 else 0)))
  else dispatchStore s ctx (h + 72) (bytesOf 8 (blockWord s ctx (h + 72) + w.2.2))

/-- Applies a queue's held writes in order until one cannot be made. -/
def queueWrites : Nat → State → Nat → Nat → State
  | 0, s, _, _ => s
  | fuel + 1, s, ctx, h =>
    match s.queues.find? (fun q => q.ctx == ctx && q.handle == h) with
    | none => s
    | some q =>
      match q.heldWrites with
      | [] => s
      | w :: ws =>
        match queueWrite s ctx h w with
        | none => s
        | some s1 =>
          queueWrites fuel { s1 with queues := s1.queues.map fun q =>
            if q.ctx = ctx ∧ q.handle = h then { q with heldWrites := ws } else q } ctx h

/-- DISPATCH_WRITE_APPLY (R225). -/
def execDispatchWriteApply (ctx handle : Nat) (s : State) : Out :=
  match s.queues.find? (fun q => q.ctx == ctx && q.handle == handle) with
  | none => .next s
  | some q => done (queueWrites q.heldWrites.length s ctx handle)

/-- Makes the writes of every queue that can be made now. -/
def allQueueWrites (s : State) : State :=
  s.queues.foldl (fun s q => queueWrites q.heldWrites.length s q.ctx q.handle) s

/-- What follows a placing: kernels whose last team it placed are RUNNING, and their queues' BUSY falls (R225, R226, R237). -/
def afterPlace (s : State) : State := allQueueWrites (s.kernels.foldl kernelPlaced s)

/-- TEAM_PLACE (R240) (log 26, DEDUCED). -/
def execTeamPlace (core part : Nat) (s : State) : Out :=
  if core < Config.cores ∧ part < 4 ∧ s.mgmt.pstate = 0 then
    match placeFirst s core part with
    | some s1 => done (afterPlace s1)
    | none => .next s
  else .next s

/-- ROOM IS FILLED AT ONCE (R240): the state once one of the partitions that have room and a team to fill it with has done so; which is
free (log 22, DESIGN CHOICE). None where no room can be filled, or a bank answers with a retry (R437). -/
def fillRoom (s : State) : Option State :=
  let due := dueParts s
  match due with
  | [] => none
  | e :: _ =>
    match fillPart s (nth e due (Config.freeNat s.free 61 % due.length)) with
    | none => none
    | some s1 =>
      let s2 := settle (afterPlace s1)
      if (banksMet s2).isEmpty then some s2 else none

/-! ## Completion (R230, R237) -/

/-- The completion record of a packet (R230). -/
def cplWords (k : Kernel) : List W64 :=
  [BitVec.ofNat 64 (k.status + (if k.late then 2 ^ 8 else 0) + k.slot % 2 ^ 32 * 2 ^ 32), k.user, BitVec.ofNat 64 k.tsel,
    BitVec.ofNat 64 k.trun, BitVec.ofNat 64 k.tend, BitVec.ofNat 64 (k.qnum % 2 ^ 16 * 2 ^ 32), 0#64, 0#64]

/-- The bytes of 64-bit words. -/
def bytesOfWords (ws : List W64) : List Byte := (ws.map fun w => bytesOf 8 w.toNat).flatten

/-- Appends the completion records of a context that wait, in order, as far as each can be appended: each releases the fills and the
hand-off records of its launch (R355) (log 28, DEDUCED). -/
def flushCpls (s : State) (ctx : Nat) : State :=
  let mine := s.cpls.filter fun e => e.ctx == ctx
  let rest := s.cpls.filter fun e => e.ctx != ctx
  mine.foldl (fun s e =>
    match appendOne s (.ctx ctx) .pool e.handle 6 (bytesOfWords e.words) ⟨e.made, 0⟩ with
    | .ok s1 _ => s1
    | _ => { s with cpls := s.cpls ++ [e] }) { s with cpls := rest }

/-- A packet has completed or is retired: its record waits for its append, unless CPL is 0 (R230). -/
def packetDone (s : State) (k : Kernel) : State :=
  if k.cpl = 0 then s
  else flushCpls { s with cpls := s.cpls ++ [⟨k.ctx, k.cpl, cplWords { k with tend := s.mgmt.time }, k.made⟩] } k.ctx

/-- Whether a kernel is unended (R237). -/
def kernelLive (s : State) (k : Kernel) : Bool :=
  decide (nextLaunch k < k.teams) || (s.teams.any fun e => e.2.kid == k.kid && !(e.2.status == .ended)) ||
    (s.cores.any fun e => e.2.deque.any fun x => x.kid == k.kid)

/-- A kernel whose last team has ended completes (R230, R237). -/
def kernelEnd (s : State) (kid : Nat) : State :=
  match kernelOf s kid with
  | none => s
  | some k =>
    if kernelLive s k then s
    else
      let s1 := { s with
        kernels := s.kernels.filter fun x => x.kid != kid
        cores := s.cores.map fun e => (e.1, { e.2 with launches := e.2.launches.filter (· != kid) }) }
      let s2 := if k.st = .dispatching then queueNote s1 k.qctx k.qh (fun q => { q with busy := false }) 0 else s1
      packetDone (allQueueWrites s2) { k with status := if k.killed then 4 else 0 }

/-! ## What the dispatcher reads of a queue (R224-R227, R460) -/

/-- A head packet that may be selected. -/
structure Cand where
  qctx : Nat
  qh : Nat
  slot : Nat
  owner : Nat
  qnum : Nat
  ws : List Nat
  deriving DecidableEq, Repr

/-- What a look at a queue comes to: no candidate, a failed read of its header or block, a failed read of its head packet, or a
candidate. `head` is HEAD past the void slots. -/
inductive Look where
  | none
  | unread (cause addr : Nat)
  | badHead (cause addr : Nat)
  | cand (c : Cand)
  deriving DecidableEq, Repr

/-- Passes over void slots (R224). -/
def skipVoids (hd : Hdr) : Nat → Txn → Nat → Txn × Nat
  | 0, t, h => (t, h)
  | fuel + 1, t, h =>
    if h < hd.cl ∧ hd.vmap ≠ 0 then
      match txBit t hd.vmap h with
      | (t1, true) => skipVoids hd fuel t1 (h + 1)
      | (t1, false) => (t1, h)
    else (t, h)

/-- The first fault of a read, in the order of R324. -/
def txCause (t : Txn) : Option (Nat × Nat) := t.replay.or t.hard

/-- Looks at a queue that is not in DISPATCHING: HEAD past the void slots, and what stands there. A read of the void map
that fails is like a failed read of the header or the block (R460) (log 72, DESIGN CHOICE). -/
def lookQueue (s : State) (q : QueueSt) : Nat × Look :=
  let sp := queueSpace q.ctx
  match txHdr (txStart s sp false) q.handle with
  | (t1, hd) =>
    match txRead t1 (q.handle + 64) 8 with
    | (t2, q0) =>
      match skipVoids hd (hd.cl - q.head) t2 q.head with
      | (t3, head) =>
        match txCause t3 with
        | some (c, a) => (q.head, .unread c a)
        | none =>
          let owner := field q0 48 12
          if t3.bad58 || !hd.queue || hd.slg != 7 || decide (hd.cl ≤ head) then (head, .none)
          else if bitAt q0 60 || (getCtx s owner).st != .active || (q.ctx != 0 && q.ctx != owner) then (head, .none)
          else
            let a := flatSlot hd head
            match txBytes (txStart s sp false) a 128 with
            | (t4, bs) =>
              match txCause t4 with
              | some (c, v) => (head, if c = 0x63 ∨ c = 0x64 then .badHead c v else .unread c v)
              | none =>
                let ws := wordsOf bs
                let open_ := s.kernels.any fun k => k.qctx == q.ctx && k.qh == q.handle
                if bitAt (nth 0 ws 2) 8 && open_ then (head, .none)
                else (head, .cand ⟨q.ctx, q.handle, head, owner, field q0 32 16, ws⟩)

/-- The state once a queue has been read (R373, R438). -/
def queueReads (s : State) (q : QueueSt) : State :=
  match txHdr (txStart s (queueSpace q.ctx) false) q.handle with
  | (t1, hd) =>
    match skipVoids hd (hd.cl - q.head) (txRead t1 (q.handle + 64) 8).1 q.head with
    | (t2, head) => if head < hd.cl then (txBytes t2 (flatSlot hd head) 128).1.s else t2.s

/-- The state once the tables that a packet names have been read. -/
def packetReads (s : State) (id gtab hoff : Nat) (bounds : Bool) : State :=
  let s1 := if bounds then (txHdr (txStart s (.ctx id) false) hoff).1.s else s
  if gtab = 0 then s1 else (txBytesLong 18 (txStart s1 (.ctx id) false) gtab 4096).1.s

/-- Changes a queue without a write of the dispatcher. -/
def setQueue (s : State) (ctx h : Nat) (f : QueueSt → QueueSt) : State :=
  { s with queues := s.queues.map fun q => if q.ctx = ctx ∧ q.handle = h then f q else q }

/-- The context that a queue's records go to: its owner, or the space it lies in. -/
def queueRec (s : State) (ctx cause addr : Nat) : FaultRec := { blankRec s cause ctx with addr := addr }

/-- The dispatcher reads a queue (R460): HEAD moves past void slots, a failed read blocks the queue with one record, and a head
packet that is poisoned or forbidden is retired with no completion record (log 24, DEDUCED). -/
def readQueue (s0 : State) (q : QueueSt) : State :=
  if q.busy || q.failed.isSome then s0
  else
    let s := queueReads s0 q
    match lookQueue s q with
    | (head, l) =>
      let s1 := if head = q.head then s else queueNote s q.ctx q.handle (fun q => { q with head := head }) 0
      match l with
      | .unread c a => pushRec (setQueue s1 q.ctx q.handle fun q => { q with failed := some c }) (queueRec s1 q.ctx c a)
      | .badHead c a =>
        pushRec (queueNote s1 q.ctx q.handle (fun q => { q with head := head + 1 }) 0) (queueRec s1 q.ctx c a)
      | _ => s1

/-- QUEUE_READ_RETRY (R460): a translation or metadata that was not there is tried again in time, poison and a forbidden access after a
page command of the context or a commit to the queue; the same cause again appends no record. A queue not yet watched is noticed
(R224). -/
def execQueueReadRetry (ctx handle : Nat) (s : State) : Out :=
  match s.queues.find? (fun q => q.ctx == ctx && q.handle == handle) with
  | none => .next (noteQueue s (queueSpace ctx) handle)
  | some q =>
    match q.failed with
    | none => .next s
    | some c =>
      if (c = 0x63 ∨ c = 0x64) ∧ q.again = false then .next s
      else
        let s0 := setQueue (queueReads s q) ctx handle fun q => { q with again := false }
        match lookQueue s0 q with
        | (_, .unread c1 a) =>
          if c1 = c then .next s0
          else done (pushRec (setQueue s0 ctx handle fun q => { q with failed := some c1 }) (queueRec s0 ctx c1 a))
        | _ => done (setQueue s0 ctx handle fun q => { q with failed := none })

/-! ## The packet and its checks (R228, R229, R255-R260, R337) -/

/-- The kernel a packet asks for, as it is selected at a time: its teams acquire what the commits up to its slot have released (R232). -/
def packetKernel (s : State) (c : Cand) (groups : List Group) : Kernel :=
  let w := fun i => nth 0 c.ws i
  let w2 := w 2
  let b := bitAt w2 4
  { kid := s.nextKid, ctx := c.owner, qctx := c.qctx, qh := c.qh, qnum := c.qnum, slot := c.slot, st := .dispatching
    status := 0, entry := w 0, deadline := w 1, cls := field w2 0 2, chksb := bitAt w2 3, bounds := b
    logSize := 4096 * 2 ^ field w2 5 3, lanes := 32 * (field w2 16 5 + 1), allot := 8 * (field w2 21 4 + 1)
    part := field w2 32 32, teams := field (w 3) 0 25, args := field (w 5) 0 56, cpl := w 6
    tr := field (w 7) 0 6 + 1, tc := field (w 7) 6 6 + 1, budget := field (w 7) 12 20, summ := field (w 8) 0 56, hoff := w 9
    user := BitVec.ofNat 64 (w 10), ran := false, nextId := field (w 3) 0 25, nextLaunch := 0
    late := decide (w 1 < s.mgmt.time), killed := false, tsel := s.mgmt.time, trun := 0, tend := 0, groups := groups
    start := seqView s c.qctx c.qh (c.slot + 1), made := [] }

/-- Whether a tile side is one the bounds pass allows (R337). -/
def sideOk (n : Nat) : Bool := n == 8 || n == 16 || n == 32 || n == 64

/-- Whether HOFF names an OPEN flat sequence of 16-byte slots (R337). -/
def hoffOk (s : State) (id h : Nat) : Bool :=
  match txHdr (txStart s (.ctx id) false) h with
  | (t, hd) => (txCause t).isNone && !t.bad58 && !hd.kv && !hd.queue && !hd.released && hd.slg == 4

/-- Whether the values of a packet keep R228, R229 and R337, its groups apart. Bits 63:56 of w4 and w5, which R228 lists
neither as a field nor as reserved, must be zero (log 72, DESIGN CHOICE). -/
def packetOk (s : State) (c : Cand) (k : Kernel) : Bool :=
  let w := fun i => nth 0 c.ws i
  let w2 := w 2
  decide (w 0 < 2 ^ 56) && w 0 % 4 == 0 && field w2 0 2 != 3 && decide (field w2 5 3 ≤ 4) && field w2 9 7 == 0 &&
    field w2 25 7 == 0 && decide (1 ≤ k.teams) && decide (k.teams ≤ 2 ^ 24) && decide (w 3 < 2 ^ 25) &&
    decide (w 4 < 2 ^ 56) && decide (w 5 < 2 ^ 56) && decide (w 7 < 2 ^ 32) &&
    (rangeFrom 11 5).all (fun i => w i == 0) &&
    decide (footprint k.lanes k.allot k.bounds ≤ rfgBytes k.part) &&
    (if k.bounds then
      sideOk k.tr && sideOk k.tc && w 8 % 8192 == 0 && decide (w 8 < 2 ^ 56) && hoffOk s k.ctx k.hoff
    else w 7 == 0 && w 8 == 0 && w 9 == 0)

/-- The ranges of a list of range words, ascending and inside the launch (R256, R257). -/
def rangesOk (teams : Nat) : Nat → List Nat → Option (List (Nat × Nat))
  | _, [] => some []
  | lo, w :: ws =>
    let a := field w 0 32
    let b := field w 32 32
    if a < lo ∨ b < a ∨ teams ≤ b then none
    else (rangesOk teams (b + 1) ws).map fun rs => (a, b) :: rs

/-- One entry of the group table (R255): none where it breaks a rule, `some none` where the group is empty. -/
def readGroup (t : Txn) (teams n e0 e1 : Nat) : Txn × Option (Option Group) :=
  let nr := field e1 0 16
  let bolt := bitAt e1 16
  if 2 ^ 56 ≤ e0 ∨ 2 ^ 17 ≤ e1 ∨ e0 % 8 ≠ 0 ∨ (nr = 0 ∧ (e0 ≠ 0 ∨ bolt)) then (t, none)
  else if nr = 0 then (t, some none)
  else
    match txBytesLong (nr / 32 + 2) t e0 (8 * nr) with
    | (t1, bs) =>
      match rangesOk teams 0 (wordsOf bs) with
      | none => (t1, none)
      | some rs => (t1, some (some ⟨n, rs, bolt⟩))

/-- The groups of the table's entries. -/
def readGroups (teams : Nat) : Txn → Nat → List Nat → Txn × Option (List Group)
  | t, n, e0 :: e1 :: ws =>
    match readGroup t teams n e0 e1 with
    | (t1, none) => (t1, none)
    | (t1, some g) =>
      match readGroups teams t1 (n + 1) ws with
      | (t2, none) => (t2, none)
      | (t2, some gs) => (t2, some (g.toList ++ gs))
  | t, _, _ => (t, some [])

/-- The group table at GTAB (R255-R257): none where it breaks a rule or a read fails. -/
def groupTable (s : State) (id gtab teams : Nat) : Option (List Group) :=
  if gtab = 0 then some []
  else if gtab % 16 ≠ 0 then none
  else
    match txBytesLong 18 (txStart s (.ctx id) false) gtab 4096 with
    | (t, bs) =>
      match readGroups teams t 0 (wordsOf bs) with
      | (t1, gs) => if (txCause t1).isSome then none else gs

/-- Whether every team is in at most four groups, and every closure keeps R260. -/
def groupsOk (k : Kernel) : Bool :=
  let starts := (k.groups.map fun g => g.ranges.map (·.1)).flatten
  let over4 := starts.any fun m =>
    decide (4 < (k.groups.filter fun g => g.ranges.any fun r => decide (r.1 ≤ m) && decide (m ≤ r.2)).length)
  let small := (k.groups.filter (·.bolt)).all fun g =>
    decide (g.ranges.foldl (fun a r => a + (r.2 + 1 - r.1)) 0 * k.lanes ≤ 4096)
  let cap := min (rfgBytes k.part / footprint k.lanes k.allot k.bounds) (min (196608 / k.logSize) 128)
  !over4 && small && (closuresOf k.groups).all fun c =>
    decide (c.length * k.lanes ≤ 4096) && decide (c.length ≤ 4 * cap)

/-- The status that a packet's own words have it retired with, if they do: BADPART, BADPKT or DROPPED (R229, R230, R233)
(log 24, DEDUCED). -/
def packetStatus (s : State) (c : Cand) : Option Nat :=
  let k := packetKernel s c []
  if !(wordOk k.part) then some 2
  else if !(packetOk s c k) then some 1
  else if k.late && bitAt (nth 0 c.ws 2) 2 then some 3
  else none

/-- The kernel of a packet that is selected, with its groups: none where its table has it retired with BADPKT (R257). -/
def packetGroups (s : State) (c : Cand) : Option Kernel :=
  let k := packetKernel s c []
  match groupTable s k.ctx (nth 0 c.ws 4) k.teams with
  | none => none
  | some gs => if groupsOk { k with groups := gs } then some { k with groups := gs } else none

/-! ## Selection (R233) -/

/-- The candidates of every queue (log 24, DEDUCED). -/
def candsOf (s : State) : List Cand :=
  s.queues.filterMap fun q =>
    if q.busy || q.failed.isSome then none
    else
      match lookQueue s q with
      | (_, .cand c) => some c
      | _ => none

/-- The key of a candidate. -/
def candKey (c : Cand) : List Nat := [field (nth 0 c.ws 2) 0 2, nth 0 c.ws 1, c.owner, c.qnum]

/-- Maps the spare of a cluster in the place of an offline core at the next launch (R7, R412); a device that has tripped runs no core
(R446) (log 50, DEDUCED). -/
def mapSpare (s : State) (e : Nat × Core) : State :=
  if e.2.spareDue then
    let stop := if s.mgmt.trip then some ⟨none, 0x5F, true, none⟩ else none
    pushRec (modCore s e.1 fun c => { c with offline := false, spareDue := false, stop := stop })
      { blankRec s 0xA1 0 with core := e.1, w5 := 17 * clusterOf e.1 + 16 }
  else s

/-- Whether some online core has room for a kernel's first team, or would have once class-2 teams were pre-empted for a class-0
packet (R233). -/
def hasRoom (s : State) (k : Kernel) : Bool :=
  let sh := kernelShape k k.bounds
  (List.range Config.cores).any fun c =>
    (decide (1 ≤ coreRoom s c sh) && !(openParts s c).isEmpty) ||
      (k.cls == 0 && (getCore s c).stop.isNone && (getCore s c).ctx == k.ctx && (getCore s c).word == k.part &&
        (fewest s c sh (victimsOn s c) []).isSome)

/-- A packet is selected and retired with a status (R229, R230, R233). -/
def retirePacket (s : State) (c : Cand) (st : Nat) : State :=
  let k := packetKernel s c []
  let s1 := queueNote s c.qctx c.qh (fun q => { q with head := c.slot + 1 }) (if st = 3 then 1 else 0)
  packetDone (allQueueWrites s1) { k with status := st, late := st == 3 }

/-- Acts on the least candidate: it is retired, it starts to dispatch, or nothing is selected. Its table is read only once it is selected:
a packet that would run is when a core has room for its first team (R233, R257). -/
def selectCand (s0 : State) (c : Cand) : State :=
  let k := packetKernel s0 c []
  let s := packetReads s0 k.ctx (nth 0 c.ws 4) k.hoff k.bounds
  match packetStatus s c with
  | some 3 => retirePacket s c (if (packetGroups s c).isNone then 1 else 3)
  | some st => retirePacket s c st
  | none =>
    let s0 := s.cores.foldl mapSpare s
    if hasRoom s0 (packetKernel s c []) then
      match packetGroups s0 c with
      | none => retirePacket s0 c 1
      | some k =>
        let s1 := queueNote s0 c.qctx c.qh (fun q => { q with head := c.slot + 1, busy := true }) (if k.late then 1 else 0)
        allQueueWrites { s1 with kernels := s1.kernels ++ [k], nextKid := s1.nextKid + 1 }
    else s

/-- ARBITER_SELECT (R233): the dispatcher reads the queues and acts on the candidate with the least key (log 24, DEDUCED). -/
def execArbiterSelect (s : State) : Out :=
  if s.mgmt.pstate = 0 then
    let s1 := allQueueWrites (s.queues.foldl readQueue s)
    match sortKey candKey (candsOf s1) with
    | [] => done s1
    | c :: _ => done (selectCand s1 c)
  else .next s

end Sys2Proof.Machine
end

