-- ==== Sys2Proof/Machine/Tasks.lean ====
section
/-! DEFINITION. Tasks and launches (12 R246-R253, 11 R231, R232), the bounds-pass form BPASS (18 R353), FREEB (10 R217), TRACE
(22 R415-R419) and the STALL and MARK hints (03 R44, R49). -/

namespace Sys2Proof.Machine

/-! ## FORK and JOIN -/

/-- A FORK that fails writes its status and has no other effect (R248). -/
def forkStatus (s : State) (u k c : Nat) : Out :=
  done (fallThrough (modTeam s u fun t => setK t k (BitVec.ofNat 64 (statusWord c))) u true)

/-- FORK once its region has committed (R248, R249): a release at .dev, which the new team's first issue acquires. -/
def forkGo (s : State) (u : Nat) (t : Team) (a b n w : Nat) : Out :=
  let c := getCore s t.core
  let k := teamKernel s t
  let jv := bitAt w 62
  let jl := field w 56 6
  let l := getLock s t.core jl
  if 512 ≤ c.deque.length then forkStatus s u (a + 1) 1
  else if 2 ^ 32 ≤ k.nextId then forkStatus s u (a + 1) 2
  else if jv ∧ l.joinc = 65535 then forkStatus s u (a + 1) 3
  else
    let task : Task :=
      { kid := t.kid, ctx := t.ctx, entry := field w 0 56, args := (rangeFrom b n).map (kreg t), id := k.nextId, parent := t.id
        parentCore := t.core, jv := jv, jl := jl, view := teamView s u }
    let s1 := modKernel s t.kid fun k => { k with nextId := k.nextId + 1 }
    let s2 := if jv then setLock s1 t.core jl { l with joinc := l.joinc + 1 } else s1
    let s3 := modCore s2 t.core fun c => { c with deque := task :: c.deque }
    done (fallThrough (modTeam s3 u fun t => setK t (a + 1) (BitVec.ofNat 64 k.nextId)) u true)

/-- FORK (R246-R248): a task word out of range or misaligned stops before the region commits. -/
def execFork (a b : KReg) (n : BitVec 4) (s : State) : Out :=
  issueOp { noAccess with
      rk := (a.toNat, 1) :: (if n = 0#4 then [] else [(b.toNat, n.toNat)]), wk := [(a.toNat + 1, 1)] } (normalOnly fun s u t =>
    let w := (kreg t a.toNat).toNat
    if bitAt w 63 then done (teamStop s u 0x61 none w)
    else if w % 4 ≠ 0 then done (teamStop s u 0x60 none w)
    else if (getTeam s u).pend.any (·.isLoad) then .next s
    else forkGo (takeSnap (commitRegion s u) u) u t a.toNat b.toNat n.toNat w) s

/-- JOIN (R250): an acquire at .dev once the join count reads 0. -/
def execJoin (n : KReg) (s : State) : Out :=
  boundaryNormal noAccess (fun s u t =>
    if t.woken || (getLock s t.core n.toNat).joinc == 0 then
      done (fallThrough (acquireView (modTeam s u fun t => { t with woken := false }) u (getLock s t.core n.toNat).joined) u true)
    else done (waitFor s u (.join n.toNat))) s

/-- The teams that wait in JOIN on a lock whose count has come to 0 are woken (R250). -/
def wakeJoin (core n : Nat) (t : Team) : Team :=
  match t.status with
  | .waiting (.join m) => if t.core = core ∧ m = n then { t with status := .ready, woken := true } else t
  | _ => t

/-- The end of a bound team subtracts 1 from its join count, on the parent's core, and is a release that JOIN acquires (R251). -/
def joinEnd (s : State) (core n : Nat) (v : View) : State :=
  let l := getLock s core n
  let s1 := setLock s core n { l with joinc := l.joinc - 1, joined := joinView l.joined v }
  if l.joinc ≤ 1 then { s1 with teams := s1.teams.map fun e => (e.1, wakeJoin core n e.2) } else s1

/-! ## LAUNCH -/

/-- What a LAUNCH comes to: its transaction with the replayable faults it met, its result and the queue's new CL; `notQueue` is 0x54,
`forbid` the first forbidden access and `poison` the first poisoned read. -/
structure Launched where
  out : Loomed
  notQueue : Bool
  forbid : Option Nat
  poison : Option Nat
  deriving DecidableEq, Repr

/-- The address of the first hard fault of a cause among several readings. -/
def hardAt (cause : Nat) (ts : List Txn) : Option Nat :=
  ts.findSome? fun t => match t.hard with | some (c, a) => if c = cause then some a else none | none => none

/-- A LAUNCH that has read as much as the given transactions say, the last of them with its writes. -/
def launchOf (ts : List Txn) (t : Txn) (res : Nat) (cl : Option Nat) (notQueue : Bool) : Launched :=
  let replay := (ts ++ [t]).findSome? (·.replay)
  ⟨⟨{ txClean t with replay := replay }, res, cl⟩, notQueue && replay.isNone && (hardAt 0x64 (ts ++ [t])).isNone,
    hardAt 0x64 (ts ++ [t]), hardAt 0x63 (ts ++ [t])⟩

/-- Appends the 128 bytes at an address to a queue (R231, R232): the packet is tried whatever the queue's own
words meet, and so is the slot (R176). -/
def loomLaunch (t : Txn) (id h p : Nat) : Launched :=
  match txHdr t h with
  | (t1, hd) =>
    let stuck := fun (x : Txn) => launchOf [x] (txBytes (txClean x) p 128).1 0 none false
    if t1.replay.isSome || t1.hard.isSome then stuck t1
    else if t1.bad58 || !hd.queue || hd.slg != 7 then launchOf [] t1 0 none true
    else
      match txRead t1 (h + 64) 8 with
      | (t2, q0) =>
        if !txOk t2 then stuck t2
        else if field q0 48 12 ≠ id then launchOf [] t2 0 none true
        else
          match txBytes t2 p 128 with
          | (t3, bs) =>
            match reserveStatus hd 1 with
            | some c => launchOf [t3] { txClean t3 with buf := [] } (statusWord c) none false
            | none =>
              let t4 := txSetFill (txPut (txRing (txClean t3) hd) (flatSlot hd hd.rl) bs) hd hd.rl true
              match txAdvance hd (hd.rl + 1 - hd.cl) t4 hd.cl with
              | (t5, cl) => launchOf [t3] (txLens t5 hd cl (hd.rl + 1)) hd.rl (if cl = hd.cl then none else some cl) false

/-- LAUNCH (R231, R232): a region boundary, and a release at .dev; a failed reservation writes its status. Its faults come in the order of R176: a forbidden
access, a replayable fault, the debit, and poison last. -/
def execLaunch (a b : KReg) (s : State) : Out :=
  boundaryNormal { noAccess with rk := [(a.toNat, 1), (b.toNat, 1)], wk := [(a.toNat + 1, 1)] } (fun s u t =>
    let h := (kreg t a.toNat).toNat
    let p := (kreg t b.toNat).toNat
    let sp := Space.ctx t.ctx
    if p % 128 ≠ 0 then done (teamStop s u 0x60 none p)
    else
      let r := loomLaunch (txStart s sp false) t.ctx h p
      let die := loomDie s sp h
      let pages := pagesUnknown s die t r.out.tx.pages
      if r.notQueue then done (teamStop s u 0x54 none 0)
      else if !pages.isEmpty then done (requestWalkAt s die u pages)
      else
        let s := r.out.tx.s
        match r.forbid with
        | some x => done (teamStop s u 0x64 none x)
        | none =>
          match txFinish r.out.tx die (.core t.core), r.poison with
          | .fault c x s1, _ => done (teamFault s1 u c none x)
          | .done _, some x => done (teamStop s u 0x63 none x)
          | .done s1, none =>
            let s2 := match r.out.cl with
              | some c => afterCl s1 sp h c
              | none => s1
            let s3 := if r.out.res < 2 ^ 63 then clRelease (commitTo s2 sp h) u h r.out.res else s2
            done (fallThrough (modTeam s3 u fun t => setK t (a.toNat + 1) (BitVec.ofNat 64 r.out.res)) u true)) s

/-! ## BPASS and FREEB -/

/-- What BPASS.info reads (R353). -/
def bpassWord (s : State) (t : Team) : Nat :=
  if !(teamKernel s t).bounds then 0
  else
    (if t.bounds then 1 else 0) +
      (match t.kind with
      | .handoff j slot => 2 + j % 2 ^ 24 * 2 ^ 8 + slot % 2 ^ 32 * 2 ^ 32
      | _ => 0)

/-- BPASS.info (R353). -/
def execBpassInfo (a : KReg) (s : State) : Out :=
  uniformOp { noAccess with wk := [(a.toNat, 1)] } a (fun s t => BitVec.ofNat 64 (bpassWord s t)) s

/-- BPASS.undec (R353): in normal mode it has no effect. -/
def execBpassUndec (_a : KReg) (s : State) : Out :=
  issueOp noAccess (fun s u t =>
    if t.bounds then undecideActive s u else done (fallThrough s u false)) s

/-- FREEB.ctx (R217). -/
def execFreebCtx (a : KReg) (s : State) : Out :=
  uniformOp { noAccess with wk := [(a.toNat, 1)] } a (fun s t =>
    BitVec.ofNat 64 (availOf s t.ctx % 2 ^ 35 + (if (getCtx s t.ctx).infl = 0 then 0 else 2 ^ 63))) s

/-- FREEB.slice (R217). -/
def execFreebSlice (a : KReg) (s : State) : Out :=
  uniformOp { noAccess with wk := [(a.toNat, 1)] } a (fun s t => BitVec.ofNat 64 (getCore s t.core).slice) s

/-! ## TRACE -/

/-- TRACE.on (R415): the next group is preceded by a SYNC (log 53, DEDUCED). -/
def execTraceOn (_a : KReg) (s : State) : Out :=
  issueOp noAccess (fun s u _ =>
    done (modTeam (fallThrough s u false) u fun t => { t with trace := { t.trace with on := true, syncNext := true } })) s

/-- TRACE.off (R415) (log 53, DEDUCED). -/
def execTraceOff (_a : KReg) (s : State) : Out :=
  issueOp noAccess (fun s u _ =>
    let s1 := modTeam (traceAppend s u) u fun t => { t with trace := { t.trace with on := false, syncNext := false } }
    done (fallThrough s1 u false)) s

/-- TRACE.bind (R415): a handle of 0 reads nothing and unbinds. -/
def execTraceBind (_a b : KReg) (s : State) : Out :=
  issueOp { noAccess with rk := [(b.toNat, 1)] } (fun s u t =>
    let h := (kreg t b.toNat).toNat
    let bind := fun (s : State) => done (fallThrough (modCore s t.core fun c => { c with tbind := h }) u false)
    if h = 0 then bind s
    else
      match txHdr (txStart s (.ctx t.ctx) false) h with
      | (x, hd) =>
        let die := loomDie s (.ctx t.ctx) h
        let pages := pagesUnknown s die t x.pages
        if !pages.isEmpty then done (requestWalkAt s die u pages)
        else
          let s := x.s
          match x.replay, x.hard with
          | some (c, v), _ => done (teamReplay s u c none v)
          | none, some (c, v) => done (teamStop s u c none v)
          | none, none =>
            if x.bad58 || hd.kv || hd.slg != 8 || hd.released then done (teamStop s u 0x5D none 0) else bind s) s

/-- TRACE.flush (R415). -/
def execTraceFlush (_a : KReg) (s : State) : Out :=
  issueOp noAccess (fun s u _ => done (fallThrough (traceAppend s u) u false)) s

/-- TRACE_SYNC_DUE (R418): 4096 clk have passed since the team's last SYNC. -/
def execTraceSyncDue (u : Nat) (s : State) : Out :=
  match find? s.teams u with
  | none => .next s
  | some t =>
    if traced t && syncTime s t then .next (setTeam s u { t with trace := { t.trace with syncDue := true } }) else .next s

/-! ## Hints -/

/-- The six counts of a STALL hint (R44). -/
def stallCounts (f : BitVec 18) : List Nat := (List.range 6).map fun i => field f.toNat (3 * i) 3

/-- The STALL hint (R44, R49): its counts replace every count left. -/
def execHintStall (f : BitVec 18) (s : State) : Out :=
  let u := s.issue.uid
  let s1 := beginGroup s none
  done (fallThrough (modTeam s1 u fun t => { t with counts := stallCounts f }) u false)

/-- The MARK hint (R44, R417): it writes the trace of a traced team. -/
def execHintMark (m : BitVec 16) (s : State) : Out :=
  let u := s.issue.uid
  let s1 := beginGroup s none
  let t := getTeam s1 u
  done (fallThrough (if traced t then traceEmit ⟨t.cur.group, t.flow, t.flow⟩ (.mark m) 12 s1 u else s1) u false)

end Sys2Proof.Machine
end

