-- ==== Sys2Proof/Machine/Ends.lean ====
section
/-! DEFINITION. The end of a team (12 R239, R251, 09 R200, 15 R292) and of an interval team (18 R346-R352): its fills, its
quartered and handed-off tiles; the kill of a team; and the retries of records that wait (22 R407). -/

namespace Sys2Proof.Machine

/-! ## Fills (R346, R347) -/

/-- A list of fills by lane, each lane's in recorded order. -/
def sortFills (l : List Fill) : List Fill := sortKey (fun f => [f.lane]) l

/-- The address of element `e` of a fill, in the order the fill writes (R347). -/
def fillAddr (b : TileBox) (f : Fill) (e : Nat) : Nat := wrapNat 64 (f.origin + f.a * (e / b.w : Nat) + f.b * (e % b.w : Nat))

/-- What one element's write comes to: done, a replayable cause, or a forbidden access. -/
inductive FillPut where
  | ok (s : State)
  | stall (s : State) (cause : Nat)
  | stop (s : State)
  deriving DecidableEq, Repr

/-- A fill's store to a peer is sent, and noted until it is answered (R355). -/
def fillSend (s : State) (t : Team) (slot va x w : Nat) (bs : List Byte) : State :=
  match sendPeer s t.uid t.ctx slot va x ⟨true, bs.map some, none, [], none, w, false⟩ with
  | (s1, i) => modTeam s1 t.uid fun t => { t with asks := t.asks ++ [⟨va, w, i, none⟩] }

/-- Writes one element at its home slice, debited and refunded as an engine write (R209, R347). -/
def fillPut (s : State) (t : Team) (a w v : Nat) : FillPut :=
  let bs := bytesOf w v
  let bytes := List.replicate (a % 256) none ++ bs.map some ++ List.replicate (256 - a % 256 - w) none
  match xlateWalk s t.ctx a .store with
  | .bad c => if c = 0x64 then .stop s else .stall s c
  | .miss => .stop s
  | .ok p leaf =>
    match p with
    | .dev k =>
      let deb := leafDebits leaf
      let paid : State × Bool := if deb then debit8 s (.core t.core) t.ctx else (s, true)
      if paid.2 then
        let die := dieOf t.core
        .ok (storeOver deviceWrites (markDirty (bring paid.1 die t.ctx a) die t.ctx a) t.ctx (.core t.core) deb (k / 256) bytes)
      else .stall paid.1 0x20
    | .host x => .ok (hostStore deviceWrites s x (bs.map some))
    | .peer slot x => .ok (fillSend s t slot a x w bs)
    | .table _ => .stop s

/-- How far a team's fills come: all done, or stalled at a cause and an address. -/
inductive FillRun where
  | done (s : State)
  | stall (s : State) (cause addr f : Nat)
  deriving DecidableEq, Repr

/-- Performs `n` elements of the first fill from element `e`. -/
def fillElems (t : Team) (b : TileBox) (f : Fill) : Nat → State → Nat → FillPut × Nat
  | 0, s, e => (.ok s, e)
  | n + 1, s, e =>
    match fillPut s t (fillAddr b f e) f.width f.val with
    | .ok s1 => fillElems t b f n s1 (e + 1)
    | r => (r, e)

/-- Performs a team's fills in order (R347); one that meets a forbidden access stops, and its tile is handed off. A stall is over once
its access has been made (R289). -/
def fillRun : Nat → State → Nat → FillRun
  | 0, s, _ => .done s
  | fuel + 1, s, u =>
    let t := getTeam s u
    match t.fills with
    | [] => .done s
    | f :: rest =>
      let b := tileBox (teamKernel s t) (tileOf t f.lane)
      match fillElems t b f (b.h * b.w - t.fillDone) s t.fillDone with
      | (.ok s1, _) => fillRun fuel (modTeam s1 u fun t => { t with fills := rest, fillDone := 0, fillStall := none }) u
      | (.stop s1, _) =>
        fillRun fuel (modTeam s1 u fun t => { t with
          fills := rest.filter fun g => g.lane != f.lane, fillDone := 0, fillStall := none
          fates := t.fates ++ [(f.lane, .handoff 3)] }) u
      | (.stall s1 c, e) =>
        let past := fun (t : Team) => if e = t.fillDone then t else { t with fillDone := e, fillStall := none }
        .stall (modTeam s1 u past) c (fillAddr b f e) (e * f.width)

/-- The record of a stalled fill or hand-off append (R450). -/
def endRec (s : State) (u cause addr f : Nat) : FaultRec :=
  { teamRec s u cause none addr with pc := (getTeam s u).endPc, w5 := f + 2 ^ 63 }

/-- A fill or an append stalls (R347, R289): a retry that meets the same cause writes no new record. -/
def endStall (s : State) (u cause addr f : Nat) : State :=
  let s1 := if (getTeam s u).fillStall = some cause then s else pushRec s (endRec s u cause addr f)
  modTeam s1 u fun t => { t with fillStall := some cause }

/-- What has been written since `s0` for a kernel's tiles, its completion record releases (R355). -/
def kernelMade (s0 s : State) (kid : Nat) : State :=
  if s0.nextWrite = s.nextWrite then s else modKernel s kid fun k => { k with made := joinSeen k.made (madeSince s0 s) }

/-- Whether a lane has settled its tile (R347): it has exited, and no fate awaits the tile. -/
def laneSettled (t : Team) (i : Nat) : Bool := laneState t.flow i == .exited && !(t.fates.any fun e => e.1 == i)

/-- The fills of the settled lanes of an ending team, in the order of their lanes (R347); those of other lanes are discarded
(log 28, DEDUCED). -/
def doFills (s : State) (u : Nat) : State × Bool :=
  let s1 := modTeam s u fun t => { t with fills := sortFills (t.fills.filter fun f => laneSettled t f.lane) }
  let kid := (getTeam s1 u).kid
  match fillRun ((getTeam s1 u).fills.length + 1) s1 u with
  | .done s2 => (modTeam (kernelMade s1 s2 kid) u fun t => { t with fillStall := none }, true)
  | .stall s2 c a f => (endStall (kernelMade s1 s2 kid) u c a f, false)

/-! ## Quartered and handed-off tiles (R348-R352) -/

/-- The subtile of a quadrant (R349). -/
def subTile (x : TileId) (q : Nat) : TileId := ⟨x.g, x.depth + 1, x.path + q * 4 ^ x.depth⟩

/-- The open quarter team of an ending team: the last it made, when that has a lane to spare. -/
def openQuarter (s : State) (t : Team) : Option Team :=
  match ((s.teams.map (·.2)).filter fun q => q.kid == t.kid && q.kind == .quarter && q.parent == t.id && q.status == .unplaced &&
      q.cur.uid == 0).getLast? with
  | some q => if q.tiles.length < q.lanes then some q else none
  | none => none

/-- Packs one subtile into the open quarter team, or into a new one that takes its identifier now (R348). -/
def packTile (s : State) (t : Team) (x : TileId) : State :=
  let k := teamKernel s t
  match openQuarter s t with
  | some q =>
    setTeam s q.uid (startInterval k (q.tiles ++ [(q.tiles.length, x)]) (makeTeam k q.uid q.id .quarter k.entry t.id []))
  | none =>
    let u := s.nextUid
    let s1 := setTeam s u (startInterval k [(0, x)] (makeTeam k u k.nextId .quarter k.entry t.id []))
    modKernel { s1 with nextUid := u + 1 } t.kid fun k => { k with nextId := k.nextId + 1 }

/-- The hand-off teams of a committed record (R351): they take their identifiers now, in order, and their first issues acquire its
commit. -/
def makeHandoffs (s : State) (t : Team) (x : TileId) (slot : Nat) (v : View) : State :=
  let b := tileBox (teamKernel s t) x
  (List.range (ceilDiv (b.h * b.w) t.lanes)).foldl (fun s j =>
    let k := teamKernel s t
    let u := s.nextUid
    let t1 := startElements b j (makeTeam k u k.nextId (.handoff j slot) k.entry t.id [])
    let s1 := setTeam s u { t1 with start := joinView t1.start v }
    modKernel { s1 with nextUid := u + 1 } t.kid fun k => { k with nextId := k.nextId + 1 }) s

/-- The two words of a hand-off record (R350). -/
def handoffBytes (b : TileBox) (x : TileId) (reason : Nat) : List Byte :=
  bytesOf 8 (x.g % 2 ^ 32 + x.depth * 2 ^ 32 + x.path * 2 ^ 34 + reason * 2 ^ 40) ++
    bytesOf 8 (b.row0 % 2 ^ 32 + b.col0 * 2 ^ 32 + (b.h - 1) * 2 ^ 38 + (b.w - 1) * 2 ^ 44)

/-- How the append of a hand-off record ends (R352). -/
inductive Appended where
  | ok (s : State) (slot : Nat)
  | wait
  | stall (cause addr : Nat) (s : State)
  | dropped (why : Nat)
  deriving DecidableEq, Repr

/-- Appends a record to HOFF (R350, R352): `why` is the status or the cause in its place in w5 of 0x84
(log 28, DEDUCED; log 55, DEDUCED). -/
def handoffTry (s : State) (t : Team) (h : Nat) (bytes : List Byte) : Appended :=
  let sp := Space.ctx t.ctx
  let cause := fun (c : Nat) => Appended.dropped (c * 2 ^ 40 + 2 ^ 48)
  match txHdr (txStart s sp false) h with
  | (t1, hd) =>
    match txCause t1 with
    | some (c, a) => if t1.replay.isSome then .stall c a s else cause c
    | none =>
      if t1.bad58 || hd.kv || hd.queue || hd.slg != 4 then cause 0x58
      else
        match reserveStatus hd 1 with
        | some c => if c = 3 ∨ c = 9 then .wait else .dropped (c * 2 ^ 40)
        | none =>
          let t3 := txSetFill (txPutLong 2 t1 (flatSlot hd hd.rl) bytes) hd hd.rl true
          match txAdvance hd (hd.rl + 1 - hd.cl) t3 hd.cl with
          | (t4, cl) =>
            match txFinish (txLens t4 hd cl (hd.rl + 1)) (loomDie s sp h) (.core t.core) with
            | .done s1 => .ok (if cl = hd.cl then s1 else afterCl s1 sp h cl) hd.rl
            | .fault c a s1 => if c = 0x01 ∨ c = 0x02 ∨ c = 0x20 ∨ c = 0x21 then .stall c a s1 else cause c

/-- The fates of an ending team in lane order. -/
def sortFates (l : List (Nat × Fate)) : List (Nat × Fate) := sortKey (fun e => [e.1]) l

/-- A turn is over. -/
def turnDone (s : State) (u : Nat) : State :=
  modTeam s u fun t => { t with fates := (sortFates t.fates).drop 1, fillStall := none }

/-- The turns of quartered lanes, up to the first handed-off one (R348). -/
def quarterTurns : Nat → State → Nat → State
  | 0, s, _ => s
  | fuel + 1, s, u =>
    let t := getTeam s u
    match sortFates t.fates with
    | (lane, .quartered) :: _ =>
      quarterTurns fuel (turnDone ([0, 1, 2, 3].foldl (fun s q => packTile s t (subTile (tileOf t lane) q)) s) u) u
    | _ => s

/-- The turn of a handed-off lane (R348, R352). -/
def handoffTurn (s : State) (u lane reason : Nat) : State :=
  let t := getTeam s u
  let k := teamKernel s t
  let x := tileOf t lane
  match handoffTry s t k.hoff (handoffBytes (tileBox k x) x reason) with
  | .ok s1 slot =>
    let v : View := ⟨madeSince s s1, 0⟩
    let s2 := addSeqRel (kernelMade s s1 t.kid) t.ctx k.hoff (slot + 1) v
    turnDone (makeHandoffs s2 t x slot v) u
  | .wait => s
  | .stall c a s1 => endStall s1 u c a 0
  | .dropped why =>
    turnDone (pushRec s { teamRec s u 0x84 none 0 with
      pc := t.endPc, w5 := x.g % 2 ^ 32 + tileCode x % 2 ^ 8 * 2 ^ 32 + why }) u

/-! ## The end (R239, R251, R292) -/

/-- The record kept of a team that has ended. -/
def endedTeam (t : Team) : Team :=
  { Team.blank with
    uid := t.uid, kid := t.kid, id := t.id, kind := t.kind, ctx := t.ctx, core := t.core, part := t.part, lanes := t.lanes
    allot := t.allot, status := .ended }

/-- Frees what an ended team held, decrements its join count, which is a release at .dev, and completes its kernel when it was the last
(R239, R251). A team that
STEP was to let issue alone stops its core again (R410) (log 37, DEDUCED). -/
def endTeam (s : State) (u : Nat) : State :=
  let t := getTeam s u
  let drop := fun (c : Core) => { c with matDone := c.matDone.filter fun o => o.uid != u }
  let s1 := modCore s t.core drop
  let s2 := if t.core % 2 = 0 then modCore s1 (t.core + 1) drop else s1
  let s3 : State := { setTeam s2 u (endedTeam t) with
    teams := (setTeam s2 u (endedTeam t)).teams.map fun e => (e.1, { e.2 with yielded := e.2.yielded.filter (· != u) }) }
  let s4 := flushLate s3 u t.core
  let s5 := if t.jv && (getCore s4 t.parentCore).ctx == t.ctx then joinEnd s4 t.parentCore t.jl (teamView s u) else s4
  let s6 := kernelEnd s5 t.kid
  if t.stepOnce then stepStop s6 u else s6

/-- Whether an ending team may go on ending: nothing of it is outstanding, and its core is not stopped (log 28, DEDUCED). -/
def mayEnd (s : State) (u : Nat) : Bool :=
  let t := getTeam s u
  (find? s.teams u).isSome && t.status == .ending && t.placed && (getCore s t.core).stop.isNone && t.pend.isEmpty &&
    !(matBusy s t.core u) && !(copyBusy s t.core u)

/-- Whether a fill of a team that went to a peer is not answered yet (R339, R355). -/
def fillSent (s : State) (t : Team) : Bool := t.asks.any fun a => s.peers.any fun r => r.id == a.id && r.failed.isNone

/-- A team ends, once its operations have retired and its commands have counted their last bytes: a failure that no MWAIT has
reported stops it first (R200); then come its fills, and once peers have answered theirs the turns of its lanes (R347, R348) (log 28,
DEDUCED). -/
def endStep (s : State) (u : Nat) : State :=
  match firstFail (getTeam s u).failed with
  | some f => failStop s u f
  | none =>
    match doFills s u with
    | (s1, false) => s1
    | (s1, true) =>
      let s2 := quarterTurns ((getTeam s1 u).fates.length + 1) s1 u
      if fillSent s1 (getTeam s1 u) then s1 else if (getTeam s2 u).fates.isEmpty then endTeam s2 u else s2

/-- TEAM_END (R239) (log 28, DEDUCED). -/
def execTeamEnd (u : Nat) (s : State) : Out :=
  if mayEnd s u ∧ (getTeam s u).fillStall = none then done (endStep s u) else .next s

/-- FILL_RETRY (R347): a stalled fill tries its access again. -/
def execFillRetry (u : Nat) (s : State) : Out :=
  let t := getTeam s u
  if mayEnd s u ∧ t.fillStall.isSome ∧ !t.fills.isEmpty then done (endStep s u) else .next s

/-- HANDOFF_APPEND (R352): the next turn's record, once the fills and the turns before it are done. -/
def execHandoffAppend (u : Nat) (s : State) : Out :=
  let t := getTeam s u
  if mayEnd s u ∧ t.fills.isEmpty ∧ fillSent s t = false then
    match sortFates t.fates with
    | (lane, .handoff r) :: _ => done (handoffTurn s u lane r)
    | _ => .next s
  else .next s

/-! ## Killing a team (R201, R239, R292) -/

/-- The quarter teams that an ending team has made and that may not yet be placed (log 25, DEDUCED). -/
def heldQuarters (s : State) (t : Team) : List Nat :=
  if t.status = .ending then
    (s.teams.filter fun e => e.2.kid == t.kid && e.2.kind == .quarter && e.2.parent == t.id && e.2.status == .unplaced).map (·.1)
  else []

/-- A team is killed: its log is discarded, its operations and its commands are abandoned, and its kernel completes with STATUS
4 (log 25, DEDUCED). -/
def killTeam (s : State) (u : Nat) : State :=
  let t := getTeam s u
  if t.status = .ended then s
  else
    let s1 := modKernel s t.kid fun k => { k with killed := true }
    let s2 := (heldQuarters s1 t).foldl (fun s q => modTeam s q endedTeam) s1
    let s3 := copyKill (matKill (abortRegion (traceAppend s2 u) u) t.core u) t.core u
    let s4 := modCtx (dropWalks s3 u) t.ctx fun c => { c with openRecs := c.openRecs.filter fun e => e.2 != u }
    settleStop (endTeam s4 u) t.core

/-! ## Records that wait (R407) -/

/-- APPEND_RETRY (R407): the waiting fault or event records, and the completion records, of a context are tried again. -/
def execAppendRetry (ctx : Nat) (s : State) : Out :=
  if ctx = 0 then done { s with evDue := !s.evPend.isEmpty }
  else if (getCtx s ctx).st = .free then .next s
  else done (flushCpls (modCtx s ctx fun c => { c with due := !c.pend.isEmpty }) ctx)

end Sys2Proof.Machine
end

