-- ==== Sys2Proof/Machine/Image.lean ====
section
/-! DEFINITION. The images of the save area (10 R205, R220-R222, 14 R266, 15 R292): a lock, a core section, a team record and the
descriptor as words and bytes, and back. -/

namespace Sys2Proof.Machine

/-- A number from a Boolean. -/
def bitNat (b : Bool) : Nat := if b then 1 else 0

/-- The bytes of 64-bit words. -/
def wordBytes (ws : List Nat) : List Byte := (ws.map (bytesOf 8)).flatten

/-- A run of bytes followed by zeros up to a length. -/
def padTo (n : Nat) (bs : List Byte) : List Byte := bs ++ List.replicate (n - bs.length) 0#8

/-- A run of bytes followed by zeros up to a multiple. -/
def padUp (m : Nat) (bs : List Byte) : List Byte := padTo (ceilDiv bs.length m * m) bs

/-! ## Locks (R266) -/

/-- A lock as d0 to d3. -/
def lockWords (l : Lock) : List Nat :=
  let st := match l.st with | .invalid => 0 | .valid => 1 | .broken => 2
  [l.phase.toNat + st * 2 ^ 32 + bitNat l.gate * 2 ^ 34 + bitNat l.gv * 2 ^ 35 + l.grp * 2 ^ 36 + l.joinc * 2 ^ 44,
    l.na + l.nd * 2 ^ 16 + l.penda * 2 ^ 32 + l.eng * 2 ^ 48, l.bexp, l.bdone]

/-- A lock from d0 to d3; STATE 3 is not produced, and reads as BROKEN. -/
def lockOf (ws : List Nat) : Lock :=
  let d0 := nth 0 ws 0
  let d1 := nth 0 ws 1
  { phase := BitVec.ofNat 32 d0, st := if field d0 32 2 = 0 then .invalid else if field d0 32 2 = 1 then .valid else .broken
    gate := bitAt d0 34, gv := bitAt d0 35, grp := field d0 36 8, joinc := field d0 44 16, na := field d1 0 16
    nd := field d1 16 16, penda := field d1 32 16, eng := field d1 48 16, bexp := field (nth 0 ws 2) 0 40
    bdone := field (nth 0 ws 3) 0 40, rels := [], joined := ⟨[], 0⟩ }

/-! ## Core sections (R222, R292) -/

/-- The code of a COPY form (R279). -/
def formCode : CopyForm → Nat
  | .tensor => 0
  | .stream => 1
  | .mx6e4m3 => 2
  | .mx6bf16 => 3
  | .decomp => 4
def formOf : Nat → CopyForm
  | 0 => .tensor
  | 1 => .stream
  | 2 => .mx6e4m3
  | 3 => .mx6bf16
  | _ => .decomp

/-- The queued commands of a core with their queues, in queue order, then command order. -/
def copiesOf (c : Core) : List (Nat × CopyCmd) := (c.copyQ.zipIdx.map fun e => e.1.map fun x => (e.2, x)).flatten

/-- A saved copy command (R292). -/
def copyWords (e : Nat × CopyCmd) : List Nat :=
  let c := e.2
  [c.w0.toNat, c.w1.toNat, c.w2.toNat, c.w3.toNat, c.off,
    formCode c.form + e.1 * 2 ^ 3 + c.lock % 64 * 2 ^ 5 + c.stall.getD 0 * 2 ^ 16, c.team]

/-- A deque entry: its entry address and eight argument words in 80 bytes. -/
def taskWords (x : Task) : List Nat := x.entry :: (List.range 8).map (fun i => (nth 0#64 x.args i).toNat) ++ [0]

/-- A tile and its row pair: 16384 bytes of elements, then its row pair, of which R222 does not say which
row comes first: the maxima, then the sums (log 71, DESIGN CHOICE). -/
def tileBytes (c : Core) (t : Nat) : List Byte :=
  let els := (rangeFrom (tileKey t 0 0) 4096).map fun k => (tabGet 0#32 c.tile k).toNat
  let row := fun (r : Tab W32) => (rangeFrom (rowPairKey t 0) 64).map fun k => (tabGet 0#32 r k).toNat
  ((els ++ row c.rowM ++ row c.rowL).map (bytesOf 4)).flatten

/-- A committed-length register as a core section holds it: its binding (R309). -/
def clWord (r : ClReg) : Nat := match r.bound with | none => 0 | some h => h % 2 ^ 56 + 2 ^ 63
def clBound (w : Nat) : Option Nat := if bitAt w 63 then some (field w 0 56) else none

/-- A core section (R222). -/
def coreSection (n : Nat) (c : Core) : List Byte :=
  let copies := copiesOf c
  let head := wordBytes [n + c.word % 2 ^ 32 * 2 ^ 8 + c.deque.length * 2 ^ 40 + copies.length * 2 ^ 50, c.ctx, 0, c.tbind, 0, 0, 0, 0]
  let locks := wordBytes ((List.range 64).map fun i => lockWords (tabGet Lock.reset c.locks i)).flatten
  let cls := wordBytes ((List.range 16).map fun i => clWord (tabGet ClReg.reset c.cl i))
  let deque := padTo 40960 (wordBytes (c.deque.reverse.map taskWords).flatten)
  let saved := padTo 1856 (wordBytes (copies.map copyWords).flatten)
  let spad := (List.range (spgBytes c.word)).map (tabGet 0#8 c.spad)
  let tiles := ((List.range (actTiles c.word)).map (tileBytes c)).flatten
  padUp 4096 (head ++ locks ++ cls ++ deque ++ saved ++ spad ++ tiles)

/-- The bytes a section takes for a partition word. -/
def sectionSize (word : Nat) : Nat := ceilDiv (0xB000 + spgBytes word + 16896 * actTiles word) 4096 * 4096

/-- A core from a section, over what the device keeps of it: the parts that the layout holds are the section's. -/
def sectionCore (held : Core) (bs : List Byte) : Core :=
  let ws := wordsOf (bs.take 0xB000)
  let word := field (nth 0 ws 0) 8 20
  let w := fun (i : Nat) => nth 0 ws i
  let locks := (List.range 64).foldl (fun t i =>
    let l := tabGet Lock.reset held.locks i
    tabSet Lock.reset t i { lockOf [w (8 + 4 * i), w (9 + 4 * i), w (10 + 4 * i), w (11 + 4 * i)] with
      rels := l.rels, joined := l.joined }) []
  let cl := (List.range 16).foldl (fun t i =>
    tabSet ClReg.reset t i { tabGet ClReg.reset held.cl i with bound := clBound (w (264 + i)) }) []
  let tasks := (held.deque.reverse.zipIdx.take (field (w 0) 40 10)).map fun e =>
    { e.1 with entry := field (w (280 + 10 * e.2)) 0 56, args := (rangeFrom (281 + 10 * e.2) 8).map fun i => BitVec.ofNat 64 (w i) }
  let copies := ((copiesOf held).zipIdx.take (field (w 0) 50 6)).map fun e =>
    let b := 5400 + 7 * e.2
    let x := w (b + 5)
    let c := e.1.2
    (field x 3 2, { c with
      w0 := BitVec.ofNat 64 (w b), w1 := BitVec.ofNat 64 (w (b + 1)), w2 := BitVec.ofNat 64 (w (b + 2))
      w3 := BitVec.ofNat 64 (w (b + 3)), off := field (w (b + 4)) 0 40, form := formOf (field x 0 3), lock := if c.lock = 64 then 64 else field x 5 6
      stall := if field x 16 8 = 0 then none else some (field x 16 8), retryAt := 0, team := field (w (b + 6)) 0 32 })
  let spad := ((bs.drop 0xB000).take (spgBytes word)).zipIdx.foldl (fun t e => tabSet 0#8 t e.2 e.1) []
  let els := blockWords 4 (4224 * actTiles word) (bs.drop (0xB000 + spgBytes word))
  let part := fun (lo len : Nat) (key : Nat → Nat → Nat) => els.zipIdx.foldl (fun t e =>
    let i := e.2 % 4224
    if lo ≤ i ∧ i < lo + len then tabSet 0#32 t (key (e.2 / 4224) (i - lo)) (BitVec.ofNat 32 e.1) else t) []
  { held with
    word := word, tbind := w 3, locks := locks, cl := cl, deque := tasks.reverse
    copyQ := [0, 1, 2, 3].map fun q => (copies.filter fun e => e.1 == q).map (·.2)
    spad := spad, tile := part 0 4096 (fun t i => tileKey t 0 0 + i), rowM := part 4096 64 (fun t i => rowPairKey t 0 + i)
    rowL := part 4160 64 (fun t i => rowPairKey t 0 + i) }

/-! ## Team records (R222) -/

/-- The two words an interval register is saved in. R222 says doubled and no more: the low and the high end it holds, or its bits twice
(log 71, DESIGN CHOICE). -/
def ivWords (t : Team) (lane r : Nat) : Nat × Nat :=
  match ivreg t lane r with
  | .iv _ lo hi _ _ => (wrapNat 32 lo, wrapNat 32 hi)
  | _ => ((vreg t lane r).toNat, (vreg t lane r).toNat)

/-- A lane's word: its resume address, depth and state. -/
def laneWord (fl : Flow) (i : Nat) : Nat :=
  match laneState fl i with
  | .active => 0
  | .waiting r d => r % 2 ^ 56 + d * 2 ^ 56 + 2 ^ 62
  | .held => 2 ^ 63
  | .exited => 2 ^ 63 + 2 ^ 62

/-- The state a lane's word stands for. -/
def laneOf (w : Nat) : LaneState :=
  match field w 62 2 with
  | 0 => .active
  | 1 => .waiting (field w 0 56) (field w 56 6)
  | 2 => .held
  | _ => .exited

/-- The header of a team record. -/
def teamHeader (t : Team) : List Nat :=
  let fl := t.snap
  let lp := fun i => nth LoopEntry.reset fl.loops i
  let parked := t.status == .parked
  [t.id % 2 ^ 32 + (t.lanes - 1) * 2 ^ 32 + t.allot * 2 ^ 42 + t.core * 2 ^ 50 + t.part * 2 ^ 58 + bitNat t.bounds * 2 ^ 60 +
      bitNat t.trace.on * 2 ^ 61 + bitNat parked * 2 ^ 62,
    fl.pc, fl.x + fl.depth * 2 ^ 8 + t.batch % 2 ^ 32 * 2 ^ 32, (lp 0).ctr.toNat + (lp 1).ctr.toNat * 2 ^ 32,
    (lp 2).ctr.toNat + bitNat (lp 0).on * 2 ^ 32 + bitNat (lp 1).on * 2 ^ 33 + bitNat (lp 2).on * 2 ^ 34 + (lp 0).depth * 2 ^ 35 +
      (lp 1).depth * 2 ^ 41 + (lp 2).depth * 2 ^ 47] ++
    ([0, 1, 2].map fun i => (lp i).start % 2 ^ 56 + ((lp i).len - 1) % 256 * 2 ^ 56) ++
    [t.svFault.cause % 256 + bitNat t.svFault.fv * 2 ^ 8 + t.svFault.slot % 2 ^ 32 * 2 ^ 32, 0, 0, 0, 0, 0, 0, 0]

/-- The vector registers of a team record, by lane and then by register. -/
def teamVWords (t : Team) : List Nat :=
  ((List.range t.lanes).map fun i => ((List.range t.allot).map fun r =>
    if t.bounds then [(ivWords t i r).1, (ivWords t i r).2] else [(vreg t i r).toNat]).flatten).flatten

/-- A team record (R222): the state at the team's snapshot (log 38, DEDUCED). -/
def teamRecord (t : Team) : List Byte :=
  let em := ((List.range 32).map (emWord t.lanes t.snap) ++ [emSummary t.lanes t.snap]).map (bytesOf 4)
  let preds := (List.range t.lanes).map fun i =>
    BitVec.ofNat 8 ((List.range 8).foldl (fun a p => a + bitNat (preg t i p) * 2 ^ p) 0)
  padUp 256 (wordBytes (teamHeader t) ++ padTo 192 em.flatten ++ wordBytes ((List.range t.lanes).map (laneWord t.snap)) ++ preds ++
    wordBytes ((List.range 384).map fun i => (kreg t i).toNat) ++ ((teamVWords t).map (bytesOf 4)).flatten)

/-- The divergence state that a record holds; a team with no active lane is in uniform-only mode (R140). -/
def recordFlow (lanes : Nat) (bs : List Byte) : Flow :=
  let ws := wordsOf (bs.take 128)
  let w := fun i => nth 0 ws i
  let ls := blockWords 8 lanes (bs.drop 320)
  let tab := ls.zipIdx.foldl (fun t e => tabSet LaneState.active t e.2 (laneOf e.1)) []
  let lp := fun (i : Nat) (c : Nat) => (⟨BitVec.ofNat 32 c, bitAt (w 4) (32 + i), field (w (5 + i)) 0 56,
    field (w (5 + i)) 56 8 + 1, field (w 4) (35 + 6 * i) 6⟩ : LoopEntry)
  let fl : Flow :=
    { pc := field (w 1) 0 56, lanes := tab, depth := field (w 2) 8 6, x := field (w 2) 0 8
      loops := [lp 0 (field (w 3) 0 32), lp 1 (field (w 3) 32 32), lp 2 (field (w 4) 0 32)], uni := false }
  { fl with uni := (activeLanes lanes fl).isEmpty }

/-- A team from its record, over what the device keeps of it: the registers and the state at the snapshot are the record's
(log 38, DEDUCED). -/
def recordTeam (held : Team) (bs : List Byte) : Team :=
  let ws := wordsOf (bs.take 128)
  let w := fun i => nth 0 ws i
  let fl := recordFlow held.lanes bs
  let at_ := 320 + 8 * held.lanes
  let ps := (bs.drop at_).take held.lanes
  let ks := blockWords 8 384 (bs.drop (at_ + held.lanes))
  let vs := blockWords 4 (held.lanes * held.allot * (if held.bounds then 2 else 1)) (bs.drop (at_ + held.lanes + 3072))
  let p := ps.zipIdx.foldl (fun t e => (rangeFrom 1 7).foldl (fun t j => tabSet false t (e.2 * 8 + j) (bitAt e.1.toNat j)) t) []
  let k := ks.zipIdx.foldl (fun t e => if e.2 = 0 then t else tabSet 0#64 t e.2 (BitVec.ofNat 64 e.1)) []
  let t1 : Team := { held with
    snap := fl, p := p, k := k, batch := field (w 2) 32 32
    svFault := ⟨field (w 8) 0 8, bitAt (w 8) 8, field (w 8) 32 32⟩, trace := { held.trace with on := bitAt (w 0) 61 } }
  if held.bounds then
    (List.range (held.lanes * held.allot)).foldl (fun t i =>
      let lane := i / held.allot
      let r := i % held.allot
      let a := nth 0 vs (2 * i)
      let b := nth 0 vs (2 * i + 1)
      if (a, b) = ivWords held lane r then t
      else ivSet t lane (if a = b then outPoint r (BitVec.ofNat 32 a) else outFull r)) t1
  else
    { t1 with v := vs.zipIdx.foldl (fun t e =>
        tabSet 0#32 t (vkey (e.2 / held.allot) (e.2 % held.allot)) (BitVec.ofNat 32 e.1)) [] }

/-- The bytes of a team's record. -/
def recordSize (t : Team) : Nat :=
  ceilDiv (3392 + 9 * t.lanes + 4 * t.lanes * t.allot * (if t.bounds then 2 else 1)) 256 * 256

/-! ## The descriptor (R205) -/

/-- A context's descriptor with its counts. -/
def descWords (id : Nat) (c : Ctx) : List Nat :=
  [id + bitNat c.conf * 2 ^ 16 + c.ratio * 2 ^ 24, c.ptroot, c.grant, c.alloc, c.pool, c.z + c.wmark * 2 ^ 16, c.fq, c.savea,
    c.infl, c.mapped, 0, 0, 0, 0, 0, 0]

end Sys2Proof.Machine
end

