-- ==== Sys2Proof/Machine/Command.lean ====
section
/-! DEFINITION. What the control, page-command and core-command sequences share (10 R218, 19 R365, 22 R410, 25 R445): the fields of
a packet, the statuses, the replies, what is tried again after a command, and the freeing of a page's blocks. -/

namespace Sys2Proof.Machine

/-- The opcode and the CTXID of a packet. -/
def pktOp (p : Packet) : Nat := field p.w0.toNat 0 8
def pktCtx (p : Packet) : Nat := field p.w0.toNat 16 16

/-- Whether the bits of w0 that no command names are 0. -/
def pktHead (p : Packet) : Bool := field p.w0.toNat 8 8 == 0 && field p.w0.toNat 32 32 == 0

/-- The statuses of a reply (R218, R365). -/
inductive Status where
  | ok | badop | badstate | nospace | baddesc | core | promise | busy
  deriving DecidableEq, Repr

/-- The code of a status. -/
def Status.code : Status → Nat
  | .ok => 0
  | .badop => 1
  | .badstate => 2
  | .nospace => 3
  | .baddesc => 4
  | .core => 5
  | .promise => 6
  | .busy => 7

/-- Appends the replies that wait, in order, until one cannot be appended. -/
def flushReplies : Nat → State → State
  | 0, s => s
  | fuel + 1, s =>
    match s.replies with
    | [] => s
    | r :: rest =>
      match appendSlot s .table .pool s.mgmt.replyq 6 (bytesOfWords r) with
      | none => s
      | some (s1, _) => flushReplies fuel { s1 with replies := rest }

/-- The words of a reply (R218). -/
def replyWords (op id slot : Nat) (st : Status) (result : Nat) : List W64 :=
  ([st.code + op % 256 * 2 ^ 8 + id % 2 ^ 16 * 2 ^ 16, result, slot, 0, 0, 0, 0, 0]).map (BitVec.ofNat 64)

/-- A reply is formed and appended when it can be. -/
def replyTo (s : State) (op id slot : Nat) (st : Status) (result : Nat) : State :=
  let s1 := { s with replies := s.replies ++ [replyWords op id slot st result] }
  flushReplies s1.replies.length s1

/-- Whether an opcode is that of a page command (R365). -/
def pageOp (op : Nat) : Bool := decide (0x10 ≤ op) && decide (op ≤ 0x14)

/-- What is tried again after a command that names a context (R225, R230, R289, R407); a queue that could not be read, only after a page
command (R460). -/
def afterCommand (s : State) (op id : Nat) : State :=
  if (getCtx s id).st = .free then s
  else
    let s1 := modCtx (copyDue s id) id fun c => { c with due := !c.pend.isEmpty }
    flushCpls (allQueueWrites (readAgain s1 fun q => pageOp op && q.ctx == id)) id

/-- A command completes with a status and a result. -/
def finishCmd (s : State) (p : Packet) (st : Status) (result : Nat) : Out :=
  done (replyTo (afterCommand s (pktOp p) (pktCtx p)) (pktOp p) (pktCtx p) p.slot st result)

/-- Whether the device performs commands of a kind now (R445, R447) (log 10, DESIGN CHOICE). -/
def performs (s : State) (power : Bool) : Bool := s.mgmt.bootok && (power || s.mgmt.pstate != 2)

/-! ## The blocks of a page (R369, R371, R372, R374) -/

/-- The first block of a device leaf's page, and how many blocks it has. -/
def leafBlock (l : Nat) : Nat := leafFrame l * 256
def blocksIn (size : Nat) : Nat := size / 256

/-- The metadata entries of a run of blocks. -/
def metasOf (s : State) (b n : Nat) : List (Nat × BlockMeta) := tabKeep s.metas b (b + n)

/-- The sectors that a run of blocks holds. -/
def sectorsOf (s : State) (b n : Nat) : Nat := (metasOf s b n).foldl (fun a e => a + e.2.len) 0

/-- The pound lets go of a run of blocks. -/
def poundDropRun (s : State) (b n : Nat) : State :=
  let keep := fun (ls : List (List PoundBlk)) =>
    (ls.map fun l => l.filter fun k => decide (k.b < b) || decide (b + n ≤ k.b)).filter fun l => !l.isEmpty
  { s with pound := tabSetAll [] [] (s.pound.map fun e => (e.1, keep e.2)) }

/-- No operation has a destination any longer in `n` blocks of a memory, from block `b` on: they hold another page now, or none (R194). -/
def dropDest (s : State) (kind b n : Nat) : State :=
  let keep := fun (x : Nat × Nat) => !(x.1 == kind && decide (b ≤ x.2) && decide (x.2 < b + n))
  let one := fun (o : MOp) => { o with destBlocks := o.destBlocks.filter keep }
  { s with cores := s.cores.map fun e => (e.1, { e.2 with matQ := e.2.matQ.map (·.map one), matDone := e.2.matDone.map one }) }

/-- The blocks of a page have moved to another memory, and the destinations of operations with them (R194, R368). -/
def moveDest (s : State) (src dst : Nat × Nat) (n : Nat) : State :=
  let at_ := fun (x : Nat × Nat) =>
    if x.1 = src.1 ∧ src.2 ≤ x.2 ∧ x.2 < src.2 + n then (dst.1, x.2 - src.2 + dst.2) else x
  let one := fun (o : MOp) => { o with destBlocks := o.destBlocks.map at_ }
  { s with cores := s.cores.map fun e => (e.1, { e.2 with matQ := e.2.matQ.map (·.map one), matDone := e.2.matDone.map one }) }

/-- Frees every run of a page's blocks: they become ZERO and hold nothing. -/
def freeBlocks (s0 : State) (b n : Nat) : State :=
  let s := dropDest s0 0 b n
  let es := metasOf s b n
  let s1 := forgetGrains (poundDropRun (es.foldl (fun s e => bumpSeq s e.2.run e.2.len) s) b n) (b * 16) (n * 16)
  { s1 with metas := tabDrop s1.metas b (b + n), mem := tabDrop s1.mem (b * 256) ((b + n) * 256) }

/-- Sectors of a context's runs return to POOL. -/
def releaseRuns (s : State) (id n : Nat) : State :=
  if n = 0 then s else enterPool (modCtx s id fun c => { c with alloc := c.alloc - n }) id n

/-- The present entries of a table of `n` slots: their indices, the entries and the addresses of their slots. -/
def tableSlots (s : State) (base n : Nat) : List (Nat × Nat × Nat) :=
  (List.range n).filterMap fun i =>
    let e := tableWord s (base + 16 * i)
    if bitAt e 0 then some (i, e, base + 16 * i) else none

/-- The leaves of an L1 table at a virtual base. -/
def leavesL1 (s : State) (t1 va : Nat) : List Leaf :=
  ((tableSlots s t1 2048).map fun e =>
    let base := va + e.1 * 2 ^ 21
    if bitAt e.2.1 1 then (if leafOk true e.2.1 then [(⟨e.2.1, e.2.2, base, 2 ^ 21⟩ : Leaf)] else [])
    else
      match ptrTable 512 e.2.1 with
      | none => []
      | some t0 => (tableSlots s t0 32).filterMap fun x =>
          if leafOk false x.2.1 then some ⟨x.2.1, x.2.2, base + x.1 * 65536, 65536⟩ else none).flatten

/-- Every leaf of a context's page table (R357). -/
def ctxLeaves (s : State) (id : Nat) : List Leaf :=
  ((tableSlots s (getCtx s id).ptroot 4096).map fun e3 =>
    match ptrTable 65536 e3.2.1 with
    | none => []
    | some t2 => ((tableSlots s t2 4096).map fun e2 =>
        match ptrTable 32768 e2.2.1 with
        | none => []
        | some t1 => leavesL1 s t1 (e3.1 * 2 ^ 44 + e2.1 * 2 ^ 32)).flatten).flatten

end Sys2Proof.Machine
end

