-- ==== Sys2Proof/Machine/Context.lean ====
section
/-! DEFINITION. The commands of the control sequence (10 R203-R223, 25 R445-R447): CREATE, DESTROY, DEFLATE, INFLATE, RESOLVE, SAVE,
RESTORE and POWER. -/

namespace Sys2Proof.Machine

/-! ## Form and state (R204, R218) -/

/-- The form of a control packet: `operand` says that its row of R218 gives w1 a meaning. -/
def ctlForm (p : Packet) (operand : Bool) : Bool :=
  pktHead p && (operand || p.w1 == 0#64) && p.w2 == 0#64 && p.w3 == 0#64 && p.w4 == 0#64 && p.w5 == 0#64 && p.w6 == 0#64 &&
    p.w7 == 0#64

/-- A control command that names a context: its form, the states that allow it, and what it does. A packet with another opcode is
no packet of the command (log 10, DESIGN CHOICE). -/
def ctlCmd (p : Packet) (op : Nat) (operand : Bool) (states : List CtxSt) (act : State → Nat → Ctx → Out) (s : State) : Out :=
  let c := getCtx s (pktCtx p)
  if !(performs s false) || pktOp p != op then .next s
  else if !(ctlForm p operand) then finishCmd s p .baddesc 0
  else if states.contains c.st then act s (pktCtx p) c
  else finishCmd s p .badstate 0

/-! ## CREATE and DESTROY -/

/-- Whether a descriptor's fields are in range and its reserved bits are 0 (R205, R407) (log 40, DEDUCED). -/
def descOk (id : Nat) (w : Nat → Nat) : Bool :=
  field (w 0) 0 16 == id && decide (1 ≤ id) && decide (id ≤ 4095) && field (w 0) 17 7 == 0 && decide (16 ≤ field (w 0) 24 8) &&
    decide (field (w 0) 24 8 ≤ 64) && field (w 0) 32 32 == 0 && decide (w 1 < 2 ^ 56) && w 1 % 65536 == 0 &&
    decide (w 2 < 2 ^ 35) && decide (w 3 < 2 ^ 35) && decide (w 4 < 2 ^ 35) && decide (8 ≤ field (w 5) 0 16) &&
    decide (w 5 < 2 ^ 51) && w 6 != 0 && w 6 % 64 == 0 && decide (w 6 < 2 ^ 56) && decide (w 7 < 2 ^ 56) && w 7 % 4096 == 0 &&
    decide (w 8 < 2 ^ 35) && decide (w 9 < 2 ^ 48) && (rangeFrom 10 6).all fun i => w i == 0

/-- The working copy that a descriptor starts: every count is 0 (R205) (log 13, DESIGN CHOICE). -/
def descCtx (key : BitVec 512) (w : Nat → Nat) : Ctx :=
  { Ctx.reset with
    st := .active, conf := bitAt (w 0) 16, ratio := field (w 0) 24 8, ptroot := w 1, z := field (w 5) 0 16
    wmark := field (w 5) 16 35, fq := w 6, savea := w 7, above := field (w 5) 16 35 == 0
    key := if bitAt (w 0) 16 then key else 0#512 }

/-- CREATE (R204, R205, R447) (log 13, DESIGN CHOICE; log 40, DEDUCED). -/
def execCreate (p : Packet) (s : State) : Out :=
  ctlCmd p 0x01 true [.free] (fun s id _ =>
    let a := p.w1.toNat
    let w := fun i => tableWord s (a + 8 * i)
    if !s.mgmt.ran then finishCmd s p .badstate 0
    else if a % 128 ≠ 0 ∨ s.mgmt.tssize < a + 128 ∨ !(descOk id w) then finishCmd s p .baddesc 0
    else
      let s1 := setCtx s id (descCtx (Config.contextKey s.free) w)
      finishCmd { s1 with mgmt := { s1.mgmt with created := true } } p .ok 0) s

/-- Every team of a context is killed, its tasks are dropped, and its kernels complete with STATUS 4 (R218, R413). -/
def killAll (s : State) (id : Nat) : State :=
  let ks := (s.kernels.filter fun k => k.ctx == id).map (·.kid)
  let s1 : State := { s with
    kernels := s.kernels.map fun k => if k.ctx = id then { k with nextLaunch := k.teams, killed := true } else k
    cores := s.cores.map fun e => (e.1, { e.2 with deque := e.2.deque.filter fun x => x.ctx != id }) }
  let us := (s1.teams.filter fun e => e.2.ctx == id && !(e.2.status == .ended)).map (·.1)
  ks.foldl kernelEnd (us.foldl killTeam s1)

/-- The cores that serve a context, in ascending order. -/
def servingCores (s : State) (id : Nat) : List Nat := (s.cores.filter fun e => e.2.ctx == id).map (·.1)

/-- A core lets go of a context that ends: nothing of it is left. -/
def vacate (trip : Bool) (id : Nat) (c : Core) : Core := if c.ctx = id then vacantCore trip c else c

/-- What a context owned is gone (R218): its runs, its cores, its caches, its queues and the records that wait. -/
def endCtx (s : State) (id : Nat) : State :=
  let s1 := ((ctxLeaves s id).filter fun l => leafTgt l.bits == 0).foldl
    (fun s l => freeBlocks s (leafBlock l.bits) (blocksIn l.size)) s
  let drop := fun (w : Walker) => { w with
    tlb := w.tlb.filter fun e => e.ctx != id, batches := w.batches.filter fun b => b.ctx != id, busy := w.busy.filter fun x => x.ctx != id }
  let s2 := (servingCores s1 id).foldl forgetSpad s1
  { s2 with
    cores := s1.cores.map fun e => (e.1, vacate s.mgmt.trip id e.2)
    lostRuns := s1.lostRuns.filter fun e => e.1 != id
    walkers := s1.walkers.map drop
    queues := s1.queues.filter fun q => q.ctx != id
    tails := s1.tails.filter fun e => e.1 != id
    freed := s1.freed.filter fun e => e.1 != id
    seqRels := s1.seqRels.filter fun r => r.sp != id
    cpls := s1.cpls.filter fun e => e.ctx != id
    reserve := s1.reserve + (getCtx s1 id).grant
    ctxs := tabErase s1.ctxs id }

/-- DESTROY (R218). -/
def execDestroy (p : Packet) (s : State) : Out :=
  ctlCmd p 0x02 false [.active, .saved, .fenced] (fun s id _ =>
    let s1 := killAll s id
    finishCmd (endCtx s1 id) p .ok (getCtx s1 id).grant) s

/-! ## Ballooning (R214, R215) -/

/-- DEFLATE (R215). -/
def execDeflate (p : Packet) (s : State) : Out :=
  ctlCmd p 0x03 true [.active, .saved] (fun s id c =>
    let n := p.w1.toNat
    if s.reserve < n then finishCmd s p .nospace 0
    else
      let cancel := min n c.infl
      let rest := n - cancel
      let s1 := { setCtx s id { c with infl := c.infl - cancel, pool := c.pool + rest, grant := c.grant + rest } with
        reserve := s.reserve - rest }
      let s2 := if cancel ≠ 0 ∧ c.infl = cancel then pushRec s1 { blankRec s1 0x23 id with w5 := c.grant + rest } else s1
      finishCmd (watchLow s2 id) p .ok rest) s

/-- The slices of a context's cores are recalled (R214). -/
def recallSlices (s : State) (id : Nat) : State :=
  { s with cores := s.cores.map fun e => if e.2.ctx = id then (e.1, { e.2 with slice := 0 }) else e }

/-- INFLATE (R214): POOL first, then the slices; what the slices hold beyond enters POOL. -/
def execInflate (p : Packet) (s : State) : Out :=
  ctlCmd p 0x04 true [.active, .saved] (fun s id c =>
    let n := p.w1.toNat
    let a := min n c.pool
    let owed := n - a
    let sl := if owed = 0 then 0 else slicesOf s id
    let b := min owed sl
    let take := fun (s : State) => modCtx s id fun c => { c with pool := c.pool - a, grant := c.grant - a - b }
    let s1 := if owed = 0 then take s else enterPool (take (recallSlices s id)) id (sl - b)
    let s2 := { modCtx s1 id fun c => { c with infl := c.infl + (owed - b) } with reserve := s1.reserve + a + b }
    finishCmd (watchLow s2 id) p .ok (a + b)) s

/-- RESOLVE (R152, R218). -/
def execResolve (p : Packet) (s : State) : Out :=
  ctlCmd p 0x05 true [.active, .saved] (fun s id _ => finishCmd (resolveRecord s id p.w1.toNat) p .ok 0) s

/-! ## SAVE (R219-R222, R292) -/

/-- The teams that stand on the cores of a context. -/
def residents (s : State) (id : Nat) : List (Nat × Team) :=
  s.teams.filter fun e => e.2.ctx == id && e.2.placed && !(e.2.status == .ended)

/-- A team of a context that is being saved stands at its region's start; what an ending team has issued is written (R84, R106). -/
def saveRewind (s : State) (u : Nat) : State :=
  let t := getTeam s u
  if t.status = .ending then finishIssued s u
  else if readyOrWaiting t && canSave t then modTeam (rewindTeam s u) u fun t => { t with status := .ready } else s

/-- SAVE (R219): issue stops and every team is pre-empted; the reply follows once the area is written. -/
def execSave (p : Packet) (s : State) : Out :=
  ctlCmd p 0x06 false [.active] (fun s id _ =>
    if (servingCores s id).any (isStopped s) then finishCmd s p .busy 0
    else
      let s1 := modCtx s id fun c => { c with st := .saving, saveSlot := p.slot }
      done ((servingCores s1 id).foldl settleStop ((residents s1 id).foldl (fun s e => saveRewind s e.1) s1))) s

/-- Whether a core of a context that is being saved has nothing left to do: its operations have retired and its commands have
finished or stalled (R201, R292) (log 39, DEDUCED). -/
def coreSettled (s : State) (core : Nat) : Bool :=
  let c := getCore s core
  c.stop.isNone && c.matQ.all (·.isEmpty) && (copyNext c).isNone &&
    !(c.copyQ.flatten.any fun x => x.asks.any fun a => a.answer.isNone)

/-- What is saved of a core: a core that serves another context keeps only the context's tasks. -/
def savedCore (id : Nat) (c : Core) : Core :=
  let mine := c.deque.filter fun x => x.ctx == id
  if c.ctx = id then { c with deque := mine, slice := 0, l1 := [], l1Last := [], l1Early := [] } else { Core.reset with ctx := id, deque := mine }

/-- The cores that a context is saved from (log 39, DEDUCED). -/
def savedCores (s : State) (id : Nat) : List (Nat × Core) :=
  (s.cores.filter fun e => e.2.ctx == id || e.2.deque.any fun x => x.ctx == id).map fun e => (e.1, savedCore id e.2)

/-- The teams that are saved: those on the context's cores and those saved for them, in the order the device made them; a team that
stood on its core when the context was saved is neither placed nor saved for its core, and is not UNPLACED (log 39, DEDUCED). -/
def savedTeams (s : State) (id : Nat) : List Team :=
  (s.teams.map (·.2)).filter fun t =>
    t.ctx == id && (t.placed || t.saved || !(t.status == .unplaced)) && !(t.status == .ended)

/-- The flag image (R221) (log 54, DEDUCED). -/
def flagImage (c : Ctx) : List Byte := wordBytes ((List.range 160).map fun i => tabGet 0 c.flags i)

/-- The save area of a context (R220) (log 8, DEDUCED; log 39, DEDUCED). -/
def saveArea (id : Nat) (c : Ctx) (cores : List (Nat × Core)) (ts : List Team) : List Byte :=
  let secs := (cores.map fun e => coreSection e.1 e.2).flatten
  let recs := (ts.map teamRecord).flatten
  padTo 0x100 (wordBytes (descWords id c) ++ wordBytes [cores.length + ts.length * 2 ^ 32, 0x600 + (0x600 + secs.length) * 2 ^ 32]) ++
    flagImage c ++ secs ++ recs

/-- SAVE_COMPLETE (R219): the slices return, the area is written at SAVEA, in host memory (log 8, DEDUCED), and the
context is SAVED. -/
def execSaveComplete (ctx : Nat) (s : State) : Out :=
  let cores := servingCores s ctx
  if (getCtx s ctx).st = .saving ∧ cores.all (coreSettled s) ∧ (residents s ctx).all fun e => canSave e.2 then
    let s1 := cores.foldl returnSlice ((residents s ctx).foldl (fun s e => saveRewind s e.1) s)
    let image := savedCores s1 ctx
    let ts := savedTeams s1 ctx
    let s2 := cores.foldl leaveCtx s1
    let area := saveArea ctx (getCtx s2 ctx) image ts
    let away := fun (t : Team) => if t.ctx = ctx ∧ t.placed = true ∧ t.status ≠ .ended then { t with placed := false } else t
    let s3 := { hostPut s2 (getCtx s2 ctx).savea area with
      cores := s2.cores.map fun e => (e.1, { e.2 with deque := e.2.deque.filter fun x => x.ctx != ctx })
      teams := s2.teams.map fun e => (e.1, away e.2) }
    let s4 := modCtx s3 ctx fun c => { c with st := .saved, image := image }
    done (replyTo (afterCommand s4 0x06 ctx) 0x06 ctx (getCtx s4 ctx).saveSlot .ok area.length)
  else .next s

/-! ## RESTORE (R223) -/

/-- The remap table at an address of host memory (log 8, DEDUCED): the core each core's section goes to; none where
it holds a value it may not hold. -/
def remapTable (s : State) (a : Nat) : Option (List Nat) :=
  let one := fun (c : Nat) =>
    let b := (memByte s.hostMem (a + c)).toNat
    if b = 255 then some c else if b < 160 then some b else none
  if a = 0 then some (List.range 160) else (List.range 160).mapM one

/-- A list of numbers repeats none. -/
def noRepeat : List Nat → Bool
  | [] => true
  | x :: xs => !(xs.contains x) && noRepeat xs

/-- Whether a core may take the section saved of `held`: it is online, serves no other context, and its deque has a place for the section's
tasks beside those of other contexts (R252) (log 40, DEDUCED). -/
def mayRestore (s : State) (held : Core) (core : Nat) : Bool :=
  !((getCore s core).offline) && (getCore s core).ctx == 0 && !(coreHeld s core) &&
    decide (held.deque.length + (getCore s core).deque.length ≤ 512)

/-- A bound cl register takes the CL of its sequence (R309). -/
def reloadCl (s : State) (id : Nat) (r : ClReg) : ClReg :=
  match r.bound with
  | none => r
  | some h => { r with val := BitVec.ofNat 64 (rawHdr s (.ctx id) h).cl }

/-- A core takes a section (log 39, DEDUCED). The flag word of the section replaces the flags that the context held for this core, on which
R223 is silent (log 68, DESIGN CHOICE). -/
def restoreCore (id : Nat) (s : State) (e : Nat × Core × List Byte × Nat) : State :=
  let s1 := leaveCtx s e.1
  let c := getCore s1 e.1
  let k := sectionCore e.2.1 e.2.2.1
  let cl := k.cl.map fun x => (x.1, reloadCl s1 id x.2)
  let s2 := modCtx s1 id fun x => { x with flags := tabErase x.flags e.1 }
  setCore s2 e.1 (coreWithFlags { k with
    ctx := id, cl := cl, deque := k.deque ++ c.deque, clock := c.clock, slice := 0, offline := false, spareDue := c.spareDue, stop := c.stop } e.2.2.2)

/-- A release of a team whose core's section goes to another core. -/
def moveRel (move : Nat → Nat) (r : Rel) : Rel :=
  match r.party with
  | .team u c => { r with party := .team u (move c) }
  | _ => r

/-- A saved core whose section goes to another core: what its tasks and its locks say of cores follows (R223, R251). -/
def moveCore (move : Nat → Nat) (c : Core) : Core :=
  { c with
    deque := c.deque.map fun x => { x with parentCore := move x.parentCore }
    locks := c.locks.map fun e => (e.1, { e.2 with rels := e.2.rels.map fun r => (r.1, moveRel move r.2) }) }

/-- A team takes its record (R223, R238, R245): each is in the state it was saved in; a parked team stays parked, a team that was saved
before the SAVE still waits to come back, and the others run from their snapshots (log 39, DEDUCED). -/
def restoreTeam (move : Nat → Nat) (t : Team) (bs : List Byte) : Team :=
  let r := recordTeam t bs
  let r1 := { r with
    core := move t.core, boltCores := sortNat (t.boltCores.map move), relFs := t.relFs.map (moveRel move), got := t.got.map (moveRel move) }
  if t.saved then { r1 with flow := r1.snap }
  else if t.status = .ending then { r1 with placed := true }
  else { r1 with flow := r1.snap, placed := true, trace := { r1.trace with syncNext := r1.trace.on } }

/-- The records of a list of teams, each with its bytes in the save area (log 39, DEDUCED). -/
def recordsAt (s : State) : Nat → List Team → List (Team × List Byte)
  | _, [] => []
  | a, t :: ts => (t, memBytes s.hostMem a (recordSize t)) :: recordsAt s (a + recordSize t) ts

/-- The sections of the saved cores, each with its bytes in the save area (log 39, DEDUCED). -/
def sectionsAt (s : State) : Nat → List (Nat × Core) → List (Nat × Core × List Byte)
  | _, [] => []
  | a, e :: es => (e.1, e.2, memBytes s.hostMem a (sectionSize e.2.word)) :: sectionsAt s (a + sectionSize e.2.word) es

/-- What the teams of a saved context have seen together, with the clocks of its cores: SAVE releases it and RESTORE acquires it, at .sys for
every team (R390, R392). -/
def savedView (s : State) (id : Nat) (c : Ctx) : View :=
  ⟨((s.teams.map (·.2)).filter fun t => t.ctx == id && !(t.status == .ended)).foldl
      (fun l t => joinSeen (joinSeen l t.seen) ((t.laneSeen.filter fun e => e.2 != silentLane).map (·.1))) [],
    c.image.foldl (fun m e => max m e.2.clock) 0⟩

/-- RESTORE once its targets are known (R223) (log 8, DEDUCED). -/
def restoreCtx (s : State) (id : Nat) (c : Ctx) (move : Nat → Nat) : State :=
  let a := c.savea
  let secs := sectionsAt s (a + 0x600) c.image
  let size := c.image.foldl (fun n e => n + sectionSize e.2.word) 0
  let recs := recordsAt s (a + 0x600 + size) (savedTeams s id)
  let flag := fun (i : Nat) => field (memNat s.hostMem (a + 0x100 + 8 * i) 8) 0 40
  let stay := ((List.range 160).filter fun i => !(c.image.any fun e => e.1 == i)).foldl (fun t i => tabSet 0 t i (flag i)) []
  let mine := fun (t : Team) => if t.ctx = id then { t with parentCore := move t.parentCore } else t
  let s1 := { setCtx s id { c with st := .active, image := [], flags := stay } with
    teams := s.teams.map fun e => (e.1, mine e.2) }
  let s2 := secs.foldl (fun s e => restoreCore id s (move e.1, moveCore move e.2.1, e.2.2, flag e.1)) s1
  let v := savedView s id c
  recs.foldl (fun s e => teamJoins (modTeam s e.1.uid fun t => restoreTeam move t e.2) e.1.uid v) s2

/-- RESTORE (R223) (log 40, DEDUCED). -/
def execRestore (p : Packet) (s : State) : Out :=
  ctlCmd p 0x07 true [.saved] (fun s id c =>
    match remapTable s p.w1.toNat with
    | none => finishCmd s p .baddesc 0
    | some tab =>
      let move := fun (x : Nat) => nth x tab x
      let targets := c.image.map fun e => move e.1
      if !(noRepeat targets) then finishCmd s p .baddesc 0
      else if !(c.image.all fun e => mayRestore s e.2 (move e.1)) then finishCmd s p .core 0
      else finishCmd (restoreCtx s id c move) p .ok 0) s

/-! ## POWER (R445-R448) -/

/-- Whether the fields that POWER to RUN needs are set (R448). -/
def bringUpOk (m : Mgmt) : Bool :=
  m.tsbase != 0 && m.tssize != 0 && m.replyq != 0 && m.pageq != 0 && m.coreq != 0 && m.eventq != 0

/-- Whether an ACTIVE context has a resident team. -/
def anyResident (s : State) : Bool :=
  s.teams.any fun e => e.2.placed && !(e.2.status == .ended) && (getCtx s e.2.ctx).st == .active

/-- POWER (R218, R445-R447): a trip is cleared by POWER to RUN at 95 °C or below; IDLE and SLEEP are left by POWER to RUN alone, and a
POWER that would pass from one to the other completes with BADSTATE (log 67, DESIGN CHOICE). -/
def execPower (p : Packet) (s : State) : Out :=
  let t := p.w1.toNat
  let m := s.mgmt
  if !(performs s true) || pktOp p != 0x08 then .next s
  else if !(ctlForm p true) || pktCtx p != 0 || decide (3 ≤ t) then finishCmd s p .baddesc 0
  else if t = 0 then
    if !(bringUpOk m) then finishCmd s p .baddesc 0
    else if m.trip && decide (95 < m.temp.toNat) then finishCmd s p .badstate 0
    else finishCmd { s with mgmt := { m with pstate := 0, trip := false, ran := true } } p .ok 0
  else if anyResident s ∨ (m.pstate ≠ 0 ∧ m.pstate ≠ t) then finishCmd s p .badstate 0
  else finishCmd { s with mgmt := { m with pstate := t } } p .ok 0

end Sys2Proof.Machine
end

