-- ==== Sys2Proof/Machine/Control.lean ====
section
/-! DEFINITION. Control flow, divergence, masks and regions (07 R125-R154), with the interval rules of branches (18 R345,
R347). -/

namespace Sys2Proof.Machine

/-! ## Branches -/

/-- The lanes of an interval team that a transfer makes undecided (R345): those unsure at a BRA whose next address lies above
it and is not its own fall-through. -/
def strayLanes (t : Team) (nexts : List (Nat × Nat)) : List Nat :=
  if t.bounds then
    (nexts.filter fun e => t.unsure.any fun x => x.lane == e.1 && decide (x.bra < e.2) && e.2 != x.bra + 4).map (·.1)
  else []

/-- A transfer of the active lanes: lanes whose tiles it makes undecided, with those of `more`, leave in ascending order, and the
others take their next addresses (R453) (log 11, DEDUCED). -/
def transferWith (s : State) (u : Nat) (more : List Nat) (fl : Flow → Flow) (nexts : List (Nat × Nat)) (un : Option Nat)
    (redirect : Bool) : State :=
  let t := getTeam s u
  let stray := strayLanes t nexts
  let out := (lanesOf t).filter fun i => stray.contains i || more.contains i
  let s1 := undecideAll s u out
  advance s1 u (fl (getTeam s1 u).flow) (nexts.filter fun e => !out.contains e.1) un redirect false

/-- A transfer of the active lanes (log 11, DEDUCED). -/
def transfer (s : State) (u : Nat) (fl : Flow → Flow) (nexts : List (Nat × Nat)) (un : Option Nat) (redirect : Bool) : State :=
  transferWith s u [] fl nexts un redirect

/-- The next addresses when every active lane goes to one address. -/
def allTo (t : Team) (a : Nat) : List (Nat × Nat) := (lanesOf t).map fun i => (i, a)

/-- A byte address an offset of words away, modulo 2^64. -/
def wordOff (a : Nat) (off : Int) : Nat := wrapNat 64 ((a : Int) + 4 * off)

/-- What a BRA in interval mode does to a lane (R345). -/
inductive BraFate where
  | take (next : Nat)
  | stay (next : Nat)
  | decidedFalse (next : Nat)
  | unsure (next : Nat)
  | undecided
  deriving DecidableEq, Repr

/-- The branch rule of one lane of an interval team (R345). -/
def braFate (t : Team) (c : Tri) (word next target lane : Nat) : BraFate :=
  let here := t.unsure.find? fun x => x.lane == lane && x.bra == word
  let elsewhere := t.unsure.any fun x => x.lane == lane && x.bra != word
  match c with
  | .t => .take target
  | .f => if here.isSome then .decidedFalse next else .stay next
  | .m =>
    if word < target then .undecided
    else if elsewhere then .undecided
    else
      match here with
      | some x => if x.count + 1 = 8 then .undecided else .unsure target
      | none => .unsure target

/-- A lane arrives at its BRA unsure once more (R345). -/
def markBra (t : Team) (lane word : Nat) : Team :=
  if t.unsure.any (fun x => x.lane == lane) then
    { t with unsure := t.unsure.map fun x => if x.lane = lane then { x with count := x.count + 1 } else x }
  else { t with unsure := t.unsure ++ [⟨lane, word, 1, t.flow.depth, [], []⟩] }

/-- A BRA that decides false where a lane was unsure: every register it marked becomes full and every predicate maybe (R345). -/
def clearBra (t : Team) (lane : Nat) : Team :=
  match t.unsure.find? (fun x => x.lane == lane) with
  | none => t
  | some x =>
    let t1 := x.regs.foldl (fun t r => ivSet t lane (outFull r)) t
    let t2 := x.preds.foldl (fun t p => triSet t lane p .m) t1
    { t2 with unsure := t2.unsure.filter fun x => x.lane != lane }

/-- BRA in interval mode (R345). -/
def ivBra (s : State) (u : Nat) (t : Team) (p : PReg) (neg : Bool) (target : Nat) : State :=
  let word := t.cur.word
  let fates := (lanesOf t).map fun i =>
    (i, braFate t (if neg then triNot (triP t i p.toNat) else triP t i p.toNat) word t.cur.next target i)
  let s1 := modTeam s u fun t => fates.foldl (fun t e =>
    match e.2 with
    | .decidedFalse _ => clearBra t e.1
    | .unsure _ => markBra t e.1 word
    | _ => t) t
  let out := (fates.filter fun e => e.2 == .undecided).map (·.1)
  let nexts := fates.filterMap fun e =>
    match e.2 with
    | .take n => some (e.1, n)
    | .stay n => some (e.1, n)
    | .decidedFalse n => some (e.1, n)
    | .unsure n => some (e.1, n)
    | .undecided => none
  let taken := fun (e : Nat × BraFate) => match e.2 with | .take _ | .unsure _ | .undecided => true | _ => false
  transferWith s1 u out id nexts (some t.cur.next) (!nexts.isEmpty && fates.all taken)

/-- BRA (R129): a lane whose predicate, turned by neg, is true goes to the target (log 11, DEDUCED). -/
def execBra (p : PReg) (neg : Bool) (off : BitVec 21) (s : State) : Out :=
  issueOp { noAccess with rp := [p.toNat], vector := true } (fun s u t =>
    let target := wordOff t.cur.word off.toInt
    if t.bounds then done (ivBra s u t p neg target)
    else
      let nexts := (lanesOf t).map fun i => (i, if xor (preg t i p.toNat) neg then target else t.cur.next)
      let all := (lanesOf t).all fun i => xor (preg t i p.toNat) neg
      done (advance s u t.flow nexts (some t.cur.next) all false)) s

/-- Whether a BRK condition holds (R130). -/
def brkHolds (c : BrkCond) (v : Int) : Bool :=
  match c with
  | .z => decide (v = 0)
  | .nz => decide (v ≠ 0)
  | .lt => decide (v < 0)
  | .ge => decide (0 ≤ v)
  | .le => decide (v ≤ 0)
  | .gt => decide (0 < v)
  | .al => true

/-- BRK (R130): one test for the team; .al reads no register. -/
def execBrk (a : KReg) (c : BrkCond) (off : BitVec 13) (s : State) : Out :=
  issueOp { noAccess with rk := if c = .al then [] else [(a.toNat, 1)] } (fun s u t =>
    if brkHolds c (kreg t a.toNat).toInt then
      let target := wordOff t.cur.word off.toInt
      done (transfer s u id (allTo t target) (some target) true)
    else done (fallThrough s u false)) s

/-- What a JMPI target comes to (R131): a landing, a cause, or a word in a peer window that has yet to answer. -/
inductive Landing where
  | ok
  | bad (cause : Nat)
  | peer (slot a : Nat)
  deriving DecidableEq, Repr

/-- The check of a JMPI target (R131). -/
def landingAt (s : State) (t : Team) (a : Nat) : Landing :=
  if a % 4 ≠ 0 then .bad 1
  else
    match xlateWalk s t.ctx a .fetch with
    | .ok _ _ =>
      match fetchWord s t a with
      | .got w => if w = 0xA6000000#32 then .ok else .bad 3
      | .bad => .bad 3
      | .peer slot x => .peer slot x
    | _ => .bad 2

/-- The pages that the checks of some JMPI targets touch (R131, R364). -/
def landingPages (s : State) (t : Team) (as : List Nat) : List Nat :=
  (as.filter fun a => a % 4 == 0 && decide (a < 2 ^ 56)).map (pageKey s t.ctx)

/-- The record of JMPI.LAND (R132, R406): the row summary and the lowest offending row, its mask and its causes. -/
def jmpiStop (s : State) (u : Nat) (bad : List (Nat × Nat × Nat)) : State :=
  let lanes := bad.map (·.1)
  let summary := (List.range 32).foldl (fun a w => if lanes.any (fun i => i / 32 == w) then a + 2 ^ w else a) 0
  let r := (lanes.headD 0) / 32
  let row := bad.filter fun e => e.1 / 32 == r
  let mask := row.foldl (fun a e => a + 2 ^ (e.1 % 32)) 0
  let causes := row.foldl (fun a e => a + e.2.1 * 2 ^ (2 * (e.1 % 32))) 0
  teamStopWith s u 0x49 lanes.head? ((bad.map (·.2.2)).headD 0) (summary + r * 2 ^ 32) mask causes

/-- JMPI (R131, R154): every target is checked before any effect, once the walks of their pages are done (R364); in interval mode a lane whose target is no point has its
tile undecided. -/
def execJmpi (a : VReg) (k : KReg) (s : State) : Out :=
  issueOp { noAccess with rv := [v1 a], rk := [(k.toNat, 1)], vector := true } (fun s u t =>
    let out := if t.bounds then (lanesOf t).filter fun i => !isPoint t i (ef t a) else []
    let nexts := ((lanesOf t).filter fun i => !out.contains i).map fun i =>
      (i, ((kregAt t i k.toNat).toNat + vnat t i a) % 2 ^ 64)
    let pages := pagesUnknown s (dieOf t.core) t (landingPages s t (nexts.map (·.2)))
    let lands := nexts.map fun e => (e, landingAt s t e.2)
    let asks := lands.filterMap fun e => match e.2 with | .peer slot x => some (e.1.2, slot, x) | _ => none
    let bad := lands.filterMap fun e => match e.2 with | .bad c => some (e.1.1, c, e.1.2) | _ => none
    if !pages.isEmpty then done (requestWalk s u pages)
    else if !asks.isEmpty then done (askPeers s u 4 asks)
    else if !bad.isEmpty then done (jmpiStop s u bad)
    else
      let s1 := nexts.foldl (fun s e => bring s (dieOf t.core) t.ctx e.2) s
      done (transferWith s1 u out id nexts (some t.cur.next) true)) s

/-- LAND (R133): it changes nothing. -/
def execLand (s : State) : Out := issueOp noAccess (fun s u _ => done (fallThrough s u false)) s

/-- NOP (R133): it changes nothing. -/
def execNop (s : State) : Out := issueOp noAccess (fun s u _ => done (fallThrough s u false)) s

/-- CALL (R134): k1 takes the address after it, and the depth rises. -/
def execCall (off : BitVec 21) (s : State) : Out :=
  issueOp { noAccess with wk := [(1, 1)] } (fun s u t =>
    if t.flow.depth = 63 then done (teamStop s u 0x4A none 0)
    else
      let target := wordOff t.cur.word off.toInt
      let s1 := modTeam s u fun t => setK t 1 (BitVec.ofNat 64 (t.cur.word + 4))
      done (transfer s1 u (fun f => { f with depth := f.depth + 1 }) (allTo t target) (some target) true)) s

/-- The lanes of an interval team that a RET takes below the depth at which they became unsure (R345). -/
def retStray (t : Team) (d : Nat) : List Nat :=
  if t.bounds then (lanesOf t).filter fun i => t.unsure.any fun x => x.lane == i && decide (d < x.depth) else []

/-- RET (R134). While a lane waits at this depth, every active lane waits in the caller and the team goes to the frontier;
otherwise the depth falls and every active lane goes to ka. -/
def execRet (a : KReg) (s : State) : Out :=
  issueOp { noAccess with rk := [(a.toNat, 1)] } (fun s u t =>
    let d := t.flow.depth
    if d = 0 then done (teamStop s u 0x4A none 0)
    else
      let target := (kreg t a.toNat).toNat
      let stray := retStray t (d - 1) ++ strayLanes t (allTo t target)
      let s1 := undecideAll s u ((lanesOf t).filter stray.contains)
      let t1 := getTeam s1 u
      if (waitingAt t.flow d).isEmpty then
        done (advance s1 u { t1.flow with depth := d - 1 } (allTo t1 target) (some target) true false)
      else
        done (advance s1 u (setLanes t1.flow (lanesOf t1) (.waiting target (d - 1))) [] none true false)) s

/-- The number of a loop counter. -/
def loopNum : LoopCtr → Nat
  | .l0 => 0
  | .l1 => 1
  | .l2 => 2

/-- Whether a new loop breaks the nesting (R135): its counter's entry is active, or its body does not lie within the body of
every active entry of this depth. -/
def loopClash (fl : Flow) (i : Nat) (e : LoopEntry) : Bool :=
  (loopAt fl i).on || fl.loops.any fun o =>
    o.on && o.depth == fl.depth && !(decide (o.start ≤ e.start) && decide (loopEnd e ≤ loopEnd o))

/-- LOOP (R135): a count of 0 goes to the word after the body. -/
def execLoop (a : KReg) (l : LoopCtr) (n : BitVec 13) (s : State) : Out :=
  issueOp { noAccess with rk := [(a.toNat, 1)] } (fun s u t =>
    let count : W32 := BitVec.ofNat 32 (kreg t a.toNat).toNat
    let e : LoopEntry := ⟨count, true, t.cur.word + 4, n.toNat, t.flow.depth⟩
    if count = 0#32 then
      let after := t.cur.word + 4 + 4 * n.toNat
      done (transfer s u id (allTo t after) (some after) false)
    else if loopClash t.flow (loopNum l) e then done (teamStop s u 0x4B none 0)
    else
      done (transfer s u (fun f => { f with loops := setAt f.loops (loopNum l) e }) (allTo t e.start) (some e.start) false)) s

/-- REGION.COMMIT (R147): the region commits, and a new snapshot is taken at the next address. -/
def execRegionCommit (s : State) : Out := boundaryOp noAccess (fun s u _ => done (fallThrough s u true)) s

/-- SETX (R138). -/
def execSetx (a : KReg) (i : BitVec 7) (s : State) : Out :=
  issueOp { noAccess with rk := [(a.toNat, 1)] } (fun s u t =>
    let x := (kreg t a.toNat).toNat + i.toNat
    if 127 < x then done (teamStop s u 0x50 none 0)
    else done (advance s u { t.flow with x := x } (plainNexts t) (some t.cur.next) false false)) s

/-! ## Masks (R139, R140) -/

/-- A flow whose active and held lanes are those of `want` (R139). -/
def maskTo (nl : Nat) (fl : Flow) (want : Nat → Bool) : Flow :=
  (List.range nl).foldl (fun f i =>
    match laneState f i with
    | .active => if want i then f else setLane f i .held
    | .held => if want i then setLane f i .active else f
    | _ => f) fl

/-- After a MASK write (R140): with em zero the team jumps to the frontier, or enters uniform-only mode. -/
def afterMask (s : State) (u : Nat) (fl : Flow) : State :=
  let t := getTeam s u
  let act := activeLanes t.lanes fl
  if act.isEmpty then
    if (waitingAt fl fl.depth).isEmpty then advance s u { fl with uni := true } [] (some t.cur.next) false false
    else advance s u { fl with uni := false } [] none true false
  else advance s u { fl with uni := false } (act.map fun i => (i, t.cur.next)) none false false

/-- MASK.SET (R139). -/
def execMaskSet (a : KReg) (s : State) : Out :=
  issueOp { noAccess with rk := [(a.toNat, 16)] } (fun s u t =>
    let want := fun (i : Nat) => bitAt (kreg t (a.toNat + i / 64)).toNat (i % 64)
    done (afterMask s u (maskTo t.lanes t.flow want))) s

/-- MASK.GET (R139). -/
def execMaskGet (a : KReg) (s : State) : Out :=
  issueOp { noAccess with wk := [(a.toNat, 16)] } (fun s u t =>
    let word := fun (w : Nat) => emWord t.lanes t.flow w
    let put := fun (t : Team) (j : Nat) =>
      setK t (a.toNat + j) (BitVec.ofNat 64 (word (2 * j) + word (2 * j + 1) * 2 ^ 32))
    done (fallThrough (modTeam s u fun t => (List.range 16).foldl put t) u false)) s

/-- MASK.PRED (R139): in interval mode the tile of a lane whose predicate is maybe becomes undecided (R343). -/
def execMaskPred (_ : KReg) (p : PReg) (s : State) : Out :=
  issueOp { noAccess with rp := [p.toNat] } (fun s u t =>
    let maybe := if t.bounds then (lanesOf t).filter fun i => triP t i p.toNat == .m else []
    let s1 := undecideAll s u maybe
    let fl := (getTeam s1 u).flow
    done (afterMask s1 u (maskTo t.lanes fl fun i => laneActive fl i && preg t i p.toNat))) s

/-! ## The end of lanes, and yielding -/

/-- EXIT (R141): the region commits and every active lane exits; an unsure lane's tile becomes undecided (R345). A traced
team whose end begins has its staged record appended (R416). -/
def execExit (s : State) : Out :=
  boundaryOp noAccess (fun s u t =>
    let s1 := undecideAll s u (if t.bounds then (lanesOf t).filter (isUnsure t) else [])
    let t1 := getTeam s1 u
    let s2 := modTeam s1 u fun t => { t with endPc := t.cur.group }
    let s3 := advance s2 u (setLanes t1.flow (lanesOf t1) .exited) [] none true true
    let s4 := if (getTeam s3 u).status = .ending then modTeam s3 u fun x => { x with exitFlow := some t.flow } else s3
    done (if (getTeam s4 u).status = .ending then traceAppend s4 u else s4)) s

/-- YIELD (R142): the team leaves issue until every other ready team of its partition has issued. -/
def execYield (s : State) : Out :=
  issueOp noAccess (fun s u t =>
    let others := (teamsOn s t.core).filter fun e => e.1 != u && e.2.part == t.part && e.2.status == .ready
    let s1 := fallThrough s u false
    done (modTeam s1 u fun t => { t with yielded := others.map (·.1) })) s

/-- YIELD_RESUME (R142): the team returns to issue, at any moment (log 3). -/
def execYieldResume (u : Nat) (s : State) : Out :=
  match find? s.teams u with
  | none => .next s
  | some t => .next (setTeam s u { t with yielded := [] })

/-- A stop that its instruction completes before it raises (R143). -/
def trapStop (cause : Nat) (code : BitVec 16) (s : State) : Out :=
  issueOp noAccess (fun s u t =>
    let s1 := fallThrough (modTeam s u fun t => { t with stepOnce := false }) u false
    done (preciseStop s1 t.core (some u) { teamRec s1 u cause none 0 with w5 := code.toNat } true)) s

/-- TRAP (R143). -/
def execTrap (code : BitVec 16) (s : State) : Out := trapStop 0x4D code s

/-- BKPT (R143). -/
def execBkpt (code : BitVec 16) (s : State) : Out := trapStop 0x4E code s

/-- The cause of an ILLEGAL word (R52). -/
def illegalCause : IllegalCause → Nat
  | .op => 0x40
  | .fn => 0x41
  | .field => 0x42
  | .hint => 0x43

/-- ILLEGAL_WORD (R52): a precise stop, whatever em holds, with no other effect. -/
def execIllegalWord (c : IllegalCause) (s : State) : Out :=
  done (teamStop (beginGroup s none) s.issue.uid (illegalCause c) none 0)

end Sys2Proof.Machine
end

