-- ==== Sys2Proof/Machine/PageCmd.lean ====
section
/-! DEFINITION. Page commands (19 R365-R372): MAP, UNMAP, PERM, MIGRATE and CLEARACC, with their shoot-downs and drains. -/

namespace Sys2Proof.Machine

/-! ## The slot of a page (R365) -/

/-- Where a page command finds its leaf: the address of the slot, the entry and the page size. -/
structure PageSlot where
  slotAt : Nat
  entry : Nat
  size : Nat
  deriving DecidableEq, Repr

/-- The slot of an address: in the L0 table that a present L1 pointer names, or else the L1 slot itself. None where an L3 or L2
pointer is missing, or where the L1 pointer is malformed. -/
def pageSlot (s : State) (id va : Nat) : Option PageSlot :=
  if 2 ^ 56 ≤ va then none
  else
    match l1Slot s (getCtx s id).ptroot va with
    | none => none
    | some a1 =>
      let e1 := tableWord s a1
      if !(bitAt e1 0) || bitAt e1 1 then some ⟨a1, e1, 2 ^ 21⟩
      else
        match ptrTable 512 e1 with
        | none => none
        | some t0 =>
          let a0 := t0 + 16 * field va 16 5
          some ⟨a0, tableWord s a0, 65536⟩

/-! ## Writing leaves (R366) -/

/-- Changes the entry and the companion word of a leaf slot. -/
def putLeaf (s : State) (at_ e comp : Nat) : State :=
  tableWriteNat (tableWriteNat s at_ 8 e) (at_ + 8) 8 comp

/-- The caches let go of a page of a context: the translations of the dies whose bit is in `dies`, and the lines of L1. -/
def forgetPage (s : State) (id base size dies : Nat) : State :=
  let keep := fun (e : TlbEntry) => !(e.ctx == id && e.base == base && e.size == size)
  let line := fun (b : Nat) => decide (b < base / 256) || decide ((base + size) / 256 ≤ b)
  let lines := fun (c : Core) => { c with l1 := c.l1.filter line, l1Last := c.l1Last.filter line, l1Early := c.l1Early.filter line }
  { s with
    walkers := s.walkers.zipIdx.map fun w => if bitAt dies w.2 then { w.1 with tlb := w.1.tlb.filter keep } else w.1
    cores := s.cores.map fun e => if e.2.ctx = id then (e.1, lines e.2) else e }

/-- A shoot-down (R366): the new leaf is written, the caches of the dies whose ACC bit is set let go of the page, and the ACC and
PACC bits are cleared. An inbound access is one step of the device, so none is in flight (log 41, DEDUCED). -/
def shootDown (s : State) (id base size at_ e : Nat) : State :=
  let c := tableWord s (at_ + 8)
  putLeaf (forgetPage s id base size (c % 4)) at_ e (c - c % 2 ^ 50)

/-- A leaf that gains rights and loses none: the caches that hold it take it as it is (R366) (log 41, DEDUCED). -/
def refreshLeaf (s : State) (id base size at_ e : Nat) : State :=
  let one := fun (x : TlbEntry) => if x.ctx = id ∧ x.base = base ∧ x.size = size then { x with leaf := e } else x
  { putLeaf s at_ e (tableWord s (at_ + 8)) with
    walkers := s.walkers.map fun w => { w with tlb := w.tlb.map one } }

/-- An entry with its R, W, X and UPG replaced. -/
def setRights (e r : Nat) : Nat := e - field e 2 4 * 4 + r % 16 * 4

/-- An entry with W clear and UPG set. -/
def stopWrites (e : Nat) : Nat := setRights e (bitNat (leafR e) + 4 * bitNat (leafX e) + 8)

/-! ## Blocks of a page (R368-R372) -/

/-- Sectors move from POOL to ALLOC. -/
def chargeRuns (s : State) (id n : Nat) : State :=
  watchLow (modCtx s id fun c => { c with pool := c.pool - n, alloc := c.alloc + n }) id

/-- MAPPED changes. -/
def addMapped (s : State) (id n : Nat) : State := modCtx s id fun c => { c with mapped := c.mapped + n }
def subMapped (s : State) (id n : Nat) : State := modCtx s id fun c => { c with mapped := c.mapped - n }

/-- Whether raising MAPPED by `n` units would pass the promise (R206). -/
def overPromise (c : Ctx) (n : Nat) : Bool := decide (c.grant * 32 * c.ratio / 16 < (c.mapped + n) * 65536)

/-- A page's blocks become ZERO, and nothing is left of what stood in its frames. -/
def clearBlocks (s : State) (b n : Nat) : State :=
  let s1 := freeBlocks s b n
  { s1 with runStack := tabDrop s1.runStack (b / 256) ((b + n) / 256) }

/-- One block of a protected or fixed page takes its run of 8 sectors (R371, R372). -/
def fullBlock (prot fix : Bool) (s : State) (b : Nat) : State :=
  let r := newRun s b 8
  bumpSeq (setMeta s b ⟨8, r, 7, false, prot, fix⟩) r 8

/-- One block takes the contents of 256 bytes: its run is allocated and then written (R369, R377, R440). -/
def loadBlock (s : State) (b : Nat) (bs : List Byte) : State :=
  let code := selectEnc false bs
  let n := encSectors code
  let r := if n = 0 then 0 else newRun s b n
  let s1 := setMeta { s with mem := memWrite s.mem (b * 256) bs } b ⟨n, r, code, false, false, false⟩
  serveRun (bumpSeq (bumpSeq s1 r n) r n) r n

/-- The sectors that a run of host bytes takes once compressed. -/
def hostSectors (s : State) (a n : Nat) : Nat :=
  (List.range n).foldl (fun k i => k + encSectors (selectEnc false (memBytes s.hostMem (a + 256 * i) 256))) 0

/-! ## Form and state (R365) -/

/-- A page command: the states, its form, the slot of its page, and what it does there. `present` says what V must be; MIGRATE
kind 1 takes either. A
packet with another opcode is no packet of the command (log 10, DESIGN CHOICE; log 41, DEDUCED). -/
def pageCmd (p : Packet) (op : Nat) (present : Option Bool) (form : Bool) (act : State → Nat → Ctx → PageSlot → Out) (s : State) : Out :=
  let id := pktCtx p
  let c := getCtx s id
  if !(performs s false) || s.pageWork.isSome || pktOp p != op then .next s
  else if !(c.st == .active || c.st == .saved) then finishCmd s p .badstate 0
  else
    match pageSlot s id p.w1.toNat with
    | none => finishCmd s p .baddesc 0
    | some x =>
      if (present == some true && !(bitAt x.entry 0)) || (present == some false && bitAt x.entry 0) then
        finishCmd s p .badstate 0
      else if !(pktHead p && form && p.w4 == 0#64 && p.w5 == 0#64 && p.w6 == 0#64 && p.w7 == 0#64) ||
          p.w1.toNat % x.size != 0 then finishCmd s p .baddesc 0
      else act s id c x

/-- MAP (R365, R369, R371, R372). -/
def execMap (p : Packet) (s : State) : Out :=
  pageCmd p 0x10 (some false) (p.w3 == 0#64) (fun s id c x =>
    let e := p.w2.toNat
    let full := leafProt e || leafFix e
    let units := if leafTgt e = 0 then x.size / 65536 else 0
    let b := leafBlock e
    let n := blocksIn x.size
    if !(bitAt e 0 && leafOk (x.size != 65536) e) || leafMig e || (full && leafTgt e != 0) ||
        (c.conf && (!leafProt e || leafTgt e != 0)) then finishCmd s p .baddesc 0
    else if units ≠ 0 ∧ overPromise c units then finishCmd s p .promise 0
    else if full ∧ c.pool < 8 * n then finishCmd s p .nospace 0
    else
      let s1 := if units = 0 then s else addMapped (clearBlocks s b n) id units
      let s2 := if full then (rangeFrom b n).foldl (fullBlock (leafProt e) (leafFix e)) (chargeRuns s1 id (8 * n)) else s1
      finishCmd (putLeaf (forgetPage s2 id p.w1.toNat x.size 3) x.slotAt e 0) p .ok (if full then 8 * n else 0)) s

/-- CLEARACC (R365, R366): a die's caches let go of the leaf before its ACC bit is cleared (log 41, DEDUCED). -/
def execClearacc (p : Packet) (s : State) : Out :=
  pageCmd p 0x14 (some true) (p.w3 == 0#64) (fun s id _ x =>
    let m := field p.w2.toNat 0 52
    let c := tableWord s (x.slotAt + 8)
    let s1 := forgetPage s id p.w1.toNat x.size (m &&& c % 4)
    finishCmd (putLeaf s1 x.slotAt x.entry (c - (c &&& m))) p .ok 0) s

/-! ## Draining (R367) -/

/-- Writes to the page stop, and the command waits for its drain. -/
def startDrain (s : State) (p : Packet) (id : Nat) (x : PageSlot) : Out :=
  done { shootDown s id p.w1.toNat x.size x.slotAt (stopWrites x.entry) with
    pageWork := some ⟨p, id, p.w1.toNat, x.size, x.slotAt, x.entry, false⟩ }

/-- The logs of a context that hold a sector of a page: their teams. -/
def logHolders (s : State) (id base size : Nat) : List Team :=
  (s.teams.map (·.2)).filter fun t => t.ctx == id && !(t.status == .ended) &&
    (logBlocks t).any fun b => decide (base / 256 ≤ b) && decide (b < (base + size) / 256)

/-- Whether an accepted engine write to a page has not been performed. -/
def pinned (s : State) (id base size : Nat) : Bool :=
  s.cores.any fun e => e.2.ctx == id && e.2.matQ.flatten.any fun o =>
    match opPins o with
    | none => false
    | some (a, n) => decide (a < base + size) && decide (base < a + n)

/-! ## UNMAP and PERM -/

/-- UNMAP (R367, R369). -/
def execUnmap (p : Packet) (s : State) : Out :=
  pageCmd p 0x11 (some true) (p.w2 == 0#64 && p.w3 == 0#64) (fun s id _ x => startDrain s p id x) s

/-- Whether an ATTN reads a page of its sequence that lies in a mapped page (R335). -/
def attnReads (base size : Nat) (o : MOp) : Bool :=
  let n := 2 ^ (field (opWord o 5) 0 8 + field (opWord o 5) 8 8 + 4)
  o.pages.any fun e => match e.2 with | some a => decide (a < base + size) && decide (base < a + n) | none => false

/-- UNMAP once the page is drained: its runs are freed and its leaf is written as 0. An ATTN that still reads it suffers it (R335). -/
def unmapEnd (s : State) (k : PageWork) : State × Nat :=
  let s0 := attnStrike (putLeaf (forgetPage s k.ctx k.base k.size 3) k.slotAt 0 0) k.ctx (attnReads k.base k.size)
  if leafTgt k.oldLeaf ≠ 0 then (dropDest s0 (leafTgt k.oldLeaf + leafPslot k.oldLeaf) (leafBlock k.oldLeaf) (blocksIn k.size), 0)
  else
    let b := leafBlock k.oldLeaf
    let n := sectorsOf s b (blocksIn k.size)
    (releaseRuns (subMapped (clearBlocks s0 b (blocksIn k.size)) k.ctx (k.size / 65536)) k.ctx n, n)

/-- PERM (R365-R367): clearing W drains first; another right that goes takes a shoot-down, and a right that comes takes none. -/
def execPerm (p : Packet) (s : State) : Out :=
  pageCmd p 0x12 (some true) (p.w3 == 0#64 && field p.w2.toNat 0 2 == 0 && decide (p.w2.toNat < 64)) (fun s id _ x =>
    let e := setRights x.entry (field p.w2.toNat 2 4)
    let gone := (leafR x.entry && !leafR e) || (leafX x.entry && !leafX e)
    if leafW x.entry ∧ !(leafW e) then startDrain s p id x
    else if gone then finishCmd (shootDown s id p.w1.toNat x.size x.slotAt e) p .ok 0
    else finishCmd (refreshLeaf s id p.w1.toNat x.size x.slotAt e) p .ok 0) s

/-! ## MIGRATE (R368) -/

/-- The form of a MIGRATE: its kind in w2, and in w3 only the bits that name its target (log 41, DEDUCED). -/
def migrateForm (p : Packet) (kind : Nat) : Bool :=
  p.w2.toNat == kind &&
    (if kind = 0 then decide (p.w3.toNat < 8)
    else if kind = 1 then decide (p.w3.toNat < 2 ^ 25)
    else decide (p.w3.toNat < 2 ^ 56) && p.w3.toNat % 65536 == 0)

/-- One block's run moves to a stack: it is read, and the new run is allocated and written (R438, R440) (log 7, DESIGN CHOICE). -/
def moveRun (stack : Nat) (s0 : State) (e : Nat × BlockMeta) : State :=
  if e.2.len = 0 then s0
  else
    let s := activate s0 e.1
    let r := findRun (runsInUse s) stack e.2.len (64 * (s.metas.length + s.oldRuns.length + s.lostRuns.length + 2) + 2 ^ 31) (Config.freeNat s.free e.1)
    let s1 := { setMeta s e.1 { e.2 with run := r } with oldRuns := s.oldRuns ++ [(e.2.run, e.2.len)] }
    serveRun (bumpSeq (bumpSeq s1 r e.2.len) r e.2.len) r e.2.len

/-- MIGRATE INDEV: runs relocated to a stack, without a drain (log 41, DEDUCED). -/
def execMigrateIndev (p : Packet) (s : State) : Out :=
  pageCmd p 0x13 (some true) (migrateForm p 0) (fun s _ _ x =>
    if leafTgt x.entry ≠ 0 then finishCmd s p .baddesc 0
    else
      let b := leafBlock x.entry
      let n := blocksIn x.size
      let k := p.w3.toNat
      let s1 := (metasOf s b n).foldl (moveRun k) s
      let at_ := (rangeFrom (b / 256) (n / 256)).foldl (fun t f => tabPut t f k) s1.runStack
      finishCmd { s1 with runStack := at_ } p .ok x.size) s

/-- MIGRATE TODEV: a page that is not present takes an empty device page at once; a host window drains first (log 41, DEDUCED). -/
def execMigrateTodev (p : Packet) (s : State) : Out :=
  pageCmd p 0x13 none (migrateForm p 1) (fun s id c x =>
    let f := p.w3.toNat
    let units := x.size / 65536
    if (bitAt x.entry 0 && leafTgt x.entry != 1) || f % units != 0 then finishCmd s p .baddesc 0
    else if overPromise c units then finishCmd s p .promise 0
    else if bitAt x.entry 0 then startDrain s p id x
    else
      let s1 := addMapped (clearBlocks s (f * 256) (blocksIn x.size)) id units
      finishCmd (putLeaf (forgetPage s1 id p.w1.toNat x.size 3) x.slotAt (15 + f * 65536) 0) p .ok 0) s

/-- MIGRATE TOHOST. -/
def execMigrateTohost (p : Packet) (s : State) : Out :=
  pageCmd p 0x13 (some true) (migrateForm p 2) (fun s id _ x =>
    if leafTgt x.entry ≠ 0 || leafProt x.entry || p.w3.toNat % x.size != 0 then finishCmd s p .baddesc 0
    else startDrain s p id x) s

/-- MIG is set with a shoot-down, and the page's data stands in its new place. -/
def switchOn (s : State) (k : PageWork) : State :=
  { shootDown s k.ctx k.base k.size k.slotAt (stopWrites k.oldLeaf + 2 ^ 15) with pageWork := some { k with switching := true } }

/-- A drained host window is copied into device frames, or NOSPACE where POOL cannot cover it (R369). -/
def todevCopy (s : State) (k : PageWork) : Option State :=
  let n := blocksIn k.size
  let need := hostSectors s (leafFrame k.oldLeaf * 65536) n
  let b := k.p.w3.toNat * 256
  if (getCtx s k.ctx).pool < need then none
  else
    let s1 := chargeRuns (clearBlocks s b n) k.ctx need
    some (switchOn ((List.range n).foldl (fun s i =>
      loadBlock s (b + i) (memBytes s.hostMem (leafFrame k.oldLeaf * 65536 + 256 * i) 256)) s1) k)

/-- One block of a device page is copied to the host; a poisoned one is written as zeros and reported (R368). -/
def hostBlock (k : PageWork) (s : State) (i : Nat) : State :=
  let b := leafBlock k.oldLeaf + i
  let a := k.p.w3.toNat + 256 * i
  if (metaOf s b).poison then
    pushRec (hostPut s a (List.replicate 256 0#8))
      { blankRec s 0x68 k.ctx with addr := k.base + 256 * i, w5 := b }
  else hostPut (activate s b) a (memBytes s.mem (b * 256) 256)

/-- The new leaf of a migration: the old R and X, W set, UPG and MIG clear. -/
def migratedLeaf (k : PageWork) (tgt frame : Nat) : Nat :=
  3 + bitNat (leafR k.oldLeaf) * 4 + 8 + bitNat (leafX k.oldLeaf) * 16 + tgt * 2 ^ 7 + frame * 2 ^ 16

/-- The writes of a page's bytes have moved with them, between a host window and device frames: migration adds no order and removes none
(R403). -/
def moveWrites (s : State) (k : PageWork) (toDevice : Bool) (dev host : Nat) : State :=
  let n := blocksIn k.size
  let d := (dev * 16, 0, dev)
  let h := (hostGrains + host / 16, 1, host / 256)
  let e := if toDevice then (h, d) else (d, h)
  moveDest (moveGrains s e.1.1 e.2.1 (n * 16)) e.1.2 e.2.2 n

/-- The second step of the switch: the new leaf, with a further shoot-down. What a poisoned block held is not at its new place. -/
def switchEnd (s : State) (k : PageWork) : State :=
  let s0 := forgetPage s k.ctx k.base k.size 3
  if field k.p.w2.toNat 0 2 = 1 then
    let s1 := moveWrites s0 k true (k.p.w3.toNat * 256) (leafFrame k.oldLeaf * 65536)
    addMapped (putLeaf s1 k.slotAt (migratedLeaf k 0 k.p.w3.toNat) 0) k.ctx (k.size / 65536)
  else
    let b := leafBlock k.oldLeaf
    let n := sectorsOf s b (blocksIn k.size)
    let lost := (metasOf s b (blocksIn k.size)).filter (·.2.poison)
    let s0 := moveWrites (lost.foldl (fun s e => forgetGrains s (e.1 * 16) 16) s0) k false b k.p.w3.toNat
    let s1 := putLeaf s0 k.slotAt (migratedLeaf k 1 (k.p.w3.toNat / 65536)) 0
    releaseRuns (subMapped (clearBlocks s1 b (blocksIn k.size)) k.ctx (k.size / 65536)) k.ctx n

/-- A page command in progress ends. -/
def pageEnd (s : State) (k : PageWork) (st : Status) (r : Nat) : Out := finishCmd { s with pageWork := none } k.p st r

/-- A page command gives back the leaf it found (log 41, DEDUCED). -/
def restoreLeaf (s : State) (k : PageWork) : State := shootDown s k.ctx k.base k.size k.slotAt k.oldLeaf

/-- What a drained page command does next (R367-R369). -/
def drained (s : State) (k : PageWork) : Out :=
  match pktOp k.p with
  | 0x11 => pageEnd (unmapEnd s k).1 k .ok (unmapEnd s k).2
  | 0x12 =>
    pageEnd (shootDown s k.ctx k.base k.size k.slotAt (setRights k.oldLeaf (field k.p.w2.toNat 2 4))) k .ok 0
  | _ =>
    if field k.p.w2.toNat 0 2 = 1 then
      match todevCopy s k with
      | some s1 => done s1
      | none => pageEnd (restoreLeaf s k) k .nospace 0
    else done (switchOn ((List.range (blocksIn k.size)).foldl (hostBlock k) s) k)

/-- PAGE_DRAIN_DONE (R367, R368): the page is drained, or a log that holds it belongs to a stopped core; or the second step of a
switch. A context that has ended or is fenced meanwhile is in no state for the command. -/
def execPageDrainDone (s : State) : Out :=
  match s.pageWork with
  | none => .next s
  | some k =>
    let st := (getCtx s k.ctx).st
    let holders := logHolders s k.ctx k.base k.size
    if st = .free then pageEnd s k .badstate 0
    else if k.switching then pageEnd (switchEnd s k) k .ok k.size
    else if st = .fenced then pageEnd (restoreLeaf s k) k .badstate 0
    else if holders.any fun t => (getCore s t.core).stop.isSome then pageEnd (restoreLeaf s k) k .busy 0
    else if !(holders.isEmpty) || pinned s k.ctx k.base k.size then .next s
    else drained s k

end Sys2Proof.Machine
end

