-- ==== Sys2Proof/Machine/CoreCmd.lean ====
section
/-! DEFINITION. Core commands (22 R409, R410): RESUME, SKIP, KILL, RDSTATE, WRSTATE, STEP, HALT and LIST. Their buffers lie in host
memory (log 8, DEDUCED). -/

namespace Sys2Proof.Machine

/-- The launch identifier of a team, in the layout of sv.launch (R102). -/
def launchWord (s : State) (t : Team) : Nat :=
  (teamKernel s t).slot % 2 ^ 32 + (teamKernel s t).qnum % 2 ^ 16 * 2 ^ 32

/-- The teams of a context on a core: those that stand there and those saved for it (R410) (log 37, DEDUCED). -/
def teamsAt (s : State) (core id : Nat) : List Team :=
  (s.teams.map (·.2)).filter fun t => t.ctx == id && t.core == core && (t.placed || t.saved) && !(t.status == .ended)

/-- The core and the team identifier that a packet names. -/
def pktCore (p : Packet) : Nat := p.w1.toNat % 256
def pktTeam (p : Packet) : Nat := p.w2.toNat % 2 ^ 32

/-- The form of a core packet (R410): `named` says that its command names a team (log 37, DEDUCED). -/
def coreForm (p : Packet) (named : Bool) : Bool :=
  pktHead p && decide (p.w1.toNat < 256) && decide (p.w2.toNat < 2 ^ 32) && p.w6 == 0#64 && p.w7 == 0#64 &&
    (if named then decide (p.w5.toNat < 2) && (p.w5 == 1#64 || p.w4 == 0#64) else p.w4 == 0#64 && p.w5 == 0#64)

/-- The one team that a packet names, if there is just one (log 37, DEDUCED). -/
def namedTeam (s : State) (p : Packet) : Option Team :=
  match (teamsAt s (pktCore p) (pktCtx p)).filter fun t =>
      t.id == pktTeam p && (p.w5 == 0#64 || launchWord s t == p.w4.toNat) with
  | [t] => some t
  | _ => none

/-- A core command: its form, and the core's context (R410) (log 10, DESIGN CHOICE). -/
def coreForms (p : Packet) (op : Nat) (named : Bool) (act : State → Nat → Out) (s : State) : Out :=
  if !(performs s false) || pktOp p != op then .next s
  else if !(coreForm p named) || decide (160 ≤ pktCore p) || pktCtx p == 0 || (getCore s (pktCore p)).ctx != pktCtx p then
    finishCmd s p .baddesc 0
  else act s (pktCore p)

/-- A core command for a stopped core. -/
def coreCmd (p : Packet) (op : Nat) (act : State → Nat → State) (s : State) : Out :=
  coreForms p op false (fun s c => if isStopped s c then finishCmd (act s c) p .ok 0 else finishCmd s p .badstate 0) s

/-- A command for a team of a stopped core. -/
def teamCmd (p : Packet) (op : Nat) (act : State → Nat → Team → Out) (s : State) : Out :=
  coreForms p op true (fun s c =>
    if !(isStopped s c) then finishCmd s p .badstate 0
    else
      match namedTeam s p with
      | none => finishCmd s p .baddesc 0
      | some t => act s c t) s

/-- RESUME. -/
def execResume (p : Packet) (s : State) : Out := coreCmd p 0x20 (fun s c => leaveStop s c false) s

/-- SKIP. -/
def execSkip (p : Packet) (s : State) : Out := coreCmd p 0x21 (fun s c => leaveStop s c true) s

/-- KILL: the core stays stopped. -/
def execKill (p : Packet) (s : State) : Out :=
  teamCmd p 0x22 (fun s _ t => finishCmd (killTeam s t.uid) p .ok 0) s

/-- Whether a packet names the core section (R410). -/
def wholeCore (p : Packet) : Bool := pktTeam p == 0xFFFFFFFF

/-- RDSTATE (log 8, DEDUCED). -/
def execRdstate (p : Packet) (s : State) : Out :=
  if wholeCore p then coreCmd p 0x23 (fun s c => hostPut s p.w3.toNat (coreSection c (getCore s c))) s
  else teamCmd p 0x23 (fun s _ t => finishCmd (hostPut s p.w3.toNat (teamRecord t)) p .ok 0) s

/-- Whether a written record keeps what WRSTATE may not change (R410) (log 38, DEDUCED). -/
def sameTeam (t : Team) (bs : List Byte) : Bool :=
  field (natOf (bs.take 8)) 0 60 == field (nth 0 (teamHeader t) 0) 0 60

/-- Whether a written section keeps what WRSTATE may not change (log 38, DEDUCED). -/
def sameCore (n : Nat) (c : Core) (bs : List Byte) : Bool :=
  field (natOf (bs.take 8)) 0 40 == n + c.word % 2 ^ 32 * 2 ^ 8 && field (natOf ((bs.drop 8).take 8)) 0 16 == c.ctx

/-- A team takes a written record: its region goes on when the control state is that of its snapshot, and is discarded when
the record moves it (log 38, DEDUCED). -/
def writeTeam (s : State) (t : Team) (bs : List Byte) : State :=
  let r := recordTeam t bs
  let keep := recordFlow t.lanes bs == recordFlow t.lanes (teamRecord t)
  if keep then setTeam s t.uid { r with snap := t.snap }
  else setTeam (abortRegion s t.uid) t.uid { r with flow := r.snap, log := [], zeros := [], pols := [], debited := [] }

/-- A core takes a written section (log 38, DEDUCED). -/
def writeCore (s : State) (n : Nat) (bs : List Byte) : State :=
  let c := getCore s n
  let k := sectionCore c bs
  setCore (forgetSpad s n) n { k with cl := k.cl.map fun x => (x.1, reloadCl s c.ctx x.2) }

/-- WRSTATE (log 8, DEDUCED). -/
def execWrstate (p : Packet) (s : State) : Out :=
  if wholeCore p then
    coreForms p 0x24 false (fun s c =>
      let bs := memBytes s.hostMem p.w3.toNat (sectionSize (getCore s c).word)
      if !(isStopped s c) then finishCmd s p .badstate 0
      else if sameCore c (getCore s c) bs then finishCmd (writeCore s c bs) p .ok 0
      else finishCmd s p .baddesc 0) s
  else
    teamCmd p 0x24 (fun s _ t =>
      let bs := memBytes s.hostMem p.w3.toNat (recordSize t)
      if sameTeam t bs then finishCmd (writeTeam s t bs) p .ok 0 else finishCmd s p .baddesc 0) s

/-- STEP: the named team alone issues one group. -/
def execStep (p : Packet) (s : State) : Out :=
  teamCmd p 0x25 (fun s c t =>
    finishCmd (modTeam (leaveStop s c false) t.uid fun t => { t with stepOnce := true }) p .ok 0) s

/-- HALT semantics (R410, R446): a core stops with no team, with a cause. A core that serves no context has nothing to stop, and
no fault queue for a record: it only stops (log 50, DEDUCED). -/
def haltCore (s : State) (core cause : Nat) : State :=
  let s1 := clearStep s core
  let idle := fun (c : Core) => if c.stop.isSome then c else { c with stop := some ⟨none, cause, true, none⟩ }
  if (getCore s core).ctx = 0 then modCore s core idle
  else preciseStop s1 core none { blankRec s1 cause (getCore s core).ctx with core := core } true

/-- HALT: a core already stopped is left as it is. -/
def execHalt (p : Packet) (s : State) : Out :=
  coreForms p 0x26 false (fun s c =>
    finishCmd (if (getCore s c).stop.isSome then s else haltCore s c 0x5F) p .ok 0) s

/-- LIST (log 8, DEDUCED). -/
def execList (p : Packet) (s : State) : Out :=
  coreCmd p 0x27 (fun s c =>
    let ts := teamsAt s c (pktCtx p)
    let entry := fun (t : Team) => wordBytes [t.id % 2 ^ 32 + t.part % 4 * 2 ^ 32, launchWord s t]
    hostPut s p.w3.toNat (bytesOf 8 ts.length ++ (ts.map entry).flatten)) s

end Sys2Proof.Machine
end

