-- ==== Sys2Proof/Machine/Link.lean ====
section
/-! DEFINITION. What arrives over the links (23 R420-R433, 08 R173, 22 R414): host transactions, the ports, inbound peer accesses,
and the answers of peers. -/

namespace Sys2Proof.Machine

/-! ## Accesses from outside (R426, R429) -/

/-- Whether the device takes a host transaction (R422, R445, R447): in SLEEP only table space can be reached, where the POWER that ends
it is appended (log 42, DEDUCED). -/
def hostOk (s : State) (sp : Space) : Bool := hostUp s && s.mgmt.bootok && (s.mgmt.pstate != 2 || sp == .table)

/-- Where an access from outside lies, with its leaf, or its cause: a protected page refuses it, and so does a page in a peer window
(log 42, DEDUCED). -/
def outerPlace (s : State) (sp : Space) (va n : Nat) (need : Need) : Except Nat (Place × Nat) :=
  match sp with
  | .table => if va + n ≤ s.mgmt.tssize then .ok (.table va, 0) else .error 0x64
  | .ctx id =>
    if (getCtx s id).st = .free then .error 0x64
    else
      match xlateOuter s id va need with
      | .bad c => .error c
      | .miss => .error 0x01
      | .ok (.peer _ _) _ => .error 0x64
      | .ok p leaf => .ok (p, leaf)

/-- Who reaches in from outside: the host, or the link agent that performs a peer device's accesses (R382). -/
inductive Outer where
  | host
  | link (dev : Nat)
  deriving DecidableEq, Repr

/-- What a party outside has seen, and its number as a reader. -/
def outSeen (s : State) : Outer → View
  | .host => s.hostSeen
  | .link d => tabGet ⟨[], 0⟩ s.linkSeen d
def outReader : Outer → Nat
  | .host => 1026
  | .link d => 1027 + d

/-- A party outside has seen more. -/
def outSees (s : State) (o : Outer) (v : View) : State :=
  match o with
  | .host => { s with hostSeen := joinView s.hostSeen v }
  | .link d => { s with linkSeen := tabPut s.linkSeen d (joinView (outSeen s o) v) }

/-- Whether a party outside orders an access of its program before or after this one (R389): the links carry no roles, so it is free
(log 5, DESIGN CHOICE). -/
def outOrders (s : State) : Bool := Config.freeBit s.free (2 ^ 49)

/-- A party outside reads bytes of a memory (R394): it has seen what it found, and joins the releases it acquires. -/
def outReads (s : State) (o : Outer) (first a : Nat) (now : List Byte) : State × List Byte :=
  let f := readBytes s (outSeen s o).seen.contains (outReader o) first a now
  let got := if outOrders s then relsView (f.rels.filter fun r => inclusive r .sys .outside) else ⟨[], 0⟩
  (outSees s o (joinView ⟨f.seen, 0⟩ got), f.bytes)

/-- What a party outside writes comes after what it has seen, and may be a release (R389). -/
def outWrites (s : State) (o : Outer) : Author :=
  let v := outSeen s o
  ⟨none, v.seen, false, if outOrders s then [⟨.outside, .sys, v, false⟩] else []⟩

/-- What has been written since `s0` is seen by the party outside that wrote it. -/
def outWrote (s0 s : State) (o : Outer) : State := outSees s o ⟨madeSince s0 s, 0⟩

/-- Reads bytes of one block for a party outside. -/
def outerRead (s : State) (o : Outer) (sp : Space) (va n : Nat) : Except Nat (State × List Byte) :=
  match outerPlace s sp va n .load with
  | .error c => .error c
  | .ok (p, _) =>
    if placePoison s p then .error 0x63
    else
      match p with
      | .dev k => .ok (outReads (readThrough s (k / 256)) o 0 k (placeBytes s p n))
      | .host a => .ok (outReads s o hostGrains a (placeBytes s p n))
      | _ => .ok (s, placeBytes s p n)

/-- Bytes at their place in a block. -/
def padBlock (a : Nat) (bytes : List (Option Byte)) : List (Option Byte) :=
  List.replicate (a % 256) none ++ bytes ++ List.replicate (256 - a % 256 - bytes.length) none

/-- A block is written for a party outside: debited from POOL and refunded as an engine write (R209, R426); `store` says whether the debit
is to be settled. -/
def outerBlock (s : State) (id va k leaf : Nat) (store : State → Bool → State) : Except Nat State :=
  let deb := leafDebits leaf
  let paid : State × Bool := if deb then debit8 s .pool id else (s, true)
  if paid.2 then .ok (store (markDirty paid.1 (homeDie (k / 256)) id va) deb) else .error 0x20

/-- Writes masked bytes of one block for a party outside; in table space the mirror of the remap tables stays as it is (R442)
(log 42, DEDUCED). -/
def outerWrite (s : State) (o : Outer) (sp : Space) (va : Nat) (bytes : List (Option Byte)) : Except Nat State :=
  match outerPlace s sp va bytes.length .store with
  | .error c => .error c
  | .ok (p, leaf) =>
    match p, sp with
    | .table a, _ => .ok (tableWrite s a bytes)
    | .host a, _ => .ok (outWrote s (hostStore (outWrites s o) s a bytes) o)
    | .dev k, .ctx id => (outerBlock s id va k leaf fun s1 deb =>
        storeOver (outWrites s o) s1 id .pool deb (k / 256) (padBlock k bytes)).map fun s1 => outWrote s s1 o
    | _, _ => .error 0x64

/-- One location's operations in order (R169): the final value and the old value that each sees. -/
def rmwChain (w : Width) (md : AtomMod) : Nat → List (W64 × W64) → Nat × List Nat
  | m, [] => (m, [])
  | m, o :: os =>
    match rmwChain w md (rmwNew w md m o.1.toNat o.2.toNat) os with
    | (v, olds) => (v, m :: olds)

/-- A party outside as one that performs an RMW: its roles are free (log 5, DESIGN CHOICE). -/
def outerBy (s : State) (o : Outer) : RmwBy :=
  ⟨.outside, .sys, outOrders s, outOrders s, false, outSeen s o, [], []⟩

/-- Operations on one location for a party outside, in their order (R169): the old values, and the state after them. -/
def outerRmw (s : State) (o : Outer) (sp : Space) (va : Nat) (w : Width) (md : AtomMod) (ops : List (W64 × W64)) :
    Except Nat (State × List Nat) :=
  let n := widthBytes w
  match outerPlace s sp va n .rmw with
  | .error c => .error c
  | .ok (p, leaf) =>
    if placePoison s p then .error 0x63
    else
      let g := (ops.map fun x => (⟨0, va, x.1.toNat, x.2.toNat⟩, p)).foldl (rmwOne w md (outerBy s o)) (rmwNone s)
      let done_ := fun (s1 : State) =>
        (g.joined.foldl (fun s e => outSees s o e.2) (outSees s1 o ⟨g.seen, 0⟩), g.olds.map (·.2))
      match p, sp with
      | .table a, _ =>
        match rmwChain w md (natOf (placeBytes s p n)) ops with
        | (v, olds) => .ok (tableWrite s a ((bytesOf n v).map some), olds)
      | .host _, _ => .ok (done_ g.s)
      | .dev k, .ctx id =>
        (outerBlock g.s id va k leaf fun s1 deb => rmwStore g s1 id .pool deb (k / 256)).map done_
      | _, _ => .error 0x64

/-- The device's answer to a transaction. -/
def answer (s : State) (a : Answer) : State := { s with answers := s.answers ++ [a] }

/-- After a host transaction: what it may have made room for is tried again (log 42, DEDUCED). -/
def hostDone (s : State) (a : Answer) : Out := done (answer (flushReplies s.replies.length s) a)

/-! ## Host transactions (R429-R431) -/

/-- Whether a length and an address are ones the host link carries: 8 to 256 bytes, naturally aligned (log 10, DESIGN CHOICE). -/
def hostSpan (a n : Nat) : Bool := (n == 8 || n == 16 || n == 32 || n == 64 || n == 128 || n == 256) && a % n == 0

/-- The context, the slot and the peer address of an access that lies in a peer window of a context's space. -/
def farPlace (s : State) (sp : Space) (va : Nat) (need : Need) : Option (Nat × Nat × Nat) :=
  match sp with
  | .table => none
  | .ctx id =>
    if (getCtx s id).st = .free then none
    else
      match xlateWalk s id va need with
      | .ok (.peer slot a) leaf => if leafProt leaf then none else some (id, slot, a)
      | _ => none

/-- The device asks a peer for the host, which is answered once the peer has answered (log 42, DEDUCED). -/
def hostAsk (s : State) (va : Nat) (f : Nat × Nat × Nat) (q : PeerAsk) : Out :=
  match sendPeer s 0 f.1 f.2.1 va f.2.2 q with
  | (s1, id) => .next { s1 with hostAsks := s1.hostAsks ++ [id] }

/-- What a host read acquires: the commits that the CL it has read covers, of every sequence whose CL lies in the bytes (R321). -/
def clRead (s : State) (sp : Space) (a : Nat) (bs : List Byte) : View :=
  let told := fun (r : SeqRel) => r.sp == spaceNo sp && decide (a ≤ r.handle) && decide (r.handle + 4 ≤ a + bs.length) &&
    decide (r.level ≤ natOf ((bs.drop (r.handle - a)).take 4))
  (s.seqRels.filter told).foldl (fun v r => joinView v r.view) ⟨[], 0⟩

/-- A read from a space. -/
def hostReadSpace (sp : Space) (addr len : Nat) (s : State) : Out :=
  if hostOk s sp ∧ hostSpan addr len then
    match farPlace s sp addr .load with
    | some f => hostAsk s addr f ⟨false, List.replicate len none, none, [], none, len, false⟩
    | none =>
      match outerRead s .host sp addr len with
      | .error c => hostDone s (.failed c)
      | .ok (s1, bs) => hostDone (outSees s1 .host (clRead s1 sp addr bs)) (.data bs)
  else .next s

/-- The words m0 to m12 of the management block as a read finds them: every reserved bit is 0 (R5, R448) (log 51, DEDUCED). -/
def mgmtWords (m : Mgmt) : List Nat :=
  [m.pstate % 4 + bitNat m.trip * 2 ^ 2 + bitNat m.bootok * 2 ^ 3 + m.temp.toNat * 2 ^ 8, m.devnum % 2 ^ 8, m.time % 2 ^ 64,
    m.tsbase % 2 ^ 56, m.tssize % 2 ^ 56, m.ctlq, m.replyq, m.pageq, m.coreq, m.eventq, m.outb, m.inb, m.remap % 2 ^ 56]

/-- A MANAGEMENT READ (R447, R448): answered whenever the host link carries flits, with BOOTOK 0 too. Nothing lies above m12
(log 51, DEDUCED). -/
def hostReadControl (addr len : Nat) (s : State) : Out :=
  if hostUp s ∧ hostSpan addr len then
    let bs := ((mgmtWords s.mgmt).map (bytesOf 8)).flatten
    hostDone s (if addr + len ≤ bs.length then .data ((bs.drop addr).take len) else .failed 0x64)
  else .next s

/-- HOST_READ. -/
def execHostRead (src : HostSource) (addr len : Nat) (s : State) : Out :=
  match src with
  | .space sp => hostReadSpace sp addr len s
  | .control => hostReadControl addr len s

/-- HOST_WRITE. -/
def execHostWrite (sp : Space) (addr : Nat) (bytes : List (Option Byte)) (s : State) : Out :=
  if hostOk s sp ∧ hostSpan addr bytes.length then
    match farPlace s sp addr .store with
    | some f => hostAsk s addr f ⟨true, padBlock addr bytes, none, [], none, 256, false⟩
    | none =>
      match outerWrite s .host sp addr bytes with
      | .error c => hostDone s (.failed c)
      | .ok s1 => hostDone s1 .ack
  else .next s

/-- HOST_RMW. -/
def execHostRmw (sp : Space) (addr : Nat) (w : Width) (md : AtomMod) (operand new : W64) (s : State) : Out :=
  if hostOk s sp ∧ (w = .b32 ∨ w = .b64) ∧ addr % widthBytes w = 0 then
    match farPlace s sp addr .rmw with
    | some f => hostAsk s addr f ⟨false, [], some (w, md, [(operand, new)]), [0], none, widthBytes w, false⟩
    | none =>
      match outerRmw s .host sp addr w md [(operand, new)] with
      | .error c => hostDone s (.failed c)
      | .ok (s1, olds) => hostDone s1 (.data (bytesOf (widthBytes w) (olds.headD 0)))
  else .next s

/-- PTREE.REMOVE (R430): a node that is not USED, is the root, has a reference or has a child is status 12. -/
def loomRemove (t : Txn) (pool node : Nat) : Loomed :=
  match txReadL t (pool + 8) 8 with
  | (t0, w1) =>
    let hd := { hdrOf 0 [] with slg := field w1 32 5, tpg := field w1 37 3, pool := pool }
    if !(txOk t0) then loomStuck t0
    else
      withPool t0 hd fun t1 p =>
        if node = 0 ∨ p.nnode ≤ node then loomStatus t1 12
        else
          match txBytesLong 3 t1 (nodeAt p node) 40 with
          | (t2, bs) =>
            let w := nth 0 (wordsOf bs)
            if !(txOk t2) then loomStuck t2
            else if !(bitAt (w 4) 0) || field (w 1) 32 32 != 0 || field (w 2) 32 32 != 0 then loomStatus t2 12
            else
              let t3 := unlinkNode p node (field (w 3) 0 32) p.nnode t2 (nodeAt p (field (w 2) 0 32) + 20)
              match pageCount t3 p (field (w 1) 0 32) (-1) with
              | (t4, n) =>
                let t5 := if n = 0 then pushPage hd p t4 (field (w 1) 0 32) else t4
                let t6 := txWriteL (txWriteL t5 (nodeAt p node + 32) 8 0) (nodeAt p node + 24) 4 p.nhead
                loomRes (txWriteL t6 (p.at_ + 36) 4 node) 0

/-- Performs a loom operation for the host (R324, R429): POOL pays its debits, and `k` says what else follows from its result; the copy of a
page comes before what the host does next (R401) (log 42, DEDUCED). -/
def hostLoomThen (s : State) (sp : Space) (h : Nat) (f : Txn → Loomed) (k : State → Nat → State) (words : Nat → List W64) : Out :=
  let r := f (txStart s sp true)
  match txFinish r.tx (loomDie s sp h) .pool with
  | .fault c _ s1 => hostDone s1 (.failed c)
  | .done s1 =>
    let s2 := match r.cl with
      | some c => afterCl s1 sp h c
      | none => s1
    hostDone (k (if r.tx.cows.isEmpty then s2 else outSees s2 .host ⟨copiedCodes r.tx s1, 0⟩) r.res) (.words (words r.res))

/-- A loom operation that answers its result or status. -/
def hostLoomGo (s : State) (sp : Space) (h : Nat) (f : Txn → Loomed) : Out :=
  hostLoomThen s sp h f (fun s1 _ => s1) fun r => [BitVec.ofNat 64 r]

/-- A form of KVT that writes rows: the host has no scratchpad for them, and only the page's word is answered (log 42, DEDUCED). -/
def hostRows (s : State) (sp : Space) (h : Nat) (page : Bool) (p0 : Nat) : Out :=
  if page then hostLoomGo s sp h fun t => loomKvtPage t h p0
  else hostLoomThen s sp h (fun t => loomKvtRope t h) (fun s1 _ => s1) fun _ => []

/-- Whether the operand words of a host's form keep its descriptor's rules (0x5A, R324). -/
def hostWordsOk (form : LoomForm) (w : Nat → Nat) : Bool :=
  match form with
  | .seqReserve => decide (w 0 < 2 ^ 16) && decide (1 ≤ w 0)
  | .seqAddr => decide (w 0 < 2 ^ 32)
  | .seqCommit | .seqVoid => decide (w 0 < 2 ^ 48) && decide (1 ≤ field (w 0) 32 16)
  | .seqWatch => decide (w 0 < 2 ^ 4)
  | .seqWait => decide (w 0 < 2 ^ 36)
  | .seqFork => forkDescOk w
  | .ptreeLookup => tokenWordOk (w 0) && decide (w 1 < 2 ^ 32)
  | .ptreeInsert => tokenWordOk (w 0)
  | .kvtPage => kvtWordOk (w 0)
  | .kvtRope | .kvtBoth => kvtRopeOk w
  | .seqLen | .ptreeUnref => true

/-- SEQ.WATCH for the host, which has no cl register to bind: it answers 0, or the form's status (R301, R309) (log 42, DEDUCED). -/
def loomHostWatch (t : Txn) (h : Nat) : Loomed :=
  if h = 0 then loomRes t 0 else withHdr t h false fun t1 hd => if hd.released then loomStatus t1 5 else loomRes t1 0

/-- A sequence that a host transaction has released is read no more by the ATTN operations of its context (R335). -/
def hostUnref (s : State) (sp : Space) (h : Nat) : State :=
  match sp with
  | .ctx id => attnStrike s id fun o => opWord o 2 == h
  | .table => s

/-- A commit or void of the host from a slot on: a release at .sys (R321). -/
def hostClosed (s : State) (sp : Space) (h base : Nat) : State :=
  addSeqRel (commitTo s sp h) (spaceNo sp) h (base + 1) s.hostSeen

/-- What a form that succeeds for the host acquires or releases (R321). -/
def hostForked (s : State) (sp : Space) (h : Nat) (w : Nat → Nat) (r : Nat) : State :=
  if r < 2 ^ 63 then forkRels s (spaceNo sp) h (forkDesc w).child (forkDesc w).n s.hostSeen else s
def hostLooked (s : State) (sp : Space) (h r : Nat) : State :=
  if r < 2 ^ 63 then (let x := lookupRels s sp h; outSees x.1 .host x.2) else s

/-- Whether a space is that of no context (R204). -/
def spaceGone (s : State) : Space → Bool
  | .ctx id => (getCtx s id).st == .free
  | .table => false

/-- HOST_LOOM (R429). SEQ.WAIT meets a cl register that nothing is bound to (log 42, DEDUCED). -/
def execHostLoom (sp : Space) (form : LoomForm) (handle : W64) (ops : List W64) (s : State) : Out :=
  let h := handle.toNat
  let w := fun (i : Nat) => (nth 0#64 ops i).toNat
  let one := fun (r : Nat) => [BitVec.ofNat 64 r]
  if !(hostOk s sp) then .next s
  else if spaceGone s sp then hostDone s (.failed 0x64)
  else if !(hostWordsOk form w) then hostDone s (.failed 0x5A)
  else
    match form with
    | .seqReserve => hostLoomGo s sp h (fun t => loomReserve t h (w 0))
    | .seqAddr => hostLoomGo s sp h (fun t => loomAddr t h (w 0))
    | .seqCommit =>
      hostLoomThen s sp h (fun t => loomClose t false h (field (w 0) 0 32) (field (w 0) 32 16))
        (fun s1 _ => hostClosed s1 sp h (field (w 0) 0 32)) one
    | .seqVoid =>
      hostLoomThen s sp h (fun t => loomClose t true h (field (w 0) 0 32) (field (w 0) 32 16))
        (fun s1 _ => hostClosed s1 sp h (field (w 0) 0 32)) one
    | .seqWatch => hostLoomGo s sp h (fun t => loomHostWatch t h)
    | .seqWait => hostDone s (.failed 0x59)
    | .seqFork => hostLoomThen s sp h (fun t => loomFork t h w) (fun s1 r => hostForked s1 sp h w r) one
    | .seqLen => hostLoomThen s sp h (fun t => loomLen t h)
        (fun s1 r => outSees s1 .host (seqView s1 (spaceNo sp) h (r % 2 ^ 32))) one
    | .ptreeLookup => hostLoomThen s sp h (fun t => loomLookup t h (w 0) (w 1)) (fun s1 r => hostLooked s1 sp h r) one
    | .ptreeInsert => hostLoomThen s sp h (fun t => loomInsert t h (w 0))
        (fun s1 _ => insertRels s1 sp h) one
    | .ptreeUnref => hostLoomThen s sp h (fun t => loomUnref t h) (fun s1 _ => hostUnref s1 sp h) one
    | .kvtPage => hostLoomGo s sp h (fun t => loomKvtPage t h (kvtDesc w).p0)
    | .kvtRope => hostRows s sp h false (kvtDesc w).p0
    | .kvtBoth => hostRows s sp h true (kvtDesc w).p0

/-- PTREE_REMOVE (R430). -/
def execPtreeRemove (sp : Space) (pool node : Nat) (s : State) : Out :=
  if !(hostOk s sp) then .next s
  else if spaceGone s sp then hostDone s (.failed 0x64)
  else hostLoomGo s sp pool (fun t => loomRemove t pool node)

/-- The signed part of a report (R431). -/
def reportHead (s : State) (nonce : BitVec 384) (ctx : Nat) : List Byte :=
  let id := ctx % 2 ^ 16
  padTo 256 (bytesOf 16 Config.serial.toNat ++ bytesOf 48 Config.bootHash.toNat ++ bytesOf 48 Config.runtimeHash.toNat ++
    bytesOf 48 nonce.toNat ++ bytesOf 8 (id + bitNat (getCtx s id).conf * 2 ^ 16) ++ bytesOf 4 s.mgmt.devnum ++ bytesOf 4 s.mgmt.time)

/-- ATTEST (R431, R432): answered even when the firmware did not verify (R447) (log 21, DESIGN CHOICE; log 42, DEDUCED). -/
def execAttest (nonce : BitVec 384) (ctx : Nat) (s : State) : Out :=
  if hostUp s then
    let head := reportHead s nonce ctx
    hostDone s (.report (head ++ padTo 16608 ((Config.reportSignatures head).take 16608)))
  else .next s

/-! ## Ports (R421, R422) -/

/-- Changes the state of a port. -/
def setPort (s : State) (q : Nat) (st : PortSt) : State :=
  { s with ports := setAt s.ports q { nth Port.reset s.ports q with st := st } }

/-- A record of a port in the device event sequence: its w5 holds the port and the lane (log 9, DESIGN CHOICE). -/
def portRec (s : State) (cause port lane : Nat) : FaultRec := { blankRec s cause 0 with w5 := port % 256 + lane % 256 * 2 ^ 8 }

/-- TRAIN (R422). -/
def execTrain (port : Nat) (s : State) : Out :=
  match (nth Port.reset s.ports port).st with
  | .down | .degraded | .failed => done (setPort s port .training)
  | _ => .next s

/-- LINK_TRAINED (R422): a training that fails is recorded. -/
def execLinkTrained (port : Nat) (r : TrainResult) (s : State) : Out :=
  if (nth Port.reset s.ports port).st = .training then
    match r with
    | .full => done (setPort s port .up)
    | .half => done (setPort s port .degraded)
    | .failed => done (pushRec (setPort s port .failed) (portRec s 0xA6 port 0))
  else .next s

/-- The lanes of a port, its spare among them (R420). -/
def laneCount (port : Nat) : Nat := if port = hostPort then 16 + 1 else if port < 16 then 8 + 1 else 0

/-- A lane fails (R422): the spare takes a lane's place, or a port with no spare left trains again. Whether a half-width set of
lanes remains to a DEGRADED port is free (log 44, DESIGN CHOICE). -/
def laneFailed (s : State) (port lane : Nat) : State :=
  if laneCount port ≤ lane then s
  else match (nth Port.reset s.ports port).st with
  | .up => pushRec (setPort s port .spared) (portRec s 0xA3 port lane)
  | .spared => setPort s port .training
  | .degraded =>
    if Config.freeBit s.free (2 ^ 44 + lane) then s else pushRec (setPort s port .failed) (portRec s 0xA6 port lane)
  | _ => s

/-- LANE_FAILURE (log 44, DESIGN CHOICE). -/
def execLaneFailure (port lane : Nat) (s : State) : Out := done (laneFailed s port lane)

/-- FLIT_CRC_ERROR (R421): the receiver has taken every flit before this one, and this one and every later one are sent again, in
order. -/
def execFlitCrcError (port idx : Nat) (s : State) : Out :=
  let p := nth Port.reset s.ports port
  if portUsable p ∧ p.rx ≤ idx ∧ idx < p.tx then done { s with ports := setAt s.ports port { p with rx := idx } } else .next s

/-! ## Inbound accesses (R414, R425-R427) -/

/-- An entry of the inbound table. -/
def inboundEntry (s : State) (p : Nat) : Nat := memNat s.tspace (s.mgmt.inb + 8 * p) 8

/-- The first peer slot of a source's accesses that a test takes, and its entry (R426) (log 43, DEDUCED). -/
def inboundSlot (s : State) (dev rctx : Nat) (ok : Nat → Bool) : Option (Nat × Nat) :=
  ((List.range 48).map fun p => (p, inboundEntry s p)).find? fun e =>
    bitAt e.2 0 && field e.2 1 8 == dev && field e.2 9 12 == rctx && ok e.2

/-- The address of an inbound access, and whether it writes. -/
def inAddr : PeerAccess → Nat
  | .read a _ => a
  | .write a _ => a
  | .rmw a _ _ _ => a
def inWrites : PeerAccess → Bool
  | .read _ _ => false
  | _ => true

/-- Sets the PACC bit of a peer slot in the leaf of an address (R363). -/
def markPeer (s : State) (id va slot : Nat) : State :=
  match walk s id va with
  | none => s
  | some l => setCompanion s l.slotAt (2 ^ (2 + slot))

/-- The bytes of an inbound access, and what it needs of its page. -/
def inLength : PeerAccess → Nat
  | .read _ n => n
  | .write _ bs => bs.length
  | .rmw _ w _ _ => widthBytes w
def inNeed : PeerAccess → Need
  | .read _ _ => .load
  | .write _ _ => .store
  | .rmw _ _ _ _ => .rmw

/-- Performs an inbound access in the window's context: the state, and its answer or its cause. Its page is marked once it is
translated, before it is performed (R363, R426). -/
def inboundGo (s : State) (id slot dev : Nat) (acc : PeerAccess) : State × Except Nat Answer :=
  match outerPlace s (.ctx id) (inAddr acc) (inLength acc) (inNeed acc) with
  | .error c => (s, .error c)
  | .ok _ =>
    let s1 := markPeer s id (inAddr acc) slot
    match acc with
    | .read a n =>
      match outerRead s1 (.link dev) (.ctx id) a n with
      | .error c => (s1, .error c)
      | .ok (s2, bs) => (s2, .ok (.data bs))
    | .write a bytes =>
      match outerWrite s1 (.link dev) (.ctx id) a bytes with
      | .error c => (s1, .error c)
      | .ok s2 => (s2, .ok .ack)
    | .rmw a w md ops =>
      match outerRmw s1 (.link dev) (.ctx id) a w md ops with
      | .error c => (s1, .error c)
      | .ok (s2, olds) => (s2, .ok (.data (olds.map (bytesOf (widthBytes w))).flatten))

/-- Whether an inbound access lies in one block (log 10, DESIGN CHOICE). -/
def inboundSpan : PeerAccess → Bool
  | .read a n => decide (1 ≤ n) && decide (a % 256 + n ≤ 256)
  | .write a bs => decide (1 ≤ bs.length) && decide (a % 256 + bs.length ≤ 256)
  | .rmw a w _ _ => a % widthBytes w == 0

/-- An inbound access fails (R414): 0xA5 goes to the fault queue of the context that owns the window, and the cause to the peer
(log 43, DEDUCED). -/
def inboundFail (s : State) (id slot dev cause addr : Nat) : Out :=
  done (answer (pushRec s { blankRec s 0xA5 id with
    addr := addr, w5 := cause + dev % 256 * 2 ^ 8 + slot * 2 ^ 16 }) (.failed cause))

/-- PEER_INBOUND_ACCESS (R426, R427): performed at once at the home slice, or failed. A source that no entry names owns no
window here, so its failure is a device event (log 43, DEDUCED). -/
def execPeerInboundAccess (dev rctx : Nat) (acc : PeerAccess) (s : State) : Out :=
  if s.mgmt.pstate ≠ 2 ∧ s.mgmt.bootok ∧ inboundSpan acc then
    match inboundSlot s dev rctx fun e => !(bitAt e 33 && inWrites acc) with
    | some (slot, e) =>
      match inboundGo s (field e 21 12) slot dev acc with
      | (s1, .error c) => inboundFail s1 (field e 21 12) slot dev c (inAddr acc)
      | (s1, .ok a) => done (answer s1 a)
    | none =>
      match inboundSlot s dev rctx fun _ => true with
      | some (slot, e) => inboundFail s (field e 21 12) slot dev 0x64 (inAddr acc)
      | none => inboundFail s 0 0 dev 0x64 (inAddr acc)
  else .next s

/-! ## The answers of peers (R173, R281, R328, R427) -/

/-- The width of a number of bytes. -/
def widthOf (n : Nat) : Width := if n = 1 then .b8 else if n = 2 then .b16 else if n = 4 then .b32 else .b64

/-- What a peer's data gives a pending load or RMW: its registers' values. -/
def peerData (r : PeerReq) (data : List Byte) (p : Pending) : Pending :=
  let w := widthOf r.size
  match r.rmw, r.reg with
  | some (_, _, _), some d =>
    { p with writes := p.writes ++ (r.lanes.zipIdx.map fun e =>
        (loadOut w d (natOf ((data.drop (e.2 * r.size)).take r.size))).map fun x => PendWrite.mk e.1 x.1 x.2).flatten }
  | some _, none => p
  | none, some d =>
    let bs := mergeBytes (data.take r.size) r.bytes
    match r.lanes with
    | [] => { p with kwrite := some (d, kldVal r.sx bs) }
    | l :: _ => { p with writes := p.writes ++ (loadOut w d (loadVal w r.sx bs)).map fun x => ⟨l, x.1, x.2⟩ }
  | none, none => p

/-- A peer's failure in a pending load or RMW: the lowest lane's is kept (R173, R176). -/
def peerFault (r : PeerReq) (cause : Nat) (p : Pending) : Pending :=
  let f : DataFault := ⟨0x65, r.lanes.head?, r.va, cause + r.dev * 2 ^ 8⟩
  let first := match p.fault with
    | none => true
    | some g => decide (f.lane.getD 0 < g.lane.getD 0)
  if first then { p with fault := some f } else p

/-- A pending result takes one request's answer. -/
def peerFill (r : PeerReq) (ans : PeerAnswer) (p : Pending) : Pending :=
  if p.peers.contains r.id then
    let q := { p with peers := p.peers.filter (· != r.id) }
    match ans with
    | .ok data => peerData r data q
    | .failed c => peerFault r c.toNat q
  else p

/-- An ask takes the answer of the access it made. -/
def fillAsk (id : Nat) (ans : PeerAnswer) (a : CopyAsk) : CopyAsk := if a.id = id then { a with answer := some ans } else a

/-- A team's asks take an answer: one that waits for words from a peer goes on once it has them all (R144). -/
def teamAsks (id : Nat) (ans : PeerAnswer) (t : Team) : Team :=
  let asks := t.asks.map (fillAsk id ans)
  { t with
    asks := asks, status := if t.status == .waiting .fetch && asks.all (·.answer.isSome) then .ready else t.status }

/-- The asks of copy commands, matrix operations and teams take an answer. -/
def fillAsks (s : State) (id : Nat) (ans : PeerAnswer) : State :=
  let copy := fun (c : CopyCmd) => { c with asks := c.asks.map (fillAsk id ans) }
  let op := fun (o : MOp) => { o with asks := o.asks.map (fillAsk id ans) }
  { s with
    cores := s.cores.map fun e => (e.1, { e.2 with
      copyQ := e.2.copyQ.map fun q => q.map copy, matQ := e.2.matQ.map fun q => q.map op })
    teams := s.teams.map fun e => (e.1, if e.2.asks.isEmpty then e.2 else teamAsks id ans e.2) }

/-- The host's answer to an access that a peer has answered (R429): a failure there is PEER.LOAD or PEER.STORE (log 42, DEDUCED). -/
def hostAnswer (r : PeerReq) (ans : PeerAnswer) : Answer :=
  match ans with
  | .failed _ => .failed (if r.store then 0x66 else 0x65)
  | .ok data => if r.store then .ack else .data ((data ++ List.replicate r.size 0#8).take r.size)

/-- An outstanding access is answered, or has timed out. A store that failed is kept for its team's next release at .sys
(log 60, DEDUCED). -/
def peerAnswered (s : State) (r : PeerReq) (ans : PeerAnswer) : State :=
  let rest := s.peers.filter fun q => q.id != r.id
  if s.hostAsks.contains r.id then
    answer { s with peers := rest, hostAsks := s.hostAsks.filter (· != r.id) } (hostAnswer r ans)
  else if r.store then
    match ans with
    | .ok _ => { s with peers := rest }
    | .failed c =>
      if (getTeam s r.uid).status = .ended then { s with peers := rest }
      else { s with peers := s.peers.map fun q => if q.id = r.id then { q with failed := some c.toNat } else q }
  else
    let s1 : State := { s with peers := rest }
    if r.uid = 0 then fillAsks s1 r.id ans
    else rmwAnswered (modTeam s1 r.uid fun t => { t with pend := t.pend.map (peerFill r ans) }) r.uid

/-- The outstanding access of a number. -/
def openReq (s : State) (id : Nat) : Option PeerReq := s.peers.find? fun r => r.id == id && r.failed.isNone

/-- PEER_RESPONSE (R173): an answer to an access that is no longer outstanding is discarded (R414). -/
def execPeerResponse (id : Nat) (ans : PeerAnswer) (s : State) : Out :=
  match openReq s id with
  | none => .next s
  | some r => if r.port = 16 then .next s else done (peerAnswered s r ans)

/-- PEER_TIMEOUT (R173): after 2 ms an access fails; no remote cause came (log 43, DEDUCED). -/
def execPeerTimeout (id : Nat) (s : State) : Out :=
  match openReq s id with
  | none => .next s
  | some r => if r.sent + 2000000 ≤ s.mgmt.time then done (peerAnswered s r (.failed 0#8)) else .next s

end Sys2Proof.Machine
end

