-- ==== Sys2Proof/Machine/Stacks.lean ====
section
/-! DEFINITION. The memory stacks (24 R434-R444): refresh, mitigation, scrubbing, the leaky buckets and row sparing. -/

namespace Sys2Proof.Machine

/-- Whether a stack, a channel and a bank exist (R434). -/
def bankExists (stack chan bank : Nat) : Bool := decide (stack < 8) && decide (chan < 32) && decide (bank < 64)

/-- A bank's number, and a row's, as a stack numbers them. -/
def bankNo (chan bank : Nat) : Nat := 64 * chan + bank
def rowNo (chan bank row : Nat) : Nat := 32768 * bankNo chan bank + row

/-- Whether a request to a bank waits: it has received a retry response and has not been served since (R436, R437). -/
def bankWanted (s : State) (stack b : Nat) : Bool :=
  (stackOf s stack).wanted.contains b ||
    s.teams.any fun e => e.2.pend.any fun p => p.retryAt.isSome && p.banks.contains (2048 * stack + b)

/-- REFRESH (R436): a bank that owes a refresh and is free takes it; while requests to it wait, it postpones all but the eighth. -/
def execRefresh (stack chan bank : Nat) (s : State) : Out :=
  let k := stackOf s stack
  let b := bankNo chan bank
  let time := s.mgmt.time
  if bankExists stack chan bank ∧ 1 ≤ owedBy time k b ∧ tabGet 0 k.busy b ≤ time ∧
      (bankWanted s stack b = false ∨ owedBy time k b = 8) then
    done (modStack s stack (takeRefresh time 1 350 b))
  else .next s

/-- MITIGATION_REFRESH (R438): at 2048 activations the row's neighbours are refreshed; a bank that owes eight refreshes takes
them first (log 45, DEDUCED). -/
def execMitigationRefresh (stack chan bank row : Nat) (s : State) : Out :=
  let k := stackOf s stack
  let b := bankNo chan bank
  let time := s.mgmt.time
  if bankExists stack chan bank ∧ 2048 ≤ actCount time k (rowNo chan bank row) then
    let n := if owedBy time k b = 8 then 8 else 0
    done (modStack s stack fun k =>
      let k1 := takeRefresh time n (350 * n + 280) b k
      { k1 with acts := tabErase k1.acts (rowNo chan bank row) })
  else .next s

/-! ## Buckets (R441) -/

/-- The lowest count of a list of buckets. -/
def lowBucket : List Bucket → Nat
  | [] => 0
  | b :: bs => bs.foldl (fun m x => min m x.count) b.count

/-- A corrected error in a row (R441). -/
def bumpBucket (row : Nat) (l : List Bucket) : List Bucket :=
  if l.any (·.row == row) then l.map fun b => if b.row = row then { b with count := b.count + 1 } else b
  else if l.length < 256 then l ++ [⟨row, 1⟩]
  else
    match l.findIdx? (fun b => b.count == lowBucket l) with
    | some i => setAt l i ⟨row, 1⟩
    | none => l

/-- The count of a row's bucket. -/
def bucketOf (row : Nat) (l : List Bucket) : Nat := match l.find? (·.row == row) with | some b => b.count | none => 0

/-- Ten minutes of device time (R441). -/
def leakTime : Nat := 600000000000

/-- BUCKET_LEAK (R441): ten minutes after the last leak every bucket leaks 1; an empty bucket holds no row. -/
def execBucketLeak (stack : Nat) (s : State) : Out :=
  if stack < 8 ∧ (stackOf s stack).leakAt + leakTime ≤ s.mgmt.time then
    done (modStack s stack fun k => { k with
      leakAt := k.leakAt + leakTime
      buckets := (k.buckets.map fun b => { b with count := b.count - 1 }).filter fun b => b.count != 0 })
  else .next s

/-! ## Row sparing (R442-R444) -/

/-- The mirror's entry of a spare row (R442). -/
def spareWord (x : Spare) : Nat := 1 + x.row % 32768 * 2 + bitNat x.ue * 2 ^ 16

/-- Writes the mirror's entry of a spare row. -/
def mirrorSpare (stack : Nat) (s : State) (x : Spare) : State :=
  { s with tspace := memWriteNat s.tspace (s.mgmt.remap + 8 * (16384 * stack + 8 * x.bank + x.k)) 8 (spareWord x) }

/-- w5 of a 0xA2 record (R444). -/
def spareRec (s : State) (stack chan bank row spare : Nat) (none_ ue : Bool) : FaultRec :=
  { blankRec s 0xA2 0 with
    w5 := stack + chan * 2 ^ 3 + bank * 2 ^ 8 + row % 32768 * 2 ^ 14 + spare * 2 ^ 29 + bitNat none_ * 2 ^ 32 + bitNat ue * 2 ^ 33 }

/-- A row is spared, when its bank has a spare left: the bank is busy for as long as the copy takes, which is free (R437, R442, R443)
(log 45, DEDUCED). -/
def spareRow (s : State) (stack chan bank row : Nat) (ue : Bool) : State :=
  let b := bankNo chan bank
  let k := ((stackOf s stack).spares.filter fun x => x.bank == b).length
  let calm := fun (st : Stack) => { st with buckets := st.buckets.filter fun x => x.row != rowNo chan bank row }
  if k < 8 then
    let x : Spare := ⟨b, k, row, ue⟩
    let s1 := modStack s stack fun st =>
      busyFor s.mgmt.time (Config.freeNat s.free (2 ^ 45)) b { calm st with spares := st.spares ++ [x] }
    pushRec (if s1.mgmt.remap = 0 then s1 else mirrorSpare stack s1 x) (spareRec s stack chan bank row k false ue)
  else pushRec (modStack s stack calm) (spareRec s stack chan bank row 0 true ue)

/-- ROW_SPARE (R441-R443): a row whose bucket has reached 8, or one with an uncorrectable error. -/
def execRowSpare (stack chan bank row : Nat) (ue : Bool) (s : State) : Out :=
  if bankExists stack chan bank ∧ row < 32768 ∧ (ue ∨ 8 ≤ bucketOf (rowNo chan bank row) (stackOf s stack).buckets) then
    done (spareRow s stack chan bank row ue)
  else .next s

/-! ## Patrol scrub (R439, R440) -/

/-- The block whose run holds a sector. -/
def blockAt (s : State) (x : Nat) : Option Nat :=
  (s.metas.find? fun e => decide (e.2.run ≤ x) && decide (x < e.2.run + e.2.len)).map (·.1)

/-- An uncorrectable error in a block's stored bytes (R411): the block is poison. -/
def blockError (s : State) (b : Nat) : State := setMeta s b { metaOf s b with poison := true }

/-- The row of a sector is spared at once after an uncorrectable error in it (R441). -/
def spareSector (s : State) (x : Nat) : State := spareRow s (x / 2 ^ 31) (field x 3 5) (field x 8 6) (field x 16 15) true

/-- Whether a write-back is performed: not where a demand write has changed its sector's number since the read (R440). -/
def writeBackGoes (k : Stack) (e : Nat × Nat) : Bool := tabGet 0 k.seqNo e.1 == e.2

/-- The write-backs of earlier corrections are performed or cancelled. One that is performed is an access of its row; it writes what
memory holds, and leaves its sector's number (R440) (log 46, DEDUCED). -/
def writeBacks (time : Nat) (k : Stack) : Stack :=
  let serve := fun (q : Stack) (e : Nat × Nat) => askBanks time [bankOf e.1] [rowKey e.1] q
  (k.scrub.filter (writeBackGoes k)).foldl serve { k with scrub := [] }

/-- A read of a sector corrects it on the fly (R440, R441): its row's bucket counts the error, and a write-back follows. -/
def correctSector (s : State) (x : Nat) : State :=
  modStack s (x / 2 ^ 31) fun k => { k with
    buckets := bumpBucket (rowKey x) k.buckets, scrub := k.scrub ++ [(x, tabGet 0 k.seqNo x)] }

/-- A demand read has met a corrected error in a sector of a stack (R440). -/
def correctedRead (stack sector : Nat) (s : State) : Out :=
  if stack < 8 ∧ sector < 2 ^ 31 then
    done (correctSector (modStack s stack (writeBacks s.mgmt.time)) (stack * 2 ^ 31 + sector))
  else .next s

/-- SCRUB_READ (R439-R441): earlier write-backs are performed or cancelled; none changes a value. A corrected sector counts in its
row's bucket; an uncorrectable one poisons the block whose run holds it, and its row is spared at once (log 46, DEDUCED). -/
def execScrubRead (stack sector : Nat) (r : ScrubResult) (s : State) : Out :=
  if stack < 8 ∧ sector < 2 ^ 31 then
    let x := stack * 2 ^ 31 + sector
    let s1 := serveRun (modStack s stack (writeBacks s.mgmt.time)) x 1
    match r with
    | .clean => done s1
    | .corrected => done (correctSector s1 x)
    | .uncorrectable =>
      let s2 := match blockAt s1 x with
        | some b => blockError s1 b
        | none => s1
      done (spareSector s2 x)
  else .next s

end Sys2Proof.Machine
end

