-- ==== Sys2Proof/Machine/Manage.lean ====
section
/-! DEFINITION. Containment (22 R411-R413, 20 R379, 14 R275, 12 R253), the thermal trip (25 R446), reset and the management block
(25 R447, R448). -/

namespace Sys2Proof.Machine

/-- A record of the device event sequence that names a context in its header (log 48, DEDUCED). -/
def pushDev (s : State) (r : FaultRec) : State :=
  if 16 ≤ s.evPend.length then { s with evLost := s.evLost + 1 }
  else { s with evPend := s.evPend ++ [r], evDue := s.evDue || s.evPend.isEmpty }

/-! ## Cores taken offline (R412) -/

/-- The physical core that serves a logical one (R7) (log 49, DEDUCED). -/
def physicalCore (s : State) (core : Nat) : Nat :=
  17 * clusterOf core + (if s.spareOf.contains core then 16 else core % 16)

/-- Whether the spare of a core's cluster is still free (R7). -/
def spareFree (s : State) (core : Nat) : Bool := !(s.spareOf.any fun c => clusterOf c == clusterOf core)

/-- A team is killed by an error that its record reports (R411, R412). -/
def fenceTeam (s : State) (u : Nat) : State := killTeam (pushRec s (teamRec s u 0xA7 none 0)) u

/-- A task is lost with its deque entry (R253): its join count falls as at the end of its team (R251), and its kernel completes
with STATUS 4 (log 49, DEDUCED). -/
def loseTask (s : State) (core : Nat) (x : Task) : State :=
  let s0 := if x.jv && (getCore s x.parentCore).ctx == x.ctx then joinEnd s x.parentCore x.jl x.view else s
  let s1 := modKernel s0 x.kid fun k => { k with killed := true }
  kernelEnd (pushRec s1 { blankRec s 0xA8 x.ctx with core := core, team := x.id, qnum := qnumOf s x.kid, pc := x.entry }) x.kid

/-- A task moves to the tail of the first online core's deque in a ring that has a place for it (R252, R253); with no such core it is lost
(log 49, DEDUCED). -/
def moveTask (core : Nat) (s : State) (x : Task) : State :=
  match (ringOf core).find? fun c => !((getCore s c).offline) && decide ((getCore s c).deque.length < 512) with
  | some c => modCore s c fun k => { k with deque := k.deque ++ [x] }
  | none => loseTask s core x

/-- The deque of a core moves to the tail of the next online core in its ring, in tail-to-head order (R253); tasks for which that deque has
no place among its 512 (R252) go to the next one that has, and with none are lost (log 49, DEDUCED). -/
def moveDeque (s : State) (core : Nat) : State :=
  (getCore s core).deque.reverse.foldl (moveTask core) (modCore s core fun c => { c with deque := [] })

/-- A core is taken offline (R412): its resident teams are killed, and with no spare left the teams saved for it too; a slaved
operation aborts (R190); its deque moves and its slice returns (log 49, DEDUCED). -/
def coreOff (s : State) (core : Nat) : State :=
  let spare := spareFree s core
  let gone := s.teams.filter fun e => e.2.core == core && !(e.2.status == .ended) && (e.2.placed || (e.2.saved && !spare)) &&
    !((getCtx s e.2.ctx).st == .saved)
  let rec_ := { blankRec s 0xA0 0 with core := core, w5 := physicalCore s core }
  let s1 := gone.foldl (fun s e => fenceTeam s e.1) s
  let s2 := leaveCtx (copyAbandoned (moveDeque (pairLost s1 core) core) core) core
  let s3 := modCore s2 core fun c => { c with offline := true, spareDue := spare, stop := none }
  pushRec (if spare then { s3 with spareOf := s3.spareOf ++ [core] } else s3) rec_

/-- CORE_OFFLINE. -/
def execCoreOffline (core : Nat) (s : State) : Out :=
  if core < Config.cores ∧ (getCore s core).offline = false then done (coreOff s core) else .next s

/-! ## Errors (R411, R413) -/

/-- A context is fenced (R413): its teams are killed, its kernels complete with STATUS 4, and a SAVE that was under way completes
with BADSTATE (log 48, DEDUCED). -/
def fenceCtx (s : State) (id : Nat) : State :=
  let c := getCtx s id
  match c.st with
  | .free | .fenced => s
  | st =>
    let s1 := modCtx (killAll s id) id fun c => { c with st := .fenced }
    let s2 := pushDev s1 (blankRec s1 0xA4 id)
    if st = .saving then replyTo s2 0x06 id c.saveSlot .badstate 0 else s2

/-- The context whose page holds a block, if there is one. -/
def ownerOf (s : State) (b : Nat) : Option (Nat × Nat) :=
  s.ctxs.findSome? fun e =>
    ((ctxLeaves s e.1).find? fun l => leafTgt l.bits == 0 && decide (leafBlock l.bits ≤ b) &&
      decide (b < leafBlock l.bits + blocksIn l.size)).map fun l => (e.1, l.base + 256 * (b - leafBlock l.bits))

/-- A block's metadata is lost (R379): the block is poison, its run cannot be found, and its sectors stay counted
(log 47, DEDUCED). -/
def metaLost (s : State) (b : Nat) : State :=
  let m := metaOf s b
  let s1 := poundDrop (setMeta s b { m with poison := true, len := 0, enc := 0, run := 0 }) b
  match ownerOf s b with
  | some (id, va) =>
    let s2 : State := if m.len = 0 then s1 else { s1 with lostRuns := s1.lostRuns ++ [(id, m.run, m.len)] }
    pushRec s2 { blankRec s 0x67 id with addr := va, w5 := b }
  | none => s1

/-- An uncorrectable error in a block's stored bytes: which sector of its run has it is free, and that one's row is spared
(R411, R441) (log 46, DEDUCED). -/
def blockLost (s : State) (b : Nat) : State :=
  let m := metaOf s b
  if m.len = 0 then blockError s b else spareSector (blockError s b) (m.run + Config.freeNat s.free b % m.len)

/-- The unit that an uncorrectable error strikes is contained (R411). -/
def contain (s : State) (e : ErrUnit) : State :=
  match e with
  | .block b => blockLost s b
  | .blockMeta b => metaLost s b
  | .granule core a => modCore s core fun c => { c with spadPoison := dedupNat (c.spadPoison ++ [a / 16]) }
  | .tileElem core t r c =>
    modCore s core fun k => { k with tilePoison := dedupNat (k.tilePoison ++ [tileKey t (r % 64) (c % 64)]) }
  | .team u => if (find? s.teams u).isSome ∧ (getTeam s u).status ≠ .ended then fenceTeam s u else s
  | .core c => if c < Config.cores ∧ (getCore s c).offline = false then coreOff s c else s
  | .stackRow k ch b r => if bankExists k ch b ∧ r < 32768 then spareRow s k ch b r true else s
  | .linkLane p l => laneFailed s p l
  | .context id => fenceCtx s id
  | .task core i =>
    match (getCore s core).deque[i]? with
    | some x => loseTask (modCore s core fun c => { c with deque := c.deque.eraseIdx i }) core x
    | none => s
  | .lock core n => if (getLock s core n).st = .valid then lockBreak s core n else s

/-- UNCORRECTABLE_ERROR (R411). -/
def execUncorrectableError (u : ErrUnit) (s : State) : Out := done (contain s u)

/-! ## The thermal trip (R446) -/

/-- Every core stops (log 50, DEDUCED). -/
def haltAll (s : State) : State :=
  (List.range Config.cores).foldl (fun s c => if (getCore s c).offline then s else haltCore s c 0x5F) s

/-- THERMAL_TRIP: the hottest junction is at a temperature; above 105 °C the device trips (log 50, DEDUCED). -/
def execThermalTrip (temp : Nat) (s : State) : Out :=
  let s1 : State := { s with mgmt := { s.mgmt with temp := BitVec.ofNat 8 (min temp 255) } }
  if temp ≤ 105 then done s1
  else
    let s2 := haltAll s1
    done (pushRec { s2 with mgmt := { s2.mgmt with trip := true } } (blankRec s2 0xA9 0))

/-! ## The management block (R448) -/

/-- Whether the device takes writes of the management block (R422, R447) (log 51, DEDUCED). -/
def mgmtOk (s : State) : Bool := hostUp s && s.mgmt.bootok

/-- sv.time never decreases (R103, R448) (log 3, DESIGN CHOICE). -/
def loadTime (s : State) (v : Nat) : State := if s.mgmt.time ≤ v then { s with mgmt := { s.mgmt with time := v } } else s

/-- TIME_WRITE. -/
def execTimeWrite (v : W64) (s : State) : Out := if mgmtOk s then done (loadTime s v.toNat) else .next s

/-- The mirror of the remap tables comes to stand at REMAP (R442). -/
def placeMirror (s : State) : State :=
  let a := s.mgmt.remap
  let s1 : State := { s with tspace := tabDrop s.tspace a (a + 2 ^ 20) }
  if a = 0 then s
  else s.stks.zipIdx.foldl (fun s e => e.1.spares.foldl (mirrorSpare e.2) s) s1

/-- A write of a handle or address field (R448) (log 51, DEDUCED). -/
def mgmtField (m : Mgmt) (i v : Nat) : Mgmt :=
  match i with
  | 3 => { m with tsbase := v }
  | 4 => { m with tssize := v }
  | 5 => { m with ctlq := v }
  | 6 => { m with replyq := v }
  | 7 => { m with pageq := v }
  | 8 => { m with coreq := v }
  | 9 => { m with eventq := v }
  | 10 => { m with outb := v }
  | 11 => { m with inb := v }
  | 12 => { m with remap := v }
  | _ => m

/-- Whether a field takes a value: table space is based and sized in multiples of 2 MiB, below 2^56 (log 51, DEDUCED). -/
def mgmtValueOk (i v : Nat) : Bool :=
  match i with
  | 3 | 4 => decide (v < 2 ^ 56) && v % 2 ^ 21 == 0
  | 12 => decide (v < 2 ^ 56)
  | _ => true

/-- MGMT_WRITE (R448): m0 is read only, DEVNUM and TIME are written at any time, and a handle or address field only while no
context has been created since reset. Table space leaves the reserve (R356) (log 51, DEDUCED). -/
def execMgmtWrite (field : Nat) (v : W64) (s : State) : Out :=
  if !(mgmtOk s) then .next s
  else if field = 1 then done { s with mgmt := { s.mgmt with devnum := v.toNat % 256 } }
  else if field = 2 then done (loadTime s v.toNat)
  else if s.mgmt.created || !(mgmtValueOk field v.toNat) then done s
  else
    let s1 : State := { s with mgmt := mgmtField s.mgmt field v.toNat }
    if field = 4 then done { s1 with reserve := Config.sectors - s1.mgmt.tssize / 32 }
    else if field = 9 then done { s1 with evDue := !s1.evPend.isEmpty }
    else if field = 12 then done (placeMirror s1)
    else done s1

/-! ## Reset (R447) -/

/-- What a reset leaves of a stack: the rows it has spared (R442). -/
def resetStack (k : Stack) : Stack := { Stack.reset with spares := k.spares }

/-- RESET (R447): the device is as after any reset. What table space holds is open; the spared rows and host memory are kept
(log 1, DESIGN CHOICE; log 2, DESIGN CHOICE; log 21, DESIGN CHOICE). -/
def execReset (bootOk runtimeOk : Bool) (s : State) : Out :=
  let left := tabSetAll unlistedByte [] ((Config.leftBytes s.free s.tspace).filter fun e => decide (e.1 < 2 ^ 56))
  .next { State.reset with
    tspace := left, hostMem := s.hostMem, stks := s.stks.map resetStack, agenda := s.agenda, free := s.free
    mgmt := { Mgmt.reset with bootok := bootOk && runtimeOk, temp := Config.temperature s.free } }

end Sys2Proof.Machine
end

