-- ==== Sys2Proof/Machine/Walks.lean ====
section
/-! DEFINITION. The walk scheduler of a die (19 R360, R363, R364), and the freeing of old runs (20 R377). -/

namespace Sys2Proof.Machine

/-- Whether a batch is chosen before another: the oldest that 64 selections have passed over, or else the one with the fewest
walks, the first to arrive among equals (R364). -/
def chooseBatch (bs : List Batch) : Option Nat :=
  match bs.findIdx? (fun b => decide (64 ≤ b.passed)) with
  | some i => some i
  | none =>
    let m := bs.foldl (fun a b => min a b.pages.length) (bs.foldl (fun a b => a + b.pages.length) 0)
    bs.findIdx? (fun b => b.pages.length == m)

/-- Starts walks of batch `i` on the free walkers: the batch is done starting once every walk has a walker. -/
def startBatch (w : Walker) (i : Nat) : Walker :=
  let b := nth ⟨0, 0, [], 0, false⟩ w.batches i
  let n := 32 - w.busy.length
  let busy := w.busy ++ (b.pages.take n).map fun p => ⟨b.uid, b.ctx, p⟩
  let rest := b.pages.drop n
  let others := fun (fresh : Bool) => w.batches.zipIdx.filterMap fun e =>
    if e.2 = i then (if rest.isEmpty then none else some { e.1 with pages := rest, starting := true })
    else some (if fresh then { e.1 with passed := e.1.passed + 1 } else e.1)
  { w with busy := busy, batches := others (!b.starting) }

/-- WALK_BATCH_START (R364). -/
def execWalkBatchStart (die : Nat) (s : State) : Out :=
  let w := nth Walker.reset s.walkers die
  if die < 2 ∧ w.busy.length < 32 then
    match (w.batches.findIdx? (·.starting)).or (chooseBatch w.batches) with
    | some i => .next { s with walkers := setAt s.walkers die (startBatch w i) }
    | none => .next s
  else .next s

/-- Whether a team still has walks to wait for on a die. -/
def walksLeft (w : Walker) (u : Nat) : Bool := w.busy.any (·.uid == u) || w.batches.any (·.uid == u)

/-- PAGE_WALK_DONE (R360, R363): the leaf is installed, or the page is absent; a team with no walk left issues again. -/
def execPageWalkDone (die idx : Nat) (s : State) : Out :=
  let w := nth Walker.reset s.walkers die
  match w.busy[idx]? with
  | none => .next s
  | some x =>
    let s1 : State := { s with walkers := setAt s.walkers die { w with busy := w.busy.eraseIdx idx } }
    let found := walk s x.ctx (x.page * 65536)
    let s2 := match found with
      | some l => tlbInstall s1 die x.ctx l
      | none => s1
    let t := getTeam s2 x.uid
    if t.status = .waiting .walk then
      let t1 := { t with walked := t.walked ++ [(x.page, found.isNone)] }
      .next (setTeam s2 x.uid
        (if walksLeft (nth Walker.reset s2.walkers die) x.uid then t1 else { t1 with status := .ready }))
    else .next s2

/-- FREE_OLD_RUN (R377): a read takes its data in one step, so every read of the old run has finished. -/
def execFreeOldRun (idx : Nat) (s : State) : Out :=
  match s.oldRuns[idx]? with
  | none => .next s
  | some r => .next (bumpSeq { s with oldRuns := s.oldRuns.eraseIdx idx } r.1 r.2)

end Sys2Proof.Machine
end

