-- ==== Sys2Proof/Machine/Dispatch.lean ====
section
/-! DEFINITION. The dispatch of every instruction and event to its meaning. -/

namespace Sys2Proof.Machine

/-- The meaning of an instruction or event in a state. -/
def exec (i : Instr) (s : State) : Host.Outcome State Fault Refusal :=
  match i with
  | .iadd ty sat d a b => Sys2Proof.Machine.execIadd ty sat d a b s
  | .isub ty sat d a b => Sys2Proof.Machine.execIsub ty sat d a b s
  | .imul v d a b => Sys2Proof.Machine.execImul v d a b s
  | .imad v d a b => Sys2Proof.Machine.execImad v d a b s
  | .idiv b64 res unsigned d a b => Sys2Proof.Machine.execIdiv b64 res unsigned d a b s
  | .lop tt d a b => Sys2Proof.Machine.execLop tt d a b s
  | .shf kind clamp d a b => Sys2Proof.Machine.execShf kind clamp d a b s
  | .bits op d a b => Sys2Proof.Machine.execBits op d a b s
  | .imnx max ty d a b => Sys2Proof.Machine.execImnx max ty d a b s
  | .icmp c unsigned p a b => Sys2Proof.Machine.execIcmp c unsigned p a b s
  | .sel p neg d a b => Sys2Proof.Machine.execSel p neg d a b s
  | .iaddi d a imm h => Sys2Proof.Machine.execIaddi d a imm h s
  | .ishi kind d a n => Sys2Proof.Machine.execIshi kind d a n s
  | .icmpi c unsigned p a imm h => Sys2Proof.Machine.execIcmpi c unsigned p a imm h s
  | .lopi op d a imm h => Sys2Proof.Machine.execLopi op d a imm h s
  | .iaddk v d a k => Sys2Proof.Machine.execIaddk v d a k s
  | .ilea scale d a k => Sys2Proof.Machine.execIlea scale d a k s
  | .movk v d k => Sys2Proof.Machine.execMovk v d k s
  | .kadd d a b => Sys2Proof.Machine.execKadd d a b s
  | .ksub d a b => Sys2Proof.Machine.execKsub d a b s
  | .kmul d a b => Sys2Proof.Machine.execKmul d a b s
  | .kand d a b => Sys2Proof.Machine.execKand d a b s
  | .kor d a b => Sys2Proof.Machine.execKor d a b s
  | .kxor d a b => Sys2Proof.Machine.execKxor d a b s
  | .kshl d a b => Sys2Proof.Machine.execKshl d a b s
  | .kshr d a b => Sys2Proof.Machine.execKshr d a b s
  | .ksra d a b => Sys2Proof.Machine.execKsra d a b s
  | .kmin d a b => Sys2Proof.Machine.execKmin d a b s
  | .kmax d a b => Sys2Proof.Machine.execKmax d a b s
  | .kdiv d a b => Sys2Proof.Machine.execKdiv d a b s
  | .kli d imm h => Sys2Proof.Machine.execKli d imm h s
  | .kaddi d imm h => Sys2Proof.Machine.execKaddi d imm h s
  | .klui d imm => Sys2Proof.Machine.execKlui d imm s
  | .movs vec d sv => Sys2Proof.Machine.execMovs vec d sv s
  | .fadd ty rm sat d a b => Sys2Proof.Machine.execFadd ty rm sat d a b s
  | .fsub ty rm sat d a b => Sys2Proof.Machine.execFsub ty rm sat d a b s
  | .fmul ty rm sat d a b => Sys2Proof.Machine.execFmul ty rm sat d a b s
  | .ffma ty rm sat d a b => Sys2Proof.Machine.execFfma ty rm sat d a b s
  | .fmnx max nan ty d a b => Sys2Proof.Machine.execFmnx max nan ty d a b s
  | .fcmp c p a b => Sys2Proof.Machine.execFcmp c p a b s
  | .fsf fn d a => Sys2Proof.Machine.execFsf fn d a s
  | .cvt code rm sat d a => Sys2Proof.Machine.execCvt code rm sat d a s
  | .pack form d a b => Sys2Proof.Machine.execPack form d a b s
  | .dp4 form d a b => Sys2Proof.Machine.execDp4 form d a b s
  | .fcls ty d a => Sys2Proof.Machine.execFcls ty d a s
  | .shfl kind team d a b => Sys2Proof.Machine.execShfl kind team d a b s
  | .vote kind team d q neg => Sys2Proof.Machine.execVote kind team d q neg s
  | .rdx op team d a => Sys2Proof.Machine.execRdx op team d a s
  | .scan op team excl d a => Sys2Proof.Machine.execScan op team excl d a s
  | .lmov kind d a b => Sys2Proof.Machine.execLmov kind d a b s
  | .ld w pol sx m => Sys2Proof.Machine.execLd w pol sx m s
  | .st w pol m => Sys2Proof.Machine.execSt w pol m s
  | .lds w sx m => Sys2Proof.Machine.execLds w sx m s
  | .sts w m => Sys2Proof.Machine.execSts w m s
  | .ldt w m => Sys2Proof.Machine.execLdt w m s
  | .atom w scope md m => Sys2Proof.Machine.execAtom w scope md m s
  | .red w scope md m => Sys2Proof.Machine.execRed w scope md m s
  | .kld w pol sx a b h => Sys2Proof.Machine.execKld w pol sx a b h s
  | .kst w pol a b h => Sys2Proof.Machine.execKst w pol a b h s
  | .fence kind scope => Sys2Proof.Machine.execFence kind scope s
  | .cacheZero a b h => Sys2Proof.Machine.execCacheZero a b h s
  | .cacheInv a b h => Sys2Proof.Machine.execCacheInv a b h s
  | .cacheEvict a b h => Sys2Proof.Machine.execCacheEvict a b h s
  | .cacheFetch a b h => Sys2Proof.Machine.execCacheFetch a b h s
  | .ldb w pol m => Sys2Proof.Machine.execLdb w pol m s
  | .bra p neg off => Sys2Proof.Machine.execBra p neg off s
  | .brk a c off => Sys2Proof.Machine.execBrk a c off s
  | .jmpi a k => Sys2Proof.Machine.execJmpi a k s
  | .land => Sys2Proof.Machine.execLand s
  | .call off => Sys2Proof.Machine.execCall off s
  | .ret a => Sys2Proof.Machine.execRet a s
  | .loop a l n => Sys2Proof.Machine.execLoop a l n s
  | .regionCommit => Sys2Proof.Machine.execRegionCommit s
  | .setx a i0 => Sys2Proof.Machine.execSetx a i0 s
  | .maskSet a => Sys2Proof.Machine.execMaskSet a s
  | .maskGet a => Sys2Proof.Machine.execMaskGet a s
  | .maskPred a p => Sys2Proof.Machine.execMaskPred a p s
  | .exit => Sys2Proof.Machine.execExit s
  | .yield => Sys2Proof.Machine.execYield s
  | .yieldResume uid => Sys2Proof.Machine.execYieldResume uid s
  | .trap code => Sys2Proof.Machine.execTrap code s
  | .bkpt code => Sys2Proof.Machine.execBkpt code s
  | .nop => Sys2Proof.Machine.execNop s
  | .lockInit a n => Sys2Proof.Machine.execLockInit a n s
  | .lockArrive a n => Sys2Proof.Machine.execLockArrive a n s
  | .lockExpect a n => Sys2Proof.Machine.execLockExpect a n s
  | .lockWait a n s0 => Sys2Proof.Machine.execLockWait a n s0 s
  | .lockTry a n s0 => Sys2Proof.Machine.execLockTry a n s0 s
  | .lockInval a n => Sys2Proof.Machine.execLockInval a n s
  | .lockFill a n => Sys2Proof.Machine.execLockFill a n s
  | .lockDrain a n => Sys2Proof.Machine.execLockDrain a n s
  | .copy a n q f => Sys2Proof.Machine.execCopy a n q f s
  | .copyUnitWrite core queue => Sys2Proof.Machine.execCopyUnitWrite core queue s
  | .copyRetry core queue => Sys2Proof.Machine.execCopyRetry core queue s
  | .mma a f acca pair zero => Sys2Proof.Machine.execMma a f acca pair zero s
  | .mfenceOpr => Sys2Proof.Machine.execMfenceOpr s
  | .mfenceBatch a => Sys2Proof.Machine.execMfenceBatch a s
  | .mwait a => Sys2Proof.Machine.execMwait a s
  | .macs a f => Sys2Proof.Machine.execMacs a f s
  | .accmvT2s a => Sys2Proof.Machine.execAccmvT2s a s
  | .accmvS2t a => Sys2Proof.Machine.execAccmvS2t a s
  | .accmvT2t a => Sys2Proof.Machine.execAccmvT2t a s
  | .accmvT2g a => Sys2Proof.Machine.execAccmvT2g a s
  | .accmvG2t a => Sys2Proof.Machine.execAccmvG2t a s
  | .accmvZero a => Sys2Proof.Machine.execAccmvZero a s
  | .attn a causal => Sys2Proof.Machine.execAttn a causal s
  | .attnFin a => Sys2Proof.Machine.execAttnFin a s
  | .matrixOpRetire core part => Sys2Proof.Machine.execMatrixOpRetire core part s
  | .seqReserve a b => Sys2Proof.Machine.execSeqReserve a b s
  | .seqAddr a b => Sys2Proof.Machine.execSeqAddr a b s
  | .seqCommit a b => Sys2Proof.Machine.execSeqCommit a b s
  | .seqVoid a b => Sys2Proof.Machine.execSeqVoid a b s
  | .seqWatch a b => Sys2Proof.Machine.execSeqWatch a b s
  | .seqWait a b => Sys2Proof.Machine.execSeqWait a b s
  | .seqFork a b => Sys2Proof.Machine.execSeqFork a b s
  | .seqLen a b => Sys2Proof.Machine.execSeqLen a b s
  | .ptreeLookup a b => Sys2Proof.Machine.execPtreeLookup a b s
  | .ptreeInsert a b => Sys2Proof.Machine.execPtreeInsert a b s
  | .ptreeUnref a b => Sys2Proof.Machine.execPtreeUnref a b s
  | .kvtPage a b => Sys2Proof.Machine.execKvtPage a b s
  | .kvtRope a b => Sys2Proof.Machine.execKvtRope a b s
  | .kvtBoth a b => Sys2Proof.Machine.execKvtBoth a b s
  | .fork a b n => Sys2Proof.Machine.execFork a b n s
  | .join n => Sys2Proof.Machine.execJoin n s
  | .launch a b => Sys2Proof.Machine.execLaunch a b s
  | .bpassInfo a => Sys2Proof.Machine.execBpassInfo a s
  | .bpassUndec a => Sys2Proof.Machine.execBpassUndec a s
  | .freebCtx a => Sys2Proof.Machine.execFreebCtx a s
  | .freebSlice a => Sys2Proof.Machine.execFreebSlice a s
  | .traceOn a => Sys2Proof.Machine.execTraceOn a s
  | .traceOff a => Sys2Proof.Machine.execTraceOff a s
  | .traceBind a b => Sys2Proof.Machine.execTraceBind a b s
  | .traceFlush a => Sys2Proof.Machine.execTraceFlush a s
  | .traceSyncDue uid => Sys2Proof.Machine.execTraceSyncDue uid s
  | .hintStall f => Sys2Proof.Machine.execHintStall f s
  | .hintMark m => Sys2Proof.Machine.execHintMark m s
  | .illegalWord c => Sys2Proof.Machine.execIllegalWord c s
  | .loadReturn uid => Sys2Proof.Machine.execLoadReturn uid s
  | .variableResultWriteback uid => Sys2Proof.Machine.execVariableResultWriteback uid s
  | .fenceComplete uid => Sys2Proof.Machine.execFenceComplete uid s
  | .scRmwPerform uid => Sys2Proof.Machine.execScRmwPerform uid s
  | .freeOldRun idx => Sys2Proof.Machine.execFreeOldRun idx s
  | .walkBatchStart die => Sys2Proof.Machine.execWalkBatchStart die s
  | .pageWalkDone die idx => Sys2Proof.Machine.execPageWalkDone die idx s
  | .gatherExpand uid => Sys2Proof.Machine.execGatherExpand uid s
  | .arbiterSelect => Sys2Proof.Machine.execArbiterSelect s
  | .queueReadRetry ctx handle => Sys2Proof.Machine.execQueueReadRetry ctx handle s
  | .dispatchWriteApply ctx handle => Sys2Proof.Machine.execDispatchWriteApply ctx handle s
  | .teamPlace core part => Sys2Proof.Machine.execTeamPlace core part s
  | .preempt core => Sys2Proof.Machine.execPreempt core s
  | .evict core => Sys2Proof.Machine.execEvict core s
  | .taskSteal core => Sys2Proof.Machine.execTaskSteal core s
  | .teamEnd uid => Sys2Proof.Machine.execTeamEnd uid s
  | .fillRetry uid => Sys2Proof.Machine.execFillRetry uid s
  | .handoffAppend uid => Sys2Proof.Machine.execHandoffAppend uid s
  | .appendRetry ctx => Sys2Proof.Machine.execAppendRetry ctx s
  | .create p => Sys2Proof.Machine.execCreate p s
  | .destroy p => Sys2Proof.Machine.execDestroy p s
  | .deflate p => Sys2Proof.Machine.execDeflate p s
  | .inflate p => Sys2Proof.Machine.execInflate p s
  | .resolve p => Sys2Proof.Machine.execResolve p s
  | .save p => Sys2Proof.Machine.execSave p s
  | .saveComplete ctx => Sys2Proof.Machine.execSaveComplete ctx s
  | .restore p => Sys2Proof.Machine.execRestore p s
  | .power p => Sys2Proof.Machine.execPower p s
  | .map p => Sys2Proof.Machine.execMap p s
  | .unmap p => Sys2Proof.Machine.execUnmap p s
  | .perm p => Sys2Proof.Machine.execPerm p s
  | .migrateIndev p => Sys2Proof.Machine.execMigrateIndev p s
  | .migrateTodev p => Sys2Proof.Machine.execMigrateTodev p s
  | .migrateTohost p => Sys2Proof.Machine.execMigrateTohost p s
  | .clearacc p => Sys2Proof.Machine.execClearacc p s
  | .pageDrainDone => Sys2Proof.Machine.execPageDrainDone s
  | .resume p => Sys2Proof.Machine.execResume p s
  | .skip p => Sys2Proof.Machine.execSkip p s
  | .kill p => Sys2Proof.Machine.execKill p s
  | .rdstate p => Sys2Proof.Machine.execRdstate p s
  | .wrstate p => Sys2Proof.Machine.execWrstate p s
  | .step p => Sys2Proof.Machine.execStep p s
  | .halt p => Sys2Proof.Machine.execHalt p s
  | .list p => Sys2Proof.Machine.execList p s
  | .hostRead src addr len => Sys2Proof.Machine.execHostRead src addr len s
  | .hostWrite sp addr bytes => Sys2Proof.Machine.execHostWrite sp addr bytes s
  | .hostRmw sp addr w md operand new => Sys2Proof.Machine.execHostRmw sp addr w md operand new s
  | .hostLoom sp form handle ops => Sys2Proof.Machine.execHostLoom sp form handle ops s
  | .ptreeRemove sp pool node => Sys2Proof.Machine.execPtreeRemove sp pool node s
  | .attest nonce ctx => Sys2Proof.Machine.execAttest nonce ctx s
  | .train port => Sys2Proof.Machine.execTrain port s
  | .linkTrained port r => Sys2Proof.Machine.execLinkTrained port r s
  | .laneFailure port lane => Sys2Proof.Machine.execLaneFailure port lane s
  | .flitCrcError port idx => Sys2Proof.Machine.execFlitCrcError port idx s
  | .peerInboundAccess dev rctx acc => Sys2Proof.Machine.execPeerInboundAccess dev rctx acc s
  | .peerResponse id ans => Sys2Proof.Machine.execPeerResponse id ans s
  | .peerTimeout id => Sys2Proof.Machine.execPeerTimeout id s
  | .refresh stack chan bank => Sys2Proof.Machine.execRefresh stack chan bank s
  | .mitigationRefresh stack chan bank row => Sys2Proof.Machine.execMitigationRefresh stack chan bank row s
  | .poundReissue uid => Sys2Proof.Machine.execPoundReissue uid s
  | .scrubRead stack sector r => Sys2Proof.Machine.execScrubRead stack sector r s
  | .bucketLeak stack => Sys2Proof.Machine.execBucketLeak stack s
  | .rowSpare stack chan bank row ue => Sys2Proof.Machine.execRowSpare stack chan bank row ue s
  | .uncorrectableError u => Sys2Proof.Machine.execUncorrectableError u s
  | .coreOffline core => Sys2Proof.Machine.execCoreOffline core s
  | .thermalTrip temp => Sys2Proof.Machine.execThermalTrip temp s
  | .reset bootOk runtimeOk => Sys2Proof.Machine.execReset bootOk runtimeOk s
  | .timeWrite v => Sys2Proof.Machine.execTimeWrite v s
  | .mgmtWrite field v => Sys2Proof.Machine.execMgmtWrite field v s

end Sys2Proof.Machine
end

