-- ==== Sys2Proof/Machine/Sched.lean ====
section
/-! DEFINITION. The packets that the device reads from its command sequences (10 R218, 19 R365, 22 R410, 25 R445), and which of the
device's own actions comes next when the agenda names none (log 4, DESIGN CHOICE). -/

namespace Sys2Proof.Machine

/-! ## Command packets -/

/-- A packet from the bytes of its slot. -/
def packetOf (bs : List Byte) (slot : Nat) : Packet :=
  let w := fun (i : Nat) => BitVec.ofNat 64 (nth 0 (wordsOf bs) i)
  ⟨w 0, w 1, w 2, w 3, w 4, w 5, w 6, w 7, slot⟩

/-- The slot of a command sequence that the device performs next: none until it is committed, `some none` where it is void. -/
def commandAt (s : State) (h n : Nat) : Option (Option Packet) :=
  let hd := rawHdr s .table h
  if h = 0 ∨ hd.ok = false ∨ hd.kv ∨ hd.slg ≠ 6 ∨ hd.cl ≤ n then none
  else if hd.vmap ≠ 0 ∧ bitAt (memByte s.tspace (hd.vmap + n / 8)).toNat (n % 8) then some none
  else some (some (packetOf (memBytes s.tspace (flatSlot hd n) 64) n))

/-- An opcode that no command has: BADOP, and nothing else. -/
def badOp (s : State) (p : Packet) : State :=
  replyTo (afterCommand s (pktOp p) (pktCtx p)) (pktOp p) (pktCtx p) p.slot .badop 0

/-- The command of a control packet (R218). -/
def controlInstr (p : Packet) : Option Instr :=
  match pktOp p with
  | 1 => some (.create p)
  | 2 => some (.destroy p)
  | 3 => some (.deflate p)
  | 4 => some (.inflate p)
  | 5 => some (.resolve p)
  | 6 => some (.save p)
  | 7 => some (.restore p)
  | 8 => some (.power p)
  | _ => none

/-- The command of a page packet (R365, R368): a MIGRATE of kind 3 breaks the form of every kind. -/
def pageInstr (p : Packet) : Option Instr :=
  match pktOp p with
  | 0x10 => some (.map p)
  | 0x11 => some (.unmap p)
  | 0x12 => some (.perm p)
  | 0x13 =>
    some (if field p.w2.toNat 0 2 = 1 then .migrateTodev p else if field p.w2.toNat 0 2 = 2 then .migrateTohost p
      else .migrateIndev p)
  | 0x14 => some (.clearacc p)
  | _ => none

/-- The command of a core packet (R410). -/
def coreInstr (p : Packet) : Option Instr :=
  match pktOp p with
  | 0x20 => some (.resume p)
  | 0x21 => some (.skip p)
  | 0x22 => some (.kill p)
  | 0x23 => some (.rdstate p)
  | 0x24 => some (.wrstate p)
  | 0x25 => some (.step p)
  | 0x26 => some (.halt p)
  | 0x27 => some (.list p)
  | _ => none

/-- The next packet of a sequence: the state once it is read, and the command it stands for. -/
def readPacket (s s1 : State) (h n : Nat) (ready : Packet → Bool) (f : Packet → Option Instr) : State × Option Instr :=
  match commandAt s h n with
  | none => (s, none)
  | some none => (s1, none)
  | some (some p) =>
    if !(ready p) then (s, none)
    else
      match f p with
      | some i => (s1, some i)
      | none => (badOp s1 p, none)

/-- Whether a context is being saved: the control sequence goes on once its reply is formed (R218). -/
def saving (s : State) : Bool := s.ctxs.any fun e => e.2.st == .saving

/-- The instruction that the next packet of the control sequence stands for; in SLEEP the device performs only POWER (R445). -/
def nextControl (s : State) : State × Option Instr :=
  readPacket s { s with ctlNext := s.ctlNext + 1 } s.mgmt.ctlq s.ctlNext
    (fun p => performs s (pktOp p == 8) && !(saving s)) controlInstr

/-- The instruction that the next packet of the page-command sequence stands for, one page at a time (R365). -/
def nextPage (s : State) : State × Option Instr :=
  readPacket s { s with pageNext := s.pageNext + 1 } s.mgmt.pageq s.pageNext
    (fun _ => performs s false && s.pageWork.isNone) pageInstr

/-- The instruction that the next packet of the core-command sequence stands for. -/
def nextCoreCmd (s : State) : State × Option Instr :=
  readPacket s { s with coreNext := s.coreNext + 1 } s.mgmt.coreq s.coreNext (fun _ => performs s false) coreInstr

/-! ## Requests that a bank answers with a retry (R437) -/

/-- Whether one entry of the agenda keeps its place before another: the groups of one team do, and so do what comes from outside and the
device's own events, and the command packets. -/
def keepsOrder : Agendum → Agendum → Bool
  | .issue u, .issue v => u == v
  | .event _, .event _ => true
  | .control, .control | .page, .page | .coreCmd, .coreCmd => true
  | _, _ => false

/-- What has received a retry response is done later: after what may come before it, or, where nothing may, after `n` ns. -/
def postpone (n : Nat) (a : Agendum) (rest : List Agendum) : List Agendum :=
  let first := rest.takeWhile fun x => !(keepsOrder a x)
  if first.isEmpty then .tick n :: a :: rest else first ++ a :: rest.drop first.length

/-- A step some of whose requests have received a retry response is undone, and waits for the banks; those that owe all eight refreshes take
one (R436, R437) (log 45, DEDUCED). -/
def retryLater (a : Agendum) (banks : List Nat) (s : State) : State :=
  let want := fun (s : State) (k : Nat) =>
    modStack (serveAt s k) (k / 2048) fun x => { x with wanted := dedupNat (x.wanted ++ [k % 2048]) }
  let s1 := banks.foldl want s
  { s1 with agenda := postpone ((banksBusy s1 banks).getD (s.mgmt.time + 1) - s.mgmt.time) a s.agenda }

/-- What a step from `s` comes to: where no bank has answered with a retry, what it has done. -/
def served (a : Agendum) (s : State) (o : Out) : Out :=
  match o with
  | .next s1 => if (banksMet s1).isEmpty then o else .next (retryLater a (banksMet s1) s)
  | _ => o

/-! ## The device's own actions -/

/-- Whether an event changes anything now. -/
def enabled (s : State) (i : Instr) : Bool :=
  match exec i s with
  | .next s1 => s1 != s
  | _ => false

/-- The events of the teams. -/
def teamEvents (s : State) : List Instr :=
  (s.teams.map fun e =>
    [.loadReturn e.1, .variableResultWriteback e.1, .fenceComplete e.1, .scRmwPerform e.1, .gatherExpand e.1, .poundReissue e.1,
      .yieldResume e.1, .teamEnd e.1, .fillRetry e.1, .handoffAppend e.1] ++
      (if traced e.2 && !e.2.trace.syncDue && syncTime s e.2 then [.traceSyncDue e.1] else [])).flatten

/-- The events of the cores. -/
def coreEvents (core : Nat) : List Instr :=
  ((List.range 4).map fun p =>
    [.copyUnitWrite core p, .copyRetry core p, .matrixOpRetire core p, .teamPlace core p]).flatten ++
    [.preempt core, .evict core, .taskSteal core]

/-- The events of the dispatcher, the walkers and the sector controller, and the fencing of a context whose record could not be stored
(R407, R413). -/
def deviceEvents (s : State) : List Instr :=
  [.arbiterSelect, .pageDrainDone, .appendRetry 0, .walkBatchStart 0, .walkBatchStart 1] ++
    (s.queues.map fun q => [Instr.dispatchWriteApply q.ctx q.handle, .queueReadRetry q.ctx q.handle]).flatten ++
    (s.ctxs.map fun e => [Instr.appendRetry e.1, .saveComplete e.1] ++
      (if e.2.lostCommit then [.uncorrectableError (.context e.1)] else [])).flatten ++
    (List.range s.oldRuns.length).map .freeOldRun ++
    (s.walkers.zipIdx.map fun w => (List.range w.1.busy.length).map (Instr.pageWalkDone w.2)).flatten ++
    s.peers.map fun r => .peerTimeout r.id

/-- The events of the memory stacks. A REFRESH that waits for a request is not among them (R436). -/
def stackEvents (s : State) : List Instr :=
  (s.stks.zipIdx.map fun k =>
    [Instr.bucketLeak k.2] ++ (k.1.acts.map fun a => Instr.mitigationRefresh k.2 (a.1 / 32768 / 64) (a.1 / 32768 % 64) (a.1 % 32768)) ++
    (k.1.buckets.map fun b => Instr.rowSpare k.2 (b.row / 32768 / 64) (b.row / 32768 % 64) (b.row % 32768) false) ++
    (List.range 2048).map fun b => Instr.refresh k.2 (b / 64) (b % 64)).flatten

/-- The device's own actions that may come next: the issue of a group, an event that changes something, or a command packet
(log 4, DESIGN CHOICE). -/
def candidates (s : State) : List Agendum :=
  let events := teamEvents s ++ ((List.range Config.cores).map coreEvents).flatten ++ deviceEvents s ++ stackEvents s
  (s.teams.filter (fun e => canIssue s e.1)).map (fun e => .issue e.1) ++
    (events.filter (enabled s)).map .event ++
    (if (nextControl s).1 != s || (nextControl s).2.isSome then [.control] else []) ++
    (if (nextPage s).1 != s || (nextPage s).2.isSome then [.page] else []) ++
    (if (nextCoreCmd s).1 != s || (nextCoreCmd s).2.isSome then [.coreCmd] else [])

/-- One of the actions that may come next; with a single one there is no choice. When there is none, time passes
(log 4, DESIGN CHOICE). -/
def pickNext (s : State) : Agendum :=
  match candidates s with
  | [] => .tick 1
  | [a] => a
  | a :: as => nth a (a :: as) (Config.freeNat s.free 0 % (as.length + 1))

end Sys2Proof.Machine
end

