-- ==== Sys2Proof/Machine/Step.lean ====
section
/-! DEFINITION. One step of the device: the next entry of the agenda, or one of the device's own actions, happens. -/

namespace Sys2Proof.Machine

/-- A step that performs what a command packet stands for, if it can be read. -/
def stepPacket (r : State × Option Instr) : Host.Outcome State Fault Refusal :=
  match r.2 with
  | some i => exec i r.1
  | none => .next r.1

/-- One entry of the agenda happens (log 3, DESIGN CHOICE; log 4, DESIGN CHOICE). -/
def stepAgendum (a : Agendum) (s : State) : Host.Outcome State Fault Refusal :=
  match a with
  | .issue u =>
    if canIssue s u then
      match fetchNext s u with
      | .run s1 i => exec i s1
      | .fault s1 addr => fetchStop s1 u addr
      | .wait s1 => done s1
    else .next s
  | .event (.illegalWord _) => .next s
  | .event i => if i.encoded then .next s else exec i s
  | .control => stepPacket (nextControl s)
  | .page => stepPacket (nextPage s)
  | .coreCmd => stepPacket (nextCoreCmd s)
  | .corrected stack sector => correctedRead stack sector s
  | .tick n => .next { s with mgmt := { s.mgmt with time := s.mgmt.time + n } }

/-- An entry of the agenda happens, unless a bank of the stacks answers a request of it with a retry (R437). -/
def stepEntry (a : Agendum) (s : State) : Host.Outcome State Fault Refusal := served a s (stepAgendum a s)

/-- One step: room that teams can fill is filled (R240); with none, the head of the agenda happens, or a choice among the device's own
actions (log 4, DESIGN CHOICE; log 6, DESIGN CHOICE). -/
def step (s : State) : Host.Outcome State Fault Refusal :=
  match fillRoom s with
  | some s1 => .next { s1 with free := s.free + 1 }
  | none =>
    match s.agenda with
    | a :: rest => stepEntry a { s with agenda := rest, free := s.free + 1 }
    | [] => stepEntry (pickNext s) { s with free := s.free + 1 }

/-- The state with an instruction of at most 16 bytes stored where `step` fetches its next instruction, so that the next
step runs it; the bits above `nbits` are zero (log 4, DESIGN CHOICE). -/
def State.withFetchWord (s : State) (nbits w : Nat) : State := placeWord s (w % 2 ^ nbits)

end Sys2Proof.Machine
end

