-- ==== Sys2Proof/Safety.lean ====
section
/-! DEFINITION. What counts as a safe state, and the terms in which the statements speak: when a team's instruction runs with
nothing else in the step, and what a register instruction may change. -/

namespace Sys2Proof

/-- The canonical form of the three memories of the device: device frames, table space and host memory (log 2, DESIGN CHOICE). -/
def memoriesWf (s : Machine.State) : Bool :=
  Machine.memoryWf s.mem && Machine.memoryWf s.tspace && Machine.memoryWf s.hostMem

/-- A step did not end in a refusal. -/
def stepSafe (s : Machine.State) : Prop :=
  ∀ r, Machine.step s ≠ Host.Outcome.refused r

namespace Machine

/-- No fault record waits to be appended (R407), so that a step appends none beside its own effect. -/
structure Quiet (s : State) : Prop where
  dev : s.evDue = false
  devNone : s.evPend = []
  ctx : ∀ n, (getCtx s n).due = false
  ctxNone : ∀ n, (getCtx s n).pend = []

/-- Team `u`, which is `t`, issues the latched group, in a bounds pass or not: it is not traced and not stepped alone, no other team
has yielded to it (R142), nothing it waits for is in flight (R48, R49), no lane of it keeps a uniform register apart (R51), no open matrix operation reads its registers (R194), and no
record waits to be appended. -/
structure IssuingIn (bounds : Bool) (s : State) (u : Nat) (t : Team) : Prop where
  latched : s.issue.uid = u
  team : find? s.teams u = some t
  ready : t.status = .ready
  mode : t.bounds = bounds
  untraced : t.trace.on = false
  alone : t.stepOnce = false
  unawaited : ∀ e ∈ s.teams, u ∉ e.2.yielded
  counted : t.flight = []
  whole : t.kLane = []
  arrived : t.pend = []
  unheld : heldRegs s u t.core = []
  allotted : t.allot ≤ 128
  part : t.part < (getCore s t.core).vflags.length
  quiet : Quiet s

/-- A team issues in normal mode. -/
abbrev Issuing : State → Nat → Team → Prop := IssuingIn false

/-! ## Where a team goes on -/

/-- No hardware loop is active. -/
def NoLoops (t : Team) : Prop := ∀ e ∈ t.flow.loops, e.on = false

/-- THE CHOICE OF THE NEXT ADDRESS (R126) for a team of `nl` lanes with flow `fl`, whose active lanes go to `next`: the least
of their next addresses and of the resume addresses of the lanes that wait at this call depth; the lanes that are there run on,
those that go further wait, every other lane stays as it was. -/
structure Chosen (nl : Nat) (fl fl' : Flow) (next : Nat → Nat) : Prop where
  reached : (∃ i ∈ activeLanes nl fl, next i = fl'.pc) ∨ ∃ i, laneState fl i = .waiting fl'.pc fl.depth
  leastNext : ∀ i ∈ activeLanes nl fl, fl'.pc ≤ next i
  leastResume : ∀ i r, laneState fl i = .waiting r fl.depth → fl'.pc ≤ r
  active : ∀ i ∈ activeLanes nl fl, laneState fl' i = if next i = fl'.pc then .active else .waiting (next i) fl.depth
  others : ∀ i, i ∉ activeLanes nl fl → laneState fl' i =
    if laneState fl i = .waiting fl'.pc fl.depth then .active else laneState fl i
  depth : fl'.depth = fl.depth
  x : fl'.x = fl.x

/-- The team goes on at the word after its group (R126, R140), where no hardware loop is active: the lanes, x, the depth and the loops
are what the choice of the next address leaves of them, and in uniform-only mode only the pc moves. -/
def GoesOn (s : State) (t t' : Team) : Prop :=
  NoLoops t → tabSorted t.flow.lanes = true →
    (lanesOf t ≠ [] → t.flow.uni = false → t'.status = .ready ∧ t'.flow.loops = t.flow.loops ∧
      Chosen t.lanes t.flow t'.flow fun _ => s.issue.next) ∧
    (lanesOf t = [] → t.flow.uni = true → waitingAt t.flow t.flow.depth = [] →
      t'.status = .ready ∧ t'.flow = { t.flow with pc := s.issue.next })

/-- Runs of vector registers within the team's allotment (R39) and aligned to their length (R40), with x added. -/
def Fits (t : Team) (l : List VUse) : Prop :=
  ∀ u ∈ l, u.fld + t.flow.x + u.n ≤ t.allot ∧ (u.fld + t.flow.x) % u.n = 0

/-- Every byte of the device's memories and every tile element and scratchpad byte of its cores reads as before. -/
structure SameBytes (s s' : State) : Prop where
  mem : ∀ a, memByte s'.mem a = memByte s.mem a
  tspace : ∀ a, memByte s'.tspace a = memByte s.tspace a
  host : ∀ a, memByte s'.hostMem a = memByte s.hostMem a
  spad : ∀ n a, tabGet 0#8 (getCore s' n).spad a = tabGet 0#8 (getCore s n).spad a
  tile : ∀ n a, tabGet 0#32 (getCore s' n).tile a = tabGet 0#32 (getCore s n).tile a

/-- THE FRAME OF A REGISTER INSTRUCTION of team `u`, which is `t` before it and `t'` after it: of the whole state only this
team and the vector flags of its partition change, where `fl` is raised (R73); of the team only the vector registers of `V`,
the predicates of `P` and the uniform registers of `K`, its place in the program (R126) with what it books there (R49), and the
results `ps` that it leaves outstanding. -/
structure RegsOnly (s s' : State) (u : Nat) (t t' : Team) (V P : Nat → Nat → Prop) (K : Nat → Prop) (fl : FlagSet)
    (ps : List Pending) : Prop where
  rest : s' = { s with teams := s'.teams, cores := s'.cores }
  team : find? s'.teams u = some t'
  others : ∀ n, n ≠ u → find? s'.teams n = find? s.teams n
  cores : ∀ n, getCore s' n = { getCore s n with vflags := (getCore s' n).vflags }
  flags : ∀ n p, vflagsOf (getCore s' n) p =
    if n = t.core ∧ p = t.part then flagOr (vflagsOf (getCore s n) p) fl else vflagsOf (getCore s n) p
  bytes : SameBytes s s'
  vregs : ∀ i r, r < 128 → ¬ V i r → vreg t' i r = vreg t i r
  pregs : ∀ i p, p < 8 → ¬ P i p → preg t' i p = preg t i p
  kregs : ∀ n, ¬ K n → kreg t' n = kreg t n
  outstanding : t'.pend = t.pend ++ ps
  goes : GoesOn s t t'
  body : t' = { t with
    v := t'.v, p := t'.p, k := t'.k, flow := t'.flow, status := t'.status, counts := t'.counts, flight := t'.flight,
    walked := t'.walked, asks := t'.asks, cur := s.issue, booking := none, pend := t'.pend }

/-- Nothing. -/
def no : Nat → Prop := fun _ => False
def no2 : Nat → Nat → Prop := fun _ _ => False

/-- A register instruction completes, as the frame is counted from a state `s0`, in which its team is `t`: every active lane `i` has the
registers of `out i` and the predicates of `ps i`, but for p0 (R21); the flags `fl` are raised; and nothing else has changed. -/
def VecFrom (c : Instr) (s s0 : State) (u : Nat) (t : Team) (out : Nat → List (Nat × W32)) (ps : Nat → List (Nat × Bool))
    (fl : FlagSet) : Prop :=
  ∃ s' t', exec c s = .next s' ∧
    (∀ i ∈ lanesOf t, ∀ e ∈ out i, vreg t' i e.1 = e.2) ∧
    (∀ i ∈ lanesOf t, ∀ e ∈ ps i, e.1 ≠ 0 → preg t' i e.1 = e.2) ∧
    RegsOnly s0 s' u t t' (fun i r => i ∈ lanesOf t ∧ r ∈ (out i).map (·.1)) (fun i p => i ∈ lanesOf t ∧ p ∈ (ps i).map (·.1))
      no fl []

/-- A register instruction completes. -/
def VecDone (c : Instr) (s : State) (u : Nat) (t : Team) (out : Nat → List (Nat × W32)) (ps : Nat → List (Nat × Bool))
    (fl : FlagSet) : Prop := VecFrom c s s u t out ps fl

/-- A scratchpad load completes: what it has found may carry releases, which its team now holds (R389), and nothing else has changed. -/
def SpadRead (c : Instr) (s : State) (u : Nat) (t : Team) (out : Nat → List (Nat × W32)) : Prop :=
  ∃ l : List Rel, let t0 := { t with got := t.got ++ l }
    VecFrom c s (setTeam s u t0) u t0 out (fun _ => []) FlagSet.none

/-- A register instruction completes that leaves every active lane one 32-bit result in register `d` and raises no flag. -/
def LaneDone (c : Instr) (s : State) (u : Nat) (t : Team) (d : Nat) (val : Nat → W32) : Prop :=
  VecDone c s u t (fun i => [(d, val i)]) (fun _ => []) FlagSet.none

/-- A register instruction completes that leaves every active lane a 64-bit result in the pair from `d` (R54). -/
def PairDone (c : Instr) (s : State) (u : Nat) (t : Team) (d : Nat) (val : Nat → Nat) : Prop :=
  VecDone c s u t (fun i => pairOut d (val i)) (fun _ => []) FlagSet.none

/-- A register instruction completes that leaves every active lane one predicate. -/
def PredDone (c : Instr) (s : State) (u : Nat) (t : Team) (p : PReg) (val : Nat → Bool) : Prop :=
  VecDone c s u t (fun _ => []) (fun i => [(p.toNat, val i)]) FlagSet.none

/-- A uniform instruction completes: register `n` holds `w`, unless it is k0 (R41), and nothing else has changed. -/
def UniDone (c : Instr) (s : State) (u : Nat) (t : Team) (n : Nat) (w : W64) : Prop :=
  ∃ s' t', exec c s = .next s' ∧ (n ≠ 0 → kreg t' n = w) ∧ RegsOnly s s' u t t' no2 no2 (· = n) FlagSet.none []

/-- The outstanding result of an instruction of variable latency (R48): it waits for the registers `regs`, and holds the
values `out` and `ps` of the active lanes. -/
def laterPend (t : Team) (regs : List RegRef) (out : Nat → List (Nat × W32)) (ps : Nat → List (Nat × Bool)) : Pending :=
  ⟨false, regs, (lanesOf t).flatMap fun i => (out i).map fun e => ⟨i, e.1, e.2⟩,
    (lanesOf t).flatMap fun i => (ps i).map fun e => (i, e), none, none, [], 0, none, [], []⟩

/-- A vector instruction of variable latency completes its issue (R48): the results `out` and `ps` of the active lanes are
outstanding for the registers `regs`, unless em is zero (R82), the flags are raised, and no register has changed yet. -/
def LaterDone (c : Instr) (s : State) (u : Nat) (t : Team) (regs : List RegRef) (out : Nat → List (Nat × W32))
    (ps : Nat → List (Nat × Bool)) (fl : FlagSet) : Prop :=
  ∃ s' t', exec c s = .next s' ∧
    RegsOnly s s' u t t' no2 no2 no fl (if lanesOf t = [] then [] else [laterPend t regs out ps])

/-- A uniform instruction of variable latency completes its issue (R48): the value `w` of register `n` is outstanding, and no
register has changed yet. -/
def UniLater (c : Instr) (s : State) (u : Nat) (t : Team) (n : Nat) (w : W64) : Prop :=
  ∃ s' t', exec c s = .next s' ∧
    RegsOnly s s' u t t' no2 no2 no FlagSet.none [⟨false, [.k n], [], [], some (n, w), none, [], 0, none, [], []⟩]

/-- An integer clamped to the range of a type (R55). -/
def clamp (signed : Bool) (w : Nat) (v : Int) : Int := max (loOf signed w) (min (hiOf signed w) v)

/-- An element-wise instruction completes (R54, R55, R83): element `j` of each active lane's result is `f` of elements `j` of
its operands, modulo 2^w, or clamped to the type's range under .sat; OF is raised when an element was clamped. A 64-bit type
has one element, in a pair. -/
def ElemDone (c : Instr) (s : State) (u : Nat) (t : Team) (ty : IntTy) (sat : Bool) (f : Int → Int → Int) (d a b : VReg) :
    Prop :=
  ∃ (val : Nat → Nat) (ov : Nat → Bool),
    VecDone c s u t (fun i => if tyPair ty then pairOut (ef t d) (val i) else [(ef t d, BitVec.ofNat 32 (val i))]) (fun _ => [])
      (flagAll ((lanesOf t).map fun i => flagOv (ov i))) ∧
    ∀ i ∈ lanesOf t,
      let opd := fun (r : VReg) => if tyPair ty then vnat64 t i r else vnat t i r
      let w := tyWidth ty
      let n := if tyPair ty then 1 else 32 / w
      let x := fun (j : Nat) => f (elemVal (tySigned ty) w (field (opd a) (w * j) w)) (elemVal (tySigned ty) w (field (opd b) (w * j) w))
      (∀ j < n, field (val i) (w * j) w = wrapNat w (if sat then clamp (tySigned ty) w (x j) else x j)) ∧
      (ov i = true ↔ sat = true ∧ ∃ j < n, clamp (tySigned ty) w (x j) ≠ x j)

/-- A cross-lane instruction completes: a .row form writes its results, a .team form leaves them outstanding (R48, R119). -/
def CrossDone (c : Instr) (s : State) (u : Nat) (t : Team) (team : Bool) (regs : List RegRef) (out : Nat → List (Nat × W32))
    (ps : Nat → List (Nat × Bool)) (fl : FlagSet) : Prop :=
  if team then LaterDone c s u t regs out ps fl else VecDone c s u t out ps fl

/-- The fold of a scan over the values of an extent's lanes, the lowest first (R81), and the flags of its steps. -/
def scanTo (op : RdxOp) : List Nat → Nat × FlagSet
  | [] => (rdxIdentity op, FlagSet.none)
  | x :: xs => xs.foldl (fun a y => ((rdxStep op a.1 y).1, flagOr a.2 (rdxStep op a.1 y).2)) (x, FlagSet.none)

/-! ## What a team has seen of memory -/

/-- The newest write in co of the place at `x` of a memory, if one is recorded (R394). -/
def newestAt (s : State) (first x : Nat) : Option Write :=
  (find? s.hist (first + x / 16)).bind fun g => g.writes.find? fun w => writesAt w (x % 16)

/-- A party that has seen `seen` synchronizes with the newest write of each of `n` places from `a` on of a memory (R396), and `mem` holds what
that write left there, or what stood there before the first one. -/
def Synced (s : State) (seen : List Nat) (first a n : Nat) (mem : Nat → Byte) : Prop :=
  ∀ x, a ≤ x → x < a + n → ∀ g, find? s.hist (first + x / 16) = some g →
    match newestAt s first x with
    | some w => seenCode w.n (x % 16) ∈ seen ∧ mem x = writeByte w (x % 16)
    | none => mem x = nth 0#8 g.base (x % 16)

/-- A team for which whatever one of its lanes has seen all have seen (R387). -/
def melded (t : Team) : Team :=
  { t with
    seen := joinSeen t.seen ((t.laneSeen.filter fun e => e.2 != silentLane).map (·.1))
    laneSeen := t.laneSeen.filter fun e => e.2 == silentLane }

/-- A team that has joined what others have seen. -/
def joined (t : Team) (v : View) : Team := { t with seen := joinSeen t.seen v.seen }

/-- What team `t` joins when it acquires the releases `l` at a scope: those that are inclusive (R389). -/
def acquires (t : Team) (sc : Scope) (l : List Rel) : View := relsView (l.filter fun r => inclusive r sc (teamParty t))

/-- A core whose L1 is empty. -/
def emptied (c : Core) : Core := { c with l1 := [], l1Last := [], l1Early := [] }

/-- A core whose team has joined a view, and where `drop` says so emptied its L1 (R18, R170, R392). -/
def acquiredCore (drop : Bool) (v : View) (c : Core) : Core :=
  { (if drop then emptied c else c) with clock := max c.clock v.clock }

/-- Of the state only team `u` differs, and of its core what an acquire changes. -/
structure Acquired (s s' : State) (u core : Nat) (drop : Bool) (v : View) : Prop where
  rest : s' = { s with teams := s'.teams, cores := s'.cores }
  others : ∀ n, n ≠ u → find? s'.teams n = find? s.teams n
  cores : ∀ n, getCore s' n = if n = core then acquiredCore drop v (getCore s n) else getCore s n

/-! ## Memory -/

/-- The team has ended its group: of `t`, which has what the instruction itself has changed, only its place in the program and
what it books there differ. -/
def Onward (s : State) (t t' : Team) : Prop :=
  t' = { t with
    flow := t'.flow, status := t'.status, counts := t'.counts, flight := t'.flight, walked := t'.walked, asks := t'.asks
    cur := s.issue, booking := none }

/-- The team has ended its group, and goes on at the word after it. -/
def Passed (s : State) (t t' : Team) : Prop := Onward s t t' ∧ GoesOn s t t'

/-- A team has moved on in its program: only its place there and what it books there differ. -/
def Moved (t t' : Team) : Prop :=
  t' = { t with
    flow := t'.flow, snap := t'.snap, status := t'.status, counts := t'.counts, flight := t'.flight, walked := t'.walked
    asks := t'.asks, booking := none }

/-- A team whose region has ended with nothing stored (R147): its log is empty, and its lanes have melded (R387). -/
def ended (t : Team) : Team := { melded t with log := [], zeros := [], pols := [], debited := [] }

/-- What a region boundary leaves of a team whose region has stored nothing (R147): it goes on at the word after it, and where it has not
ended a snapshot is taken there. -/
def Bounded (s : State) (t t' : Team) : Prop :=
  Passed s { ended t with snap := t'.snap } t' ∧ (t'.status = .ready → t'.snap = t'.flow)

/-- A core after an access through its L1: its lines, and its clock, may differ. -/
def CachesOnly (c c' : Core) : Prop :=
  c' = { c with l1 := c'.l1, l1Last := c'.l1Last, l1Early := c'.l1Early, clock := c'.clock }

/-- Of the whole state only team `u`, the L1 lines and clocks of cores, the pound, and the bank records of the stacks differ: no byte, no
register of another team, no other register of the device. -/
structure ReadOnly (s s' : State) (u : Nat) : Prop where
  rest : s' = { s with teams := s'.teams, cores := s'.cores, pound := s'.pound, stks := s'.stks }
  others : ∀ n, n ≠ u → find? s'.teams n = find? s.teams n
  cores : ∀ n, CachesOnly (getCore s n) (getCore s' n)
  bytes : SameBytes s s'

/-- Of the whole state only team `u` differs. -/
structure TeamOnly (s s' : State) (u : Nat) : Prop where
  rest : s' = { s with teams := s'.teams }
  others : ∀ n, n ≠ u → find? s'.teams n = find? s.teams n

/-- Of the whole state only team `u`, and what a debit or a refund touches (R207-R214), differ: slices, POOL, held debits, the
watch on the low watermark and the records that wait; no byte differs. -/
structure DebitOnly (s s' : State) (u : Nat) : Prop where
  rest : s' = { s with
    teams := s'.teams, cores := s'.cores, ctxs := s'.ctxs, reserve := s'.reserve, evPend := s'.evPend, evDue := s'.evDue,
    evLost := s'.evLost }
  others : ∀ n, n ≠ u → find? s'.teams n = find? s.teams n
  cores : ∀ n, getCore s' n = { getCore s n with slice := (getCore s' n).slice }
  bytes : SameBytes s s'

/-- The byte that a team reads at `x`, an address of an access that lies at `p` from `a` on (R151, R175): its own log's byte, or
zero in a block it has zeroed, or what the device or the host holds. -/
def teamByte (s : State) (t : Team) (p : Place) (a x : Nat) : Byte :=
  match find? t.log x with
  | some b => b
  | none =>
    if t.zeros.contains (x / 256) then 0#8
    else
      match p with
      | .dev k => memByte s.mem (k + (x - a))
      | .host h => memByte s.hostMem (h + (x - a))
      | .table h => memByte s.tspace (h + (x - a))
      | .peer _ _ => 0#8

/-- The bytes of one lane's read. -/
def teamBytes (s : State) (t : Team) (e : Touch) (n : Nat) : List Byte := (rangeFrom e.addr n).map (teamByte s t e.place e.addr)

/-- The places of a load are in the device or the host and hold no poison (R177), and team `t` synchronizes with the newest write of each
byte there (R396). -/
def PlainReads (s : State) (t : Team) (w : Width) (l : List Touch) : Prop :=
  ∀ e ∈ l,
    (∃ k, e.place = .dev k ∧ (metaOf s (k / 256)).poison = false ∧ Synced s t.seen 0 k (widthBytes w) (memByte s.mem)) ∨
    ∃ h, e.place = .host h ∧ Synced s t.seen hostGrains h (widthBytes w) (memByte s.hostMem)

/-- No open matrix operation of any core stores to a device block (R194). -/
abbrev Unstored (s : State) (b : Nat) : Prop :=
  (s.cores.any fun e => (openOps e.2).any (storesTo none (0, b) e.1)) = false

/-- Team `t` synchronizes with the newest write of each of `n` bytes from `a` on of its core's scratchpad (R396). -/
def SpadSynced (s : State) (t : Team) (a n : Nat) : Prop :=
  Synced s t.seen (spadGrains t.core) a n (spadNow (getCore s t.core))

/-- A scratchpad access of the active lanes that no check of R157 and no poison stops, to bytes whose newest writes its team knows. -/
def SpadFits (s : State) (t : Team) (w : Width) (m : MArgs) : Prop :=
  ∀ i ∈ lanesOf t, spadAddr t m i % widthBytes w = 0 ∧ spadAddr t m i + widthBytes w ≤ spgBytes (getCore s t.core).word ∧
    spadPoisoned (getCore s t.core) (spadAddr t m i) (widthBytes w) = false ∧ SpadSynced s t (spadAddr t m i) (widthBytes w)

/-- The operations of an ATOM or RED on device bytes, one after another (R168, R169): the bytes after them, and what each
lane found. -/
def rmwSteps (w : Width) (md : AtomMod) : (Nat → Byte) → List (RmwOp × Nat) → (Nat → Byte) × List (Nat × Nat)
  | f, [] => (f, [])
  | f, (o, k) :: l =>
    let n := widthBytes w
    let m := natOf ((rangeFrom k n).map f)
    let v := bytesOf n (rmwNew w md m o.o o.n)
    let r := rmwSteps w md (fun x => if k ≤ x ∧ x < k + n then (v[x - k]?).getD 0#8 else f x) l
    (r.1, (o.lane, m) :: r.2)

/-- Every lane's old value is in its destination registers, when there is one, and no other register has changed. -/
def OldValues (w : Width) (dst : Option Nat) (t t' : Team) (olds : List (Nat × Nat)) : Prop :=
  match dst with
  | none => ∀ i r, r < 128 → vreg t' i r = vreg t i r
  | some d =>
    (∀ e ∈ olds, ∀ x ∈ loadOut w d e.2, vreg t' e.1 x.1 = x.2) ∧
    (∀ i r, r < 128 → ¬ (i ∈ olds.map (·.1) ∧ r ∈ (loadOut w d 0).map (·.1)) → vreg t' i r = vreg t i r)

/-! ## Control flow and exceptions -/

/-- A precise stop of a core (R409) has been taken and nothing else done: of the state only team `u`, the core's stop and the
records that wait differ. -/
structure StopOnly (s s' : State) (u core : Nat) : Prop where
  rest : s' = { s with
    teams := s'.teams, cores := s'.cores, ctxs := s'.ctxs, evPend := s'.evPend, evDue := s'.evDue, evLost := s'.evLost }
  others : ∀ n, n ≠ u → find? s'.teams n = find? s.teams n
  cores : ∀ n, getCore s' n = if n = core then { getCore s n with stop := (getCore s' n).stop } else getCore s n
  bytes : SameBytes s s'

/-- The record of a stop (R406, R409) at the group at `pc`: it waits to be appended, or, while anything issued on the core is outstanding,
it waits for that. -/
def StopRecorded (s s' : State) (u : Nat) (t : Team) (pc cause w5 : Nat) (lane : Option Nat) (addr : Nat) (completed : Bool) : Prop :=
  ∃ r : FaultRec,
    (getCore s' t.core).stop = some ⟨some u, cause, completed, if coreBusy s' t.core then some r else none⟩ ∧
    (coreBusy s' t.core = false → r ∈ (getCtx s' t.ctx).pend) ∧
    r.cause = cause ∧ r.stopc = true ∧ r.park = false ∧ r.lane = lane ∧ r.uid = some u ∧ r.ctx = t.ctx ∧ r.core = t.core ∧
    r.part = t.part ∧ r.team = t.id ∧ r.pc = pc ∧ r.addr = addr ∧ r.time = s.mgmt.time ∧ r.w5 = w5

/-- An instruction has raised a precise stop with no other effect (R409), at a lane and an address where it has one. -/
def StoppedAt (c : Instr) (s : State) (u : Nat) (t : Team) (cause w5 : Nat) (lane : Option Nat) (addr : Nat) : Prop :=
  ∃ s1 t', exec c s = .next (settle s1) ∧ find? s1.teams u = some t' ∧
    t' = { t with cur := s.issue, booking := t'.booking, stepOnce := false } ∧ StopOnly s s1 u t.core ∧
    StopRecorded s s1 u t s.issue.group cause w5 lane addr false

/-- The same, with no lane and no address. -/
abbrev Stopped (c : Instr) (s : State) (u : Nat) (t : Team) (cause w5 : Nat) : Prop := StoppedAt c s u t cause w5 none 0

/-- A replayable fault has parked a team (R152, R153): its region's log and its debit are gone, its registers and its snapshot are as they
were, and the record of the fault waits to be appended. -/
def ParkedAt (s s1 : State) (u : Nat) (t : Team) (cause : Nat) (lane : Option Nat) (addr : Nat) : Prop :=
  DebitOnly s s1 u ∧
  (∃ t', find? s1.teams u = some t' ∧ t' = { t with
    cur := s.issue, booking := t'.booking, status := .parked, walked := [], asks := [], log := [], zeros := [], pols := []
    debited := [] }) ∧
  (getCtx s1 t.ctx).held = (getCtx s t.ctx).held - 8 * t.debited.length ∧
  ∃ r ∈ (getCtx s1 t.ctx).pend, r.cause = cause ∧ r.park = true ∧ r.stopc = false ∧ r.lane = lane ∧ r.addr = addr ∧
    r.uid = some u ∧ r.ctx = t.ctx ∧ r.core = t.core ∧ r.team = t.id ∧ r.pc = s.issue.group ∧ r.time = s.mgmt.time

/-! ## Interval mode (R340-R348) -/

/-- What lane `i` reads in register `r` as i32 or n32 (R341): a point as its bits, an interval of the type's kind as it is, and anything
else as the whole range of the type. -/
def ReadsAs (signed : Bool) (t : Team) (i r : Nat) (lo hi : Int) (tag : Option ATag) : Prop :=
  let kind := if signed then IKind.I else IKind.N
  match ivreg t i r with
  | .point => lo = (if signed then (vreg t i r).toInt else ((vreg t i r).toNat : Int)) ∧ hi = lo ∧ tag = some ⟨0, 0, lo⟩
  | .iv k l h _ g => if k = kind then lo = l ∧ hi = h ∧ tag = g else lo = loOf signed 32 ∧ hi = hiOf signed 32 ∧ tag = none
  | _ => lo = loOf signed 32 ∧ hi = hiOf signed 32 ∧ tag = none

/-- Lane `i` holds an integer result in register `r` (R343): full where an end is out of the type's range, else a point where the ends
are one, else the interval. -/
def HoldsAs (signed : Bool) (t : Team) (i r : Nat) (lo hi : Int) (tag : Option ATag) : Prop :=
  if lo < loOf signed 32 ∨ hiOf signed 32 < hi then ivreg t i r = .full
  else if lo = hi then ivreg t i r = .point ∧ vreg t i r = BitVec.ofInt 32 lo
  else ivreg t i r = .iv (if signed then .I else .N) lo hi false tag

/-- THE FRAME OF AN INTERVAL INSTRUCTION that leaves no tile undecided: of the whole state only its team differs, of that the registers
`V` and the predicates `P`, which a lane that is unsure marks (R345), its place in the program and what it books there. No flag is raised
(R74). -/
structure IvFrame (s s' : State) (u : Nat) (t t' : Team) (V P : Nat → Nat → Prop) : Prop where
  only : TeamOnly s s' u
  team : find? s'.teams u = some t'
  regs : ∀ i r, r < 128 → ¬ V i r → ivreg t' i r = ivreg t i r ∧ vreg t' i r = vreg t i r
  preds : ∀ i p, p < 8 → ¬ P i p → triP t' i p = triP t i p
  marks : ∃ f : Unsure → Unsure, t'.unsure = t.unsure.map f ∧ ∀ x ∈ t.unsure,
    f x = { x with regs := (f x).regs, preds := (f x).preds } ∧ (∀ r, r ∈ (f x).regs ↔ r ∈ x.regs ∨ V x.lane r) ∧
    ∀ p, p ∈ (f x).preds ↔ p ∈ x.preds ∨ P x.lane p
  goes : Passed s { t with v := t'.v, iv := t'.iv, p := t'.p, pm := t'.pm, unsure := t'.unsure } t'

/-- An interval instruction completes: in every active lane `Q` holds of the registers `regs` and the predicates `preds`, and nothing else
has changed. -/
def IvDone (c : Instr) (s : State) (u : Nat) (t : Team) (regs preds : List Nat) (Q : Team → Nat → Prop) : Prop :=
  ∃ s' t', exec c s = .next s' ∧
    IvFrame s s' u t t' (fun i r => i ∈ lanesOf t ∧ r ∈ regs) (fun i p => i ∈ lanesOf t ∧ p ∈ preds) ∧ ∀ i ∈ lanesOf t, Q t' i

/-- The fates of tiles that become undecided, the lanes ascending, with a budget of `b` (R348): a subtile of depth 3 is handed off with
REASON 1, a tile that finds no budget with REASON 2, and any other is quartered and draws 1. A fate that stands is not drawn again. -/
def fatesFrom (t : Team) : Nat → List Nat → List (Nat × Fate)
  | _, [] => []
  | b, i :: l =>
    if (find? t.fates i).isSome then fatesFrom t b l
    else if (tileOf t i).depth = 3 then (i, .handoff 1) :: fatesFrom t b l
    else if b = 0 then (i, .handoff 2) :: fatesFrom t b l
    else (i, .quartered) :: fatesFrom t (b - 1) l

/-- The tile of every active lane has become undecided (R343, R348), and the instruction has done nothing else: the lanes have exited,
their fills and marks are gone, and the kernel's budget is lower by what they drew. -/
def IvUndecided (c : Instr) (s : State) (u : Nat) (t : Team) : Prop :=
  ∀ k, kernelOf s t.kid = some k →
    let drawn := fatesFrom t k.budget (lanesOf t)
    ∃ s' t', exec c s = .next s' ∧ find? s'.teams u = some t' ∧ s' = { s with teams := s'.teams, kernels := s'.kernels } ∧
      (∀ n, n ≠ u → find? s'.teams n = find? s.teams n) ∧ (∀ n, n ≠ t.kid → kernelOf s' n = kernelOf s n) ∧
      kernelOf s' t.kid = some { k with budget := k.budget - (drawn.filter fun e => e.2 == .quartered).length } ∧
      (∀ i ∈ lanesOf t, laneState t'.flow i = .exited) ∧
      Onward s { t with
        fates := t.fates ++ drawn, fills := t.fills.filter fun f => !(lanesOf t).contains f.lane
        unsure := t.unsure.filter fun f => !(lanesOf t).contains f.lane } t'

/-! ## Locks -/

/-- A lock after the evaluation that follows a change of its counts (R268), where it does not break. -/
def lockAfter (l : Lock) : Lock :=
  if l.penda = 0 ∧ l.bdone = l.bexp then
    { l with
      phase := l.phase + 1#32, bexp := 0, bdone := 0,
      penda := if l.gate = true ∧ (l.phase + 1#32).toNat % 2 = 1 then l.nd else l.na }
  else l

/-- Whether the evaluation breaks a lock (R275): every arrival has come and more bytes than were expected. -/
def lockBreaks (l : Lock) : Prop := l.penda = 0 ∧ l.bexp < l.bdone

/-- The release of team `t'`, as it stands in `s'`, that an arrival at a lock is (R276). -/
def arrivalOf (s' : State) (t' : Team) : Rel := ⟨teamParty t', .dev, ⟨t'.seen, (getCore s' t'.core).clock⟩, false⟩

/-- A LOCK form completes on lock `n` of the team's own core, which no team waits on: the lock becomes `l` of the release that its
arrival is; `res` is written to its uniform register; and of the state only the team, that lock and, where it acquires a view (R276),
what that changes differ. -/
def LockFormDone (c : Instr) (s : State) (u : Nat) (t : Team) (n : Nat) (l : Rel → Lock) (res : Option (Nat × W64))
    (acq : Option (Bool × View)) : Prop :=
  let v := (acq.getD (false, ⟨[], 0⟩)).2
  ∃ s' t', exec c s = .next s' ∧ find? s'.teams u = some t' ∧
    Passed s { joined (ended t) v with k := t'.k, snap := t'.snap } t' ∧ (t'.status = .ready → t'.snap = t'.flow) ∧
    s' = { s with teams := s'.teams, cores := s'.cores } ∧ (∀ m, m ≠ u → find? s'.teams m = find? s.teams m) ∧
    (∀ m, getCore s' m = if m = t.core then
        { acquiredCore (acq.getD (false, ⟨[], 0⟩)).1 v (getCore s m) with locks := (getCore s' m).locks }
      else getCore s m) ∧
    (∀ m, getLock s' t.core m = if m = n then l (arrivalOf s' t') else getLock s t.core m) ∧
    (∀ m, kreg t' m = match res with
      | some (k, w) => if m = k ∧ m ≠ 0 then w else kreg t m
      | none => kreg t m)

/-- A boundary instruction holds its team at a wait, with its region committed and nothing else done. -/
def Waits (c : Instr) (s : State) (u : Nat) (t : Team) (w : Wait) : Prop :=
  ∃ s' t', exec c s = .next s' ∧ find? s'.teams u = some t' ∧ TeamOnly s s' u ∧ t'.status = .waiting w ∧
    t' = { ended t with snap := t.flow, cur := s.issue, booking := t'.booking, status := t'.status }

/-! ## Matrix operations and the loom -/

/-- The walks of the pages that the loom step of a handle touches are done (R364). -/
abbrev PagesKnown (s : State) (t : Team) (h : Nat) (pages : List Nat) : Prop :=
  pagesUnknown s (loomDie s (.ctx t.ctx) h) t pages = []

/-- The state in which the effect of an instruction of no fixed latency begins: its group is the team's (R47), and, for a region
boundary, the region has committed and a snapshot is taken (R147). -/
def begun (s : State) : State := beginGroup s (some [])
def atBoundary (s : State) : State := takeSnap (commitRegion (begun s) s.issue.uid) s.issue.uid

/-- The state in which the loom performs a form (R321): all that the team's lanes have seen the team has seen (R387). -/
def atLoom (s : State) (bound : Bool) : State := if bound then atBoundary s else meldLanes (begun s) s.issue.uid

/-- A matrix operation is accepted (R179, R180, R189): it stands last in the queue of the team's unit, and for a pair the
follower's half in that of the next core; its reads come after the team's last MFENCE.OPR, and its writes after all that the team has
seen (R191, R391). `s0` is the state with what its acceptance has debited; of the rest only the team and, where it acquires a view, what
that changes differ. -/
def MatAccepted (c : Instr) (s : State) (u : Nat) (t : Team) (s0 : State) (k : MKind) (desc : List W64) (bound pair : Bool)
    (acq : Option View) (P : MOp → Prop) : Prop :=
  let v := acq.getD ⟨[], 0⟩
  ∃ s1 t' o, exec c s = .next (settle s1) ∧ find? s1.teams u = some t' ∧
    Passed s { joined (if bound then ended t else t) v with snap := t'.snap } t' ∧
    (t'.status = .ready → t'.snap = if bound then t'.flow else t.snap) ∧
    o.kind = k ∧ o.desc = desc ∧ o.uid = u ∧ o.batch = none ∧ o.pc = s.issue.group ∧ o.slave = false ∧ o.tainted = false ∧
    o.seen = t.oprSeen ∧ o.made = (joined (melded t) v).seen ∧ o.unit = t.part ∧ P o ∧
    s1 = { s0 with teams := s1.teams, cores := s1.cores } ∧ (∀ n, n ≠ u → find? s1.teams n = find? s.teams n) ∧
    getCore s1 t.core = { acquiredCore acq.isSome v (getCore s0 t.core) with
      matQ := setAt (getCore s t.core).matQ t.part (nth [] (getCore s t.core).matQ t.part ++ [o]) } ∧
    (pair = true → ∃ h, h.slave = true ∧ h.order = o.order ∧ h.kind = k ∧ h.desc = desc ∧ h.uid = u ∧
      getCore s1 (t.core + 1) = { getCore s0 (t.core + 1) with
        matQ := setAt (getCore s (t.core + 1)).matQ t.part (nth [] (getCore s (t.core + 1)).matQ t.part ++ [h]) }) ∧
    ∀ n, n ≠ t.core → (pair = true → n ≠ t.core + 1) → getCore s1 n = getCore s0 n

/-- Operation `o`, which is no follower's half that retires by itself, is at the head of a unit's queue, and nothing of what R194, R200 and
R411 add befalls it: nothing has struck it, no operation of another unit uses what it writes, its core is not stopped and holds no poison. -/
structure RetiringHead (s : State) (core part : Nat) (o : MOp) (rest : List MOp) : Prop where
  head : nth [] (getCore s core).matQ part = o :: rest
  queues : (getCore s core).matQ.length = 4
  flags : (getCore s core).mflags.length = 4
  inUnit : part < 4
  running : (getCore s core).stop = none
  whole : o.tainted = false
  clean : (getCore s core).tilePoison = [] ∧ (getCore s core).spadPoison = []
  apart : ∀ p ∈ openOps (getCore s core), p.unit ≠ o.unit →
    o.destTiles.any p.destTiles.contains = false ∧ rangesMeet o.destSpad p.spadUse = false

/-- What an operation leaves of its core: the tiles' elements by tile, row and column; the row pairs by tile and row; the scratchpad; and
the flags it raises (R72). -/
structure RetireOut where
  tile : Nat → Nat → Nat → W32
  pair : Nat → Nat → W32 × W32
  spad : Nat → Byte
  fl : FlagSet
  approx : Bool

/-- A core as it stands, with no flag raised. -/
def coreKeeps (c : Core) : RetireOut :=
  ⟨fun t i j => tabGet 0#32 c.tile (tileKey t i j), fun t i => (tabGet 0#32 c.rowM (rowPairKey t i), tabGet 0#32 c.rowL (rowPairKey t i)),
    tabGet 0#8 c.spad, FlagSet.none, false⟩

/-- MATRIX_OP_RETIRE at a core ends the operations `halves` (R180), each with its core, what is behind it in its unit and what it leaves
there; device memory reads as `mem`, host memory as before; other cores keep all but their slices; and other teams may be woken. -/
def Retired (s : State) (core part : Nat) (halves : List (Nat × MOp × List MOp × RetireOut)) (mem : Nat → Byte) (P : State → Prop) : Prop :=
  ∃ s1, exec (.matrixOpRetire core part) s = .next (settle s1) ∧
    (∀ e ∈ halves, let k := getCore s e.1
      let k1 := getCore s1 e.1
      let r := e.2.2.2
      (∀ t, ∀ i < 64, ∀ j < 64, tabGet 0#32 k1.tile (tileKey t i j) = r.tile t i j) ∧
      (∀ t, ∀ i < 64, (tabGet 0#32 k1.rowM (rowPairKey t i), tabGet 0#32 k1.rowL (rowPairKey t i)) = r.pair t i) ∧
      (∀ x, tabGet 0#8 k1.spad x = r.spad x) ∧
      k1.mflags = setAt k.mflags part ⟨flagOr (mflagsOf k part).fl r.fl, (mflagsOf k part).approx || r.approx⟩ ∧
      k1.matQ = setAt k.matQ part e.2.2.1 ∧
      (∃ o1, o1 = { e.2.1 with made := o1.made, asks := [] } ∧ k1.matDone = k.matDone ++ [o1]) ∧
      k1 = { k with
        tile := k1.tile, rowM := k1.rowM, rowL := k1.rowL, spad := k1.spad, lateSpad := k1.lateSpad, mflags := k1.mflags
        matQ := k1.matQ, matDone := k1.matDone, l1 := k1.l1, l1Last := k1.l1Last, l1Early := k1.l1Early, clock := k1.clock
        slice := k1.slice }) ∧
    (∀ n, n ∉ halves.map (·.1) → getCore s1 n = { getCore s n with slice := (getCore s1 n).slice }) ∧
    (∀ x, memByte s1.mem x = mem x) ∧ (∀ x, memByte s1.hostMem x = memByte s.hostMem x) ∧
    (∀ n x, find? s.teams n = some x →
      ∃ y, find? s1.teams n = some y ∧ y = { x with status := y.status } ∧ (y.status = x.status ∨ y.status = .ready)) ∧ P s1

/-- Of the state only cores and teams differ. -/
def coresOnly (s s1 : State) : Prop := s1 = { s with teams := s1.teams, cores := s1.cores }

/-- A unit's reads of `n` rows of `len` bytes of its core's scratchpad synchronize with the newest writes there (R191, R396). -/
def RowsSynced (s : State) (core : Nat) (seen : List Nat) (a st len n : Nat) : Prop :=
  ∀ i < n, Synced s seen (spadGrains core) (a + i * st) len (spadNow (getCore s core))

/-- The bytes that an engine reads from `va` on lie in the device, whole, each sector at `key` of it, and a reader that has seen `seen`
synchronizes with their newest writes (R396). -/
def EngineReads (s : State) (id : Nat) (seen : List Nat) (va n : Nat) (key : Nat → Nat) : Prop :=
  ∀ x, va / 32 * 32 ≤ x → x < va + n → x % 32 = 0 →
    (∃ l, xlateWalk s id x .load = .ok (.dev (key x)) l) ∧ (metaOf s (key x / 256)).poison = false ∧
    Synced s seen 0 (key x) 32 (memByte s.mem)

/-- Those bytes. -/
def engineBytes (s : State) (key : Nat → Nat) (va n : Nat) : List Byte :=
  (rangeFrom va n).map fun x => memByte s.mem (key (x / 32 * 32) + x % 32)

/-- Row `i` of A of an MMA on a core, and the flags of decoding or converting it (R185-R187). -/
def mmaRow (k : Core) (o : MOp) (f : MmaFmt) (acca : Bool) (d : MmaDesc) (i : Nat) : List FVal × FlagSet :=
  if acca then
    let n := if mmaBits f = 16 then 32 else 64
    let es := (List.range n).map fun j => convF ((mmaFmt f).getD fmtE4m3) .rne (fval fmtF32 (tileWord k d.at_ i (j + 32 * d.akoff)))
    (es.map fun e => fval ((mmaFmt f).getD fmtE4m3) e.1, flagAll (es.map (·.2)))
  else if d.ar then rowElems f (((o.regsA.drop (16 * i)).take 16).flatMap fun w => bytesOf 4 w.toNat)
  else rowElems f (spadBytes k (d.spa + i * d.sta) 64)

/-- What an MMA leaves of a core, its own or its follower's, with the columns `col` of B that the leader has read (R186, R187, R189; that the
follower's unit raises the flags of B's decoding too is log 62, DESIGN CHOICE). -/
def mmaOut (k : Core) (o : MOp) (f : MmaFmt) (acca zero : Bool) (d : MmaDesc) (col : Nat → List FVal × FlagSet) : RetireOut :=
  let el := fun (i j : Nat) => dotInto (mmaGroup f) (mmaRow k o f acca d i).1 (col j).1 (if zero then 0 else tileWord k d.dt i j)
  let all := List.range 64
  { coreKeeps k with
    tile := fun t i j => if t = d.dt then BitVec.ofNat 32 (el i j).1 else (coreKeeps k).tile t i j
    fl := flagAll (all.map (fun i => (mmaRow k o f acca d i).2) ++ all.map (fun j => (col j).2) ++
      all.flatMap fun i => all.map fun j => (el i j).2) }

/-- What a SEQ, PTREE or KVT form asks of the loom of its sequence: the handle; what is done; the register its result goes to; and
whether the form is a region boundary (R321, R322). -/
structure LoomReq where
  handle : Nat
  act : Txn → Loomed
  reg : Option Nat
  bound : Bool

/-- The words of a run of uniform registers as numbers. -/
def kWords (t : Team) (a : KReg) (i : Nat) : Nat := (kreg t (a.toNat + i)).toNat

/-- The requests of the forms whose operand words keep their form (R304-R319). -/
def loomReq (t : Team) : Instr → Option LoomReq
  | .seqReserve a b =>
    let h := kWords t b 0
    if 1 ≤ kWords t a 0 ∧ kWords t a 0 < 2 ^ 16 then some ⟨h, fun x => loomReserve x h (kWords t a 0), some (a.toNat + 1), true⟩
    else none
  | .seqAddr a b =>
    let h := kWords t b 0
    if kWords t a 0 < 2 ^ 32 then some ⟨h, fun x => loomAddr x h (kWords t a 0), some (a.toNat + 1), true⟩ else none
  | .seqCommit a b =>
    let h := kWords t b 0
    let w := kWords t a 0
    if w < 2 ^ 48 ∧ 1 ≤ field w 32 16 then
      some ⟨h, fun x => loomClose x false h (field w 0 32) (field w 32 16), none, true⟩ else none
  | .seqVoid a b =>
    let h := kWords t b 0
    let w := kWords t a 0
    if w < 2 ^ 48 ∧ 1 ≤ field w 32 16 then
      some ⟨h, fun x => loomClose x true h (field w 0 32) (field w 32 16), none, true⟩ else none
  | .seqFork a b =>
    let h := kWords t b 0
    if forkDescOk (kWords t a) then some ⟨h, fun x => loomFork x h (kWords t a), some (a.toNat + 5), true⟩ else none
  | .seqLen a b =>
    let h := kWords t b 0
    some ⟨h, fun x => loomLen x h, some a.toNat, true⟩
  | .ptreeLookup a b =>
    let h := kWords t b 0
    if tokenWordOk (kWords t a 0) = true ∧ kWords t a 1 < 2 ^ 32 then
      some ⟨h, fun x => loomLookup x h (kWords t a 0) (kWords t a 1), some (a.toNat + 2), false⟩ else none
  | .ptreeInsert a b =>
    let h := kWords t b 0
    if tokenWordOk (kWords t a 0) then some ⟨h, fun x => loomInsert x h (kWords t a 0), some (a.toNat + 1), false⟩ else none
  | .ptreeUnref a b =>
    let h := kWords t b 0
    some ⟨h, fun x => loomUnref x h, some a.toNat, false⟩
  | .kvtPage a b =>
    let h := kWords t b 0
    if kvtWordOk (kWords t a 0) then
      some ⟨h, fun x => loomKvtPage x h (kvtDesc (kWords t a)).p0, some (a.toNat + 3), false⟩ else none
  | .kvtRope a b =>
    let h := kWords t b 0
    if kvtRopeOk (kWords t a) then some ⟨h, fun x => loomKvtRope x h, none, false⟩ else none
  | .kvtBoth a b =>
    let h := kWords t b 0
    if kvtRopeOk (kWords t a) then
      some ⟨h, fun x => loomKvtPage x h (kvtDesc (kWords t a)).p0, some (a.toNat + 3), false⟩ else none
  | _ => none

/-- The angle rows that a KVT form writes (R319), and where. -/
def ropeWrites (t : Team) : Instr → Option (Nat × List Byte)
  | .kvtRope a _ => some ((kvtDesc (kWords t a)).out, ropeRows (kvtDesc (kWords t a)))
  | .kvtBoth a _ => some ((kvtDesc (kWords t a)).out, ropeRows (kvtDesc (kWords t a)))
  | _ => none

/-- The last uniform register that a loom form uses. -/
def loomLastReg : Instr → Nat
  | .seqReserve a b | .seqAddr a b | .ptreeInsert a b | .seqWatch a b | .launch a b => max (a.toNat + 1) b.toNat
  | .seqFork a b => max (a.toNat + 5) b.toNat
  | .ptreeLookup a b => max (a.toNat + 2) b.toNat
  | .kvtPage a b | .kvtBoth a b => max (a.toNat + 3) b.toNat
  | .kvtRope a b => max (a.toNat + 2) b.toNat
  | .seqCommit a b | .seqVoid a b | .seqLen a b | .ptreeUnref a b => max a.toNat b.toNat
  | _ => 0

/-- What a finite exact value is worth. -/
def fvQ : FVal → ℚ
  | .fin n m e => (if n then -1 else 1) * m * 2 ^ e
  | _ => 0

/-- Whether an exact value is finite. -/
def fvFin : FVal → Bool
  | .fin _ _ _ => true
  | _ => false

/-- The numbers of a format's precision, with no greatest exponent, and with the format's least one or with none (R56, R66, R67). -/
def OfPrecision (f : Fmt) (least : Bool) (q : ℚ) : Prop :=
  ∃ (m : ℕ) (e : ℤ), m < 2 ^ (f.fb + 1) ∧ (least = true → fmtEmin f ≤ e) ∧ |q| = m * 2 ^ e

/-- `r` is `q` rounded by a mode to a set of numbers (R65); of two that are equally near, `.rne` takes the one that is an even multiple of
their distance. -/
def RoundsTo (G : ℚ → Prop) (rm : RMode) (q r : ℚ) : Prop :=
  G r ∧
  match rm with
  | .rne => ∀ x, G x → |q - r| ≤ |q - x| ∧ (|q - r| = |q - x| → x = r ∨ ∃ k : ℤ, r = 2 * k * |r - x|)
  | .rz => |r| ≤ |q| ∧ 0 ≤ r * q ∧ ∀ x, G x → |x| ≤ |q| → |x| ≤ |r|
  | .rd => r ≤ q ∧ ∀ x, G x → x ≤ q → x ≤ r
  | .ru => q ≤ r ∧ ∀ x, G x → q ≤ x → r ≤ x

/-- The bits and flags of a nonzero number `q`, negative or not, delivered in a format: rounded once; beyond the largest finite number, an
infinity or that number, as the mode and .sat say for a result (R67), and that number for a conversion (R69); UF and NX as R66 and R72. -/
def FloatResult (f : Fmt) (rm : RMode) (sat conv neg : Bool) (q : ℚ) (out : Nat × FlagSet) : Prop :=
  ∃ r p, RoundsTo (OfPrecision f true) rm q r ∧ RoundsTo (OfPrecision f false) rm q p ∧
    if |r| ≤ fvQ (fval f (fmtMax f)) then
      out.1 < 2 ^ fmtWidth f ∧ fvFin (fval f out.1) = true ∧ fvQ (fval f out.1) = r ∧ fvSign (fval f out.1) = neg ∧
      out.2 = ⟨false, false, decide (r ≠ q ∧ |p| < 2 ^ (1 - (f.bias : ℤ))), decide (r ≠ q)⟩
    else
      out.2 = flagOver ∧
      out.1 = fmtSigned f neg
        (if conv = false ∧ sat = false ∧ (rm = .rne ∨ (rm = .rd ∧ neg = true) ∨ (rm = .ru ∧ neg = false)) then fmtInf f
         else fmtMax f)

/-- The byte that a loom operation finds at an address of its space, poisoned or not, its own writes on top. -/
def txByte (t : Txn) (x : Nat) : Byte :=
  match (txPlace t x .load).2 with
  | some p => ((overlay t.buf x (placeBytes t.s p 1))[0]?).getD 0#8
  | none => 0#8

/-- The byte at an address once an operation is done, over the bytes it found. -/
def afterTx (found : Nat → Byte) (t : Txn) (x : Nat) : Byte := (find? t.buf x).getD (found x)

/-- A number, a bit of a map, and a run of bytes in a space. -/
def natIn (m : Nat → Byte) (a n : Nat) : Nat := natOf ((rangeFrom a n).map m)
def bitIn (m : Nat → Byte) (base i : Nat) : Bool := (m (base + i / 8)).getLsbD (i % 8)
def bytesIn (m : Nat → Byte) (a n : Nat) : List Byte := (rangeFrom a n).map m

/-- The header at a handle (R293, R294): its ninth word only where KV is set. -/
def hdrIn (m : Nat → Byte) (h : Nat) : Hdr :=
  let w := fun (i : Nat) => natIn m (h + 8 * i) 8
  hdrOf h ((List.range 8).map w ++ [if (w 5).testBit 1 then w 8 else 0])

/-- The pool's descriptor at an address (R298). -/
def poolIn (m : Nat → Byte) (a : Nat) : Pool :=
  let w := fun (i : Nat) => natIn m (a + 8 * i) 8
  ⟨a, w 0, w 1 % 2 ^ 32, w 2, w 3, w 4 % 2 ^ 32, w 4 / 2 ^ 32, w 5, w 6, w 7⟩

/-- The entry through which a sequence finds a page, over at most `fuel` tables, and whether it is its own (R303). -/
def entryIn (m : Nat → Byte) : Nat → Hdr → Nat → Bool → Option (Nat × Bool)
  | 0, _, _, _ => none
  | fuel + 1, hd, i, own =>
    let e := natIn m (hd.pt + 8 * i) 8
    if e.testBit 63 then some (e, own)
    else if hd.parent = 0 ∨ hd.flen ≤ i * 2 ^ (hd.tpg + 4) then none
    else entryIn m fuel (hdrIn m hd.parent) i false

/-- A sequence and its ancestors. -/
def lineIn (m : Nat → Byte) : Nat → Hdr → List Hdr
  | 0, _ => []
  | n + 1, hd => hd :: if hd.parent = 0 then [] else lineIn m n (hdrIn m hd.parent)

/-- A released sequence, and the DRAINING ancestors that its release brings to PRC 0 (R317). -/
def dropsIn (m : Nat → Byte) : Nat → Hdr → List Hdr
  | 0, _ => []
  | n + 1, hd =>
    let q := hdrIn m hd.parent
    hd :: if hd.parent ≠ 0 ∧ q.released = true ∧ q.done = false ∧ q.prc = 1 then dropsIn m n q else []

/-- The entries that a sequence holds, over `n` pages, with whether each is its own. -/
def heldIn (m : Nat → Byte) (hd : Hdr) (n : Nat) : List (Nat × Bool) := (List.range n).filterMap fun i => entryIn m 4 hd i true

/-- The fields PIDX, NODE and W of an entry (R297). -/
def pidx (e : Nat) : Nat := e % 2 ^ 32
def eNode (e : Nat) : Nat := e / 2 ^ 32 % 2 ^ 30
def eW (e : Nat) : Bool := e.testBit 62

/-- The slots of a page, and its bytes (R296). -/
def slotsOf (hd : Hdr) : Nat := 2 ^ (hd.tpg + 4)
def sizeOfPage (hd : Hdr) : Nat := 2 ^ (hd.slg + hd.tpg + 4)

/-- The child in a chain of siblings whose hash and tokens are a page's (R313); 0 for none. -/
def childIn (m : Nat → Byte) (hd : Hdr) (p : Pool) (toks : List Byte) : Nat → Nat → Nat
  | 0, _ => 0
  | fuel + 1, c =>
    if c = 0 then 0
    else if natIn m (p.nbase + 128 * c) 8 = tokenHash toks ∧ bytesIn m (p.tbase + 4 * slotsOf hd * c) (4 * slotsOf hd) = toks then c
    else childIn m hd p toks fuel (natIn m (p.nbase + 128 * c + 24) 4)

/-- The page of tokens `i` of an array. -/
def toksIn (m : Nat → Byte) (hd : Hdr) (arr i : Nat) : List Byte := bytesIn m (arr + 4 * slotsOf hd * i) (4 * slotsOf hd)

/-- The child of a node that matches page `i` of an array. -/
def nextIn (m : Nat → Byte) (hd : Hdr) (p : Pool) (arr node i : Nat) : Nat :=
  childIn m hd p (toksIn m hd arr i) p.nnode (natIn m (p.nbase + 128 * node + 20) 4)

/-- The nodes that match at most `n` pages of an array, from page `i` and a node on (R315). -/
def pathIn (m : Nat → Byte) (hd : Hdr) (p : Pool) (arr : Nat) : Nat → Nat → Nat → List Nat
  | 0, _, _ => []
  | n + 1, i, node =>
    let c := nextIn m hd p arr node i
    if c = 0 then [] else c :: pathIn m hd p arr n (i + 1) c

/-- Ranges, each a first address and a length, of which no two meet; and what a pool and the tables of `n` entries of a line of sequences lie in. -/
def Apart (l : List (Nat × Nat)) : Prop := l.Pairwise fun a b => a.1 + a.2 ≤ b.1 ∨ b.1 + b.2 ≤ a.1
def poolLands (p : Pool) (hd : Hdr) : List (Nat × Nat) :=
  [(p.at_, 64), (p.pbase, p.npage * sizeOfPage hd), (p.pcnt, 4 * p.npage), (p.pfree, 4 * p.npage), (p.nbase, 128 * p.nnode),
    (p.tbase, 4 * slotsOf hd * p.nnode)]
def lineLands (n : Nat) (l : List Hdr) : List (Nat × Nat) := l.flatMap fun q => [(q.at_, 72), (q.pt, 8 * n)]

/-- An operation writes in some ranges only. -/
def WritesIn (t : Txn) (l : List (Nat × Nat)) : Prop := ∀ x, find? t.buf x ≠ none → ∃ r ∈ l, r.1 ≤ x ∧ x < r.1 + r.2

/-- The entries lie within the pool, and the links of its tree within its nodes. -/
def EntriesWithin (p : Pool) (l : List (Nat × Bool)) : Prop := ∀ e ∈ l, pidx e.1 < p.npage ∧ eNode e.1 < p.nnode
def TreeWithin (m : Nat → Byte) (p : Pool) : Prop :=
  ∀ c < p.nnode, natIn m (p.nbase + 128 * c + 20) 4 < p.nnode ∧ natIn m (p.nbase + 128 * c + 24) 4 < p.nnode ∧
    natIn m (p.nbase + 128 * c + 8) 4 < p.npage

/-- The counts of pages, and the references of nodes, as an operation leaves them. -/
def CountsAre (m : Nat → Byte) (p : Pool) (page node : Nat → Nat) : Prop :=
  (∀ q < p.npage, natIn m (p.pcnt + 4 * q) 4 = page q) ∧
  ∀ c, 0 < c → c < p.nnode → natIn m (p.nbase + 128 * c + 12) 4 = node c

/-- An operation comes to a status, and has written nothing (R302). -/
def IsStatus (o : Loomed) (c : Nat) : Prop := o.res = 2 ^ 63 + c * 2 ^ 56 ∧ o.tx.buf = [] ∧ o.cl = none

/-- The other teams have not changed, but that a team may have been woken (R310). -/
def OthersWoken (s s' : State) (u : Nat) : Prop :=
  ∀ n x, n ≠ u → find? s.teams n = some x →
    ∃ y, find? s'.teams n = some y ∧ y = { x with status := y.status, woken := y.woken } ∧ (y.status = x.status ∨ y.status = .ready)

end Machine

end Sys2Proof
end

