-- ==== Sys2Proof/Certificates/Slice0/Obligations.lean ====
section
/-! DEFINITION. The statements for the provers. -/

open Sys2Proof Sys2Proof.Machine

/-- IADD, ISUB and IMNX (R87, R94): element by element of their type, wrapped, or clamped under .sat. -/
def Obligations.AddSubtractMinMaxPerElement : Prop :=
  ∀ s u t, Issuing s u t → ∀ (ty : IntTy) (d a b : VReg), Fits t [vTy ty a, vTy ty b, vTy ty d] →
    (∀ sat, ElemDone (.iadd ty sat d a b) s u t ty sat (· + ·) d a b) ∧
    (∀ sat, ElemDone (.isub ty sat d a b) s u t ty sat (· - ·) d a b) ∧
    (∀ mx, ElemDone (.imnx mx ty d a b) s u t ty false (if mx then max else min) d a b)

/-- IMUL and IMAD (R88): the low or high half of the exact product or all of it, plus the destination for IMAD. -/
def Obligations.MultiplyFormsWriteTheirProduct : Prop :=
  ∀ s u t, Issuing s u t → ∀ (d a b : VReg),
    let x := fun (i : Nat) => vreg t i (ef t a)
    let y := fun (i : Nat) => vreg t i (ef t b)
    let z := fun (i : Nat) => vreg t i (ef t d)
    let hiS := fun (i : Nat) => BitVec.ofInt 32 ((x i).toInt * (y i).toInt / 2 ^ 32)
    let hiU := fun (i : Nat) => BitVec.ofNat 32 ((x i).toNat * (y i).toNat / 2 ^ 32)
    let wideS := fun (i : Nat) => (BitVec.ofInt 64 ((x i).toInt * (y i).toInt)).toNat
    let wideU := fun (i : Nat) => (x i).toNat * (y i).toNat
    (Fits t [v1 a, v1 b, v1 d] →
      LaneDone (.imul .lo d a b) s u t (ef t d) (fun i => x i * y i) ∧
      LaneDone (.imul .hiI32 d a b) s u t (ef t d) hiS ∧
      LaneDone (.imul .hiN32 d a b) s u t (ef t d) hiU ∧
      LaneDone (.imad .lo d a b) s u t (ef t d) (fun i => x i * y i + z i) ∧
      LaneDone (.imad .hiI32 d a b) s u t (ef t d) (fun i => hiS i + z i) ∧
      LaneDone (.imad .hiN32 d a b) s u t (ef t d) (fun i => hiU i + z i)) ∧
    (Fits t [v1 a, v1 b, v2 d] →
      PairDone (.imul .wideI32 d a b) s u t (ef t d) wideS ∧
      PairDone (.imul .wideN32 d a b) s u t (ef t d) wideU ∧
      PairDone (.imad .wideI32 d a b) s u t (ef t d) (fun i => wideS i + vnat64 t i d) ∧
      PairDone (.imad .wideN32 d a b) s u t (ef t d) (fun i => wideU i + vnat64 t i d))

/-- IDIV (R89): quotient and remainder as `divide` gives them are outstanding for the registers the variant names. The quotient
and remainder of R89, for every width. -/
def Obligations.DivideLeavesItsResultsOutstanding : Prop :=
  (∀ s u t, Issuing s u t → ∀ (res : DivRes) (uns : Bool) (d a b : VReg),
     (Fits t [v1 a, v1 b, vDiv false res d] →
       LaterDone (.idiv false res uns d a b) s u t ((rangeFrom (ef t d) (vDiv false res d).n).map .v)
         (fun i =>
           let o := divide 32 uns (vnat t i a) (vnat t i b)
           let q := (ef t d, BitVec.ofNat 32 o.1)
           match res with
           | .q => [q]
           | .r => [(ef t d, BitVec.ofNat 32 o.2)]
           | .qr => [q, (ef t d + 1, BitVec.ofNat 32 o.2)]) (fun _ => []) FlagSet.none) ∧
     (Fits t [v2 a, v2 b, vDiv true res d] →
       LaterDone (.idiv true res uns d a b) s u t ((rangeFrom (ef t d) (vDiv true res d).n).map .v)
         (fun i =>
           let o := divide 64 uns (vnat64 t i a) (vnat64 t i b)
           match res with
           | .q => pairOut (ef t d) o.1
           | .r => pairOut (ef t d) o.2
           | .qr => pairOut (ef t d) o.1 ++ pairOut (ef t d + 2) o.2) (fun _ => []) FlagSet.none)) ∧
  (∀ w, 0 < w → ∀ (a b : BitVec w),
     (∀ q r, divide w false a.toNat b.toNat = (q, r) →
       (b = 0#w → BitVec.ofNat w q = BitVec.ofInt w (if 0 ≤ a.toInt then -1 else 1) ∧ BitVec.ofNat w r = a) ∧
       (b ≠ 0#w → BitVec.ofNat w q = BitVec.ofInt w (a.toInt.tdiv b.toInt) ∧
         BitVec.ofNat w r = BitVec.ofInt w (a.toInt.tmod b.toInt))) ∧
     (∀ q r, divide w true a.toNat b.toNat = (q, r) →
       (b = 0#w → BitVec.ofNat w q = BitVec.allOnes w ∧ BitVec.ofNat w r = a) ∧
       (b ≠ 0#w → q = a.toNat / b.toNat ∧ r = a.toNat % b.toNat)))

/-- LOP, LOPI, SHF and ISHI (R90, R91, R92). -/
def Obligations.LogicAndShiftsPerBit : Prop :=
  ∀ s u t, Issuing s u t → ∀ (d a b : VReg),
    let x := fun (i : Nat) => vreg t i (ef t a)
    let y := fun (i : Nat) => vreg t i (ef t b)
    let shift := fun (k : ShKind) (v : W32) (n : Nat) =>
      match k with
      | .shl => v <<< n
      | .shr => v >>> n
      | .sra => v.sshiftRight n
      | .rot => v.rotateLeft (n % 32)
    (Fits t [v1 a, v1 b, v1 d] →
      (∀ tt : BitVec 4, ∃ val, LaneDone (.lop tt d a b) s u t (ef t d) val ∧
        ∀ i ∈ lanesOf t, ∀ j < 32,
          (val i).getLsbD j = tt.getLsbD (2 * ((x i).getLsbD j).toNat + ((y i).getLsbD j).toNat)) ∧
      (∀ k clamp, LaneDone (.shf k clamp d a b) s u t (ef t d)
        (fun i => shift k (x i) (if clamp then (y i).toNat else (y i).toNat % 32)))) ∧
    (Fits t [v1 a, v1 d] →
      (∀ k (n : BitVec 5), LaneDone (.ishi k d a n) s u t (ef t d) (fun i => shift k (x i) n.toNat)) ∧
      (∀ (imm : BitVec 9) h,
        let c := BitVec.ofNat 32 (immBits 9 imm.toNat h).1
        LaneDone (.lopi .and d a imm h) s u t (ef t d) (fun i => x i &&& c) ∧
        LaneDone (.lopi .or d a imm h) s u t (ef t d) (fun i => x i ||| c) ∧
        LaneDone (.lopi .xor d a imm h) s u t (ef t d) (fun i => x i ^^^ c) ∧
        LaneDone (.lopi .andn d a imm h) s u t (ef t d) (fun i => x i &&& ~~~c)))

/-- BITS (R93). -/
def Obligations.BitOperationsResults : Prop :=
  ∀ s u t, Issuing s u t → ∀ (d a b : VReg),
    let x := fun (i : Nat) => vreg t i (ef t a)
    let y := fun (i : Nat) => vreg t i (ef t b)
    let z := fun (i : Nat) => vreg t i (ef t d)
    let pos := fun (i : Nat) => min ((y i).extractLsb' 0 8).toNat 32
    let len := fun (i : Nat) => min ((y i).extractLsb' 8 8).toNat 32
    (Fits t [v1 a, v1 d] →
      LaneDone (.bits .popc d a b) s u t (ef t d) (fun i => BitVec.ofNat 32 ((List.range 32).countP (x i).getLsbD)) ∧
      (∃ val, LaneDone (.bits .clz d a b) s u t (ef t d) val ∧
        ∀ i ∈ lanesOf t, (val i).toNat ≤ 32 ∧ (∀ j < (val i).toNat, (x i).getMsbD j = false) ∧
          ((val i).toNat < 32 → (x i).getMsbD (val i).toNat = true)) ∧
      (∃ val, LaneDone (.bits .ctz d a b) s u t (ef t d) val ∧
        ∀ i ∈ lanesOf t, (val i).toNat ≤ 32 ∧ (∀ j < (val i).toNat, (x i).getLsbD j = false) ∧
          ((val i).toNat < 32 → (x i).getLsbD (val i).toNat = true)) ∧
      (∃ val, LaneDone (.bits .brev d a b) s u t (ef t d) val ∧
        ∀ i ∈ lanesOf t, ∀ j < 32, (val i).getLsbD j = (x i).getLsbD (31 - j))) ∧
    (Fits t [v1 a, v1 b, v1 d] →
      LaneDone (.bits .bfeN32 d a b) s u t (ef t d) (fun i => ((x i).extractLsb' (pos i) (len i)).setWidth 32) ∧
      LaneDone (.bits .bfeI32 d a b) s u t (ef t d)
        (fun i => (((x i).signExtend 64).extractLsb' (pos i) (len i)).signExtend 32) ∧
      (∃ val, LaneDone (.bits .bfi d a b) s u t (ef t d) val ∧
        ∀ i ∈ lanesOf t, ∀ j < 32, (val i).getLsbD j =
          if pos i ≤ j ∧ j < pos i + len i then (x i).getLsbD (j - pos i) else (z i).getLsbD j) ∧
      (∃ val, LaneDone (.bits .perm d a b) s u t (ef t d) val ∧
        ∀ i ∈ lanesOf t, ∀ j < 4,
          let byte := (y i ++ x i).extractLsb' (8 * ((z i).extractLsb' (4 * j) 3).toNat) 8
          (val i).extractLsb' (8 * j) 8 =
            if (z i).getLsbD (4 * j + 3) then (if byte.getLsbD 7 then 0xFF#8 else 0x00#8) else byte))

/-- ICMP, ICMPI and SEL (R95, R96): SEL's predicate stands in fn 2:0 of its word and neg in fn 3. -/
def Obligations.CompareAndSelect : Prop :=
  ∀ s u t, Issuing s u t → ∀ (d a b : VReg) (p : PReg),
    let x := fun (i : Nat) => vreg t i (ef t a)
    let y := fun (i : Nat) => vreg t i (ef t b)
    let rd := fun (uns : Bool) (v : W32) => if uns then (v.toNat : Int) else v.toInt
    (Fits t [v1 a, v1 b] → ∀ c uns,
      PredDone (.icmp c uns p a b) s u t p (fun i => condHolds c (rd uns (x i)) (rd uns (y i)))) ∧
    (Fits t [v1 a] → ∀ c uns (imm : BitVec 11) h,
      PredDone (.icmpi c uns p a imm h) s u t p
        (fun i => condHolds c (rd uns (x i)) (rd uns (BitVec.ofInt 32 (immSigned 11 imm.toNat h))))) ∧
    (Fits t [v1 a, v1 b, v1 d] → ∀ neg,
      decode [0x0B#7 ++ d ++ a ++ b ++ BitVec.ofBool neg ++ p] = some (.ok (.sel p neg d a b), 1) ∧
      LaneDone (.sel p neg d a b) s u t (ef t d) (fun i => if xor (preg t i p.toNat) neg then x i else y i))

/-- IADDI, IADDK, ILEA and MOVK (R87, R97). -/
def Obligations.ImmediateAndUniformOperands : Prop :=
  ∀ s u t, Issuing s u t → ∀ (d a : VReg) (k : KReg), k.toNat ≤ 383 →
    let x := fun (i : Nat) => vreg t i (ef t a)
    let w := kreg t k.toNat
    let lo : W32 := w.extractLsb' 0 32
    let satAt := fun (c : Instr) (signed : Bool) =>
      let sum := fun (i : Nat) => if signed then (x i).toInt + lo.toInt else ((x i).toNat : Int) + lo.toNat
      VecDone c s u t (fun i => [(ef t d, BitVec.ofInt 32 (clamp signed 32 (sum i)))]) (fun _ => [])
        (flagAll ((lanesOf t).map fun i => flagOv (decide (clamp signed 32 (sum i) ≠ sum i))))
    (Fits t [v1 a, v1 d] →
      (∀ (imm : BitVec 11) h,
        LaneDone (.iaddi d a imm h) s u t (ef t d) (fun i => x i + BitVec.ofInt 32 (immSigned 11 imm.toNat h))) ∧
      LaneDone (.iaddk .i32 d a k) s u t (ef t d) (fun i => x i + lo) ∧
      satAt (.iaddk .i32sat d a k) true ∧
      satAt (.iaddk .n32sat d a k) false) ∧
    (Fits t [v2 a, v2 d] → PairDone (.iaddk .i64 d a k) s u t (ef t d) (fun i => vnat64 t i a + w.toNat)) ∧
    (Fits t [v1 a, v2 d] → ∀ (sc : BitVec 2),
      PairDone (.ilea sc d a k) s u t (ef t d) (fun i => w.toNat + (x i).toNat * 2 ^ sc.toNat)) ∧
    (Fits t [v1 d] →
      LaneDone (.movk .lo d k) s u t (ef t d) (fun _ => lo) ∧
      LaneDone (.movk .hi d k) s u t (ef t d) (fun _ => w.extractLsb' 32 32)) ∧
    (Fits t [v2 d] → PairDone (.movk .b64 d k) s u t (ef t d) (fun _ => w.toNat))

/-- The uniform instructions and MOVS (R98-R101), and the special values that R101 and R102 give a team of a launch in normal mode. -/
def Obligations.UniformInstructionsResults : Prop :=
  (∀ s u t, Issuing s u t → ∀ (d a : KReg) (b : BitVec 7), d.toNat ≤ 383 → a.toNat ≤ 383 →
    let x := kreg t a.toNat
    let y := kreg t b.toNat
    let z := kreg t d.toNat
    UniDone (.kadd d a b) s u t d.toNat (x + y) ∧
    UniDone (.ksub d a b) s u t d.toNat (x - y) ∧
    UniDone (.kmul d a b) s u t d.toNat (x * y) ∧
    UniDone (.kand d a b) s u t d.toNat (x &&& y) ∧
    UniDone (.kor d a b) s u t d.toNat (x ||| y) ∧
    UniDone (.kxor d a b) s u t d.toNat (x ^^^ y) ∧
    UniDone (.kshl d a b) s u t d.toNat (x <<< (y.toNat % 64)) ∧
    UniDone (.kshr d a b) s u t d.toNat (x >>> (y.toNat % 64)) ∧
    UniDone (.ksra d a b) s u t d.toNat (x.sshiftRight (y.toNat % 64)) ∧
    UniDone (.kmin d a b) s u t d.toNat (BitVec.ofInt 64 (min x.toInt y.toInt)) ∧
    UniDone (.kmax d a b) s u t d.toNat (BitVec.ofInt 64 (max x.toInt y.toInt)) ∧
    UniLater (.kdiv d a b) s u t d.toNat (BitVec.ofNat 64 (divide 64 false x.toNat y.toNat).1) ∧
    (∀ (imm : BitVec 16) h, UniDone (.kli d imm h) s u t d.toNat (BitVec.ofInt 64 (immSigned 16 imm.toNat h))) ∧
    (∀ (imm : BitVec 16) h, UniDone (.kaddi d imm h) s u t d.toNat (z + BitVec.ofInt 64 (immSigned 16 imm.toNat h))) ∧
    (∀ (imm : BitVec 16), UniDone (.klui d imm) s u t d.toNat (imm ++ z.extractLsb' 0 48)) ∧
    (∀ sv, sv ≠ .lane → sv ≠ .row → UniDone (.movs false d sv) s u t d.toNat (BitVec.ofNat 64 (svValue s t sv 0))) ∧
    (∀ sv (v : VReg), d.toNat = v.toNat →
      (svWide sv = false → Fits t [v1 v] →
        LaneDone (.movs true d sv) s u t (ef t v) (fun i => BitVec.ofNat 32 (svValue s t sv i))) ∧
      (svWide sv = true → Fits t [v2 v] → PairDone (.movs true d sv) s u t (ef t v) (fun i => svValue s t sv i)))) ∧
  (∀ (s : State) (t : Team) (i : Nat), t.bounds = false →
    svValue s t .lane i = i ∧ svValue s t .row i = i / 32 ∧ svValue s t .team i = t.id ∧ svValue s t .core i = t.core ∧
    svValue s t .part i = t.part ∧ svValue s t .pair i = t.core / 2 ∧ svValue s t .cluster i = t.core / 16 ∧
    svValue s t .die i = t.core / 80 ∧ svValue s t .dev i = s.mgmt.devnum ∧ svValue s t .time i = s.mgmt.time ∧
    (∀ k, kernelOf s t.kid = some k → svValue s t .launch i = k.slot + k.qnum * 2 ^ 32) ∧
    svValue s t .flags i = flagsWord (getCore s t.core) t.part)

/-- FADD, FSUB, FMUL, FFMA, FMNX, FCMP, FSF, CVT, PACK, DP4 and FCLS (R105-R118), in the terms whose values FloatValues states. -/
def Obligations.FloatInstructionsResults : Prop :=
  ∀ s u t, Issuing s u t → ∀ (d a b : VReg) (p : PReg),
    let x := fun (i : Nat) => vnat t i a
    let y := fun (i : Nat) => vnat t i b
    let z := fun (i : Nat) => vnat t i d
    let one := fun (c : Instr) (f : Nat → Nat × FlagSet) =>
      VecDone c s u t (fun i => [(ef t d, BitVec.ofNat 32 (f i).1)]) (fun _ => [])
        (flagAll ((lanesOf t).map fun i => (f i).2))
    (Fits t [v1 a, v1 b, v1 d] → ∀ ty,
      let v := fun (r : Nat) (e : Nat) => fval (ftyFmt ty) (elemAt ty e r)
      let each := fun (rm : RMode) (sat : Bool) (f : FVal → FVal → FVal → FVal) (i : Nat) =>
        eachElem ty fun e => deliver (ftyFmt ty) rm sat (f (v (x i) e) (v (y i) e) (v (z i) e))
      (∀ rm sat,
        one (.fadd ty rm sat d a b) (each rm sat fun f g _ => fvAdd rm f g) ∧
        one (.fsub ty rm sat d a b) (each rm sat fun f g _ => fvAdd rm f (fvNeg g)) ∧
        one (.fmul ty rm sat d a b) (each rm sat fun f g _ => fvMul f g) ∧
        one (.ffma ty rm sat d a b) (each rm sat fun f g h => fvFma rm f g h)) ∧
      (∀ mx nan, one (.fmnx mx nan ty d a b) fun i =>
        eachElem ty fun e => fmnxVal mx nan (ftyFmt ty) (elemAt ty e (x i)) (elemAt ty e (y i))) ∧
      (∀ form, one (.pack form d a b) fun i => packVal form (x i) (y i)) ∧
      (∀ form, one (.dp4 form d a b) fun i => dp4Val form (z i) (x i) (y i))) ∧
    (Fits t [v1 a, v1 b] → ∀ c,
      let f := fun (i : Nat) => fval fmtF32 (x i)
      let g := fun (i : Nat) => fval fmtF32 (y i)
      VecDone (.fcmp c p a b) s u t (fun _ => []) (fun i => [(p.toNat, fcondHolds c (fOrder (f i) (g i)))])
        (flagAll ((lanesOf t).map fun i =>
          flagNv (isSnan (f i) || isSnan (g i) || (fcondSignals c && (isNan (f i) || isNan (g i))))))) ∧
    (Fits t [v1 a, v1 d] →
      (∀ fn, LaterDone (.fsf fn d a) s u t [.v (ef t d)]
        (fun i => [(ef t d, BitVec.ofNat 32 (fsfVal fn (vreg t i (ef t a))).1)]) (fun _ => [])
        (flagAll ((lanesOf t).map fun i => (fsfVal fn (vreg t i (ef t a))).2))) ∧
      LaneDone (.fcls .f32 d a) s u t (ef t d) (fun i => BitVec.twoPow 32 (fclsBit fmtF32 (x i))) ∧
      LaneDone (.fcls .f16 d a) s u t (ef t d) (fun i => BitVec.twoPow 32 (fclsBit fmtF16 (x i % 2 ^ 16))) ∧
      LaneDone (.fcls .bf16 d a) s u t (ef t d) (fun i => BitVec.twoPow 32 (fclsBit fmtBf16 (x i % 2 ^ 16)))) ∧
    (∀ (code : BitVec 7) c, cvtOf code.toNat = some c →
      Fits t [if cvtWideSrc c then v2 a else v1 a, if cvtWideDst c then v2 d else v1 d] → ∀ rm sat,
      let o := fun (i : Nat) => cvtVal c rm sat (if cvtWideSrc c then vnat64 t i a else x i)
      VecDone (.cvt code rm sat d a) s u t
        (fun i => if cvtWideDst c then pairOut (ef t d) (o i).1 else [(ef t d, BitVec.ofNat 32 (o i).1)]) (fun _ => [])
        (flagAll ((lanesOf t).map fun i => (o i).2)))

/-- The numbers behind the float instructions, the matrix unit and the copy engine (R56-R72, R77-R79, R111-R118): what the bits of each format are
worth; sums and products, exact, with the signs of their zeros; one rounding, by the mode, with its overflow and its flags; conversions to
floats and to integers; the tables of minima, comparisons, classes and special operands; the groups of the matrix unit. FSF's rcp, rsqrt and
sqrt are correctly rounded; of its other functions the special operands and the exact results are stated, and how near the rest lie is not
(log 18, DESIGN CHOICE; log 20, UNVERIFIED). That a NaN anywhere in FFMA or in a sum gives NaN with NV if any operand signals or any part is
invalid is log 62 (DESIGN CHOICE). -/
def Obligations.FloatValues : Prop :=
  let ieee := [fmtF32, fmtF16, fmtBf16]
  let fmts := ieee ++ [fmtE5m2, fmtE4m3, fmtE3m2, fmtE2m3]
  let nx : FlagSet := ⟨false, false, false, true⟩
  let snans := fun (l : List FVal) => l.any isSnan
  (∀ f ∈ fmts, ∀ n < 2 ^ fmtWidth f,
    let neg := n.testBit (f.eb + f.fb)
    let E : ℕ := n / 2 ^ f.fb % 2 ^ f.eb
    let fr : ℕ := n % 2 ^ f.fb
    if f.kind = .ieee ∧ E = 2 ^ f.eb - 1 then
      fval f n = if fr = 0 then .inf neg else .nan (decide (f ∈ ieee ∧ fr < 2 ^ (f.fb - 1)))
    else if f.kind = .e4m3 ∧ E = 15 ∧ fr = 7 then fval f n = .nan false
    else
      fvFin (fval f n) = true ∧ fvSign (fval f n) = neg ∧
      fvQ (fval f n) = (if neg then -1 else 1) *
        (if E = 0 then 2 ^ (1 - (f.bias : ℤ)) * (fr / 2 ^ f.fb : ℚ) else 2 ^ ((E : ℤ) - f.bias) * (1 + fr / 2 ^ f.fb : ℚ))) ∧
  (fmts.map fmtMax = [0x7F7FFFFF, 0x7BFF, 0x7F7F, 0x7B, 0x7E, 0x1F, 0x1F] ∧
    (fmts.take 5).map fmtNan = [0x7FC00000, 0x7E00, 0x7FC0, 0x7E, 0x7F] ∧
    (fmts.take 4).map fmtInf = [0x7F800000, 0x7C00, 0x7F80, 0x7C]) ∧
  (∀ rm n1 m1 e1 n2 m2 e2 n3 m3 e3,
    let a := FVal.fin n1 m1 e1
    let b := FVal.fin n2 m2 e2
    let c := FVal.fin n3 m3 e3
    let is := fun (v : FVal) (q : ℚ) => fvFin v = true ∧ fvQ v = q
    is (fvAdd rm a b) (fvQ a + fvQ b) ∧ is (fvNeg a) (-fvQ a) ∧ fvSign (fvNeg a) = (!n1) ∧
    (fvQ a + fvQ b = 0 → fvSign (fvAdd rm a b) = if n1 = n2 then n1 else rm == .rd) ∧
    is (fvMul a b) (fvQ a * fvQ b) ∧ fvSign (fvMul a b) = (n1 != n2) ∧
    is (fvFma rm a b c) (fvQ a * fvQ b + fvQ c) ∧
    (fvQ a * fvQ b + fvQ c = 0 → fvSign (fvFma rm a b c) = if (n1 != n2) = n3 then n3 else rm == .rd) ∧
    (∀ n, fvAdd rm (.inf n) a = .inf n ∧ fvAdd rm a (.inf n) = .inf n ∧
      fvMul (.inf n) a = (if fvQ a = 0 then .nan true else .inf (n != n1)) ∧
      fvMul a (.inf n) = (if fvQ a = 0 then .nan true else .inf (n != n1)) ∧ fvNeg (.inf n) = .inf (!n) ∧
      (∀ n', fvAdd rm (.inf n) (.inf n') = (if n = n' then .inf n else .nan true) ∧ fvMul (.inf n) (.inf n') = .inf (n != n'))) ∧
    (∀ s v, fvAdd rm (.nan s) v = .nan (s || isSnan v) ∧ fvAdd rm v (.nan s) = .nan (isSnan v || s) ∧
      fvMul (.nan s) v = .nan (s || isSnan v) ∧ fvMul v (.nan s) = .nan (isSnan v || s) ∧ fvNeg (.nan s) = .nan s) ∧
    (∀ x y z, fvFma rm x y z = if isNan (fvMul x y) = true then .nan (isSnan (fvMul x y) || isSnan z) else fvAdd rm (fvMul x y) z)) ∧
  (∀ f ∈ fmts, ∀ rm, (∀ sat n m e, m ≠ 0 → let v := FVal.fin n m e;
      (f ∈ ieee → FloatResult f rm sat false n (fvQ v) (deliver f rm sat v)) ∧
      FloatResult f rm false true n (fvQ v) (convF f rm v)) ∧
    (∀ sat n e s, let zer := fmtSigned f n 0;
      convF f rm (.fin n 0 e) = (zer, FlagSet.none) ∧
      convF f rm (.inf n) = (if f.kind = .ieee then (fmtSigned f n (fmtInf f), FlagSet.none) else (fmtSigned f n (fmtMax f), flagOver)) ∧
      convF f rm (.nan s) = (if f.kind = .bare then (0, flagNv true) else (fmtNan f, flagNv s)) ∧
      (f ∈ ieee → deliver f rm sat (.fin n 0 e) = (zer, FlagSet.none) ∧
        deliver f rm sat (.inf n) =
          (if sat then (fmtSigned f n (fmtMax f), flagOver) else (fmtSigned f n (fmtInf f), FlagSet.none)) ∧
        deliver f rm sat (.nan s) = (fmtNan f, flagNv s)))) ∧
  (let whole := fun (i : Nat) => FVal.fin false i 0;
    convF fmtF16 .rne (whole 65519) = (0x7BFF, nx) ∧ convF fmtF16 .rz (whole 65519) = (0x7BFF, nx) ∧
    convF fmtF16 .ru (whole 65519) = (0x7BFF, flagOver) ∧ convF fmtE4m3 .rne (whole 460) = (0x7E, nx) ∧
    convF fmtE4m3 .rne (whole 470) = (0x7E, flagOver)) ∧
  (∀ rm lo hi, lo ≤ 0 → 0 ≤ hi →
    (∀ n m e, let v := FVal.fin n m e
      ∃ k : ℤ, RoundsTo (fun x => ∃ j : ℤ, x = j) rm (fvQ v) k ∧
        convI rm lo hi v = if k < lo then (lo, flagOver) else if hi < k then (hi, flagOver)
          else (k, ⟨false, false, false, decide ((k : ℚ) ≠ fvQ v)⟩)) ∧
    (∀ n s, convI rm lo hi (.inf n) = (if n then lo else hi, flagOver) ∧ convI rm lo hi (.nan s) = (0, flagNv true))) ∧
  (∀ f ∈ ieee, ∀ mx nan a b, a < 2 ^ fmtWidth f → b < 2 ^ fmtWidth f →
    let x := fval f a
    let y := fval f b
    let o := fmnxVal mx nan f a b
    if isNan x = true ∨ isNan y = true then
      o = (if nan = true ∨ (isNan x = true ∧ isNan y = true) then fmtNan f else if isNan x = true then b else a, flagNv (snans [x, y]))
    else
      o.2 = FlagSet.none ∧ (o.1 = a ∨ o.1 = b) ∧
      (∀ n, (x = .inf n → o.1 = if mx = n then b else a) ∧ (y = .inf n → o.1 = if mx = n then a else b)) ∧
      (fvFin x = true → fvFin y = true →
        fvQ (fval f o.1) = (if mx then max (fvQ x) (fvQ y) else min (fvQ x) (fvQ y)) ∧
        (fvQ x = 0 → fvQ y = 0 → fvSign (fval f o.1) = if mx then fvSign x && fvSign y else fvSign x || fvSign y))) ∧
  ([FCond.eq, .ne, .lt, .le, .gt, .ge, .ord, .uno, .ult, .ule, .ugt, .uge, .one, .ueq].map
      (fun c => ([none, some .lt, some .eq, some .gt].map (fcondHolds c), fcondSignals c)) =
    [([false, false, true, false], false), ([true, true, false, true], false), ([false, true, false, false], true),
     ([false, true, true, false], true), ([false, false, false, true], true), ([false, false, true, true], true),
     ([false, true, true, true], false), ([true, false, false, false], false), ([true, true, false, false], false),
     ([true, true, true, false], false), ([true, false, false, true], false), ([true, false, true, true], false),
     ([false, true, false, true], false), ([true, false, true, false], false)] ∧
    ∀ x y, (isNan x = true ∨ isNan y = true → fOrder x y = none) ∧
      (fvFin x = true → fvFin y = true → fOrder x y = some (compare (fvQ x) (fvQ y))) ∧
      ∀ n, (fvFin x = true → fOrder x (.inf n) = some (if n then .gt else .lt) ∧ fOrder (.inf n) x = some (if n then .lt else .gt)) ∧
        ∀ n', fOrder (.inf n) (.inf n') = some (if n = n' then .eq else if n then .lt else .gt)) ∧
  (∀ f ∈ ieee, ∀ a < 2 ^ fmtWidth f, let v := fval f a
    let at_ := fun (x y : Nat) => fclsBit f a = if fvSign v then x else y
    (∀ s, v = .nan s → fclsBit f a = if s then 8 else 9) ∧ (∀ n, v = .inf n → at_ 0 7) ∧
    (fvFin v = true → if fvQ v = 0 then at_ 3 4 else if |fvQ v| < 2 ^ (1 - (f.bias : ℤ)) then at_ 2 5 else at_ 1 6)) ∧
  ((List.range 16).map cvtOf =
      ([Cvt.fromF32 fmtF16, .fromF32 fmtBf16, .fromF32 fmtE4m3, .fromF32 fmtE5m2, .toF32 fmtF16 0, .toF32 fmtF16 16, .toF32 fmtBf16 0,
        .toF32 fmtBf16 16].map some ++ ([0, 8, 16, 24].map fun j => some (.toF32 fmtE4m3 j)) ++
        [0, 8, 16, 24].map fun j => some (.toF32 fmtE5m2 j)) ∧
    [0x10, 0x11].map cvtOf = [some (.both fmtF16 fmtBf16), some (.both fmtBf16 fmtF16)] ∧
    (List.range 8).map (fun j => cvtOf (0x20 + j)) =
      ([32, 64, 16, 8].flatMap fun w => [some (.toInt (-2 ^ (w - 1)) (2 ^ (w - 1) - 1) ⟨true, w⟩), some (.toInt 0 (2 ^ w - 1) ⟨false, w⟩)]) ∧
    cvtOf 0x28 = some (.toInt (-7) 7 ⟨true, 4⟩) ∧
    [0x30, 0x31, 0x32, 0x33, 0x34, 0x35].map cvtOf =
      ([⟨true, 32⟩, ⟨false, 32⟩, ⟨true, 64⟩, ⟨false, 64⟩].map (fun i => some (.ofInt i fmtF32)) ++
        [some (.ofInt ⟨true, 32⟩ fmtF16), some (.ofInt ⟨true, 32⟩ fmtBf16)]) ∧
    (List.range 6).map (fun j => cvtOf (0x40 + j)) =
      ([(64, 32), (32, 16), (32, 8)].flatMap fun w => [true, false].map fun s => some (.narrow ⟨s, w.1⟩ ⟨s, w.2⟩)) ∧
    [0x46, 0x47, 0x48, 0x49, 0x4A, 0x4B].map cvtOf =
      [some (.widen ⟨true, 32⟩ ⟨true, 64⟩), some (.widen ⟨false, 32⟩ ⟨false, 64⟩), some (.widen ⟨true, 16⟩ ⟨true, 32⟩),
       some (.widen ⟨true, 8⟩ ⟨true, 32⟩), some (.narrow ⟨true, 32⟩ ⟨false, 32⟩), some (.narrow ⟨false, 32⟩ ⟨true, 32⟩)]) ∧
  (∀ rm sat a, a < 2 ^ 64 →
    let int := fun (i : CvtInt) => if i.signed then (BitVec.ofNat i.w a).toInt else ((BitVec.ofNat i.w a).toNat : ℤ)
    (∀ f ∈ fmts, a < 2 ^ 32 → cvtVal (.fromF32 f) rm sat a = convF f rm (fval fmtF32 a)) ∧
    (∀ f ∈ [fmtF16, fmtBf16, fmtE4m3, fmtE5m2], ∀ lo ∈ [0, 8, 16, 24], lo + fmtWidth f ≤ 32 →
      let v := fval f (a / 2 ^ lo % 2 ^ fmtWidth f)
      let o := cvtVal (.toF32 f lo) rm sat a
      (∀ s, v = .nan s → o = (0x7FC00000, flagNv s)) ∧ (∀ n, v = .inf n → o = (fmtSigned fmtF32 n 0x7F800000, FlagSet.none)) ∧
      (fvFin v = true → fvFin (fval fmtF32 o.1) = true ∧ fvQ (fval fmtF32 o.1) = fvQ v ∧ fvSign (fval fmtF32 o.1) = fvSign v ∧
        o.2 = FlagSet.none)) ∧
    (∀ f ∈ [fmtF16, fmtBf16], ∀ g ∈ [fmtF16, fmtBf16], ∀ fl fh, let x := convF g rm (fval f (a % 2 ^ 16))
      let y := convF g rm (fval f (a / 2 ^ 16 % 2 ^ 16))
      fl = x.2 → fh = y.2 → cvtVal (.both f g) rm sat a = (x.1 + y.1 * 2 ^ 16, flagOr fl fh)) ∧
    (∀ lo hi i, let r := convI rm lo hi (fval fmtF32 a);
      cvtVal (.toInt lo hi i) rm sat a = ((BitVec.ofInt (max 32 i.w) r.1).toNat, r.2)) ∧
    (∀ i f, f ∈ ieee → 0 < i.w →
      if int i = 0 then cvtVal (.ofInt i f) rm sat a = (0, FlagSet.none)
      else FloatResult f rm false true (decide (int i < 0)) (int i) (cvtVal (.ofInt i f) rm sat a)) ∧
    (∀ src dst : CvtInt, 0 < src.w → 0 < dst.w → dst.w ≤ 32 → let v := int src
      let v' := if sat then clamp dst.signed dst.w v
        else if dst.signed then (BitVec.ofInt dst.w v).toInt else ((BitVec.ofInt dst.w v).toNat : ℤ)
      cvtVal (.narrow src dst) rm sat a = ((BitVec.ofInt 32 v').toNat, flagOv (sat && decide (v' ≠ v)))) ∧
    (∀ src dst : CvtInt, 0 < src.w → cvtVal (.widen src dst) rm sat a = ((BitVec.ofInt dst.w (int src)).toNat, FlagSet.none))) ∧
  (∀ a b : W32,
    let two := fun (x y : Nat × FlagSet) => (x.1 + y.1 * 2 ^ 16, flagOr x.2 y.2)
    let clamped := fun (sg : Bool) (x : W32) => let v := clamp sg 16 x.toInt
      ((BitVec.ofInt 16 v).toNat, flagOv (decide (v ≠ x.toInt)))
    packVal .f16x2 a.toNat b.toNat = two (convF fmtF16 .rne (fval fmtF32 a.toNat)) (convF fmtF16 .rne (fval fmtF32 b.toNat)) ∧
    packVal .bf16x2 a.toNat b.toNat = two (convF fmtBf16 .rne (fval fmtF32 a.toNat)) (convF fmtBf16 .rne (fval fmtF32 b.toNat)) ∧
    packVal .i16x2sat a.toNat b.toNat = two (clamped true a) (clamped true b) ∧
    packVal .n16x2sat a.toNat b.toNat = two (clamped false a) (clamped false b) ∧
    packVal .lo16 a.toNat b.toNat = ((b.extractLsb' 0 16 ++ a.extractLsb' 0 16).toNat, FlagSet.none) ∧
    packVal .hi16 a.toNat b.toNat = ((b.extractLsb' 16 16 ++ a.extractLsb' 16 16).toNat, FlagSet.none)) ∧
  (∀ d a b : W32, let byte := fun (x : W32) (j : Nat) => x.extractLsb' (8 * j) 8;
    (∀ sa sb sat, let el := fun (sg : Bool) (x : W32) (j : Nat) => if sg then (byte x j).toInt else ((byte x j).toNat : ℤ)
      let v := (if sa || sb then d.toInt else (d.toNat : ℤ)) + ((List.range 4).map fun j => el sa a j * el sb b j).sum
      let v' := if sat then clamp (sa || sb) 32 v else v
      dp4Val (.int sa sb sat) d.toNat a.toNat b.toNat = ((BitVec.ofInt 32 v').toNat, flagOv (sat && decide (v' ≠ v)))) ∧
    (∀ ea eb : Bool, let f := fun (e : Bool) => if e then fmtE5m2 else fmtE4m3
      let terms := fval fmtF32 d.toNat ::
        (List.range 4).map fun j => fvMul (fval (f ea) (byte a j).toNat) (fval (f eb) (byte b j).toNat)
      let o := dp4Val (.fp8 ea eb) d.toNat a.toNat b.toNat
      let q := (terms.map fvQ).sum
      (terms.any isNan = true → o = (0x7FC00000, flagNv (snans terms))) ∧
      (terms.any isNan = false → (.inf true ∈ terms → .inf false ∈ terms → o = (0x7FC00000, flagNv true)) ∧
        (∀ n, .inf n ∈ terms → .inf (!n) ∉ terms → o = (fmtSigned fmtF32 n 0x7F800000, FlagSet.none))) ∧
      (terms.all fvFin = true → if q = 0 then o.1 % 2 ^ 31 = 0 ∧ o.2 = FlagSet.none
        else FloatResult fmtF32 .rne false false (decide (q < 0)) q o))) ∧
  (dp4Val (.int true true false) 10 0x80FF0102 0x01020304 = (0xFFFFFF93, FlagSet.none) ∧
    dp4Val (.int false false false) 10 0x80FF0102 0x01020304 = (659, FlagSet.none)) ∧
  (∀ fn (bits : W32), let x := fval fmtF32 bits.toNat
    let q := fvQ x
    let o := fsfVal fn bits
    let gives := fun (n : Bool) (mag : Nat) => o = (fmtSigned fmtF32 n mag, FlagSet.none)
    let invalid := o = (0x7FC00000, flagNv true)
    let big := 0x7F800000
    let one := 0x3F800000
    let grid := OfPrecision fmtF32 true
    let root := fun (out : Nat) (below above : ℚ → Prop) => fvFin (fval fmtF32 out) = true ∧ 0 < fvQ (fval fmtF32 out) ∧
      ∀ y, grid y → 0 ≤ y → let mid := (fvQ (fval fmtF32 out) + y) / 2;
        (fvQ (fval fmtF32 out) < y → above mid) ∧ (y < fvQ (fval fmtF32 out) → below mid)
    (∀ s, x = .nan s → o = (0x7FC00000, flagNv s)) ∧
    (∀ n, x = .inf n →
      match fn with
      | .rcp => gives n 0
      | .rsqrt => if n then invalid else gives false 0
      | .sqrt | .log2 => if n then invalid else gives false big
      | .exp2 => gives false (if n then 0 else big)
      | .sinpi | .cospi => invalid
      | .tanh => gives n one
      | .sigm => gives false (if n then 0 else one)) ∧
    (fvFin x = true →
      match fn with
      | .rcp => if q = 0 then gives (fvSign x) big else FloatResult fmtF32 .rne false false (fvSign x) (1 / q) o
      | .rsqrt => if q = 0 then gives (fvSign x) big else if q < 0 then invalid
        else root o.1 (fun y => q * y ^ 2 ≤ 1) (fun y => 1 ≤ q * y ^ 2) ∧
          o.2 = ⟨false, false, false, decide (q * fvQ (fval fmtF32 o.1) ^ 2 ≠ 1)⟩
      | .sqrt => if q = 0 then gives (fvSign x) 0 else if q < 0 then invalid
        else root o.1 (fun y => y ^ 2 ≤ q) (fun y => q ≤ y ^ 2) ∧
          o.2 = ⟨false, false, false, decide (fvQ (fval fmtF32 o.1) ^ 2 ≠ q)⟩
      | .exp2 => (128 ≤ q → o = (big, flagOver)) ∧
        ∀ k : ℤ, q = k → -149 ≤ k → k ≤ 127 → fvQ (fval fmtF32 o.1) = 2 ^ k ∧ o.2 = FlagSet.none
      | .log2 => if q = 0 then gives true big else if q < 0 then invalid
        else ∀ k : ℤ, q = 2 ^ k → fvFin (fval fmtF32 o.1) = true ∧ fvQ (fval fmtF32 o.1) = k ∧
          fvSign (fval fmtF32 o.1) = decide (k < 0) ∧ o.2 = FlagSet.none
      | .sinpi => (q = 0 → gives (fvSign x) 0) ∧ ∀ k : ℤ, q = k → k ≠ 0 → gives (decide (k < 0)) 0
      | .cospi => ∀ k : ℤ, q = k + 1 / 2 → gives false 0
      | .tanh => q = 0 → gives (fvSign x) 0
      | .sigm => True)) ∧
  ((∀ a b c, matProd a b = (if fvZero a = true ∨ fvZero b = true then .fin false 0 0 else fvMul a b) ∧
      matProd3 a b c = (if fvZero a = true ∨ fvZero b = true ∨ fvZero c = true then .fin false 0 0 else fvMul (fvMul a b) c)) ∧
    (∀ v, fvZero v = true ↔ fvFin v = true ∧ fvQ v = 0) ∧
    (∀ (acc : W32) (ps : List FVal), let a := fval fmtF32 acc.toNat
      let o := accAdd acc.toNat ps
      let q := fvQ a + (ps.map fvQ).sum
      (ps.any isNan = true ∨ isNan a = true ∨ (.inf true ∈ ps ∧ .inf false ∈ ps) ∨ (∃ n, a = .inf n ∧ .inf (!n) ∈ ps) →
        o.1 = 0x7FC00000 ∧ (o.2 = flagNv true ∨ o.2 = FlagSet.none) ∧
        (snans (a :: ps) = true → o.2 = flagNv true) ∧
        (ps.any isNan = false → isNan a = false → o.2 = flagNv true) ∧
        (ps.any isNan = true → snans (a :: ps) = false → o.2 = FlagSet.none)) ∧
      (ps.any isNan = false → isNan a = false → ∀ n, .inf n ∈ a :: ps → .inf (!n) ∉ a :: ps →
        o = (fmtSigned fmtF32 n 0x7F800000, FlagSet.none)) ∧
      (ps.all fvFin = true → fvFin a = true →
        if q = 0 then o = (0, FlagSet.none) else FloatResult fmtF32 .rne false false (decide (q < 0)) q o)) ∧
    (∀ g acc, 0 < g → dotInto g [] [] acc = (acc, FlagSet.none) ∧
      ∀ a b as bs, a.length = g → b.length = g → as.length = bs.length →
        let o := accAdd acc (List.zipWith matProd a b)
        let p := dotInto g as bs o.1
        dotInto g (a ++ as) (b ++ bs) acc = (p.1, flagOr o.2 p.2)) ∧
    [MmaFmt.e4m3, .e5m2, .o4, .bf16, .f16].map mmaGroup = [32, 32, 32, 8, 8] ∧
    (let i := fun (k : Int) => ofInt k
      let zer := FVal.fin false 0 0
      dotInto 8 ([i 4096, i 1, i (-4096)] ++ List.replicate 5 zer) ([i 4096, i 1, i 4096] ++ List.replicate 5 (.inf false)) 0x80000000 =
        (0x3F800000, FlagSet.none) ∧
      dotInto 8 ([i 3, i (-3)] ++ List.replicate 6 (.fin true 0 0)) ([i 2, i 2] ++ List.replicate 6 (i 5)) 0x80000000 =
        (0, FlagSet.none))) ∧
  ((∀ src ∈ [fmtE2m3, fmtE3m2], ∀ dst ∈ [fmtE4m3, fmtBf16], ∀ scale el, scale < 256 → el < 64 →
      let v := fval src el
      let o := mx6Expand src dst scale el
      if scale = 255 then o = (fmtNan dst, flagNv true)
      else if fvQ v = 0 then o = (fmtSigned dst (fvSign v) 0, FlagSet.none)
      else FloatResult dst .rne false true (fvSign v) (fvQ v * 2 ^ ((scale : ℤ) - 127)) o) ∧
    (∀ u < 2 ^ 16, let nib := fun (j : Nat) => BitVec.ofNat 4 (u / 2 ^ (4 * j))
      let o := o4Unit u
      match (List.range 4).filter (fun j => nib j == 8#4) with
      | [] => o = ((List.range 4).map fun j => ofInt (nib j).toInt, false)
      | [m] => o = ((List.range 4).map fun j =>
          if j = m then fval fmtE4m3 (u / 2 ^ (8 * (1 - m / 2)) % 2 ^ 8) else if j / 2 = m / 2 then ofInt (nib j).toInt
          else .fin false 0 0, false)
      | _ => o = (List.replicate 4 (.fin false 0 0), true)) ∧
    (∀ bs : List Byte, scaleVal .e8m0 bs = if natOf bs = 255 then .nan true else .fin false 1 ((natOf bs : ℤ) - 127)))

/-- Interval mode (R340-R347): what register and memory instructions of a team of a bounds pass leave. Integer sums, differences, minima and
maxima are exact at both ends; a comparison is decided where it holds at every pair of values or at none; SEL copies, or joins; LOP and MOVK
give points from points; LD, LDS, LDT and the quiet cache operations make no access; LDB reads its tile's summary; ST records a fill, or
leaves the tiles undecided, as cross-lane instructions, STS, KST, CACHE.ZERO and BPASS.undec do; a decided BRA goes as in normal mode; and
what a bounds pass forbids stops with 0x5C. That ATOM and RED do so is stated for a team with an active lane. -/
def Obligations.IntervalModeInstructions : Prop :=
  ∀ s u t, IssuingIn true s u t → lanesOf t ≠ [] →
    (∀ (d a b : VReg) (sg : Bool), let ty := if sg then IntTy.i32 else IntTy.n32
      let two := fun (Q : Team → Nat → Int → Int → Option ATag → Int → Int → Option ATag → Prop) (t' : Team) (i : Nat) =>
        ∀ lo hi g lo' hi' g', ReadsAs sg t i (ef t a) lo hi g → ReadsAs sg t i (ef t b) lo' hi' g' → Q t' i lo hi g lo' hi' g'
      (Fits t [v1 a, v1 b, v1 d] →
        IvDone (.iadd ty false d a b) s u t [ef t d] [] (two fun t' i lo hi g lo' hi' g' =>
          HoldsAs sg t' i (ef t d) (lo + lo') (hi + hi')
            (g.bind fun x => g'.map fun y => ⟨x.a + y.a, x.b + y.b, x.base + y.base⟩)) ∧
        IvDone (.isub ty false d a b) s u t [ef t d] [] (two fun t' i lo hi g lo' hi' g' =>
          HoldsAs sg t' i (ef t d) (lo - hi') (hi - lo')
            (g.bind fun x => g'.map fun y => ⟨x.a - y.a, x.b - y.b, x.base - y.base⟩)) ∧
        IvDone (.iadd ty true d a b) s u t [ef t d] [] (two fun t' i lo hi _ lo' hi' _ =>
          ∃ g, HoldsAs sg t' i (ef t d) (clamp sg 32 (lo + lo')) (clamp sg 32 (hi + hi')) g) ∧
        IvDone (.isub ty true d a b) s u t [ef t d] [] (two fun t' i lo hi _ lo' hi' _ =>
          ∃ g, HoldsAs sg t' i (ef t d) (clamp sg 32 (lo - hi')) (clamp sg 32 (hi - lo')) g) ∧
        (∀ mx, let f : Int → Int → Int := if mx then max else min
          IvDone (.imnx mx ty d a b) s u t [ef t d] [] (two fun t' i lo hi _ lo' hi' _ =>
            HoldsAs sg t' i (ef t d) (f lo lo') (f hi hi') none))) ∧
      (Fits t [v1 a, v1 b] → ∀ (c : Cond) (p : PReg), p ≠ 0#3 →
        IvDone (.icmp c (!sg) p a b) s u t [] [p.toNat] (two fun t' i lo hi _ lo' hi' _ => lo ≤ hi → lo' ≤ hi' →
          (triP t' i p.toNat = .t ↔ ∀ x y, lo ≤ x → x ≤ hi → lo' ≤ y → y ≤ hi' → condHolds c x y = true) ∧
          (triP t' i p.toNat = .f ↔ ∀ x y, lo ≤ x → x ≤ hi → lo' ≤ y → y ≤ hi' → condHolds c x y = false)))) ∧
    (∀ (d a b : VReg), Fits t [v1 a, v1 b, v1 d] →
      (∀ (p : PReg) (neg : Bool), IvDone (.sel p neg d a b) s u t [ef t d] [] fun t' i =>
        let x := ef t a
        let y := ef t b
        let put := fun (r : Nat) => ivreg t i r ≠ .upper → (∀ l h n g, ivreg t i r ≠ .iv .W l h n g) →
          ivreg t' i (ef t d) = ivreg t i r ∧ vreg t' i (ef t d) = vreg t i r
        let kind := fun (sg : Bool) (r : Nat) => ∃ l h n g, ivreg t i r = .iv (if sg then .I else .N) l h n g
        (triP t i p.toNat = (if neg then .f else .t) → put x) ∧ (triP t i p.toNat = (if neg then .t else .f) → put y) ∧
        (triP t i p.toNat = .m → isPoint t i x = true → isPoint t i y = true →
          if vreg t i x = vreg t i y then ivreg t' i (ef t d) = .point ∧ vreg t' i (ef t d) = vreg t i x
          else ivreg t' i (ef t d) = .full) ∧
        (∀ sg, triP t i p.toNat = .m → kind sg x → kind sg y ∨ isPoint t i y = true → ∀ lo hi g lo' hi' g',
          ReadsAs sg t i x lo hi g → ReadsAs sg t i y lo' hi' g' →
          HoldsAs sg t' i (ef t d) (min lo lo') (max hi hi') none)) ∧
      (∀ tt : BitVec 4, IvDone (.lop tt d a b) s u t [ef t d] [] fun t' i =>
        if isPoint t i (ef t a) && isPoint t i (ef t b) then
          ivreg t' i (ef t d) = .point ∧ ∀ j < 32, (vreg t' i (ef t d)).getLsbD j =
            tt.getLsbD (2 * ((vreg t i (ef t a)).getLsbD j).toNat + ((vreg t i (ef t b)).getLsbD j).toNat)
        else ivreg t' i (ef t d) = .full)) ∧
    (∀ (d : VReg) (k : KReg), k.toNat ≤ 383 → Fits t [v1 d] → IvDone (.movk .lo d k) s u t [ef t d] [] fun t' i =>
      ivreg t' i (ef t d) = .point ∧ vreg t' i (ef t d) = (kreg t k.toNat).setWidth 32) ∧
    (∀ (w : Width) (pol : Pol) (sx : Bool) (m : MArgs),
      let r := ef t m.t
      let regs := if w = .b64 then [r, r + 1] else [r]
      let loaded := fun (t' : Team) (i : Nat) =>
        if w = .b8 ∨ w = .b16 then HoldsAs sx t' i r (loOf sx (8 * widthBytes w)) (hiOf sx (8 * widthBytes w)) none
        else ∀ x ∈ regs, ivreg t' i x = .full
      (Fits t (offUse true m.a m.b ++ [dataUse w m.t]) → IvDone (.ld w pol sx m) s u t regs [] loaded) ∧
      (Fits t (offUse false m.a m.b ++ [dataUse w m.t]) → IvDone (.lds w sx m) s u t regs [] loaded) ∧
      (Fits t (offUse false m.a m.b ++ [ldtUse w m.t]) →
        IvDone (.ldt w m) s u t (rangeFrom r (ldtUse w m.t).n) [] fun t' i => ∀ x ∈ rangeFrom r (ldtUse w m.t).n, ivreg t' i x = .full) ∧
      (Fits t (offUse true m.a m.b ++ [dataUse w m.t]) → (dispOf m.imm % 1024 ≠ 0 ∨ dispOf m.imm < 0 ∨ 7168 < dispOf m.imm) →
        IvDone (.ldb w pol m) s u t regs [] fun t' i => ∀ x ∈ regs, ivreg t' i x = .full)) ∧
    (∀ (pol : Pol) (m : MArgs) (at_ key : Nat → Nat) (k : Kernel), kernelOf s t.kid = some k →
      dispOf m.imm % 1024 = 0 → 0 ≤ dispOf m.imm → dispOf m.imm ≤ 7168 →
      (∀ i, let x := tileOf t i
        let q := fun (j : Nat) => field x.path (2 * j) 2
        at_ i = k.summ + 8192 * x.g + (dispOf m.imm).toNat + 8 * (match x.depth with
          | 0 => 0
          | 1 => 1 + q 0
          | 2 => 5 + 4 * q 0 + q 1
          | _ => 21 + 16 * q 0 + 4 * q 1 + q 2)) →
      pagesUnknown s (dieOf t.core) t ((lanesOf t).map fun i => pageKey s t.ctx (at_ i)) = [] →
      (∀ i ∈ lanesOf t, at_ i < 2 ^ 56 ∧ (∃ leaf, xlateWalk s t.ctx (at_ i) .load = .ok (.dev (key i)) leaf) ∧
        (metaOf s (key i / 256)).poison = false ∧ ∀ j < 8, find? s.hist ((key i + j) / 16) = none) →
      let lo := fun (i : Nat) => memNat s.mem (key i) 4
      let hi := fun (i : Nat) => memNat s.mem (key i + 4) 4
      let read := fun (w : Width) (Q : Team → Nat → Prop) =>
        ∃ s' t', exec (.ldb w pol m) s = .next s' ∧ find? s'.teams u = some t' ∧ ReadOnly s s' u ∧ ∀ i ∈ lanesOf t, Q t' i
      let r := ef t m.t
      (Fits t (offUse true m.a m.b ++ [dataUse .b32 m.t]) → read .b32 fun t' i =>
        let x := fval fmtF32 (lo i)
        let y := fval fmtF32 (hi i)
        isNan x = false → isNan y = false →
          if fvCmp x y = .gt then ivreg t' i r = .full
          else if lo i = hi i then ivreg t' i r = .point ∧ vreg t' i r = BitVec.ofNat 32 (lo i)
          else ivreg t' i r = .iv .F (lo i) (hi i) false none) ∧
      (Fits t (offUse true m.a m.b ++ [dataUse .b64 m.t]) → read .b64 fun t' i =>
        let x := (BitVec.ofNat 32 (lo i)).toInt
        let y := (BitVec.ofNat 32 (hi i)).toInt
        (if y < x then ivreg t' i r = .full else HoldsAs true t' i r x y none) ∧ ivreg t' i (r + 1) = .full)) ∧
    (∀ (w : Width) (pol : Pol) (m : MArgs) (g : Nat → ATag) (k : Kernel), kernelOf s t.kid = some k →
      Fits t (offUse true m.a m.b ++ [dataUse w m.t]) →
      let r := ef t m.t
      let x := ef t m.a
      let n : Int := widthBytes w
      let o := fun (i : Nat) => ((kreg t m.b.toNat).toNat + (g i).base + dispOf m.imm) % 2 ^ 64
      let box := fun (i : Nat) => tileBox k (tileOf t i)
      let val := fun (i : Nat) => if w = .b64 then vpair t i r else (vreg t i r).toNat % 2 ^ (8 * widthBytes w)
      ((∀ i ∈ lanesOf t,
          (if m.a = 0#7 then g i = ⟨0, 0, 0⟩
            else if m.b = 0#7 then ivreg t i (x + 1) = .upper ∧ ∃ l h e, ivreg t i x = .iv .W l h e (some (g i))
            else (ivreg t i x = .point ∧ g i = ⟨0, 0, (vreg t i x).toInt⟩) ∨ ∃ l h e, ivreg t i x = .iv .I l h e (some (g i))) ∧
          isPoint t i r = true ∧ (w = .b64 → isPoint t i (r + 1) = true) ∧ isUnsure t i = false ∧
          (t.fills.filter fun f => f.lane == i).length < 8 ∧ o i % n = 0 ∧ (g i).a % n = 0 ∧ (g i).b % n = 0 ∧
          ∀ y ∈ [0, (box i).h - 1], ∀ z ∈ [0, (box i).w - 1], 1 ≤ (box i).h ∧ 1 ≤ (box i).w ∧
            0 ≤ o i + (g i).a * y + (g i).b * z ∧ o i + (g i).a * y + (g i).b * z < 2 ^ 56) →
        ∃ s' t', exec (.st w pol m) s = .next s' ∧ find? s'.teams u = some t' ∧ TeamOnly s s' u ∧
          Passed s { t with
            fills := t.fills ++ (lanesOf t).map fun i => ⟨i, (o i).toNat, (g i).a, (g i).b, widthBytes w, val i⟩ } t') ∧
      ((∀ i ∈ lanesOf t, isPoint t i r = false ∨ isUnsure t i = true ∨ 8 ≤ (t.fills.filter fun f => f.lane == i).length) →
        IvUndecided (.st w pol m) s u t)) ∧
    (∀ (d a b : VReg) (team : Bool), Fits t [v1 a, v1 b, v1 d] →
      (∀ kind, IvUndecided (.shfl kind team d a b) s u t) ∧ (∀ kind q neg, IvUndecided (.vote kind team d q neg) s u t) ∧
      (∀ op, IvUndecided (.rdx op team d a) s u t) ∧ (∀ op excl, IvUndecided (.scan op team excl d a) s u t) ∧
      ∀ kind, IvUndecided (.lmov kind d a b) s u t) ∧
    (∀ (w : Width) (pol : Pol) (m : MArgs) (a b : KReg) (x : VReg) (y : BitVec 7) (h : ImmHints), a.toNat ≤ 383 → b.toNat ≤ 383 →
      (Fits t (offUse false m.a m.b ++ [dataUse w m.t]) → IvUndecided (.sts w m) s u t) ∧ IvUndecided (.kst w pol a b h) s u t ∧
      IvUndecided (.bpassUndec a) s u t ∧
      (Fits t (offUse true x y) → IvUndecided (.cacheZero x y h) s u t ∧
        ∀ c ∈ [Instr.cacheInv x y h, .cacheEvict x y h, .cacheFetch x y h],
          ∃ s' t', exec c s = .next s' ∧ find? s'.teams u = some t' ∧ TeamOnly s s' u ∧ Passed s t t')) ∧
    (∀ (p : PReg) (neg : Bool) (off : BitVec 21), (∀ i ∈ lanesOf t, triP t i p.toNat ≠ .m) → t.unsure = [] → t.flow.uni = false →
      NoLoops t → tabSorted t.flow.lanes = true →
      ∃ s' t', exec (.bra p neg off) s = .next s' ∧ find? s'.teams u = some t' ∧ TeamOnly s s' u ∧ Onward s t t' ∧
        Chosen t.lanes t.flow t'.flow fun i =>
          if triP t i p.toNat = (if neg then .f else .t) then wordOff s.issue.word off.toInt else s.issue.next) ∧
    ((getCore s t.core).stop = none → t.ctx ≠ 0 →
      (∀ (w : Width) (sc : Scope) (md : AtomMod) (m : MArgs), md.op ≠ .cas → Fits t (offUse true m.a m.b ++ [dataUse w m.t]) →
        Stopped (.atom w sc md m) s u t 0x5C 0 ∧ Stopped (.red w sc md m) s u t 0x5C 0) ∧
      ∀ (a b : KReg) (sc : Scope) (q : BitVec 2) (f : CopyForm) (g : MmaFmt) (z : ScaleFmt) (x y v : Bool) (n : BitVec 4),
        a.toNat ≤ 360 → b.toNat ≤ 360 →
        ∀ c ∈ [Instr.lockInit a b, .lockArrive a b, .lockExpect a b, .lockWait a b sc, .lockTry a b sc, .lockInval a b,
            .lockFill a b, .lockDrain a b, .copy a b q f, .mma a g x y v, .macs a z, .accmvT2s a, .accmvS2t a, .accmvT2t a,
            .accmvT2g a, .accmvG2t a, .accmvZero a, .attn a x, .attnFin a, .seqReserve a b, .seqAddr a b, .seqCommit a b,
            .seqVoid a b, .seqWatch a b, .seqWait a b, .seqFork a b, .seqLen a b, .ptreeLookup a b, .ptreeInsert a b,
            .ptreeUnref a b, .kvtPage a b, .kvtRope a b, .kvtBoth a b, .fork a b n, .join a, .launch a b],
          Stopped c s u t 0x5C 0)

/-- SHFL, VOTE, RDX, SCAN and LMOV (R119-R124), for a team of whole rows, up to 32 of them (R21). -/
def Obligations.CrossLaneInstructionsResults : Prop :=
  ∀ s u t, Issuing s u t → t.lanes % 32 = 0 → t.lanes ≤ 1024 → ∀ (d a b : VReg) (team : Bool),
    let x := fun (i : Nat) => vreg t i (ef t a)
    let act := lanesOf t
    let dst := [RegRef.v (ef t d)]
    let one := fun (w : Nat → W32) (i : Nat) => [(ef t d, w i)]
    let none : Nat → List (Nat × Bool) := fun _ => []
    (Fits t [v1 a, v1 b, v1 d] →
      (∀ kind, CrossDone (.shfl kind team d a b) s u t team dst
        (one fun i => x ((shflSource kind team t.lanes i (vnat t i b)).getD i)) none FlagSet.none) ∧
      (∀ kind, LaneDone (.lmov kind d a b) s u t (ef t d) fun i =>
        let low := (act.find? fun j => j / 32 == i / 32).getD i
        x (i / 32 * 32 + lmovFrom kind (i % 32) (vnat t low b % 32)))) ∧
    (∀ (q : PReg) (neg : Bool),
      let h := fun (i : Nat) => xor (preg t i q.toNat) neg
      let ext := fun (i : Nat) => act.filter fun j => team || j / 32 == i / 32
      let pd := d.toNat % 8
      CrossDone (.vote .all team d q neg) s u t team [.p pd] (fun _ => []) (fun i => [(pd, (ext i).all h)]) FlagSet.none ∧
      CrossDone (.vote .any team d q neg) s u t team [.p pd] (fun _ => []) (fun i => [(pd, (ext i).any h)]) FlagSet.none ∧
      CrossDone (.vote .uni team d q neg) s u t team [.p pd] (fun _ => [])
        (fun i => [(pd, (ext i).all h || (ext i).all fun j => !h j)]) FlagSet.none ∧
      (Fits t [v1 d] → ∃ w, CrossDone (.vote .ballot team d q neg) s u t team dst (one w) none FlagSet.none ∧
        ∀ i ∈ act, ∀ j < 32,
          let k := 32 * (if team then i % 32 else i / 32) + j
          (w i).getLsbD j = (decide (k ∈ act) && h k))) ∧
    (Fits t [v1 a, v1 d] →
      (∀ op, op = .fadd ∨ op = .fmin ∨ op = .fmax ∨
        ∃ w, CrossDone (.rdx op team d a) s u t team dst (one w) none FlagSet.none ∧
          ∀ i ∈ act,
            let vals := (act.filter fun j => team || j / 32 == i / 32).map x
            w i = match op with
              | .iadd => vals.sum
              | .imin => BitVec.ofInt 32 ((vals.map (·.toInt)).foldl min (2 ^ 31 - 1))
              | .imax => BitVec.ofInt 32 ((vals.map (·.toInt)).foldl max (-(2 ^ 31)))
              | .nmin => BitVec.ofNat 32 ((vals.map (·.toNat)).foldl min (2 ^ 32 - 1))
              | _ => BitVec.ofNat 32 ((vals.map (·.toNat)).foldl max 0)) ∧
      (∀ op,
        let row := fun (w : Nat) =>
          if w < t.lanes / 32 then rdxRow op t (ef t a) w else (rdxIdentity op, FlagSet.none)
        let rows := (List.range 32).map row
        let top := rdxTree op 5 (rows.map (·.1))
        CrossDone (.rdx op team d a) s u t team dst
          (one fun i => BitVec.ofNat 32 (if team then top.1 else (row (i / 32)).1)) none
          (flagAll (act.map fun i => if team then flagOr (flagAll (rows.map (·.2))) top.2 else (row (i / 32)).2))) ∧
      (∀ op excl,
        let val := fun (l : List Nat) => l.map fun j => vnat t j a
        let ext := fun (i : Nat) => act.filter fun j => team || j / 32 == i / 32
        let exts := if team then [act] else (List.range 32).map fun r => act.filter fun j => j / 32 == r
        CrossDone (.scan op team excl d a) s u t team dst
          (one fun i => BitVec.ofNat 32
            (scanTo op (val ((ext i).filter fun j => if excl then decide (j < i) else decide (j ≤ i)))).1) none
          (flagAll (exts.map fun e => (scanTo op (val (if excl then e.dropLast else e))).2))))

/-- LD, LDB and KLD (R151, R160, R162, R165, R166, R396): each lane reads its bytes through its own log, from writes that its team
synchronizes with; the values of LD and LDB are outstanding until the load returns, and nothing but caches has changed, beside what the
reads have found of releases (R389). That a load's values are taken when it issues, and that KLD has written its register by the end of
its step, is the model's choice (log 14, DESIGN CHOICE), and so are the records of what a team has seen (log 5, DESIGN CHOICE). -/
def Obligations.LoadsReadThroughTheLog : Prop :=
  ∀ s u t, Issuing s u t →
    (∀ (w : Width) (pol : Pol) (sx : Bool) (m : MArgs) (l : List Touch), lanesOf t ≠ [] →
      Fits t (offUse true m.a m.b ++ [dataUse w m.t]) →
      checkLanes s t (widthBytes w) .load (globalLanes t m.a m.b m.imm) = .ok l → PlainReads s t w l →
      ∀ c, c = .ld w pol sx m ∨ c = .ldb w pol m ∧ sx = false →
      ∃ s' t' p, exec c s = .next s' ∧ find? s'.teams u = some t' ∧ Passed s { t with pend := [p], got := t'.got } t' ∧
        (∀ r ∈ t.got, r ∈ t'.got) ∧ ReadOnly s s' u ∧ p.isLoad = true ∧ p.regs = (vUseRegs t.flow.x (dataUse w m.t)).map .v ∧ p.fault = none ∧
        p.peers = [] ∧ p.preds = [] ∧ p.kwrite = none ∧
        p.writes = l.flatMap fun e =>
          (loadOut w (ef t m.t) (loadVal w sx (teamBytes s t e (widthBytes w)))).map fun x => ⟨e.lane, x.1, x.2⟩) ∧
    (∀ (w : Width) (pol : Pol) (sx : Bool) (a b : KReg) (h : ImmHints) (e : Touch), a.toNat ≤ 383 → b.toNat ≤ 383 →
      checkLanes s t (widthBytes w) .load [⟨0, wrapNat 64 ((kreg t b.toNat).toNat + dispOf h)⟩] = .ok [e] →
      PlainReads s t w [e] →
      ∃ s' t', exec (.kld w pol sx a b h) s = .next s' ∧ find? s'.teams u = some t' ∧
        Passed s { melded t with k := t'.k, got := t'.got } t' ∧ (∀ r ∈ t.got, r ∈ t'.got) ∧ ReadOnly s s' u ∧
        (∀ n, kreg t' n = if n = a.toNat ∧ n ≠ 0 then kldVal sx (teamBytes s t e (widthBytes w)) else kreg t n))

/-- ST and KST (R150, R160, R161, R165, R209): every debit covered and the log large enough, every byte of every lane enters the
team's log, the lanes ascending; no byte of memory changes. At KST the lanes of the team meet (R387). The next state is `s1` once the records of low watermarks that the
debits made are appended. -/
def Obligations.StoresEnterTheLog : Prop :=
  ∀ s u t, Issuing s u t → ∀ (c : Instr) (l : List LaneStore) (t0 : Team),
    ((∃ w pol m tl, c = .st w pol m ∧ t0 = t ∧ lanesOf t ≠ [] ∧ Fits t (offUse true m.a m.b ++ [dataUse w m.t]) ∧
        checkLanes s t (widthBytes w) .store (globalLanes t m.a m.b m.imm) = .ok tl ∧
        l = tl.map fun e => ⟨e.lane, e.addr, storeBytes w t m.t e.lane, e.leaf⟩) ∨
      (∃ w pol a b h e, c = .kst w pol a b h ∧ t0 = melded t ∧ a.toNat ≤ 383 ∧ b.toNat ≤ 383 ∧
        checkLanes s t (widthBytes w) .store [⟨0, wrapNat 64 ((kreg t b.toNat).toNat + dispOf h)⟩] = .ok [e] ∧
        l = [⟨0, wrapNat 64 ((kreg t b.toNat).toNat + dispOf h), bytesOf (widthBytes w) (kreg t a.toNat).toNat, e.leaf⟩])) →
    logWith t l ≤ t.logSize / 64 → (debitStores u s l).2 = none →
    ∃ s1 t', exec c s = .next (settle s1) ∧ find? s1.teams u = some t' ∧
      Passed s { t0 with log := t'.log, pols := t'.pols, debited := t'.debited } t' ∧ DebitOnly s s1 u ∧
      (∀ b, b ∈ t'.debited ↔ b ∈ t.debited ∨ ∃ e ∈ l, leafDebits e.leaf = true ∧ b = e.addr / 256) ∧
      ∀ x, find? t'.log x =
        l.foldl (fun v e => if e.addr ≤ x ∧ x < e.addr + e.bytes.length then e.bytes[x - e.addr]? else v) (find? t.log x)

/-- LOAD_RETURN and VARIABLE_RESULT_WRITEBACK (R48, R160): the oldest outstanding load or result is written to its registers
and predicates and is outstanding no longer. GATHER_EXPAND and POUND_REISSUE (R435-R437): of a team's oldest load that is still being
served, one gather packet is expanded, or a request whose hint is over is issued again: its banks serve it, and then its blocks enter the
caches, or it has another hint while one of them is busy; nothing else changes. -/
def Obligations.ResultsAreWrittenBack : Prop :=
  (∀ (s : State) (u : Nat) (load : Bool) (i : Nat) (p : Pending), Quiet s → u ∈ s.teams.map (·.1) →
    let t := getTeam s u
    firstPend t load = some (i, p) → p.gather = 0 → p.retryAt = none → p.peers = [] → p.fault = none →
    heldRegs s u t.core = [] → (getCore s t.core).stop = none → t.status ≠ .waiting .load →
    (p.writes.map fun w => (w.lane, w.reg)).Nodup → (∀ w ∈ p.writes, w.reg < 128) →
    (p.preds.map fun w => (w.1, w.2.1)).Nodup → (∀ w ∈ p.preds, w.2.1 < 8) →
    ∃ s' t', exec (if load then .loadReturn u else .variableResultWriteback u) s = .next s' ∧ find? s'.teams u = some t' ∧
      TeamOnly s s' u ∧ t' = { t with v := t'.v, p := t'.p, k := t'.k, pend := t.pend.eraseIdx i } ∧
      (∀ w ∈ p.writes, vreg t' w.lane w.reg = w.val) ∧
      (∀ j r, r < 128 → (j, r) ∉ p.writes.map (fun w => (w.lane, w.reg)) → vreg t' j r = vreg t j r) ∧
      (∀ w ∈ p.preds, w.2.1 ≠ 0 → preg t' w.1 w.2.1 = w.2.2) ∧
      (∀ j q, q < 8 → (j, q) ∉ p.preds.map (fun w => (w.1, w.2.1)) → preg t' j q = preg t j q) ∧
      (∀ n, kreg t' n = match p.kwrite with
        | some (k, w) => if n = k ∧ n ≠ 0 then w else kreg t n
        | none => kreg t n)) ∧
  (∀ (s : State) (u : Nat) (t : Team) (before after : List Pending) (p : Pending), find? s.teams u = some t →
    t.pend = before ++ p :: after → p.isLoad = true →
    (p.gather ≠ 0 → p.retryAt = none →
      (∀ q ∈ before, q.isLoad = true → q.gather = 0 ∨ q.retryAt.isSome = true) →
      exec (.gatherExpand u) s =
        .next (setTeam s u { t with pend := before ++ { p with gather := p.gather - 1 } :: after })) ∧
    (∀ x, p.retryAt = some x → x ≤ s.mgmt.time →
      (∀ q ∈ before, q.isLoad = true → ∀ y, q.retryAt = some y → s.mgmt.time < y) →
      let s1 := p.banks.foldl serveAt s
      let cached := fun (s : State) => p.keep.foldl (fun s e => throughCaches s t.core e.2.2 e.1 e.2.1) s
      (∀ y, banksBusy s1 p.banks = some y →
        exec (.poundReissue u) s = .next (setTeam s1 u { t with pend := before ++ { p with retryAt := some y } :: after })) ∧
      (banksBusy s1 p.banks = none →
        exec (.poundReissue u) s =
          .next (setTeam (cached s1) u { t with pend := before ++ { p with retryAt := none, keep := [] } :: after })) ∧
      ((∀ b ∈ p.banks, tabGet 0 (stackOf s (b / 2048)).busy (b % 2048) ≤ s.mgmt.time ∧
          owedBy s.mgmt.time (stackOf s (b / 2048)) (b % 2048) < 8) →
        exec (.poundReissue u) s =
          .next (setTeam (cached s) u { t with pend := before ++ { p with retryAt := none, keep := [] } :: after }))))

/-- LDS, STS and LDT (R160, R161, R164, R383, R394): a scratchpad load writes its registers, and a scratchpad store its bytes, the lanes
ascending, in a scratchpad whose writes its team synchronizes with (R396); and neither changes anything else but what the team has seen.
That LDS and LDT have written their registers by the end of their step is the model's choice (log 14, DESIGN CHOICE: R48 makes every load
one of variable latency), and so are the records of what a team has seen (log 5, DESIGN CHOICE). -/
def Obligations.ScratchpadAccesses : Prop :=
  ∀ s u t, Issuing s u t →
    (∀ (w : Width) (sx : Bool) (m : MArgs), Fits t (offUse false m.a m.b ++ [dataUse w m.t]) → SpadFits s t w m →
      SpadRead (.lds w sx m) s u t
        (fun i => loadOut w (ef t m.t) (loadVal w sx (spadBytes (getCore s t.core) (spadAddr t m i) (widthBytes w))))) ∧
    (∀ (w : Width) (m : MArgs), Fits t (offUse false m.a m.b ++ [dataUse w m.t]) → SpadFits s t w m →
      openOps (getCore s t.core) = [] → (getCore s t.core).spadPoison = [] →
      ∃ s' t', exec (.sts w m) s = .next s' ∧ find? s'.teams u = some t' ∧ Passed s { t with seen := t'.seen } t' ∧
        s' = { s with teams := s'.teams, cores := s'.cores, hist := s'.hist, nextWrite := s'.nextWrite } ∧
        (∀ c, c ∈ t'.seen ↔ c ∈ t.seen ∨ c ∈ madeSince s s') ∧
        (∀ n, n ≠ u → find? s'.teams n = find? s.teams n) ∧
        (∀ n, getCore s' n =
          if n = t.core then { getCore s n with spad := (getCore s' n).spad, lateSpad := (getCore s' n).lateSpad }
          else getCore s n) ∧
        ∀ x, tabGet 0#8 (getCore s' t.core).spad x =
          (lanesOf t).foldl (fun v i =>
            if spadAddr t m i ≤ x ∧ x < spadAddr t m i + widthBytes w
            then ((storeBytes w t m.t i)[x - spadAddr t m i]?).getD v else v) (tabGet 0#8 (getCore s t.core).spad x)) ∧
    (∀ (w : Width) (m : MArgs), w ≠ .b64 → Fits t (offUse false m.a m.b ++ [ldtUse w m.t]) →
      (∀ i, (∃ j ∈ lanesOf t, j / 32 = i / 32) → spadAddr t m i % (4 * widthBytes w) = 0 ∧
        spadAddr t m i + 4 * widthBytes w ≤ spgBytes (getCore s t.core).word) →
      (getCore s t.core).spadPoison = [] →
      (∀ i ∈ lanesOf t, ∀ a ∈ ldtRows t m (widthBytes w) i, SpadSynced s t a (widthBytes w)) →
      SpadRead (.ldt w m) s u t
        (fun i => splitRegs (ef t m.t) (widthBytes w)
          (natOf ((ldtRows t m (widthBytes w) i).map fun a => spadBytes (getCore s t.core) a (widthBytes w)).flatten)))

/-- CACHE.ZERO, .INV, .EVICT and .FETCH (R174, R175): .ZERO notes its blocks in the log, in place of what the log held of
them, and gives their debit back; the others, once their pages are known, change no value, and .INV leaves no line of a
translated address in its core's L1. -/
def Obligations.CacheOperations : Prop :=
  ∀ s u t, Issuing s u t → ∀ (a : VReg) (b : BitVec 7) (h : ImmHints), Fits t (offUse true a b) →
    (∀ l, lanesOf t ≠ [] → checkLanes s t 1 .store (globalLanes t a b h) = .ok l →
      let bs := dedupNat (l.map fun e => e.addr / 256)
      (dedupNat ((t.log.filter fun e => !bs.contains (e.1 / 256)).map fun e => e.1 / 32)).length +
        (dedupNat (t.zeros ++ bs)).length ≤ t.logSize / 64 →
      ∃ s1 t', exec (.cacheZero a b h) s = .next (settle s1) ∧ find? s1.teams u = some t' ∧
        Passed s { t with log := t'.log, zeros := t'.zeros, pols := t'.pols, debited := t'.debited } t' ∧ DebitOnly s s1 u ∧
        t'.log = (t.log.filter fun e => !bs.contains (e.1 / 256)) ∧ t'.debited = (t.debited.filter fun x => !bs.contains x) ∧
        t'.pols = (t.pols.filter fun e => !bs.contains e.1) ∧
        ∀ x, x ∈ t'.zeros ↔ x ∈ t.zeros ∨ x ∈ bs) ∧
    (∀ c, c = .cacheInv a b h ∨ c = .cacheEvict a b h ∨ c = .cacheFetch a b h →
      let lanes := (globalLanes t a b h).filter fun e => decide (e.addr < 2 ^ 56)
      pagesUnknown s (dieOf t.core) t (lanes.map fun e => pageKey s t.ctx e.addr) = [] →
      ∃ s' t', exec c s = .next s' ∧ find? s'.teams u = some t' ∧ Passed s t t' ∧ ReadOnly s s' u ∧
        (c = .cacheInv a b h → ∀ e ∈ lanes, tlbFind s (dieOf t.core) t.ctx e.addr ≠ none →
          e.addr / 256 ∉ (getCore s' t.core).l1))

/-- A vector instruction with em zero only goes on: R82 and R105 for the register forms, R178 for the memory forms, R140 for BRA and
JMPI, and R39 for their register checks. -/
def Obligations.NoActiveLaneNoEffect : Prop :=
  ∀ s u t, Issuing s u t → lanesOf t = [] → ∀ c : Instr,
    (match c with
      | .iadd .. | .isub .. | .imul .. | .imad .. | .idiv .. | .lop .. | .shf .. | .bits .. | .imnx .. | .icmp .. | .sel ..
      | .iaddi .. | .ishi .. | .icmpi .. | .lopi .. | .iaddk .. | .ilea .. | .movk .. | .movs true _ _ | .fadd .. | .fsub ..
      | .fmul .. | .ffma .. | .fmnx .. | .fcmp .. | .fsf .. | .cvt .. | .pack .. | .dp4 .. | .fcls .. | .shfl .. | .vote ..
      | .rdx .. | .scan .. | .lmov .. | .ld .. | .st .. | .lds .. | .sts .. | .ldt .. | .ldb .. | .cacheZero ..
      | .cacheInv .. | .cacheEvict .. | .cacheFetch .. | .bra .. | .jmpi .. => True
      | _ => False) →
    ∃ s' t', exec c s = .next s' ∧ RegsOnly s s' u t t' no2 no2 no FlagSet.none []

/-- REGION.COMMIT (R146, R147, R161, R386): a logged byte reaches the block it was stored to, where its translation puts it, unless another
write comes later in co, and always where the team synchronizes with the newest writes there (R396); no other byte of the device changes;
the log is empty and a snapshot is taken; and the team has seen what it has written. With nothing logged only the team changes. -/
def Obligations.RegionCommitPublishesTheLog : Prop :=
  ∀ s u t, Issuing s u t → t.zeros = [] →
    (t.log = [] → ∃ s' t', exec .regionCommit s = .next s' ∧ find? s'.teams u = some t' ∧ Bounded s t t' ∧ TeamOnly s s' u) ∧
    (∀ b k leaf, t.log ≠ [] → (∀ e ∈ t.log, e.1 / 256 = b) → loggedPlace s t.ctx (b * 256) = some (.dev k, leaf) →
      (metaOf s (k / 256)).poison = false → Unstored s (k / 256) →
      let logged := fun (x : Nat) => if x / 256 = k / 256 then find? t.log (b * 256 + x % 256) else none
      ∃ s1 t', exec .regionCommit s = .next (settle s1) ∧ find? s1.teams u = some t' ∧
        Passed s { ended t with snap := t'.snap, seen := t'.seen } t' ∧ (t'.status = .ready → t'.snap = t'.flow) ∧
        (∀ c, c ∈ t'.seen ↔ c ∈ (melded t).seen ∨ c ∈ madeSince s s1) ∧
        (∀ n, n ≠ u → find? s1.teams n = find? s.teams n) ∧
        (∀ x, memByte s1.hostMem x = memByte s.hostMem x) ∧
        (∀ x, memByte s1.mem x = memByte s.mem x ∨ logged x = some (memByte s1.mem x)) ∧
        (Synced s (melded t).seen 0 (k / 256 * 256) 256 (memByte s.mem) →
          ∀ x, memByte s1.mem x = (logged x).getD (memByte s.mem x)))

/-- ATOM and RED on device memory whose newest writes the team synchronizes with, and SC_RMW_PERFORM (R167-R170, R393, R396): the lanes'
operations are performed one after another, each on what the one before it left; no other byte changes; ATOM's destinations take the old
values. An SC operation may instead be held at its slice, with nothing performed, until SC_RMW_PERFORM: that is the model's way to the order
of SC operations (log 5, DESIGN CHOICE). -/
def Obligations.AtomicsPerformLaneByLane : Prop :=
  (∀ s u t, Issuing s u t → t.log = [] → t.zeros = [] → s.peers = [] → lanesOf t ≠ [] →
    ∀ (ret : Bool) (w : Width) (scope : Scope) (md : AtomMod) (m : MArgs) (tl : List Touch) (key : Nat → Nat),
      Fits t (offUse true m.a m.b ++ [rmwUse w md m.t, dataUse w m.t]) →
      checkLanes s t (widthBytes w) .rmw (globalLanes t m.a m.b m.imm) = .ok tl →
      (∀ e ∈ tl, e.place = .dev (key e.lane) ∧ key e.lane % widthBytes w = 0 ∧
        (metaOf s (key e.lane / 256)).poison = false ∧ Unstored s (key e.lane / 256) ∧
        Synced s (melded t).seen 0 (key e.lane) (widthBytes w) (memByte s.mem)) →
      let l := tl.map fun e => (rmwOperand w md t m.t e.lane e.addr, e.place, e.leaf)
      (debitRmw u s (rmwDebits l)).2 = none →
      let run := rmwSteps w md (memByte s.mem) (l.map fun e => (e.1, key e.1.lane))
      let c := if ret then Instr.atom w scope md m else .red w scope md m
      let dst := if ret then some (ef t m.t) else none
      ∃ s1 t', exec c s = .next (settle s1) ∧ find? s1.teams u = some t' ∧
        (∀ n, n ≠ u → find? s1.teams n = find? s.teams n) ∧
        (∀ x, memByte s1.hostMem x = memByte s.hostMem x) ∧
        (∀ i p, preg t' i p = preg t i p) ∧ (∀ n, kreg t' n = kreg t n) ∧
        ((∀ x, memByte s1.mem x = run.1 x) ∧ OldValues w dst t t' run.2 ∧
            Passed s { ended t with
              v := t'.v, snap := t'.snap, seen := t'.seen, got := t'.got, laneSeen := t'.laneSeen } t' ∧
            (∀ c ∈ (melded t).seen, c ∈ t'.seen) ∧
            (ordAcq md.ord = true → (getCore s1 t.core).l1 = []) ∨
          md.ord = .sc ∧ (∃ ts, t'.status = .waiting (.scRmw ts w scope md (l.map (·.1)) dst)) ∧
            (∀ x, memByte s1.mem x = memByte s.mem x) ∧ ∀ i r, vreg t' i r = vreg t i r)) ∧
  (∀ (s : State) (u : Nat) (t : Team), find? s.teams u = some t → t.trace.on = false → t.bounds = false → t.stepOnce = false →
    heldRegs s u t.core = [] →
    ∀ (ts : Nat) (w : Width) (scope : Scope) (md : AtomMod) (ops : List RmwOp) (dst : Option Nat) (key : RmwOp → Nat),
      t.status = .waiting (.scRmw ts w scope md ops dst) → scBelow s ts = false → (ops.map (·.lane)).Nodup →
      (∀ d ∈ dst, d + (loadOut w d 0).length ≤ 128) →
      (∀ o ∈ ops, (∃ leaf, loggedPlace s t.ctx o.addr = some (.dev (key o), leaf)) ∧ key o % widthBytes w = 0 ∧
        (metaOf s (key o / 256)).poison = false ∧ Unstored s (key o / 256) ∧
        Synced s (melded t).seen 0 (key o) (widthBytes w) (memByte s.mem)) →
      let run := rmwSteps w md (memByte s.mem) (ops.map fun o => (o, key o))
      ∃ s1 t', exec (.scRmwPerform u) s = .next (settle s1) ∧ find? s1.teams u = some t' ∧
        (∀ n, n ≠ u → find? s1.teams n = find? s.teams n) ∧
        (∀ x, memByte s1.hostMem x = memByte s.hostMem x) ∧ (∀ x, memByte s1.mem x = run.1 x) ∧
        OldValues w dst t t' run.2 ∧ (∀ i p, preg t' i p = preg t i p) ∧ (∀ n, kreg t' n = kreg t n) ∧
        (ordAcq md.ord = true → (getCore s1 t.core).l1 = []))

/-- FENCE and FENCE_COMPLETE (R170, R172, R173, R389, R392, R397), with no peer store outstanding: the team goes on past its boundary; an
acquire joins the inclusive ones of the releases that the team's reads have found, and at .core or wider empties its core's L1; and what the
team writes after a release carries it. An SC fence takes a timestamp above its core's clock, waits while an SC operation with a smaller
one is held, joins the earlier SC fences, and takes its place after them. What a team has seen as a list of numbered bytes, the clocks that
go with it, and an SC fence that raises every other core's clock to its own timestamp are the model's (log 5, DESIGN CHOICE). -/
def Obligations.FencesComplete : Prop :=
  (∀ s u t, Issuing s u t → t.log = [] → t.zeros = [] → s.peers = [] → ∀ (k : FenceKind) (sc : Scope),
    let c := (getCore s t.core).clock + 1
    (k = .sc → scBelow s (scKey c s.mgmt.devnum t.core) = false) → (getCore s t.core).stop = none →
    let v : View := if k = .sc then acquires t sc (t.got ++ s.scRels) else if fenceAcq k then acquires t sc t.got else ⟨[], 0⟩
    let drop := fenceAcq k && decide (sc ≠ .team)
    ∃ s' t', exec (.fence k sc) s = .next s' ∧ find? s'.teams u = some t' ∧
      let mine : Rel := ⟨teamParty t, sc, ⟨t'.seen, (getCore s' t.core).clock⟩, false⟩
      Passed s { joined (ended t) v with snap := t'.snap, relFs := t'.relFs } t' ∧ (t'.status = .ready → t'.snap = t'.flow) ∧
      t'.relFs = (if fenceRel k then (t.relFs.filter fun r => r.scope != sc) ++ [mine] else t.relFs) ∧
      s' = { s with teams := s'.teams, cores := s'.cores, scRels := s'.scRels } ∧
      s'.scRels = (if k = .sc then s.scRels ++ [mine] else s.scRels) ∧
      (∀ n, n ≠ u → find? s'.teams n = find? s.teams n) ∧
      (k ≠ .sc → ∀ n, getCore s' n = if n = t.core then acquiredCore drop v (getCore s n) else getCore s n) ∧
      (k = .sc → (∀ n, CachesOnly (getCore s n) (getCore s' n)) ∧
        (∀ n, (getCore s' n).l1 = if n = t.core ∧ drop = true then [] else (getCore s n).l1) ∧
        (t.core < Config.cores → (getCore s' t.core).clock = max c v.clock ∧
          ∀ n < Config.cores, n ≠ t.core → (getCore s' n).clock = max (getCore s n).clock c))) ∧
  (∀ (s : State) (u : Nat) (t : Team) (k : FenceKind) (sc : Scope) (ts : Nat), Quiet s → find? s.teams u = some t →
    t.trace.on = false → t.stepOnce = false → s.peers = [] → t.status = .waiting (.fence k sc ts) →
    (k = .sc → scBelow s ts = false) → (getCore s t.core).stop = none →
    let v : View := if fenceAcq k then acquires t sc t.got else ⟨[], 0⟩
    ∃ s' t', exec (.fenceComplete u) s = .next s' ∧ find? s'.teams u = some t' ∧
      Moved { joined t v with relFs := t'.relFs } t' ∧ (fenceRel k = false → t'.relFs = t.relFs) ∧
      Acquired s s' u t.core (fenceAcq k && decide (sc ≠ .team)) v)

/-- What the axioms ask of the order of writes and reads (R386, R388, R389, R393-R395). The parties that a scope covers, and the pairs of a
release and an acquire that are inclusive. A new write of some places of a granule stands after every write of one of them that its author
has seen, never between an RMW and the write that it has read from, and, where both are SC operations, after the other. A read of a place
takes the byte of one of its writes, or the one from before them all, and passes over none that its reader has seen. -/
def Obligations.WritesAndReadsKeepTheAxioms : Prop :=
  (∀ u c v d : Nat,
    (covers .team (.team u c) (.team v d) = true ↔ u = v) ∧ (covers .core (.team u c) (.team v d) = true ↔ c = d) ∧
    (covers .clu (.team u c) (.team v d) = true ↔ c / 16 = d / 16) ∧ covers .dev (.team u c) (.team v d) = true ∧
    covers .dev (.team u c) .device = true ∧ covers .dev (.team u c) .outside = false ∧
    (∀ sc, sc ≠ .dev → sc ≠ .sys → covers sc (.team u c) .device = false ∧ covers sc (.team u c) .outside = false) ∧
    (∀ p q, covers .sys p q = true) ∧
    (∀ (r : Rel) sc p, inclusive r sc p = true ↔ r.always = true ∨ covers r.scope r.party p = true ∧ covers sc p r.party = true)) ∧
  (∀ (s : State) (a : Author) (sc : Bool) (mask : List Nat) (ws newer older : List Write),
    placeWrite s a sc mask ws = (newer, older) →
    ws = newer ++ older ∧
    (∀ w ∈ newer, ∀ i ∈ mask, writesAt w i = true →
      a.last = false ∧ (sc = true → w.sc = false) ∧ ∀ j ∈ mask, writesAt w j = true → seenCode w.n j ∉ a.seen) ∧
    ∀ i ∈ mask, ∀ w, (newer.filter (writesAt · i)).getLast? = some w → w.rmw = false) ∧
  (∀ (g : Grain) (knows : Nat → Bool) (take : Nat → Bool) (lo n i : Nat), lo ≤ i → i < lo + n →
    let f := readGrain g knows take lo n
    (f.bytes[i - lo]? = some (nth 0#8 g.base i) ∧ ∀ w ∈ g.writes, writesAt w i = true → knows (seenCode w.n i) = false) ∨
    ∃ newer w older, g.writes = newer ++ w :: older ∧ writesAt w i = true ∧ f.bytes[i - lo]? = some (writeByte w i) ∧
      seenCode w.n i ∈ f.seen ∧ (∀ r ∈ w.rels, r ∈ f.rels) ∧
      ∀ x ∈ newer, writesAt x i = true → knows (seenCode x.n i) = false)

/-- NOP, LAND and the other instructions of no effect (R133; HINT.STALL and HINT.MARK without trace, R417): the team goes on
to the word after them; nothing else changes. -/
def Obligations.InstructionsOfNoEffectGoOn : Prop :=
  ∀ s u t, Issuing s u t → ∀ c, c = .nop ∨ c = .land ∨ (∃ f, c = .hintStall f) ∨ (∃ m, c = .hintMark m) →
    ∃ s' t', exec c s = .next s' ∧ find? s'.teams u = some t' ∧ TeamOnly s s' u ∧
      (c = .nop ∨ c = .land → Passed s t t') ∧
      t'.v = t.v ∧ t'.p = t.p ∧ t'.k = t.k ∧ t'.log = t.log ∧
      (lanesOf t ≠ [] → t.flow.uni = false → NoLoops t → tabSorted t.flow.lanes = true →
        Chosen t.lanes t.flow t'.flow (fun _ => s.issue.next) ∧
          ∀ f, c = .hintStall f → t'.flow.pc = s.issue.next → t'.counts = stallCounts f)

/-- BRA, BRK and JMPI (R126, R129-R131): where each active lane goes, and the choice of the team's next address. -/
def Obligations.BranchesChooseTheLeastAddress : Prop :=
  ∀ s u t, Issuing s u t → lanesOf t ≠ [] → t.flow.uni = false → NoLoops t → tabSorted t.flow.lanes = true →
    (∀ (p : PReg) (neg : Bool) (off : BitVec 21),
      ∃ s' t', exec (.bra p neg off) s = .next s' ∧ find? s'.teams u = some t' ∧ TeamOnly s s' u ∧ Onward s t t' ∧
        Chosen t.lanes t.flow t'.flow
          (fun i => if xor (preg t i p.toNat) neg then wordOff s.issue.word off.toInt else s.issue.next)) ∧
    (∀ (a : KReg) (c : BrkCond) (off : BitVec 13), a.toNat ≤ 383 →
      ∃ s' t', exec (.brk a c off) s = .next s' ∧ find? s'.teams u = some t' ∧ TeamOnly s s' u ∧ Onward s t t' ∧
        Chosen t.lanes t.flow t'.flow
          (fun _ => if brkHolds c (kreg t a.toNat).toInt then wordOff s.issue.word off.toInt else s.issue.next)) ∧
    (∀ (a : VReg) (k : KReg), k.toNat ≤ 383 → Fits t [v1 a] →
      let target := fun (i : Nat) => ((kreg t k.toNat).toNat + vnat t i a) % 2 ^ 64
      (∀ i ∈ lanesOf t, landingAt s t (target i) = .ok) →
      pagesUnknown s (dieOf t.core) t (landingPages s t ((lanesOf t).map target)) = [] →
      ∃ s' t', exec (.jmpi a k) s = .next s' ∧ find? s'.teams u = some t' ∧ Onward s t t' ∧
        s' = { s with teams := s'.teams, walkers := s'.walkers, tspace := s'.tspace } ∧
        (∀ n, n ≠ u → find? s'.teams n = find? s.teams n) ∧ Chosen t.lanes t.flow t'.flow target)

/-- CALL, RET, LOOP and SETX (R134, R135, R138). The end of a loop's body (R136): a count above one sends the lanes back to the
body's start with the count one lower, and a count of one leaves the loop. -/
def Obligations.CallsLoopsAndX : Prop :=
  (∀ s u t, Issuing s u t → lanesOf t ≠ [] → t.flow.uni = false → NoLoops t → tabSorted t.flow.lanes = true →
     (∀ (off : BitVec 21), t.flow.depth ≠ 63 →
       ∃ s' t', exec (.call off) s = .next s' ∧ find? s'.teams u = some t' ∧ TeamOnly s s' u ∧
         Onward s { t with k := t'.k } t' ∧
         (∀ n, kreg t' n = if n = 1 then BitVec.ofNat 64 (s.issue.word + 4) else kreg t n) ∧
         Chosen t.lanes { t.flow with depth := t.flow.depth + 1 } t'.flow (fun _ => wordOff s.issue.word off.toInt)) ∧
     (∀ (a : KReg), a.toNat ≤ 383 → t.flow.depth ≠ 0 → waitingAt t.flow t.flow.depth = [] →
       ∃ s' t', exec (.ret a) s = .next s' ∧ find? s'.teams u = some t' ∧ TeamOnly s s' u ∧ Onward s t t' ∧
         Chosen t.lanes { t.flow with depth := t.flow.depth - 1 } t'.flow (fun _ => (kreg t a.toNat).toNat)) ∧
     (∀ (a : KReg), a.toNat ≤ 383 → t.flow.depth ≠ 0 → waitingAt t.flow t.flow.depth ≠ [] →
       ∃ s' t', exec (.ret a) s = .next s' ∧ find? s'.teams u = some t' ∧ TeamOnly s s' u ∧ Onward s t t' ∧
         t'.flow.depth = t.flow.depth ∧ frontier t.flow t.flow.depth = some t'.flow.pc ∧
         (∀ i ∈ lanesOf t, laneState t'.flow i = .waiting (kreg t a.toNat).toNat (t.flow.depth - 1)) ∧
         ∀ i, laneState t.flow i = .waiting t'.flow.pc t.flow.depth → laneState t'.flow i = .active) ∧
     (∀ (a : KReg) (l : LoopCtr) (n : BitVec 13), a.toNat ≤ 383 → t.flow.loops.length = 3 → 1 ≤ n.toNat →
       let count : W32 := (kreg t a.toNat).setWidth 32
       let first := s.issue.word + 4
       let to_ := if count = 0#32 then first + 4 * n.toNat else first
       (∀ i r d, laneState t.flow i = .waiting r d → d = t.flow.depth → to_ < r) →
       ∃ s' t', exec (.loop a l n) s = .next s' ∧ find? s'.teams u = some t' ∧ TeamOnly s s' u ∧ Onward s t t' ∧
         Chosen t.lanes t.flow t'.flow (fun _ => to_) ∧
         t'.flow.loops = if count = 0#32 then t.flow.loops
           else setAt t.flow.loops (loopNum l) ⟨count, true, first, n.toNat, t.flow.depth⟩) ∧
     (∀ (a : KReg) (i : BitVec 7), a.toNat ≤ 383 → (kreg t a.toNat).toNat + i.toNat ≤ 127 →
       ∃ s' t', exec (.setx a i) s = .next s' ∧ find? s'.teams u = some t' ∧ TeamOnly s s' u ∧ Onward s t t' ∧
         Chosen t.lanes { t.flow with x := (kreg t a.toNat).toNat + i.toNat } t'.flow (fun _ => s.issue.next))) ∧
  (∀ s u t (e : LoopEntry), Issuing s u t → lanesOf t ≠ [] → t.flow.uni = false → tabSorted t.flow.lanes = true →
     t.flow.loops = [e, LoopEntry.reset, LoopEntry.reset] → e.on = true → e.depth = t.flow.depth → loopEnd e = s.issue.word →
     s.issue.next = s.issue.word + 4 → (∀ i r d, laneState t.flow i ≠ .waiting r d) → 1 ≤ e.len →
     ∃ s' t', exec .nop s = .next s' ∧ find? s'.teams u = some t' ∧ TeamOnly s s' u ∧ Onward s t t' ∧
       (e.ctr = 1#32 → t'.flow.pc = s.issue.next ∧ (loopAt t'.flow 0).on = false) ∧
       (e.ctr ≠ 1#32 → t'.flow.pc = e.start ∧ loopAt t'.flow 0 = { e with ctr := e.ctr - 1#32 }))

/-- MASK.SET, MASK.GET and MASK.PRED (R139, R140). -/
def Obligations.MasksSelectLanes : Prop :=
  ∀ s u t, Issuing s u t → NoLoops t → tabSorted t.flow.lanes = true →
    (∀ (c : Instr) (want : Nat → Bool),
      ((∃ a : KReg, c = .maskSet a ∧ a.toNat + 16 ≤ 384 ∧
          want = fun i => laneState t.flow i == .active && (kreg t (a.toNat + i / 64)).getLsbD (i % 64) ||
            laneState t.flow i == .held && (kreg t (a.toNat + i / 64)).getLsbD (i % 64)) ∨
        (∃ a : KReg, ∃ p : PReg, c = .maskPred a p ∧ want = fun i => laneState t.flow i == .active && preg t i p.toNat)) →
      let masked := fun (i : Nat) =>
        if i < t.lanes ∧ (laneState t.flow i = .active ∨ laneState t.flow i = .held)
        then (if want i then LaneState.active else .held) else laneState t.flow i
      ∃ s' t', exec c s = .next s' ∧ find? s'.teams u = some t' ∧ TeamOnly s s' u ∧ Onward s t t' ∧
        ((∃ i < t.lanes, want i = true) → t'.flow.uni = false ∧
          ∃ fl : Flow, (∀ i, laneState fl i = masked i) ∧ fl.depth = t.flow.depth ∧ fl.x = t.flow.x ∧
            Chosen t.lanes fl t'.flow (fun _ => s.issue.next)) ∧
        ((∀ i < t.lanes, want i = false) → waitingAt t.flow t.flow.depth = [] →
          t'.flow.uni = true ∧ t'.flow.pc = s.issue.next ∧ ∀ i, laneState t'.flow i = masked i) ∧
        ((∀ i < t.lanes, want i = false) → waitingAt t.flow t.flow.depth ≠ [] →
          frontier t.flow t.flow.depth = some t'.flow.pc ∧
          ∀ i, laneState t'.flow i = if masked i = .waiting t'.flow.pc t.flow.depth then .active else masked i)) ∧
    (∀ (a : KReg), a.toNat + 16 ≤ 384 → t.lanes ≤ 1024 →
      ∃ s' t', exec (.maskGet a) s = .next s' ∧
        RegsOnly s s' u t t' no2 no2 (fun n => a.toNat ≤ n ∧ n < a.toNat + 16) FlagSet.none [] ∧
        ∀ j < 16, a.toNat + j ≠ 0 → ∀ b < 64, (kreg t' (a.toNat + j)).getLsbD b = decide (64 * j + b ∈ lanesOf t))

/-- EXIT, YIELD and YIELD_RESUME (R141, R142). -/
def Obligations.ExitAndYield : Prop :=
  (∀ s u t, Issuing s u t → t.log = [] → t.zeros = [] → t.trace.staged = [] → tabSorted t.flow.lanes = true →
    ∃ s' t', exec .exit s = .next s' ∧ find? s'.teams u = some t' ∧ TeamOnly s s' u ∧
      Onward s { ended t with endPc := s.issue.group, exitFlow := t'.exitFlow, snap := t'.snap } t' ∧
      (t'.status = .ready → t'.snap = t'.flow) ∧
      ((∀ i r d, laneState t.flow i ≠ .waiting r d) → t'.status = .ending ∧ t'.exitFlow = some t.flow ∧
        ∀ i, laneState t'.flow i = if i ∈ lanesOf t then .exited else laneState t.flow i)) ∧
  (∀ s u t, Issuing s u t →
    ∃ s' t', exec .yield s = .next s' ∧ find? s'.teams u = some t' ∧ TeamOnly s s' u ∧
      Onward s { t with yielded := t'.yielded } t' ∧
      ∀ n, n ∈ t'.yielded ↔ n ≠ u ∧ ∃ x, (n, x) ∈ teamsOn s t.core ∧ x.part = t.part ∧ x.status = .ready) ∧
  (∀ (s : State) (u : Nat) (t : Team), find? s.teams u = some t →
    exec (.yieldResume u) s = .next (setTeam s u { t with yielded := [] }))

/-- The precise stops of illegal words and of register checks (R39-R41, R52, R53, R134, R135, R138): the core stops with the cause
named, the instruction has no other effect. TRAP and BKPT (R143, R409): the instruction completes, its team goes on to the next group, and
its core stops precisely with cause 0x4D or 0x4E and the code in the record. -/
def Obligations.ChecksStopPrecisely : Prop :=
  ∀ s u t, Issuing s u t → t.ctx ≠ 0 → (getCore s t.core).stop = none →
    Stopped (.illegalWord .op) s u t 0x40 0 ∧
    Stopped (.illegalWord .fn) s u t 0x41 0 ∧
    Stopped (.illegalWord .field) s u t 0x42 0 ∧
    Stopped (.illegalWord .hint) s u t 0x43 0 ∧
    (∀ ty sat (d a b : VReg), lanesOf t ≠ [] →
      (∃ r ∈ [a, b, d], t.allot < r.toNat + t.flow.x + (vTy ty r).n) → Stopped (.iadd ty sat d a b) s u t 0x44 0) ∧
    (∀ ty sat (d a b : VReg), lanesOf t ≠ [] → tyPair ty = true →
      (∀ r ∈ [a, b, d], r.toNat + t.flow.x + 2 ≤ t.allot) → (∃ r ∈ [a, b, d], (r.toNat + t.flow.x) % 2 = 1) →
      Stopped (.iadd ty sat d a b) s u t 0x45 0) ∧
    (∀ a : KReg, 368 < a.toNat → Stopped (.maskSet a) s u t 0x46 0) ∧
    (∀ off, t.flow.depth = 63 → Stopped (.call off) s u t 0x4A 0) ∧
    (∀ a : KReg, a.toNat ≤ 383 → t.flow.depth = 0 → Stopped (.ret a) s u t 0x4A 0) ∧
    (∀ (a : KReg) l n, a.toNat ≤ 383 → (kreg t a.toNat).setWidth 32 ≠ 0#32 → (loopAt t.flow (loopNum l)).on = true →
      Stopped (.loop a l n) s u t 0x4B 0) ∧
    (∀ (a : KReg) (i : BitVec 7), a.toNat ≤ 383 → 127 < (kreg t a.toNat).toNat + i.toNat → Stopped (.setx a i) s u t 0x50 0) ∧
    (∀ (code : BitVec 16) (c : Instr) (cause : Nat), c = .trap code ∧ cause = 0x4D ∨ c = .bkpt code ∧ cause = 0x4E →
      ∃ s1 t', exec c s = .next (settle s1) ∧ find? s1.teams u = some t' ∧ Passed s t t' ∧ StopOnly s s1 u t.core ∧
        StopRecorded s s1 u t s.issue.group cause code.toNat none 0 true)

/-- The LOCK forms on a lock of the team's own core that no other team waits on (R268, R270, R271, R276): the lock's new value,
the result, or the wait; an arrival releases, and a wait or a try that finds its phase done, and a fill, acquire what counts toward that
phase at their scope, which empties the core's L1 where the scope is wider than .team (R18, R170). A lock's phase advances exactly when the
last arrival has come and the bytes counted are those expected (R268), and a wait for a phase ends once the phase has passed it, modulo
2^32. That a lock keeps the releases of its phases as a list is the model's (log 5, DESIGN CHOICE). -/
def Obligations.LockForms : Prop :=
  (∀ s u t, Issuing s u t → t.log = [] → t.zeros = [] → ∀ (a n : KReg), a.toNat + 1 ≤ 383 → n.toNat ≤ 63 →
     lockAwaited s t.core n.toNat = false →
     let w := (kreg t a.toNat).toNat
     let l := getLock s t.core n.toNat
     let phase : W64 := l.phase.setWidth 64
     let relsOf := fun (p : W32) => (l.rels.filter fun e => e.1 == p.toNat).map (·.2)
     (initWordOk w = true → l.st = .invalid →
       LockFormDone (.lockInit a n) s u t n.toNat (fun _ =>
         { l with na := field w 0 16, nd := field w 16 16, gate := bitAt w 32, penda := field w 0 16, st := .valid }) none none) ∧
     (arriveWordOk w = true → bitAt w 24 = false → l.st = .valid → ¬ (l.gate = true ∧ l.phase.toNat % 2 = 1) →
       let cnt := max 1 (field w 0 16)
       cnt ≤ l.penda → ¬ lockBreaks { l with penda := l.penda - cnt } →
       LockFormDone (.lockArrive a n) s u t n.toNat (fun r => lockAfter (lockReleased { l with penda := l.penda - cnt } r))
         (some (a.toNat + 1, phase)) none) ∧
     (byteWordOk w = true → l.st = .valid → l.gate = false → l.gv = false → ∀ l1,
       lockFillStep l (BitVec.ofNat 64 w) = some l1 → ¬ lockBreaks l1 →
       LockFormDone (.lockExpect a n) s u t n.toNat
         (fun r => lockAfter (if bitAt w 63 then lockReleased l1 r else l1)) none none) ∧
     (∀ sc, waitWordOk w = true → bitAt w 40 = false → l.st = .valid →
       let joins := some (decide (sc ≠ .team), acquires t sc (relsOf (BitVec.ofNat 32 w)))
       (t.woken = false → phaseDone l (BitVec.ofNat 32 w) = true →
         LockFormDone (.lockWait a n sc) s u t n.toNat (fun _ => l) none joins) ∧
       (t.woken = false → phaseDone l (BitVec.ofNat 32 w) = false →
         Waits (.lockWait a n sc) s u t (.lockPhase t.core n.toNat (field w 0 32) sc)) ∧
       LockFormDone (.lockTry a n sc) s u t n.toNat (fun _ => l)
         (some (a.toNat + 1,
           BitVec.ofNat 64 ((if phaseDone l (BitVec.ofNat 32 w) then 2 ^ 63 else 0) + l.bdone % 2 ^ 40)))
         (if phaseDone l (BitVec.ofNat 32 w) then joins else none)) ∧
     (l.eng = 0 → (∀ q ∈ (getCore s t.core).copyQ, ∀ c ∈ q, c.gone = true → c.lock ≠ n.toNat) →
       LockFormDone (.lockInval a n) s u t n.toNat (fun _ => { Lock.reset with joinc := l.joinc, joined := l.joined }) none none) ∧
     (byteWordOk w = true → t.woken = false → l.st = .valid → l.gate = true → l.gv = false →
       (l.phase.toNat % 2 = 0 → ∀ l1, lockFillStep l (BitVec.ofNat 64 w) = some l1 → ¬ lockBreaks l1 →
         LockFormDone (.lockFill a n) s u t n.toNat (fun r => lockAfter (if bitAt w 63 then lockReleased l1 r else l1))
           (some (a.toNat + 1, phase)) (some (true, acquires t .dev (relsOf (l.phase - 1#32))))) ∧
       (l.phase.toNat % 2 = 1 →
         Waits (.lockFill a n) s u t (.lockFill n.toNat (a.toNat + 1) (BitVec.ofNat 64 w) s.free))) ∧
     (l.st = .valid → l.gate = true → l.gv = false → l.phase.toNat % 2 = 1 → l.penda ≠ 0 →
       ¬ lockBreaks { l with penda := l.penda - 1 } →
       LockFormDone (.lockDrain a n) s u t n.toNat (fun r => lockAfter (lockReleased { l with penda := l.penda - 1 } r))
         (some (a.toNat + 1, phase)) none)) ∧
  (∀ (s : State) (core n : Nat), let l := getLock s core n
    (l.penda = 0 ∧ l.bdone = l.bexp → getLock (lockEval s core n) core n = lockAfter l ∧
      (lockAfter l).phase = l.phase + 1#32 ∧ (lockAfter l).bexp = 0 ∧ (lockAfter l).bdone = 0) ∧
    (l.penda ≠ 0 ∨ l.bdone < l.bexp → lockEval s core n = s) ∧
    (lockBreaks l → (getLock (lockEval s core n) core n).st = .broken)) ∧
  (∀ (l : Lock) (r : Rel), lockReleased l r = { l with rels := (lockReleased l r).rels } ∧
    ∃ q, (l.phase.toNat, q) ∈ (lockReleased l r).rels ∧ q.party = r.party ∧ q.scope = r.scope ∧ q.always = r.always ∧
      (∀ c ∈ r.view.seen, c ∈ q.view.seen) ∧ r.view.clock ≤ q.view.clock) ∧
  (∀ (l : Lock), phaseDone l l.phase = false ∧ phaseDone l (l.phase + 1#32) = false ∧ phaseDone l (l.phase - 1#32) = true)

/-- FORK and JOIN (R246-R251): the task stands first in the core's deque under the next identity of its launch, with what its FORK
releases, and the join count of its lock is one higher; JOIN goes on once the count reads zero, an acquire of the ends of the bound teams,
and else waits. -/
def Obligations.ForkPushesATask : Prop :=
  ∀ s u t, Issuing s u t → t.log = [] → t.zeros = [] →
    (∀ (a b : KReg) (n : BitVec 4) k, a.toNat + 1 ≤ 383 → b.toNat + n.toNat ≤ 384 → kernelOf s t.kid = some k →
      let w := (kreg t a.toNat).toNat
      let jl := field w 56 6
      w < 2 ^ 63 → w % 4 = 0 → (getCore s t.core).deque.length < 512 → k.nextId < 2 ^ 32 →
      (bitAt w 62 = true → (getLock s t.core jl).joinc ≠ 65535) →
      ∃ s' t', exec (.fork a b n) s = .next s' ∧ find? s'.teams u = some t' ∧ Bounded s { t with k := t'.k } t' ∧
        (∀ m, kreg t' m = if m = a.toNat + 1 then BitVec.ofNat 64 k.nextId else kreg t m) ∧
        s' = { s with teams := s'.teams, cores := s'.cores, kernels := s'.kernels } ∧
        (∀ m, m ≠ u → find? s'.teams m = find? s.teams m) ∧ SameBytes s s' ∧
        (getCore s' t.core).deque =
          ⟨t.kid, t.ctx, field w 0 56, (rangeFrom b.toNat n.toNat).map (kreg t), k.nextId, t.id, t.core, bitAt w 62, jl,
            ⟨(melded t).seen, (getCore s t.core).clock⟩⟩ ::
            (getCore s t.core).deque ∧
        kernelOf s' t.kid = some { k with nextId := k.nextId + 1 } ∧
        (∀ m, getLock s' t.core m =
          if m = jl ∧ bitAt w 62 = true then { getLock s t.core m with joinc := (getLock s t.core m).joinc + 1 }
          else getLock s t.core m)) ∧
    (∀ n : KReg, n.toNat ≤ 63 → let l := getLock s t.core n.toNat
      (t.woken = true ∨ l.joinc = 0 →
        ∃ s' t', exec (.join n) s = .next s' ∧ find? s'.teams u = some t' ∧
          Passed s { joined (ended t) l.joined with woken := false, snap := t'.snap } t' ∧ (t'.status = .ready → t'.snap = t'.flow) ∧
          Acquired s s' u t.core true l.joined) ∧
      (t.woken = false → l.joinc ≠ 0 → Waits (.join n) s u t (.join n.toNat)))

/-- COPY (R278-R282, R364, R391): a command whose descriptor passes the checks of R288, once the walks of its acceptance are done, is
appended to its queue, or holds its team until the queue has a place, and its lock counts one more command; what it does comes after all
that its team has seen. -/
def Obligations.CopyQueuesACommand : Prop :=
  ∀ s u t, Issuing s u t → t.log = [] → t.zeros = [] → ∀ (a n : KReg) (q : BitVec 2) (f : CopyForm), a.toNat + 4 ≤ 384 →
    let w := fun (i : Nat) => kreg t (a.toNat + i)
    let l := getLock s t.core n.toNat
    let queue := fun (s : State) => nth [] (getCore s t.core).copyQ q.toNat
    copyWalks s t f (w 0).toNat (w 1).toNat (w 2).toNat (w 3).toNat = none →
    copyCause s t f n.toNat (w 0).toNat (w 1).toNat (w 2).toNat (w 3).toNat = none → (getCore s t.core).copyQ.length = 4 →
    ∃ s' t' c, exec (.copy a n q f) s = .next s' ∧ find? s'.teams u = some t' ∧
      c.w0 = w 0 ∧ c.w1 = w 1 ∧ c.w2 = w 2 ∧ c.w3 = w 3 ∧ c.form = f ∧ c.lock = n.toNat ∧ c.off = 0 ∧ c.stall = none ∧
      c.uid = u ∧ c.team = t.id ∧ c.pc = s.issue.group ∧ c.view = ⟨(melded t).seen, (getCore s t.core).clock⟩ ∧
      (∀ m, getLock s' t.core m = if m = n.toNat then { l with eng := l.eng + 1 } else getLock s t.core m) ∧
      s' = { s with teams := s'.teams, cores := s'.cores, pound := s'.pound, stks := s'.stks } ∧ (∀ m, m ≠ u → find? s'.teams m = find? s.teams m) ∧
      SameBytes s s' ∧ t'.k = t.k ∧ t'.v = t.v ∧ t'.p = t.p ∧
      ((queue s).length < 8 → queue s' = queue s ++ [c] ∧ Bounded s t t') ∧
      (8 ≤ (queue s).length → queue s' = queue s ∧ t'.status = .waiting (.copyPlace q.toNat c s.free))

/-- COPY_UNIT_WRITE and COPY_RETRY for a tensor copy within the scratchpad (R274, R278, R281, R289, R391, R396), between bytes whose newest
writes its team had seen when it was accepted: the bytes of the next unit, as far as a gate lock lets them be counted, are those of the
source, and the command goes on after them. -/
def Obligations.CopyUnitsMoveTheirBytes : Prop :=
  ∀ (s : State) (core q : Nat) (k : Core) (c : CopyCmd) (rest : List CopyCmd), getCore s core = k →
    nth [] k.copyQ q = c :: rest → c.form = .tensor → q < 4 → k.copyQ.length = 4 →
    let h := shapeOf c
    let n := gateRoom (getLock s core c.lock) (unitLen h c.off)
    h.ssp = true → h.dsp = true → h.rb % 16 = 0 → 0 < h.rb → h.rb ≤ h.dstr → c.off % 16 = 0 → c.off < copyTotal h →
    openOps k = [] → k.spadPoison = [] → c.gone = false → lockAwaited s core c.lock = false →
    (∀ j < n, ∀ a, a = copySrc h (c.off + j) ∨ a = copyDst h (c.off + j) →
      Synced s c.view.seen (spadGrains core) a 1 (spadNow k)) →
    ∀ ev, (ev = .copyUnitWrite core q ∧ copyNext k = some q) ∨
        (ev = .copyRetry core q ∧ c.stall.isSome = true ∧ c.retryAt ≤ s.mgmt.time ∧ gateShut k c = false) →
    ∃ s1, exec ev s = .next (settle s1) ∧
      (∀ j < n, tabGet 0#8 (getCore s1 core).spad (copyDst h (c.off + j)) = tabGet 0#8 k.spad (copySrc h (c.off + j))) ∧
      (∀ x, (∀ j < n, x ≠ copyDst h (c.off + j)) → tabGet 0#8 (getCore s1 core).spad x = tabGet 0#8 k.spad x) ∧
      (c.off + n < copyTotal h → ∃ c', (nth [] (getCore s1 core).copyQ q).head? = some c' ∧ c'.off = c.off + n ∧
        c'.stall = none)

/-- MMA, MACS, ACCMV, ATTN and ATTN.FIN (R179, R184-R189, R195-R199, R321, R325-R329): an operation whose descriptor passes the checks
of R199 or R329 is accepted while its unit has a place, once the walks of the pages it touches are done (R364); an ATTN acquires the commits
that the CL it reads covers. -/
def Obligations.MatrixOperationsAreAccepted : Prop :=
  ∀ s u t, Issuing s u t → ∀ a : KReg,
    let w := fun (i : Nat) => kreg t (a.toNat + i)
    let n := fun (i : Nat) => (kreg t (a.toNat + i)).toNat
    let d := mvDesc (n 0) (n 1) (n 2)
    matFull s t.core t.part = false → (getCore s t.core).matQ.length = 4 →
    (t.log = [] → t.zeros = [] → a.toNat + 3 ≤ 384 → ∀ (f : MmaFmt) (acca pair zero : Bool),
      mmaCause s t.core f acca pair (n 0) (n 1) (n 2) = none →
      (bitAt (n 0) 23 = true → field (n 0) 16 7 + t.flow.x + aRegs t ≤ t.allot) →
      (pair = true → matFull s (t.core + 1) t.part = false ∧ (getCore s (t.core + 1)).matQ.length = 4) →
      MatAccepted (.mma a f acca pair zero) s u t s (.mma f acca pair zero) [w 0, w 1, w 2] true pair none
        (fun o => o.destTiles = [field (n 0) 0 8])) ∧
    (a.toNat + 3 ≤ 384 → ∀ f, macsCause s t.core f (n 0) (n 1) (n 2) = none →
      MatAccepted (.macs a f) s u t s (.macs f) [w 0, w 1, w 2] false false none (fun o => o.destTiles = [field (n 0) 8 8])) ∧
    (a.toNat + 3 ≤ 384 → ∀ c k, (c, k) ∈ [(Instr.accmvT2s a, MKind.t2s), (.accmvS2t a, .s2t), (.accmvT2t a, .t2t),
        (.accmvZero a, .zero)] → mvCause s t.core k (n 0) (n 1) (n 2) = none →
      MatAccepted c s u t s k [w 0, w 1, w 2] false false none (fun o => o.held = 0)) ∧
    (a.toNat + 3 ≤ 384 → ∀ c k l, (c, k) ∈ [(Instr.accmvT2g a, MKind.t2g), (.accmvG2t a, .g2t)] →
      mvCause s t.core k (n 0) (n 1) (n 2) = none →
      checkLanes s t 256 (if k = .t2g then .store else .load)
        ((List.range (mvRows d * mvRowLen d / 256)).map fun i => ⟨i, d.addr + 256 * i⟩) = .ok l →
      (k = .t2g → (debitBlocks (begun s) t.core t.ctx l).2 = none) →
      MatAccepted c s u t (if k = .t2g then (debitBlocks (begun s) t.core t.ctx l).1 else s) k [w 0, w 1, w 2] false false none
        (fun o => (o.held = if k = .t2g then debitSum l else 0) ∧ (k = .t2g → o.destBlocks = touchBlocks l))) ∧
    (t.log = [] → t.zeros = [] → a.toNat + 5 ≤ 384 → ∀ causal, attnCause s t.core causal n = none →
      let g := attnStep (txStart (atBoundary s) (.ctx t.ctx) false) (attnDesc n)
      let debits := attnDebits s t.ctx (n 2)
      let paid := if debits then debit8 g.tx.s (.core t.core) t.ctx else (g.tx.s, true)
      PagesKnown (atBoundary s) t (n 2) g.tx.pages → g.tx.replay = none → g.tx.hard = none → g.tx.bad58 = false →
      g.tx.bad59 = false → g.refused = false → paid.2 = true →
      MatAccepted (.attn a causal) s u t paid.1 (.attn causal)
        [w 0, w 1, w 2, w 3, w 4, BitVec.ofNat 64 (g.slg + g.tpg * 2 ^ 8)] true false (some (seqView s t.ctx (n 2) g.cl))
        (fun o => o.pages = g.pages ∧ o.voids = g.voids ∧ o.held = if debits then 8 else 0)) ∧
    (t.log = [] → t.zeros = [] → a.toNat ≤ 383 → n 0 < 2 ^ 18 →
      (∀ x ∈ attnTiles (attnDesc fun i => if i = 0 then n 0 else 0), x < actTiles (getCore s t.core).word) →
      MatAccepted (.attnFin a) s u t s .fin [w 0] true false none (fun o => o.held = 0))

/-- MFENCE.OPR, MFENCE.BATCH and MWAIT (R191-R194, R200, R391): what the team's registers hold, and what it has seen of memory, becomes
visible to its operations; the operations in no batch join the next one; and MWAIT goes on once none of the batches it names is queued, waits
while one is, and stops with 0x80 at the first failure it has to report. MWAIT lets early writes show their new values (R194), and the team
has seen what the operations it covers have made (R391). What has been seen as a list of numbered bytes is the model's (log 5, DESIGN
CHOICE). -/
def Obligations.BatchesAndTheirWait : Prop :=
  ∀ s u t, Issuing s u t →
    (∃ s' t', exec .mfenceOpr s = .next s' ∧ find? s'.teams u = some t' ∧ TeamOnly s s' u ∧
      Passed s { melded t with oprSeen := (melded t).seen, oprV := t.v } t') ∧
    (∀ a : KReg, a.toNat ≤ 383 →
      ∃ s' t', exec (.mfenceBatch a) s = .next s' ∧ find? s'.teams u = some t' ∧
        Passed s { t with k := t'.k, batch := t.batch + 1, failed := t'.failed } t' ∧
        (∀ n, kreg t' n = if n = a.toNat ∧ n ≠ 0 then BitVec.ofNat 64 (t.batch + 1) else kreg t n) ∧
        s' = { s with teams := s'.teams, cores := s'.cores } ∧ (∀ n, n ≠ u → find? s'.teams n = find? s.teams n) ∧
        (∀ n, getCore s' n = { getCore s n with matQ := (getCore s' n).matQ, matDone := (getCore s' n).matDone }) ∧
        (getCore s' t.core).matQ = (getCore s t.core).matQ.map (fun q => q.map (closeOps u (t.batch + 1))) ∧
        (getCore s' t.core).matDone = (getCore s t.core).matDone.map (closeOps u (t.batch + 1)) ∧
        (∀ f ∈ t'.failed, f.batch ≠ none)) ∧
    (∀ a : KReg, a.toNat ≤ 383 → (kreg t a.toNat).toNat ≤ t.batch →
      let n := (kreg t a.toNat).toNat
      let queued := (getCore s t.core).matQ.flatten.any (inBatches u n)
      let due := firstFail (t.failed.filter fun f => match f.batch with | some b => decide (b ≤ n) | none => false)
      (queued = false → due = none →
        let made := ((getCore s t.core).matDone.filter (inBatches u n)).flatMap (·.made)
        ∃ s' t', exec (.mwait a) s = .next s' ∧ find? s'.teams u = some t' ∧
          Passed s { joined (melded t) ⟨made, 0⟩ with v := tabSetAll 0#32 t.v t.late, late := [] } t' ∧
          s' = { s with teams := s'.teams, cores := s'.cores } ∧
          (∀ m, m ≠ u → find? s'.teams m = find? s.teams m) ∧
          (∀ m, getCore s' m = { getCore s m with
            matDone := (getCore s' m).matDone, spad := (getCore s' m).spad, lateSpad := (getCore s' m).lateSpad }) ∧
          (getCore s' t.core).matDone = ((getCore s t.core).matDone.filter fun o => !(inBatches u n o)) ∧
          ∀ m x, tabGet 0#8 (getCore s' m).spad x ≠ tabGet 0#8 (getCore s m).spad x →
            (m = t.core ∨ m = t.core + 1) ∧
              ∃ e ∈ (getCore s m).lateSpad, e.1 = x ∧ e.2 = tabGet 0#8 (getCore s' m).spad x) ∧
      (queued = true → ∃ s' t', exec (.mwait a) s = .next s' ∧ find? s'.teams u = some t' ∧ TeamOnly s s' u ∧
        t' = { t with cur := s.issue, booking := t'.booking, status := .waiting (.mwait n) }) ∧
      (queued = false → ∀ f, due = some f → (getCore s t.core).stop = none → t.ctx ≠ 0 →
        ∃ s1 t' rec, exec (.mwait a) s = .next (settle s1) ∧ find? s1.teams u = some t' ∧ StopOnly s s1 u t.core ∧
          t'.failed = (t.failed.filter fun x => x != f) ∧ (getCore s1 t.core).stop = some ⟨some u, 0x80, false, rec⟩))

/-- MATRIX_OP_RETIRE (R72, R73, R77-R79, R180, R185-R187, R189, R195-R197, R326, R330-R333), of an operation of each kind that nothing of
R194, R200 and R411 befalls and whose reads synchronize with the newest writes (R191, R396): what it leaves in its tiles, row pairs,
scratchpad or device memory, the flags it raises in its unit, and nothing else. The products, sums and conversions in whose terms the values
stand are those of FloatValues. That the newest bytes are what such a read finds rests on the model's records of writes (log 5, DESIGN
CHOICE), and that the running maximum is memory row 64 on log 65 (DESIGN CHOICE). -/
def Obligations.MatrixOperationsRetire : Prop :=
  (∀ (s : State) (core part : Nat) (o : MOp) (rest : List MOp), RetiringHead s core part o rest → o.slave = false → o.asks = [] →
    let k := getCore s core
    let keep := coreKeeps k
    let w := opWord o
    let d := mvDesc (w 0) (w 1) (w 2)
    let es := mvElem d.fmt
    let all := List.range 64
    let id := (getTeam s o.uid).ctx
    let ends := fun (r : RetireOut) (mem : Nat → Byte) (P : State → Prop) => Retired s core part [(core, o, rest, r)] mem P
    let same := memByte s.mem
    let outEl := fun (i j : Nat) => mvOut d.fmt (keep.tile d.t i j).toNat
    let outRow := fun (i : Nat) =>
      if i < 64 then all.flatMap fun j => bytesOf es (outEl i j).1
      else all.flatMap fun j => bytesOf 4 (if i = 64 then (keep.pair d.t j).1 else (keep.pair d.t j).2).toNat
    let outFl := flagAll (all.flatMap fun i => all.map fun j => (outEl i j).2)
    let into := fun (byte : Nat → Nat → List Byte) => { keep with
      tile := fun t i j => if t = d.t then BitVec.ofNat 32 (mvIn d.fmt (natOf (byte (mvRowLen d * i + es * j) es))).1 else keep.tile t i j
      pair := fun t i => if d.rows = true ∧ t = d.t then
          (BitVec.ofNat 32 (natOf (byte (256 * 64 + 4 * i) 4)), BitVec.ofNat 32 (natOf (byte (256 * 65 + 4 * i) 4)))
        else keep.pair t i
      fl := flagAll (all.flatMap fun i => all.map fun j => (mvIn d.fmt (natOf (byte (mvRowLen d * i + es * j) es))).2) }
    (∀ f acca zero, o.kind = .mma f acca false zero → let m := mmaDesc (w 0) (w 1) (w 2)
      (acca = false → m.ar = false → RowsSynced s core o.seen m.spa m.sta 64 64) → RowsSynced s core o.seen m.spb m.stb 64 64 →
      ends (mmaOut k o f acca zero m fun j => rowElems f (spadBytes k (m.spb + j * m.stb) 64)) same (coresOnly s)) ∧
    (∀ f, o.kind = .macs f → let src := field (w 0) 0 8
      let dst := field (w 0) 8 8
      let sz := scaleBytes f
      RowsSynced s core o.seen (field (w 1) 0 32) 0 (64 * sz) 1 → RowsSynced s core o.seen (field (w 1) 32 32) 0 (64 * sz) 1 →
      let scale := fun (a i : Nat) => scaleVal f (spadBytes k (a + sz * i) sz)
      let p := fun (i j : Nat) => matProd3 (fval fmtF32 (keep.tile src i j).toNat) (scale (field (w 1) 0 32) i) (scale (field (w 1) 32 32) j)
      let el := fun (i j : Nat) => deliver fmtF32 .rne false
        (if src = dst then p i j else fvAdd .rne (fval fmtF32 (keep.tile dst i j).toNat) (p i j))
      ends { keep with
        tile := fun t i j => if t = dst then BitVec.ofNat 32 (el i j).1 else keep.tile t i j
        fl := flagAll (all.flatMap fun i => all.map fun j => (el i j).2) } same (coresOnly s)) ∧
    (o.kind = .zero → ends { keep with
      tile := fun t i j => if t = d.t then 0#32 else keep.tile t i j
      pair := fun t i => if d.rows = true ∧ t = d.t then (0xFF800000#32, 0#32) else keep.pair t i } same (coresOnly s)) ∧
    (o.kind = .t2t → ends { keep with
      tile := fun t i j => if t = d.u then keep.tile d.t i j else keep.tile t i j
      pair := fun t i => if d.rows = true ∧ t = d.u then keep.pair d.t i else keep.pair t i } same (coresOnly s)) ∧
    (o.kind = .t2s → mvCause s core .t2s (w 0) (w 1) (w 2) = none → o.destSpad = spadRows d.addr d.str (mvRowLen d) (mvRows d) →
      RowsSynced s core o.made d.addr d.str (mvRowLen d) (mvRows d) →
      ends { keep with
        spad := fun x =>
          match (List.range (mvRows d)).find? fun i => decide (d.addr + i * d.str ≤ x) && decide (x < d.addr + i * d.str + mvRowLen d) with
          | some i => nth 0#8 (outRow i) (x - (d.addr + i * d.str))
          | none => keep.spad x
        fl := outFl } same fun s1 =>
          s1 = { s with teams := s1.teams, cores := s1.cores, hist := s1.hist, nextWrite := s1.nextWrite }) ∧
    (o.kind = .s2t → (d.rows = true → d.fmt = 0) → RowsSynced s core o.seen d.addr d.str (mvRowLen d) (mvRows d) →
      ends (into fun x n => spadBytes k (d.addr + x / mvRowLen d * d.str + x % mvRowLen d) n) same (coresOnly s)) ∧
    (∀ key : Nat → Nat, o.kind = .t2g → (d.rows = true → d.fmt = 0) → d.addr % 256 = 0 →
      let n := mvRows d * mvRowLen d / 256
      (∀ i < n, (∃ bits, loggedPlace s id (d.addr + 256 * i) = some (.dev (256 * key i), bits)) ∧ (metaOf s (key i)).poison = false ∧
        Synced s o.made 0 (256 * key i) 256 (memByte s.mem) ∧
        ∀ e ∈ s.cores, (openOps e.2).any (storesTo (some (core, o.unit)) (0, key i) e.1) = false) →
      (∀ i < n, ∀ j < n, key i = key j → i = j) →
      ends { keep with fl := outFl }
        (fun x => match (List.range n).find? fun i => x / 256 == key i with
          | some i => let y := 256 * i + x % 256
            nth 0#8 (outRow (y / mvRowLen d)) (y % mvRowLen d)
          | none => memByte s.mem x) fun _ => True) ∧
    (∀ key : Nat → Nat, o.kind = .g2t → (d.rows = true → d.fmt = 0) → d.addr % 256 = 0 →
      EngineReads s id o.seen d.addr (mvRows d * mvRowLen d) key →
      ends (into fun x n => engineBytes s key (d.addr + x) n) same fun _ => True) ∧
    (o.kind = .fin → let a := attnDesc w
      let el := fun (t i j : Nat) =>
        if (keep.pair a.dt i).2 = 0#32 then ((0 : Nat), FlagSet.none)
        else deliver fmtF32 .rne false (fvDiv (fval fmtF32 (keep.tile t i j).toNat) (fval fmtF32 (keep.pair a.dt i).2.toNat))
      ends { keep with
        tile := fun t i j => if t ∈ attnTiles a ∧ i < a.nq then BitVec.ofNat 32 (el t i j).1 else keep.tile t i j
        fl := flagAll ((attnTiles a).flatMap fun t => (List.range a.nq).flatMap fun i => all.map fun j => (el t i j).2) }
        same (coresOnly s)) ∧
    (∀ (causal : Bool) (key : Nat → Nat) (ctr : Nat), o.kind = .attn causal → let a := attnDesc w
      let n := 2 ^ (field (w 5) 8 8 + 4)
      let va := fun (base j : Nat) => base + j % n * 2 ^ field (w 5) 0 8
      (o.pages.map (·.1)).Nodup → RowsSynced s core o.seen a.qaddr a.qstr (attnRow a) a.nq →
      (∀ e ∈ o.pages, ∀ base, e.2 = some base → ∀ j, j / n = e.1 → keyWanted o a causal j = true →
        EngineReads s id (joinSeen o.seen o.made) (va base j) (2 * attnRow a) key) →
      let absent := (o.pages.filter fun e => e.2.isNone && (rangeFrom (e.1 * n) n).any (keyWanted o a causal)).length
      (absent ≠ 0 → (∃ bits, loggedPlace s id (w 2) = some (.dev ctr, bits)) ∧ ctr % 64 = 0 ∧ (metaOf s (ctr / 256)).poison = false ∧
        Unstored s (ctr / 256)) →
      let at_ := fun (j : Nat) => match find? o.pages (j / n) with
        | some (some base) =>
          let bs := engineBytes s key (va base j) (2 * attnRow a)
          some (KvRow.mk j (floatElems (attnFmt a) (bs.take (attnRow a))) (floatElems (attnFmt a) (bs.drop (attnRow a))))
        | _ => none
      let kv := ((rangeFrom a.p0 (a.p1 - a.p0)).filter (keyWanted o a causal)).filterMap at_
      let q := fun (i : Nat) => floatElems (attnFmt a) (spadBytes k (a.qaddr + i * a.qstr) (attnRow a))
      let row := fun (i : Nat) => ((List.range (ceilDiv (a.p1 - a.p0) 64)).map fun b => a.p0 + 64 * b).foldl (attnBlock a causal kv (q i) i)
        ⟨(keep.pair a.dt i).1.toNat, (keep.pair a.dt i).2.toNat,
          (attnTiles a).flatMap fun t => all.map fun j => (keep.tile t i j).toNat, FlagSet.none⟩
      let count := min (memNat s.mem (ctr + 44) 4 + absent) (2 ^ 32 - 1)
      ends { keep with
        tile := fun t i j => if t ∈ attnTiles a ∧ i < a.nq then BitVec.ofNat 32 (nth 0 (row i).o (64 * (t - a.dt) + j)) else keep.tile t i j
        pair := fun t i => if t = a.dt ∧ i < a.nq then (BitVec.ofNat 32 (row i).m, BitVec.ofNat 32 (row i).l) else keep.pair t i
        fl := flagAll ((List.range a.nq).map fun i => (row i).fl)
        approx := decide (absent ≠ 0) }
        (fun x => if absent ≠ 0 ∧ ctr + 44 ≤ x ∧ x < ctr + 48 then nth 0#8 (bytesOf 4 count) (x - (ctr + 44)) else memByte s.mem x)
        fun _ => True)) ∧
  (∀ (s : State) (core part : Nat) (o so : MOp) (rest srest : List MOp) f acca zero, o.kind = .mma f acca true zero → o.slave = false →
    so.slave = true → so.order = o.order → o.asks = [] → so.asks = [] →
    RetiringHead s core part o rest → RetiringHead s (core + 1) part so srest →
    let m := mmaDesc (opWord o 0) (opWord o 1) (opWord o 2)
    m.ar = false → so.desc = o.desc → (acca = false →
      RowsSynced s core o.seen m.spa m.sta 64 64 ∧ RowsSynced s (core + 1) so.seen m.spa m.sta 64 64) →
    RowsSynced s core o.seen m.spb m.stb 64 64 →
    let col := fun (j : Nat) => rowElems f (spadBytes (getCore s core) (m.spb + j * m.stb) 64)
    Retired s core part [(core, o, rest, mmaOut (getCore s core) o f acca zero m col),
      (core + 1, so, srest, mmaOut (getCore s (core + 1)) so f acca zero m col)] (memByte s.mem) (coresOnly s)) ∧
  (∀ (d : AttnDesc) (causal : Bool) (kv : List KvRow) (q : List FVal) (i : Nat) (r : AttnRow) (base : Nat),
    let js := rangeFrom base 64
    let live := liveKey kv d causal i
    let score := fun (j : Nat) => match live j with
      | some x => (deliver fmtF32 .rne false (matProd (fval fmtF32 (dotInto (attnGroup d) q x.k 0).1) (fval fmtF32 d.scale))).1
      | none => 0xFF800000
    let mn := js.foldl (fun m j => (fmnxVal true false fmtF32 m (score j)).1) r.m
    let c := fval fmtF32 (xexp r.m mn).1
    let p := fun (j : Nat) => if (live j).isSome then (convF (attnFmt d) .rne (fval fmtF32 (xexp (score j) mn).1)).1 else 0
    let r' := attnBlock d causal kv q i r base
    (mn = 0xFF800000 → r'.m = r.m ∧ r'.l = r.l ∧ r'.o = r.o) ∧
    (mn ≠ 0xFF800000 →
      r'.m = mn ∧
      r'.l = (deliver fmtF32 .rne false
        (fvAdd .rne (matProd c (fval fmtF32 r.l)) (plusZero (fvSum (js.map fun j => fval (attnFmt d) (p j)))))).1 ∧
      r'.o.length = r.o.length ∧
      ∀ (e x : Nat), r.o[e]? = some x → r'.o[e]? = some (dotInto (attnGroup d) (js.map fun j => fval (attnFmt d) (p j))
        (js.map fun j => match live j with | some y => nth (.fin false 0 0) y.v e | none => .fin false 0 0)
        (deliver fmtF32 .rne false (matProd c (fval fmtF32 x))).1).1))

/-- SEQ, PTREE and KVT forms (R302, R321-R324, R387): a form whose operand words keep their form, whose pages' walks are done (R364), whose
transaction meets no fault and whose debit is covered completes. Its result is in its register; what the loom has stored is in
memory; KVT's rows are in the scratchpad (R319); the team knows at least what it knew, and no other register of it has changed. LEN and a
LOOKUP that returns no status are acquires, LEN of what the commits below the CL it reads have released; COMMIT and VOID release what the
team has seen; and every other form leaves each core's L1 as it is, since it orders nothing else (R321).
What the transactions
come to is LoomValues and FlatSequenceResults. LAUNCH (R231, R232, R321): a packet aligned to 128 bytes is appended to an OPEN queue of the team's context, its slot is the result, and
the commit is a release; a reservation that fails gives its status. What a team has seen and a sequence's releases as lists are the model's
(log 5, DESIGN CHOICE). -/
def Obligations.LoomFormsComplete : Prop :=
  (∀ s u t, Issuing s u t → t.log = [] → t.zeros = [] → s.peers = [] → ∀ (c : Instr) (q : LoomReq) (s2 : State),
     loomReq t c = some q → loomLastReg c ≤ 383 →
     (∀ e, ropeWrites t c = some e → e.1 + e.2.length ≤ spgBytes (getCore s t.core).word ∧ openOps (getCore s t.core) = [] ∧
       (getCore s t.core).spadPoison = [] ∧ SpadSynced s (melded t) e.1 e.2.length) →
     let sb := atLoom s q.bound
     let r := q.act (txStart sb (.ctx t.ctx) false)
     PagesKnown sb t q.handle r.tx.pages → txFinish r.tx (loomDie sb (.ctx t.ctx) q.handle) (.core t.core) = .done s2 →
     let t0 := if q.bound then ended t else melded t
     let acquires := match c with
       | .seqLen .. => true
       | .ptreeLookup .. => decide (r.res < 2 ^ 63)
       | _ => false
     ∃ s1 t', exec c s = .next (settle s1) ∧ find? s1.teams u = some t' ∧
       Passed s { t0 with k := t'.k, seen := t'.seen, snap := t'.snap } t' ∧
       (t'.status = .ready → t'.snap = if q.bound then t'.flow else t.snap) ∧
       (∀ n, kreg t' n = if q.reg = some n ∧ n ≠ 0 then BitVec.ofNat 64 r.res else kreg t n) ∧
       (∀ x ∈ t0.seen, x ∈ t'.seen) ∧
       (acquires = true → (getCore s1 t.core).l1 = []) ∧
       (∀ n, n ≠ t.core ∨ acquires = false → (getCore s1 n).l1 = (getCore s n).l1) ∧
       (match c with
        | .seqLen .. => ∀ x ∈ (seqView s2 t.ctx q.handle (r.res % 2 ^ 32)).seen, x ∈ t'.seen
        | .seqCommit a _ | .seqVoid a _ =>
          ∃ v : View, v.seen = t'.seen ∧ ⟨t.ctx, q.handle, field (kWords t a 0) 0 32 + 1, v⟩ ∈ s1.seqRels
        | _ => True) ∧
       (∀ x, memByte s1.mem x = memByte s2.mem x) ∧ (∀ x, memByte s1.tspace x = memByte s2.tspace x) ∧
       (∀ x, memByte s1.hostMem x = memByte s2.hostMem x) ∧ OthersWoken s s1 u ∧
       (∀ n x, (∀ o ∈ (getCore s n).matDone, o.destSpad = [] ∨ opWord o 2 ≠ q.handle) → tabGet 0#8 (getCore s1 n).spad x =
         match ropeWrites t c with
         | some (a, bs) => if n = t.core ∧ r.res < 2 ^ 63 ∧ a ≤ x ∧ x < a + bs.length then (bs[x - a]?).getD 0#8
           else tabGet 0#8 (getCore s n).spad x
         | none => tabGet 0#8 (getCore s n).spad x)) ∧
  (∀ s u t, Issuing s u t → t.log = [] → t.zeros = [] → ∀ (a b : KReg) (s2 : State), a.toNat + 1 ≤ 383 → b.toNat ≤ 383 →
     let h := (kreg t a.toNat).toNat
     let p := (kreg t b.toNat).toNat
     p % 128 = 0 →
     let r := loomLaunch (txStart (atBoundary s) (.ctx t.ctx) false) t.ctx h p
     r.notQueue = false → r.forbid = none → r.poison = none → PagesKnown (atBoundary s) t h r.out.tx.pages →
     txFinish r.out.tx (loomDie (atBoundary s) (.ctx t.ctx) h) (.core t.core) = .done s2 →
     ∃ s1 t', exec (.launch a b) s = .next (settle s1) ∧ find? s1.teams u = some t' ∧ Bounded s { t with k := t'.k } t' ∧
       (∀ n, kreg t' n = if n = a.toNat + 1 then BitVec.ofNat 64 r.out.res else kreg t n) ∧
       (r.out.res < 2 ^ 63 → ∃ v : View, v.seen = t'.seen ∧ ⟨t.ctx, h, r.out.res + 1, v⟩ ∈ s1.seqRels) ∧
       (∀ x, memByte s1.mem x = memByte s2.mem x) ∧ (∀ x, memByte s1.tspace x = memByte s2.tspace x) ∧
       (∀ x, memByte s1.hostMem x = memByte s2.hostMem x) ∧ OthersWoken s s1 u ∧ ∀ n, (getCore s1 n).l1 = (getCore s n).l1)

/-- What the operations of the loom come to (R293-R319), in any space, for an operation that has met no fault, where the ranges it works on do
not meet and the entries lie within the pool: the fields of a header; the order of a reservation's statuses; COMMIT and VOID close their
slots and move CL over every filled one; ADDR and KVT.page find a page through at most four tables; a reservation in a key-value
sequence takes absent pages and copies shared ones; FORK writes the child's header and shares or flattens; LOOKUP installs the longest
matching path in a fresh sequence, or in one that still holds just what a lookup installed; INSERT passes over a page that a child matches
and else links a new node; UNREF drops what a sequence holds, and what its DRAINING ancestors hold, and frees the pages that come to 0;
and KVT's rows stand in their order, the positions rounded to 24 bits. How near the angles lie is not stated (log 20, UNVERIFIED), and that
M + 1 rows are written is log 35 (DEDUCED). -/
def Obligations.LoomValues : Prop :=
  (∀ (h : Nat) (w : Nat → BitVec 64),
    let hd := hdrOf h ((List.range 9).map fun i => (w i).toNat)
    let f := fun (i lo n : Nat) => ((w i).extractLsb' lo n).toNat
    let kv := (w 5).getLsbD 1
    hd.at_ = h ∧ hd.cl = f 0 0 32 ∧ hd.rl = f 0 32 32 ∧ hd.cap = f 1 0 32 ∧ hd.slg = f 1 32 5 ∧ hd.tpg = f 1 37 3 ∧ hd.ring = f 1 40 5 ∧
    hd.pt = f 2 0 56 ∧ hd.parent = (if kv then f 3 0 56 else 0) ∧ hd.tail = (if kv then 0 else f 3 0 32) ∧ hd.flen = f 4 0 32 ∧
    hd.depth = f 4 32 2 ∧ hd.prc = f 4 40 24 ∧ hd.queue = (w 5).getLsbD 0 ∧ hd.kv = kv ∧ hd.released = (w 5).getLsbD 2 ∧
    hd.done = (w 5).getLsbD 3 ∧ hd.lkup = (w 5).getLsbD 4 ∧ hd.approx = f 5 32 32 ∧ hd.fbm = f 6 0 56 ∧ hd.wlg = f 6 56 5 ∧
    hd.vmap = f 7 0 56 ∧ hd.pool = f 8 0 56) ∧
  (∀ hd n, (reserveStatus hd n).toList =
    (([(hd.released, 5), (hd.kv && decide (2 ^ 28 < hd.rl + n), 2), (decide (hd.cap < hd.rl + n), 1),
        (decide (hd.ring ≠ 0 ∧ hd.tail + 2 ^ hd.ring < hd.rl + n), 9), (decide (hd.cl + 2 ^ hd.wlg < hd.rl + n), 3)].filter
      (·.1)).map (·.2)).take 1) ∧
  (∀ (s : State) (sp : Space) (host : Bool) (h : Nat),
    let t := txStart s sp host
    let m := txByte t
    let hd := hdrIn m h
    let p := poolIn m hd.pool
    let n := slotsOf hd
    (∀ void base len, let o := loomClose t void h base len
      let close := fun (x : Nat) => base ≤ x ∧ x < base + len
      let filled := fun (x : Nat) => bitIn m hd.fbm (x % 2 ^ hd.wlg) = true
      let maps := (h, 64) :: (hd.fbm, 2 ^ hd.wlg / 8) :: if void then [(hd.vmap, (hd.rl + 7) / 8)] else []
      let m' := afterTx m o.tx
      txOk o.tx = true → hd.rl ≤ hd.cl + 2 ^ hd.wlg → Apart maps →
      hd.released = false ∧ (void = true → hd.vmap ≠ 0) ∧ (∀ x, close x → hd.cl ≤ x ∧ x < hd.rl ∧ ¬ filled x) ∧
      o.res = 0 ∧ WritesIn o.tx maps ∧
      ∃ c, hd.cl ≤ c ∧ c ≤ hd.rl ∧ (∀ x, hd.cl ≤ x → x < c → filled x ∨ close x) ∧ (c < hd.rl → ¬ filled c ∧ ¬ close c) ∧
        o.cl = (if c = hd.cl then none else some c) ∧ natIn m' h 4 = c ∧ natIn m' (h + 4) 4 = hd.rl ∧
        (∀ x, hd.cl ≤ x → x < hd.rl → (bitIn m' hd.fbm (x % 2 ^ hd.wlg) = true ↔ c ≤ x ∧ (filled x ∨ close x))) ∧
        (∀ i < 2 ^ hd.wlg, (∀ x, hd.cl ≤ x → x < hd.rl → x % 2 ^ hd.wlg ≠ i) → bitIn m' hd.fbm i = bitIn m hd.fbm i) ∧
        (void = true → ∀ x < hd.rl, bitIn m' hd.vmap x = (bitIn m hd.vmap x || decide (close x)))) ∧
    (hd.kv = true → (∀ slot, let o := loomAddr t h slot
        txOk o.tx = true →
        if hd.rl ≤ slot then IsStatus o 8
        else match entryIn m 4 hd (slot / n) true with
          | none => IsStatus o 8
          | some e => o.tx.buf = [] ∧ o.cl = none ∧ o.res = (p.pbase + pidx e.1 * sizeOfPage hd + slot % n * 2 ^ hd.slg) % 2 ^ 56) ∧
      (∀ pos, let o := loomKvtPage t h pos
        txOk o.tx = true →
        if hd.rl ≤ pos then IsStatus o 8
        else match entryIn m 4 hd (pos / n) true with
          | none => IsStatus o 8
          | some e => o.tx.buf = [] ∧ o.cl = none ∧ o.res = (p.pbase + pidx e.1 * sizeOfPage hd) % 2 ^ 56) ∧
      (∀ len, let o := loomReserve t h len
        let at_ := fun (i : Nat) => entryIn m 4 hd i true
        let needed := (rangeFrom (hd.rl / n) ((hd.rl + len - 1) / n + 1 - hd.rl / n)).filter fun i =>
          match at_ i with
          | none => true
          | some e => !e.2 || (!eW e.1 && decide (1 < natIn m (p.pcnt + 4 * pidx e.1) 4))
        let new := fun (j : Nat) => natIn m (p.pfree + 4 * (p.ptop - 1 - j)) 4
        let news := (List.range needed.length).map new
        let olds := needed.filterMap at_
        let all := ceilDiv (hd.rl + len) n
        let m' := afterTx m o.tx
        txOk o.tx = true → 1 ≤ len →
        match reserveStatus hd len with
        | some c => IsStatus o c
        | none =>
          if p.ptop < needed.length then IsStatus o 4
          else
            Apart (lineLands all (lineIn m 4 hd) ++ poolLands p hd) → EntriesWithin p (heldIn m hd all) →
            (∀ q ∈ news, q < p.npage ∧ q ∉ (heldIn m hd all).map (fun e => pidx e.1)) → news.Nodup →
            (∀ e ∈ olds, olds.countP (fun x => pidx x.1 == pidx e.1) ≤ natIn m (p.pcnt + 4 * pidx e.1) 4) →
            (∀ c, 0 < c → c < p.nnode → olds.countP (fun x => x.2 && eNode x.1 == c) ≤ natIn m (p.nbase + 128 * c + 12) 4) →
            o.res = hd.rl ∧ o.cl = none ∧ natIn m' h 4 = hd.cl ∧ natIn m' (h + 4) 4 = hd.rl + len ∧
            natIn m' (p.at_ + 32) 4 = p.ptop - needed.length ∧
            CountsAre m' p
              (fun q => if q ∈ news then 1 else natIn m (p.pcnt + 4 * q) 4 - olds.countP fun x => pidx x.1 == q)
              (fun c => natIn m (p.nbase + 128 * c + 12) 4 - olds.countP fun x => x.2 && eNode x.1 == c) ∧
            (∀ j i, needed[j]? = some i → natIn m' (hd.pt + 8 * i) 8 = new j + 2 ^ 62 + 2 ^ 63 ∧
              ∀ e, at_ i = some e → ∀ x < sizeOfPage hd,
                m' (p.pbase + new j * sizeOfPage hd + x) = m (p.pbase + pidx e.1 * sizeOfPage hd + x)) ∧
            WritesIn o.tx ([(h, 8), (p.at_ + 32, 4), (p.pcnt, 4 * p.npage), (p.nbase, 128 * p.nnode)] ++
              needed.map (fun i => (hd.pt + 8 * i, 8)) ++ news.map fun q => (p.pbase + q * sizeOfPage hd, sizeOfPage hd)))) ∧
    (∀ w, let o := loomFork t h w
      let len := w 4
      let np := ceilDiv len n
      let held := heldIn m hd np
      let m' := afterTx m o.tx
      let over_ := decide (len ≠ 0 ∧ hd.depth < 3)
      forkDescOk w = true → txOk o.tx = true →
      hd.kv = true ∧
      if hd.released then IsStatus o 5
      else if hd.cl < len then IsStatus o 10
      else
        Apart ((w 0, 72) :: (w 1, 8 * np) :: (lineLands np (lineIn m 4 hd) ++ poolLands p hd)) → EntriesWithin p held →
        held.length = np →
        o.res = w 0 ∧ o.cl = none ∧
        (List.range 9).map (fun i => natIn m' (w 0 + 8 * i) 8) =
          [len + len * 2 ^ 32, hd.cap + hd.slg * 2 ^ 32 + hd.tpg * 2 ^ 37, w 1, if over_ then h else 0,
            len + (if over_ then hd.depth + 1 else 0) * 2 ^ 32, 2, w 2, w 3, hd.pool] ∧
        natIn m' (h + 32) 8 = hd.flen + hd.depth * 2 ^ 32 + (hd.prc + over_.toNat) % 2 ^ 24 * 2 ^ 40 ∧
        CountsAre m' p (fun q => (natIn m (p.pcnt + 4 * q) 4 + held.countP fun x => pidx x.1 == q) % 2 ^ 32)
          (fun c => (natIn m (p.nbase + 128 * c + 12) 4 + if over_ then 0 else held.countP fun x => eNode x.1 == c) % 2 ^ 32) ∧
        (over_ = false → ∀ i e, held[i]? = some e → natIn m' (w 1 + 8 * i) 8 = pidx e.1 + eNode e.1 * 2 ^ 32 + 2 ^ 63) ∧
        WritesIn o.tx ([(w 0, 72), (h + 32, 8), (p.pcnt, 4 * p.npage)] ++
          if over_ then [] else [(w 1, 8 * np), (p.nbase, 128 * p.nnode)])) ∧
    (∀ arr count, let o := loomLookup t h arr count
      let ent := fun (i : Nat) => natIn m (hd.pt + 8 * i) 8
      let all := ceilDiv hd.cap n
      let m' := afterTx m o.tx
      let fresh := fun (m0 : Nat) => hd.parent = 0 ∧ hd.cl = hd.rl ∧ hd.cl = m0 * n ∧ (m0 ≠ 0 → hd.lkup = true) ∧ m0 ≤ all ∧
        (∀ i < m0, (ent i).testBit 63 = true ∧ eNode (ent i) ≠ 0) ∧ ∀ i, m0 ≤ i → i < all → (ent i).testBit 63 = false
      txOk o.tx = true →
      hd.kv = true ∧
      if hd.released then IsStatus o 5
      else
        ((∀ m0, ¬ fresh m0) → IsStatus o 7) ∧
        ∀ m0, fresh m0 → Apart ((arr, 4 * count) :: (lineLands all [hd] ++ poolLands p hd)) → TreeWithin m p →
          let old := (List.range m0).map ent
          EntriesWithin p (old.map fun e => (e, true)) → (∀ e ∈ old, m0 < natIn m (p.pcnt + 4 * pidx e) 4) →
          (∀ e ∈ old, m0 ≤ natIn m (p.nbase + 128 * eNode e + 12) 4) →
          let cs := pathIn m hd p arr (min (count / n) (min (hd.cap / n) (2 ^ 28 / n))) 0 0
          let page := fun (c : Nat) => natIn m (p.nbase + 128 * c + 8) 4
          let len := cs.length * n
          o.res = cs.length ∧ o.cl = (if hd.cl < len then some len else none) ∧ natIn m' h 4 = len ∧ natIn m' (h + 4) 4 = len ∧
          natIn m' (h + 40) 4 = 2 ^ 1 + 2 ^ 4 ∧
          (∀ j c, cs[j]? = some c → natIn m' (hd.pt + 8 * j) 8 = page c + c * 2 ^ 32 + 2 ^ 63) ∧
          (∀ j, cs.length ≤ j → j < m0 → natIn m' (hd.pt + 8 * j) 8 = 0) ∧
          CountsAre m' p
            (fun q => (natIn m (p.pcnt + 4 * q) 4 - old.countP (fun e => pidx e == q) + cs.countP fun c => page c == q) % 2 ^ 32)
            (fun c => (natIn m (p.nbase + 128 * c + 12) 4 - old.countP (fun e => eNode e == c) + cs.count c) % 2 ^ 32) ∧
          WritesIn o.tx [(h, 8), (h + 40, 4), (hd.pt, 8 * all), (p.pcnt, 4 * p.npage), (p.nbase, 128 * p.nnode)]) ∧
    (∀ arr, let o := loomInsert t h arr
      txOk o.tx = true →
      hd.kv = true ∧
      if hd.released then IsStatus o 5
      else ∃ t1, t1.buf = [] ∧ (∀ x, txByte t1 x = m x) ∧
        let g := insertWalk hd p arr (hd.cl / n) 0 ⟨t1, 0, 0, false⟩
        o = ⟨g.tx, if g.full then 2 ^ 63 + 11 * 2 ^ 56 else g.count, none⟩) ∧
    (let o := loomUnref t h
      let m' := afterTx m o.tx
      let ref := 2 ^ 1 + 2 ^ 2 + (if hd.lkup then 2 ^ 4 else 0)
      txOk o.tx = true →
      hd.kv = true ∧ o.res = 0 ∧ o.cl = none ∧
      (hd.released = true → o.tx.buf = []) ∧
      (hd.released = false → hd.prc ≠ 0 →
        natIn m' (h + 40) 4 = ref + (if hd.done then 2 ^ 3 else 0) ∧ WritesIn o.tx [(h + 40, 4)]) ∧
      (hd.released = false → hd.prc = 0 → ∀ np,
        let line := lineIn m 9 hd
        let levels := dropsIn m 5 hd
        let pagesOf := fun (q : Hdr) => ceilDiv (max q.rl q.flen) (slotsOf q)
        let held := fun (q : Hdr) => heldIn m q (pagesOf q)
        let cnt := fun (l : List Hdr) (q : Nat) => (l.map fun x => (held x).countP fun e => pidx e.1 == q).sum
        let refs := fun (c : Nat) => (levels.map fun x => (held x).countP fun e => e.2 && eNode e.1 == c).sum
        let freed := (List.range levels.length).flatMap fun j => (List.range p.npage).filter fun q =>
          decide (cnt ((levels.drop j).take 1) q ≠ 0) && decide (natIn m (p.pcnt + 4 * q) 4 = cnt (levels.take (j + 1)) q)
        (∀ q ∈ line, pagesOf q ≤ np ∧ q.tpg = hd.tpg ∧ q.kv = true) → Apart (lineLands np line ++ poolLands p hd) →
        (∀ q ∈ levels, EntriesWithin p (held q)) → (∀ q < p.npage, cnt levels q ≤ natIn m (p.pcnt + 4 * q) 4) →
        (∀ c, 0 < c → c < p.nnode → refs c ≤ natIn m (p.nbase + 128 * c + 12) 4) → p.ptop + freed.length ≤ p.npage →
        CountsAre m' p (fun q => natIn m (p.pcnt + 4 * q) 4 - cnt levels q) (fun c => natIn m (p.nbase + 128 * c + 12) 4 - refs c) ∧
        natIn m' (p.at_ + 32) 4 = p.ptop + freed.length ∧
        (∀ j q, freed[j]? = some q → natIn m' (p.pfree + 4 * (p.ptop + j)) 4 = q) ∧
        (∀ q ∈ levels, natIn m' (q.at_ + 40) 4 = 2 ^ 1 + 2 ^ 2 + 2 ^ 3 + (if q.lkup then 2 ^ 4 else 0) ∧
          (q.parent ≠ 0 → let r := hdrIn m q.parent
            natIn m' (r.at_ + 32) 8 = r.flen + r.depth * 2 ^ 32 + (r.prc + 2 ^ 24 - 1) % 2 ^ 24 * 2 ^ 40)) ∧
        WritesIn o.tx (levels.flatMap (fun q => (q.at_ + 40, 4) :: if q.parent = 0 then [] else [(q.parent + 32, 8)]) ++
          [(p.at_ + 32, 4), (p.pcnt, 4 * p.npage), (p.pfree, 4 * p.npage), (p.nbase, 128 * p.nnode)])))) ∧
  (∀ (hd : Hdr) (p : Pool) (arr fuel i : Nat) (g : Inserting), hd.pt % 8 = 0 → hd.tpg ≤ 4 → p.npage ≤ 2 ^ 31 → p.nnode ≤ 2 ^ 30 →
    let m := txByte g.tx
    let all := ceilDiv hd.cap (slotsOf hd)
    let lands := lineLands all (lineIn m 4 hd) ++ poolLands p hd
    insertWalk hd p arr 0 i g = g ∧
    (let g' := insertWalk hd p arr (fuel + 1) i g
      let c := nextIn m hd p arr g.node i
      let free := natIn m (p.at_ + 36) 4
      let same := fun (t : Txn) => t.buf = g.tx.buf ∧ ∀ x, txByte t x = m x
      txOk g'.tx = true → ∃ t, same t ∧
        if c ≠ 0 then g' = insertWalk hd p arr fuel (i + 1) { g with tx := t, node := c }
        else ∀ e, entryIn m 4 hd i true = some e →
          if free = 0 then g' = { g with tx := t, full := true }
          else g' = insertWalk hd p arr fuel (i + 1) (insertNode hd p { g with tx := t } i free (pidx e.1) (toksIn m hd arr i))) ∧
    (∀ c page toks, let g' := insertNode hd p g i c page toks
      let m' := afterTx m g'.tx
      let node := fun (m : Nat → Byte) (c w : Nat) => natIn m (p.nbase + 128 * c + 8 * w) 8
      txOk g'.tx = true → Apart lands → TreeWithin m p → 0 < c → c < p.nnode → g.node < p.nnode → c ≠ g.node → page < p.npage →
      toks.length = 4 * slotsOf hd → i + 1 < 2 ^ 32 →
      g'.node = c ∧ g'.count = g.count + 1 ∧ g'.full = g.full ∧
      (List.range 5).map (node m' c) =
        [tokenHash toks, page, g.node, natIn m (p.nbase + 128 * g.node + 20) 4 + (i + 1) * 2 ^ 32, 1] ∧
      bytesIn m' (p.tbase + 4 * slotsOf hd * c) (4 * slotsOf hd) = toks ∧
      natIn m' (p.nbase + 128 * g.node + 20) 4 = c ∧ natIn m' (p.at_ + 36) 4 = natIn m (p.nbase + 128 * c + 24) 4 ∧
      natIn m' (p.pcnt + 4 * page) 4 = (natIn m (p.pcnt + 4 * page) 4 + 1) % 2 ^ 32 ∧
      (∀ x, (∀ r ∈ [(p.nbase + 128 * c, 40), (p.tbase + 4 * slotsOf hd * c, 4 * slotsOf hd), (p.nbase + 128 * g.node + 20, 4),
        (p.at_ + 36, 4), (p.pcnt + 4 * page, 4)], x < r.1 ∨ r.1 + r.2 ≤ x) → find? g'.tx.buf x = find? g.tx.buf x))) ∧
  tokenHash ([0x31, 0x32, 0x33, 0x34, 0x35, 0x36, 0x37, 0x38, 0x39].map (BitVec.ofNat 8)) = 0x995DC9BBDF1939FA ∧
  (∀ d : KvtDesc, 1 ≤ d.h → fvFin (fval fmtF32 d.theta) = true →
    (ropeRows d).length = 8 * d.h * (d.m + 1) ∧
    ∀ r ≤ d.m, ∀ i < d.h, (((ropeRows d).drop (8 * (d.h * r + i))).take 8 = ropePair d.theta d.h (d.p0 + r) i)) ∧
  (∀ theta h i, ropeFreq theta h 0 = 0x3F800000 ∧ (fvFin (fval fmtF32 (ropeFreq theta h i)) = true →
    ropePair theta h 0 i = bytesOf 4 0x3F800000 ++ bytesOf 4 0)) ∧
  (∀ x : Nat, 0 < x → RoundsTo (OfPrecision fmtF32 false) .rne x ((ropePos x).1 * 2 ^ (ropePos x).2 : ℕ)) ∧
  [16777217, 16777219, 2 ^ 28 - 1].map (fun x => (ropePos x).1 * 2 ^ (ropePos x).2) = [16777216, 16777220, 2 ^ 28]

/-- SEQ.LEN, SEQ.ADDR and SEQ.RESERVE on a flat sequence in device memory (R294, R296, R302, R304, R305, R307): LEN gives CL and
RL, ADDR the address of a slot below RL, or status 8; a reservation of n gives the old RL and adds n to RL, and no other byte
of device memory changes, where a ring's TAIL is one that R308 allows; one that fails returns its status and changes none. -/
def Obligations.FlatSequenceResults : Prop :=
  ∀ s u t, Issuing s u t → t.log = [] → t.zeros = [] → ∀ (a b : KReg) (k leaf : Nat), a.toNat + 1 ≤ 383 → b.toNat ≤ 383 →
    let h := (kreg t b.toNat).toNat
    let w := (kreg t a.toNat).toNat
    h % 64 = 0 → h < 2 ^ 56 → xlateWalk s t.ctx h .load = .ok (.dev k) leaf → (metaOf s (k / 256)).poison = false →
    PagesKnown s t h [pageKey s t.ctx h] →
    let words := wordsOf (memBytes s.mem k 64)
    bitAt (nth 0 words 5) 1 = false →
    let hd := hdrOf h (words ++ [0])
    hd.ok = true →
    let cl := memNat s.mem k 4
    let rl := memNat s.mem (k + 4) 4
    let given := fun (c : Instr) (reg res : Nat) (P : State → Prop) =>
      ∃ s1 t', exec c s = .next (settle s1) ∧ find? s1.teams u = some t' ∧
        Passed s { ended t with k := t'.k, seen := t'.seen, snap := t'.snap } t' ∧ (t'.status = .ready → t'.snap = t'.flow) ∧
        (∀ n, kreg t' n = if n = reg ∧ n ≠ 0 then BitVec.ofNat 64 res else kreg t n) ∧ P s1
    let same := fun (s1 : State) => ∀ x, memByte s1.mem x = memByte s.mem x
    given (.seqLen a b) a.toNat (cl + rl * 2 ^ 32) same ∧
    (w < 2 ^ 32 → (rl ≤ w ∨ hd.ring ≠ 0 ∧ w < hd.tail) → given (.seqAddr a b) (a.toNat + 1) (2 ^ 63 + 8 * 2 ^ 56) same) ∧
    (w < rl → (hd.ring ≠ 0 → hd.tail ≤ w) →
      given (.seqAddr a b) (a.toNat + 1)
        ((hd.pt + (if hd.ring = 0 then w else w % 2 ^ hd.ring) * 2 ^ hd.slg) % 2 ^ 56) same) ∧
    (1 ≤ w → w < 2 ^ 16 → ∀ st, reserveStatus hd w = some st →
      given (.seqReserve a b) (a.toNat + 1) (2 ^ 63 + st * 2 ^ 56) same) ∧
    (1 ≤ w → w < 2 ^ 16 → reserveStatus hd w = none → Unstored s (k / 256) →
      (hd.ring ≠ 0 → hd.tail ≤ cl ∧ ∀ x ∈ s.tails, x.1 = t.ctx → x.2.1 = h → x.2.2 ≤ hd.tail) → ∀ l1 l2,
      xlateWalk s t.ctx h .store = .ok (.dev k) l1 → xlateWalk s t.ctx (h / 256 * 256) .store = .ok (.dev (k / 256 * 256)) l1 →
      xlateWalk (bring (atBoundary s) (loomDie s (.ctx t.ctx) h) t.ctx (h / 256 * 256)) t.ctx (h / 256 * 256) .store =
        .ok (.dev (k / 256 * 256)) l2 →
      (leafDebits l1 = true → (debit8 (atBoundary s) (.core t.core) t.ctx).2 = true) →
      given (.seqReserve a b) (a.toNat + 1) rl (fun s1 => memNat s1.mem k 4 = cl ∧ memNat s1.mem (k + 4) 4 = rl + w ∧
        ∀ x, (x < k ∨ k + 8 ≤ x) → memByte s1.mem x = memByte s.mem x))

/-- SEQ.WATCH and SEQ.WAIT (R309, R310, R321): a watch binds a cl register to the sequence and loads it with CL, or with handle 0
unbinds it and leaves its value; a wait goes on once the bound register has reached the length, an acquire of what the commits below its
value have released, and else waits. The releases of a sequence as a list are the model's (log 5, DESIGN CHOICE). -/
def Obligations.WatchAndWait : Prop :=
  ∀ s u t, Issuing s u t → t.log = [] → t.zeros = [] → ∀ (a b : KReg),
    let w := (kreg t a.toNat).toNat
    let h := (kreg t b.toNat).toNat
    let clReg := fun (s : State) (j : Nat) => tabGet ClReg.reset (getCore s t.core).cl j
    (a.toNat + 1 ≤ 383 → b.toNat ≤ 383 → w < 16 → h = 0 →
      ∃ s' t', exec (.seqWatch a b) s = .next s' ∧ find? s'.teams u = some t' ∧ Bounded s { t with k := t'.k } t' ∧
      (∀ n, kreg t' n = if n = a.toNat + 1 then 0#64 else kreg t n) ∧
      (∀ j, clReg s' j = if j = w then { clReg s j with bound := none } else clReg s j)) ∧
    (a.toNat + 1 ≤ 383 → b.toNat ≤ 383 → w < 16 → h ≠ 0 → ∀ s2,
      let r := loomWatch (txStart (atBoundary s) (.ctx t.ctx) false) h t.core w
      PagesKnown (atBoundary s) t h r.tx.pages → txFinish r.tx (loomDie (atBoundary s) (.ctx t.ctx) h) (.core t.core) = .done s2 →
      ∃ s1 t', exec (.seqWatch a b) s = .next (settle s1) ∧ find? s1.teams u = some t' ∧ Bounded s { t with k := t'.k } t' ∧
        (∀ n, kreg t' n = if n = a.toNat + 1 then (if 2 ^ 63 ≤ r.res then BitVec.ofNat 64 r.res else 0#64) else kreg t n) ∧
        (∀ j, clReg s1 j = if j = w ∧ r.res < 2 ^ 63 then ⟨BitVec.ofNat 64 r.res, some h⟩ else clReg s j) ∧
        OthersWoken s s1 u) ∧
    (a.toNat ≤ 383 → w < 2 ^ 36 → let v := field w 0 32
      let r := clReg s (field w 32 4)
      (t.woken = true ∨ r.bound.isSome ∧ v ≤ field r.val.toNat 0 32 →
        let view : View := match r.bound with
          | some h => seqView s t.ctx h (field r.val.toNat 0 32)
          | none => ⟨[], 0⟩
        ∃ s' t', exec (.seqWait a b) s = .next s' ∧ find? s'.teams u = some t' ∧
          Passed s { joined (ended t) view with snap := t'.snap, woken := false } t' ∧ (t'.status = .ready → t'.snap = t'.flow) ∧
          Acquired s s' u t.core r.bound.isSome view) ∧
      (t.woken = false → r.bound.isSome → field r.val.toNat 0 32 < v →
        Waits (.seqWait a b) s u t (.seqWait (field w 32 4) v)))

/-- BPASS, FREEB and TRACE (R217, R353, R415-R418): each goes on at the next word; BPASS.info and FREEB write what they read; BPASS.undec
has no effect in normal mode; TRACE.on turns tracing on and has a SYNC come before the next group, TRACE.off turns it off, whether it was
on or not, TRACE.bind binds a sequence, and flushing a staged record where no sequence is bound counts it as lost. -/
def Obligations.BpassFreebAndTrace : Prop :=
  (∀ s u t, Issuing s u t → ∀ a : KReg,
    (a.toNat ≤ 383 →
      UniDone (.bpassInfo a) s u t a.toNat
        (BitVec.ofNat 64 (match (teamKernel s t).bounds, t.kind with
          | true, .handoff j slot => 2 + j % 2 ^ 24 * 2 ^ 8 + slot % 2 ^ 32 * 2 ^ 32
          | _, _ => 0)) ∧
      UniDone (.freebCtx a) s u t a.toNat
        (BitVec.ofNat 64 ((getCtx s t.ctx).pool + slicesOf s t.ctx) &&& 0x7FFFFFFFF#64 |||
          (if (getCtx s t.ctx).infl = 0 then 0#64 else 0x8000000000000000#64)) ∧
      UniDone (.freebSlice a) s u t a.toNat (BitVec.ofNat 64 (getCore s t.core).slice)) ∧
    (∃ s' t', exec (.bpassUndec a) s = .next s' ∧ RegsOnly s s' u t t' no2 no2 no FlagSet.none []) ∧
    (∃ s' t', exec (.traceOn a) s = .next s' ∧ find? s'.teams u = some t' ∧ TeamOnly s s' u ∧
      Passed s { t with trace := { t.trace with on := true, syncNext := true } } t') ∧
    (t.trace.staged = [] →
      (∀ s0 on, s0 = setTeam s u { t with trace := { t.trace with on := on } } → (on = true → t.trace.syncNext = false) →
        ∃ s' t', exec (.traceOff a) s0 = .next s' ∧ find? s'.teams u = some t' ∧ TeamOnly s s' u ∧
          Passed s { t with trace := { t.trace with on := false, syncNext := false } } t') ∧
      (∃ s' t', exec (.traceFlush a) s = .next s' ∧ find? s'.teams u = some t' ∧ TeamOnly s s' u ∧ Passed s t t')) ∧
    (t.trace.staged ≠ [] → (getCore s t.core).tbind = 0 →
      ∃ s' t', exec (.traceFlush a) s = .next s' ∧ find? s'.teams u = some t' ∧ TeamOnly s s' u ∧
        Passed s { t with trace := { t.trace with
          staged := [], count := 0, loss := t.trace.loss + t.trace.count, lossDue := true } } t') ∧
    (∀ b : KReg, b.toNat ≤ 383 →
      let h := (kreg t b.toNat).toNat
      let x := txHdr (txStart (begun s) (.ctx t.ctx) false) h
      h = 0 ∨ PagesKnown (begun s) t h x.1.pages ∧ x.1.replay = none ∧ x.1.hard = none ∧ x.1.bad58 = false ∧ x.2.kv = false ∧
        x.2.slg = 8 ∧ x.2.released = false →
      ∃ s' t', exec (.traceBind a b) s = .next s' ∧ find? s'.teams u = some t' ∧ Passed s t t' ∧
        s' = { s with teams := s'.teams, cores := s'.cores, pound := s'.pound, stks := s'.stks } ∧ (∀ n, n ≠ u → find? s'.teams n = find? s.teams n) ∧
        ∀ n, getCore s' n = if n = t.core then { getCore s n with tbind := h } else getCore s n)) ∧
  (∀ (s : State) (u : Nat) (t : Team), find? s.teams u = some t → t.trace.on = true → t.bounds = false →
    t.trace.lastSync + 2560 ≤ s.mgmt.time →
    exec (.traceSyncDue u) s = .next (setTeam s u { t with trace := { t.trace with syncDue := true } }))

/-- WALK_BATCH_START, PAGE_WALK_DONE and FREE_OLD_RUN (R360, R363, R364, R377): the batch chosen is the oldest that 64 selections
have passed over, or else one with the fewest walks, the first among equals; a walk's leaf is installed with its ACC bit set,
and a team with no walk left issues again; and a freed run's sectors each take the next sequence number (R440). -/
def Obligations.WalksAndOldRuns : Prop :=
  (∀ (s : State) (die : Nat), let w := nth Walker.reset s.walkers die
    die < 2 → s.walkers.length = 2 → w.busy.length < 32 → w.batches ≠ [] → (∀ b ∈ w.batches, b.starting = false) →
    ∃ (i : Nat) (b : Batch) (w' : Walker), w.batches[i]? = some b ∧
      exec (.walkBatchStart die) s = .next { s with walkers := setAt s.walkers die w' } ∧
      ((∃ c ∈ w.batches, 64 ≤ c.passed) → 64 ≤ b.passed ∧ ∀ j < i, ∀ c, w.batches[j]? = some c → c.passed < 64) ∧
      ((∀ c ∈ w.batches, c.passed < 64) → (∀ c ∈ w.batches, b.pages.length ≤ c.pages.length) ∧
        ∀ j < i, ∀ c, w.batches[j]? = some c → b.pages.length < c.pages.length) ∧
      w'.tlb = w.tlb ∧ w'.busy = w.busy ++ ((b.pages.take (32 - w.busy.length)).map fun p => ⟨b.uid, b.ctx, p⟩) ∧
      (b.pages.length ≤ 32 - w.busy.length →
        w'.batches = (w.batches.eraseIdx i).map fun c => { c with passed := c.passed + 1 })) ∧
  (∀ (s : State) (die idx : Nat) (x : Walk) (t : Team), let w := nth Walker.reset s.walkers die
    s.walkers.length = 2 → die < 2 → w.busy[idx]? = some x → find? s.teams x.uid = some t → t.status = .waiting .walk →
    w.batches = [] →
    let r := walk s x.ctx (x.page * 65536)
    ∃ s' t', exec (.pageWalkDone die idx) s = .next s' ∧ find? s'.teams x.uid = some t' ∧
      (∀ n, n ≠ x.uid → find? s'.teams n = find? s.teams n) ∧
      t' = { t with walked := t.walked ++ [(x.page, r.isNone)], status := t'.status } ∧
      (t'.status = .ready ∨ t'.status = .waiting .walk) ∧
      (t'.status = .ready ↔ ∀ y ∈ w.busy.eraseIdx idx, y.uid ≠ x.uid) ∧
      (nth Walker.reset s'.walkers die).busy = w.busy.eraseIdx idx ∧
      (r = none → s'.tspace = s.tspace ∧ (nth Walker.reset s'.walkers die).tlb = w.tlb) ∧
      (∀ l, r = some l → (⟨x.ctx, l.base, l.size, l.bits⟩ : TlbEntry) ∈ (nth Walker.reset s'.walkers die).tlb ∧
        (s.mgmt.remap = 0 ∨ l.slotAt + 16 ≤ s.mgmt.remap ∨ s.mgmt.remap + 2 ^ 20 ≤ l.slotAt + 8 →
          memNat s'.tspace (l.slotAt + 8) 8 = memNat s.tspace (l.slotAt + 8) 8 ||| 2 ^ die) ∧
        ∀ a, (a < l.slotAt + 8 ∨ l.slotAt + 16 ≤ a) → memByte s'.tspace a = memByte s.tspace a)) ∧
  (∀ (s : State) (idx run n : Nat), s.oldRuns[idx]? = some (run, n) → run / 2 ^ 31 < s.stks.length →
    ∃ s', exec (.freeOldRun idx) s = .next s' ∧ s' = { s with oldRuns := s.oldRuns.eraseIdx idx, stks := s'.stks } ∧
      ∀ x, tabGet 0 (stackOf s' (run / 2 ^ 31)).seqNo x =
        if run ≤ x ∧ x < run + n then (tabGet 0 (stackOf s (run / 2 ^ 31)).seqNo x + 1) % 65536
        else tabGet 0 (stackOf s (run / 2 ^ 31)).seqNo x)

/-- ARBITER_SELECT, DISPATCH_WRITE_APPLY and QUEUE_READ_RETRY (R224-R226, R233, R460): the packet selected has the least key of
all candidates, and starts to dispatch with its queue's HEAD one further and BUSY set. The held writes of a queue are made in order, until
one cannot be: HEAD and BUSY, or LATE, change in the queue's block, at its place in table space or in a context, and no other byte does; one
that POOL cannot pay for is held. A queue that is not yet watched is noticed; a read that now succeeds unblocks its queue, the same cause
again appends no record, and a header or block that was forbidden or poisoned is read only after a page command or a commit. -/
def Obligations.QueuesAndTheArbiter : Prop :=
  (∀ (s : State) (c : Cand) (k : Kernel) (rest : List Cand), s.mgmt.pstate = 0 →
    let s1 := allQueueWrites (s.queues.foldl readQueue s)
    let k0 := packetKernel s1 c []
    let s2 := packetReads s1 k0.ctx (nth 0 c.ws 4) k0.hoff k0.bounds
    let s3 := s2.cores.foldl mapSpare s2
    sortKey candKey (candsOf s1) = c :: rest → packetStatus s2 c = none → hasRoom s3 (packetKernel s2 c []) = true →
    packetGroups s3 c = some k →
    ∃ s4, exec .arbiterSelect s = .next (settle s4) ∧ (∀ x ∈ candsOf s1, keyBefore (candKey x) (candKey c) = false) ∧
      s4.kernels = s1.kernels ++ [k] ∧ s4.nextKid = s1.nextKid + 1 ∧
      (∃ q ∈ s4.queues, q.ctx = c.qctx ∧ q.handle = c.qh ∧ q.head = c.slot + 1 ∧ q.busy = true)) ∧
  (∀ (s : State) (ctx h : Nat) (q : QueueSt), s.queues.find? (fun q => q.ctx == ctx && q.handle == h) = some q →
    (q.heldWrites = [] → exec (.dispatchWriteApply ctx h) s = .next (settle s)) ∧
    ∀ w ws, q.heldWrites = w :: ws →
      (queueWrite s ctx h w = none → exec (.dispatchWriteApply ctx h) s = .next (settle s)) ∧
      ∀ s1, queueWrite s ctx h w = some s1 →
        exec (.dispatchWriteApply ctx h) s =
          exec (.dispatchWriteApply ctx h) (setQueue s1 ctx h fun q => { q with heldWrites := ws })) ∧
  (∀ (s : State) (h head late : Nat) (busy : Bool), let m := s.mgmt.remap
    let a := if late = 0 then h + 64 else h + 72
    let held := fun (old new : Nat) => if late = 0 then
        new % 2 ^ 32 = head % 2 ^ 32 ∧ ∀ i, 32 ≤ i → i < 64 → bitAt new i = if i = 61 then busy else bitAt old i
      else new = (old + late) % 2 ^ 64
    (m = 0 ∨ a + 8 ≤ m ∨ m + 2 ^ 20 ≤ a →
      ∃ s1, queueWrite s 0 h (head, busy, late) = some s1 ∧ s1 = { s with tspace := s1.tspace } ∧
        held (memNat s.tspace a 8) (memNat s1.tspace a 8) ∧
        ∀ x, (x < a ∨ a + 8 ≤ x) → memByte s1.tspace x = memByte s.tspace x) ∧
    ∀ ctx k leaf, ctx ≠ 0 → h % 64 = 0 → xlateWalk s ctx a .rmw = .ok (.dev k) leaf → k % 256 = a % 256 →
      (leafDebits leaf = true → (debit8 s .pool ctx).2 = false → queueWrite s ctx h (head, busy, late) = none) ∧
      ∀ s1, queueWrite s ctx h (head, busy, late) = some s1 → (metaOf s (k / 256)).poison = false → Unstored s (k / 256) →
        held (memNat s.mem k 8) (memNat s1.mem k 8) ∧ ∀ x, (x < k ∨ k + 8 ≤ x) → memByte s1.mem x = memByte s.mem x) ∧
  ∀ (s : State) (ctx h : Nat),
    (s.queues.find? (fun q => q.ctx == ctx && q.handle == h) = none →
      exec (.queueReadRetry ctx h) s = .next (if (rawHdr s (queueSpace ctx) h).queue then
        { s with queues := s.queues ++ [⟨ctx, h, 0, false, [], none, false⟩] } else s)) ∧
    ∀ q, s.queues.find? (fun q => q.ctx == ctx && q.handle == h) = some q →
      (q.failed = none → exec (.queueReadRetry ctx h) s = .next s) ∧
      ∀ c, q.failed = some c →
        ((c = 0x63 ∨ c = 0x64) → q.again = false → exec (.queueReadRetry ctx h) s = .next s) ∧
        ((c ≠ 0x63 ∧ c ≠ 0x64) ∨ q.again = true →
          let s0 := setQueue (queueReads s q) ctx h fun q => { q with again := false }
          (∀ a, (lookQueue s0 q).2 = .unread c a → exec (.queueReadRetry ctx h) s = .next s0) ∧
          (∀ d a, (lookQueue s0 q).2 = .unread d a → d ≠ c → exec (.queueReadRetry ctx h) s =
            .next (settle (pushRec (setQueue s0 ctx h fun q => { q with failed := some d }) (queueRec s0 ctx d a)))) ∧
          ((∀ d a, (lookQueue s0 q).2 ≠ .unread d a) →
            exec (.queueReadRetry ctx h) s = .next (settle (setQueue s0 ctx h fun q => { q with failed := none }))))

/-- TEAM_PLACE (R237, R240, R241): the next launch team of a kernel takes its place on a core and partition that admit it, in the
state that the spec gives a team before its first issue; the last one makes its kernel RUNNING. -/
def Obligations.TeamsBeginAsTheKernelSays : Prop :=
  ∀ (s : State) (core part : Nat) (k : Kernel), core < 160 → part < 4 → s.mgmt.pstate = 0 → s.kernels = [k] →
    k.st = .dispatching → k.groups = [] → k.bounds = false → k.nextLaunch < k.teams → (getCtx s k.ctx).st = .active →
    savedFor s core part = [] → (getCore s core).deque = [] → admits s core part (kernelShape k false) = true →
    ∃ s1 t, exec (.teamPlace core part) s = .next (settle s1) ∧ find? s1.teams s.nextUid = some t ∧
      t = { Team.blank with
        uid := s.nextUid, kid := k.kid, id := k.nextLaunch, kind := .launch, ctx := k.ctx, core := core, part := part
        placed := true, lanes := k.lanes, allot := k.allot, logSize := k.logSize, status := .ready, k := t.k
        flow := Flow.start k.entry, snap := Flow.start k.entry, parent := 2 ^ 64 - 1, start := k.start } ∧
      (∀ n, kreg t n = if n = 2 then BitVec.ofNat 64 k.args else if n = 3 then BitVec.ofNat 64 k.teams
        else if n = 4 then BitVec.allOnes 64 else 0#64) ∧
      (∀ i r, vreg t i r = 0#32) ∧ (∀ i < k.lanes, laneState t.flow i = .active) ∧
      (∀ n, n ≠ s.nextUid → find? s1.teams n = find? s.teams n) ∧ s1.nextUid = s.nextUid + 1 ∧
      (getCore s1 core).ctx = k.ctx ∧
      kernelOf s1 k.kid = some { k with
        nextLaunch := k.nextLaunch + 1, st := if k.nextLaunch + 1 = k.teams then .running else .dispatching }

/-- PREEMPT, EVICT and TASK_STEAL (R236, R243, R244, R249, R252): a team that is saved stands at its region's start, with its log
discarded, once its operations have retired (R201); an evicted one still waits in its JOIN; and a stolen task leaves the tail of
its deque and becomes a team of the stealing core. -/
def Obligations.SavedAndStolenTeams : Prop :=
  (∀ (s : State) (core u : Nat) (t : Team), find? s.teams u = some t → t.uid = u → t.pend = [] → t.log = [] → t.zeros = [] →
    t.debited = [] → t.trace.staged = [] → (∀ q c n, t.status ≠ .waiting (.copyPlace q c n)) → canSave t = true →
    saveHeld t.core [u] s = false →
    let saved : Team := { t with
      placed := false, saved := true, flow := t.snap, counts := [], flight := [], walked := [], yielded := [], woken := false
      pols := [], asks := [], trace := { t.trace with syncNext := t.trace.on } }
    (∀ vs, (placing s true).findSome? (preemptVictims s core) = some vs → dedupNat ((vs.map (withClosure s)).flatten) = [u] →
      freeToLeave s u = true →
      ∃ s1, exec (.preempt core) s = .next (settle s1) ∧
        find? s1.teams u = some { saved with status := if t.status = .parked then .parked else .unplaced } ∧
        (∀ n, n ≠ u → find? s1.teams n = find? s.teams n) ∧ s1 = { s with teams := s1.teams, walkers := s1.walkers }) ∧
    (∀ x rest, (getCore s core).deque = x :: rest → (getCore s core).stop = none → (getCore s core).offline = false →
      mayTake s core x = false → evictee s core x = some t →
      (∃ l, t.status = .waiting (.join l)) ∧
      ∃ s1, exec (.evict core) s = .next (settle s1) ∧ find? s1.teams u = some saved ∧
        (∀ n, n ≠ u → find? s1.teams n = find? s.teams n) ∧ SameBytes s s1)) ∧
  (∀ (s : State) (core v : Nat) (x : Task) (k : Kernel), core < 160 → s.mgmt.pstate = 0 → mayStealNow s core = true →
    stealFrom s core (ringOf core) = some (v, x) → kernelOf s x.kid = some k → k.kid = x.kid →
    ∃ s1 t, exec (.taskSteal core) s = .next (settle s1) ∧ v / 16 = core / 16 ∧
      (getCore s v).deque = (getCore s v).deque.dropLast ++ [x] ∧
      (v ≠ core → (getCore s1 v).deque = (getCore s v).deque.dropLast) ∧
      find? s1.teams s.nextUid = some t ∧ t.kind = .forked ∧ t.id = x.id ∧ t.kid = x.kid ∧ t.core = core ∧ t.placed = true ∧
      t.status = .ready ∧ t.flow = Flow.start x.entry ∧ t.parent = x.parent ∧ t.jv = x.jv ∧ t.jl = x.jl ∧
      t.parentCore = x.parentCore ∧ t.start = joinView k.start x.view ∧ ∀ n, n ≠ s.nextUid → find? s1.teams n = find? s.teams n)

/-- TEAM_END, FILL_RETRY and HANDOFF_APPEND (R239, R251, R346-R351): a team with nothing outstanding ends, its join count falls by
one, and a kernel with no team left is gone; a fill that stalled and now finishes lets it end; and the record of a handed-off
tile makes one team for every so many of its elements. -/
def Obligations.TeamsEnd : Prop :=
  (∀ (s : State) (u : Nat) (t : Team), find? s.teams u = some t → mayEnd s u = true → t.failed = [] →
    ∀ (c : Instr) (s2 : State), (c = .teamEnd u ∧ t.fillStall = none ∨ c = .fillRetry u ∧ t.fillStall.isSome ∧ t.fills ≠ []) →
    doFills s u = (s2, true) → let x := getTeam s2 u
    x.fates = [] → fillSent s2 x = false →
    ∃ s1 t', exec c s = .next (settle s1) ∧ find? s1.teams u = some t' ∧ t'.status = .ended ∧ t'.placed = false ∧
      t'.id = x.id ∧ t'.kid = x.kid ∧
      (x.jv = true → (getCore s2 x.parentCore).ctx = x.ctx →
        (getLock s1 x.parentCore x.jl).joinc = (getLock s2 x.parentCore x.jl).joinc - 1) ∧
      (∀ k, kernelOf s2 x.kid = some k → k.teams ≤ nextLaunch k →
        (∀ e ∈ s2.teams, e.1 ≠ u → e.2.kid = x.kid → e.2.status = .ended) →
        (∀ e ∈ s2.cores, ∀ y ∈ e.2.deque, y.kid ≠ x.kid) → kernelOf s1 x.kid = none)) ∧
  (∀ (s : State) (u : Nat) (t : Team), find? s.teams u = some t → t.uid = u → mayEnd s u = true → t.fillStall = none →
    t.failed = [] → t.fills = [] → t.fates = [] → fillSent s t = false →
    ∃ s1 t', exec (.teamEnd u) s = .next (settle s1) ∧ find? s1.teams u = some t' ∧ t'.status = .ended) ∧
  (∀ (s : State) (u lane r slot : Nat) (t : Team) (k : Kernel) (rest : List (Nat × Fate)) (s0 : State),
    find? s.teams u = some t → mayEnd s u = true → t.fills = [] → fillSent s t = false → sortFates t.fates = (lane, .handoff r) :: rest →
    u < s.nextUid → kernelOf s t.kid = some k →
    let x := tileOf t lane
    let b := tileBox k x
    let n := ceilDiv (b.h * b.w) t.lanes
    handoffTry s t k.hoff (handoffBytes b x r) = .ok s0 slot →
    ∃ s1 t', exec (.handoffAppend u) s = .next (settle s1) ∧ find? s1.teams u = some t' ∧ t'.fates = rest ∧
      t'.fillStall = none ∧ s1.nextUid = s.nextUid + n ∧
      ∀ j < n, ∃ y, find? s1.teams (s.nextUid + j) = some y ∧ y.kind = .handoff j slot ∧ y.kid = t.kid ∧
        y.id = k.nextId + j ∧ y.bounds = false ∧ y.status = .unplaced)

/-- The commands of the control sequence (R152, R204, R205, R214, R215, R218, R219, R223, R445-R448): in a state that allows it, a
command of the right form completes with its reply; what CREATE, DESTROY, the balloon, RESOLVE, SAVE, RESTORE and POWER leave.
The end of a SAVE (R219, R220): once every core of the context has settled, its area is written at SAVEA with the descriptor
first, and every team of it stands saved. That the SAVE area and the remap table lie in host memory is log 8 (DEDUCED), the order of checks
that a command makes log 40 (DEDUCED), and the watch on the low watermark beside these commands log 58 (DEDUCED). -/
def Obligations.ControlCommandsComplete : Prop :=
  (∀ (s : State) (p : Packet), performs s false = true → let id := pktCtx p
     let c := getCtx s id
     let n := p.w1.toNat
     (pktOp p = 1 → ctlForm p true = true → c.st = .free → s.mgmt.ran = true → n % 128 = 0 → n + 128 ≤ s.mgmt.tssize →
       let w := fun i => tableWord s (n + 8 * i)
       descOk id w = true →
       ∃ s1 k, exec (.create p) s = finishCmd s1 p .ok 0 ∧
         getCtx s1 id = { Ctx.reset with
           st := .active, conf := bitAt (w 0) 16, ratio := field (w 0) 24 8, ptroot := w 1, z := field (w 5) 0 16
           wmark := field (w 5) 16 35, fq := w 6, savea := w 7, above := decide (field (w 5) 16 35 = 0), key := k } ∧
         s1.mgmt.created = true ∧ (∀ m, m ≠ id → getCtx s1 m = getCtx s m)) ∧
     (pktOp p = 2 → ctlForm p false = true → c.st = .active ∨ c.st = .saved ∨ c.st = .fenced →
       let s0 := killAll s id
       ∃ s1, exec (.destroy p) s = finishCmd s1 p .ok (getCtx s0 id).grant ∧ getCtx s1 id = Ctx.reset ∧
         s1.reserve = s0.reserve + (getCtx s0 id).grant ∧ (∀ e ∈ s1.cores, e.2.ctx ≠ id ∨ id = 0) ∧
         (∀ w ∈ s1.walkers, ∀ e ∈ w.tlb, e.ctx ≠ id) ∧ (∀ q ∈ s1.queues, q.ctx ≠ id) ∧
         ∀ m, m ≠ id → getCtx s1 m = getCtx s0 m) ∧
     (pktOp p = 3 → ctlForm p true = true → c.st = .active ∨ c.st = .saved → n ≤ s.reserve → c.infl = 0 →
       ∃ s1, exec (.deflate p) s = finishCmd s1 p .ok n ∧ s1.reserve = s.reserve - n ∧
         (getCtx s1 id).pool = c.pool + n ∧ (getCtx s1 id).grant = c.grant + n ∧ (getCtx s1 id).infl = 0 ∧
         (getCtx s1 id).alloc = c.alloc ∧ SameBytes s s1) ∧
     (pktOp p = 4 → ctlForm p true = true → c.st = .active ∨ c.st = .saved → c.infl = 0 →
       let a := min n c.pool
       let b := min (n - a) (slicesOf s id)
       ∃ s1, exec (.inflate p) s = finishCmd s1 p .ok (a + b) ∧ s1.reserve = s.reserve + a + b ∧
         (getCtx s1 id).grant = c.grant - a - b ∧ (getCtx s1 id).infl = n - a - b ∧
         (n ≤ c.pool → (getCtx s1 id).pool = c.pool - n ∧ s1.cores = s.cores) ∧
         (c.pool < n → (getCtx s1 id).pool = slicesOf s id - b ∧ slicesOf s1 id = 0) ∧ SameBytes s s1) ∧
     (pktOp p = 5 → ctlForm p true = true → c.st = .active ∨ c.st = .saved → ∀ u t, find? c.openRecs n = some u →
       find? s.teams u = some t → t.status = .parked →
       ∃ s1, exec (.resolve p) s = finishCmd s1 p .ok 0 ∧ find? s1.teams u = some { t with
         flow := t.snap, status := .ready, counts := [], flight := [], pend := [], walked := [], yielded := [], asks := []
         trace := { t.trace with syncNext := t.trace.on } } ∧ find? (getCtx s1 id).openRecs n = none ∧
         ∀ m, m ≠ u → find? s1.teams m = find? s.teams m) ∧
     (pktOp p = 6 → ctlForm p false = true → c.st = .active → (∃ m ∈ servingCores s id, isStopped s m = true) →
       exec (.save p) s = finishCmd s p .busy 0) ∧
     (pktOp p = 6 → ctlForm p false = true → c.st = .active → (∀ m ∈ servingCores s id, isStopped s m = false) →
       (∀ e ∈ residents s id, e.2.trace.staged = []) →
       ∃ s1, exec (.save p) s = .next (settle s1) ∧ (getCtx s1 id).st = .saving ∧ (getCtx s1 id).saveSlot = p.slot ∧
         ∀ u t, find? s1.teams u = some t → t.ctx = id → canIssue s1 u = false) ∧
     (pktOp p = 7 → ctlForm p true = true → c.st = .saved → ∀ tab, remapTable s n = some tab →
       noRepeat (c.image.map fun e => nth e.1 tab e.1) = true → (c.image.all fun e => mayRestore s e.2 (nth e.1 tab e.1)) = true →
       ∃ s1, exec (.restore p) s = finishCmd s1 p .ok 0 ∧ (getCtx s1 id).st = .active ∧ (getCtx s1 id).image = []) ∧
     (pktOp p = 8 → ctlForm p true = true → id = 0 →
       (n = 0 → bringUpOk s.mgmt = true → (s.mgmt.trip = true → s.mgmt.temp.toNat ≤ 95) →
         exec (.power p) s = finishCmd { s with mgmt := { s.mgmt with pstate := 0, trip := false, ran := true } } p .ok 0) ∧
       (n = 1 ∨ n = 2 → anyResident s = false → s.mgmt.pstate = 0 ∨ s.mgmt.pstate = n →
         exec (.power p) s = finishCmd { s with mgmt := { s.mgmt with pstate := n } } p .ok 0))) ∧
  (∀ (s : State) (id : Nat), (getCtx s id).st = .saving → (∀ c ∈ servingCores s id, coreSettled s c = true) →
     (∀ e ∈ residents s id, canSave e.2 = true) → id < 2 ^ 16 →
     ∃ s1 len, exec (.saveComplete id) s =
         .next (settle (replyTo (afterCommand s1 0x06 id) 0x06 id (getCtx s1 id).saveSlot .ok len)) ∧
       (getCtx s1 id).st = .saved ∧
       (∀ u t, find? s1.teams u = some t → t.ctx = id → t.status ≠ .ended → t.placed = false) ∧
       memNat s1.hostMem (getCtx s1 id).savea 2 = id ∧ 0x600 ≤ len)

/-- MAP, UNMAP, PERM, MIGRATE and CLEARACC, and the drain of a page (R363-R369, R372): the leaf that each leaves, and its reply.
PAGE_DRAIN_DONE (R365-R369): a drained UNMAP frees the page's runs and writes its leaf as 0, a drained PERM writes the new
rights, the second step of a MIGRATE to the host writes a leaf that names the host page, and a log held by a stopped core
gives BUSY with the old leaf back. (A page table that lies in the mirror of the remap tables is read-only, R442.) That CLEARACC takes any mask
and reads its bits 51:0, that MIGRATE of kind 1 makes an absent page present whatever CONF is, and in what order a command checks, is the
model's choice (log 41, DEDUCED). -/
def Obligations.PageCommandsComplete : Prop :=
  (∀ (s : State) (p : Packet) (x : PageSlot), performs s false = true → s.pageWork = none → let id := pktCtx p
     let c := getCtx s id
     let f := p.w3.toNat
     let gone := { shootDown s id p.w1.toNat x.size x.slotAt (stopWrites x.entry) with
       pageWork := some ⟨p, id, p.w1.toNat, x.size, x.slotAt, x.entry, false⟩ }
     (s.mgmt.remap = 0 ∨ x.slotAt + 16 ≤ s.mgmt.remap ∨ s.mgmt.remap + 2 ^ 20 ≤ x.slotAt) →
     (c.st = .active ∨ c.st = .saved) → pageSlot s id p.w1.toNat = some x → pktHead p = true →
     p.w4 = 0#64 → p.w5 = 0#64 → p.w6 = 0#64 → p.w7 = 0#64 → p.w1.toNat % x.size = 0 →
     (pktOp p = 0x10 → p.w3 = 0#64 → bitAt x.entry 0 = false → ∀ e, e = p.w2.toNat → bitAt e 0 = true →
       leafOk (x.size != 65536) e = true → leafMig e = false → leafProt e = false → leafFix e = false → leafTgt e = 0 →
       c.conf = false → overPromise c (x.size / 65536) = false →
       ∃ s1, exec (.map p) s = finishCmd s1 p .ok 0 ∧ tableWord s1 x.slotAt = e ∧ tableWord s1 (x.slotAt + 8) = 0 ∧
         (getCtx s1 id).mapped = c.mapped + x.size / 65536 ∧
         (∀ b, leafBlock e ≤ b → b < leafBlock e + blocksIn x.size → metaOf s1 b = BlockMeta.reset ∧
           ∀ i < 256, memByte s1.mem (b * 256 + i) = 0#8)) ∧
     (pktOp p = 0x11 → p.w2 = 0#64 → p.w3 = 0#64 → bitAt x.entry 0 = true → exec (.unmap p) s = .next (settle gone)) ∧
     (pktOp p = 0x12 → p.w3 = 0#64 → p.w2.toNat % 4 = 0 → p.w2.toNat < 64 → bitAt x.entry 0 = true → x.entry < 2 ^ 64 →
       let e := setRights x.entry (p.w2.toNat / 4)
       (leafW x.entry = true → leafW e = false → exec (.perm p) s = .next (settle gone)) ∧
       ((leafW x.entry = false ∨ leafW e = true) →
         ∃ s1, exec (.perm p) s = finishCmd s1 p .ok 0 ∧ tableWord s1 x.slotAt = e ∧
           ((∀ i ∈ [2, 4], bitAt x.entry i = true → bitAt e i = true) → tableWord s1 (x.slotAt + 8) = tableWord s (x.slotAt + 8)) ∧
           ((∃ i ∈ [2, 4], bitAt x.entry i = true ∧ bitAt e i = false) →
             ∀ i < 50, bitAt (tableWord s1 (x.slotAt + 8)) i = false))) ∧
     (pktOp p = 0x13 → p.w2 = 0#64 → f < 8 → bitAt x.entry 0 = true → leafTgt x.entry = 0 →
       ∃ s1, exec (.migrateIndev p) s = finishCmd s1 p .ok x.size ∧ (∀ a, memByte s1.mem a = memByte s.mem a) ∧
         s1.tspace = s.tspace ∧
         ∀ k, leafBlock x.entry / 256 ≤ k → k < leafBlock x.entry / 256 + blocksIn x.size / 256 → find? s1.runStack k = some f) ∧
     (pktOp p = 0x13 → p.w2 = 1#64 → f < 2 ^ 25 → f % (x.size / 65536) = 0 → overPromise c (x.size / 65536) = false →
       (bitAt x.entry 0 = true → leafTgt x.entry = 1 → exec (.migrateTodev p) s = .next (settle gone)) ∧
       (bitAt x.entry 0 = false → ∃ s1, exec (.migrateTodev p) s = finishCmd s1 p .ok 0 ∧
         tableWord s1 x.slotAt = 15 + f * 65536 ∧ (getCtx s1 id).mapped = c.mapped + x.size / 65536)) ∧
     (pktOp p = 0x13 → p.w2 = 2#64 → f < 2 ^ 56 → f % x.size = 0 → f % 65536 = 0 → bitAt x.entry 0 = true → leafTgt x.entry = 0 →
       leafProt x.entry = false → exec (.migrateTohost p) s = .next (settle gone)) ∧
     (pktOp p = 0x14 → p.w3 = 0#64 → bitAt x.entry 0 = true →
       ∃ s1, exec (.clearacc p) s = finishCmd s1 p .ok 0 ∧
         ∀ i < 64, bitAt (tableWord s1 (x.slotAt + 8)) i =
           (bitAt (tableWord s (x.slotAt + 8)) i && !(bitAt p.w2.toNat i && decide (i < 52))))) ∧
  (∀ (s : State) (k : PageWork), s.pageWork = some k → k.oldLeaf < 2 ^ 64 → let st := (getCtx s k.ctx).st
     let holders := logHolders s k.ctx k.base k.size
     let gone := fun (s1 : State) => ∀ w ∈ s1.walkers, ∀ e ∈ w.tlb, ¬ (e.ctx = k.ctx ∧ e.base = k.base ∧ e.size = k.size)
     s.walkers.length = 2 → st = .active ∨ st = .saved →
     (s.mgmt.remap = 0 ∨ k.slotAt + 16 ≤ s.mgmt.remap ∨ s.mgmt.remap + 2 ^ 20 ≤ k.slotAt) →
     (k.switching = false → holders = [] → pinned s k.ctx k.base k.size = false → pktOp k.p = 0x11 → leafTgt k.oldLeaf = 0 →
       let n := sectorsOf s (leafBlock k.oldLeaf) (blocksIn k.size)
       ∃ s1, exec .pageDrainDone s = finishCmd s1 k.p .ok n ∧ tableWord s1 k.slotAt = 0 ∧ s1.pageWork = none ∧ gone s1 ∧
         (getCtx s1 k.ctx).mapped = (getCtx s k.ctx).mapped - k.size / 65536 ∧
         (getCtx s1 k.ctx).alloc = (getCtx s k.ctx).alloc - n) ∧
     (k.switching = false → holders = [] → pinned s k.ctx k.base k.size = false → pktOp k.p = 0x12 →
       ∃ s1, exec .pageDrainDone s = finishCmd s1 k.p .ok 0 ∧ s1.pageWork = none ∧
         tableWord s1 k.slotAt = setRights k.oldLeaf (field k.p.w2.toNat 2 4)) ∧
     (k.switching = true → field k.p.w2.toNat 0 2 = 2 → k.p.w3.toNat < 2 ^ 56 →
       ∃ s1, exec .pageDrainDone s = finishCmd s1 k.p .ok k.size ∧ s1.pageWork = none ∧ gone s1 ∧
         leafTgt (tableWord s1 k.slotAt) = 1 ∧ leafFrame (tableWord s1 k.slotAt) = k.p.w3.toNat / 65536 ∧
         leafW (tableWord s1 k.slotAt) = true ∧ leafMig (tableWord s1 k.slotAt) = false) ∧
     (k.switching = false → (∃ t ∈ holders, (getCore s t.core).stop.isSome) →
       ∃ s1, exec .pageDrainDone s = finishCmd s1 k.p .busy 0 ∧ s1.pageWork = none ∧ tableWord s1 k.slotAt = k.oldLeaf))

/-- The core commands (R409, R410): RESUME and SKIP let a stopped core go on, KILL ends a team, RDSTATE and WRSTATE move a team
record to and from the host, STEP lets one team issue, HALT stops a core, and LIST names the teams. -/
def Obligations.CoreCommandsComplete : Prop :=
  ∀ (s : State) (p : Packet), performs s false = true → let c := pktCore p
    let a := p.w3.toNat
    c < 160 → pktCtx p ≠ 0 → (getCore s c).ctx = pktCtx p →
    (∀ ins op skip, (ins, op, skip) ∈ [(Instr.resume p, 0x20, false), (.skip p, 0x21, true)] → pktOp p = op →
      coreForm p false = true → ∀ u cause, (getCore s c).stop = some ⟨some u, cause, false, none⟩ → cause ≠ 0x4F →
      ∀ t, find? s.teams u = some t → t.core = c → t.placed = true → t.status = .ready → t.trace.on = false → t.stepOnce = false →
      t.flow.lanes = [] → 0 < t.lanes → NoLoops t → t.flow.uni = false → t.booking = none → t.flow.loops.length = 3 →
      t.exitFlow = none →
      ∃ s1 t', exec ins s = finishCmd s1 p .ok 0 ∧ (getCore s1 c).stop = none ∧ find? s1.teams u = some t' ∧
        t' = { t with flow := t'.flow, counts := [], flight := [], pend := [], walked := [], asks := [] } ∧
        t'.flow.pc = if skip then t.cur.next else t.flow.pc) ∧
    (∀ t, isStopped s c = true → coreForm p true = true → namedTeam s p = some t → find? s.teams t.uid = some t →
      (pktOp p = 0x22 →
        ∃ s1 t', exec (.kill p) s = finishCmd s1 p .ok 0 ∧ find? s1.teams t.uid = some t' ∧ t'.status = .ended) ∧
      (pktOp p = 0x23 → wholeCore p = false →
        ∃ s1, exec (.rdstate p) s = finishCmd s1 p .ok 0 ∧ s1 = { s with hostMem := s1.hostMem, hist := s1.hist } ∧
          (∀ n < 384, memNat s1.hostMem (a + 320 + 9 * t.lanes + 8 * n) 8 = (kreg t n).toNat) ∧
          ∀ x, (x < a ∨ a + recordSize t ≤ x) → memByte s1.hostMem x = memByte s.hostMem x) ∧
      (pktOp p = 0x24 → wholeCore p = false → sameTeam t (memBytes s.hostMem a (recordSize t)) = true →
        ∃ s1 t', exec (.wrstate p) s = finishCmd s1 p .ok 0 ∧ find? s1.teams t.uid = some t' ∧
          ∀ n, 0 < n → n < 384 → (kreg t' n).toNat = memNat s.hostMem (a + 320 + 9 * t.lanes + 8 * n) 8) ∧
      (pktOp p = 0x25 →
        ∃ s1 t', exec (.step p) s = finishCmd s1 p .ok 0 ∧ (getCore s1 c).stop = none ∧ find? s1.teams t.uid = some t' ∧
          t'.stepOnce = true)) ∧
    (pktOp p = 0x26 → coreForm p false = true →
      ((getCore s c).stop = none → ∃ s1 rec, exec (.halt p) s = finishCmd s1 p .ok 0 ∧
        (getCore s1 c).stop = some ⟨none, 0x5F, true, rec⟩) ∧
      ((getCore s c).stop.isSome → exec (.halt p) s = finishCmd s p .ok 0)) ∧
    (pktOp p = 0x27 → coreForm p false = true → isStopped s c = true →
      let ts := teamsAt s c (pktCtx p)
      ts.length < 2 ^ 32 →
      ∃ s1, exec (.list p) s = finishCmd s1 p .ok 0 ∧ s1 = { s with hostMem := s1.hostMem, hist := s1.hist } ∧
        memNat s1.hostMem a 8 = ts.length ∧
        ∀ i t, ts[i]? = some t → memNat s1.hostMem (a + 8 + 16 * i) 8 = t.id % 2 ^ 32 + t.part % 4 * 2 ^ 32)

/-- Host transactions (R429-R432, R442, R447, R448): a well-formed one on a usable host link is performed and answered; one that
cannot be performed is answered with its cause, and no byte changes. A write leaves the mirror of the remap tables as it is, and a
management read finds 0 in every reserved bit of m0. -/
def Obligations.HostTransactionsAreAnswered : Prop :=
  (∀ s : State, hostOk s .table = true → let m := s.mgmt.remap
    let clear := fun (addr n : Nat) => m = 0 ∨ addr + n ≤ m ∨ m + 2 ^ 20 ≤ addr
    (∀ (sp : Space) (addr len : Nat), hostOk s sp = true → hostSpan addr len = true → farPlace s sp addr .load = none →
      (∀ s1 bs, outerRead s .host sp addr len = .ok (s1, bs) →
        exec (.hostRead (.space sp) addr len) s = hostDone (outSees s1 .host (clRead s1 sp addr bs)) (.data bs)) ∧
      (∀ c, outerRead s .host sp addr len = .error c → exec (.hostRead (.space sp) addr len) s = hostDone s (.failed c)) ∧
      (∀ id k leaf, sp = .ctx id → (getCtx s id).st ≠ .free → xlateWalk s id addr .load = .ok (.dev k) leaf → leafProt leaf = false →
        (∀ l, walk s id addr = some l → leafProt l.bits = false) → (metaOf s (k / 256)).poison = false →
        Synced s s.hostSeen.seen 0 k len (memByte s.mem) →
        ∃ s1, exec (.hostRead (.space sp) addr len) s = hostDone s1 (.data (memBytes s.mem k len)) ∧ SameBytes s s1)) ∧
    (∀ addr len, hostSpan addr len = true → addr + len ≤ s.mgmt.tssize →
      let bs := memBytes s.tspace addr len
      exec (.hostRead (.space .table) addr len) s = hostDone (outSees s .host (clRead s .table addr bs)) (.data bs)) ∧
    (∀ n < 13, exec (.hostRead .control (8 * n) 8) s = hostDone s (.data (bytesOf 8 (nth 0 (mgmtWords s.mgmt) n)))) ∧
    (∀ addr (bytes : List (Option Byte)), hostSpan addr bytes.length = true → addr + bytes.length ≤ s.mgmt.tssize →
      ∃ s1, exec (.hostWrite .table addr bytes) s = hostDone s1 .ack ∧ s1 = { s with tspace := s1.tspace } ∧
        (clear addr bytes.length → ∀ x, memByte s1.tspace x =
          if addr ≤ x then ((bytes[x - addr]?).getD none).getD (memByte s.tspace x) else memByte s.tspace x) ∧
        ∀ x, m ≠ 0 → m ≤ x → x < m + 2 ^ 20 → memByte s1.tspace x = memByte s.tspace x) ∧
    (∀ id addr (bytes : List (Option Byte)) k leaf, hostOk s (.ctx id) = true → hostSpan addr bytes.length = true →
      (getCtx s id).st ≠ .free →
      xlateWalk s id addr .store = .ok (.dev k) leaf → leafProt leaf = false → (metaOf s (k / 256)).poison = false →
      (∀ l, walk s id addr = some l → leafProt l.bits = false) → Synced s s.hostSeen.seen 0 k bytes.length (memByte s.mem) →
      Unstored s (k / 256) → (leafDebits leaf = true → (debit8 s .pool id).2 = true) →
      ∃ s1, exec (.hostWrite (.ctx id) addr bytes) s = hostDone s1 .ack ∧
        ∀ x, memByte s1.mem x =
          if k ≤ x then ((bytes[x - k]?).getD none).getD (memByte s.mem x) else memByte s.mem x) ∧
    (∀ (w : Width) (md : AtomMod) (o n : W64) (addr : Nat), w = .b32 ∨ w = .b64 → addr % widthBytes w = 0 →
      addr + widthBytes w ≤ s.mgmt.tssize → clear addr (widthBytes w) →
      let m := memNat s.tspace addr (widthBytes w)
      ∃ s1, exec (.hostRmw .table addr w md o n) s = hostDone s1 (.data (bytesOf (widthBytes w) m)) ∧
        s1 = { s with tspace := s1.tspace } ∧
        memBytes s1.tspace addr (widthBytes w) = bytesOf (widthBytes w) (rmwNew w md m o.toNat n.toNat) ∧
        ∀ x, (x < addr ∨ addr + widthBytes w ≤ x) → memByte s1.tspace x = memByte s.tspace x) ∧
    (∀ (sp : Space) (form : LoomForm) (h : W64) (ops : List W64), hostOk s sp = true → (∀ id, sp = .ctx id → (getCtx s id).st ≠ .free) →
      (hostWordsOk form (fun i => (nth 0#64 ops i).toNat) = false →
        exec (.hostLoom sp form h ops) s = hostDone s (.failed 0x5A)) ∧
      (form = .seqWait → hostWordsOk form (fun i => (nth 0#64 ops i).toNat) = true →
        exec (.hostLoom sp form h ops) s = hostDone s (.failed 0x59))) ∧
    (∀ (sp : Space) (h : W64) (s2 : State), hostOk s sp = true → (∀ id, sp = .ctx id → (getCtx s id).st ≠ .free) →
      let r := loomLen (txStart s sp true) h.toNat
      txFinish r.tx (loomDie s sp h.toNat) .pool = .done s2 →
      exec (.hostLoom sp .seqLen h []) s =
        hostDone (outSees s2 .host (seqView s2 (spaceNo sp) h.toNat (r.res % 2 ^ 32))) (.words [BitVec.ofNat 64 r.res])) ∧
    (∀ (sp : Space) (pool node : Nat) (s2 : State), hostOk s sp = true → (∀ id, sp = .ctx id → (getCtx s id).st ≠ .free) →
      let r := loomRemove (txStart s sp true) pool node
      txFinish r.tx (loomDie s sp pool) .pool = .done s2 →
      exec (.ptreeRemove sp pool node) s = hostDone s2 (.words [BitVec.ofNat 64 r.res]) ∧
        (node = 0 → txOk r.tx = true → r.res = 2 ^ 63 + 12 * 2 ^ 56 ∧ ∀ x, memByte s2.mem x = memByte s.mem x))) ∧
  (∀ g : Mgmt, field (nth 0 (mgmtWords g) 0) 4 4 = 0 ∧ nth 0 (mgmtWords g) 0 < 2 ^ 16 ∧ nth 0 (mgmtWords g) 1 < 2 ^ 8) ∧
  (∀ (s : State) (nonce : BitVec 384) (ctx : Nat), portUsable (nth Port.reset s.ports 16) = true →
    ∃ r : List Byte, exec (.attest nonce ctx) s = hostDone s (.report r) ∧ r.length = 256 + 16608 ∧
      natOf ((r.drop 112).take 48) = nonce.toNat)

/-- The ports (R420-R422): a training and what it comes to, a lane that fails, and the flits that are sent again. That w5 of a record holds
the port in bits 7:0 and the lane in bits 15:8 is log 9 (DESIGN CHOICE), and that a DEGRADED port which loses a lane goes to FAILED or stays,
freely, is log 44 (DESIGN CHOICE). -/
def Obligations.PortsTrainAndFail : Prop :=
  ∀ (s : State) (q : Nat), q < s.ports.length → let p := nth Port.reset s.ports q
    let to_ := fun (st : PortSt) => { s with ports := setAt s.ports q { p with st := st } }
    let noted := fun (s : State) (cause lane : Nat) => pushRec s { blankRec s cause 0 with w5 := q % 256 + lane % 256 * 2 ^ 8 }
    (p.st = .down ∨ p.st = .degraded ∨ p.st = .failed → exec (.train q) s = .next (settle (to_ .training))) ∧
    (p.st = .training →
      exec (.linkTrained q .full) s = .next (settle (to_ .up)) ∧
      exec (.linkTrained q .half) s = .next (settle (to_ .degraded)) ∧
      exec (.linkTrained q .failed) s = .next (settle (noted (to_ .failed) 0xA6 0))) ∧
    (∀ lane, laneCount q ≤ lane → exec (.laneFailure q lane) s = .next (settle s)) ∧
    (∀ lane < laneCount q, (p.st = .up → exec (.laneFailure q lane) s = .next (settle (noted (to_ .spared) 0xA3 lane))) ∧
      (p.st = .spared → exec (.laneFailure q lane) s = .next (settle (to_ .training))) ∧
      (p.st = .degraded → exec (.laneFailure q lane) s = .next (settle s) ∨
        exec (.laneFailure q lane) s = .next (settle (noted (to_ .failed) 0xA6 lane)))) ∧
    (∀ idx, p.st = .up ∨ p.st = .spared ∨ p.st = .degraded → p.rx ≤ idx → idx < p.tx →
      exec (.flitCrcError q idx) s = .next (settle { s with ports := setAt s.ports q { p with rx := idx } }))

/-- Peers (R173, R414, R426, R427): an inbound access whose source no entry accepts fails with 0x64 and a 0xA5 record, and so does a
write that only windows for reads would take; one that is accepted reads its window's bytes; an answer fills the load that waits for
it, and an access that is not answered for 2 ms fails. -/
def Obligations.PeersAreAnswered : Prop :=
  (∀ (s : State) (dev rctx : Nat) (acc : PeerAccess), s.mgmt.pstate ≠ 2 → s.mgmt.bootok = true → inboundSpan acc = true →
    (inboundSlot s dev rctx (fun _ => true) = none →
      exec (.peerInboundAccess dev rctx acc) s = .next (settle { pushRec s { blankRec s 0xA5 0 with
          addr := inAddr acc, w5 := 0x64 + dev % 256 * 2 ^ 8 } with answers := s.answers ++ [.failed 0x64] })) ∧
    (∀ slot e, inboundSlot s dev rctx (fun _ => true) = some (slot, e) → inWrites acc = true →
      inboundSlot s dev rctx (fun x => !(bitAt x 33)) = none →
      exec (.peerInboundAccess dev rctx acc) s = .next (settle { pushRec s { blankRec s 0xA5 (field e 21 12) with
          addr := inAddr acc, w5 := 0x64 + dev % 256 * 2 ^ 8 + slot * 2 ^ 16 } with answers := s.answers ++ [.failed 0x64] })) ∧
    (∀ slot e a n q, inboundSlot s dev rctx (fun _ => true) = some (slot, e) → acc = .read a n →
      outerPlace s (.ctx (field e 21 12)) a n .load = .ok q →
      ∀ s0, s0 = markPeer s (field e 21 12) a slot → ∀ s1 bs, outerRead s0 (.link dev) (.ctx (field e 21 12)) a n = .ok (s1, bs) →
      exec (.peerInboundAccess dev rctx acc) s = .next (settle { s1 with answers := s.answers ++ [.data bs] }) ∧
        SameBytes { s with tspace := s1.tspace } s1 ∧
        ∀ k, q.1 = .dev k → Synced s0 (tabGet ⟨[], 0⟩ s.linkSeen dev).seen 0 k n (memByte s.mem) → bs = memBytes s.mem k n)) ∧
  (∀ (s : State) (id : Nat) (r : PeerReq) (p : Pending) (t : Team) (d : Nat) (l : Nat) (data : List Byte),
    s.hostAsks = [] → s.peers = [r] → r.id = id → r.failed = none → r.port < 16 → r.store = false → r.uid ≠ 0 → r.rmw = none →
    r.reg = some d →
    r.lanes = [l] → r.size = 4 → r.bytes = List.replicate 4 none → data.length = 4 → find? s.teams r.uid = some t → t.pend = [p] →
    p.peers = [id] → p.isLoad = true → t.status = .waiting .load →
    exec (.peerResponse id (.ok data)) s = .next (settle (setTeam { s with peers := [] } r.uid { t with
      pend := [{ p with peers := [], writes := p.writes ++ [⟨l, d, BitVec.ofNat 32 (natOf data)⟩] }] })) ∧
    (r.sent + 2000000 ≤ s.mgmt.time → p.fault = none →
      exec (.peerTimeout id) s = .next (settle (setTeam { s with peers := [] } r.uid { t with
        pend := [{ p with peers := [], fault := some ⟨0x65, some l, r.va, r.dev * 2 ^ 8⟩ }] })))) ∧
  (∀ (s : State) (id : Nat) (r : PeerReq), s.hostAsks = [] → s.peers = [r] → r.id = id → r.failed = none → r.store = true →
    (getTeam s r.uid).status ≠ .ended → r.sent + 2000000 ≤ s.mgmt.time →
    exec (.peerTimeout id) s = .next (settle { s with peers := [{ r with failed := some 0 }] }))

/-- The memory stacks (R436-R443): a bank that owes a refresh takes it, unless requests wait and it owes fewer than eight; a row at
2048 activations has its neighbours refreshed; corrected errors fill buckets, which leak every ten minutes; an uncorrectable one
poisons its block and spares its row at once; and a row that has reached 8 is spared while its bank has a spare row left. No byte of
the device frames changes. -/
def Obligations.StacksRefreshScrubAndSpare : Prop :=
  ∀ (s : State) (k : Nat), k < 8 → s.stks.length = 8 → let st := stackOf s k
    let now := s.mgmt.time
    (∀ ch b, ch < 32 → b < 64 → 1 ≤ owedBy now st (64 * ch + b) → tabGet 0 st.busy (64 * ch + b) ≤ now →
      bankWanted s k (64 * ch + b) = false ∨ owedBy now st (64 * ch + b) = 8 →
      ∃ s1, exec (.refresh k ch b) s = .next (settle s1) ∧ s1 = { s with stks := s1.stks } ∧
        owedBy now (stackOf s1 k) (64 * ch + b) = owedBy now st (64 * ch + b) - 1 ∧
        tabGet 0 (stackOf s1 k).busy (64 * ch + b) = now + 350 ∧ ∀ j, j ≠ k → stackOf s1 j = stackOf s j) ∧
    (∀ ch b row, ch < 32 → b < 64 → 2048 ≤ actCount now st (32768 * (64 * ch + b) + row) →
      ∃ s1, exec (.mitigationRefresh k ch b row) s = .next (settle s1) ∧ s1 = { s with stks := s1.stks } ∧
        actCount now (stackOf s1 k) (32768 * (64 * ch + b) + row) = 0 ∧
        (owedBy now st (64 * ch + b) = 8 → owedBy now (stackOf s1 k) (64 * ch + b) = 0)) ∧
    (st.leakAt + 600000000000 ≤ now → ∃ s1, exec (.bucketLeak k) s = .next (settle s1) ∧ s1 = { s with stks := s1.stks } ∧
      (stackOf s1 k).leakAt = st.leakAt + 600000000000 ∧
      (stackOf s1 k).buckets = (st.buckets.map fun b => { b with count := b.count - 1 }).filter fun b => b.count != 0) ∧
    (∀ sec, sec < 2 ^ 31 → let x := k * 2 ^ 31 + sec
      (∃ s1, exec (.scrubRead k sec .clean) s = .next (settle s1) ∧ SameBytes s s1 ∧ (stackOf s1 k).buckets = st.buckets) ∧
      (∃ s1, exec (.scrubRead k sec .corrected) s = .next (settle s1) ∧ SameBytes s s1 ∧
        (st.buckets.all (fun b => b.row != rowKey x) = true → st.buckets.length < 256 →
          (stackOf s1 k).buckets = st.buckets ++ [⟨rowKey x, 1⟩]) ∧
        (∀ c, st.buckets = [⟨rowKey x, c⟩] → (stackOf s1 k).buckets = [⟨rowKey x, c + 1⟩])) ∧
      (∃ s1, exec (.scrubRead k sec .uncorrectable) s = .next (settle s1) ∧
        (∀ a, memByte s1.mem a = memByte s.mem a) ∧ (∀ b, blockAt s x = some b → (metaOf s1 b).poison = true) ∧
        let n := (st.spares.filter fun y => y.bank == bankOf x).length
        (n < 8 → (stackOf s1 k).spares = st.spares ++ [⟨bankOf x, n, field x 16 15, true⟩]))) ∧
    (∀ ch b row ue, ch < 32 → b < 64 → row < 32768 →
      (ue = true ∨ 8 ≤ bucketOf (32768 * (64 * ch + b) + row) st.buckets) →
      let n := (st.spares.filter fun x => x.bank == 64 * ch + b).length
      ∃ s1, exec (.rowSpare k ch b row ue) s = .next (settle s1) ∧
        (n < 8 → (stackOf s1 k).spares = st.spares ++ [⟨64 * ch + b, n, row, ue⟩]) ∧
        (8 ≤ n → (stackOf s1 k).spares = st.spares) ∧
        bucketOf (32768 * (64 * ch + b) + row) (stackOf s1 k).buckets = 0 ∧ (∀ a, memByte s1.mem a = memByte s.mem a) ∧
        ∃ r ∈ s1.evPend, r.cause = 0xA2 ∨ 16 ≤ s.evPend.length)

/-- Containment, power and management (R7, R103, R379, R411-R413, R446-R448): an error is contained in the unit it strikes, whichever
that is; a core taken offline serves nothing and its spare, when its cluster has one left, is due; a trip above 105 °C stops every
core; a reset leaves the state of a reset; TIME never decreases;
m0 is read only; and a handle field is written only before the first CREATE. That a temperature up to 105 °C changes only TEMP is log 50
(DEDUCED), that an error in a lock that is not VALID changes nothing log 10 (DESIGN CHOICE), and how TSSIZE moves the reserve log 51
(DEDUCED). -/
def Obligations.ContainmentAndManagement : Prop :=
  (∀ s : State,
    (∀ b, ∃ s1, exec (.uncorrectableError (.block b)) s = .next (settle s1) ∧ (metaOf s1 b).poison = true ∧
      (∀ a, memByte s1.mem a = memByte s.mem a) ∧ ∀ c, c ≠ b → metaOf s1 c = metaOf s c) ∧
    (∀ b, ∃ s1, exec (.uncorrectableError (.blockMeta b)) s = .next (settle s1) ∧ (metaOf s1 b).poison = true ∧
      (metaOf s1 b).len = 0 ∧ (∀ a, memByte s1.mem a = memByte s.mem a) ∧ ∀ c, c ≠ b → metaOf s1 c = metaOf s c) ∧
    (∀ core a, ∃ s1, exec (.uncorrectableError (.granule core a)) s = .next (settle s1) ∧
      a / 16 ∈ (getCore s1 core).spadPoison ∧ SameBytes s s1) ∧
    (∀ core t r c, ∃ s1, exec (.uncorrectableError (.tileElem core t r c)) s = .next (settle s1) ∧
      tileKey t (r % 64) (c % 64) ∈ (getCore s1 core).tilePoison ∧ SameBytes s s1) ∧
    (∀ u t, find? s.teams u = some t → t.status ≠ .ended →
      ∃ s1 t', exec (.uncorrectableError (.team u)) s = .next (settle s1) ∧ find? s1.teams u = some t' ∧ t'.status = .ended) ∧
    (∀ c < 160, (getCore s c).offline = false → exec (.uncorrectableError (.core c)) s = exec (.coreOffline c) s) ∧
    (∀ k ch b row, bankExists k ch b = true → row < 32768 →
      exec (.uncorrectableError (.stackRow k ch b row)) s = exec (.rowSpare k ch b row true) s) ∧
    (∀ q lane, exec (.uncorrectableError (.linkLane q lane)) s = exec (.laneFailure q lane) s) ∧
    (∀ id, (getCtx s id).st = .active ∨ (getCtx s id).st = .saved →
      ∃ s1, exec (.uncorrectableError (.context id)) s = .next (settle s1) ∧ (getCtx s1 id).st = .fenced) ∧
    (∀ core i x, (getCore s core).deque[i]? = some x →
      exec (.uncorrectableError (.task core i)) s =
        .next (settle (loseTask (modCore s core fun c => { c with deque := c.deque.eraseIdx i }) core x))) ∧
    (∀ core n, ((getLock s core n).st = .valid →
        ∃ s1, exec (.uncorrectableError (.lock core n)) s = .next (settle s1) ∧ (getLock s1 core n).st = .broken) ∧
      ((getLock s core n).st ≠ .valid → exec (.uncorrectableError (.lock core n)) s = .next (settle s)))) ∧
  (∀ (s : State) (core : Nat), core < 160 → (getCore s core).offline = false →
    (∃ s1, exec (.coreOffline core) s = .next (settle s1) ∧ (getCore s1 core).offline = true ∧
      (getCore s1 core).spareDue = spareFree s core ∧ (getCore s1 core).ctx = 0 ∧ (getCore s1 core).stop = none) ∧
    ((getCore s core).deque = [] → (∀ e ∈ s.teams, e.2.core ≠ core) → (∀ c ∈ (getCore s core).copyQ.flatten, c.gone = false) →
      core % 2 = 0 → spareFree s core = true →
      ∃ s1, exec (.coreOffline core) s = .next (settle s1) ∧ ((getCore s core).ctx ≠ 0 → (getCore s1 core).slice = 0) ∧
        core ∈ s1.spareOf ∧ (∀ n, n ≠ core → getCore s1 n = getCore s n))) ∧
  (∀ (s : State) (temp : Nat),
    (temp ≤ 105 → exec (.thermalTrip temp) s =
      .next (settle { s with mgmt := { s.mgmt with temp := BitVec.ofNat 8 temp } })) ∧
    (105 < temp → ∃ s1, exec (.thermalTrip temp) s = .next (settle s1) ∧ s1.mgmt.trip = true ∧
      s1.mgmt.temp.toNat = min temp 255 ∧ (s.evPend.length < 16 → ∃ r ∈ s1.evPend, r.cause = 0xA9) ∧
      ∀ c < 160, (getCore s c).offline = false → (getCore s1 c).stop.isSome)) ∧
  (∀ (s : State) (bootOk runtimeOk : Bool), ∃ s1, exec (.reset bootOk runtimeOk) s = .next s1 ∧
    s1 = { State.reset with
      tspace := s1.tspace, hostMem := s.hostMem, stks := s1.stks, agenda := s.agenda, free := s.free
      mgmt := { State.reset.mgmt with bootok := bootOk && runtimeOk, temp := s1.mgmt.temp } } ∧
    ∀ k, (stackOf s1 k).spares = (stackOf s k).spares) ∧
  (∀ s : State, mgmtOk s = true → ∀ v : W64,
    exec (.timeWrite v) s = .next (settle (if s.mgmt.time ≤ v.toNat then { s with mgmt := { s.mgmt with time := v.toNat } } else s)) ∧
    exec (.mgmtWrite 0 v) s = .next (settle s) ∧
    exec (.mgmtWrite 1 v) s = .next (settle { s with mgmt := { s.mgmt with devnum := v.toNat % 256 } }) ∧
    exec (.mgmtWrite 2 v) s = exec (.timeWrite v) s ∧
    (∀ f, 3 ≤ f → s.mgmt.created = true → exec (.mgmtWrite f v) s = .next (settle s)) ∧
    (s.mgmt.created = false →
      exec (.mgmtWrite 5 v) s = .next (settle { s with mgmt := { s.mgmt with ctlq := v.toNat } }) ∧
      exec (.mgmtWrite 6 v) s = .next (settle { s with mgmt := { s.mgmt with replyq := v.toNat } }) ∧
      exec (.mgmtWrite 7 v) s = .next (settle { s with mgmt := { s.mgmt with pageq := v.toNat } }) ∧
      exec (.mgmtWrite 8 v) s = .next (settle { s with mgmt := { s.mgmt with coreq := v.toNat } }) ∧
      exec (.mgmtWrite 9 v) s = .next (settle { s with mgmt := { s.mgmt with eventq := v.toNat }, evDue := !s.evPend.isEmpty }) ∧
      exec (.mgmtWrite 10 v) s = .next (settle { s with mgmt := { s.mgmt with outb := v.toNat } }) ∧
      exec (.mgmtWrite 11 v) s = .next (settle { s with mgmt := { s.mgmt with inb := v.toNat } }) ∧
      (v.toNat < 2 ^ 56 → v.toNat % 2 ^ 21 = 0 →
        exec (.mgmtWrite 3 v) s = .next (settle { s with mgmt := { s.mgmt with tsbase := v.toNat } }) ∧
        exec (.mgmtWrite 4 v) s = .next (settle { s with
          mgmt := { s.mgmt with tssize := v.toNat }, reserve := Config.sectors - v.toNat / 32 })) ∧
      (v = 0#64 → exec (.mgmtWrite 12 v) s = .next (settle { s with mgmt := { s.mgmt with remap := 0 } })) ∧
      (v ≠ 0#64 → v.toNat < 2 ^ 56 → s.stks.length = 8 → let m := v.toNat
        let entry := fun (k : Nat) (x : Spare) => m + 8 * (16384 * k + 8 * x.bank + x.k)
        (∀ k < 8, ∀ x ∈ (stackOf s k).spares, x.bank < 2048 ∧ x.k < 8 ∧
          ((stackOf s k).spares.filter fun y => y.bank == x.bank && y.k == x.k) = [x]) →
        ∃ s1, exec (.mgmtWrite 12 v) s = .next (settle s1) ∧
          s1 = { s with mgmt := { s.mgmt with remap := m }, tspace := s1.tspace } ∧
          (∀ a, (a < m ∨ m + 2 ^ 20 ≤ a) → memByte s1.tspace a = memByte s.tspace a) ∧
          (∀ k < 8, ∀ x ∈ (stackOf s k).spares,
            memNat s1.tspace (entry k x) 8 = 1 + x.row % 32768 * 2 + (if x.ue then 2 ^ 16 else 0)) ∧
          ∀ a, m ≤ a → a < m + 2 ^ 20 → (∀ k < 8, ∀ x ∈ (stackOf s k).spares, a < entry k x ∨ entry k x + 8 ≤ a) →
            memByte s1.tspace a = 0#8)))

/-- A load or a store that meets a fault (R150, R152, R153, R157, R161, R176, R177, R212, R361, R409): a replayable cause, a capacity fault
among them, discards the region's log and its debit, appends a record with PARK that names the lane and its address, and parks the team,
with its registers and its snapshot as they were, and a capacity fault returns the core's slice; any other cause is a precise stop: a
misaligned or absent address, a log that is full, an address beyond the scratchpad, and poison. Poison in a global load is reported once it
returns (log 14, DESIGN CHOICE). APPEND_RETRY (R407): the waiting records of a context, or of the device, are due to be tried again. -/
def Obligations.AccessFaultsAndTheirRecords : Prop :=
  (∀ s u t, Issuing s u t → t.ctx ≠ 0 → t.trace.staged = [] →
    (∀ (c : Instr) (cause lane a : Nat),
      ((∃ w pol sx m, c = .ld w pol sx m ∧ lanesOf t ≠ [] ∧ Fits t (offUse true m.a m.b ++ [dataUse w m.t]) ∧
          checkLanes s t (widthBytes w) .load (globalLanes t m.a m.b m.imm) = .fault cause lane a) ∨
        (∃ w pol m, c = .st w pol m ∧ lanesOf t ≠ [] ∧ Fits t (offUse true m.a m.b ++ [dataUse w m.t]) ∧
          checkLanes s t (widthBytes w) .store (globalLanes t m.a m.b m.imm) = .fault cause lane a)) →
      (cause = 0x01 ∨ cause = 0x02 ∨ cause = 0x21 →
        ∃ s1, exec c s = .next (settle s1) ∧ ParkedAt s s1 u t cause (some lane) a) ∧
      (cause = 0x60 ∨ cause = 0x61 ∨ cause = 0x64 → (getCore s t.core).stop = none → StoppedAt c s u t cause 0 (some lane) a)) ∧
    (∀ (c : Instr) (un : Bool) (l : List LaneStore),
      ((∃ w pol m tl, c = .st w pol m ∧ un = false ∧ lanesOf t ≠ [] ∧ Fits t (offUse true m.a m.b ++ [dataUse w m.t]) ∧
          checkLanes s t (widthBytes w) .store (globalLanes t m.a m.b m.imm) = .ok tl ∧
          l = tl.map fun e => ⟨e.lane, e.addr, storeBytes w t m.t e.lane, e.leaf⟩) ∨
        (∃ w pol a b h e, c = .kst w pol a b h ∧ un = true ∧ a.toNat ≤ 383 ∧ b.toNat ≤ 383 ∧
          checkLanes s t (widthBytes w) .store [⟨0, wrapNat 64 ((kreg t b.toNat).toNat + dispOf h)⟩] = .ok [e] ∧
          l = [⟨0, wrapNat 64 ((kreg t b.toNat).toNat + dispOf h), bytesOf (widthBytes w) (kreg t a.toNat).toNat, e.leaf⟩])) →
      let named := fun (e : LaneStore) => if un then none else some e.lane
      (∀ e rest, l = e :: rest → t.logSize / 64 < logWith t l → (getCore s t.core).stop = none →
        StoppedAt c s u t 0x4C (logEntries t) (named e) e.addr) ∧
      (∀ e, logWith t l ≤ t.logSize / 64 → (debitStores u s l).2 = some e →
        ∃ s1, exec c s = .next (settle s1) ∧ ParkedAt s s1 u t 0x20 (named e) e.addr ∧ (getCore s1 t.core).slice = 0)) ∧
    (∀ (w : Width) (sx : Bool) (m : MArgs) (c : Instr), c = .lds w sx m ∨ c = .sts w m →
      Fits t (offUse false m.a m.b ++ [dataUse w m.t]) → (getCore s t.core).stop = none →
      let n := widthBytes w
      let fits := fun (i : Nat) => spadAddr t m i % n = 0 ∧ spadAddr t m i + n ≤ spgBytes (getCore s t.core).word
      let bad := fun (i : Nat) => spadPoisoned (getCore s t.core) (spadAddr t m i) n
      ∀ before i after, lanesOf t = before ++ i :: after → (∀ j ∈ before, fits j) →
        (spadAddr t m i % n ≠ 0 → StoppedAt c s u t 0x60 0 (some i) (spadAddr t m i)) ∧
        (spadAddr t m i % n = 0 → ¬ fits i → StoppedAt c s u t 0x62 0 (some i) (spadAddr t m i)) ∧
        (c = .lds w sx m → (∀ j ∈ lanesOf t, fits j) → (∀ j ∈ before, bad j = false) → bad i = true →
          StoppedAt c s u t 0x63 0 (some i) (spadAddr t m i))) ∧
    (∀ (w : Width) (pol : Pol) (sx : Bool) (m : MArgs) (before after : List Touch) (e : Touch) (k : Nat), lanesOf t ≠ [] →
      Fits t (offUse true m.a m.b ++ [dataUse w m.t]) →
      checkLanes s t (widthBytes w) .load (globalLanes t m.a m.b m.imm) = .ok (before ++ e :: after) →
      (∀ x ∈ before ++ after, (∃ j, x.place = .dev j) ∨ ∃ j, x.place = .host j) →
      (∀ x ∈ before, ∀ j, x.place = .dev j → (metaOf s (j / 256)).poison = false) →
      e.place = .dev k → (metaOf s (k / 256)).poison = true → (∃ a, e.addr ≤ a ∧ a < e.addr + widthBytes w ∧
        find? t.log a = none ∧ a / 256 ∉ t.zeros) →
      ∃ s' t' p, exec (.ld w pol sx m) s = .next s' ∧ find? s'.teams u = some t' ∧ ReadOnly s s' u ∧ t'.status = .waiting .load ∧
        t' = { t with
          cur := s.issue, booking := t'.booking, status := t'.status, pend := [p], got := t'.got, seen := t'.seen
          laneSeen := t'.laneSeen } ∧
        p.isLoad = true ∧ p.peers = [] ∧ p.fault = some ⟨0x63, some e.lane, e.addr, 0⟩)) ∧
  (∀ (s : State) (u i : Nat) (t : Team) (p : Pending) (f : DataFault), find? s.teams u = some t → t.ctx ≠ 0 →
    (getCore s t.core).stop = none → firstPend t true = some (i, p) → p.gather = 0 → p.retryAt = none → p.peers = [] →
    p.fault = some f →
    ∃ s1 t', exec (.loadReturn u) s = .next (settle s1) ∧ find? s1.teams u = some t' ∧
      t' = { t with pend := t.pend.eraseIdx i, status := .ready, stepOnce := false } ∧ StopOnly s s1 u t.core ∧
      StopRecorded s s1 u t t.cur.group f.cause f.w5 f.lane f.addr false) ∧
  (∀ s : State, exec (.appendRetry 0) s = .next (settle { s with evDue := !s.evPend.isEmpty })) ∧
  (∀ (s : State) (ctx : Nat), ctx ≠ 0 → (getCtx s ctx).st ≠ .free → (∀ e ∈ s.cpls, e.ctx ≠ ctx) →
    exec (.appendRetry ctx) s = .next (settle (setCtx s ctx { getCtx s ctx with due := !(getCtx s ctx).pend.isEmpty }))) ∧
  (∀ (s s1 : State) (id slot : Nat) (r : FaultRec) (n : Nat), (getCtx s id).due = true → (getCtx s id).pend = [r] → r.uid = none →
    appendSlot s (.ctx id) .pool (getCtx s id).fq 6 (recBytes { r with lost := (getCtx s id).lost }) = some (s1, slot) →
    (getCtx s1 id).pend = [r] →
    (getCtx (flushCtx (n + 2) s id) id).pend = [] ∧ (getCtx (flushCtx (n + 2) s id) id).lost = 0 ∧
      (∀ x, memByte (flushCtx (n + 2) s id).mem x = memByte s1.mem x))

/-- Every instruction and every event of the machine answers a next state: nothing is refused, and no step stops the device. That an event
which is not enabled changes nothing is the model's convention (log 10, DESIGN CHOICE). -/
def Obligations.EveryStepAnswersANextState : Prop :=
  (∀ (i : Instr) (s : State), ∃ s', exec i s = .next s') ∧ ∀ s : State, ∃ s', step s = .next s'

/-- A step fills room that teams can fill (R240), or, with none, performs what stands first in the agenda (the model's own order of
events, log 4, DESIGN CHOICE). Where a bank answers a request of it with a retry, the entry changes nothing but the records of the stacks and
stands in the agenda still (R437, log 45, DEDUCED). An issue fetches the team's next
group, whose hints and instruction word lie at its pc (R47, R144), and runs the instruction that they decode to; an illegal group
runs the stop of its cause (R52, R53); a group that cannot be fetched stops its core with 0x4F; a word in a peer window is asked of
the peer first. -/
def Obligations.StepRunsTheDecodedInstruction : Prop :=
  (∀ s s1 : State, fillRoom s = some s1 → step s = .next { s1 with free := s.free + 1 }) ∧
  (∀ (s : State) (a : Agendum) (rest : List Agendum), fillRoom s = none → s.agenda = a :: rest →
    let s0 : State := { s with agenda := rest, free := s.free + 1 }
    ∀ s1, stepAgendum a s0 = .next s1 →
      (banksMet s1 = [] → step s = .next s1) ∧
      (banksMet s1 ≠ [] → ∃ s2, step s = .next s2 ∧ s2 = { s0 with stks := s2.stks, agenda := s2.agenda } ∧ a ∈ s2.agenda)) ∧
  ∀ s : State,
    (∀ u, canIssue s u = true → let s0 := firstIssue s u
      let t := getTeam s0 u
      let pc := t.flow.pc
      (∀ ws r n, fetchGroup s0 t (2 ^ 54) pc [] = .words ws → decode ws = some (r, n) →
        ∃ s1, stepAgendum (.issue u) s = exec (match r with | .ok i => i | .error c => .illegalWord c) s1 ∧
          s1.issue = ⟨u, pc, pc + 4 * (ws.length - 1), pc + 4 * ws.length, s.mgmt.time⟩ ∧
          s1 = { s with
            teams := s1.teams, cores := s1.cores, kernels := s1.kernels, walkers := s1.walkers, tspace := s1.tspace
            pound := s1.pound, stks := s1.stks, issue := s1.issue } ∧
          ((getTeam s u).cur.uid ≠ 0 → s1.cores = s.cores ∧ s1.kernels = s.kernels ∧ s1.teams = s.teams)) ∧
      (∀ w, fetchWord s0 t pc = .got w → isGroupHint w = false → fetchGroup s0 t (2 ^ 54) pc [] = .words [w]) ∧
      (∀ a, fetchGroup s0 t (2 ^ 54) pc [] = .bad a → ∃ s1, stepAgendum (.issue u) s = fetchStop s1 u a) ∧
      (∀ a slot x, fetchGroup s0 t (2 ^ 54) pc [] = .peer a slot x →
        stepAgendum (.issue u) s = .next (settle (askPeers s0 u 4 [(a, slot, x)])))) ∧
    (∀ u, canIssue s u = false → stepAgendum (.issue u) s = .next s) ∧
    (∀ i : Instr, i.encoded = false → (∀ c, i ≠ .illegalWord c) → stepAgendum (.event i) s = exec i s) ∧
    (∀ s1 i, nextControl s = (s1, some i) → stepAgendum .control s = exec i s1) ∧
    (∀ s1 i, nextPage s = (s1, some i) → stepAgendum .page s = exec i s1) ∧
    (∀ s1 i, nextCoreCmd s = (s1, some i) → stepAgendum .coreCmd s = exec i s1) ∧
    (∀ k x, stepAgendum (.corrected k x) s = correctedRead k x s) ∧
    (∀ n, stepAgendum (.tick n) s = .next { s with mgmt := { s.mgmt with time := s.mgmt.time + n } })

/-- Decoding undoes encoding: the words of every well-formed instruction are one group, which decodes to it (R37-R47). -/
def Obligations.DecodeUndoesEncode : Prop :=
  ∀ i : Instr, i.encoded = true → i.wellFormed = true → decode (encode i) = some (.ok i, (encode i).length)

/-- Words written out from the encodings of R37-R47 decode to the instructions they stand for; words that break an encoding are
refused by the cause that R52 and R53 give; and whatever decodes is well formed. -/
def Obligations.WordsDecodeAsTheSpecSays : Prop :=
  decode [0x020C2040#32] = some (.ok (.iadd .i32 false 3#7 4#7 4#7), 1) ∧
  decode [0x180C0B88#32] = some (.ok (.iaddi 3#7 1#7 0x388#11 .none), 1) ∧
  decode [0xFE400003#32, 0x180C0B88#32] = some (.ok (.iaddi 3#7 1#7 0x388#11 (.one 3#22)), 2) ∧
  decode [0xA0A00002#32] = some (.ok (.bra 2#3 true 2#21), 1) ∧
  decode [0xBC000000#32] = some (.ok .nop, 1) ∧
  decode [0xFE010005#32] = some (.ok (.hintStall 0x10005#18), 1) ∧
  (∀ w : W32, (let m := (w.extractLsb' 25 7).toNat
      m = 0 ∨ 0x13 ≤ m ∧ m ≤ 0x17 ∨ 0x33 ≤ m ∧ m ≤ 0x37 ∨ 0x3D ≤ m ∧ m ≤ 0x3F ∨ 0x4C ≤ m ∧ m ≤ 0x4F ∨ m = 0x5F ∨
        0x71 ≤ m ∧ m ≤ 0x7E) →
    decode [w] = some (.error .op, 1)) ∧
  (∀ (d a b : VReg) (x y : BitVec 1), decode [0x05#7 ++ d ++ a ++ b ++ x ++ 3#2 ++ y] = some (.error .fn, 1)) ∧
  (∀ (d : KReg) (i : BitVec 16), 383 < d.toNat → decode [0x26#7 ++ d ++ i] = some (.error .field, 1)) ∧
  (∀ (d a b : VReg) (p : BitVec 22), p ≠ 0#22 →
    decode [0x7F#7 ++ 2#3 ++ p, 0x01#7 ++ d ++ a ++ b ++ 0#4] = some (.error .hint, 2)) ∧
  (∀ ws i n, decode ws = some (.ok i, n) → i.wellFormed = true ∧ i.encoded = true ∧ n ≤ 4)

/-- What reset leaves (R204, R422, R447, R448): IDLE with no trip and BOOTOK clear, TIME and every handle 0, no context, no team,
no kernel and nothing translated, every port DOWN; the memories hold their canonical form. -/
def Obligations.ResetLeavesTheDeviceIdle : Prop :=
  let s := State.reset
  let m := s.mgmt
  m.pstate = 1 ∧ m.trip = false ∧ m.bootok = false ∧ m.time = 0 ∧ m.devnum = 0 ∧ m.tsbase = 0 ∧ m.tssize = 0 ∧ m.ctlq = 0 ∧
    m.replyq = 0 ∧ m.pageq = 0 ∧ m.coreq = 0 ∧ m.eventq = 0 ∧ m.outb = 0 ∧ m.inb = 0 ∧ m.remap = 0 ∧
    (∀ n, (getCtx s n).st = .free) ∧ s.teams = [] ∧ s.kernels = [] ∧ (∀ d ∈ s.walkers, d.tlb = []) ∧
    s.ports.length = 17 ∧ (∀ p ∈ s.ports, p.st = .down) ∧ memoriesWf s = true

/-- Every step keeps the canonical form of the memories: addresses rise, and no entry lists what an unlisted address reads as. Between steps
no lane of any team keeps a uniform register apart from the others (R13, R51). -/
def Obligations.StepsKeepTheMemoriesCanonical : Prop :=
  ∀ s s' : State, step s = .next s' →
    (memoriesWf s = true → memoriesWf s' = true) ∧
    ((∀ e ∈ s.teams, e.2.kLane = []) → ∀ e ∈ s'.teams, e.2.kLane = [])
end

