-- ==== Sys2Proof/Laws/Encoding.lean ====
section
/-! SUPPORT. The fields of an encoded word (R37): each pack function's word gives back each of its fields. -/

namespace Sys2Proof.Laws

/-- A field above the lower part of an append. -/
theorem extract_append_hi {n m : Nat} (x : BitVec n) (y : BitVec m) (k l : Nat) (h : m ≤ k) :
    (x ++ y).extractLsb' k l = x.extractLsb' (k - m) l := by
  ext i _
  simp only [BitVec.getElem_extractLsb', BitVec.getLsbD_append]
  rw [if_neg (by omega)]
  congr 1
  omega

/-- A field within the lower part of an append. -/
theorem extract_append_lo {n m : Nat} (x : BitVec n) (y : BitVec m) (k l : Nat) (h : k + l ≤ m) :
    (x ++ y).extractLsb' k l = y.extractLsb' k l := by
  ext i _
  simp only [BitVec.getElem_extractLsb', BitVec.getLsbD_append]
  rw [if_pos (by omega)]

/-- All of a vector. -/
theorem extract_all {n : Nat} (x : BitVec n) : x.extractLsb' 0 n = x := by
  ext i _
  simp

/-- Bit `i` of a field. -/
theorem getLsbD_extract {n : Nat} (x : BitVec n) (k l i : Nat) (h : i < l) : (x.extractLsb' k l).getLsbD i = x.getLsbD (k + i) := by
  simp [h]

@[simp] theorem packV3_major (m : BitVec 7) (d : BitVec 7) (a : BitVec 7) (b : BitVec 7) (fn : BitVec 4) :
    (packV3 m d a b fn).extractLsb' 25 7 = m :=
  (extract_append_hi (m ++ d ++ a ++ b) fn 25 7 (by decide)).trans <|
    (extract_append_hi (m ++ d ++ a) b 21 7 (by decide)).trans <|
    (extract_append_hi (m ++ d) a 14 7 (by decide)).trans <|
    (extract_append_hi (m) d 7 7 (by decide)).trans <|
    (extract_all m)

@[simp] theorem packV3_d (m : BitVec 7) (d : BitVec 7) (a : BitVec 7) (b : BitVec 7) (fn : BitVec 4) :
    (packV3 m d a b fn).extractLsb' 18 7 = d :=
  (extract_append_hi (m ++ d ++ a ++ b) fn 18 7 (by decide)).trans <|
    (extract_append_hi (m ++ d ++ a) b 14 7 (by decide)).trans <|
    (extract_append_hi (m ++ d) a 7 7 (by decide)).trans <|
    (extract_append_lo (m) d 0 7 (by decide)).trans <|
    (extract_all d)

@[simp] theorem packV3_a (m : BitVec 7) (d : BitVec 7) (a : BitVec 7) (b : BitVec 7) (fn : BitVec 4) :
    (packV3 m d a b fn).extractLsb' 11 7 = a :=
  (extract_append_hi (m ++ d ++ a ++ b) fn 11 7 (by decide)).trans <|
    (extract_append_hi (m ++ d ++ a) b 7 7 (by decide)).trans <|
    (extract_append_lo (m ++ d) a 0 7 (by decide)).trans <|
    (extract_all a)

@[simp] theorem packV3_b (m : BitVec 7) (d : BitVec 7) (a : BitVec 7) (b : BitVec 7) (fn : BitVec 4) :
    (packV3 m d a b fn).extractLsb' 4 7 = b :=
  (extract_append_hi (m ++ d ++ a ++ b) fn 4 7 (by decide)).trans <|
    (extract_append_lo (m ++ d ++ a) b 0 7 (by decide)).trans <|
    (extract_all b)

@[simp] theorem packV3_fn (m : BitVec 7) (d : BitVec 7) (a : BitVec 7) (b : BitVec 7) (fn : BitVec 4) :
    (packV3 m d a b fn).extractLsb' 0 4 = fn :=
  (extract_append_lo (m ++ d ++ a ++ b) fn 0 4 (by decide)).trans <|
    (extract_all fn)

@[simp] theorem packVK_major (m : BitVec 7) (d : BitVec 7) (a : BitVec 7) (k : BitVec 9) (fn : BitVec 2) :
    (packVK m d a k fn).extractLsb' 25 7 = m :=
  (extract_append_hi (m ++ d ++ a ++ k) fn 25 7 (by decide)).trans <|
    (extract_append_hi (m ++ d ++ a) k 23 7 (by decide)).trans <|
    (extract_append_hi (m ++ d) a 14 7 (by decide)).trans <|
    (extract_append_hi (m) d 7 7 (by decide)).trans <|
    (extract_all m)

@[simp] theorem packVK_d (m : BitVec 7) (d : BitVec 7) (a : BitVec 7) (k : BitVec 9) (fn : BitVec 2) :
    (packVK m d a k fn).extractLsb' 18 7 = d :=
  (extract_append_hi (m ++ d ++ a ++ k) fn 18 7 (by decide)).trans <|
    (extract_append_hi (m ++ d ++ a) k 16 7 (by decide)).trans <|
    (extract_append_hi (m ++ d) a 7 7 (by decide)).trans <|
    (extract_append_lo (m) d 0 7 (by decide)).trans <|
    (extract_all d)

@[simp] theorem packVK_a (m : BitVec 7) (d : BitVec 7) (a : BitVec 7) (k : BitVec 9) (fn : BitVec 2) :
    (packVK m d a k fn).extractLsb' 11 7 = a :=
  (extract_append_hi (m ++ d ++ a ++ k) fn 11 7 (by decide)).trans <|
    (extract_append_hi (m ++ d ++ a) k 9 7 (by decide)).trans <|
    (extract_append_lo (m ++ d) a 0 7 (by decide)).trans <|
    (extract_all a)

@[simp] theorem packVK_k (m : BitVec 7) (d : BitVec 7) (a : BitVec 7) (k : BitVec 9) (fn : BitVec 2) :
    (packVK m d a k fn).extractLsb' 2 9 = k :=
  (extract_append_hi (m ++ d ++ a ++ k) fn 2 9 (by decide)).trans <|
    (extract_append_lo (m ++ d ++ a) k 0 9 (by decide)).trans <|
    (extract_all k)

@[simp] theorem packVK_fn (m : BitVec 7) (d : BitVec 7) (a : BitVec 7) (k : BitVec 9) (fn : BitVec 2) :
    (packVK m d a k fn).extractLsb' 0 2 = fn :=
  (extract_append_lo (m ++ d ++ a ++ k) fn 0 2 (by decide)).trans <|
    (extract_all fn)

@[simp] theorem packVI_major (m : BitVec 7) (d : BitVec 7) (a : BitVec 7) (imm : BitVec 11) :
    (packVI m d a imm).extractLsb' 25 7 = m :=
  (extract_append_hi (m ++ d ++ a) imm 25 7 (by decide)).trans <|
    (extract_append_hi (m ++ d) a 14 7 (by decide)).trans <|
    (extract_append_hi (m) d 7 7 (by decide)).trans <|
    (extract_all m)

@[simp] theorem packVI_d (m : BitVec 7) (d : BitVec 7) (a : BitVec 7) (imm : BitVec 11) :
    (packVI m d a imm).extractLsb' 18 7 = d :=
  (extract_append_hi (m ++ d ++ a) imm 18 7 (by decide)).trans <|
    (extract_append_hi (m ++ d) a 7 7 (by decide)).trans <|
    (extract_append_lo (m) d 0 7 (by decide)).trans <|
    (extract_all d)

@[simp] theorem packVI_a (m : BitVec 7) (d : BitVec 7) (a : BitVec 7) (imm : BitVec 11) :
    (packVI m d a imm).extractLsb' 11 7 = a :=
  (extract_append_hi (m ++ d ++ a) imm 11 7 (by decide)).trans <|
    (extract_append_lo (m ++ d) a 0 7 (by decide)).trans <|
    (extract_all a)

@[simp] theorem packVI_imm (m : BitVec 7) (d : BitVec 7) (a : BitVec 7) (imm : BitVec 11) :
    (packVI m d a imm).extractLsb' 0 11 = imm :=
  (extract_append_lo (m ++ d ++ a) imm 0 11 (by decide)).trans <|
    (extract_all imm)

@[simp] theorem packK3_major (m : BitVec 7) (d : BitVec 9) (a : BitVec 9) (b : BitVec 7) :
    (packK3 m d a b).extractLsb' 25 7 = m :=
  (extract_append_hi (m ++ d ++ a) b 25 7 (by decide)).trans <|
    (extract_append_hi (m ++ d) a 18 7 (by decide)).trans <|
    (extract_append_hi (m) d 9 7 (by decide)).trans <|
    (extract_all m)

@[simp] theorem packK3_d (m : BitVec 7) (d : BitVec 9) (a : BitVec 9) (b : BitVec 7) :
    (packK3 m d a b).extractLsb' 16 9 = d :=
  (extract_append_hi (m ++ d ++ a) b 16 9 (by decide)).trans <|
    (extract_append_hi (m ++ d) a 9 9 (by decide)).trans <|
    (extract_append_lo (m) d 0 9 (by decide)).trans <|
    (extract_all d)

@[simp] theorem packK3_a (m : BitVec 7) (d : BitVec 9) (a : BitVec 9) (b : BitVec 7) :
    (packK3 m d a b).extractLsb' 7 9 = a :=
  (extract_append_hi (m ++ d ++ a) b 7 9 (by decide)).trans <|
    (extract_append_lo (m ++ d) a 0 9 (by decide)).trans <|
    (extract_all a)

@[simp] theorem packK3_b (m : BitVec 7) (d : BitVec 9) (a : BitVec 9) (b : BitVec 7) :
    (packK3 m d a b).extractLsb' 0 7 = b :=
  (extract_append_lo (m ++ d ++ a) b 0 7 (by decide)).trans <|
    (extract_all b)

@[simp] theorem packKI_major (m : BitVec 7) (d : BitVec 9) (imm : BitVec 16) :
    (packKI m d imm).extractLsb' 25 7 = m :=
  (extract_append_hi (m ++ d) imm 25 7 (by decide)).trans <|
    (extract_append_hi (m) d 9 7 (by decide)).trans <|
    (extract_all m)

@[simp] theorem packKI_d (m : BitVec 7) (d : BitVec 9) (imm : BitVec 16) :
    (packKI m d imm).extractLsb' 16 9 = d :=
  (extract_append_hi (m ++ d) imm 16 9 (by decide)).trans <|
    (extract_append_lo (m) d 0 9 (by decide)).trans <|
    (extract_all d)

@[simp] theorem packKI_imm (m : BitVec 7) (d : BitVec 9) (imm : BitVec 16) :
    (packKI m d imm).extractLsb' 0 16 = imm :=
  (extract_append_lo (m ++ d) imm 0 16 (by decide)).trans <|
    (extract_all imm)

@[simp] theorem packKB_major (m : BitVec 7) (a : BitVec 9) (c : BitVec 3) (off : BitVec 13) :
    (packKB m a c off).extractLsb' 25 7 = m :=
  (extract_append_hi (m ++ a ++ c) off 25 7 (by decide)).trans <|
    (extract_append_hi (m ++ a) c 12 7 (by decide)).trans <|
    (extract_append_hi (m) a 9 7 (by decide)).trans <|
    (extract_all m)

@[simp] theorem packKB_a (m : BitVec 7) (a : BitVec 9) (c : BitVec 3) (off : BitVec 13) :
    (packKB m a c off).extractLsb' 16 9 = a :=
  (extract_append_hi (m ++ a ++ c) off 16 9 (by decide)).trans <|
    (extract_append_hi (m ++ a) c 3 9 (by decide)).trans <|
    (extract_append_lo (m) a 0 9 (by decide)).trans <|
    (extract_all a)

@[simp] theorem packKB_c (m : BitVec 7) (a : BitVec 9) (c : BitVec 3) (off : BitVec 13) :
    (packKB m a c off).extractLsb' 13 3 = c :=
  (extract_append_hi (m ++ a ++ c) off 13 3 (by decide)).trans <|
    (extract_append_lo (m ++ a) c 0 3 (by decide)).trans <|
    (extract_all c)

@[simp] theorem packKB_off (m : BitVec 7) (a : BitVec 9) (c : BitVec 3) (off : BitVec 13) :
    (packKB m a c off).extractLsb' 0 13 = off :=
  (extract_append_lo (m ++ a ++ c) off 0 13 (by decide)).trans <|
    (extract_all off)

@[simp] theorem packH_major (kind : BitVec 3) (payload : BitVec 22) :
    (packH kind payload).extractLsb' 25 7 = 0x7F#7 :=
  (extract_append_hi (0x7F#7 ++ kind) payload 25 7 (by decide)).trans <|
    (extract_append_hi (0x7F#7) kind 3 7 (by decide)).trans <|
    (extract_all 0x7F#7)

@[simp] theorem packH_kind (kind : BitVec 3) (payload : BitVec 22) :
    (packH kind payload).extractLsb' 22 3 = kind :=
  (extract_append_hi (0x7F#7 ++ kind) payload 22 3 (by decide)).trans <|
    (extract_append_lo (0x7F#7) kind 0 3 (by decide)).trans <|
    (extract_all kind)

@[simp] theorem packH_payload (kind : BitVec 3) (payload : BitVec 22) :
    (packH kind payload).extractLsb' 0 22 = payload :=
  (extract_append_lo (0x7F#7 ++ kind) payload 0 22 (by decide)).trans <|
    (extract_all payload)

end Sys2Proof.Laws
end

