-- ==== Sys2Proof/Laws/State.lean ====
section
/-! SUPPORT. What each update of a part of the state leaves as it was: one lemma per field and update, true by unfolding. -/

namespace Sys2Proof.Machine

/-! ## A part of the state is replaced: every other field stays -/

@[simp] theorem setTeam_nextUid (s : State) (u : Nat) (t : Team) : (setTeam s u t).nextUid = s.nextUid := rfl
@[simp] theorem setTeam_cores (s : State) (u : Nat) (t : Team) : (setTeam s u t).cores = s.cores := rfl
@[simp] theorem setTeam_spareOf (s : State) (u : Nat) (t : Team) : (setTeam s u t).spareOf = s.spareOf := rfl
@[simp] theorem setTeam_ctxs (s : State) (u : Nat) (t : Team) : (setTeam s u t).ctxs = s.ctxs := rfl
@[simp] theorem setTeam_kernels (s : State) (u : Nat) (t : Team) : (setTeam s u t).kernels = s.kernels := rfl
@[simp] theorem setTeam_nextKid (s : State) (u : Nat) (t : Team) : (setTeam s u t).nextKid = s.nextKid := rfl
@[simp] theorem setTeam_queues (s : State) (u : Nat) (t : Team) : (setTeam s u t).queues = s.queues := rfl
@[simp] theorem setTeam_mem (s : State) (u : Nat) (t : Team) : (setTeam s u t).mem = s.mem := rfl
@[simp] theorem setTeam_hist (s : State) (u : Nat) (t : Team) : (setTeam s u t).hist = s.hist := rfl
@[simp] theorem setTeam_nextWrite (s : State) (u : Nat) (t : Team) : (setTeam s u t).nextWrite = s.nextWrite := rfl
@[simp] theorem setTeam_scRels (s : State) (u : Nat) (t : Team) : (setTeam s u t).scRels = s.scRels := rfl
@[simp] theorem setTeam_seqRels (s : State) (u : Nat) (t : Team) : (setTeam s u t).seqRels = s.seqRels := rfl
@[simp] theorem setTeam_hostSeen (s : State) (u : Nat) (t : Team) : (setTeam s u t).hostSeen = s.hostSeen := rfl
@[simp] theorem setTeam_linkSeen (s : State) (u : Nat) (t : Team) : (setTeam s u t).linkSeen = s.linkSeen := rfl
@[simp] theorem setTeam_freed (s : State) (u : Nat) (t : Team) : (setTeam s u t).freed = s.freed := rfl
@[simp] theorem setTeam_metas (s : State) (u : Nat) (t : Team) : (setTeam s u t).metas = s.metas := rfl
@[simp] theorem setTeam_oldRuns (s : State) (u : Nat) (t : Team) : (setTeam s u t).oldRuns = s.oldRuns := rfl
@[simp] theorem setTeam_lostRuns (s : State) (u : Nat) (t : Team) : (setTeam s u t).lostRuns = s.lostRuns := rfl
@[simp] theorem setTeam_tails (s : State) (u : Nat) (t : Team) : (setTeam s u t).tails = s.tails := rfl
@[simp] theorem setTeam_runStack (s : State) (u : Nat) (t : Team) : (setTeam s u t).runStack = s.runStack := rfl
@[simp] theorem setTeam_reserve (s : State) (u : Nat) (t : Team) : (setTeam s u t).reserve = s.reserve := rfl
@[simp] theorem setTeam_tspace (s : State) (u : Nat) (t : Team) : (setTeam s u t).tspace = s.tspace := rfl
@[simp] theorem setTeam_hostMem (s : State) (u : Nat) (t : Team) : (setTeam s u t).hostMem = s.hostMem := rfl
@[simp] theorem setTeam_pound (s : State) (u : Nat) (t : Team) : (setTeam s u t).pound = s.pound := rfl
@[simp] theorem setTeam_walkers (s : State) (u : Nat) (t : Team) : (setTeam s u t).walkers = s.walkers := rfl
@[simp] theorem setTeam_pageWork (s : State) (u : Nat) (t : Team) : (setTeam s u t).pageWork = s.pageWork := rfl
@[simp] theorem setTeam_ctlNext (s : State) (u : Nat) (t : Team) : (setTeam s u t).ctlNext = s.ctlNext := rfl
@[simp] theorem setTeam_pageNext (s : State) (u : Nat) (t : Team) : (setTeam s u t).pageNext = s.pageNext := rfl
@[simp] theorem setTeam_coreNext (s : State) (u : Nat) (t : Team) : (setTeam s u t).coreNext = s.coreNext := rfl
@[simp] theorem setTeam_evPend (s : State) (u : Nat) (t : Team) : (setTeam s u t).evPend = s.evPend := rfl
@[simp] theorem setTeam_evLost (s : State) (u : Nat) (t : Team) : (setTeam s u t).evLost = s.evLost := rfl
@[simp] theorem setTeam_evDue (s : State) (u : Nat) (t : Team) : (setTeam s u t).evDue = s.evDue := rfl
@[simp] theorem setTeam_evSeen (s : State) (u : Nat) (t : Team) : (setTeam s u t).evSeen = s.evSeen := rfl
@[simp] theorem setTeam_sliceClock (s : State) (u : Nat) (t : Team) : (setTeam s u t).sliceClock = s.sliceClock := rfl
@[simp] theorem setTeam_mgmt (s : State) (u : Nat) (t : Team) : (setTeam s u t).mgmt = s.mgmt := rfl
@[simp] theorem setTeam_ports (s : State) (u : Nat) (t : Team) : (setTeam s u t).ports = s.ports := rfl
@[simp] theorem setTeam_peers (s : State) (u : Nat) (t : Team) : (setTeam s u t).peers = s.peers := rfl
@[simp] theorem setTeam_nextPeer (s : State) (u : Nat) (t : Team) : (setTeam s u t).nextPeer = s.nextPeer := rfl
@[simp] theorem setTeam_hostAsks (s : State) (u : Nat) (t : Team) : (setTeam s u t).hostAsks = s.hostAsks := rfl
@[simp] theorem setTeam_stks (s : State) (u : Nat) (t : Team) : (setTeam s u t).stks = s.stks := rfl
@[simp] theorem setTeam_cpls (s : State) (u : Nat) (t : Team) : (setTeam s u t).cpls = s.cpls := rfl
@[simp] theorem setTeam_replies (s : State) (u : Nat) (t : Team) : (setTeam s u t).replies = s.replies := rfl
@[simp] theorem setTeam_answers (s : State) (u : Nat) (t : Team) : (setTeam s u t).answers = s.answers := rfl
@[simp] theorem setTeam_agenda (s : State) (u : Nat) (t : Team) : (setTeam s u t).agenda = s.agenda := rfl
@[simp] theorem setTeam_issue (s : State) (u : Nat) (t : Team) : (setTeam s u t).issue = s.issue := rfl
@[simp] theorem setTeam_free (s : State) (u : Nat) (t : Team) : (setTeam s u t).free = s.free := rfl
@[simp] theorem setCore_teams (s : State) (n : Nat) (c : Core) : (setCore s n c).teams = s.teams := rfl
@[simp] theorem setCore_nextUid (s : State) (n : Nat) (c : Core) : (setCore s n c).nextUid = s.nextUid := rfl
@[simp] theorem setCore_spareOf (s : State) (n : Nat) (c : Core) : (setCore s n c).spareOf = s.spareOf := rfl
@[simp] theorem setCore_ctxs (s : State) (n : Nat) (c : Core) : (setCore s n c).ctxs = s.ctxs := rfl
@[simp] theorem setCore_kernels (s : State) (n : Nat) (c : Core) : (setCore s n c).kernels = s.kernels := rfl
@[simp] theorem setCore_nextKid (s : State) (n : Nat) (c : Core) : (setCore s n c).nextKid = s.nextKid := rfl
@[simp] theorem setCore_queues (s : State) (n : Nat) (c : Core) : (setCore s n c).queues = s.queues := rfl
@[simp] theorem setCore_mem (s : State) (n : Nat) (c : Core) : (setCore s n c).mem = s.mem := rfl
@[simp] theorem setCore_hist (s : State) (n : Nat) (c : Core) : (setCore s n c).hist = s.hist := rfl
@[simp] theorem setCore_nextWrite (s : State) (n : Nat) (c : Core) : (setCore s n c).nextWrite = s.nextWrite := rfl
@[simp] theorem setCore_scRels (s : State) (n : Nat) (c : Core) : (setCore s n c).scRels = s.scRels := rfl
@[simp] theorem setCore_seqRels (s : State) (n : Nat) (c : Core) : (setCore s n c).seqRels = s.seqRels := rfl
@[simp] theorem setCore_hostSeen (s : State) (n : Nat) (c : Core) : (setCore s n c).hostSeen = s.hostSeen := rfl
@[simp] theorem setCore_linkSeen (s : State) (n : Nat) (c : Core) : (setCore s n c).linkSeen = s.linkSeen := rfl
@[simp] theorem setCore_freed (s : State) (n : Nat) (c : Core) : (setCore s n c).freed = s.freed := rfl
@[simp] theorem setCore_metas (s : State) (n : Nat) (c : Core) : (setCore s n c).metas = s.metas := rfl
@[simp] theorem setCore_oldRuns (s : State) (n : Nat) (c : Core) : (setCore s n c).oldRuns = s.oldRuns := rfl
@[simp] theorem setCore_lostRuns (s : State) (n : Nat) (c : Core) : (setCore s n c).lostRuns = s.lostRuns := rfl
@[simp] theorem setCore_tails (s : State) (n : Nat) (c : Core) : (setCore s n c).tails = s.tails := rfl
@[simp] theorem setCore_runStack (s : State) (n : Nat) (c : Core) : (setCore s n c).runStack = s.runStack := rfl
@[simp] theorem setCore_reserve (s : State) (n : Nat) (c : Core) : (setCore s n c).reserve = s.reserve := rfl
@[simp] theorem setCore_tspace (s : State) (n : Nat) (c : Core) : (setCore s n c).tspace = s.tspace := rfl
@[simp] theorem setCore_hostMem (s : State) (n : Nat) (c : Core) : (setCore s n c).hostMem = s.hostMem := rfl
@[simp] theorem setCore_pound (s : State) (n : Nat) (c : Core) : (setCore s n c).pound = s.pound := rfl
@[simp] theorem setCore_walkers (s : State) (n : Nat) (c : Core) : (setCore s n c).walkers = s.walkers := rfl
@[simp] theorem setCore_pageWork (s : State) (n : Nat) (c : Core) : (setCore s n c).pageWork = s.pageWork := rfl
@[simp] theorem setCore_ctlNext (s : State) (n : Nat) (c : Core) : (setCore s n c).ctlNext = s.ctlNext := rfl
@[simp] theorem setCore_pageNext (s : State) (n : Nat) (c : Core) : (setCore s n c).pageNext = s.pageNext := rfl
@[simp] theorem setCore_coreNext (s : State) (n : Nat) (c : Core) : (setCore s n c).coreNext = s.coreNext := rfl
@[simp] theorem setCore_evPend (s : State) (n : Nat) (c : Core) : (setCore s n c).evPend = s.evPend := rfl
@[simp] theorem setCore_evLost (s : State) (n : Nat) (c : Core) : (setCore s n c).evLost = s.evLost := rfl
@[simp] theorem setCore_evDue (s : State) (n : Nat) (c : Core) : (setCore s n c).evDue = s.evDue := rfl
@[simp] theorem setCore_evSeen (s : State) (n : Nat) (c : Core) : (setCore s n c).evSeen = s.evSeen := rfl
@[simp] theorem setCore_sliceClock (s : State) (n : Nat) (c : Core) : (setCore s n c).sliceClock = s.sliceClock := rfl
@[simp] theorem setCore_mgmt (s : State) (n : Nat) (c : Core) : (setCore s n c).mgmt = s.mgmt := rfl
@[simp] theorem setCore_ports (s : State) (n : Nat) (c : Core) : (setCore s n c).ports = s.ports := rfl
@[simp] theorem setCore_peers (s : State) (n : Nat) (c : Core) : (setCore s n c).peers = s.peers := rfl
@[simp] theorem setCore_nextPeer (s : State) (n : Nat) (c : Core) : (setCore s n c).nextPeer = s.nextPeer := rfl
@[simp] theorem setCore_hostAsks (s : State) (n : Nat) (c : Core) : (setCore s n c).hostAsks = s.hostAsks := rfl
@[simp] theorem setCore_stks (s : State) (n : Nat) (c : Core) : (setCore s n c).stks = s.stks := rfl
@[simp] theorem setCore_cpls (s : State) (n : Nat) (c : Core) : (setCore s n c).cpls = s.cpls := rfl
@[simp] theorem setCore_replies (s : State) (n : Nat) (c : Core) : (setCore s n c).replies = s.replies := rfl
@[simp] theorem setCore_answers (s : State) (n : Nat) (c : Core) : (setCore s n c).answers = s.answers := rfl
@[simp] theorem setCore_agenda (s : State) (n : Nat) (c : Core) : (setCore s n c).agenda = s.agenda := rfl
@[simp] theorem setCore_issue (s : State) (n : Nat) (c : Core) : (setCore s n c).issue = s.issue := rfl
@[simp] theorem setCore_free (s : State) (n : Nat) (c : Core) : (setCore s n c).free = s.free := rfl
@[simp] theorem setCtx_teams (s : State) (n : Nat) (c : Ctx) : (setCtx s n c).teams = s.teams := rfl
@[simp] theorem setCtx_nextUid (s : State) (n : Nat) (c : Ctx) : (setCtx s n c).nextUid = s.nextUid := rfl
@[simp] theorem setCtx_cores (s : State) (n : Nat) (c : Ctx) : (setCtx s n c).cores = s.cores := rfl
@[simp] theorem setCtx_spareOf (s : State) (n : Nat) (c : Ctx) : (setCtx s n c).spareOf = s.spareOf := rfl
@[simp] theorem setCtx_kernels (s : State) (n : Nat) (c : Ctx) : (setCtx s n c).kernels = s.kernels := rfl
@[simp] theorem setCtx_nextKid (s : State) (n : Nat) (c : Ctx) : (setCtx s n c).nextKid = s.nextKid := rfl
@[simp] theorem setCtx_queues (s : State) (n : Nat) (c : Ctx) : (setCtx s n c).queues = s.queues := rfl
@[simp] theorem setCtx_mem (s : State) (n : Nat) (c : Ctx) : (setCtx s n c).mem = s.mem := rfl
@[simp] theorem setCtx_hist (s : State) (n : Nat) (c : Ctx) : (setCtx s n c).hist = s.hist := rfl
@[simp] theorem setCtx_nextWrite (s : State) (n : Nat) (c : Ctx) : (setCtx s n c).nextWrite = s.nextWrite := rfl
@[simp] theorem setCtx_scRels (s : State) (n : Nat) (c : Ctx) : (setCtx s n c).scRels = s.scRels := rfl
@[simp] theorem setCtx_seqRels (s : State) (n : Nat) (c : Ctx) : (setCtx s n c).seqRels = s.seqRels := rfl
@[simp] theorem setCtx_hostSeen (s : State) (n : Nat) (c : Ctx) : (setCtx s n c).hostSeen = s.hostSeen := rfl
@[simp] theorem setCtx_linkSeen (s : State) (n : Nat) (c : Ctx) : (setCtx s n c).linkSeen = s.linkSeen := rfl
@[simp] theorem setCtx_freed (s : State) (n : Nat) (c : Ctx) : (setCtx s n c).freed = s.freed := rfl
@[simp] theorem setCtx_metas (s : State) (n : Nat) (c : Ctx) : (setCtx s n c).metas = s.metas := rfl
@[simp] theorem setCtx_oldRuns (s : State) (n : Nat) (c : Ctx) : (setCtx s n c).oldRuns = s.oldRuns := rfl
@[simp] theorem setCtx_lostRuns (s : State) (n : Nat) (c : Ctx) : (setCtx s n c).lostRuns = s.lostRuns := rfl
@[simp] theorem setCtx_tails (s : State) (n : Nat) (c : Ctx) : (setCtx s n c).tails = s.tails := rfl
@[simp] theorem setCtx_runStack (s : State) (n : Nat) (c : Ctx) : (setCtx s n c).runStack = s.runStack := rfl
@[simp] theorem setCtx_reserve (s : State) (n : Nat) (c : Ctx) : (setCtx s n c).reserve = s.reserve := rfl
@[simp] theorem setCtx_tspace (s : State) (n : Nat) (c : Ctx) : (setCtx s n c).tspace = s.tspace := rfl
@[simp] theorem setCtx_hostMem (s : State) (n : Nat) (c : Ctx) : (setCtx s n c).hostMem = s.hostMem := rfl
@[simp] theorem setCtx_pound (s : State) (n : Nat) (c : Ctx) : (setCtx s n c).pound = s.pound := rfl
@[simp] theorem setCtx_walkers (s : State) (n : Nat) (c : Ctx) : (setCtx s n c).walkers = s.walkers := rfl
@[simp] theorem setCtx_pageWork (s : State) (n : Nat) (c : Ctx) : (setCtx s n c).pageWork = s.pageWork := rfl
@[simp] theorem setCtx_ctlNext (s : State) (n : Nat) (c : Ctx) : (setCtx s n c).ctlNext = s.ctlNext := rfl
@[simp] theorem setCtx_pageNext (s : State) (n : Nat) (c : Ctx) : (setCtx s n c).pageNext = s.pageNext := rfl
@[simp] theorem setCtx_coreNext (s : State) (n : Nat) (c : Ctx) : (setCtx s n c).coreNext = s.coreNext := rfl
@[simp] theorem setCtx_evPend (s : State) (n : Nat) (c : Ctx) : (setCtx s n c).evPend = s.evPend := rfl
@[simp] theorem setCtx_evLost (s : State) (n : Nat) (c : Ctx) : (setCtx s n c).evLost = s.evLost := rfl
@[simp] theorem setCtx_evDue (s : State) (n : Nat) (c : Ctx) : (setCtx s n c).evDue = s.evDue := rfl
@[simp] theorem setCtx_evSeen (s : State) (n : Nat) (c : Ctx) : (setCtx s n c).evSeen = s.evSeen := rfl
@[simp] theorem setCtx_sliceClock (s : State) (n : Nat) (c : Ctx) : (setCtx s n c).sliceClock = s.sliceClock := rfl
@[simp] theorem setCtx_mgmt (s : State) (n : Nat) (c : Ctx) : (setCtx s n c).mgmt = s.mgmt := rfl
@[simp] theorem setCtx_ports (s : State) (n : Nat) (c : Ctx) : (setCtx s n c).ports = s.ports := rfl
@[simp] theorem setCtx_peers (s : State) (n : Nat) (c : Ctx) : (setCtx s n c).peers = s.peers := rfl
@[simp] theorem setCtx_nextPeer (s : State) (n : Nat) (c : Ctx) : (setCtx s n c).nextPeer = s.nextPeer := rfl
@[simp] theorem setCtx_hostAsks (s : State) (n : Nat) (c : Ctx) : (setCtx s n c).hostAsks = s.hostAsks := rfl
@[simp] theorem setCtx_stks (s : State) (n : Nat) (c : Ctx) : (setCtx s n c).stks = s.stks := rfl
@[simp] theorem setCtx_cpls (s : State) (n : Nat) (c : Ctx) : (setCtx s n c).cpls = s.cpls := rfl
@[simp] theorem setCtx_replies (s : State) (n : Nat) (c : Ctx) : (setCtx s n c).replies = s.replies := rfl
@[simp] theorem setCtx_answers (s : State) (n : Nat) (c : Ctx) : (setCtx s n c).answers = s.answers := rfl
@[simp] theorem setCtx_agenda (s : State) (n : Nat) (c : Ctx) : (setCtx s n c).agenda = s.agenda := rfl
@[simp] theorem setCtx_issue (s : State) (n : Nat) (c : Ctx) : (setCtx s n c).issue = s.issue := rfl
@[simp] theorem setCtx_free (s : State) (n : Nat) (c : Ctx) : (setCtx s n c).free = s.free := rfl
@[simp] theorem setMeta_teams (s : State) (b : Nat) (m : BlockMeta) : (setMeta s b m).teams = s.teams := rfl
@[simp] theorem setMeta_nextUid (s : State) (b : Nat) (m : BlockMeta) : (setMeta s b m).nextUid = s.nextUid := rfl
@[simp] theorem setMeta_cores (s : State) (b : Nat) (m : BlockMeta) : (setMeta s b m).cores = s.cores := rfl
@[simp] theorem setMeta_spareOf (s : State) (b : Nat) (m : BlockMeta) : (setMeta s b m).spareOf = s.spareOf := rfl
@[simp] theorem setMeta_ctxs (s : State) (b : Nat) (m : BlockMeta) : (setMeta s b m).ctxs = s.ctxs := rfl
@[simp] theorem setMeta_kernels (s : State) (b : Nat) (m : BlockMeta) : (setMeta s b m).kernels = s.kernels := rfl
@[simp] theorem setMeta_nextKid (s : State) (b : Nat) (m : BlockMeta) : (setMeta s b m).nextKid = s.nextKid := rfl
@[simp] theorem setMeta_queues (s : State) (b : Nat) (m : BlockMeta) : (setMeta s b m).queues = s.queues := rfl
@[simp] theorem setMeta_mem (s : State) (b : Nat) (m : BlockMeta) : (setMeta s b m).mem = s.mem := rfl
@[simp] theorem setMeta_hist (s : State) (b : Nat) (m : BlockMeta) : (setMeta s b m).hist = s.hist := rfl
@[simp] theorem setMeta_nextWrite (s : State) (b : Nat) (m : BlockMeta) : (setMeta s b m).nextWrite = s.nextWrite := rfl
@[simp] theorem setMeta_scRels (s : State) (b : Nat) (m : BlockMeta) : (setMeta s b m).scRels = s.scRels := rfl
@[simp] theorem setMeta_seqRels (s : State) (b : Nat) (m : BlockMeta) : (setMeta s b m).seqRels = s.seqRels := rfl
@[simp] theorem setMeta_hostSeen (s : State) (b : Nat) (m : BlockMeta) : (setMeta s b m).hostSeen = s.hostSeen := rfl
@[simp] theorem setMeta_linkSeen (s : State) (b : Nat) (m : BlockMeta) : (setMeta s b m).linkSeen = s.linkSeen := rfl
@[simp] theorem setMeta_freed (s : State) (b : Nat) (m : BlockMeta) : (setMeta s b m).freed = s.freed := rfl
@[simp] theorem setMeta_oldRuns (s : State) (b : Nat) (m : BlockMeta) : (setMeta s b m).oldRuns = s.oldRuns := rfl
@[simp] theorem setMeta_lostRuns (s : State) (b : Nat) (m : BlockMeta) : (setMeta s b m).lostRuns = s.lostRuns := rfl
@[simp] theorem setMeta_tails (s : State) (b : Nat) (m : BlockMeta) : (setMeta s b m).tails = s.tails := rfl
@[simp] theorem setMeta_runStack (s : State) (b : Nat) (m : BlockMeta) : (setMeta s b m).runStack = s.runStack := rfl
@[simp] theorem setMeta_reserve (s : State) (b : Nat) (m : BlockMeta) : (setMeta s b m).reserve = s.reserve := rfl
@[simp] theorem setMeta_tspace (s : State) (b : Nat) (m : BlockMeta) : (setMeta s b m).tspace = s.tspace := rfl
@[simp] theorem setMeta_hostMem (s : State) (b : Nat) (m : BlockMeta) : (setMeta s b m).hostMem = s.hostMem := rfl
@[simp] theorem setMeta_pound (s : State) (b : Nat) (m : BlockMeta) : (setMeta s b m).pound = s.pound := rfl
@[simp] theorem setMeta_walkers (s : State) (b : Nat) (m : BlockMeta) : (setMeta s b m).walkers = s.walkers := rfl
@[simp] theorem setMeta_pageWork (s : State) (b : Nat) (m : BlockMeta) : (setMeta s b m).pageWork = s.pageWork := rfl
@[simp] theorem setMeta_ctlNext (s : State) (b : Nat) (m : BlockMeta) : (setMeta s b m).ctlNext = s.ctlNext := rfl
@[simp] theorem setMeta_pageNext (s : State) (b : Nat) (m : BlockMeta) : (setMeta s b m).pageNext = s.pageNext := rfl
@[simp] theorem setMeta_coreNext (s : State) (b : Nat) (m : BlockMeta) : (setMeta s b m).coreNext = s.coreNext := rfl
@[simp] theorem setMeta_evPend (s : State) (b : Nat) (m : BlockMeta) : (setMeta s b m).evPend = s.evPend := rfl
@[simp] theorem setMeta_evLost (s : State) (b : Nat) (m : BlockMeta) : (setMeta s b m).evLost = s.evLost := rfl
@[simp] theorem setMeta_evDue (s : State) (b : Nat) (m : BlockMeta) : (setMeta s b m).evDue = s.evDue := rfl
@[simp] theorem setMeta_evSeen (s : State) (b : Nat) (m : BlockMeta) : (setMeta s b m).evSeen = s.evSeen := rfl
@[simp] theorem setMeta_sliceClock (s : State) (b : Nat) (m : BlockMeta) : (setMeta s b m).sliceClock = s.sliceClock := rfl
@[simp] theorem setMeta_mgmt (s : State) (b : Nat) (m : BlockMeta) : (setMeta s b m).mgmt = s.mgmt := rfl
@[simp] theorem setMeta_ports (s : State) (b : Nat) (m : BlockMeta) : (setMeta s b m).ports = s.ports := rfl
@[simp] theorem setMeta_peers (s : State) (b : Nat) (m : BlockMeta) : (setMeta s b m).peers = s.peers := rfl
@[simp] theorem setMeta_nextPeer (s : State) (b : Nat) (m : BlockMeta) : (setMeta s b m).nextPeer = s.nextPeer := rfl
@[simp] theorem setMeta_hostAsks (s : State) (b : Nat) (m : BlockMeta) : (setMeta s b m).hostAsks = s.hostAsks := rfl
@[simp] theorem setMeta_stks (s : State) (b : Nat) (m : BlockMeta) : (setMeta s b m).stks = s.stks := rfl
@[simp] theorem setMeta_cpls (s : State) (b : Nat) (m : BlockMeta) : (setMeta s b m).cpls = s.cpls := rfl
@[simp] theorem setMeta_replies (s : State) (b : Nat) (m : BlockMeta) : (setMeta s b m).replies = s.replies := rfl
@[simp] theorem setMeta_answers (s : State) (b : Nat) (m : BlockMeta) : (setMeta s b m).answers = s.answers := rfl
@[simp] theorem setMeta_agenda (s : State) (b : Nat) (m : BlockMeta) : (setMeta s b m).agenda = s.agenda := rfl
@[simp] theorem setMeta_issue (s : State) (b : Nat) (m : BlockMeta) : (setMeta s b m).issue = s.issue := rfl
@[simp] theorem setMeta_free (s : State) (b : Nat) (m : BlockMeta) : (setMeta s b m).free = s.free := rfl
@[simp] theorem modStack_teams (s : State) (k : Nat) (f : Stack → Stack) : (modStack s k f).teams = s.teams := rfl
@[simp] theorem modStack_nextUid (s : State) (k : Nat) (f : Stack → Stack) : (modStack s k f).nextUid = s.nextUid := rfl
@[simp] theorem modStack_cores (s : State) (k : Nat) (f : Stack → Stack) : (modStack s k f).cores = s.cores := rfl
@[simp] theorem modStack_spareOf (s : State) (k : Nat) (f : Stack → Stack) : (modStack s k f).spareOf = s.spareOf := rfl
@[simp] theorem modStack_ctxs (s : State) (k : Nat) (f : Stack → Stack) : (modStack s k f).ctxs = s.ctxs := rfl
@[simp] theorem modStack_kernels (s : State) (k : Nat) (f : Stack → Stack) : (modStack s k f).kernels = s.kernels := rfl
@[simp] theorem modStack_nextKid (s : State) (k : Nat) (f : Stack → Stack) : (modStack s k f).nextKid = s.nextKid := rfl
@[simp] theorem modStack_queues (s : State) (k : Nat) (f : Stack → Stack) : (modStack s k f).queues = s.queues := rfl
@[simp] theorem modStack_mem (s : State) (k : Nat) (f : Stack → Stack) : (modStack s k f).mem = s.mem := rfl
@[simp] theorem modStack_hist (s : State) (k : Nat) (f : Stack → Stack) : (modStack s k f).hist = s.hist := rfl
@[simp] theorem modStack_nextWrite (s : State) (k : Nat) (f : Stack → Stack) : (modStack s k f).nextWrite = s.nextWrite := rfl
@[simp] theorem modStack_scRels (s : State) (k : Nat) (f : Stack → Stack) : (modStack s k f).scRels = s.scRels := rfl
@[simp] theorem modStack_seqRels (s : State) (k : Nat) (f : Stack → Stack) : (modStack s k f).seqRels = s.seqRels := rfl
@[simp] theorem modStack_hostSeen (s : State) (k : Nat) (f : Stack → Stack) : (modStack s k f).hostSeen = s.hostSeen := rfl
@[simp] theorem modStack_linkSeen (s : State) (k : Nat) (f : Stack → Stack) : (modStack s k f).linkSeen = s.linkSeen := rfl
@[simp] theorem modStack_freed (s : State) (k : Nat) (f : Stack → Stack) : (modStack s k f).freed = s.freed := rfl
@[simp] theorem modStack_metas (s : State) (k : Nat) (f : Stack → Stack) : (modStack s k f).metas = s.metas := rfl
@[simp] theorem modStack_oldRuns (s : State) (k : Nat) (f : Stack → Stack) : (modStack s k f).oldRuns = s.oldRuns := rfl
@[simp] theorem modStack_lostRuns (s : State) (k : Nat) (f : Stack → Stack) : (modStack s k f).lostRuns = s.lostRuns := rfl
@[simp] theorem modStack_tails (s : State) (k : Nat) (f : Stack → Stack) : (modStack s k f).tails = s.tails := rfl
@[simp] theorem modStack_runStack (s : State) (k : Nat) (f : Stack → Stack) : (modStack s k f).runStack = s.runStack := rfl
@[simp] theorem modStack_reserve (s : State) (k : Nat) (f : Stack → Stack) : (modStack s k f).reserve = s.reserve := rfl
@[simp] theorem modStack_tspace (s : State) (k : Nat) (f : Stack → Stack) : (modStack s k f).tspace = s.tspace := rfl
@[simp] theorem modStack_hostMem (s : State) (k : Nat) (f : Stack → Stack) : (modStack s k f).hostMem = s.hostMem := rfl
@[simp] theorem modStack_pound (s : State) (k : Nat) (f : Stack → Stack) : (modStack s k f).pound = s.pound := rfl
@[simp] theorem modStack_walkers (s : State) (k : Nat) (f : Stack → Stack) : (modStack s k f).walkers = s.walkers := rfl
@[simp] theorem modStack_pageWork (s : State) (k : Nat) (f : Stack → Stack) : (modStack s k f).pageWork = s.pageWork := rfl
@[simp] theorem modStack_ctlNext (s : State) (k : Nat) (f : Stack → Stack) : (modStack s k f).ctlNext = s.ctlNext := rfl
@[simp] theorem modStack_pageNext (s : State) (k : Nat) (f : Stack → Stack) : (modStack s k f).pageNext = s.pageNext := rfl
@[simp] theorem modStack_coreNext (s : State) (k : Nat) (f : Stack → Stack) : (modStack s k f).coreNext = s.coreNext := rfl
@[simp] theorem modStack_evPend (s : State) (k : Nat) (f : Stack → Stack) : (modStack s k f).evPend = s.evPend := rfl
@[simp] theorem modStack_evLost (s : State) (k : Nat) (f : Stack → Stack) : (modStack s k f).evLost = s.evLost := rfl
@[simp] theorem modStack_evDue (s : State) (k : Nat) (f : Stack → Stack) : (modStack s k f).evDue = s.evDue := rfl
@[simp] theorem modStack_evSeen (s : State) (k : Nat) (f : Stack → Stack) : (modStack s k f).evSeen = s.evSeen := rfl
@[simp] theorem modStack_sliceClock (s : State) (k : Nat) (f : Stack → Stack) : (modStack s k f).sliceClock = s.sliceClock := rfl
@[simp] theorem modStack_mgmt (s : State) (k : Nat) (f : Stack → Stack) : (modStack s k f).mgmt = s.mgmt := rfl
@[simp] theorem modStack_ports (s : State) (k : Nat) (f : Stack → Stack) : (modStack s k f).ports = s.ports := rfl
@[simp] theorem modStack_peers (s : State) (k : Nat) (f : Stack → Stack) : (modStack s k f).peers = s.peers := rfl
@[simp] theorem modStack_nextPeer (s : State) (k : Nat) (f : Stack → Stack) : (modStack s k f).nextPeer = s.nextPeer := rfl
@[simp] theorem modStack_hostAsks (s : State) (k : Nat) (f : Stack → Stack) : (modStack s k f).hostAsks = s.hostAsks := rfl
@[simp] theorem modStack_cpls (s : State) (k : Nat) (f : Stack → Stack) : (modStack s k f).cpls = s.cpls := rfl
@[simp] theorem modStack_replies (s : State) (k : Nat) (f : Stack → Stack) : (modStack s k f).replies = s.replies := rfl
@[simp] theorem modStack_answers (s : State) (k : Nat) (f : Stack → Stack) : (modStack s k f).answers = s.answers := rfl
@[simp] theorem modStack_agenda (s : State) (k : Nat) (f : Stack → Stack) : (modStack s k f).agenda = s.agenda := rfl
@[simp] theorem modStack_issue (s : State) (k : Nat) (f : Stack → Stack) : (modStack s k f).issue = s.issue := rfl
@[simp] theorem modStack_free (s : State) (k : Nat) (f : Stack → Stack) : (modStack s k f).free = s.free := rfl

@[simp] theorem setV_uid (t : Team) (i r : Nat) (w : W32) : (setV t i r w).uid = t.uid := rfl
@[simp] theorem setV_kid (t : Team) (i r : Nat) (w : W32) : (setV t i r w).kid = t.kid := rfl
@[simp] theorem setV_id (t : Team) (i r : Nat) (w : W32) : (setV t i r w).id = t.id := rfl
@[simp] theorem setV_kind (t : Team) (i r : Nat) (w : W32) : (setV t i r w).kind = t.kind := rfl
@[simp] theorem setV_ctx (t : Team) (i r : Nat) (w : W32) : (setV t i r w).ctx = t.ctx := rfl
@[simp] theorem setV_core (t : Team) (i r : Nat) (w : W32) : (setV t i r w).core = t.core := rfl
@[simp] theorem setV_part (t : Team) (i r : Nat) (w : W32) : (setV t i r w).part = t.part := rfl
@[simp] theorem setV_placed (t : Team) (i r : Nat) (w : W32) : (setV t i r w).placed = t.placed := rfl
@[simp] theorem setV_saved (t : Team) (i r : Nat) (w : W32) : (setV t i r w).saved = t.saved := rfl
@[simp] theorem setV_lanes (t : Team) (i r : Nat) (w : W32) : (setV t i r w).lanes = t.lanes := rfl
@[simp] theorem setV_allot (t : Team) (i r : Nat) (w : W32) : (setV t i r w).allot = t.allot := rfl
@[simp] theorem setV_logSize (t : Team) (i r : Nat) (w : W32) : (setV t i r w).logSize = t.logSize := rfl
@[simp] theorem setV_bounds (t : Team) (i r : Nat) (w : W32) : (setV t i r w).bounds = t.bounds := rfl
@[simp] theorem setV_status (t : Team) (i r : Nat) (w : W32) : (setV t i r w).status = t.status := rfl
@[simp] theorem setV_iv (t : Team) (i r : Nat) (w : W32) : (setV t i r w).iv = t.iv := rfl
@[simp] theorem setV_p (t : Team) (i r : Nat) (w : W32) : (setV t i r w).p = t.p := rfl
@[simp] theorem setV_pm (t : Team) (i r : Nat) (w : W32) : (setV t i r w).pm = t.pm := rfl
@[simp] theorem setV_k (t : Team) (i r : Nat) (w : W32) : (setV t i r w).k = t.k := rfl
@[simp] theorem setV_kLane (t : Team) (i r : Nat) (w : W32) : (setV t i r w).kLane = t.kLane := rfl
@[simp] theorem setV_flow (t : Team) (i r : Nat) (w : W32) : (setV t i r w).flow = t.flow := rfl
@[simp] theorem setV_snap (t : Team) (i r : Nat) (w : W32) : (setV t i r w).snap = t.snap := rfl
@[simp] theorem setV_log (t : Team) (i r : Nat) (w : W32) : (setV t i r w).log = t.log := rfl
@[simp] theorem setV_zeros (t : Team) (i r : Nat) (w : W32) : (setV t i r w).zeros = t.zeros := rfl
@[simp] theorem setV_pols (t : Team) (i r : Nat) (w : W32) : (setV t i r w).pols = t.pols := rfl
@[simp] theorem setV_debited (t : Team) (i r : Nat) (w : W32) : (setV t i r w).debited = t.debited := rfl
@[simp] theorem setV_batch (t : Team) (i r : Nat) (w : W32) : (setV t i r w).batch = t.batch := rfl
@[simp] theorem setV_failed (t : Team) (i r : Nat) (w : W32) : (setV t i r w).failed = t.failed := rfl
@[simp] theorem setV_svFault (t : Team) (i r : Nat) (w : W32) : (setV t i r w).svFault = t.svFault := rfl
@[simp] theorem setV_counts (t : Team) (i r : Nat) (w : W32) : (setV t i r w).counts = t.counts := rfl
@[simp] theorem setV_flight (t : Team) (i r : Nat) (w : W32) : (setV t i r w).flight = t.flight := rfl
@[simp] theorem setV_pend (t : Team) (i r : Nat) (w : W32) : (setV t i r w).pend = t.pend := rfl
@[simp] theorem setV_oprV (t : Team) (i r : Nat) (w : W32) : (setV t i r w).oprV = t.oprV := rfl
@[simp] theorem setV_seen (t : Team) (i r : Nat) (w : W32) : (setV t i r w).seen = t.seen := rfl
@[simp] theorem setV_laneSeen (t : Team) (i r : Nat) (w : W32) : (setV t i r w).laneSeen = t.laneSeen := rfl
@[simp] theorem setV_got (t : Team) (i r : Nat) (w : W32) : (setV t i r w).got = t.got := rfl
@[simp] theorem setV_relFs (t : Team) (i r : Nat) (w : W32) : (setV t i r w).relFs = t.relFs := rfl
@[simp] theorem setV_oprSeen (t : Team) (i r : Nat) (w : W32) : (setV t i r w).oprSeen = t.oprSeen := rfl
@[simp] theorem setV_start (t : Team) (i r : Nat) (w : W32) : (setV t i r w).start = t.start := rfl
@[simp] theorem setV_late (t : Team) (i r : Nat) (w : W32) : (setV t i r w).late = t.late := rfl
@[simp] theorem setV_unsure (t : Team) (i r : Nat) (w : W32) : (setV t i r w).unsure = t.unsure := rfl
@[simp] theorem setV_tiles (t : Team) (i r : Nat) (w : W32) : (setV t i r w).tiles = t.tiles := rfl
@[simp] theorem setV_fills (t : Team) (i r : Nat) (w : W32) : (setV t i r w).fills = t.fills := rfl
@[simp] theorem setV_fillDone (t : Team) (i r : Nat) (w : W32) : (setV t i r w).fillDone = t.fillDone := rfl
@[simp] theorem setV_fillStall (t : Team) (i r : Nat) (w : W32) : (setV t i r w).fillStall = t.fillStall := rfl
@[simp] theorem setV_fates (t : Team) (i r : Nat) (w : W32) : (setV t i r w).fates = t.fates := rfl
@[simp] theorem setV_endPc (t : Team) (i r : Nat) (w : W32) : (setV t i r w).endPc = t.endPc := rfl
@[simp] theorem setV_parent (t : Team) (i r : Nat) (w : W32) : (setV t i r w).parent = t.parent := rfl
@[simp] theorem setV_jv (t : Team) (i r : Nat) (w : W32) : (setV t i r w).jv = t.jv := rfl
@[simp] theorem setV_jl (t : Team) (i r : Nat) (w : W32) : (setV t i r w).jl = t.jl := rfl
@[simp] theorem setV_parentCore (t : Team) (i r : Nat) (w : W32) : (setV t i r w).parentCore = t.parentCore := rfl
@[simp] theorem setV_trace (t : Team) (i r : Nat) (w : W32) : (setV t i r w).trace = t.trace := rfl
@[simp] theorem setV_walked (t : Team) (i r : Nat) (w : W32) : (setV t i r w).walked = t.walked := rfl
@[simp] theorem setV_stepOnce (t : Team) (i r : Nat) (w : W32) : (setV t i r w).stepOnce = t.stepOnce := rfl
@[simp] theorem setV_cur (t : Team) (i r : Nat) (w : W32) : (setV t i r w).cur = t.cur := rfl
@[simp] theorem setV_booking (t : Team) (i r : Nat) (w : W32) : (setV t i r w).booking = t.booking := rfl
@[simp] theorem setV_yielded (t : Team) (i r : Nat) (w : W32) : (setV t i r w).yielded = t.yielded := rfl
@[simp] theorem setV_boltCores (t : Team) (i r : Nat) (w : W32) : (setV t i r w).boltCores = t.boltCores := rfl
@[simp] theorem setV_woken (t : Team) (i r : Nat) (w : W32) : (setV t i r w).woken = t.woken := rfl
@[simp] theorem setV_asks (t : Team) (i r : Nat) (w : W32) : (setV t i r w).asks = t.asks := rfl
@[simp] theorem setV_exitFlow (t : Team) (i r : Nat) (w : W32) : (setV t i r w).exitFlow = t.exitFlow := rfl

/-! ## The forms that change a part are the replacement of that part -/

@[simp] theorem modTeam_eq (s : State) (u : Nat) (f : Team → Team) : modTeam s u f = setTeam s u (f (getTeam s u)) := rfl
@[simp] theorem modCore_eq (s : State) (n : Nat) (f : Core → Core) : modCore s n f = setCore s n (f (getCore s n)) := rfl
@[simp] theorem modCtx_eq (s : State) (n : Nat) (f : Ctx → Ctx) : modCtx s n f = setCtx s n (f (getCtx s n)) := rfl

end Sys2Proof.Machine
end

