-- ==== Sys2Proof/Laws/Tab.lean ====
section
/-! SUPPORT. Sparse tables and byte memories: what a read finds after a write, and that every write keeps the canonical
form. -/

namespace Sys2Proof.Machine

variable {α : Type}

/-! ## Reading after writing -/

theorem tabGet_put (d : α) (t : Tab α) (n m : Nat) (v : α) :
    tabGet d (tabPut t n v) m = if m = n then v else tabGet d t m := by
  induction t with
  | nil => simp [tabPut, tabGet]
  | cons e t ih =>
    obtain ⟨k, w⟩ := e
    simp only [tabPut]
    split_ifs <;> simp only [tabGet, ih] <;> split_ifs <;> simp_all

theorem tabGet_erase (d : α) (t : Tab α) (n m : Nat) :
    tabGet d (tabErase t n) m = if m = n then d else tabGet d t m := by
  induction t with
  | nil => simp [tabErase, tabGet]
  | cons e t ih =>
    obtain ⟨k, w⟩ := e
    simp only [tabErase]
    split_ifs <;> simp only [tabGet, ih] <;> split_ifs <;> simp_all

theorem tabGet_set [DecidableEq α] (d : α) (t : Tab α) (n m : Nat) (v : α) :
    tabGet d (tabSet d t n v) m = if m = n then v else tabGet d t m := by
  unfold tabSet
  split_ifs with h <;> simp [tabGet_erase, tabGet_put] <;> simp_all

theorem find?_put (t : List (Nat × α)) (n m : Nat) (v : α) :
    find? (tabPut t n v) m = if m = n then some v else find? t m := by
  induction t with
  | nil => simp [tabPut, find?]
  | cons e t ih =>
    obtain ⟨k, w⟩ := e
    simp only [tabPut]
    split_ifs <;> simp only [find?, ih] <;> split_ifs <;> simp_all

theorem tabGet_eq_find? (d : α) (t : Tab α) (n : Nat) : tabGet d t n = (find? t n).getD d := by
  induction t with
  | nil => rfl
  | cons e t ih =>
    obtain ⟨k, w⟩ := e
    simp only [tabGet, find?]
    split_ifs <;> simp [ih]

/-! ## Canonical form -/

theorem tabSorted_cons (k : Nat) (v : α) (t : Tab α) :
    tabSorted ((k, v) :: t) = true ↔ (∀ e ∈ t, k < e.1) ∧ tabSorted t = true := by
  simp [tabSorted]

theorem mem_tabPut {t : Tab α} {n : Nat} {v : α} {e : Nat × α} (h : e ∈ tabPut t n v) : e = (n, v) ∨ e ∈ t := by
  induction t with
  | nil => simpa [tabPut] using h
  | cons f t ih =>
    obtain ⟨k, w⟩ := f
    simp only [tabPut] at h
    split_ifs at h <;> simp only [List.mem_cons] at h ⊢
    · tauto
    · tauto
    · rcases h with h | h
      · tauto
      · rcases ih h with h | h <;> tauto

theorem mem_tabErase {t : Tab α} {n : Nat} {e : Nat × α} (h : e ∈ tabErase t n) : e ∈ t := by
  induction t with
  | nil => simp [tabErase] at h
  | cons f t ih =>
    obtain ⟨k, w⟩ := f
    simp only [tabErase] at h
    split_ifs at h
    · exact List.mem_cons_of_mem _ (ih h)
    · rcases List.mem_cons.1 h with h | h
      · exact h ▸ List.mem_cons_self
      · exact List.mem_cons_of_mem _ (ih h)

theorem tabSorted_put {t : Tab α} (n : Nat) (v : α) (h : tabSorted t = true) : tabSorted (tabPut t n v) = true := by
  induction t with
  | nil => simp [tabPut, tabSorted]
  | cons f t ih =>
    obtain ⟨k, w⟩ := f
    obtain ⟨h1, h2⟩ := (tabSorted_cons ..).1 h
    simp only [tabPut]
    split_ifs with ha hb
    · subst ha; exact (tabSorted_cons ..).2 ⟨h1, h2⟩
    · refine (tabSorted_cons ..).2 ⟨fun e he => ?_, h⟩
      rcases List.mem_cons.1 he with rfl | he
      · exact hb
      · exact hb.trans (h1 e he)
    · refine (tabSorted_cons ..).2 ⟨fun e he => ?_, ih h2⟩
      rcases mem_tabPut he with rfl | he
      · show k < n; omega
      · exact h1 e he

theorem tabSorted_erase {t : Tab α} (n : Nat) (h : tabSorted t = true) : tabSorted (tabErase t n) = true := by
  induction t with
  | nil => simp [tabErase, tabSorted]
  | cons f t ih =>
    obtain ⟨k, w⟩ := f
    obtain ⟨h1, h2⟩ := (tabSorted_cons ..).1 h
    simp only [tabErase]
    split_ifs
    · exact ih h2
    · exact (tabSorted_cons ..).2 ⟨fun e he => h1 e (mem_tabErase he), ih h2⟩

theorem tabWf_iff [DecidableEq α] (d : α) (t : Tab α) :
    tabWf d t = true ↔ tabSorted t = true ∧ ∀ e ∈ t, e.2 ≠ d := by
  simp [tabWf]

theorem tabWf_set [DecidableEq α] {d : α} {t : Tab α} (n : Nat) (v : α) (h : tabWf d t = true) :
    tabWf d (tabSet d t n v) = true := by
  obtain ⟨h1, h2⟩ := (tabWf_iff ..).1 h
  unfold tabSet
  split_ifs with hv
  · exact (tabWf_iff ..).2 ⟨tabSorted_erase n h1, fun e he => h2 e (mem_tabErase he)⟩
  · refine (tabWf_iff ..).2 ⟨tabSorted_put n v h1, fun e he => ?_⟩
    rcases mem_tabPut he with rfl | he
    · exact hv
    · exact h2 e he

theorem tabWf_setMany [DecidableEq α] {d : α} (vs : List α) {t : Tab α} (n : Nat) (h : tabWf d t = true) :
    tabWf d (tabSetMany d t n vs) = true := by
  induction vs generalizing t n with
  | nil => exact h
  | cons v vs ih => exact ih _ (tabWf_set n v h)

theorem tabWf_setAll [DecidableEq α] {d : α} (vs : List (Nat × α)) {t : Tab α} (h : tabWf d t = true) :
    tabWf d (tabSetAll d t vs) = true := by
  induction vs generalizing t with
  | nil => exact h
  | cons v vs ih => exact ih (tabWf_set v.1 v.2 h)

theorem memoryWf_write {m : List Host.Cell} (a : Nat) (bs : List Byte) (h : memoryWf m = true) :
    memoryWf (memWrite m a bs) = true := tabWf_setMany bs a h

theorem memoryWf_writeNat {m : List Host.Cell} (a n v : Nat) (h : memoryWf m = true) :
    memoryWf (memWriteNat m a n v) = true := memoryWf_write a _ h

theorem memoryWf_writeMasked (bs : List (Option Byte)) {m : List Host.Cell} (a : Nat) (h : memoryWf m = true) :
    memoryWf (memWriteMasked m a bs) = true := by
  induction bs generalizing m a with
  | nil => exact h
  | cons b bs ih =>
    cases b with
    | none => exact ih _ h
    | some b => exact ih _ (tabWf_set a b h)

/-! ## Bytes of a memory after a write -/

theorem memByte_write (bs : List Byte) (m : List Host.Cell) (a x : Nat) :
    memByte (memWrite m a bs) x = if a ≤ x then (bs[x - a]?).getD (memByte m x) else memByte m x := by
  induction bs generalizing m a with
  | nil => simp [memWrite, tabSetMany]
  | cons b bs ih =>
    have h := ih (tabSet unlistedByte m a b) (a + 1)
    simp only [memWrite, tabSetMany] at h ⊢
    rw [h]
    simp only [memByte, tabGet_set]
    rcases Nat.lt_trichotomy x a with hx | rfl | hx
    · simp [show ¬ a + 1 ≤ x by omega, show ¬ a ≤ x by omega, show x ≠ a by omega]
    · simp
    · obtain ⟨k, rfl⟩ : ∃ k, x = a + 1 + k := ⟨x - (a + 1), by omega⟩
      simp [show a + 1 + k - a = k + 1 by omega, show a + 1 + k ≠ a by omega, show a ≤ a + 1 + k by omega]

theorem memByte_set (m : List Host.Cell) (a x : Nat) (b : Byte) :
    memByte (tabSet unlistedByte m a b) x = if x = a then b else memByte m x := tabGet_set ..

theorem memByte_writeMasked (bs : List (Option Byte)) (m : List Host.Cell) (a x : Nat) :
    memByte (memWriteMasked m a bs) x =
      if a ≤ x then ((bs[x - a]?).getD none).getD (memByte m x) else memByte m x := by
  induction bs generalizing m a with
  | nil => simp [memWriteMasked]
  | cons b bs ih =>
    rcases Nat.lt_trichotomy x a with hx | rfl | hx
    · have h1 : ¬ a + 1 ≤ x := by omega
      have h2 : ¬ a ≤ x := by omega
      have h3 : x ≠ a := by omega
      cases b <;> simp only [memWriteMasked, ih, memByte_set, if_neg h1, if_neg h2, if_neg h3]
    · cases b <;> simp [memWriteMasked, ih, memByte_set]
    · obtain ⟨k, rfl⟩ : ∃ k, x = a + 1 + k := ⟨x - (a + 1), by omega⟩
      have h1 : a + 1 + k - a = k + 1 := by omega
      have h2 : a + 1 + k - (a + 1) = k := by omega
      have h3 : a + 1 + k ≠ a := by omega
      have h4 : a ≤ a + 1 + k := by omega
      have h5 : a + 1 ≤ a + 1 + k := by omega
      cases b <;> simp only [memWriteMasked, ih, memByte_set, if_neg h3, if_pos h4, if_pos h5, h1, h2,
        List.getElem?_cons_succ]

/-! ## Parts of the state after a replacement -/

@[simp] theorem getTeam_setTeam (s : State) (u v : Nat) (t : Team) :
    getTeam (setTeam s u t) v = if v = u then t else getTeam s v := tabGet_put ..

@[simp] theorem getCore_setCore (s : State) (n m : Nat) (c : Core) :
    getCore (setCore s n c) m = if m = n then c else getCore s m := tabGet_put ..

@[simp] theorem getCtx_setCtx (s : State) (n m : Nat) (c : Ctx) :
    getCtx (setCtx s n c) m = if m = n then c else getCtx s m := tabGet_put ..

@[simp] theorem getCore_setTeam (s : State) (u n : Nat) (t : Team) : getCore (setTeam s u t) n = getCore s n := rfl
@[simp] theorem getCtx_setTeam (s : State) (u n : Nat) (t : Team) : getCtx (setTeam s u t) n = getCtx s n := rfl
@[simp] theorem getTeam_setCore (s : State) (n u : Nat) (c : Core) : getTeam (setCore s n c) u = getTeam s u := rfl
@[simp] theorem getCtx_setCore (s : State) (n m : Nat) (c : Core) : getCtx (setCore s n c) m = getCtx s m := rfl
@[simp] theorem getTeam_setCtx (s : State) (n u : Nat) (c : Ctx) : getTeam (setCtx s n c) u = getTeam s u := rfl
@[simp] theorem getCore_setCtx (s : State) (n m : Nat) (c : Ctx) : getCore (setCtx s n c) m = getCore s m := rfl

theorem getTeam_of_find {s : State} {u : Nat} {t : Team} (h : find? s.teams u = some t) : getTeam s u = t := by
  simp [getTeam, tabGet_eq_find?, h]

/-! ## Registers after a write -/

theorem vkey_inj {i j r q : Nat} (hr : r < 128) (hq : q < 128) : vkey i r = vkey j q ↔ i = j ∧ r = q := by
  unfold vkey; omega

theorem vreg_setV (t : Team) (i j r q : Nat) (w : W32) (hr : r < 128) (hq : q < 128) :
    vreg (setV t i r w) j q = if j = i ∧ q = r then w else vreg t j q := by
  simp [vreg, setV, tabGet_set, vkey_inj hq hr]

theorem kreg_setK (t : Team) (n m : Nat) (w : W64) :
    kreg (setK t n w) m = if m = n ∧ n ≠ 0 then w else kreg t m := by
  by_cases h : n = 0
  · simp [setK, h]
  · by_cases hm : m = 0
    · have : ¬ (0 = n) := fun e => h e.symm
      simp [h, hm, kreg, this]
    · simp [setK, h, hm, kreg, tabGet_set]

theorem preg_setP (t : Team) (i j p q : Nat) (b : Bool) (hp : p < 8) (hq : q < 8) :
    preg (setP t i p b) j q = if j = i ∧ q = p ∧ p ≠ 0 then b else preg t j q := by
  by_cases h : p = 0
  · simp [setP, h]
  · have hk : j * 8 + q = i * 8 + p ↔ j = i ∧ q = p := by omega
    by_cases hq0 : q = 0
    · have : ¬ (0 = p) := fun e => h e.symm
      simp [setP, h, hq0, preg, this]
    · simp only [setP, h, preg, tabGet_set, hk, beq_false_of_ne hq0, Bool.false_or, ne_eq, not_false_eq_true, and_true,
        if_false]

end Sys2Proof.Machine
end

