-- ==== Sys2Proof/Laws/Flow.lean ====
section
/-! SUPPORT. The choice of the next address (07 R126) said once: what `chooseNext` gives for lanes that run on, what a team without an
active loop keeps (R136, R137), and where a team goes after an instruction that every lane falls through. -/

namespace Sys2Proof.Machine

/-! ## The states of lanes -/

theorem laneState_setLane (fl : Flow) (i j : Nat) (l : LaneState) :
    laneState (setLane fl i l) j = if j = i then l else laneState fl j := tabGet_set ..

theorem sorted_setLane {fl : Flow} (h : tabSorted fl.lanes = true) (i : Nat) (l : LaneState) :
    tabSorted (setLane fl i l).lanes = true := by
  unfold setLane tabSet
  split_ifs
  · exact tabSorted_erase i h
  · exact tabSorted_put i l h

theorem mem_tab_of_sorted {α : Type} {t : Tab α} (h : tabSorted t = true) {d : α} {i : Nat} {v : α} (hv : v ≠ d) :
    (i, v) ∈ t ↔ tabGet d t i = v := by
  induction t with
  | nil => simp [tabGet, hv.symm]
  | cons e t ih =>
    obtain ⟨k, w⟩ := e
    obtain ⟨h1, h2⟩ := (tabSorted_cons ..).1 h
    have hk : ∀ x, (k, x) ∉ t := fun x hx => absurd (h1 _ hx) (lt_irrefl k)
    simp only [tabGet, List.mem_cons, Prod.mk.injEq]
    split_ifs with hik
    · subst hik
      constructor
      · rintro (⟨-, rfl⟩ | hm)
        · rfl
        · exact absurd hm (hk v)
      · rintro rfl; exact Or.inl ⟨rfl, rfl⟩
    · rw [← ih h2]; simp [hik]

theorem mem_waitingAt {fl : Flow} (h : tabSorted fl.lanes = true) {d i r : Nat} :
    (i, r) ∈ waitingAt fl d ↔ laneState fl i = .waiting r d := by
  rw [laneState, ← mem_tab_of_sorted h (by simp)]
  unfold waitingAt
  simp only [List.mem_filterMap, Prod.exists]
  constructor
  · rintro ⟨a, b, hm, hb⟩
    split at hb
    · next r' d' =>
      split_ifs at hb with hd
      simp only [Option.some.injEq, Prod.mk.injEq] at hb
      obtain ⟨rfl, rfl⟩ := hb
      subst hd; exact hm
    · cases hb
  · exact fun hm => ⟨i, _, hm, by simp⟩

/-! ## The least address -/

theorem foldl_omin (l : List (Nat × Nat)) (m : Option Nat) :
    (∀ n, l.foldl (fun m e => omin m (some e.2)) m = some n → (m = some n ∨ ∃ e ∈ l, e.2 = n) ∧ (∀ k, m = some k → n ≤ k) ∧
      ∀ e ∈ l, n ≤ e.2) ∧
    (l.foldl (fun m e => omin m (some e.2)) m = none ↔ m = none ∧ l = []) := by
  induction l generalizing m with
  | nil =>
    refine ⟨?_, by simp⟩
    rintro n rfl
    exact ⟨Or.inl rfl, fun k hk => by cases hk; exact le_rfl, by simp⟩
  | cons e l ih =>
    obtain ⟨h1, h2⟩ := ih (omin m (some e.2))
    simp only [List.foldl_cons]
    constructor
    · intro n hn
      obtain ⟨ha, hb, hc⟩ := h1 n hn
      cases m with
      | none =>
        simp only [omin, Option.some.injEq] at ha hb
        have := hb e.2 rfl
        refine ⟨Or.inr ?_, by simp, ?_⟩
        · rcases ha with ha | ⟨x, hx, hx'⟩
          · exact ⟨e, List.mem_cons_self, ha⟩
          · exact ⟨x, List.mem_cons_of_mem _ hx, hx'⟩
        · intro x hx
          rcases List.mem_cons.1 hx with rfl | hx
          · exact this
          · exact hc x hx
      | some k =>
        simp only [omin, Option.some.injEq] at ha hb
        have := hb _ rfl
        refine ⟨?_, ?_, ?_⟩
        · rcases ha with ha | ⟨x, hx, hx'⟩
          · rcases le_total k e.2 with hk | hk
            · left; rw [min_eq_left hk] at ha; rw [ha]
            · right; rw [min_eq_right hk] at ha; exact ⟨e, List.mem_cons_self, ha⟩
          · exact Or.inr ⟨x, List.mem_cons_of_mem _ hx, hx'⟩
        · rintro _ ⟨⟩; omega
        · intro x hx
          rcases List.mem_cons.1 hx with rfl | hx
          · omega
          · exact hc x hx
    · rw [h2]
      cases m <;> simp [omin]

/-! ## The choice -/

theorem park_state (d n : Nat) (l : List (Nat × Nat)) (fl : Flow) (hnd : (l.map (·.1)).Nodup) (hs : tabSorted fl.lanes = true) :
    let f := l.foldl (fun f e => if n < e.2 then setLane f e.1 (.waiting e.2 d) else f) fl
    tabSorted f.lanes = true ∧ f.loops = fl.loops ∧ f.x = fl.x ∧ f.uni = fl.uni ∧
      (∀ e ∈ l, laneState f e.1 = if n < e.2 then .waiting e.2 d else laneState fl e.1) ∧
      ∀ j, j ∉ l.map (·.1) → laneState f j = laneState fl j := by
  induction l generalizing fl with
  | nil => exact ⟨hs, rfl, rfl, rfl, by simp, fun _ _ => rfl⟩
  | cons e l ih =>
    simp only [List.map_cons, List.nodup_cons] at hnd
    have hs1 : tabSorted (if n < e.2 then setLane fl e.1 (.waiting e.2 d) else fl).lanes = true := by
      split_ifs
      · exact sorted_setLane hs ..
      · exact hs
    have hst : ∀ j, laneState (if n < e.2 then setLane fl e.1 (.waiting e.2 d) else fl) j =
        if j = e.1 ∧ n < e.2 then .waiting e.2 d else laneState fl j := by
      intro j
      split_ifs <;> simp_all [laneState_setLane]
    obtain ⟨a1, a2, a3, a4, a5, a6⟩ := ih _ hnd.2 hs1
    simp only [List.foldl_cons]
    refine ⟨a1, ?_, ?_, ?_, ?_, ?_⟩
    · rw [a2]; split_ifs <;> rfl
    · rw [a3]; split_ifs <;> rfl
    · rw [a4]; split_ifs <;> rfl
    · intro x hx
      rcases List.mem_cons.1 hx with rfl | hx
      · rw [a6 _ hnd.1, hst]; simp
      · have hne : x.1 ≠ e.1 := by
          rintro h; exact hnd.1 (h ▸ List.mem_map.2 ⟨x, hx, rfl⟩)
        rw [a5 x hx, hst]; simp [hne]
    · intro j hj
      simp only [List.map_cons, List.mem_cons, not_or] at hj
      rw [a6 j hj.2, hst]; simp [hj.1]

theorem setLanes_state (l : List Nat) (fl : Flow) (v : LaneState) :
    (setLanes fl l v).loops = fl.loops ∧ (setLanes fl l v).x = fl.x ∧
      ∀ j, laneState (setLanes fl l v) j = if j ∈ l then v else laneState fl j := by
  induction l generalizing fl with
  | nil => simp [setLanes]
  | cons i l ih =>
    obtain ⟨h1, h2, h3⟩ := ih (setLane fl i v)
    refine ⟨h1, h2, fun j => ?_⟩
    have h := h3 j
    simp only [setLanes, List.foldl_cons] at h ⊢
    rw [h, laneState_setLane]
    by_cases hj : j ∈ l <;> by_cases hi : j = i <;> simp [hj, hi]

theorem mergeAt_state {fl : Flow} (hs : tabSorted fl.lanes = true) (d n : Nat) :
    (mergeAt fl d n).loops = fl.loops ∧ (mergeAt fl d n).x = fl.x ∧
      ∀ j, laneState (mergeAt fl d n) j = if laneState fl j = .waiting n d then .active else laneState fl j := by
  obtain ⟨h1, h2, h3⟩ := setLanes_state ((waitingAt fl d).filterMap fun e => if e.2 = n then some e.1 else none) fl .active
  refine ⟨h1, h2, fun j => (h3 j).trans ?_⟩
  have : j ∈ (waitingAt fl d).filterMap (fun e => if e.2 = n then some e.1 else none) ↔ laneState fl j = .waiting n d := by
    rw [← mem_waitingAt hs]
    simp only [List.mem_filterMap, Prod.exists]
    constructor
    · rintro ⟨a, b, hm, hb⟩
      split_ifs at hb with hbn
      cases hb; cases hbn; exact hm
    · exact fun h => ⟨j, n, h, by simp⟩
  simp only [this]

/-- THE CHOICE OF THE NEXT ADDRESS SAID ONCE (R126), for a team with active lanes out of uniform-only mode. -/
theorem chooseNext_chosen {nl : Nat} {fl : Flow} (next : Nat → Nat) (un : Option Nat) (huni : fl.uni = false)
    (hs : tabSorted fl.lanes = true) (hne : activeLanes nl fl ≠ []) :
    ∃ f, chooseNext fl ((activeLanes nl fl).map fun i => (i, next i)) un = some f ∧ Chosen nl fl f next ∧
      f.loops = fl.loops ∧ f.uni = false := by
  set act := activeLanes nl fl with hact
  set nexts := act.map fun i => (i, next i) with hnx
  have hne' : nexts ≠ [] := by simpa [hnx] using hne
  have hown := foldl_omin nexts none
  have hfr := foldl_omin (waitingAt fl fl.depth) none
  obtain ⟨m, hm⟩ : ∃ m, nexts.foldl (fun m e => omin m (some e.2)) none = some m := by
    cases h : nexts.foldl (fun m e => omin m (some e.2)) none with
    | none => exact absurd (hown.2.1 h).2 hne'
    | some m => exact ⟨m, rfl⟩
  obtain ⟨hm1, -, hm3⟩ := hown.1 m hm
  obtain ⟨n, hn, hmem, hle1, hle2⟩ : ∃ n, omin (frontier fl fl.depth) (some m) = some n ∧
      ((∃ e ∈ nexts, e.2 = n) ∨ ∃ e ∈ waitingAt fl fl.depth, e.2 = n) ∧ (∀ e ∈ nexts, n ≤ e.2) ∧
      ∀ e ∈ waitingAt fl fl.depth, n ≤ e.2 := by
    have hm1' : ∃ e ∈ nexts, e.2 = m := by simpa using hm1
    cases hf : frontier fl fl.depth with
    | none =>
      have hw := (hfr.2.1 hf).2
      exact ⟨m, rfl, Or.inl hm1', hm3, by simp [hw]⟩
    | some k =>
      obtain ⟨hk1, -, hk3⟩ := hfr.1 k hf
      refine ⟨min k m, rfl, ?_, ?_, ?_⟩
      · rcases le_total k m with h | h
        · rw [min_eq_left h]; exact Or.inr (by simpa using hk1)
        · rw [min_eq_right h]; exact Or.inl hm1'
      · intro e he; exact (min_le_right k m).trans (hm3 e he)
      · intro e he; exact (min_le_left k m).trans (hk3 e he)
  have hndup : (nexts.map (·.1)).Nodup := by
    have : nexts.map (·.1) = act := by simp [hnx, Function.comp_def]
    rw [this]; exact List.Nodup.filter _ List.nodup_range
  obtain ⟨p1, p2, p3, p4, p5, p6⟩ := park_state fl.depth n nexts fl hndup hs
  set parked := nexts.foldl (fun f e => if n < e.2 then setLane f e.1 (.waiting e.2 fl.depth) else f) fl with hpk
  obtain ⟨q1, q2, q3⟩ := mergeAt_state p1 fl.depth n
  have hgo : goTo fl fl.depth n nexts = { mergeAt parked fl.depth n with pc := n, depth := fl.depth, uni := false } := by
    unfold goTo; simp [huni, hpk]
  have hst : ∀ j, laneState (goTo fl fl.depth n nexts) j = laneState (mergeAt parked fl.depth n) j := by
    intro j; rw [hgo]; rfl
  have hactive : ∀ i ∈ act, laneState fl i = .active := by
    intro i hi
    have := (List.mem_filter.1 hi).2
    simpa [laneActive] using this
  have hnot : ∀ i, i ∉ act → i ∉ nexts.map (·.1) := by
    intro i hi; simpa [hnx] using hi
  refine ⟨goTo fl fl.depth n nexts, ?_, ?_, ?_, ?_⟩
  · unfold chooseNext
    simp only [huni, Bool.false_eq_true, if_false, hm, hn]
  · constructor
    · rcases hmem with ⟨e, he, rfl⟩ | ⟨e, he, rfl⟩
      · obtain ⟨i, hi, rfl⟩ := List.mem_map.1 he
        exact Or.inl ⟨i, hi, by rw [hgo]⟩
      · exact Or.inr ⟨e.1, by rw [hgo]; exact (mem_waitingAt hs).1 he⟩
    · intro i hi
      rw [hgo]; exact hle1 (i, next i) (List.mem_map.2 ⟨i, hi, rfl⟩)
    · intro i r hr
      rw [hgo]; exact hle2 (i, r) ((mem_waitingAt hs).2 hr)
    · intro i hi
      have hp := p5 (i, next i) (List.mem_map.2 ⟨i, hi, rfl⟩)
      have hl := hle1 (i, next i) (List.mem_map.2 ⟨i, hi, rfl⟩)
      simp only at hp hl
      rw [hst, q3, hp, hactive i hi, hgo]
      simp only
      rcases Nat.lt_or_ge n (next i) with h | h
      · have : next i ≠ n := by omega
        simp [h, this]
      · have : next i = n := by omega
        simp [this]
    · intro i hi
      rw [hst, q3, p6 i (hnot i hi), hgo]
    · rw [hgo]
    · rw [hgo]; exact q2.trans p3
  · rw [hgo]; exact q1.trans p2
  · rw [hgo]

/-! ## Without loops -/

theorem loopAt_off {t : Team} (h : NoLoops t) (i : Nat) : (loopAt t.flow i).on = false := by
  unfold loopAt
  have : ∀ (l : List LoopEntry) (i : Nat), (∀ e ∈ l, e.on = false) → (nth LoopEntry.reset l i).on = false := by
    intro l
    induction l with
    | nil => intro i _; rfl
    | cons x l ih =>
      intro i hl
      cases i with
      | zero => exact hl x List.mem_cons_self
      | succ i => exact ih i fun e he => hl e (List.mem_cons_of_mem _ he)
  exact this _ _ h

theorem loopStep_off {t : Team} (h : NoLoops t) (w : Nat) (nexts : List (Nat × Nat)) (un : Option Nat) :
    loopStep t.flow w nexts un = (t.flow, nexts, un, false) := by
  have : loopsEnding t.flow w = [] := by
    unfold loopsEnding
    simp [loopAt_off h, sortDesc]
  unfold loopStep
  simp [this, backEdges]

theorem popLoops_off {fl : Flow} (h : ∀ e ∈ fl.loops, e.on = false) : popLoops fl = fl := by
  unfold popLoops
  have : fl.loops.map (fun e =>
      if e.on && (decide (fl.depth < e.depth) ||
          (fl.depth == e.depth && (decide (fl.pc < e.start) || decide (loopEnd e < fl.pc))))
      then { e with on := false } else e) = fl.loops := by
    conv_rhs => rw [← List.map_id fl.loops]
    refine List.map_congr_left fun e he => ?_
    simp [h e he]
  rw [this]

end Sys2Proof.Machine
end

