-- ==== Sys2Proof/Laws/Issue.lean ====
section
/-! SUPPORT. The issue of an instruction (05 R82, 03 R39-R53) said once: what `issueOp`, `fallThrough`, `vecOp`, `vecLater` and
`uniformOp` do for a team that issues with nothing else in the step. -/

namespace Sys2Proof.Machine

/-! ## Nothing to append -/

theorem settle_of_quiet {s : State} (h : Quiet s) : settle s = s := by
  have hd : ∀ n, ctxDue s n = false := fun n => by simp [ctxDue, h.ctx, h.ctxNone]
  have hf : ∀ l : List (Nat × Ctx), l.foldl (fun a e =>
      if ctxDue a e.1 then flushCtx 64 (modCtx a e.1 fun c => { c with due := true }) e.1 else a) s = s := by
    intro l
    induction l with
    | nil => rfl
    | cons e l ih => simp only [List.foldl_cons, hd, Bool.false_eq_true, if_false]; exact ih
  unfold settle
  rw [hf]
  simp [devDue, h.dev, h.devNone]

theorem Quiet.setTeam {s : State} (h : Quiet s) (u : Nat) (t : Team) : Quiet (setTeam s u t) :=
  ⟨h.dev, h.devNone, h.ctx, h.ctxNone⟩

theorem Quiet.setCore {s : State} (h : Quiet s) (n : Nat) (c : Core) : Quiet (setCore s n c) :=
  ⟨h.dev, h.devNone, h.ctx, h.ctxNone⟩

theorem done_of_quiet {s : State} (h : Quiet s) : done s = .next s := by rw [done, settle_of_quiet h]

/-! ## One team replaced twice -/

theorem tabPut_put {α : Type} (t : Tab α) (n : Nat) (v w : α) : tabPut (tabPut t n v) n w = tabPut t n w := by
  induction t with
  | nil => simp [tabPut]
  | cons e t ih =>
    obtain ⟨k, x⟩ := e
    simp only [tabPut]
    split_ifs <;> simp_all [tabPut]

@[simp] theorem setTeam_setTeam (s : State) (u : Nat) (a b : Team) : setTeam (setTeam s u a) u b = setTeam s u b := by
  simp only [setTeam, tabPut_put]

@[simp] theorem setCore_setCore (s : State) (n : Nat) (a b : Core) : setCore (setCore s n a) n b = setCore s n b := by
  simp only [setCore, tabPut_put]

theorem find?_setTeam (s : State) (u n : Nat) (t : Team) :
    find? (setTeam s u t).teams n = if n = u then some t else find? s.teams n := find?_put ..

/-! ## The end of a group -/

theorem bookGroup_moved (t : Team) : Moved t (bookGroup t) := by
  unfold bookGroup Moved
  split
  · next h => cases t; simp_all
  · rfl

theorem Moved.refl_of (t : Team) (h : t.booking = none) : Moved t t := by
  cases t; simp_all [Moved]

/-- An untraced team that is not stepped alone ends its group: it alone changes, and only in its place; without an active loop it goes where
`chooseNext` says. -/
theorem advance_team {s : State} {u : Nat} (ht : (getTeam s u).trace.on = false) (hs : (getTeam s u).stepOnce = false)
    (fl : Flow) (nexts : List (Nat × Nat)) (un : Option Nat) (redirect snap : Bool) :
    ∃ t', advance s u fl nexts un redirect snap = setTeam s u t' ∧ Moved (getTeam s u) t' ∧
      (snap = false → t'.snap = (getTeam s u).snap) ∧
      (loopStep fl (getTeam s u).cur.word nexts un = (fl, nexts, un, false) → ∀ f, chooseNext fl nexts un = some f →
        popLoops f = f → t'.status = .ready ∧ t'.flow = f) := by
  have hb := bookGroup_moved (getTeam s u)
  generalize hB : bookGroup (getTeam s u) = B at hb
  have h1 : traced B = false := by rw [hb]; simp [traced, ht]
  have h2 : B.stepOnce = false := by rw [hb]; exact hs
  have h3 : B.cur = (getTeam s u).cur := by rw [hb]
  unfold advance
  simp only [hB, h3]
  have hsn : B.snap = (getTeam s u).snap := by
    rw [← hB]; unfold bookGroup; split <;> rfl
  rcases hl : loopStep fl (getTeam s u).cur.word nexts un with ⟨fl1, nexts1, un1, back⟩
  simp only
  cases hc : chooseNext fl1 nexts1 un1 with
  | none =>
    simp only [h2, Bool.false_eq_true, if_false]
    refine ⟨_, rfl, ?_, fun _ => hsn, ?_⟩
    · rw [hb]; simp [Moved, hs]
    · rintro ⟨⟩ f hf; rw [hc] at hf; cases hf
  | some f =>
    simp only [h1, h2, Bool.false_and, Bool.false_eq_true, if_false]
    refine ⟨_, rfl, ?_, fun h => by simp [h, hsn], ?_⟩
    · rw [hb]; simp [Moved, hs]
    · rintro ⟨⟩ g hg hp
      rw [hc] at hg; cases hg
      exact ⟨rfl, hp⟩

/-- The same of a group after which every lane goes on: the team goes on at the next word (R126, R140). -/
theorem fallThrough_team {s : State} {u : Nat} {t : Team} (hg : getTeam s u = t) (ht : t.trace.on = false)
    (hs : t.stepOnce = false) (snap : Bool) :
    ∃ t', fallThrough s u snap = setTeam s u t' ∧ Moved t t' ∧ (snap = false → t'.snap = t.snap) ∧
      (NoLoops t → tabSorted t.flow.lanes = true →
        (lanesOf t ≠ [] → t.flow.uni = false → t'.status = .ready ∧ t'.flow.loops = t.flow.loops ∧
          Chosen t.lanes t.flow t'.flow fun _ => t.cur.next) ∧
        (lanesOf t = [] → t.flow.uni = true → waitingAt t.flow t.flow.depth = [] →
          t'.status = .ready ∧ t'.flow = { t.flow with pc := t.cur.next })) := by
  subst hg
  obtain ⟨t', h1, h2, h3, h4⟩ := advance_team ht hs (getTeam s u).flow (plainNexts (getTeam s u))
    (some (getTeam s u).cur.next) false snap
  refine ⟨t', h1, h2, h3, fun hl hso => ⟨fun hne huni => ?_, fun he huni hw => ?_⟩⟩
  · obtain ⟨f, f1, f2, f3, f4⟩ := chooseNext_chosen (fun _ => (getTeam s u).cur.next) (some (getTeam s u).cur.next) huni hso hne
    obtain ⟨k1, k2⟩ := h4 (loopStep_off hl ..) f f1 (popLoops_off (by rw [f3]; exact hl))
    exact ⟨k1, by rw [k2, f3], by rw [k2]; exact f2⟩
  · have hp : plainNexts (getTeam s u) = [] := by simp [plainNexts, he]
    have hc : chooseNext (getTeam s u).flow (plainNexts (getTeam s u)) (some (getTeam s u).cur.next) =
        some { (getTeam s u).flow with pc := (getTeam s u).cur.next } := by
      rw [hp]; simp [chooseNext, huni, frontier, hw, omin, goTo, mergeAt, setLanes]
    exact h4 (loopStep_off hl ..) _ hc (popLoops_off hl)

/-! ## The issue -/

/-- The team with the latched group and its bookings. -/
def latch (s : State) (t : Team) (a : Access) : Team := { t with cur := s.issue, booking := some (bookings t a) }

theorem beginGroup_issuing {s : State} {u : Nat} {t : Team} (h : Issuing s u t) (a : Access) :
    beginGroup s (some (bookings (getTeam s s.issue.uid) a)) = setTeam s u (latch s t a) := by
  have hg : getTeam s u = t := getTeam_of_find h.team
  have hy : ∀ b, (setTeam s u { t with cur := s.issue, booking := b }).teams.any (fun e => e.2.yielded.contains u) = false := by
    intro b
    simp only [List.any_eq_false, List.contains_iff_mem]
    intro e he
    rcases mem_tabPut he with rfl | he
    · obtain ⟨k, hk⟩ : ∃ k, (k, t) ∈ s.teams := by
        have := h.team
        revert this
        generalize s.teams = l
        induction l with
        | nil => simp [find?]
        | cons e l ih =>
          obtain ⟨k, x⟩ := e
          simp only [find?]
          split_ifs with hku
          · rintro ⟨⟩; exact ⟨k, by simp⟩
          · intro h; obtain ⟨k', hk'⟩ := ih h; exact ⟨k', List.mem_cons_of_mem _ hk'⟩
      have hy := h.unawaited _ hk
      exact hy
    · exact h.unawaited e he
  unfold beginGroup
  simp only [h.latched, hg, hy, Bool.false_eq_true, if_false, traced, h.untraced, Bool.false_and]
  rfl

/-- The effective registers that an access names fit, so that no register cause stands (R39-R41). -/
structure AccFits (t : Team) (a : Access) : Prop where
  vec : Fits t (a.rv ++ a.wv)
  uni : ∀ e ∈ a.rk ++ a.wk, e.1 + e.2 ≤ 384

theorem accCause_fits {s : State} {t : Team} {a : Access} (h : AccFits t a) (hf : t.flight = []) : accCause s t a = none := by
  have h1 : (a.rv ++ a.wv).any (vUseOver t.flow.x t.allot) = false := by
    simp only [List.any_eq_false, vUseOver, decide_eq_true_eq]
    intro u hu; have := (h.vec u hu).1; omega
  have h2 : (a.rv ++ a.wv).any (vUseOdd t.flow.x) = false := by
    simp only [List.any_eq_false, vUseOdd, decide_eq_true_eq]
    intro u hu; have := (h.vec u hu).2; omega
  have h3 : (a.rk ++ a.wk).any (fun e => decide (383 < e.1 + e.2 - 1)) = false := by
    simp only [List.any_eq_false, decide_eq_true_eq]
    intro e he; have := h.uni e he; omega
  have h4 : earlyResults t a = [] := by simp [earlyResults, hf, ageFlight]
  simp only [accCause, h1, h2, h3, h4]
  simp

/-- THE ISSUE SAID ONCE: with nothing else in the step, a vector instruction with em zero only goes on, and any other runs
its effect on the team with the group latched. -/
theorem issueOp_issuing {s : State} {u : Nat} {t : Team} (h : Issuing s u t) {a : Access} (ha : AccFits t a)
    (eff : State → Nat → Team → Out) :
    issueOp a eff s =
      if a.vector && (lanesOf t).isEmpty then done (fallThrough (setTeam s u (latch s t a)) u false)
      else eff (setTeam s u (latch s t a)) u (latch s t a) := by
  have hg : getTeam (setTeam s u (latch s t a)) u = latch s t a := by simp
  have hb := beginGroup_issuing h a
  rw [h.latched] at hb
  have hl : lanesOf (latch s t a) = lanesOf t := rfl
  unfold issueOp
  simp only [h.latched, hb, hg, hl]
  have hc : accCause (setTeam s u (latch s t a)) (latch s t a) a = none :=
    accCause_fits ⟨ha.vec, ha.uni⟩ h.counted
  have hw : awaits (latch s t a) a = false := by
    simp [awaits, latch, h.arrived]
  have he : earlyResults (latch s t a) a = [] := by
    simp [earlyResults, latch, h.counted, ageFlight]
  split
  · rfl
  · simp only [hc, hw, he]
    simp [latch, h.mode, earlyView]

/-! ## Register instructions -/

@[simp] theorem FlagSet.or_none (f : FlagSet) : flagOr f FlagSet.none = f := by
  cases f; simp [flagOr, FlagSet.none]

theorem nth_setAt {α : Type} (d : α) (l : List α) (i j : Nat) (v : α) (h : i < l.length) :
    nth d (setAt l i v) j = if j = i then v else nth d l j := by
  induction l generalizing i j with
  | nil => simp at h
  | cons x l ih =>
    cases i with
    | zero => cases j <;> simp [setAt, nth]
    | succ i =>
      cases j with
      | zero => simp [setAt, nth]
      | succ j => simpa [setAt, nth] using ih i j (by simpa using h)

/-- The frame of the end of a register instruction: the team's registers may have changed, flags are raised, and the group
ends. -/
theorem regsOnly_end {s : State} {u : Nat} {t : Team} (h : Issuing s u t) (a : Access) (t1 : Team) (fl : FlagSet)
    (V P : Nat → Nat → Prop) (K : Nat → Prop) (ps : List Pending)
    (hb : t1 = { latch s t a with v := t1.v, p := t1.p, k := t1.k, pend := t.pend ++ ps })
    (hv : ∀ i r, r < 128 → ¬ V i r → vreg t1 i r = vreg t i r)
    (hp : ∀ i p, p < 8 → ¬ P i p → preg t1 i p = preg t i p)
    (hk : ∀ n, ¬ K n → kreg t1 n = kreg t n) :
    ∃ s' t', done (fallThrough (raiseVector (setTeam s u t1) t.core t.part fl) u false) = .next s' ∧
      t'.v = t1.v ∧ t'.p = t1.p ∧ t'.k = t1.k ∧ t'.pend = t.pend ++ ps ∧ RegsOnly s s' u t t' V P K fl ps := by
  have hf1 : t1.trace.on = false := by rw [hb]; exact h.untraced
  have hf2 : t1.stepOnce = false := by rw [hb]; exact h.alone
  set sr := raiseVector (setTeam s u t1) t.core t.part fl with hsr
  have hteam : getTeam sr u = t1 := by
    rw [hsr]; unfold raiseVector; split <;> simp
  obtain ⟨t', he, hm, hsn, hgo⟩ := fallThrough_team hteam hf1 hf2 false
  have hgoes : GoesOn s t t' := by
    have e1 : t1.flow = t.flow := by rw [hb]; rfl
    have e2 : t1.lanes = t.lanes := by rw [hb]; rfl
    have e3 : t1.cur = s.issue := by rw [hb]; rfl
    have e4 : lanesOf t1 = lanesOf t := by simp only [lanesOf, e1, e2]
    unfold GoesOn
    rw [← e1, ← e2, ← e3, ← e4]
    intro hl hso
    exact hgo (by unfold NoLoops at *; rw [e1]; exact hl) hso
  have hcore : ∀ n, getCore (setTeam sr u t') n =
      if n = t.core then { getCore s n with vflags := (getCore (setTeam sr u t') n).vflags } else getCore s n := by
    intro n
    rw [hsr]; unfold raiseVector
    by_cases hn : n = t.core
    · subst hn
      split <;> simp
    · split <;> simp [hn]
  have hflag : ∀ n p, vflagsOf (getCore (setTeam sr u t') n) p =
      if n = t.core ∧ p = t.part then flagOr (vflagsOf (getCore s n) p) fl else vflagsOf (getCore s n) p := by
    intro n p
    rw [hsr]; unfold raiseVector
    split
    · next hn => subst hn; simp
    · simp only [modCore_eq, getCore_setTeam, getCore_setCore]
      by_cases hn : n = t.core
      · subst hn
        simp only [if_true, vflagsOf, true_and, nth_setAt _ _ _ _ _ h.part]
        by_cases hp : p = t.part <;> simp [hp]
      · simp [hn]
  have hrest : setTeam sr u t' = { s with teams := (setTeam sr u t').teams, cores := (setTeam sr u t').cores } := by
    rw [hsr]; unfold raiseVector
    split <;> rfl
  have hq : Quiet (setTeam sr u t') := by
    rw [hrest]; exact ⟨h.quiet.dev, h.quiet.devNone, h.quiet.ctx, h.quiet.ctxNone⟩
  have hc2 : ∀ n, getCore (setTeam sr u t') n = { getCore s n with vflags := (getCore (setTeam sr u t') n).vflags } := by
    intro n
    by_cases hn : n = t.core
    · have := hcore n; rw [if_pos hn] at this; exact this
    · have := hcore n; rw [if_neg hn] at this; rw [this]
  have hteams : (setTeam sr u t').teams = tabPut (tabPut s.teams u t1) u t' := by
    rw [hsr]; unfold raiseVector; split <;> rfl
  have hgv : t'.v = t1.v := by rw [hm]
  have hgp : t'.p = t1.p := by rw [hm]
  have hgk : t'.k = t1.k := by rw [hm]
  have hgpend : t'.pend = t.pend ++ ps := by rw [hm, hb]
  refine ⟨setTeam sr u t', t', by rw [he, done_of_quiet hq], hgv, hgp, hgk, hgpend, ?_⟩
  refine ⟨hrest, ?_, ?_, hc2, hflag, ⟨?_, ?_, ?_, ?_, ?_⟩, ?_, ?_, ?_, hgpend, hgoes, ?_⟩
  · rw [hteams, find?_put]; simp
  · intro n hn; rw [hteams, find?_put, find?_put]; simp [hn]
  · intro x; rw [hrest]
  · intro x; rw [hrest]
  · intro x; rw [hrest]
  · intro n x; rw [hc2]
  · intro n x; rw [hc2]
  · intro i r hr hV; simpa only [vreg, hgv] using hv i r hr hV
  · intro i r hr hV; simpa only [preg, hgp] using hp i r hr hV
  · intro n hn; simpa only [kreg, hgk] using hk n hn
  · have hsn' := hsn rfl
    have hs3 : t1.snap = t.snap := by rw [hb]; rfl
    rw [Moved, hsn', hs3] at hm
    rw [hm, hb]; rfl

/-! ## Writes of several lanes -/

/-- What a lane's write leaves: its own registers and predicates take their values, every other stays. -/
structure Wrote (t t' : Team) (W : Nat → Nat → W32 → Prop) (Q : Nat → Nat → Bool → Prop) : Prop where
  body : t' = { t with v := t'.v, p := t'.p }
  vset : ∀ i r w, r < 128 → W i r w → vreg t' i r = w
  vkeep : ∀ i r, r < 128 → (∀ w, ¬ W i r w) → vreg t' i r = vreg t i r
  pset : ∀ i p b, p < 8 → Q i p b → p ≠ 0 → preg t' i p = b
  pkeep : ∀ i p, p < 8 → (∀ b, ¬ Q i p b) → preg t' i p = preg t i p

theorem setVHeld_nil (n : Nat) (t : Team) (i r : Nat) (w : W32) : setVHeld n [] t i r w = setV t i r w := by
  simp [setVHeld]

theorem setP_body (t : Team) (i p : Nat) (b : Bool) : setP t i p b = { t with p := (setP t i p b).p } := by
  unfold setP; split <;> rfl

theorem foldl_setV (l : List (Nat × W32)) (n : Nat) (t : Team) (i : Nat) (hnd : (l.map (·.1)).Nodup)
    (hlt : ∀ e ∈ l, e.1 < 128) :
    let t' := l.foldl (fun t e => setVHeld n [] t i e.1 e.2) t
    t' = { t with v := t'.v } ∧ (∀ e ∈ l, vreg t' i e.1 = e.2) ∧
      (∀ j r, r < 128 → (j = i → r ∉ l.map (·.1)) → vreg t' j r = vreg t j r) := by
  induction l generalizing t with
  | nil => simp
  | cons e l ih =>
    simp only [List.map_cons, List.nodup_cons] at hnd
    obtain ⟨h1, h2, h3⟩ := ih (setVHeld n [] t i e.1 e.2) hnd.2 (fun x hx => hlt x (List.mem_cons_of_mem _ hx))
    have he : e.1 < 128 := hlt e List.mem_cons_self
    simp only [List.foldl_cons, setVHeld_nil] at *
    refine ⟨by rw [h1]; rfl, ?_, ?_⟩
    · intro x hx
      rcases List.mem_cons.1 hx with rfl | hx
      · rw [h3 i x.1 he (fun _ => hnd.1), vreg_setV _ _ _ _ _ _ he he]; simp
      · exact h2 x hx
    · intro j r hr hj
      rw [h3 j r hr (fun h hm => hj h (List.mem_cons_of_mem _ hm)), vreg_setV _ _ _ _ _ _ he hr, if_neg]
      rintro ⟨rfl, rfl⟩; exact hj rfl List.mem_cons_self

theorem foldl_setP (l : List (Nat × Bool)) (t : Team) (i : Nat) (hnd : (l.map (·.1)).Nodup) (hlt : ∀ e ∈ l, e.1 < 8) :
    let t' := l.foldl (fun t e => setP t i e.1 e.2) t
    t' = { t with p := t'.p } ∧ (∀ e ∈ l, e.1 ≠ 0 → preg t' i e.1 = e.2) ∧
      (∀ j r, r < 8 → (j = i → r ∉ l.map (·.1)) → preg t' j r = preg t j r) := by
  induction l generalizing t with
  | nil => simp
  | cons e l ih =>
    simp only [List.map_cons, List.nodup_cons] at hnd
    obtain ⟨h1, h2, h3⟩ := ih (setP t i e.1 e.2) hnd.2 (fun x hx => hlt x (List.mem_cons_of_mem _ hx))
    have he : e.1 < 8 := hlt e List.mem_cons_self
    simp only [List.foldl_cons] at *
    refine ⟨by rw [h1, setP_body], ?_, ?_⟩
    · intro x hx hx0
      rcases List.mem_cons.1 hx with rfl | hx
      · rw [h3 i x.1 he (fun _ => hnd.1), preg_setP _ _ _ _ _ _ he he]; simp [hx0]
      · exact h2 x hx hx0
    · intro j r hr hj
      rw [h3 j r hr (fun h hm => hj h (List.mem_cons_of_mem _ hm)), preg_setP _ _ _ _ _ _ he hr, if_neg]
      rintro ⟨rfl, rfl, _⟩; exact hj rfl List.mem_cons_self

/-- The registers and predicates a list of lane results names are distinct in each lane, and exist. -/
structure OutOk (out : List (Nat × W32)) (ps : List (Nat × Bool)) : Prop where
  regs : (out.map (·.1)).Nodup
  below : ∀ e ∈ out, e.1 < 128
  preds : (ps.map (·.1)).Nodup
  pbelow : ∀ e ∈ ps, e.1 < 8

/-- Every lane's results are written, and nothing else. -/
theorem lanesWrite_wrote (outs : List (Nat × LaneOut)) (n : Nat) (t : Team) (hnd : (outs.map (·.1)).Nodup)
    (hok : ∀ e ∈ outs, OutOk e.2.regs e.2.preds) :
    Wrote t (lanesWrite n [] t outs) (fun i r w => ∃ o, (i, o) ∈ outs ∧ (r, w) ∈ o.regs)
      (fun i p b => ∃ o, (i, o) ∈ outs ∧ (p, b) ∈ o.preds) := by
  induction outs generalizing t with
  | nil => exact ⟨by cases t; rfl, by simp, fun _ _ _ _ => rfl, by simp, fun _ _ _ _ => rfl⟩
  | cons y is ih =>
    obtain ⟨x, f⟩ := y
    simp only [List.map_cons, List.nodup_cons] at hnd
    have hx : ∀ o, (x, o) ∉ is := fun o h => hnd.1 (List.mem_map.2 ⟨_, h, rfl⟩)
    have ho := hok (x, f) List.mem_cons_self
    obtain ⟨a1, a2, a3⟩ := foldl_setV f.regs n t x ho.regs ho.below
    obtain ⟨b1, b2, b3⟩ := foldl_setP f.preds (f.regs.foldl (fun t e => setVHeld n [] t x e.1 e.2) t) x ho.preds ho.pbelow
    have h := ih (laneWrite n [] t x f) hnd.2 (fun i hi => hok i (List.mem_cons_of_mem _ hi))
    have hv : ∀ j r, vreg (laneWrite n [] t x f) j r =
        vreg (f.regs.foldl (fun t e => setVHeld n [] t x e.1 e.2) t) j r := by
      intro j r; simp only [vreg, laneWrite]; rw [b1]
    have hp : ∀ j r, preg (f.regs.foldl (fun t e => setVHeld n [] t x e.1 e.2) t) j r = preg t j r := by
      intro j r; simp only [preg]; rw [a1]
    simp only [lanesWrite, List.foldl_cons] at h ⊢
    refine ⟨?_, ?_, ?_, ?_, ?_⟩
    · have h1 := h.body
      rw [h1]
      simp only [laneWrite]
      rw [b1, a1]
    · rintro i r w hr ⟨o, hi, hm⟩
      rcases List.mem_cons.1 hi with hi | hi
      · cases hi
        rw [h.vkeep x r hr (fun w h => hx _ h.choose_spec.1), hv]
        exact a2 (r, w) hm
      · exact h.vset i r w hr ⟨o, hi, hm⟩
    · intro i r hr hn
      rw [h.vkeep i r hr (fun w h => hn w ⟨_, List.mem_cons_of_mem _ h.choose_spec.1, h.choose_spec.2⟩), hv]
      refine a3 i r hr ?_
      rintro rfl hm
      obtain ⟨e, he, rfl⟩ := List.mem_map.1 hm
      exact hn e.2 ⟨f, List.mem_cons_self, he⟩
    · rintro i p b hr ⟨o, hi, hm⟩ h0
      rcases List.mem_cons.1 hi with hi | hi
      · cases hi
        rw [h.pkeep x p hr (fun w h => hx _ h.choose_spec.1)]
        exact b2 (p, b) hm h0
      · exact h.pset i p b hr ⟨o, hi, hm⟩ h0
    · intro i r hr hn
      rw [h.pkeep i r hr (fun w h => hn w ⟨_, List.mem_cons_of_mem _ h.choose_spec.1, h.choose_spec.2⟩)]
      refine (b3 i r hr ?_).trans (hp i r)
      rintro rfl hm
      obtain ⟨e, he, rfl⟩ := List.mem_map.1 hm
      exact hn e.2 ⟨f, List.mem_cons_self, he⟩

theorem lanesOf_nodup (t : Team) : (lanesOf t).Nodup := List.Nodup.filter _ List.nodup_range

@[simp] theorem flagAll_nil : flagAll [] = FlagSet.none := rfl

/-- The end of an instruction that writes registers of several lanes (R105, R119). -/
theorem writeLanes_end {s : State} {u : Nat} {t : Team} (h : Issuing s u t) (a : Access) (outs : List (Nat × LaneOut))
    (fl : FlagSet) (hnd : (outs.map (·.1)).Nodup) (hok : ∀ e ∈ outs, OutOk e.2.regs e.2.preds) :
    ∃ s' t', done (fallThrough (raiseVector (writeLanes (setTeam s u (latch s t a)) u outs) t.core t.part fl) u false) =
        .next s' ∧
      (∀ e ∈ outs, ∀ w ∈ e.2.regs, vreg t' e.1 w.1 = w.2) ∧
      (∀ e ∈ outs, ∀ w ∈ e.2.preds, w.1 ≠ 0 → preg t' e.1 w.1 = w.2) ∧
      RegsOnly s s' u t t' (fun i r => ∃ o, (i, o) ∈ outs ∧ r ∈ o.regs.map (·.1))
        (fun i p => ∃ o, (i, o) ∈ outs ∧ p ∈ o.preds.map (·.1)) no fl [] := by
  have hw := lanesWrite_wrote outs s.free (latch s t a) hnd hok
  set t1 := lanesWrite s.free [] (latch s t a) outs with ht1
  obtain ⟨s', t', e1, e2, e3, _, _, e5⟩ := regsOnly_end h a t1 fl
    (fun i r => ∃ o, (i, o) ∈ outs ∧ r ∈ o.regs.map (·.1)) (fun i p => ∃ o, (i, o) ∈ outs ∧ p ∈ o.preds.map (·.1)) no []
    (by have hb := hw.body
        have hk : t1.k = t.k := (congrArg (fun x : Team => x.k) hb).trans rfl
        simp only [List.append_nil, hk]
        exact hb)
    (fun i r hr hn => (hw.vkeep i r hr (fun w ⟨o, ho, hm⟩ => hn ⟨o, ho, List.mem_map.2 ⟨_, hm, rfl⟩⟩)))
    (fun i r hr hn => (hw.pkeep i r hr (fun w ⟨o, ho, hm⟩ => hn ⟨o, ho, List.mem_map.2 ⟨_, hm, rfl⟩⟩)))
    (fun n _ => by
      have hk : t1.k = t.k := (congrArg (fun x : Team => x.k) hw.body).trans rfl
      simp only [kreg, hk])
  have hh : heldRegs (setTeam s u (latch s t a)) u t.core = [] := h.unheld
  have hwr : writeLanes (setTeam s u (latch s t a)) u outs = setTeam s u t1 := by
    unfold writeLanes
    simp only [getTeam_setTeam, if_true, show (latch s t a).core = t.core from rfl, hh, setTeam_setTeam]
    unfold taintRegs
    have : heldRegs (setTeam s u t1) u t.core = [] := h.unheld
    rw [if_neg]
    · rfl
    · simp only [show (setTeam s u (latch s t a)).free = s.free from rfl, ← ht1, this]; simp
  refine ⟨s', t', by rw [hwr]; exact e1, ?_, ?_, e5⟩
  · intro e he w hw'
    have := hw.vset e.1 w.1 w.2 ((hok e he).below w hw') ⟨e.2, he, hw'⟩
    simpa only [vreg, e2] using this
  · intro e he w hw' h0
    have := hw.pset e.1 w.1 w.2 ((hok e he).pbelow w hw') ⟨e.2, he, hw'⟩ h0
    simpa only [preg, e3] using this

/-- The end of a group that has written nothing. -/
theorem plain_end {s : State} {u : Nat} {t : Team} (h : Issuing s u t) (a : Access) (V P : Nat → Nat → Prop)
    (K : Nat → Prop) :
    ∃ s' t', done (fallThrough (setTeam s u (latch s t a)) u false) = .next s' ∧
      RegsOnly s s' u t t' V P K FlagSet.none [] := by
  obtain ⟨s', t', e1, _, _, _, _, e5⟩ := regsOnly_end h a (latch s t a) FlagSet.none V P K []
    (by simp [latch]) (fun _ _ _ _ => rfl) (fun _ _ _ _ => rfl) (fun _ _ => rfl)
  exact ⟨s', t', by rw [← e1]; simp [raiseVector], e5⟩

/-- What register instructions share: the lanes' results are those of a list that holds one entry for each active lane. -/
theorem vecDone_of {c : Instr} {s : State} {u : Nat} {t : Team} (h : Issuing s u t) (a : Access)
    (outs : List (Nat × LaneOut)) {out : Nat → List (Nat × W32)} {ps : Nat → List (Nat × Bool)} {fl : FlagSet}
    (hc : exec c s =
      if (lanesOf t).isEmpty then done (fallThrough (setTeam s u (latch s t a)) u false)
      else done (fallThrough (raiseVector (writeLanes (setTeam s u (latch s t a)) u outs) t.core t.part fl) u false))
    (hnd : (outs.map (·.1)).Nodup) (hin : ∀ i o, (i, o) ∈ outs → i ∈ lanesOf t ∧ o.regs = out i ∧ o.preds = ps i)
    (hall : ∀ i ∈ lanesOf t, ∃ o, (i, o) ∈ outs)
    (hok : ∀ i ∈ lanesOf t, OutOk (out i) (ps i)) (hfl : lanesOf t = [] → fl = FlagSet.none) : VecDone c s u t out ps fl := by
  unfold VecDone VecFrom
  rw [hc]
  split
  · next hem =>
    have hem' : lanesOf t = [] := List.isEmpty_iff.1 hem
    obtain ⟨s', t', e1, e2⟩ := plain_end h a (fun i r => i ∈ lanesOf t ∧ r ∈ (out i).map (·.1))
      (fun i p => i ∈ lanesOf t ∧ p ∈ (ps i).map (·.1)) no
    rw [hfl hem']
    exact ⟨s', t', e1, by simp [hem'], by simp [hem'], e2⟩
  · obtain ⟨s', t', e1, e2, e3, e4⟩ := writeLanes_end h a outs fl hnd
      (fun e he => by obtain ⟨h1, h2, h3⟩ := hin e.1 e.2 he; rw [h2, h3]; exact hok _ h1)
    refine ⟨s', t', e1, ?_, ?_, ?_⟩
    · intro i hi w hw
      obtain ⟨o, ho⟩ := hall i hi
      exact e2 (i, o) ho w (by rw [(hin i o ho).2.1]; exact hw)
    · intro i hi w hw
      obtain ⟨o, ho⟩ := hall i hi
      exact e3 (i, o) ho w (by rw [(hin i o ho).2.2]; exact hw)
    · refine ⟨e4.rest, e4.team, e4.others, e4.cores, e4.flags, e4.bytes, fun i r hr hn => e4.vregs i r hr ?_,
        fun i r hr hn => e4.pregs i r hr ?_, e4.kregs, e4.outstanding, e4.goes, e4.body⟩
      · rintro ⟨o, ho, hm⟩
        obtain ⟨h1, h2, _⟩ := hin i o ho
        exact hn ⟨h1, by rw [← h2]; exact hm⟩
      · rintro ⟨o, ho, hm⟩
        obtain ⟨h1, _, h3⟩ := hin i o ho
        exact hn ⟨h1, by rw [← h3]; exact hm⟩

/-- The same for a list made lane by lane. -/
theorem vecDone_map {c : Instr} {s : State} {u : Nat} {t : Team} (h : Issuing s u t) (a : Access) (f : Nat → LaneOut)
    {out : Nat → List (Nat × W32)} {ps : Nat → List (Nat × Bool)} {fl : Nat → FlagSet}
    (hc : exec c s =
      if (lanesOf t).isEmpty then done (fallThrough (setTeam s u (latch s t a)) u false)
      else done (fallThrough (raiseVector (writeLanes (setTeam s u (latch s t a)) u ((lanesOf t).map fun i => (i, f i)))
        t.core t.part (flagAll ((lanesOf t).map fl))) u false))
    (hf : ∀ i, (f i).regs = out i ∧ (f i).preds = ps i)
    (hok : ∀ i ∈ lanesOf t, OutOk (out i) (ps i)) : VecDone c s u t out ps (flagAll ((lanesOf t).map fl)) := by
  refine vecDone_of h a ((lanesOf t).map fun i => (i, f i)) hc ?_ ?_ ?_ hok ?_
  · rw [List.map_map]
    have : ((fun e : Nat × LaneOut => e.1) ∘ fun i => (i, f i)) = id := rfl
    rw [this, List.map_id]; exact lanesOf_nodup t
  · intro i o
    simp only [List.mem_map, Prod.mk.injEq]
    rintro ⟨j, hj, rfl, rfl⟩
    exact ⟨hj, (hf j).1, (hf j).2⟩
  · intro i hi; exact ⟨f i, List.mem_map.2 ⟨i, hi, rfl⟩⟩
  · intro he; rw [he]; rfl

/-- A VECTOR INSTRUCTION OF FIXED LATENCY SAID ONCE. -/
theorem vecOp_done {c : Instr} {s : State} {u : Nat} {t : Team} (h : Issuing s u t) {a : Access} (ha : AccFits t a)
    (hv : a.vector = true) {f : Team → Nat → LaneOut} {g : Option (Team → Nat → ILane)} (hc : exec c s = vecOp a f g s)
    {out : Nat → List (Nat × W32)} {ps : Nat → List (Nat × Bool)} {fl : Nat → FlagSet}
    (hf : ∀ i, f (latch s t a) i = ⟨out i, ps i, fl i⟩) (hok : ∀ i ∈ lanesOf t, OutOk (out i) (ps i)) :
    VecDone c s u t out ps (flagAll ((lanesOf t).map fl)) := by
  refine vecDone_map h a (f (latch s t a)) ?_ (fun i => by rw [hf]; exact ⟨rfl, rfl⟩) hok
  have hfl : ((lanesOf t).map fun i => (i, f (latch s t a) i)).map (·.2.flags) = (lanesOf t).map fl := by
    simp [List.map_map, Function.comp_def, hf]
  rw [hc, vecOp, issueOp_issuing h ha, hv]
  simp only [Bool.true_and, show (latch s t a).bounds = false from h.mode, Bool.false_eq_true, if_false,
    show lanesOf (latch s t a) = lanesOf t from rfl, hfl]
  rfl

/-- A CROSS-LANE INSTRUCTION OF FIXED LATENCY SAID ONCE, where its results are made lane by lane. -/
theorem crossOp_done {c : Instr} {s : State} {u : Nat} {t : Team} (h : Issuing s u t) {a : Access} (ha : AccFits t a)
    (hv : a.vector = true) {outs : Team → List (Nat × LaneOut)} (hc : exec c s = crossOp a false outs s) (f : Nat → LaneOut)
    {out : Nat → List (Nat × W32)} {ps : Nat → List (Nat × Bool)} {fl : Nat → FlagSet}
    (hf : outs (latch s t a) = (lanesOf t).map fun i => (i, f i)) (hfo : ∀ i, f i = ⟨out i, ps i, fl i⟩)
    (hok : ∀ i ∈ lanesOf t, OutOk (out i) (ps i)) :
    VecDone c s u t out ps (flagAll ((lanesOf t).map fl)) := by
  refine vecDone_map h a f ?_ (fun i => by rw [hfo]; exact ⟨rfl, rfl⟩) hok
  have hfl : ((lanesOf t).map fun i => (i, f i)).map (·.2.flags) = (lanesOf t).map fl := by
    simp [List.map_map, Function.comp_def, hfo]
  rw [hc, crossOp]
  simp only [Bool.false_eq_true, if_false]
  rw [issueOp_issuing h ha, hv]
  simp only [Bool.true_and, show (latch s t a).bounds = false from h.mode, Bool.false_eq_true, if_false, hf, hfl]
  rfl

/-- The end of an instruction whose results stay outstanding (R48). -/
theorem later_end {s : State} {u : Nat} {t : Team} (h : Issuing s u t) (a : Access) (p : Pending) (fl : FlagSet) :
    ∃ s' t', done (fallThrough (raiseVector (modTeam (setTeam s u (latch s t a)) u fun t' => { t' with pend := t'.pend ++ [p] })
        t.core t.part fl) u false) = .next s' ∧ RegsOnly s s' u t t' no2 no2 no fl [p] := by
  obtain ⟨s', t', e1, _, _, _, _, e5⟩ := regsOnly_end h a { latch s t a with pend := t.pend ++ [p] } fl no2 no2 no [p]
    rfl (fun _ _ _ _ => rfl) (fun _ _ _ _ => rfl) (fun _ _ => rfl)
  refine ⟨s', t', ?_, e5⟩
  rw [← e1, modTeam_eq, setTeam_setTeam, getTeam_setTeam, if_pos rfl]; rfl

/-- A vector instruction whose results stay outstanding, made lane by lane. -/
theorem laterDone_map {c : Instr} {s : State} {u : Nat} {t : Team} (h : Issuing s u t) (a : Access) (regs : List RegRef)
    (f : Nat → LaneOut) {out : Nat → List (Nat × W32)} {ps : Nat → List (Nat × Bool)} {fl : Nat → FlagSet}
    (hf : ∀ i, f i = ⟨out i, ps i, fl i⟩)
    (hc : exec c s =
      if (lanesOf t).isEmpty then done (fallThrough (setTeam s u (latch s t a)) u false)
      else done (fallThrough (raiseVector (modTeam (setTeam s u (latch s t a)) u fun t' => { t' with pend := t'.pend ++
          [⟨false, regs, (((lanesOf t).map fun i => (i, f i)).map fun e => e.2.regs.map fun r => PendWrite.mk e.1 r.1 r.2).flatten,
            (((lanesOf t).map fun i => (i, f i)).map fun e => e.2.preds.map fun p => (e.1, p)).flatten, none, none, [], 0,
            none, [], []⟩] })
        t.core t.part (flagAll (((lanesOf t).map fun i => (i, f i)).map (·.2.flags)))) u false)) :
    LaterDone c s u t regs out ps (flagAll ((lanesOf t).map fl)) := by
  unfold LaterDone
  rw [hc]
  by_cases hem : lanesOf t = []
  · simp only [hem, List.isEmpty_nil, if_true, List.map_nil, flagAll_nil]
    exact plain_end h a _ _ _
  · have h1 : (lanesOf t).isEmpty = false := by simpa [List.isEmpty_iff] using hem
    simp only [h1, Bool.false_eq_true, if_false, hem]
    have hw : (((lanesOf t).map fun i => (i, f i)).map fun e => e.2.regs.map fun r => PendWrite.mk e.1 r.1 r.2).flatten =
        (lanesOf t).flatMap fun i => (out i).map fun e => ⟨i, e.1, e.2⟩ := by
      simp [List.flatMap, List.map_map, Function.comp_def, hf]
    have hp : (((lanesOf t).map fun i => (i, f i)).map fun e => e.2.preds.map fun p => (e.1, p)).flatten =
        (lanesOf t).flatMap fun i => (ps i).map fun e => (i, e) := by
      simp [List.flatMap, List.map_map, Function.comp_def, hf]
    have hfl : ((lanesOf t).map fun i => (i, f i)).map (·.2.flags) = (lanesOf t).map fl := by
      simp [List.map_map, Function.comp_def, hf]
    rw [hw, hp, hfl]
    exact later_end h a _ _

/-- A VECTOR INSTRUCTION OF VARIABLE LATENCY SAID ONCE. -/
theorem vecLater_done {c : Instr} {s : State} {u : Nat} {t : Team} (h : Issuing s u t) {a : Access} (ha : AccFits t a)
    (hv : a.vector = true) {f : Team → Nat → LaneOut} {g : Option (Team → Nat → ILane)} (hc : exec c s = vecLater a f g s)
    {out : Nat → List (Nat × W32)} {ps : Nat → List (Nat × Bool)} {fl : Nat → FlagSet}
    (hf : ∀ i, f (latch s t a) i = ⟨out i, ps i, fl i⟩) :
    LaterDone c s u t (accWrites t.flow.x a) out ps (flagAll ((lanesOf t).map fl)) := by
  refine laterDone_map h a _ (f (latch s t a)) hf ?_
  rw [hc, vecLater, issueOp_issuing h ha, hv]
  simp only [Bool.true_and, show (latch s t a).bounds = false from h.mode, Bool.false_eq_true, if_false,
    show lanesOf (latch s t a) = lanesOf t from rfl]
  rfl

/-- A CROSS-LANE INSTRUCTION OF VARIABLE LATENCY SAID ONCE, where its results are made lane by lane. -/
theorem crossLater_done {c : Instr} {s : State} {u : Nat} {t : Team} (h : Issuing s u t) {a : Access} (ha : AccFits t a)
    (hv : a.vector = true) {outs : Team → List (Nat × LaneOut)} (hc : exec c s = crossOp a true outs s) (f : Nat → LaneOut)
    {out : Nat → List (Nat × W32)} {ps : Nat → List (Nat × Bool)} {fl : Nat → FlagSet}
    (hf : outs (latch s t { a with lat := 0 }) = (lanesOf t).map fun i => (i, f i)) (hfo : ∀ i, f i = ⟨out i, ps i, fl i⟩) :
    LaterDone c s u t (accWrites t.flow.x a) out ps (flagAll ((lanesOf t).map fl)) := by
  refine laterDone_map h { a with lat := 0 } _ f hfo ?_
  have ha' : AccFits t { a with lat := 0 } := ⟨ha.vec, ha.uni⟩
  have hv' : ({ a with lat := 0 } : Access).vector = true := hv
  rw [hc, crossOp]
  simp only [if_true]
  generalize ({ a with lat := 0 } : Access) = a' at *
  rw [issueOp_issuing h ha', hv']
  simp only [Bool.true_and, show (latch s t a').bounds = false from h.mode, Bool.false_eq_true, if_false, hf]
  rfl

/-- A UNIFORM INSTRUCTION OF FIXED LATENCY SAID ONCE. -/
theorem uniformOp_done {c : Instr} {s : State} {u : Nat} {t : Team} (h : Issuing s u t) {a : Access} (ha : AccFits t a)
    (hv : a.vector = false) {d : KReg} {f : State → Team → W64} (hc : exec c s = uniformOp a d f s) {w : W64}
    (hf : f (setTeam s u (latch s t a)) (latch s t a) = w) : UniDone c s u t d.toNat w := by
  unfold UniDone
  rw [hc, uniformOp, issueOp_issuing h ha, hv]
  simp only [Bool.false_and, Bool.false_eq_true, if_false, hf, modTeam_eq, setTeam_setTeam, getTeam_setTeam, if_true]
  set t1 := setK (latch s t a) d.toNat w with ht1
  have hk : ∀ n, kreg t1 n = if n = d.toNat ∧ d.toNat ≠ 0 then w else kreg t n := fun n => kreg_setK ..
  obtain ⟨s', t', e1, _, _, e4, _, e5⟩ := regsOnly_end h a t1 FlagSet.none no2 no2 (· = d.toNat) []
    (by rw [ht1]; unfold setK; split <;> simp [latch])
    (fun i r _ _ => by rw [ht1]; unfold setK; split <;> rfl)
    (fun i r _ _ => by rw [ht1]; unfold setK; split <;> rfl)
    (fun n hn => by rw [hk, if_neg]; exact fun h => hn h.1)
  refine ⟨s', t', ?_, ?_, e5⟩
  · rw [← e1]; simp [raiseVector]
  · intro h0
    have := hk d.toNat
    rw [if_pos ⟨rfl, h0⟩] at this
    simpa only [kreg, e4] using this

end Sys2Proof.Machine
end

