-- ==== Sys2Proof/Laws/Order.lean ====
section
/-! SUPPORT. The memory order (21 R382-R404) said once: what a read finds that knows the newest writes, and what the joins of what parties
have seen change. -/

namespace Sys2Proof.Machine

/-! ## What has been seen -/

@[simp] theorem mem_joinSeen (a b : List Nat) (x : Nat) : x ∈ joinSeen a b ↔ x ∈ a ∨ x ∈ b := by
  simp only [joinSeen, List.mem_append, List.mem_filter, List.mem_eraseDups, Bool.not_eq_true', List.contains_eq_mem, decide_eq_false_iff_not]
  tauto

@[simp] theorem mem_addRels (a b : List Rel) (r : Rel) : r ∈ addRels a b ↔ r ∈ a ∨ r ∈ b := by
  simp only [addRels, List.mem_append, List.mem_filter, List.mem_eraseDups, Bool.not_eq_true', List.contains_eq_mem, decide_eq_false_iff_not]
  tauto

@[simp] theorem joinView_seen (a b : View) : (joinView a b).seen = joinSeen a.seen b.seen := rfl
@[simp] theorem joinView_clock (a b : View) : (joinView a b).clock = max a.clock b.clock := rfl

/-- What releases give holds what each of them has seen. -/
theorem relsView_holds {l : List Rel} {r : Rel} (h : r ∈ l) :
    (∀ x ∈ r.view.seen, x ∈ (relsView l).seen) ∧ r.view.clock ≤ (relsView l).clock := by
  have key : ∀ (l : List Rel) (v : View),
      ((∀ x ∈ v.seen, x ∈ (l.foldl (fun v r => joinView v r.view) v).seen) ∧
        v.clock ≤ (l.foldl (fun v r => joinView v r.view) v).clock) ∧
      ∀ r ∈ l, (∀ x ∈ r.view.seen, x ∈ (l.foldl (fun v r => joinView v r.view) v).seen) ∧
        r.view.clock ≤ (l.foldl (fun v r => joinView v r.view) v).clock := by
    intro l
    induction l with
    | nil => intro v; exact ⟨⟨fun _ h => h, le_refl _⟩, fun r h => absurd h (List.not_mem_nil)⟩
    | cons q l ih =>
      intro v
      obtain ⟨⟨h1, h2⟩, h3⟩ := ih (joinView v q.view)
      refine ⟨⟨fun x hx => h1 x (by simp [hx]), le_trans (by simp) h2⟩, fun r hr => ?_⟩
      rcases List.mem_cons.1 hr with rfl | hr
      · exact ⟨fun x hx => h1 x (by simp [hx]), le_trans (by simp) h2⟩
      · exact h3 r hr
  exact (key l ⟨[], 0⟩).2 r h

/-! ## Reads (R394, R396) -/

/-- A list of places, each with one value, before another list. -/
theorem find?_map_append {α : Type} (l : List Nat) (v : α) (r : List (Nat × α)) (i : Nat) :
    find? (l.map (fun x => (x, v)) ++ r) i = if i ∈ l then some v else find? r i := by
  induction l with
  | nil => simp
  | cons x l ih =>
    simp only [List.map_cons, List.cons_append, find?, ih, List.mem_cons]
    by_cases h : i = x <;> simp [h]

/-- A read that knows the newest write of each place takes it. -/
theorem takeWrites_newest (knows take : Nat → Bool) (ws : List Write) : ∀ (todo : List Nat),
    (∀ i ∈ todo, ∀ w, ws.find? (fun w => writesAt w i) = some w → knows (seenCode w.n i) = true) → ∀ i,
    find? (takeWrites knows take ws todo) i = if i ∈ todo then ws.find? (fun w => writesAt w i) else none := by
  induction ws with
  | nil => intro todo _ i; simp [takeWrites, find?]
  | cons w ws ih =>
    intro todo h i
    have hk : ∀ j ∈ todo, writesAt w j = true → knows (seenCode w.n j) = true := fun j hj hw => h j hj w (by simp [hw])
    simp only [takeWrites]
    by_cases h1 : (!(todo.filter (writesAt w)).isEmpty && (take w.n || (todo.filter (writesAt w)).any fun i => knows (seenCode w.n i))) = true
    · rw [if_pos h1, find?_map_append, ih]
      · by_cases hi : i ∈ todo <;> cases hw : writesAt w i <;> simp [hi, hw]
      · intro j hj x hx
        simp only [List.mem_filter, List.contains_eq_mem, Bool.not_eq_true', decide_eq_false_iff_not] at hj
        have hw : writesAt w j = false := by simpa [hj.1] using hj.2
        exact h j hj.1 x (by simpa [hw] using hx)
    · have hn : ∀ j ∈ todo, writesAt w j = false := by
        intro j hj
        by_contra hw
        rw [Bool.not_eq_false] at hw
        refine h1 ?_
        have hm : j ∈ todo.filter (writesAt w) := List.mem_filter.2 ⟨hj, hw⟩
        rw [Bool.and_eq_true, Bool.or_eq_true, List.any_eq_true, Bool.not_eq_true']
        exact ⟨List.isEmpty_eq_false_iff.2 (List.ne_nil_of_mem hm), .inr ⟨j, hm, hk j hj hw⟩⟩
      rw [if_neg h1, ih]
      · by_cases hi : i ∈ todo
        · simp [hi, hn i hi]
        · simp [hi]
      · intro j hj x hx
        exact h j hj x (by simpa [hn j hj] using hx)

/-- A place of a granule as a reader finds it that knows its newest write. -/
theorem readGrain_newest (g : Grain) (knows take : Nat → Bool) (lo n : Nat) (mem : Nat → Byte)
    (h : ∀ i, lo ≤ i → i < lo + n →
      match g.writes.find? (fun w => writesAt w i) with
      | some w => knows (seenCode w.n i) = true ∧ mem i = writeByte w i
      | none => mem i = nth 0#8 g.base i) :
    (readGrain g knows take lo n).bytes = (rangeFrom lo n).map mem := by
  simp only [readGrain]
  refine List.map_congr_left fun i hi => ?_
  have hr : ∀ j, j ∈ rangeFrom lo n → lo ≤ j ∧ j < lo + n := by
    intro j hj
    simp only [rangeFrom, List.mem_map, List.mem_range] at hj
    omega
  rw [takeWrites_newest]
  · have hh := h i (hr i hi).1 (hr i hi).2
    simp only [hi, if_true]
    cases hw : g.writes.find? (fun w => writesAt w i) with
    | none => simp only [hw] at hh; exact hh.symm
    | some w => simp only [hw] at hh; exact hh.2.symm
  · intro j hj w hw
    have hh := h j (hr j hj).1 (hr j hj).2
    simp only [hw] at hh
    exact hh.1

theorem rangeFrom_add (a p q : Nat) : rangeFrom a (p + q) = rangeFrom a p ++ rangeFrom (a + p) q := by
  simp only [rangeFrom, List.range_add, List.map_append, List.map_map]
  congr 1
  exact List.map_congr_left fun i _ => by simp only [Function.comp]; omega

theorem mem_rangeFrom (a n x : Nat) : x ∈ rangeFrom a n ↔ a ≤ x ∧ x < a + n := by
  simp only [rangeFrom, List.mem_map, List.mem_range]
  exact ⟨fun ⟨i, hi, he⟩ => by omega, fun h => ⟨x - a, by omega, by omega⟩⟩

/-- The granules of some bytes give each of their addresses once, ascending. -/
theorem grainsOf_cover (a n : Nat) :
    ((grainsOf a n).flatMap fun e => rangeFrom (16 * e.1 + e.2.1) e.2.2) = rangeFrom a n := by
  have key : ∀ k, k ≤ (a + n + 15) / 16 - a / 16 →
      ((rangeFrom (a / 16) k).flatMap fun g =>
        rangeFrom (16 * g + (max a (16 * g) - 16 * g)) (min (a + n) (16 * g + 16) - max a (16 * g))) =
      rangeFrom a (min (a + n) (16 * (a / 16 + k)) - a) := by
    intro k
    induction k with
    | zero => intro _; simp [rangeFrom]; omega
    | succ k ih =>
      intro hk
      rw [rangeFrom_add (a / 16) k 1, List.flatMap_append, ih (by omega)]
      have h1 : min (a + n) (16 * (a / 16 + (k + 1))) - a =
          (min (a + n) (16 * (a / 16 + k)) - a) +
            (min (a + n) (16 * (a / 16 + k) + 16) - max a (16 * (a / 16 + k))) := by omega
      rw [h1, rangeFrom_add a]
      congr 1
      simp only [rangeFrom, List.range_one, List.map_cons, List.map_nil, List.flatMap_cons, List.flatMap_nil, List.append_nil, Nat.add_zero]
      refine List.map_congr_left fun i hi => ?_
      rw [List.mem_range] at hi
      omega
  have h := key _ (le_refl _)
  rw [show min (a + n) (16 * (a / 16 + ((a + n + 15) / 16 - a / 16))) - a = n by omega] at h
  rw [← h, grainsOf, List.flatMap_map]

/-- A READ BY A PARTY THAT KNOWS THE NEWEST WRITE OF EACH BYTE finds what memory holds, whatever the free choices are (R396). -/
theorem readBytes_synced {s : State} {seen : List Nat} {first a n : Nat} {mem : Nat → Byte} (h : Synced s seen first a n mem)
    {knows : Nat → Bool} (hk : ∀ x ∈ seen, knows x = true) (reader : Nat) {now : List Byte} (hn : now = (rangeFrom a n).map mem) :
    (readBytes s knows reader first a now).bytes = now := by
  subst hn
  have hl : ((rangeFrom a n).map mem).length = n := by simp [rangeFrom]
  have step : ∀ (l : List (Nat × Nat × Nat)) (f : Found),
      (∀ e ∈ l, a ≤ 16 * e.1 + e.2.1 ∧ 16 * e.1 + e.2.1 + e.2.2 ≤ a + n ∧ e.2.1 + e.2.2 ≤ 16) →
      (l.foldl (fun f e =>
        match find? s.hist (first + e.1) with
        | none => { f with bytes := f.bytes ++ (((rangeFrom a n).map mem).drop (16 * e.1 + e.2.1 - a)).take e.2.2 }
        | some g =>
          let r := readGrain g knows (fun n => Config.freeSees s.free n reader) e.2.1 e.2.2
          ⟨f.bytes ++ r.bytes, f.seen ++ r.seen, addRels f.rels r.rels⟩) f).bytes =
      f.bytes ++ l.flatMap fun e => (rangeFrom (16 * e.1 + e.2.1) e.2.2).map mem := by
    intro l
    induction l with
    | nil => intro f _; simp
    | cons e l ih =>
      intro f he
      obtain ⟨h1, h2, h3⟩ := he e (List.mem_cons_self ..)
      have hl := fun e he' => he e (List.mem_cons_of_mem _ he')
      rw [List.foldl_cons, ih _ hl, List.flatMap_cons, ← List.append_assoc]
      congr 1
      cases hg : find? s.hist (first + e.1) with
      | none =>
        simp only
        congr 1
        rw [← List.map_drop, ← List.map_take]
        congr 1
        have h4 : n = (16 * e.1 + e.2.1 - a) + (e.2.2 + (n - (16 * e.1 + e.2.1 - a) - e.2.2)) := by omega
        rw [h4, rangeFrom_add, List.drop_left' (by simp [rangeFrom]), rangeFrom_add, List.take_left' (by simp [rangeFrom])]
        congr 1
        omega
      | some g =>
        simp only
        congr 1
        rw [readGrain_newest g knows _ e.2.1 e.2.2 fun i => mem (16 * e.1 + i)]
        · simp only [rangeFrom, List.map_map]
          exact List.map_congr_left fun i _ => by simp only [Function.comp]; congr 1; omega
        · intro i hi1 hi2
          have hd : (16 * e.1 + i) / 16 = e.1 := by omega
          have hm : (16 * e.1 + i) % 16 = i := by omega
          have hs := h (16 * e.1 + i) (by omega) (by omega) g (by rw [hd]; exact hg)
          simp only [newestAt, hd, hm, hg, Option.bind_some] at hs
          cases hw : g.writes.find? (fun w => writesAt w i) with
          | none => simp only [hw] at hs ⊢; exact hs
          | some w => simp only [hw] at hs ⊢; exact ⟨hk _ hs.1, hs.2⟩
  have e := step (grainsOf a n) ⟨[], [], []⟩ fun e he => by
    simp only [grainsOf, List.mem_map, mem_rangeFrom] at he
    obtain ⟨g, hg, rfl⟩ := he
    simp only
    omega
  rw [List.nil_append, ← List.map_flatMap, grainsOf_cover] at e
  rw [readBytes, hl]
  exact e

/-! ## What joins change -/

/-- A team that joins what others have seen has seen it, and its core's clock is no smaller (R389, R392); of the rest of the state nothing
changes. -/
theorem teamJoins_only (s : State) (u : Nat) (v : View) :
    teamJoins s u v = { s with teams := (teamJoins s u v).teams, cores := (teamJoins s u v).cores } := by
  simp only [teamJoins, raiseClock]
  split_ifs <;> rfl

theorem teamJoins_seen (s : State) (u : Nat) (v : View) (x : Nat) :
    x ∈ (getTeam (teamJoins s u v) u).seen ↔ x ∈ (getTeam s u).seen ∨ x ∈ v.seen := by
  have hr : ∀ (s : State) (n c : Nat), getTeam (raiseClock s n c) u = getTeam s u := by
    intro s n c
    simp only [raiseClock, modCore]
    split_ifs <;> simp
  simp only [teamJoins, hr]
  split_ifs with h
  · rw [List.all_eq_true] at h
    exact ⟨.inl, fun hx => hx.elim id fun hx => by simpa using h x hx⟩
  · simp

theorem raiseClock_clock (s : State) (n c : Nat) : (getCore (raiseClock s n c) n).clock = max (getCore s n).clock c := by
  simp only [raiseClock, modCore]
  split_ifs with h
  · simp only [getCore_setCore, if_true]; omega
  · omega

/-- An acquire changes teams and cores alone (R18, R170). -/
theorem acquire_only (s : State) (u : Nat) (sc : Scope) (l : List Rel) :
    acquire s u sc l = { s with teams := (acquire s u sc l).teams, cores := (acquire s u sc l).cores } := by
  simp only [acquire, teamAcquires]
  split_ifs
  · exact teamJoins_only ..
  · rw [teamJoins_only]; rfl

/-- What single lanes have seen becomes what the team has seen, and nothing else changes (R387). -/
theorem meldLanes_only (s : State) (u : Nat) : meldLanes s u = { s with teams := (meldLanes s u).teams } := by
  simp only [meldLanes]
  split_ifs <;> rfl

/-- A read changes what its team has seen, and nothing else (R394). -/
theorem laneReads_only (s : State) (u lane first a : Nat) (now : List Byte) :
    (laneReads s u lane first a now).1 = { s with teams := (laneReads s u lane first a now).1.teams } := by
  simp only [laneReads]
  split_ifs <;> rfl

/-- Entering bytes into the order co changes the record of writes, and no byte of memory (R386). -/
theorem enterBytes_only (s : State) (au : Author) (first a : Nat) (now : Nat → Byte) (bytes : List (Option Byte)) :
    (enterBytes s au first a now bytes).1 =
      { s with hist := (enterBytes s au first a now bytes).1.hist, nextWrite := (enterBytes s au first a now bytes).1.nextWrite } := by
  have key : ∀ (f : State × List Nat → Nat × Nat × Nat → State × List Nat),
      (∀ g e, (f g e).1 = { g.1 with hist := (f g e).1.hist, nextWrite := (f g e).1.nextWrite }) →
      ∀ (l : List (Nat × Nat × Nat)) (g : State × List Nat),
        (l.foldl f g).1 = { g.1 with hist := (l.foldl f g).1.hist, nextWrite := (l.foldl f g).1.nextWrite } := by
    intro f hf l
    induction l with
    | nil => intro g; rfl
    | cons e l ih =>
      intro g
      rw [List.foldl_cons, ih, hf g e]
  simp only [enterBytes]
  refine key _ (fun g e => ?_) _ (s, [])
  simp only
  split_ifs <;> rfl

end Sys2Proof.Machine
end

