-- ==== Sys2Proof/Laws/PerInstr.lean ====
section
/-! SUPPORT. The words of every instruction are one group (R47): at most four, hints of the group in front, and an instruction
word or a hint that stands alone at the end. -/

namespace Sys2Proof.Laws

/-- The shape of a group: at most four words, of which all but the last are IMM or MOD hints and the last is none. -/
def Grouped (ws : List W32) : Prop :=
  ws.length ≤ 4 ∧ (∀ w ∈ ws.dropLast, isGroupHint w = true) ∧ ∀ w ∈ ws.getLast?, isGroupHint w = false

theorem grouped_nil : Grouped [] := by simp [Grouped]

theorem grouped_one {w : W32} (h : isGroupHint w = false) : Grouped [w] := by simp [Grouped, h]

theorem groupHint_imm (p : BitVec 22) : isGroupHint (packH 1#3 p) = true := by
  simp [isGroupHint, isHint, hintKind]

theorem groupHint_mod (p : BitVec 22) : isGroupHint (packH 2#3 p) = true := by
  simp [isGroupHint, isHint, hintKind]

theorem hintsOnly_imm (h : ImmHints) : h.words.length ≤ 2 ∧ ∀ w ∈ h.words, isGroupHint w = true := by
  cases h <;> simp [ImmHints.words, groupHint_imm]

theorem hintsOnly_mod (p : BitVec 22) : (modWords p).length ≤ 1 ∧ ∀ w ∈ modWords p, isGroupHint w = true := by
  unfold modWords
  split <;> simp [groupHint_mod]

theorem grouped_hints {hs : List W32} {w : W32} (n : hs.length ≤ 3) (g : ∀ x ∈ hs, isGroupHint x = true)
    (h : isGroupHint w = false) : Grouped (hs ++ [w]) := by
  simp [Grouped, h]
  exact ⟨by omega, g⟩

theorem grouped_imm (x : ImmHints) {w : W32} (h : isGroupHint w = false) : Grouped (x.words ++ [w]) :=
  grouped_hints (by have := (hintsOnly_imm x).1; omega) (hintsOnly_imm x).2 h

theorem grouped_mod (p : BitVec 22) {w : W32} (h : isGroupHint w = false) : Grouped (modWords p ++ [w]) :=
  grouped_hints (by have := (hintsOnly_mod p).1; omega) (hintsOnly_mod p).2 h

theorem grouped_modImm (p : BitVec 22) (x : ImmHints) {w : W32} (h : isGroupHint w = false) :
    Grouped (modWords p ++ x.words ++ [w]) := by
  refine grouped_hints ?_ (fun y hy => ?_) h
  · have := (hintsOnly_mod p).1
    have := (hintsOnly_imm x).1
    simp only [List.length_append]
    omega
  · rcases List.mem_append.mp hy with hy | hy
    · exact (hintsOnly_mod p).2 y hy
    · exact (hintsOnly_imm x).2 y hy

/-- A word with another major opcode is no hint. -/
theorem not_groupHint {w : W32} {m : BitVec 7} (h : w.extractLsb' 25 7 = m) (hm : m ≠ 0x7F#7) : isGroupHint w = false := by
  simp [isGroupHint, isHint, h, hm]

/-- An M word has its major opcode on top. -/
@[simp] theorem packM_major (m : BitVec 7) (x : MArgs) (w p : BitVec 2) : (packM m x w p).extractLsb' 25 7 = m :=
  (extract_append_hi (m ++ x.t ++ x.a ++ x.b ++ w) p 25 7 (by decide)).trans <|
    (extract_append_hi (m ++ x.t ++ x.a ++ x.b) w 23 7 (by decide)).trans <|
    (extract_append_hi (m ++ x.t ++ x.a) x.b 21 7 (by decide)).trans <|
    (extract_append_hi (m ++ x.t) x.a 14 7 (by decide)).trans <|
    (extract_append_hi m x.t 7 7 (by decide)).trans <| extract_all m

/-- A B word has its major opcode on top. -/
@[simp] theorem packB_major (m : BitVec 7) (p : BitVec 3) (neg : Bool) (off : BitVec 21) :
    (packB m p neg off).extractLsb' 25 7 = m :=
  (extract_append_hi (m ++ p ++ BitVec.ofBool neg) off 25 7 (by decide)).trans <|
    (extract_append_hi (m ++ p) (BitVec.ofBool neg) 4 7 (by decide)).trans <|
    (extract_append_hi m p 3 7 (by decide)).trans <| extract_all m

/-- A hint that stands alone. -/
theorem not_groupHint_alone {k : BitVec 3} (p : BitVec 22) (h1 : k ≠ 1#3) (h2 : k ≠ 2#3) : isGroupHint (packH k p) = false := by
  simp [isGroupHint, isHint, hintKind, h1, h2]

end Sys2Proof.Laws

namespace Sys2Proof.Laws.GroupShape

/-- The words that an instruction is encoded in are one group. -/
def Statement (i : Instr) : Prop := Grouped (encode i)

theorem iadd : ∀ x0 x1 x2 x3 x4, Statement (.iadd x0 x1 x2 x3 x4) := fun _ _ _ _ _ => grouped_one (not_groupHint (packV3_major ..) (by decide))
theorem isub : ∀ x0 x1 x2 x3 x4, Statement (.isub x0 x1 x2 x3 x4) := fun _ _ _ _ _ => grouped_one (not_groupHint (packV3_major ..) (by decide))
theorem imul : ∀ x0 x1 x2 x3, Statement (.imul x0 x1 x2 x3) := fun _ _ _ _ => grouped_one (not_groupHint (packV3_major ..) (by decide))
theorem imad : ∀ x0 x1 x2 x3, Statement (.imad x0 x1 x2 x3) := fun _ _ _ _ => grouped_one (not_groupHint (packV3_major ..) (by decide))
theorem idiv : ∀ x0 x1 x2 x3 x4 x5, Statement (.idiv x0 x1 x2 x3 x4 x5) := fun _ _ _ _ _ _ => grouped_one (not_groupHint (packV3_major ..) (by decide))
theorem lop : ∀ x0 x1 x2 x3, Statement (.lop x0 x1 x2 x3) := fun _ _ _ _ => grouped_one (not_groupHint (packV3_major ..) (by decide))
theorem shf : ∀ x0 x1 x2 x3 x4, Statement (.shf x0 x1 x2 x3 x4) := fun _ _ _ _ _ => grouped_one (not_groupHint (packV3_major ..) (by decide))
theorem bits : ∀ x0 x1 x2 x3, Statement (.bits x0 x1 x2 x3) := fun _ _ _ _ => grouped_one (not_groupHint (packV3_major ..) (by decide))
theorem imnx : ∀ x0 x1 x2 x3 x4, Statement (.imnx x0 x1 x2 x3 x4) := fun _ _ _ _ _ => grouped_one (not_groupHint (packV3_major ..) (by decide))
theorem icmp : ∀ x0 x1 x2 x3 x4, Statement (.icmp x0 x1 x2 x3 x4) := fun _ _ _ _ _ => grouped_one (not_groupHint (packV3_major ..) (by decide))
theorem sel : ∀ x0 x1 x2 x3 x4, Statement (.sel x0 x1 x2 x3 x4) := fun _ _ _ _ _ => grouped_one (not_groupHint (packV3_major ..) (by decide))
theorem iaddi : ∀ x0 x1 x2 x3, Statement (.iaddi x0 x1 x2 x3) := fun _ _ _ _ => grouped_imm _ (not_groupHint (packVI_major ..) (by decide))
theorem ishi : ∀ x0 x1 x2 x3, Statement (.ishi x0 x1 x2 x3) := fun _ _ _ _ => grouped_one (not_groupHint (packVI_major ..) (by decide))
theorem icmpi : ∀ x0 x1 x2 x3 x4 x5, Statement (.icmpi x0 x1 x2 x3 x4 x5) := fun _ _ _ _ _ _ => grouped_imm _ (not_groupHint (packVI_major ..) (by decide))
theorem lopi : ∀ x0 x1 x2 x3 x4, Statement (.lopi x0 x1 x2 x3 x4) := fun _ _ _ _ _ => grouped_imm _ (not_groupHint (packVI_major ..) (by decide))
theorem iaddk : ∀ x0 x1 x2 x3, Statement (.iaddk x0 x1 x2 x3) := fun _ _ _ _ => grouped_one (not_groupHint (packVK_major ..) (by decide))
theorem ilea : ∀ x0 x1 x2 x3, Statement (.ilea x0 x1 x2 x3) := fun _ _ _ _ => grouped_one (not_groupHint (packVK_major ..) (by decide))
theorem movk : ∀ x0 x1 x2, Statement (.movk x0 x1 x2) := fun _ _ _ => grouped_one (not_groupHint (packVK_major ..) (by decide))
theorem kadd : ∀ x0 x1 x2, Statement (.kadd x0 x1 x2) := fun _ _ _ => grouped_one (not_groupHint (packK3_major ..) (by decide))
theorem ksub : ∀ x0 x1 x2, Statement (.ksub x0 x1 x2) := fun _ _ _ => grouped_one (not_groupHint (packK3_major ..) (by decide))
theorem kmul : ∀ x0 x1 x2, Statement (.kmul x0 x1 x2) := fun _ _ _ => grouped_one (not_groupHint (packK3_major ..) (by decide))
theorem kand : ∀ x0 x1 x2, Statement (.kand x0 x1 x2) := fun _ _ _ => grouped_one (not_groupHint (packK3_major ..) (by decide))
theorem kor : ∀ x0 x1 x2, Statement (.kor x0 x1 x2) := fun _ _ _ => grouped_one (not_groupHint (packK3_major ..) (by decide))
theorem kxor : ∀ x0 x1 x2, Statement (.kxor x0 x1 x2) := fun _ _ _ => grouped_one (not_groupHint (packK3_major ..) (by decide))
theorem kshl : ∀ x0 x1 x2, Statement (.kshl x0 x1 x2) := fun _ _ _ => grouped_one (not_groupHint (packK3_major ..) (by decide))
theorem kshr : ∀ x0 x1 x2, Statement (.kshr x0 x1 x2) := fun _ _ _ => grouped_one (not_groupHint (packK3_major ..) (by decide))
theorem ksra : ∀ x0 x1 x2, Statement (.ksra x0 x1 x2) := fun _ _ _ => grouped_one (not_groupHint (packK3_major ..) (by decide))
theorem kmin : ∀ x0 x1 x2, Statement (.kmin x0 x1 x2) := fun _ _ _ => grouped_one (not_groupHint (packK3_major ..) (by decide))
theorem kmax : ∀ x0 x1 x2, Statement (.kmax x0 x1 x2) := fun _ _ _ => grouped_one (not_groupHint (packK3_major ..) (by decide))
theorem kdiv : ∀ x0 x1 x2, Statement (.kdiv x0 x1 x2) := fun _ _ _ => grouped_one (not_groupHint (packK3_major ..) (by decide))
theorem kli : ∀ x0 x1 x2, Statement (.kli x0 x1 x2) := fun _ _ _ => grouped_imm _ (not_groupHint (packKI_major ..) (by decide))
theorem kaddi : ∀ x0 x1 x2, Statement (.kaddi x0 x1 x2) := fun _ _ _ => grouped_imm _ (not_groupHint (packKI_major ..) (by decide))
theorem klui : ∀ x0 x1, Statement (.klui x0 x1) := fun _ _ => grouped_one (not_groupHint (packKI_major ..) (by decide))
theorem movs : ∀ x0 x1 x2, Statement (.movs x0 x1 x2) := fun _ _ _ => grouped_one (not_groupHint (packKI_major ..) (by decide))
theorem fadd : ∀ x0 x1 x2 x3 x4 x5, Statement (.fadd x0 x1 x2 x3 x4 x5) := fun _ _ _ _ _ _ => grouped_mod _ (not_groupHint (packV3_major ..) (by decide))
theorem fsub : ∀ x0 x1 x2 x3 x4 x5, Statement (.fsub x0 x1 x2 x3 x4 x5) := fun _ _ _ _ _ _ => grouped_mod _ (not_groupHint (packV3_major ..) (by decide))
theorem fmul : ∀ x0 x1 x2 x3 x4 x5, Statement (.fmul x0 x1 x2 x3 x4 x5) := fun _ _ _ _ _ _ => grouped_mod _ (not_groupHint (packV3_major ..) (by decide))
theorem ffma : ∀ x0 x1 x2 x3 x4 x5, Statement (.ffma x0 x1 x2 x3 x4 x5) := fun _ _ _ _ _ _ => grouped_mod _ (not_groupHint (packV3_major ..) (by decide))
theorem fmnx : ∀ x0 x1 x2 x3 x4 x5, Statement (.fmnx x0 x1 x2 x3 x4 x5) := fun _ _ _ _ _ _ => grouped_one (not_groupHint (packV3_major ..) (by decide))
theorem fcmp : ∀ x0 x1 x2 x3, Statement (.fcmp x0 x1 x2 x3) := fun _ _ _ _ => grouped_one (not_groupHint (packV3_major ..) (by decide))
theorem fsf : ∀ x0 x1 x2, Statement (.fsf x0 x1 x2) := fun _ _ _ => grouped_one (not_groupHint (packV3_major ..) (by decide))
theorem cvt : ∀ x0 x1 x2 x3 x4, Statement (.cvt x0 x1 x2 x3 x4) := fun _ _ _ _ _ => grouped_one (not_groupHint (packV3_major ..) (by decide))
theorem pack : ∀ x0 x1 x2 x3, Statement (.pack x0 x1 x2 x3) := fun _ _ _ _ => grouped_one (not_groupHint (packV3_major ..) (by decide))
theorem dp4 : ∀ x0 x1 x2 x3, Statement (.dp4 x0 x1 x2 x3) := fun _ _ _ _ => grouped_one (not_groupHint (packV3_major ..) (by decide))
theorem fcls : ∀ x0 x1 x2, Statement (.fcls x0 x1 x2) := fun _ _ _ => grouped_one (not_groupHint (packV3_major ..) (by decide))
theorem shfl : ∀ x0 x1 x2 x3 x4, Statement (.shfl x0 x1 x2 x3 x4) := fun _ _ _ _ _ => grouped_one (not_groupHint (packV3_major ..) (by decide))
theorem vote : ∀ x0 x1 x2 x3 x4, Statement (.vote x0 x1 x2 x3 x4) := fun _ _ _ _ _ => grouped_one (not_groupHint (packV3_major ..) (by decide))
theorem rdx : ∀ x0 x1 x2 x3, Statement (.rdx x0 x1 x2 x3) := fun _ _ _ _ => grouped_one (not_groupHint (packV3_major ..) (by decide))
theorem scan : ∀ x0 x1 x2 x3 x4, Statement (.scan x0 x1 x2 x3 x4) := fun _ _ _ _ _ => grouped_one (not_groupHint (packV3_major ..) (by decide))
theorem lmov : ∀ x0 x1 x2 x3, Statement (.lmov x0 x1 x2 x3) := fun _ _ _ _ => grouped_one (not_groupHint (packV3_major ..) (by decide))
theorem ld : ∀ x0 x1 x2 x3, Statement (.ld x0 x1 x2 x3) := fun _ _ _ _ => grouped_modImm _ _ (not_groupHint (packM_major ..) (by decide))
theorem st : ∀ x0 x1 x2, Statement (.st x0 x1 x2) := fun _ _ _ => grouped_imm _ (not_groupHint (packM_major ..) (by decide))
theorem lds : ∀ x0 x1 x2, Statement (.lds x0 x1 x2) := fun _ _ _ => grouped_modImm _ _ (not_groupHint (packM_major ..) (by decide))
theorem sts : ∀ x0 x1, Statement (.sts x0 x1) := fun _ _ => grouped_imm _ (not_groupHint (packM_major ..) (by decide))
theorem ldt : ∀ x0 x1, Statement (.ldt x0 x1) := fun _ _ => grouped_imm _ (not_groupHint (packM_major ..) (by decide))
theorem atom : ∀ x0 x1 x2 x3, Statement (.atom x0 x1 x2 x3) := fun _ _ _ _ => grouped_modImm _ _ (not_groupHint (packM_major ..) (by decide))
theorem red : ∀ x0 x1 x2 x3, Statement (.red x0 x1 x2 x3) := fun _ _ _ _ => grouped_modImm _ _ (not_groupHint (packM_major ..) (by decide))
theorem kld : ∀ x0 x1 x2 x3 x4 x5, Statement (.kld x0 x1 x2 x3 x4 x5) := fun _ _ _ _ _ _ => grouped_imm _ (not_groupHint (packK3_major ..) (by decide))
theorem kst : ∀ x0 x1 x2 x3 x4, Statement (.kst x0 x1 x2 x3 x4) := fun _ _ _ _ _ => grouped_imm _ (not_groupHint (packK3_major ..) (by decide))
theorem fence : ∀ x0 x1, Statement (.fence x0 x1) := fun _ _ => grouped_one (not_groupHint (packK3_major ..) (by decide))
theorem cacheZero : ∀ x0 x1 x2, Statement (.cacheZero x0 x1 x2) := fun _ _ _ => grouped_imm _ (not_groupHint (packM_major ..) (by decide))
theorem cacheInv : ∀ x0 x1 x2, Statement (.cacheInv x0 x1 x2) := fun _ _ _ => grouped_imm _ (not_groupHint (packM_major ..) (by decide))
theorem cacheEvict : ∀ x0 x1 x2, Statement (.cacheEvict x0 x1 x2) := fun _ _ _ => grouped_imm _ (not_groupHint (packM_major ..) (by decide))
theorem cacheFetch : ∀ x0 x1 x2, Statement (.cacheFetch x0 x1 x2) := fun _ _ _ => grouped_imm _ (not_groupHint (packM_major ..) (by decide))
theorem ldb : ∀ x0 x1 x2, Statement (.ldb x0 x1 x2) := fun _ _ _ => grouped_imm _ (not_groupHint (packM_major ..) (by decide))
theorem bra : ∀ x0 x1 x2, Statement (.bra x0 x1 x2) := fun _ _ _ => grouped_one (not_groupHint (packB_major ..) (by decide))
theorem brk : ∀ x0 x1 x2, Statement (.brk x0 x1 x2) := fun _ _ _ => grouped_one (not_groupHint (packKB_major ..) (by decide))
theorem jmpi : ∀ x0 x1, Statement (.jmpi x0 x1) := fun _ _ => grouped_one (not_groupHint (packVK_major ..) (by decide))
theorem land : Statement .land := grouped_one (by decide)
theorem call : ∀ x0, Statement (.call x0) := fun _ => grouped_one (not_groupHint (packB_major ..) (by decide))
theorem ret : ∀ x0, Statement (.ret x0) := fun _ => grouped_one (not_groupHint (packKI_major ..) (by decide))
theorem loop : ∀ x0 x1 x2, Statement (.loop x0 x1 x2) := fun _ _ _ => grouped_one (not_groupHint (packKB_major ..) (by decide))
theorem regionCommit : Statement .regionCommit := grouped_one (by decide)
theorem setx : ∀ x0 x1, Statement (.setx x0 x1) := fun _ _ => grouped_one (not_groupHint (packK3_major ..) (by decide))
theorem maskSet : ∀ x0, Statement (.maskSet x0) := fun _ => grouped_one (not_groupHint (packK3_major ..) (by decide))
theorem maskGet : ∀ x0, Statement (.maskGet x0) := fun _ => grouped_one (not_groupHint (packK3_major ..) (by decide))
theorem maskPred : ∀ x0 x1, Statement (.maskPred x0 x1) := fun _ _ => grouped_one (not_groupHint (packK3_major ..) (by decide))
theorem exit : Statement .exit := grouped_one (by decide)
theorem yield : Statement .yield := grouped_one (by decide)
theorem yieldResume : ∀ x0, Statement (.yieldResume x0) := fun _ => grouped_nil
theorem trap : ∀ x0, Statement (.trap x0) := fun _ => grouped_one (not_groupHint (packKI_major ..) (by decide))
theorem bkpt : ∀ x0, Statement (.bkpt x0) := fun _ => grouped_one (not_groupHint (packKI_major ..) (by decide))
theorem nop : Statement .nop := grouped_one (by decide)
theorem lockInit : ∀ x0 x1, Statement (.lockInit x0 x1) := fun _ _ => grouped_one (not_groupHint (packK3_major ..) (by decide))
theorem lockArrive : ∀ x0 x1, Statement (.lockArrive x0 x1) := fun _ _ => grouped_one (not_groupHint (packK3_major ..) (by decide))
theorem lockExpect : ∀ x0 x1, Statement (.lockExpect x0 x1) := fun _ _ => grouped_one (not_groupHint (packK3_major ..) (by decide))
theorem lockWait : ∀ x0 x1 x2, Statement (.lockWait x0 x1 x2) := fun _ _ _ => grouped_one (not_groupHint (packK3_major ..) (by decide))
theorem lockTry : ∀ x0 x1 x2, Statement (.lockTry x0 x1 x2) := fun _ _ _ => grouped_one (not_groupHint (packK3_major ..) (by decide))
theorem lockInval : ∀ x0 x1, Statement (.lockInval x0 x1) := fun _ _ => grouped_one (not_groupHint (packK3_major ..) (by decide))
theorem lockFill : ∀ x0 x1, Statement (.lockFill x0 x1) := fun _ _ => grouped_one (not_groupHint (packK3_major ..) (by decide))
theorem lockDrain : ∀ x0 x1, Statement (.lockDrain x0 x1) := fun _ _ => grouped_one (not_groupHint (packK3_major ..) (by decide))
theorem copy : ∀ x0 x1 x2 x3, Statement (.copy x0 x1 x2 x3) := fun _ _ _ _ => grouped_one (not_groupHint (packK3_major ..) (by decide))
theorem copyUnitWrite : ∀ x0 x1, Statement (.copyUnitWrite x0 x1) := fun _ _ => grouped_nil
theorem copyRetry : ∀ x0 x1, Statement (.copyRetry x0 x1) := fun _ _ => grouped_nil
theorem mma : ∀ x0 x1 x2 x3 x4, Statement (.mma x0 x1 x2 x3 x4) := fun _ _ _ _ _ => grouped_one (not_groupHint (packK3_major ..) (by decide))
theorem mfenceOpr : Statement .mfenceOpr := grouped_one (by decide)
theorem mfenceBatch : ∀ x0, Statement (.mfenceBatch x0) := fun _ => grouped_one (not_groupHint (packK3_major ..) (by decide))
theorem mwait : ∀ x0, Statement (.mwait x0) := fun _ => grouped_one (not_groupHint (packK3_major ..) (by decide))
theorem macs : ∀ x0 x1, Statement (.macs x0 x1) := fun _ _ => grouped_one (not_groupHint (packK3_major ..) (by decide))
theorem accmvT2s : ∀ x0, Statement (.accmvT2s x0) := fun _ => grouped_one (not_groupHint (packK3_major ..) (by decide))
theorem accmvS2t : ∀ x0, Statement (.accmvS2t x0) := fun _ => grouped_one (not_groupHint (packK3_major ..) (by decide))
theorem accmvT2t : ∀ x0, Statement (.accmvT2t x0) := fun _ => grouped_one (not_groupHint (packK3_major ..) (by decide))
theorem accmvT2g : ∀ x0, Statement (.accmvT2g x0) := fun _ => grouped_one (not_groupHint (packK3_major ..) (by decide))
theorem accmvG2t : ∀ x0, Statement (.accmvG2t x0) := fun _ => grouped_one (not_groupHint (packK3_major ..) (by decide))
theorem accmvZero : ∀ x0, Statement (.accmvZero x0) := fun _ => grouped_one (not_groupHint (packK3_major ..) (by decide))
theorem attn : ∀ x0 x1, Statement (.attn x0 x1) := fun _ _ => grouped_one (not_groupHint (packK3_major ..) (by decide))
theorem attnFin : ∀ x0, Statement (.attnFin x0) := fun _ => grouped_one (not_groupHint (packK3_major ..) (by decide))
theorem matrixOpRetire : ∀ x0 x1, Statement (.matrixOpRetire x0 x1) := fun _ _ => grouped_nil
theorem seqReserve : ∀ x0 x1, Statement (.seqReserve x0 x1) := fun _ _ => grouped_one (not_groupHint (packK3_major ..) (by decide))
theorem seqAddr : ∀ x0 x1, Statement (.seqAddr x0 x1) := fun _ _ => grouped_one (not_groupHint (packK3_major ..) (by decide))
theorem seqCommit : ∀ x0 x1, Statement (.seqCommit x0 x1) := fun _ _ => grouped_one (not_groupHint (packK3_major ..) (by decide))
theorem seqVoid : ∀ x0 x1, Statement (.seqVoid x0 x1) := fun _ _ => grouped_one (not_groupHint (packK3_major ..) (by decide))
theorem seqWatch : ∀ x0 x1, Statement (.seqWatch x0 x1) := fun _ _ => grouped_one (not_groupHint (packK3_major ..) (by decide))
theorem seqWait : ∀ x0 x1, Statement (.seqWait x0 x1) := fun _ _ => grouped_one (not_groupHint (packK3_major ..) (by decide))
theorem seqFork : ∀ x0 x1, Statement (.seqFork x0 x1) := fun _ _ => grouped_one (not_groupHint (packK3_major ..) (by decide))
theorem seqLen : ∀ x0 x1, Statement (.seqLen x0 x1) := fun _ _ => grouped_one (not_groupHint (packK3_major ..) (by decide))
theorem ptreeLookup : ∀ x0 x1, Statement (.ptreeLookup x0 x1) := fun _ _ => grouped_one (not_groupHint (packK3_major ..) (by decide))
theorem ptreeInsert : ∀ x0 x1, Statement (.ptreeInsert x0 x1) := fun _ _ => grouped_one (not_groupHint (packK3_major ..) (by decide))
theorem ptreeUnref : ∀ x0 x1, Statement (.ptreeUnref x0 x1) := fun _ _ => grouped_one (not_groupHint (packK3_major ..) (by decide))
theorem kvtPage : ∀ x0 x1, Statement (.kvtPage x0 x1) := fun _ _ => grouped_one (not_groupHint (packK3_major ..) (by decide))
theorem kvtRope : ∀ x0 x1, Statement (.kvtRope x0 x1) := fun _ _ => grouped_one (not_groupHint (packK3_major ..) (by decide))
theorem kvtBoth : ∀ x0 x1, Statement (.kvtBoth x0 x1) := fun _ _ => grouped_one (not_groupHint (packK3_major ..) (by decide))
theorem fork : ∀ x0 x1 x2, Statement (.fork x0 x1 x2) := fun _ _ _ => grouped_one (not_groupHint (packK3_major ..) (by decide))
theorem join : ∀ x0, Statement (.join x0) := fun _ => grouped_one (not_groupHint (packK3_major ..) (by decide))
theorem launch : ∀ x0 x1, Statement (.launch x0 x1) := fun _ _ => grouped_one (not_groupHint (packK3_major ..) (by decide))
theorem bpassInfo : ∀ x0, Statement (.bpassInfo x0) := fun _ => grouped_one (not_groupHint (packK3_major ..) (by decide))
theorem bpassUndec : ∀ x0, Statement (.bpassUndec x0) := fun _ => grouped_one (not_groupHint (packK3_major ..) (by decide))
theorem freebCtx : ∀ x0, Statement (.freebCtx x0) := fun _ => grouped_one (not_groupHint (packK3_major ..) (by decide))
theorem freebSlice : ∀ x0, Statement (.freebSlice x0) := fun _ => grouped_one (not_groupHint (packK3_major ..) (by decide))
theorem traceOn : ∀ x0, Statement (.traceOn x0) := fun _ => grouped_one (not_groupHint (packK3_major ..) (by decide))
theorem traceOff : ∀ x0, Statement (.traceOff x0) := fun _ => grouped_one (not_groupHint (packK3_major ..) (by decide))
theorem traceBind : ∀ x0 x1, Statement (.traceBind x0 x1) := fun _ _ => grouped_one (not_groupHint (packK3_major ..) (by decide))
theorem traceFlush : ∀ x0, Statement (.traceFlush x0) := fun _ => grouped_one (not_groupHint (packK3_major ..) (by decide))
theorem traceSyncDue : ∀ x0, Statement (.traceSyncDue x0) := fun _ => grouped_nil
theorem hintStall : ∀ x0, Statement (.hintStall x0) := fun _ => grouped_one (not_groupHint_alone _ (by decide) (by decide))
theorem hintMark : ∀ x0, Statement (.hintMark x0) := fun _ => grouped_one (not_groupHint_alone _ (by decide) (by decide))
theorem illegalWord : ∀ x0, Statement (.illegalWord x0) := fun _ => grouped_nil
theorem loadReturn : ∀ x0, Statement (.loadReturn x0) := fun _ => grouped_nil
theorem variableResultWriteback : ∀ x0, Statement (.variableResultWriteback x0) := fun _ => grouped_nil
theorem fenceComplete : ∀ x0, Statement (.fenceComplete x0) := fun _ => grouped_nil
theorem scRmwPerform : ∀ x0, Statement (.scRmwPerform x0) := fun _ => grouped_nil
theorem freeOldRun : ∀ x0, Statement (.freeOldRun x0) := fun _ => grouped_nil
theorem walkBatchStart : ∀ x0, Statement (.walkBatchStart x0) := fun _ => grouped_nil
theorem pageWalkDone : ∀ x0 x1, Statement (.pageWalkDone x0 x1) := fun _ _ => grouped_nil
theorem gatherExpand : ∀ x0, Statement (.gatherExpand x0) := fun _ => grouped_nil
theorem arbiterSelect : Statement .arbiterSelect := grouped_nil
theorem queueReadRetry : ∀ x0 x1, Statement (.queueReadRetry x0 x1) := fun _ _ => grouped_nil
theorem dispatchWriteApply : ∀ x0 x1, Statement (.dispatchWriteApply x0 x1) := fun _ _ => grouped_nil
theorem teamPlace : ∀ x0 x1, Statement (.teamPlace x0 x1) := fun _ _ => grouped_nil
theorem preempt : ∀ x0, Statement (.preempt x0) := fun _ => grouped_nil
theorem evict : ∀ x0, Statement (.evict x0) := fun _ => grouped_nil
theorem taskSteal : ∀ x0, Statement (.taskSteal x0) := fun _ => grouped_nil
theorem teamEnd : ∀ x0, Statement (.teamEnd x0) := fun _ => grouped_nil
theorem fillRetry : ∀ x0, Statement (.fillRetry x0) := fun _ => grouped_nil
theorem handoffAppend : ∀ x0, Statement (.handoffAppend x0) := fun _ => grouped_nil
theorem appendRetry : ∀ x0, Statement (.appendRetry x0) := fun _ => grouped_nil
theorem create : ∀ x0, Statement (.create x0) := fun _ => grouped_nil
theorem destroy : ∀ x0, Statement (.destroy x0) := fun _ => grouped_nil
theorem deflate : ∀ x0, Statement (.deflate x0) := fun _ => grouped_nil
theorem inflate : ∀ x0, Statement (.inflate x0) := fun _ => grouped_nil
theorem resolve : ∀ x0, Statement (.resolve x0) := fun _ => grouped_nil
theorem save : ∀ x0, Statement (.save x0) := fun _ => grouped_nil
theorem saveComplete : ∀ x0, Statement (.saveComplete x0) := fun _ => grouped_nil
theorem restore : ∀ x0, Statement (.restore x0) := fun _ => grouped_nil
theorem power : ∀ x0, Statement (.power x0) := fun _ => grouped_nil
theorem map : ∀ x0, Statement (.map x0) := fun _ => grouped_nil
theorem unmap : ∀ x0, Statement (.unmap x0) := fun _ => grouped_nil
theorem perm : ∀ x0, Statement (.perm x0) := fun _ => grouped_nil
theorem migrateIndev : ∀ x0, Statement (.migrateIndev x0) := fun _ => grouped_nil
theorem migrateTodev : ∀ x0, Statement (.migrateTodev x0) := fun _ => grouped_nil
theorem migrateTohost : ∀ x0, Statement (.migrateTohost x0) := fun _ => grouped_nil
theorem clearacc : ∀ x0, Statement (.clearacc x0) := fun _ => grouped_nil
theorem pageDrainDone : Statement .pageDrainDone := grouped_nil
theorem resume : ∀ x0, Statement (.resume x0) := fun _ => grouped_nil
theorem skip : ∀ x0, Statement (.skip x0) := fun _ => grouped_nil
theorem kill : ∀ x0, Statement (.kill x0) := fun _ => grouped_nil
theorem rdstate : ∀ x0, Statement (.rdstate x0) := fun _ => grouped_nil
theorem wrstate : ∀ x0, Statement (.wrstate x0) := fun _ => grouped_nil
theorem step : ∀ x0, Statement (.step x0) := fun _ => grouped_nil
theorem halt : ∀ x0, Statement (.halt x0) := fun _ => grouped_nil
theorem list : ∀ x0, Statement (.list x0) := fun _ => grouped_nil
theorem hostRead : ∀ x0 x1 x2, Statement (.hostRead x0 x1 x2) := fun _ _ _ => grouped_nil
theorem hostWrite : ∀ x0 x1 x2, Statement (.hostWrite x0 x1 x2) := fun _ _ _ => grouped_nil
theorem hostRmw : ∀ x0 x1 x2 x3 x4 x5, Statement (.hostRmw x0 x1 x2 x3 x4 x5) := fun _ _ _ _ _ _ => grouped_nil
theorem hostLoom : ∀ x0 x1 x2 x3, Statement (.hostLoom x0 x1 x2 x3) := fun _ _ _ _ => grouped_nil
theorem ptreeRemove : ∀ x0 x1 x2, Statement (.ptreeRemove x0 x1 x2) := fun _ _ _ => grouped_nil
theorem attest : ∀ x0 x1, Statement (.attest x0 x1) := fun _ _ => grouped_nil
theorem train : ∀ x0, Statement (.train x0) := fun _ => grouped_nil
theorem linkTrained : ∀ x0 x1, Statement (.linkTrained x0 x1) := fun _ _ => grouped_nil
theorem laneFailure : ∀ x0 x1, Statement (.laneFailure x0 x1) := fun _ _ => grouped_nil
theorem flitCrcError : ∀ x0 x1, Statement (.flitCrcError x0 x1) := fun _ _ => grouped_nil
theorem peerInboundAccess : ∀ x0 x1 x2, Statement (.peerInboundAccess x0 x1 x2) := fun _ _ _ => grouped_nil
theorem peerResponse : ∀ x0 x1, Statement (.peerResponse x0 x1) := fun _ _ => grouped_nil
theorem peerTimeout : ∀ x0, Statement (.peerTimeout x0) := fun _ => grouped_nil
theorem refresh : ∀ x0 x1 x2, Statement (.refresh x0 x1 x2) := fun _ _ _ => grouped_nil
theorem mitigationRefresh : ∀ x0 x1 x2 x3, Statement (.mitigationRefresh x0 x1 x2 x3) := fun _ _ _ _ => grouped_nil
theorem poundReissue : ∀ x0, Statement (.poundReissue x0) := fun _ => grouped_nil
theorem scrubRead : ∀ x0 x1 x2, Statement (.scrubRead x0 x1 x2) := fun _ _ _ => grouped_nil
theorem bucketLeak : ∀ x0, Statement (.bucketLeak x0) := fun _ => grouped_nil
theorem rowSpare : ∀ x0 x1 x2 x3 x4, Statement (.rowSpare x0 x1 x2 x3 x4) := fun _ _ _ _ _ => grouped_nil
theorem uncorrectableError : ∀ x0, Statement (.uncorrectableError x0) := fun _ => grouped_nil
theorem coreOffline : ∀ x0, Statement (.coreOffline x0) := fun _ => grouped_nil
theorem thermalTrip : ∀ x0, Statement (.thermalTrip x0) := fun _ => grouped_nil
theorem reset : ∀ x0 x1, Statement (.reset x0 x1) := fun _ _ => grouped_nil
theorem timeWrite : ∀ x0, Statement (.timeWrite x0) := fun _ => grouped_nil
theorem mgmtWrite : ∀ x0 x1, Statement (.mgmtWrite x0 x1) := fun _ _ => grouped_nil

end Sys2Proof.Laws.GroupShape
end

