-- ==== Sys2Proof/Tests/Slice0.lean ====
section
/-! SUPPORT. Tests: words written out from the spec, ill-formed terms, single steps on small states with results worked out by
hand, and states that meet the hypotheses of the statements. -/

open Sys2Proof Sys2Proof.Machine

namespace Sys2Proof.Tests

/- The theorems are checked one after another: each thread of a checker takes memory of its own. -/
set_option Elab.async false

/-! ## A team that issues -/

/-- A team of 32 lanes with sixteen vector registers on core 0: lane `i` has `i` in v1 and 0x7FFFFFFF in v2, and p1 in the lanes
below 4; k20 to k23 hold small numbers. -/
def teamOne : Team :=
  { Team.blank with
    uid := 1, kid := 1, id := 5, ctx := 1, placed := true, status := .ready, lanes := 32, allot := 16, logSize := 16384
    v := (List.range 32).flatMap fun i => [(128 * i + 1, BitVec.ofNat 32 i), (128 * i + 2, 0x7FFFFFFF#32)].filter (·.2 != 0#32)
    p := [(1, true), (9, true), (17, true), (25, true)]
    k := [(20, 7#64), (21, 0xFFFFFFFFFFFFFFFE#64), (22, 100#64), (23, 0x8000000000000000#64)]
    flow := Flow.start 0x1000, snap := Flow.start 0x1000 }

/-- A core that serves context 1: 64 KiB of registers, 64 KiB of scratchpad, one tile. -/
def coreOne : Core := { Core.reset with ctx := 1, word := 0x1041 }

/-- A device that runs context 1, with a team on core 0 whose group at 0x1000 is latched. -/
def devOf (t : Team) (c : Core) : State :=
  { State.reset with
    teams := [(1, t)], nextUid := 2, cores := [(0, c)], ctxs := [(1, { Ctx.reset with st := .active, z := 8, pool := 1000 })]
    issue := ⟨1, 0x1000, 0x1000, 0x1004, 0⟩
    mgmt := { Mgmt.reset with pstate := 0, bootok := true, ran := true, created := true, tsbase := 2 ^ 21, tssize := 2 ^ 21 } }

def devOne : State := devOf teamOne coreOne

theorem quiet_dev (t : Team) (c : Core) : Quiet (devOf t c) := by
  refine ⟨rfl, rfl, fun n => ?_, fun n => ?_⟩ <;> simp only [devOf, getCtx, tabGet] <;> split <;> rfl

/-- A team that nothing holds back issues. -/
theorem issuing_dev (t : Team) (c : Core) (h : t.status = .ready ∧ t.bounds = false ∧ t.trace.on = false ∧ t.stepOnce = false ∧
    t.yielded = [] ∧ t.flight = [] ∧ t.kLane = [] ∧ t.pend = [] ∧ t.core = 0 ∧ t.allot ≤ 128 ∧ t.part < 4)
    (hc : openOps c = []) (hf : c.vflags.length = 4) : Issuing (devOf t c) 1 t := by
  obtain ⟨h1, h2, h3, h4, h5, h6, hk, h7, h8, h9, h10⟩ := h
  have hcore : getCore (devOf t c) t.core = c := by rw [h8]; rfl
  refine ⟨rfl, rfl, h1, h2, h3, h4, ?_, h6, hk, h7, ?_, h9, ?_, quiet_dev t c⟩
  · simp [devOf, h5]
  · simp [heldRegs, hcore, hc]
  · rw [hcore, hf]; exact h10

theorem issuing_one : Issuing devOne 1 teamOne := issuing_dev _ _ (by decide) (by decide) (by decide)

/-- What a step leaves in a vector register, a uniform register, a predicate, and where the team goes on. -/
def outV (o : Host.Outcome State Fault Refusal) (lane r : Nat) : Option W32 :=
  match o with
  | .next s => some (vreg (getTeam s 1) lane r)
  | _ => none
def outK (o : Host.Outcome State Fault Refusal) (n : Nat) : Option W64 :=
  match o with
  | .next s => some (kreg (getTeam s 1) n)
  | _ => none
def outP (o : Host.Outcome State Fault Refusal) (lane p : Nat) : Option Bool :=
  match o with
  | .next s => some (preg (getTeam s 1) lane p)
  | _ => none
def outPc (o : Host.Outcome State Fault Refusal) : Option Nat :=
  match o with
  | .next s => some (getTeam s 1).flow.pc
  | _ => none

/-! ## Words written out from the encodings (R37-R47) -/

theorem test_decode_iadd : decodeTableWord 32 0x020C2050 = some (.iadd .i32 false 3#7 4#7 5#7) := by decide +kernel
theorem test_decode_iaddi : decodeTableWord 32 0x180C0B88 = some (.iaddi 3#7 1#7 0x388#11 .none) := by decide +kernel
theorem test_decode_iaddk : decodeTableWord 32 0x20082193 = some (.iaddk .i64 2#7 4#7 100#9) := by decide +kernel
theorem test_decode_kadd : decodeTableWord 32 0x30140A96 = some (.kadd 20#9 21#9 22#7) := by decide +kernel
theorem test_decode_kli : decodeTableWord 32 0x48051234 = some (.kli 5#9 0x1234#16 .none) := by decide +kernel
theorem test_decode_fadd : decodeTableWord 32 0x50100820 = some (.fadd .f32 .rne false 4#7 1#7 2#7) := by decide +kernel
theorem test_decode_shfl : decodeTableWord 32 0x700C0823 = some (.shfl .xor false 3#7 1#7 2#7) := by decide +kernel
theorem test_decode_ld : decodeTableWord 32 0x80141048 = some (.ld .b32 .l1 false ⟨5#7, 2#7, 4#7, .none⟩) := by decide +kernel
/-- A MOD hint with bit 9 in front of LD.b8 asks for sign extension (R45). -/
theorem test_decode_ld_sx : decodeTableWord 64 0x80141040FE800200 = some (.ld .b8 .l1 true ⟨5#7, 2#7, 4#7, .none⟩) := by
  decide +kernel
theorem test_decode_atom : decodeTableWord 32 0x8A0C1048 =
    some (.atom .b32 .dev ⟨.add, .signed, .rlx⟩ ⟨3#7, 2#7, 4#7, .none⟩) := by decide +kernel
theorem test_decode_fence : decodeTableWord 32 0x92000018 = some (.fence .sc .dev) := by decide +kernel
theorem test_decode_bra : decodeTableWord 32 0xA0A00002 = some (.bra 2#3 true 2#21) := by decide +kernel
theorem test_decode_brk : decodeTableWord 32 0xA203BFFE = some (.brk 3#9 .gt 0x1FFE#13) := by decide +kernel
theorem test_decode_mask : decodeTableWord 32 0xB2300000 = some (.maskSet 48#9) := by decide +kernel
theorem test_decode_lock : decodeTableWord 32 0xC0080106 = some (.lockFill 8#9 2#9) := by decide +kernel
theorem test_decode_copy : decodeTableWord 32 0xC2140101 = some (.copy 20#9 2#9 0#2 .stream) := by decide +kernel
theorem test_decode_mma : decodeTableWord 32 0xC4140022 = some (.mma 20#9 .bf16 false false true) := by decide +kernel
theorem test_decode_mwait : decodeTableWord 32 0xC8050000 = some (.mwait 5#9) := by decide +kernel
theorem test_decode_attn : decodeTableWord 32 0xCE140000 = some (.attn 20#9 false) := by decide +kernel
theorem test_decode_seq : decodeTableWord 32 0xD00A0200 = some (.seqReserve 10#9 4#9) := by decide +kernel
theorem test_decode_ptree : decodeTableWord 32 0xD2140401 = some (.ptreeInsert 20#9 8#9) := by decide +kernel
theorem test_decode_kvt : decodeTableWord 32 0xD4140401 = some (.kvtRope 20#9 8#9) := by decide +kernel
theorem test_decode_fork : decodeTableWord 32 0xD6140C02 = some (.fork 20#9 24#9 2#4) := by decide +kernel
theorem test_decode_launch : decodeTableWord 32 0xDA080600 = some (.launch 8#9 12#9) := by decide +kernel
theorem test_decode_bpass : decodeTableWord 32 0xDC050000 = some (.bpassInfo 5#9) := by decide +kernel
theorem test_decode_freeb : decodeTableWord 32 0xDE060001 = some (.freebSlice 6#9) := by decide +kernel
theorem test_decode_trace : decodeTableWord 32 0xE0000382 = some (.traceBind 0#9 7#9) := by decide +kernel
theorem test_decode_stall : decodeTableWord 32 0xFE010005 = some (.hintStall 0x10005#18) := by decide +kernel
theorem test_decode_reserved : decode [0x00000000#32] = some (.error .op, 1) := rfl
theorem test_decode_late_mod : decode [0xFE400000#32, 0xFE800100#32, 0x50100820#32] = some (.error .hint, 3) := rfl

/-! ## Terms that no encoding carries -/

theorem test_illFormed_uniform : (Instr.kadd 384#9 0#9 0#7).wellFormed = false := by decide
theorem test_illFormed_bits : (Instr.bits .popc 3#7 1#7 1#7).wellFormed = false := by decide
theorem test_illFormed_iaddk : (Instr.iaddk .i32 3#7 1#7 384#9).wellFormed = false := by decide
theorem test_illFormed_kli : (Instr.kli 384#9 0#16 .none).wellFormed = false := by decide
theorem test_illFormed_movs : (Instr.movs false 5#9 .lane).wellFormed = false := by decide
theorem test_illFormed_movs_vector : (Instr.movs true 128#9 .team).wellFormed = false := by decide
theorem test_illFormed_cvt : (Instr.cvt 0x12#7 .rne false 3#7 1#7).wellFormed = false := by decide
theorem test_illFormed_cvt_sat : (Instr.cvt 0x00#7 .rne true 3#7 1#7).wellFormed = false := by decide
theorem test_illFormed_vote : (Instr.vote .all false 8#7 1#3 false).wellFormed = false := by decide
theorem test_illFormed_ld : (Instr.ld .b32 .l1 true ⟨3#7, 0#7, 4#7, .none⟩).wellFormed = false := by decide
theorem test_illFormed_ldt : (Instr.ldt .b64 ⟨3#7, 0#7, 4#7, .none⟩).wellFormed = false := by decide
theorem test_illFormed_atom : (Instr.atom .b16 .dev ⟨.add, .signed, .rlx⟩ ⟨3#7, 0#7, 4#7, .none⟩).wellFormed = false := by decide
theorem test_illFormed_atom_scope : (Instr.atom .b32 .team ⟨.add, .signed, .rlx⟩ ⟨3#7, 0#7, 4#7, .none⟩).wellFormed = false := by
  decide
theorem test_illFormed_atom_float : (Instr.atom .b64 .dev ⟨.add, .float, .rlx⟩ ⟨3#7, 0#7, 4#7, .none⟩).wellFormed = false := by
  decide
theorem test_illFormed_red : (Instr.red .b32 .dev ⟨.exch, .signed, .rlx⟩ ⟨3#7, 0#7, 4#7, .none⟩).wellFormed = false := by decide
theorem test_illFormed_kld : (Instr.kld .b64 .l1 false 5#9 384#9 .none).wellFormed = false := by decide
theorem test_illFormed_ldb : (Instr.ldb .b8 .l1 ⟨3#7, 0#7, 4#7, .none⟩).wellFormed = false := by decide
theorem test_illFormed_brk : (Instr.brk 384#9 .z 0#13).wellFormed = false := by decide
theorem test_illFormed_jmpi : (Instr.jmpi 1#7 384#9).wellFormed = false := by decide
theorem test_illFormed_ret : (Instr.ret 384#9).wellFormed = false := by decide
theorem test_illFormed_loop : (Instr.loop 5#9 .l0 0#13).wellFormed = false ∧ (Instr.loop 5#9 .l0 257#13).wellFormed = false := by
  decide
theorem test_illFormed_setx : (Instr.setx 384#9 0#7).wellFormed = false := by decide
theorem test_illFormed_lock : (Instr.lockInit 5#9 64#9).wellFormed = false ∧ (Instr.lockWait 5#9 64#9 .dev).wellFormed = false := by
  decide
theorem test_illFormed_copy : (Instr.copy 5#9 64#9 0#2 .tensor).wellFormed = false := by decide
theorem test_illFormed_mma : (Instr.mma 5#9 .o4 true false false).wellFormed = false := by decide
theorem test_illFormed_matrix : (Instr.mwait 384#9).wellFormed = false := by decide
theorem test_illFormed_seq : (Instr.seqLen 5#9 384#9).wellFormed = false := by decide
theorem test_illFormed_fork : (Instr.fork 5#9 6#9 9#4).wellFormed = false := by decide
theorem test_illFormed_join : (Instr.join 64#9).wellFormed = false := by decide
theorem test_illFormed_freeb : (Instr.freebCtx 384#9).wellFormed = false := by decide
theorem test_illFormed_trace : (Instr.traceBind 0#9 384#9).wellFormed = false := by decide

/-! ## Single steps -/

theorem test_iadd_wraps : outV (exec (.iadd .i32 false 3#7 2#7 2#7) devOne) 31 3 = some 0xFFFFFFFE#32 := by decide +kernel
theorem test_iadd_clamps : outV (exec (.iadd .i32 true 3#7 2#7 2#7) devOne) 31 3 = some 0x7FFFFFFF#32 := by decide +kernel
theorem test_isub_order : outV (exec (.isub .i32 false 3#7 1#7 2#7) devOne) 4 3 = some 0x80000005#32 := by decide +kernel
/-- 0x7FFFFFFF squared is 0x3FFFFFFF00000001. -/
theorem test_imul_high : outV (exec (.imul .hiI32 3#7 2#7 2#7) devOne) 0 3 = some 0x3FFFFFFF#32 := by decide +kernel
theorem test_imul_wide_pair : outV (exec (.imul .wideN32 4#7 2#7 2#7) devOne) 0 5 = some 0x3FFFFFFF#32 := by decide +kernel
theorem test_imad_adds : outV (exec (.imad .lo 2#7 1#7 1#7) devOne) 3 2 = some 0x80000008#32 := by decide +kernel
/-- The truth table 0110 is XOR. -/
theorem test_lop_xor : outV (exec (.lop 6#4 3#7 1#7 2#7) devOne) 5 3 = some 0x7FFFFFFA#32 := by decide +kernel
theorem test_shf_amount_modulo : outV (exec (.shf .shl false 3#7 2#7 2#7) devOne) 0 3 = some 0x80000000#32 := by decide +kernel
theorem test_shf_clamped : outV (exec (.shf .shl true 3#7 2#7 2#7) devOne) 0 3 = some 0#32 := by decide +kernel
theorem test_ishi_sra : outV (exec (.ishi .sra 3#7 2#7 30#5) devOne) 0 3 = some 1#32 := by decide +kernel
theorem test_bits_clz : outV (exec (.bits .clz 3#7 2#7 0#7) devOne) 0 3 = some 1#32 := by decide +kernel
theorem test_imnx_min : outV (exec (.imnx false .i32 3#7 1#7 2#7) devOne) 9 3 = some 9#32 := by decide +kernel
theorem test_icmp_less : outP (exec (.icmp .lt false 2#3 1#7 2#7) devOne) 31 2 = some true := by decide +kernel
theorem test_sel_negated : outV (exec (.sel 1#3 true 3#7 1#7 2#7) devOne) 4 3 = some 4#32 := by decide +kernel
theorem test_iaddi_negative : outV (exec (.iaddi 3#7 1#7 0x7FF#11 .none) devOne) 0 3 = some 0xFFFFFFFF#32 := by decide +kernel
theorem test_icmpi : outP (exec (.icmpi .ge false 2#3 1#7 5#11 .none) devOne) 4 2 = some false := by decide +kernel
theorem test_lopi_andn : outV (exec (.lopi .andn 3#7 2#7 0xFF#9 .none) devOne) 0 3 = some 0x7FFFFF00#32 := by decide +kernel
theorem test_iaddk_low_half : outV (exec (.iaddk .i32 3#7 1#7 21#9) devOne) 3 3 = some 1#32 := by decide +kernel
theorem test_ilea_scaled : outV (exec (.ilea 3#2 4#7 1#7 22#9) devOne) 2 4 = some 116#32 := by decide +kernel
theorem test_movk_high : outV (exec (.movk .hi 3#7 23#9) devOne) 0 3 = some 0x80000000#32 := by decide +kernel
theorem test_kadd_wraps : outK (exec (.kadd 24#9 23#9 23#7) devOne) 24 = some 0#64 := by decide +kernel
theorem test_ksub_order : outK (exec (.ksub 24#9 20#9 22#7) devOne) 24 = some 0xFFFFFFFFFFFFFFA3#64 := by decide +kernel
theorem test_kmul : outK (exec (.kmul 24#9 20#9 22#7) devOne) 24 = some 700#64 := by decide +kernel
theorem test_kshr_logical : outK (exec (.kshr 24#9 23#9 20#7) devOne) 24 = some 0x100000000000000#64 := by decide +kernel
theorem test_ksra_sign : outK (exec (.ksra 24#9 23#9 20#7) devOne) 24 = some 0xFF00000000000000#64 := by decide +kernel
theorem test_kmin_signed : outK (exec (.kmin 24#9 20#9 21#7) devOne) 24 = some 0xFFFFFFFFFFFFFFFE#64 := by decide +kernel
theorem test_kli_k0 : outK (exec (.kli 0#9 5#16 .none) devOne) 0 = some 0#64 := by decide +kernel
theorem test_kaddi : outK (exec (.kaddi 20#9 0xFFFF#16 .none) devOne) 20 = some 6#64 := by decide +kernel
theorem test_klui : outK (exec (.klui 20#9 0x8000#16) devOne) 20 = some 0x8000000000000007#64 := by decide +kernel
theorem test_movs_team : outK (exec (.movs false 24#9 .team) devOne) 24 = some 5#64 := by decide +kernel
theorem test_movs_row : outV (exec (.movs true 3#9 .lane) devOne) 17 3 = some 17#32 := by decide +kernel
theorem test_shfl_down : outV (exec (.shfl .down false 3#7 1#7 1#7) devOne) 3 3 = some 6#32 := by decide +kernel
theorem test_vote_any : outP (exec (.vote .any false 2#7 1#3 false) devOne) 20 2 = some true := by decide +kernel
theorem test_vote_ballot : outV (exec (.vote .ballot false 3#7 1#3 true) devOne) 0 3 = some 0xFFFFFFF0#32 := by decide +kernel
/-- The sum of 0 to 31. -/
theorem test_rdx_sum : outV (exec (.rdx .iadd false 3#7 1#7) devOne) 9 3 = some 496#32 := by decide +kernel
theorem test_scan_exclusive : outV (exec (.scan .iadd false true 3#7 1#7) devOne) 4 3 = some 6#32 := by decide +kernel
theorem test_bra_diverges : outPc (exec (.bra 1#3 false 5#21) devOne) = some 0x1004 := by decide +kernel
theorem test_bra_backwards : outPc (exec (.bra 1#3 false 0x1FFFFF#21) devOne) = some 0xFFC := by decide +kernel
theorem test_call_return : outK (exec (.call 8#21) devOne) 1 = some 0x1004#64 := by decide +kernel
theorem test_call_target : outPc (exec (.call 8#21) devOne) = some 0x1020 := by decide +kernel
theorem test_loop_skips : outPc (exec (.loop 25#9 .l0 3#13) devOne) = some 0x1010 := by decide +kernel
theorem test_setx : (match exec (.setx 20#9 3#7) devOne with | .next s => (getTeam s 1).flow.x | _ => 0) = 10 := by decide +kernel
theorem test_mask_none : (match exec (.maskSet 64#9) devOne with | .next s => (getTeam s 1).flow.uni | _ => false) = true := by
  decide +kernel
theorem test_mask_get : outK (exec (.maskGet 64#9) devOne) 64 = some 0xFFFFFFFF#64 := by decide +kernel
theorem test_nop : outPc (exec .nop devOne) = some 0x1004 := by decide +kernel
theorem test_exit : (match exec .exit devOne with | .next s => (getTeam s 1).status | _ => .ready) = .ending := by decide +kernel
theorem test_trap : (match exec (.trap 9#16) devOne with
    | .next s => (getCore s 0).stop.map (·.cause)
    | _ => none) = some 0x4D := by decide +kernel
theorem test_ret_depth : (match exec (.ret 1#9) devOne with
    | .next s => (getCore s 0).stop.map (·.cause)
    | _ => none) = some 0x4A := by decide +kernel
theorem test_allotment : (match exec (.iadd .i32 false 16#7 1#7 1#7) devOne with
    | .next s => (getCore s 0).stop.map (·.cause)
    | _ => none) = some 0x44 := by decide +kernel
theorem test_freeb : outK (exec (.freebCtx 24#9) devOne) 24 = some 1000#64 := by decide +kernel

/-! ## States that meet the hypotheses of the statements -/

theorem quiet_of {s : State} {x : Ctx} (hd : s.evDue = false) (hn : s.evPend = []) (hc : s.ctxs = [(1, x)]) (hx : x.due = false)
    (hp : x.pend = []) : Quiet s := by
  refine ⟨hd, hn, fun n => ?_, fun n => ?_⟩ <;> simp only [getCtx, hc, tabGet] <;> split <;> first | assumption | rfl

/-- The only team of a device issues, in a bounds pass or not, when nothing holds it back. -/
theorem issuing_of {s : State} {t : Team} {b : Bool} (ht : s.teams = [(1, t)]) (hi : s.issue.uid = 1) (hq : Quiet s)
    (h : t.status = .ready ∧ t.bounds = b ∧ t.trace.on = false ∧ t.stepOnce = false ∧ t.yielded = [] ∧ t.flight = [] ∧
      t.kLane = [] ∧ t.pend = [] ∧ t.allot ≤ 128 ∧ heldRegs s 1 t.core = [] ∧ t.part < (getCore s t.core).vflags.length) :
    IssuingIn b s 1 t := by
  obtain ⟨h1, h2, h3, h4, h5, h6, hk, h7, h8, h9, h10⟩ := h
  refine ⟨hi, ?_, h1, h2, h3, h4, ?_, h6, hk, h7, h9, h8, h10, hq⟩
  · rw [ht]; rfl
  · simp [ht, h5]

/-- The tables of context 1: its first 2 MiB lie in device frames from 0 on, the next in host memory from 0 on. -/
def pageCells : List Host.Cell :=
  [(0, 1#8), (2, 1#8), (65536, 1#8), (65538, 2#8), (131072, 0x1F#8), (131088, 0x9F#8)]
def withPages (s : State) : State :=
  let w : Walker := ⟨[⟨1, 0, 2 ^ 21, 0x1F⟩, ⟨1, 2 ^ 21, 2 ^ 21, 0x9F⟩], [], []⟩
  { s with walkers := [w, w], tspace := pageCells }

/-- A team whose v4 holds four times the lane, and k24 to k29 six numbers. -/
def teamK (l : List W64) : Team :=
  { teamOne with
    v := teamOne.v.flatMap fun e => if e.1 % 128 = 2 ∧ 0 < e.1 / 128 then [e, (e.1 + 2, BitVec.ofNat 32 (4 * (e.1 / 128)))] else [e]
    k := teamOne.k ++ (l.zipIdx 24).map fun e => (e.2, e.1) }
def devK (l : List W64) : State := withPages (devOf (teamK l) coreOne)

theorem issuing_k (l : List W64) : Issuing (devK l) 1 (teamK l) :=
  issuing_of rfl rfl (quiet_of rfl rfl rfl rfl rfl) ⟨rfl, rfl, rfl, rfl, rfl, rfl, rfl, rfl, by show 16 ≤ 128; decide, rfl, by show 0 < 4; decide⟩

theorem test_meets_add : Issuing devOne 1 teamOne ∧ Fits teamOne [vTy .i32 1#7, vTy .i32 2#7, vTy .i32 15#7] ∧
    Fits teamOne [vTy .i64 0#7, vTy .i64 2#7, vTy .i64 14#7] :=
  ⟨issuing_one, by unfold Fits; decide, by unfold Fits; decide⟩
theorem test_meets_multiply : Issuing devOne 1 teamOne ∧ Fits teamOne [v1 1#7, v1 2#7, v1 15#7] ∧
    Fits teamOne [v1 1#7, v1 2#7, v2 14#7] := ⟨issuing_one, by unfold Fits; decide, by unfold Fits; decide⟩
theorem test_meets_divide : Issuing devOne 1 teamOne ∧ Fits teamOne [v1 1#7, v1 2#7, vDiv false .qr 14#7] ∧
    Fits teamOne [v2 2#7, v2 4#7, vDiv true .qr 12#7] := ⟨issuing_one, by unfold Fits; decide, by unfold Fits; decide⟩
/-- A divisor of 0 and one of -2, signed and unsigned (R89). -/
theorem test_meets_quotient : divide 32 false 0x80000000 0 = (1, 0x80000000) ∧ divide 32 false 7 0xFFFFFFFE = (0xFFFFFFFD, 1) ∧
    divide 32 true 7 0 = (0xFFFFFFFF, 7) ∧ divide 32 true 7 2 = (3, 1) := by decide
theorem test_meets_logic : Issuing devOne 1 teamOne ∧ Fits teamOne [v1 1#7, v1 2#7, v1 0#7] ∧ Fits teamOne [v1 1#7, v1 15#7] :=
  ⟨issuing_one, by unfold Fits; decide, by unfold Fits; decide⟩
theorem test_meets_uniform_operands : Issuing devOne 1 teamOne ∧ (383#9).toNat ≤ 383 ∧ Fits teamOne [v2 2#7, v2 14#7] ∧
    Fits teamOne [v1 15#7, v2 14#7] ∧ Fits teamOne [v2 14#7] :=
  ⟨issuing_one, by decide, by unfold Fits; decide, by unfold Fits; decide, by unfold Fits; decide⟩
theorem test_meets_uniform : Issuing devOne 1 teamOne ∧ (14#9).toNat ≤ 383 ∧ (383#9).toNat ≤ 383 ∧ (14#9).toNat = (14#7).toNat ∧
    svWide .core = false ∧ Fits teamOne [v1 14#7] ∧ svWide .time = true ∧ Fits teamOne [v2 14#7] :=
  ⟨issuing_one, by decide, by decide, by decide, rfl, by unfold Fits; decide, rfl, by unfold Fits; decide⟩

/-- The kernel of `teamOne`: slot 3 of queue 9. -/
def kernelOne : Kernel :=
  { kid := 1, ctx := 1, qctx := 0, qh := 0, qnum := 9, slot := 3, st := .running, status := 0, entry := 0x1000, deadline := 0
    cls := 0, chksb := false, bounds := false, logSize := 16384, lanes := 32, allot := 16, part := 0x1041, teams := 8, args := 0
    cpl := 0, tr := 0, tc := 0, budget := 0, summ := 0, hoff := 0, user := 0#64, start := ⟨[], 0⟩, made := [], nextId := 8, nextLaunch := 8, late := false
    killed := false, tsel := 0, trun := 0, tend := 0, ran := true, groups := [] }
theorem test_meets_special_values : teamOne.bounds = false ∧
    kernelOf { devOne with kernels := [kernelOne] } teamOne.kid = some kernelOne := by decide

theorem test_meets_float : Issuing devOne 1 teamOne ∧ Fits teamOne [v1 1#7, v1 2#7, v1 15#7] ∧
    (∃ c, cvtOf 0x00 = some c ∧ Fits teamOne [if cvtWideSrc c then v2 2#7 else v1 2#7, if cvtWideDst c then v2 14#7 else v1 14#7]) :=
  ⟨issuing_one, by unfold Fits; decide, _, rfl, by unfold Fits; decide⟩
/-- Operands of every kind that the values of the float instructions are stated for. -/
theorem test_meets_float_values : fval fmtF16 0x7C00 = .inf false ∧ fval fmtF16 0x7C01 = .nan true ∧ fval fmtE4m3 0x7F = .nan false ∧
    fvFin (fval fmtF16 0x3C00) = true ∧ (0x3C00 : Nat) < 2 ^ fmtWidth fmtF16 ∧
    fvQ (fval fmtF32 0) = 0 ∧ fvQ (fval fmtF32 0x40000000) = (1 : ℤ) * 2 ∧ fvQ (fval fmtF32 0xBF800000) < 0 ∧
    fvQ (fval fmtF32 0x3F000000) = ((0 : ℤ) : ℚ) + 1 / 2 ∧ 128 ≤ fvQ (fval fmtF32 0x43000000) ∧ fvQ (fval fmtF32 0x40000000) = 2 ^ (1 : ℤ) ∧
    cvtOf 0 = some (.fromF32 fmtF16) ∧ mx6Expand fmtE2m3 fmtE4m3 255 1 = (fmtNan fmtE4m3, flagNv true) ∧
    ((List.range 4).filter fun j => BitVec.ofNat 4 (0x1111 / 2 ^ (4 * j)) == 8#4) = [] ∧
    ((List.range 4).filter fun j => BitVec.ofNat 4 (0x8111 / 2 ^ (4 * j)) == 8#4) = [3] ∧
    ((List.range 4).filter fun j => BitVec.ofNat 4 (0x8811 / 2 ^ (4 * j)) == 8#4) = [2, 3] ∧
    [FVal.inf true, .inf false].any isNan = false ∧ [FVal.nan true].any isNan = true := by
  have h0 : fval fmtF32 0 = .fin false 0 (-149) := by decide +kernel
  have h2 : fval fmtF32 0x40000000 = .fin false 0x800000 (-22) := by decide +kernel
  have h3 : fval fmtF32 0xBF800000 = .fin true 0x800000 (-23) := by decide +kernel
  have h4 : fval fmtF32 0x3F000000 = .fin false 0x800000 (-24) := by decide +kernel
  have h5 : fval fmtF32 0x43000000 = .fin false 0x800000 (-16) := by decide +kernel
  refine ⟨by decide +kernel, by decide +kernel, by decide +kernel, by decide +kernel, by decide, ?_, ?_, ?_, ?_, ?_, ?_, by decide +kernel,
    by decide +kernel, by decide, by decide, by decide, by decide, by decide⟩
  · simp [h0, fvQ]
  · rw [h2]; norm_num [fvQ]
  · rw [h3]; norm_num [fvQ]
  · rw [h4]; norm_num [fvQ]
  · rw [h5]; norm_num [fvQ]
  · rw [h2]; norm_num [fvQ]
/-- A team of 1024 lanes. -/
theorem test_meets_cross_lane : let t := { teamOne with lanes := 1024 }
    Issuing (devOf t coreOne) 1 t ∧ t.lanes % 32 = 0 ∧ t.lanes ≤ 1024 ∧ Fits t [v1 1#7, v1 2#7, v1 15#7] ∧
      Issuing devOne 1 teamOne ∧ teamOne.lanes % 32 = 0 ∧ teamOne.lanes ≤ 1024 :=
  ⟨issuing_dev _ _ (by decide) (by decide) (by decide), by decide, by decide, by unfold Fits; decide, issuing_one, by decide,
    by decide⟩

/-- The touches of a checked access. -/
def touchesOf : Checked → List Touch
  | .ok l => l
  | _ => []

/-- Whether a reader knows the newest writes of some places. -/
def syncedB (s : State) (seen : List Nat) (first a n : Nat) (mem : Nat → Byte) : Bool :=
  (rangeFrom a n).all fun x =>
    match find? s.hist (first + x / 16) with
    | none => true
    | some g =>
      match newestAt s first x with
      | some w => decide (seenCode w.n (x % 16) ∈ seen) && mem x == writeByte w (x % 16)
      | none => mem x == nth 0#8 g.base (x % 16)
theorem synced_of_check {s : State} {seen : List Nat} {first a n : Nat} {mem : Nat → Byte} (h : syncedB s seen first a n mem = true) :
    Synced s seen first a n mem := by
  intro x hl hu g hg
  have hx := List.all_eq_true.mp h x (by simp only [rangeFrom, List.mem_map, List.mem_range]; exact ⟨x - a, by omega, by omega⟩)
  simp only [hg] at hx
  cases hw : newestAt s first x with
  | none => simpa [hw] using hx
  | some w => simpa [hw] using hx
/-- Where nothing is recorded, everything is known. -/
theorem synced_empty {s : State} (h : s.hist = []) (seen : List Nat) (first a n : Nat) (mem : Nat → Byte) :
    Synced s seen first a n mem := by
  intro x _ _ g hg
  rw [h] at hg
  cases hg

/-- A load of all 32 lanes in device memory, and one of the last word of a page in the host. -/
def argsOne : MArgs := ⟨5#7, 4#7, 24#7, .none⟩
theorem plain_dev {s : State} {t : Team} {w : Width} {l : List Touch} (h : ∀ e ∈ l, e.place = .dev e.addr)
    (hp : ∀ e ∈ l, (metaOf s (e.addr / 256)).poison = false)
    (hs : ∀ e ∈ l, syncedB s t.seen 0 e.addr (widthBytes w) (memByte s.mem) = true) : PlainReads s t w l :=
  fun e he => Or.inl ⟨e.addr, h e he, hp e he, synced_of_check (hs e he)⟩
theorem plain_host {s : State} {t : Team} {w : Width} {l : List Touch} (h : ∀ e ∈ l, e.place = .host (e.addr - 2 ^ 21))
    (hs : s.hist = []) : PlainReads s t w l := fun e he => Or.inr ⟨_, h e he, synced_empty hs _ _ _ _ _⟩

theorem test_meets_load : let t := teamK [0x4000#64]
    let s := devK [0x4000#64]
    let l := touchesOf (checkLanes s t 4 .load (globalLanes t 4#7 24#7 .none))
    Issuing s 1 t ∧ lanesOf t ≠ [] ∧ Fits t (offUse true 4#7 24#7 ++ [dataUse .b32 5#7]) ∧
      checkLanes s t (widthBytes .b32) .load (globalLanes t 4#7 24#7 .none) = .ok l ∧ l.length = 32 ∧ PlainReads s t .b32 l :=
  ⟨issuing_k _, by decide +kernel, by unfold Fits; decide +kernel, by decide +kernel, by decide +kernel,
    plain_dev (by decide +kernel) (by decide +kernel) (by decide +kernel)⟩
theorem test_meets_load_host : let t := teamK [0x3FFF80#64]
    let s := devK [0x3FFF80#64]
    let l := touchesOf (checkLanes s t 4 .load (globalLanes t 4#7 24#7 .none))
    Issuing s 1 t ∧ lanesOf t ≠ [] ∧ Fits t (offUse true 4#7 24#7 ++ [dataUse .b32 5#7]) ∧
      checkLanes s t (widthBytes .b32) .load (globalLanes t 4#7 24#7 .none) = .ok l ∧ l.length = 32 ∧ PlainReads s t .b32 l :=
  ⟨issuing_k _, by decide +kernel, by unfold Fits; decide +kernel, by decide +kernel, by decide +kernel,
    plain_host (by decide +kernel) rfl⟩
/-- A team that has seen the write that the newest bytes come from. -/
theorem test_meets_kld : let t := { teamK [0x4008#64] with seen := (List.range 16).map (seenCode 5) }
    let s := { withPages (devOf t coreOne) with
      mem := [(0x4009, 7#8)], nextWrite := 6
      hist := [(0x400, ⟨List.replicate 16 0#8, [⟨5, List.replicate 9 none ++ [some 7#8] ++ List.replicate 6 none, false, false, []⟩]⟩)] }
    let e : Touch := ⟨0, 0x4008, .dev 0x4008, 0x1F⟩
    Issuing s 1 t ∧ (383#9).toNat ≤ 383 ∧ (24#9).toNat ≤ 383 ∧
      checkLanes s t (widthBytes .b64) .load [⟨0, wrapNat 64 ((kreg t 24).toNat + dispOf .none)⟩] = .ok [e] ∧
      PlainReads s t .b64 [e] :=
  ⟨issuing_of rfl rfl (quiet_of rfl rfl rfl rfl rfl) (by decide +kernel), by decide, by decide, by decide +kernel,
    plain_dev (by decide) (by decide +kernel) (by decide +kernel)⟩

/-- The stores of 32 lanes into two blocks. -/
theorem test_meets_store : let t := teamK [0x4080#64]
    let s := devK [0x4080#64]
    let tl := touchesOf (checkLanes s t 4 .store (globalLanes t 4#7 24#7 .none))
    let l : List LaneStore := tl.map fun e => ⟨e.lane, e.addr, storeBytes .b32 t 5#7 e.lane, e.leaf⟩
    Issuing s 1 t ∧ lanesOf t ≠ [] ∧ Fits t (offUse true 4#7 24#7 ++ [dataUse .b32 5#7]) ∧
      checkLanes s t (widthBytes .b32) .store (globalLanes t 4#7 24#7 .none) = .ok tl ∧ logWith t l ≤ t.logSize / 64 ∧
      (debitStores 1 s l).2 = none ∧ l.length = 32 :=
  ⟨issuing_k _, by decide +kernel, by unfold Fits; decide +kernel, by decide +kernel, by decide +kernel, by decide +kernel,
    by decide +kernel⟩
theorem test_meets_kst : let t := teamK [0x4008#64]
    let s := devK [0x4008#64]
    let e : Touch := ⟨0, 0x4008, .dev 0x4008, 0x1F⟩
    let l : List LaneStore := [⟨0, 0x4008, bytesOf 8 7, e.leaf⟩]
    Issuing s 1 t ∧ checkLanes s t (widthBytes .b64) .store [⟨0, wrapNat 64 ((kreg t 24).toNat + dispOf .none)⟩] = .ok [e] ∧
      logWith t l ≤ t.logSize / 64 ∧ (debitStores 1 s l).2 = none :=
  ⟨issuing_k _, by decide +kernel, by decide +kernel, by decide +kernel⟩

/-- A load that has come back, with a value for v5 of lane 0 and a predicate, and a division result for k20. -/
def backLoad : Pending := ⟨true, [.v 5], [⟨0, 5, 7#32⟩, ⟨1, 5, 8#32⟩], [], none, none, [], 0, none, [], []⟩
def backDiv : Pending := ⟨false, [.k 20, .p 2], [], [(0, 2, true)], some (20, 3#64), none, [], 0, none, [], []⟩
theorem test_meets_write_back : let t := { teamOne with pend := [backDiv, backLoad] }
    let s := devOf t coreOne
    Quiet s ∧ 1 ∈ s.teams.map (·.1) ∧ firstPend t true = some (1, backLoad) ∧ firstPend t false = some (0, backDiv) ∧
      backLoad.gather = 0 ∧ backLoad.retryAt = none ∧ backLoad.peers = [] ∧ backLoad.fault = none ∧
      heldRegs s 1 t.core = [] ∧ (getCore s t.core).stop = none ∧ t.status ≠ .waiting .load ∧
      (backLoad.writes.map fun w => (w.lane, w.reg)).Nodup ∧ (∀ w ∈ backLoad.writes, w.reg < 128) ∧
      (backDiv.preds.map fun w => (w.1, w.2.1)).Nodup ∧ (∀ w ∈ backDiv.preds, w.2.1 < 8) :=
  ⟨quiet_dev _ _, by decide, by decide, by decide, rfl, rfl, rfl, rfl, by decide, by decide, by decide, by decide, by decide,
    by decide, by decide⟩

/-- The last word of the scratchpad of 64 KiB is lane 31's. -/
theorem test_meets_scratchpad : let t := teamK [0xFF80#64]
    let s := devK [0xFF80#64]
    let m : MArgs := ⟨8#7, 0#7, 24#7, .none⟩
    Issuing s 1 t ∧ Fits t (offUse false 4#7 24#7 ++ [dataUse .b32 5#7]) ∧ SpadFits s t .b32 argsOne ∧
      openOps (getCore s t.core) = [] ∧ (getCore s t.core).spadPoison = [] ∧ Fits t (offUse false 0#7 24#7 ++ [ldtUse .b32 8#7]) ∧
      (∀ i, (∃ j ∈ lanesOf t, j / 32 = i / 32) → spadAddr t m i % (4 * widthBytes .b32) = 0 ∧
        spadAddr t m i + 4 * widthBytes .b32 ≤ spgBytes (getCore s t.core).word) ∧
      (∀ i ∈ lanesOf t, ∀ a ∈ ldtRows t m (widthBytes .b32) i, SpadSynced s t a (widthBytes .b32)) := by
  have hl : ∀ j ∈ lanesOf (teamK [0xFF80#64]), j < 32 := by decide +kernel
  have ha : ∀ i < 32, spadAddr (teamK [0xFF80#64]) ⟨8#7, 0#7, 24#7, .none⟩ i % (4 * widthBytes .b32) = 0 ∧
    spadAddr (teamK [0xFF80#64]) ⟨8#7, 0#7, 24#7, .none⟩ i + 4 * widthBytes .b32 ≤ spgBytes (getCore (devK [0xFF80#64]) 0).word := by
    decide +kernel
  have hf : ∀ i ∈ lanesOf (teamK [0xFF80#64]), spadAddr (teamK [0xFF80#64]) argsOne i % widthBytes .b32 = 0 ∧
    spadAddr (teamK [0xFF80#64]) argsOne i + widthBytes .b32 ≤ spgBytes (getCore (devK [0xFF80#64]) 0).word := by decide +kernel
  refine ⟨issuing_k _, by unfold Fits; decide +kernel, ?_, rfl, rfl, by unfold Fits; decide +kernel, ?_, ?_⟩
  · exact fun i hi => ⟨(hf i hi).1, (hf i hi).2, rfl, synced_empty rfl _ _ _ _ _⟩
  · rintro i ⟨j, hj, e⟩
    have := hl j hj
    exact ha i (by omega)
  · exact fun _ _ _ _ => synced_empty rfl _ _ _ _ _

theorem test_meets_cache : let t := teamK [0x4000#64]
    let s := devK [0x4000#64]
    let l := touchesOf (checkLanes s t 1 .store (globalLanes t 4#7 24#7 .none))
    let bs := dedupNat (l.map fun e => e.addr / 256)
    Issuing s 1 t ∧ Fits t (offUse true 4#7 24#7) ∧ lanesOf t ≠ [] ∧
      checkLanes s t 1 .store (globalLanes t 4#7 24#7 .none) = .ok l ∧ bs ≠ [] ∧
      (dedupNat ((t.log.filter fun e => !bs.contains (e.1 / 256)).map fun e => e.1 / 32)).length +
        (dedupNat (t.zeros ++ bs)).length ≤ t.logSize / 64 ∧
      (⟨0, 0x4000⟩ : LaneAddr) ∈ globalLanes t 4#7 24#7 .none ∧
      tlbFind s (dieOf t.core) t.ctx 0x4000 ≠ none ∧
      pagesUnknown s (dieOf t.core) t (((globalLanes t 4#7 24#7 .none).filter fun e => decide (e.addr < 2 ^ 56)).map fun e =>
        pageKey s t.ctx e.addr) = [] :=
  ⟨issuing_k _, by unfold Fits; decide +kernel, by decide +kernel, by decide +kernel, by decide +kernel, by decide +kernel,
    by decide +kernel, by decide +kernel⟩

/-- A team whose lanes are all held, in uniform-only mode. -/
def teamNone : Team :=
  { teamOne with flow := { Flow.start 0x1000 with lanes := (List.range 32).map fun i => (i, .held), uni := true } }
theorem test_meets_no_lane : Issuing (devOf teamNone coreOne) 1 teamNone ∧ lanesOf teamNone = [] ∧ NoLoops teamNone ∧
    tabSorted teamNone.flow.lanes = true ∧ teamNone.flow.uni = true ∧ waitingAt teamNone.flow teamNone.flow.depth = [] :=
  ⟨issuing_dev _ _ (by decide) (by decide) (by decide), by decide, by unfold NoLoops; decide, by decide, rfl, by decide⟩

/-- A region that has logged three bytes of one block. -/
theorem test_meets_commit : let t := { teamOne with log := [(0x4000, 1#8), (0x4003, 2#8), (0x40FF, 3#8)] }
    let s := withPages (devOf t coreOne)
    Issuing s 1 t ∧ t.zeros = [] ∧ t.log ≠ [] ∧ (∀ e ∈ t.log, e.1 / 256 = 0x40) ∧
      loggedPlace s t.ctx (0x40 * 256) = some (.dev 0x4000, 0x1F) ∧ (metaOf s (0x4000 / 256)).poison = false ∧
      Unstored s (0x4000 / 256) ∧ Synced s (melded t).seen 0 (0x4000 / 256 * 256) 256 (memByte s.mem) :=
  ⟨issuing_of rfl rfl (quiet_of rfl rfl rfl rfl rfl) (by decide +kernel), rfl, by decide, by decide, by decide +kernel,
    by decide +kernel, by decide +kernel, synced_empty rfl _ _ _ _ _⟩
theorem test_meets_commit_nothing : Issuing devOne 1 teamOne ∧ teamOne.zeros = [] ∧ teamOne.log = [] := ⟨issuing_one, rfl, rfl⟩

theorem test_meets_atom : let t := teamK [0x4000#64]
    let s := devK [0x4000#64]
    let tl := touchesOf (checkLanes s t 4 .rmw (globalLanes t 4#7 24#7 .none))
    let key := fun (i : Nat) => 0x4000 + 4 * i
    let md : AtomMod := ⟨.add, .signed, .acqrel⟩
    let l := tl.map fun e => (rmwOperand .b32 md t 5#7 e.lane e.addr, e.place, e.leaf)
    Issuing s 1 t ∧ t.log = [] ∧ t.zeros = [] ∧ s.peers = [] ∧ lanesOf t ≠ [] ∧
      Fits t (offUse true 4#7 24#7 ++ [rmwUse .b32 md 5#7, dataUse .b32 5#7]) ∧
      checkLanes s t (widthBytes .b32) .rmw (globalLanes t 4#7 24#7 .none) = .ok tl ∧ tl.length = 32 ∧
      (∀ e ∈ tl, e.place = .dev (key e.lane) ∧ key e.lane % widthBytes .b32 = 0 ∧
        (metaOf s (key e.lane / 256)).poison = false ∧ Unstored s (key e.lane / 256)) ∧
      (∀ e ∈ tl, Synced s (melded t).seen 0 (key e.lane) (widthBytes .b32) (memByte s.mem)) ∧
      (debitRmw 1 s (rmwDebits l)).2 = none :=
  ⟨issuing_k _, rfl, rfl, rfl, by decide +kernel, by unfold Fits; decide +kernel, by decide +kernel, by decide +kernel,
    by decide +kernel, fun _ _ => synced_empty rfl _ _ _ _ _, by decide +kernel⟩
theorem test_meets_sc_rmw : let md : AtomMod := ⟨.exch, .signed, .sc⟩
    let ops : List RmwOp := [⟨0, 0x4000, 5, 0⟩, ⟨1, 0x4000, 6, 0⟩]
    let t := { teamOne with status := .waiting (.scRmw 256 .b32 .dev md ops (some 5)) }
    let s := withPages (devOf t coreOne)
    find? s.teams 1 = some t ∧ t.trace.on = false ∧ t.bounds = false ∧ t.stepOnce = false ∧ heldRegs s 1 t.core = [] ∧
      Synced s (melded t).seen 0 0x4000 (widthBytes .b32) (memByte s.mem) ∧
      scBelow s 256 = false ∧ (ops.map (·.lane)).Nodup ∧ 5 + (loadOut .b32 5 0).length ≤ 128 ∧
      (∀ o ∈ ops, loggedPlace s t.ctx o.addr = some (.dev 0x4000, 0x1F) ∧ 0x4000 % widthBytes .b32 = 0 ∧
        (metaOf s (0x4000 / 256)).poison = false ∧ Unstored s (0x4000 / 256)) := by
  refine ⟨rfl, rfl, rfl, rfl, rfl, synced_empty rfl _ _ _ _ _, ?_, ?_, ?_, ?_⟩ <;> decide +kernel

theorem test_meets_fence : Issuing devOne 1 teamOne ∧ teamOne.log = [] ∧ teamOne.zeros = [] ∧ devOne.peers = [] ∧
    scBelow devOne (scKey ((getCore devOne teamOne.core).clock + 1) devOne.mgmt.devnum teamOne.core) = false ∧
    teamOne.core < Config.cores ∧ (getCore devOne teamOne.core).stop = none ∧ fenceAcq .sc = true ∧ fenceRel .sc = true ∧
    fenceAcq .rel = false ∧ fenceRel .acq = false :=
  ⟨issuing_one, rfl, rfl, rfl, by decide +kernel, by decide, by decide, rfl, rfl, rfl, rfl⟩
theorem test_meets_fence_complete : let t := { teamOne with status := .waiting (.fence .sc .dev 256) }
    let s := devOf t coreOne
    Quiet s ∧ find? s.teams 1 = some t ∧ t.trace.on = false ∧ t.stepOnce = false ∧ s.peers = [] ∧ scBelow s 256 = false ∧
      (getCore s t.core).stop = none :=
  ⟨quiet_dev _ _, rfl, rfl, rfl, rfl, by decide +kernel, by decide⟩

/-- A write of two places of a granule that a reader knows of at one of them. -/
theorem test_meets_axioms : let w : Write := ⟨5, [some 1#8, some 2#8] ++ List.replicate 14 none, false, true, []⟩
    let g : Grain := ⟨List.replicate 16 0#8, [w]⟩
    (∃ newer older, placeWrite State.reset ⟨none, [seenCode 5 0], false, []⟩ true [0, 1] [w] = (newer, older)) ∧
      writesAt w 0 = true ∧ writesAt w 1 = true ∧ w ∈ g.writes ∧ seenCode w.n 0 ∈ [seenCode 5 0] ∧ seenCode w.n 1 ∉ [seenCode 5 0] ∧
      w.sc = true ∧ w.rmw = false := ⟨⟨_, _, rfl⟩, by decide⟩

theorem test_meets_gather : let p : Pending := { backLoad with gather := 2 }
    let t := { teamOne with pend := [backDiv] ++ p :: [] }
    find? (devOf t coreOne).teams 1 = some t ∧ p.isLoad = true ∧ p.gather ≠ 0 ∧ p.retryAt = none ∧
      (∀ q ∈ [backDiv], q.isLoad = true → q.gather = 0 ∨ q.retryAt.isSome = true) := by decide
theorem test_meets_retry : let p : Pending := { backLoad with retryAt := some 0, banks := [16383] }
    let t := { teamOne with pend := [backDiv] ++ p :: [] }
    let s := devOf t coreOne
    let busy := { s with stks := setAt s.stks 7 { Stack.reset with busy := [(2047, 350)] } }
    find? s.teams 1 = some t ∧ p.isLoad = true ∧ p.retryAt = some 0 ∧ 0 ≤ s.mgmt.time ∧
      (∀ q ∈ [backDiv], q.isLoad = false) ∧
      (∀ b ∈ p.banks, tabGet 0 (stackOf s (b / 2048)).busy (b % 2048) ≤ s.mgmt.time ∧
        owedBy s.mgmt.time (stackOf s (b / 2048)) (b % 2048) < 8) ∧
      banksBusy (p.banks.foldl serveAt s) p.banks = none ∧ banksBusy (p.banks.foldl serveAt busy) p.banks = some 350 := by
  decide +kernel

/-- Of the conversions, some read or write a pair. -/
theorem test_meets_cvt_wide : ((List.range 128).any fun n => match cvtOf n with | some c => cvtWideSrc c && !cvtWideDst c | _ => false) =
    true ∧ ((List.range 128).any fun n => match cvtOf n with | some c => !cvtWideSrc c && cvtWideDst c | _ => false) = true ∧
    Fits teamOne [v2 14#7, v1 15#7] ∧ Fits teamOne [v1 15#7, v2 14#7] :=
  ⟨by decide, by decide, by unfold Fits; decide, by unfold Fits; decide⟩

/-- A team two of whose lanes wait, one where the next word is. -/
def teamSplit : Team :=
  { teamOne with flow := { Flow.start 0x1000 with lanes := [(3, .waiting 0x1004 0), (9, .waiting 0x1020 0), (31, .exited)] } }
theorem test_meets_go_on : Issuing (devOf teamSplit coreOne) 1 teamSplit ∧ lanesOf teamSplit ≠ [] ∧ teamSplit.flow.uni = false ∧
    NoLoops teamSplit ∧ tabSorted teamSplit.flow.lanes = true :=
  ⟨issuing_dev _ _ (by decide) (by decide) (by decide), by decide, rfl, by unfold NoLoops; decide, rfl⟩

/-- A LAND at 0x2000, which all lanes jump to. -/
theorem test_meets_jmpi : let t := teamK [0x2000#64]
    let s := { devK [0x2000#64] with mem := [(0x2003, 0xA6#8)] }
    Issuing s 1 t ∧ (24#9).toNat ≤ 383 ∧ Fits t [v1 0#7] ∧ lanesOf t ≠ [] ∧ NoLoops t ∧ tabSorted t.flow.lanes = true ∧
      (∀ i ∈ lanesOf t, landingAt s t (((kreg t 24).toNat + vnat t i 0#7) % 2 ^ 64) = .ok) ∧
      pagesUnknown s (dieOf t.core) t (landingPages s t ((lanesOf t).map fun i => ((kreg t 24).toNat + vnat t i 0#7) % 2 ^ 64)) = [] :=
  ⟨issuing_of rfl rfl (quiet_of rfl rfl rfl rfl rfl) (by decide +kernel), by decide, by unfold Fits; decide +kernel, by decide +kernel,
    by unfold NoLoops; decide +kernel, by decide +kernel, by decide +kernel, by decide +kernel⟩

/-- The team at a call depth, with no lane waiting there and with one. -/
def teamDeep (d : Nat) (lanes : Tab LaneState) : Team := { teamOne with flow := { Flow.start 0x1000 with depth := d, lanes := lanes } }
theorem test_meets_ret : let t := teamDeep 1 []
    Issuing (devOf t coreOne) 1 t ∧ lanesOf t ≠ [] ∧ NoLoops t ∧ t.flow.depth ≠ 0 ∧ t.flow.depth ≠ 63 ∧
      waitingAt t.flow t.flow.depth = [] ∧ t.flow.loops.length = 3 ∧ (kreg t 22).toNat + (27#7).toNat ≤ 127 ∧
      (kreg t 25).setWidth 32 = 0#32 ∧ tabSorted t.flow.lanes = true ∧ t.flow.uni = false ∧
      ∀ i r d, laneState t.flow i ≠ .waiting r d :=
  ⟨issuing_dev _ _ (by decide) (by decide) (by decide), by decide, by unfold NoLoops; decide, by decide, by decide, rfl, rfl,
    by decide, by decide, rfl, rfl, fun i r d h => by cases h⟩
theorem test_meets_ret_waiting : let t := teamDeep 62 [(5, .waiting 0x1008 62)]
    Issuing (devOf t coreOne) 1 t ∧ lanesOf t ≠ [] ∧ NoLoops t ∧ t.flow.depth ≠ 0 ∧ t.flow.depth ≠ 63 ∧
      waitingAt t.flow t.flow.depth ≠ [] ∧
      (∀ e ∈ waitingAt t.flow t.flow.depth, (devOf t coreOne).issue.word + 4 < e.2) ∧ tabSorted t.flow.lanes = true :=
  ⟨issuing_dev _ _ (by decide) (by decide) (by decide), by decide, by unfold NoLoops; decide, by decide, by decide, by decide,
    by decide, by decide⟩

/-- A body of one word, in its last round and before it. -/
def teamLoop (n : W32) : Team :=
  { teamOne with flow := { Flow.start 0x1000 with loops := [⟨n, true, 0x1000, 1, 0⟩, LoopEntry.reset, LoopEntry.reset] } }
theorem test_meets_loop_end (n : W32) : Issuing (devOf (teamLoop n) coreOne) 1 (teamLoop n) ∧ lanesOf (teamLoop n) ≠ [] ∧
    loopEnd ⟨n, true, 0x1000, 1, 0⟩ = (devOf (teamLoop n) coreOne).issue.word ∧
    (devOf (teamLoop n) coreOne).issue.next = (devOf (teamLoop n) coreOne).issue.word + 4 ∧
    (teamLoop n).flow.uni = false ∧ tabSorted (teamLoop n).flow.lanes = true ∧ ∀ i r d, laneState (teamLoop n).flow i ≠ .waiting r d :=
  ⟨issuing_dev _ _ ⟨rfl, rfl, rfl, rfl, rfl, rfl, rfl, rfl, rfl, by show 16 ≤ 128; decide, by show 0 < 4; decide⟩ (by decide)
    (by decide), by show lanesOf teamOne ≠ []; decide, rfl, rfl, rfl, rfl, fun i r d h => by cases h⟩

/-- A mask of no lane and one of lane 0, where no lane waits and where one does. -/
theorem test_meets_mask : Issuing devOne 1 teamOne ∧ (368#9).toNat + 16 ≤ 384 ∧ teamOne.lanes ≤ 1024 ∧
    (∀ i < 32, (kreg teamOne (64 + i / 64)).getLsbD (i % 64) = false) ∧ (kreg teamOne (20 + 0 / 64)).getLsbD (0 % 64) = true ∧
    waitingAt teamOne.flow teamOne.flow.depth = [] ∧ waitingAt teamSplit.flow teamSplit.flow.depth ≠ [] :=
  ⟨issuing_one, by decide, by decide, by decide, by decide, rfl, by decide⟩

theorem test_meets_exit : Issuing devOne 1 teamOne ∧ teamOne.log = [] ∧ teamOne.zeros = [] ∧ teamOne.trace.staged = [] ∧
    tabSorted teamOne.flow.lanes = true ∧ ∀ i r d, laneState teamOne.flow i ≠ .waiting r d :=
  ⟨issuing_one, rfl, rfl, rfl, rfl, fun i r d h => by cases h⟩
theorem test_meets_trap : Issuing devOne 1 teamOne ∧ teamOne.ctx ≠ 0 ∧ (getCore devOne teamOne.core).stop = none :=
  ⟨issuing_one, by decide, by decide⟩
theorem test_meets_checks : Issuing devOne 1 teamOne ∧ lanesOf teamOne ≠ [] ∧
    teamOne.allot < (16#7).toNat + teamOne.flow.x + (vTy .i32 16#7).n ∧ tyPair .i64 = true ∧
    (∀ r ∈ [1#7, 2#7, 13#7], r.toNat + teamOne.flow.x + 2 ≤ teamOne.allot) ∧ ((13#7).toNat + teamOne.flow.x) % 2 = 1 ∧
    368 < (369#9).toNat ∧ (kreg teamOne 20).setWidth 32 ≠ 0#32 ∧ 127 < (kreg teamOne 22).toNat + (28#7).toNat ∧
    teamOne.flow.depth = 0 := ⟨issuing_one, by decide⟩
theorem test_meets_checks_deep : Issuing (devOf (teamDeep 63 []) coreOne) 1 (teamDeep 63 []) ∧ (teamDeep 63 []).flow.depth = 63 :=
  ⟨issuing_dev _ _ (by decide) (by decide) (by decide), rfl⟩
theorem test_meets_checks_loop : Issuing (devOf (teamLoop 5#32) coreOne) 1 (teamLoop 5#32) ∧
    (kreg (teamLoop 5#32) 20).setWidth 32 ≠ 0#32 ∧ (loopAt (teamLoop 5#32).flow (loopNum .l0)).on = true :=
  ⟨issuing_dev _ _ (by decide) (by decide) (by decide), by decide, rfl⟩

/-! ### Locks -/

/-- A device whose team has the operand word `w` in k24 and whose core has lock 3 as `l`. -/
def devLock (w : W64) (l : Lock) : State := devOf (teamK [w]) { coreOne with locks := [(3, l)] }
theorem issuing_lock (w : W64) (l : Lock) : Issuing (devLock w l) 1 (teamK [w]) :=
  issuing_of rfl rfl (quiet_of rfl rfl rfl rfl rfl) ⟨rfl, rfl, rfl, rfl, rfl, rfl, rfl, rfl, by show 16 ≤ 128; decide, rfl, by show 0 < 4; decide⟩
/-- A lock of two arrivals a phase, with and without a gate. -/
def lockPlain : Lock := { Lock.reset with st := .valid, na := 2, penda := 2 }
def lockGate (ph : W32) : Lock := { Lock.reset with st := .valid, na := 2, nd := 1, penda := 1, gate := true, phase := ph }

theorem test_meets_lock_init : Issuing (devLock 0x100010002#64 Lock.reset) 1 (teamK [0x100010002#64]) ∧
    lockAwaited (devLock 0x100010002#64 Lock.reset) 0 3 = false ∧ initWordOk 0x100010002 = true ∧ initWordOk 1 = true ∧
    (getLock (devLock 0x100010002#64 Lock.reset) 0 3).st = .invalid := ⟨issuing_lock _ _, by decide +kernel⟩
/-- An arrival of one and one that ends the phase. -/
theorem test_meets_lock_arrive : Issuing (devLock 2#64 lockPlain) 1 (teamK [2#64]) ∧ arriveWordOk 2 = true ∧
    bitAt 2 24 = false ∧ lockPlain.st = .valid ∧ ¬ (lockPlain.gate = true ∧ lockPlain.phase.toNat % 2 = 1) ∧
    max 1 (field 2 0 16) ≤ lockPlain.penda ∧ max 1 (field 0 0 16) ≤ lockPlain.penda ∧
    ¬ lockBreaks { lockPlain with penda := 0 } ∧ ¬ lockBreaks { lockPlain with penda := 1 } ∧
    getLock (devLock 2#64 lockPlain) 0 3 = lockPlain :=
  ⟨issuing_lock _ _, by decide, by decide, rfl, by decide, by decide, by decide, by unfold lockBreaks; decide,
    by unfold lockBreaks; decide, by decide +kernel⟩
theorem test_meets_lock_expect : Issuing (devLock 0x8000000000000040#64 lockPlain) 1 (teamK [0x8000000000000040#64]) ∧
    byteWordOk 0x8000000000000040 = true ∧ lockPlain.gate = false ∧ lockPlain.gv = false ∧
    lockFillStep lockPlain 0x8000000000000040#64 = some { lockPlain with bexp := 64, penda := 1 } ∧
    ¬ lockBreaks { lockPlain with bexp := 64, penda := 1 } := ⟨issuing_lock _ _, by decide, rfl, rfl, by decide, by
  unfold lockBreaks; decide⟩
/-- A phase that is done, the phase that is current, and the one after it. -/
theorem test_meets_lock_wait : Issuing (devLock 0xFFFFFFFF#64 lockPlain) 1 (teamK [0xFFFFFFFF#64]) ∧
    waitWordOk 0xFFFFFFFF = true ∧ bitAt 0xFFFFFFFF 40 = false ∧ phaseDone lockPlain 0xFFFFFFFF#32 = true ∧
    (teamK [0xFFFFFFFF#64]).woken = false ∧ phaseDone lockPlain 0#32 = false ∧ phaseDone lockPlain 1#32 = false ∧ phaseDone lockPlain 0x80000000#32 = true ∧
    lockPlain.eng = 0 ∧ (∀ q ∈ (getCore (devLock 0xFFFFFFFF#64 lockPlain) 0).copyQ, q = []) ∧
    lockAwaited (devLock 0xFFFFFFFF#64 lockPlain) 0 3 = false := ⟨issuing_lock _ _, by decide +kernel⟩
theorem test_meets_lock_fill : Issuing (devLock 16#64 (lockGate 0#32)) 1 (teamK [16#64]) ∧ byteWordOk 16 = true ∧
    (lockGate 0#32).st = .valid ∧ (lockGate 0#32).gate = true ∧ (lockGate 0#32).gv = false ∧ (lockGate 0#32).phase.toNat % 2 = 0 ∧
    lockFillStep (lockGate 0#32) 16#64 = some { lockGate 0#32 with bexp := 16 } ∧ ¬ lockBreaks { lockGate 0#32 with bexp := 16 } :=
  ⟨issuing_lock _ _, by decide, rfl, rfl, rfl, by decide, by decide, by unfold lockBreaks; decide⟩
theorem test_meets_lock_drain : Issuing (devLock 16#64 (lockGate 1#32)) 1 (teamK [16#64]) ∧ (lockGate 1#32).phase.toNat % 2 = 1 ∧
    (lockGate 1#32).penda ≠ 0 ∧ ¬ lockBreaks { lockGate 1#32 with penda := (lockGate 1#32).penda - 1 } :=
  ⟨issuing_lock _ _, by decide, by decide, by unfold lockBreaks; decide⟩
theorem test_meets_lock_eval : let l := { lockPlain with penda := 0, bexp := 64, bdone := 64 }
    (getLock (devLock 0#64 l) 0 3).penda = 0 ∧ (getLock (devLock 0#64 l) 0 3).bdone = (getLock (devLock 0#64 l) 0 3).bexp ∧
      lockPlain.penda ≠ 0 ∧ lockBreaks { lockPlain with penda := 0, bexp := 64, bdone := 65 } :=
  ⟨by decide +kernel, by decide +kernel, by decide, by unfold lockBreaks; decide⟩

/-! ### FORK, JOIN, COPY and matrix operations -/

/-- A FORK whose task joins lock 3: its word has JV in bit 62 and the lock in bits 61:56. -/
theorem test_meets_fork : let w : W64 := 0x4300000000002000#64
    let s := { devLock w { lockPlain with joinc := 65534 } with kernels := [kernelOne] }
    let t := teamK [w]
    Issuing s 1 t ∧ (20#9).toNat + (8#4).toNat ≤ 384 ∧ kernelOf s t.kid = some kernelOne ∧ (kreg t 24).toNat < 2 ^ 63 ∧
      (kreg t 24).toNat % 4 = 0 ∧ (getCore s t.core).deque.length < 512 ∧ kernelOne.nextId < 2 ^ 32 ∧
      bitAt (kreg t 24).toNat 62 = true ∧ field (kreg t 24).toNat 56 6 = 3 ∧ (getLock s t.core 3).joinc ≠ 65535 :=
  ⟨issuing_of rfl rfl (quiet_of rfl rfl rfl rfl rfl) (by decide +kernel), by decide, by decide +kernel, by decide, by decide,
    by decide +kernel, by decide, by decide, by decide, by decide +kernel⟩
theorem test_meets_join : Issuing (devLock 0#64 { lockPlain with joinc := 1 }) 1 (teamK [0#64]) ∧ (teamK [0#64]).woken = false ∧
    (getLock (devLock 0#64 { lockPlain with joinc := 1 }) 0 3).joinc ≠ 0 ∧ (getLock (devLock 0#64 lockPlain) 0 3).joinc = 0 :=
  ⟨issuing_lock _ _, rfl, by decide +kernel, by decide +kernel⟩

/-- A tensor copy of two rows of 64 bytes within the scratchpad: its descriptor and the command it becomes. -/
def copyWords : List W64 := [0x0100000000000000#64, 0x0100000000001000#64, 0x02000040#64, 0x4000000040#64]
def copyOne : CopyCmd :=
  { w0 := 0x0100000000000000#64, w1 := 0x0100000000001000#64, w2 := 0x02000040#64, w3 := 0x4000000040#64, form := .tensor
    lock := 3, off := 0, stall := none, retryAt := 0, uid := 1, team := 5, pc := 0x1000, chunkAt := 0, dead := none
    failed := false, asks := [], stage := [], gone := false, view := ⟨[], 0⟩ }
def coreCopy (q : List CopyCmd) : Core := { coreOne with locks := [(3, { lockPlain with eng := q.length })], copyQ := [q, [], [], []] }
/-- A queue with room and one that holds eight commands. -/
theorem test_meets_copy : let t := teamK copyWords
    let s := devOf t (coreCopy (List.replicate 7 copyOne))
    let s8 := devOf t (coreCopy (List.replicate 8 copyOne))
    Issuing s 1 t ∧ Issuing s8 1 t ∧ copyCause s t .tensor 3 (kreg t 24).toNat (kreg t 25).toNat (kreg t 26).toNat
        (kreg t 27).toNat = none ∧ copyWalks s t .tensor (kreg t 24).toNat (kreg t 25).toNat (kreg t 26).toNat (kreg t 27).toNat = none ∧
      (getCore s t.core).copyQ.length = 4 ∧ (nth [] (getCore s t.core).copyQ 0).length < 8 ∧
      8 ≤ (nth [] (getCore s8 t.core).copyQ 0).length :=
  ⟨issuing_of rfl rfl (quiet_of rfl rfl rfl rfl rfl) (by decide +kernel), issuing_of rfl rfl (quiet_of rfl rfl rfl rfl rfl) (by decide +kernel),
    by decide +kernel, by decide +kernel, by decide +kernel, by decide +kernel, by decide +kernel⟩
theorem test_meets_copy_unit : let k := coreCopy [copyOne]
    let s := devOf teamOne k
    let h := shapeOf copyOne
    getCore s 0 = k ∧ nth [] k.copyQ 0 = copyOne :: [] ∧ h.ssp = true ∧ h.dsp = true ∧ h.rb % 16 = 0 ∧ 0 < h.rb ∧ h.rb ≤ h.dstr ∧
      copyOne.off % 16 = 0 ∧ copyOne.off < copyTotal h ∧ openOps k = [] ∧ k.spadPoison = [] ∧ copyOne.gone = false ∧
      lockAwaited s 0 3 = false ∧ k.copyQ.length = 4 ∧ copyNext k = some 0 ∧ 0 < gateRoom (getLock s 0 3) (unitLen h copyOne.off) ∧
      ∀ a, Synced s copyOne.view.seen (spadGrains 0) a 1 (spadNow k) :=
  ⟨by decide +kernel, by decide +kernel, by decide +kernel, by decide +kernel, by decide +kernel, by decide +kernel, by decide +kernel,
    by decide +kernel, by decide +kernel, by decide +kernel, by decide +kernel, by decide +kernel, by decide +kernel, by decide +kernel,
    by decide +kernel, by decide +kernel, fun _ => synced_empty rfl _ _ _ _ _⟩
/-- A longer copy that is stalled, and goes on after its unit of 256 bytes. -/
theorem test_meets_copy_retry : let c := { copyOne with w2 := 0x10000040#64, stall := some 1 }
    let h := shapeOf c
    nth [] (coreCopy [c]).copyQ 0 = c :: [] ∧ c.stall.isSome = true ∧ c.retryAt ≤ devOne.mgmt.time ∧ h.rb ≤ h.dstr ∧
      c.off + gateRoom (getLock (devOf teamOne (coreCopy [c])) 0 3) (unitLen h c.off) < copyTotal h ∧
      lockAwaited (devOf teamOne (coreCopy [c])) 0 3 = false ∧ gateShut (coreCopy [c]) c = false := by decide +kernel

/-- A device with two cores of a pair, whose team has the words `l` from k24 on. -/
def devPair (l : List W64) : State := { devK l with cores := [(0, coreOne), (1, coreOne)] }
theorem issuing_pair (l : List W64) : Issuing (devPair l) 1 (teamK l) :=
  issuing_of rfl rfl (quiet_of rfl rfl rfl rfl rfl) ⟨rfl, rfl, rfl, rfl, rfl, rfl, rfl, rfl, by show 16 ≤ 128; decide, rfl, by show 0 < 4; decide⟩
theorem test_meets_mma : let l := [0#64, 0x100000000000#64, 0x400040#64]
    Issuing (devPair l) 1 (teamK l) ∧ matFull (devPair l) 0 0 = false ∧ (getCore (devPair l) 0).matQ.length = 4 ∧
      (teamK l).log = [] ∧ (teamK l).zeros = [] ∧ mmaCause (devPair l) 0 .bf16 false true 0 0x100000000000 0x400040 = none ∧
      bitAt 0 23 = false ∧ matFull (devPair l) 1 0 = false ∧ (getCore (devPair l) 1).matQ.length = 4 :=
  ⟨issuing_pair _, by decide +kernel⟩
/-- A rows in registers: v16 on, in an allotment of 64. -/
theorem test_meets_mma_registers : let t := { teamK [0x900000#64, 0x100000000000#64, 0x400000#64] with allot := 64 }
    let s := devOf t coreOne
    Issuing s 1 t ∧ mmaCause s 0 .bf16 false false 0x900000 0x100000000000 0x400000 = none ∧ bitAt 0x900000 23 = true ∧
      field 0x900000 16 7 + t.flow.x + aRegs t ≤ t.allot :=
  ⟨issuing_of rfl rfl (quiet_of rfl rfl rfl rfl rfl) (by decide +kernel), by decide +kernel⟩
theorem test_meets_macs : let l := [0#64, 0x100000000000#64, 0#64]
    Issuing (devPair l) 1 (teamK l) ∧ (381#9).toNat + 3 ≤ 384 ∧ macsCause (devPair l) 0 .f32 0 0x100000000000 0 = none :=
  ⟨issuing_pair _, by decide +kernel⟩
theorem test_meets_accmv : let l := [0#64, 0#64, 256#64]
    Issuing (devPair l) 1 (teamK l) ∧ mvCause (devPair l) 0 .t2s 0 0 256 = none ∧ mvCause (devPair l) 0 .s2t 0 0 256 = none ∧
      mvCause (devPair l) 0 .t2t 0 0 0 = none ∧ mvCause (devPair l) 0 .zero 0 0 0 = none :=
  ⟨issuing_pair _, by decide +kernel⟩
theorem test_meets_accmv_global : let l := [0#64, 0x10000#64, 0#64]
    let s := devK l
    let d := mvDesc 0 0x10000 0
    let lanes : List LaneAddr := (List.range (mvRows d * mvRowLen d / 256)).map fun i => ⟨i, d.addr + 256 * i⟩
    let st := touchesOf (checkLanes s (teamK l) 256 .store lanes)
    let ld := touchesOf (checkLanes s (teamK l) 256 .load lanes)
    Issuing s 1 (teamK l) ∧ mvCause s 0 .t2g 0 0x10000 0 = none ∧ mvCause s 0 .g2t 0 0x10000 0 = none ∧
      checkLanes s (teamK l) 256 .store lanes = .ok st ∧ checkLanes s (teamK l) 256 .load lanes = .ok ld ∧
      (debitBlocks (begun s) 0 1 st).2 = none ∧ st.length = 64 :=
  ⟨issuing_k _, by decide +kernel⟩
theorem test_meets_attn_fin : Issuing (devPair [0#64]) 1 (teamK [0#64]) ∧
    (∀ x ∈ attnTiles (attnDesc fun _ => 0), x < actTiles (getCore (devPair [0#64]) 0).word) := ⟨issuing_pair _, by decide +kernel⟩


/-! ### Batches, tiles and looms -/

/-- An operation that zeroes tile 0 or moves it to tile 1, and one of batch 2. -/
def opOf (k : MKind) (w0 : W64) (b : Option Nat) : MOp :=
  { kind := k, desc := [w0, 0#64, 0#64], uid := 1, order := 0, batch := b, pc := 0x1000, regsA := [], opRegs := [], spadUse := []
    seen := [], made := [], destTiles := [0], destRows := [], destSpad := [], pages := [], voids := [], held := 0, slave := false
    tainted := false, asks := [], unit := 0, destBlocks := [] }
/-- MWAIT on batch 2 where it is queued, where nothing is, and where an operation of it has failed. -/
theorem test_meets_mwait : let t := { teamK [2#64] with batch := 2 }
    let tf := { t with failed := [⟨some 2, 5, 0, false, 0x63⟩, ⟨some 1, 3, 0, false, 0x63⟩, ⟨none, 1, 0, false, 0x63⟩] }
    let q := { coreOne with matQ := [[opOf .zero 0#64 (some 2)], [], [], []] }
    Issuing (devOf t q) 1 t ∧ (kreg t 24).toNat ≤ t.batch ∧ (getCore (devOf t q) 0).matQ.flatten.any (inBatches 1 2) = true ∧
      Issuing (devOf t coreOne) 1 t ∧ (getCore (devOf t coreOne) 0).matQ.flatten.any (inBatches 1 2) = false ∧
      firstFail (t.failed.filter fun f => match f.batch with | some b => decide (b ≤ 2) | none => false) = none ∧
      Issuing (devOf tf coreOne) 1 tf ∧
      firstFail (tf.failed.filter fun f => match f.batch with | some b => decide (b ≤ 2) | none => false) =
        some ⟨some 1, 3, 0, false, 0x63⟩ ∧ (getCore (devOf tf coreOne) 0).stop = none ∧ tf.ctx ≠ 0 :=
  ⟨issuing_of rfl rfl (quiet_of rfl rfl rfl rfl rfl) (by decide +kernel), by decide, by decide +kernel,
    issuing_of rfl rfl (quiet_of rfl rfl rfl rfl rfl) (by decide +kernel), by decide +kernel, by decide,
    issuing_of rfl rfl (quiet_of rfl rfl rfl rfl rfl) (by decide +kernel), by decide, by decide +kernel, by decide⟩

/-- An operation of unit 1 with its descriptor, and a device whose core 0 has it at the head of that unit, one of unit 2 beside it. -/
def opAt (k : MKind) (desc : List W64) : MOp := { opOf k 0#64 none with desc := desc, unit := 1 }
def devMat (o : MOp) : State :=
  withPages (devOf teamOne { coreOne with matQ := [[], [o], [{ opOf .zero 0x80100#64 none with unit := 2, destTiles := [9] }], []] })
def retiring (s : State) (core part : Nat) (o : MOp) (rest : List MOp) : Bool :=
  decide (nth [] (getCore s core).matQ part = o :: rest) && (getCore s core).matQ.length == 4 && (getCore s core).mflags.length == 4 &&
    decide (part < 4) && (getCore s core).stop.isNone && !o.tainted && (getCore s core).tilePoison.isEmpty &&
    (getCore s core).spadPoison.isEmpty &&
    (openOps (getCore s core)).all fun p => p.unit == o.unit ||
      !(o.destTiles.any p.destTiles.contains) && !(rangesMeet o.destSpad p.spadUse)
theorem retiring_of {s : State} {core part : Nat} {o : MOp} {rest : List MOp} (h : retiring s core part o rest = true) :
    RetiringHead s core part o rest := by
  simp only [retiring, Bool.and_eq_true, decide_eq_true_eq, beq_iff_eq, List.all_eq_true, Bool.or_eq_true, Bool.not_eq_true',
    List.isEmpty_iff, Option.isNone_iff_eq_none] at h
  obtain ⟨⟨⟨⟨⟨⟨⟨⟨h1, h2⟩, h3⟩, h4⟩, h5⟩, h6⟩, h7⟩, h8⟩, h9⟩ := h
  exact ⟨h1, h2, h3, h4, h5, h6, ⟨h7, h8⟩, fun p hp hu => (h9 p hp).resolve_left hu⟩
theorem rows_synced {s : State} (h : s.hist = []) (core : Nat) (seen : List Nat) (a st len n : Nat) :
    RowsSynced s core seen a st len n := fun _ _ => synced_empty h _ _ _ _ _

/-- An operation of every kind whose reads are within a core. -/
theorem test_meets_retire : ∀ e ∈ [(MKind.mma .bf16 false false true, [0#64, 0x100000000000#64, 0x400040#64]),
      (.macs .f32, [0#64, 0x100000000000#64, 0#64]), (.zero, [0x80000#64, 0#64, 0#64]), (.t2t, [0x80100#64, 0#64, 0#64]),
      (.s2t, [0#64, 0#64, 256#64]), (.fin, [0#64])], let o := opAt e.1 e.2
    RetiringHead (devMat o) 0 1 o [] ∧ o.slave = false ∧ o.asks = [] ∧ (devMat o).hist = [] ∧
      ∀ seen a st len n, RowsSynced (devMat o) 0 seen a st len n := by
  intro e he o
  have h : ∀ e ∈ [(MKind.mma .bf16 false false true, [0#64, 0x100000000000#64, 0x400040#64]),
      (.macs .f32, [0#64, 0x100000000000#64, 0#64]), (.zero, [0x80000#64, 0#64, 0#64]), (.t2t, [0x80100#64, 0#64, 0#64]),
      (.s2t, [0#64, 0#64, 256#64]), (.fin, [0#64])], retiring (devMat (opAt e.1 e.2)) 0 1 (opAt e.1 e.2) [] = true := by decide +kernel
  exact ⟨retiring_of (h e he), rfl, rfl, rfl, rows_synced rfl _⟩
/-- An MMA of a pair, and its follower's half. -/
theorem test_meets_retire_pair : let k := MKind.mma .bf16 false true true
    let o := opAt k [0#64, 0x100000000000#64, 0x400040#64]
    let so := { o with slave := true }
    let s := { devMat o with
      cores := [(0, { coreOne with matQ := [[], [o], [], []] }), (1, { coreOne with matQ := [[], [so], [], []] })] }
    RetiringHead s 0 1 o [] ∧ RetiringHead s 1 1 so [] ∧ so.order = o.order ∧ so.desc = o.desc ∧
      (mmaDesc (opWord o 0) (opWord o 1) (opWord o 2)).ar = false ∧ ∀ core seen a st len n, RowsSynced s core seen a st len n :=
  ⟨retiring_of (by decide +kernel), retiring_of (by decide +kernel), rfl, rfl, by decide, fun _ => rows_synced rfl _⟩
/-- A tile written to the scratchpad and to device memory, and read from there. -/
theorem test_meets_retire_moves : let d := mvDesc 0 0 256
    let o := { opAt .t2s [0#64, 0#64, 256#64] with destSpad := spadRows d.addr d.str (mvRowLen d) (mvRows d) }
    let g := opAt .t2g [0#64, 0x10000#64, 0#64]
    let dg := mvDesc 0 0x10000 0
    let key := fun (i : Nat) => 0x100 + i
    RetiringHead (devMat o) 0 1 o [] ∧ mvCause (devMat o) 0 .t2s 0 0 256 = none ∧
      RowsSynced (devMat o) 0 o.made d.addr d.str (mvRowLen d) (mvRows d) ∧
      RetiringHead (devMat g) 0 1 g [] ∧ dg.fmt = 0 ∧ dg.addr % 256 = 0 ∧ mvRows dg * mvRowLen dg / 256 = 64 ∧
      (∀ i < 64, loggedPlace (devMat g) 1 (dg.addr + 256 * i) = some (.dev (256 * key i), 0x1F) ∧
        (metaOf (devMat g) (key i)).poison = false ∧
        ∀ e ∈ (devMat g).cores, (openOps e.2).any (storesTo (some (0, g.unit)) (0, key i) e.1) = false) ∧
      (∀ i, Synced (devMat g) g.made 0 (256 * key i) 256 (memByte (devMat g).mem)) ∧ (getTeam (devMat g) g.uid).ctx = 1 ∧
      ∀ i < 64, ∀ j < 64, key i = key j → i = j := by
  refine ⟨retiring_of (by decide +kernel), by decide +kernel, rows_synced rfl _ _ _ _ _ _, retiring_of (by decide +kernel), rfl, by decide, by decide, by decide +kernel,
    fun _ => synced_empty rfl _ _ _ _ _, by decide +kernel, by intro i _ j _ h; dsimp only at h; omega⟩
theorem engine_reads {s : State} {id va n k : Nat} (hh : s.hist = []) (seen : List Nat) (hk : va + n ≤ va / 32 * 32 + 32 * k)
    (h : ∀ i < k, xlateWalk s id (va / 32 * 32 + 32 * i) .load = .ok (.dev (va / 32 * 32 + 32 * i)) 0x1F ∧
      (metaOf s ((va / 32 * 32 + 32 * i) / 256)).poison = false) : EngineReads s id seen va n fun x => x := by
  intro x h1 h2 h3
  have e : x = va / 32 * 32 + 32 * ((x - va / 32 * 32) / 32) := by omega
  have := h ((x - va / 32 * 32) / 32) (by omega)
  rw [← e] at this
  exact ⟨⟨0x1F, this.1⟩, this.2, synced_empty hh _ _ _ _ _⟩
theorem test_meets_retire_g2t : let g := opAt .g2t [0#64, 0x10000#64, 0#64]
    let d := mvDesc 0 0x10000 0
    RetiringHead (devMat g) 0 1 g [] ∧ EngineReads (devMat g) 1 g.seen d.addr (mvRows d * mvRowLen d) fun x => x :=
  ⟨retiring_of (by decide +kernel), engine_reads (k := 512) rfl _ (by decide) (by decide +kernel)⟩
/-- An ATTN of two positions of one page, and one whose page is absent. -/
theorem test_meets_retire_attn : let l := [0#64, 0x4000000000#64, 0x8100#64, 0x200000000#64, 0x3F800000#64, 8#64]
    let o := { opAt (.attn false) l with pages := [(0, some 0x101000)] }
    let p := { o with pages := [(0, none)] }
    let a := attnDesc (opWord o)
    RetiringHead (devMat o) 0 1 o [] ∧ (o.pages.map (·.1)).Nodup ∧
      RowsSynced (devMat o) 0 o.seen a.qaddr a.qstr (attnRow a) a.nq ∧
      (∀ j, j / 16 = 0 → keyWanted o a false j = true → EngineReads (devMat o) 1 (joinSeen o.seen o.made) (0x101000 + j % 16 * 2 ^ 8)
        (2 * attnRow a) fun x => x) ∧ keyWanted o a false 1 = true ∧
      RetiringHead (devMat p) 0 1 p [] ∧
      (p.pages.filter fun e => e.2.isNone && (rangeFrom (e.1 * 16) 16).any (keyWanted p a false)).length = 1 ∧
      loggedPlace (devMat p) 1 (opWord p 2) = some (.dev 0x8100, 0x1F) ∧ 0x8100 % 64 = 0 ∧
      (metaOf (devMat p) (0x8100 / 256)).poison = false ∧ Unstored (devMat p) (0x8100 / 256) := by
  refine ⟨retiring_of (by decide +kernel), by decide, rows_synced rfl _ _ _ _ _ _, ?_, by decide +kernel, retiring_of (by decide +kernel), by decide +kernel,
    by decide +kernel, by decide, by decide +kernel, by decide +kernel⟩
  intro j hj _
  have h : ∀ j < 16, ∀ i < 4, xlateWalk (devMat { opAt (.attn false) [0#64, 0x4000000000#64, 0x8100#64, 0x200000000#64, 0x3F800000#64, 8#64] with
        pages := [(0, some 0x101000)] }) 1 ((0x101000 + j % 16 * 2 ^ 8) / 32 * 32 + 32 * i) .load =
        .ok (.dev ((0x101000 + j % 16 * 2 ^ 8) / 32 * 32 + 32 * i)) 0x1F ∧
      (metaOf (devMat { opAt (.attn false) [0#64, 0x4000000000#64, 0x8100#64, 0x200000000#64, 0x3F800000#64, 8#64] with
        pages := [(0, some 0x101000)] }) (((0x101000 + j % 16 * 2 ^ 8) / 32 * 32 + 32 * i) / 256)).poison = false := by decide +kernel
  have hr : 2 * attnRow (attnDesc (opWord { opAt (.attn false) [0#64, 0x4000000000#64, 0x8100#64, 0x200000000#64, 0x3F800000#64, 8#64] with
    pages := [(0, some 0x101000)] })) = 128 := by decide
  rw [hr]
  exact engine_reads (k := 4) rfl _ (by omega) (h j (by omega))

/-- 64-bit words in memory. -/
def memOf (l : List (Nat × Nat)) : List Host.Cell := l.foldl (fun m e => memWriteNat m e.1 8 e.2) []
/-- Sequences: a flat one of 64-byte slots at 0x8000, a key-value one at 0x8100 with its pool at 0x8200, a queue at 0x8400 with
one packet, and a flat one of 16-byte slots at 0x8500. -/
def seqMem : List Host.Cell := memOf
  [(0x8000, 1 + 3 * 2 ^ 32), (0x8008, 100 + 6 * 2 ^ 32), (0x8010, 0x9000), (0x8030, 0xA000 + 6 * 2 ^ 56), (0x8038, 0xA800),
   (0x8100, 2 + 2 * 2 ^ 32), (0x8108, 64 + 8 * 2 ^ 32), (0x8110, 0xB000), (0x8128, 2), (0x8130, 0xA100 + 6 * 2 ^ 56),
   (0x8140, 0x8200), (0x8200, 0x100000), (0x8208, 4 + 8 * 2 ^ 32), (0x8210, 0xC000), (0x8218, 0xC100), (0x8220, 1 + 2 ^ 32),
   (0x8228, 0xD000), (0x8230, 0xE000), (0x8238, 8), (0xB000, 1 + 2 ^ 63), (0xC000, 2 ^ 32),
   (0x8400, 1 + 2 ^ 32), (0x8408, 16 + 7 * 2 ^ 32), (0x8410, 0xF000), (0x8428, 1), (0x8430, 0xA200 + 6 * 2 ^ 56), (0x8440, 2 ^ 48),
   (0xF000, 0x1000), (0xF010, 1 + 2 ^ 21 + 0x1041 * 2 ^ 32), (0xF018, 2),
   (0x8508, 16 + 4 * 2 ^ 32), (0x8510, 0xFC00), (0x8530, 0xA300 + 6 * 2 ^ 56)]
def devSeq (l : List W64) : State := { devK l with mem := seqMem }
theorem issuing_seq (l : List W64) : Issuing (devSeq l) 1 (teamK l) :=
  issuing_of rfl rfl (quiet_of rfl rfl rfl rfl rfl) ⟨rfl, rfl, rfl, rfl, rfl, rfl, rfl, rfl, by show 16 ≤ 128; decide, rfl, by show 0 < 4; decide⟩

/-- Whether a transaction is done. -/
def isDone : TxOut → Bool
  | .done _ => true
  | .fault _ _ _ => false
theorem done_of {x : TxOut} (h : isDone x = true) : ∃ s, x = .done s := by
  cases x with
  | done s => exact ⟨s, rfl⟩
  | fault _ _ _ => cases h

/-- The operand words of the forms: a count, a slot, a range, a fork, tokens, a key-value descriptor, and the handles. -/
def loomWords : List W64 :=
  [2#64, 0#64, 1#64, 0#64, 0x100000001#64, 0#64, 0x8800#64, 0xBC00#64, 0x060000000000A400#64,
   0#64, 2#64, 0#64, 0x4000#64, 16#64, 0#64, 0#64, 0x100#64, 0x1461C4000#64, 0#64, 0x8000#64, 0x8100#64, 0x8400#64, 0xF000#64]
def loomFits (s : State) (t : Team) (c : Instr) : Bool :=
  match loomReq t c with
  | none => false
  | some q =>
    let sb := atLoom s q.bound
    decide (loomLastReg c ≤ 383) && s.peers.isEmpty && t.log.isEmpty && t.zeros.isEmpty && decide (PagesKnown sb t q.handle (q.act (txStart sb (.ctx t.ctx) false)).tx.pages) && isDone (txFinish (q.act (txStart sb (.ctx t.ctx) false)).tx (loomDie sb (.ctx t.ctx) q.handle)
      (.core t.core)) &&
    (match ropeWrites t c with
    | some e => decide (e.1 + e.2.length ≤ spgBytes (getCore s t.core).word) && (openOps (getCore s t.core)).isEmpty &&
      (getCore s t.core).spadPoison.isEmpty
    | none => true)

theorem test_meets_loom : ∀ c ∈ [Instr.seqReserve 24#9 43#9, .seqAddr 26#9 43#9, .seqCommit 28#9 43#9, .seqVoid 28#9 43#9,
    .seqFork 30#9 44#9, .seqLen 25#9 43#9, .ptreeLookup 36#9 44#9, .ptreeInsert 36#9 44#9, .ptreeUnref 39#9 44#9,
    .kvtPage 39#9 44#9, .kvtRope 39#9 44#9, .kvtBoth 39#9 44#9], loomFits (devSeq loomWords) (teamK loomWords) c = true := by
  decide +kernel
theorem test_meets_loom_knows : Issuing (devSeq loomWords) 1 (teamK loomWords) ∧
    ∀ a n, SpadSynced (devSeq loomWords) (melded (teamK loomWords)) a n := ⟨issuing_seq _, fun _ _ => synced_empty rfl _ _ _ _ _⟩

theorem test_meets_launch : let s := devSeq loomWords
    let r := loomLaunch (txStart (atBoundary s) (.ctx 1) false) 1 0x8400 0xF000
    (kreg (teamK loomWords) 45).toNat = 0x8400 ∧ (kreg (teamK loomWords) 46).toNat = 0xF000 ∧ 0xF000 % 128 = 0 ∧
      r.notQueue = false ∧ r.forbid = none ∧ r.poison = none ∧
      PagesKnown (atBoundary s) (teamK loomWords) 0x8400 r.out.tx.pages ∧ isDone (txFinish r.out.tx (loomDie (atBoundary s) (.ctx 1) 0x8400) (.core 0)) = true := by decide +kernel

/-- A flat sequence with RL 3: slots 2 and 3, a reservation of 2, and one past its window of 64. -/
theorem test_meets_flat : let s := devSeq loomWords
    let hd := hdrOf 0x8000 (wordsOf (memBytes s.mem 0x8000 64) ++ [0])
    0x8000 % 64 = 0 ∧ xlateWalk s 1 0x8000 .load = .ok (.dev 0x8000) 0x1F ∧ (metaOf s (0x8000 / 256)).poison = false ∧
      bitAt (nth 0 (wordsOf (memBytes s.mem 0x8000 64)) 5) 1 = false ∧ hd.ok = true ∧ hd.ring = 0 ∧ memNat s.mem 0x8004 4 = 3 ∧
      reserveStatus hd 2 = none ∧ reserveStatus hd 62 = none ∧ reserveStatus hd 63 = some 3 ∧ reserveStatus hd 98 = some 1 ∧
      xlateWalk s 1 0x8000 .store = .ok (.dev 0x8000) 0x1F ∧
      xlateWalk (bring (atBoundary s) (loomDie s (.ctx 1) 0x8000) 1 0x8000) 1 0x8000 .store = .ok (.dev 0x8000) 0x1F ∧
      (debit8 (atBoundary s) (.core 0) 1).2 = true ∧ PagesKnown s (teamK loomWords) 0x8000 [pageKey s 1 0x8000] ∧
      Unstored s (0x8000 / 256) := by decide +kernel
/-- A ring of 16 slots with TAIL 2, whose CL is 3 and RL 5. -/
theorem test_meets_ring : let hd := hdrOf 0x8000 [3 + 5 * 2 ^ 32, 100 + 6 * 2 ^ 32 + 4 * 2 ^ 40, 0x9000, 2, 0, 0, 0xA000 + 6 * 2 ^ 56, 0xA800, 0]
    hd.ok = true ∧ hd.ring ≠ 0 ∧ 1 < hd.tail ∧ hd.tail ≤ 4 ∧ 4 < hd.rl ∧ hd.tail ≤ hd.cl ∧ reserveStatus hd 13 = none ∧
      reserveStatus hd 14 = some 9 := by decide

/-- cl register 5 bound with CL 7; the waits of 7 and of 8 on it. -/
theorem test_meets_watch : let s := devSeq loomWords
    let r := loomWatch (txStart (atBoundary s) (.ctx 1) false) 0x8000 0 2
    isDone (txFinish r.tx (loomDie (atBoundary s) (.ctx 1) 0x8000) (.core 0)) = true ∧ r.res < 2 ^ 63 ∧
      PagesKnown (atBoundary s) (teamK loomWords) 0x8000 r.tx.pages ∧
      (kreg (teamK loomWords) 43).toNat = 0x8000 ∧ (kreg (teamK loomWords) 24).toNat < 16 ∧
      (kreg (teamK loomWords) 25).toNat = 0 := by decide +kernel
theorem test_meets_seq_wait (v : Nat) (h : v = 7 ∨ v = 8) : let w : W64 := BitVec.ofNat 64 (v + 5 * 2 ^ 32)
    let s := devOf (teamK [w]) { coreOne with cl := [(5, ⟨7#64, some 0x8000⟩)] }
    let r := tabGet ClReg.reset (getCore s 0).cl (field (kreg (teamK [w]) 24).toNat 32 4)
    Issuing s 1 (teamK [w]) ∧ (teamK [w]).log = [] ∧ (teamK [w]).zeros = [] ∧ (kreg (teamK [w]) 24).toNat < 2 ^ 36 ∧ r.bound.isSome = true ∧
      (v = 7 ↔ field (kreg (teamK [w]) 24).toNat 0 32 ≤ field r.val.toNat 0 32) ∧ (teamK [w]).woken = false := by
  rcases h with rfl | rfl <;>
    exact ⟨issuing_of rfl rfl (quiet_of rfl rfl rfl rfl rfl) (by decide +kernel), by decide +kernel⟩

theorem test_meets_trace : let t := { teamOne with trace := { TraceState.reset with staged := [1#8], count := 1 } }
    Issuing (devOf t coreOne) 1 t ∧ t.trace.staged ≠ [] ∧ (getCore (devOf t coreOne) t.core).tbind = 0 ∧
      Issuing devOne 1 teamOne ∧ teamOne.trace.staged = [] :=
  ⟨issuing_dev _ _ (by decide) (by decide) (by decide), by decide, by decide, issuing_one, rfl⟩
/-- A sequence of 256-byte slots for trace records. -/
theorem test_meets_trace_bind : let m := memOf [(0x8008, 16 + 8 * 2 ^ 32), (0x8010, 0x9000), (0x8030, 0xA000 + 6 * 2 ^ 56)]
    let x := txHdr (txStart (begun { devK [0x8000#64] with mem := m }) (.ctx 1) false) 0x8000
    x.1.replay = none ∧ x.1.hard = none ∧ x.1.bad58 = false ∧ x.2.kv = false ∧ x.2.slg = 8 ∧ x.2.released = false ∧
      PagesKnown (begun { devK [0x8000#64] with mem := m }) (teamK [0x8000#64]) 0x8000 x.1.pages := by decide +kernel
theorem test_meets_sync_due : let t := { teamOne with trace := { TraceState.reset with on := true } }
    let s := { devOf t coreOne with mgmt := { devOne.mgmt with time := 2560 } }
    find? s.teams 1 = some t ∧ t.trace.on = true ∧ t.bounds = false ∧ t.trace.lastSync + 2560 ≤ s.mgmt.time := by decide

/-! ### The values of the loom -/

/-- A loom operation in table space over the words of `seqMem` with some of them changed, and what it finds there. -/
def loomT (l : List (Nat × Nat)) : Txn :=
  txStart { devOne with tspace := l.foldl (fun m e => memWriteNat m e.1 8 e.2) seqMem } .table false
def loomM (l : List (Nat × Nat)) : Nat → Byte := txByte (loomT l)
def loomHd (l : List (Nat × Nat)) (h : Nat) : Hdr := hdrIn (loomM l) h
def apartB (l : List (Nat × Nat)) : Bool := decide (l.Pairwise fun a b => a.1 + a.2 ≤ b.1 ∨ b.1 + b.2 ≤ a.1)
/-- What the sequences of `seqMem` and their pool need of memory. -/
def landsB (l : List (Nat × Nat)) (h n : Nat) (more : List (Nat × Nat)) : Bool :=
  apartB (more ++ (lineLands n (lineIn (loomM l) 4 (loomHd l h)) ++ poolLands (poolIn (loomM l) (loomHd l h).pool) (loomHd l h)))

/-- COMMIT and VOID of slots 1 and 2 of the flat sequence. -/
theorem test_meets_loom_close : let hd := loomHd [] 0x8000
    txOk (loomClose (loomT []) false 0x8000 1 2).tx = true ∧ txOk (loomClose (loomT []) true 0x8000 1 2).tx = true ∧
      hd.rl ≤ hd.cl + 2 ^ hd.wlg ∧ hd.ring = 0 ∧ apartB [(0x8000, 64), (hd.fbm, 2 ^ hd.wlg / 8), (hd.vmap, (hd.rl + 7) / 8)] = true := by
  decide +kernel
/-- A key-value sequence of two slots: addresses, and a reservation that takes a new page. -/
theorem test_meets_loom_reserve : let m := loomM []
    let hd := loomHd [] 0x8100
    let p := poolIn m hd.pool
    hd.kv = true ∧ txOk (loomAddr (loomT []) 0x8100 1).tx = true ∧ txOk (loomKvtPage (loomT []) 0x8100 1).tx = true ∧ 1 < hd.rl ∧
      (entryIn m 4 hd 0 true).isSome = true ∧ entryIn m 4 hd 1 true = none ∧ txOk (loomReserve (loomT []) 0x8100 20).tx = true ∧
      reserveStatus hd 20 = none ∧ slotsOf hd = 16 ∧ p.ptop = 1 ∧ landsB [] 0x8100 2 [] = true ∧
      (heldIn m hd 2 = [(1 + 2 ^ 63, true)] ∧ pidx (1 + 2 ^ 63) < p.npage ∧ eNode (1 + 2 ^ 63) < p.nnode) ∧
      natIn m p.pfree 4 = 0 ∧ eW (1 + 2 ^ 63) = false ∧ natIn m (p.pcnt + 4) 4 = 1 := by decide +kernel
/-- The same where the page is shared, which the reservation copies. -/
theorem test_meets_loom_copy : let l := [(0xC000, 2 * 2 ^ 32)]
    let m := loomM l
    let hd := loomHd l 0x8100
    let p := poolIn m hd.pool
    txOk (loomReserve (loomT l) 0x8100 1).tx = true ∧ heldIn m hd 1 = [(1 + 2 ^ 63, true)] ∧ natIn m (p.pcnt + 4) 4 = 2 ∧
      [(1 + 2 ^ 63, true)].countP (fun (x : Nat × Bool) => pidx x.1 == 1) ≤ natIn m (p.pcnt + 4) 4 ∧
      (∀ c < 8, 0 < c → [(1 + 2 ^ 63, true)].countP (fun (x : Nat × Bool) => x.2 && eNode x.1 == c) ≤ natIn m (p.nbase + 128 * c + 12) 4) ∧
      landsB l 0x8100 1 [] = true := by decide +kernel
/-- FORK of two slots, which share; and of a sequence of depth 3, which flattens. -/
theorem test_meets_loom_fork : let w := fun (i : Nat) => nth 0 [0x8800, 0xBC00, 0x060000000000A400, 0, 2] i
    let deep := [(0x8120, 3 * 2 ^ 32)]
    forkDescOk w = true ∧ txOk (loomFork (loomT []) 0x8100 w).tx = true ∧ (loomHd [] 0x8100).depth < 3 ∧ (loomHd [] 0x8100).released = false ∧
      w 4 ≤ (loomHd [] 0x8100).cl ∧ (heldIn (loomM []) (loomHd [] 0x8100) 1).length = 1 ∧
      landsB [] 0x8100 1 [(w 0, 72), (w 1, 8)] = true ∧
      txOk (loomFork (loomT deep) 0x8100 w).tx = true ∧ (loomHd deep 0x8100).depth = 3 := by decide +kernel
/-- A fresh sequence that a lookup has not touched, one that holds what a lookup installed, and one that is not fresh. -/
def freshMem : List (Nat × Nat) :=
  [(0x8708, 64 + 8 * 2 ^ 32), (0x8710, 0xB800), (0x8728, 2), (0x8730, 0xA500 + 6 * 2 ^ 56), (0x8740, 0x8200)]
def lookedMem : List (Nat × Nat) :=
  [(0x8700, 16 + 16 * 2 ^ 32), (0x8708, 64 + 8 * 2 ^ 32), (0x8710, 0xB800), (0x8728, 2 + 16), (0x8730, 0xA500 + 6 * 2 ^ 56),
   (0x8740, 0x8200), (0xB800, 2 + 3 * 2 ^ 32 + 2 ^ 63), (0xC008, 2), (0xD188, 2 * 2 ^ 32)]
theorem test_meets_loom_lookup : (∀ l ∈ [(freshMem, 0), (lookedMem, 1)], let hd := loomHd l.1 0x8700
    let m := loomM l.1
    let p := poolIn m hd.pool
    let old := (List.range l.2).map fun i => natIn m (hd.pt + 8 * i) 8
    txOk (loomLookup (loomT l.1) 0x8700 0x10000 20).tx = true ∧ hd.parent = 0 ∧ hd.cl = hd.rl ∧ hd.cl = l.2 * slotsOf hd ∧
      (l.2 ≠ 0 → hd.lkup = true) ∧ l.2 ≤ ceilDiv hd.cap (slotsOf hd) ∧
      (∀ i < l.2, (natIn m (hd.pt + 8 * i) 8).testBit 63 = true ∧ eNode (natIn m (hd.pt + 8 * i) 8) ≠ 0) ∧
      (∀ i < 4, l.2 ≤ i → (natIn m (hd.pt + 8 * i) 8).testBit 63 = false) ∧ ceilDiv hd.cap (slotsOf hd) = 4 ∧
      apartB ((0x10000, 80) :: (lineLands 4 [hd] ++ poolLands p hd)) = true ∧
      (∀ e ∈ old, pidx e < p.npage ∧ eNode e < p.nnode ∧ l.2 < natIn m (p.pcnt + 4 * pidx e) 4 ∧
        l.2 ≤ natIn m (p.nbase + 128 * eNode e + 12) 4)) ∧
    txOk (loomLookup (loomT []) 0x8100 0x10000 20).tx = true ∧ (loomHd [] 0x8100).cl % slotsOf (loomHd [] 0x8100) ≠ 0 := by
  decide +kernel
theorem test_meets_loom_tree : let m := loomM freshMem
    let p := poolIn m 0x8200
    ∀ c < p.nnode, natIn m (p.nbase + 128 * c + 20) 4 < p.nnode ∧ natIn m (p.nbase + 128 * c + 24) 4 < p.nnode ∧
      natIn m (p.nbase + 128 * c + 8) 4 < p.npage := by decide +kernel
/-- INSERT, and its step over a page for which a node is free. -/
theorem test_meets_loom_insert : let m := loomM []
    let hd := loomHd [] 0x8100
    let p := poolIn m hd.pool
    let g : Inserting := ⟨loomT [], 0, 0, false⟩
    txOk (loomInsert (loomT []) 0x8100 0x10000).tx = true ∧ hd.pt % 8 = 0 ∧ hd.tpg ≤ 4 ∧ p.npage ≤ 2 ^ 31 ∧ p.nnode ≤ 2 ^ 30 ∧
      txOk (insertWalk hd p 0x10000 1 0 g).tx = true ∧ nextIn m hd p 0x10000 g.node 0 = 0 ∧ natIn m (p.at_ + 36) 4 = 1 ∧
      txOk (insertNode hd p g 0 1 1 (List.replicate 64 0#8)).tx = true ∧ landsB [] 0x8100 4 [] = true ∧ 1 < p.nnode ∧ g.node < p.nnode ∧
      1 ≠ g.node ∧ 1 < p.npage ∧ (List.replicate 64 0#8).length = 4 * slotsOf hd := by decide +kernel
/-- UNREF of a sequence alone, of one that others still share, a second one, and of the last child of a DRAINING parent. -/
def drainMem : List (Nat × Nat) :=
  [(0x8120, 2 ^ 40), (0x8128, 2 + 4), (0xC000, 2 * 2 ^ 32), (0x8880, 2 + 2 * 2 ^ 32), (0x8888, 64 + 8 * 2 ^ 32), (0x8890, 0xBA00),
   (0x8898, 0x8100), (0x88A0, 2 + 2 ^ 32), (0x88A8, 2), (0x88B0, 0xA600 + 6 * 2 ^ 56), (0x88C0, 0x8200)]
theorem test_meets_loom_unref : (∀ e ∈ [(([] : List (Nat × Nat)), 0x8100, 1), (drainMem, 0x8880, 2)], let m := loomM e.1
    let hd := loomHd e.1 e.2.1
    let p := poolIn m hd.pool
    txOk (loomUnref (loomT e.1) e.2.1).tx = true ∧ hd.released = false ∧ hd.prc = 0 ∧ (dropsIn m 5 hd).length = e.2.2 ∧
      (∀ q ∈ lineIn m 9 hd, ceilDiv (max q.rl q.flen) (slotsOf q) ≤ 1 ∧ q.tpg = hd.tpg ∧ q.kv = true) ∧
      apartB (lineLands 1 (lineIn m 9 hd) ++ poolLands p hd) = true ∧
      (∀ q ∈ dropsIn m 5 hd, (heldIn m q 1).map (·.1) = [1 + 2 ^ 63]) ∧ natIn m (p.pcnt + 4) 4 = e.2.2 ∧ p.ptop + 1 ≤ p.npage) ∧
    (loomHd [(0x8128, 2 + 4)] 0x8100).released = true ∧ txOk (loomUnref (loomT [(0x8128, 2 + 4)]) 0x8100).tx = true ∧
    (loomHd [(0x8120, 2 ^ 40)] 0x8100).prc ≠ 0 ∧ txOk (loomUnref (loomT [(0x8120, 2 ^ 40)]) 0x8100).tx = true := by decide +kernel
theorem test_meets_rope : let d := kvtDesc fun i => nth 0 [2 * 2 ^ 32, 0x100, 0x1461C4000] i
    1 ≤ d.h ∧ fvFin (fval fmtF32 d.theta) = true ∧ fvFin (fval fmtF32 (ropeFreq 0x3F800000 1 0)) = true := by decide +kernel

/-! ### Walks, queues and placing -/

/-- Batches of which none, and of which the second has been passed over 64 times. -/
theorem test_meets_batches : let bs : List Batch := [⟨1, 1, [3, 4], 63, false⟩, ⟨2, 1, [5, 6, 7], 64, false⟩, ⟨3, 1, [9], 0, false⟩]
    let w : Walker := ⟨[], bs, []⟩
    w.busy.length < 32 ∧ w.batches ≠ [] ∧ (∀ b ∈ w.batches, b.starting = false) ∧ (∃ c ∈ w.batches, 64 ≤ c.passed) ∧
      (∀ c ∈ (bs.eraseIdx 1), c.passed < 64) := by decide
/-- A walk that finds a leaf and one that finds none. -/
theorem test_meets_walk_done : let t := { teamOne with status := .waiting .walk }
    let s := { withPages (devOf t coreOne) with walkers := [⟨[], [], [⟨1, 1, 0⟩, ⟨1, 1, 0x40⟩]⟩, Walker.reset] }
    let w := nth Walker.reset s.walkers 0
    s.walkers.length = 2 ∧ w.busy[0]? = some ⟨1, 1, 0⟩ ∧ w.busy[1]? = some ⟨1, 1, 0x40⟩ ∧ find? s.teams 1 = some t ∧
      dieOf t.core = 0 ∧ w.batches = [] ∧ walk s 1 0 = some ⟨0x1F, 131072, 0, 2 ^ 21⟩ ∧ walk s 1 (0x40 * 65536) = none := by
  decide +kernel
theorem test_meets_old_run : let s := { State.reset with oldRuns := [(2 ^ 31 + 64, 4)] }
    s.oldRuns[0]? = some (2 ^ 31 + 64, 4) ∧ (2 ^ 31 + 64) / 2 ^ 31 < s.stks.length := by decide +kernel

/-- The queue at 0x8400 of context 1 with its packet, on a device whose core 0 has room. -/
def devQueue : State := { devSeq [] with queues := [⟨1, 0x8400, 0, false, [], none, false⟩], teams := [] }
theorem test_meets_arbiter : let s1 := allQueueWrites (devQueue.queues.foldl readQueue devQueue)
    let c := (candsOf s1).headD ⟨0, 0, 0, 0, 0, []⟩
    let k0 := packetKernel s1 c []
    let s2 := packetReads s1 k0.ctx (nth 0 c.ws 4) k0.hoff k0.bounds
    let s3 := s2.cores.foldl mapSpare s2
    devQueue.mgmt.pstate = 0 ∧ sortKey candKey (candsOf s1) = c :: [] ∧ packetStatus s2 c = none ∧
      hasRoom s3 (packetKernel s2 c []) = true ∧ (packetGroups s3 c).isSome = true := by decide +kernel
/-- Held writes of two queues, one in table space and one in context 1; a page with W and without debit, and one that POOL must pay for. -/
theorem test_meets_queue_write : let q : QueueSt := ⟨0, 0x8400, 5, true, [(5, true, 0)], none, false⟩
    let r : QueueSt := ⟨1, 0x8400, 5, true, [(5, true, 0)], none, false⟩
    let s := { devQueue with queues := [r, q], metas := [(0x84, ⟨8, 7 * 2 ^ 31, 7, false, false, false⟩)] }
    let poor := { s with ctxs := [(1, { Ctx.reset with st := .active, z := 8 })] }
    s.queues.find? (fun q => q.ctx == 0 && q.handle == 0x8400) = some q ∧ q.heldWrites = [(5, true, 0)] ∧
      s.queues.find? (fun q => q.ctx == 2 && q.handle == 0x8400) = none ∧ s.mgmt.remap = 0 ∧
      xlateWalk s 1 (0x8400 + 64) .rmw = .ok (.dev 0x8440) 0x1F ∧ (0x8440 : Nat) % 256 = (0x8400 + 64) % 256 ∧ (0x8400 : Nat) % 64 = 0 ∧
      (metaOf s (0x8440 / 256)).poison = false ∧ Unstored s (0x8440 / 256) ∧ (queueWrite s 1 0x8400 (5, true, 0)).isSome = true ∧
      leafDebits 0x1F = true ∧ (debit8 poor .pool 1).2 = false := by decide +kernel
/-- A queue that cannot be read, and one that can be read again. -/
theorem test_meets_queue_retry : let q : QueueSt := ⟨1, 0x400000, 0, false, [], some 1, false⟩
    let r : QueueSt := ⟨1, 0x8400, 0, false, [], some 0x63, true⟩
    let s := { devQueue with queues := [q, r] }
    let s0 := fun (x : QueueSt) => setQueue (queueReads s x) x.ctx x.handle fun x => { x with again := false }
    (lookQueue (s0 q) q).2 = .unread 1 0x400000 ∧ q.failed = some 1 ∧ r.failed = some 0x63 ∧ r.again = true ∧
      s.queues.find? (fun q => q.ctx == 1 && q.handle == 0x400000) = some q ∧
      s.queues.find? (fun q => q.ctx == 1 && q.handle == 0x8400) = some r ∧
      (match (lookQueue (s0 r) r).2 with | .unread _ _ => false | _ => true) = true := by decide +kernel

/-- A kernel that places its first and its last launch team. -/
theorem test_meets_team_place : let k := { kernelOne with st := .dispatching, nextLaunch := 7 }
    let s := { devQueue with kernels := [k] }
    s.mgmt.pstate = 0 ∧ k.groups = [] ∧ k.bounds = false ∧ k.nextLaunch < k.teams ∧ (getCtx s k.ctx).st = .active ∧
      savedFor s 159 3 = [] ∧ (getCore s 159).deque = [] ∧ admits s 159 3 (kernelShape k false) = true ∧
      k.nextLaunch + 1 = k.teams ∧ k.st = .dispatching := by decide +kernel

/-- Kernels of classes 2 and 0 whose teams fill a core, on a device with one core. -/
def wide (kid cls next : Nat) (st : KernelSt) : Kernel :=
  { kernelOne with kid := kid, cls := cls, lanes := 512, nextLaunch := next, st := st }
def teamWide (st : TeamStatus) : Team := { teamOne with lanes := 512, status := st }
def devFull (st : TeamStatus) (dq : List Task) : State :=
  { devOf (teamWide st) { coreOne with deque := dq } with
    kernels := [wide 1 2 8 .running, wide 2 0 0 .dispatching]
    cores := (0, { coreOne with deque := dq }) :: (rangeFrom 1 159).map fun i => (i, { Core.reset with offline := true }) }
theorem test_meets_preempt : let s := devFull .ready []
    find? s.teams 1 = some (teamWide .ready) ∧ (placing s true).findSome? (preemptVictims s 0) = some [1] ∧
      dedupNat (([1].map (withClosure s)).flatten) = [1] ∧ freeToLeave s 1 = true ∧ canSave (teamWide .ready) = true ∧
      saveHeld (teamWide .ready).core [1] s = false ∧ (teamWide .ready).uid = 1 ∧ (teamWide .ready).pend = [] ∧
      (teamWide .ready).log = [] ∧ (teamWide .ready).zeros = [] ∧ (teamWide .ready).debited = [] ∧
      (teamWide .ready).trace.staged = [] := by decide +kernel
def taskOne : Task := ⟨1, 1, 0x2000, [], 9, 5, 0, false, 0, ⟨[], 0⟩⟩
theorem test_meets_evict : let s := devFull (.waiting (.join 3)) [taskOne]
    (getCore s 0).deque = taskOne :: [] ∧ (getCore s 0).stop = none ∧ (getCore s 0).offline = false ∧ mayTake s 0 taskOne = false ∧
      (∀ y ∈ roomTeams s 0, y.saved = false) ∧ evictee s 0 taskOne = some (teamWide (.waiting (.join 3))) ∧
      canSave (teamWide (.waiting (.join 3))) = true ∧ saveHeld 0 [1] s = false := by decide +kernel
theorem test_meets_steal : let s := { devOf teamOne { coreOne with deque := [taskOne] } with kernels := [kernelOne] }
    s.mgmt.pstate = 0 ∧ mayStealNow s 1 = true ∧
      stealFrom s 1 (ringOf 1) = some (0, taskOne) ∧ kernelOf s taskOne.kid = some kernelOne ∧ kernelOne.kid = taskOne.kid := by
  decide +kernel

/-- A team at its end: with nothing left to do, with a fill that stalled, and with a tile to hand off. -/
def teamEnding : Team := { teamOne with status := .ending, bounds := true, tiles := [(0, ⟨0, 0, 0⟩)] }
def kernelBounds : Kernel := { kernelOne with bounds := true, tr := 8, tc := 8, hoff := 0x8500 }
theorem test_meets_team_end : let s := { devOf teamEnding coreOne with kernels := [kernelOne] }
    find? s.teams 1 = some teamEnding ∧ teamEnding.uid = 1 ∧ mayEnd s 1 = true ∧ teamEnding.failed = [] ∧
      teamEnding.fillStall = none ∧ teamEnding.fills = [] ∧ teamEnding.fates = [] ∧ (doFills s 1).2 = true ∧
      (getTeam (doFills s 1).1 1).fates = [] ∧
      fillSent (doFills s 1).1 (getTeam (doFills s 1).1 1) = false ∧ kernelOf (doFills s 1).1 1 = some kernelOne ∧
      kernelOne.teams ≤ nextLaunch kernelOne ∧ fillSent s teamEnding = false := by decide +kernel
/-- A team of a task whose JOIN counts on lock 3 of its parent's core. -/
theorem test_meets_team_end_join : let t := { teamEnding with kind := .forked, jv := true, jl := 3 }
    let s := { devOf t { coreOne with locks := [(3, { lockPlain with joinc := 1 })] } with kernels := [kernelOne] }
    find? s.teams 1 = some t ∧ mayEnd s 1 = true ∧ (doFills s 1).2 = true ∧ (getTeam (doFills s 1).1 1).jv = true ∧
      (getCore (doFills s 1).1 0).ctx = t.ctx ∧ (getLock (doFills s 1).1 0 3).joinc = 1 := by decide +kernel
theorem test_meets_fill_retry : let t := { teamEnding with fillStall := some 0x20, fills := [⟨0, 0x200000, 32, 4, 4, 7⟩] }
    let s := { withPages (devOf t coreOne) with kernels := [kernelBounds] }
    find? s.teams 1 = some t ∧ mayEnd s 1 = true ∧ t.failed = [] ∧ t.fillStall.isSome = true ∧ t.fills ≠ [] ∧
      (doFills s 1).2 = true ∧ (getTeam (doFills s 1).1 1).fates = [] ∧
      fillSent (doFills s 1).1 (getTeam (doFills s 1).1 1) = false := by decide +kernel
def isOk : Appended → Bool
  | .ok _ _ => true
  | _ => false
theorem test_meets_handoff : let t := { teamEnding with fates := [(0, .handoff 1)] }
    let s := { devSeq [] with teams := [(1, t)], kernels := [kernelBounds] }
    find? s.teams 1 = some t ∧ mayEnd s 1 = true ∧ t.fills = [] ∧ fillSent s t = false ∧ sortFates t.fates = (0, .handoff 1) :: [] ∧ 1 < s.nextUid ∧
      kernelOf s t.kid = some kernelBounds ∧
      isOk (handoffTry s t kernelBounds.hoff (handoffBytes (tileBox kernelBounds (tileOf t 0)) (tileOf t 0) 1)) = true := by
  decide +kernel

/-- A record that waits for its context, whose fault queue is the flat sequence at 0x8000. -/
theorem test_meets_append_retry : let r := blankRec devOne 0x22 1
    let c := { Ctx.reset with st := .active, z := 8, pool := 1000, fq := 0x8000, pend := [r], due := true }
    let s := { devSeq [] with ctxs := [(1, c)] }
    (getCtx s 1).st ≠ .free ∧ (∀ e ∈ s.cpls, e.ctx ≠ 1) ∧ (getCtx s 1).due = true ∧ (getCtx s 1).pend = [r] ∧ r.uid = none ∧
      (match appendSlot s (.ctx 1) .pool (getCtx s 1).fq 6 (recBytes { r with lost := (getCtx s 1).lost }) with
      | some (s1, slot) => decide ((getCtx s1 1).pend = [r]) && slot == 3
      | none => false) = true := by decide +kernel

/-! ### Interval mode -/

/-- A team of a bounds pass: v1 a point, v5 an i32 interval, v6 an n32 one, v8 a W pair with a tag, and p2 undecided. -/
def teamIv : Team :=
  { teamK [0x8000#64] with
    bounds := true
    iv := (List.range 32).flatMap fun i => [(128 * i + 5, .iv .I (-3) 9 false (some ⟨4, 8, 16⟩)), (128 * i + 6, .iv .N 3 9 false none),
      (128 * i + 8, .iv .W 0 64 false (some ⟨4, 0, 32⟩)), (128 * i + 9, .upper)]
    pm := (List.range 32).map fun i => (8 * i + 2, true) }
/-- Its device: the summaries of its kernel lie at 0x4000. -/
def devIv (t : Team) : State :=
  { withPages (devOf t coreOne) with kernels := [{ kernelOne with bounds := true, tr := 8, tc := 8, summ := 0x4000 }] }
theorem issuing_iv : IssuingIn true (devIv teamIv) 1 teamIv :=
  issuing_of rfl rfl (quiet_of rfl rfl rfl rfl rfl) (by decide +kernel)

theorem test_meets_interval : IssuingIn true (devIv teamIv) 1 teamIv ∧ lanesOf teamIv ≠ [] ∧ Fits teamIv [v1 1#7, v1 5#7, v1 15#7] ∧
    ReadsAs true teamIv 4 1 4 4 (some ⟨0, 0, 4⟩) ∧ ReadsAs true teamIv 4 5 (-3) 9 (some ⟨4, 8, 16⟩) ∧
    ReadsAs false teamIv 4 6 3 9 none ∧ ivreg teamIv 4 5 ≠ .upper ∧ (∀ l h n g, ivreg teamIv 4 5 ≠ .iv .W l h n g) ∧
    triP teamIv 4 2 = .m ∧ triP teamIv 4 1 = .f ∧ triP teamIv 0 1 = .t ∧ isPoint teamIv 4 1 = true ∧ isPoint teamIv 4 2 = true ∧
    vreg teamIv 4 1 ≠ vreg teamIv 4 2 ∧ teamIv.unsure = [] ∧ NoLoops teamIv ∧ tabSorted teamIv.flow.lanes = true ∧
    teamIv.flow.uni = false ∧ (∀ i ∈ lanesOf teamIv, triP teamIv i 1 ≠ .m) ∧ (getCore (devIv teamIv) 0).stop = none ∧
    teamIv.ctx ≠ 0 ∧ (getCore (devIv teamIv) teamIv.core).stop = none := by
  have h1 : ivreg teamIv 4 1 = .point := by decide +kernel
  have h5 : ivreg teamIv 4 5 = .iv .I (-3) 9 false (some ⟨4, 8, 16⟩) := by decide +kernel
  have h6 : ivreg teamIv 4 6 = .iv .N 3 9 false none := by decide +kernel
  refine ⟨issuing_iv, by decide +kernel, by unfold Fits; decide +kernel, by simp only [ReadsAs, h1]; decide +kernel,
    by simp [ReadsAs, h5], by simp [ReadsAs, h6], by decide +kernel, ?_, by decide +kernel, by decide +kernel, by decide +kernel, by decide +kernel, by decide +kernel, by decide +kernel, rfl, by unfold NoLoops; decide +kernel, rfl, rfl, by decide +kernel,
    rfl, by decide, rfl⟩
  intro l h n g e
  rw [h5] at e
  cases e
/-- LD, LDS and LDT of a bounds pass, and LDB outside and inside the summaries. -/
theorem test_meets_interval_loads : let t := teamIv
    let s := devIv t
    Fits t (offUse true 4#7 24#7 ++ [dataUse .b32 5#7]) ∧ Fits t (offUse false 4#7 24#7 ++ [ldtUse .b32 8#7]) ∧
      (dispOf .none % 1024 = 0 ∧ 0 ≤ dispOf .none ∧ dispOf .none ≤ 7168) ∧ (dispOf (.one 4#22) % 1024 ≠ 0) ∧
      (∃ k, kernelOf s t.kid = some k ∧ k.summ = 0x4000 ∧ ∀ i ∈ lanesOf t, (tileOf t i).depth = 0 ∧ (tileOf t i).g = 0) ∧
      pagesUnknown s (dieOf t.core) t ((lanesOf t).map fun _ => pageKey s t.ctx 0x4000) = [] ∧
      xlateWalk s t.ctx 0x4000 .load = .ok (.dev 0x4000) 0x1F ∧ (metaOf s (0x4000 / 256)).poison = false ∧ s.hist = [] :=
  ⟨by unfold Fits; decide +kernel, by unfold Fits; decide +kernel, by decide, by decide, ⟨_, rfl, rfl, by decide +kernel⟩, by decide +kernel,
    by decide +kernel, by decide +kernel, rfl⟩
/-- A store at the offset register alone, at a point, at an i32 interval with a tag, and at a W pair; and one of no point. -/
theorem test_meets_interval_stores : let t := teamIv
    let box := fun (i : Nat) => tileBox { kernelOne with tr := 8, tc := 8 } (tileOf t i)
    Fits t (offUse true 8#7 0#7 ++ [dataUse .b32 1#7]) ∧ Fits t (offUse true 0#7 24#7 ++ [dataUse .b32 1#7]) ∧
      (∃ l h e, ivreg t 3 8 = .iv .W l h e (some ⟨4, 0, 32⟩)) ∧ ivreg t 3 9 = .upper ∧
      (∃ l h e, ivreg t 3 5 = .iv .I l h e (some ⟨4, 8, 16⟩)) ∧
      (∀ i ∈ lanesOf t, isPoint t i 1 = true ∧ isPoint t i 5 = false ∧ isUnsure t i = false ∧
        (t.fills.filter fun f => f.lane == i).length < 8 ∧ 1 ≤ (box i).h ∧ 1 ≤ (box i).w) ∧
      ((((kreg t 24).toNat + 0 + dispOf .none) % 2 ^ 64 : Int) = 0x8000) ∧ ((((kreg t 0).toNat + 32 + dispOf .none) % 2 ^ 64 : Int) = 32) := by
  refine ⟨by unfold Fits; decide +kernel, by unfold Fits; decide +kernel, ⟨0, 64, false, by decide +kernel⟩, by decide +kernel, ⟨-3, 9, false, by decide +kernel⟩, by decide +kernel,
    by decide +kernel, by decide +kernel⟩

/-! ### Commands -/

/-- A packet of an opcode, a context and four words. -/
def pkt (op ctx : Nat) (w1 w2 w3 w4 : W64) : Packet := ⟨BitVec.ofNat 64 (op + ctx * 2 ^ 16), w1, w2, w3, w4, 0#64, 0#64, 0#64, 7⟩
/-- A device in which context 1 is in some state, every handle is set, and a descriptor of context 2 stands at 0x40000. -/
def devCmd (c : Ctx) : State :=
  { devK [] with
    ctxs := [(1, c)], reserve := 1000000
    mgmt := { devOne.mgmt with replyq := 0x100, pageq := 0x200, coreq := 0x300, eventq := 0x400, ctlq := 0x500, temp := 95#8, trip := true }
    tspace := [(0x20000, 0x1F#8), (0x20010, 0x9F#8), (0x40000, 2#8), (0x40003, 16#8), (0x4000A, 1#8), (0x40028, 8#8),
      (0x40031, 0x80#8)] }
def ctxOne : Ctx := { Ctx.reset with st := .active, z := 8, pool := 1000, grant := 2 ^ 20, ratio := 16 }
theorem test_meets_create : let s := { devCmd ctxOne with mgmt := { (devCmd ctxOne).mgmt with ran := true } }
    let p := pkt 1 2 0x40000#64 0#64 0#64 0#64
    performs s false = true ∧ pktOp p = 1 ∧ pktCtx p = 2 ∧ ctlForm p true = true ∧ (getCtx s 2).st = .free ∧ s.mgmt.ran = true ∧
      0x40000 % 128 = 0 ∧ 0x40000 + 128 ≤ s.mgmt.tssize ∧ descOk 2 (fun i => tableWord s (0x40000 + 8 * i)) = true := by
  decide +kernel
theorem test_meets_destroy : let p := pkt 2 1 0#64 0#64 0#64 0#64
    performs (devCmd ctxOne) false = true ∧ pktOp p = 2 ∧ ctlForm p false = true ∧ (getCtx (devCmd ctxOne) (pktCtx p)).st = .active ∧
      pktOp (pkt 6 1 0#64 0#64 0#64 0#64) = 6 ∧ ctlForm (pkt 6 1 0#64 0#64 0#64 0#64) false = true := by decide +kernel
/-- A balloon of 1000, and one of 1001 that POOL does not cover. -/
theorem test_meets_balloon : let p := pkt 3 1 1000#64 0#64 0#64 0#64
    let q := pkt 4 1 1001#64 0#64 0#64 0#64
    let s := devCmd ctxOne
    performs s false = true ∧ pktOp p = 3 ∧ ctlForm p true = true ∧ (getCtx s 1).st = .active ∧ p.w1.toNat ≤ s.reserve ∧
      (getCtx s 1).infl = 0 ∧ pktOp q = 4 ∧ ctlForm q true = true ∧ p.w1.toNat ≤ (getCtx s 1).pool ∧
      (getCtx s 1).pool < q.w1.toNat := by decide +kernel
theorem test_meets_resolve : let s := { devCmd { ctxOne with openRecs := [(4, 1)] } with teams := [(1, { teamOne with status := .parked })] }
    let p := pkt 5 1 4#64 0#64 0#64 0#64
    performs s false = true ∧ pktOp p = 5 ∧ ctlForm p true = true ∧ find? (getCtx s 1).openRecs 4 = some 1 ∧
      find? s.teams 1 = some { teamOne with status := .parked } := by decide +kernel
theorem test_meets_save : let s := devCmd ctxOne
    let p := pkt 6 1 0#64 0#64 0#64 0#64
    let stopped := { s with cores := [(0, { coreOne with stop := some ⟨none, 0x5F, true, none⟩ })] }
    performs s false = true ∧ pktOp p = 6 ∧ ctlForm p false = true ∧ (getCtx s 1).st = .active ∧
      (∀ m ∈ servingCores s 1, isStopped s m = false) ∧ (∀ e ∈ residents s 1, e.2.trace.staged = []) ∧ residents s 1 ≠ [] ∧
      performs stopped false = true ∧ (∃ m ∈ servingCores stopped 1, isStopped stopped m = true) := by
  decide +kernel
/-- A context saved from core 0, which goes to core 159. -/
theorem test_meets_restore : let s := { devCmd { ctxOne with st := .saved, image := [(0, coreOne)] } with
      teams := [], cores := [], hostMem := (0x10000, 159#8) :: (rangeFrom 0x10001 159).map fun a => (a, 0xFF#8) }
    let p := pkt 7 1 0x10000#64 0#64 0#64 0#64
    performs s false = true ∧ pktOp p = 7 ∧ ctlForm p true = true ∧ (getCtx s 1).st = .saved ∧
      remapTable s 0x10000 = some (159 :: rangeFrom 1 159) ∧
      noRepeat ((getCtx s 1).image.map fun e => nth e.1 (159 :: rangeFrom 1 159) e.1) = true ∧
      ((getCtx s 1).image.all fun e => mayRestore s e.2 (nth e.1 (159 :: rangeFrom 1 159) e.1)) = true := by decide +kernel
/-- POWER to RUN at 95 °C after a trip, and to IDLE with no team. -/
theorem test_meets_power : let p := pkt 8 0 0#64 0#64 0#64 0#64
    let q := pkt 8 0 2#64 0#64 0#64 0#64
    let s := devCmd ctxOne
    performs s false = true ∧ pktOp p = 8 ∧ ctlForm p true = true ∧ pktCtx p = 0 ∧ bringUpOk s.mgmt = true ∧
      s.mgmt.temp.toNat ≤ 95 ∧ s.mgmt.trip = true ∧ s.mgmt.pstate = 0 ∧ pktOp q = 8 ∧ ctlForm q true = true ∧ anyResident { s with teams := [] } = false := by decide +kernel
theorem test_meets_save_complete : let s := devCmd { ctxOne with st := .saving }
    (getCtx s 1).st = .saving ∧ (∀ c ∈ servingCores s 1, coreSettled s c = true) ∧ (∀ e ∈ residents s 1, canSave e.2 = true) ∧
      servingCores s 1 ≠ [] := by decide +kernel

/-- The slots of three pages: in device memory, in the host, and with nothing mapped. -/
def devPage : State := { devCmd ctxOne with tspace := pageCells }
theorem test_meets_page : let s := devPage
    performs s false = true ∧ s.pageWork = none ∧ s.mgmt.remap = 0 ∧ pageSlot s 1 0 = some ⟨131072, 0x1F, 2 ^ 21⟩ ∧
      pageSlot s 1 0x200000 = some ⟨131088, 0x9F, 2 ^ 21⟩ ∧ pageSlot s 1 0x400000 = some ⟨131104, 0, 2 ^ 21⟩ ∧
      pktHead (pkt 0x10 1 0#64 0#64 0#64 0#64) = true ∧ (getCtx s 1).st = .active ∧ (getCtx s 1).conf = false ∧
      overPromise (getCtx s 1) (2 ^ 21 / 65536) = false := by decide +kernel
theorem test_meets_map : let e := 0x20001F
    pktOp (pkt 0x10 1 0x400000#64 0x20001F#64 0#64 0#64) = 0x10 ∧ 0x400000 % 2 ^ 21 = 0 ∧ bitAt 0 0 = false ∧ bitAt e 0 = true ∧
      leafOk true e = true ∧ leafMig e = false ∧ leafProt e = false ∧ leafFix e = false ∧ leafTgt e = 0 := by decide
/-- PERM that takes W, that keeps every right, and that takes X of a page without W. -/
theorem test_meets_perm : pktOp (pkt 0x12 1 0#64 4#64 0#64 0#64) = 0x12 ∧ leafW 0x1F = true ∧ leafW (setRights 0x1F (4 / 4)) = false ∧
    leafW (setRights 0x1F (60 / 4)) = true ∧ (∀ i ∈ [2, 4], bitAt 0x1F i = true → bitAt (setRights 0x1F (60 / 4)) i = true) ∧
    leafW 0x17 = false ∧ bitAt 0x17 4 = true ∧ bitAt (setRights 0x17 (4 / 4)) 4 = false := by decide
/-- The three kinds of MIGRATE on the pages of `devPage`. -/
theorem test_meets_migrate : pktOp (pkt 0x13 1 0#64 0#64 7#64 0#64) = 0x13 ∧ bitAt 0x1F 0 = true ∧ leafTgt 0x1F = 0 ∧ 7 < 8 ∧
    leafTgt 0x9F = 1 ∧ 0x1FFFFE0 < 2 ^ 25 ∧ 0x1FFFFE0 % (2 ^ 21 / 65536) = 0 ∧ 0x600000 % 2 ^ 21 = 0 ∧ 0x600000 % 65536 = 0 ∧
    leafProt 0x1F = false ∧ pktOp (pkt 0x14 1 0#64 3#64 0#64 0#64) = 0x14 := by decide

/-- The drain of a page that no team has logged, and of one that a stopped core's team has. -/
def drainOf (op : Nat) (w2 : W64) (sw : Bool) : PageWork := ⟨pkt op 1 0#64 w2 0x600000#64 0#64, 1, 0, 2 ^ 21, 131072, 0x1F, sw⟩
theorem test_meets_drain : let s := { devPage with pageWork := some (drainOf 0x11 0#64 false) }
    s.walkers.length = 2 ∧ s.mgmt.remap = 0 ∧ (getCtx s 1).st = .active ∧ logHolders s 1 0 (2 ^ 21) = [] ∧ pinned s 1 0 (2 ^ 21) = false ∧
      pktOp (drainOf 0x11 0#64 false).p = 0x11 ∧ leafTgt 0x1F = 0 ∧ pktOp (drainOf 0x12 4#64 false).p = 0x12 ∧
      field (drainOf 0x13 2#64 true).p.w2.toNat 0 2 = 2 ∧ (drainOf 0x13 2#64 true).p.w3.toNat < 2 ^ 56 ∧ 0x1F < 2 ^ 64 := by
  decide +kernel
theorem test_meets_drain_busy : let t := { teamOne with log := [(0x1FFFFF, 1#8)] }
    let s := { devPage with
      teams := [(1, t)], cores := [(0, { coreOne with stop := some ⟨some 1, 0x60, false, none⟩ })], pageWork := some (drainOf 0x11 0#64 false) }
    t ∈ logHolders s 1 0 (2 ^ 21) ∧ (getCore s t.core).stop.isSome = true := by decide +kernel

/-- A core stopped by its team's instruction. -/
def devStop (m : List Host.Cell) : State :=
  { devPage with cores := [(0, { coreOne with stop := some ⟨some 1, 0x60, false, none⟩ })], hostMem := m }
theorem test_meets_core : let s := devStop []
    let p := pkt 0x20 1 0#64 0#64 0#64 0#64
    let n := pkt 0x22 1 0#64 5#64 0x10000#64 0#64
    performs s false = true ∧ pktCore p < 160 ∧ pktCtx p ≠ 0 ∧ (getCore s (pktCore p)).ctx = pktCtx p ∧ pktOp p = 0x20 ∧
      coreForm p false = true ∧ (getCore s 0).stop = some ⟨some 1, 0x60, false, none⟩ ∧ find? s.teams 1 = some (teamK []) ∧
      (teamK []).exitFlow = none ∧ (teamK []).core = 0 ∧ (teamK []).placed = true ∧ (teamK []).status = .ready ∧ (teamK []).flow.lanes = [] ∧
      0 < (teamK []).lanes ∧ (teamK []).booking = none ∧ (teamK []).flow.loops.length = 3 ∧ isStopped s 0 = true ∧
      NoLoops (teamK []) ∧ (teamK []).flow.uni = false ∧ (teamK []).trace.on = false ∧ (teamK []).stepOnce = false ∧ 0x60 ≠ 0x4F ∧
      coreForm n true = true ∧ namedTeam s n = some (teamK []) ∧ wholeCore n = false ∧ (teamsAt s 0 1).length < 2 ^ 32 ∧
      (getCore devPage 0).stop = none := by unfold NoLoops; decide +kernel
/-- A record in the host that keeps what WRSTATE may not change. -/
theorem test_meets_wrstate : let s := devStop (memWriteNat [] 0x10000 8 ((nth 0 (teamHeader (teamK [])) 0)))
    sameTeam (teamK []) (memBytes s.hostMem 0x10000 (recordSize (teamK []))) = true := by decide +kernel

/-! ### Links, stacks and management -/

/-- A device whose host link is up. -/
def devHost : State := { devPage with ports := setAt devPage.ports 16 ⟨.up, 4, 1⟩ }
def exOk {α : Type} : Except Nat α → Bool
  | .ok _ => true
  | .error _ => false
def exErr {α : Type} : Except Nat α → Nat
  | .ok _ => 0
  | .error c => c
theorem test_meets_host : let s := devHost
    hostOk s .table = true ∧ hostOk s (.ctx 1) = true ∧ farPlace s (.ctx 1) 0x200000 .load = none ∧ s.mgmt.remap = 0 ∧ portUsable (nth Port.reset s.ports 16) = true ∧ hostSpan 0x200000 256 = true ∧ hostSpan 0x1FFF00 256 = true ∧
      exOk (outerRead s .host (.ctx 1) 0x200000 256) = true ∧ exErr (outerRead s .host (.ctx 1) 0x400000 256) = 1 ∧
      0x1FFF00 + 256 ≤ s.mgmt.tssize ∧ (getCtx s 1).st ≠ .free ∧
      xlateWalk s 1 0x1FFF00 .store = .ok (.dev 0x1FFF00) 0x1F ∧ leafProt 0x1F = false ∧
      (metaOf s (0x1FFF00 / 256)).poison = false ∧ Unstored s (0x1FFF00 / 256) ∧ (debit8 s .pool 1).2 = true ∧ 0x1FFFF8 % widthBytes .b64 = 0 ∧
      0x1FFFF8 + widthBytes .b64 ≤ s.mgmt.tssize ∧ xlateWalk s 1 0x1FFF00 .load = .ok (.dev 0x1FFF00) 0x1F ∧
      (∀ l, walk s 1 0x1FFF00 = some l → leafProt l.bits = false) ∧
      Synced s s.hostSeen.seen 0 0x1FFF00 256 (memByte s.mem) := by
  refine ⟨?_, ?_, ?_, ?_, ?_, ?_, ?_, ?_, ?_, ?_, ?_, ?_, ?_, ?_, ?_, ?_, ?_, ?_, ?_, ?_, synced_empty rfl _ _ _ _ _⟩ <;> decide +kernel
theorem test_meets_host_loom : let s := { devHost with mem := seqMem }
    hostWordsOk .seqReserve (fun i => (nth 0#64 [0#64] i).toNat) = false ∧
      hostWordsOk .seqWait (fun i => (nth 0#64 [5#64] i).toNat) = true ∧
      isDone (txFinish (loomLen (txStart s (.ctx 1) true) 0x8000).tx (loomDie s (.ctx 1) 0x8000) .pool) = true ∧
      isDone (txFinish (loomRemove (txStart s (.ctx 1) true) 0x8200 0).tx (loomDie s (.ctx 1) 0x8200) .pool) = true ∧
      txOk (loomRemove (txStart s (.ctx 1) true) 0x8200 0).tx = true := by decide +kernel
/-- Every state of a port stands somewhere. -/
theorem test_meets_port : ∀ st ∈ [PortSt.down, .training, .up, .spared, .degraded, .failed], let p : Port := ⟨st, 4, 1⟩
    let s := { State.reset with ports := setAt State.reset.ports 3 p }
    3 < s.ports.length ∧ nth Port.reset s.ports 3 = p ∧ p.rx ≤ 3 ∧ 3 < p.tx ∧ 8 < laneCount 3 ∧ laneCount 3 ≤ 9 := by decide

/-- An inbound table whose slot 47 accepts device 9, context 5 of it, into context 1. -/
theorem test_meets_inbound : let s := { devHost with
      mgmt := { devHost.mgmt with inb := 0x1F0000 }, tspace := memWriteNat devHost.tspace (0x1F0000 + 8 * 47) 8 (1 + 9 * 2 + 5 * 2 ^ 9 + 2 ^ 21) }
    let acc := PeerAccess.read 0x1000 256
    s.mgmt.pstate ≠ 2 ∧ s.mgmt.bootok = true ∧ inboundSpan acc = true ∧ inboundSlot s 9 4 (fun _ => true) = none ∧
      inboundSlot s 9 5 (fun _ => true) = some (47, 1 + 9 * 2 + 5 * 2 ^ 9 + 2 ^ 21) ∧ field (1 + 9 * 2 + 5 * 2 ^ 9 + 2 ^ 21) 21 12 = 1 ∧
      outerPlace s (.ctx 1) 0x1000 256 .load = .ok (.dev 0x1000, 0x1F) ∧
      exOk (outerRead (markPeer s 1 0x1000 47) (.link 9) (.ctx 1) 0x1000 256) = true ∧ (markPeer s 1 0x1000 47).hist = [] := by
  decide +kernel
/-- The same source where its window only takes reads. -/
theorem test_meets_inbound_read_only : let e := 1 + 9 * 2 + 5 * 2 ^ 9 + 2 ^ 21 + 2 ^ 33
    let s := { devHost with
      mgmt := { devHost.mgmt with inb := 0x1F0000 }, tspace := memWriteNat devHost.tspace (0x1F0000 + 8 * 47) 8 e }
    inboundSpan (.write 0x1000 [some 1#8]) = true ∧ inWrites (.write 0x1000 [some 1#8]) = true ∧
      inboundSlot s 9 5 (fun _ => true) = some (47, e) ∧ inboundSlot s 9 5 (fun x => !(bitAt x 33)) = none := by decide +kernel
/-- A load and a store that peers have not answered. -/
def reqOf (store : Bool) : PeerReq :=
  { id := 8, uid := 1, port := 15, dev := 9, rctx := 5, lctx := 1, va := 0x600000, addr := 0, store := store, bytes := List.replicate 4 none
    rmw := none, lanes := [31], reg := if store then none else some 5, size := 4, sx := false, sent := 0, failed := none }
theorem test_meets_peer : let p : Pending := { backLoad with writes := [], peers := [8] }
    let t := { teamOne with pend := [p], status := .waiting .load }
    let s := { devOf t coreOne with peers := [reqOf false], mgmt := { devOne.mgmt with time := 2000000 } }
    s.hostAsks = [] ∧ s.peers = [reqOf false] ∧ (reqOf false).failed = none ∧ (reqOf false).port < 16 ∧ (reqOf false).uid ≠ 0 ∧
      (reqOf false).bytes = List.replicate 4 none ∧ [1#8, 2#8, 3#8, 4#8].length = 4 ∧ find? s.teams 1 = some t ∧ t.pend = [p] ∧
      (reqOf false).rmw = none ∧ (reqOf false).reg = some 5 ∧ (reqOf false).lanes = [31] ∧ (reqOf false).size = 4 ∧ t.status = .waiting .load ∧
      p.isLoad = true ∧ p.fault = none ∧ (reqOf false).sent + 2000000 ≤ s.mgmt.time ∧ (reqOf true).store = true ∧
      (getTeam s (reqOf true).uid).status ≠ .ended := by decide +kernel

/-- A bank that owes refreshes, rows at the counts that matter, buckets, and spares used up. -/
theorem test_meets_stacks : let st : Stack := { Stack.reset with
      acts := [(32768 * 2047 + 32767, List.replicate 2048 0)], buckets := [⟨32768 * 2047 + 32767, 8⟩], spares := (List.range 8).map fun i => ⟨5, i, i, false⟩ }
    let s := { devHost with stks := setAt devHost.stks 7 st, mgmt := { devHost.mgmt with time := 31200 } }
    7 < 8 ∧ s.stks.length = 8 ∧ owedBy 3900 st (64 * 31 + 63) = 1 ∧ owedBy s.mgmt.time st (64 * 31 + 63) = 8 ∧
      tabGet 0 st.busy (64 * 31 + 63) ≤ s.mgmt.time ∧ 2048 ≤ actCount s.mgmt.time st (32768 * (64 * 31 + 63) + 32767) ∧
      8 ≤ bucketOf (32768 * (64 * 31 + 63) + 32767) st.buckets ∧ (st.spares.filter fun x => x.bank == 64 * 31 + 63).length < 8 ∧
      8 ≤ (st.spares.filter fun x => x.bank == 5).length ∧ st.buckets.all (fun b => b.row != rowKey (7 * 2 ^ 31)) = true ∧
      bankWanted s 7 (64 * 31 + 63) = false ∧ st.leakAt + 600000000000 ≤ 600000000000 ∧
      (st.spares.filter fun y => y.bank == bankOf (7 * 2 ^ 31)).length < 8 := by
  decide +kernel
theorem test_meets_one_bucket : let x := 7 * 2 ^ 31 + 5
    let st : Stack := { Stack.reset with buckets := [⟨rowKey x, 3⟩] }
    let s := { State.reset with
      stks := setAt State.reset.stks 7 st, metas := [(0x40, ⟨8, 7 * 2 ^ 31, 7, false, false, false⟩)] }
    st.buckets = [⟨rowKey x, 3⟩] ∧ blockAt s x = some 0x40 := by decide +kernel

/-- What an error may strike: a team, an online core, a bank, a context, a task, and a lock. -/
theorem test_meets_containment : let s := { devHost with
      cores := [(0, { coreOne with locks := [(3, lockPlain)], deque := [taskOne] })] }
    (getTeam s 1).status ≠ .ended ∧ find? s.teams 1 = some (getTeam s 1) ∧ (getCore s 0).offline = false ∧
      bankExists 7 31 63 = true ∧ (getCtx s 1).st = .active ∧ ((getCore s 0).deque[0]?).isSome = true ∧
      (getLock s 0 3).st = .valid ∧ (getLock s 0 4).st ≠ .valid := by decide +kernel
theorem test_meets_core_offline : let s := devHost
    (∀ c ∈ (getCore s 2).copyQ.flatten, c.gone = false) ∧ (getCore s 0).offline = false ∧ (getCore s 2).offline = false ∧ (getCore s 2).deque = [] ∧ (∀ e ∈ s.teams, e.2.core ≠ 2) ∧
      2 % 2 = 0 ∧ spareFree s 2 = true := by decide +kernel
theorem test_meets_management : let s := devHost
    mgmtOk s = true ∧ s.mgmt.created = true ∧ mgmtOk { s with mgmt := { s.mgmt with created := false } } = true ∧
      s.mgmt.time ≤ (0#64).toNat ∧ 105 < 106 ∧ s.evPend.length < 16 ∧ (0x600000#64).toNat % 2 ^ 21 = 0 := by decide +kernel
/-- A device that has used two spare rows, and is given a place for its remap tables. -/
theorem test_meets_remap : let s := { devHost with
      mgmt := { devHost.mgmt with created := false }
      stks := setAt devHost.stks 7 { Stack.reset with spares := [⟨5, 0, 9, true⟩, ⟨5, 1, 8, false⟩] } }
    mgmtOk s = true ∧ (0x100000#64).toNat < 2 ^ 56 ∧ 0x100000#64 ≠ 0#64 ∧ s.stks.length = 8 ∧
      ∀ k < 8, ∀ x ∈ (stackOf s k).spares, x.bank < 2048 ∧ x.k < 8 ∧
        ((stackOf s k).spares.filter fun y => y.bank == x.bank && y.k == x.k) = [x] := by decide +kernel

/-- A team before a load of lane addresses from `a` on, on a device whose page at 0 cannot be written and whose page at 4 MiB is absent. -/
def teamBad (a : Nat) : Team := { teamK [BitVec.ofNat 64 a] with walked := [(0x40, true)] }
def devBad (a : Nat) : State :=
  { withPages (devOf (teamBad a) coreOne) with walkers := [⟨[⟨1, 0, 2 ^ 21, 0x17⟩], [], []⟩, Walker.reset] }
theorem test_meets_access_faults : ∀ e ∈ [(0x400000, Need.load, 0x01), (0x4000, .store, 0x64), (0x4002, .load, 0x60), (2 ^ 56, .load, 0x61)],
    Issuing (devBad e.1) 1 (teamBad e.1) ∧ (teamBad e.1).ctx ≠ 0 ∧ (teamBad e.1).trace.staged = [] ∧
      (getCore (devBad e.1) (teamBad e.1).core).stop = none ∧ lanesOf (teamBad e.1) ≠ [] ∧
      Fits (teamBad e.1) (offUse true 4#7 24#7 ++ [dataUse .b32 5#7]) ∧
      checkLanes (devBad e.1) (teamBad e.1) 4 e.2.1 (globalLanes (teamBad e.1) 4#7 24#7 .none) = .fault e.2.2 0 e.1 := by
  have h : ∀ e ∈ [(0x400000, Need.load, 0x01), (0x4000, .store, 0x64), (0x4002, .load, 0x60), (2 ^ 56, .load, 0x61)],
      lanesOf (teamBad e.1) ≠ [] ∧ (∀ u ∈ offUse true 4#7 24#7 ++ [dataUse .b32 5#7], u.fld + (teamBad e.1).flow.x + u.n ≤ (teamBad e.1).allot ∧ (u.fld + (teamBad e.1).flow.x) % u.n = 0) ∧
        checkLanes (devBad e.1) (teamBad e.1) 4 e.2.1 (globalLanes (teamBad e.1) 4#7 24#7 .none) = .fault e.2.2 0 e.1 := by decide +kernel
  intro e he
  exact ⟨issuing_of rfl rfl (quiet_of rfl rfl rfl rfl rfl) ⟨rfl, rfl, rfl, rfl, rfl, rfl, rfl, rfl, by show 16 ≤ 128; decide, rfl,
    by show 0 < 4; decide⟩, by show (1 : Nat) ≠ 0; decide, rfl, rfl, (h e he).1, (h e he).2.1, (h e he).2.2⟩
/-- Stores that no log holds, and stores that nobody can pay for, of 32 lanes and of a uniform register. -/
theorem test_meets_store_faults : let t := { teamK [0x4080#64] with logSize := 64, log := [(0, 1#8)] }
    let s := withPages (devOf t coreOne)
    let r := teamK [0x4080#64]
    let poor := { withPages (devOf r coreOne) with ctxs := [(1, { Ctx.reset with st := .active, z := 8 })] }
    let tl := touchesOf (checkLanes s t 4 .store (globalLanes t 4#7 24#7 .none))
    let l : List LaneStore := tl.map fun e => ⟨e.lane, e.addr, storeBytes .b32 t 5#7 e.lane, e.leaf⟩
    let one : List LaneStore := [⟨0, 0x4080, bytesOf 8 7, 0x1F⟩]
    Issuing s 1 t ∧ Issuing poor 1 r ∧ checkLanes s t (widthBytes .b32) .store (globalLanes t 4#7 24#7 .none) = .ok tl ∧
      checkLanes poor r (widthBytes .b32) .store (globalLanes r 4#7 24#7 .none) = .ok tl ∧
      checkLanes s t (widthBytes .b64) .store [⟨0, wrapNat 64 ((kreg t 24).toNat + dispOf .none)⟩] = .ok [⟨0, 0x4080, .dev 0x4080, 0x1F⟩] ∧
      t.logSize / 64 < logWith t l ∧ t.logSize / 64 < logWith t one ∧ logWith r l ≤ r.logSize / 64 ∧ logWith r one ≤ r.logSize / 64 ∧
      (debitStores 1 poor l).2.isSome = true ∧ (debitStores 1 poor one).2.isSome = true :=
  ⟨issuing_of rfl rfl (quiet_of rfl rfl rfl rfl rfl) (by decide +kernel), issuing_of rfl rfl (quiet_of rfl rfl rfl rfl rfl) (by decide +kernel), by decide +kernel⟩
/-- Scratchpad accesses: misaligned, past the end from lane 16 on, and poisoned at lane 2. -/
theorem test_meets_scratchpad_faults : let mis := teamK [2#64]
    let far := teamK [0xFFC0#64]
    let t := teamK [0#64]
    let c := { coreOne with spadPoison := [0] }
    let n := widthBytes .b32
    Issuing (devOf mis coreOne) 1 mis ∧ spadAddr mis argsOne 0 % n ≠ 0 ∧ lanesOf mis = [] ++ 0 :: rangeFrom 1 31 ∧
      Issuing (devOf far coreOne) 1 far ∧ lanesOf far = rangeFrom 0 16 ++ 16 :: rangeFrom 17 15 ∧
      (∀ j ∈ rangeFrom 0 16, spadAddr far argsOne j % n = 0 ∧ spadAddr far argsOne j + n ≤ spgBytes coreOne.word) ∧
      spadAddr far argsOne 16 % n = 0 ∧ spgBytes coreOne.word < spadAddr far argsOne 16 + n ∧
      Issuing (devOf t c) 1 t ∧ spadPoisoned c (spadAddr t argsOne 0) n = true ∧
      (∀ j ∈ lanesOf t, spadAddr t argsOne j % n = 0 ∧ spadAddr t argsOne j + n ≤ spgBytes c.word) ∧ c.stop = none ∧
      Fits t (offUse false 4#7 24#7 ++ [dataUse .b32 5#7]) :=
  ⟨issuing_of rfl rfl (quiet_of rfl rfl rfl rfl rfl) (by decide +kernel), by decide +kernel, by decide +kernel,
    issuing_of rfl rfl (quiet_of rfl rfl rfl rfl rfl) (by decide +kernel), by decide +kernel, by decide +kernel, by decide +kernel,
    by decide +kernel, issuing_of rfl rfl (quiet_of rfl rfl rfl rfl rfl) (by decide +kernel), by decide +kernel, by decide +kernel, rfl,
    by unfold Fits; decide +kernel⟩
/-- A load of two blocks of which the second is poisoned, and its pending result. -/
theorem test_meets_poisoned_load : let t := teamK [0x40C0#64]
    let s := { devK [0x40C0#64] with metas := [(0x41, ⟨0, 0, 0, true, false, false⟩)] }
    let l := touchesOf (checkLanes s t 4 .load (globalLanes t 4#7 24#7 .none))
    let e : Touch := ⟨16, 0x4100, .dev 0x4100, 0x1F⟩
    Issuing s 1 t ∧ checkLanes s t (widthBytes .b32) .load (globalLanes t 4#7 24#7 .none) = .ok (l.take 16 ++ e :: l.drop 17) ∧
      (∀ x ∈ l.take 16 ++ l.drop 17, x.place = .dev x.addr) ∧ (∀ x ∈ l.take 16, (metaOf s (x.addr / 256)).poison = false) ∧
      (metaOf s (0x4100 / 256)).poison = true ∧ find? t.log 0x4100 = none ∧ 0x4100 / 256 ∉ t.zeros :=
  ⟨issuing_of rfl rfl (quiet_of rfl rfl rfl rfl rfl) (by decide +kernel), by decide +kernel, by decide +kernel, by decide +kernel,
    by decide +kernel, by decide +kernel, by decide +kernel⟩
theorem test_meets_load_fault : let p : Pending := { backLoad with fault := some ⟨0x63, some 16, 0x4100, 0⟩ }
    let t := { teamOne with pend := [p], status := .waiting .load }
    let s := devOf t coreOne
    find? s.teams 1 = some t ∧ t.ctx ≠ 0 ∧ (getCore s t.core).stop = none ∧ firstPend t true = some (0, p) ∧ p.gather = 0 ∧
      p.retryAt = none ∧ p.peers = [] := by decide

/-! ### The step -/

/-- A device whose agenda begins with `g` and whose team stands before the words of `m`. -/
def devStep (g : Agendum) (m : List Host.Cell) : State := { devK [] with mem := m, agenda := [g] }
/-- A NOP at 0x1000; nothing can be fetched past the pages. -/
theorem test_meets_step : let s := devStep (.issue 1) [(0x1003, 0xBC#8)]
    let s0 : State := { s with agenda := [], free := s.free + 1 }
    s.agenda = .issue 1 :: [] ∧ fillRoom s = none ∧ canIssue s0 1 = true ∧
      fetchWord (firstIssue s0 1) (getTeam s 1) 0x1000 = .got 0xBC000000#32 ∧
      isGroupHint 0xBC000000#32 = false ∧ decode [0xBC000000#32] = some (.ok .nop, 1) := by
  refine ⟨rfl, ?_, ?_, ?_, ?_, rfl⟩ <;> decide +kernel
theorem test_meets_fetch : let s := devStep (.issue 1) [(0x1003, 0xBC#8)]
    let s0 : State := { s with agenda := [], free := s.free + 1 }
    fetchGroup (firstIssue s0 1) (getTeam s 1) (2 ^ 54) 0x1000 [] = .words [0xBC000000#32] ∧
      fetchGroup (firstIssue s0 1) (getTeam s 1) (2 ^ 54) 0x400000 [] = .bad 0x400000 := by decide +kernel
/-- A page of fetchable words in a peer window: slot 2, behind the page of the host. -/
theorem test_meets_fetch_peer : let s := { devStep (.issue 1) [] with tspace := memWriteNat pageCells 131104 8 (0x1F + 2 * 2 ^ 7 + 2 * 2 ^ 9) }
    (match fetchGroup s (getTeam s 1) (2 ^ 54) 0x400000 [] with | .peer _ _ _ => true | _ => false) = true := by decide +kernel
theorem nth_mem {α : Type} (d : α) : ∀ (l : List α) (i : Nat), nth d l i = d ∨ nth d l i ∈ l
  | [], _ => .inl rfl
  | _ :: _, 0 => .inr (by simp [nth])
  | _ :: t, n + 1 => (nth_mem d t n).imp id (by simp only [nth, List.mem_cons]; exact .inr)
def roomsFill (s : State) : Bool :=
  (dueParts s).all fun e =>
    match fillPart s e with
    | some s1 => (banksMet (settle (afterPlace s1))).isEmpty
    | none => false
theorem fillRoom_isSome {s : State} (h : dueParts s ≠ []) (hb : roomsFill s = true) : (fillRoom s).isSome = true := by
  have key := List.all_eq_true.mp hb
  unfold fillRoom
  generalize dueParts s = l at h key
  cases l with
  | nil => exact absurd rfl h
  | cons e l =>
    dsimp only
    generalize hy : nth e (e :: l) (Config.freeNat s.free 61 % (e :: l).length) = y
    have hx := key y (by
      rcases nth_mem e (e :: l) (Config.freeNat s.free 61 % (e :: l).length) with hx | hx
      · rw [← hy, hx]; simp
      · rw [← hy]; exact hx)
    cases hf : fillPart s y with
    | none => simp [hf] at hx
    | some s1 =>
      simp only [hf] at hx
      simp [hx]
/-- Room for a task of the deque. -/
def devRoom : State :=
  { devOf teamOne coreOne with
    kernels := [kernelOne]
    cores := (0, { coreOne with deque := [taskOne] }) :: (rangeFrom 1 15).map fun i => (i, { Core.reset with offline := true }) }
theorem test_meets_fill_room : (fillRoom devRoom).isSome = true := fillRoom_isSome (by decide +kernel) (by decide +kernel)
/-- An entry that meets no busy bank, and the same where every bank of the stack it reads is refreshing. -/
theorem test_meets_step_banks : let s := { devStep (.issue 1) [(0x1003, 0xBC#8)] with
      agenda := [], free := 1, metas := [(0x10, ⟨8, 7 * 2 ^ 31, 7, false, false, false⟩)] }
    let busy := { s with stks := s.stks.map fun k => { k with busy := (List.range 2048).map fun b => (b, 1000) } }
    let met := fun (s : State) => match stepAgendum (.issue 1) s with
      | .next s1 => (banksMet s1).length
      | _ => 9
    fillRoom s = none ∧ fillRoom busy = none ∧ met s = 0 ∧ met busy = 1 := by
  refine ⟨?_, ?_, ?_, ?_⟩ <;> decide +kernel
theorem test_meets_step_other : canIssue (devStep (.issue 2) []) 2 = false ∧ (Instr.freeOldRun 0).encoded = false := by
  constructor <;> decide +kernel

/-- A command sequence of table space with one packet: HALT, UNMAP or POWER. -/
def devQ (op : Nat) : State :=
  { devCmd ctxOne with
    tspace := memOf [(0x500, 1 + 2 ^ 32), (0x508, 16 + 6 * 2 ^ 32), (0x510, 0x1000), (0x530, 0x700 + 6 * 2 ^ 56),
      (0x1000, op + 2 ^ 16)] }
def withQ (s : State) : State := { s with mgmt := { s.mgmt with pageq := 0x500, coreq := 0x500 } }
theorem test_meets_packets : (nextControl (devQ 6)).2 = some (.save ⟨0x10006#64, 0#64, 0#64, 0#64, 0#64, 0#64, 0#64, 0#64, 0⟩) ∧
    (nextPage (withQ (devQ 0x11))).2 = some (.unmap ⟨0x10011#64, 0#64, 0#64, 0#64, 0#64, 0#64, 0#64, 0#64, 0⟩) ∧
    (nextCoreCmd (withQ (devQ 0x26))).2 = some (.halt ⟨0x10026#64, 0#64, 0#64, 0#64, 0#64, 0#64, 0#64, 0#64, 0⟩) := by
  decide +kernel
/-- A query row of 64 bytes against two keys of the key-value sequence. -/
theorem test_meets_attn : let l : List W64 := [0#64, 0x4000000000#64, 0x8100#64, 0x200000000#64, 0x3F800000#64]
    let s := devSeq l
    let n := fun (i : Nat) => (kreg (teamK l) (24 + i)).toNat
    let g := attnStep (txStart (atBoundary s) (.ctx 1) false) (attnDesc n)
    attnCause s 0 false n = none ∧ g.tx.replay = none ∧ g.tx.hard = none ∧ g.tx.bad58 = false ∧ g.tx.bad59 = false ∧
      g.refused = false ∧ g.pages = [(0, some 0x101000)] ∧ attnDebits s 1 (n 2) = true ∧
      (debit8 g.tx.s (.core 0) 1).2 = true ∧ matFull s 0 0 = false ∧
      PagesKnown (atBoundary s) (teamK l) (n 2) g.tx.pages := by decide +kernel

theorem test_meets_encode : (Instr.iaddi 3#7 1#7 0x388#11 (.two 1#22 3#22)).encoded = true ∧
    (Instr.iaddi 3#7 1#7 0x388#11 (.two 1#22 3#22)).wellFormed = true := by decide
theorem test_meets_words : 383 < (384#9).toNat ∧ (1#22) ≠ 0#22 ∧ decode [0xBC000000#32] = some (.ok .nop, 1) ∧
    ((0x26000000#32).extractLsb' 25 7).toNat = 0x13 ∧ ((0x2E000000#32).extractLsb' 25 7).toNat = 0x17 ∧
    ((0x00000000#32).extractLsb' 25 7).toNat = 0 ∧ ((0xFC000000#32).extractLsb' 25 7).toNat = 0x7E := by
  refine ⟨by decide, by decide, rfl, ?_⟩; decide
theorem test_meets_canonical : memoriesWf (devStep (.tick 5) seqMem) = true ∧
    (∀ e ∈ (devStep (.tick 5) seqMem).teams, e.2.kLane = []) ∧ ∃ s', step (devStep (.tick 5) seqMem) = .next s' :=
  ⟨by decide +kernel, by decide +kernel, _, rfl⟩

end Sys2Proof.Tests
end

namespace Sys2Proof.Machine

/-! # Every step keeps the canonical form of the memories (O60)

`Keeps s₀ s` says that `s` has each canonical form that `s₀` has. A function of the model keeps the forms when it
takes a state, team or transaction that keeps those of `s₀` to one that does; `keeps_<f>` says so of the function `f`,
in the order of the model's files. The content is in few of them: all memory is written by `memWrite`, `memWriteNat`,
`memWriteMasked` and `tabDrop` (and a reset by `tabSetAll`), which keep a table sorted and without blank entries, and
no function stores a team in which a lane has uniform registers of its own (the view of an issuing team that has,
`earlyK`, is only read). The others say that a function is put together from such functions. -/

-- A thread for each proof of so many lemmas exceeds the memory limit.
set_option Elab.async false

/-- No lane of any team keeps a uniform register apart from the others (R21, R51). -/
def WholeTeams (s : State) : Prop := ∀ e ∈ s.teams, e.2.kLane = []

/-- What O60 asks of the states before and after: each canonical form that `s₀` has, `s` has. -/
def Keeps (s₀ s : State) : Prop :=
  (memoriesWf s₀ = true → memoriesWf s = true) ∧ (WholeTeams s₀ → WholeTeams s)

/-- A team that may stand in a state that keeps the forms of `s₀`. -/
def KeepsTeam (s₀ : State) (t : Team) : Prop := WholeTeams s₀ → t.kLane = []

/-- The state that an outcome goes on with keeps the forms. -/
def KeepsOut (s₀ : State) : Out → Prop
  | .next s => Keeps s₀ s
  | .fault _ => True
  | .refused _ => True

/-! The same for the results of the model's functions that may hold a state: an optional state, an append, a fetch. -/

def KeepsSome (s₀ : State) : Option State → Prop
  | some s => Keeps s₀ s
  | none => True

def KeepsSomeFst {β : Type} (s₀ : State) : Option (State × β) → Prop
  | some r => Keeps s₀ r.1
  | none => True

def KeepsOk (s₀ : State) : Except Nat State → Prop
  | .ok s => Keeps s₀ s
  | .error _ => True

def KeepsOkFst {β : Type} (s₀ : State) : Except Nat (State × β) → Prop
  | .ok r => Keeps s₀ r.1
  | .error _ => True

def KeepsTx (s₀ : State) : TxOut → Prop
  | .done s => Keeps s₀ s
  | .fault _ _ s => Keeps s₀ s

def KeepsAppend (s₀ : State) : Append → Prop
  | .ok s _ => Keeps s₀ s
  | .failed => True
  | .lost => True

def KeepsPut (s₀ : State) : UnitPut → Prop
  | .stall s _ _ => Keeps s₀ s
  | .done s _ => Keeps s₀ s

def KeepsFetched (s₀ : State) : Fetched → Prop
  | .run s _ => Keeps s₀ s
  | .fault s _ => Keeps s₀ s
  | .wait s => Keeps s₀ s

def KeepsFillPut (s₀ : State) : FillPut → Prop
  | .ok s => Keeps s₀ s
  | .stall s _ => Keeps s₀ s
  | .stop s => Keeps s₀ s

def KeepsFillRun (s₀ : State) : FillRun → Prop
  | .done s => Keeps s₀ s
  | .stall s _ _ _ => Keeps s₀ s

def KeepsAppended (s₀ : State) : Appended → Prop
  | .ok s _ => Keeps s₀ s
  | .wait => True
  | .stall _ _ s => Keeps s₀ s
  | .dropped _ => True

/-! ## Conditionals -/

section
variable {s₀ s s1 : State} {t : Team} {c : Prop} [Decidable c]

theorem keeps_refl : Keeps s s := ⟨id, id⟩

theorem keeps_ite {a b : State} (ha : Keeps s₀ a) (hb : Keeps s₀ b) : Keeps s₀ (if c then a else b) := by
  split
  · exact ha
  · exact hb

theorem keeps_ite_fst {β : Type} {a b : State × β} (ha : Keeps s₀ a.1) (hb : Keeps s₀ b.1) :
    Keeps s₀ (if c then a else b).1 := by
  split
  · exact ha
  · exact hb

theorem keeps_ite_tx {a b : Txn} (ha : Keeps s₀ a.s) (hb : Keeps s₀ b.s) : Keeps s₀ (if c then a else b).s := by
  split
  · exact ha
  · exact hb

theorem keeps_ite_fst_tx {β : Type} {a b : Txn × β} (ha : Keeps s₀ a.1.s) (hb : Keeps s₀ b.1.s) :
    Keeps s₀ (if c then a else b).1.s := by
  split
  · exact ha
  · exact hb

theorem keeps_ite_loomed {a b : Loomed} (ha : Keeps s₀ a.tx.s) (hb : Keeps s₀ b.tx.s) :
    Keeps s₀ (if c then a else b).tx.s := by
  split
  · exact ha
  · exact hb

theorem keeps_ite_out {a b : Out} (ha : KeepsOut s₀ a) (hb : KeepsOut s₀ b) : KeepsOut s₀ (if c then a else b) := by
  split
  · exact ha
  · exact hb

theorem keeps_ite_team {a b : Team} (ha : KeepsTeam s₀ a) (hb : KeepsTeam s₀ b) :
    KeepsTeam s₀ (if c then a else b) := by
  split
  · exact ha
  · exact hb
end

/-! ## Folds, and results taken apart by a match -/

section
variable {s₀ s s1 : State} {t : Team} {α β : Type}

theorem keeps_foldl {f : State → α → State} {l : List α} (hs : Keeps s₀ s)
    (hf : ∀ s x, Keeps s₀ s → Keeps s₀ (f s x)) : Keeps s₀ (l.foldl f s) := by
  induction l generalizing s with
  | nil => exact hs
  | cons x l ih => exact ih (hf s x hs)

theorem keeps_foldl_team {f : Team → α → Team} {l : List α} (ht : KeepsTeam s₀ t)
    (hf : ∀ t x, KeepsTeam s₀ t → KeepsTeam s₀ (f t x)) : KeepsTeam s₀ (l.foldl f t) := by
  induction l generalizing t with
  | nil => exact ht
  | cons x l ih => exact ih (hf t x ht)

theorem keeps_foldl_fst {f : State × β → α → State × β} {l : List α} {p : State × β} (hs : Keeps s₀ p.1)
    (hf : ∀ p x, Keeps s₀ p.1 → Keeps s₀ (f p x).1) : Keeps s₀ (l.foldl f p).1 := by
  induction l generalizing p with
  | nil => exact hs
  | cons x l ih => exact ih (hf p x hs)

theorem keeps_foldl_tx {f : Txn → α → Txn} {l : List α} {t : Txn} (hs : Keeps s₀ t.s)
    (hf : ∀ t x, Keeps s₀ t.s → Keeps s₀ (f t x).s) : Keeps s₀ (l.foldl f t).s := by
  induction l generalizing t with
  | nil => exact hs
  | cons x l ih => exact ih (hf t x hs)

theorem keeps_foldl_fst_tx {f : Txn × β → α → Txn × β} {l : List α} {p : Txn × β} (hs : Keeps s₀ p.1.s)
    (hf : ∀ p x, Keeps s₀ p.1.s → Keeps s₀ (f p x).1.s) : Keeps s₀ (l.foldl f p).1.s := by
  induction l generalizing p with
  | nil => exact hs
  | cons x l ih => exact ih (hf p x hs)

theorem keeps_foldl_run {f : RmwRun → α → RmwRun} {l : List α} {g : RmwRun} (hs : Keeps s₀ g.s)
    (hf : ∀ g x, Keeps s₀ g.s → Keeps s₀ (f g x).s) : Keeps s₀ (l.foldl f g).s := by
  induction l generalizing g with
  | nil => exact hs
  | cons x l ih => exact ih (hf g x hs)

theorem keeps_foldl_read {f : Reading → α → Reading} {l : List α} {g : Reading} (hs : Keeps s₀ g.s)
    (hf : ∀ g x, Keeps s₀ g.s → Keeps s₀ (f g x).s) : Keeps s₀ (l.foldl f g).s := by
  induction l generalizing g with
  | nil => exact hs
  | cons x l ih => exact ih (hf g x hs)

theorem keeps_of_eq {p : State × β} {x : β} (hs : Keeps s₀ p.1) (e : p = (s1, x)) : Keeps s₀ s1 := by
  rw [e] at hs
  exact hs

theorem keeps_of_eq_tx {p : Txn × β} {t : Txn} {x : β} (hs : Keeps s₀ p.1.s) (e : p = (t, x)) : Keeps s₀ t.s := by
  rw [e] at hs
  exact hs

theorem keeps_of_eq_eng {p : Engine × β} {g : Engine} {x : β} (hs : Keeps s₀ p.1.s) (e : p = (g, x)) : Keeps s₀ g.s := by
  rw [e] at hs
  exact hs

theorem keeps_of_fst {P : State → α → Prop} {p : α × β} {a : α} {x : β} (hp : P s₀ p.1) (e : p = (a, x)) : P s₀ a := by
  rw [e] at hp
  exact hp

/-- A result that holds a state keeps the forms when it is read off from another that does. -/
theorem keeps_of_result {P : State → α → Prop} {a b : α} (ha : P s₀ a) (e : a = b) : P s₀ b := e ▸ ha
end

/-! ## The state's memories and teams -/

section
variable {s₀ s s' : State} {t : Team} {u n : Nat}

/-- A state with the memories and the teams of another. -/
theorem keeps_frame (hs : Keeps s₀ s) (hm : s'.mem = s.mem) (ht : s'.tspace = s.tspace) (hh : s'.hostMem = s.hostMem)
    (he : s'.teams = s.teams) : Keeps s₀ s' := by
  simpa only [Keeps, memoriesWf, WholeTeams, hm, ht, hh, he] using hs

theorem memoriesWf_iff :
    memoriesWf s = true ↔ memoryWf s.mem = true ∧ memoryWf s.tspace = true ∧ memoryWf s.hostMem = true := by
  simp [memoriesWf, and_assoc]

theorem tabSorted_filter {α : Type} {m : Tab α} (f : Nat × α → Bool) (h : tabSorted m = true) :
    tabSorted (m.filter f) = true := by
  induction m with
  | nil => rfl
  | cons a m ih =>
    obtain ⟨hlt, hm⟩ := (tabSorted_cons ..).1 h
    rw [List.filter_cons]
    split
    · exact (tabSorted_cons ..).2 ⟨fun e he => hlt e (List.mem_of_mem_filter he), ih hm⟩
    · exact ih hm

theorem memoryWf_drop {m : List Host.Cell} (lo hi : Nat) (h : memoryWf m = true) : memoryWf (tabDrop m lo hi) = true := by
  obtain ⟨hsorted, hlisted⟩ := (tabWf_iff ..).1 h
  exact (tabWf_iff ..).2 ⟨tabSorted_filter _ hsorted, fun e he => hlisted e (List.mem_of_mem_filter he)⟩

/-- A write of device memory. -/
theorem keeps_mem (hs : Keeps s₀ s) (hm : memoryWf s.mem = true → memoryWf s'.mem = true)
    (ht : s'.tspace = s.tspace := by rfl) (hh : s'.hostMem = s.hostMem := by rfl) (he : s'.teams = s.teams := by rfl) :
    Keeps s₀ s' := by
  simp only [Keeps, memoriesWf_iff, WholeTeams, ht, hh, he] at hs ⊢
  exact ⟨fun hw => (hs.1 hw).imp_left hm, hs.2⟩

/-- A write of table space. -/
theorem keeps_tspace (hs : Keeps s₀ s) (ht : memoryWf s.tspace = true → memoryWf s'.tspace = true)
    (hm : s'.mem = s.mem := by rfl) (hh : s'.hostMem = s.hostMem := by rfl) (he : s'.teams = s.teams := by rfl) :
    Keeps s₀ s' := by
  simp only [Keeps, memoriesWf_iff, WholeTeams, hm, hh, he] at hs ⊢
  exact ⟨fun hw => (hs.1 hw).imp_right (And.imp_left ht), hs.2⟩

/-- A write of host memory. -/
theorem keeps_hostMem (hs : Keeps s₀ s) (hh : memoryWf s.hostMem = true → memoryWf s'.hostMem = true)
    (hm : s'.mem = s.mem := by rfl) (ht : s'.tspace = s.tspace := by rfl) (he : s'.teams = s.teams := by rfl) :
    Keeps s₀ s' := by
  simp only [Keeps, memoriesWf_iff, WholeTeams, hm, ht, he] at hs ⊢
  exact ⟨fun hw => (hs.1 hw).imp_right (And.imp_right hh), hs.2⟩

/-- Every team is changed in its place. -/
theorem keeps_teams {f : Nat × Team → Nat × Team} (hs : Keeps s₀ s) (he : s'.teams = s.teams.map f)
    (hf : ∀ e, KeepsTeam s₀ e.2 → KeepsTeam s₀ (f e).2) (hm : s'.mem = s.mem := by rfl)
    (ht : s'.tspace = s.tspace := by rfl) (hh : s'.hostMem = s.hostMem := by rfl) : Keeps s₀ s' := by
  simp only [Keeps, memoriesWf_iff, WholeTeams, hm, ht, hh, he] at hs ⊢
  refine ⟨hs.1, fun hw e he => ?_⟩
  obtain ⟨d, hd, rfl⟩ := List.mem_map.1 he
  exact hf d (fun _ => hs.2 hw d hd) hw

theorem keeps_blank : KeepsTeam s₀ Team.blank := fun _ => rfl

theorem keeps_getTeam (hs : Keeps s₀ s) : KeepsTeam s₀ (getTeam s u) := by
  intro hw
  have hall := hs.2 hw
  unfold getTeam
  unfold WholeTeams at hall
  generalize s.teams = l at hall
  induction l with
  | nil => rfl
  | cons a l ih =>
    unfold tabGet
    split
    · exact hall a List.mem_cons_self
    · exact ih fun e he => hall e (List.mem_cons_of_mem a he)

theorem keeps_find? (hs : Keeps s₀ s) (e : find? s.teams u = some t) : KeepsTeam s₀ t := by
  rw [← getTeam_of_find e]
  exact keeps_getTeam hs

theorem keeps_or {a b : Option State} (ha : KeepsSome s₀ a) (hb : KeepsSome s₀ b) : KeepsSome s₀ (a.or b) := by
  cases a with
  | none => exact hb
  | some s => exact ha

theorem keeps_map {α : Type} {a : Option α} {f : α → State} (hf : ∀ x, Keeps s₀ (f x)) : KeepsSome s₀ (a.map f) := by
  cases a with
  | none => exact trivial
  | some x => exact hf x

theorem keeps_map_ok {a : Except Nat State} {f : State → State} (ha : KeepsOk s₀ a)
    (hf : ∀ s, Keeps s₀ s → Keeps s₀ (f s)) : KeepsOk s₀ (a.map f) := by
  cases a with
  | error c => exact trivial
  | ok s => exact hf s ha

theorem keeps_map_okFst {β : Type} {a : Except Nat State} {f : State → State × β} (ha : KeepsOk s₀ a)
    (hf : ∀ s, Keeps s₀ s → Keeps s₀ (f s).1) : KeepsOkFst s₀ (a.map f) := by
  cases a with
  | error c => exact trivial
  | ok s => exact hf s ha

theorem keeps_setTeam (hs : Keeps s₀ s) (ht : KeepsTeam s₀ t) : Keeps s₀ (setTeam s u t) := by
  refine ⟨hs.1, fun hw e he => ?_⟩
  obtain rfl | he := mem_tabPut he
  · exact ht hw
  · exact hs.2 hw e he

theorem keeps_modTeam {f : Team → Team} (hs : Keeps s₀ s)
    (hf : ∀ t, KeepsTeam s₀ t → KeepsTeam s₀ (f t) := by exact fun _ h => h) : Keeps s₀ (modTeam s u f) :=
  keeps_setTeam hs (hf _ (keeps_getTeam hs))
end

section
variable {s₀ s : State}

/-! ## Cores, contexts, blocks and translation (Machine/Base) -/

theorem keeps_setCore {n : Nat} {c : Core} (hs : Keeps s₀ s) : Keeps s₀ (setCore s n c) :=
  hs

theorem keeps_setCtx {n : Nat} {c : Ctx} (hs : Keeps s₀ s) : Keeps s₀ (setCtx s n c) :=
  hs

theorem keeps_modCore {n : Nat} {f : Core → Core} (hs : Keeps s₀ s) : Keeps s₀ (modCore s n f) :=
  keeps_setCore hs

theorem keeps_modCtx {n : Nat} {f : Ctx → Ctx} (hs : Keeps s₀ s) : Keeps s₀ (modCtx s n f) :=
  keeps_setCtx hs

theorem keeps_setV {t : Team} {lane r : Nat} {w : W32} (hs : KeepsTeam s₀ t) : KeepsTeam s₀ (setV t lane r w) :=
  hs

theorem keeps_setK {t : Team} {n : Nat} {w : W64} (hs : KeepsTeam s₀ t) : KeepsTeam s₀ (setK t n w) :=
  keeps_ite_team hs hs

theorem keeps_setP {t : Team} {lane p : Nat} {b : Bool} (hs : KeepsTeam s₀ t) : KeepsTeam s₀ (setP t lane p b) :=
  keeps_ite_team hs hs

theorem keeps_pushRec {r : FaultRec} (hs : Keeps s₀ s) : Keeps s₀ (pushRec s r) :=
  keeps_ite (keeps_ite hs hs) (keeps_ite (keeps_setCtx hs) (keeps_setCtx hs))

theorem keeps_watchLow {id : Nat} (hs : Keeps s₀ s) : Keeps s₀ (watchLow s id) :=
  keeps_ite (keeps_ite (keeps_pushRec (keeps_ite (keeps_setCtx hs) hs)) (keeps_ite (keeps_setCtx hs) hs))
    (keeps_setCtx hs)

theorem keeps_enterPool {id n : Nat} (hs : Keeps s₀ s) : Keeps s₀ (enterPool s id n) :=
  keeps_watchLow (keeps_ite (keeps_pushRec hs) hs)

theorem keeps_returnSlice {core : Nat} (hs : Keeps s₀ s) : Keeps s₀ (returnSlice s core) :=
  keeps_ite hs (keeps_enterPool (keeps_setCore hs))

theorem keeps_giveSlice {core id n : Nat} (hs : Keeps s₀ s) : Keeps s₀ (giveSlice s core id n) :=
  keeps_ite (keeps_enterPool hs) (keeps_ite (keeps_enterPool (keeps_setCore hs)) (keeps_watchLow (keeps_setCore hs)))

theorem keeps_debit8 {p : Payer} {id : Nat} (hs : Keeps s₀ s) : Keeps s₀ (debit8 s p id).1 := by
  unfold debit8
  dsimp only
  split
  · exact keeps_ite_fst (keeps_watchLow (keeps_setCtx hs)) hs
  · exact keeps_ite_fst (keeps_watchLow (keeps_setCore (keeps_setCtx hs))) (keeps_setCore (keeps_setCtx hs))

theorem keeps_giveBack {p : Payer} {id n : Nat} (hs : Keeps s₀ s) : Keeps s₀ (giveBack s p id n) := by
  unfold giveBack
  split
  · exact keeps_giveSlice hs
  · exact keeps_enterPool hs

theorem keeps_undebit {p : Payer} {id n : Nat} (hs : Keeps s₀ s) : Keeps s₀ (undebit s p id n) :=
  keeps_ite hs (keeps_giveBack (keeps_modCtx hs))

theorem keeps_setMeta {b : Nat} {m : BlockMeta} (hs : Keeps s₀ s) : Keeps s₀ (setMeta s b m) :=
  hs

theorem keeps_poundDrop {b : Nat} (hs : Keeps s₀ s) : Keeps s₀ (poundDrop s b) :=
  hs

theorem keeps_poundKeep {b : Nat} {dirty : Bool} {pol : Pol} (hs : Keeps s₀ s) : Keeps s₀ (poundKeep s b dirty pol) :=
  hs

theorem keeps_poundMark {b : Nat} {pol : Pol} (hs : Keeps s₀ s) : Keeps s₀ (poundMark s b pol) :=
  hs

theorem keeps_modStack {k : Nat} {f : Stack → Stack} (hs : Keeps s₀ s) : Keeps s₀ (modStack s k f) :=
  hs

theorem keeps_bumpSeq {run n : Nat} (hs : Keeps s₀ s) : Keeps s₀ (bumpSeq s run n) :=
  keeps_ite hs (keeps_modStack hs)

theorem keeps_serveAt {k : Nat} (hs : Keeps s₀ s) : Keeps s₀ (serveAt s k) :=
  keeps_modStack hs

theorem keeps_serveRun {run n : Nat} (hs : Keeps s₀ s) : Keeps s₀ (serveRun s run n) :=
  keeps_ite hs (keeps_modStack hs)

theorem keeps_activate {b : Nat} (hs : Keeps s₀ s) : Keeps s₀ (activate s b) :=
  keeps_ite hs (keeps_serveRun hs)

theorem keeps_readThrough {b : Nat} (hs : Keeps s₀ s) : Keeps s₀ (readThrough s b) :=
  keeps_poundKeep (keeps_activate hs)

theorem keeps_storeBlock {id : Nat} {pay : Payer} {deb : Bool} {b : Nat} {bytes : List (Option Byte)}
    (hs : Keeps s₀ s) :
    Keeps s₀ (storeBlock s id pay deb b bytes) := by
  unfold storeBlock
  extract_lets m full v code n o s0 s1 m' s2 s3 s4 s5
  have hs2 : Keeps s₀ s2 := keeps_setMeta (keeps_mem (keeps_ite hs (keeps_activate hs)) (memoryWf_writeMasked _ _))
  have hs4 : Keeps s₀ s4 := keeps_modCtx (keeps_ite hs2 hs2)
  have hs5 : Keeps s₀ s5 := keeps_poundKeep (keeps_serveRun (keeps_bumpSeq (keeps_ite hs4 (keeps_bumpSeq hs4))))
  exact keeps_ite (keeps_ite (keeps_undebit hs) hs) (keeps_giveBack hs5)

theorem keeps_tableWrite {a : Nat} {bytes : List (Option Byte)} (hs : Keeps s₀ s) : Keeps s₀ (tableWrite s a bytes) :=
  keeps_tspace hs (memoryWf_writeMasked _ _)

theorem keeps_tableWriteNat {a n v : Nat} (hs : Keeps s₀ s) : Keeps s₀ (tableWriteNat s a n v) :=
  keeps_tableWrite hs

theorem keeps_setCompanion {slotAt mask : Nat} (hs : Keeps s₀ s) : Keeps s₀ (setCompanion s slotAt mask) :=
  keeps_ite hs (keeps_tableWriteNat hs)

theorem keeps_tlbInstall {die id : Nat} {l : Leaf} (hs : Keeps s₀ s) : Keeps s₀ (tlbInstall s die id l) :=
  keeps_ite (keeps_setCompanion hs) (keeps_frame (keeps_setCompanion hs) rfl rfl rfl rfl)

theorem keeps_bring {die id va : Nat} (hs : Keeps s₀ s) : Keeps s₀ (bring s die id va) := by
  unfold bring
  split
  · exact hs
  · split
    · exact hs
    · exact keeps_tlbInstall hs

theorem keeps_markDirty {die id va : Nat} (hs : Keeps s₀ s) : Keeps s₀ (markDirty s die id va) := by
  unfold markDirty
  split
  · exact hs
  · exact keeps_setCompanion hs

/-! ## Flags (Machine/Flags) -/

theorem keeps_raiseVector {core part : Nat} {f : FlagSet} (hs : Keeps s₀ s) : Keeps s₀ (raiseVector s core part f) :=
  keeps_ite hs (keeps_modCore hs)

theorem keeps_raiseMatrix {core part : Nat} {f : FlagSet} {approx : Bool} (hs : Keeps s₀ s) :
    Keeps s₀ (raiseMatrix s core part f approx) :=
  keeps_modCore hs

theorem keeps_raiseCopy {core : Nat} {f : FlagSet} (hs : Keeps s₀ s) : Keeps s₀ (raiseCopy s core f) :=
  keeps_modCore hs

/-! ## Memory order (Machine/Order) -/

theorem keeps_enterWrite {key : Nat} {base : List Byte} {w : Write} {newer older : List Write} (hs : Keeps s₀ s) :
    Keeps s₀ (enterWrite s key base w newer older).1 :=
  hs

theorem keeps_writeGrain {a : Author} {key : Nat} {now : List Byte} {bytes : List (Option Byte)} (hs : Keeps s₀ s) :
    Keeps s₀ (writeGrain s a key now bytes).1 :=
  keeps_enterWrite hs

theorem keeps_enterBytes {au : Author} {first a : Nat} {now : Nat → Byte} {bytes : List (Option Byte)}
    (hs : Keeps s₀ s) :
    Keeps s₀ (enterBytes s au first a now bytes).1 := by
  unfold enterBytes
  refine keeps_foldl_fst hs fun _ _ h => ?_
  refine keeps_ite_fst ?_ h
  dsimp only
  exact keeps_writeGrain h

theorem keeps_forgetGrains {g n : Nat} (hs : Keeps s₀ s) : Keeps s₀ (forgetGrains s g n) :=
  hs

theorem keeps_forgetSpad {core : Nat} (hs : Keeps s₀ s) : Keeps s₀ (forgetSpad s core) :=
  keeps_forgetGrains hs

theorem keeps_hostPut {a : Nat} {bs : List Byte} (hs : Keeps s₀ s) : Keeps s₀ (hostPut s a bs) :=
  keeps_hostMem hs (memoryWf_write _ _)

theorem keeps_moveGrains {src dst n : Nat} (hs : Keeps s₀ s) : Keeps s₀ (moveGrains s src dst n) :=
  hs

theorem keeps_meldLanes {u : Nat} (hs : Keeps s₀ s) : Keeps s₀ (meldLanes s u) :=
  keeps_ite hs (keeps_setTeam hs (keeps_getTeam hs))

theorem keeps_raiseClock {core c : Nat} (hs : Keeps s₀ s) : Keeps s₀ (raiseClock s core c) :=
  keeps_ite (keeps_modCore hs) hs

theorem keeps_teamJoins {u : Nat} {v : View} (hs : Keeps s₀ s) : Keeps s₀ (teamJoins s u v) :=
  keeps_raiseClock (keeps_ite hs (keeps_setTeam hs (keeps_getTeam hs)))

theorem keeps_laneReads {u lane first a : Nat} {now : List Byte} (hs : Keeps s₀ s) :
    Keeps s₀ (laneReads s u lane first a now).1 :=
  keeps_ite_fst hs (keeps_setTeam hs (keeps_getTeam hs))

theorem keeps_silentReads {u first a : Nat} {now : List Byte} (hs : Keeps s₀ s) :
    Keeps s₀ (silentReads s u first a now).1 :=
  keeps_ite hs (keeps_setTeam hs (keeps_getTeam hs))

theorem keeps_teamWrote {s0 s : State} {u : Nat} (hs : Keeps s₀ s) : Keeps s₀ (teamWrote s0 s u) :=
  keeps_ite hs (keeps_modTeam hs)

theorem keeps_teamAcquires {u : Nat} {sc : Scope} {l : List Rel} (hs : Keeps s₀ s) :
    Keeps s₀ (teamAcquires s u sc l) :=
  keeps_teamJoins hs

theorem keeps_dropL1 {core : Nat} (hs : Keeps s₀ s) : Keeps s₀ (dropL1 s core) :=
  keeps_modCore hs

theorem keeps_acquire {u : Nat} {sc : Scope} {l : List Rel} (hs : Keeps s₀ s) : Keeps s₀ (acquire s u sc l) :=
  keeps_teamAcquires (keeps_ite hs (keeps_dropL1 hs))

theorem keeps_acquireView {u : Nat} {v : View} (hs : Keeps s₀ s) : Keeps s₀ (acquireView s u v) :=
  keeps_teamJoins (keeps_dropL1 hs)

theorem keeps_addSeqRel {sp h level : Nat} {v : View} (hs : Keeps s₀ s) : Keeps s₀ (addSeqRel s sp h level v) :=
  hs

theorem keeps_dropSeqRels {sp h : Nat} (hs : Keeps s₀ s) : Keeps s₀ (dropSeqRels s sp h) :=
  hs

/-! ## Loom transactions and stores (Machine/Loom) -/

theorem keeps_txStart {sp : Space} {host : Bool} (hs : Keeps s₀ s) : Keeps s₀ (txStart s sp host).s :=
  hs

theorem keeps_txFault {t : Txn} {cause addr : Nat} (hs : Keeps s₀ t.s) : Keeps s₀ (txFault t cause addr).s :=
  keeps_ite_tx hs hs

theorem keeps_txTouch {t : Txn} {id va : Nat} (hs : Keeps s₀ t.s) : Keeps s₀ (txTouch t id va).s :=
  keeps_ite_tx hs hs

theorem keeps_txPlace {t0 : Txn} {va : Nat} {n : Need} (hs : Keeps s₀ t0.s) : Keeps s₀ (txPlace t0 va n).1.s := by
  unfold txPlace
  dsimp only
  split
  · exact hs
  · split
    · exact keeps_txFault (keeps_txTouch hs)
    · exact keeps_txTouch hs
    · exact keeps_txFault (keeps_txTouch hs)
    · exact keeps_txTouch hs

theorem keeps_txMeets {t : Txn} {p : Place} (hs : Keeps s₀ t.s) : Keeps s₀ (txMeets t p).s := by
  unfold txMeets
  split
  · exact keeps_readThrough hs
  · exact hs

theorem keeps_txBytes {t : Txn} {va n : Nat} (hs : Keeps s₀ t.s) : Keeps s₀ (txBytes t va n).1.s := by
  unfold txBytes
  split
  next e1 => exact keeps_of_eq_tx (keeps_txPlace hs) e1
  next e1 =>
    refine keeps_ite_fst_tx ?_ ?_
    · exact keeps_txFault (keeps_of_eq_tx (keeps_txPlace hs) e1)
    · exact keeps_txMeets (keeps_of_eq_tx (keeps_txPlace hs) e1)

theorem keeps_txRead {t : Txn} {va n : Nat} (hs : Keeps s₀ t.s) : Keeps s₀ (txRead t va n).1.s := by
  unfold txRead
  dsimp only
  exact keeps_txBytes hs

theorem keeps_txPut {t : Txn} {va : Nat} {bs : List Byte} (hs : Keeps s₀ t.s) : Keeps s₀ (txPut t va bs).s := by
  have h := keeps_txPlace (va := va) (n := .store) hs
  unfold txPut
  split
  next e => exact keeps_of_eq_tx h e
  next e => exact (keeps_of_eq_tx h e :)

theorem keeps_txWrite {t : Txn} {va n v : Nat} (hs : Keeps s₀ t.s) : Keeps s₀ (txWrite t va n v).s :=
  keeps_txPut hs

theorem keeps_txPutLong {n : Nat} {t : Txn} {n1 : Nat} {x : List Byte} (hs : Keeps s₀ t.s) :
    Keeps s₀ (txPutLong n t n1 x).s := by
  induction n generalizing t n1 x with
  | zero => exact hs
  | succ n ih =>
    unfold txPutLong
    exact keeps_ite_tx hs (ih (keeps_txPut hs))

theorem keeps_txBytesLong {n : Nat} {t : Txn} {n1 n2 : Nat} (hs : Keeps s₀ t.s) :
    Keeps s₀ (txBytesLong n t n1 n2).1.s := by
  induction n generalizing t n1 n2 with
  | zero => exact hs
  | succ n ih =>
    unfold txBytesLong
    refine keeps_ite_fst_tx hs ?_
    dsimp only
    exact ih (keeps_txBytes hs)

theorem keeps_debitN {p : Payer} {id n : Nat} (hs : Keeps s₀ s) : Keeps s₀ (debitN s p id n).1 := by
  induction n generalizing s with
  | zero => exact hs
  | succ n ih =>
    unfold debitN
    dsimp only
    split
    next e1 => exact keeps_of_eq (keeps_debit8 hs) e1
    next e1 => exact ih (keeps_of_eq (keeps_debit8 hs) e1)

theorem keeps_spoilBytes {id a n : Nat} (hs : Keeps s₀ s) : Keeps s₀ (spoilBytes s id a n) := by
  unfold spoilBytes
  refine keeps_ite ?_ hs
  dsimp only
  exact keeps_storeBlock (keeps_enterBytes hs)

theorem keeps_spoilBlock {id b : Nat} (hs : Keeps s₀ s) : Keeps s₀ (spoilBlock s id b) :=
  keeps_spoilBytes hs

theorem keeps_spoilHost {a n : Nat} (hs : Keeps s₀ s) : Keeps s₀ (spoilHost s a n) := by
  unfold spoilHost
  refine keeps_foldl hs fun _ _ h => ?_
  dsimp only
  exact keeps_hostMem (keeps_enterBytes h) (memoryWf_writeMasked _ _)

theorem keeps_strikeStores {own : Option (Nat × Nat)} {b : Nat × Nat} (hs : Keeps s₀ s) :
    Keeps s₀ (strikeStores own s b) := by
  unfold strikeStores
  refine keeps_foldl hs fun _ _ h => ?_
  split
  · exact keeps_spoilBlock h
  · exact keeps_spoilHost h
  · exact h

theorem keeps_strikeOver {own : Option (Nat × Nat)} {b : Nat × Nat} (hs : Keeps s₀ s) :
    Keeps s₀ (strikeOver own s b) :=
  keeps_ite (keeps_strikeStores hs) hs

theorem keeps_storeEntered {own : Option (Nat × Nat)} {id : Nat} {pay : Payer} {deb : Bool} {b : Nat}
    {bytes : List (Option Byte)} {enter : List (Option Byte) → State × List (Option Byte)} (hs : Keeps s₀ s)
    (henter : ∀ x0, Keeps s₀ (enter x0).1) :
    Keeps s₀ (storeEntered own s id pay deb b bytes enter) := by
  unfold storeEntered
  refine keeps_ite (keeps_storeBlock hs) ?_
  dsimp only
  exact keeps_strikeOver (keeps_storeBlock (henter _))

theorem keeps_storeOver {au : Author} {id : Nat} {pay : Payer} {deb : Bool} {b : Nat} {bytes : List (Option Byte)}
    (hs : Keeps s₀ s) :
    Keeps s₀ (storeOver au s id pay deb b bytes) :=
  keeps_storeEntered hs fun _ => keeps_enterBytes hs

theorem keeps_hostEntered {own : Option (Nat × Nat)} {a : Nat} {bytes : List (Option Byte)}
    {enter : List (Option Byte) → State × List (Option Byte)} (henter : ∀ x0, Keeps s₀ (enter x0).1) :
    Keeps s₀ (hostEntered own s a bytes enter) := by
  unfold hostEntered
  dsimp only
  exact keeps_strikeOver (keeps_hostMem (henter _) (memoryWf_writeMasked _ _))

theorem keeps_hostStore {au : Author} {a : Nat} {bytes : List (Option Byte)} (hs : Keeps s₀ s) :
    Keeps s₀ (hostStore au s a bytes) :=
  keeps_hostEntered fun _ => keeps_enterBytes hs

theorem keeps_txStore {sp : Space} {die : Nat} {pay : Payer} {t : Txn} {s0 : State} {b : Nat} (hs : Keeps s₀ s0) :
    Keeps s₀ (txStore sp die pay t s0 b) := by
  unfold txStore
  dsimp only
  split
  · exact keeps_tableWrite hs
  · split
    · refine keeps_ite ?_ ?_
      · exact keeps_setMeta (keeps_storeOver (keeps_markDirty (keeps_bring hs)))
      · exact keeps_storeOver (keeps_markDirty (keeps_bring hs))
    · exact keeps_hostStore (keeps_bring hs)
    · exact keeps_bring hs

theorem keeps_spoilRange {sp : Space} {r : Nat × Nat} (hs : Keeps s₀ s) : Keeps s₀ (spoilRange sp s r) := by
  unfold spoilRange
  dsimp only
  split
  · exact keeps_foldl hs fun _ _ h => keeps_tableWrite h
  · refine keeps_foldl hs fun _ _ h => ?_
    split
    · exact keeps_spoilBytes h
    · exact keeps_spoilHost h
    · exact h

theorem keeps_keepTail {t : Txn} (hs : Keeps s₀ s) : Keeps s₀ (keepTail t s) := by
  unfold keepTail
  split
  · exact hs
  · exact hs

theorem keeps_keepFreed {t : Txn} (hs : Keeps s₀ s) : Keeps s₀ (keepFreed t s) :=
  hs

theorem keeps_keepBegins {t : Txn} (hs : Keeps s₀ s) : Keeps s₀ (keepBegins t s) := by
  unfold keepBegins
  split
  · exact keeps_dropSeqRels hs
  · exact hs

theorem keeps_txFinish {t : Txn} {die : Nat} {pay : Payer} (hs : Keeps s₀ t.s) : KeepsTx s₀ (txFinish t die pay) := by
  unfold txFinish
  split
  · exact hs
  · exact hs
  · split
    · exact hs
    · split
      · exact hs
      · extract_lets
        split
        next s1 _ e3 =>
          have hs1 : Keeps s₀ s1 := keeps_of_eq (keeps_debitN hs) e3
          split
          · exact keeps_undebit hs1
          · exact keeps_keepBegins (keeps_keepFreed (keeps_keepTail (keeps_foldl
                    (keeps_foldl hs1 fun _ _ h => keeps_spoilRange h) fun _ _ h => keeps_txStore h)))

theorem keeps_txHdr {t : Txn} {h : Nat} (hs : Keeps s₀ t.s) : Keeps s₀ (txHdr t h).1.s := by
  unfold txHdr
  refine keeps_ite_fst_tx hs ?_
  dsimp only
  split
  · exact keeps_txRead (keeps_txBytes hs)
  · exact keeps_txBytes hs

theorem keeps_txLens {t : Txn} {hd : Hdr} {cl rl : Nat} (hs : Keeps s₀ t.s) : Keeps s₀ (txLens t hd cl rl).s :=
  keeps_txWrite hs

theorem keeps_txBit {t : Txn} {base i : Nat} (hs : Keeps s₀ t.s) : Keeps s₀ (txBit t base i).1.s := by
  unfold txBit
  dsimp only
  exact keeps_txRead hs

theorem keeps_txSetBit {t : Txn} {base i : Nat} {v : Bool} (hs : Keeps s₀ t.s) :
    Keeps s₀ (txSetBit t base i v).s := by
  unfold txSetBit
  dsimp only
  exact keeps_txWrite (keeps_txRead hs)

theorem keeps_txFill {t : Txn} {hd : Hdr} {s : Nat} (hs : Keeps s₀ t.s) : Keeps s₀ (txFill t hd s).1.s :=
  keeps_txBit hs

theorem keeps_txSetFill {t : Txn} {hd : Hdr} {s : Nat} {v : Bool} (hs : Keeps s₀ t.s) :
    Keeps s₀ (txSetFill t hd s v).s :=
  keeps_txSetBit hs

theorem keeps_txAdvance {hd : Hdr} {n : Nat} {t : Txn} {n1 : Nat} (hs : Keeps s₀ t.s) :
    Keeps s₀ (txAdvance hd n t n1).1.s := by
  induction n generalizing t n1 with
  | zero => exact hs
  | succ n ih =>
    unfold txAdvance
    split
    next e1 => exact keeps_of_eq_tx (keeps_txFill hs) e1
    next e1 => exact ih (keeps_txSetFill (keeps_of_eq_tx (keeps_txFill hs) e1))

theorem keeps_txClose {hd : Hdr} {void : Bool} {n : Nat} {t : Txn} {n1 : Nat} (hs : Keeps s₀ t.s) :
    Keeps s₀ (txClose hd void n t n1).s := by
  induction n generalizing t n1 with
  | zero => exact hs
  | succ n ih =>
    unfold txClose
    exact ih (keeps_ite_tx (keeps_txSetBit (keeps_txSetFill hs)) (keeps_txSetFill hs))

theorem keeps_txReserved {hd : Hdr} {n : Nat} {t : Txn} {n1 : Nat} (hs : Keeps s₀ t.s) :
    Keeps s₀ (txReserved hd n t n1).1.s := by
  induction n generalizing t n1 with
  | zero => exact hs
  | succ n ih =>
    unfold txReserved
    refine keeps_ite_fst_tx hs ?_
    split
    next e1 => exact keeps_of_eq_tx (keeps_txFill hs) e1
    next e1 => exact ih (keeps_of_eq_tx (keeps_txFill hs) e1)

theorem keeps_txRing {t : Txn} {hd : Hdr} (hs : Keeps s₀ t.s) : Keeps s₀ (txRing t hd).s :=
  keeps_ite_tx hs (keeps_ite_tx hs hs)

theorem keeps_wakeSeq {t : Team} (hs : KeepsTeam s₀ t) : KeepsTeam s₀ (wakeSeq s t) := by
  unfold wakeSeq
  split
  · exact keeps_ite_team hs hs
  · exact hs

theorem keeps_noteQueue {sp : Space} {h : Nat} (hs : Keeps s₀ s) : Keeps s₀ (noteQueue s sp h) :=
  keeps_ite hs hs

theorem keeps_readAgain {which : QueueSt → Bool} (hs : Keeps s₀ s) : Keeps s₀ (readAgain s which) :=
  hs

theorem keeps_commitTo {sp : Space} {h : Nat} (hs : Keeps s₀ s) : Keeps s₀ (commitTo s sp h) :=
  keeps_readAgain hs

theorem keeps_afterCl {s0 : State} {sp : Space} {h cl : Nat} (hs : Keeps s₀ s0) : Keeps s₀ (afterCl s0 sp h cl) := by
  unfold afterCl
  extract_lets s
  have h1 : Keeps s₀ s := keeps_noteQueue hs
  clear_value s
  split
  · exact keeps_ite (keeps_frame h1 rfl rfl rfl rfl) h1
  · extract_lets c s1 s2
    have h2 : Keeps s₀ s1 := keeps_ite (keeps_setCtx h1) h1
    exact keeps_teams (s := s2) h2 rfl fun _ ht => keeps_wakeSeq ht

theorem keeps_appendOne {sp : Space} {pay : Payer} {h slg : Nat} {bytes : List Byte} {v : View} (hs : Keeps s₀ s) :
    KeepsAppend s₀ (appendOne s sp pay h slg bytes v) := by
  unfold appendOne
  extract_lets
  split
  next e1 =>
    split
    · exact trivial
    · extract_lets
      split
      next e2 =>
        split
        next s1 e3 =>
          have hs1 : Keeps s₀ s1 :=
            keeps_of_result (P := KeepsTx) (keeps_txFinish (keeps_txLens (keeps_of_eq_tx (keeps_txAdvance
                      (keeps_txSetFill (keeps_txPutLong (keeps_txRing
                             (keeps_of_eq_tx (keeps_txHdr (keeps_txStart hs)) e1))))) e2))) e3
          exact keeps_addSeqRel (keeps_ite hs1 (keeps_afterCl hs1))
        · split
          · exact trivial
          · exact trivial

theorem keeps_appendSlot {sp : Space} {pay : Payer} {h slg : Nat} {bytes : List Byte} (hs : Keeps s₀ s) :
    KeepsSomeFst s₀ (appendSlot s sp pay h slg bytes) := by
  unfold appendSlot
  split
  next e1 => exact keeps_of_result (P := KeepsAppend) (keeps_appendOne hs) e1
  · exact trivial

/-! ## What the operations share (Machine/Ops) -/

theorem keeps_traceAppend {u : Nat} (hs : Keeps s₀ s) : Keeps s₀ (traceAppend s u) := by
  unfold traceAppend
  refine keeps_ite hs ?_
  dsimp only
  split
  next e1 =>
    refine keeps_modTeam ?_
    refine keeps_of_result (P := KeepsSomeFst) ?_ e1
    split
    · exact trivial
    · exact keeps_appendSlot hs
  · exact keeps_modTeam hs

theorem keeps_tracePut {u : Nat} {bytes : List Byte} (hs : Keeps s₀ s) : Keeps s₀ (tracePut s u bytes).1 :=
  keeps_ite_fst (keeps_traceAppend hs) (keeps_modTeam hs)

theorem keeps_traceEmit {g : GroupView} {p : Pkt} {n n1 : Nat} (hs : Keeps s₀ s) :
    Keeps s₀ (traceEmit g p n s n1) := by
  induction n generalizing s n1 with
  | zero => exact hs
  | succ n ih =>
    unfold traceEmit
    extract_lets t now synced
    have hput : ∀ {x}, Keeps s₀ (tracePut s n1 x).1 := keeps_tracePut hs
    have hsync : ∀ s, Keeps s₀ s → Keeps s₀ (synced s) := fun _ h => keeps_modTeam h
    refine keeps_ite ?_ (keeps_ite ?_ (keeps_ite ?_ ?_))
    · split
      next e => exact ih (keeps_modTeam (keeps_of_eq hput e))
      next e => exact ih (keeps_of_eq hput e)
    · split
      next e =>
        have h1 := hsync _ (keeps_of_eq hput e)
        exact keeps_ite h1 (ih h1)
      next e => exact ih (keeps_of_eq hput e)
    · split
      next e => exact ih (keeps_modTeam (keeps_of_eq hput e))
      next e => exact ih (keeps_of_eq hput e)
    · split
      next e => exact keeps_modTeam (keeps_of_eq hput e)
      next e => exact ih (keeps_of_eq hput e)

theorem keeps_recDone {r : FaultRec} {slot : Nat} (hs : Keeps s₀ s) : Keeps s₀ (recDone s r slot) := by
  unfold recDone
  dsimp only
  split
  · exact hs
  · exact keeps_ite (keeps_modCtx (keeps_modTeam hs)) (keeps_modTeam hs)

theorem keeps_flushCtx {n n1 : Nat} (hs : Keeps s₀ s) : Keeps s₀ (flushCtx n s n1) := by
  induction n generalizing s n1 with
  | zero => exact hs
  | succ n ih =>
    unfold flushCtx
    refine keeps_ite hs ?_
    split
    · exact keeps_setCtx hs
    · split
      · exact keeps_setCtx hs
      · exact keeps_setCtx hs
      next e2 => exact ih (keeps_recDone (keeps_modCtx (keeps_of_result (P := KeepsAppend) (keeps_appendOne hs) e2)))

theorem keeps_flushDev {n : Nat} (hs : Keeps s₀ s) : Keeps s₀ (flushDev n s) := by
  induction n generalizing s with
  | zero => exact hs
  | succ n ih =>
    unfold flushDev
    refine keeps_ite hs ?_
    split
    · exact hs
    · split
      · exact hs
      next e2 => exact ih (keeps_of_result (P := KeepsSomeFst) (keeps_appendSlot hs) e2)

theorem keeps_settle (hs : Keeps s₀ s) : Keeps s₀ (settle s) := by
  unfold settle
  extract_lets s1
  have hs1 : Keeps s₀ s1 := keeps_foldl hs fun _ _ h => keeps_ite (keeps_flushCtx (keeps_modCtx h)) h
  exact keeps_ite (keeps_flushDev hs1) hs1

theorem keeps_done (hs : Keeps s₀ s) : KeepsOut s₀ (done s) :=
  keeps_settle hs

theorem keeps_sendPeer {u ctx slot va addr : Nat} {q : PeerAsk} (hs : Keeps s₀ s) :
    Keeps s₀ (sendPeer s u ctx slot va addr q).1 := by
  unfold sendPeer
  exact keeps_frame hs rfl rfl rfl rfl

theorem keeps_askPeer {n u : Nat} {e : Nat × Nat × Nat} (hs : Keeps s₀ s) : Keeps s₀ (askPeer n u s e) := by
  unfold askPeer
  refine keeps_ite ?_ hs
  dsimp only
  exact keeps_modTeam (keeps_sendPeer hs)

theorem keeps_askPeers {u n : Nat} {l : List (Nat × Nat × Nat)} (hs : Keeps s₀ s) : Keeps s₀ (askPeers s u n l) :=
  keeps_modTeam (keeps_foldl hs fun _ _ h => keeps_askPeer h)

theorem keeps_writeHome {u b : Nat} {bytes : List (Option Byte)} {deb : Bool} {pol : Pol} (hs : Keeps s₀ s) :
    Keeps s₀ (writeHome s u b bytes deb pol) := by
  unfold writeHome
  dsimp only
  split
  · exact keeps_poundMark (keeps_teamWrote (keeps_storeOver (keeps_markDirty hs)))
  · exact keeps_teamWrote (keeps_hostStore hs)
  · exact keeps_sendPeer (keeps_strikeOver hs)
  · exact hs

theorem keeps_l1Trim {core : Nat} (hs : Keeps s₀ s) : Keeps s₀ (l1Trim s core) :=
  keeps_setCore hs

theorem keeps_l1Keep {core b : Nat} {pol : Pol} {read : Bool} (hs : Keeps s₀ s) :
    Keeps s₀ (l1Keep s core b pol read) :=
  keeps_ite (keeps_setCore hs) (keeps_ite (keeps_setCore hs) (keeps_ite (keeps_setCore hs) (keeps_setCore hs)))

theorem keeps_commitBlock {u : Nat} {t : Team} {b : Nat} (hs : Keeps s₀ s) : Keeps s₀ (commitBlock u t s b) := by
  unfold commitBlock
  extract_lets zero pol s1 part s2
  have h1 : Keeps s₀ s1 := keeps_ite (keeps_writeHome hs) hs
  have h2 : Keeps s₀ s2 := keeps_ite (keeps_writeHome h1) h1
  exact keeps_ite (keeps_l1Keep h2) h2

theorem keeps_commitRegion {u : Nat} (hs : Keeps s₀ s) : Keeps s₀ (commitRegion s u) :=
  keeps_modTeam (keeps_foldl (keeps_meldLanes hs) fun _ _ h => keeps_commitBlock h)

theorem keeps_abortRegion {u : Nat} (hs : Keeps s₀ s) : Keeps s₀ (abortRegion s u) :=
  keeps_modTeam (keeps_undebit hs)

theorem keeps_takeSnap {u : Nat} (hs : Keeps s₀ s) : Keeps s₀ (takeSnap s u) :=
  keeps_modTeam hs

theorem keeps_spoilSpad {n core : Nat} {r : Nat × Nat} (hs : Keeps s₀ s) : Keeps s₀ (spoilSpad n s core r) := by
  unfold spoilSpad
  dsimp only
  exact keeps_modCore (keeps_enterBytes hs)

theorem keeps_spoil {n core : Nat} {o : MOp} (hs : Keeps s₀ s) : Keeps s₀ (spoil n s core o) :=
  keeps_foldl (keeps_modCore hs) fun _ _ h => keeps_spoilSpad h

theorem keeps_strike {core : Nat} {own : Option Nat} {uses : MOp → Bool} (hs : Keeps s₀ s) :
    Keeps s₀ (strike s core own uses) :=
  keeps_ite (keeps_foldl (keeps_setCore hs) fun _ _ h => keeps_spoil h) hs

theorem keeps_setVHeld {n : Nat} {held : List Nat} {t : Team} {lane r : Nat} {w : W32} (hs : KeepsTeam s₀ t) :
    KeepsTeam s₀ (setVHeld n held t lane r w) := by
  have h : KeepsTeam s₀ (setV t lane r w) := keeps_setV hs
  exact keeps_ite_team (keeps_ite_team h hs) h

theorem keeps_taintRegs {u core : Nat} {regs : List Nat} (hs : Keeps s₀ s) : Keeps s₀ (taintRegs s u core regs) :=
  keeps_ite (keeps_strike hs) hs

theorem keeps_applyPending {n : Nat} {held : List Nat} {t : Team} {p : Pending} (hs : KeepsTeam s₀ t) :
    KeepsTeam s₀ (applyPending n held t p) := by
  unfold applyPending
  extract_lets t0 t1
  have ht1 : KeepsTeam s₀ t1 :=
    keeps_foldl_team (keeps_foldl_team hs fun _ _ h => keeps_setVHeld h) fun _ _ h => keeps_setP h
  split
  · exact keeps_setK ht1
  · exact ht1

theorem keeps_spadWriteBy {au : Author} {s0 : State} {core a : Nat} {bs : List Byte} (hs : Keeps s₀ s0) :
    Keeps s₀ (spadWriteBy au s0 core a bs) :=
  keeps_strike (keeps_setCore (keeps_enterBytes hs))

theorem keeps_spadWrite {u lane a : Nat} {bs : List Byte} (hs : Keeps s₀ s) : Keeps s₀ (spadWrite s u lane a bs) :=
  keeps_teamWrote (keeps_spadWriteBy hs)

theorem keeps_spadRead {u lane a n : Nat} (hs : Keeps s₀ s) : Keeps s₀ (spadRead s u lane a n).1 := by
  unfold spadRead
  dsimp only
  exact keeps_laneReads hs

theorem keeps_flushSpad {core : Nat} (hs : Keeps s₀ s) : Keeps s₀ (flushSpad s core) :=
  keeps_ite hs (keeps_setCore hs)

theorem keeps_flushLate {u core : Nat} (hs : Keeps s₀ s) : Keeps s₀ (flushLate s u core) := by
  unfold flushLate
  extract_lets t held go s1 s2
  have hs2 : Keeps s₀ s2 := keeps_flushSpad (keeps_ite hs (keeps_setTeam hs (keeps_getTeam hs)))
  exact keeps_ite (keeps_flushSpad hs2) hs2

theorem keeps_settleStop {core : Nat} (hs : Keeps s₀ s) : Keeps s₀ (settleStop s core) := by
  unfold settleStop
  split
  · split
    · exact keeps_ite hs (keeps_pushRec (keeps_modCore hs))
    · exact hs
  · exact hs

theorem keeps_preciseStop {core : Nat} {u : Option Nat} {r : FaultRec} {completed : Bool} (hs : Keeps s₀ s) :
    Keeps s₀ (preciseStop s core u r completed) := by
  unfold preciseStop
  dsimp only
  split
  · exact keeps_settleStop hs
  · refine keeps_settleStop ?_
    refine keeps_modCore ?_
    split
    · exact keeps_modTeam hs
    · exact hs

theorem keeps_teamStopWith {u cause : Nat} {lane : Option Nat} {addr w5 w6 w7 : Nat} (hs : Keeps s₀ s) :
    Keeps s₀ (teamStopWith s u cause lane addr w5 w6 w7) :=
  keeps_preciseStop hs

theorem keeps_teamStop {u cause : Nat} {lane : Option Nat} {addr : Nat} (hs : Keeps s₀ s) :
    Keeps s₀ (teamStop s u cause lane addr) :=
  keeps_teamStopWith hs

theorem keeps_finishIssued {u : Nat} (hs : Keeps s₀ s) : Keeps s₀ (finishIssued s u) :=
  keeps_taintRegs (keeps_setTeam hs (keeps_foldl_team (keeps_getTeam hs) fun _ _ h => keeps_applyPending h))

theorem keeps_stepStop {u : Nat} (hs : Keeps s₀ s) : Keeps s₀ (stepStop s u) :=
  keeps_preciseStop (keeps_modTeam hs)

theorem keeps_replayFault {u : Nat} {r : FaultRec} (hs : Keeps s₀ s) : Keeps s₀ (replayFault s u r) := by
  unfold replayFault
  extract_lets t s1 s2 s3
  have hs2 : Keeps s₀ s2 :=
    keeps_modTeam (keeps_pushRec (keeps_traceAppend (keeps_finishIssued (keeps_abortRegion hs))))
  have hs3 : Keeps s₀ s3 := keeps_settleStop (keeps_ite (keeps_returnSlice hs2) hs2)
  exact keeps_ite (keeps_stepStop hs3) hs3

theorem keeps_teamReplay {u cause : Nat} {lane : Option Nat} {addr : Nat} (hs : Keeps s₀ s) :
    Keeps s₀ (teamReplay s u cause lane addr) :=
  keeps_replayFault hs

theorem keeps_teamFault {u cause : Nat} {lane : Option Nat} {addr : Nat} (hs : Keeps s₀ s) :
    Keeps s₀ (teamFault s u cause lane addr) :=
  keeps_ite (keeps_teamReplay hs) (keeps_teamStop hs)

theorem keeps_restartTeam {u : Nat} (hs : Keeps s₀ s) : Keeps s₀ (restartTeam s u) :=
  keeps_modTeam hs

theorem keeps_resolveRecord {id slot : Nat} (hs : Keeps s₀ s) : Keeps s₀ (resolveRecord s id slot) := by
  unfold resolveRecord
  dsimp only
  split
  · exact hs
  · exact keeps_ite (keeps_restartTeam (keeps_setCtx hs)) (keeps_setCtx hs)

theorem keeps_bookGroup {t : Team} (hs : KeepsTeam s₀ t) : KeepsTeam s₀ (bookGroup t) := by
  unfold bookGroup
  split
  · exact hs
  · exact hs

theorem keeps_advance {u : Nat} {fl : Flow} {nexts : List (Nat × Nat)} {un : Option Nat} {redirect snap : Bool}
    (hs : Keeps s₀ s) :
    Keeps s₀ (advance s u fl nexts un redirect snap) := by
  unfold advance
  extract_lets t
  have ht : KeepsTeam s₀ t := keeps_bookGroup (keeps_getTeam hs)
  split
  · split
    · extract_lets s1
      have hs1 : Keeps s₀ s1 := keeps_setTeam hs ht
      exact keeps_ite (keeps_stepStop hs1) hs1
    · extract_lets f1 jump drain t1 s1 s2
      have hs1 : Keeps s₀ s1 := keeps_setTeam hs ht
      have hs2 : Keeps s₀ s2 := keeps_ite (keeps_traceEmit hs1) hs1
      exact keeps_ite (keeps_stepStop hs2) hs2

theorem keeps_fallThrough {u : Nat} {snap : Bool} (hs : Keeps s₀ s) : Keeps s₀ (fallThrough s u snap) :=
  keeps_advance hs

theorem keeps_waitFor {u : Nat} {w : Wait} (hs : Keeps s₀ s) : Keeps s₀ (waitFor s u w) :=
  keeps_ite (keeps_stepStop (keeps_modTeam hs)) (keeps_modTeam hs)

theorem keeps_skipInstr {u : Nat} (hs : Keeps s₀ s) : Keeps s₀ (skipInstr s u) :=
  keeps_fallThrough (keeps_modTeam hs)

theorem keeps_clearStep {core : Nat} (hs : Keeps s₀ s) : Keeps s₀ (clearStep s core) := by
  unfold clearStep
  refine keeps_teams hs rfl fun _ h => ?_
  dsimp only
  split
  · exact h
  · exact h

theorem keeps_leaveStop {core : Nat} {skip : Bool} (hs : Keeps s₀ s) : Keeps s₀ (leaveStop s core skip) := by
  unfold leaveStop
  split
  · exact hs
  · extract_lets s1 drain s2
    have hs2 : Keeps s₀ s2 := keeps_foldl (keeps_modCore (keeps_clearStep hs)) fun _ _ h => keeps_modTeam h
    split
    · exact hs2
    · exact keeps_ite hs2 (keeps_ite (keeps_ite (keeps_skipInstr hs2) hs2)
          (keeps_ite (keeps_skipInstr hs2) (keeps_modTeam hs2)))

/-! ## Interval mode (Machine/Interval) -/

theorem keeps_markUnsure {t : Team} {lane : Nat} {regs preds : List Nat} (hs : KeepsTeam s₀ t) :
    KeepsTeam s₀ (markUnsure t lane regs preds) :=
  hs

theorem keeps_ivSet {t : Team} {lane : Nat} {o : IOut} (hs : KeepsTeam s₀ t) : KeepsTeam s₀ (ivSet t lane o) :=
  hs

theorem keeps_triSet {t : Team} {lane p : Nat} {x : Tri} (hs : KeepsTeam s₀ t) : KeepsTeam s₀ (triSet t lane p x) :=
  keeps_ite_team hs hs

theorem keeps_ilaneWrite {t : Team} {lane : Nat} {o : ILane} (hs : KeepsTeam s₀ t) :
    KeepsTeam s₀ (ilaneWrite t lane o) :=
  keeps_markUnsure (keeps_foldl_team (keeps_foldl_team hs fun _ _ h => keeps_ivSet h) fun _ _ h => keeps_triSet h)

theorem keeps_modKernel {kid : Nat} {f : Kernel → Kernel} (hs : Keeps s₀ s) : Keeps s₀ (modKernel s kid f) :=
  hs

theorem keeps_undecide {u lane : Nat} (hs : Keeps s₀ s) : Keeps s₀ (undecide s u lane) :=
  keeps_modTeam (keeps_ite (keeps_modKernel hs) hs)

theorem keeps_undecideAll {u : Nat} {lanes : List Nat} (hs : Keeps s₀ s) : Keeps s₀ (undecideAll s u lanes) :=
  keeps_foldl hs fun _ _ h => keeps_undecide h

/-! ## Issue and operands (Machine/Operands) -/

theorem keeps_beginGroup {b : Option (List InFlight)} (hs : Keeps s₀ s) : Keeps s₀ (beginGroup s b) := by
  unfold beginGroup
  extract_lets u t0 s1 s2
  have h1 : Keeps s₀ s1 := keeps_setTeam hs (keeps_getTeam hs)
  have h2 : Keeps s₀ s2 := keeps_ite (keeps_teams h1 rfl fun _ h => h) h1
  exact keeps_ite (keeps_traceEmit h2) h2

theorem keeps_issueOp {a : Access} {eff : State → Nat → Team → Out}
    (heff : ∀ s0 n1 t2, Keeps s₀ s0 → KeepsOut s₀ (eff s0 n1 t2)) (hs : Keeps s₀ s) :
    KeepsOut s₀ (issueOp a eff s) := by
  unfold issueOp
  refine keeps_ite_out (keeps_done (keeps_fallThrough (keeps_beginGroup hs))) ?_
  split
  · exact keeps_done (keeps_teamStop (keeps_beginGroup hs))
  · exact keeps_ite_out hs (heff _ _ _ (keeps_beginGroup hs))

theorem keeps_boundaryOp {a : Access} {eff : State → Nat → Team → Out}
    (heff : ∀ s0 n1 t2, Keeps s₀ s0 → KeepsOut s₀ (eff s0 n1 t2)) (hs : Keeps s₀ s) :
    KeepsOut s₀ (boundaryOp a eff s) :=
  keeps_issueOp (fun _ _ _ h => keeps_ite_out hs (heff _ _ _ (keeps_takeSnap (keeps_commitRegion h)))) hs

theorem keeps_normalOnly {eff : State → Nat → Team → Out} {u : Nat} {t : Team}
    (heff : ∀ s0 n1 t2, Keeps s₀ s0 → KeepsOut s₀ (eff s0 n1 t2)) (hs : Keeps s₀ s) :
    KeepsOut s₀ (normalOnly eff s u t) :=
  keeps_ite_out (keeps_done (keeps_teamStop hs)) (heff _ _ _ hs)

theorem keeps_uniformOp {a : Access} {d : KReg} {f : State → Team → W64} (hs : Keeps s₀ s) :
    KeepsOut s₀ (uniformOp a d f s) :=
  keeps_issueOp (fun _ _ _ h => keeps_done (keeps_fallThrough (keeps_modTeam h fun _ h1 => keeps_setK h1))) hs

theorem keeps_laneWrite {n : Nat} {held : List Nat} {t : Team} {lane : Nat} {o : LaneOut} (hs : KeepsTeam s₀ t) :
    KeepsTeam s₀ (laneWrite n held t lane o) :=
  keeps_foldl_team (keeps_foldl_team hs fun _ _ h => keeps_setVHeld h) fun _ _ h => keeps_setP h

theorem keeps_lanesWrite {n : Nat} {held : List Nat} {t : Team} {outs : List (Nat × LaneOut)} (hs : KeepsTeam s₀ t) :
    KeepsTeam s₀ (lanesWrite n held t outs) :=
  keeps_foldl_team hs fun _ _ h => keeps_laneWrite h

theorem keeps_writeLanes {u : Nat} {outs : List (Nat × LaneOut)} (hs : Keeps s₀ s) : Keeps s₀ (writeLanes s u outs) :=
  keeps_taintRegs (keeps_setTeam hs (keeps_lanesWrite (keeps_getTeam hs)))

theorem keeps_ivApply {u : Nat} {t : Team} {g : Team → Nat → ILane} (hs : Keeps s₀ s) : Keeps s₀ (ivApply s u t g) :=
  keeps_undecideAll (keeps_modTeam hs
      fun _ h => keeps_foldl_team h (fun _ _ h1 => keeps_ite_team h1 (keeps_ilaneWrite h1)))

theorem keeps_ivNext {u : Nat} (hs : Keeps s₀ s) : Keeps s₀ (ivNext s u) :=
  keeps_advance hs

theorem keeps_vecOp {a : Access} {f : Team → Nat → LaneOut} {g : Option (Team → Nat → ILane)} (hs : Keeps s₀ s) :
    KeepsOut s₀ (vecOp a f g s) := by
  refine keeps_issueOp (fun _ _ _ h => keeps_ite_out (keeps_done (keeps_ivNext (keeps_ivApply h))) ?_) hs
  exact keeps_done (keeps_fallThrough (keeps_raiseVector (keeps_writeLanes h)))

theorem keeps_vecLater {a : Access} {f : Team → Nat → LaneOut} {g : Option (Team → Nat → ILane)} (hs : Keeps s₀ s) :
    KeepsOut s₀ (vecLater a f g s) := by
  refine keeps_issueOp (fun _ _ _ h => keeps_ite_out (keeps_done (keeps_ivNext (keeps_ivApply h))) ?_) hs
  exact keeps_done (keeps_fallThrough (keeps_raiseVector (keeps_modTeam h)))

/-! ## Float instructions (Machine/Float) -/

theorem keeps_fopExec {op : FOp} {ty : FTy} {rm : RMode} {sat : Bool} {d a b : VReg} (hs : Keeps s₀ s) :
    KeepsOut s₀ (fopExec op ty rm sat d a b s) :=
  keeps_vecOp hs

theorem keeps_execCvt {code : BitVec 7} {rm : RMode} {sat : Bool} {d a : VReg} (hs : Keeps s₀ s) :
    KeepsOut s₀ (execCvt code rm sat d a s) := by
  unfold execCvt
  split
  · exact keeps_vecOp hs
  · exact keeps_vecOp hs

/-! ## Cross-lane instructions (Machine/CrossLane) -/

theorem keeps_crossOp {a : Access} {later : Bool} {outs : Team → List (Nat × LaneOut)} (hs : Keeps s₀ s) :
    KeepsOut s₀ (crossOp a later outs s) := by
  unfold crossOp
  refine keeps_issueOp (fun s u t h => ?_) hs
  refine keeps_ite_out (keeps_done (keeps_ivNext (keeps_ivApply h))) ?_
  extract_lets os flags ws ps p s1
  refine keeps_ite_out ?_ (keeps_done (keeps_fallThrough (keeps_raiseVector (keeps_writeLanes h))))
  have h1 : Keeps s₀ s1 := keeps_modTeam h
  exact keeps_done (keeps_fallThrough (keeps_raiseVector h1))

theorem keeps_execVote {kind : VoteKind} {team : Bool} {d : VReg} {q : PReg} {neg : Bool} (hs : Keeps s₀ s) :
    KeepsOut s₀ (execVote kind team d q neg s) := by
  unfold execVote
  exact keeps_crossOp hs

/-! ## Uniform instructions (Machine/Uniform) -/

theorem keeps_k3Op {d a : KReg} {b : BitVec 7} {lat : Nat} {f : W64 → W64 → W64} (hs : Keeps s₀ s) :
    KeepsOut s₀ (k3Op d a b lat f s) :=
  keeps_uniformOp hs

theorem keeps_kLater {u n : Nat} {w : W64} (hs : Keeps s₀ s) : Keeps s₀ (kLater s u n w) :=
  keeps_modTeam hs

theorem keeps_execKdiv {d a : KReg} {b : BitVec 7} (hs : Keeps s₀ s) : KeepsOut s₀ (execKdiv d a b s) :=
  keeps_issueOp (fun _ _ _ h => keeps_done (keeps_fallThrough (keeps_kLater h))) hs

theorem keeps_execMovs {vec : Bool} {d : KReg} {sv : Sv} (hs : Keeps s₀ s) : KeepsOut s₀ (execMovs vec d sv s) :=
  keeps_ite_out (keeps_vecOp hs) (keeps_uniformOp hs)

/-! ## Access to memory (Machine/Access) -/

theorem keeps_requestWalkAt {die u : Nat} {pages : List Nat} (hs : Keeps s₀ s) :
    Keeps s₀ (requestWalkAt s die u pages) :=
  keeps_waitFor hs

theorem keeps_requestWalk {u : Nat} {pages : List Nat} (hs : Keeps s₀ s) : Keeps s₀ (requestWalk s u pages) :=
  keeps_requestWalkAt hs

theorem keeps_withChecked {u : Nat} {c : Checked} {un : Bool} {k : List Touch → Out} (hs : Keeps s₀ s)
    (hk : ∀ x0, KeepsOut s₀ (k x0)) :
    KeepsOut s₀ (withChecked s u c un k) := by
  unfold withChecked
  split
  · exact hk _
  · exact keeps_done (keeps_requestWalk hs)
  · exact keeps_done (keeps_teamFault hs)

theorem keeps_hearSlice {core b : Nat} (hs : Keeps s₀ s) : Keeps s₀ (hearSlice s core b) :=
  keeps_ite (keeps_modCore hs) hs

theorem keeps_throughCaches {core : Nat} {pol : Pol} {va b : Nat} (hs : Keeps s₀ s) :
    Keeps s₀ (throughCaches s core pol va b) :=
  keeps_ite (keeps_ite hs (keeps_l1Keep hs)) (keeps_hearSlice (keeps_poundKeep
        (keeps_activate (keeps_ite hs (keeps_l1Keep hs)))))

theorem keeps_placeReadBy {core : Nat} {pol : Pol} {va n : Nat} {p : Place}
    {reads : State → Nat → Nat → List Byte → State × List Byte} (hs : Keeps s₀ s)
    (hreads : ∀ s0 n1 n2 x3, Keeps s₀ s0 → Keeps s₀ (reads s0 n1 n2 x3).1) :
    Keeps s₀ (placeReadBy s core pol va n p reads).1 := by
  unfold placeReadBy
  dsimp only
  split
  · exact hreads _ _ _ _ (keeps_throughCaches hs)
  · exact hreads _ _ _ _ hs
  · exact hs

theorem keeps_placeRead {u lane : Nat} {pol : Pol} {va n : Nat} {p : Place} (hs : Keeps s₀ s) :
    Keeps s₀ (placeRead s u lane pol va n p).1 :=
  keeps_placeReadBy hs fun _ _ _ _ h => keeps_laneReads h

theorem keeps_readLane {u : Nat} {t : Team} {w : Width} {pol : Pol} {sx : Bool} {r : Nat} {g : Reading} {e : Touch}
    (hs : Keeps s₀ g.s) :
    Keeps s₀ (readLane u t w pol sx r g e).s := by
  unfold readLane
  dsimp only
  split
  · exact hs
  · split
    · exact keeps_sendPeer hs
    · split
      · exact keeps_placeRead hs
      · exact keeps_placeRead hs

theorem keeps_uncached {s0 s : State} {core : Nat} (hs : Keeps s₀ s) : Keeps s₀ (uncached s0 s core) :=
  keeps_modCore hs

theorem keeps_globalLoad {u : Nat} {t : Team} {w : Width} {pol : Pol} {sx : Bool} {d : VReg} {l : List Touch}
    (hs : Keeps s₀ s) :
    KeepsOut s₀ (globalLoad s u t w pol sx d l) := by
  unfold globalLoad
  extract_lets r banks s0 retry gather g regs p s1
  have hg : Keeps s₀ g.s :=
    keeps_foldl_read (keeps_foldl hs fun _ _ h => keeps_serveAt h) fun _ _ h => keeps_readLane h
  have hs1 : Keeps s₀ s1 := keeps_modTeam (keeps_ite hg (keeps_uncached hg))
  exact keeps_ite_out (keeps_done (keeps_fallThrough hs1)) (keeps_done (keeps_waitFor hs1))

theorem keeps_debitStores {u : Nat} {x : List LaneStore} (hs : Keeps s₀ s) : Keeps s₀ (debitStores u s x).1 := by
  induction x generalizing s with
  | nil => exact hs
  | cons x x ih =>
    unfold debitStores
    refine keeps_ite_fst (ih hs) ?_
    split
    next e1 => exact keeps_of_eq (keeps_debit8 hs) e1
    next e1 => exact ih (keeps_modTeam (keeps_of_eq (keeps_debit8 hs) e1))

theorem keeps_logStores {u : Nat} {un : Bool} {pol : Pol} {l : List LaneStore} {k : State → Out} (hs : Keeps s₀ s)
    (hk : ∀ s0, Keeps s₀ s0 → KeepsOut s₀ (k s0)) :
    KeepsOut s₀ (logStores s u un pol l k) := by
  unfold logStores
  refine keeps_ite_out ?_ ?_
  · split
    · exact hk _ hs
    · exact keeps_done (keeps_teamStopWith hs)
  · split
    next e1 => exact keeps_done (keeps_teamReplay (keeps_of_eq (keeps_debitStores hs) e1))
    next e1 => exact hk _ (keeps_modTeam (keeps_of_eq (keeps_debitStores hs) e1))

/-! ## Loads, stores and fences (Machine/Memory) -/

theorem keeps_undecideActive {u : Nat} (hs : Keeps s₀ s) : KeepsOut s₀ (undecideActive s u) :=
  keeps_done (keeps_ivNext (keeps_ivApply hs))

theorem keeps_summaryRead {u a : Nat} (hs : Keeps s₀ s) : Keeps s₀ (summaryRead s u a).1 := by
  unfold summaryRead
  dsimp only
  split
  · exact hs
  · exact keeps_placeReadBy hs fun _ _ _ _ h => keeps_silentReads h
  · exact hs

theorem keeps_summaryReads {u : Nat} {m : MArgs} {t : Team} (hs : Keeps s₀ s) :
    Keeps s₀ (summaryReads s u m t).1 := by
  unfold summaryReads
  refine keeps_foldl_fst hs fun _ _ h => ?_
  split
  · exact h
  · split
    next e2 => exact keeps_of_eq (keeps_summaryRead h) e2
    next e2 => exact keeps_of_eq (keeps_summaryRead h) e2

theorem keeps_ivStore {u : Nat} {t : Team} {w : Width} {m : MArgs} (hs : Keeps s₀ s) :
    KeepsOut s₀ (ivStore s u t w m) :=
  keeps_done (keeps_ivNext (keeps_undecideAll (keeps_modTeam hs)))

theorem keeps_loadNormal {w : Width} {pol : Pol} {sx : Bool} {m : MArgs} {u : Nat} {t : Team} (hs : Keeps s₀ s) :
    KeepsOut s₀ (loadNormal w pol sx m s u t) :=
  keeps_withChecked hs fun _ => keeps_globalLoad hs

theorem keeps_execLd {w : Width} {pol : Pol} {sx : Bool} {m : MArgs} (hs : Keeps s₀ s) :
    KeepsOut s₀ (execLd w pol sx m s) :=
  keeps_issueOp (fun _ _ _ h => keeps_ite_out (keeps_done (keeps_ivNext (keeps_ivApply h))) (keeps_loadNormal h)) hs

theorem keeps_execLdb {w : Width} {pol : Pol} {m : MArgs} (hs : Keeps s₀ s) : KeepsOut s₀ (execLdb w pol m s) := by
  unfold execLdb
  refine keeps_issueOp (fun s u t h => keeps_ite_out ?_ (keeps_loadNormal h)) hs
  exact keeps_ite_out (keeps_done (keeps_requestWalk h))
    (keeps_ite_out (keeps_done (keeps_ivNext (keeps_ivApply (keeps_summaryReads h)))) (keeps_done (keeps_askPeers h)))

theorem keeps_execSt {w : Width} {pol : Pol} {m : MArgs} (hs : Keeps s₀ s) : KeepsOut s₀ (execSt w pol m s) := by
  refine keeps_issueOp (fun _ _ _ h => keeps_ite_out (keeps_ivStore h) ?_) hs
  exact keeps_withChecked h fun _ => keeps_logStores h fun _ h1 => keeps_done (keeps_fallThrough h1)

theorem keeps_kldRead {pol : Pol} {wb : Nat} {sx : Bool} {a u : Nat} {t : Team} {e : Touch} (hs : Keeps s₀ s) :
    KeepsOut s₀ (kldRead pol wb sx a s u t e) := by
  unfold kldRead
  dsimp only
  split
  · exact keeps_done (keeps_fallThrough (keeps_modTeam hs fun _ h => keeps_setK h))
  · split
    · exact keeps_done (keeps_waitFor (keeps_modTeam (keeps_sendPeer hs)))
    · refine keeps_ite_out ?_ ?_
      · exact keeps_done (keeps_teamStop (keeps_placeRead hs))
      · exact keeps_done (keeps_fallThrough (keeps_modTeam (keeps_placeRead hs) fun _ h => keeps_setK h))

theorem keeps_execKld {w : Width} {pol : Pol} {sx : Bool} {a b : KReg} {h : ImmHints} (hs : Keeps s₀ s) :
    KeepsOut s₀ (execKld w pol sx a b h s) := by
  unfold execKld
  refine keeps_issueOp (fun _ _ _ h1 => ?_) hs
  refine keeps_withChecked h1 fun _ => ?_
  split
  · exact keeps_done (keeps_fallThrough h1)
  · exact keeps_kldRead (keeps_meldLanes h1)

theorem keeps_execKst {w : Width} {pol : Pol} {a b : KReg} {h : ImmHints} (hs : Keeps s₀ s) :
    KeepsOut s₀ (execKst w pol a b h s) := by
  refine keeps_issueOp (fun _ _ _ h1 => keeps_ite_out (keeps_undecideActive h1) ?_) hs
  refine keeps_withChecked h1 fun _ => keeps_logStores h1 fun _ h2 => ?_
  exact keeps_done (keeps_fallThrough (keeps_meldLanes h2))

theorem keeps_spadReads {u n : Nat} {addrs : Nat → List Nat} {lanes : List Nat} (hs : Keeps s₀ s) :
    Keeps s₀ (spadReads u n addrs s lanes).1 := by
  unfold spadReads
  refine keeps_foldl_fst hs fun _ _ h => ?_
  dsimp only
  exact keeps_foldl_fst h fun _ _ h1 => keeps_spadRead h1

theorem keeps_execLds {w : Width} {sx : Bool} {m : MArgs} (hs : Keeps s₀ s) : KeepsOut s₀ (execLds w sx m s) := by
  unfold execLds
  refine keeps_issueOp (fun _ _ _ h => ?_) hs
  refine keeps_ite_out (keeps_done (keeps_ivNext (keeps_ivApply h))) ?_
  dsimp only
  split
  · exact keeps_done (keeps_teamStop h)
  · split
    · exact keeps_done (keeps_teamStop h)
    · exact keeps_done (keeps_fallThrough (keeps_writeLanes (keeps_spadReads h)))

theorem keeps_execSts {w : Width} {m : MArgs} (hs : Keeps s₀ s) : KeepsOut s₀ (execSts w m s) := by
  unfold execSts
  refine keeps_issueOp (fun _ _ _ h => ?_) hs
  refine keeps_ite_out (keeps_undecideActive h) ?_
  dsimp only
  split
  · exact keeps_done (keeps_teamStop h)
  · exact keeps_done (keeps_fallThrough (keeps_foldl h fun _ _ h1 => keeps_spadWrite h1))

theorem keeps_execLdt {w : Width} {m : MArgs} (hs : Keeps s₀ s) : KeepsOut s₀ (execLdt w m s) := by
  unfold execLdt
  refine keeps_issueOp (fun _ _ _ h => ?_) hs
  refine keeps_ite_out (keeps_done (keeps_ivNext (keeps_ivApply h))) ?_
  dsimp only
  split
  · exact keeps_done (keeps_teamStop h)
  · split
    · exact keeps_done (keeps_teamStop h)
    · exact keeps_done (keeps_fallThrough (keeps_writeLanes (keeps_spadReads h)))

theorem keeps_execCacheZero {a : VReg} {b : BitVec 7} {h : ImmHints} (hs : Keeps s₀ s) :
    KeepsOut s₀ (execCacheZero a b h s) := by
  unfold execCacheZero
  refine keeps_issueOp (fun _ _ _ h1 => ?_) hs
  refine keeps_ite_out (keeps_undecideActive h1) ?_
  refine keeps_withChecked h1 fun _ => ?_
  refine keeps_ite_out ?_ (keeps_done (keeps_fallThrough (keeps_modTeam (keeps_undebit h1))))
  split
  · exact keeps_done (keeps_fallThrough h1)
  · exact keeps_done (keeps_teamStopWith h1)

theorem keeps_cacheQuiet {a : VReg} {b : BitVec 7} {h : ImmHints} {f : State → Nat → Nat → Place → State}
    (hf : ∀ s0 n1 n2 x3, Keeps s₀ s0 → Keeps s₀ (f s0 n1 n2 x3)) (hs : Keeps s₀ s) :
    KeepsOut s₀ (cacheQuiet a b h f s) := by
  unfold cacheQuiet
  refine keeps_issueOp (fun _ _ _ h1 => ?_) hs
  refine keeps_ite_out (keeps_done (keeps_fallThrough h1)) ?_
  refine keeps_ite_out (keeps_done (keeps_requestWalk h1)) ?_
  refine keeps_done ?_
  refine keeps_fallThrough ?_
  refine keeps_foldl h1 fun _ _ h2 => ?_
  split
  · exact hf _ _ _ _ h2
  · exact h2

theorem keeps_execCacheInv {a : VReg} {b : BitVec 7} {h : ImmHints} (hs : Keeps s₀ s) :
    KeepsOut s₀ (execCacheInv a b h s) :=
  keeps_cacheQuiet (fun _ _ _ _ h1 => keeps_modCore h1) hs

theorem keeps_execCacheEvict {a : VReg} {b : BitVec 7} {h : ImmHints} (hs : Keeps s₀ s) :
    KeepsOut s₀ (execCacheEvict a b h s) := by
  unfold execCacheEvict
  refine keeps_cacheQuiet (fun _ _ _ _ h1 => ?_) hs
  split
  · exact keeps_poundDrop h1
  · exact h1

theorem keeps_execCacheFetch {a : VReg} {b : BitVec 7} {h : ImmHints} (hs : Keeps s₀ s) :
    KeepsOut s₀ (execCacheFetch a b h s) := by
  unfold execCacheFetch
  refine keeps_cacheQuiet (fun _ _ _ _ h1 => ?_) hs
  split
  · exact keeps_hearSlice (keeps_poundKeep (keeps_activate (keeps_ite h1 (keeps_l1Keep h1))))
  · exact h1

/-! ## Atomics (Machine/Atomic) -/

theorem keeps_boundaryNormal {a : Access} {eff : State → Nat → Team → Out}
    (heff : ∀ s0 n1 t2, Keeps s₀ s0 → KeepsOut s₀ (eff s0 n1 t2)) (hs : Keeps s₀ s) :
    KeepsOut s₀ (boundaryNormal a eff s) := by
  refine keeps_issueOp (fun _ _ _ h => keeps_ite_out (keeps_done (keeps_teamStop h)) ?_) hs
  exact keeps_ite_out h (heff _ _ _ (keeps_takeSnap (keeps_commitRegion h)))

theorem keeps_rmwGrain {w : Width} {md : AtomMod} {b : RmwBy} {g : RmwRun} {o : RmwOp} {key i : Nat}
    {now : List Byte} (hs : Keeps s₀ g.s) :
    Keeps s₀ (rmwGrain w md b g o key i now).1.s := by
  unfold rmwGrain
  dsimp only
  exact keeps_enterWrite hs

theorem keeps_rmwEnter {first a : Nat} {now : Nat → Byte} {bytes bs : List (Option Byte)} (hs : Keeps s₀ s) :
    Keeps s₀ (rmwEnter s first a now bytes bs).1 :=
  keeps_ite_fst hs (keeps_enterBytes hs)

theorem keeps_rmwOne {w : Width} {md : AtomMod} {b : RmwBy} {g : RmwRun} {e : RmwOp × Place} (hs : Keeps s₀ g.s) :
    Keeps s₀ (rmwOne w md b g e).s := by
  unfold rmwOne
  split
  · exact keeps_rmwGrain hs
  · exact keeps_hostEntered fun _ => keeps_rmwEnter (keeps_rmwGrain hs)
  · exact hs

theorem keeps_rmwNone (hs : Keeps s₀ s) : Keeps s₀ (rmwNone s).s :=
  hs

theorem keeps_rmwStore {g : RmwRun} {id : Nat} {pay : Payer} {deb : Bool} {b : Nat} (hs : Keeps s₀ s) :
    Keeps s₀ (rmwStore g s id pay deb b) :=
  keeps_storeEntered hs fun _ => keeps_rmwEnter hs

theorem keeps_rmwPerform {by_ : RmwBy} {id core : Nat} {w : Width} {md : AtomMod} {l : List (RmwOp × Place × Nat)}
    (hs : Keeps s₀ s) :
    Keeps s₀ (rmwPerform s by_ id core w md l).1 := by
  unfold rmwPerform
  refine keeps_modCore ?_
  refine keeps_foldl ?_ fun _ _ h => keeps_hearSlice (keeps_rmwStore h)
  refine keeps_foldl (keeps_foldl_run (keeps_rmwNone hs) fun _ _ h => keeps_rmwOne h) fun _ _ h => ?_
  split
  · exact keeps_markDirty h
  · exact h

theorem keeps_takeTs {core : Nat} (hs : Keeps s₀ s) : Keeps s₀ (takeTs s core).1 :=
  keeps_modCore hs

theorem keeps_scMark {ts : Nat} {blocks : List Nat} (hs : Keeps s₀ s) : Keeps s₀ (scMark s ts blocks) :=
  hs

theorem keeps_peerStoreStop {u : Nat} {r : PeerReq} (hs : Keeps s₀ s) : Keeps s₀ (peerStoreStop s u r) :=
  keeps_teamStopWith (keeps_ite hs hs)

theorem keeps_rmwFound {u : Nat} {g : RmwRun} (hs : Keeps s₀ s) : Keeps s₀ (rmwFound s u g) :=
  keeps_foldl (keeps_modTeam hs) fun _ _ h => keeps_raiseClock h

theorem keeps_rmwFinish {u : Nat} {w : Width} {sc : Scope} {md : AtomMod} {l : List (RmwOp × Place × Nat)}
    {dst : Option Nat} (hs : Keeps s₀ s) :
    Keeps s₀ (rmwFinish s u w sc md l dst) := by
  unfold rmwFinish
  extract_lets
  split
  next s1 _ e1 =>
    have hs1 : Keeps s₀ s1 := keeps_of_eq (keeps_rmwPerform hs) e1
    extract_lets s2
    have hs2 : Keeps s₀ s2 := by
      refine keeps_rmwFound ?_
      split
      · exact keeps_writeLanes hs1
      · exact hs1
    exact keeps_settleStop (keeps_fallThrough (keeps_modTeam (keeps_ite (keeps_dropL1 hs2) hs2)))

theorem keeps_rmwStop {u cause : Nat} {lane : Option Nat} {addr w5 : Nat} (hs : Keeps s₀ s) :
    Keeps s₀ (rmwStop s u cause lane addr w5) :=
  keeps_teamStopWith (keeps_modTeam (keeps_abortRegion hs))

theorem keeps_rmwEnd {u ts : Nat} {w : Width} {sc : Scope} {md : AtomMod} {l : List (RmwOp × Place × Nat)}
    {dst : Option Nat} (hs : Keeps s₀ s) :
    Keeps s₀ (rmwEnd s u ts w sc md l dst) := by
  unfold rmwEnd
  split
  · exact keeps_rmwStop hs
  · exact keeps_rmwFinish (keeps_ite hs (keeps_scMark hs))

theorem keeps_debitRmw {u : Nat} {l : List Nat} (hs : Keeps s₀ s) : Keeps s₀ (debitRmw u s l).1 := by
  induction l generalizing s with
  | nil => exact hs
  | cons x l ih =>
    unfold debitRmw
    dsimp only
    split
    next e1 => exact keeps_of_eq (keeps_debit8 hs) e1
    next e1 => exact ih (keeps_modTeam (keeps_of_eq (keeps_debit8 hs) e1))

theorem keeps_rmwSend {u : Nat} {w : Width} {md : AtomMod} {dst : Option Nat} {l : List (RmwOp × Place × Nat)}
    (hs : Keeps s₀ s) :
    Keeps s₀ (rmwSend u w md dst s l).1 := by
  unfold rmwSend
  refine keeps_foldl_fst hs fun _ _ h => ?_
  dsimp only
  exact keeps_sendPeer h

theorem keeps_rmwStart {u ts : Nat} {w : Width} {sc : Scope} {md : AtomMod} {l : List (RmwOp × Place × Nat)}
    {dst : Option Nat} (hs : Keeps s₀ s) :
    Keeps s₀ (rmwStart s u ts w sc md l dst) := by
  unfold rmwStart
  split
  next e1 => exact keeps_rmwEnd (keeps_of_eq (keeps_rmwSend hs) e1)
  next e1 => exact keeps_waitFor (keeps_modTeam (keeps_of_eq (keeps_rmwSend hs) e1))

theorem keeps_rmwGo {w : Width} {sc : Scope} {md : AtomMod} {dst : Option Nat} {u : Nat}
    {l : List (RmwOp × Place × Nat)} (hs : Keeps s₀ s) :
    KeepsOut s₀ (rmwGo w sc md dst s u l) := by
  unfold rmwGo
  dsimp only
  split
  next e1 => exact keeps_done (keeps_teamReplay (keeps_of_eq (keeps_debitRmw hs) e1))
  next e1 =>
    split
    · exact keeps_done (keeps_rmwStop (keeps_of_eq (keeps_debitRmw hs) e1))
    · refine keeps_ite_out ?_ ?_
      · refine keeps_ite_out ?_ ?_
        · exact keeps_done (keeps_waitFor (keeps_takeTs (keeps_of_eq (keeps_debitRmw hs) e1)))
        · exact keeps_done (keeps_rmwStart (keeps_takeTs (keeps_of_eq (keeps_debitRmw hs) e1)))
      · exact keeps_done (keeps_rmwStart (keeps_of_eq (keeps_debitRmw hs) e1))

theorem keeps_rmwExec {w : Width} {scope : Scope} {md : AtomMod} {m : MArgs} {ret : Bool} (hs : Keeps s₀ s) :
    KeepsOut s₀ (rmwExec w scope md m ret s) := by
  unfold rmwExec
  refine keeps_boundaryNormal (fun _ _ _ h => ?_) hs
  refine keeps_ite_out (keeps_done (keeps_fallThrough h)) ?_
  refine keeps_withChecked h fun _ => ?_
  refine keeps_ite_out h ?_
  split
  · exact keeps_done (keeps_peerStoreStop h)
  · exact keeps_rmwGo h

theorem keeps_writeBack {u i : Nat} {p : Pending} (hs : Keeps s₀ s) : Keeps s₀ (writeBack s u i p) :=
  keeps_settleStop (keeps_taintRegs (keeps_setTeam hs (keeps_applyPending (keeps_getTeam hs))))

theorem keeps_rmwAnswered {u : Nat} (hs : Keeps s₀ s) : Keeps s₀ (rmwAnswered s u) := by
  unfold rmwAnswered
  dsimp only
  split
  · split
    · exact keeps_ite (keeps_rmwStop (keeps_modTeam hs)) (keeps_rmwStop (keeps_modTeam hs))
    · exact keeps_rmwStop (keeps_modTeam hs)
    · exact keeps_rmwStop (keeps_modTeam hs)
    · exact keeps_ite hs (keeps_rmwEnd (keeps_writeBack (keeps_modTeam hs)))
  · exact hs

theorem keeps_execScRmwPerform {u : Nat} (hs : Keeps s₀ s) : KeepsOut s₀ (execScRmwPerform u s) := by
  unfold execScRmwPerform
  split
  · exact keeps_ite_out hs (keeps_done (keeps_rmwStart (keeps_modTeam hs)))
  · exact keeps_done (keeps_rmwAnswered hs)
  · exact hs

theorem keeps_putRelFence {u : Nat} {sc : Scope} (hs : Keeps s₀ s) : Keeps s₀ (putRelFence s u sc) :=
  keeps_modTeam hs

theorem keeps_scFence {u : Nat} {sc : Scope} (hs : Keeps s₀ s) : Keeps s₀ (scFence s u sc) :=
  keeps_teamAcquires hs

theorem keeps_fenceEnd {u : Nat} {k : FenceKind} {sc : Scope} (hs : Keeps s₀ s) : Keeps s₀ (fenceEnd s u k sc) := by
  unfold fenceEnd
  dsimp only
  split
  · exact keeps_peerStoreStop (keeps_modTeam hs)
  · exact keeps_settleStop (keeps_fallThrough
        (keeps_ite (keeps_putRelFence (keeps_ite (keeps_acquire hs) hs)) (keeps_ite (keeps_acquire hs) hs)))

theorem keeps_execFence {k : FenceKind} {sc : Scope} (hs : Keeps s₀ s) : KeepsOut s₀ (execFence k sc s) := by
  unfold execFence
  refine keeps_boundaryOp (fun _ _ _ h => ?_) hs
  extract_lets p s11
  have hp : Keeps s₀ p.1 := keeps_ite_fst (keeps_takeTs h) h
  have hs11 : Keeps s₀ s11 := keeps_ite (keeps_scFence (keeps_scMark hp)) hp
  exact keeps_ite_out (keeps_done (keeps_fenceEnd hs11)) (keeps_done (keeps_waitFor hs11))

theorem keeps_execFenceComplete {u : Nat} (hs : Keeps s₀ s) : KeepsOut s₀ (execFenceComplete u s) := by
  unfold execFenceComplete
  split
  · exact keeps_ite_out (keeps_done (keeps_fenceEnd hs)) hs
  · exact hs

theorem keeps_execLoadReturn {u : Nat} (hs : Keeps s₀ s) : KeepsOut s₀ (execLoadReturn u s) := by
  unfold execLoadReturn
  dsimp only
  split
  · exact hs
  · refine keeps_ite_out hs ?_
    split
    · exact keeps_done (keeps_teamStopWith (keeps_modTeam hs))
    · exact keeps_done (keeps_ite (keeps_fallThrough (keeps_writeBack hs)) (keeps_writeBack hs))

theorem keeps_execVariableResultWriteback {u : Nat} (hs : Keeps s₀ s) :
    KeepsOut s₀ (execVariableResultWriteback u s) := by
  unfold execVariableResultWriteback
  split
  · exact hs
  · exact keeps_ite_out (keeps_done (keeps_writeBack hs)) hs

theorem keeps_modLoad {u : Nat} {ok : Pending → Bool} {f : Pending → Pending} (hs : Keeps s₀ s) :
    Keeps s₀ (modLoad s u ok f) := by
  unfold modLoad
  split
  · exact hs
  · exact keeps_modTeam hs

theorem keeps_execPoundReissue {u : Nat} (hs : Keeps s₀ s) : KeepsOut s₀ (execPoundReissue u s) := by
  unfold execPoundReissue
  dsimp only
  split
  · exact hs
  · split
    · exact keeps_modLoad (keeps_foldl hs fun _ _ h => keeps_serveAt h)
    · exact keeps_modLoad
        (keeps_foldl (keeps_foldl hs fun _ _ h => keeps_serveAt h) fun _ _ h => keeps_throughCaches h)

/-! ## The loom's operations (Machine/LoomOps) -/

theorem keeps_loomStatus {t : Txn} {c : Nat} (hs : Keeps s₀ t.s) : Keeps s₀ (loomStatus t c).tx.s :=
  hs

theorem keeps_loomStuck {t : Txn} (hs : Keeps s₀ t.s) : Keeps s₀ (loomStuck t).tx.s :=
  hs

theorem keeps_loomRes {t : Txn} {r : Nat} (hs : Keeps s₀ t.s) : Keeps s₀ (loomRes t r).tx.s :=
  hs

theorem keeps_withHdr {t : Txn} {h : Nat} {kv : Bool} {k : Txn → Hdr → Loomed} (hs : Keeps s₀ t.s)
    (hk : ∀ t0 x1, Keeps s₀ t0.s → Keeps s₀ (k t0 x1).tx.s) :
    Keeps s₀ (withHdr t h kv k).tx.s := by
  unfold withHdr
  dsimp only
  split
  · exact keeps_loomStuck (keeps_txHdr hs)
  · exact keeps_ite_loomed (keeps_loomStuck (keeps_txHdr hs)) (hk _ _ (keeps_txHdr hs))

theorem keeps_txReadL {t : Txn} {va n : Nat} (hs : Keeps s₀ t.s) : Keeps s₀ (txReadL t va n).1.s := by
  unfold txReadL
  dsimp only
  exact keeps_txBytesLong hs

theorem keeps_txWriteL {t : Txn} {va n v : Nat} (hs : Keeps s₀ t.s) : Keeps s₀ (txWriteL t va n v).s :=
  keeps_txPutLong hs

theorem keeps_txCount {t : Txn} {va : Nat} {d : Int} (hs : Keeps s₀ t.s) : Keeps s₀ (txCount t va d).1.s := by
  unfold txCount
  dsimp only
  exact keeps_txWriteL (keeps_txReadL hs)

theorem keeps_withPool {t : Txn} {hd : Hdr} {k : Txn → Pool → Loomed} (hs : Keeps s₀ t.s)
    (hk : ∀ t0 x1, Keeps s₀ t0.s → Keeps s₀ (k t0 x1).tx.s) :
    Keeps s₀ (withPool t hd k).tx.s := by
  unfold withPool
  dsimp only
  split
  · exact keeps_loomStuck (keeps_txBytesLong hs)
  · exact keeps_ite_loomed (keeps_loomStuck (keeps_txBytesLong hs)) (hk _ _ (keeps_txBytesLong hs))

theorem keeps_resolveFrom {n : Nat} {t : Txn} {x : Hdr} {n1 : Nat} {x1 : Bool} (hs : Keeps s₀ t.s) :
    Keeps s₀ (resolveFrom n t x n1 x1).1.s := by
  induction n generalizing t x n1 x1 with
  | zero => exact hs
  | succ n ih =>
    unfold resolveFrom
    dsimp only
    split
    · exact keeps_txRead hs
    · exact keeps_ite_fst_tx (keeps_txRead hs) (keeps_ite_fst_tx (keeps_txHdr (keeps_txRead hs))
          (keeps_ite_fst_tx (keeps_txHdr (keeps_txRead hs)) (ih (keeps_txHdr (keeps_txRead hs)))))

theorem keeps_resolvePage {t : Txn} {hd : Hdr} {i : Nat} (hs : Keeps s₀ t.s) : Keeps s₀ (resolvePage t hd i).1.s :=
  keeps_resolveFrom hs

theorem keeps_pageCount {t : Txn} {p : Pool} {page : Nat} {d : Int} (hs : Keeps s₀ t.s) :
    Keeps s₀ (pageCount t p page d).1.s :=
  keeps_txCount hs

theorem keeps_nodeRefs {t : Txn} {p : Pool} {node : Nat} {d : Int} (hs : Keeps s₀ t.s) :
    Keeps s₀ (nodeRefs t p node d).s :=
  keeps_ite_tx hs (keeps_txCount hs)

theorem keeps_popPage {t : Txn} {hd : Hdr} {p : Pool} (hs : Keeps s₀ t.s) : Keeps s₀ (popPage t hd p).1.s := by
  unfold popPage
  dsimp only
  exact keeps_txWriteL (keeps_txReadL (keeps_txReadL hs))

theorem keeps_pushPage {hd : Hdr} {p : Pool} {t : Txn} {page : Nat} (hs : Keeps s₀ t.s) :
    Keeps s₀ (pushPage hd p t page).s := by
  unfold pushPage
  dsimp only
  exact keeps_txWriteL (keeps_txWriteL (keeps_txReadL hs))

theorem keeps_pageShared {t : Txn} {p : Pool} {e : Nat} {own : Bool} (hs : Keeps s₀ t.s) :
    Keeps s₀ (pageShared t p e own).1.s := by
  unfold pageShared
  refine keeps_ite_fst_tx hs ?_
  refine keeps_ite_fst_tx hs ?_
  dsimp only
  exact keeps_txReadL hs

theorem keeps_reservePlan {hd : Hdr} {p : Pool} {t : Txn} {l : List Nat} (hs : Keeps s₀ t.s) :
    Keeps s₀ (reservePlan hd p t l).1.s := by
  induction l generalizing t with
  | nil => exact hs
  | cons x l ih =>
    unfold reservePlan
    dsimp only
    split
    next e1 => exact ih (keeps_of_eq_tx (keeps_resolvePage hs) e1)
    next e1 => exact ih (keeps_pageShared (keeps_of_eq_tx (keeps_resolvePage hs) e1))

theorem keeps_copyPageBlock {src dst : Nat} {t : Txn} {o : Nat} (hs : Keeps s₀ t.s) :
    Keeps s₀ (copyPageBlock src dst t o).s := by
  unfold copyPageBlock
  split
  next e1 => exact keeps_of_eq_tx (keeps_txPlace hs) e1
  next e1 =>
    extract_lets t2
    have ht2 : Keeps s₀ t2.s := keeps_txPut (keeps_txMeets (keeps_of_eq_tx (keeps_txPlace hs) e1))
    exact keeps_ite_tx ht2 ht2

theorem keeps_reserveTake {hd : Hdr} {p : Pool} {t : Txn} {x : Nat × Option (Nat × Bool)} (hs : Keeps s₀ t.s) :
    Keeps s₀ (reserveTake hd p t x).s := by
  unfold reserveTake
  split
  next e =>
    extract_lets t2 n dst t3
    have h2 : Keeps s₀ t2.s := keeps_txWriteL (keeps_of_eq_tx (keeps_popPage hs) e)
    have h3 : Keeps s₀ t3.s := by
      unfold t3
      split
      · exact h2
      · extract_lets ta tb tc
        have ha : Keeps s₀ tb.s := keeps_foldl_tx (t := t2) h2 fun _ _ h => keeps_copyPageBlock h
        have hc : Keeps s₀ tc.s := keeps_pageCount ha
        exact keeps_ite_tx (keeps_nodeRefs hc) hc
    exact keeps_txWrite h3

theorem keeps_loomReserve {t : Txn} {h n : Nat} (hs : Keeps s₀ t.s) : Keeps s₀ (loomReserve t h n).tx.s := by
  unfold loomReserve
  refine keeps_withHdr hs fun _ _ h1 => ?_
  dsimp only
  split
  · exact keeps_loomStatus h1
  · refine keeps_ite_loomed ?_ ?_
    · exact keeps_loomRes (keeps_txLens (keeps_txRing h1))
    · refine keeps_withPool h1 fun _ _ h2 => keeps_ite_loomed (keeps_loomStuck (keeps_reservePlan h2)) ?_
      refine keeps_ite_loomed (keeps_loomStatus (keeps_reservePlan h2)) (keeps_loomRes (keeps_txLens ?_))
      exact keeps_foldl_tx (keeps_reservePlan h2) fun _ _ h3 => keeps_reserveTake h3

theorem keeps_loomAddr {t : Txn} {h slot : Nat} (hs : Keeps s₀ t.s) : Keeps s₀ (loomAddr t h slot).tx.s := by
  unfold loomAddr
  refine keeps_withHdr hs fun _ _ h1 => ?_
  refine keeps_ite_loomed (keeps_loomStatus h1) ?_
  refine keeps_ite_loomed (keeps_loomRes h1) ?_
  refine keeps_withPool h1 fun _ _ h2 => ?_
  split
  next t3 e1 =>
    have ht3 : Keeps s₀ t3.s := keeps_of_eq_tx (keeps_resolvePage h2) e1
    exact keeps_ite_loomed (keeps_loomStatus ht3) (keeps_loomStuck ht3)
  next e1 => exact keeps_loomRes (keeps_of_eq_tx (keeps_resolvePage h2) e1)

theorem keeps_loomClose {t : Txn} {void : Bool} {h base n : Nat} (hs : Keeps s₀ t.s) :
    Keeps s₀ (loomClose t void h base n).tx.s := by
  unfold loomClose
  refine keeps_withHdr hs fun t1 hd h => keeps_ite_loomed (keeps_loomStuck h) ?_
  have hr : Keeps s₀ (txReserved hd n t1 base).1.s := keeps_txReserved h
  split
  next t2 e =>
    have h2 : Keeps s₀ t2.s := keeps_of_eq_tx hr e
    exact keeps_loomStuck h2
  next t2 e =>
    have h2 : Keeps s₀ t2.s := keeps_of_eq_tx hr e
    split
    next t3 _ e3 =>
      have h3 : Keeps s₀ t3.s := keeps_of_eq_tx (keeps_txAdvance (keeps_txClose h2)) e3
      exact keeps_ite_loomed (keeps_loomRes h3) (keeps_txLens h3)

theorem keeps_loomLen {t : Txn} {h : Nat} (hs : Keeps s₀ t.s) : Keeps s₀ (loomLen t h).tx.s :=
  keeps_withHdr hs fun _ _ h1 => keeps_loomRes h1

theorem keeps_loomWatch {t : Txn} {h core j : Nat} (hs : Keeps s₀ t.s) : Keeps s₀ (loomWatch t h core j).tx.s :=
  keeps_withHdr hs
    fun _ _ h1 => keeps_ite_loomed (keeps_loomStatus h1) (keeps_ite_loomed (keeps_loomStatus h1) (keeps_loomRes h1))

theorem keeps_forkPage {hd : Hdr} {p : Pool} {d : ForkDesc} {flat : Bool} {t : Txn} {i : Nat} (hs : Keeps s₀ t.s) :
    Keeps s₀ (forkPage hd p d flat t i).s := by
  unfold forkPage
  split
  next e1 => exact keeps_of_eq_tx (keeps_resolvePage hs) e1
  next e1 =>
    extract_lets t2
    have ht2 : Keeps s₀ t2.s := keeps_pageCount (keeps_of_eq_tx (keeps_resolvePage hs) e1)
    exact keeps_ite_tx (keeps_nodeRefs (keeps_txWrite ht2)) ht2

theorem keeps_txPrc {t : Txn} {hd : Hdr} {prc : Nat} (hs : Keeps s₀ t.s) : Keeps s₀ (txPrc t hd prc).s :=
  keeps_txWrite hs

theorem keeps_loomFork {t : Txn} {h : Nat} {w : Nat → Nat} (hs : Keeps s₀ t.s) : Keeps s₀ (loomFork t h w).tx.s := by
  refine keeps_withHdr hs fun _ _ h1 => keeps_ite_loomed (keeps_loomStatus h1) ?_
  refine keeps_ite_loomed (keeps_loomStatus h1) ?_
  refine keeps_withPool h1 fun _ _ h2 => keeps_loomRes ?_
  refine keeps_foldl_tx ?_ fun _ _ h3 => keeps_forkPage h3
  exact keeps_ite_tx (keeps_txPrc (keeps_txWrite (keeps_txPutLong h2))) (keeps_txWrite (keeps_txPutLong h2))

theorem keeps_tokensAt {hd : Hdr} {t : Txn} {arr i : Nat} (hs : Keeps s₀ t.s) : Keeps s₀ (tokensAt hd t arr i).1.s :=
  keeps_txBytesLong hs

theorem keeps_matchChain {hd : Hdr} {p : Pool} {toks : List Byte} {n : Nat} {t : Txn} {n1 : Nat} (hs : Keeps s₀ t.s) :
    Keeps s₀ (matchChain hd p toks n t n1).1.s := by
  induction n generalizing t n1 with
  | zero => exact hs
  | succ n ih =>
    unfold matchChain
    refine keeps_ite_fst_tx hs ?_
    split
    next t1 _ e1 =>
      have h1 : Keeps s₀ t1.s := keeps_of_eq_tx (keeps_txReadL hs) e1
      split
      next t2 _ e2 =>
        have h2 : Keeps s₀ t2.s := keeps_of_eq_tx (keeps_ite_fst_tx (keeps_txBytesLong h1) h1) e2
        refine keeps_ite_fst_tx h2 ?_
        split
        next e3 => exact ih (keeps_of_eq_tx (keeps_txReadL h2) e3)

theorem keeps_matchChild {hd : Hdr} {p : Pool} {t : Txn} {node : Nat} {toks : List Byte} (hs : Keeps s₀ t.s) :
    Keeps s₀ (matchChild hd p t node toks).1.s := by
  unfold matchChild
  dsimp only
  exact keeps_matchChain (keeps_txReadL hs)

theorem keeps_lookupWalk {hd : Hdr} {p : Pool} {arr n : Nat} {t : Txn} {n1 n2 : Nat} (hs : Keeps s₀ t.s) :
    Keeps s₀ (lookupWalk hd p arr n t n1 n2).1.s := by
  induction n generalizing t n1 n2 with
  | zero => exact hs
  | succ n ih =>
    unfold lookupWalk
    dsimp only
    split
    · exact keeps_matchChild (keeps_tokensAt hs)
    · exact ih (keeps_matchChild (keeps_tokensAt hs))

theorem keeps_installedRun {hd : Hdr} {n : Nat} {t : Txn} {n1 : Nat} (hs : Keeps s₀ t.s) :
    Keeps s₀ (installedRun hd n t n1).1.s := by
  induction n generalizing t n1 with
  | zero => exact hs
  | succ n ih =>
    unfold installedRun
    dsimp only
    split
    · exact ih (keeps_txRead hs)
    · exact keeps_txRead hs

theorem keeps_dropInstalled {hd : Hdr} {p : Pool} {t : Txn} {i : Nat} (hs : Keeps s₀ t.s) :
    Keeps s₀ (dropInstalled hd p t i).s := by
  unfold dropInstalled
  dsimp only
  refine keeps_txWrite (keeps_ite_tx ?_ ?_)
  · exact keeps_pushPage (keeps_pageCount (keeps_nodeRefs (keeps_txRead hs)))
  · exact keeps_pageCount (keeps_nodeRefs (keeps_txRead hs))

theorem keeps_installPage {hd : Hdr} {p : Pool} {t : Txn} {x : Nat × Nat} (hs : Keeps s₀ t.s) :
    Keeps s₀ (installPage hd p t x).s := by
  unfold installPage
  dsimp only
  exact keeps_nodeRefs (keeps_pageCount (keeps_txWrite (keeps_txReadL hs)))

theorem keeps_txState {t : Txn} {hd : Hdr} {released done_ lkup : Bool} (hs : Keeps s₀ t.s) :
    Keeps s₀ (txState t hd released done_ lkup).s :=
  keeps_txWrite hs

theorem keeps_noOwnFrom {hd : Hdr} {n : Nat} {t : Txn} {n1 : Nat} (hs : Keeps s₀ t.s) :
    Keeps s₀ (noOwnFrom hd n t n1).1.s := by
  induction n generalizing t n1 with
  | zero => exact hs
  | succ n ih =>
    unfold noOwnFrom
    dsimp only
    split
    · exact keeps_txRead hs
    · exact ih (keeps_txRead hs)

theorem keeps_loomLookup {t : Txn} {h arr count : Nat} (hs : Keeps s₀ t.s) :
    Keeps s₀ (loomLookup t h arr count).tx.s := by
  unfold loomLookup
  refine keeps_withHdr hs fun _ _ h1 => ?_
  refine keeps_ite_loomed (keeps_loomStatus h1) ?_
  refine keeps_withPool h1 fun _ _ h2 => ?_
  extract_lets
  split
  next e1 =>
    split
    next t4 _ e2 =>
      have ht4 : Keeps s₀ t4.s :=
        keeps_of_eq_tx (keeps_noOwnFrom (keeps_of_eq_tx (keeps_ite_fst_tx (keeps_installedRun h2) h2) e1)) e2
      refine keeps_ite_loomed (keeps_loomStuck ht4) ?_
      refine keeps_ite_loomed (keeps_loomStatus ht4) ?_
      split
      next t5 _ e3 =>
        have ht5 : Keeps s₀ t5.s :=
          keeps_of_eq_tx (keeps_lookupWalk (keeps_foldl_tx ht4 fun _ _ h3 => keeps_dropInstalled h3)) e3
        exact keeps_txState (keeps_txLens (keeps_foldl_tx ht5 fun _ _ h3 => keeps_installPage h3))

theorem keeps_insertNode {hd : Hdr} {p : Pool} {g : Inserting} {i c page : Nat} {toks : List Byte}
    (hs : Keeps s₀ g.tx.s) :
    Keeps s₀ (insertNode hd p g i c page toks).tx.s := by
  unfold insertNode
  dsimp only
  exact keeps_pageCount (keeps_txWriteL (keeps_txPutLong (keeps_txPutLong
          (keeps_txReadL (keeps_txWriteL (keeps_txReadL hs))))))

theorem keeps_insertWalk {hd : Hdr} {p : Pool} {arr n n1 : Nat} {x : Inserting} (hs : Keeps s₀ x.tx.s) :
    Keeps s₀ (insertWalk hd p arr n n1 x).tx.s := by
  induction n generalizing n1 x with
  | zero => exact hs
  | succ n ih =>
    unfold insertWalk
    split
    next e1 =>
      split
      next t2 _ e2 =>
        have h2 : Keeps s₀ t2.s := keeps_of_eq_tx (keeps_matchChild (keeps_of_eq_tx (keeps_tokensAt hs) e1)) e2
        split
        · exact h2
        · split
          · exact ih h2
          · split
            next e3 => exact keeps_of_eq_tx (keeps_resolvePage h2) e3
            next e3 =>
              split
              next t4 _ e4 =>
                have h4 : Keeps s₀ t4.s :=
                  keeps_of_eq_tx (keeps_txReadL (keeps_of_eq_tx (keeps_resolvePage h2) e3)) e4
                split
                · exact h4
                · split
                  · exact h4
                  · exact ih (keeps_insertNode h4)

theorem keeps_loomInsert {t : Txn} {h arr : Nat} (hs : Keeps s₀ t.s) : Keeps s₀ (loomInsert t h arr).tx.s := by
  refine keeps_withHdr hs fun _ _ h1 => keeps_ite_loomed (keeps_loomStatus h1) ?_
  exact keeps_withPool h1 fun _ _ h2 => keeps_loomRes (keeps_insertWalk h2)

theorem keeps_dropPage {hd : Hdr} {p : Pool} {g : Txn × List Nat} {i : Nat} (hs : Keeps s₀ g.1.s) :
    Keeps s₀ (dropPage hd p g i).1.s := by
  unfold dropPage
  dsimp only
  split
  · exact keeps_pageCount (keeps_nodeRefs (keeps_txRead hs))
  · refine keeps_ite_fst_tx (keeps_txRead hs) ?_
    split
    next e1 => exact keeps_of_eq_tx (keeps_resolvePage (keeps_txRead hs)) e1
    next e1 => exact keeps_pageCount (keeps_of_eq_tx (keeps_resolvePage (keeps_txRead hs)) e1)

theorem keeps_dropChain {p : Pool} {n : Nat} {t : Txn} {x : Hdr} (hs : Keeps s₀ t.s) :
    Keeps s₀ (dropChain p n t x).s := by
  induction n generalizing t x with
  | zero => exact hs
  | succ n ih =>
    unfold dropChain
    split
    next t1 _ e1 =>
      have ht1 : Keeps s₀ t1.s := keeps_of_eq_tx (keeps_foldl_fst_tx hs fun _ _ h => keeps_dropPage h) e1
      extract_lets t2 t3
      have ht3 : Keeps s₀ t3.s := keeps_txState (keeps_foldl_tx ht1 fun _ _ h => keeps_pushPage h)
      refine keeps_ite_tx ht3 ?_
      split
      next t4 _ e2 =>
        have ht4 : Keeps s₀ t4.s := keeps_of_eq_tx (keeps_txHdr ht3) e2
        refine keeps_ite_tx ht4 ?_
        extract_lets t5
        have ht5 : Keeps s₀ t5.s := keeps_txPrc ht4
        exact keeps_ite_tx (ih ht5) ht5

theorem keeps_loomUnref {t : Txn} {h : Nat} (hs : Keeps s₀ t.s) : Keeps s₀ (loomUnref t h).tx.s := by
  refine keeps_withHdr hs fun _ _ h1 => keeps_ite_loomed (keeps_loomRes h1) ?_
  refine keeps_ite_loomed (keeps_loomRes (keeps_txState h1)) ?_
  exact keeps_withPool h1 fun _ _ h2 => keeps_loomRes (keeps_dropChain h2)

theorem keeps_unlinkNode {p : Pool} {node next n : Nat} {t : Txn} {n1 : Nat} (hs : Keeps s₀ t.s) :
    Keeps s₀ (unlinkNode p node next n t n1).s := by
  induction n generalizing t n1 with
  | zero => exact hs
  | succ n ih =>
    unfold unlinkNode
    dsimp only
    split
    · exact keeps_txWriteL (keeps_txReadL hs)
    · exact keeps_ite_tx (keeps_txReadL hs) (ih (keeps_txReadL hs))

/-! ## Locks (Machine/Locks) -/

theorem keeps_setLock {core n : Nat} {l : Lock} (hs : Keeps s₀ s) : Keeps s₀ (setLock s core n l) :=
  keeps_modCore hs

theorem keeps_lockAcquire {u : Nat} {sc : Scope} {l : Lock} {p : W32} (hs : Keeps s₀ s) :
    Keeps s₀ (lockAcquire s u sc l p) :=
  keeps_acquire hs

theorem keeps_lockRetry {core n : Nat} (hs : Keeps s₀ s) : Keeps s₀ (lockRetry s core n) := by
  unfold lockRetry
  refine keeps_teams hs rfl fun _ h => ?_
  dsimp only
  split
  · exact keeps_ite_team h h
  · exact keeps_ite_team h h
  · exact h

theorem keeps_lockBreak {core n : Nat} (hs : Keeps s₀ s) : Keeps s₀ (lockBreak s core n) :=
  keeps_lockRetry (keeps_pushRec (keeps_setLock hs))

theorem keeps_lockEval {core n : Nat} (hs : Keeps s₀ s) : Keeps s₀ (lockEval s core n) :=
  keeps_ite (keeps_setLock hs) (keeps_ite (keeps_lockBreak hs) hs)

theorem keeps_lockFillSync {u : Nat} {l0 l1 : Lock} {w : W64} (hs : Keeps s₀ s) :
    Keeps s₀ (lockFillSync s u l0 l1 w).1 :=
  keeps_lockAcquire hs

theorem keeps_lockFillEnd {core n u k : Nat} {l0 l1 : Lock} {w : W64} (hs : Keeps s₀ s) :
    Keeps s₀ (lockFillEnd s core n u k l0 l1 w) := by
  unfold lockFillEnd
  dsimp only
  exact keeps_fallThrough (keeps_lockEval
      (keeps_modTeam (keeps_setLock (keeps_lockFillSync hs)) fun _ h => keeps_setK h))

theorem keeps_lockFills {n n1 n2 : Nat} (hs : Keeps s₀ s) : Keeps s₀ (lockFills n s n1 n2) := by
  induction n generalizing s n1 n2 with
  | zero => exact hs
  | succ n ih =>
    unfold lockFills
    refine keeps_ite hs ?_
    split
    · exact hs
    · split
      · exact ih (keeps_lockFillEnd hs)
      · exact ih (keeps_teamStop (keeps_modTeam hs))

theorem keeps_lockWakes {core n : Nat} (hs : Keeps s₀ s) : Keeps s₀ (lockWakes s core n) := by
  unfold lockWakes
  refine keeps_foldl hs fun _ _ h => ?_
  split
  · exact keeps_ite (keeps_fallThrough (keeps_lockAcquire h)) h
  · exact h

theorem keeps_lockStep {core n : Nat} (hs : Keeps s₀ s) : Keeps s₀ (lockStep s core n) :=
  keeps_lockWakes (keeps_lockFills (keeps_lockEval hs))

theorem keeps_lockAdd {core n : Nat} {r : Rel} {bytes : Nat} (hs : Keeps s₀ s) :
    Keeps s₀ (lockAdd core n r s bytes) :=
  keeps_ite (keeps_lockStep (keeps_setLock hs)) hs

theorem keeps_lockCount {core n bytes : Nat} {r : Rel} (hs : Keeps s₀ s) : Keeps s₀ (lockCount s core n bytes r) :=
  keeps_ite (keeps_lockAdd (keeps_lockAdd hs)) (keeps_lockAdd hs)

theorem keeps_lockEngEnd {core n : Nat} (hs : Keeps s₀ s) : Keeps s₀ (lockEngEnd s core n) :=
  keeps_setLock hs

theorem keeps_lockState {u : Nat} (hs : Keeps s₀ s) : KeepsOut s₀ (lockState s u) :=
  keeps_done (keeps_teamStop hs)

theorem keeps_lockGroup {u : Nat} (hs : Keeps s₀ s) : KeepsOut s₀ (lockGroup s u) :=
  keeps_done (keeps_teamStop hs)

theorem keeps_lockOp {ka : KReg} {word res : Bool} {ok : Nat → Bool} {eff : State → Nat → Team → Nat → Out}
    (heff : ∀ s0 n1 t2 n3, Keeps s₀ s0 → KeepsOut s₀ (eff s0 n1 t2 n3)) (hs : Keeps s₀ s) :
    KeepsOut s₀ (lockOp ka word res ok eff s) :=
  keeps_boundaryNormal (fun _ _ _ h => keeps_ite_out (heff _ _ _ _ h) (keeps_lockState h)) hs

theorem keeps_lockWaited {u : Nat} {k : State → Out} (hs : Keeps s₀ s) (hk : ∀ s0, Keeps s₀ s0 → KeepsOut s₀ (k s0)) :
    KeepsOut s₀ (lockWaited s u k) :=
  keeps_ite_out (keeps_lockState (keeps_modTeam hs)) (hk _ hs)

theorem keeps_lockDone {u core n : Nat} {l : Lock} {res : Option (Nat × W64)} (hs : Keeps s₀ s) :
    KeepsOut s₀ (lockDone s u core n l res) := by
  unfold lockDone
  refine keeps_done ?_
  refine keeps_lockStep ?_
  refine keeps_fallThrough ?_
  refine keeps_setLock ?_
  split
  · exact keeps_modTeam hs fun _ h => keeps_setK h
  · exact hs

theorem keeps_execLockInit {a n : KReg} (hs : Keeps s₀ s) : KeepsOut s₀ (execLockInit a n s) :=
  keeps_lockOp (fun _ _ _ _ h => keeps_ite_out (keeps_lockState h) (keeps_done (keeps_fallThrough (keeps_setLock h))))
    hs

theorem keeps_execLockArrive {a n : KReg} (hs : Keeps s₀ s) : KeepsOut s₀ (execLockArrive a n s) := by
  unfold execLockArrive
  refine keeps_lockOp (fun _ _ _ _ h => ?_) hs
  dsimp only
  split
  · exact keeps_lockGroup h
  · exact keeps_ite_out (keeps_lockState h) (keeps_ite_out (keeps_lockGroup h) (keeps_lockDone h))

theorem keeps_execLockExpect {a n : KReg} (hs : Keeps s₀ s) : KeepsOut s₀ (execLockExpect a n s) := by
  unfold execLockExpect
  refine keeps_lockOp (fun _ _ _ _ h => ?_) hs
  refine keeps_ite_out (keeps_lockState h) ?_
  split
  · exact keeps_lockState h
  · exact keeps_lockDone h

theorem keeps_execLockWait {a n : KReg} {sc : Scope} (hs : Keeps s₀ s) : KeepsOut s₀ (execLockWait a n sc s) := by
  unfold execLockWait
  refine keeps_lockOp (fun _ _ _ _ h => ?_) hs
  refine keeps_lockWaited h fun _ h1 => ?_
  dsimp only
  split
  · exact keeps_lockGroup h1
  · exact keeps_ite_out (keeps_lockState h1) (keeps_ite_out (keeps_lockGroup h1) (keeps_ite_out (keeps_done
            (keeps_fallThrough (keeps_lockAcquire h1))) (keeps_done (keeps_waitFor h1))))

theorem keeps_execLockTry {a n : KReg} {sc : Scope} (hs : Keeps s₀ s) : KeepsOut s₀ (execLockTry a n sc s) := by
  unfold execLockTry
  refine keeps_lockOp (fun _ _ _ _ h => ?_) hs
  dsimp only
  split
  · exact keeps_lockGroup h
  · refine keeps_ite_out (keeps_lockState h) (keeps_ite_out (keeps_lockGroup h) (keeps_done ?_))
    refine keeps_fallThrough (keeps_ite ?_ (keeps_modTeam h fun _ h1 => keeps_setK h1))
    exact keeps_lockAcquire (keeps_modTeam h fun _ h1 => keeps_setK h1)

theorem keeps_copyUnbind {core n : Nat} (hs : Keeps s₀ s) : Keeps s₀ (copyUnbind s core n) :=
  keeps_modCore hs

theorem keeps_execLockInval {a n : KReg} (hs : Keeps s₀ s) : KeepsOut s₀ (execLockInval a n s) :=
  keeps_lockOp (fun _ _ _ _ h =>
      keeps_ite_out (keeps_lockState h) (keeps_done (keeps_fallThrough (keeps_setLock (keeps_copyUnbind h))))) hs

theorem keeps_execLockFill {a n : KReg} (hs : Keeps s₀ s) : KeepsOut s₀ (execLockFill a n s) := by
  unfold execLockFill
  refine keeps_lockOp (fun _ _ _ _ h => ?_) hs
  refine keeps_lockWaited h fun _ h1 => ?_
  refine keeps_ite_out (keeps_lockState h1) ?_
  refine keeps_ite_out (keeps_done (keeps_waitFor h1)) ?_
  split
  · exact keeps_lockState h1
  · exact keeps_lockDone (keeps_lockFillSync h1)

theorem keeps_execLockDrain {a n : KReg} (hs : Keeps s₀ s) : KeepsOut s₀ (execLockDrain a n s) :=
  keeps_lockOp (fun _ _ _ _ h => keeps_ite_out (keeps_lockState h) (keeps_lockDone h)) hs

/-! ## Tensor copies (Machine/Copy) -/

theorem keeps_copyReads {t : Team} {f : CopyForm} {w3 : Nat} (hs : Keeps s₀ s) : Keeps s₀ (copyReads s t f w3) :=
  keeps_ite (keeps_txHdr (keeps_txStart hs)) hs

theorem keeps_stagePut {g : Engine} {va : Nat} {bs : List Byte} (hs : Keeps s₀ g.s) : Keeps s₀ (stagePut g va bs).s :=
  hs

theorem keeps_engFetch {core id : Nat} {pol : Pol} {window : Bool} {at_ : Nat} {g : Engine} {va : Nat}
    (hs : Keeps s₀ g.s) :
    Keeps s₀ (engFetch core id pol window at_ g va).1.s := by
  unfold engFetch
  dsimp only
  split
  · exact hs
  · exact hs
  · split
    · split
      · exact hs
      · exact keeps_stagePut (keeps_hearSlice (keeps_poundKeep (keeps_activate (keeps_l1Keep (keeps_bring hs)))))
    · split
      · exact hs
      · split
        · exact keeps_stagePut hs
        · exact hs
    · split
      · exact hs
      · split
        · split
          · exact keeps_stagePut hs
          · exact hs
          · exact hs
        · exact keeps_sendPeer hs
    · exact hs

theorem keeps_engSectors {core id : Nat} {pol : Pol} {window : Bool} {at_ n : Nat} {g : Engine} {n1 : Nat}
    (hs : Keeps s₀ g.s) :
    Keeps s₀ (engSectors core id pol window at_ n g n1).1.s := by
  induction n generalizing g n1 with
  | zero => exact hs
  | succ n ih =>
    unfold engSectors
    dsimp only
    split
    · exact ih hs
    · split
      next e1 => exact ih (keeps_of_eq_eng (keeps_engFetch hs) e1)
      next e1 => exact ih (keeps_of_eq_eng (keeps_engFetch hs) e1)
      next e1 => exact keeps_of_eq_eng (keeps_engFetch hs) e1

theorem keeps_engRead {core id : Nat} {pol : Pol} {window : Bool} {g : Engine} {va n : Nat} (hs : Keeps s₀ g.s) :
    Keeps s₀ (engRead core id pol window g va n).1.s := by
  unfold engRead
  dsimp only
  split
  · exact keeps_engSectors hs
  · exact keeps_engSectors hs

theorem keeps_madeOf {g : Engine} {n : Nat} {bs : List Byte} {fl : FlagSet} {e : EngEnd} (hs : Keeps s₀ g.s) :
    Keeps s₀ (madeOf g n bs fl e).g.s := by
  unfold madeOf
  split
  · exact hs
  · exact hs

theorem keeps_mxGrain {core id : Nat} {h : CopyShape} {bf : Bool} {g : Engine} {o : Nat} (hs : Keeps s₀ g.s) :
    Keeps s₀ (mxGrain core id h bf g o).g.s := by
  unfold mxGrain
  dsimp only
  split
  next e1 => exact keeps_madeOf (keeps_engRead (keeps_of_eq_eng (keeps_engRead hs) e1))
  next e1 => exact keeps_madeOf (keeps_of_eq_eng (keeps_engRead hs) e1)

theorem keeps_rowGrain {core id : Nat} {h : CopyShape} {pol : Pol} {g : Engine} {o : Nat} (hs : Keeps s₀ g.s) :
    Keeps s₀ (rowGrain core id h pol g o).g.s := by
  unfold rowGrain
  dsimp only
  split
  · split
    · exact keeps_madeOf hs
    · exact keeps_madeOf hs
  · exact keeps_madeOf (keeps_engRead hs)

theorem keeps_copyGrain {core id : Nat} {f : CopyForm} {h : CopyShape} {g : Engine} {o : Nat} (hs : Keeps s₀ g.s) :
    Keeps s₀ (copyGrain core id f h g o).g.s := by
  unfold copyGrain
  split
  · exact keeps_mxGrain hs
  · exact keeps_mxGrain hs
  · exact keeps_rowGrain hs
  · exact keeps_rowGrain hs

theorem keeps_copyMake {core id : Nat} {f : CopyForm} {h : CopyShape} {n : Nat} {g : Engine} {n1 n2 : Nat}
    (hs : Keeps s₀ g.s) :
    Keeps s₀ (copyMake core id f h n g n1 n2).g.s := by
  induction n generalizing g n1 n2 with
  | zero => exact hs
  | succ n ih =>
    unfold copyMake
    dsimp only
    split
    · exact hs
    · split
      · split
        · exact ih (keeps_copyGrain hs)
        · exact keeps_copyGrain hs
      · exact ih (keeps_copyGrain hs)

theorem keeps_readChunk {core id : Nat} {g : Engine} {c : CopyCmd} (hs : Keeps s₀ g.s) :
    Keeps s₀ (readChunk core id g c).made.g.s := by
  unfold readChunk
  extract_lets
  split
  · exact keeps_madeOf hs
  · exact keeps_madeOf hs
  · split
    next g1 _ e2 =>
      have hg1 : Keeps s₀ g1.s := keeps_of_eq_eng (keeps_engRead hs) e2
      split
      · exact keeps_madeOf hg1
      · extract_lets next
        split
        next g2 _ e4 =>
          have hg2 : Keeps s₀ g2.s := keeps_of_eq_eng (keeps_engRead hg1) e4
          extract_lets
          split
          · exact keeps_madeOf hg2
          · split
            · exact keeps_madeOf hg2
            · exact keeps_madeOf hg2
        next e4 => exact keeps_madeOf (keeps_of_eq_eng (keeps_engRead hg1) e4)
    next e2 => exact keeps_madeOf (keeps_of_eq_eng (keeps_engRead hs) e2)
    next e2 => exact keeps_madeOf (keeps_of_eq_eng (keeps_engRead hs) e2)

theorem keeps_poisonBlock {b : Nat} (hs : Keeps s₀ s) : Keeps s₀ (poisonBlock s b) :=
  keeps_setMeta hs

theorem keeps_putGlobal {au : Author} {core id a : Nat} {bs : List OutB} (hs : Keeps s₀ s) :
    KeepsPut s₀ (putGlobal au s core id a bs) := by
  unfold putGlobal
  split
  · split
    · exact hs
    · exact hs
  · exact hs
  · split
    · extract_lets deb paid s1
      have hpaid : Keeps s₀ paid.1 := keeps_ite_fst (keeps_debit8 hs) hs
      have hs1 : Keeps s₀ s1 := keeps_markDirty (keeps_bring hpaid)
      split
      · exact hpaid
      · split
        · exact keeps_poisonBlock (keeps_ite (keeps_undebit hs1) hs1)
        · exact keeps_storeOver hs1
    · exact hs

theorem keeps_putSpad {au : Author} {core : Nat} {h : CopyShape} {n n1 : Nat} {x : List OutB} (hs : Keeps s₀ s) :
    Keeps s₀ (putSpad au core h n s n1 x) := by
  induction n generalizing s n1 x with
  | zero => exact hs
  | succ n ih =>
    unfold putSpad
    exact keeps_ite hs (ih (keeps_ite (keeps_modCore hs) (keeps_spadWriteBy hs)))

theorem keeps_setHead {core q : Nat} {c : CopyCmd} (hs : Keeps s₀ s) : Keeps s₀ (setHead s core q c) :=
  keeps_modCore hs

theorem keeps_copyAdmit {core q : Nat} (hs : Keeps s₀ s) : Keeps s₀ (copyAdmit s core q) := by
  unfold copyAdmit
  refine keeps_ite hs ?_
  split
  · exact hs
  · exact keeps_fallThrough (keeps_modCore hs)

theorem keeps_copyAdmitAll {core : Nat} (hs : Keeps s₀ s) : Keeps s₀ (copyAdmitAll s core) :=
  keeps_foldl hs fun _ _ h => keeps_foldl h (fun _ _ h1 => keeps_copyAdmit h1)

theorem keeps_copyFinish {core q : Nat} {c : CopyCmd} (hs : Keeps s₀ s) : Keeps s₀ (copyFinish s core q c) :=
  keeps_copyAdmit (keeps_ite (keeps_modCore hs) (keeps_lockEngEnd (keeps_modCore hs)))

theorem keeps_badAppend {id core h : Nat} {bytes : List Byte} (hs : Keeps s₀ s) :
    KeepsSome s₀ (badAppend s id core h bytes) := by
  unfold badAppend
  extract_lets
  split
  · exact trivial
  · split
    · exact trivial
    · split
      next s1 e1 =>
        have hs1 : Keeps s₀ s1 :=
          keeps_of_result (P := KeepsTx) (keeps_txFinish (keeps_loomClose (keeps_txPutLong
                  (keeps_loomAddr (keeps_loomReserve (keeps_txStart hs)))))) e1
        refine keeps_addSeqRel ?_
        split
        · exact keeps_afterCl hs1
        · exact hs1
      · exact trivial

theorem keeps_badChunk {core id q : Nat} {c : CopyCmd} {reason : Nat} (hs : Keeps s₀ s) :
    Keeps s₀ (badChunk s core id q c reason) := by
  unfold badChunk
  refine keeps_ite hs ?_
  dsimp only
  split
  next e1 => exact keeps_of_result (P := KeepsSome) (keeps_badAppend hs) e1
  · exact keeps_pushRec hs

theorem keeps_copyStall {core q : Nat} {c : CopyCmd} {cause addr : Nat} (hs : Keeps s₀ s) :
    Keeps s₀ (copyStall s core q c cause addr) :=
  keeps_setHead (keeps_ite hs (keeps_pushRec hs))

theorem keeps_unitDone {core q : Nat} {c : CopyCmd} {m : Made} {dcause : Option Nat} {stopped : Bool}
    {made : List Nat} (hs : Keeps s₀ s) :
    Keeps s₀ (unitDone s core q c m dcause stopped made).1 := by
  unfold unitDone
  refine keeps_lockCount ?_
  split
  · exact keeps_ite (keeps_raiseCopy hs) (keeps_pushRec (keeps_raiseCopy hs))
  · exact keeps_raiseCopy hs

theorem keeps_copyPoison {core id : Nat} {h : CopyShape} {n n1 n2 : Nat} (hs : Keeps s₀ s) :
    Keeps s₀ (copyPoison core id h n s n1 n2) := by
  induction n generalizing s n1 n2 with
  | zero => exact hs
  | succ n ih =>
    unfold copyPoison
    refine keeps_ite hs ?_
    refine ih ?_
    refine keeps_ite (keeps_putSpad hs) ?_
    split
    · exact keeps_poisonBlock hs
    · exact hs

theorem keeps_copyAbandon {core : Nat} {c : CopyCmd} (hs : Keeps s₀ s) : Keeps s₀ (copyAbandon core s c).1 :=
  keeps_lockCount (keeps_copyPoison hs)

theorem keeps_copyNow {core q : Nat} {c : CopyCmd} (hs : Keeps s₀ s) : Keeps s₀ (copyNow s core q c) :=
  keeps_ite (keeps_copyFinish hs) (keeps_setHead hs)

theorem keeps_copyUnit {core q : Nat} {c : CopyCmd} (hs : Keeps s₀ s) : Keeps s₀ (copyUnit s core q c) := by
  unfold copyUnit
  extract_lets h id n g k take base r m c0 fault put
  refine keeps_ite ?_ ?_
  · split
    next e => exact keeps_copyNow (keeps_of_eq (keeps_copyAbandon hs) e)
  · have hm : Keeps s₀ m.g.s := by
      unfold m r
      split
      · exact keeps_readChunk hs
      · exact keeps_copyMake hs
    clear_value m
    have hput : KeepsPut s₀ put := by
      unfold put
      split
      · exact hm
      · split
        · exact keeps_putSpad hm
        · exact keeps_putGlobal hm
    clear_value put fault
    refine keeps_ite (keeps_setHead hm) ?_
    split
    · exact keeps_copyStall hput
    · refine keeps_ite ?_ ?_
      · split
        · exact keeps_copyStall hput
        · exact hput
      · extract_lets s2
        have h2 : Keeps s₀ s2 := keeps_badChunk hput
        clear_value s2
        split
        next s3 _ e =>
          have h3 : Keeps s₀ s3 := keeps_of_eq (keeps_unitDone h2) e
          split
          · exact keeps_copyStall h3
          · exact keeps_copyNow h3

theorem keeps_execCopy {a n : KReg} {q : BitVec 2} {f : CopyForm} (hs : Keeps s₀ s) :
    KeepsOut s₀ (execCopy a n q f s) := by
  unfold execCopy
  refine keeps_boundaryNormal (fun _ _ _ h => ?_) hs
  dsimp only
  split
  · exact keeps_done (keeps_requestWalkAt h)
  · split
    · exact keeps_done (keeps_teamStop (keeps_copyReads h))
    · refine keeps_ite_out ?_ ?_
      · exact keeps_done (keeps_waitFor (keeps_setLock (keeps_copyReads h)))
      · exact keeps_done (keeps_fallThrough (keeps_modCore (keeps_setLock (keeps_copyReads h))))

theorem keeps_execCopyUnitWrite {core q : Nat} (hs : Keeps s₀ s) : KeepsOut s₀ (execCopyUnitWrite core q s) := by
  unfold execCopyUnitWrite
  refine keeps_ite_out ?_ hs
  split
  · exact keeps_done (keeps_copyUnit (keeps_modCore hs))
  · exact hs

theorem keeps_execCopyRetry {core q : Nat} (hs : Keeps s₀ s) : KeepsOut s₀ (execCopyRetry core q s) := by
  unfold execCopyRetry
  split
  · exact keeps_ite_out (keeps_done (keeps_copyUnit hs)) hs
  · exact hs

theorem keeps_copyDue {id : Nat} (hs : Keeps s₀ s) : Keeps s₀ (copyDue s id) :=
  hs

theorem keeps_copyKillOne {core q : Nat} {c : CopyCmd} (hs : Keeps s₀ s) : Keeps s₀ (copyKillOne core q s c) := by
  unfold copyKillOne
  dsimp only
  exact keeps_lockEngEnd (keeps_modCore (keeps_copyAbandon hs))

theorem keeps_copyAbandoned {core : Nat} (hs : Keeps s₀ s) : Keeps s₀ (copyAbandoned s core) :=
  keeps_foldl hs fun _ _ h => keeps_copyPoison h

theorem keeps_copyKill {core u : Nat} (hs : Keeps s₀ s) : Keeps s₀ (copyKill s core u) := by
  unfold copyKill
  refine keeps_copyAdmitAll ?_
  refine keeps_foldl ?_ fun _ _ h => keeps_foldl h (fun _ _ h1 => keeps_copyKillOne h1)
  split
  · exact keeps_lockEngEnd (keeps_modTeam hs)
  · exact hs

/-! ## Matrix operations (Machine/Matrix) -/

theorem keeps_matPush {core part : Nat} {o : MOp} (hs : Keeps s₀ s) : Keeps s₀ (matPush s core part o) :=
  keeps_modCore hs

theorem keeps_matStop {u cause : Nat} (hs : Keeps s₀ s) : KeepsOut s₀ (matStop s u cause) :=
  keeps_done (keeps_teamStop hs)

theorem keeps_execMma {a : KReg} {f : MmaFmt} {acca pair zero : Bool} (hs : Keeps s₀ s) :
    KeepsOut s₀ (execMma a f acca pair zero s) := by
  unfold execMma
  refine keeps_boundaryNormal (fun _ _ _ h => ?_) hs
  refine keeps_ite_out (keeps_matStop h) ?_
  dsimp only
  split
  · exact keeps_matStop h
  · exact keeps_ite_out (keeps_done (keeps_waitFor h)) (keeps_done (keeps_fallThrough
          (keeps_ite (keeps_matPush (keeps_matPush h)) (keeps_matPush h))))

theorem keeps_matAccept {u : Nat} {t : Team} {o : MOp} (hs : Keeps s₀ s) : KeepsOut s₀ (matAccept s u t o) :=
  keeps_ite_out (keeps_done (keeps_waitFor hs)) (keeps_done (keeps_fallThrough (keeps_matPush hs)))

theorem keeps_execMacs {a : KReg} {f : ScaleFmt} (hs : Keeps s₀ s) : KeepsOut s₀ (execMacs a f s) := by
  unfold execMacs
  refine keeps_issueOp (fun _ _ _ h => ?_) hs
  refine keeps_normalOnly (fun _ _ _ h1 => ?_) h
  dsimp only
  split
  · exact keeps_matStop h1
  · exact keeps_matAccept h1

theorem keeps_mvExec {a : KReg} {k : MKind} (hs : Keeps s₀ s) : KeepsOut s₀ (mvExec a k s) := by
  unfold mvExec
  refine keeps_issueOp (fun _ _ _ h => ?_) hs
  refine keeps_normalOnly (fun _ _ _ h1 => ?_) h
  dsimp only
  split
  · exact keeps_matStop h1
  · exact keeps_matAccept h1

theorem keeps_debitBlocks {core id : Nat} {x : List Touch} (hs : Keeps s₀ s) :
    Keeps s₀ (debitBlocks s core id x).1 := by
  induction x generalizing s with
  | nil => exact hs
  | cons x x ih =>
    unfold debitBlocks
    refine keeps_ite_fst (ih hs) ?_
    split
    next e1 => exact keeps_of_eq (keeps_debit8 hs) e1
    next e1 => exact ih (keeps_of_eq (keeps_debit8 hs) e1)

theorem keeps_mvGlobalExec {a : KReg} {k : MKind} (hs : Keeps s₀ s) : KeepsOut s₀ (mvGlobalExec a k s) := by
  unfold mvGlobalExec
  refine keeps_issueOp (fun _ _ _ h => ?_) hs
  refine keeps_normalOnly (fun _ _ _ h1 => ?_) h
  dsimp only
  split
  · exact keeps_matStop h1
  · refine keeps_withChecked h1 fun _ => ?_
    refine keeps_ite_out (keeps_done (keeps_waitFor h1)) ?_
    refine keeps_ite_out ?_ (keeps_matAccept h1)
    split
    next e2 => exact keeps_done (keeps_teamReplay (keeps_undebit (keeps_of_eq (keeps_debitBlocks h1) e2)))
    next e2 => exact keeps_matAccept (keeps_of_eq (keeps_debitBlocks h1) e2)

theorem keeps_execMfenceOpr (hs : Keeps s₀ s) : KeepsOut s₀ (execMfenceOpr s) :=
  keeps_issueOp (fun _ _ _ h => keeps_ite_out hs (keeps_done (keeps_fallThrough (keeps_modTeam (keeps_meldLanes h)))))
    hs

theorem keeps_modBoth {core u : Nat} {f : Core → Core} (hs : Keeps s₀ s) : Keeps s₀ (modBoth s core u f) :=
  keeps_ite (keeps_modCore (keeps_modCore hs)) (keeps_modCore hs)

theorem keeps_execMfenceBatch {a : KReg} (hs : Keeps s₀ s) : KeepsOut s₀ (execMfenceBatch a s) :=
  keeps_issueOp (fun _ _ _ h =>
      keeps_done (keeps_fallThrough (keeps_modTeam (keeps_modBoth h) fun _ h1 => keeps_setK h1))) hs

theorem keeps_failStop {u : Nat} {f : MFail} (hs : Keeps s₀ s) : Keeps s₀ (failStop s u f) :=
  keeps_teamStopWith (keeps_modTeam hs)

theorem keeps_execMwait {a : KReg} (hs : Keeps s₀ s) : KeepsOut s₀ (execMwait a s) := by
  unfold execMwait
  refine keeps_issueOp (fun _ _ _ h => ?_) hs
  refine keeps_ite_out (keeps_matStop h) ?_
  refine keeps_ite_out (keeps_done (keeps_waitFor h)) ?_
  split
  · exact keeps_done (keeps_failStop h)
  · exact keeps_done (keeps_fallThrough (keeps_teamJoins (keeps_meldLanes (keeps_flushLate (keeps_modBoth h)))))

theorem keeps_matWake {core part : Nat} (hs : Keeps s₀ s) : Keeps s₀ (matWake s core part) := by
  unfold matWake
  refine keeps_teams hs rfl fun _ h => ?_
  dsimp only
  split
  · exact keeps_ite_team h h
  · exact keeps_ite_team h h
  · exact h

theorem keeps_matPop {core part : Nat} (hs : Keeps s₀ s) : Keeps s₀ (matPop s core part) :=
  keeps_matWake (keeps_modCore hs)

theorem keeps_matEnd {core part : Nat} (hs : Keeps s₀ s) : Keeps s₀ (matEnd s core part) :=
  keeps_settleStop (keeps_matPop hs)

theorem keeps_setOpHead {core part : Nat} {o : MOp} (hs : Keeps s₀ s) : Keeps s₀ (setOpHead s core part o) :=
  keeps_modCore hs

theorem keeps_strikeDest {core : Nat} {o : MOp} (hs : Keeps s₀ s) : Keeps s₀ (strikeDest s core o) :=
  keeps_strike hs

theorem keeps_matSpoil {n core : Nat} {o : MOp} (hs : Keeps s₀ s) : Keeps s₀ (matSpoil n s core o) :=
  keeps_strikeDest (keeps_spoil hs)

theorem keeps_matFail {core part : Nat} {o : MOp} {cause : Nat} {follower : Bool} (hs : Keeps s₀ s) :
    Keeps s₀ (matFail s core part o cause follower) :=
  keeps_matEnd (keeps_modTeam (keeps_matSpoil hs))

theorem keeps_matWrite {n core part : Nat} {o : MOp} {c : Core} {fl : FlagSet} {approx : Bool} (hs : Keeps s₀ s) :
    Keeps s₀ (matWrite n s core part o c fl approx) :=
  keeps_raiseMatrix (keeps_ite (keeps_matSpoil hs) (keeps_strikeDest (keeps_setCore hs)))

theorem keeps_matFinish {core part : Nat} {o : MOp} {r : MatOut} (hs : Keeps s₀ s) :
    Keeps s₀ (matFinish s core part o r) := by
  unfold matFinish
  split
  · exact keeps_matFail hs
  · exact keeps_matEnd (keeps_matWrite hs)

theorem keeps_pairRetire {core part : Nat} {o : MOp} {f : MmaFmt} {acca zero : Bool} (hs : Keeps s₀ s) :
    Keeps s₀ (pairRetire s core part o f acca zero) := by
  unfold pairRetire
  dsimp only
  split
  · exact hs
  · refine keeps_ite hs ?_
    split
    · exact keeps_matEnd (keeps_matSpoil (keeps_matFail hs))
    · split
      · exact keeps_matEnd (keeps_matSpoil (keeps_matFail hs))
      · exact keeps_matEnd (keeps_matSpoil (keeps_matFail hs))
      · exact keeps_matEnd (keeps_matEnd (keeps_matWrite (keeps_matWrite hs)))

theorem keeps_spadRowsWrite {au : Author} {core : Nat} {d : MvDesc} {rows : List (List Byte)} (hs : Keeps s₀ s) :
    Keeps s₀ (spadRowsWrite au core d s rows) :=
  keeps_foldl hs fun _ _ h => keeps_spadWriteBy h

theorem keeps_unitStore {core : Nat} {r : State × MOp} {va : Nat} {bs : List Byte} (hs : Keeps s₀ r.1) :
    Keeps s₀ (unitStore core r va bs).1 := by
  unfold unitStore
  dsimp only
  split
  · dsimp only
    exact keeps_storeOver (keeps_markDirty hs)
  · dsimp only
    exact keeps_hostStore hs
  · dsimp only
    exact keeps_sendPeer (keeps_strikeOver hs)
  · exact hs

theorem keeps_t2gPut {core : Nat} {o : MOp} {bs : List Byte} (hs : Keeps s₀ s) : Keeps s₀ (t2gPut core s o bs).1 := by
  unfold t2gPut
  dsimp only
  exact keeps_foldl_fst hs fun _ _ h => keeps_unitStore h

theorem keeps_t2gRetire {core part : Nat} {o : MOp} (hs : Keeps s₀ s) : Keeps s₀ (t2gRetire s core part o) := by
  unfold t2gRetire
  refine keeps_ite ?_ ?_
  · refine keeps_ite hs ?_
    dsimp only
    split
    · exact keeps_matFail (keeps_setOpHead hs)
    · exact keeps_matEnd (keeps_raiseMatrix (keeps_setOpHead hs))
  · dsimp only
    split
    · refine keeps_ite ?_ (keeps_setOpHead (keeps_t2gPut hs))
      split
      · exact keeps_matFail (keeps_setOpHead (keeps_t2gPut hs))
      · exact keeps_matEnd (keeps_raiseMatrix (keeps_setOpHead (keeps_t2gPut hs)))
    · refine keeps_ite ?_ (keeps_setOpHead (keeps_t2gPut hs))
      split
      · exact keeps_matFail (keeps_setOpHead (keeps_t2gPut hs))
      · exact keeps_matEnd (keeps_raiseMatrix (keeps_setOpHead (keeps_t2gPut hs)))

theorem keeps_g2tRetire {core part : Nat} {o : MOp} (hs : Keeps s₀ s) : Keeps s₀ (g2tRetire s core part o) := by
  unfold g2tRetire
  dsimp only
  split
  next e1 => exact keeps_matFinish (keeps_setOpHead (keeps_of_eq_eng (keeps_engRead hs) e1))
  next e1 => exact keeps_matFail (keeps_setOpHead (keeps_of_eq_eng (keeps_engRead hs) e1))
  next e1 => exact keeps_setOpHead (keeps_of_eq_eng (keeps_engRead hs) e1)

theorem keeps_plainRetire {core part : Nat} {o : MOp} (hs : Keeps s₀ s) : Keeps s₀ (plainRetire s core part o) := by
  unfold plainRetire
  dsimp only
  split
  · exact keeps_pairRetire hs
  · split
    · exact keeps_matFail hs
    · exact keeps_matFinish hs
  · exact keeps_matFinish hs
  · split
    · exact keeps_matFail hs
    · exact keeps_ite (keeps_matFinish hs)
        (keeps_matEnd (keeps_raiseMatrix (keeps_setOpHead (keeps_spadRowsWrite hs))))
  · exact keeps_ite (keeps_matFail hs) (keeps_matFinish hs)
  · exact keeps_matFinish hs
  · exact keeps_t2gRetire hs
  · exact keeps_g2tRetire hs
  · exact keeps_matFinish hs
  · exact hs

theorem keeps_matAbandonOp {core : Nat} {o : MOp} (hs : Keeps s₀ s) : Keeps s₀ (matAbandonOp core s o) := by
  unfold matAbandonOp
  dsimp only
  split
  · exact keeps_t2gPut (keeps_matSpoil hs)
  · exact keeps_undebit (keeps_matSpoil hs)

theorem keeps_matKill {core u : Nat} (hs : Keeps s₀ s) : Keeps s₀ (matKill s core u) := by
  unfold matKill
  extract_lets mine theirs drop s1 s2 s3
  have hs1 : Keeps s₀ s1 := keeps_foldl (keeps_modCore hs) fun _ _ h => keeps_matAbandonOp h
  have hs2 : Keeps s₀ s2 := keeps_ite hs1 (keeps_foldl (keeps_modCore hs1) fun _ _ h => keeps_matSpoil h)
  have hs3 : Keeps s₀ s3 := keeps_flushLate hs2
  exact keeps_ite hs3 (keeps_settleStop (keeps_foldl hs3 fun _ _ h => keeps_matWake (keeps_matWake h)))

theorem keeps_pairLost {core : Nat} (hs : Keeps s₀ s) : Keeps s₀ (pairLost s core) :=
  keeps_ite hs (keeps_settleStop (keeps_foldl hs
        fun _ _ h => keeps_matWake (keeps_modCore (keeps_foldl h fun _ _ h1 => keeps_modTeam (keeps_matSpoil h1)))))

theorem keeps_attnStrike {id : Nat} {uses : MOp → Bool} (hs : Keeps s₀ s) : Keeps s₀ (attnStrike s id uses) :=
  keeps_foldl hs fun _ _ h => keeps_ite (keeps_strike h) h

/-! ## Sequences (Machine/Sequence) -/

theorem keeps_loomGo {s0 : State} {u h : Nat} {f : Txn → Loomed} {k : State → Nat → Out} (hs : Keeps s₀ s0)
    (hf : ∀ t0, Keeps s₀ t0.s → Keeps s₀ (f t0).tx.s) (hk : ∀ s0 n1, Keeps s₀ s0 → KeepsOut s₀ (k s0 n1)) :
    KeepsOut s₀ (loomGo s0 u h f k) := by
  unfold loomGo
  extract_lets s t sp die r
  have hs' : Keeps s₀ s := keeps_meldLanes hs
  have hr : Keeps s₀ r.tx.s := hf _ (keeps_txStart hs')
  refine keeps_ite_out (keeps_done (keeps_requestWalkAt hs')) ?_
  split
  next e1 => exact keeps_done (keeps_teamFault (keeps_of_result (P := KeepsTx) (keeps_txFinish hr) e1))
  next s1 e1 =>
    have hs1 : Keeps s₀ s1 := keeps_of_result (P := KeepsTx) (keeps_txFinish hr) e1
    extract_lets s2
    have hs2 : Keeps s₀ s2 := by
      unfold s2
      split
      · exact keeps_afterCl hs1
      · exact hs1
    exact hk _ _ (keeps_ite hs2 (keeps_teamJoins hs2))

theorem keeps_seqDesc {u : Nat} (hs : Keeps s₀ s) : KeepsOut s₀ (seqDesc s u) :=
  keeps_done (keeps_teamStop hs)

theorem keeps_seqOp {a b : KReg} {res : Option Nat} {ok : Nat → Bool} {f : Nat → Nat → Txn → Loomed}
    {k : State → Nat → Nat → Out} (hf : ∀ n0 n1 t2, Keeps s₀ t2.s → Keeps s₀ (f n0 n1 t2).tx.s)
    (hk : ∀ s0 n1 n2, Keeps s₀ s0 → KeepsOut s₀ (k s0 n1 n2)) (hs : Keeps s₀ s) :
    KeepsOut s₀ (seqOp a b res ok f k s) := by
  unfold seqOp
  refine keeps_boundaryNormal (fun _ _ _ h => ?_) hs
  refine keeps_ite_out (keeps_seqDesc h) ?_
  refine keeps_loomGo h (fun _ h1 => hf _ _ _ h1) fun _ _ h1 => ?_
  refine hk _ _ _ ?_
  split
  · exact keeps_modTeam h1 fun _ h2 => keeps_setK h2
  · exact h1

theorem keeps_seqNext {u _r : Nat} (hs : Keeps s₀ s) : KeepsOut s₀ (seqNext s u _r) :=
  keeps_done (keeps_fallThrough hs)

theorem keeps_execSeqReserve {a b : KReg} (hs : Keeps s₀ s) : KeepsOut s₀ (execSeqReserve a b s) :=
  keeps_seqOp (fun _ _ _ h => keeps_loomReserve h) (fun _ _ _ h => keeps_seqNext h) hs

theorem keeps_execSeqAddr {a b : KReg} (hs : Keeps s₀ s) : KeepsOut s₀ (execSeqAddr a b s) :=
  keeps_seqOp (fun _ _ _ h => keeps_loomAddr h) (fun _ _ _ h => keeps_seqNext h) hs

theorem keeps_clAcquire {u h cl : Nat} (hs : Keeps s₀ s) : Keeps s₀ (clAcquire s u h cl) :=
  keeps_acquireView hs

theorem keeps_clRelease {u h base : Nat} (hs : Keeps s₀ s) : Keeps s₀ (clRelease s u h base) :=
  keeps_addSeqRel hs

theorem keeps_seqClose {a b : KReg} {void : Bool} (hs : Keeps s₀ s) : KeepsOut s₀ (seqClose a b void s) := by
  unfold seqClose
  refine keeps_boundaryNormal (fun _ _ _ h => ?_) hs
  refine keeps_ite_out (keeps_seqDesc h) ?_
  refine keeps_ite_out h ?_
  split
  · exact keeps_done (keeps_peerStoreStop h)
  · exact keeps_loomGo h (fun _ h1 => keeps_loomClose h1)
      fun _ _ h1 => keeps_seqNext (keeps_clRelease (keeps_commitTo h1))

theorem keeps_bindCl {core j h cl : Nat} (hs : Keeps s₀ s) : Keeps s₀ (bindCl s core j h cl) :=
  keeps_teams hs rfl fun _ h1 => keeps_ite_team (keeps_wakeSeq h1) h1

theorem keeps_execSeqWatch {a b : KReg} (hs : Keeps s₀ s) : KeepsOut s₀ (execSeqWatch a b s) := by
  refine keeps_boundaryNormal (fun _ _ _ h => keeps_ite_out (keeps_seqDesc h) (keeps_ite_out ?_ ?_)) hs
  · exact keeps_done (keeps_fallThrough (keeps_modTeam (keeps_modCore h) fun _ h1 => keeps_setK h1))
  · refine keeps_loomGo h (fun _ h1 => keeps_loomWatch h1) fun _ _ h1 => keeps_ite_out ?_ ?_
    · exact keeps_done (keeps_fallThrough (keeps_modTeam h1 fun _ h2 => keeps_setK h2))
    · exact keeps_done (keeps_fallThrough (keeps_modTeam (keeps_bindCl h1) fun _ h2 => keeps_setK h2))

theorem keeps_execSeqWait {a _b : KReg} (hs : Keeps s₀ s) : KeepsOut s₀ (execSeqWait a _b s) := by
  unfold execSeqWait
  refine keeps_boundaryNormal (fun _ _ _ h => ?_) hs
  refine keeps_ite_out (keeps_seqDesc h) ?_
  refine keeps_ite_out ?_ ?_
  · refine keeps_done ?_
    refine keeps_fallThrough ?_
    split
    · exact keeps_clAcquire (keeps_modTeam h)
    · exact keeps_modTeam h
  · refine keeps_ite_out (keeps_done (keeps_teamStop h)) ?_
    refine keeps_ite_out ?_ (keeps_done (keeps_waitFor h))
    refine keeps_done ?_
    refine keeps_fallThrough ?_
    split
    · exact keeps_clAcquire (keeps_modTeam h)
    · exact keeps_modTeam h

theorem keeps_forkRels {sp h child n : Nat} {v : View} (hs : Keeps s₀ s) : Keeps s₀ (forkRels s sp h child n v) :=
  keeps_addSeqRel (keeps_dropSeqRels hs)

theorem keeps_execSeqFork {a b : KReg} (hs : Keeps s₀ s) : KeepsOut s₀ (execSeqFork a b s) := by
  refine keeps_boundaryNormal (fun _ _ _ h => keeps_ite_out (keeps_seqDesc h) ?_) hs
  refine keeps_loomGo h (fun _ h1 => keeps_loomFork h1) fun _ _ h1 => keeps_seqNext ?_
  exact keeps_modTeam (keeps_ite (keeps_forkRels h1) h1) fun _ h2 => keeps_setK h2

theorem keeps_execSeqLen {a b : KReg} (hs : Keeps s₀ s) : KeepsOut s₀ (execSeqLen a b s) :=
  keeps_seqOp (fun _ _ _ h => keeps_loomLen h) (fun _ _ _ h => keeps_seqNext (keeps_clAcquire h)) hs

theorem keeps_loomPut {u k r : Nat} (hs : Keeps s₀ s) : KeepsOut s₀ (loomPut s u k r) :=
  keeps_done (keeps_fallThrough (keeps_modTeam hs fun _ h => keeps_setK h))

theorem keeps_insertRels {sp : Space} {h : Nat} (hs : Keeps s₀ s) : Keeps s₀ (insertRels s sp h) :=
  keeps_addSeqRel hs

theorem keeps_lookupRels {sp : Space} {h : Nat} (hs : Keeps s₀ s) : Keeps s₀ (lookupRels s sp h).1 :=
  keeps_addSeqRel (keeps_dropSeqRels hs)

theorem keeps_lookupSync {u h : Nat} (hs : Keeps s₀ s) : Keeps s₀ (lookupSync s u h) := by
  unfold lookupSync
  dsimp only
  exact keeps_acquireView (keeps_lookupRels hs)

theorem keeps_execPtreeLookup {a b : KReg} (hs : Keeps s₀ s) : KeepsOut s₀ (execPtreeLookup a b s) := by
  refine keeps_issueOp (fun _ _ _ h => keeps_normalOnly (fun _ _ _ h1 => ?_) h) hs
  refine keeps_ite_out (keeps_seqDesc h1) ?_
  refine keeps_loomGo h1 (fun _ h2 => keeps_loomLookup h2) fun _ _ h2 => ?_
  exact keeps_loomPut (keeps_ite (keeps_lookupSync h2) h2)

theorem keeps_execPtreeInsert {a b : KReg} (hs : Keeps s₀ s) : KeepsOut s₀ (execPtreeInsert a b s) := by
  refine keeps_issueOp (fun _ _ _ h => keeps_normalOnly (fun _ _ _ h1 => ?_) h) hs
  refine keeps_ite_out (keeps_seqDesc h1) ?_
  exact keeps_loomGo h1 (fun _ h2 => keeps_loomInsert h2) fun _ _ h2 => keeps_loomPut (keeps_insertRels h2)

theorem keeps_execPtreeUnref {a b : KReg} (hs : Keeps s₀ s) : KeepsOut s₀ (execPtreeUnref a b s) := by
  refine keeps_issueOp (fun _ _ _ h => keeps_normalOnly (fun _ _ _ h1 => keeps_ite_out h1 ?_) h) hs
  exact keeps_loomGo h1 (fun _ h2 => keeps_loomUnref h2) fun _ _ h2 => keeps_loomPut (keeps_attnStrike h2)

theorem keeps_loomKvtPage {t : Txn} {h p0 : Nat} (hs : Keeps s₀ t.s) : Keeps s₀ (loomKvtPage t h p0).tx.s := by
  unfold loomKvtPage
  refine keeps_withHdr hs fun _ _ h1 => ?_
  refine keeps_ite_loomed (keeps_loomStatus h1) ?_
  refine keeps_withPool h1 fun _ _ h2 => ?_
  split
  next t3 e1 =>
    have ht3 : Keeps s₀ t3.s := keeps_of_eq_tx (keeps_resolvePage h2) e1
    exact keeps_ite_loomed (keeps_loomStatus ht3) (keeps_loomStuck ht3)
  next e1 => exact keeps_loomRes (keeps_of_eq_tx (keeps_resolvePage h2) e1)

theorem keeps_loomKvtRope {t : Txn} {h : Nat} (hs : Keeps s₀ t.s) : Keeps s₀ (loomKvtRope t h).tx.s :=
  keeps_withHdr hs fun _ _ h1 => keeps_loomRes h1

theorem keeps_kvtOp {a b : KReg} {page rope : Bool} (hs : Keeps s₀ s) : KeepsOut s₀ (kvtOp a b page rope s) := by
  refine keeps_issueOp (fun _ _ _ h => keeps_normalOnly (fun _ _ _ h1 => ?_) h) hs
  refine keeps_ite_out (keeps_seqDesc h1) (keeps_ite_out (keeps_done (keeps_teamStop h1)) ?_)
  refine keeps_loomGo h1 (fun _ h2 => ?_) fun _ _ h2 => ?_
  · exact keeps_ite_loomed (keeps_loomKvtPage h2) (keeps_loomKvtRope h2)
  · refine keeps_ite_out ?_ ?_
    · exact keeps_loomPut (keeps_ite (keeps_spadWrite h2) h2)
    · exact keeps_done (keeps_fallThrough (keeps_ite (keeps_spadWrite h2) h2))

/-! ## Attention (Machine/Attention) -/

theorem keeps_attnStuck {t : Txn} (hs : Keeps s₀ t.s) : Keeps s₀ (attnStuck t).tx.s :=
  hs

theorem keeps_txClean {t : Txn} (hs : Keeps s₀ t.s) : Keeps s₀ (txClean t).s :=
  hs

theorem keeps_txAfter {a t : Txn} (hs : Keeps s₀ t.s) : Keeps s₀ (txAfter a t).s :=
  hs

theorem keeps_attnPages {hd : Hdr} {p : Pool} {t : Txn} {l : List Nat} (hs : Keeps s₀ t.s) :
    Keeps s₀ (attnPages hd p t l).1.s := by
  induction l generalizing t with
  | nil => exact hs
  | cons x l ih =>
    unfold attnPages
    dsimp only
    exact ih (keeps_txAfter (keeps_resolvePage (keeps_txClean hs)))

theorem keeps_attnVoids {hd : Hdr} {t : Txn} {l : List Nat} (hs : Keeps s₀ t.s) :
    Keeps s₀ (attnVoids hd t l).1.s := by
  induction l generalizing t with
  | nil => exact hs
  | cons x l ih =>
    unfold attnVoids
    dsimp only
    exact ih (keeps_txBit hs)

theorem keeps_attnStep {t0 : Txn} {d : AttnDesc} (hs : Keeps s₀ t0.s) : Keeps s₀ (attnStep t0 d).tx.s := by
  unfold attnStep
  split
  · exact keeps_attnStuck hs
  · split
    next e =>
      extract_lets t1
      have h1 : Keeps s₀ t1.s := keeps_txPlace (keeps_of_eq_tx (keeps_txHdr hs) e)
      clear_value t1
      split
      · exact keeps_attnStuck h1
      · split
        · exact keeps_attnStuck (t := { t1 with bad58 := true }) h1
        · split
          next t2 _ e2 =>
            extract_lets w
            split
            next t3 _ e3 =>
              split
              next t4 _ e4 =>
                have h2 : Keeps s₀ t2.s := keeps_of_eq_tx (keeps_txBytesLong (keeps_txClean h1)) e2
                have h3 : Keeps s₀ t3.s := keeps_of_eq_tx (keeps_attnPages (keeps_txClean h2)) e3
                have h4 : Keeps s₀ t4.s :=
                  keeps_of_eq_tx (keeps_ite_fst_tx (keeps_txClean h3) (keeps_attnVoids (keeps_txClean h3))) e4
                extract_lets t5
                have h5 : Keeps s₀ t5.s := keeps_txAfter (keeps_txAfter (keeps_txAfter h4))
                exact h5

theorem keeps_execAttn {a : KReg} {causal : Bool} (hs : Keeps s₀ s) : KeepsOut s₀ (execAttn a causal s) := by
  unfold execAttn
  refine keeps_boundaryNormal (fun _ _ _ h => ?_) hs
  extract_lets w d g
  have hg : Keeps s₀ g.tx.s := keeps_attnStep (keeps_txStart h)
  split
  · exact keeps_matStop h
  · refine keeps_ite_out (keeps_done (keeps_waitFor h)) ?_
    refine keeps_ite_out (keeps_done (keeps_requestWalkAt h)) ?_
    split
    · exact keeps_done (keeps_teamReplay hg)
    · split
      next e3 => exact keeps_done (keeps_teamReplay (keeps_of_eq (keeps_ite_fst (keeps_debit8 hg) hg) e3))
      next s3 e3 =>
        have hs3 : Keeps s₀ s3 := keeps_of_eq (keeps_ite_fst (keeps_debit8 hg) hg) e3
        split
        · exact keeps_done (keeps_teamStop (keeps_undebit hs3))
        · refine keeps_ite_out (keeps_matStop (keeps_undebit hs3)) ?_
          refine keeps_ite_out (keeps_matStop (keeps_undebit hs3)) ?_
          refine keeps_ite_out (keeps_matStop (keeps_undebit hs3)) (keeps_done ?_)
          exact keeps_fallThrough (keeps_matPush (keeps_clAcquire hs3))

theorem keeps_execAttnFin {a : KReg} (hs : Keeps s₀ s) : KeepsOut s₀ (execAttnFin a s) := by
  refine keeps_boundaryNormal (fun _ _ _ h => keeps_ite_out (keeps_matStop h) ?_) hs
  refine keeps_ite_out (keeps_matStop h) (keeps_ite_out (keeps_done (keeps_waitFor h)) ?_)
  exact keeps_done (keeps_fallThrough (keeps_matPush h))

theorem keeps_readKey {core id : Nat} {d : AttnDesc} {g : Engine} {pos va : Nat} (hs : Keeps s₀ g.s) :
    Keeps s₀ (readKey core id d g pos va).1.s := by
  unfold readKey
  split
  next e1 => exact keeps_of_eq_eng (keeps_engRead hs) e1
  next e1 => exact keeps_of_eq_eng (keeps_engRead hs) e1
  next e1 => exact keeps_of_eq_eng (keeps_engRead hs) e1
  next e1 => exact keeps_of_eq_eng (keeps_engRead hs) e1
  next e1 => exact keeps_of_eq_eng (keeps_engRead hs) e1

theorem keeps_readKeys {core id : Nat} {d : AttnDesc} {at_ : Nat → Nat} {g : Engine} {l : List Nat}
    (hs : Keeps s₀ g.s) :
    Keeps s₀ (readKeys core id d at_ g l).1.s := by
  induction l generalizing g with
  | nil => exact hs
  | cons x l ih =>
    unfold readKeys
    dsimp only
    exact ih (keeps_readKey hs)

theorem keeps_readPages {core id : Nat} {o : MOp} {d : AttnDesc} {causal : Bool} {slg tpg : Nat} {g : Engine}
    {x : List (Nat × Option Nat)} (hs : Keeps s₀ g.s) :
    Keeps s₀ (readPages core id o d causal slg tpg g x).1.s := by
  induction x generalizing g with
  | nil => exact hs
  | cons x x ih =>
    unfold readPages
    dsimp only
    refine ih ?_
    split
    · exact keeps_readKeys hs
    · exact hs

theorem keeps_attnCount {core id : Nat} {o : MOp} {n : Nat} (hs : Keeps s₀ s) :
    Keeps s₀ (attnCount s core id o n) := by
  unfold attnCount
  refine keeps_ite (keeps_undebit hs) ?_
  dsimp only
  split
  · exact keeps_storeOver (keeps_markDirty hs)
  · exact keeps_hostStore (keeps_undebit hs)
  · exact keeps_undebit hs

theorem keeps_attnRetire {core part : Nat} {o : MOp} {causal : Bool} (hs : Keeps s₀ s) :
    Keeps s₀ (attnRetire s core part o causal) := by
  unfold attnRetire
  extract_lets
  split
  next g1 _ e1 =>
    have hg1 : Keeps s₀ g1.s := keeps_of_eq_eng (keeps_readPages hs) e1
    extract_lets s1
    have hs1 : Keeps s₀ s1 := keeps_setOpHead hg1
    split
    · exact keeps_matFail (keeps_undebit hs1)
    · refine keeps_ite (keeps_setOpHead hg1) ?_
      split
      · exact keeps_matFail (keeps_undebit hs1)
      · exact keeps_matEnd (keeps_attnCount (keeps_matWrite hs1))

theorem keeps_retireHead {core part : Nat} (hs : Keeps s₀ s) : Keeps s₀ (retireHead s core part) := by
  unfold retireHead
  split
  · exact hs
  · refine keeps_ite hs ?_
    split
    · exact keeps_attnRetire hs
    · exact keeps_matFinish hs
    · exact keeps_plainRetire hs

theorem keeps_execMatrixOpRetire {core part : Nat} (hs : Keeps s₀ s) :
    KeepsOut s₀ (execMatrixOpRetire core part s) := by
  unfold execMatrixOpRetire
  split
  · exact hs
  · exact keeps_ite_out hs (keeps_done (keeps_retireHead hs))

theorem keeps_drainOps {core : Nat} {more : State → Bool} {n : Nat} (hs : Keeps s₀ s) :
    Keeps s₀ (drainOps core more n s) := by
  induction n generalizing s with
  | zero => exact hs
  | succ n ih =>
    unfold drainOps
    refine keeps_ite (ih (keeps_foldl hs fun s p h => keeps_retireHead ?_)) hs
    exact keeps_frame (s := retireHead { s with free := s.free + 1 } core p) (keeps_retireHead h) rfl rfl rfl rfl

/-! ## Fetch (Machine/Fetch) -/

theorem keeps_firstIssue {u : Nat} (hs : Keeps s₀ s) : Keeps s₀ (firstIssue s u) :=
  keeps_ite hs (keeps_modKernel (keeps_acquireView hs))

theorem keeps_fetchedFrom {t : Team} {pc n : Nat} (hs : Keeps s₀ s) : Keeps s₀ (fetchedFrom s t pc n) :=
  keeps_foldl hs fun _ _ h => keeps_readThrough h

theorem keeps_fetchNext {s0 : State} {u : Nat} (hs : Keeps s₀ s0) : KeepsFetched s₀ (fetchNext s0 u) := by
  unfold fetchNext
  extract_lets s
  have hs' : Keeps s₀ s := keeps_firstIssue hs
  split
  · exact hs'
  · exact keeps_askPeers hs'
  · extract_lets s1
    have hs1 : Keeps s₀ s1 := keeps_bring (keeps_bring (keeps_fetchedFrom hs'))
    split
    · exact hs1
    · exact hs1
    · exact hs1

theorem keeps_fetchStop {u a : Nat} (hs : Keeps s₀ s) : KeepsOut s₀ (fetchStop s u a) :=
  keeps_done (keeps_teamStop (keeps_modTeam hs))

/-! ## Placement, preemption and eviction (Machine/Place) -/

theorem keeps_leaveCtx {core : Nat} (hs : Keeps s₀ s) : Keeps s₀ (leaveCtx s core) :=
  keeps_ite hs (keeps_setCore (keeps_modCtx (keeps_returnSlice (keeps_forgetSpad hs))))

theorem keeps_serveCore {core id word kid : Nat} (hs : Keeps s₀ s) : Keeps s₀ (serveCore s core id word kid) := by
  refine keeps_ite ?_ ?_
  · exact keeps_modCore (keeps_modCtx (keeps_leaveCtx (keeps_copyAbandoned hs)))
  · exact keeps_ite (keeps_setCore hs) (keeps_setCore (keeps_forgetSpad hs))

theorem keeps_makeTeam {k : Kernel} {u id : Nat} {kind : TeamKind} {entry parent : Nat} {args : List W64} :
    KeepsTeam s₀ (makeTeam k u id kind entry parent args) :=
  keeps_blank

theorem keeps_startInterval {k : Kernel} {tiles : List (Nat × TileId)} {t : Team} (hs : KeepsTeam s₀ t) :
    KeepsTeam s₀ (startInterval k tiles t) :=
  keeps_foldl_team hs fun _ _ h => h

theorem keeps_startElements {b : TileBox} {j : Nat} {t : Team} (hs : KeepsTeam s₀ t) :
    KeepsTeam s₀ (startElements b j t) :=
  keeps_foldl_team hs fun _ _ h => keeps_setV (keeps_setV h)

theorem keeps_launchTeam {k : Kernel} {u id : Nat} : KeepsTeam s₀ (launchTeam k u id) :=
  keeps_ite_team (keeps_startInterval keeps_makeTeam) keeps_makeTeam

theorem keeps_forkedTeam {k : Kernel} {u : Nat} {x : Task} : KeepsTeam s₀ (forkedTeam k u x) :=
  fun _ => rfl

theorem keeps_admitTeam {u core part : Nat} (hs : Keeps s₀ s) : Keeps s₀ (admitTeam s u core part) :=
  keeps_l1Trim (keeps_setTeam (keeps_serveCore hs) (keeps_getTeam hs))

theorem keeps_placeNew {t : Team} {core part : Nat} (hs : Keeps s₀ s) (hs1 : KeepsTeam s₀ t) :
    Keeps s₀ (placeNew s t core part) :=
  keeps_admitTeam (keeps_setTeam hs hs1)

theorem keeps_placeClosure {k : Kernel} {core part : Nat} {ids cores : List Nat} (hs : Keeps s₀ s) :
    Keeps s₀ (placeClosure s k core part ids cores) :=
  keeps_foldl hs fun _ _ h => keeps_placeNew h keeps_launchTeam

theorem keeps_placeKernel {core part : Nat} {k : Kernel} (hs : Keeps s₀ s) :
    KeepsSome s₀ (placeKernel s core part k) := by
  unfold placeKernel
  dsimp only
  split
  · exact trivial
  · split
    · split
      · exact keeps_placeNew (keeps_modKernel hs) keeps_launchTeam
      · exact trivial
    · split
      · exact keeps_admitTeam hs
      · exact trivial
    · split
      · exact trivial
      · split
        · exact keeps_placeClosure (keeps_modKernel hs)
        · exact trivial

theorem keeps_placeSaved {t : Team} (hs : Keeps s₀ s) : KeepsSome s₀ (placeSaved s t) := by
  unfold placeSaved
  dsimp only
  split
  · exact keeps_foldl hs fun _ _ h => keeps_admitTeam h
  · exact trivial

theorem keeps_firstPlaced {α : Type} {f : α → Option State} {l : List α} (hf : ∀ x, KeepsSome s₀ (f x)) :
    KeepsSome s₀ (firstPlaced f l) := by
  induction l with
  | nil => exact trivial
  | cons x l ih =>
    unfold firstPlaced
    split
    next e => exact keeps_of_result (P := KeepsSome) (hf x) e
    next => exact ih

theorem keeps_placeTask {x : Task} {core part : Nat} (hs : Keeps s₀ s) : Keeps s₀ (placeTask s x core part) :=
  keeps_placeNew hs keeps_forkedTeam

theorem keeps_placeOwn {core part : Nat} (hs : Keeps s₀ s) : KeepsSome s₀ (placeOwn s core part) := by
  unfold placeOwn
  split
  · exact trivial
  · split
    · exact keeps_placeTask (keeps_modCore hs)
    · exact trivial

theorem keeps_placeFirst {core part : Nat} (hs : Keeps s₀ s) : KeepsSome s₀ (placeFirst s core part) := by
  refine keeps_or ?_ ?_
  · refine keeps_or ?_ ?_
    · exact keeps_firstPlaced fun _ => keeps_placeKernel hs
    · exact keeps_firstPlaced fun _ => keeps_placeSaved hs
  · exact keeps_or (keeps_placeOwn hs) (keeps_firstPlaced fun _ => keeps_placeKernel hs)

theorem keeps_queueNote {ctx h : Nat} {f : QueueSt → QueueSt} {late : Nat} (hs : Keeps s₀ s) :
    Keeps s₀ (queueNote s ctx h f late) :=
  hs

theorem keeps_kernelPlaced {k : Kernel} (hs : Keeps s₀ s) : Keeps s₀ (kernelPlaced s k) :=
  keeps_ite (keeps_queueNote (keeps_modKernel hs)) hs

theorem keeps_stealTask {core part : Nat} (hs : Keeps s₀ s) : KeepsSome s₀ (stealTask s core part) := by
  unfold stealTask
  split
  · exact keeps_map fun _ => keeps_placeTask (keeps_modCore hs)
  · exact trivial

theorem keeps_execTaskSteal {core : Nat} (hs : Keeps s₀ s) : KeepsOut s₀ (execTaskSteal core s) := by
  unfold execTaskSteal
  refine keeps_ite_out ?_ hs
  split
  next e1 => exact keeps_done (keeps_of_result (P := KeepsSome) (keeps_stealTask hs) e1)
  · exact hs

theorem keeps_fillPart {e : Nat × Nat} (hs : Keeps s₀ s) : KeepsSome s₀ (fillPart s e) :=
  keeps_or (keeps_placeFirst hs) (keeps_stealTask hs)

theorem keeps_leaveWait {u : Nat} (hs : Keeps s₀ s) : Keeps s₀ (leaveWait s u) := by
  unfold leaveWait
  split
  · exact keeps_lockEngEnd hs
  · exact hs

theorem keeps_dropWalks {u : Nat} (hs : Keeps s₀ s) : Keeps s₀ (dropWalks s u) :=
  hs

theorem keeps_rewindTeam {u : Nat} (hs : Keeps s₀ s) : Keeps s₀ (rewindTeam s u) := by
  unfold rewindTeam
  extract_lets s1
  have h1 : Keeps s₀ s1 := keeps_dropWalks (keeps_leaveWait (keeps_abortRegion (keeps_finishIssued hs)))
  exact keeps_modTeam (keeps_traceAppend h1)

theorem keeps_preemptTeam {u : Nat} (hs : Keeps s₀ s) : Keeps s₀ (preemptTeam s u) :=
  keeps_modTeam (keeps_rewindTeam hs)

theorem keeps_evictTeam {u : Nat} (hs : Keeps s₀ s) : Keeps s₀ (evictTeam s u) := by
  unfold evictTeam
  exact keeps_modTeam (keeps_rewindTeam hs)

theorem keeps_retireFirst {us : List Nat} (hs : Keeps s₀ s) : Keeps s₀ (retireFirst s us) :=
  keeps_foldl hs fun _ _ h => keeps_drainOps h

theorem keeps_execPreempt {core : Nat} (hs : Keeps s₀ s) : KeepsOut s₀ (execPreempt core s) := by
  unfold execPreempt
  dsimp only
  split
  · exact hs
  · exact keeps_ite_out (keeps_done (keeps_foldl (keeps_retireFirst hs) fun _ _ h => keeps_preemptTeam h))
      (keeps_done (keeps_retireFirst hs))

theorem keeps_execEvict {core : Nat} (hs : Keeps s₀ s) : KeepsOut s₀ (execEvict core s) := by
  unfold execEvict
  dsimp only
  split
  · exact hs
  · refine keeps_ite_out hs ?_
    split
    · exact keeps_done (keeps_ite (keeps_evictTeam (keeps_retireFirst hs)) (keeps_retireFirst hs))
    · exact hs

/-! ## Queues and dispatch packets (Machine/Queue) -/

theorem keeps_dispatchStore {ctx a : Nat} {bs : List Byte} (hs : Keeps s₀ s) :
    KeepsSome s₀ (dispatchStore s ctx a bs) := by
  unfold dispatchStore
  extract_lets bytes
  split
  · exact keeps_tableWrite hs
  · split
    · extract_lets deb paid die s1
      have hp : Keeps s₀ paid.1 := keeps_ite_fst (keeps_debit8 hs) hs
      have h1 : Keeps s₀ s1 := keeps_storeOver (keeps_markDirty (keeps_bring hp))
      clear_value s1
      split
      · split
        · exact h1
        · exact trivial
      · exact trivial
    · exact keeps_hostStore hs
    · exact trivial

theorem keeps_queueWrite {ctx h : Nat} {w : Nat × Bool × Nat} (hs : Keeps s₀ s) :
    KeepsSome s₀ (queueWrite s ctx h w) := by
  unfold queueWrite
  dsimp only
  split
  · exact keeps_dispatchStore hs
  · exact keeps_dispatchStore hs

theorem keeps_queueWrites {n n1 n2 : Nat} (hs : Keeps s₀ s) : Keeps s₀ (queueWrites n s n1 n2) := by
  induction n generalizing s n1 n2 with
  | zero => exact hs
  | succ n ih =>
    unfold queueWrites
    split
    · exact hs
    · split
      · exact hs
      · split
        · exact hs
        next e3 => exact ih (keeps_of_result (P := KeepsSome) (keeps_queueWrite hs) e3)

theorem keeps_execDispatchWriteApply {ctx handle : Nat} (hs : Keeps s₀ s) :
    KeepsOut s₀ (execDispatchWriteApply ctx handle s) := by
  unfold execDispatchWriteApply
  split
  · exact hs
  · exact keeps_done (keeps_queueWrites hs)

theorem keeps_allQueueWrites (hs : Keeps s₀ s) : Keeps s₀ (allQueueWrites s) :=
  keeps_foldl hs fun _ _ h => keeps_queueWrites h

theorem keeps_afterPlace (hs : Keeps s₀ s) : Keeps s₀ (afterPlace s) :=
  keeps_allQueueWrites (keeps_foldl hs fun _ _ h => keeps_kernelPlaced h)

theorem keeps_execTeamPlace {core part : Nat} (hs : Keeps s₀ s) : KeepsOut s₀ (execTeamPlace core part s) := by
  unfold execTeamPlace
  refine keeps_ite_out ?_ hs
  split
  next e1 => exact keeps_done (keeps_afterPlace (keeps_of_result (P := KeepsSome) (keeps_placeFirst hs) e1))
  · exact hs

theorem keeps_fillRoom (hs : Keeps s₀ s) : KeepsSome s₀ (fillRoom s) := by
  unfold fillRoom
  dsimp only
  split
  · exact trivial
  · split
    · exact trivial
    next e2 =>
      split
      · exact keeps_settle (keeps_afterPlace (keeps_of_result (P := KeepsSome) (keeps_fillPart hs) e2))
      · exact trivial

theorem keeps_flushCpls {ctx : Nat} (hs : Keeps s₀ s) : Keeps s₀ (flushCpls s ctx) := by
  unfold flushCpls
  refine keeps_foldl hs fun _ _ h => ?_
  split
  next e1 => exact keeps_of_result (P := KeepsAppend) (keeps_appendOne h) e1
  · exact h

theorem keeps_packetDone {k : Kernel} (hs : Keeps s₀ s) : Keeps s₀ (packetDone s k) :=
  keeps_ite hs (keeps_flushCpls hs)

theorem keeps_kernelEnd {kid : Nat} (hs : Keeps s₀ s) : Keeps s₀ (kernelEnd s kid) := by
  unfold kernelEnd
  split
  · exact hs
  · exact keeps_ite hs (keeps_packetDone (keeps_allQueueWrites (keeps_ite (keeps_queueNote hs) hs)))

theorem keeps_skipVoids {hd : Hdr} {n : Nat} {t : Txn} {n1 : Nat} (hs : Keeps s₀ t.s) :
    Keeps s₀ (skipVoids hd n t n1).1.s := by
  induction n generalizing t n1 with
  | zero => exact hs
  | succ n ih =>
    unfold skipVoids
    refine keeps_ite_fst_tx ?_ hs
    split
    next e1 => exact ih (keeps_of_eq_tx (keeps_txBit hs) e1)
    next e1 => exact keeps_of_eq_tx (keeps_txBit hs) e1

theorem keeps_queueReads {q : QueueSt} (hs : Keeps s₀ s) : Keeps s₀ (queueReads s q) := by
  unfold queueReads
  dsimp only
  split
  · exact keeps_txBytes (keeps_skipVoids (keeps_txRead (keeps_txHdr (keeps_txStart hs))))
  · exact keeps_skipVoids (keeps_txRead (keeps_txHdr (keeps_txStart hs)))

theorem keeps_packetReads {id gtab hoff : Nat} {bounds : Bool} (hs : Keeps s₀ s) :
    Keeps s₀ (packetReads s id gtab hoff bounds) := by
  refine keeps_ite ?_ ?_
  · exact keeps_ite (keeps_txHdr (keeps_txStart hs)) hs
  · exact keeps_txBytesLong (keeps_txStart (keeps_ite (keeps_txHdr (keeps_txStart hs)) hs))

theorem keeps_setQueue {ctx h : Nat} {f : QueueSt → QueueSt} (hs : Keeps s₀ s) : Keeps s₀ (setQueue s ctx h f) :=
  hs

theorem keeps_readQueue {s0 : State} {q : QueueSt} (hs : Keeps s₀ s0) : Keeps s₀ (readQueue s0 q) := by
  unfold readQueue
  refine keeps_ite hs ?_
  extract_lets s
  have hs' : Keeps s₀ s := keeps_queueReads hs
  split
  · extract_lets s1
    have hs1 : Keeps s₀ s1 := keeps_ite hs' (keeps_queueNote hs')
    split
    · exact keeps_pushRec (keeps_setQueue hs1)
    · exact keeps_pushRec (keeps_queueNote hs1)
    · exact hs1

theorem keeps_execQueueReadRetry {ctx handle : Nat} (hs : Keeps s₀ s) :
    KeepsOut s₀ (execQueueReadRetry ctx handle s) := by
  unfold execQueueReadRetry
  split
  · exact keeps_noteQueue hs
  · split
    · exact hs
    · refine keeps_ite_out hs ?_
      extract_lets s0
      have hs0 : Keeps s₀ s0 := keeps_setQueue (keeps_queueReads hs)
      split
      · exact keeps_ite_out hs0 (keeps_done (keeps_pushRec (keeps_setQueue hs0)))
      · exact keeps_done (keeps_setQueue hs0)

theorem keeps_mapSpare {e : Nat × Core} (hs : Keeps s₀ s) : Keeps s₀ (mapSpare s e) :=
  keeps_ite (keeps_pushRec (keeps_modCore hs)) hs

theorem keeps_retirePacket {c : Cand} {st : Nat} (hs : Keeps s₀ s) : Keeps s₀ (retirePacket s c st) :=
  keeps_packetDone (keeps_allQueueWrites (keeps_queueNote hs))

theorem keeps_selectCand {s0 : State} {c : Cand} (hs : Keeps s₀ s0) : Keeps s₀ (selectCand s0 c) := by
  unfold selectCand
  extract_lets k s s1
  have h : Keeps s₀ s := keeps_packetReads hs
  have h1 : Keeps s₀ s1 := keeps_foldl h fun _ _ h => keeps_mapSpare h
  clear_value s1
  split
  · exact keeps_retirePacket h
  · exact keeps_retirePacket h
  · refine keeps_ite ?_ h
    split
    · exact keeps_retirePacket h1
    · extract_lets s2
      have h2 : Keeps s₀ s2 := keeps_queueNote h1
      clear_value s2
      exact keeps_allQueueWrites (keeps_frame h2 rfl rfl rfl rfl)

theorem keeps_execArbiterSelect (hs : Keeps s₀ s) : KeepsOut s₀ (execArbiterSelect s) := by
  unfold execArbiterSelect
  refine keeps_ite_out ?_ hs
  extract_lets s1
  have hs1 : Keeps s₀ s1 := keeps_allQueueWrites (keeps_foldl hs fun _ _ h => keeps_readQueue h)
  split
  · exact keeps_done hs1
  · exact keeps_done (keeps_selectCand hs1)

/-! ## Fork and join, trace (Machine/Tasks) -/

theorem keeps_forkStatus {u k c : Nat} (hs : Keeps s₀ s) : KeepsOut s₀ (forkStatus s u k c) :=
  keeps_done (keeps_fallThrough (keeps_modTeam hs fun _ h => keeps_setK h))

theorem keeps_forkGo {u : Nat} {t : Team} {a b n w : Nat} (hs : Keeps s₀ s) : KeepsOut s₀ (forkGo s u t a b n w) := by
  refine keeps_ite_out (keeps_forkStatus hs) (keeps_ite_out (keeps_forkStatus hs) ?_)
  refine keeps_ite_out (keeps_forkStatus hs) (keeps_done (keeps_fallThrough ?_))
  refine keeps_modTeam (keeps_modCore ?_) fun _ h => keeps_setK h
  exact keeps_ite (keeps_setLock (keeps_modKernel hs)) (keeps_modKernel hs)

theorem keeps_execFork {a b : KReg} {n : BitVec 4} (hs : Keeps s₀ s) : KeepsOut s₀ (execFork a b n s) := by
  refine keeps_issueOp (fun _ _ _ h => keeps_normalOnly (fun _ _ _ h1 => ?_) h) hs
  refine keeps_ite_out (keeps_done (keeps_teamStop h1)) (keeps_ite_out (keeps_done (keeps_teamStop h1)) ?_)
  exact keeps_ite_out h1 (keeps_forkGo (keeps_takeSnap (keeps_commitRegion h1)))

theorem keeps_execJoin {n : KReg} (hs : Keeps s₀ s) : KeepsOut s₀ (execJoin n s) := by
  refine keeps_boundaryNormal (fun _ _ _ h => keeps_ite_out ?_ (keeps_done (keeps_waitFor h))) hs
  exact keeps_done (keeps_fallThrough (keeps_acquireView (keeps_modTeam h)))

theorem keeps_wakeJoin {core n : Nat} {t : Team} (hs : KeepsTeam s₀ t) : KeepsTeam s₀ (wakeJoin core n t) := by
  unfold wakeJoin
  split
  · exact keeps_ite_team hs hs
  · exact hs

theorem keeps_joinEnd {core n : Nat} {v : View} (hs : Keeps s₀ s) : Keeps s₀ (joinEnd s core n v) :=
  keeps_ite (keeps_teams hs rfl fun _ h => keeps_wakeJoin h) (keeps_setLock hs)

theorem keeps_launchOf {ts : List Txn} {t : Txn} {res : Nat} {cl : Option Nat} {notQueue : Bool} (hs : Keeps s₀ t.s) :
    Keeps s₀ (launchOf ts t res cl notQueue).out.tx.s :=
  keeps_txClean hs

theorem keeps_loomLaunch {t : Txn} {id h p : Nat} (hs : Keeps s₀ t.s) : Keeps s₀ (loomLaunch t id h p).out.tx.s := by
  unfold loomLaunch
  dsimp only
  split
  · exact keeps_launchOf (keeps_txBytes (keeps_txClean (keeps_txHdr hs)))
  · split
    · exact keeps_launchOf (keeps_txHdr hs)
    · split
      · exact keeps_launchOf (keeps_txBytes (keeps_txClean (keeps_txRead (keeps_txHdr hs))))
      · split
        · exact keeps_launchOf (keeps_txRead (keeps_txHdr hs))
        · split
          · exact keeps_launchOf (keeps_txClean (keeps_txBytes (keeps_txRead (keeps_txHdr hs))))
          · exact keeps_launchOf (keeps_txLens (keeps_txAdvance (keeps_txSetFill (keeps_txPut (keeps_txRing
                        (keeps_txClean (keeps_txBytes (keeps_txRead (keeps_txHdr hs)))))))))

theorem keeps_execLaunch {a b : KReg} (hs : Keeps s₀ s) : KeepsOut s₀ (execLaunch a b s) := by
  unfold execLaunch
  refine keeps_boundaryNormal (fun _ _ _ h => ?_) hs
  extract_lets h1 p sp r die pages s2
  have hs2 : Keeps s₀ s2 := keeps_loomLaunch (keeps_txStart h)
  refine keeps_ite_out (keeps_done (keeps_teamStop h)) ?_
  refine keeps_ite_out (keeps_done (keeps_teamStop h)) ?_
  refine keeps_ite_out (keeps_done (keeps_requestWalkAt h)) ?_
  split
  · exact keeps_done (keeps_teamStop hs2)
  · split
    next e2 => exact keeps_done (keeps_teamFault (keeps_of_result (P := KeepsTx) (keeps_txFinish hs2) e2))
    · exact keeps_done (keeps_teamStop hs2)
    next s3 e2 _ =>
      have hs3 : Keeps s₀ s3 := keeps_of_result (P := KeepsTx) (keeps_txFinish hs2) e2
      extract_lets s21
      have hs21 : Keeps s₀ s21 := by
        unfold s21
        split
        · exact keeps_afterCl hs3
        · exact hs3
      exact keeps_done (keeps_fallThrough
          (keeps_modTeam (keeps_ite (keeps_clRelease (keeps_commitTo hs21)) hs21) fun _ h2 => keeps_setK h2))

theorem keeps_execBpassUndec {_a : KReg} (hs : Keeps s₀ s) : KeepsOut s₀ (execBpassUndec _a s) :=
  keeps_issueOp (fun _ _ _ h => keeps_ite_out (keeps_undecideActive h) (keeps_done (keeps_fallThrough h))) hs

theorem keeps_execTraceOn {_a : KReg} (hs : Keeps s₀ s) : KeepsOut s₀ (execTraceOn _a s) :=
  keeps_issueOp (fun _ _ _ h => keeps_done (keeps_modTeam (keeps_fallThrough h))) hs

theorem keeps_execTraceOff {_a : KReg} (hs : Keeps s₀ s) : KeepsOut s₀ (execTraceOff _a s) :=
  keeps_issueOp (fun _ _ _ h => keeps_done (keeps_fallThrough (keeps_modTeam (keeps_traceAppend h)))) hs

theorem keeps_execTraceBind {_a b : KReg} (hs : Keeps s₀ s) : KeepsOut s₀ (execTraceBind _a b s) := by
  unfold execTraceBind
  refine keeps_issueOp (fun _ _ _ h => ?_) hs
  refine keeps_ite_out (keeps_done (keeps_fallThrough (keeps_modCore h))) ?_
  dsimp only
  split
  · exact keeps_done (keeps_requestWalkAt h)
  · split
    · exact keeps_done (keeps_teamReplay (keeps_txHdr (keeps_txStart h)))
    · exact keeps_done (keeps_teamStop (keeps_txHdr (keeps_txStart h)))
    · refine keeps_ite_out ?_ ?_
      · exact keeps_done (keeps_teamStop (keeps_txHdr (keeps_txStart h)))
      · exact keeps_done (keeps_fallThrough (keeps_modCore (keeps_txHdr (keeps_txStart h))))

theorem keeps_execTraceFlush {_a : KReg} (hs : Keeps s₀ s) : KeepsOut s₀ (execTraceFlush _a s) :=
  keeps_issueOp (fun _ _ _ h => keeps_done (keeps_fallThrough (keeps_traceAppend h))) hs

theorem keeps_execTraceSyncDue {u : Nat} (hs : Keeps s₀ s) : KeepsOut s₀ (execTraceSyncDue u s) := by
  unfold execTraceSyncDue
  split
  · exact hs
  next t e =>
    have ht : KeepsTeam s₀ t := keeps_find? hs e
    exact keeps_ite_out (keeps_setTeam hs ht) hs

theorem keeps_execHintStall {f : BitVec 18} (hs : Keeps s₀ s) : KeepsOut s₀ (execHintStall f s) :=
  keeps_done (keeps_fallThrough (keeps_modTeam (keeps_beginGroup hs)))

theorem keeps_execHintMark {m : BitVec 16} (hs : Keeps s₀ s) : KeepsOut s₀ (execHintMark m s) :=
  keeps_done (keeps_fallThrough (keeps_ite (keeps_traceEmit (keeps_beginGroup hs)) (keeps_beginGroup hs)))

/-! ## Ends of teams (Machine/Ends) -/

theorem keeps_fillSend {t : Team} {slot va x w : Nat} {bs : List Byte} (hs : Keeps s₀ s) :
    Keeps s₀ (fillSend s t slot va x w bs) := by
  unfold fillSend
  dsimp only
  exact keeps_modTeam (keeps_sendPeer hs)

theorem keeps_fillPut {t : Team} {a w v : Nat} (hs : Keeps s₀ s) : KeepsFillPut s₀ (fillPut s t a w v) := by
  unfold fillPut
  extract_lets
  split
  · split
    · exact hs
    · exact hs
  · exact hs
  · split
    · extract_lets deb paid
      have hpaid : Keeps s₀ paid.1 := keeps_ite_fst (keeps_debit8 hs) hs
      split
      · exact keeps_storeOver (keeps_markDirty (keeps_bring hpaid))
      · exact hpaid
    · exact keeps_hostStore hs
    · exact keeps_fillSend hs
    · exact hs

theorem keeps_fillElems {t : Team} {b : TileBox} {f : Fill} {n n1 : Nat} (hs : Keeps s₀ s) :
    KeepsFillPut s₀ (fillElems t b f n s n1).1 := by
  induction n generalizing s n1 with
  | zero => exact hs
  | succ n ih =>
    unfold fillElems
    split
    next e1 => exact ih (keeps_of_result (P := KeepsFillPut) (keeps_fillPut hs) e1)
    · exact keeps_fillPut hs

theorem keeps_fillRun {n n1 : Nat} (hs : Keeps s₀ s) : KeepsFillRun s₀ (fillRun n s n1) := by
  induction n generalizing s n1 with
  | zero => exact hs
  | succ n ih =>
    unfold fillRun
    extract_lets t
    split
    · exact hs
    · extract_lets b
      split
      next e => exact ih (keeps_modTeam (keeps_of_fst (P := KeepsFillPut) (keeps_fillElems hs) e))
      next e => exact ih (keeps_modTeam (keeps_of_fst (P := KeepsFillPut) (keeps_fillElems hs) e))
      next e =>
        have h : Keeps s₀ _ := keeps_of_fst (P := KeepsFillPut) (keeps_fillElems hs) e
        exact keeps_modTeam h fun _ ht => keeps_ite_team ht ht

theorem keeps_endStall {u cause addr f : Nat} (hs : Keeps s₀ s) : Keeps s₀ (endStall s u cause addr f) :=
  keeps_modTeam (keeps_ite hs (keeps_pushRec hs))

theorem keeps_kernelMade {s0 s : State} {kid : Nat} (hs : Keeps s₀ s) : Keeps s₀ (kernelMade s0 s kid) :=
  keeps_ite hs (keeps_modKernel hs)

theorem keeps_doFills {u : Nat} (hs : Keeps s₀ s) : Keeps s₀ (doFills s u).1 := by
  unfold doFills
  extract_lets s1
  have hs1 : Keeps s₀ s1 := keeps_modTeam hs
  split
  next e1 => exact keeps_modTeam (keeps_kernelMade (keeps_of_result (P := KeepsFillRun) (keeps_fillRun hs1) e1))
  next e1 => exact keeps_endStall (keeps_kernelMade (keeps_of_result (P := KeepsFillRun) (keeps_fillRun hs1) e1))

theorem keeps_packTile {t : Team} {x : TileId} (hs : Keeps s₀ s) : Keeps s₀ (packTile s t x) := by
  unfold packTile
  extract_lets
  split
  · exact keeps_setTeam hs (keeps_startInterval keeps_makeTeam)
  · exact keeps_modKernel (keeps_setTeam hs (keeps_startInterval keeps_makeTeam))

theorem keeps_makeHandoffs {t : Team} {x : TileId} {slot : Nat} {v : View} (hs : Keeps s₀ s) :
    Keeps s₀ (makeHandoffs s t x slot v) := by
  unfold makeHandoffs
  extract_lets b
  refine keeps_foldl hs fun s j h => ?_
  extract_lets k u t1 s1
  have ht : KeepsTeam s₀ t1 := keeps_startElements fun _ => rfl
  have h1 : Keeps s₀ s1 := keeps_setTeam h ht
  exact keeps_modKernel (keeps_frame h1 rfl rfl rfl rfl)

theorem keeps_handoffTry {t : Team} {h : Nat} {bytes : List Byte} (hs : Keeps s₀ s) :
    KeepsAppended s₀ (handoffTry s t h bytes) := by
  unfold handoffTry
  extract_lets
  split
  next e1 =>
    split
    · split
      · exact hs
      · exact trivial
    · split
      · exact trivial
      · split
        · split
          · exact trivial
          · exact trivial
        · extract_lets
          split
          next t2 _ e4 =>
            have ht2 : Keeps s₀ t2.s :=
              keeps_of_eq_tx (keeps_txAdvance (keeps_txSetFill (keeps_txPutLong
                      (keeps_of_eq_tx (keeps_txHdr (keeps_txStart hs)) e1)))) e4
            split
            next s1 e5 =>
              have hs1 : Keeps s₀ s1 := keeps_of_result (P := KeepsTx) (keeps_txFinish (keeps_txLens ht2)) e5
              exact keeps_ite hs1 (keeps_afterCl hs1)
            next e5 =>
              split
              · exact keeps_of_result (P := KeepsTx) (keeps_txFinish (keeps_txLens ht2)) e5
              · exact trivial

theorem keeps_turnDone {u : Nat} (hs : Keeps s₀ s) : Keeps s₀ (turnDone s u) :=
  keeps_modTeam hs

theorem keeps_quarterTurns {n n1 : Nat} (hs : Keeps s₀ s) : Keeps s₀ (quarterTurns n s n1) := by
  induction n generalizing s n1 with
  | zero => exact hs
  | succ n ih =>
    unfold quarterTurns
    dsimp only
    split
    · exact ih (keeps_turnDone (keeps_foldl hs fun _ _ h => keeps_packTile h))
    · exact hs

theorem keeps_handoffTurn {u lane reason : Nat} (hs : Keeps s₀ s) : Keeps s₀ (handoffTurn s u lane reason) := by
  unfold handoffTurn
  dsimp only
  split
  next e1 =>
    refine keeps_turnDone (keeps_makeHandoffs (keeps_addSeqRel (keeps_kernelMade ?_)))
    exact keeps_of_result (P := KeepsAppended) (keeps_handoffTry hs) e1
  · exact hs
  next e1 => exact keeps_endStall (keeps_of_result (P := KeepsAppended) (keeps_handoffTry hs) e1)
  · exact keeps_turnDone (keeps_pushRec hs)

theorem keeps_endedTeam {t : Team} : KeepsTeam s₀ (endedTeam t) :=
  keeps_blank

theorem keeps_endTeam {u : Nat} (hs : Keeps s₀ s) : Keeps s₀ (endTeam s u) := by
  unfold endTeam
  extract_lets t drop s1 s2 base s3 s4 s5 s6
  have hs1 : Keeps s₀ s1 := keeps_modCore hs
  have hs3 : Keeps s₀ s3 :=
    keeps_teams (keeps_setTeam (keeps_ite (keeps_modCore hs1) hs1) keeps_endedTeam) rfl fun _ h => h
  have hs4 : Keeps s₀ s4 := keeps_flushLate hs3
  have hs6 : Keeps s₀ s6 := keeps_kernelEnd (keeps_ite (keeps_joinEnd hs4) hs4)
  exact keeps_ite (keeps_stepStop hs6) hs6

theorem keeps_endStep {u : Nat} (hs : Keeps s₀ s) : Keeps s₀ (endStep s u) := by
  unfold endStep
  dsimp only
  split
  · exact keeps_failStop hs
  · split
    next e2 => exact keeps_of_eq (keeps_doFills hs) e2
    next e2 =>
      refine keeps_ite (keeps_of_eq (keeps_doFills hs) e2) (keeps_ite ?_ ?_)
      · exact keeps_endTeam (keeps_quarterTurns (keeps_of_eq (keeps_doFills hs) e2))
      · exact keeps_quarterTurns (keeps_of_eq (keeps_doFills hs) e2)

theorem keeps_execTeamEnd {u : Nat} (hs : Keeps s₀ s) : KeepsOut s₀ (execTeamEnd u s) :=
  keeps_ite_out (keeps_done (keeps_endStep hs)) hs

theorem keeps_execFillRetry {u : Nat} (hs : Keeps s₀ s) : KeepsOut s₀ (execFillRetry u s) :=
  keeps_ite_out (keeps_done (keeps_endStep hs)) hs

theorem keeps_execHandoffAppend {u : Nat} (hs : Keeps s₀ s) : KeepsOut s₀ (execHandoffAppend u s) := by
  unfold execHandoffAppend
  refine keeps_ite_out ?_ hs
  split
  · exact keeps_done (keeps_handoffTurn hs)
  · exact hs

theorem keeps_killTeam {u : Nat} (hs : Keeps s₀ s) : Keeps s₀ (killTeam s u) := by
  refine keeps_ite hs (keeps_settleStop (keeps_endTeam (keeps_modCtx (keeps_dropWalks ?_))))
  refine keeps_copyKill (keeps_matKill (keeps_abortRegion (keeps_traceAppend ?_)))
  exact keeps_foldl (keeps_modKernel hs) fun _ _ h => keeps_modTeam h fun _ _ => keeps_endedTeam

theorem keeps_execAppendRetry {ctx : Nat} (hs : Keeps s₀ s) : KeepsOut s₀ (execAppendRetry ctx s) :=
  keeps_ite_out (keeps_done hs) (keeps_ite_out hs (keeps_done (keeps_flushCpls (keeps_modCtx hs))))

/-! ## Saved images (Machine/Image) -/

theorem keeps_recordTeam {held : Team} {bs : List Byte} (hs : KeepsTeam s₀ held) :
    KeepsTeam s₀ (recordTeam held bs) :=
  keeps_ite_team (keeps_foldl_team hs fun _ _ h => keeps_ite_team h (keeps_ivSet h)) hs

/-! ## Commands and replies (Machine/Command) -/

theorem keeps_flushReplies {n : Nat} (hs : Keeps s₀ s) : Keeps s₀ (flushReplies n s) := by
  induction n generalizing s with
  | zero => exact hs
  | succ n ih =>
    unfold flushReplies
    split
    · exact hs
    · split
      · exact hs
      next e2 => exact ih (keeps_of_result (P := KeepsSomeFst) (keeps_appendSlot hs) e2)

theorem keeps_replyTo {op id slot : Nat} {st : Status} {result : Nat} (hs : Keeps s₀ s) :
    Keeps s₀ (replyTo s op id slot st result) :=
  keeps_flushReplies hs

theorem keeps_afterCommand {op id : Nat} (hs : Keeps s₀ s) : Keeps s₀ (afterCommand s op id) :=
  keeps_ite hs (keeps_flushCpls (keeps_allQueueWrites (keeps_readAgain (keeps_modCtx (keeps_copyDue hs)))))

theorem keeps_finishCmd {p : Packet} {st : Status} {result : Nat} (hs : Keeps s₀ s) :
    KeepsOut s₀ (finishCmd s p st result) :=
  keeps_done (keeps_replyTo (keeps_afterCommand hs))

theorem keeps_dropDest {kind b n : Nat} (hs : Keeps s₀ s) : Keeps s₀ (dropDest s kind b n) :=
  hs

theorem keeps_moveDest {src dst : Nat × Nat} {n : Nat} (hs : Keeps s₀ s) : Keeps s₀ (moveDest s src dst n) :=
  hs

theorem keeps_freeBlocks {s0 : State} {b n : Nat} (hs : Keeps s₀ s0) : Keeps s₀ (freeBlocks s0 b n) :=
  keeps_mem (keeps_foldl (keeps_dropDest hs) fun _ _ h => keeps_bumpSeq h) (memoryWf_drop _ _)

theorem keeps_releaseRuns {id n : Nat} (hs : Keeps s₀ s) : Keeps s₀ (releaseRuns s id n) :=
  keeps_ite hs (keeps_enterPool (keeps_modCtx hs))

/-! ## Context commands (Machine/Context) -/

theorem keeps_ctlCmd {p : Packet} {op : Nat} {operand : Bool} {states : List CtxSt} {act : State → Nat → Ctx → Out}
    (hact : ∀ s0 n1 x2, Keeps s₀ s0 → KeepsOut s₀ (act s0 n1 x2)) (hs : Keeps s₀ s) :
    KeepsOut s₀ (ctlCmd p op operand states act s) :=
  keeps_ite_out hs (keeps_ite_out (keeps_finishCmd hs) (keeps_ite_out (hact _ _ _ hs) (keeps_finishCmd hs)))

theorem keeps_execCreate {p : Packet} (hs : Keeps s₀ s) : KeepsOut s₀ (execCreate p s) :=
  keeps_ctlCmd (fun _ _ _ h =>
      keeps_ite_out (keeps_finishCmd h) (keeps_ite_out (keeps_finishCmd h) (keeps_finishCmd h))) hs

theorem keeps_killAll {id : Nat} (hs : Keeps s₀ s) : Keeps s₀ (killAll s id) :=
  keeps_foldl (keeps_foldl hs fun _ _ h => keeps_killTeam h) fun _ _ h => keeps_kernelEnd h

theorem keeps_endCtx {id : Nat} (hs : Keeps s₀ s) : Keeps s₀ (endCtx s id) := by
  unfold endCtx
  extract_lets s1 drop s2
  have h1 : Keeps s₀ s1 := keeps_foldl hs fun _ _ h => keeps_freeBlocks h
  have h2 : Keeps s₀ s2 := keeps_foldl h1 fun _ _ h => keeps_forgetSpad h
  clear_value s2 s1
  exact keeps_frame h2 rfl rfl rfl rfl

theorem keeps_execDestroy {p : Packet} (hs : Keeps s₀ s) : KeepsOut s₀ (execDestroy p s) :=
  keeps_ctlCmd (fun _ _ _ h => keeps_finishCmd (keeps_endCtx (keeps_killAll h))) hs

theorem keeps_execDeflate {p : Packet} (hs : Keeps s₀ s) : KeepsOut s₀ (execDeflate p s) :=
  keeps_ctlCmd (fun _ _ _ h =>
      keeps_ite_out (keeps_finishCmd h) (keeps_finishCmd (keeps_watchLow (keeps_ite (keeps_pushRec h) h)))) hs

theorem keeps_recallSlices {id : Nat} (hs : Keeps s₀ s) : Keeps s₀ (recallSlices s id) :=
  hs

theorem keeps_execInflate {p : Packet} (hs : Keeps s₀ s) : KeepsOut s₀ (execInflate p s) := by
  refine keeps_ctlCmd (fun _ _ _ h => keeps_finishCmd (keeps_watchLow ?_)) hs
  refine keeps_frame (keeps_ite (keeps_modCtx h) ?_) rfl rfl rfl rfl
  exact keeps_enterPool (keeps_modCtx (keeps_recallSlices h))

theorem keeps_execResolve {p : Packet} (hs : Keeps s₀ s) : KeepsOut s₀ (execResolve p s) :=
  keeps_ctlCmd (fun _ _ _ h => keeps_finishCmd (keeps_resolveRecord h)) hs

theorem keeps_saveRewind {u : Nat} (hs : Keeps s₀ s) : Keeps s₀ (saveRewind s u) :=
  keeps_ite (keeps_finishIssued hs) (keeps_ite (keeps_modTeam (keeps_rewindTeam hs)) hs)

theorem keeps_execSave {p : Packet} (hs : Keeps s₀ s) : KeepsOut s₀ (execSave p s) := by
  refine keeps_ctlCmd (fun _ _ _ h => keeps_ite_out (keeps_finishCmd h) (keeps_done ?_)) hs
  refine keeps_foldl ?_ fun _ _ h1 => keeps_settleStop h1
  exact keeps_foldl (keeps_modCtx h) fun _ _ h1 => keeps_saveRewind h1

theorem keeps_execSaveComplete {ctx : Nat} (hs : Keeps s₀ s) : KeepsOut s₀ (execSaveComplete ctx s) := by
  unfold execSaveComplete
  extract_lets cores s1 image ts s2 area away put s3 s4
  refine keeps_ite_out ?_ hs
  have h1 : Keeps s₀ s1 :=
    keeps_foldl (keeps_foldl hs fun _ _ h => keeps_saveRewind h) fun _ _ h => keeps_returnSlice h
  have h2 : Keeps s₀ s2 := keeps_foldl h1 fun _ _ h => keeps_leaveCtx h
  clear_value s2
  have hp : Keeps s₀ put := keeps_hostPut h2
  have ht : Keeps s₀ { s2 with teams := s2.teams.map fun e => (e.1, away e.2) } :=
    keeps_teams h2 rfl fun _ h => keeps_ite_team h h
  clear_value put
  have h3 : Keeps s₀ s3 := ⟨hp.1, ht.2⟩
  clear_value s3
  exact keeps_done (keeps_replyTo (keeps_afterCommand (keeps_modCtx h3)))

theorem keeps_restoreCore {id : Nat} {e : Nat × Core × List Byte × Nat} (hs : Keeps s₀ s) :
    Keeps s₀ (restoreCore id s e) :=
  keeps_setCore (keeps_modCtx (keeps_leaveCtx hs))

theorem keeps_restoreTeam {move : Nat → Nat} {t : Team} {bs : List Byte} (hs : KeepsTeam s₀ t) :
    KeepsTeam s₀ (restoreTeam move t bs) :=
  keeps_ite_team (keeps_recordTeam hs) (keeps_ite_team (keeps_recordTeam hs) (keeps_recordTeam hs))

theorem keeps_restoreCtx {id : Nat} {c : Ctx} {move : Nat → Nat} (hs : Keeps s₀ s) :
    Keeps s₀ (restoreCtx s id c move) := by
  refine keeps_foldl ?_ fun _ _ h => ?_
  · exact keeps_foldl (keeps_teams hs rfl fun _ h => keeps_ite_team h h) fun _ _ h => keeps_restoreCore h
  · exact keeps_teamJoins (keeps_modTeam h fun _ h1 => keeps_restoreTeam h1)

theorem keeps_execRestore {p : Packet} (hs : Keeps s₀ s) : KeepsOut s₀ (execRestore p s) := by
  unfold execRestore
  refine keeps_ctlCmd (fun _ _ _ h => ?_) hs
  split
  · exact keeps_finishCmd h
  · exact keeps_ite_out (keeps_finishCmd h) (keeps_ite_out (keeps_finishCmd h) (keeps_finishCmd (keeps_restoreCtx h)))

theorem keeps_execPower {p : Packet} (hs : Keeps s₀ s) : KeepsOut s₀ (execPower p s) := by
  refine keeps_ite_out hs (keeps_ite_out (keeps_finishCmd hs) (keeps_ite_out ?_ ?_))
  · exact keeps_ite_out (keeps_finishCmd hs) (keeps_ite_out (keeps_finishCmd hs) (keeps_finishCmd hs))
  · exact keeps_ite_out (keeps_finishCmd hs) (keeps_finishCmd hs)

/-! ## Control commands (Machine/Control) -/

theorem keeps_transferWith {u : Nat} {more : List Nat} {fl : Flow → Flow} {nexts : List (Nat × Nat)}
    {un : Option Nat} {redirect : Bool} (hs : Keeps s₀ s) :
    Keeps s₀ (transferWith s u more fl nexts un redirect) :=
  keeps_advance (keeps_undecideAll hs)

theorem keeps_transfer {u : Nat} {fl : Flow → Flow} {nexts : List (Nat × Nat)} {un : Option Nat} {redirect : Bool}
    (hs : Keeps s₀ s) :
    Keeps s₀ (transfer s u fl nexts un redirect) :=
  keeps_transferWith hs

theorem keeps_markBra {t : Team} {lane word : Nat} (hs : KeepsTeam s₀ t) : KeepsTeam s₀ (markBra t lane word) :=
  keeps_ite_team hs hs

theorem keeps_clearBra {t : Team} {lane : Nat} (hs : KeepsTeam s₀ t) : KeepsTeam s₀ (clearBra t lane) := by
  unfold clearBra
  split
  · exact hs
  · exact keeps_foldl_team (keeps_foldl_team hs fun _ _ h => keeps_ivSet h) fun _ _ h => keeps_triSet h

theorem keeps_ivBra {u : Nat} {t : Team} {p : PReg} {neg : Bool} {target : Nat} (hs : Keeps s₀ s) :
    Keeps s₀ (ivBra s u t p neg target) := by
  unfold ivBra
  refine keeps_transferWith ?_
  refine keeps_modTeam hs fun _ h => ?_
  refine keeps_foldl_team h fun _ _ h1 => ?_
  split
  · exact keeps_clearBra h1
  · exact keeps_markBra h1
  · exact h1

theorem keeps_execBra {p : PReg} {neg : Bool} {off : BitVec 21} (hs : Keeps s₀ s) :
    KeepsOut s₀ (execBra p neg off s) :=
  keeps_issueOp (fun _ _ _ h => keeps_ite_out (keeps_done (keeps_ivBra h)) (keeps_done (keeps_advance h))) hs

theorem keeps_execBrk {a : KReg} {c : BrkCond} {off : BitVec 13} (hs : Keeps s₀ s) :
    KeepsOut s₀ (execBrk a c off s) :=
  keeps_issueOp (fun _ _ _ h => keeps_ite_out (keeps_done (keeps_transfer h)) (keeps_done (keeps_fallThrough h))) hs

theorem keeps_jmpiStop {u : Nat} {bad : List (Nat × Nat × Nat)} (hs : Keeps s₀ s) : Keeps s₀ (jmpiStop s u bad) :=
  keeps_teamStopWith hs

theorem keeps_execJmpi {a : VReg} {k : KReg} (hs : Keeps s₀ s) : KeepsOut s₀ (execJmpi a k s) := by
  refine keeps_issueOp (fun _ _ _ h => keeps_ite_out (keeps_done (keeps_requestWalk h)) ?_) hs
  refine keeps_ite_out (keeps_done (keeps_askPeers h)) (keeps_ite_out (keeps_done (keeps_jmpiStop h)) ?_)
  exact keeps_done (keeps_transferWith (keeps_foldl h fun _ _ h1 => keeps_bring h1))

theorem keeps_execLand (hs : Keeps s₀ s) : KeepsOut s₀ (execLand s) :=
  keeps_issueOp (fun _ _ _ h => keeps_done (keeps_fallThrough h)) hs

theorem keeps_execNop (hs : Keeps s₀ s) : KeepsOut s₀ (execNop s) :=
  keeps_issueOp (fun _ _ _ h => keeps_done (keeps_fallThrough h)) hs

theorem keeps_execCall {off : BitVec 21} (hs : Keeps s₀ s) : KeepsOut s₀ (execCall off s) := by
  refine keeps_issueOp (fun _ _ _ h => keeps_ite_out (keeps_done (keeps_teamStop h)) (keeps_done ?_)) hs
  exact keeps_transfer (keeps_modTeam h fun _ h1 => keeps_setK h1)

theorem keeps_execRet {a : KReg} (hs : Keeps s₀ s) : KeepsOut s₀ (execRet a s) := by
  refine keeps_issueOp (fun _ _ _ h => keeps_ite_out (keeps_done (keeps_teamStop h)) ?_) hs
  refine keeps_ite_out ?_ ?_
  · exact keeps_done (keeps_advance (keeps_undecideAll h))
  · exact keeps_done (keeps_advance (keeps_undecideAll h))

theorem keeps_execLoop {a : KReg} {l : LoopCtr} {n : BitVec 13} (hs : Keeps s₀ s) :
    KeepsOut s₀ (execLoop a l n s) := by
  refine keeps_issueOp (fun _ _ _ h => keeps_ite_out (keeps_done (keeps_transfer h)) ?_) hs
  exact keeps_ite_out (keeps_done (keeps_teamStop h)) (keeps_done (keeps_transfer h))

theorem keeps_execRegionCommit (hs : Keeps s₀ s) : KeepsOut s₀ (execRegionCommit s) :=
  keeps_boundaryOp (fun _ _ _ h => keeps_done (keeps_fallThrough h)) hs

theorem keeps_execSetx {a : KReg} {i : BitVec 7} (hs : Keeps s₀ s) : KeepsOut s₀ (execSetx a i s) :=
  keeps_issueOp (fun _ _ _ h => keeps_ite_out (keeps_done (keeps_teamStop h)) (keeps_done (keeps_advance h))) hs

theorem keeps_afterMask {u : Nat} {fl : Flow} (hs : Keeps s₀ s) : Keeps s₀ (afterMask s u fl) :=
  keeps_ite (keeps_ite (keeps_advance hs) (keeps_advance hs)) (keeps_advance hs)

theorem keeps_execMaskSet {a : KReg} (hs : Keeps s₀ s) : KeepsOut s₀ (execMaskSet a s) :=
  keeps_issueOp (fun _ _ _ h => keeps_done (keeps_afterMask h)) hs

theorem keeps_execMaskGet {a : KReg} (hs : Keeps s₀ s) : KeepsOut s₀ (execMaskGet a s) := by
  refine keeps_issueOp (fun _ _ _ h => keeps_done (keeps_fallThrough ?_)) hs
  exact keeps_modTeam h fun _ h1 => keeps_foldl_team h1 fun _ _ h2 => keeps_setK h2

theorem keeps_execMaskPred {y : KReg} {p : PReg} (hs : Keeps s₀ s) : KeepsOut s₀ (execMaskPred y p s) :=
  keeps_issueOp (fun _ _ _ h => keeps_done (keeps_afterMask (keeps_undecideAll h))) hs

theorem keeps_execExit (hs : Keeps s₀ s) : KeepsOut s₀ (execExit s) := by
  unfold execExit
  refine keeps_boundaryOp (fun _ _ _ h => ?_) hs
  extract_lets s11 t1 s2 s3 s4
  have hs3 : Keeps s₀ s3 := keeps_advance (keeps_modTeam (keeps_undecideAll h))
  have hs4 : Keeps s₀ s4 := keeps_ite (keeps_modTeam hs3) hs3
  exact keeps_done (keeps_ite (keeps_traceAppend hs4) hs4)

theorem keeps_execYield (hs : Keeps s₀ s) : KeepsOut s₀ (execYield s) :=
  keeps_issueOp (fun _ _ _ h => keeps_done (keeps_modTeam (keeps_fallThrough h))) hs

theorem keeps_execYieldResume {u : Nat} (hs : Keeps s₀ s) : KeepsOut s₀ (execYieldResume u s) := by
  unfold execYieldResume
  split
  · exact hs
  next t e =>
    have ht : KeepsTeam s₀ t := keeps_find? hs e
    exact keeps_setTeam hs ht

theorem keeps_trapStop {cause : Nat} {code : BitVec 16} (hs : Keeps s₀ s) : KeepsOut s₀ (trapStop cause code s) :=
  keeps_issueOp (fun _ _ _ h => keeps_done (keeps_preciseStop (keeps_fallThrough (keeps_modTeam h)))) hs

theorem keeps_execIllegalWord {c : IllegalCause} (hs : Keeps s₀ s) : KeepsOut s₀ (execIllegalWord c s) :=
  keeps_done (keeps_teamStop (keeps_beginGroup hs))

/-! ## Page commands (Machine/PageCmd) -/

theorem keeps_putLeaf {at_ e comp : Nat} (hs : Keeps s₀ s) : Keeps s₀ (putLeaf s at_ e comp) :=
  keeps_tableWriteNat (keeps_tableWriteNat hs)

theorem keeps_forgetPage {id base size dies : Nat} (hs : Keeps s₀ s) : Keeps s₀ (forgetPage s id base size dies) :=
  hs

theorem keeps_shootDown {id base size at_ e : Nat} (hs : Keeps s₀ s) : Keeps s₀ (shootDown s id base size at_ e) :=
  keeps_putLeaf (keeps_forgetPage hs)

theorem keeps_refreshLeaf {id base size at_ e : Nat} (hs : Keeps s₀ s) :
    Keeps s₀ (refreshLeaf s id base size at_ e) :=
  keeps_putLeaf hs

theorem keeps_chargeRuns {id n : Nat} (hs : Keeps s₀ s) : Keeps s₀ (chargeRuns s id n) :=
  keeps_watchLow (keeps_modCtx hs)

theorem keeps_addMapped {id n : Nat} (hs : Keeps s₀ s) : Keeps s₀ (addMapped s id n) :=
  keeps_modCtx hs

theorem keeps_subMapped {id n : Nat} (hs : Keeps s₀ s) : Keeps s₀ (subMapped s id n) :=
  keeps_modCtx hs

theorem keeps_clearBlocks {b n : Nat} (hs : Keeps s₀ s) : Keeps s₀ (clearBlocks s b n) :=
  keeps_freeBlocks hs

theorem keeps_fullBlock {prot fix : Bool} {b : Nat} (hs : Keeps s₀ s) : Keeps s₀ (fullBlock prot fix s b) :=
  keeps_bumpSeq (keeps_setMeta hs)

theorem keeps_loadBlock {b : Nat} {bs : List Byte} (hs : Keeps s₀ s) : Keeps s₀ (loadBlock s b bs) :=
  keeps_serveRun (keeps_bumpSeq (keeps_bumpSeq (keeps_setMeta (keeps_mem hs (memoryWf_write _ _)))))

theorem keeps_pageCmd {p : Packet} {op : Nat} {present : Option Bool} {form : Bool}
    {act : State → Nat → Ctx → PageSlot → Out} (hact : ∀ s0 n1 x2 x3, Keeps s₀ s0 → KeepsOut s₀ (act s0 n1 x2 x3))
    (hs : Keeps s₀ s) :
    KeepsOut s₀ (pageCmd p op present form act s) := by
  unfold pageCmd
  refine keeps_ite_out hs ?_
  refine keeps_ite_out (keeps_finishCmd hs) ?_
  split
  · exact keeps_finishCmd hs
  · exact keeps_ite_out (keeps_finishCmd hs) (keeps_ite_out (keeps_finishCmd hs) (hact _ _ _ _ hs))

theorem keeps_execMap {p : Packet} (hs : Keeps s₀ s) : KeepsOut s₀ (execMap p s) := by
  refine keeps_pageCmd (fun _ _ _ _ h => keeps_ite_out (keeps_finishCmd h) ?_) hs
  refine keeps_ite_out (keeps_finishCmd h) (keeps_ite_out (keeps_finishCmd h) (keeps_finishCmd ?_))
  refine keeps_putLeaf (keeps_forgetPage (keeps_ite ?_ ?_))
  · refine keeps_foldl (keeps_chargeRuns ?_) fun _ _ h1 => keeps_fullBlock h1
    exact keeps_ite h (keeps_addMapped (keeps_clearBlocks h))
  · exact keeps_ite h (keeps_addMapped (keeps_clearBlocks h))

theorem keeps_execClearacc {p : Packet} (hs : Keeps s₀ s) : KeepsOut s₀ (execClearacc p s) :=
  keeps_pageCmd (fun _ _ _ _ h => keeps_finishCmd (keeps_putLeaf (keeps_forgetPage h))) hs

theorem keeps_startDrain {p : Packet} {id : Nat} {x : PageSlot} (hs : Keeps s₀ s) :
    KeepsOut s₀ (startDrain s p id x) :=
  keeps_done (keeps_frame (keeps_shootDown hs) rfl rfl rfl rfl)

theorem keeps_execUnmap {p : Packet} (hs : Keeps s₀ s) : KeepsOut s₀ (execUnmap p s) :=
  keeps_pageCmd (fun _ _ _ _ h => keeps_startDrain h) hs

theorem keeps_unmapEnd {k : PageWork} (hs : Keeps s₀ s) : Keeps s₀ (unmapEnd s k).1 := by
  refine keeps_ite_fst ?_ ?_
  · exact keeps_dropDest (keeps_attnStrike (keeps_putLeaf (keeps_forgetPage hs)))
  · refine keeps_releaseRuns (keeps_subMapped (keeps_clearBlocks ?_))
    exact keeps_attnStrike (keeps_putLeaf (keeps_forgetPage hs))

theorem keeps_execPerm {p : Packet} (hs : Keeps s₀ s) : KeepsOut s₀ (execPerm p s) := by
  refine keeps_pageCmd (fun _ _ _ _ h => keeps_ite_out (keeps_startDrain h) ?_) hs
  exact keeps_ite_out (keeps_finishCmd (keeps_shootDown h)) (keeps_finishCmd (keeps_refreshLeaf h))

theorem keeps_moveRun {stack : Nat} {s0 : State} {e : Nat × BlockMeta} (hs : Keeps s₀ s0) :
    Keeps s₀ (moveRun stack s0 e) :=
  keeps_ite hs (keeps_serveRun (keeps_bumpSeq (keeps_bumpSeq (keeps_frame (keeps_activate hs) rfl rfl rfl rfl))))

theorem keeps_execMigrateIndev {p : Packet} (hs : Keeps s₀ s) : KeepsOut s₀ (execMigrateIndev p s) :=
  keeps_pageCmd (fun _ _ _ _ h =>
      keeps_ite_out (keeps_finishCmd h) (keeps_finishCmd (keeps_foldl h fun _ _ h1 => keeps_moveRun h1))) hs

theorem keeps_execMigrateTodev {p : Packet} (hs : Keeps s₀ s) : KeepsOut s₀ (execMigrateTodev p s) := by
  refine keeps_pageCmd (fun _ _ _ _ h => keeps_ite_out (keeps_finishCmd h) ?_) hs
  refine keeps_ite_out (keeps_finishCmd h) (keeps_ite_out (keeps_startDrain h) (keeps_finishCmd ?_))
  exact keeps_putLeaf (keeps_forgetPage (keeps_addMapped (keeps_clearBlocks h)))

theorem keeps_execMigrateTohost {p : Packet} (hs : Keeps s₀ s) : KeepsOut s₀ (execMigrateTohost p s) :=
  keeps_pageCmd (fun _ _ _ _ h => keeps_ite_out (keeps_finishCmd h) (keeps_startDrain h)) hs

theorem keeps_switchOn {k : PageWork} (hs : Keeps s₀ s) : Keeps s₀ (switchOn s k) :=
  keeps_frame (keeps_shootDown hs) rfl rfl rfl rfl

theorem keeps_todevCopy {k : PageWork} (hs : Keeps s₀ s) : KeepsSome s₀ (todevCopy s k) := by
  unfold todevCopy
  dsimp only
  split
  · exact trivial
  · exact keeps_switchOn (keeps_foldl (keeps_chargeRuns (keeps_clearBlocks hs)) fun _ _ h => keeps_loadBlock h)

theorem keeps_hostBlock {k : PageWork} {i : Nat} (hs : Keeps s₀ s) : Keeps s₀ (hostBlock k s i) :=
  keeps_ite (keeps_pushRec (keeps_hostPut hs)) (keeps_hostPut (keeps_activate hs))

theorem keeps_moveWrites {k : PageWork} {toDevice : Bool} {dev host : Nat} (hs : Keeps s₀ s) :
    Keeps s₀ (moveWrites s k toDevice dev host) :=
  keeps_moveDest (keeps_moveGrains hs)

theorem keeps_switchEnd {k : PageWork} (hs : Keeps s₀ s) : Keeps s₀ (switchEnd s k) := by
  refine keeps_ite ?_ ?_
  · exact keeps_addMapped (keeps_putLeaf (keeps_moveWrites (keeps_forgetPage hs)))
  · refine keeps_releaseRuns (keeps_subMapped (keeps_clearBlocks (keeps_putLeaf (keeps_moveWrites ?_))))
    exact keeps_foldl (keeps_forgetPage hs) fun _ _ h => keeps_forgetGrains h

theorem keeps_pageEnd {k : PageWork} {st : Status} {r : Nat} (hs : Keeps s₀ s) : KeepsOut s₀ (pageEnd s k st r) :=
  keeps_finishCmd hs

theorem keeps_restoreLeaf {k : PageWork} (hs : Keeps s₀ s) : Keeps s₀ (restoreLeaf s k) :=
  keeps_shootDown hs

theorem keeps_drained {k : PageWork} (hs : Keeps s₀ s) : KeepsOut s₀ (drained s k) := by
  unfold drained
  split
  · exact keeps_pageEnd (keeps_unmapEnd hs)
  · exact keeps_pageEnd (keeps_shootDown hs)
  · refine keeps_ite_out ?_ (keeps_done (keeps_switchOn (keeps_foldl hs fun _ _ h => keeps_hostBlock h)))
    split
    next e1 => exact keeps_done (keeps_of_result (P := KeepsSome) (keeps_todevCopy hs) e1)
    · exact keeps_pageEnd (keeps_restoreLeaf hs)

theorem keeps_execPageDrainDone (hs : Keeps s₀ s) : KeepsOut s₀ (execPageDrainDone s) := by
  unfold execPageDrainDone
  split
  · exact hs
  · refine keeps_ite_out (keeps_pageEnd hs) (keeps_ite_out (keeps_pageEnd (keeps_switchEnd hs)) ?_)
    refine keeps_ite_out (keeps_pageEnd (keeps_restoreLeaf hs)) ?_
    exact keeps_ite_out (keeps_pageEnd (keeps_restoreLeaf hs)) (keeps_ite_out hs (keeps_drained hs))

/-! ## Core commands (Machine/CoreCmd) -/

theorem keeps_coreForms {p : Packet} {op : Nat} {named : Bool} {act : State → Nat → Out}
    (hact : ∀ s0 n1, Keeps s₀ s0 → KeepsOut s₀ (act s0 n1)) (hs : Keeps s₀ s) :
    KeepsOut s₀ (coreForms p op named act s) :=
  keeps_ite_out hs (keeps_ite_out (keeps_finishCmd hs) (hact _ _ hs))

theorem keeps_coreCmd {p : Packet} {op : Nat} {act : State → Nat → State}
    (hact : ∀ s0 n1, Keeps s₀ s0 → Keeps s₀ (act s0 n1)) (hs : Keeps s₀ s) :
    KeepsOut s₀ (coreCmd p op act s) :=
  keeps_coreForms (fun _ _ h => keeps_ite_out (keeps_finishCmd (hact _ _ h)) (keeps_finishCmd h)) hs

theorem keeps_namedTeam {p : Packet} {t : Team} (hs : Keeps s₀ s) (e : namedTeam s p = some t) :
    KeepsTeam s₀ t := by
  intro hw
  unfold namedTeam at e
  split at e
  next u hu =>
    obtain rfl : u = t := Option.some.inj e
    have hmem : u ∈ (teamsAt s (pktCore p) (pktCtx p)) := List.mem_of_mem_filter (hu ▸ List.mem_singleton_self u)
    obtain ⟨d, hd, rfl⟩ := List.mem_map.1 (List.mem_of_mem_filter hmem)
    exact hs.2 hw d hd
  next => exact absurd e (by simp)

theorem keeps_teamCmd {p : Packet} {op : Nat} {act : State → Nat → Team → Out}
    (hact : ∀ s c t, Keeps s₀ s → KeepsTeam s₀ t → KeepsOut s₀ (act s c t)) (hs : Keeps s₀ s) :
    KeepsOut s₀ (teamCmd p op act s) := by
  unfold teamCmd
  refine keeps_coreForms (fun s c h => ?_) hs
  refine keeps_ite_out (keeps_finishCmd h) ?_
  split
  · exact keeps_finishCmd h
  next e => exact hact _ _ _ h (keeps_namedTeam h e)

theorem keeps_execResume {p : Packet} (hs : Keeps s₀ s) : KeepsOut s₀ (execResume p s) :=
  keeps_coreCmd (fun _ _ h => keeps_leaveStop h) hs

theorem keeps_execSkip {p : Packet} (hs : Keeps s₀ s) : KeepsOut s₀ (execSkip p s) :=
  keeps_coreCmd (fun _ _ h => keeps_leaveStop h) hs

theorem keeps_execKill {p : Packet} (hs : Keeps s₀ s) : KeepsOut s₀ (execKill p s) :=
  keeps_teamCmd (fun _ _ _ h _ => keeps_finishCmd (keeps_killTeam h)) hs

theorem keeps_execRdstate {p : Packet} (hs : Keeps s₀ s) : KeepsOut s₀ (execRdstate p s) := by
  refine keeps_ite_out ?_ ?_
  · exact keeps_coreCmd (fun _ _ h => keeps_hostPut h) hs
  · exact keeps_teamCmd (fun _ _ _ h _ => keeps_finishCmd (keeps_hostPut h)) hs

theorem keeps_writeTeam {t : Team} {bs : List Byte} (hs : Keeps s₀ s) (hs1 : KeepsTeam s₀ t) :
    Keeps s₀ (writeTeam s t bs) :=
  keeps_ite (keeps_setTeam hs (keeps_recordTeam hs1)) (keeps_setTeam (keeps_abortRegion hs) (keeps_recordTeam hs1))

theorem keeps_writeCore {n : Nat} {bs : List Byte} (hs : Keeps s₀ s) : Keeps s₀ (writeCore s n bs) :=
  keeps_setCore (keeps_forgetSpad hs)

theorem keeps_execWrstate {p : Packet} (hs : Keeps s₀ s) : KeepsOut s₀ (execWrstate p s) := by
  refine keeps_ite_out ?_ ?_
  · refine keeps_coreForms (fun _ _ h => keeps_ite_out (keeps_finishCmd h) ?_) hs
    exact keeps_ite_out (keeps_finishCmd (keeps_writeCore h)) (keeps_finishCmd h)
  · refine keeps_teamCmd (fun _ _ _ h h1 => ?_) hs
    exact keeps_ite_out (keeps_finishCmd (keeps_writeTeam h h1)) (keeps_finishCmd h)

theorem keeps_execStep {p : Packet} (hs : Keeps s₀ s) : KeepsOut s₀ (execStep p s) :=
  keeps_teamCmd (fun _ _ _ h _ => keeps_finishCmd (keeps_modTeam (keeps_leaveStop h))) hs

theorem keeps_haltCore {core cause : Nat} (hs : Keeps s₀ s) : Keeps s₀ (haltCore s core cause) :=
  keeps_ite (keeps_modCore hs) (keeps_preciseStop (keeps_clearStep hs))

theorem keeps_execHalt {p : Packet} (hs : Keeps s₀ s) : KeepsOut s₀ (execHalt p s) :=
  keeps_coreForms (fun _ _ h => keeps_finishCmd (keeps_ite h (keeps_haltCore h))) hs

theorem keeps_execList {p : Packet} (hs : Keeps s₀ s) : KeepsOut s₀ (execList p s) :=
  keeps_coreCmd (fun _ _ h => keeps_hostPut h) hs

/-! ## Host and peers (Machine/Link) -/

theorem keeps_outSees {o : Outer} {v : View} (hs : Keeps s₀ s) : Keeps s₀ (outSees s o v) := by
  unfold outSees
  split
  · exact hs
  · exact hs

theorem keeps_outReads {o : Outer} {first a : Nat} {now : List Byte} (hs : Keeps s₀ s) :
    Keeps s₀ (outReads s o first a now).1 :=
  keeps_outSees hs

theorem keeps_outWrote {s0 s : State} {o : Outer} (hs : Keeps s₀ s) : Keeps s₀ (outWrote s0 s o) :=
  keeps_outSees hs

theorem keeps_outerRead {o : Outer} {sp : Space} {va n : Nat} (hs : Keeps s₀ s) :
    KeepsOkFst s₀ (outerRead s o sp va n) := by
  unfold outerRead
  split
  · exact trivial
  · split
    · exact trivial
    · split
      · exact keeps_outReads (keeps_readThrough hs)
      · exact keeps_outReads hs
      · exact hs

theorem keeps_outerBlock {id va k leaf : Nat} {store : State → Bool → State} (hs : Keeps s₀ s)
    (hstore : ∀ s0 x1, Keeps s₀ s0 → Keeps s₀ (store s0 x1)) :
    KeepsOk s₀ (outerBlock s id va k leaf store) := by
  unfold outerBlock
  extract_lets
  split
  · exact hstore _ _ (keeps_markDirty (keeps_ite_fst (keeps_debit8 hs) hs))
  · exact trivial

theorem keeps_outerWrite {o : Outer} {sp : Space} {va : Nat} {bytes : List (Option Byte)} (hs : Keeps s₀ s) :
    KeepsOk s₀ (outerWrite s o sp va bytes) := by
  unfold outerWrite
  split
  · exact trivial
  · split
    · exact keeps_tableWrite hs
    · exact keeps_outWrote (keeps_hostStore hs)
    · exact keeps_map_ok (keeps_outerBlock hs fun _ _ h => keeps_storeOver h) fun _ h => keeps_outWrote h
    · exact trivial

theorem keeps_outerRmw {o : Outer} {sp : Space} {va : Nat} {w : Width} {md : AtomMod} {ops : List (W64 × W64)}
    (hs : Keeps s₀ s) :
    KeepsOkFst s₀ (outerRmw s o sp va w md ops) := by
  unfold outerRmw
  extract_lets n
  split
  · exact trivial
  · split
    · exact trivial
    · extract_lets g done_
      have hg : Keeps s₀ g.s := keeps_foldl_run (keeps_rmwNone hs) fun _ _ h => keeps_rmwOne h
      have hd : ∀ s1, Keeps s₀ s1 → Keeps s₀ (done_ s1).1 :=
        fun s1 h => keeps_foldl (keeps_outSees h) fun _ _ h => keeps_outSees h
      split
      · exact keeps_tableWrite hs
      · exact hd _ hg
      · exact keeps_map_okFst (keeps_outerBlock hg fun _ _ h => keeps_rmwStore h) hd
      · exact trivial

theorem keeps_answer {a : Answer} (hs : Keeps s₀ s) : Keeps s₀ (answer s a) :=
  hs

theorem keeps_hostDone {a : Answer} (hs : Keeps s₀ s) : KeepsOut s₀ (hostDone s a) :=
  keeps_done (keeps_answer (keeps_flushReplies hs))

theorem keeps_hostAsk {va : Nat} {f : Nat × Nat × Nat} {q : PeerAsk} (hs : Keeps s₀ s) :
    KeepsOut s₀ (hostAsk s va f q) := by
  unfold hostAsk
  split
  next e =>
    have h := keeps_of_eq (keeps_sendPeer hs) e
    exact keeps_frame h rfl rfl rfl rfl

theorem keeps_hostReadSpace {sp : Space} {addr len : Nat} (hs : Keeps s₀ s) :
    KeepsOut s₀ (hostReadSpace sp addr len s) := by
  unfold hostReadSpace
  refine keeps_ite_out ?_ hs
  split
  · exact keeps_hostAsk hs
  · split
    · exact keeps_hostDone hs
    next e2 => exact keeps_hostDone (keeps_outSees (keeps_of_result (P := KeepsOkFst) (keeps_outerRead hs) e2))

theorem keeps_hostReadControl {addr len : Nat} (hs : Keeps s₀ s) : KeepsOut s₀ (hostReadControl addr len s) :=
  keeps_ite_out (keeps_hostDone hs) hs

theorem keeps_execHostRead {src : HostSource} {addr len : Nat} (hs : Keeps s₀ s) :
    KeepsOut s₀ (execHostRead src addr len s) := by
  unfold execHostRead
  split
  · exact keeps_hostReadSpace hs
  · exact keeps_hostReadControl hs

theorem keeps_execHostWrite {sp : Space} {addr : Nat} {bytes : List (Option Byte)} (hs : Keeps s₀ s) :
    KeepsOut s₀ (execHostWrite sp addr bytes s) := by
  unfold execHostWrite
  refine keeps_ite_out ?_ hs
  split
  · exact keeps_hostAsk hs
  · split
    · exact keeps_hostDone hs
    next e2 => exact keeps_hostDone (keeps_of_result (P := KeepsOk) (keeps_outerWrite hs) e2)

theorem keeps_execHostRmw {sp : Space} {addr : Nat} {w : Width} {md : AtomMod} {operand new : W64} (hs : Keeps s₀ s) :
    KeepsOut s₀ (execHostRmw sp addr w md operand new s) := by
  unfold execHostRmw
  refine keeps_ite_out ?_ hs
  split
  · exact keeps_hostAsk hs
  · split
    · exact keeps_hostDone hs
    next e2 => exact keeps_hostDone (keeps_of_result (P := KeepsOkFst) (keeps_outerRmw hs) e2)

theorem keeps_loomRemove {t : Txn} {pool node : Nat} (hs : Keeps s₀ t.s) :
    Keeps s₀ (loomRemove t pool node).tx.s := by
  unfold loomRemove
  dsimp only
  split
  · exact keeps_loomStuck (keeps_txReadL hs)
  · refine keeps_withPool (keeps_txReadL hs) fun _ _ h => keeps_ite_loomed (keeps_loomStatus h) ?_
    refine keeps_ite_loomed (keeps_loomStuck (keeps_txBytesLong h)) ?_
    refine keeps_ite_loomed (keeps_loomStatus (keeps_txBytesLong h)) (keeps_loomRes (keeps_txWriteL ?_))
    refine keeps_txWriteL (keeps_txWriteL (keeps_ite_tx ?_ ?_))
    · exact keeps_pushPage (keeps_pageCount (keeps_unlinkNode (keeps_txBytesLong h)))
    · exact keeps_pageCount (keeps_unlinkNode (keeps_txBytesLong h))

theorem keeps_hostLoomThen {sp : Space} {h : Nat} {f : Txn → Loomed} {k : State → Nat → State}
    {words : Nat → List W64} (hs : Keeps s₀ s) (hf : ∀ t0, Keeps s₀ t0.s → Keeps s₀ (f t0).tx.s)
    (hk : ∀ s0 n1, Keeps s₀ s0 → Keeps s₀ (k s0 n1)) :
    KeepsOut s₀ (hostLoomThen s sp h f k words) := by
  unfold hostLoomThen
  extract_lets r
  have hr : Keeps s₀ r.tx.s := hf _ (keeps_txStart hs)
  split
  next e1 => exact keeps_hostDone (keeps_of_result (P := KeepsTx) (keeps_txFinish hr) e1)
  next s1 e1 =>
    have hs1 : Keeps s₀ s1 := keeps_of_result (P := KeepsTx) (keeps_txFinish hr) e1
    extract_lets s2
    have hs2 : Keeps s₀ s2 := by
      unfold s2
      split
      · exact keeps_afterCl hs1
      · exact hs1
    exact keeps_hostDone (hk _ _ (keeps_ite hs2 (keeps_outSees hs2)))

theorem keeps_hostLoomGo {sp : Space} {h : Nat} {f : Txn → Loomed} (hs : Keeps s₀ s)
    (hf : ∀ t0, Keeps s₀ t0.s → Keeps s₀ (f t0).tx.s) :
    KeepsOut s₀ (hostLoomGo s sp h f) :=
  keeps_hostLoomThen hs (fun _ h1 => hf _ h1) fun _ _ h1 => h1

theorem keeps_hostRows {sp : Space} {h : Nat} {page : Bool} {p0 : Nat} (hs : Keeps s₀ s) :
    KeepsOut s₀ (hostRows s sp h page p0) := by
  refine keeps_ite_out ?_ ?_
  · exact keeps_hostLoomGo hs fun _ h1 => keeps_loomKvtPage h1
  · exact keeps_hostLoomThen hs (fun _ h1 => keeps_loomKvtRope h1) fun _ _ h1 => h1

theorem keeps_loomHostWatch {t : Txn} {h : Nat} (hs : Keeps s₀ t.s) : Keeps s₀ (loomHostWatch t h).tx.s :=
  keeps_ite_loomed (keeps_loomRes hs) (keeps_withHdr hs
      fun _ _ h1 => keeps_ite_loomed (keeps_loomStatus h1) (keeps_loomRes h1))

theorem keeps_hostUnref {sp : Space} {h : Nat} (hs : Keeps s₀ s) : Keeps s₀ (hostUnref s sp h) := by
  unfold hostUnref
  split
  · exact keeps_attnStrike hs
  · exact hs

theorem keeps_hostClosed {sp : Space} {h base : Nat} (hs : Keeps s₀ s) : Keeps s₀ (hostClosed s sp h base) :=
  keeps_addSeqRel (keeps_commitTo hs)

theorem keeps_hostForked {sp : Space} {h : Nat} {w : Nat → Nat} {r : Nat} (hs : Keeps s₀ s) :
    Keeps s₀ (hostForked s sp h w r) :=
  keeps_ite (keeps_forkRels hs) hs

theorem keeps_hostLooked {sp : Space} {h r : Nat} (hs : Keeps s₀ s) : Keeps s₀ (hostLooked s sp h r) :=
  keeps_ite (keeps_outSees (keeps_lookupRels hs)) hs

theorem keeps_execHostLoom {sp : Space} {form : LoomForm} {handle : W64} {ops : List W64} (hs : Keeps s₀ s) :
    KeepsOut s₀ (execHostLoom sp form handle ops s) := by
  unfold execHostLoom
  refine keeps_ite_out hs ?_
  refine keeps_ite_out (keeps_hostDone hs) ?_
  refine keeps_ite_out (keeps_hostDone hs) ?_
  dsimp only
  split
  · exact keeps_hostLoomGo hs fun _ h => keeps_loomReserve h
  · exact keeps_hostLoomGo hs fun _ h => keeps_loomAddr h
  · exact keeps_hostLoomThen hs (fun _ h => keeps_loomClose h) fun _ _ h => keeps_hostClosed h
  · exact keeps_hostLoomThen hs (fun _ h => keeps_loomClose h) fun _ _ h => keeps_hostClosed h
  · exact keeps_hostLoomGo hs fun _ h => keeps_loomHostWatch h
  · exact keeps_hostDone hs
  · exact keeps_hostLoomThen hs (fun _ h => keeps_loomFork h) fun _ _ h => keeps_hostForked h
  · exact keeps_hostLoomThen hs (fun _ h => keeps_loomLen h) fun _ _ h => keeps_outSees h
  · exact keeps_hostLoomThen hs (fun _ h => keeps_loomLookup h) fun _ _ h => keeps_hostLooked h
  · exact keeps_hostLoomThen hs (fun _ h => keeps_loomInsert h) fun _ _ h => keeps_insertRels h
  · exact keeps_hostLoomThen hs (fun _ h => keeps_loomUnref h) fun _ _ h => keeps_hostUnref h
  · exact keeps_hostLoomGo hs fun _ h => keeps_loomKvtPage h
  · exact keeps_hostRows hs
  · exact keeps_hostRows hs

theorem keeps_execPtreeRemove {sp : Space} {pool node : Nat} (hs : Keeps s₀ s) :
    KeepsOut s₀ (execPtreeRemove sp pool node s) :=
  keeps_ite_out hs (keeps_ite_out (keeps_hostDone hs) (keeps_hostLoomGo hs fun _ h => keeps_loomRemove h))

theorem keeps_execAttest {nonce : BitVec 384} {ctx : Nat} (hs : Keeps s₀ s) : KeepsOut s₀ (execAttest nonce ctx s) :=
  keeps_ite_out (keeps_hostDone hs) hs

theorem keeps_setPort {q : Nat} {st : PortSt} (hs : Keeps s₀ s) : Keeps s₀ (setPort s q st) :=
  hs

theorem keeps_execTrain {port : Nat} (hs : Keeps s₀ s) : KeepsOut s₀ (execTrain port s) := by
  unfold execTrain
  split
  · exact keeps_done (keeps_setPort hs)
  · exact keeps_done (keeps_setPort hs)
  · exact keeps_done (keeps_setPort hs)
  · exact hs

theorem keeps_execLinkTrained {port : Nat} {r : TrainResult} (hs : Keeps s₀ s) :
    KeepsOut s₀ (execLinkTrained port r s) := by
  unfold execLinkTrained
  refine keeps_ite_out ?_ hs
  split
  · exact keeps_done (keeps_setPort hs)
  · exact keeps_done (keeps_setPort hs)
  · exact keeps_done (keeps_pushRec (keeps_setPort hs))

theorem keeps_laneFailed {port lane : Nat} (hs : Keeps s₀ s) : Keeps s₀ (laneFailed s port lane) := by
  unfold laneFailed
  refine keeps_ite hs ?_
  split
  · exact keeps_pushRec (keeps_setPort hs)
  · exact keeps_setPort hs
  · exact keeps_ite hs (keeps_pushRec (keeps_setPort hs))
  · exact hs

theorem keeps_execLaneFailure {port lane : Nat} (hs : Keeps s₀ s) : KeepsOut s₀ (execLaneFailure port lane s) :=
  keeps_done (keeps_laneFailed hs)

theorem keeps_execFlitCrcError {port idx : Nat} (hs : Keeps s₀ s) : KeepsOut s₀ (execFlitCrcError port idx s) :=
  keeps_ite_out (keeps_done hs) hs

theorem keeps_markPeer {id va slot : Nat} (hs : Keeps s₀ s) : Keeps s₀ (markPeer s id va slot) := by
  unfold markPeer
  split
  · exact hs
  · exact keeps_setCompanion hs

theorem keeps_inboundGo {id slot dev : Nat} {acc : PeerAccess} (hs : Keeps s₀ s) :
    Keeps s₀ (inboundGo s id slot dev acc).1 := by
  unfold inboundGo
  split
  · exact hs
  · extract_lets s1
    have h1 : Keeps s₀ s1 := keeps_markPeer hs
    clear_value s1
    split
    · split
      · exact h1
      next e => exact keeps_of_result (P := KeepsOkFst) (keeps_outerRead h1) e
    · split
      · exact h1
      next e => exact keeps_of_result (P := KeepsOk) (keeps_outerWrite h1) e
    · split
      · exact h1
      next e => exact keeps_of_result (P := KeepsOkFst) (keeps_outerRmw h1) e

theorem keeps_inboundFail {id slot dev cause addr : Nat} (hs : Keeps s₀ s) :
    KeepsOut s₀ (inboundFail s id slot dev cause addr) :=
  keeps_done (keeps_answer (keeps_pushRec hs))

theorem keeps_execPeerInboundAccess {dev rctx : Nat} {acc : PeerAccess} (hs : Keeps s₀ s) :
    KeepsOut s₀ (execPeerInboundAccess dev rctx acc s) := by
  unfold execPeerInboundAccess
  refine keeps_ite_out ?_ hs
  split
  · split
    next e2 => exact keeps_inboundFail (keeps_of_eq (keeps_inboundGo hs) e2)
    next e2 => exact keeps_done (keeps_answer (keeps_of_eq (keeps_inboundGo hs) e2))
  · split
    · exact keeps_inboundFail hs
    · exact keeps_inboundFail hs

theorem keeps_teamAsks {id : Nat} {ans : PeerAnswer} {t : Team} (hs : KeepsTeam s₀ t) :
    KeepsTeam s₀ (teamAsks id ans t) :=
  hs

theorem keeps_fillAsks {id : Nat} {ans : PeerAnswer} (hs : Keeps s₀ s) : Keeps s₀ (fillAsks s id ans) :=
  keeps_teams hs rfl fun _ h => keeps_ite_team h (keeps_teamAsks h)

theorem keeps_peerAnswered {r : PeerReq} {ans : PeerAnswer} (hs : Keeps s₀ s) : Keeps s₀ (peerAnswered s r ans) := by
  unfold peerAnswered
  refine keeps_ite (keeps_answer hs) ?_
  refine keeps_ite ?_ (keeps_ite (keeps_fillAsks hs) (keeps_rmwAnswered (keeps_modTeam hs)))
  split
  · exact hs
  · exact keeps_ite hs hs

theorem keeps_execPeerResponse {id : Nat} {ans : PeerAnswer} (hs : Keeps s₀ s) :
    KeepsOut s₀ (execPeerResponse id ans s) := by
  unfold execPeerResponse
  split
  · exact hs
  · exact keeps_ite_out hs (keeps_done (keeps_peerAnswered hs))

theorem keeps_execPeerTimeout {id : Nat} (hs : Keeps s₀ s) : KeepsOut s₀ (execPeerTimeout id s) := by
  unfold execPeerTimeout
  split
  · exact hs
  · exact keeps_ite_out (keeps_done (keeps_peerAnswered hs)) hs

/-! ## Memory stacks (Machine/Stacks) -/

theorem keeps_execRefresh {stack chan bank : Nat} (hs : Keeps s₀ s) : KeepsOut s₀ (execRefresh stack chan bank s) :=
  keeps_ite_out (keeps_done (keeps_modStack hs)) hs

theorem keeps_execMitigationRefresh {stack chan bank row : Nat} (hs : Keeps s₀ s) :
    KeepsOut s₀ (execMitigationRefresh stack chan bank row s) :=
  keeps_ite_out (keeps_done (keeps_modStack hs)) hs

theorem keeps_execBucketLeak {stack : Nat} (hs : Keeps s₀ s) : KeepsOut s₀ (execBucketLeak stack s) :=
  keeps_ite_out (keeps_done (keeps_modStack hs)) hs

theorem keeps_mirrorSpare {stack : Nat} {x : Spare} (hs : Keeps s₀ s) : Keeps s₀ (mirrorSpare stack s x) :=
  keeps_tspace hs (memoryWf_writeNat _ _ _)

theorem keeps_spareRow {stack chan bank row : Nat} {ue : Bool} (hs : Keeps s₀ s) :
    Keeps s₀ (spareRow s stack chan bank row ue) :=
  keeps_ite (keeps_pushRec (keeps_ite (keeps_modStack hs) (keeps_mirrorSpare (keeps_modStack hs))))
    (keeps_pushRec (keeps_modStack hs))

theorem keeps_execRowSpare {stack chan bank row : Nat} {ue : Bool} (hs : Keeps s₀ s) :
    KeepsOut s₀ (execRowSpare stack chan bank row ue s) :=
  keeps_ite_out (keeps_done (keeps_spareRow hs)) hs

theorem keeps_blockError {b : Nat} (hs : Keeps s₀ s) : Keeps s₀ (blockError s b) :=
  keeps_setMeta hs

theorem keeps_spareSector {x : Nat} (hs : Keeps s₀ s) : Keeps s₀ (spareSector s x) :=
  keeps_spareRow hs

theorem keeps_correctSector {x : Nat} (hs : Keeps s₀ s) : Keeps s₀ (correctSector s x) :=
  keeps_modStack hs

theorem keeps_correctedRead {stack sector : Nat} (hs : Keeps s₀ s) : KeepsOut s₀ (correctedRead stack sector s) :=
  keeps_ite_out (keeps_done (keeps_correctSector (keeps_modStack hs))) hs

theorem keeps_execScrubRead {stack sector : Nat} {r : ScrubResult} (hs : Keeps s₀ s) :
    KeepsOut s₀ (execScrubRead stack sector r s) := by
  unfold execScrubRead
  refine keeps_ite_out ?_ hs
  dsimp only
  split
  · exact keeps_done (keeps_serveRun (keeps_modStack hs))
  · exact keeps_done (keeps_correctSector (keeps_serveRun (keeps_modStack hs)))
  · refine keeps_done ?_
    refine keeps_spareSector ?_
    split
    · exact keeps_blockError (keeps_serveRun (keeps_modStack hs))
    · exact keeps_serveRun (keeps_modStack hs)

/-! ## Management (Machine/Manage) -/

theorem keeps_pushDev {r : FaultRec} (hs : Keeps s₀ s) : Keeps s₀ (pushDev s r) :=
  keeps_ite hs hs

theorem keeps_fenceTeam {u : Nat} (hs : Keeps s₀ s) : Keeps s₀ (fenceTeam s u) :=
  keeps_killTeam (keeps_pushRec hs)

theorem keeps_loseTask {core : Nat} {x : Task} (hs : Keeps s₀ s) : Keeps s₀ (loseTask s core x) :=
  keeps_kernelEnd (keeps_pushRec (keeps_modKernel (keeps_ite (keeps_joinEnd hs) hs)))

theorem keeps_moveTask {core : Nat} {x : Task} (hs : Keeps s₀ s) : Keeps s₀ (moveTask core s x) := by
  unfold moveTask
  split
  · exact keeps_modCore hs
  · exact keeps_loseTask hs

theorem keeps_moveDeque {core : Nat} (hs : Keeps s₀ s) : Keeps s₀ (moveDeque s core) :=
  keeps_foldl (keeps_modCore hs) fun _ _ h => keeps_moveTask h

theorem keeps_coreOff {core : Nat} (hs : Keeps s₀ s) : Keeps s₀ (coreOff s core) := by
  unfold coreOff
  extract_lets spare gone blank r s1 s2 s3
  have h1 : Keeps s₀ s1 := keeps_foldl hs fun _ _ h => keeps_fenceTeam h
  have h2 : Keeps s₀ s2 := keeps_leaveCtx (keeps_copyAbandoned (keeps_moveDeque (keeps_pairLost h1)))
  have h3 : Keeps s₀ s3 := keeps_modCore h2
  clear_value s3
  exact keeps_pushRec (keeps_ite (keeps_frame h3 rfl rfl rfl rfl) h3)

theorem keeps_execCoreOffline {core : Nat} (hs : Keeps s₀ s) : KeepsOut s₀ (execCoreOffline core s) :=
  keeps_ite_out (keeps_done (keeps_coreOff hs)) hs

theorem keeps_fenceCtx {id : Nat} (hs : Keeps s₀ s) : Keeps s₀ (fenceCtx s id) := by
  unfold fenceCtx
  extract_lets c s1 s2
  have hs2 : Keeps s₀ s2 := keeps_pushDev (keeps_modCtx (keeps_killAll hs))
  split
  · exact hs
  · exact hs
  · exact keeps_ite (keeps_replyTo hs2) hs2

theorem keeps_metaLost {b : Nat} (hs : Keeps s₀ s) : Keeps s₀ (metaLost s b) := by
  unfold metaLost
  dsimp only
  split
  · exact keeps_pushRec (keeps_ite (keeps_poundDrop (keeps_setMeta hs)) hs)
  · exact keeps_poundDrop (keeps_setMeta hs)

theorem keeps_blockLost {b : Nat} (hs : Keeps s₀ s) : Keeps s₀ (blockLost s b) :=
  keeps_ite (keeps_blockError hs) (keeps_spareSector (keeps_blockError hs))

theorem keeps_contain {e : ErrUnit} (hs : Keeps s₀ s) : Keeps s₀ (contain s e) := by
  unfold contain
  split
  · exact keeps_blockLost hs
  · exact keeps_metaLost hs
  · exact keeps_modCore hs
  · exact keeps_modCore hs
  · exact keeps_ite (keeps_fenceTeam hs) hs
  · exact keeps_ite (keeps_coreOff hs) hs
  · exact keeps_ite (keeps_spareRow hs) hs
  · exact keeps_laneFailed hs
  · exact keeps_fenceCtx hs
  · split
    · exact keeps_loseTask (keeps_modCore hs)
    · exact hs
  · exact keeps_ite (keeps_lockBreak hs) hs

theorem keeps_execUncorrectableError {u : ErrUnit} (hs : Keeps s₀ s) : KeepsOut s₀ (execUncorrectableError u s) :=
  keeps_done (keeps_contain hs)

theorem keeps_haltAll (hs : Keeps s₀ s) : Keeps s₀ (haltAll s) :=
  keeps_foldl hs fun _ _ h => keeps_ite h (keeps_haltCore h)

theorem keeps_execThermalTrip {temp : Nat} (hs : Keeps s₀ s) : KeepsOut s₀ (execThermalTrip temp s) := by
  unfold execThermalTrip
  extract_lets mgmt s1 s2
  have h1 : Keeps s₀ s1 := keeps_frame hs rfl rfl rfl rfl
  have h2 : Keeps s₀ s2 := keeps_haltAll h1
  clear_value s2
  exact keeps_ite_out (keeps_done h1) (keeps_done (keeps_pushRec (keeps_frame h2 rfl rfl rfl rfl)))

theorem keeps_loadTime {v : Nat} (hs : Keeps s₀ s) : Keeps s₀ (loadTime s v) :=
  keeps_ite hs hs

theorem keeps_execTimeWrite {v : W64} (hs : Keeps s₀ s) : KeepsOut s₀ (execTimeWrite v s) :=
  keeps_ite_out (keeps_done (keeps_loadTime hs)) hs

theorem keeps_placeMirror (hs : Keeps s₀ s) : Keeps s₀ (placeMirror s) :=
  keeps_ite hs (keeps_foldl (keeps_tspace hs (memoryWf_drop _ _))
      fun _ _ h => keeps_foldl h (fun _ _ h1 => keeps_mirrorSpare h1))

theorem keeps_execMgmtWrite {field : Nat} {v : W64} (hs : Keeps s₀ s) : KeepsOut s₀ (execMgmtWrite field v s) := by
  refine keeps_ite_out hs (keeps_ite_out (keeps_done hs) ?_)
  refine keeps_ite_out (keeps_done (keeps_loadTime hs)) (keeps_ite_out (keeps_done hs) ?_)
  refine keeps_ite_out (keeps_done hs) (keeps_ite_out (keeps_done hs) ?_)
  exact keeps_ite_out (keeps_done (keeps_placeMirror hs)) (keeps_done hs)

theorem keeps_execReset {bootOk runtimeOk : Bool} (hs : Keeps s₀ s) : KeepsOut s₀ (execReset bootOk runtimeOk s) := by
  refine ⟨fun hw => ?_, fun _ _ he => absurd he List.not_mem_nil⟩
  obtain ⟨-, -, hhost⟩ := memoriesWf_iff.1 (hs.1 hw)
  exact memoriesWf_iff.2 ⟨rfl, tabWf_setAll _ rfl, hhost⟩

/-! ## Page walks (Machine/Walks) -/

theorem keeps_execWalkBatchStart {die : Nat} (hs : Keeps s₀ s) : KeepsOut s₀ (execWalkBatchStart die s) := by
  unfold execWalkBatchStart
  refine keeps_ite_out ?_ hs
  split
  · exact hs
  · exact hs

theorem keeps_execPageWalkDone {die idx : Nat} (hs : Keeps s₀ s) : KeepsOut s₀ (execPageWalkDone die idx s) := by
  unfold execPageWalkDone
  extract_lets w s1
  have h1 : Keeps s₀ s1 := keeps_frame hs rfl rfl rfl rfl
  clear_value s1
  split
  · exact hs
  · extract_lets found s2 t t1
    have h2 : Keeps s₀ s2 := by
      clear_value found
      cases found with
      | none => exact h1
      | some l => exact keeps_tlbInstall h1
    clear_value s2
    have ht : KeepsTeam s₀ t := keeps_getTeam h2
    clear_value t
    exact keeps_ite_out (keeps_setTeam h2 (keeps_ite_team ht ht)) h2

theorem keeps_execFreeOldRun {idx : Nat} (hs : Keeps s₀ s) : KeepsOut s₀ (execFreeOldRun idx s) := by
  unfold execFreeOldRun
  split
  · exact hs
  · exact keeps_bumpSeq hs

/-! ## The instructions (Machine/Dispatch) -/

theorem keeps_exec {i : Instr} (hs : Keeps s₀ s) : KeepsOut s₀ (exec i s) := by
  unfold exec
  cases i with
  | iadd | isub | imul | imad | lop | shf | bits | imnx | icmp | sel | iaddi | ishi | icmpi | lopi | iaddk
  | ilea | movk | fmnx | fcmp | pack | dp4 | fcls => exact keeps_vecOp hs
  | idiv | fsf => exact keeps_vecLater hs
  | kadd | ksub | kmul | kand | kor | kxor | kshl | kshr | ksra | kmin | kmax => exact keeps_k3Op hs
  | kdiv => exact keeps_execKdiv hs
  | kli | kaddi | klui | bpassInfo | freebCtx | freebSlice => exact keeps_uniformOp hs
  | movs => exact keeps_execMovs hs
  | fadd | fsub | fmul | ffma => exact keeps_fopExec hs
  | cvt => exact keeps_execCvt hs
  | shfl | rdx | scan | lmov => exact keeps_crossOp hs
  | vote => exact keeps_execVote hs
  | ld => exact keeps_execLd hs
  | st => exact keeps_execSt hs
  | lds => exact keeps_execLds hs
  | sts => exact keeps_execSts hs
  | ldt => exact keeps_execLdt hs
  | atom | red => exact keeps_rmwExec hs
  | kld => exact keeps_execKld hs
  | kst => exact keeps_execKst hs
  | fence => exact keeps_execFence hs
  | cacheZero => exact keeps_execCacheZero hs
  | cacheInv => exact keeps_execCacheInv hs
  | cacheEvict => exact keeps_execCacheEvict hs
  | cacheFetch => exact keeps_execCacheFetch hs
  | ldb => exact keeps_execLdb hs
  | bra => exact keeps_execBra hs
  | brk => exact keeps_execBrk hs
  | jmpi => exact keeps_execJmpi hs
  | land => exact keeps_execLand hs
  | call => exact keeps_execCall hs
  | ret => exact keeps_execRet hs
  | loop => exact keeps_execLoop hs
  | regionCommit => exact keeps_execRegionCommit hs
  | setx => exact keeps_execSetx hs
  | maskSet => exact keeps_execMaskSet hs
  | maskGet => exact keeps_execMaskGet hs
  | maskPred => exact keeps_execMaskPred hs
  | exit => exact keeps_execExit hs
  | yield => exact keeps_execYield hs
  | yieldResume => exact keeps_execYieldResume hs
  | trap | bkpt => exact keeps_trapStop hs
  | nop => exact keeps_execNop hs
  | lockInit => exact keeps_execLockInit hs
  | lockArrive => exact keeps_execLockArrive hs
  | lockExpect => exact keeps_execLockExpect hs
  | lockWait => exact keeps_execLockWait hs
  | lockTry => exact keeps_execLockTry hs
  | lockInval => exact keeps_execLockInval hs
  | lockFill => exact keeps_execLockFill hs
  | lockDrain => exact keeps_execLockDrain hs
  | copy => exact keeps_execCopy hs
  | copyUnitWrite => exact keeps_execCopyUnitWrite hs
  | copyRetry => exact keeps_execCopyRetry hs
  | mma => exact keeps_execMma hs
  | mfenceOpr => exact keeps_execMfenceOpr hs
  | mfenceBatch => exact keeps_execMfenceBatch hs
  | mwait => exact keeps_execMwait hs
  | macs => exact keeps_execMacs hs
  | accmvT2s | accmvS2t | accmvT2t | accmvZero => exact keeps_mvExec hs
  | accmvT2g | accmvG2t => exact keeps_mvGlobalExec hs
  | attn => exact keeps_execAttn hs
  | attnFin => exact keeps_execAttnFin hs
  | matrixOpRetire => exact keeps_execMatrixOpRetire hs
  | seqReserve => exact keeps_execSeqReserve hs
  | seqAddr => exact keeps_execSeqAddr hs
  | seqCommit | seqVoid => exact keeps_seqClose hs
  | seqWatch => exact keeps_execSeqWatch hs
  | seqWait => exact keeps_execSeqWait hs
  | seqFork => exact keeps_execSeqFork hs
  | seqLen => exact keeps_execSeqLen hs
  | ptreeLookup => exact keeps_execPtreeLookup hs
  | ptreeInsert => exact keeps_execPtreeInsert hs
  | ptreeUnref => exact keeps_execPtreeUnref hs
  | kvtPage | kvtRope | kvtBoth => exact keeps_kvtOp hs
  | fork => exact keeps_execFork hs
  | join => exact keeps_execJoin hs
  | launch => exact keeps_execLaunch hs
  | bpassUndec => exact keeps_execBpassUndec hs
  | traceOn => exact keeps_execTraceOn hs
  | traceOff => exact keeps_execTraceOff hs
  | traceBind => exact keeps_execTraceBind hs
  | traceFlush => exact keeps_execTraceFlush hs
  | traceSyncDue => exact keeps_execTraceSyncDue hs
  | hintStall => exact keeps_execHintStall hs
  | hintMark => exact keeps_execHintMark hs
  | illegalWord => exact keeps_execIllegalWord hs
  | loadReturn => exact keeps_execLoadReturn hs
  | variableResultWriteback => exact keeps_execVariableResultWriteback hs
  | fenceComplete => exact keeps_execFenceComplete hs
  | scRmwPerform => exact keeps_execScRmwPerform hs
  | freeOldRun => exact keeps_execFreeOldRun hs
  | walkBatchStart => exact keeps_execWalkBatchStart hs
  | pageWalkDone => exact keeps_execPageWalkDone hs
  | gatherExpand => exact keeps_modLoad hs
  | arbiterSelect => exact keeps_execArbiterSelect hs
  | queueReadRetry => exact keeps_execQueueReadRetry hs
  | dispatchWriteApply => exact keeps_execDispatchWriteApply hs
  | teamPlace => exact keeps_execTeamPlace hs
  | preempt => exact keeps_execPreempt hs
  | evict => exact keeps_execEvict hs
  | taskSteal => exact keeps_execTaskSteal hs
  | teamEnd => exact keeps_execTeamEnd hs
  | fillRetry => exact keeps_execFillRetry hs
  | handoffAppend => exact keeps_execHandoffAppend hs
  | appendRetry => exact keeps_execAppendRetry hs
  | create => exact keeps_execCreate hs
  | destroy => exact keeps_execDestroy hs
  | deflate => exact keeps_execDeflate hs
  | inflate => exact keeps_execInflate hs
  | resolve => exact keeps_execResolve hs
  | save => exact keeps_execSave hs
  | saveComplete => exact keeps_execSaveComplete hs
  | restore => exact keeps_execRestore hs
  | power => exact keeps_execPower hs
  | map => exact keeps_execMap hs
  | unmap => exact keeps_execUnmap hs
  | perm => exact keeps_execPerm hs
  | migrateIndev => exact keeps_execMigrateIndev hs
  | migrateTodev => exact keeps_execMigrateTodev hs
  | migrateTohost => exact keeps_execMigrateTohost hs
  | clearacc => exact keeps_execClearacc hs
  | pageDrainDone => exact keeps_execPageDrainDone hs
  | resume => exact keeps_execResume hs
  | skip => exact keeps_execSkip hs
  | kill => exact keeps_execKill hs
  | rdstate => exact keeps_execRdstate hs
  | wrstate => exact keeps_execWrstate hs
  | step => exact keeps_execStep hs
  | halt => exact keeps_execHalt hs
  | list => exact keeps_execList hs
  | hostRead => exact keeps_execHostRead hs
  | hostWrite => exact keeps_execHostWrite hs
  | hostRmw => exact keeps_execHostRmw hs
  | hostLoom => exact keeps_execHostLoom hs
  | ptreeRemove => exact keeps_execPtreeRemove hs
  | attest => exact keeps_execAttest hs
  | train => exact keeps_execTrain hs
  | linkTrained => exact keeps_execLinkTrained hs
  | laneFailure => exact keeps_execLaneFailure hs
  | flitCrcError => exact keeps_execFlitCrcError hs
  | peerInboundAccess => exact keeps_execPeerInboundAccess hs
  | peerResponse => exact keeps_execPeerResponse hs
  | peerTimeout => exact keeps_execPeerTimeout hs
  | refresh => exact keeps_execRefresh hs
  | mitigationRefresh => exact keeps_execMitigationRefresh hs
  | poundReissue => exact keeps_execPoundReissue hs
  | scrubRead => exact keeps_execScrubRead hs
  | bucketLeak => exact keeps_execBucketLeak hs
  | rowSpare => exact keeps_execRowSpare hs
  | uncorrectableError => exact keeps_execUncorrectableError hs
  | coreOffline => exact keeps_execCoreOffline hs
  | thermalTrip => exact keeps_execThermalTrip hs
  | reset => exact keeps_execReset hs
  | timeWrite => exact keeps_execTimeWrite hs
  | mgmtWrite => exact keeps_execMgmtWrite hs

/-! ## Scheduling (Machine/Sched) -/

theorem keeps_badOp {p : Packet} (hs : Keeps s₀ s) : Keeps s₀ (badOp s p) :=
  keeps_replyTo (keeps_afterCommand hs)

theorem keeps_readPacket {s s1 : State} {h n : Nat} {ready : Packet → Bool} {f : Packet → Option Instr}
    (hs : Keeps s₀ s) (hs1 : Keeps s₀ s1) :
    Keeps s₀ (readPacket s s1 h n ready f).1 := by
  unfold readPacket
  split
  · exact hs
  · exact hs1
  · refine keeps_ite_fst hs ?_
    split
    · exact hs1
    · exact keeps_badOp hs1

theorem keeps_nextControl (hs : Keeps s₀ s) : Keeps s₀ (nextControl s).1 :=
  keeps_readPacket hs hs

theorem keeps_nextPage (hs : Keeps s₀ s) : Keeps s₀ (nextPage s).1 :=
  keeps_readPacket hs hs

theorem keeps_nextCoreCmd (hs : Keeps s₀ s) : Keeps s₀ (nextCoreCmd s).1 :=
  keeps_readPacket hs hs

theorem keeps_retryLater {a : Agendum} {banks : List Nat} (hs : Keeps s₀ s) : Keeps s₀ (retryLater a banks s) :=
  keeps_foldl hs fun _ _ h => keeps_modStack (keeps_serveAt h)

theorem keeps_served {a : Agendum} {out : Out} (hs : Keeps s₀ s) (hout : KeepsOut s₀ out) :
    KeepsOut s₀ (served a s out) := by
  unfold served
  split
  · exact keeps_ite_out hout (keeps_retryLater hs)
  · exact hout

/-! ## The step (Machine/Step) -/

theorem keeps_stepPacket {r : State × Option Instr} (hs : Keeps s₀ r.1) : KeepsOut s₀ (stepPacket r) := by
  unfold stepPacket
  split
  · exact keeps_exec hs
  · exact hs

theorem keeps_stepAgendum {a : Agendum} (hs : Keeps s₀ s) : KeepsOut s₀ (stepAgendum a s) := by
  unfold stepAgendum
  dsimp only
  split
  · refine keeps_ite_out ?_ hs
    split
    next e1 => exact keeps_exec (keeps_of_result (P := KeepsFetched) (keeps_fetchNext hs) e1)
    next e1 => exact keeps_fetchStop (keeps_of_result (P := KeepsFetched) (keeps_fetchNext hs) e1)
    next e1 => exact keeps_done (keeps_of_result (P := KeepsFetched) (keeps_fetchNext hs) e1)
  · exact hs
  · exact keeps_ite_out hs (keeps_exec hs)
  · exact keeps_stepPacket (keeps_nextControl hs)
  · exact keeps_stepPacket (keeps_nextPage hs)
  · exact keeps_stepPacket (keeps_nextCoreCmd hs)
  · exact keeps_correctedRead hs
  · exact hs

theorem keeps_stepEntry {a : Agendum} (hs : Keeps s₀ s) : KeepsOut s₀ (stepEntry a s) :=
  keeps_served hs (keeps_stepAgendum hs)

theorem keeps_step (hs : Keeps s₀ s) : KeepsOut s₀ (step s) := by
  unfold step
  split
  next e1 => exact keeps_of_result (P := KeepsSome) (keeps_fillRoom hs) e1
  · split
    · exact keeps_stepEntry hs
    · exact keeps_stepEntry hs
end

/-- Settles O60: a step keeps the forms of the state it begins in. -/
theorem stepsKeepTheMemoriesCanonical : Obligations.StepsKeepTheMemoriesCanonical := by
  intro s s' e
  have h : KeepsOut s (step s) := keeps_step keeps_refl
  rw [e] at h
  exact h
end Sys2Proof.Machine

namespace Sys2Proof.Machine

/-! # The LOCK forms (O29) -/

/-! ## Joins of nothing -/

@[simp] theorem joinSeen_nil (a : List Nat) : joinSeen a [] = a := by simp [joinSeen]

/-- What has been seen already adds nothing. -/
theorem joinSeen_of_all {a b : List Nat} (h : b.all a.contains = true) : joinSeen a b = a := by
  have : b.eraseDups.filter (fun x => !a.contains x) = [] := by
    rw [List.filter_eq_nil_iff]
    intro x hx
    simpa using List.all_eq_true.1 h x (List.mem_eraseDups.1 hx)
  rw [joinSeen, this, List.append_nil]

theorem joined_none (t : Team) : joined t ⟨[], 0⟩ = t := by simp [joined]

theorem acquiredCore_locks (drop : Bool) (v : View) (c : Core) (L : Tab Lock) :
    acquiredCore drop v { c with locks := L } = { acquiredCore drop v c with locks := L } := by
  cases drop <;> rfl

theorem acquiredCore_none (c : Core) : acquiredCore false ⟨[], 0⟩ c = c := by simp [acquiredCore]

/-- A team whose lanes have seen nothing apart is melded already (R387). -/
theorem melded_of_whole {t : Team} (h : t.laneSeen.filter (fun e => e.2 != silentLane) = []) : melded t = t := by
  have hall : t.laneSeen.filter (fun e => e.2 == silentLane) = t.laneSeen := by
    rw [List.filter_eq_self]
    intro e he
    simpa using List.filter_eq_nil_iff.1 h e he
  unfold melded
  rw [h, hall, List.map_nil, joinSeen_nil]

/-! ## A region boundary with nothing stored (R147) -/

/-- The region of a team that has stored nothing ends: its lanes meld, and its log stays empty. -/
theorem commitRegion_empty {s : State} {u : Nat} {t : Team} (hg : getTeam s u = t) (hl : t.log = []) (hz : t.zeros = []) :
    commitRegion s u = setTeam s u (ended t) := by
  have hb : logBlocks t = [] := by simp [logBlocks, hl, hz, dedupNat]
  have hm : meldLanes s u = s ∧ melded t = t ∨ meldLanes s u = setTeam s u (melded t) := by
    unfold meldLanes
    simp only [hg]
    split
    next h => exact .inl ⟨rfl, melded_of_whole (List.isEmpty_iff.1 h)⟩
    · exact .inr rfl
  unfold commitRegion ended
  simp only [hg, hb, List.foldl_nil, modTeam_eq]
  rcases hm with ⟨h1, h2⟩ | h1
  · rw [h1, h2, hg]
  · rw [h1, setTeam_setTeam, getTeam_setTeam, if_pos rfl]

/-- A team as the effect of its boundary instruction finds it, with the group latched. -/
def bounding (s : State) (t : Team) (a : Access) : Team := { ended (latch s t a) with snap := t.flow }

/-- A BOUNDARY INSTRUCTION SAID ONCE, where its region has stored nothing: its effect runs on the team at the boundary. -/
theorem boundaryNormal_issuing {s : State} {u : Nat} {t : Team} (h : Issuing s u t) (hl : t.log = []) (hz : t.zeros = []) {a : Access}
    (ha : AccFits t a) (hv : a.vector = false) (eff : State → Nat → Team → Out) :
    boundaryNormal a eff s = eff (setTeam s u (bounding s t a)) u (latch s t a) := by
  have hg : getTeam (setTeam s u (latch s t a)) u = latch s t a := by simp
  have hp : (latch s t a).pend.any (·.isLoad) = false := by simp [latch, h.arrived]
  rw [boundaryNormal, issueOp_issuing h ha, hv]
  simp only [Bool.false_and, Bool.false_eq_true, if_false, show (latch s t a).bounds = false from h.mode, hg, hp]
  rw [commitRegion_empty hg hl hz, takeSnap, modTeam_eq, setTeam_setTeam, getTeam_setTeam, if_pos rfl, setTeam_setTeam]
  rfl

/-- The issue of a LOCK form whose operand word keeps its form (R270). -/
theorem lockOp_issuing {s : State} {u : Nat} {t : Team} (h : Issuing s u t) (hl : t.log = []) (hz : t.zeros = []) {a : KReg}
    (ha : a.toNat + 1 ≤ 383) {word res : Bool} {ok : Nat → Bool} (hok : ok (if word then (kreg t a.toNat).toNat else 0) = true)
    (eff : State → Nat → Team → Nat → Out) :
    lockOp a word res ok eff s = eff (setTeam s u (bounding s t (lockAcc a word res))) u (latch s t (lockAcc a word res))
      (if word then (kreg t a.toNat).toNat else 0) := by
  have hfits : AccFits t (lockAcc a word res) := by
    refine ⟨fun _ h => absurd h List.not_mem_nil, fun e he => ?_⟩
    have : e = (a.toNat, 1) ∨ e = (a.toNat + 1, 1) := by
      cases word <;> cases res <;> simp_all [lockAcc]
    rcases this with rfl | rfl <;> simp only <;> omega
  have hk : kreg (latch s t (lockAcc a word res)) a.toNat = kreg t a.toNat := rfl
  rw [lockOp, boundaryNormal_issuing h hl hz hfits rfl]
  simp only [hk, hok, if_true]

/-! ## A state in which one team and one core differ -/

/-- Of the state `s` only team `u` and the core numbered `core` differ in `s1`, where they are `t1` and `c1`; and no team waits at a lock that
none waited at. -/
structure TeamAndCore (s s1 : State) (u core : Nat) (t1 : Team) (c1 : Core) : Prop where
  rest : s1 = { s with teams := s1.teams, cores := s1.cores }
  team : find? s1.teams u = some t1
  others : ∀ n, n ≠ u → find? s1.teams n = find? s.teams n
  own : getCore s1 core = c1
  cores : ∀ n, n ≠ core → getCore s1 n = getCore s n
  unawaited : ∀ c n, lockAwaited s c n = false → lockAwaited s1 c n = false

/-- A team that does not wait is at no lock. -/
theorem lockAwaited_setTeam {s : State} {u : Nat} {t : Team} (ht : ∀ w, t.status ≠ .waiting w) {c n : Nat}
    (h : lockAwaited s c n = false) : lockAwaited (setTeam s u t) c n = false := by
  unfold lockAwaited at *
  rw [List.any_eq_false] at *
  intro e he
  rcases mem_tabPut he with rfl | he
  · dsimp only
    split
    next hw => exact absurd hw (ht _)
    next hw => exact absurd hw (ht _)
    · simp
  · exact h e he

/-- With a snapshot taken, a team that goes on holds its new place there, and any other is ending (R126, R147). -/
theorem fallThrough_snap {s : State} {u : Nat} {t : Team} (hg : getTeam s u = t) (ht : t.trace.on = false) (hs : t.stepOnce = false) :
    ∃ t', fallThrough s u true = setTeam s u t' ∧ (t'.status = .ready ∧ t'.snap = t'.flow ∨ t'.status = .ending) := by
  have hb := bookGroup_moved t
  have h1 : traced (bookGroup t) = false := by rw [hb]; simp [traced, ht]
  have h2 : (bookGroup t).stepOnce = false := by rw [hb]; exact hs
  unfold fallThrough advance
  simp only [hg]
  split
  · simp only [h2, Bool.false_eq_true, if_false]
    exact ⟨_, rfl, .inr rfl⟩
  · simp only [h1, h2, Bool.false_and, Bool.false_eq_true, if_false, if_true]
    exact ⟨_, rfl, .inl ⟨rfl, rfl⟩⟩

section
variable {s s1 : State} {u core : Nat} {t1 : Team} {c1 : Core}

theorem TeamAndCore.refl (h : find? s.teams u = some t1) : TeamAndCore s s u core t1 (getCore s core) :=
  ⟨rfl, h, fun _ _ => rfl, rfl, fun _ _ => rfl, fun _ _ h => h⟩

theorem TeamAndCore.team_eq (h : TeamAndCore s s1 u core t1 c1) : getTeam s1 u = t1 := getTeam_of_find h.team

theorem TeamAndCore.quiet (h : TeamAndCore s s1 u core t1 c1) (hq : Quiet s) : Quiet s1 := by
  rw [h.rest]
  exact ⟨hq.dev, hq.devNone, hq.ctx, hq.ctxNone⟩

theorem TeamAndCore.putTeam (h : TeamAndCore s s1 u core t1 c1) {t2 : Team} (ht : ∀ w, t2.status ≠ .waiting w) :
    TeamAndCore s (setTeam s1 u t2) u core t2 c1 where
  rest := by rw [h.rest]; rfl
  team := by rw [find?_setTeam, if_pos rfl]
  others n hn := by rw [find?_setTeam, if_neg hn]; exact h.others n hn
  own := h.own
  cores := h.cores
  unawaited c n hw := lockAwaited_setTeam ht (h.unawaited c n hw)

theorem TeamAndCore.putCore (h : TeamAndCore s s1 u core t1 c1) (c2 : Core) : TeamAndCore s (setCore s1 core c2) u core t1 c2 where
  rest := by rw [h.rest]; rfl
  team := h.team
  others := h.others
  own := by rw [getCore_setCore, if_pos rfl]
  cores n hn := by rw [getCore_setCore, if_neg hn]; exact h.cores n hn
  unawaited := h.unawaited

/-- A team joins a view (R389, R392). -/
theorem TeamAndCore.joins (h : TeamAndCore s s1 u core t1 c1) (hc : t1.core = core) (hs : ∀ w, t1.status ≠ .waiting w) (v : View) :
    TeamAndCore s (teamJoins s1 u v) u core (joined t1 v) { c1 with clock := max c1.clock v.clock } := by
  obtain ⟨s2, hs2, h2⟩ : ∃ s2, s2 = (if v.seen.all t1.seen.contains then s1 else setTeam s1 u (joined t1 v)) ∧
      TeamAndCore s s2 u core (joined t1 v) c1 := by
    refine ⟨_, rfl, ?_⟩
    split
    next hall =>
      have : joined t1 v = t1 := by rw [joined, joinSeen_of_all hall]
      rw [this]; exact h
    · exact h.putTeam hs
  have hj : teamJoins s1 u v = raiseClock s2 core v.clock := by
    unfold teamJoins
    rw [h.team_eq, hs2, ← hc]
    rfl
  rw [hj, raiseClock, h2.own]
  split
  next hlt =>
    rw [modCore_eq, h2.own, max_eq_right (Nat.le_of_lt hlt)]
    exact h2.putCore _
  next hge =>
    rw [max_eq_left (Nat.le_of_not_lt hge)]
    exact h2

/-- A team acquires (R18, R170, R389). -/
theorem TeamAndCore.acquired (h : TeamAndCore s s1 u core t1 c1) (hc : t1.core = core) (hs : ∀ w, t1.status ≠ .waiting w) (sc : Scope)
    (l : List Rel) : TeamAndCore s (acquire s1 u sc l) u core (joined t1 (acquires t1 sc l))
      (acquiredCore (decide (sc ≠ .team)) (acquires t1 sc l) c1) := by
  obtain ⟨s2, hs2, h2⟩ : ∃ s2, s2 = (if sc = .team then s1 else dropL1 s1 core) ∧
      TeamAndCore s s2 u core t1 (if decide (sc ≠ .team) then emptied c1 else c1) := by
    refine ⟨_, rfl, ?_⟩
    by_cases hsc : sc = .team
    · simpa [hsc] using h
    · have h2 := h.putCore (emptied c1)
      simp only [hsc, ne_eq, not_false_eq_true, decide_true, if_true, if_false, dropL1, modCore_eq, h.own]
      exact h2
  have e : acquire s1 u sc l = teamJoins s2 u (acquires t1 sc l) := by
    unfold acquire teamAcquires
    rw [h.team_eq, hc, ← hs2, h2.team_eq]
    rfl
  rw [e]
  have h3 := h2.joins hc hs (acquires t1 sc l)
  have hclock : (if decide (sc ≠ .team) then emptied c1 else c1).clock = c1.clock := by split <;> rfl
  rw [hclock] at h3
  exact h3

/-- A boundary instruction's team goes on at the next word, and where it has not ended a snapshot is taken there (R126, R147). -/
theorem TeamAndCore.goesOn (h : TeamAndCore s s1 u core t1 c1) (ht : t1.trace.on = false) (hs : t1.stepOnce = false) :
    ∃ t2, TeamAndCore s (fallThrough s1 u true) u core t2 c1 ∧ Moved t1 t2 ∧ (t2.status = .ready → t2.snap = t2.flow) ∧
      (NoLoops t1 → tabSorted t1.flow.lanes = true →
        (lanesOf t1 ≠ [] → t1.flow.uni = false → t2.status = .ready ∧ t2.flow.loops = t1.flow.loops ∧
          Chosen t1.lanes t1.flow t2.flow fun _ => t1.cur.next) ∧
        (lanesOf t1 = [] → t1.flow.uni = true → waitingAt t1.flow t1.flow.depth = [] →
          t2.status = .ready ∧ t2.flow = { t1.flow with pc := t1.cur.next })) := by
  obtain ⟨t2, e, hm, _, hgo⟩ := fallThrough_team h.team_eq ht hs true
  obtain ⟨t3, e3, h3⟩ := fallThrough_snap h.team_eq ht hs
  obtain rfl : t2 = t3 := by
    have hget := congrArg (fun x => getTeam x u) (e.symm.trans e3)
    simpa using hget
  refine ⟨t2, e ▸ h.putTeam ?_, hm, ?_, hgo⟩
  · intro w hw
    rcases h3 with ⟨h3, _⟩ | h3 <;> rw [h3] at hw <;> cases hw
  · intro hr
    rcases h3 with ⟨_, h3⟩ | h3
    · exact h3
    · rw [h3] at hr; cases hr
end

/-! ## A lock's step (R268) -/

@[simp] theorem getLock_setTeam (s : State) (u core n : Nat) (t : Team) : getLock (setTeam s u t) core n = getLock s core n := rfl

theorem getLock_setLock (s : State) (core n m : Nat) (l : Lock) :
    getLock (setLock s core n l) core m = if m = n then l else getLock s core m := by
  simp [getLock, setLock, tabGet_set]

theorem bitAt_zero (n : Nat) : bitAt n 0 = decide (n % 2 = 1) := rfl

/-- A lock whose arrivals and bytes have all come completes its phase. -/
theorem lockEval_completes {s : State} {core n : Nat} (h : (getLock s core n).penda = 0 ∧ (getLock s core n).bdone = (getLock s core n).bexp) :
    lockEval s core n = setLock s core n (lockAfter (getLock s core n)) := by
  unfold lockEval lockAfter
  simp only [h, and_self, if_true, bitAt_zero, Bool.and_eq_true, decide_eq_true_eq]

/-- A lock that still awaits arrivals or bytes stays as it is. -/
theorem lockEval_waits {s : State} {core n : Nat}
    (h : (getLock s core n).penda ≠ 0 ∨ (getLock s core n).bdone < (getLock s core n).bexp) : lockEval s core n = s := by
  unfold lockEval
  dsimp only
  rw [if_neg (by omega), if_neg (by omega)]

/-- A lock for which more bytes have come than it expects breaks (R275). -/
theorem lockEval_breaks {s : State} {core n : Nat} (h : lockBreaks (getLock s core n)) : lockEval s core n = lockBreak s core n := by
  unfold lockBreaks at h
  unfold lockEval
  dsimp only
  rw [if_neg (by omega), if_pos h]

/-- No .fill waits at a lock that no team waits at, and the lock's step lets none through. -/
theorem lockFills_unawaited {s : State} {core n : Nat} (h : lockAwaited s core n = false) (fuel : Nat) : lockFills fuel s core n = s := by
  have hnone : firstFill s core n = none := by
    unfold firstFill
    dsimp only
    split
    · rfl
    next f fs hf =>
      obtain ⟨e, he, hfe⟩ := List.mem_filterMap.1 (hf ▸ List.mem_cons_self : f ∈ _)
      have := List.any_eq_false.1 h e he
      split at hfe
      next hw => simp_all
      · cases hfe
  cases fuel with
  | zero => rfl
  | succ fuel =>
    unfold lockFills
    dsimp only
    rw [hnone]
    split <;> rfl

theorem foldl_eq_of_mem {α β : Type} {f : β → α → β} {b : β} : ∀ {l : List α}, (∀ e ∈ l, f b e = b) → l.foldl f b = b
  | [], _ => rfl
  | e :: l, h => by
    rw [List.foldl_cons, h e List.mem_cons_self]
    exact foldl_eq_of_mem fun e he => h e (List.mem_cons_of_mem _ he)

/-- No team that waits for a phase is woken at a lock that no team waits at. -/
theorem lockWakes_unawaited {s : State} {core n : Nat} (h : lockAwaited s core n = false) : lockWakes s core n = s := by
  unfold lockWakes
  refine foldl_eq_of_mem fun e he => ?_
  have := List.any_eq_false.1 h e he
  split
  next hw =>
    simp only [hw, beq_iff_eq, Bool.and_eq_true] at this
    rw [if_neg fun hc => this ⟨hc.1, hc.2.1⟩]
  · rfl

/-- A step of a lock that no team waits at changes its own lock only, where that does not break (R268). -/
theorem lockStep_unawaited {s : State} {core n : Nat} (hb : ¬ lockBreaks (getLock s core n)) (hw : lockAwaited s core n = false) :
    lockStep s core n = setLock s core n (lockAfter (getLock s core n)) ∨
      lockStep s core n = s ∧ lockAfter (getLock s core n) = getLock s core n := by
  have hstep : ∀ s1, lockEval s core n = s1 → lockAwaited s1 core n = false → lockStep s core n = s1 := fun s1 e h1 => by
    rw [lockStep, e, lockFills_unawaited h1, lockWakes_unawaited h1]
  by_cases h : (getLock s core n).penda = 0 ∧ (getLock s core n).bdone = (getLock s core n).bexp
  · exact .inl (hstep _ (lockEval_completes h) hw)
  · refine .inr ⟨hstep _ (lockEval_waits ?_) hw, if_neg h⟩
    unfold lockBreaks at hb
    omega

/-! ## A LOCK form completes -/

/-- A team with a result in its uniform register. -/
def withResult (t : Team) : Option (Nat × W64) → Team
  | some (k, w) => setK t k w
  | none => t

/-- A team at a LOCK form's boundary with the form's result, which has joined a view. -/
def formTeam (s : State) (t : Team) (a : Access) (res : Option (Nat × W64)) (v : View) : Team :=
  { joined (bounding s t a) v with k := (withResult t res).k }

/-- What a LOCK form joins, and whether it empties its core's L1. -/
def acqOf (acq : Option (Bool × View)) : Bool × View := acq.getD (false, ⟨[], 0⟩)

/-- The release that an arrival at a lock is, of a team that has joined a view (R276). -/
def releaseAfter (s : State) (t : Team) (acq : Option (Bool × View)) : Rel :=
  ⟨teamParty t, .dev, ⟨(joined (ended t) (acqOf acq).2).seen, max (getCore s t.core).clock (acqOf acq).2.clock⟩, false⟩

/-- A LOCK form of team `u`, which is `t`, is under way in `s1`: its lock is `l`, its result is written, and what it acquires is joined. -/
def FormAt (s s1 : State) (u : Nat) (t : Team) (a : Access) (n : Nat) (l : Lock) (res : Option (Nat × W64)) (acq : Option (Bool × View)) :
    Prop :=
  ∃ L, TeamAndCore s s1 u t.core (formTeam s t a res (acqOf acq).2)
      { acquiredCore (acqOf acq).1 (acqOf acq).2 (getCore s t.core) with locks := L } ∧
    ∀ m, tabGet Lock.reset L m = if m = n then l else getLock s t.core m

section
variable {s s1 s2 : State} {u n : Nat} {t : Team} {a : Access} {l l1 : Lock} {res : Option (Nat × W64)} {acq : Option (Bool × View)}

/-! What the form's team keeps of the team that issued. -/

@[simp] theorem formTeam_status (v : View) : (formTeam s t a res v).status = t.status := by
  simp only [formTeam, joined, bounding, ended, melded, latch]
@[simp] theorem formTeam_trace (v : View) : (formTeam s t a res v).trace = t.trace := by
  simp only [formTeam, joined, bounding, ended, melded, latch]
@[simp] theorem formTeam_stepOnce (v : View) : (formTeam s t a res v).stepOnce = t.stepOnce := by
  simp only [formTeam, joined, bounding, ended, melded, latch]
@[simp] theorem formTeam_uid (v : View) : (formTeam s t a res v).uid = t.uid := by
  simp only [formTeam, joined, bounding, ended, melded, latch]
@[simp] theorem formTeam_core (v : View) : (formTeam s t a res v).core = t.core := by
  simp only [formTeam, joined, bounding, ended, melded, latch]
@[simp] theorem formTeam_flow (v : View) : (formTeam s t a res v).flow = t.flow := by
  simp only [formTeam, joined, bounding, ended, melded, latch]
@[simp] theorem formTeam_lanes (v : View) : (formTeam s t a res v).lanes = t.lanes := by
  simp only [formTeam, joined, bounding, ended, melded, latch]
@[simp] theorem formTeam_cur (v : View) : (formTeam s t a res v).cur = s.issue := by
  simp only [formTeam, joined, bounding, ended, melded, latch]
@[simp] theorem formTeam_k (v : View) : (formTeam s t a res v).k = (withResult t res).k := rfl
@[simp] theorem formTeam_seen (v : View) : (formTeam s t a res v).seen = (joined (ended t) v).seen := by
  simp only [formTeam, joined, bounding, ended, melded, latch]

/-- Nothing that single lanes have seen is kept apart (R387). -/
theorem formTeam_whole (v : View) : (formTeam s t a res v).laneSeen.filter (fun e => e.2 != silentLane) = [] := by
  have e : (formTeam s t a res v).laneSeen = t.laneSeen.filter fun e => e.2 == silentLane := by
    simp only [formTeam, joined, bounding, ended, melded, latch]
  rw [e, List.filter_filter, List.filter_eq_nil_iff]
  simp

theorem formTeam_none : formTeam s t a none ⟨[], 0⟩ = bounding s t a := by
  rw [formTeam, joined_none]
  simp only [withResult, bounding, ended, melded, latch]

/-- A team that acquires has joined one view more. -/
theorem joined_formTeam (v : View) : joined (formTeam s t a res ⟨[], 0⟩) v = formTeam s t a res v := by
  rw [formTeam, joined_none]
  simp only [joined, formTeam]

theorem acquires_formTeam (v : View) (sc : Scope) (rels : List Rel) : acquires (formTeam s t a res v) sc rels = acquires t sc rels := by
  simp only [acquires, teamParty, formTeam_uid, formTeam_core]

/-- A write of k0 is discarded (R41), whichever of the two registers is k0. -/
theorem kreg_setK_own (t : Team) (n m : Nat) (w : W64) : kreg (setK t n w) m = if m = n ∧ m ≠ 0 then w else kreg t m := by
  rw [kreg_setK]
  by_cases h : m = n <;> simp [h]

theorem setK_eq (t : Team) (k : Nat) (w : W64) : setK t k w = { t with k := (setK t k w).k } := by
  unfold setK
  split <;> rfl

theorem setK_formTeam (v : View) (k : Nat) (w : W64) : setK (formTeam s t a none v) k w = formTeam s t a (some (k, w)) v := by
  have hk : (setK (formTeam s t a none v) k w).k = (setK t k w).k := by
    by_cases h : k = 0
    · simp only [setK, h, if_true, formTeam_k, withResult]
    · simp only [setK, h, if_false, formTeam_k, withResult]
  rw [setK_eq, hk]
  simp only [formTeam, withResult]

theorem formTeam_ready (h : Issuing s u t) (v : View) (w : Wait) : (formTeam s t a res v).status ≠ .waiting w := by
  simp [h.ready]

theorem bounding_ready (h : Issuing s u t) (w : Wait) : (bounding s t a).status ≠ .waiting w := by
  rw [← formTeam_none]
  exact formTeam_ready h _ w

/-- A form begins. -/
theorem FormAt.start (h : Issuing s u t) :
    FormAt s (setTeam s u (bounding s t a)) u t a n (getLock s t.core n) none none := by
  have hd := (TeamAndCore.refl (core := t.core) h.team).putTeam (formTeam_ready (a := a) (res := none) h ⟨[], 0⟩)
  rw [formTeam_none] at hd
  refine ⟨(getCore s t.core).locks, ?_, fun m => ?_⟩
  · rw [acqOf, Option.getD_none, acquiredCore_none, formTeam_none]
    exact hd
  · split
    next hm => rw [hm]; rfl
    · rfl

/-- A form's lock changes. -/
theorem FormAt.putLock (h : FormAt s s1 u t a n l res acq) (l1 : Lock) : FormAt s (setLock s1 t.core n l1) u t a n l1 res acq := by
  obtain ⟨L, hd, hl⟩ := h
  refine ⟨tabSet Lock.reset L n l1, ?_, fun m => ?_⟩
  · rw [setLock, modCore_eq, hd.own]
    exact hd.putCore _
  · rw [tabGet_set, hl]
    split <;> rfl

/-- A form's core is written as it is. -/
theorem FormAt.putCore (h : FormAt s s1 u t a n l res acq) : FormAt s (setCore s1 t.core (getCore s1 t.core)) u t a n l res acq := by
  obtain ⟨L, hd, hl⟩ := h
  rw [hd.own]
  exact ⟨L, hd.putCore _, hl⟩

/-- A form writes its result. -/
theorem FormAt.putResult (hi : Issuing s u t) (h : FormAt s s1 u t a n l none acq) (k : Nat) (w : W64) :
    FormAt s (modTeam s1 u fun t => setK t k w) u t a n l (some (k, w)) acq := by
  obtain ⟨L, hd, hl⟩ := h
  refine ⟨L, ?_, hl⟩
  rw [modTeam_eq, hd.team_eq, setK_formTeam]
  exact hd.putTeam (formTeam_ready hi _)

/-- A form acquires (R276). -/
theorem FormAt.acquired (hi : Issuing s u t) (h : FormAt s s1 u t a n l res none) (sc : Scope) (rels : List Rel) :
    FormAt s (acquire s1 u sc rels) u t a n l res (some (decide (sc ≠ .team), acquires t sc rels)) := by
  obtain ⟨L, hd, hl⟩ := h
  rw [acqOf, Option.getD_none, acquiredCore_none] at hd
  have h2 := hd.acquired (formTeam_core _) (formTeam_ready hi _) sc rels
  rw [joined_formTeam, acquires_formTeam, acquiredCore_locks] at h2
  exact ⟨L, h2, hl⟩

/-- What a team releases while its form is under way (R276). -/
theorem FormAt.arrived (h : FormAt s s1 u t a n l res acq) (l1 : Lock) : lockArrived s1 u l1 = lockReleased l1 (releaseAfter s t acq) := by
  obtain ⟨L, hd, hl⟩ := h
  rw [lockArrived, teamRelease, teamView, hd.team_eq]
  simp only [formTeam_whole, List.map_nil, joinSeen_nil, formTeam_core, hd.own, teamParty, formTeam_uid, formTeam_seen]
  rfl

theorem Moved.same {t t' : Team} (h : Moved t t') : t'.uid = t.uid ∧ t'.core = t.core ∧ t'.seen = t.seen ∧ t'.k = t.k := by
  refine ⟨?_, ?_, ?_, ?_⟩ <;> rw [h]

/-- A form's team that has moved on has ended its group, with the form's result and what it has joined. -/
theorem onward_formTeam {v : View} {t2 : Team} (hm : Moved (formTeam s t a res v) t2) :
    Onward s { joined (ended t) v with k := t2.k, snap := t2.snap } t2 := by
  have hk := hm.same.2.2.2
  unfold Moved at hm
  refine hm.trans ?_
  rw [hk]
  simp only [formTeam, joined, bounding, ended, melded, latch]

/-- A FORM COMPLETES: its team goes on, and after that no more than its own lock changes. -/
theorem FormAt.completes {c : Instr} {lock : Rel → Lock} (hi : Issuing s u t) (h : FormAt s s1 u t a n l res acq)
    (he : exec c s = done s2) (h2 : s2 = fallThrough s1 u true ∧ lock (releaseAfter s t acq) = l ∨
      s2 = setLock (fallThrough s1 u true) t.core n (lock (releaseAfter s t acq))) :
    LockFormDone c s u t n lock res acq := by
  obtain ⟨L, hd, hl⟩ := h
  obtain ⟨t2, hd2, hm, hsnap, hgo⟩ := hd.goesOn (by rw [formTeam_trace]; exact hi.untraced) (by rw [formTeam_stepOnce]; exact hi.alone)
  obtain ⟨L2, hd3, hl2⟩ : ∃ L2, TeamAndCore s s2 u t.core t2
      { acquiredCore (acqOf acq).1 (acqOf acq).2 (getCore s t.core) with locks := L2 } ∧
      ∀ m, tabGet Lock.reset L2 m = if m = n then lock (releaseAfter s t acq) else getLock s t.core m := by
    rcases h2 with ⟨rfl, e⟩ | rfl
    · exact ⟨L, hd2, e ▸ hl⟩
    · refine ⟨tabSet Lock.reset L n (lock (releaseAfter s t acq)), ?_, fun m => ?_⟩
      · rw [setLock, modCore_eq, hd2.own]
        exact hd2.putCore _
      · rw [tabGet_set, hl]
        split <;> rfl
  obtain ⟨huid, hcore, hseen, hk⟩ := hm.same
  have harr : arrivalOf s2 t2 = releaseAfter s t acq := by
    simp only [arrivalOf, teamParty, huid, hcore, hseen, formTeam_uid, formTeam_core, formTeam_seen, hd3.own]
    rfl
  simp only [NoLoops, lanesOf, formTeam_flow, formTeam_lanes, formTeam_cur] at hgo
  refine ⟨s2, t2, by rw [he, done_of_quiet (hd3.quiet hi.quiet)], hd3.team, ⟨onward_formTeam hm, ?_⟩, hsnap, hd3.rest, hd3.others,
    fun m => ?_, fun m => ?_, fun m => ?_⟩
  · simp only [GoesOn, NoLoops, lanesOf, joined, ended, melded]
    exact hgo
  · split
    next e =>
      subst e
      rw [hd3.own]
      rfl
    next e => exact hd3.cores m e
  · rw [getLock, hd3.own, harr]
    exact hl2 m
  · have e : kreg t2 m = kreg (withResult t res) m := by simp only [kreg, hk, formTeam_k]
    rw [e]
    cases res with
    | none => rfl
    | some r => exact kreg_setK_own t r.1 m r.2

/-- A FORM THAT CHANGES ITS LOCK COMPLETES: the lock's step follows the end of its group (R268). -/
theorem FormAt.lockDone_completes {c : Instr} {lock : Rel → Lock} (hi : Issuing s u t) (h : FormAt s s1 u t a n l none acq)
    (hb : ¬ lockBreaks l1) (hw : lockAwaited s t.core n = false) (he : exec c s = lockDone s1 u t.core n l1 res)
    (hl : lock (releaseAfter s t acq) = lockAfter l1) : LockFormDone c s u t n lock res acq := by
  obtain ⟨s3, hs3, h3⟩ : ∃ s3, lockDone s1 u t.core n l1 res = done (lockStep (fallThrough (setLock s3 t.core n l1) u true) t.core n) ∧
      FormAt s s3 u t a n l res acq := by
    cases res with
    | none => exact ⟨s1, rfl, h⟩
    | some r => exact ⟨_, rfl, h.putResult hi r.1 r.2⟩
  have h4 := h3.putLock l1
  obtain ⟨L, hd, hL⟩ := id h4
  obtain ⟨t2, hd2, _⟩ := hd.goesOn (by rw [formTeam_trace]; exact hi.untraced) (by rw [formTeam_stepOnce]; exact hi.alone)
  have hg : getLock (fallThrough (setLock s3 t.core n l1) u true) t.core n = l1 := by
    rw [getLock, hd2.own]
    exact (hL n).trans (if_pos rfl)
  refine h4.completes hi (he.trans hs3) ?_
  rcases lockStep_unawaited (by rw [hg]; exact hb) (hd2.unawaited _ _ hw) with e | ⟨e, ha⟩
  · exact .inr (by rw [e, hg, hl])
  · rw [hg] at ha
    exact .inl ⟨e, hl.trans ha⟩

/-- A form that may wait holds its team (R277). -/
theorem waits_of {c : Instr} {w : Wait} (hi : Issuing s u t) (he : exec c s = done (waitFor (setTeam s u (bounding s t a)) u w)) :
    Waits c s u t w := by
  have hb : (bounding s t a).stepOnce = false := hi.alone
  have hw : waitFor (setTeam s u (bounding s t a)) u w = setTeam s u { bounding s t a with status := .waiting w } := by
    unfold waitFor
    simp [hb]
  rw [hw, done_of_quiet (hi.quiet.setTeam ..)] at he
  refine ⟨_, _, he, by rw [find?_setTeam, if_pos rfl], ⟨rfl, fun m hm => by rw [find?_setTeam, if_neg hm]⟩, rfl, ?_⟩
  simp only [bounding, ended, melded, latch]

theorem lockWaited_unwoken (k : State → Out) (hwk : t.woken = false) :
    lockWaited (setTeam s u (bounding s t a)) u k = k (setTeam s u (bounding s t a)) := by
  have hb : (bounding s t a).woken = false := hwk
  rw [lockWaited, getTeam_setTeam, if_pos rfl, hb]
  rfl
end

/-! ## The forms (R271) -/

/-- The releases that count toward a phase of a lock (R276). -/
def phaseRels (l : Lock) (p : W32) : List Rel := (l.rels.filter fun e => e.1 == p.toNat).map (·.2)

theorem lockAcquire_eq (s : State) (u : Nat) (sc : Scope) (l : Lock) (p : W32) : lockAcquire s u sc l p = acquire s u sc (phaseRels l p) := rfl

/-- An operand word as the model hands it on. -/
theorem operand_toNat {x : W64} {w : Nat} (hw : x.toNat = w) : (BitVec.ofNat 64 w).toNat = w := by
  rw [← hw, BitVec.ofNat_toNat, BitVec.setWidth_eq]

/-- With no abandoned command bound to a lock, none lets go of it (R275). -/
theorem copyUnbind_none {s : State} {core n : Nat} (h : ∀ q ∈ (getCore s core).copyQ, ∀ c ∈ q, c.gone = true → c.lock ≠ n) :
    copyUnbind s core n = setCore s core (getCore s core) := by
  unfold copyUnbind
  dsimp only
  have hq : (getCore s core).copyQ.map (·.map fun (c : CopyCmd) => if c.gone ∧ c.lock = n then { c with lock := 64 } else c) =
      (getCore s core).copyQ := by
    refine (List.map_congr_left fun q hq => ?_).trans (List.map_id _)
    refine (List.map_congr_left fun c hc => ?_).trans (List.map_id _)
    exact if_neg fun e => h q hq c hc e.1 e.2
  rw [modCore_eq, hq]

section
variable {s : State} {u : Nat} {t : Team} (h : Issuing s u t) (hl : t.log = []) (hz : t.zeros = []) {a n : KReg} (ha : a.toNat + 1 ≤ 383)
  {w : Nat} (hw : (kreg t a.toNat).toNat = w) {l : Lock} (hlk : getLock s t.core n.toNat = l)
include h hl hz ha hw hlk

theorem lockInit_done (hok : initWordOk w = true) (hst : l.st = .invalid) :
    LockFormDone (.lockInit a n) s u t n.toNat (fun _ =>
      { l with na := field w 0 16, nd := field w 16 16, gate := bitAt w 32, penda := field w 0 16, st := .valid }) none none := by
  subst hw hlk
  refine ((FormAt.start (a := lockAcc a true false) h).putLock _).completes h ?_ (.inl ⟨rfl, rfl⟩)
  show execLockInit a n s = _
  rw [execLockInit, lockOp_issuing h hl hz ha hok]
  simp only [if_true, getLock_setTeam, show (latch s t (lockAcc a true false)).core = t.core from rfl, hst, ne_eq, not_true_eq_false,
    if_false]

theorem lockArrive_done (hwait : lockAwaited s t.core n.toNat = false) (hok : arriveWordOk w = true) (hgv : bitAt w 24 = false)
    (hst : l.st = .valid) (hfill : ¬ (l.gate = true ∧ l.phase.toNat % 2 = 1)) (hcnt : max 1 (field w 0 16) ≤ l.penda)
    (hb : ¬ lockBreaks { l with penda := l.penda - max 1 (field w 0 16) }) :
    LockFormDone (.lockArrive a n) s u t n.toNat (fun r => lockAfter (lockReleased { l with penda := l.penda - max 1 (field w 0 16) } r))
      (some (a.toNat + 1, l.phase.setWidth 64)) none := by
  have h0 := FormAt.start (a := lockAcc a true true) (n := n.toNat) h
  refine h0.lockDone_completes h (l1 := lockReleased { l with penda := l.penda - max 1 (field w 0 16) } (releaseAfter s t none)) hb hwait
    ?_ rfl
  show execLockArrive a n s = _
  rw [execLockArrive, lockOp_issuing h hl hz ha (by rw [if_pos rfl, hw]; exact hok)]
  simp only [if_true, hw, hgv, lockNamed, Bool.not_false, getLock_setTeam, show (latch s t (lockAcc a true true)).core = t.core from rfl, hlk,
    h0.arrived, BitVec.ofNat_toNat]
  have hgoes : ¬ (l.st ≠ .valid ∨ (l.gate = true ∧ bitAt l.phase.toNat 0 = true) ∨ l.penda < max 1 (field w 0 16)) := by
    simp only [hst, bitAt_zero, decide_eq_true_eq, ne_eq, not_true_eq_false, false_or, not_or]
    exact ⟨hfill, by omega⟩
  rw [if_neg hgoes, if_neg (by simp [lockStrange])]

theorem lockExpect_done (hwait : lockAwaited s t.core n.toNat = false) (hok : byteWordOk w = true) (hst : l.st = .valid)
    (hg : l.gate = false) (hgv : l.gv = false) {l1 : Lock} (hl1 : lockFillStep l (BitVec.ofNat 64 w) = some l1) (hb : ¬ lockBreaks l1) :
    LockFormDone (.lockExpect a n) s u t n.toNat (fun r => lockAfter (if bitAt w 63 then lockReleased l1 r else l1)) none none := by
  have h0 := FormAt.start (a := lockAcc a true false) (n := n.toNat) h
  refine h0.lockDone_completes h (l1 := if bitAt w 63 then lockReleased l1 (releaseAfter s t none) else l1)
    (by split <;> exact hb) hwait ?_ rfl
  show execLockExpect a n s = _
  rw [execLockExpect, lockOp_issuing h hl hz ha (by rw [if_pos rfl, hw]; exact hok)]
  simp only [if_true, hw, getLock_setTeam, show (latch s t (lockAcc a true false)).core = t.core from rfl, hlk, h0.arrived, hl1, hst, hg, hgv]
  simp

theorem lockWait_done (sc : Scope) (hok : waitWordOk w = true) (hgv : bitAt w 40 = false) (hst : l.st = .valid) (hwk : t.woken = false)
    (hdone : phaseDone l (BitVec.ofNat 32 w) = true) :
    LockFormDone (.lockWait a n sc) s u t n.toNat (fun _ => l) none
      (some (decide (sc ≠ .team), acquires t sc (phaseRels l (BitVec.ofNat 32 w)))) := by
  have h0 := FormAt.start (a := lockAcc a true false) (n := n.toNat) h
  refine (h0.acquired h sc (phaseRels l (BitVec.ofNat 32 w))).completes h ?_ (.inl ⟨rfl, hlk.symm⟩)
  show execLockWait a n sc s = _
  rw [execLockWait, lockOp_issuing h hl hz ha (by rw [if_pos rfl, hw]; exact hok), lockWaited_unwoken _ hwk]
  simp only [if_true, hw, hgv, lockNamed, Bool.not_false, getLock_setTeam, show (latch s t (lockAcc a true false)).core = t.core from rfl,
    hlk, hst, hdone, lockAcquire_eq]
  simp [lockStrange]

theorem lockWait_waits (sc : Scope) (hok : waitWordOk w = true) (hgv : bitAt w 40 = false) (hst : l.st = .valid) (hwk : t.woken = false)
    (hdone : phaseDone l (BitVec.ofNat 32 w) = false) :
    Waits (.lockWait a n sc) s u t (.lockPhase t.core n.toNat (field w 0 32) sc) := by
  refine waits_of (a := lockAcc a true false) h ?_
  show execLockWait a n sc s = _
  rw [execLockWait, lockOp_issuing h hl hz ha (by rw [if_pos rfl, hw]; exact hok), lockWaited_unwoken _ hwk]
  simp only [if_true, hw, hgv, lockNamed, Bool.not_false, getLock_setTeam, show (latch s t (lockAcc a true false)).core = t.core from rfl,
    hlk, hst, hdone]
  simp [lockStrange]

theorem lockTry_done (sc : Scope) (hok : waitWordOk w = true) (hgv : bitAt w 40 = false) (hst : l.st = .valid) :
    LockFormDone (.lockTry a n sc) s u t n.toNat (fun _ => l)
      (some (a.toNat + 1, BitVec.ofNat 64 ((if phaseDone l (BitVec.ofNat 32 w) then 2 ^ 63 else 0) + l.bdone % 2 ^ 40)))
      (if phaseDone l (BitVec.ofNat 32 w) then some (decide (sc ≠ .team), acquires t sc (phaseRels l (BitVec.ofNat 32 w))) else none) := by
  have h0 := FormAt.start (a := lockAcc a true true) (n := n.toNat) h
  have h1 := h0.putResult h (a.toNat + 1)
    (BitVec.ofNat 64 ((if phaseDone l (BitVec.ofNat 32 w) then 2 ^ 63 else 0) + field l.bdone 0 40))
  have he : exec (.lockTry a n sc) s = done (fallThrough
      (if phaseDone l (BitVec.ofNat 32 w) then acquire (modTeam (setTeam s u (bounding s t (lockAcc a true true))) u fun t =>
          setK t (a.toNat + 1) (BitVec.ofNat 64 ((if phaseDone l (BitVec.ofNat 32 w) then 2 ^ 63 else 0) + field l.bdone 0 40))) u sc
            (phaseRels l (BitVec.ofNat 32 w))
        else modTeam (setTeam s u (bounding s t (lockAcc a true true))) u fun t =>
          setK t (a.toNat + 1) (BitVec.ofNat 64 ((if phaseDone l (BitVec.ofNat 32 w) then 2 ^ 63 else 0) + field l.bdone 0 40)))
      u true) := by
    show execLockTry a n sc s = _
    rw [execLockTry, lockOp_issuing h hl hz ha (by rw [if_pos rfl, hw]; exact hok)]
    simp only [if_true, hw, hgv, lockNamed, Bool.not_false, getLock_setTeam, show (latch s t (lockAcc a true true)).core = t.core from rfl,
      hlk, hst, lockAcquire_eq]
    simp [lockStrange]
  have hb : field l.bdone 0 40 = l.bdone % 2 ^ 40 := by simp [field]
  rw [hb] at h1 he
  split
  next hd =>
    rw [hd] at h1 he
    exact (h1.acquired h sc _).completes h he (.inl ⟨rfl, hlk.symm⟩)
  next hd =>
    rw [Bool.not_eq_true] at hd
    rw [hd] at h1 he
    exact h1.completes h he (.inl ⟨rfl, hlk.symm⟩)

omit hw in
theorem lockInval_done (hwait : lockAwaited s t.core n.toNat = false) (heng : l.eng = 0)
    (hq : ∀ q ∈ (getCore s t.core).copyQ, ∀ c ∈ q, c.gone = true → c.lock ≠ n.toNat) :
    LockFormDone (.lockInval a n) s u t n.toNat (fun _ => { Lock.reset with joinc := l.joinc, joined := l.joined }) none none := by
  have h0 := FormAt.start (a := lockAcc a false false) (n := n.toNat) h
  refine (h0.putCore.putLock { Lock.reset with joinc := l.joinc, joined := l.joined }).completes h ?_ (.inl ⟨rfl, rfl⟩)
  have hwait2 := lockAwaited_setTeam (u := u) (bounding_ready (a := lockAcc a false false) h) hwait
  show execLockInval a n s = _
  rw [execLockInval, lockOp_issuing h hl hz ha rfl]
  simp only [getLock_setTeam, show (latch s t (lockAcc a false false)).core = t.core from rfl, hlk, heng, hwait2]
  rw [copyUnbind_none (by simpa using hq)]
  simp

theorem lockFill_done (hwait : lockAwaited s t.core n.toNat = false) (hok : byteWordOk w = true) (hwk : t.woken = false)
    (hst : l.st = .valid) (hg : l.gate = true) (hgv : l.gv = false) (heven : l.phase.toNat % 2 = 0) {l1 : Lock}
    (hl1 : lockFillStep l (BitVec.ofNat 64 w) = some l1) (hb : ¬ lockBreaks l1) :
    LockFormDone (.lockFill a n) s u t n.toNat (fun r => lockAfter (if bitAt w 63 then lockReleased l1 r else l1))
      (some (a.toNat + 1, l.phase.setWidth 64)) (some (true, acquires t .dev (phaseRels l (l.phase - 1#32)))) := by
  have h0 := (FormAt.start (a := lockAcc a true true) (n := n.toNat) h).acquired h .dev (phaseRels l (l.phase - 1#32))
  refine h0.lockDone_completes h (l1 := if bitAt w 63 then lockReleased l1 (releaseAfter s t _) else l1)
    (by split <;> exact hb) hwait ?_ rfl
  have hodd : bitAt l.phase.toNat 0 = false := by rw [bitAt_zero, heven]; rfl
  show execLockFill a n s = _
  rw [execLockFill, lockOp_issuing h hl hz ha (by rw [if_pos rfl, hw]; exact hok), lockWaited_unwoken _ hwk]
  simp only [if_true, hw, getLock_setTeam, show (latch s t (lockAcc a true true)).core = t.core from rfl, hlk, hst, hg, hgv, hodd, hl1,
    lockFillSync, lockAcquire_eq, h0.arrived, operand_toNat hw, BitVec.ofNat_toNat]
  simp

theorem lockFill_waits (hok : byteWordOk w = true) (hwk : t.woken = false)
    (hst : l.st = .valid) (hg : l.gate = true) (hgv : l.gv = false) (hodd : l.phase.toNat % 2 = 1) :
    Waits (.lockFill a n) s u t (.lockFill n.toNat (a.toNat + 1) (BitVec.ofNat 64 w) s.free) := by
  refine waits_of (a := lockAcc a true true) h ?_
  have hodd : bitAt l.phase.toNat 0 = true := by rw [bitAt_zero, hodd]; rfl
  show execLockFill a n s = _
  rw [execLockFill, lockOp_issuing h hl hz ha (by rw [if_pos rfl, hw]; exact hok), lockWaited_unwoken _ hwk]
  simp only [if_true, hw, getLock_setTeam, show (latch s t (lockAcc a true true)).core = t.core from rfl, hlk, hst, hg, hgv, hodd]
  simp

omit hw in
theorem lockDrain_done (hwait : lockAwaited s t.core n.toNat = false) (hst : l.st = .valid) (hg : l.gate = true) (hgv : l.gv = false)
    (hodd : l.phase.toNat % 2 = 1) (hp : l.penda ≠ 0) (hb : ¬ lockBreaks { l with penda := l.penda - 1 }) :
    LockFormDone (.lockDrain a n) s u t n.toNat (fun r => lockAfter (lockReleased { l with penda := l.penda - 1 } r))
      (some (a.toNat + 1, l.phase.setWidth 64)) none := by
  have h0 := FormAt.start (a := lockAcc a false true) (n := n.toNat) h
  refine h0.lockDone_completes h (l1 := lockReleased { l with penda := l.penda - 1 } (releaseAfter s t none)) hb hwait ?_ rfl
  have hodd : bitAt l.phase.toNat 0 = true := by rw [bitAt_zero, hodd]; rfl
  show execLockDrain a n s = _
  rw [execLockDrain, lockOp_issuing h hl hz ha rfl]
  simp only [getLock_setTeam, show (latch s t (lockAcc a false true)).core = t.core from rfl, hlk, hst, hg, hgv, hodd, h0.arrived,
    BitVec.ofNat_toNat]
  simp [hp]
end

/-! ## A lock's releases and phases -/

/-- An arrival's release counts toward the phase that its lock is in, beside those of the same party (R276). -/
theorem lockReleased_holds (l : Lock) (r : Rel) : ∃ q, (l.phase.toNat, q) ∈ (lockReleased l r).rels ∧ q.party = r.party ∧
    q.scope = r.scope ∧ q.always = r.always ∧ (∀ c ∈ r.view.seen, c ∈ q.view.seen) ∧ r.view.clock ≤ q.view.clock := by
  unfold lockReleased
  dsimp only
  split
  next hany =>
    obtain ⟨e, he, hsame⟩ := List.any_eq_true.1 hany
    refine ⟨{ r with view := joinView e.2.view r.view }, List.mem_map.2 ⟨e, he, if_pos hsame⟩, rfl, rfl, rfl, fun c hc => ?_, ?_⟩
    · simp [hc]
    · simp
  · exact ⟨r, by simp, rfl, rfl, rfl, fun _ hc => hc, le_refl _⟩

/-- A phase is done from the next one on, modulo 2^32 (R268). -/
theorem phaseDone_near (l : Lock) : phaseDone l l.phase = false ∧ phaseDone l (l.phase + 1#32) = false ∧ phaseDone l (l.phase - 1#32) = true := by
  refine ⟨?_, ?_, ?_⟩ <;> simp [phaseDone]

/-- A lock that has broken is BROKEN (R275). -/
theorem lockBreak_broken (s : State) (core n : Nat) : (getLock (lockBreak s core n) core n).st = .broken := by
  have hpush : ∀ (s : State) (r : FaultRec), (pushRec s r).cores = s.cores := fun s r => by
    unfold pushRec
    dsimp only
    split_ifs <;> rfl
  have hcores : (lockBreak s core n).cores = (setLock s core n { getLock s core n with st := .broken }).cores := hpush ..
  have hlock : getLock (lockBreak s core n) core n = getLock (setLock s core n { getLock s core n with st := .broken }) core n := by
    simp only [getLock, getCore, hcores]
  rw [hlock, getLock_setLock, if_pos rfl]

/-- Settles O29, form by form on the state at the form's boundary. -/
theorem lockForms : Obligations.LockForms := by
  refine ⟨?_, ?_, ?_, phaseDone_near⟩
  · intro s u t h hl hz a n ha _ hwait
    exact ⟨lockInit_done h hl hz ha rfl rfl, lockArrive_done h hl hz ha rfl rfl hwait,
      fun hok hst hg hgv l1 => lockExpect_done h hl hz ha rfl rfl hwait hok hst hg hgv,
      fun sc hok hgv hst => ⟨lockWait_done h hl hz ha rfl rfl sc hok hgv hst, lockWait_waits h hl hz ha rfl rfl sc hok hgv hst,
        lockTry_done h hl hz ha rfl rfl sc hok hgv hst⟩,
      lockInval_done h hl hz ha rfl hwait,
      fun hok hwk hst hg hgv => ⟨fun heven l1 => lockFill_done h hl hz ha rfl rfl hwait hok hwk hst hg hgv heven,
        lockFill_waits h hl hz ha rfl rfl hok hwk hst hg hgv⟩,
      lockDrain_done h hl hz ha rfl hwait⟩
  · intro s core n
    refine ⟨fun hc => ?_, lockEval_waits, fun hb => ?_⟩
    · rw [lockEval_completes hc, getLock_setLock, if_pos rfl, lockAfter, if_pos hc]
      exact ⟨rfl, rfl, rfl, rfl⟩
    · rw [lockEval_breaks hb]
      exact lockBreak_broken ..
  · exact fun l r => ⟨rfl, lockReleased_holds l r⟩

end Sys2Proof.Machine

namespace Sys2Proof.Machine

/-! # Containment and management (O53)

The statement fails in its clause on the thermal trip. It is about every state, and so about one in which a core that serves a context is
stopping with a record that names none: the halt of that core puts the record among those of the device (R407), the fifteen that wait there
become sixteen, and the report of the trip is dropped. The clause asks for some state that settles to the next one, so what settling keeps
has to show that none of these holds the report. -/

/-! ## What settling keeps where no record of the device could be appended (R407) -/

theorem tabPut_ne_nil {α : Type} (t : Tab α) (n : Nat) (v : α) : tabPut t n v ≠ [] := by
  cases t with
  | nil => simp [tabPut]
  | cons e t =>
    unfold tabPut
    split_ifs <;> simp

theorem setCtx_ctxs_ne_nil (s : State) (id : Nat) (c : Ctx) : (setCtx s id c).ctxs ≠ [] := tabPut_ne_nil _ _ _

theorem recDone_ctxs_ne_nil {s : State} (h : s.ctxs ≠ []) (r : FaultRec) (slot : Nat) : (recDone s r slot).ctxs ≠ [] := by
  unfold recDone
  split
  · exact h
  · dsimp only
    split
    · exact setCtx_ctxs_ne_nil _ _ _
    · exact h

/-- Trying the records of a context lists no context less. -/
theorem flushCtx_ctxs_ne_nil (fuel : Nat) {s : State} (h : s.ctxs ≠ []) (id : Nat) : (flushCtx fuel s id).ctxs ≠ [] := by
  induction fuel generalizing s with
  | zero => exact h
  | succ fuel ih =>
    unfold flushCtx
    dsimp only
    split
    · exact h
    · split
      · exact setCtx_ctxs_ne_nil _ _ _
      · split
        · exact setCtx_ctxs_ne_nil _ _ _
        · exact setCtx_ctxs_ne_nil _ _ _
        · exact ih (recDone_ctxs_ne_nil (setCtx_ctxs_ne_nil _ _ _) _ _)

/-- Trying the records of the device appends one, and then none is counted as lost any longer, or leaves them as they wait. -/
theorem flushDev_cases (fuel : Nat) (s : State) : (flushDev fuel s).evLost = 0 ∨
    (flushDev fuel s).evPend = s.evPend ∧ (flushDev fuel s).evLost = s.evLost ∧ (flushDev fuel s).ctxs = s.ctxs := by
  induction fuel generalizing s with
  | zero => exact .inr ⟨rfl, rfl, rfl⟩
  | succ fuel ih =>
    unfold flushDev
    split
    · exact .inr ⟨rfl, rfl, rfl⟩
    · split
      · exact .inr ⟨rfl, rfl, rfl⟩
      next r rest _ =>
        split
        · exact .inr ⟨rfl, rfl, rfl⟩
        next s1 _ _ =>
          exact .inl ((ih { s1 with evPend := rest ++ s1.evPend.drop (rest.length + 1), evLost := 0 }).elim id fun h => h.2.1)

/-- The records of one context are tried, as settling tries those of each. -/
def tryCtx (s : State) (e : Nat × Ctx) : State :=
  if ctxDue s e.1 then flushCtx 64 (modCtx s e.1 fun c => { c with due := true }) e.1 else s

theorem foldl_tryCtx_ctxs_ne_nil (l : List (Nat × Ctx)) {s : State} (h : s.ctxs ≠ []) : (l.foldl tryCtx s).ctxs ≠ [] := by
  induction l generalizing s with
  | nil => exact h
  | cons e l ih =>
    refine ih ?_
    unfold tryCtx
    split
    · exact flushCtx_ctxs_ne_nil _ (setCtx_ctxs_ne_nil _ _ _) _
    · exact h

theorem settle_cases (s : State) :
    settle s = s.ctxs.foldl tryCtx s ∨ settle s = flushDev 64 { s.ctxs.foldl tryCtx s with evDue := true } := by
  have e : settle s = if devDue (s.ctxs.foldl tryCtx s) then flushDev 64 { s.ctxs.foldl tryCtx s with evDue := true }
      else s.ctxs.foldl tryCtx s := rfl
  rw [e]
  split
  · exact .inr rfl
  · exact .inl rfl

/-- Where settling comes to a state with no context, in which records of the device have been lost, it has left the records of the device as
they waited. -/
theorem evPend_of_settle {s : State} (hc : (settle s).ctxs = []) (hl : (settle s).evLost ≠ 0) : (settle s).evPend = s.evPend := by
  have hkeep : (settle s).evPend = (s.ctxs.foldl tryCtx s).evPend ∧ (settle s).ctxs = (s.ctxs.foldl tryCtx s).ctxs := by
    rcases settle_cases s with h | h
    · rw [h]; exact ⟨rfl, rfl⟩
    · rcases flushDev_cases 64 { s.ctxs.foldl tryCtx s with evDue := true } with h0 | ⟨h1, _, h3⟩
      · exact absurd (h ▸ h0) hl
      · rw [h]; exact ⟨h1, h3⟩
  have hnil : s.ctxs = [] := by
    by_contra hne
    exact foldl_tryCtx_ctxs_ne_nil s.ctxs hne (hkeep.2 ▸ hc)
  rw [hkeep.1, hnil]
  rfl

/-! ## The state -/

/-- A record that names no context. -/
def strayRec : FaultRec := blankRec State.reset 0 0

/-- A device on which fifteen records wait, and a core that serves context 1 is stopping with a record that names no context. -/
def strayStop : State :=
  { State.reset with
    cores := [(0, { Core.reset with ctx := 1, stop := some ⟨none, 0, true, some strayRec⟩ })], evPend := List.replicate 15 strayRec }

/-- Whether a step leaves no context, a lost record of the device, and no report of a thermal trip. -/
def tripUnreported : Out → Bool
  | .next s => s.ctxs.isEmpty && s.evLost != 0 && s.evPend.all (·.cause != 0xA9)
  | _ => false

theorem strayStop_tripUnreported : tripUnreported (exec (.thermalTrip 106) strayStop) = true := by decide +kernel

/-- Refutes O53: a stop record that names no context takes the last place among the records of the device, and the report of the thermal
trip is dropped. -/
theorem not_containmentAndManagement : ¬ Obligations.ContainmentAndManagement := by
  unfold Obligations.ContainmentAndManagement
  rintro ⟨_, _, trips, _⟩
  obtain ⟨s1, he, _, _, hreport, _⟩ := (trips strayStop 106).2 (by decide)
  obtain ⟨r, hr, hcause⟩ := hreport (by decide)
  have h := strayStop_tripUnreported
  rw [he] at h
  simp only [tripUnreported, Bool.and_eq_true, List.isEmpty_iff, bne_iff_ne, List.all_eq_true] at h
  obtain ⟨⟨hctxs, hlost⟩, hall⟩ := h
  rw [evPend_of_settle hctxs hlost] at hall
  exact hall r hr hcause

end Sys2Proof.Machine

/-! The words of instructions (03 R37-R47): the fields of a word come back from it, layout by layout, and whatever decodes is sound. -/

namespace Sys2Proof

@[simp] theorem IntTy.ofCode_code (x : IntTy) : ofCode x.code = x := by cases x <;> rfl
@[simp] theorem ShKind.ofCode_code (x : ShKind) : ofCode x.code = x := by cases x <;> rfl
@[simp] theorem BitsOp.ofCode_code (x : BitsOp) : ofCode x.code = x := by cases x <;> rfl
@[simp] theorem Cond.ofCode_code (x : Cond) : ofCode x.code = some x := by cases x <;> rfl
@[simp] theorem LopiOp.ofCode_code (x : LopiOp) : ofCode x.code = x := by cases x <;> rfl
@[simp] theorem IaddkVar.ofCode_code (x : IaddkVar) : ofCode x.code = x := by cases x <;> rfl
@[simp] theorem MovkVar.ofCode_code (x : MovkVar) : ofCode x.code = some x := by cases x <;> rfl
@[simp] theorem DivRes.ofCode_code (x : DivRes) : ofCode x.code = some x := by cases x <;> rfl
@[simp] theorem RMode.ofCode_code (x : RMode) : ofCode x.code = x := by cases x <;> rfl
@[simp] theorem FTy.ofCode_code (x : FTy) : ofCode x.code = some x := by cases x <;> rfl
@[simp] theorem FCond.ofCode_code (x : FCond) : ofCode x.code = some x := by cases x <;> rfl
@[simp] theorem FsfFn.ofCode_code (x : FsfFn) : ofCode x.code = some x := by cases x <;> rfl
@[simp] theorem PackForm.ofCode_code (x : PackForm) : ofCode x.code = some x := by cases x <;> rfl
@[simp] theorem FclsTy.ofCode_code (x : FclsTy) : ofCode x.code = some x := by cases x <;> rfl
@[simp] theorem ShflKind.ofCode_code (x : ShflKind) : ofCode x.code = x := by cases x <;> rfl
@[simp] theorem VoteKind.ofCode_code (x : VoteKind) : ofCode x.code = x := by cases x <;> rfl
@[simp] theorem RdxOp.ofCode_code (x : RdxOp) : ofCode x.code = x := by cases x <;> rfl
@[simp] theorem LmovKind.ofCode_code (x : LmovKind) : ofCode x.code = some x := by cases x <;> rfl
@[simp] theorem Width.ofCode_code (x : Width) : ofCode x.code = x := by cases x <;> rfl
@[simp] theorem Pol.ofCode_code (x : Pol) : ofCode x.code = x := by cases x <;> rfl
@[simp] theorem Scope.ofCode_code (x : Scope) : ofCode x.code = some x := by cases x <;> rfl
@[simp] theorem FenceKind.ofCode_code (x : FenceKind) : ofCode x.code = some x := by cases x <;> rfl
@[simp] theorem AtomOp.ofCode_code (x : AtomOp) : ofCode x.code = x := by cases x <;> rfl
@[simp] theorem AtomTy.ofCode_code (x : AtomTy) : ofCode x.code = some x := by cases x <;> rfl
@[simp] theorem AtomOrd.ofCode_code (x : AtomOrd) : ofCode x.code = some x := by cases x <;> rfl
@[simp] theorem BrkCond.ofCode_code (x : BrkCond) : ofCode x.code = some x := by cases x <;> rfl
@[simp] theorem LoopCtr.ofCode_code (x : LoopCtr) : ofCode x.code = some x := by cases x <;> rfl
@[simp] theorem CopyForm.ofCode_code (x : CopyForm) : ofCode x.code = some x := by cases x <;> rfl
@[simp] theorem MmaFmt.ofCode_code (x : MmaFmt) : ofCode x.code = some x := by cases x <;> rfl
@[simp] theorem ScaleFmt.ofCode_code (x : ScaleFmt) : ofCode x.code = some x := by cases x <;> rfl
@[simp] theorem Sv.ofCode_code (x : Sv) : ofCode x.code = some x := by cases x <;> rfl
@[simp] theorem MulVar.ofCode_code (x : MulVar) : ofCode x.code = some x := by cases x <;> rfl

@[simp] theorem Dp4Form.ofCode_code (x : Dp4Form) : ofCode x.code = x := by
  cases x with
  | int a b s => revert a b s; decide
  | fp8 a b => revert a b; decide

/-- The scopes of ATOM and RED fit their pol field (R42). -/
theorem Scope.ofCode_pol {x : Scope} (h : x ≠ .team) : ofCode (0#1 ++ x.pol) = some x := by
  cases x with
  | team => exact absurd rfl h
  | dev | core | clu | sys => rfl

namespace Laws

/-- The hints in front of an instruction with the MOD payload `p` and the immediate hints `x`. -/
def hintsOf (p : BitVec 22) (x : ImmHints) : Hints := ⟨if p = 0#22 then none else some p, x, false⟩

@[simp] theorem hintsOf_bad (p : BitVec 22) (x : ImmHints) : (hintsOf p x).bad = false := rfl
@[simp] theorem hintsOf_imm (p : BitVec 22) (x : ImmHints) : (hintsOf p x).imm = x := rfl
@[simp] theorem hintsOf_md (x : ImmHints) : (hintsOf 0#22 x).md = none := rfl

@[simp] theorem hintsOf_payload (p : BitVec 22) (x : ImmHints) : (hintsOf p x).payload = p := by
  unfold hintsOf Hints.payload
  split
  · next h => simp [h]
  · rfl

@[simp] theorem hintsOf_noImm (p : BitVec 22) : (hintsOf p .none).noImm = true := rfl
@[simp] theorem hintsOf_plain : (hintsOf 0#22 .none).plain = true := by decide
@[simp] theorem hintsOf_immOnly (x : ImmHints) : (hintsOf 0#22 x).immOnly = true := by
  simp [Hints.immOnly, Hints.modOk]

/-- The hints of a group are collected in address order, and the word after them is the instruction (R47). -/
theorem decodeGroup_hints (hs : List W32) {w : W32} (hg : ∀ x ∈ hs, isGroupHint x = true) (hw : isGroupHint w = false)
    (h : Hints) (n : Nat) :
    decodeGroup (hs ++ [w]) h n = some (decodeWord w (hs.foldl Hints.push h), n + (hs ++ [w]).length) := by
  induction hs generalizing h n with
  | nil => simp [decodeGroup, hw]
  | cons x hs ih =>
    obtain ⟨hx, hg⟩ := List.forall_mem_cons.1 hg
    rw [List.cons_append, decodeGroup, if_pos hx, ih hg, List.foldl_cons, List.length_cons, Nat.add_assoc, Nat.add_comm 1]

theorem push_mod (p : BitVec 22) (x : ImmHints) : (modWords p ++ x.words).foldl Hints.push Hints.empty = hintsOf p x := by
  unfold modWords hintsOf
  by_cases hp : p = 0#22 <;> cases x <;>
    simp [hp, ImmHints.words, Hints.push, hintKind, hintPayload, Hints.empty]

/-- Words with the hints in their order decode as the last one does after them. -/
theorem decode_modImm {p : BitVec 22} {x : ImmHints} {w : W32} {i : Instr} (hw : isGroupHint w = false)
    (h : decodeWord w (hintsOf p x) = .ok i) :
    decode (modWords p ++ x.words ++ [w]) = some (.ok i, (modWords p ++ x.words ++ [w]).length) := by
  have hg : ∀ y ∈ modWords p ++ x.words, isGroupHint y = true := fun y hy =>
    (List.mem_append.1 hy).elim ((hintsOnly_mod p).2 y) ((hintsOnly_imm x).2 y)
  rw [decode, decodeGroup_hints _ hg hw, push_mod, h, Nat.zero_add]

theorem decode_imm {x : ImmHints} {w : W32} {i : Instr} (hw : isGroupHint w = false)
    (h : decodeWord w (hintsOf 0#22 x) = .ok i) : decode (x.words ++ [w]) = some (.ok i, (x.words ++ [w]).length) :=
  decode_modImm (p := 0#22) hw h

theorem decode_mod {p : BitVec 22} {w : W32} {i : Instr} (hw : isGroupHint w = false)
    (h : decodeWord w (hintsOf p .none) = .ok i) : decode (modWords p ++ [w]) = some (.ok i, (modWords p ++ [w]).length) := by
  have := decode_modImm (x := .none) hw h
  rwa [ImmHints.words, List.append_nil] at this

theorem decode_one {w : W32} {i : Instr} (hw : isGroupHint w = false) (h : decodeWord w (hintsOf 0#22 .none) = .ok i) :
    decode [w] = some (.ok i, [w].length) :=
  decode_modImm (p := 0#22) (x := .none) hw h

end Laws
end Sys2Proof

namespace Sys2Proof

/-- The operations of BITS that need no second operand have a code below 4 (R42). -/
theorem BitsOp.code_bit2 {op : BitsOp} (h : op.code[2] = false) : op ≠ .bfeI32 ∧ op ≠ .bfeN32 ∧ op ≠ .bfi ∧ op ≠ .perm := by
  cases op <;> simp_all [BitsOp.code]

/-- fn 2 is 0 in the FP8 forms of DP4 (R42). -/
theorem Dp4Form.code_bit2 {f : Dp4Form} (h : f.code[3] = true) : f.code[2] = false := by
  cases f with
  | int a b s => revert a b s; decide
  | fp8 a b => revert a b; decide

@[simp] theorem satPayload_bit (s : Bool) : (satPayload s).getLsbD 8 = s := by cases s <;> rfl
@[simp] theorem sxPayload_bit (s : Bool) : (sxPayload s).getLsbD 9 = s := by cases s <;> rfl

namespace Laws

/-- The upper bits of a field that holds less than a power of two are 0. -/
theorem extract_eq_zero {n : Nat} {x : BitVec n} {k l : Nat} (h : x.toNat < 2 ^ k) : x.extractLsb' k l = 0#l := by
  apply BitVec.eq_of_toNat_eq
  simp [Nat.shiftRight_eq_div_pow, Nat.div_eq_of_lt h]

@[simp] theorem hintsOf_modOk_sat (s : Bool) (x : ImmHints) : (hintsOf (satPayload s) x).modOk .fsat = true := by
  simp only [Hints.modOk, hintsOf_payload]; revert s; decide

@[simp] theorem hintsOf_modOk_sx (s : Bool) (x : ImmHints) : (hintsOf (sxPayload s) x).modOk .sx = true := by
  simp only [Hints.modOk, hintsOf_payload]; revert s; decide

/-- The fields of an atomic come back from its MOD payload (R45). -/
@[simp] theorem hintsOf_atom (md : AtomMod) (x : ImmHints) : (hintsOf md.payload x).atom = some md := by
  simp (disch := decide) only [Hints.atom, hintsOf_payload, AtomMod.payload, extract_append_hi, extract_append_lo, extract_all]
  simp

/-- How the words of an instruction are laid out: the format of its instruction word (R37), told apart by whether fields are packed
within its fn field, and by the hints that may stand in front of it; `none` is an event. -/
inductive WordShape where
  | v3 | v3Fields | v3Sat | vi | viImm | vk | k3 | k3Fields | k3Imm | a | aStatus | aFields | attn | loom | ki | kiImm | kb | b | mSx | mAtom | m
  | fixed | hint | none
  deriving DecidableEq

/-- The layout of each instruction's words. -/
def shapeOf : Instr → WordShape
  | .imul .. | .imad .. | .lop .. | .fsf .. | .pack .. | .dp4 .. | .fcls .. | .lmov .. => .v3
  | .iadd .. | .isub .. | .idiv .. | .shf .. | .bits .. | .imnx .. | .icmp .. | .sel .. | .fmnx .. | .fcmp .. | .cvt ..
  | .shfl .. | .vote .. | .rdx .. | .scan .. => .v3Fields
  | .fadd .. | .fsub .. | .fmul .. | .ffma .. => .v3Sat
  | .ishi .. => .vi
  | .iaddi .. | .icmpi .. | .lopi .. => .viImm
  | .iaddk .. | .ilea .. | .movk .. | .jmpi .. => .vk
  | .kadd .. | .ksub .. | .kmul .. | .kand .. | .kor .. | .kxor .. | .kshl .. | .kshr .. | .ksra .. | .kmin .. | .kmax .. | .kdiv ..
  | .setx .. | .maskSet .. | .maskGet .. => .k3
  | .maskPred .. | .fence .. | .lockInit .. | .lockArrive .. | .lockExpect .. | .lockWait .. | .lockTry .. | .lockInval ..
  | .lockFill .. | .lockDrain .. => .k3Fields
  | .kld .. | .kst .. => .k3Imm
  | .mfenceBatch .. | .accmvT2s .. | .accmvS2t .. | .accmvT2t .. | .accmvT2g .. | .accmvG2t .. | .accmvZero ..
  | .mwait .. | .attnFin .. | .join .. => .a
  | .bpassInfo .. | .bpassUndec .. | .freebCtx .. | .freebSlice .. | .traceOn .. | .traceOff ..
  | .traceBind .. | .traceFlush .. => .aStatus
  | .copy .. | .mma .. | .macs .. | .fork .. => .aFields
  | .attn .. => .attn
  | .seqReserve .. | .seqAddr .. | .seqCommit .. | .seqVoid .. | .seqWatch .. | .seqWait .. | .seqFork .. | .seqLen ..
  | .ptreeLookup .. | .ptreeInsert .. | .ptreeUnref .. | .kvtPage .. | .kvtRope .. | .kvtBoth .. | .launch .. => .loom
  | .klui .. | .movs .. | .ret .. | .trap .. | .bkpt .. => .ki
  | .kli .. | .kaddi .. => .kiImm
  | .brk .. | .loop .. => .kb
  | .bra .. | .call .. => .b
  | .ld .. | .lds .. => .mSx
  | .atom .. | .red .. => .mAtom
  | .st .. | .sts .. | .ldt .. | .ldb .. | .cacheZero .. | .cacheInv .. | .cacheEvict .. | .cacheFetch .. => .m
  | .land | .regionCommit | .exit | .yield | .nop | .mfenceOpr => .fixed
  | .hintStall .. | .hintMark .. => .hint
  | _ => .none

theorem packK3_imm_zero (m : BitVec 7) (d : BitVec 9) : (packK3 m d 0#9 0#7).extractLsb' 0 16 = 0#16 := by
  ext i _
  simp only [packK3, BitVec.getElem_extractLsb', BitVec.getLsbD_append]
  split_ifs
  · simp
  · simp
  all_goals omega

/-- An instruction decodes from its words. -/
def DecodesBack (i : Instr) : Prop := i.wellFormed = true → decode (encode i) = some (.ok i, (encode i).length)

theorem decodesBack_v3 {i : Instr} (h : shapeOf i = .v3) : DecodesBack i := by
  intro _
  cases i <;> cases h
  all_goals
    refine decode_one (not_groupHint (packV3_major ..) (by decide)) ?_
    simp only [decodeWord, packV3_major, packV3_d, packV3_a, packV3_b, packV3_fn, BitVec.reduceToNat]
    simp [verdict, verdictOpt]
  case dp4.refl => exact Dp4Form.code_bit2

theorem decodesBack_v3Fields {i : Instr} (h : shapeOf i = .v3Fields) : DecodesBack i := by
  intro hw
  cases i <;> cases h
  all_goals
    refine decode_one (not_groupHint (packV3_major ..) (by decide)) ?_
    simp only [decodeWord, packV3_major, packV3_d, packV3_a, packV3_b, packV3_fn, BitVec.reduceToNat]
    simp (disch := decide) only [packV3, extract_append_hi, extract_append_lo, extract_all, BitVec.getLsbD_append]
    simp [Instr.wellFormed] at hw
    simp [verdict, verdictOpt, hw]
  case bits.refl op d a b => exact fun h => by have := BitsOp.code_bit2 h; tauto
  case cvt.refl => exact fun hs => hw.2.resolve_left (by simp [hs])
  case vote.refl => exact fun hk => extract_eq_zero (hw.resolve_left hk)
  case scan.refl _ _ excl _ _ => revert excl; simp

theorem decodesBack_v3Sat {i : Instr} (h : shapeOf i = .v3Sat) : DecodesBack i := by
  intro _
  cases i <;> cases h <;>
  · refine decode_mod (not_groupHint (packV3_major ..) (by decide)) ?_
    simp only [decodeWord, packV3_major, packV3_d, packV3_a, packV3_b, BitVec.reduceToNat, hintsOf_payload, satPayload_bit]
    simp (disch := decide) only [packV3, extract_append_hi, extract_append_lo, extract_all]
    simp [verdict, verdictOpt]

theorem decodesBack_vi {i : Instr} (h : shapeOf i = .vi) : DecodesBack i := by
  intro _
  cases i <;> cases h
  refine decode_one (not_groupHint (packVI_major ..) (by decide)) ?_
  simp only [decodeWord, packVI_major, packVI_d, packVI_a, BitVec.reduceToNat]
  simp (disch := decide) only [packVI, extract_append_hi, extract_append_lo, extract_all]
  simp [verdict]

theorem decodesBack_viImm {i : Instr} (h : shapeOf i = .viImm) : DecodesBack i := by
  intro _
  cases i <;> cases h <;> refine decode_imm (not_groupHint (packVI_major ..) (by decide)) ?_
  case iaddi.refl =>
    simp only [decodeWord, packVI_major, packVI_d, packVI_a, packVI_imm, BitVec.reduceToNat]
    simp [verdict]
  all_goals
    simp only [decodeWord, packVI_major, packVI_d, packVI_a, packVI_imm, BitVec.reduceToNat]
    simp (disch := decide) only [packVI, extract_append_hi, extract_append_lo, extract_all, BitVec.getLsbD_append]
    simp [verdict, verdictOpt]

theorem decodesBack_vk {i : Instr} (h : shapeOf i = .vk) : DecodesBack i := by
  intro hw
  cases i <;> cases h <;>
  · refine decode_one (not_groupHint (packVK_major ..) (by decide)) ?_
    simp only [decodeWord, packVK_major, packVK_d, packVK_a, packVK_k, packVK_fn, BitVec.reduceToNat]
    simp only [Instr.wellFormed] at hw
    simp [verdict, verdictOpt, hw]

theorem decodesBack_k3 {i : Instr} (h : shapeOf i = .k3) : DecodesBack i := by
  intro hw
  cases i <;> cases h <;>
  · refine decode_one (not_groupHint (packK3_major ..) (by decide)) ?_
    simp only [decodeWord, packK3_major, packK3_d, packK3_a, packK3_b, BitVec.reduceToNat]
    simp only [Instr.wellFormed] at hw
    simp [verdict, hw]

theorem decodesBack_a {i : Instr} (h : shapeOf i = .a) : DecodesBack i := by
  intro hw
  cases i <;> cases h <;>
  · refine decode_one (not_groupHint (packK3_major ..) (by decide)) ?_
    simp only [decodeWord, packK3_major, packK3_d, packK3_a, packK3_b, packK3_imm_zero, BitVec.reduceToNat]
    simp only [Instr.wellFormed] at hw
    simp [verdict, hw]

theorem decodesBack_aStatus {i : Instr} (h : shapeOf i = .aStatus) : DecodesBack i := by
  intro hw
  cases i <;> cases h <;>
  · refine decode_one (not_groupHint (packK3_major ..) (by decide)) ?_
    simp only [decodeWord, packK3_major, packK3_d, packK3_a, packK3_b, BitVec.reduceToNat]
    simp only [Instr.wellFormed] at hw
    simp [verdict, hw]

theorem decodesBack_loom {i : Instr} (h : shapeOf i = .loom) : DecodesBack i := by
  intro hw
  cases i <;> cases h <;>
  · refine decode_one (not_groupHint (packK3_major ..) (by decide)) ?_
    simp only [decodeWord, packK3_major, packK3_d, packK3_a, packK3_b, BitVec.reduceToNat]
    simp only [Instr.wellFormed] at hw
    simp [verdict, hw]

theorem decodesBack_k3Fields {i : Instr} (h : shapeOf i = .k3Fields) : DecodesBack i := by
  intro hw
  cases i <;> cases h <;>
  · refine decode_one (not_groupHint (packK3_major ..) (by decide)) ?_
    simp only [decodeWord, packK3_major, packK3_d, packK3_a, packK3_b, BitVec.reduceToNat]
    simp (disch := decide) only [packK3, extract_append_hi, extract_append_lo, extract_all, BitVec.getLsbD_append]
    simp [Instr.wellFormed] at hw
    simp [verdict, verdictOpt, hw]

theorem decodesBack_aFields {i : Instr} (h : shapeOf i = .aFields) : DecodesBack i := by
  intro hw
  cases i <;> cases h
  all_goals
    refine decode_one (not_groupHint (packK3_major ..) (by decide)) ?_
    simp only [decodeWord, packK3_major, packK3_d, packK3_a, packK3_b, BitVec.reduceToNat]
    simp (disch := decide) only [packK3, extract_append_hi, extract_append_lo, extract_all, BitVec.getLsbD_append]
    simp [Instr.wellFormed] at hw
    simp [verdict, verdictOpt, hw]
  case mma.refl => exact fun hc => hw.2.resolve_left (by simp [hc])

theorem decodesBack_attn {i : Instr} (h : shapeOf i = .attn) : DecodesBack i := by
  intro hw
  cases i <;> cases h
  rename_i a causal
  simp only [Instr.wellFormed] at hw
  cases causal <;>
  · refine decode_one (not_groupHint (packK3_major ..) (by decide)) ?_
    simp only [decodeWord, packK3_major, packK3_d, packK3_a, packK3_b, BitVec.reduceToNat, BitVec.ofBool_false, BitVec.ofBool_true, BitVec.reduceAppend]
    simp [verdict, hw]

theorem decodesBack_k3Imm {i : Instr} (h : shapeOf i = .k3Imm) : DecodesBack i := by
  intro hw
  cases i <;> cases h <;>
  · refine decode_imm (not_groupHint (packK3_major ..) (by decide)) ?_
    simp only [decodeWord, packK3_major, packK3_d, packK3_a, packK3_b, BitVec.reduceToNat]
    simp (disch := decide) only [packK3, extract_append_hi, extract_append_lo, extract_all, BitVec.getLsbD_append]
    simp [Instr.wellFormed] at hw
    simp [verdict, hw]

theorem decodesBack_ki {i : Instr} (h : shapeOf i = .ki) : DecodesBack i := by
  intro hw
  cases i <;> cases h <;> refine decode_one (not_groupHint (packKI_major ..) (by decide)) ?_ <;>
    simp only [decodeWord, packKI_major, packKI_d, packKI_imm, BitVec.reduceToNat]
  case movs.refl v d sv =>
    simp (disch := decide) only [packKI, extract_append_hi, extract_append_lo, extract_all, BitVec.getLsbD_append]
    cases v <;> simp [Instr.wellFormed] at hw
    · simp [verdict, hw]
    · simp [verdict, extract_eq_zero (k := 7) hw]
  all_goals
    simp [Instr.wellFormed] at hw
    simp [verdict, hw]

theorem decodesBack_kiImm {i : Instr} (h : shapeOf i = .kiImm) : DecodesBack i := by
  intro hw
  cases i <;> cases h <;>
  · refine decode_imm (not_groupHint (packKI_major ..) (by decide)) ?_
    simp only [decodeWord, packKI_major, packKI_d, packKI_imm, BitVec.reduceToNat]
    simp only [Instr.wellFormed] at hw
    simp [verdict, hw]

theorem decodesBack_kb {i : Instr} (h : shapeOf i = .kb) : DecodesBack i := by
  intro hw
  cases i <;> cases h <;>
  · refine decode_one (not_groupHint (packKB_major ..) (by decide)) ?_
    simp only [decodeWord, packKB_major, packKB_a, packKB_c, packKB_off, BitVec.reduceToNat]
    simp [Instr.wellFormed] at hw
    simp [verdict, verdictOpt, hw]

theorem decodesBack_b {i : Instr} (h : shapeOf i = .b) : DecodesBack i := by
  intro _
  cases i <;> cases h <;>
  · refine decode_one (not_groupHint (packB_major ..) (by decide)) ?_
    simp only [decodeWord, packB_major, BitVec.reduceToNat]
    simp (disch := decide) only [packB, extract_append_hi, extract_append_lo, extract_all, BitVec.getLsbD_append]
    simp [verdict]

theorem decodesBack_mSx {i : Instr} (h : shapeOf i = .mSx) : DecodesBack i := by
  intro hw
  cases i <;> cases h <;>
  · refine decode_modImm (not_groupHint (packM_major ..) (by decide)) ?_
    simp only [decodeWord, packM_major, BitVec.reduceToNat, hintsOf_payload, sxPayload_bit]
    simp (disch := decide) only [packM, extract_append_hi, extract_append_lo, extract_all]
    simp only [Instr.wellFormed] at hw
    simp [verdict, hw]

theorem decodesBack_mAtom {i : Instr} (h : shapeOf i = .mAtom) : DecodesBack i := by
  intro hw
  cases i <;> cases h <;>
  · refine decode_modImm (not_groupHint (packM_major ..) (by decide)) ?_
    simp only [decodeWord, packM_major, BitVec.reduceToNat, hintsOf_atom]
    simp (disch := decide) only [packM, extract_append_hi, extract_append_lo, extract_all]
    simp only [Instr.wellFormed, atomShape, Bool.and_eq_true, bne_iff_ne] at hw
    simp [verdict, hw, Scope.ofCode_pol hw.1.2]

theorem decodesBack_m {i : Instr} (h : shapeOf i = .m) : DecodesBack i := by
  intro hw
  cases i <;> cases h
  all_goals
    refine decode_imm (not_groupHint (packM_major ..) (by decide)) ?_
    simp only [decodeWord, packM_major, BitVec.reduceToNat]
    simp (disch := decide) only [packM, extract_append_hi, extract_append_lo, extract_all]
    simp only [Instr.wellFormed] at hw
  case cacheZero.refl | cacheInv.refl | cacheEvict.refl | cacheFetch.refl => simp [verdict, Width.ofCode]
  all_goals simp [verdict, hw]

theorem decodesBack_hint {i : Instr} (h : shapeOf i = .hint) : DecodesBack i := by
  intro _
  cases i <;> cases h <;>
  · refine decode_one (not_groupHint_alone _ (by decide) (by decide)) ?_
    simp only [decodeWord, hintKind, packH_major, packH_kind, BitVec.reduceToNat]
    simp (disch := decide) only [packH, extract_append_hi, extract_append_lo, extract_all]
    simp [verdict]

theorem decodesBack_fixed {i : Instr} (h : shapeOf i = .fixed) : DecodesBack i := by
  intro _
  cases i <;> cases h <;> decide

/-- What has no layout has no words. -/
theorem encoded_eq_false {i : Instr} (h : shapeOf i = .none) : i.encoded = false := by
  cases i <;> cases h <;> rfl

/-- Decoding undoes encoding, layout by layout. -/
theorem decodesBack {i : Instr} (he : i.encoded = true) : DecodesBack i := by
  cases h : shapeOf i with
  | v3 => exact decodesBack_v3 h
  | v3Fields => exact decodesBack_v3Fields h
  | v3Sat => exact decodesBack_v3Sat h
  | vi => exact decodesBack_vi h
  | viImm => exact decodesBack_viImm h
  | vk => exact decodesBack_vk h
  | k3 => exact decodesBack_k3 h
  | k3Fields => exact decodesBack_k3Fields h
  | k3Imm => exact decodesBack_k3Imm h
  | a => exact decodesBack_a h
  | aStatus => exact decodesBack_aStatus h
  | aFields => exact decodesBack_aFields h
  | attn => exact decodesBack_attn h
  | loom => exact decodesBack_loom h
  | ki => exact decodesBack_ki h
  | kiImm => exact decodesBack_kiImm h
  | kb => exact decodesBack_kb h
  | b => exact decodesBack_b h
  | mSx => exact decodesBack_mSx h
  | mAtom => exact decodesBack_mAtom h
  | m => exact decodesBack_m h
  | fixed => exact decodesBack_fixed h
  | hint => exact decodesBack_hint h
  | none => exact absurd he (by simp [encoded_eq_false h])

/-- Settles O57, by the layout of the instruction's words: the hints in front of the instruction word are collected as they stand (R47),
and each field of the word comes back (R37-R46). -/
theorem decodeUndoesEncode : Obligations.DecodeUndoesEncode := fun _ he hw => decodesBack he hw

end Laws
end Sys2Proof

namespace Sys2Proof.Laws

/-- What an instruction must be that a word decodes to after the hints `h`. -/
def Sound (h : Hints) (r : Except IllegalCause Instr) : Prop :=
  ∀ i, r = .ok i → i.wellFormed = true ∧ i.encoded = true ∧ h.bad = false

@[simp] theorem sound_error (h : Hints) (c : IllegalCause) : Sound h (.error c) := by intro i hi; cases hi

@[simp] theorem sound_verdict (h : Hints) (fn field hint : Bool) (i : Instr) : Sound h (verdict fn field hint i) ↔
    (fn = true → field = true → hint = true → i.wellFormed = true ∧ i.encoded = true ∧ h.bad = false) := by
  cases fn <;> cases field <;> cases hint <;> simp [verdict, Sound]

@[simp] theorem sound_verdictOpt {α : Type} (h : Hints) (fn : Option α) (field hint : Bool) (i : α → Instr) :
    Sound h (verdictOpt fn field hint i) ↔ (∀ v, fn = some v → field = true → hint = true →
      (i v).wellFormed = true ∧ (i v).encoded = true ∧ h.bad = false) := by
  cases fn <;> simp [verdictOpt]

@[simp] theorem not_bad_of_plain {h : Hints} (hp : h.plain = true) : h.bad = false := by
  simp [Hints.plain] at hp; exact hp.1.1

@[simp] theorem not_bad_of_immOnly {h : Hints} (hp : h.immOnly = true) : h.bad = false := by
  simp [Hints.immOnly] at hp; exact hp.1

/-- The operations of BITS whose code has bit 2 read their second operand (R42). -/
theorem bitsOp_of_bit2 {c : BitVec 3} (h : c.getLsbD 2 = true) :
    BitsOp.ofCode c = .bfeI32 ∨ BitsOp.ofCode c = .bfeN32 ∨ BitsOp.ofCode c = .bfi ∨ BitsOp.ofCode c = .perm := by
  revert c; decide

/-- The pol field of ATOM and RED names no scope .team (R42). -/
theorem scope_ne_team {p : BitVec 2} {x : Scope} (h : Scope.ofCode (0#1 ++ p) = some x) : x ≠ .team := by
  revert p; cases x <;> decide

/-- A field whose upper bits are 0 holds less than a power of two. -/
theorem toNat_lt_of_extract {k l : Nat} {x : BitVec (k + l)} (h : x.extractLsb' k l = 0#l) : x.toNat < 2 ^ k := by
  have hx : x.toNat / 2 ^ k < 2 ^ l := Nat.div_lt_of_lt_mul (by rw [← Nat.pow_add]; exact x.isLt)
  have h0 : x.toNat / 2 ^ k = 0 := by
    simpa [Nat.shiftRight_eq_div_pow, Nat.mod_eq_of_lt hx] using congrArg BitVec.toNat h
  rcases Nat.div_eq_zero_iff.1 h0 with h | h
  · simp at h
  · exact h

/-- A field of a field of a word is a field of the word. -/
theorem extract_extract {n : Nat} (x : BitVec n) {a b c d : Nat} (h : c + d ≤ b) :
    (x.extractLsb' a b).extractLsb' c d = x.extractLsb' (a + c) d := by
  ext i hi
  simp only [BitVec.getElem_extractLsb']
  rw [getLsbD_extract _ _ _ _ (by omega), Nat.add_assoc]

theorem decodeWord_sound (w : W32) (h : Hints) : Sound h (decodeWord w h) := by
  simp only [decodeWord]
  generalize (BitVec.extractLsb' 25 7 w).toNat = m at *
  split
  case h_8 =>
    rw [sound_verdict]
    intro _ hb hp
    refine ⟨?_, rfl, not_bad_of_plain hp⟩
    rw [Bool.or_eq_true] at hb
    rcases hb with hb | hb
    · rw [getLsbD_extract _ _ _ _ (by decide), ← getLsbD_extract w 0 3 2 (by decide)] at hb
      rcases bitsOp_of_bit2 hb with e | e | e | e <;> simp [Instr.wellFormed, e]
    · simp [Instr.wellFormed, eq_of_beq hb]
  case h_34 =>
    split
    · rw [sound_verdict]
      intro _ hf hp
      refine ⟨?_, rfl, not_bad_of_plain hp⟩
      rw [Bool.and_eq_true] at hf
      simp only [Instr.wellFormed]
      split_ifs at hf ⊢ with hv
      · exact decide_eq_true (toNat_lt_of_extract (k := 7) (eq_of_beq hf.2))
      · exact hf.2
    · simp
  case h_47 =>
    rw [sound_verdict]
    intro _ hf hp
    refine ⟨?_, rfl, not_bad_of_plain hp⟩
    rw [Bool.and_eq_true, Bool.or_eq_true] at hf
    rw [Instr.wellFormed, Bool.or_eq_true, decide_eq_true_eq]
    refine hf.2.imp_right fun h4 => toNat_lt_of_extract (k := 3) (l := 4) ?_
    rw [extract_extract _ (by decide)]
    exact eq_of_beq h4
  case h_56 | h_57 =>
    split
    case h_1 hs =>
      have hs := scope_ne_team hs
      simp only [sound_verdict, Bool.and_eq_true, Bool.not_eq_true']
      intro hw _ hb
      simp [Instr.wellFormed, Instr.encoded, encode, atomShape, hw, hs, hb]
    case h_2 => split <;> simp
  all_goals
    repeat' split
    all_goals
      simp only [sound_error, sound_verdict, sound_verdictOpt, Instr.wellFormed, Instr.encoded, encode, Bool.and_eq_true]
    all_goals
      simp +contextual [not_bad_of_plain, not_bad_of_immOnly]

theorem decodeWord_op {w : W32} (h : Hints) (hm : let m := (w.extractLsb' 25 7).toNat
      m = 0 ∨ 0x13 ≤ m ∧ m ≤ 0x17 ∨ 0x33 ≤ m ∧ m ≤ 0x37 ∨ 0x3D ≤ m ∧ m ≤ 0x3F ∨ 0x4C ≤ m ∧ m ≤ 0x4F ∨ m = 0x5F ∨
        0x71 ≤ m ∧ m ≤ 0x7E) : decodeWord w h = .error .op := by
  simp only [decodeWord]
  simp only at hm
  generalize (BitVec.extractLsb' 25 7 w).toNat = m at *
  split
  rotate_right
  · rfl
  all_goals omega

end Sys2Proof.Laws

namespace Sys2Proof

/-- How many hints of a group have been collected. -/
def Hints.held (h : Hints) : Nat :=
  (if h.md.isSome then 1 else 0) + match h.imm with
    | .none => 0
    | .one _ => 1
    | .two _ _ => 2

theorem Hints.held_le (h : Hints) : Hints.held h ≤ 3 := by
  unfold held
  split <;> split <;> omega

end Sys2Proof

namespace Sys2Proof.Laws

/-- A hint that does not break the order or the number of R47 is collected. -/
theorem held_push {h : Hints} {w : W32} (hb : (h.push w).bad = false) :
    h.bad = false ∧ (h.push w).held = h.held + 1 := by
  obtain ⟨md, imm, bad⟩ := h
  unfold Hints.push at hb ⊢
  split_ifs at hb ⊢
  · cases md <;> cases imm <;> simp_all [Hints.held]
  · cases imm <;> simp_all [Hints.held]

/-- What decodes is sound, and its group has no more words than R47 allows, counted from the hints already collected. -/
theorem decodeGroup_sound {ws : List W32} {h : Hints} {n m : Nat} {i : Instr} (hn : h.bad = false → n = h.held)
    (hd : decodeGroup ws h n = some (.ok i, m)) : i.wellFormed = true ∧ i.encoded = true ∧ m ≤ 4 := by
  induction ws generalizing h n with
  | nil => cases hd
  | cons w ws ih =>
    rw [decodeGroup] at hd
    split_ifs at hd with hg
    · refine ih (fun hb => ?_) hd
      obtain ⟨h0, h1⟩ := held_push hb
      rw [h1, hn h0]
    · simp only [Option.some.injEq, Prod.mk.injEq] at hd
      obtain ⟨hd, rfl⟩ := hd
      obtain ⟨hw, he, hb⟩ := decodeWord_sound w h i hd
      have := h.held_le
      have := hn hb
      exact ⟨hw, he, by omega⟩

/-- A word that is no hint of a group decodes alone. -/
theorem decode_single {w : W32} (hw : isGroupHint w = false) : decode [w] = some (decodeWord w (hintsOf 0#22 .none), 1) := by
  simp [decode, decodeGroup, hw, hintsOf, Hints.empty]

theorem idiv_fn3 (d a b : VReg) (x y : BitVec 1) :
    decode [0x05#7 ++ d ++ a ++ b ++ x ++ 3#2 ++ y] = some (.error .fn, 1) := by
  set w : W32 := 0x05#7 ++ d ++ a ++ b ++ x ++ 3#2 ++ y with hw
  have hm : w.extractLsb' 25 7 = 5#7 := by
    simp (disch := decide) only [hw, extract_append_hi]
    rfl
  have hf : w.extractLsb' 1 2 = 3#2 := by
    simp (disch := decide) only [hw, extract_append_hi, extract_append_lo]
    rfl
  rw [decode_single (not_groupHint hm (by decide))]
  simp only [decodeWord, hm, hf, BitVec.reduceToNat]
  rfl

theorem klui_field {d : KReg} (hd : 383 < d.toNat) (i : BitVec 16) : decode [packKI 0x26#7 d i] = some (.error .field, 1) := by
  have hk : KReg.ok d = false := by simp [KReg.ok]; omega
  rw [decode_single (not_groupHint (packKI_major ..) (by decide))]
  simp only [decodeWord, packKI_major, packKI_d, BitVec.reduceToNat, hk]
  rfl

theorem iadd_hint {p : BitVec 22} (hp : p ≠ 0#22) (d a b : VReg) :
    decode [packH 2#3 p, packV3 0x01#7 d a b 0#4] = some (.error .hint, 2) := by
  have hg : modWords p ++ ImmHints.none.words = [packH 2#3 p] := by simp [modWords, hp, ImmHints.words]
  have hl : (hintsOf p .none).plain = false := by simp [Hints.plain, Hints.modOk, hp]
  have h := decodeGroup_hints [packH 2#3 p] (by simp [groupHint_mod])
    (not_groupHint (packV3_major 0x01#7 d a b 0#4) (by decide)) Hints.empty 0
  rw [← hg, push_mod, hg] at h
  rw [decode]
  refine h.trans ?_
  simp only [decodeWord, packV3_major, BitVec.reduceToNat, hl]
  rfl

/-- Settles O58, from the soundness of `decodeWord` arm by arm (R37-R46) and the count of a group's hints (R47). -/
theorem wordsDecodeAsTheSpecSays : Obligations.WordsDecodeAsTheSpecSays := by
  refine ⟨by decide, by decide, by decide, by decide, by decide, by decide, fun w hm => ?_, idiv_fn3, fun d i hd => klui_field hd i,
    fun d a b p hp => iadd_hint hp d a b, fun ws i n hd => decodeGroup_sound (fun _ => rfl) hd⟩
  have h7F : w.extractLsb' 25 7 ≠ 0x7F#7 := fun h => by rw [h] at hm; revert hm; decide
  rw [decode_single (not_groupHint rfl h7F), decodeWord_op _ hm]

end Sys2Proof.Laws

namespace Sys2Proof.Machine

/-! ## What register instructions leave -/

@[simp] theorem flagAll_none {α : Type} (l : List α) : flagAll (l.map fun _ => FlagSet.none) = FlagSet.none := by
  have key : ∀ l : List α, (l.map fun _ => FlagSet.none).foldl flagOr FlagSet.none = FlagSet.none := by
    intro l
    induction l with
    | nil => rfl
    | cons x l ih => simpa using ih
  exact key l

/-! ## Division (R89) -/

theorem elemVal_signed {w : Nat} (hw : 0 < w) (a : BitVec w) : elemVal true w a.toNat = a.toInt := by
  obtain ⟨n, rfl⟩ : ∃ n, w = n + 1 := ⟨w - 1, by omega⟩
  have h2 : (2 : Nat) ^ (n + 1) = 2 ^ n * 2 := Nat.pow_succ ..
  simp only [elemVal, toSigned, if_true, Nat.mod_eq_of_lt a.isLt, BitVec.toInt, Nat.add_sub_cancel]
  push_cast
  split_ifs <;> omega

theorem elemVal_unsigned {w : Nat} (a : BitVec w) : elemVal false w a.toNat = a.toNat := by
  simp [elemVal, Nat.mod_eq_of_lt a.isLt]

theorem ofNat_wrapNat (w : Nat) (i : Int) : BitVec.ofNat w (wrapNat w i) = BitVec.ofInt w i := by
  apply BitVec.eq_of_toNat_eq
  have h : (i % 2 ^ w).toNat < 2 ^ w := by
    have := Int.emod_lt_of_pos i (show (0 : Int) < 2 ^ w by positivity)
    have := Int.emod_nonneg i (show (2 : Int) ^ w ≠ 0 by positivity)
    zify
    omega
  simp [wrapNat, BitVec.toNat_ofInt, Nat.mod_eq_of_lt h]

theorem ofInt_emod_eq {w : Nat} {x y : Int} (h : x % 2 ^ w = y % 2 ^ w) : BitVec.ofInt w x = BitVec.ofInt w y := by
  apply BitVec.eq_of_toNat_eq
  simp [BitVec.toNat_ofInt, h]

/-- R89 of signed operands: the quotient truncated towards zero and the remainder of the sign of the dividend, or for divisor 0 all ones, or 1
below 0, and the dividend. The overflow of the least dividend by -1 wraps to the dividend. -/
theorem divide_signed {w : Nat} (hw : 0 < w) (a b : BitVec w) {q r : Nat} (h : divide w false a.toNat b.toNat = (q, r)) :
    (b = 0#w → BitVec.ofNat w q = BitVec.ofInt w (if 0 ≤ a.toInt then -1 else 1) ∧ BitVec.ofNat w r = a) ∧
    (b ≠ 0#w → BitVec.ofNat w q = BitVec.ofInt w (a.toInt.tdiv b.toInt) ∧ BitVec.ofNat w r = BitVec.ofInt w (a.toInt.tmod b.toInt)) := by
  simp only [divide, Bool.not_false, elemVal_signed hw, Bool.false_eq_true, if_false, true_and] at h
  have hz : b.toInt = 0 ↔ b = 0#w := by rw [← BitVec.toInt_inj, BitVec.toInt_zero]
  refine ⟨fun hb => ?_, fun hb => ?_⟩
  · rw [if_pos (hz.2 hb)] at h
    obtain ⟨rfl, rfl⟩ := Prod.mk.inj h
    refine ⟨?_, by simp [Nat.mod_eq_of_lt a.isLt]⟩
    split_ifs
    · exact ofNat_wrapNat ..
    · rfl
  · rw [if_neg (mt hz.1 hb)] at h
    split_ifs at h with ho
    · obtain ⟨rfl, rfl⟩ := Prod.mk.inj h
      obtain ⟨hx, hy⟩ := ho
      refine ⟨(ofNat_wrapNat ..).trans (ofInt_emod_eq ?_), by simp [hy, Int.tmod_neg]⟩
      obtain ⟨n, rfl⟩ : ∃ n, w = n + 1 := ⟨w - 1, by omega⟩
      rw [hy, hx, Int.tdiv_neg, Int.tdiv_one, Nat.add_sub_cancel, neg_neg, Int.emod_eq_emod_iff_emod_sub_eq_zero, pow_succ,
        Int.emod_eq_zero_of_dvd ⟨-1, by ring⟩]
    · obtain ⟨rfl, rfl⟩ := Prod.mk.inj h
      refine ⟨ofNat_wrapNat .., (ofNat_wrapNat ..).trans ?_⟩
      rw [Int.tmod_def, mul_comm]

/-- R89 of unsigned operands. -/
theorem divide_unsigned {w : Nat} (a b : BitVec w) {q r : Nat} (h : divide w true a.toNat b.toNat = (q, r)) :
    (b = 0#w → BitVec.ofNat w q = BitVec.allOnes w ∧ BitVec.ofNat w r = a) ∧
    (b ≠ 0#w → q = a.toNat / b.toNat ∧ r = a.toNat % b.toNat) := by
  simp only [divide, Bool.not_true, elemVal_unsigned, Bool.false_eq_true, if_true, false_and, if_false, Int.natCast_eq_zero] at h
  have hz : b.toNat = 0 ↔ b = 0#w := by rw [← BitVec.toNat_inj, BitVec.toNat_ofNat, Nat.zero_mod]
  have hwrap : ∀ n : Nat, n ≤ a.toNat → wrapNat w n = n := fun n hn => by
    rw [wrapNat, ← Nat.cast_ofNat, ← Nat.cast_pow, ← Int.natCast_emod, Int.toNat_natCast, Nat.mod_eq_of_lt (lt_of_le_of_lt hn a.isLt)]
  refine ⟨fun hb => ?_, fun hb => ?_⟩
  · rw [if_pos (hz.2 hb)] at h
    obtain ⟨rfl, rfl⟩ := Prod.mk.inj h
    exact ⟨by simp [BitVec.allOnes, BitVec.ofNatLT_eq_ofNat], by simp [Nat.mod_eq_of_lt a.isLt]⟩
  · rw [if_neg (mt hz.1 hb)] at h
    obtain ⟨rfl, rfl⟩ := Prod.mk.inj h
    refine ⟨?_, ?_⟩
    · exact_mod_cast hwrap _ (Nat.div_le_self ..)
    · rw [mul_comm, ← Int.tmod_def]
      exact_mod_cast hwrap _ (Nat.mod_le ..)

/-! ## IDIV (R89) -/

/-- What IDIV needs of its registers. -/
theorem idiv_fits {t : Team} {l1 l2 l3 : VUse} (h : Fits t [l1, l2, l3]) :
    AccFits t { noAccess with rv := [l1, l2], wv := [l3], vector := true } := ⟨h, by simp [noAccess]⟩

theorem accWrites_one (x : Nat) (l1 l2 f : VUse) (k n : Nat) (hf : f.fld + x = k) (hn : f.n = n) :
    accWrites x { noAccess with rv := [l1, l2], wv := [f], vector := true } = (rangeFrom k n).map .v := by
  simp [accWrites, noAccess, vUseRegs, hf, hn]

theorem idiv_later {s : State} {u : Nat} {t : Team} (h : Issuing s u t) (b64 : Bool) (res : DivRes) (uns : Bool) (d a b : VReg)
    {out : Nat → List (Nat × W32)} (hf : Fits t [if b64 then v2 a else v1 a, if b64 then v2 b else v1 b, vDiv b64 res d])
    (ho : ∀ i, divLane b64 res uns d a b t i = lregs (out i)) :
    LaterDone (.idiv b64 res uns d a b) s u t ((rangeFrom (ef t d) (vDiv b64 res d).n).map .v) out (fun _ => []) FlagSet.none := by
  have hd : (vDiv b64 res d).fld + t.flow.x = ef t d := by cases b64 <;> cases res <;> rfl
  rw [← accWrites_one t.flow.x (if b64 then v2 a else v1 a) (if b64 then v2 b else v1 b) _ _ _ hd rfl, ← flagAll_none (lanesOf t)]
  exact vecLater_done h (idiv_fits hf) rfl rfl ho

/-- Settles O3, from the division of each signedness (R89) and the issue of an instruction of variable latency (R48). -/
theorem divideLeavesItsResultsOutstanding : Obligations.DivideLeavesItsResultsOutstanding := by
  refine ⟨fun s u t h res uns d a b => ⟨fun hf => ?_, fun hf => ?_⟩, fun w hw a b =>
    ⟨fun q r hd => divide_signed hw a b hd, fun q r hd => divide_unsigned a b hd⟩⟩
  · exact idiv_later h false res uns d a b hf fun i => by cases res <;> rfl
  · exact idiv_later h true res uns d a b hf fun i => by cases res <;> rfl

/-! ## Uniform instructions (R98-R101) -/

theorem fits_nil (t : Team) : Fits t [] := by simp [Fits]

theorem accK3_fits {t : Team} {d a : KReg} (hd : d.toNat ≤ 383) (ha : a.toNat ≤ 383) (b : BitVec 7) (lat : Nat) :
    AccFits t (accK3 d a b lat) := by
  have := b.isLt
  refine ⟨fits_nil t, ?_⟩
  simp only [accK3, List.cons_append, List.nil_append, List.forall_mem_cons]
  exact ⟨by omega, by omega, by omega, by simp⟩

theorem k3Op_done {c : Instr} {s : State} {u : Nat} {t : Team} (h : Issuing s u t) {d a : KReg} (hd : d.toNat ≤ 383) (ha : a.toNat ≤ 383)
    {b : BitVec 7} {lat : Nat} {f : W64 → W64 → W64} (hc : exec c s = k3Op d a b lat f s) :
    UniDone c s u t d.toNat (f (kreg t a.toNat) (kreg t b.toNat)) :=
  uniformOp_done h (accK3_fits hd ha b lat) rfl hc rfl

/-- The access of a uniform instruction that may read the register it writes. -/
theorem accOwn_fits {t : Team} {d : KReg} (hd : d.toNat ≤ 383) (rk : List (Nat × Nat)) (hr : ∀ e ∈ rk, e = (d.toNat, 1)) (lat : Nat) :
    AccFits t { noAccess with rk := rk, wk := [(d.toNat, 1)], lat := lat } := by
  refine ⟨fits_nil t, fun e he => ?_⟩
  have : e = (d.toNat, 1) := (List.mem_append.1 he).elim (hr e) (List.mem_singleton.1 ·)
  subst this
  simp only
  omega

theorem kli_fits {t : Team} {d : KReg} (hd : d.toNat ≤ 383) (lat : Nat) : AccFits t { noAccess with wk := [(d.toNat, 1)], lat := lat } :=
  accOwn_fits hd [] (by simp) lat

theorem kaddi_fits {t : Team} {d : KReg} (hd : d.toNat ≤ 383) (lat : Nat) :
    AccFits t { noAccess with rk := [(d.toNat, 1)], wk := [(d.toNat, 1)], lat := lat } :=
  accOwn_fits hd _ (by simp) lat

theorem min_toInt (x y : W64) : (if x.sle y then x else y) = BitVec.ofInt 64 (min x.toInt y.toInt) := by
  rw [min_def]
  split_ifs <;> simp_all [BitVec.sle]

theorem max_toInt (x y : W64) : (if x.sle y then y else x) = BitVec.ofInt 64 (max x.toInt y.toInt) := by
  rw [max_def]
  split_ifs <;> simp_all [BitVec.sle]

/-- KLUI replaces the upper 16 bits (R100). -/
theorem klui_value (z : W64) (imm : BitVec 16) :
    BitVec.ofNat 64 (z.toNat % 2 ^ 48 + imm.toNat * 2 ^ 48) = imm ++ z.extractLsb' 0 48 := by
  apply BitVec.eq_of_toNat_eq
  have h1 : z.toNat % 2 ^ 48 < 2 ^ 48 := Nat.mod_lt _ (by decide)
  have h2 := imm.isLt
  rw [BitVec.toNat_append, BitVec.extractLsb'_toNat, Nat.shiftRight_zero, ← Nat.shiftLeft_add_eq_or_of_lt h1, Nat.shiftLeft_eq,
    BitVec.toNat_ofNat, Nat.mod_eq_of_lt (by omega), Nat.add_comm]

/-- KDIV leaves its quotient outstanding (R48, R99). -/
theorem kdiv_later {s : State} {u : Nat} {t : Team} (h : Issuing s u t) {d a : KReg} (hd : d.toNat ≤ 383) (ha : a.toNat ≤ 383)
    (b : BitVec 7) :
    UniLater (.kdiv d a b) s u t d.toNat (BitVec.ofNat 64 (divide 64 false (kreg t a.toNat).toNat (kreg t b.toNat).toNat).1) := by
  obtain ⟨s', t', he, hr⟩ := later_end h (accK3 d a b 0) ⟨false, [.k d.toNat], [], [], some (d.toNat,
    BitVec.ofNat 64 (divide 64 false (kreg t a.toNat).toNat (kreg t b.toNat).toNat).1), none, [], 0, none, [], []⟩ FlagSet.none
  refine ⟨s', t', ?_, hr⟩
  rw [← he, show exec (.kdiv d a b) s = execKdiv d a b s from rfl, execKdiv, issueOp_issuing h (accK3_fits hd ha b 0)]
  simp only [raiseVector, if_true]
  rfl

/-- The special values are those of the team that issued, whatever its group books. -/
theorem svValue_latch (s : State) (u : Nat) (t : Team) (a : Access) (sv : Sv) (i : Nat) :
    svValue (setTeam s u (latch s t a)) (latch s t a) sv i = svValue s t sv i := by
  cases sv <;> rfl

theorem outOk_one {r : Nat} (hr : r < 128) (w : W32) : OutOk [(r, w)] [] := ⟨by simp, by simpa using hr, by simp, by simp⟩

theorem outOk_pair {r : Nat} (hr : r + 1 < 128) (v : Nat) : OutOk (pairOut r v) [] :=
  ⟨by simp [pairOut], by simp [pairOut]; omega, by simp, by simp⟩

/-- MOVS to vector registers (R101). -/
theorem movs_vec {s : State} {u : Nat} {t : Team} (h : Issuing s u t) {d : KReg} {v : VReg} (hd : d.toNat = v.toNat) (sv : Sv)
    {out : Nat → List (Nat × W32)} (hf : Fits t [if svWide sv then v2 v else v1 v])
    (ho : ∀ i, (if svWide sv then pairOut (ef t v) (svValue s t sv i) else [(ef t v, BitVec.ofNat 32 (svValue s t sv i))]) = out i)
    (hok : ∀ i, OutOk (out i) []) : VecDone (.movs true d sv) s u t out (fun _ => []) FlagSet.none := by
  have hv : BitVec.ofNat 7 d.toNat = v := by simp [hd]
  rw [← flagAll_none (lanesOf t)]
  have hc : exec (.movs true d sv) s = vecOp { noAccess with wv := [if svWide sv then v2 v else v1 v], lat := 2, vector := true }
      (fun t i => lregs (if svWide sv then pairOut (ef t v) (svValue s t sv i) else [(ef t v, BitVec.ofNat 32 (svValue s t sv i))]))
      none s := by
    rw [← hv]; rfl
  exact vecOp_done h ⟨by simpa [noAccess] using hf, by simp [noAccess]⟩ rfl hc (fun i => by rw [← ho i]; cases sv <;> rfl) (fun i _ => hok i)

/-- Settles O8, from what a uniform instruction and a vector instruction of fixed latency do. -/
theorem uniformInstructionsResults : Obligations.UniformInstructionsResults := by
  refine ⟨fun s u t h d a b hd ha => ?_, fun s t i hb => ?_⟩
  · refine ⟨k3Op_done (f := (· + ·)) h hd ha rfl, k3Op_done (f := (· - ·)) h hd ha rfl, k3Op_done (f := (· * ·)) h hd ha rfl,
      k3Op_done (f := (· &&& ·)) h hd ha rfl, k3Op_done (f := (· ||| ·)) h hd ha rfl, k3Op_done (f := (· ^^^ ·)) h hd ha rfl,
      k3Op_done (f := fun x y => x <<< (y.toNat % 64)) h hd ha rfl, k3Op_done (f := fun x y => x >>> (y.toNat % 64)) h hd ha rfl,
      k3Op_done (f := fun x y => x.sshiftRight (y.toNat % 64)) h hd ha rfl, ?_, ?_, kdiv_later h hd ha b, fun imm x => ?_,
      fun imm x => ?_, fun imm => ?_, fun sv _ _ => ?_, fun sv v hv => ⟨fun hw hf => ?_, fun hw hf => ?_⟩⟩
    · rw [← min_toInt]; exact k3Op_done (f := fun x y => if x.sle y then x else y) h hd ha rfl
    · rw [← max_toInt]; exact k3Op_done (f := fun x y => if x.sle y then y else x) h hd ha rfl
    · exact uniformOp_done (f := fun _ _ => BitVec.ofInt 64 (immSigned 16 imm.toNat x)) h (kli_fits hd 2) rfl rfl rfl
    · exact uniformOp_done (f := fun _ t => kreg t d.toNat + BitVec.ofInt 64 (immSigned 16 imm.toNat x)) h (kaddi_fits hd 2) rfl rfl rfl
    · exact uniformOp_done (f := fun _ t => BitVec.ofNat 64 ((kreg t d.toNat).toNat % 2 ^ 48 + imm.toNat * 2 ^ 48)) h
        (kaddi_fits hd 2) rfl rfl (klui_value ..)
    · exact uniformOp_done (f := fun s t => BitVec.ofNat 64 (svValue s t sv 0)) h (kli_fits hd 2) rfl rfl
        (congrArg _ (svValue_latch ..))
    · refine movs_vec h hv sv (by simpa [hw] using hf) (fun i => by simp [hw]) fun i => ?_
      have := (hf (v1 v) (by simp)).1
      have := h.allotted
      exact outOk_one (by simp only [v1, ef] at *; omega) _
    · refine movs_vec h hv sv (by simpa [hw] using hf) (fun i => by simp [hw]) fun i => ?_
      have := (hf (v2 v) (by simp)).1
      have := h.allotted
      exact outOk_pair (by simp only [v2, ef] at *; omega) _
  · exact ⟨by simp [svValue, hb], by simp [svValue, hb], rfl, rfl, rfl, rfl, rfl, rfl, rfl, rfl,
      fun k hk => by simp [svValue, teamKernel, hk], rfl⟩

end Sys2Proof.Machine

namespace Sys2Proof.Machine

/-! ## A vector instruction with no active lane (R82) -/

/-- With em zero a vector instruction only goes on, whatever its registers. -/
theorem issueOp_noLanes {s : State} {u : Nat} {t : Team} (h : Issuing s u t) (he : lanesOf t = []) {a : Access}
    (ha : a.vector = true) (eff : State → Nat → Team → Out) : issueOp a eff s = done (fallThrough (setTeam s u (latch s t a)) u false) := by
  have hb := beginGroup_issuing h a
  rw [h.latched] at hb
  have hl : lanesOf (latch s t a) = [] := he
  unfold issueOp
  simp only [h.latched, hb, getTeam_setTeam, if_true, hl, ha, Bool.true_and, List.isEmpty_nil]

/-- The vector instructions (R39). -/
def IsVector : Instr → Prop
  | .iadd .. | .isub .. | .imul .. | .imad .. | .idiv .. | .lop .. | .shf .. | .bits .. | .imnx .. | .icmp .. | .sel ..
  | .iaddi .. | .ishi .. | .icmpi .. | .lopi .. | .iaddk .. | .ilea .. | .movk .. | .movs true _ _ | .fadd .. | .fsub ..
  | .fmul .. | .ffma .. | .fmnx .. | .fcmp .. | .fsf .. | .cvt .. | .pack .. | .dp4 .. | .fcls .. | .shfl .. | .vote ..
  | .rdx .. | .scan .. | .lmov .. | .ld .. | .st .. | .lds .. | .sts .. | .ldt .. | .ldb .. | .cacheZero ..
  | .cacheInv .. | .cacheEvict .. | .cacheFetch .. | .bra .. | .jmpi .. => True
  | _ => False

/-- An outcome is that of the issue of a vector access. -/
def VectorIssue (o : Out) (s : State) : Prop := ∃ a eff, a.vector = true ∧ o = issueOp a eff s

theorem issueOp_vector {s : State} {a : Access} {f} {o : Out} (hc : o = issueOp a f s) (ha : a.vector = true) : VectorIssue o s :=
  ⟨a, f, ha, hc⟩

theorem vecOp_vector {s : State} {a : Access} {f g} {o : Out} (hc : o = vecOp a f g s) (ha : a.vector = true) : VectorIssue o s :=
  ⟨a, _, ha, hc⟩

theorem vecLater_vector {s : State} {a : Access} {f g} {o : Out} (hc : o = vecLater a f g s) (ha : a.vector = true) : VectorIssue o s :=
  ⟨a, _, ha, hc⟩

theorem crossOp_vector {s : State} {a : Access} {later f} {o : Out} (hc : o = crossOp a later f s) (ha : a.vector = true) :
    VectorIssue o s := by
  unfold crossOp at hc
  exact ⟨_, _, by cases later <;> exact ha, hc⟩

theorem cacheQuiet_vector {s : State} {a b h f} {o : Out} (hc : o = cacheQuiet a b h f s) : VectorIssue o s :=
  ⟨accCache a b, _, rfl, hc⟩

theorem fopExec_vector (op ty rm sat d a b) (s : State) : VectorIssue (fopExec op ty rm sat d a b s) s := vecOp_vector rfl rfl

theorem cvt_vector (code rm sat d a) (s : State) : VectorIssue (execCvt code rm sat d a s) s := by
  unfold execCvt
  cases cvtOf code.toNat with
  | none => exact vecOp_vector rfl rfl
  | some c => exact vecOp_vector rfl rfl

/-- Every vector instruction runs as the issue of a vector access. -/
theorem exec_vector {c : Instr} (hc : IsVector c) (s : State) : VectorIssue (exec c s) s := by
  cases c with
  | iadd | isub | imul | imad | lop | shf | bits | imnx | icmp | sel | iaddi | ishi | icmpi | lopi | iaddk | ilea | movk
  | fmnx | fcmp | pack | dp4 | fcls => exact vecOp_vector rfl rfl
  | fadd | fsub | fmul | ffma => exact fopExec_vector ..
  | cvt => exact cvt_vector ..
  | idiv | fsf => exact vecLater_vector rfl rfl
  | rdx | scan => exact crossOp_vector rfl rfl
  | shfl => exact crossOp_vector (execShfl.eq_1 ..) rfl
  | vote => exact crossOp_vector (execVote.eq_1 ..) rfl
  | lmov => exact crossOp_vector (execLmov.eq_1 ..) rfl
  | cacheInv => exact cacheQuiet_vector (execCacheInv.eq_1 ..)
  | cacheEvict => exact cacheQuiet_vector (execCacheEvict.eq_1 ..)
  | cacheFetch => exact cacheQuiet_vector (execCacheFetch.eq_1 ..)
  | movs vec d sv =>
    cases vec
    · exact hc.elim
    · exact vecOp_vector rfl rfl
  | ld => exact issueOp_vector (execLd.eq_1 ..) rfl
  | st => exact issueOp_vector (execSt.eq_1 ..) rfl
  | lds => exact issueOp_vector (execLds.eq_1 ..) rfl
  | sts => exact issueOp_vector (execSts.eq_1 ..) rfl
  | ldt => exact issueOp_vector (execLdt.eq_1 ..) rfl
  | ldb => exact issueOp_vector (execLdb.eq_1 ..) rfl
  | cacheZero => exact issueOp_vector (execCacheZero.eq_1 ..) rfl
  | bra => exact issueOp_vector (execBra.eq_1 ..) rfl
  | jmpi => exact issueOp_vector (execJmpi.eq_1 ..) rfl
  | _ => exact hc.elim

/-- Settles O18: a vector access of a team with no active lane goes on before it has an effect. -/
theorem noActiveLaneNoEffect : Obligations.NoActiveLaneNoEffect := by
  intro s u t h he c hc
  obtain ⟨a, eff, ha, hi⟩ := exec_vector (c := c) hc s
  rw [hi, issueOp_noLanes h he ha]
  exact plain_end h a _ _ _
end Sys2Proof.Machine

namespace Sys2Proof.Machine

/-! ## A result that an RMW holds back (R427) -/

/-- The answered result of an SC atomic add to a peer's word, for v3 of lane 0. -/
def answeredRmw : Pending := ⟨false, [.v 3], [⟨0, 3, 7#32⟩], [], none, none, [], 0, none, [], []⟩

/-- A team whose atomic add has been answered by its peer, while an SC operation with a smaller timestamp is held (R393). -/
def rmwTeam : Team :=
  { Team.blank with
    status := .waiting (.peerRmw 5 .b32 .sys ⟨.add, .unsigned, .sc⟩ [⟨0, 0x8000, 1, 0⟩] (some 3)), lanes := 32, pend := [answeredRmw] }

/-- The device with that team alone. -/
def rmwDevice : State := { State.reset with teams := [(1, rmwTeam)] }

theorem rmwDevice_quiet : Quiet rmwDevice := ⟨rfl, rfl, fun _ => rfl, fun _ => rfl⟩

/-- The writeback leaves such a result to the operation's own completion. -/
theorem rmwDevice_held : exec (.variableResultWriteback 1) rmwDevice = .next rmwDevice := rfl

/-- Refutes O15: the result of an RMW that waits for its peers is held back by the team's status `.waiting (.peerRmw …)`, which no hypothesis
of the first clause excludes; VARIABLE_RESULT_WRITEBACK leaves it outstanding. -/
theorem not_resultsAreWrittenBack : ¬ Obligations.ResultsAreWrittenBack := by
  intro h
  obtain ⟨s', t', he, ht, -, hp, -⟩ := h.1 rmwDevice 1 false 0 answeredRmw rmwDevice_quiet (by decide) rfl rfl rfl rfl rfl rfl rfl
    (by decide) (by decide) (by decide) (by decide) (by decide)
  obtain rfl : rmwDevice = s' := by simpa [rmwDevice_held] using he
  obtain rfl : rmwTeam = t' := by simpa [rmwDevice, find?] using ht
  exact absurd (congrArg Team.pend hp) (by decide)

end Sys2Proof.Machine

namespace Sys2Proof.Machine

/-! ## Reads by a team that knows the newest writes (R394, R396) -/

/-- What such a read takes of a granule is the newest write of each place. -/
theorem mem_takeWrites (knows take : Nat → Bool) (ws : List Write) : ∀ (todo : List Nat),
    (∀ i ∈ todo, ∀ w, ws.find? (fun w => writesAt w i) = some w → knows (seenCode w.n i) = true) →
    ∀ e ∈ takeWrites knows take ws todo, e.1 ∈ todo ∧ ws.find? (fun w => writesAt w e.1) = some e.2 := by
  induction ws with
  | nil => intro todo _ e he; simp [takeWrites] at he
  | cons w ws ih =>
    intro todo h e he
    have hk : ∀ j ∈ todo, writesAt w j = true → knows (seenCode w.n j) = true := fun j hj hw => h j hj w (by simp [hw])
    simp only [takeWrites] at he
    split_ifs at he with h1
    · rcases List.mem_append.1 he with he | he
      · obtain ⟨i, hi, rfl⟩ := List.mem_map.1 he
        obtain ⟨hi1, hi2⟩ := List.mem_filter.1 hi
        exact ⟨hi1, by simp [hi2]⟩
      · have hrest : ∀ j ∈ todo.filter (fun i => !(todo.filter (writesAt w)).contains i), j ∈ todo ∧ writesAt w j = false := by
          intro j hj
          simp only [List.mem_filter, List.contains_eq_mem, Bool.not_eq_true', decide_eq_false_iff_not] at hj
          exact ⟨hj.1, by simpa [hj.1] using hj.2⟩
        obtain ⟨h2, h3⟩ := ih _ (fun j hj x hx => h j (hrest j hj).1 x (by simpa [(hrest j hj).2] using hx)) e he
        exact ⟨(hrest _ h2).1, by simpa [(hrest _ h2).2] using h3⟩
    · have hn : ∀ j ∈ todo, writesAt w j = false := by
        intro j hj
        by_contra hw
        rw [Bool.not_eq_false] at hw
        refine h1 ?_
        have hm : j ∈ todo.filter (writesAt w) := List.mem_filter.2 ⟨hj, hw⟩
        rw [Bool.and_eq_true, Bool.or_eq_true, List.any_eq_true, Bool.not_eq_true']
        exact ⟨List.isEmpty_eq_false_iff.2 (List.ne_nil_of_mem hm), .inr ⟨j, hm, hk j hj hw⟩⟩
      obtain ⟨h2, h3⟩ := ih _ (fun j hj x hx => h j hj x (by simpa [hn j hj] using hx)) e he
      exact ⟨h2, by simpa [hn _ h2] using h3⟩

/-- A read by a party that knows the newest writes sees no byte that it has not seen. -/
theorem readBytes_seen {s : State} {seen : List Nat} {first a n : Nat} {mem : Nat → Byte} (h : Synced s seen first a n mem)
    {knows : Nat → Bool} (hk : ∀ x ∈ seen, knows x = true) (reader : Nat) {now : List Byte} (hn : now.length = n) :
    ∀ c ∈ (readBytes s knows reader first a now).seen, c ∈ seen := by
  have step : ∀ (l : List (Nat × Nat × Nat)) (f : Found),
      (∀ e ∈ l, a ≤ 16 * e.1 + e.2.1 ∧ 16 * e.1 + e.2.1 + e.2.2 ≤ a + n ∧ e.2.1 + e.2.2 ≤ 16) → (∀ c ∈ f.seen, c ∈ seen) →
      ∀ c ∈ (l.foldl (fun f e =>
        match find? s.hist (first + e.1) with
        | none => { f with bytes := f.bytes ++ (now.drop (16 * e.1 + e.2.1 - a)).take e.2.2 }
        | some g =>
          let r := readGrain g knows (fun n => Config.freeSees s.free n reader) e.2.1 e.2.2
          ⟨f.bytes ++ r.bytes, f.seen ++ r.seen, addRels f.rels r.rels⟩) f).seen, c ∈ seen := by
    intro l
    induction l with
    | nil => intro f _ hf; exact hf
    | cons e l ih =>
      intro f he hf
      obtain ⟨h1, h2, h3⟩ := he e (List.mem_cons_self ..)
      rw [List.foldl_cons]
      refine ih _ (fun e he' => he e (List.mem_cons_of_mem _ he')) ?_
      cases hg : find? s.hist (first + e.1) with
      | none => exact hf
      | some g =>
        have newest : ∀ i ∈ rangeFrom e.2.1 e.2.2, ∀ w, g.writes.find? (fun w => writesAt w i) = some w → seenCode w.n i ∈ seen := by
          intro i hi w hw
          rw [mem_rangeFrom] at hi
          have hd : (16 * e.1 + i) / 16 = e.1 := by omega
          have hm : (16 * e.1 + i) % 16 = i := by omega
          have hs := h (16 * e.1 + i) (by omega) (by omega) g (by rw [hd]; exact hg)
          simp only [newestAt, hd, hm, hg, Option.bind_some, hw] at hs
          exact hs.1
        intro c hc
        rcases List.mem_append.1 hc with hc | hc
        · exact hf c hc
        · obtain ⟨x, hx, rfl⟩ := List.mem_map.1 hc
          obtain ⟨hx1, hx2⟩ := mem_takeWrites knows _ g.writes _ (fun i hi w hw => hk _ (newest i hi w hw)) x hx
          exact newest x.1 hx1 x.2 hx2
  rw [readBytes, hn]
  refine step _ _ (fun e he => ?_) (by simp)
  simp only [grainsOf, List.mem_map, mem_rangeFrom] at he
  obtain ⟨g, hg, rfl⟩ := he
  simp only
  omega

/-- A team that holds more releases than before. -/
def withRels (t : Team) (l : List Rel) : Team := { t with got := t.got ++ l }

@[simp] theorem withRels_nil (t : Team) : withRels t [] = t := by simp [withRels]
@[simp] theorem withRels_append (t : Team) (l m : List Rel) : withRels (withRels t l) m = withRels t (l ++ m) := by simp [withRels]

/-- A lane of a team that knows the newest writes reads what memory holds; the team may find releases, and nothing else changes. -/
theorem laneReads_newest {s : State} {u : Nat} {t : Team} {first a n : Nat} {mem : Nat → Byte} (ht : getTeam s u = t)
    (hb : t.bounds = false) (hs : Synced s t.seen first a n mem) (lane : Nat) :
    laneReads s u lane first a ((rangeFrom a n).map mem) = (s, (rangeFrom a n).map mem) ∨
      ∃ l, laneReads s u lane first a ((rangeFrom a n).map mem) = (setTeam s u (withRels t l), (rangeFrom a n).map mem) := by
  have hk : ∀ x ∈ t.seen, laneKnows t lane x = true := fun x hx => by simp [laneKnows, hx]
  have hbytes := readBytes_synced hs hk lane rfl
  have hseen := readBytes_seen hs hk lane (now := (rangeFrom a n).map mem) (by simp [rangeFrom])
  generalize hf : readBytes s (laneKnows t lane) lane first a ((rangeFrom a n).map mem) = f at hbytes hseen
  have hj : joinSeen t.seen f.seen = t.seen := joinSeen_of_all (List.all_eq_true.2 fun c hc => List.contains_iff_mem.2 (hseen c hc))
  simp only [laneReads, ht, hf, hbytes, if_neg (Bool.eq_false_iff.1 hb), hj]
  split_ifs with hc
  · exact .inl rfl
  · exact .inr ⟨f.rels.eraseDups.filter fun r => !t.got.contains r, rfl⟩

theorem laneReads_synced {s : State} {t : Team} {first a n : Nat} {mem : Nat → Byte} (hb : t.bounds = false)
    (hs : Synced s t.seen first a n mem) (u lane : Nat) :
    ∃ l, laneReads (setTeam s u t) u lane first a ((rangeFrom a n).map mem) =
      (setTeam s u (withRels t l), (rangeFrom a n).map mem) := by
  rcases laneReads_newest (s := setTeam s u t) (u := u) (by simp) hb hs lane with h | ⟨l, h⟩
  · exact ⟨[], by simpa using h⟩
  · exact ⟨l, by simpa using h⟩

/-! ## Scratchpad loads (R160, R164) -/

/-- Bytes that a scratchpad holds are shown as they stand, whatever early writes it keeps (R194). -/
theorem spadShown_now (c : Core) (a n : Nat) : spadShown c a ((rangeFrom a n).map (spadNow c)) = spadBytes c a n := by
  apply List.ext_getElem
  · simp [spadShown, spadBytes, rangeFrom]
  · intro i h1 h2
    simp only [spadShown, spadBytes, rangeFrom, List.getElem_map, List.getElem_zipIdx, List.getElem_range, spadNow]
    cases hf : find? c.lateSpad (a + i) <;> simp

theorem spadRead_synced {s : State} {t : Team} {a n : Nat} (hb : t.bounds = false) (hs : SpadSynced s t a n) (u lane : Nat) :
    ∃ l, spadRead (setTeam s u t) u lane a n = (setTeam s u (withRels t l), spadBytes (getCore s t.core) a n) := by
  obtain ⟨l, hl⟩ := laneReads_synced hb hs u lane
  refine ⟨l, ?_⟩
  simp only [spadRead, getTeam_setTeam, if_true, getCore_setTeam, hl, spadShown_now]

/-- The reads of one lane. -/
theorem spadReads_lane {s : State} {n : Nat} (u lane : Nat) : ∀ (as : List Nat) (t : Team) (bs : List Byte), t.bounds = false →
    (∀ a ∈ as, SpadSynced s t a n) →
    ∃ l, as.foldl (fun (h : State × List Byte) a => match spadRead h.1 u lane a n with | (s1, bs) => (s1, h.2 ++ bs))
      (setTeam s u t, bs) = (setTeam s u (withRels t l), bs ++ as.flatMap fun a => spadBytes (getCore s t.core) a n) := by
  intro as
  induction as with
  | nil => intro t bs _ _; exact ⟨[], by simp⟩
  | cons a as ih =>
    intro t bs hb hs
    obtain ⟨l, hl⟩ := spadRead_synced hb (hs a (List.mem_cons_self ..)) u lane
    obtain ⟨m, hm⟩ := ih (withRels t l) (bs ++ spadBytes (getCore s t.core) a n) hb
      (fun a ha => hs a (List.mem_cons_of_mem _ ha))
    refine ⟨l ++ m, ?_⟩
    rw [List.foldl_cons, hl]
    simp only [hm, withRels_append, List.flatMap_cons, List.append_assoc]
    rfl

theorem spadReads_synced {s : State} {n : Nat} (u : Nat) (addrs : Nat → List Nat) (lanes : List Nat) (t : Team) (hb : t.bounds = false)
    (hs : ∀ i ∈ lanes, ∀ a ∈ addrs i, SpadSynced s t a n) :
    ∃ l, spadReads u n addrs (setTeam s u t) lanes = (setTeam s u (withRels t l),
      lanes.map fun i => (i, (addrs i).flatMap fun a => spadBytes (getCore s t.core) a n)) := by
  have key : ∀ (lanes : List Nat) (t : Team) (r : List (Nat × List Byte)), t.bounds = false →
      (∀ i ∈ lanes, ∀ a ∈ addrs i, SpadSynced s t a n) →
      ∃ l, lanes.foldl (fun g i =>
        match (addrs i).foldl (fun (h : State × List Byte) a =>
          match spadRead h.1 u i a n with
          | (s1, bs) => (s1, h.2 ++ bs)) (g.1, []) with
        | (s1, bs) => (s1, g.2 ++ [(i, bs)])) (setTeam s u t, r) = (setTeam s u (withRels t l),
          r ++ lanes.map fun i => (i, (addrs i).flatMap fun a => spadBytes (getCore s t.core) a n)) := by
    intro lanes
    induction lanes with
    | nil => intro t r _ _; exact ⟨[], by simp⟩
    | cons i lanes ih =>
      intro t r hb hs
      obtain ⟨l, hl⟩ := spadReads_lane u i (addrs i) t [] hb (hs i (List.mem_cons_self ..))
      obtain ⟨m, hm⟩ := ih (withRels t l) (r ++ [(i, (addrs i).flatMap fun a => spadBytes (getCore s t.core) a n)]) hb
        (fun j hj => hs j (List.mem_cons_of_mem _ hj))
      refine ⟨l ++ m, ?_⟩
      rw [List.foldl_cons]
      simp only [hl, List.nil_append, hm, withRels_append, List.map_cons, List.append_assoc, List.singleton_append]
      rfl
  simpa [spadReads] using key lanes t [] hb hs

/-- What a table finds is one of its entries. -/
theorem find?_mem {α : Type} {l : List (Nat × α)} {n : Nat} {v : α} (h : find? l n = some v) : (n, v) ∈ l := by
  induction l with
  | nil => simp [find?] at h
  | cons e l ih =>
    obtain ⟨k, w⟩ := e
    simp only [find?] at h
    split_ifs at h with hk
    · cases h; simp [hk]
    · exact List.mem_cons_of_mem _ (ih h)

/-- A team that issues issues still when it holds more releases. -/
theorem IssuingIn.withRels {b : Bool} {s : State} {u : Nat} {t : Team} (h : IssuingIn b s u t) (l : List Rel) :
    IssuingIn b (setTeam s u (withRels t l)) u (withRels t l) := by
  have hy : ∀ e ∈ (setTeam s u (Machine.withRels t l)).teams, u ∉ e.2.yielded := by
    intro e he
    rcases mem_tabPut he with rfl | he
    · exact show u ∉ t.yielded from h.unawaited _ (find?_mem h.team)
    · exact h.unawaited e he
  exact ⟨h.latched, by simp [find?_setTeam], h.ready, h.mode, h.untraced, h.alone, hy, h.counted, h.whole, h.arrived, h.unheld,
    h.allotted, h.part, h.quiet.setTeam ..⟩

theorem writeLanes_nil {s : State} {u : Nat} (t : Team) : writeLanes (setTeam s u t) u [] = setTeam s u t := by
  simp [writeLanes, lanesWrite, taintRegs]

/-- A scratchpad load completes once its lanes have read. -/
theorem spadRead_done {c : Instr} {s : State} {u : Nat} {t : Team} (h : Issuing s u t) (a : Access) (l : List Rel)
    {out : Nat → List (Nat × W32)} (hok : ∀ i ∈ lanesOf t, OutOk (out i) [])
    (hc : exec c s = done (fallThrough (writeLanes (setTeam s u (withRels (latch s t a) l)) u
      ((lanesOf t).map fun i => (i, lregs (out i)))) u false)) : SpadRead c s u t out := by
  have h0 := h.withRels l
  obtain ⟨s', t', e1, e2, -, e4⟩ := writeLanes_end h0 a ((lanesOf t).map fun i => (i, lregs (out i))) FlagSet.none
    (by simpa [List.map_map, Function.comp_def] using lanesOf_nodup t)
    (fun e he => by obtain ⟨i, hi, rfl⟩ := List.mem_map.1 he; exact hok i hi)
  have hs : setTeam (setTeam s u (withRels t l)) u (latch (setTeam s u (withRels t l)) (withRels t l) a) =
      setTeam s u (withRels (latch s t a) l) := setTeam_setTeam ..
  rw [hs] at e1
  refine ⟨l, s', t', ?_, ?_, by simp, ?_⟩
  · rw [hc, ← e1]
    simp [raiseVector]
  · intro i hi x hx
    exact e2 (i, lregs (out i)) (List.mem_map.2 ⟨i, hi, rfl⟩) x hx
  · refine ⟨e4.rest, e4.team, e4.others, e4.cores, e4.flags, e4.bytes, fun i r hr hn => e4.vregs i r hr ?_,
      fun i r hr _ => e4.pregs i r hr ?_, e4.kregs, e4.outstanding, e4.goes, e4.body⟩
    · rintro ⟨o, ho, hm⟩
      obtain ⟨j, hj, hjo⟩ := List.mem_map.1 ho
      obtain ⟨rfl, rfl⟩ := Prod.mk.inj hjo
      exact hn ⟨hj, hm⟩
    · rintro ⟨o, ho, hm⟩
      obtain ⟨j, hj, hjo⟩ := List.mem_map.1 ho
      obtain ⟨rfl, rfl⟩ := Prod.mk.inj hjo
      simp [lregs] at hm

theorem spadFault_none {limit al n : Nat} {l : List LaneAddr} (h : ∀ e ∈ l, e.addr % al = 0 ∧ e.addr + n ≤ limit) :
    spadFault limit al n l = none := by
  simp only [spadFault, List.findSome?_eq_none_iff, Option.map_eq_none_iff]
  intro e he
  obtain ⟨h1, h2⟩ := h e he
  simp [spadCause, h1, Nat.not_lt.2 h2]

/-- The registers of a scratchpad access are in the allotment. -/
theorem accM_fits {t : Team} {global : Bool} {w : Width} {m : MArgs} (hf : Fits t (offUse global m.a m.b ++ [dataUse w m.t]))
    (read write : Bool) : AccFits t (accM global w m read write) := by
  refine ⟨fun v hv => hf v ?_, ?_⟩
  · simp only [accM, noAccess, List.mem_append] at hv ⊢
    cases read <;> cases write <;> simp at hv ⊢ <;> tauto
  · have := m.b.isLt
    simp [accM, noAccess]
    omega

/-- What a load writes in a lane are registers of the allotment, each once. -/
theorem loadOut_ok {t : Team} {w : Width} {d : VReg} (ha : t.allot ≤ 128) (hf : Fits t [dataUse w d]) (v : Nat) :
    OutOk (loadOut w (ef t d) v) [] := by
  have := (hf (dataUse w d) (by simp)).1
  unfold loadOut
  split_ifs with hw
  · exact outOk_pair (by simp [dataUse, hw, v2, ef] at *; omega) v
  · exact outOk_one (by simp [dataUse, hw, v1, ef] at *; omega) _

theorem Fits.of_append_right {t : Team} {a b : List VUse} (h : Fits t (a ++ b)) : Fits t b := fun u hu => h u (List.mem_append_right _ hu)

theorem mem_dedupNat {l : List Nat} {x : Nat} (h : x ∈ dedupNat l) : x ∈ l := by
  induction l with
  | nil => simp [dedupNat] at h
  | cons y l ih =>
    simp only [dedupNat, List.mem_cons, List.mem_filter] at h
    exact List.mem_cons.2 (h.imp_right fun h => ih h.1)

/-- A SCRATCHPAD LOAD SAID ONCE: its active lanes read pieces whose newest writes the team knows, and each writes what `val` makes of them. -/
theorem spadLoad_done {c : Instr} {s : State} {u : Nat} {t : Team} (h : Issuing s u t) {a : Access} (ha : AccFits t a)
    (hv : a.vector = true) {n : Nat} {addrs : Nat → List Nat} {val : List Byte → List (Nat × W32)} {eff : State → Nat → Team → Out}
    (hc : exec c s = issueOp a eff s)
    (heff : eff (setTeam s u (latch s t a)) u (latch s t a) =
      match spadReads u n addrs (setTeam s u (latch s t a)) (lanesOf t) with
      | (s1, got) => done (fallThrough (writeLanes s1 u (got.map fun e => (e.1, lregs (val e.2)))) u false))
    (hs : ∀ i ∈ lanesOf t, ∀ x ∈ addrs i, SpadSynced s t x n) {out : Nat → List (Nat × W32)} (hok : ∀ i ∈ lanesOf t, OutOk (out i) [])
    (hout : ∀ i ∈ lanesOf t, val ((addrs i).flatMap fun x => spadBytes (getCore s t.core) x n) = out i) : SpadRead c s u t out := by
  by_cases hem : lanesOf t = []
  · refine spadRead_done h a [] hok ?_
    rw [hc, issueOp_noLanes h hem hv, hem, withRels_nil, List.map_nil, writeLanes_nil]
  · obtain ⟨l, hl⟩ := spadReads_synced u addrs (lanesOf t) (latch s t a) h.mode hs
    refine spadRead_done h a l hok ?_
    rw [hc, issueOp_issuing h ha, if_neg (by simp [hem]), heff, hl]
    have hw : (lanesOf t).map (fun i => (i, lregs (out i))) = (lanesOf t).map fun i =>
        (i, lregs (val ((addrs i).flatMap fun x => spadBytes (getCore s t.core) x n))) :=
      List.map_congr_left fun i hi => by rw [hout i hi]
    rw [hw]
    simp only [List.map_map]
    rfl

/-- LDS (R160). -/
theorem lds_read {s : State} {u : Nat} {t : Team} (h : Issuing s u t) (w : Width) (sx : Bool) (m : MArgs)
    (hf : Fits t (offUse false m.a m.b ++ [dataUse w m.t])) (hs : SpadFits s t w m) :
    SpadRead (.lds w sx m) s u t
      (fun i => loadOut w (ef t m.t) (loadVal w sx (spadBytes (getCore s t.core) (spadAddr t m i) (widthBytes w)))) := by
  refine spadLoad_done (c := .lds w sx m) h (accM_fits hf false true) rfl (addrs := fun i => [spadAddr t m i])
    (val := fun bs => loadOut w (ef t m.t) (loadVal w sx bs)) (execLds.eq_1 w sx m s) ?_
    (fun i hi a ha => by rw [List.mem_singleton.1 ha]; exact (hs i hi).2.2.2)
    (fun i _ => loadOut_ok h.allotted hf.of_append_right _) (fun i _ => by simp)
  have hfault : spadFault (spgBytes (getCore s t.core).word) (widthBytes w) (widthBytes w) (spadLanes t m) = none :=
    spadFault_none fun e he => by
      obtain ⟨i, hi, rfl⟩ := List.mem_map.1 he
      exact ⟨(hs i hi).1, (hs i hi).2.1⟩
  have hpoison : (spadLanes t m).find? (fun e => spadPoisoned (getCore s t.core) e.addr (widthBytes w)) = none :=
    List.find?_eq_none.2 fun e he => by
      obtain ⟨i, hi, rfl⟩ := List.mem_map.1 he
      simp [(hs i hi).2.2.1]
  simp only [show ∀ a, (latch s t a).bounds = false from fun _ => h.mode, Bool.false_eq_true, if_false, getCore_setTeam,
    show ∀ a, (latch s t a).core = t.core from fun _ => rfl, show ∀ a, spadLanes (latch s t a) m = spadLanes t m from fun _ => rfl,
    hfault, hpoison]
  rfl

theorem splitRegs_regs (n : Nat) : ∀ r v, (splitRegs r n v).map (·.1) = rangeFrom r n := by
  induction n with
  | zero => intro r v; simp [splitRegs, rangeFrom]
  | succ n ih =>
    intro r v
    rw [splitRegs, List.map_cons, ih, show n + 1 = 1 + n by omega, rangeFrom_add]
    simp [rangeFrom]

theorem splitRegs_ok {r n : Nat} (hr : r + n ≤ 128) (v : Nat) : OutOk (splitRegs r n v) [] := by
  have hb : ∀ x ∈ (splitRegs r n v).map (·.1), x < 128 := by
    intro x hx
    rw [splitRegs_regs, mem_rangeFrom] at hx
    omega
  refine ⟨?_, fun e he => hb _ (List.mem_map_of_mem he), by simp, by simp⟩
  rw [splitRegs_regs]
  exact List.Nodup.map (fun a b h => by simpa using h) List.nodup_range

/-- LDT (R164): lane `i` takes one element from each of four rows. -/
theorem ldt_read {s : State} {u : Nat} {t : Team} (h : Issuing s u t) (w : Width) (m : MArgs) (hw : w ≠ .b64)
    (hf : Fits t (offUse false m.a m.b ++ [ldtUse w m.t]))
    (hr : ∀ i, (∃ j ∈ lanesOf t, j / 32 = i / 32) → spadAddr t m i % (4 * widthBytes w) = 0 ∧
      spadAddr t m i + 4 * widthBytes w ≤ spgBytes (getCore s t.core).word)
    (hp : (getCore s t.core).spadPoison = [])
    (hs : ∀ i ∈ lanesOf t, ∀ a ∈ ldtRows t m (widthBytes w) i, SpadSynced s t a (widthBytes w)) :
    SpadRead (.ldt w m) s u t
      (fun i => splitRegs (ef t m.t) (widthBytes w)
        (natOf ((ldtRows t m (widthBytes w) i).map fun a => spadBytes (getCore s t.core) a (widthBytes w)).flatten)) := by
  have hn : ef t m.t + widthBytes w ≤ 128 := by
    have := (hf (ldtUse w m.t) (by simp)).1
    have := h.allotted
    cases w <;> simp [ldtUse, v1, v2, v4, ef, widthBytes] at * <;> omega
  have ha : AccFits t { accM false .b32 m false false with wv := [ldtUse w m.t] } := by
    refine ⟨fun v hv => hf v (by simpa [accM, noAccess] using hv), ?_⟩
    have := m.b.isLt
    simp [accM, noAccess]
    omega
  refine spadLoad_done (c := .ldt w m) h ha rfl (addrs := ldtRows t m (widthBytes w))
    (val := fun bs => splitRegs (ef t m.t) (widthBytes w) (natOf bs)) (execLdt.eq_1 w m s) ?_ hs (fun i _ => splitRegs_ok hn _)
    (fun i _ => rfl)
  have hfault : spadFault (spgBytes (getCore s t.core).word) (4 * widthBytes w) (4 * widthBytes w)
      (((dedupNat ((lanesOf t).map (· / 32))).map fun r => (rangeFrom (32 * r) 32).map fun i =>
        (⟨i, spadAddr t m i⟩ : LaneAddr)).flatten) = none :=
    spadFault_none fun e he => by
      simp only [List.mem_flatten, List.mem_map] at he
      obtain ⟨_, ⟨r, hr1, rfl⟩, he⟩ := he
      obtain ⟨i, hi, rfl⟩ := List.mem_map.1 he
      rw [mem_rangeFrom] at hi
      obtain ⟨j, hj, rfl⟩ := List.mem_map.1 (mem_dedupNat hr1)
      exact hr i ⟨j, hj, by omega⟩
  have hpoison : (lanesOf t).findSome? (fun i =>
      ((ldtRows t m (widthBytes w) i).find? (fun a => spadPoisoned (getCore s t.core) a (widthBytes w))).map fun a => (i, a)) = none :=
    List.findSome?_eq_none_iff.2 fun i _ => by
      simp [spadPoisoned, hp]
  simp only [show ∀ a, (latch s t a).bounds = false from fun _ => h.mode, Bool.false_eq_true, if_false, getCore_setTeam,
    show ∀ a, (latch s t a).core = t.core from fun _ => rfl, show ∀ a, lanesOf (latch s t a) = lanesOf t from fun _ => rfl,
    show ∀ a i, spadAddr (latch s t a) m i = spadAddr t m i from fun _ _ => rfl,
    show ∀ a, ldtRows (latch s t a) m = ldtRows t m from fun _ => rfl, hfault, hpoison]
  rfl

/-! ## Writes of a team that knows the newest writes (R394-R396) -/

/-- A party that has seen `seen` synchronizes with the newest write of the byte at `x`, and `b` is what it left there. -/
def SyncedAt (s : State) (seen : List Nat) (first x : Nat) (b : Byte) : Prop :=
  ∀ g, find? s.hist (first + x / 16) = some g →
    match newestAt s first x with
    | some w => seenCode w.n (x % 16) ∈ seen ∧ b = writeByte w (x % 16)
    | none => b = nth 0#8 g.base (x % 16)

theorem synced_iff {s : State} {seen : List Nat} {first a n : Nat} {mem : Nat → Byte} :
    Synced s seen first a n mem ↔ ∀ x, a ≤ x → x < a + n → SyncedAt s seen first x (mem x) := Iff.rfl

theorem SyncedAt.mono {s : State} {seen seen' : List Nat} {first x : Nat} {b : Byte} (h : SyncedAt s seen first x b)
    (hs : ∀ c ∈ seen, c ∈ seen') : SyncedAt s seen' first x b := by
  intro g hg
  have := h g hg
  split at this
  · exact ⟨hs _ this.1, this.2⟩
  · exact this

theorem mem_maskOf (bytes : List (Option Byte)) (i : Nat) : i ∈ maskOf bytes ↔ ∃ b, bytes[i]? = some (some b) := by
  simp only [maskOf, List.mem_filterMap, Prod.exists, List.mem_zipIdx_iff_getElem?, Option.ite_none_right_eq_some, Option.some.injEq]
  constructor
  · rintro ⟨o, j, hj, ho, rfl⟩
    obtain ⟨b, rfl⟩ := Option.isSome_iff_exists.1 ho
    exact ⟨b, hj⟩
  · rintro ⟨b, hb⟩
    exact ⟨some b, i, hb, rfl, rfl⟩

theorem writesAt_iff (w : Write) (i : Nat) : writesAt w i = true ↔ i ∈ maskOf w.bytes := by
  rw [mem_maskOf, writesAt]
  rcases h : w.bytes[i]? with _ | _ | b <;> simp

/-- A write that may pass no newest write of its places stands before all of them: no newer write covers any of its places. -/
theorem splitWrites_newest (pass : Write → Bool) (mask : List Nat) : ∀ ws : List Write,
    (∀ i ∈ mask, ∀ w, ws.find? (fun w => writesAt w i) = some w → pass w = false) →
    ∃ x, splitWrites pass mask [] ws = some x ∧ x.1 ++ x.2 = ws ∧ ∀ w ∈ x.1, ∀ i ∈ mask, writesAt w i = false := by
  intro ws
  induction ws with
  | nil => intro _; exact ⟨([], []), by simp [splitWrites]⟩
  | cons w ws ih =>
    intro h
    by_cases hit : mask.filter (writesAt w) = []
    · have hn : ∀ i ∈ mask, writesAt w i = false := fun i hi => by simpa using List.filter_eq_nil_iff.1 hit i hi
      obtain ⟨x, h1, h2, h3⟩ := ih fun i hi y hy => h i hi y (by simpa [hn i hi] using hy)
      refine ⟨(w :: x.1, x.2), ?_, by simp [h2], ?_⟩
      · simp [splitWrites, hit, h1]
      · exact List.forall_mem_cons.2 ⟨hn, h3⟩
    · obtain ⟨i, hi⟩ := List.exists_mem_of_ne_nil _ hit
      obtain ⟨hi, hw⟩ := List.mem_filter.1 hi
      have hp := h i hi w (by simp [hw])
      exact ⟨([], w :: ws), by simp [splitWrites, hit, hp], rfl, by simp⟩

theorem placeWrite_newest {s : State} {au : Author} {mask : List Nat} {ws : List Write}
    (h : ∀ i ∈ mask, ∀ w, ws.find? (fun w => writesAt w i) = some w → seenCode w.n i ∈ au.seen) :
    (placeWrite s au false mask ws).1 ++ (placeWrite s au false mask ws).2 = ws ∧
      ∀ w ∈ (placeWrite s au false mask ws).1, ∀ i ∈ mask, writesAt w i = false := by
  have hp : ∀ i ∈ mask, ∀ w, ws.find? (fun w => writesAt w i) = some w →
      (!au.last && !(false && w.sc) && Config.freeOrder s.free s.nextWrite w.n &&
        !(mask.any fun i => writesAt w i && au.seen.contains (seenCode w.n i))) = false := by
    intro i hi w hw
    have hm : mask.any (fun i => writesAt w i && au.seen.contains (seenCode w.n i)) = true := by
      rw [List.any_eq_true]
      exact ⟨i, hi, by simp [List.find?_some hw, h i hi w hw]⟩
    simp only [hm, Bool.not_true, Bool.and_false]
  obtain ⟨x, h1, h2, h3⟩ := splitWrites_newest _ mask ws hp
  simp only [placeWrite, h1, Option.getD_some]
  exact ⟨h2, h3⟩

/-- What masked bytes from `a` on write at `x`. -/
def cellAt (a : Nat) (bytes : List (Option Byte)) (x : Nat) : Option Byte := if a ≤ x then (bytes[x - a]?).getD none else none

/-- The granule's part of masked bytes. -/
def grainPart (a : Nat) (bytes : List (Option Byte)) (k : Nat) : List (Option Byte) := (rangeFrom (16 * k) 16).map (cellAt a bytes)

theorem grainPart_get {a : Nat} {bytes : List (Option Byte)} {k i : Nat} (hi : i < 16) :
    (grainPart a bytes k)[i]? = some (cellAt a bytes (16 * k + i)) := by
  simp [grainPart, rangeFrom, List.getElem?_range hi]

theorem mem_maskOf_grainPart {a : Nat} {bytes : List (Option Byte)} {k i : Nat} :
    i ∈ maskOf (grainPart a bytes k) ↔ i < 16 ∧ (cellAt a bytes (16 * k + i)).isSome := by
  rw [mem_maskOf]
  by_cases hi : i < 16
  · simp [grainPart_get hi, hi, Option.isSome_iff_exists]
  · simp [grainPart, rangeFrom, hi]

theorem nth_rangeFrom_map {α : Type} {d : α} {f : Nat → α} {a n i : Nat} (hi : i < n) : nth d ((rangeFrom a n).map f) i = f (a + i) := by
  have key : ∀ (l : List α) (i : Nat), nth d l i = (l[i]?).getD d := by
    intro l
    induction l with
    | nil => intro i; rfl
    | cons x l ih => intro i; cases i <;> simp [nth, ih]
  rw [key]
  simp [rangeFrom, List.getElem?_range hi]

/-- What the write of one granule leaves: what was synchronized is so still, with the written bytes in it and the new write seen. -/
structure Entered (s s' : State) (first a : Nat) (bytes : List (Option Byte)) (seen : List Nat) (now : Nat → Byte) (k : Nat) : Prop where
  next : s'.nextWrite = s.nextWrite + 1
  others : ∀ g, g ≠ first + k → find? s'.hist g = find? s.hist g
  synced : ∀ x, x / 16 = k → SyncedAt s seen first x (now x) →
    ∀ seen', (∀ c ∈ seen, c ∈ seen') → (∀ i < 16, seenCode s.nextWrite i ∈ seen') →
      SyncedAt s' seen' first x ((cellAt a bytes x).getD (now x))

theorem writeGrain_entered {s : State} {au : Author} {first a k : Nat} {bytes : List (Option Byte)} {seen : List Nat} {now : Nat → Byte}
    (hau : ∀ c ∈ seen, c ∈ au.seen)
    (hs : ∀ x, x / 16 = k → (cellAt a bytes x).isSome → SyncedAt s seen first x (now x)) :
    let r := writeGrain s au (first + k) ((rangeFrom (16 * k) 16).map now) (grainPart a bytes k)
    Entered s r.1 first a bytes seen now k ∧ r.2 = [] := by
  set g := (find? s.hist (first + k)).getD ⟨(rangeFrom (16 * k) 16).map now, []⟩ with hg
  have hx : ∀ i < 16, (16 * k + i) / 16 = k ∧ (16 * k + i) % 16 = i := fun i hi => by omega
  have hplace := placeWrite_newest (s := s) (au := au) (mask := maskOf (grainPart a bytes k)) (ws := g.writes) fun i hi w hw => by
    obtain ⟨hi, hc⟩ := mem_maskOf_grainPart.1 hi
    cases hf : find? s.hist (first + k) with
    | none => simp [hg, hf] at hw
    | some g' =>
      have hgg : g = g' := by simp [hg, hf]
      have := hs (16 * k + i) (hx i hi).1 hc g' (by rw [(hx i hi).1]; exact hf)
      rw [← hgg] at hf
      simp only [newestAt, (hx i hi).1, (hx i hi).2, hf, Option.bind_some, hw] at this
      exact hau _ this.1
  intro r
  have hr : r = enterWrite s (first + k) g.base ⟨s.nextWrite, grainPart a bytes k, false, false, au.rels⟩
      (placeWrite s au false (maskOf (grainPart a bytes k)) g.writes).1 (placeWrite s au false (maskOf (grainPart a bytes k)) g.writes).2 := rfl
  obtain ⟨hsplit, hnew⟩ := hplace
  generalize placeWrite s au false (maskOf (grainPart a bytes k)) g.writes = P at hr hsplit hnew
  rw [hr]
  refine ⟨⟨rfl, fun n hn => by simp [enterWrite, find?_put, hn], fun x hxk hxs seen' hsub hcode g2 hg2 => ?_⟩, ?_⟩
  · have hput : find? (enterWrite s (first + k) g.base ⟨s.nextWrite, grainPart a bytes k, false, false, au.rels⟩ P.1 P.2).1.hist
        (first + k) = some ⟨g.base, P.1 ++ ⟨s.nextWrite, grainPart a bytes k, false, false, au.rels⟩ :: P.2⟩ := by
      simp [enterWrite, find?_put]
    have hi : x % 16 < 16 := Nat.mod_lt _ (by omega)
    have hxx : 16 * k + x % 16 = x := by omega
    rw [hxk, hput] at hg2
    obtain rfl := Option.some.inj hg2
    simp only [newestAt, hxk, hput, Option.bind_some, List.find?_append]
    cases hc : cellAt a bytes x with
    | some b =>
      have hm : x % 16 ∈ maskOf (grainPart a bytes k) := mem_maskOf_grainPart.2 ⟨hi, by rw [hxx, hc]; rfl⟩
      have hnone : P.1.find? (fun w => writesAt w (x % 16)) = none := List.find?_eq_none.2 fun w hw => by simp [hnew w hw _ hm]
      have hw0 : writesAt ⟨s.nextWrite, grainPart a bytes k, false, false, au.rels⟩ (x % 16) = true := (writesAt_iff _ _).2 hm
      simp only [hnone, Option.none_or, List.find?_cons, hw0, Option.getD_some]
      exact ⟨hcode _ hi, by simp [writeByte, grainPart_get hi, hxx, hc]⟩
    | none =>
      have hw0 : writesAt ⟨s.nextWrite, grainPart a bytes k, false, false, au.rels⟩ (x % 16) = false := by
        rw [← Bool.not_eq_true, writesAt_iff, mem_maskOf_grainPart, hxx, hc]
        simp
      simp only [List.find?_cons, hw0, Option.getD_none]
      rw [← List.find?_append, hsplit]
      cases hf : find? s.hist (first + k) with
      | none =>
        simp only [hg, hf, Option.getD_none, List.find?_nil]
        rw [nth_rangeFrom_map hi, hxx]
      | some g' =>
        have hgg : g = g' := by simp [hg, hf]
        have := (hxs.mono hsub) g' (by rw [hxk]; exact hf)
        simpa only [newestAt, hxk, hf, Option.bind_some, hgg] using this
  · simp only [enterWrite, List.filter_eq_nil_iff, List.any_eq_true, not_exists, not_and]
    intro i hi w hw
    simp [hnew w hw i hi]

theorem SyncedAt.congr {s s' : State} {seen : List Nat} {first x : Nat} {b : Byte} (h : SyncedAt s seen first x b)
    (he : find? s'.hist (first + x / 16) = find? s.hist (first + x / 16)) : SyncedAt s' seen first x b := by
  simpa only [SyncedAt, newestAt, he] using h

/-- The write of one granule in `enterBytes`. -/
def enterGrain (au : Author) (first a : Nat) (now : Nat → Byte) (bytes : List (Option Byte)) (g : State × List Nat) (k : Nat) :
    State × List Nat :=
  if (grainPart a bytes k).any Option.isSome then
    match writeGrain g.1 au (first + k) ((rangeFrom (16 * k) 16).map now) (grainPart a bytes k) with
    | (s1, l) => (s1, g.2 ++ l.map (16 * k + ·))
  else g

theorem enterBytes_eq (s : State) (au : Author) (first a : Nat) (now : Nat → Byte) (bytes : List (Option Byte)) :
    enterBytes s au first a now bytes =
      let r := ((grainsOf a bytes.length).map (·.1)).foldl (enterGrain au first a now bytes) (s, [])
      (r.1, (bytes.zipIdx a).map fun e => if r.2.contains e.2 then e.1.map (fun _ => now e.2) else e.1) := by
  rw [List.foldl_map]
  rfl

/-- The writes of several granules leave what was synchronized synchronized, with the written bytes in it; no byte is given back. -/
structure EnteredAll (s s' : State) (first a : Nat) (bytes : List (Option Byte)) (seen : List Nat) (now : Nat → Byte) (keys : List Nat) :
    Prop where
  next : s.nextWrite ≤ s'.nextWrite
  others : ∀ g, (∀ k ∈ keys, g ≠ first + k) → find? s'.hist g = find? s.hist g
  synced : ∀ x, x / 16 ∈ keys → SyncedAt s seen first x (now x) →
    ∀ seen', (∀ c ∈ seen, c ∈ seen') → (∀ c, 16 * s.nextWrite ≤ c → c < 16 * s'.nextWrite → c ∈ seen') →
      SyncedAt s' seen' first x ((cellAt a bytes x).getD (now x))

theorem enterGrain_entered {s : State} {au : Author} {first a k : Nat} {bytes : List (Option Byte)} {seen : List Nat} {now : Nat → Byte}
    (hau : ∀ c ∈ seen, c ∈ au.seen)
    (hs : ∀ x, x / 16 = k → (cellAt a bytes x).isSome → SyncedAt s seen first x (now x)) (l : List Nat) :
    EnteredAll s (enterGrain au first a now bytes (s, l) k).1 first a bytes seen now [k] ∧
      (enterGrain au first a now bytes (s, l) k).2 = l := by
  unfold enterGrain
  split_ifs with hany
  · obtain ⟨h1, h2⟩ := writeGrain_entered hau hs
    refine ⟨⟨by simp only [h1.next]; omega, fun g hg => h1.others g (hg k (by simp)), fun x hx hxs seen' hsub hcode => ?_⟩, ?_⟩
    · refine h1.synced x (by simpa using hx) hxs seen' hsub fun i hi => hcode _ ?_ ?_
      · simp only [seenCode]; omega
      · simp only [h1.next, seenCode]; omega
    · simp [h2]
  · refine ⟨⟨le_refl _, fun g _ => rfl, fun x hx hxs seen' hsub _ => ?_⟩, rfl⟩
    have hc : cellAt a bytes x = none := by
      by_contra hc
      refine hany (List.any_eq_true.2 ⟨cellAt a bytes x, ?_, Option.isSome_iff_ne_none.2 hc⟩)
      refine List.mem_map_of_mem ((mem_rangeFrom ..).2 ?_)
      simp only [List.mem_singleton] at hx
      omega
    rw [hc]
    exact hxs.mono hsub

theorem enterGrains_entered {au : Author} {first a : Nat} {bytes : List (Option Byte)} {seen : List Nat} {now : Nat → Byte}
    (hau : ∀ c ∈ seen, c ∈ au.seen) : ∀ (keys : List Nat) (s : State), keys.Nodup →
    (∀ x, x / 16 ∈ keys → (cellAt a bytes x).isSome → SyncedAt s seen first x (now x)) →
    let r := keys.foldl (enterGrain au first a now bytes) (s, [])
    EnteredAll s r.1 first a bytes seen now keys ∧ r.2 = [] := by
  intro keys
  induction keys with
  | nil => intro s _ _; exact ⟨⟨le_refl _, fun _ _ => rfl, by simp⟩, rfl⟩
  | cons k keys ih =>
    intro s hnd hs
    obtain ⟨hk, hnd⟩ := List.nodup_cons.1 hnd
    obtain ⟨h1, h2⟩ := enterGrain_entered (k := k) hau (fun x hx => hs x (by simp [hx])) []
    rw [List.foldl_cons, show enterGrain au first a now bytes (s, []) k = ((enterGrain au first a now bytes (s, []) k).1, []) from
      Prod.ext rfl h2]
    generalize (enterGrain au first a now bytes (s, []) k).1 = s1 at h1
    have keep : ∀ x, x / 16 ≠ k → find? s1.hist (first + x / 16) = find? s.hist (first + x / 16) := fun x hx =>
      h1.others _ fun j hj => by rw [List.mem_singleton.1 hj]; omega
    have hne : ∀ x, x / 16 ∈ keys → x / 16 ≠ k := fun x hx he => hk (he ▸ hx)
    obtain ⟨h3, h4⟩ := ih s1 hnd fun x hx hc => (hs x (by simp [hx]) hc).congr (keep x (hne x hx))
    refine ⟨⟨le_trans h1.next h3.next, fun g hg => ?_, fun x hx hxs seen' hsub hcode => ?_⟩, h4⟩
    · rw [h3.others g fun j hj => hg j (by simp [hj]), h1.others g fun j hj => hg j (by simp_all)]
    · have hn1 := h1.next
      have hn3 := h3.next
      by_cases hxk : x / 16 = k
      · refine (h1.synced x (by simp [hxk]) hxs seen' hsub fun c hc1 hc2 => hcode c hc1 (by omega)).congr ?_
        refine h3.others _ fun j hj he => ?_
        have : x / 16 = j := by omega
        exact hne x (this ▸ hj) hxk
      · refine h3.synced x (by simpa [hxk] using hx) (hxs.congr (keep x hxk)) seen' hsub fun c hc1 hc2 => hcode c (by omega) hc2

/-- A WRITE BY A PARTY THAT KNOWS THE NEWEST WRITES comes last in co: memory takes every byte, and the party, once it has seen what it has
written, knows the newest write of every place it knew before. -/
theorem enterBytes_synced {s : State} {au : Author} {first a : Nat} {bytes : List (Option Byte)} {seen : List Nat} {now : Nat → Byte}
    (hau : ∀ c ∈ seen, c ∈ au.seen) (hs : ∀ x, (cellAt a bytes x).isSome → SyncedAt s seen first x (now x)) :
    let r := enterBytes s au first a now bytes
    r.2 = bytes ∧ s.nextWrite ≤ r.1.nextWrite ∧ ∀ x, SyncedAt s seen first x (now x) → ∀ seen', (∀ c ∈ seen, c ∈ seen') →
      (∀ c ∈ madeSince s r.1, c ∈ seen') → SyncedAt r.1 seen' first x ((cellAt a bytes x).getD (now x)) := by
  have hkeys : (grainsOf a bytes.length).map (·.1) = rangeFrom (a / 16) ((a + bytes.length + 15) / 16 - a / 16) := by
    simp [grainsOf, List.map_map, Function.comp_def]
  have hnd : ((grainsOf a bytes.length).map (·.1)).Nodup := by
    rw [hkeys]
    exact List.Nodup.map (fun a b h => by simpa using h) List.nodup_range
  obtain ⟨h1, h2⟩ := enterGrains_entered hau _ s hnd fun x _ => hs x
  intro r
  have hr : r = _ := enterBytes_eq s au first a now bytes
  rw [hr]
  simp only [h2]
  refine ⟨by simp, h1.next, fun x hx seen' hsub hcode => ?_⟩
  by_cases hxk : x / 16 ∈ (grainsOf a bytes.length).map (·.1)
  · refine h1.synced x hxk hx seen' hsub fun c hc1 hc2 => hcode c ?_
    rw [madeSince, mem_rangeFrom]
    omega
  · have hc : cellAt a bytes x = none := by
      rw [hkeys, mem_rangeFrom] at hxk
      unfold cellAt
      split_ifs with hax
      · rw [List.getElem?_eq_none (by omega)]; rfl
      · rfl
    rw [hc]
    refine (hx.congr (h1.others _ fun k hk he => hxk ?_)).mono hsub
    rw [show x / 16 = k by omega]
    exact hk

theorem cellAt_some (a : Nat) (bs : List Byte) (x : Nat) : cellAt a (bs.map some) x = if a ≤ x then bs[x - a]? else none := by
  unfold cellAt
  split_ifs
  · rw [List.getElem?_map]
    cases bs[x - a]? <;> rfl
  · rfl

theorem cellAt_cons (a : Nat) (b : Byte) (bs : List Byte) (x : Nat) :
    cellAt a ((b :: bs).map some) x = if x = a then some b else cellAt (a + 1) (bs.map some) x := by
  simp only [cellAt_some]
  by_cases hx : x = a
  · simp [hx]
  · by_cases hax : a ≤ x
    · have h1 : a + 1 ≤ x := by omega
      obtain ⟨d, rfl⟩ : ∃ d, x = a + 1 + d := ⟨x - (a + 1), by omega⟩
      simp [hx, h1, hax, show a + 1 + d - a = d + 1 by omega]
    · simp [hx, hax, show ¬ a + 1 ≤ x by omega]

/-- Bytes written at consecutive keys. -/
theorem tabGet_foldl_set (bs : List Byte) : ∀ (a : Nat) (t : Tab Byte) (x : Nat),
    tabGet 0#8 ((bs.zipIdx a).foldl (fun t e => tabSet 0#8 t e.2 e.1) t) x = (cellAt a (bs.map some) x).getD (tabGet 0#8 t x) := by
  induction bs with
  | nil => intro a t x; simp [cellAt]
  | cons b bs ih =>
    intro a t x
    rw [List.zipIdx_cons, List.foldl_cons, ih, tabGet_set, cellAt_cons]
    by_cases hx : x = a
    · simp [hx, cellAt]
    · simp [hx]

theorem find?_erase {α : Type} (t : Tab α) (n m : Nat) : find? (tabErase t n) m = if m = n then none else find? t m := by
  induction t with
  | nil => simp [tabErase, find?]
  | cons e t ih =>
    obtain ⟨k, w⟩ := e
    simp only [tabErase]
    split_ifs <;> simp only [find?, ih] <;> split_ifs <;> simp_all

theorem find?_foldl_erase (bs : List Byte) : ∀ (a : Nat) (t : Tab Byte) (x : Nat),
    find? ((bs.zipIdx a).foldl (fun t e => tabErase t e.2) t) x = if (cellAt a (bs.map some) x).isSome then none else find? t x := by
  induction bs with
  | nil => intro a t x; simp [cellAt]
  | cons b bs ih =>
    intro a t x
    rw [List.zipIdx_cons, List.foldl_cons, ih, find?_erase, cellAt_cons]
    by_cases hx : x = a
    · simp [hx]
    · simp [hx]

/-- A core whose scratchpad has taken bytes from `a` on, beside which no early write stands there. -/
def spadTaken (c : Core) (a : Nat) (bs : List Byte) : Core :=
  { c with
    spad := (bs.zipIdx a).foldl (fun t e => tabSet 0#8 t e.2 e.1) c.spad
    lateSpad := if c.lateSpad.isEmpty then c.lateSpad else (bs.zipIdx a).foldl (fun t e => tabErase t e.2) c.lateSpad }

theorem spadTaken_get (c : Core) (a : Nat) (bs : List Byte) (x : Nat) :
    tabGet 0#8 (spadTaken c a bs).spad x = (cellAt a (bs.map some) x).getD (tabGet 0#8 c.spad x) := tabGet_foldl_set ..

theorem spadTaken_now (c : Core) (a : Nat) (bs : List Byte) (x : Nat) :
    spadNow (spadTaken c a bs) x = (cellAt a (bs.map some) x).getD (spadNow c x) := by
  have hl : find? (spadTaken c a bs).lateSpad x = if (cellAt a (bs.map some) x).isSome then none else find? c.lateSpad x := by
    simp only [spadTaken]
    split_ifs with h1 h2 h2
    · rw [List.isEmpty_iff.1 h1]; rfl
    · rfl
    · rw [find?_foldl_erase, if_pos h2]
    · rw [find?_foldl_erase, if_neg h2]
  simp only [spadNow, hl, spadTaken_get]
  cases cellAt a (bs.map some) x <;> simp

/-- A write to a scratchpad that no open matrix operation uses, and that holds no poison, by a party that knows the newest writes there. -/
theorem spadWriteBy_synced {s : State} {au : Author} {core a : Nat} {bs : List Byte} {seen : List Nat}
    (ho : openOps (getCore s core) = []) (hp : (getCore s core).spadPoison = []) (hau : ∀ c ∈ seen, c ∈ au.seen)
    (hs : Synced s seen (spadGrains core) a bs.length (spadNow (getCore s core))) :
    ∃ s1, spadWriteBy au s core a bs = setCore s1 core (spadTaken (getCore s core) a bs) ∧
      s1 = { s with hist := s1.hist, nextWrite := s1.nextWrite } ∧ s.nextWrite ≤ s1.nextWrite ∧
      ∀ x, SyncedAt s seen (spadGrains core) x (spadNow (getCore s core) x) → ∀ seen', (∀ c ∈ seen, c ∈ seen') →
        (∀ c ∈ madeSince s s1, c ∈ seen') →
        SyncedAt s1 seen' (spadGrains core) x (spadNow (spadTaken (getCore s core) a bs) x) := by
  obtain ⟨h1, h2, h3⟩ := enterBytes_synced (s := s) (first := spadGrains core) (a := a) (bytes := bs.map some)
    (now := spadNow (getCore s core)) hau fun x hx => by
      rw [cellAt_some] at hx
      split_ifs at hx with hax
      · exact hs x hax (by
          obtain ⟨b, hb⟩ := Option.isSome_iff_exists.1 hx
          have := (List.getElem?_eq_some_iff.1 hb).1
          omega)
      · simp at hx
  refine ⟨(enterBytes s au (spadGrains core) a (spadNow (getCore s core)) (bs.map some)).1, ?_, enterBytes_only .., h2, ?_⟩
  · have hmap : ((bs.map some).map fun b => b.getD 0#8) = bs := by simp [List.map_map, Function.comp_def]
    have hnone : (openOps (getCore s core)).filter (fun o => au.unit.map (·.2) != some o.unit) = [] := by rw [ho]; rfl
    have hcore : (spadTaken (getCore s core) a bs) = { spadTaken (getCore s core) a bs with spadPoison := [] } := by
      rw [← hp]; rfl
    rw [hcore]
    simp only [spadWriteBy, h1, hmap, hnone, hp, List.any_nil, Bool.false_and, Bool.false_eq_true, if_false, List.isEmpty_nil, Bool.and_true,
      List.filter_nil, strike, getCore_setCore, if_true]
    rw [if_neg]
    · rfl
    · intro hany
      obtain ⟨o, hmem, -⟩ := List.any_eq_true.1 hany
      exact absurd (show o ∈ openOps (getCore s core) from hmem) (by rw [ho]; exact List.not_mem_nil)
  · intro x hx seen' hsub hcode
    rw [spadTaken_now]
    exact h3 x hx seen' hsub hcode

theorem mem_madeSince (s s' : State) (c : Nat) :
    c ∈ madeSince s s' ↔ 16 * s.nextWrite ≤ c ∧ c < 16 * s.nextWrite + 16 * (s'.nextWrite - s.nextWrite) := mem_rangeFrom ..

/-- Team `u`, which is `t` before and `t'` after, has stored to its core's scratchpad: it has seen what it has written, what was synchronized
is so still, and nothing else has changed. -/
structure SpadStored (s s' : State) (u : Nat) (t t' : Team) : Prop where
  rest : s' = { s with teams := s'.teams, cores := s'.cores, hist := s'.hist, nextWrite := s'.nextWrite }
  team : find? s'.teams u = some t'
  others : ∀ n, n ≠ u → find? s'.teams n = find? s.teams n
  body : t' = { t with seen := t'.seen }
  next : s.nextWrite ≤ s'.nextWrite
  seen : ∀ c, c ∈ t'.seen ↔ c ∈ t.seen ∨ c ∈ madeSince s s'
  cores : ∀ n, getCore s' n =
    if n = t.core then { getCore s n with spad := (getCore s' n).spad, lateSpad := (getCore s' n).lateSpad } else getCore s n
  synced : ∀ x, SyncedAt s t.seen (spadGrains t.core) x (spadNow (getCore s t.core) x) →
    SyncedAt s' t'.seen (spadGrains t.core) x (spadNow (getCore s' t.core) x)

theorem SpadStored.refl {s : State} {u : Nat} {t : Team} (h : find? s.teams u = some t) : SpadStored s s u t t :=
  ⟨rfl, h, fun _ _ => rfl, rfl, le_refl _, fun c => by simp [mem_madeSince], fun n => by split_ifs <;> rfl, fun _ h => h⟩

theorem SpadStored.core {s s' : State} {u : Nat} {t t' : Team} (h : SpadStored s s' u t t') : t'.core = t.core := by rw [h.body]

theorem SpadStored.trans {s s1 s2 : State} {u : Nat} {t t1 t2 : Team} (h : SpadStored s s1 u t t1) (k : SpadStored s1 s2 u t1 t2) :
    SpadStored s s2 u t t2 := by
  have hc := h.core
  refine ⟨by rw [k.rest, h.rest], k.team, fun n hn => (k.others n hn).trans (h.others n hn), by rw [k.body, h.body],
    le_trans h.next k.next, fun c => ?_, fun n => ?_, fun x hx => ?_⟩
  · have := h.next
    have := k.next
    rw [k.seen, h.seen]
    simp only [mem_madeSince, or_assoc]
    refine or_congr_right ?_
    omega
  · have h1 := h.cores n
    have h2 := k.cores n
    rw [hc] at h2
    split_ifs at h1 h2 ⊢
    · rw [h2, h1]
    · rw [h2, h1]
  · have := k.synced x (by rw [hc]; exact h.synced x hx)
    rwa [hc] at this

/-- One lane's store to a scratchpad that no open matrix operation uses and that holds no poison. -/
theorem spadWrite_stored {s : State} {u : Nat} {t : Team} (ht : find? s.teams u = some t) (lane : Nat) {a : Nat} {bs : List Byte}
    (ho : openOps (getCore s t.core) = []) (hp : (getCore s t.core).spadPoison = []) (hs : SpadSynced s t a bs.length) :
    ∃ t', SpadStored s (spadWrite s u lane a bs) u t t' ∧
      ∀ x, tabGet 0#8 (getCore (spadWrite s u lane a bs) t.core).spad x =
        (cellAt a (bs.map some) x).getD (tabGet 0#8 (getCore s t.core).spad x) := by
  have hg := getTeam_of_find ht
  obtain ⟨s1, h1, h2, h3, h4⟩ := spadWriteBy_synced (au := laneWrites t lane) ho hp
    (fun c hc => List.mem_append_left _ hc) hs
  have hteams : s1.teams = s.teams := by rw [h2]
  have hcores : s1.cores = s.cores := by rw [h2]
  have hg1 : getTeam (setCore s1 t.core (spadTaken (getCore s t.core) a bs)) u = t := by
    rw [← hg]; simp only [getTeam, setCore, hteams]
  have hgc : ∀ n, getCore (setCore s1 t.core (spadTaken (getCore s t.core) a bs)) n =
      if n = t.core then spadTaken (getCore s t.core) a bs else getCore s n := by
    intro n
    rw [getCore_setCore]
    simp only [getCore, hcores]
  have hw : spadWrite s u lane a bs = teamWrote s (setCore s1 t.core (spadTaken (getCore s t.core) a bs)) u := by
    simp only [spadWrite, hg, h1]
  have frame : ∀ n, (if n = t.core then spadTaken (getCore s t.core) a bs else getCore s n) = if n = t.core then
      { getCore s n with
        spad := (if n = t.core then spadTaken (getCore s t.core) a bs else getCore s n).spad
        lateSpad := (if n = t.core then spadTaken (getCore s t.core) a bs else getCore s n).lateSpad } else getCore s n := by
    intro n
    by_cases hn : n = t.core
    · subst hn; simp only [if_true]; rfl
    · simp only [hn, if_false]
  rw [hw]
  unfold teamWrote
  split_ifs with heq
  · have heq : s.nextWrite = s1.nextWrite := heq
    refine ⟨t, ⟨by rw [h2]; rfl, by simp only [setCore, hteams]; exact ht, fun n _ => by simp only [setCore, hteams], rfl, h3, fun c => ?_,
      fun n => by rw [hgc]; exact frame n, fun x hx => ?_⟩, fun x => by rw [hgc, if_pos rfl, spadTaken_get]⟩
    · simp only [mem_madeSince, setCore, ← heq]
      simp
    · have := h4 x hx t.seen (fun _ h => h) fun c hc => by rw [mem_madeSince] at hc; omega
      simp only [hgc, if_true]
      exact this.congr rfl
  · refine ⟨{ t with seen := joinSeen t.seen (madeSince s s1) }, ⟨?_, ?_, fun n hn => ?_, rfl, h3, fun c => by
      simp only [mem_joinSeen]; rfl, fun n => ?_, fun x hx => ?_⟩, fun x => ?_⟩
    · rw [modTeam_eq, h2]; rfl
    · simp only [modTeam_eq, find?_setTeam, if_true, hg1]; rfl
    · simp only [modTeam_eq, find?_setTeam, hn, if_false]
      rw [← hteams]; rfl
    · simp only [modTeam_eq, getCore_setTeam, hgc]
      exact frame n
    · have := h4 x hx (joinSeen t.seen (madeSince s s1)) (fun c hc => by simp [hc]) fun c hc => by simp [hc]
      simp only [modTeam_eq, getCore_setTeam, hgc, if_true, hg1]
      exact this.congr rfl
    · simp only [modTeam_eq, getCore_setTeam, hgc, if_true, spadTaken_get]

/-- The stores of several lanes, one after another. -/
theorem spadWrites_stored {u n : Nat} {bytes : Nat → List Byte} {addr : Nat → Nat} (hl : ∀ i, (bytes i).length = n) :
    ∀ (lanes : List Nat) (s : State) (t : Team), find? s.teams u = some t → openOps (getCore s t.core) = [] →
      (getCore s t.core).spadPoison = [] → (∀ i ∈ lanes, SpadSynced s t (addr i) n) →
      let s' := (lanes.map fun i => (⟨i, addr i⟩ : LaneAddr)).foldl (fun s e => spadWrite s u e.lane e.addr (bytes e.lane)) s
      ∃ t', SpadStored s s' u t t' ∧ ∀ x, tabGet 0#8 (getCore s' t.core).spad x =
        lanes.foldl (fun v i => (cellAt (addr i) ((bytes i).map some) x).getD v) (tabGet 0#8 (getCore s t.core).spad x) := by
  intro lanes
  induction lanes with
  | nil => intro s t ht _ _ _; exact ⟨t, .refl ht, fun _ => rfl⟩
  | cons i lanes ih =>
    intro s t ht ho hp hs
    obtain ⟨t1, h1, h2⟩ := spadWrite_stored (a := addr i) (bs := bytes i) ht i ho hp (by rw [hl]; exact hs i (List.mem_cons_self ..))
    have hc1 := h1.cores t.core
    rw [if_pos rfl] at hc1
    have ho1 : openOps (getCore (spadWrite s u i (addr i) (bytes i)) t.core) = [] := by rw [hc1]; exact ho
    have hp1 : (getCore (spadWrite s u i (addr i) (bytes i)) t.core).spadPoison = [] := by rw [hc1]; exact hp
    obtain ⟨t2, h3, h4⟩ := ih (spadWrite s u i (addr i) (bytes i)) t1 h1.team (by rw [h1.core]; exact ho1) (by rw [h1.core]; exact hp1)
      fun j hj x hx1 hx2 => by
        show SyncedAt _ t1.seen (spadGrains t1.core) x (spadNow (getCore _ t1.core) x)
        rw [h1.core]
        exact h1.synced x (hs j (List.mem_cons_of_mem _ hj) x hx1 hx2)
    rw [h1.core] at h4
    refine ⟨t2, h1.trans h3, fun x => ?_⟩
    rw [List.map_cons, List.foldl_cons, List.foldl_cons, ← h2 x]
    exact h4 x

/-! ## The end of a group that has changed its team -/

/-- A team with the latched group that ends it: it goes on at the word after it, and is else as the instruction has left it. -/
theorem fallThrough_passed {s s1 : State} {u : Nat} {t t0 t1 : Team} (h : Issuing s u t) (a : Access) (ht : getTeam s1 u = t1)
    (hl : t1 = { t0 with cur := s.issue, booking := some (bookings t a) })
    (hf : t0.flow = t.flow ∧ t0.lanes = t.lanes ∧ t0.snap = t.snap ∧ t0.trace = t.trace ∧ t0.stepOnce = t.stepOnce) :
    ∃ t', fallThrough s1 u false = setTeam s1 u t' ∧ Passed s t0 t' := by
  obtain ⟨h1, h2, h3, h4, h5⟩ := hf
  obtain ⟨t', he, hm, hsn, hgo⟩ := fallThrough_team ht (by rw [hl]; exact h4 ▸ h.untraced) (by rw [hl]; exact h5.trans h.alone) false
  have hsnap : t'.snap = t0.snap := by rw [hsn rfl, hl]
  refine ⟨t', he, ?_, ?_⟩
  · rw [Moved, hsnap] at hm
    rw [Onward, hm, hl]
  · subst hl
    exact hgo

theorem bytesOf_length (n : Nat) : ∀ v, (bytesOf n v).length = n := by
  induction n with
  | zero => intro v; rfl
  | succ n ih => intro v; simp [bytesOf, ih]

/-- STS (R160, R161). -/
theorem sts_stored {s : State} {u : Nat} {t : Team} (h : Issuing s u t) (w : Width) (m : MArgs)
    (hf : Fits t (offUse false m.a m.b ++ [dataUse w m.t])) (hs : SpadFits s t w m) (ho : openOps (getCore s t.core) = [])
    (hp : (getCore s t.core).spadPoison = []) :
    ∃ s' t', exec (.sts w m) s = .next s' ∧ find? s'.teams u = some t' ∧ Passed s { t with seen := t'.seen } t' ∧
      s' = { s with teams := s'.teams, cores := s'.cores, hist := s'.hist, nextWrite := s'.nextWrite } ∧
      (∀ c, c ∈ t'.seen ↔ c ∈ t.seen ∨ c ∈ madeSince s s') ∧
      (∀ n, n ≠ u → find? s'.teams n = find? s.teams n) ∧
      (∀ n, getCore s' n =
        if n = t.core then { getCore s n with spad := (getCore s' n).spad, lateSpad := (getCore s' n).lateSpad }
        else getCore s n) ∧
      ∀ x, tabGet 0#8 (getCore s' t.core).spad x =
        (lanesOf t).foldl (fun v i =>
          if spadAddr t m i ≤ x ∧ x < spadAddr t m i + widthBytes w
          then ((storeBytes w t m.t i)[x - spadAddr t m i]?).getD v else v) (tabGet 0#8 (getCore s t.core).spad x) := by
  set a := accM false w m true false with ha
  set s0 := setTeam s u (latch s t a) with hs0
  have hlen : ∀ i, (storeBytes w t m.t i).length = widthBytes w := fun i => bytesOf_length ..
  obtain ⟨t1, h1, h2⟩ := spadWrites_stored (u := u) (bytes := storeBytes w t m.t) (addr := spadAddr t m) hlen (lanesOf t) s0 (latch s t a)
    (by simp [hs0, find?_setTeam]) ho hp (fun i hi => (hs i hi).2.2.2)
  have hexec : exec (.sts w m) s = done (fallThrough ((spadLanes t m).foldl
      (fun s e => spadWrite s u e.lane e.addr (storeBytes w t m.t e.lane)) s0) u false) := by
    show execSts w m s = _
    by_cases hem : lanesOf t = []
    · rw [execSts, issueOp_noLanes h hem rfl, spadLanes, hem]; rfl
    · have hfault : spadFault (spgBytes (getCore s t.core).word) (widthBytes w) (widthBytes w) (spadLanes t m) = none :=
        spadFault_none fun e he => by
          obtain ⟨i, hi, rfl⟩ := List.mem_map.1 he
          exact ⟨(hs i hi).1, (hs i hi).2.1⟩
      rw [execSts, issueOp_issuing h (accM_fits hf true false), if_neg (by simp [hem])]
      simp only [show ∀ a, (latch s t a).bounds = false from fun _ => h.mode, Bool.false_eq_true, if_false, getCore_setTeam,
        show ∀ a, (latch s t a).core = t.core from fun _ => rfl, show ∀ a, spadLanes (latch s t a) m = spadLanes t m from fun _ => rfl,
        hfault]
      rfl
  rw [spadLanes] at hexec
  generalize ((lanesOf t).map fun i => (⟨i, spadAddr t m i⟩ : LaneAddr)).foldl (fun s e => spadWrite s u e.lane e.addr (storeBytes w t m.t e.lane)) s0 = s1 at *
  have hcore : (latch s t a).core = t.core := rfl
  have hq : Quiet s1 := by
    rw [h1.rest]
    exact ⟨h.quiet.dev, h.quiet.devNone, h.quiet.ctx, h.quiet.ctxNone⟩
  obtain ⟨t', he, hpass⟩ := fallThrough_passed (t0 := { t with seen := t1.seen }) h a (getTeam_of_find h1.team) h1.body
    ⟨rfl, rfl, rfl, rfl, rfl⟩
  have hseen : t'.seen = t1.seen := by rw [hpass.1]
  refine ⟨setTeam s1 u t', t', by rw [hexec, he, done_of_quiet (hq.setTeam ..)], by simp [find?_setTeam], by rw [hseen]; exact hpass,
    ?_, fun c => by rw [hseen]; exact h1.seen c, fun n hn => ?_, fun n => ?_, fun x => ?_⟩
  · rw [h1.rest]; rfl
  · rw [find?_setTeam, if_neg hn, h1.others n hn, hs0, find?_setTeam, if_neg hn]
  · rw [getCore_setTeam]
    exact h1.cores n
  · rw [getCore_setTeam]
    refine (h2 x).trans (List.foldl_ext _ _ _ fun v i hi => ?_)
    rw [cellAt_some]
    by_cases hx : spadAddr t m i ≤ x
    · by_cases hx2 : x < spadAddr t m i + widthBytes w
      · simp [hx, hx2]
      · rw [if_pos hx, if_neg (fun hh => hx2 hh.2), List.getElem?_eq_none (by rw [hlen]; omega)]; rfl
    · simp [hx]

/-- Settles O16: LDS and LDT read what the scratchpad holds, and STS writes it, lane by lane, since the team knows the newest writes there. -/
theorem scratchpadAccesses : Obligations.ScratchpadAccesses := by
  intro s u t h
  exact ⟨fun w sx m hf hs => lds_read h w sx m hf hs, fun w m hf hs ho hp => sts_stored h w m hf hs ho hp,
    fun w m hw hf hr hp hs => ldt_read h w m hw hf hr hp hs⟩

end Sys2Proof.Machine

namespace Sys2Proof.Machine

/-! ## What a read through the caches changes (R162) -/

/-- Of the state only L1 lines and clocks of cores, the pound and the stacks differ. -/
structure CachesMoved (s s' : State) : Prop where
  rest : s' = { s with cores := s'.cores, pound := s'.pound, stks := s'.stks }
  cores : ∀ n, CachesOnly (getCore s n) (getCore s' n)

theorem CachesOnly.refl (c : Core) : CachesOnly c c := rfl

theorem CachesOnly.trans {a b c : Core} (h : CachesOnly a b) (k : CachesOnly b c) : CachesOnly a c := by
  unfold CachesOnly at *
  rw [k, h]

theorem CachesMoved.refl (s : State) : CachesMoved s s := ⟨rfl, fun _ => .refl _⟩

theorem CachesMoved.trans {s s1 s2 : State} (h : CachesMoved s s1) (k : CachesMoved s1 s2) : CachesMoved s s2 :=
  ⟨by rw [k.rest, h.rest], fun n => (h.cores n).trans (k.cores n)⟩

theorem cachesMoved_pound (s : State) (p : Tab (List (List PoundBlk))) (k : List Stack) : CachesMoved s { s with pound := p, stks := k } :=
  ⟨rfl, fun _ => .refl _⟩

theorem cachesMoved_core {s : State} {n : Nat} {c : Core} (h : CachesOnly (getCore s n) c) : CachesMoved s (setCore s n c) :=
  ⟨rfl, fun m => by
    rw [getCore_setCore]
    split_ifs with hm
    · exact hm ▸ h
    · exact .refl _⟩

theorem cachesMoved_poundKeep (s : State) (b : Nat) (dirty : Bool) (pol : Pol) : CachesMoved s (poundKeep s b dirty pol) :=
  cachesMoved_pound s _ s.stks

theorem cachesMoved_serveRun (s : State) (run n : Nat) : CachesMoved s (serveRun s run n) := by
  unfold serveRun
  split_ifs
  · exact .refl s
  · exact cachesMoved_pound s s.pound _

theorem cachesMoved_serveAt (s : State) (k : Nat) : CachesMoved s (serveAt s k) := cachesMoved_pound s s.pound _

theorem cachesMoved_activate (s : State) (b : Nat) : CachesMoved s (activate s b) := by
  unfold activate
  split_ifs
  · exact .refl s
  · exact cachesMoved_serveRun ..

theorem cachesMoved_hearSlice (s : State) (core b : Nat) : CachesMoved s (hearSlice s core b) := by
  unfold hearSlice
  dsimp only
  split_ifs
  · exact cachesMoved_core rfl
  · exact .refl s

theorem cachesMoved_l1Keep (s : State) (core b : Nat) (pol : Pol) (read : Bool) : CachesMoved s (l1Keep s core b pol read) := by
  unfold l1Keep
  dsimp only
  set c1 := (if (getCore s core).l1Last.contains b && read then
    { getCore s core with l1Last := (getCore s core).l1Last.filter (· != b), l1Early := (getCore s core).l1Early ++ [b] }
    else getCore s core) with hc1
  have h1 : CachesOnly (getCore s core) c1 := by
    rw [hc1]
    split_ifs <;> rfl
  have h2 : CachesOnly c1 (if l1Room s core ≤ c1.l1.length then l1Victim s.free 0 c1 else c1) := by
    split_ifs <;> rfl
  have h3 := h1.trans h2
  generalize (if l1Room s core ≤ c1.l1.length then l1Victim s.free 0 c1 else c1) = c2 at h3
  split_ifs
  · exact cachesMoved_core h1
  · exact cachesMoved_core (h1.trans rfl)
  · exact cachesMoved_core h1
  · exact cachesMoved_core h1
  · exact cachesMoved_core (h3.trans rfl)
  · exact cachesMoved_core (h3.trans rfl)

theorem cachesMoved_throughCaches (s : State) (core : Nat) (pol : Pol) (va b : Nat) : CachesMoved s (throughCaches s core pol va b) := by
  have h1 : CachesMoved s (if (metaOf s b).poison then s else l1Keep s core (va / 256) pol true) := by
    split_ifs
    · exact .refl s
    · exact cachesMoved_l1Keep ..
  unfold throughCaches
  simp only
  generalize (if (metaOf s b).poison then s else l1Keep s core (va / 256) pol true) = s1 at h1
  split_ifs
  · exact h1
  · exact ((h1.trans (cachesMoved_activate ..)).trans (cachesMoved_poundKeep ..)).trans (cachesMoved_hearSlice ..)

/-! ## A lane's read (R151, R160) -/

/-- Team `u`, which was `t`, has read: it may hold more releases, and only caches and stacks have changed beside it. -/
structure LoadRead (s s' : State) (u : Nat) (t : Team) : Prop where
  rest : s' = { s with teams := s'.teams, cores := s'.cores, pound := s'.pound, stks := s'.stks }
  team : ∃ l, find? s'.teams u = some (withRels t l)
  others : ∀ n, n ≠ u → find? s'.teams n = find? s.teams n
  cores : ∀ n, CachesOnly (getCore s n) (getCore s' n)

theorem CachesMoved.loadRead {s s1 s2 : State} {u : Nat} {t : Team} (k : CachesMoved s1 s2) (h : LoadRead s s1 u t) :
    LoadRead s s2 u t := by
  have ht : s2.teams = s1.teams := by rw [k.rest]
  exact ⟨by rw [k.rest, h.rest], by rw [ht]; exact h.team, fun n hn => by rw [ht]; exact h.others n hn,
    fun n => (h.cores n).trans (k.cores n)⟩

theorem LoadRead.refl {s : State} {u : Nat} {t : Team} (h : find? s.teams u = some t) : LoadRead s s u t :=
  ⟨rfl, ⟨[], by simpa using h⟩, fun _ _ => rfl, fun _ => .refl _⟩

theorem LoadRead.withTeam {s s1 : State} {u : Nat} {t : Team} (h : LoadRead s s1 u t) (l : List Rel) :
    LoadRead s (setTeam s1 u (withRels t l)) u t := by
  refine ⟨?_, ⟨l, by simp [find?_setTeam]⟩, fun n hn => ?_, fun n => by rw [getCore_setTeam]; exact h.cores n⟩
  · rw [h.rest]; rfl
  · rw [find?_setTeam, if_neg hn]
    exact h.others n hn

/-- A lane's read of a memory whose newest writes its team knows. -/
theorem laneReads_load {s s1 : State} {u : Nat} {t : Team} {first a n : Nat} {mem : Nat → Byte} (h : LoadRead s s1 u t)
    (hb : t.bounds = false) (hs : Synced s t.seen first a n mem) (lane : Nat) :
    ∃ s2, laneReads s1 u lane first a ((rangeFrom a n).map mem) = (s2, (rangeFrom a n).map mem) ∧ LoadRead s s2 u t := by
  obtain ⟨l, hl⟩ := h.team
  have hs1 : Synced s1 (withRels t l).seen first a n mem := by rw [h.rest]; exact hs
  rcases laneReads_newest (getTeam_of_find hl) hb hs1 lane with hr | ⟨m, hr⟩
  · exact ⟨s1, hr, h⟩
  · rw [withRels_append] at hr
    exact ⟨_, hr, h.withTeam _⟩

/-- A lane's read of a plain place gives the bytes there. -/
theorem placeRead_plain {s s1 : State} {u : Nat} {t : Team} {w : Width} {e : Touch} (h : LoadRead s s1 u t) (hb : t.bounds = false)
    (hp : PlainReads s t w [e]) (lane : Nat) (pol : Pol) :
    ∃ s2, placeRead s1 u lane pol e.addr (widthBytes w) e.place = (s2, placeBytes s e.place (widthBytes w), false) ∧
      LoadRead s s2 u t := by
  have hmem : s1.mem = s.mem := by rw [h.rest]
  have hhost : s1.hostMem = s.hostMem := by rw [h.rest]
  have hmeta : s1.metas = s.metas := by rw [h.rest]
  rcases hp e (by simp) with ⟨k, hk, hpo, hs⟩ | ⟨k, hk, hs⟩
  · have h1 := (cachesMoved_throughCaches s1 (getTeam s1 u).core pol e.addr (k / 256)).loadRead h
    obtain ⟨s2, h2, h3⟩ := laneReads_load h1 hb hs lane
    refine ⟨s2, ?_, h3⟩
    have hpo' : (metaOf s1 (k / 256)).poison = false := by rw [metaOf, hmeta]; exact hpo
    simp only [placeRead, placeReadBy, hk, placeBytes, memBytes, hmem, h2, hpo']
  · obtain ⟨s2, h2, h3⟩ := laneReads_load h hb hs lane
    refine ⟨s2, ?_, h3⟩
    simp only [placeRead, placeReadBy, hk, placeBytes, memBytes, hhost, h2]

/-- What a team's own log supplies of a byte (R151, R175). -/
def logByte (t : Team) (x : Nat) : Option Byte :=
  match find? t.log x with
  | some b => some b
  | none => if t.zeros.contains (x / 256) then some 0#8 else none

theorem logSupply_eq (t : Team) (a n : Nat) : logSupply t a n = (rangeFrom a n).map (logByte t) := rfl

theorem logOverlay_eq (t : Team) (bs : List Byte) : ∀ a, logOverlay t a bs = (bs.zipIdx a).map fun e => (logByte t e.2).getD e.1 := by
  induction bs with
  | nil => intro a; rfl
  | cons b bs ih =>
    intro a
    simp only [logOverlay, ih, List.zipIdx_cons, List.map_cons, logByte]
    congr 1
    cases find? t.log a with
    | some x => rfl
    | none => simp only; split_ifs <;> rfl

/-- The log on top of the bytes of a place is what the team reads there. -/
theorem logOverlay_place (s : State) (t : Team) (e : Touch) (n : Nat) :
    logOverlay t e.addr (placeBytes s e.place n) = teamBytes s t e n := by
  rw [logOverlay_eq]
  apply List.ext_getElem
  · cases e.place <;> simp [placeBytes, memBytes, teamBytes, rangeFrom]
  · intro i h1 h2
    simp only [teamBytes, rangeFrom, List.getElem_map, List.getElem_zipIdx, List.getElem_range, teamByte, logByte]
    cases find? t.log (e.addr + i) with
    | some b => simp
    | none =>
      by_cases hz : t.zeros.contains ((e.addr + i) / 256)
      · simp only [hz, if_true, Option.getD_some]
      · simp only [hz, Bool.false_eq_true, if_false, Option.getD_none, Nat.add_sub_cancel_left]
        generalize e.place = p at h1
        cases p <;> simp [placeBytes, memBytes, rangeFrom]

theorem mapM_id_some {α : Type} : ∀ (l : List (Option α)) (r : List α), l.mapM id = some r → l = r.map some := by
  intro l
  induction l with
  | nil => intro r h; simp at h; simp [← h]
  | cons x l ih =>
    intro r h
    simp only [List.mapM_cons, id, Option.bind_eq_bind, Option.bind_eq_some_iff, Option.pure_def, Option.some.injEq] at h
    obtain ⟨b, rfl, bs, hbs, rfl⟩ := h
    rw [ih bs hbs, List.map_cons]

/-- A range that the log supplies whole is what the team reads there. -/
theorem logAll_teamBytes {t : Team} {e : Touch} {n : Nat} {bs : List Byte} (h : logAll t e.addr n = some bs) (s : State) :
    bs = teamBytes s t e n := by
  have h1 : (rangeFrom e.addr n).map (logByte t) = bs.map some := mapM_id_some _ _ h
  have h2 : (teamBytes s t e n).map some = bs.map some := by
    rw [← h1, teamBytes, List.map_map]
    refine List.map_congr_left fun x hx => ?_
    have hm : logByte t x ∈ bs.map some := h1 ▸ List.mem_map_of_mem hx
    obtain ⟨b, -, hb⟩ := List.mem_map.1 hm
    unfold logByte at hb ⊢
    simp only [Function.comp, teamByte]
    cases hf : find? t.log x with
    | some b => rfl
    | none =>
      rw [hf] at hb
      simp only at hb ⊢
      split_ifs at hb ⊢
      rfl
  exact (List.map_injective_iff.2 (Option.some_injective _) h2).symm

/-! ## Loads (R160, R165, R166) -/

/-- What a lane of a load writes. -/
def laneLoads (s : State) (t : Team) (w : Width) (sx : Bool) (r : Nat) (e : Touch) : List PendWrite :=
  (loadOut w r (loadVal w sx (teamBytes s t e (widthBytes w)))).map fun x => ⟨e.lane, x.1, x.2⟩

/-- One lane of a load reads a plain place. -/
theorem readLane_plain {s : State} {u : Nat} {t : Team} {w : Width} {e : Touch} {g : Reading} (h : LoadRead s g.s u t)
    (hb : t.bounds = false) (hp : PlainReads s t w [e]) (pol : Pol) (sx : Bool) (r : Nat) :
    ∃ s2, readLane u t w pol sx r g e = { g with s := s2, writes := g.writes ++ laneLoads s t w sx r e } ∧ LoadRead s s2 u t := by
  unfold readLane
  dsimp only
  cases ha : logAll t e.addr (widthBytes w) with
  | some bs =>
    obtain rfl := logAll_teamBytes ha s
    exact ⟨g.s, rfl, h⟩
  | none =>
    obtain ⟨s2, h1, h2⟩ := placeRead_plain h hb hp e.lane pol
    refine ⟨s2, ?_, h2⟩
    have hnp : ∀ slot x, e.place ≠ .peer slot x := by
      intro slot x hx
      rcases hp e (by simp) with ⟨k, hk, -⟩ | ⟨k, hk, -⟩ <;> rw [hk] at hx <;> cases hx
    rw [laneLoads, ← logOverlay_place]
    generalize e.place = p at h1 hnp ⊢
    cases p with
    | peer slot x => exact absurd rfl (hnp slot x)
    | dev k => simp only [h1]; rfl
    | host k => simp only [h1]; rfl
    | table k => simp only [h1]; rfl

/-- The lanes of a load read their places. -/
theorem readLanes_plain {s : State} {u : Nat} {t : Team} {w : Width} (hb : t.bounds = false) (pol : Pol) (sx : Bool) (r : Nat) :
    ∀ (l : List Touch) (g : Reading), LoadRead s g.s u t → PlainReads s t w l →
      ∃ s2, l.foldl (readLane u t w pol sx r) g = { g with s := s2, writes := g.writes ++ l.flatMap (laneLoads s t w sx r) } ∧
        LoadRead s s2 u t := by
  intro l
  induction l with
  | nil => intro g h _; exact ⟨g.s, by simp, h⟩
  | cons e l ih =>
    intro g h hp
    obtain ⟨s1, h1, h2⟩ := readLane_plain h hb (fun x hx => hp x (List.mem_cons.2 (.inl (List.mem_singleton.1 hx)))) pol sx r
    obtain ⟨s2, h3, h4⟩ := ih { g with s := s1, writes := g.writes ++ laneLoads s t w sx r e } h2 fun x hx => hp x (by simp [hx])
    exact ⟨s2, by rw [List.foldl_cons, h1, h3, List.flatMap_cons, List.append_assoc], h4⟩

theorem cachesMoved_serve (banks : List Nat) : ∀ s : State, CachesMoved s (banks.foldl serveAt s) := by
  induction banks with
  | nil => exact fun s => .refl s
  | cons b banks ih => exact fun s => (cachesMoved_serveAt s b).trans (ih _)

theorem LoadRead.uncached {s s0 s1 : State} {u : Nat} {t : Team} (h : LoadRead s s1 u t) (core : Nat) :
    LoadRead s (uncached s0 s1 core) u t := by
  have hc : CachesMoved s1 { s1 with pound := s0.pound, stks := s0.stks } := cachesMoved_pound ..
  refine CachesMoved.loadRead (s1 := { s1 with pound := s0.pound, stks := s0.stks }) ?_ (hc.loadRead h)
  exact cachesMoved_core rfl

/-- A LOAD OF PLAIN PLACES COMPLETES: its values are outstanding. -/
theorem globalLoad_plain {s : State} {u : Nat} {t : Team} (ht : find? s.teams u = some t) (hb : t.bounds = false) (w : Width) (pol : Pol)
    (sx : Bool) (d : VReg) {l : List Touch} (hp : PlainReads s t w l) :
    ∃ s1 m p, LoadRead s s1 u t ∧ find? s1.teams u = some (withRels t m) ∧
      globalLoad s u t w pol sx d l =
        done (fallThrough (setTeam s1 u { withRels t m with pend := t.pend ++ [p] }) u false) ∧
      p.isLoad = true ∧ p.regs = (vUseRegs t.flow.x (dataUse w d)).map .v ∧ p.fault = none ∧ p.peers = [] ∧ p.preds = [] ∧
      p.kwrite = none ∧ p.writes = l.flatMap (laneLoads s t w sx (ef t d)) := by
  have h0 := (cachesMoved_serve (loadBanks s t.core pol l) s).loadRead (LoadRead.refl ht)
  set s0 := (loadBanks s t.core pol l).foldl serveAt s with hs0
  obtain ⟨s2, h1, h2⟩ := readLanes_plain hb pol sx (ef t d) l ⟨s0, [], none, []⟩ h0 hp
  have h3 : LoadRead s (if (banksBusy s0 (loadBanks s t.core pol l)).isNone then s2 else uncached s0 s2 t.core) u t := by
    split_ifs
    · exact h2
    · exact h2.uncached _
  obtain ⟨m, hm⟩ := h3.team
  refine ⟨_, m, ⟨true, (vUseRegs t.flow.x (dataUse w d)).map .v, l.flatMap (laneLoads s t w sx (ef t d)), [], none, none, [],
    packetsOf s0 l, banksBusy s0 (loadBanks s t.core pol l), loadBanks s t.core pol l,
    if (banksBusy s0 (loadBanks s t.core pol l)).isNone then [] else loadKeeps l pol⟩, h3, hm, ?_, rfl, rfl, rfl, rfl, rfl, rfl, rfl⟩
  unfold globalLoad
  dsimp only
  rw [← hs0, h1]
  simp only [modTeam_eq, getTeam_of_find hm]
  rfl

theorem walk_setTeam (s : State) (u : Nat) (x : Team) (id va : Nat) : walk (setTeam s u x) id va = walk s id va := by
  unfold walk l1Slot
  rw [show tableWord (setTeam s u x) = tableWord s from rfl, show getCtx (setTeam s u x) = getCtx s from rfl]

theorem pageKey_setTeam (s : State) (u : Nat) (x : Team) (id va : Nat) : pageKey (setTeam s u x) id va = pageKey s id va := by
  simp only [pageKey, walk_setTeam]

theorem laneXlate_latch (s : State) (u : Nat) (t x : Team) (a : Access) (va : Nat) (n : Need) :
    laneXlate (setTeam s u x) (latch s t a) va n = laneXlate s t va n := rfl

/-- The checks of an access do not depend on the latched group. -/
theorem checkLanes_latch (s : State) (u : Nat) (t x : Team) (a : Access) (w : Nat) (n : Need) (l : List LaneAddr) :
    checkLanes (setTeam s u x) (latch s t a) w n l = checkLanes s t w n l := by
  have hc : (latch s t a).ctx = t.ctx := rfl
  simp only [checkLanes, laneXlate_latch, pageKey_setTeam, hc]
/-- A load has changed no byte. -/
theorem LoadRead.readOnly {s s1 : State} {u : Nat} {t t0 : Team} (h : LoadRead (setTeam s u t0) s1 u t) (t' : Team) :
    ReadOnly s (setTeam s1 u t') u := by
  have hr : setTeam s1 u t' = { s with teams := (setTeam s1 u t').teams, cores := s1.cores, pound := s1.pound, stks := s1.stks } := by
    rw [h.rest]; rfl
  refine ⟨hr, fun n hn => ?_, fun n => ?_, ⟨fun _ => by rw [hr], fun _ => by rw [hr], fun _ => by rw [hr], fun n x => ?_, fun n x => ?_⟩⟩
  · rw [find?_setTeam, if_neg hn, h.others n hn, find?_setTeam, if_neg hn]
  · rw [getCore_setTeam]
    exact h.cores n
  · rw [getCore_setTeam, h.cores n]; rfl
  · rw [getCore_setTeam, h.cores n]; rfl

theorem LoadRead.quiet {s s1 : State} {u : Nat} {t : Team} (h : LoadRead s s1 u t) (hq : Quiet s) : Quiet s1 := by
  rw [h.rest]
  exact ⟨hq.dev, hq.devNone, hq.ctx, hq.ctxNone⟩

/-- LD in normal mode, and LDB as one that extends with zeros (R160, R166). -/
theorem load_outstanding {s : State} {u : Nat} {t : Team} (h : Issuing s u t) {c : Instr} {w : Width} {pol : Pol} {sx : Bool} {m : MArgs}
    {l : List Touch} (hne : lanesOf t ≠ []) (hf : Fits t (offUse true m.a m.b ++ [dataUse w m.t]))
    (hk : checkLanes s t (widthBytes w) .load (globalLanes t m.a m.b m.imm) = .ok l) (hp : PlainReads s t w l)
    {eff : State → Nat → Team → Out} (hc : exec c s = issueOp (accM true w m false true) eff s)
    (heff : ∀ s t, t.bounds = false → eff s u t = loadNormal w pol sx m s u t) :
    ∃ s' t' p, exec c s = .next s' ∧ find? s'.teams u = some t' ∧ Passed s { t with pend := [p], got := t'.got } t' ∧
      (∀ r ∈ t.got, r ∈ t'.got) ∧ ReadOnly s s' u ∧ p.isLoad = true ∧ p.regs = (vUseRegs t.flow.x (dataUse w m.t)).map .v ∧
      p.fault = none ∧ p.peers = [] ∧ p.preds = [] ∧ p.kwrite = none ∧
      p.writes = l.flatMap fun e =>
        (loadOut w (ef t m.t) (loadVal w sx (teamBytes s t e (widthBytes w)))).map fun x => ⟨e.lane, x.1, x.2⟩ := by
  set a := accM true w m false true with ha
  obtain ⟨s1, g, p, h1, h2, h3, p1, p2, p3, p4, p5, p6, p7⟩ := globalLoad_plain (s := setTeam s u (latch s t a)) (u := u) (t := latch s t a)
    (by simp [find?_setTeam]) h.mode w pol sx m.t hp
  have hend : (latch s t a).pend ++ [p] = [p] := by rw [show (latch s t a).pend = [] from h.arrived]; rfl
  rw [hend] at h3
  have hexec : exec c s = done (fallThrough (setTeam s1 u { withRels (latch s t a) g with pend := [p] }) u false) := by
    rw [hc, issueOp_issuing h (accM_fits hf false true), if_neg (by simp [hne]), heff _ (latch s t a) h.mode, loadNormal,
      checkLanes_latch, show globalLanes (latch s t a) m.a m.b m.imm = globalLanes t m.a m.b m.imm from rfl, hk]
    exact h3
  obtain ⟨t', he, hpass⟩ := fallThrough_passed (s1 := setTeam s1 u { withRels (latch s t a) g with pend := [p] })
    (t1 := { withRels (latch s t a) g with pend := [p] }) (t0 := { t with pend := [p], got := t.got ++ g }) h a (by simp) rfl ⟨rfl, rfl, rfl, rfl, rfl⟩
  have hgot : t'.got = t.got ++ g := by rw [hpass.1]
  refine ⟨setTeam s1 u t', t', p, ?_, by simp [find?_setTeam], by rw [hgot]; exact hpass, fun r hr => by simp [hgot, hr], h1.readOnly t',
    p1, p2, p3, p4, p5, p6, p7⟩
  rw [hexec, he, setTeam_setTeam, done_of_quiet ((h1.quiet (h.quiet.setTeam ..)).setTeam ..)]

theorem meldLanes_team (s : State) (u : Nat) (t : Team) : meldLanes (setTeam s u t) u = setTeam s u (melded t) := by
  unfold meldLanes
  simp only [getTeam_setTeam, if_true, setTeam_setTeam]
  split
  next h => rw [melded_of_whole (List.isEmpty_iff.1 h)]
  · rfl

theorem PlainReads.melded {s : State} {t : Team} {w : Width} {l : List Touch} (h : PlainReads s t w l) : PlainReads s (melded t) w l := by
  have hs : ∀ {first a n : Nat} {mem : Nat → Byte}, Synced s t.seen first a n mem → Synced s (Machine.melded t).seen first a n mem :=
    fun h x hx1 hx2 => SyncedAt.mono (h x hx1 hx2) fun c hc => by simp [Machine.melded, hc]
  intro e he
  rcases h e he with ⟨k, hk, hp, h⟩ | ⟨k, hk, h⟩
  · exact .inl ⟨k, hk, hp, hs h⟩
  · exact .inr ⟨k, hk, hs h⟩

/-- The read of a KLD at a plain place. -/
theorem kldRead_plain {s s0 : State} {u : Nat} {t t0 : Team} {w : Width} {e : Touch} (h : LoadRead s0 s u t0) (hb : t0.bounds = false)
    (hp : PlainReads s0 t0 w [e]) (pol : Pol) (sx : Bool) (a : Nat) :
    ∃ s2 m, kldRead pol (widthBytes w) sx a s u t e =
        done (fallThrough (setTeam s2 u (setK (withRels t0 m) a (kldVal sx (teamBytes s0 t e (widthBytes w))))) u false) ∧
      LoadRead s0 s2 u t0 := by
  unfold kldRead
  dsimp only
  cases ha : logAll t e.addr (widthBytes w) with
  | some bs =>
    obtain rfl := logAll_teamBytes ha s0
    obtain ⟨m, hm⟩ := h.team
    exact ⟨s, m, by simp only [modTeam_eq, getTeam_of_find hm], h⟩
  | none =>
    obtain ⟨s2, h1, h2⟩ := placeRead_plain h hb hp 0 pol
    obtain ⟨m, hm⟩ := h2.team
    refine ⟨s2, m, ?_, h2⟩
    have hnp : ∀ slot x, e.place ≠ .peer slot x := by
      intro slot x hx
      rcases hp e (by simp) with ⟨k, hk, -⟩ | ⟨k, hk, -⟩ <;> rw [hk] at hx <;> cases hx
    rw [← logOverlay_place]
    generalize e.place = p at h1 hnp ⊢
    cases p with
    | peer slot x => exact absurd rfl (hnp slot x)
    | dev k => simp only [h1, Bool.false_eq_true, if_false, modTeam_eq, getTeam_of_find hm]
    | host k => simp only [h1, Bool.false_eq_true, if_false, modTeam_eq, getTeam_of_find hm]
    | table k => simp only [h1, Bool.false_eq_true, if_false, modTeam_eq, getTeam_of_find hm]

/-- KLD (R165). -/
theorem kld_read {s : State} {u : Nat} {t : Team} (h : Issuing s u t) (w : Width) (pol : Pol) (sx : Bool) (a b : KReg) (x : ImmHints)
    (e : Touch) (ha : a.toNat ≤ 383) (hb : b.toNat ≤ 383)
    (hk : checkLanes s t (widthBytes w) .load [⟨0, wrapNat 64 ((kreg t b.toNat).toNat + dispOf x)⟩] = .ok [e])
    (hp : PlainReads s t w [e]) :
    ∃ s' t', exec (.kld w pol sx a b x) s = .next s' ∧ find? s'.teams u = some t' ∧
      Passed s { melded t with k := t'.k, got := t'.got } t' ∧ (∀ r ∈ t.got, r ∈ t'.got) ∧ ReadOnly s s' u ∧
      (∀ n, kreg t' n = if n = a.toNat ∧ n ≠ 0 then kldVal sx (teamBytes s t e (widthBytes w)) else kreg t n) := by
  set acc : Access := { noAccess with rk := [(b.toNat, 1)], wk := [(a.toNat, 1)] } with hacc
  have hfits : AccFits t acc := ⟨by simp [hacc, noAccess, Fits], by simp [hacc, noAccess]; omega⟩
  have hread : LoadRead (setTeam s u (melded (latch s t acc))) (setTeam s u (melded (latch s t acc))) u (melded (latch s t acc)) :=
    LoadRead.refl (by simp [find?_setTeam])
  obtain ⟨s2, m, h1, h2⟩ := kldRead_plain (t := latch s t acc) hread h.mode hp.melded pol sx a.toNat
  set t1 := setK (withRels (melded (latch s t acc)) m) a.toNat (kldVal sx (teamBytes s t e (widthBytes w))) with ht1
  have hexec : exec (.kld w pol sx a b x) s = done (fallThrough (setTeam s2 u t1) u false) := by
    show execKld w pol sx a b x s = _
    rw [execKld, issueOp_issuing h hfits]
    simp only [show acc.vector = false from rfl, Bool.false_and, Bool.false_eq_true, if_false]
    rw [checkLanes_latch, show kreg (latch s t acc) = kreg t from rfl, hk, meldLanes_team]
    exact h1
  obtain ⟨t', he, hpass⟩ := fallThrough_passed (s1 := setTeam s2 u t1) (t1 := t1) (t0 := { melded t with k := t1.k, got := t.got ++ m })
    h acc (by simp) (by rw [ht1, setK_eq]; rfl) ⟨rfl, rfl, rfl, rfl, rfl⟩
  have hgot : t'.got = t.got ++ m := by rw [hpass.1]
  have hkk : t'.k = t1.k := by rw [hpass.1]
  refine ⟨setTeam s2 u t', t', ?_, by simp [find?_setTeam], by rw [hgot, hkk]; exact hpass, fun r hr => by simp [hgot, hr],
    h2.readOnly t', fun n => ?_⟩
  · rw [hexec, he, setTeam_setTeam, done_of_quiet ((h2.quiet (h.quiet.setTeam ..)).setTeam ..)]
  · rw [show kreg t' n = kreg t1 n by simp only [kreg, hkk], ht1, kreg_setK_own]
    rfl

/-- Settles O13: a load of plain places reads through its team's log what memory holds, since the team knows the newest writes there. -/
theorem loadsReadThroughTheLog : Obligations.LoadsReadThroughTheLog := by
  intro s u t h
  refine ⟨fun w pol sx m l hne hf hk hp c hc => ?_, fun w pol sx a b x e ha hb hk hp => kld_read h w pol sx a b x e ha hb hk hp⟩
  rcases hc with rfl | ⟨rfl, rfl⟩
  · exact load_outstanding (pol := pol) h hne hf hk hp (execLd.eq_1 w pol sx m s) fun s t hb => by simp [hb]
  · exact load_outstanding (pol := pol) h hne hf hk hp (execLdb.eq_1 w pol m s) fun s t hb => by simp [hb]

end Sys2Proof.Machine

namespace Sys2Proof.Machine

/-! ## What a fetch changes (R363, R373, R438) -/

/-- Of the state only the walkers, table space, the pound and the stacks differ. -/
def WordsBrought (s s' : State) : Prop :=
  s' = { s with walkers := s'.walkers, tspace := s'.tspace, pound := s'.pound, stks := s'.stks }

theorem WordsBrought.refl (s : State) : WordsBrought s s := rfl

theorem WordsBrought.trans {s s1 s2 : State} (h : WordsBrought s s1) (k : WordsBrought s1 s2) : WordsBrought s s2 := by
  unfold WordsBrought at *
  rw [k, h]

theorem wordsBrought_companion (s : State) (a mask : Nat) : WordsBrought s (setCompanion s a mask) := by
  unfold setCompanion
  dsimp only
  split_ifs
  · exact .refl s
  · rfl

theorem wordsBrought_install (s : State) (die id : Nat) (l : Leaf) : WordsBrought s (tlbInstall s die id l) := by
  unfold tlbInstall
  dsimp only
  split_ifs
  · exact wordsBrought_companion ..
  · exact (wordsBrought_companion s l.slotAt (2 ^ die)).trans rfl

theorem wordsBrought_bring (s : State) (die id va : Nat) : WordsBrought s (bring s die id va) := by
  unfold bring
  split
  · exact .refl s
  · split
    · exact .refl s
    · exact wordsBrought_install ..

theorem wordsBrought_activate (s : State) (b : Nat) : WordsBrought s (activate s b) := by
  unfold activate serveRun
  split_ifs
  · exact .refl s
  · exact .refl s
  · rfl

theorem wordsBrought_readThrough (s : State) (b : Nat) : WordsBrought s (readThrough s b) :=
  (wordsBrought_activate s b).trans (show WordsBrought (activate s b) (poundKeep (activate s b) b false .l1) from rfl)

theorem wordsBrought_fetchedFrom (s : State) (t : Team) (pc n : Nat) : WordsBrought s (fetchedFrom s t pc n) := by
  have key : ∀ (l : List Nat) (s : State), WordsBrought s (l.foldl readThrough s) := by
    intro l
    induction l with
    | nil => exact fun s => .refl s
    | cons b l ih => exact fun s => (wordsBrought_readThrough s b).trans (ih _)
  exact key _ s

/-- A team's first issue changes teams, cores and kernels alone (R230, R241). -/
theorem firstIssue_only (s : State) (u : Nat) :
    firstIssue s u = { s with teams := (firstIssue s u).teams, cores := (firstIssue s u).cores, kernels := (firstIssue s u).kernels } := by
  unfold firstIssue
  dsimp only
  split_ifs
  · rfl
  · rw [modKernel, acquireView, teamJoins_only]
    rfl

theorem firstIssue_again {s : State} {u : Nat} (h : (getTeam s u).cur.uid ≠ 0) : firstIssue s u = s := by
  simp [firstIssue, h]

/-! ## One step (R437) -/

/-- The issue of a team whose group has been fetched and decodes. -/
theorem issue_runs {s : State} {u : Nat} (hc : canIssue s u = true) {ws : List W32} {r : Except IllegalCause Instr} {n : Nat}
    (hw : fetchGroup (firstIssue s u) (getTeam (firstIssue s u) u) (2 ^ 54) (getTeam (firstIssue s u) u).flow.pc [] = .words ws)
    (hd : decode ws = some (r, n)) :
    ∃ s1, stepAgendum (.issue u) s = exec (match r with | .ok i => i | .error c => .illegalWord c) s1 ∧
      WordsBrought { firstIssue s u with
        issue := ⟨u, (getTeam (firstIssue s u) u).flow.pc, (getTeam (firstIssue s u) u).flow.pc + 4 * (ws.length - 1),
          (getTeam (firstIssue s u) u).flow.pc + 4 * ws.length, (firstIssue s u).mgmt.time⟩ } s1 := by
  refine ⟨_, ?_, ((wordsBrought_fetchedFrom _ (getTeam (firstIssue s u) u) (getTeam (firstIssue s u) u).flow.pc ws.length).trans
    (wordsBrought_bring _ (dieOf (getTeam (firstIssue s u) u).core) (getTeam (firstIssue s u) u).ctx
      (getTeam (firstIssue s u) u).flow.pc)).trans (wordsBrought_bring _ (dieOf (getTeam (firstIssue s u) u).core)
        (getTeam (firstIssue s u) u).ctx ((getTeam (firstIssue s u) u).flow.pc + 4 * (ws.length - 1)))⟩
  unfold stepAgendum fetchNext
  dsimp only
  rw [if_pos hc, hw]
  dsimp only
  rw [hd]
  cases r <;> rfl

/-- The issue of a team whose group cannot be fetched stops its core (R144). -/
theorem issue_stops {s : State} {u : Nat} (hc : canIssue s u = true) {a : Nat}
    (hb : fetchGroup (firstIssue s u) (getTeam (firstIssue s u) u) (2 ^ 54) (getTeam (firstIssue s u) u).flow.pc [] = .bad a) :
    stepAgendum (.issue u) s = fetchStop { firstIssue s u with
      issue := ⟨u, (getTeam (firstIssue s u) u).flow.pc, (getTeam (firstIssue s u) u).flow.pc, (getTeam (firstIssue s u) u).flow.pc + 4,
        (firstIssue s u).mgmt.time⟩ } u a := by
  unfold stepAgendum fetchNext
  dsimp only
  rw [if_pos hc, hb]
  rfl

/-- The issue of a team whose next word lies at a peer asks for it. -/
theorem issue_asks {s : State} {u : Nat} (hc : canIssue s u = true) {a slot x : Nat}
    (hp : fetchGroup (firstIssue s u) (getTeam (firstIssue s u) u) (2 ^ 54) (getTeam (firstIssue s u) u).flow.pc [] = .peer a slot x) :
    stepAgendum (.issue u) s = .next (settle (askPeers (firstIssue s u) u 4 [(a, slot, x)])) := by
  unfold stepAgendum fetchNext
  dsimp only
  rw [if_pos hc, hp]
  rfl

theorem issue_idle {s : State} {u : Nat} (hc : canIssue s u = false) : stepAgendum (.issue u) s = .next s := by
  simp only [stepAgendum, hc, Bool.false_eq_true, if_false]

/-- What a bank has answered with a retry stands in the agenda still. -/
theorem mem_postpone (n : Nat) (a : Agendum) (rest : List Agendum) : a ∈ postpone n a rest := by
  unfold postpone
  dsimp only
  split_ifs <;> simp

/-- A step that is undone changes the records of the stacks and the agenda alone. -/
theorem retryLater_only (a : Agendum) (banks : List Nat) (s : State) :
    retryLater a banks s = { s with stks := (retryLater a banks s).stks, agenda := (retryLater a banks s).agenda } ∧
      a ∈ (retryLater a banks s).agenda := by
  refine ⟨?_, mem_postpone ..⟩
  have key : ∀ (f : State → Nat → State), (∀ s k, f s k = { s with stks := (f s k).stks }) → ∀ (l : List Nat) (s : State),
      l.foldl f s = { s with stks := (l.foldl f s).stks } := by
    intro f hf l
    induction l with
    | nil => exact fun _ => rfl
    | cons k l ih => intro s; rw [List.foldl_cons, ih, hf]
  unfold retryLater
  dsimp only
  rw [key _ (fun s k => rfl) banks s]

/-- The head of the agenda happens, unless a bank answers a request of it with a retry. -/
theorem step_agenda {s : State} {a : Agendum} {rest : List Agendum} (hf : fillRoom s = none) (ha : s.agenda = a :: rest) :
    step s = served a { s with agenda := rest, free := s.free + 1 } (stepAgendum a { s with agenda := rest, free := s.free + 1 }) := by
  unfold step
  rw [hf]
  dsimp only
  rw [ha]
  rfl

/-- A word that is no hint is a group of its own (R47). -/
theorem fetchGroup_word {s : State} {t : Team} {pc : Nat} {w : W32} (hg : fetchWord s t pc = .got w) (hh : isGroupHint w = false) :
    fetchGroup s t (2 ^ 54) pc [] = .words [w] := by
  obtain ⟨k, hk⟩ : ∃ k, 2 ^ 54 = k + 1 := ⟨2 ^ 54 - 1, by norm_num⟩
  rw [hk, fetchGroup, hg]
  simp [hh]

/-- An event that is no illegal word is performed. -/
theorem event_exec {i : Instr} (s : State) (he : i.encoded = false) (hn : ∀ c, i ≠ .illegalWord c) :
    stepAgendum (.event i) s = exec i s := by
  rw [stepAgendum]
  · rw [he]; rfl
  · exact fun c hc => hn c hc

/-- Settles O56, clause by clause: what a fetch changes, what a retry leaves, and the equations of the entries of the agenda. -/
theorem stepRunsTheDecodedInstruction : Obligations.StepRunsTheDecodedInstruction := by
  refine ⟨fun s s1 hf => by simp only [step, hf], fun s a rest hf ha => ?_, fun s => ⟨fun u hc => ?_, fun u hc => ?_,
    fun i he hn => event_exec s he hn, fun s1 i h => ?_, fun s1 i h => ?_, fun s1 i h => ?_, fun k x => rfl, fun n => rfl⟩⟩
  · intro s0 s1 hs
    rw [step_agenda hf ha, hs]
    refine ⟨fun hb => ?_, fun hb => ⟨retryLater a (banksMet s1) s0, ?_, retryLater_only a (banksMet s1) s0⟩⟩
    · simp only [served, hb, List.isEmpty_nil, if_true]
    · simp only [served, List.isEmpty_iff, hb, if_false]
      rfl
  · refine ⟨fun ws r n hw hd => ?_, fun w hg hh => fetchGroup_word hg hh, fun a hb => ?_, fun a slot x hp => ?_⟩
    · obtain ⟨s1, h1, h2⟩ := issue_runs hc hw hd
      have hf := firstIssue_only s u
      have htime : (firstIssue s u).mgmt.time = s.mgmt.time := by rw [hf]
      rw [htime] at h2
      refine ⟨s1, h1, ?_, ?_, fun hu => ?_⟩
      · rw [h2]
      · rw [h2, hf]
      · rw [firstIssue_again hu] at h2
        rw [h2]
        exact ⟨rfl, rfl, rfl⟩
    · exact ⟨_, issue_stops hc hb⟩
    · exact issue_asks hc hp
  · exact issue_idle hc
  · simp only [stepAgendum, h, stepPacket]
  · simp only [stepAgendum, h, stepPacket]
  · simp only [stepAgendum, h, stepPacket]

end Sys2Proof.Machine

namespace Sys2Proof.Machine

/-! # Matrix operations retire (O35)

The statement fails in its clause on `.g2t`. It is about every state, and so about one in which a context's PTROOT is no multiple of 65536
(R356): the companion word of a leaf then may lie where the walk reads a pointer. The unit's read of the first sector brings the leaf into
the caches of its die, which sets an ACC bit there (R363), and the walk of the second sector finds no table any more. The operation stays
at the head of its queue. The clause asks for some state that settles to the next one, so what settling keeps has to show that none of
these has retired it. -/

/-! ## What settling keeps where lost records stay counted (R407) -/

theorem setCtx_listed (s : State) (id : Nat) (c : Ctx) : find? (setCtx s id c).ctxs id = some c := by simp [setCtx, find?_put]

theorem recDone_lost (s : State) (r : FaultRec) (slot n : Nat) : (getCtx (recDone s r slot) n).lost = (getCtx s n).lost := by
  unfold recDone
  split
  · rfl
  · dsimp only
    split_ifs
    · rw [modCtx, getCtx_setCtx]
      split_ifs with h
      · subst h; rfl
      · rfl
    · rfl

theorem recDone_listed {s : State} {id : Nat} (h : find? s.ctxs id ≠ none) (r : FaultRec) (slot : Nat) :
    find? (recDone s r slot).ctxs id ≠ none := by
  unfold recDone
  split
  · exact h
  · dsimp only
    split_ifs
    · rw [modCtx, setCtx, find?_put]
      split_ifs
      · simp
      · exact h
    · exact h

/-- Trying a context's records keeps it listed. -/
theorem flushCtx_listed (fuel : Nat) {s : State} {id : Nat} (h : find? s.ctxs id ≠ none) : find? (flushCtx fuel s id).ctxs id ≠ none := by
  induction fuel generalizing s with
  | zero => exact h
  | succ fuel ih =>
    have put : ∀ (s : State) (c : Ctx), find? (setCtx s id c).ctxs id ≠ none := fun s c => setCtx_listed s id c ▸ Option.some_ne_none c
    unfold flushCtx
    dsimp only
    split
    · exact h
    · split
      · exact put _ _
      · split
        · exact put _ _
        · exact put _ _
        · exact ih (recDone_listed (put _ _) _ _)

/-- The cores, the contexts but `id`, and the count of its lost records are as they were. -/
structure CoresStand (id : Nat) (s s' : State) : Prop where
  cores : s'.cores = s.cores
  lost : (getCtx s' id).lost = (getCtx s id).lost
  others : ∀ n, n ≠ id → find? s'.ctxs n = find? s.ctxs n

theorem coresStand_setCtx (s : State) (id : Nat) {c : Ctx} (h : c.lost = (getCtx s id).lost) : CoresStand id s (setCtx s id c) :=
  ⟨rfl, by simp [getCtx_setCtx, h], fun n hn => by simp [setCtx, find?_put, hn]⟩

/-- Trying a context's records appends one, and then none is counted as lost any longer, or leaves the cores as they are. -/
theorem flushCtx_cases (fuel : Nat) (s : State) (id : Nat) :
    (getCtx (flushCtx fuel s id) id).lost = 0 ∨ CoresStand id s (flushCtx fuel s id) := by
  induction fuel generalizing s with
  | zero => exact .inr ⟨rfl, rfl, fun _ _ => rfl⟩
  | succ fuel ih =>
    unfold flushCtx
    dsimp only
    split
    · exact .inr ⟨rfl, rfl, fun _ _ => rfl⟩
    · split
      · exact .inr (coresStand_setCtx s id rfl)
      · split
        · exact .inr (coresStand_setCtx s id rfl)
        · exact .inr (coresStand_setCtx s id rfl)
        · refine .inl ((ih _).elim (fun h => h) fun h => h.lost.trans ?_)
          simp [recDone_lost, modCtx, getCtx_setCtx]

/-- Only context `id` is listed, and some of its records are counted as lost. -/
def LossOnly (id : Nat) (s : State) : Prop := (∀ n, n ≠ id → find? s.ctxs n = none) ∧ (getCtx s id).lost ≠ 0

theorem tryCtx_of_lossOnly {id : Nat} {s : State} {e : Nat × Ctx} (h : LossOnly id (tryCtx s e)) :
    LossOnly id s ∧ (tryCtx s e).cores = s.cores := by
  unfold tryCtx at h ⊢
  split_ifs at h ⊢
  · have hlist : find? (flushCtx 64 (modCtx s e.1 fun c => { c with due := true }) e.1).ctxs e.1 ≠ none :=
      flushCtx_listed 64 (by rw [modCtx, setCtx_listed]; exact Option.some_ne_none _)
    obtain rfl : e.1 = id := by_contra fun hne => hlist (h.1 _ hne)
    rcases flushCtx_cases 64 (modCtx s e.1 fun c => { c with due := true }) e.1 with h0 | hk
    · exact absurd h0 h.2
    · have hm : CoresStand e.1 s (modCtx s e.1 fun c => { c with due := true }) := coresStand_setCtx s e.1 rfl
      exact ⟨⟨fun n hn => hm.others n hn ▸ hk.others n hn ▸ h.1 n hn, hm.lost ▸ hk.lost ▸ h.2⟩, hk.cores.trans hm.cores⟩
  · exact ⟨h, rfl⟩

theorem foldl_tryCtx_of_lossOnly {id : Nat} (l : List (Nat × Ctx)) {s : State} (h : LossOnly id (l.foldl tryCtx s)) :
    LossOnly id s ∧ (l.foldl tryCtx s).cores = s.cores := by
  induction l generalizing s with
  | nil => exact ⟨h, rfl⟩
  | cons e l ih =>
    obtain ⟨h1, hc⟩ := ih h
    obtain ⟨h2, hc'⟩ := tryCtx_of_lossOnly h1
    exact ⟨h2, hc.trans hc'⟩

/-- Trying the records of the device appends one, and then none is counted as lost any longer, or only notes that it was tried. -/
theorem flushDev_only (fuel : Nat) (s : State) :
    (flushDev fuel s).evLost = 0 ∨ flushDev fuel s = { s with evDue := (flushDev fuel s).evDue, evSeen := (flushDev fuel s).evSeen } := by
  cases fuel with
  | zero => exact .inr rfl
  | succ fuel =>
    unfold flushDev
    split
    · exact .inr rfl
    · split
      · exact .inr rfl
      next r rest _ =>
        split
        · exact .inr rfl
        next s1 _ _ =>
          exact .inl ((flushDev_cases fuel { s1 with evPend := rest ++ s1.evPend.drop (rest.length + 1), evLost := 0 }).elim id fun h => h.2.1)

/-- Where settling comes to a state that lists one context, and in which records of that and of the device are counted as lost, it has
left the cores as they were. -/
theorem cores_of_settle {id : Nat} {s : State} (h : LossOnly id (settle s)) (hl : (settle s).evLost ≠ 0) : (settle s).cores = s.cores := by
  have hfold : LossOnly id (s.ctxs.foldl tryCtx s) ∧ (settle s).cores = (s.ctxs.foldl tryCtx s).cores := by
    rcases settle_cases s with hs | hs
    · exact ⟨hs ▸ h, by rw [hs]⟩
    · rcases flushDev_only 64 { s.ctxs.foldl tryCtx s with evDue := true } with h0 | hk
      · exact absurd (hs ▸ h0) hl
      · rw [hs, hk] at h ⊢
        exact ⟨h, rfl⟩
  exact hfold.2.trans (foldl_tryCtx_of_lossOnly s.ctxs hfold.1).2

/-! ## The state -/

/-- A `.g2t` of e4m3 elements from address 0 into tile 0. -/
def skewLoad : MOp :=
  { kind := .g2t, desc := [0x30000#64, 0#64, 0#64], uid := 1, order := 0, batch := none, pc := 0, regsA := [], opRegs := [], spadUse := []
    seen := [], made := [], destTiles := [0], destRows := [], destSpad := [], pages := [], voids := [], held := 0, slave := false
    tainted := false, asks := [], unit := 0, destBlocks := [] }

/-- A device whose context 1 has its page-table root at 8: the L3 entry of address 0 is the companion word of the leaf at 0, which maps
2 MiB from address 0 on to the device, readable and writable. A core of the second die is about to retire the load. -/
def skewDevice : State :=
  { State.reset with
    tspace := [(0, 0x0F#8), (8, 1#8), (10, 1#8), (65536, 1#8)]
    ctxs := [(1, { Ctx.reset with ptroot := 8, lost := 1 })], evLost := 1
    teams := [(1, { Team.blank with uid := 1, ctx := 1, core := 80 })]
    cores := [(80, { Core.reset with ctx := 1, matQ := [[skewLoad], [], [], []] })] }

theorem skewDevice_head : RetiringHead skewDevice 80 0 skewLoad [] where
  head := rfl
  queues := rfl
  flags := rfl
  inUnit := by decide
  running := rfl
  whole := rfl
  clean := ⟨rfl, rfl⟩
  apart p hp := by
    obtain rfl : p = skewLoad := by simpa [openOps, skewDevice, getCore, tabGet, Core.reset] using hp
    exact fun h => absurd rfl h

/-- The sectors of the load as the walk finds them before the first is read. -/
theorem skewDevice_xlate : ∀ i < 128, xlateWalk skewDevice 1 (32 * i) .load = .ok (.dev (32 * i)) 15 := by decide +kernel

theorem skewDevice_reads : EngineReads skewDevice 1 [] 0 4096 id := by
  intro x _ hx h32
  obtain ⟨i, rfl⟩ := Nat.dvd_of_mod_eq_zero h32
  exact ⟨⟨15, skewDevice_xlate i (by omega)⟩, rfl, fun _ _ _ _ hg => by simp [skewDevice, State.reset, find?] at hg⟩

/-- Whether a step leaves one context, records counted as lost, and no operation of core 80 retired. -/
def loadUnretired : Out → Bool
  | .next s => s.ctxs.map (fun e => (e.1, e.2.lost)) == [(1, 1)] && s.evLost != 0 && (getCore s 80).matDone.isEmpty
  | _ => false

theorem skewDevice_unretired : loadUnretired (exec (.matrixOpRetire 80 0) skewDevice) = true := by decide +kernel

theorem lossOnly_of_ctxs {s : State} {id n : Nat} (h : s.ctxs.map (fun e => (e.1, e.2.lost)) = [(id, n)]) (hn : n ≠ 0) : LossOnly id s := by
  obtain ⟨e, he, hid⟩ := List.map_eq_singleton_iff.mp h
  obtain ⟨rfl, rfl⟩ := Prod.mk.inj hid
  exact ⟨fun n hne => by simp [he, find?, hne], by simpa [getCtx, he, tabGet] using hn⟩

/-- Refutes O35: under a page-table root that R356 forbids, the ACC bit that a `.g2t` sets as it reads its first sector (R363) undoes the
walk of its second, and the operation does not retire. -/
theorem not_matrixOperationsRetire : ¬ Obligations.MatrixOperationsRetire := by
  rintro ⟨moves, -, -⟩
  obtain ⟨-, -, -, -, -, -, -, g2t, -⟩ := moves skewDevice 80 0 skewLoad [] skewDevice_head rfl rfl
  obtain ⟨s1, he, hcores, -⟩ := g2t id rfl (by decide) rfl skewDevice_reads
  obtain ⟨-, -, -, -, -, ⟨o1, -, hdone⟩, -⟩ := hcores _ (List.mem_singleton_self _)
  have h := skewDevice_unretired
  rw [he] at h
  simp only [loadUnretired, Bool.and_eq_true, beq_iff_eq, bne_iff_ne, List.isEmpty_iff] at h
  obtain ⟨⟨hctxs, hlost⟩, hempty⟩ := h
  have hsame : getCore (settle s1) 80 = getCore s1 80 := by
    rw [getCore, cores_of_settle (lossOnly_of_ctxs hctxs (by decide)) hlost]
    rfl
  rw [hsame, hdone] at hempty
  exact absurd hempty (by simp)

end Sys2Proof.Machine

namespace Sys2Proof.Machine

/-! # Element-wise sums, differences, minima and maxima (O1) -/

/-! ## Fields of a sum of elements -/

theorem field_eq (n lo len : Nat) : field n lo len = n / 2 ^ lo % 2 ^ len := by rw [field, Nat.shiftRight_eq_div_pow]

theorem wrapNat_lt (w : Nat) (i : Int) : wrapNat w i < 2 ^ w := by
  have h1 := Int.emod_lt_of_pos i (show (0 : Int) < 2 ^ w by positivity)
  have h2 := Int.emod_nonneg i (show (2 : Int) ^ w ≠ 0 by positivity)
  unfold wrapNat
  zify
  omega

/-- The elements of `w` bits from bit 0 up, and whether one of them is marked. -/
def packed (w : Nat) (g : Nat → Nat × Bool) (n : Nat) : Nat × Bool :=
  (List.range n).foldl (fun acc j => (acc.1 + (g j).1 * 2 ^ (w * j), acc.2 || (g j).2)) (0, false)

theorem packed_succ (w : Nat) (g : Nat → Nat × Bool) (n : Nat) :
    packed w g (n + 1) = ((packed w g n).1 + (g n).1 * 2 ^ (w * n), (packed w g n).2 || (g n).2) := by
  simp [packed, List.range_succ]

theorem packed_lt {w : Nat} {g : Nat → Nat × Bool} (h : ∀ j, (g j).1 < 2 ^ w) (n : Nat) : (packed w g n).1 < 2 ^ (w * n) := by
  induction n with
  | zero => simp [packed]
  | succ n ih =>
    have hm : (g n).1 * 2 ^ (w * n) + 2 ^ (w * n) ≤ 2 ^ w * 2 ^ (w * n) := by
      rw [← Nat.succ_mul]; exact Nat.mul_le_mul_right _ (h n)
    rw [packed_succ, Nat.mul_succ, pow_add, mul_comm (2 ^ (w * n))]
    omega

theorem field_packed {w : Nat} {g : Nat → Nat × Bool} (h : ∀ j, (g j).1 < 2 ^ w) {n j : Nat} (hj : j < n) :
    field (packed w g n).1 (w * j) w = (g j).1 := by
  induction n with
  | zero => omega
  | succ n ih =>
    rw [packed_succ, field_eq]
    rcases Nat.lt_succ_iff_lt_or_eq.mp hj with hlt | rfl
    · obtain ⟨d, rfl⟩ : ∃ d, n = j + 1 + d := ⟨n - j - 1, by omega⟩
      have hsplit : (g (j + 1 + d)).1 * 2 ^ (w * (j + 1 + d)) = (g (j + 1 + d)).1 * 2 ^ (w * d) * 2 ^ w * 2 ^ (w * j) := by ring
      rw [hsplit, Nat.add_mul_div_right _ _ (by positivity), Nat.add_mul_mod_self_right, ← field_eq, ih hlt]
    · rw [Nat.add_mul_div_right _ _ (by positivity), Nat.div_eq_of_lt (packed_lt h j), zero_add, Nat.mod_eq_of_lt (h j)]

theorem packed_marked (w : Nat) (g : Nat → Nat × Bool) (n : Nat) : (packed w g n).2 = true ↔ ∃ j < n, (g j).2 = true := by
  induction n with
  | zero => simp [packed]
  | succ n ih =>
    simp only [packed_succ, Bool.or_eq_true, ih, Nat.lt_succ_iff_lt_or_eq]
    constructor
    · rintro (⟨j, hj, hg⟩ | hg)
      · exact ⟨j, .inl hj, hg⟩
      · exact ⟨n, .inr rfl, hg⟩
    · rintro ⟨j, hj | rfl, hg⟩
      · exact .inl ⟨j, hj, hg⟩
      · exact .inr hg

/-! ## One element (R54, R55) -/

theorem elemVal_mod (signed : Bool) (w n : Nat) : elemVal signed w (n % 2 ^ w) = elemVal signed w n := by
  simp [elemVal, toSigned]

theorem loOf_le_hiOf (signed : Bool) (w : Nat) : loOf signed w ≤ hiOf signed w := by
  have h1 : (0 : Int) < 2 ^ (w - 1) := by positivity
  have h2 : (0 : Int) < 2 ^ w := by positivity
  unfold loOf hiOf
  split_ifs <;> omega

theorem satTo_eq (signed : Bool) (w : Nat) (v : Int) : satTo signed w v = (clamp signed w v, decide (clamp signed w v ≠ v)) := by
  have h := loOf_le_hiOf signed w
  unfold satTo clamp
  split_ifs with h1 h2
  · rw [min_eq_right (by omega), max_eq_left (by omega)]; simp; omega
  · rw [min_eq_left (by omega), max_eq_right (by omega)]; simp; omega
  · rw [min_eq_right (by omega), max_eq_right (by omega)]; simp

theorem combine_eq (signed sat : Bool) (w : Nat) (v : Int) :
    combine signed sat w v = (wrapNat w (if sat then clamp signed w v else v), sat && decide (clamp signed w v ≠ v)) := by
  cases sat <;> simp [combine, satTo_eq]

theorem perElem_eq (signed sat : Bool) (w total : Nat) (f : Int → Int → Int) (a b : Nat) :
    perElem signed sat w total f a b = packed w (fun j => combine signed sat w
      (f (elemVal signed w (field a (w * j) w)) (elemVal signed w (field b (w * j) w)))) (total / w) := by
  simp only [field_eq, elemVal_mod]
  rfl

/-- An operation on each element leaves, of each, its value wrapped or clamped, and is marked where one was clamped (R55). -/
theorem perElem_spec (signed sat : Bool) (w total : Nat) (f : Int → Int → Int) (a b : Nat) :
    let x := fun (j : Nat) => f (elemVal signed w (field a (w * j) w)) (elemVal signed w (field b (w * j) w))
    (∀ j < total / w, field (perElem signed sat w total f a b).1 (w * j) w = wrapNat w (if sat then clamp signed w (x j) else x j)) ∧
    ((perElem signed sat w total f a b).2 = true ↔ sat = true ∧ ∃ j < total / w, clamp signed w (x j) ≠ x j) := by
  intro x
  simp only [perElem_eq, combine_eq]
  refine ⟨fun j hj => field_packed (fun _ => wrapNat_lt _ _) hj, (packed_marked ..).trans ?_⟩
  simp only [Bool.and_eq_true, decide_eq_true_eq]
  exact ⟨fun ⟨j, hj, hs, hne⟩ => ⟨hs, j, hj, hne⟩, fun ⟨hs, j, hj, hne⟩ => ⟨j, hj, hs, hne⟩⟩

/-! ## The instructions (R83, R87, R94) -/

theorem accTy_fits {t : Team} {ty : IntTy} {d a b : VReg} (h : Fits t [vTy ty a, vTy ty b, vTy ty d]) (lat : Nat) :
    AccFits t (accTy ty d a b lat) := ⟨h, by simp [accTy, noAccess]⟩

/-- An instruction that runs an element-wise operation in each lane completes. -/
theorem tyLane_done {c : Instr} {s : State} {u : Nat} {t : Team} (h : Issuing s u t) {ty : IntTy} {d a b : VReg}
    (hf : Fits t [vTy ty a, vTy ty b, vTy ty d]) (sat : Bool) (f : Int → Int → Int) {lat : Nat} {g : Option (Team → Nat → ILane)}
    (hc : exec c s = vecOp (accTy ty d a b lat) (tyLane ty sat f d a b) g s) : ElemDone c s u t ty sat f d a b := by
  have hd := (hf (vTy ty d) (by simp)).1
  have hallot := h.allotted
  let opd := fun (i : Nat) (r : VReg) => if tyPair ty then vnat64 t i r else vnat t i r
  let r := fun (i : Nat) => perElem (tySigned ty) sat (tyWidth ty) (if tyPair ty then 64 else 32) f (opd i a) (opd i b)
  refine ⟨fun i => (r i).1, fun i => (r i).2, vecOp_done h (accTy_fits hf lat) rfl hc (fun i => ?_) fun i _ => ?_, fun i _ => ?_⟩
  · cases hp : tyPair ty <;> simp only [tyLane, r, opd, hp, if_true, if_false, Bool.false_eq_true] <;> rfl
  · cases hp : tyPair ty
    · exact outOk_one (by simp only [vTy, hp, v1, ef, if_false, Bool.false_eq_true] at hd ⊢; omega) _
    · exact outOk_pair (by simp only [vTy, hp, v2, ef, if_true] at hd ⊢; omega) _
  · have hn : (if tyPair ty then 64 else 32) / tyWidth ty = if tyPair ty then 1 else 32 / tyWidth ty := by cases ty <;> rfl
    have hs := perElem_spec (tySigned ty) sat (tyWidth ty) (if tyPair ty then 64 else 32) f (opd i a) (opd i b)
    rw [hn] at hs
    exact hs

/-- Settles O1, from what an element-wise operation leaves of each element. -/
theorem addSubtractMinMaxPerElement : Obligations.AddSubtractMinMaxPerElement := by
  intro s u t h ty d a b hf
  exact ⟨fun sat => tyLane_done h hf sat _ rfl, fun sat => tyLane_done h hf sat _ rfl, fun mx => tyLane_done h hf false _ rfl⟩

end Sys2Proof.Machine

namespace Sys2Proof.Machine

/-! # The values behind the float instructions (O10)

A rounded result is what `roundAt` leaves of a magnitude at the exponent of its last place. The magnitude `a` is known to the model exactly,
as m × 2^e, or, for quotients and roots, by a mantissa whose last bit is sticky. Both are `Stands`, and `roundAt` rounds `a` itself
(`roundAt_mult`) to one of the two multiples beside it. Those two bracket `a` among the numbers of a format's precision
(`ofPrecision_gap`), so the rounding is R65's (`roundsTo_of_mult`). -/

/-! ## The two multiples beside a magnitude (R65) -/

section
variable {K : Type} [Field K] [LinearOrder K]

/-- A mantissa stands for a magnitude: it is its value, or the odd mantissa between whose neighbours the magnitude lies. -/
def Stands (m : Nat) (e : Int) (a : K) : Prop :=
  a = m * 2 ^ e ∨ (m % 2 = 1 ∧ ((m : K) - 1) * 2 ^ e < a ∧ a < ((m : K) + 1) * 2 ^ e)

/-- Whether a magnitude that lies from `k` to `k + 1` units is rounded up. -/
def RoundsUp (rm : RMode) (neg : Bool) (a u : K) (k : Nat) : Prop :=
  match rm with
  | .rne => (2 * k + 1) * u < 2 * a ∨ ((2 * k + 1) * u = 2 * a ∧ k % 2 = 1)
  | .rz => False
  | .rd => neg = true ∧ a ≠ k * u
  | .ru => neg = false ∧ a ≠ k * u

/-- `c` units are what a magnitude rounds to among the multiples of a unit. -/
def RoundsMult (rm : RMode) (neg : Bool) (a u : K) (c : Nat) : Prop :=
  ∃ k : Nat, k * u ≤ a ∧ a < (k + 1) * u ∧ ((RoundsUp rm neg a u k ∧ c = k + 1) ∨ (¬ RoundsUp rm neg a u k ∧ c = k))

theorem Stands.exact (m : Nat) (e : Int) : Stands m e ((m : K) * 2 ^ e) := .inl rfl

variable [IsStrictOrderedRing K]

/-- A magnitude lies on the side of an even multiple that its mantissa lies on. -/
theorem Stands.cmp_even {m n : Nat} {e : Int} {a : K} (h : Stands m e a) (hn : a ≠ m * 2 ^ e → n % 2 = 0) :
    ((n : K) * 2 ^ e < a ↔ n < m) ∧ ((n : K) * 2 ^ e = a ↔ n = m) := by
  have hu : (0 : K) < 2 ^ e := by positivity
  by_cases ha : a = m * 2 ^ e
  · subst ha
    exact ⟨by rw [mul_lt_mul_iff_left₀ hu, Nat.cast_lt], by rw [mul_left_inj' hu.ne', Nat.cast_inj]⟩
  · obtain ⟨hodd, hlo, hhi⟩ := h.resolve_left ha
    have hne : n ≠ m := fun h => by have := hn ha; omega
    rcases Nat.lt_or_gt_of_ne hne with hlt | hgt
    · have : (n : K) * 2 ^ e ≤ ((m : K) - 1) * 2 ^ e := by
        refine mul_le_mul_of_nonneg_right ?_ hu.le
        rw [le_sub_iff_add_le]
        exact_mod_cast hlt
      exact ⟨⟨fun _ => hlt, fun _ => by linarith⟩, ⟨fun h => absurd h (by linarith), fun h => absurd h hne⟩⟩
    · have : ((m : K) + 1) * 2 ^ e ≤ (n : K) * 2 ^ e := by
        refine mul_le_mul_of_nonneg_right ?_ hu.le
        exact_mod_cast hgt
      exact ⟨⟨fun _ => by linarith, fun h => absurd h (by omega)⟩, ⟨fun h => absurd h (by linarith), fun h => absurd h hne⟩⟩

/-- Where a magnitude lies among the multiples of a unit of `sh + 1` bits of its mantissa: not below the quotient, below the next one, on the
side of the middle that the remainder tells, and on the quotient where the remainder is 0. -/
theorem Stands.among {m : Nat} {e : Int} {a : K} (h : Stands m e a) {sh : Nat} (hsh : a = m * 2 ^ e ∨ 1 ≤ sh) {u : K}
    (hu : u = ((2 ^ (sh + 1) : Nat) : K) * 2 ^ e) {k r : Nat} (hm : 2 ^ (sh + 1) * k + r = m) (hr : r < 2 ^ (sh + 1)) :
    (k * u ≤ a ∧ a < (k + 1) * u) ∧ ((2 * k + 1) * u < 2 * a ↔ 2 ^ (sh + 1) < 2 * r) ∧
      ((2 * k + 1) * u = 2 * a ↔ 2 ^ (sh + 1) = 2 * r) ∧ (a = k * u ↔ r = 0) := by
  have hp : (2 : Nat) ^ (sh + 1) = 2 * 2 ^ sh := pow_succ' ..
  have hbot := h.cmp_even (n := 2 ^ (sh + 1) * k) fun _ => by rw [hp, mul_assoc]; omega
  have htop := h.cmp_even (n := 2 ^ (sh + 1) * (k + 1)) fun _ => by rw [hp, mul_assoc]; omega
  have hmid := h.cmp_even (n := 2 ^ (sh + 1) * k + 2 ^ sh) fun ha => by
    obtain ⟨j, rfl⟩ := Nat.exists_eq_add_of_le' (hsh.resolve_left ha)
    rw [hp, mul_assoc, pow_succ (n := j)]; omega
  have ebot : ((2 ^ (sh + 1) * k : Nat) : K) * 2 ^ e = k * u := by rw [hu]; push_cast; ring
  have etop : ((2 ^ (sh + 1) * (k + 1) : Nat) : K) * 2 ^ e = (k + 1) * u := by rw [hu]; push_cast; ring
  have emid : 2 * (((2 ^ (sh + 1) * k + 2 ^ sh : Nat) : K) * 2 ^ e) = (2 * k + 1) * u := by
    rw [hu]; push_cast; rw [pow_succ]; ring
  rw [ebot] at hbot
  rw [etop, Nat.mul_succ] at htop
  have hexact : a = k * u ↔ r = 0 := by rw [eq_comm, hbot.2]; omega
  refine ⟨⟨?_, lt_of_not_ge fun hge => ?_⟩, ?_, ?_, hexact⟩
  · rcases Nat.eq_zero_or_pos r with h0 | h0
    · exact (hexact.2 h0).ge
    · exact (hbot.1.2 (by omega)).le
  · rcases hge.lt_or_eq with h1 | h1
    · have := htop.1.1 h1; omega
    · have := htop.2.1 h1; omega
  · rw [← emid, mul_lt_mul_iff_right₀ two_pos, hmid.1]; omega
  · rw [← emid, mul_right_inj' two_ne_zero, hmid.2]; omega

/-- A magnitude that is a multiple of the unit is not rounded up. -/
theorem not_roundsUp_self (rm : RMode) (neg : Bool) {u : K} (hu : 0 < u) (k : Nat) : ¬ RoundsUp rm neg (k * u) u k := by
  cases rm
  · rintro (h | ⟨h, -⟩) <;> nlinarith
  · exact id
  · exact fun h => h.2 rfl
  · exact fun h => h.2 rfl

/-- A mantissa whose last place is the unit's, or above it, is a multiple of the unit. -/
theorem roundAt_mult_fine (rm : RMode) (neg : Bool) {m : Nat} {e ex : Int} {a : K} (ha : a = m * 2 ^ e) (hle : ex ≤ e) :
    RoundsMult rm neg a (2 ^ ex) (roundAt rm neg m e ex).1 ∧
      ((roundAt rm neg m e ex).2 = true ↔ ((roundAt rm neg m e ex).1 : K) * 2 ^ ex ≠ a) := by
  obtain ⟨d, rfl⟩ : ∃ d : Nat, e = ex + d := ⟨(e - ex).toNat, by omega⟩
  have hu : (0 : K) < 2 ^ ex := by positivity
  have hk : a = ((m * 2 ^ d : Nat) : K) * 2 ^ ex := by
    rw [ha, zpow_add₀ two_ne_zero, zpow_natCast]
    push_cast
    ring
  simp only [roundAt, hle, if_true, show (ex + d - ex).toNat = d by omega]
  refine ⟨⟨_, hk.ge, by rw [hk]; linarith, .inr ⟨?_, rfl⟩⟩, by simpa using hk.symm⟩
  exact hk ▸ not_roundsUp_self rm neg hu _

/-- `roundAt` rounds the magnitude that its mantissa stands for, and says whether that has changed it. -/
theorem roundAt_mult (rm : RMode) (neg : Bool) {m : Nat} {e ex : Int} {a : K} (h : Stands m e a) (hex : a = m * 2 ^ e ∨ e + 2 ≤ ex) :
    RoundsMult rm neg a (2 ^ ex) (roundAt rm neg m e ex).1 ∧
      ((roundAt rm neg m e ex).2 = true ↔ ((roundAt rm neg m e ex).1 : K) * 2 ^ ex ≠ a) := by
  by_cases hle : ex ≤ e
  · exact roundAt_mult_fine rm neg (hex.resolve_right (by omega)) hle
  · obtain ⟨sh, rfl⟩ : ∃ sh : Nat, ex = e + (sh + 1 : Nat) := ⟨(ex - e).toNat - 1, by omega⟩
    have hu : (2 : K) ^ (e + ((sh + 1 : Nat) : Int)) = ((2 ^ (sh + 1) : Nat) : K) * 2 ^ e := by
      rw [zpow_add₀ two_ne_zero, zpow_natCast]; push_cast; ring
    obtain ⟨⟨hge, hlt⟩, hmid, htie, hexact⟩ := h.among (hex.imp_right fun _ => by omega) hu (Nat.div_add_mod m (2 ^ (sh + 1)))
      (Nat.mod_lt _ (by positivity))
    simp only [roundAt, hle, if_false, show (e + ((sh + 1 : Nat) : Int) - e).toNat = sh + 1 by omega]
    generalize (2 : K) ^ (e + ((sh + 1 : Nat) : Int)) = u at *
    generalize m / 2 ^ (sh + 1) = k at *
    generalize m % 2 ^ (sh + 1) = r at *
    have key : ∀ up : Bool, (up = true ↔ RoundsUp rm neg a u k) → RoundsMult rm neg a u (if up then k + 1 else k) ∧
        (decide (r ≠ 0) = true ↔ ((if up then k + 1 else k : Nat) : K) * u ≠ a) := by
      intro up hup
      rw [decide_eq_true_iff, ne_eq r 0, ← hexact]
      cases up
      · exact ⟨⟨k, hge, hlt, .inr ⟨fun h => by simpa using hup.2 h, rfl⟩⟩, not_congr eq_comm⟩
      · refine ⟨⟨k, hge, hlt, .inl ⟨hup.1 rfl, rfl⟩⟩, iff_of_true (fun ha => ?_) (by push_cast; exact hlt.ne')⟩
        have hu0 : 0 < u := by linarith
        exact not_roundsUp_self rm neg hu0 k (ha ▸ hup.1 rfl)
    refine key _ ?_
    cases rm
    · simp only [RoundsUp, Bool.or_eq_true, decide_eq_true_eq, Bool.and_eq_true, beq_iff_eq, hmid, htie]
    · simp [RoundsUp]
    · simp [RoundsUp, hexact]
    · simp [RoundsUp, hexact]

end

/-! ## Rounding to a set of numbers (R65) -/

/-- The sign of a value as a factor. -/
def sgnQ (neg : Bool) : ℚ := if neg then -1 else 1

theorem sgnQ_cases (neg : Bool) : neg = true ∧ sgnQ neg = -1 ∨ neg = false ∧ sgnQ neg = 1 := by cases neg <;> simp [sgnQ]

theorem sgnQ_mul_self (neg : Bool) : sgnQ neg * sgnQ neg = 1 := by cases neg <;> norm_num [sgnQ]

theorem abs_sgnQ_mul (neg : Bool) (x : ℚ) : |sgnQ neg * x| = |x| := by cases neg <;> simp [sgnQ]

theorem sgnQ_ne_zero (neg : Bool) : sgnQ neg ≠ 0 := by cases neg <;> norm_num [sgnQ]

/-- The multiple that a magnitude rounds to to nearest is the nearest of a set, and an even one of two (R65). -/
theorem nearest_of_mult {G : ℚ → Prop} {neg : Bool} {a u : ℚ} {k c : Nat} (hge : k * u ≤ a) (hlt : a < (k + 1) * u)
    (hc : (RoundsUp .rne neg a u k ∧ c = k + 1) ∨ (¬ RoundsUp .rne neg a u k ∧ c = k))
    (hgap : ∀ x, G x → x ≤ k * u ∨ (k + 1) * u ≤ x) (x : ℚ) (hx : G x) :
    |a - c * u| ≤ |a - x| ∧ (|a - c * u| = |a - x| → x = c * u ∨ ∃ j : ℤ, c * u = 2 * j * |c * u - x|) := by
  have hbelow : |a - k * u| = a - k * u := abs_of_nonneg (by linarith)
  have habove : |a - (k + 1) * u| = (k + 1) * u - a := by rw [abs_sub_comm]; exact abs_of_pos (by linarith)
  have hu : |(k : ℚ) * u - (k + 1) * u| = u := by rw [abs_sub_comm, abs_of_pos (by linarith)]; ring
  rcases hc with ⟨hup, rfl⟩ | ⟨hup, rfl⟩
  · push_cast
    have hmid : (2 * k + 1) * u ≤ 2 * a := hup.elim le_of_lt fun h => h.1.le
    rw [habove]
    rcases hgap x hx with h | h
    · rw [abs_of_nonneg (by linarith : 0 ≤ a - x)]
      refine ⟨by linarith, fun heq => .inr ?_⟩
      obtain ⟨-, hodd⟩ : (2 * k + 1) * u = 2 * a ∧ k % 2 = 1 := hup.resolve_left fun h' => by linarith
      obtain rfl : x = k * u := by linarith
      obtain ⟨j, hj⟩ : ∃ j, k + 1 = 2 * j := ⟨(k + 1) / 2, by omega⟩
      refine ⟨j, ?_⟩
      rw [abs_sub_comm, hu, show (k : ℚ) + 1 = 2 * j by exact_mod_cast hj, Int.cast_natCast]
    · rw [abs_sub_comm a x, abs_of_nonneg (by linarith : 0 ≤ x - a)]
      exact ⟨by linarith, fun heq => .inl (by linarith)⟩
  · have hmid : 2 * a ≤ (2 * c + 1) * u := le_of_not_gt fun h => hup (.inl h)
    rw [hbelow]
    rcases hgap x hx with h | h
    · rw [abs_of_nonneg (by linarith : 0 ≤ a - x)]
      exact ⟨by linarith, fun heq => .inl (by linarith)⟩
    · rw [abs_sub_comm a x, abs_of_nonneg (by linarith : 0 ≤ x - a)]
      refine ⟨by linarith, fun heq => .inr ?_⟩
      obtain rfl : x = (c + 1) * u := by linarith
      have heven : c % 2 = 0 := by
        by_contra hodd
        exact hup (.inr ⟨by linarith, by omega⟩)
      obtain ⟨j, rfl⟩ : ∃ j, c = 2 * j := ⟨c / 2, by omega⟩
      refine ⟨j, ?_⟩
      rw [hu]
      push_cast
      ring

/-- The multiple that a magnitude rounds up to is the least of a set that is not below it. -/
theorem least_of_mult {G : ℚ → Prop} {a u : ℚ} {k c : Nat} (hge : k * u ≤ a) (hlt : a < (k + 1) * u)
    (hc : (a ≠ k * u ∧ c = k + 1) ∨ (¬ a ≠ k * u ∧ c = k)) (hgap : ∀ x, G x → x ≤ k * u ∨ (k + 1) * u ≤ x) :
    a ≤ c * u ∧ ∀ x, G x → a ≤ x → c * u ≤ x := by
  rcases hc with ⟨hne, rfl⟩ | ⟨heq, rfl⟩
  · push_cast
    exact ⟨hlt.le, fun x hx hax => (hgap x hx).resolve_left fun h => hne (by linarith)⟩
  · rw [not_not] at heq
    exact ⟨heq.le, fun x _ hax => heq ▸ hax⟩

/-- Where no number of a set lies between the two multiples beside a magnitude, which both do, the multiple that it rounds to is what it rounds
to in the set, whatever its sign. -/
theorem roundsTo_of_mult {G : ℚ → Prop} (hsym : ∀ x, G x → G (-x)) {rm : RMode} {neg : Bool} {a u : ℚ} {c : Nat}
    (hm : RoundsMult rm neg a u c) (ha : 0 ≤ a)
    (hG : ∀ k : Nat, k * u ≤ a → a < (k + 1) * u → G (k * u) ∧ G ((k + 1) * u) ∧ ∀ x, G x → x ≤ k * u ∨ (k + 1) * u ≤ x) :
    RoundsTo G rm (sgnQ neg * a) (sgnQ neg * (c * u)) := by
  obtain ⟨k, hge, hlt, hc⟩ := hm
  obtain ⟨hlo, hhi, hgap⟩ := hG k hge hlt
  have hsgn : ∀ x, G x → G (sgnQ neg * x) := fun x hx => by
    rcases sgnQ_cases neg with ⟨-, h⟩ | ⟨-, h⟩ <;> rw [h]
    · rw [neg_one_mul]; exact hsym x hx
    · rwa [one_mul]
  have hu : 0 < u := by linarith
  refine ⟨hsgn _ ?_, ?_⟩
  · rcases hc with ⟨-, rfl⟩ | ⟨-, rfl⟩
    · push_cast; exact hhi
    · exact hlo
  cases rm with
  | rne =>
    intro x hx
    obtain ⟨hnear, htie⟩ := nearest_of_mult hge hlt hc hgap _ (hsgn x hx)
    have hself : sgnQ neg * (sgnQ neg * x) = x := by rw [← mul_assoc, sgnQ_mul_self, one_mul]
    have e1 : sgnQ neg * a - x = sgnQ neg * (a - sgnQ neg * x) := by rw [mul_sub, hself]
    have e2 : sgnQ neg * (c * u) - x = sgnQ neg * (c * u - sgnQ neg * x) := by rw [mul_sub, hself]
    rw [← mul_sub, e1, e2, abs_sgnQ_mul, abs_sgnQ_mul, abs_sgnQ_mul]
    refine ⟨hnear, fun h => (htie h).imp (fun h => by rw [← h, hself]) ?_⟩
    rintro ⟨j, hj⟩
    refine ⟨if neg then -j else j, ?_⟩
    rcases sgnQ_cases neg with ⟨rfl, h⟩ | ⟨rfl, h⟩ <;> rw [h] at hj ⊢ <;> simp only [if_true, if_false, Bool.false_eq_true]
    · push_cast; linarith
    · linarith
  | rz =>
    obtain ⟨-, rfl⟩ := hc.resolve_left fun h => h.1
    have h0 : 0 ≤ c * u := by positivity
    refine ⟨?_, ?_, fun x hx hxa => ?_⟩
    · rw [abs_sgnQ_mul, abs_sgnQ_mul, abs_of_nonneg h0, abs_of_nonneg ha]; exact hge
    · rw [mul_mul_mul_comm, sgnQ_mul_self, one_mul]; exact mul_nonneg h0 ha
    · rw [abs_sgnQ_mul, abs_of_nonneg ha] at hxa
      rw [abs_sgnQ_mul, abs_of_nonneg h0]
      refine (hgap |x| ?_).resolve_right fun h => by linarith
      rcases abs_choice x with h | h <;> rw [h]
      · exact hx
      · exact hsym x hx
  | rd =>
    rcases sgnQ_cases neg with ⟨rfl, h⟩ | ⟨rfl, h⟩ <;> simp only [h, neg_one_mul, one_mul]
    · obtain ⟨hle, hleast⟩ := least_of_mult hge hlt (by simpa [RoundsUp] using hc) hgap
      exact ⟨neg_le_neg hle, fun x hx hxa => le_neg_of_le_neg (hleast (-x) (hsym x hx) (le_neg_of_le_neg hxa))⟩
    · obtain ⟨-, rfl⟩ := hc.resolve_left fun h => by simpa using h.1.1
      exact ⟨hge, fun x hx hxa => (hgap x hx).resolve_right fun h => by linarith⟩
  | ru =>
    rcases sgnQ_cases neg with ⟨rfl, h⟩ | ⟨rfl, h⟩ <;> simp only [h, neg_one_mul, one_mul]
    · obtain ⟨-, rfl⟩ := hc.resolve_left fun h => by simpa using h.1.1
      exact ⟨by linarith, fun x hx hxa => by
        have := (hgap (-x) (hsym x hx)).resolve_right fun h => by linarith
        linarith⟩
    · exact least_of_mult hge hlt (by simpa [RoundsUp] using hc) hgap

theorem ofPrecision_neg {f : Fmt} {least : Bool} (x : ℚ) (h : OfPrecision f least x) : OfPrecision f least (-x) := by
  obtain ⟨m, e, hm, he, hx⟩ := h
  exact ⟨m, e, hm, he, by rw [abs_neg, hx]⟩

/-- Beside a magnitude of at most the format's precision at a unit, which has that precision unless the unit is the format's least, the
multiples of the unit are of the format's precision, and nothing of it lies between two of them. -/
theorem ofPrecision_gap {f : Fmt} {least : Bool} {ex : Int} {a : ℚ} (hmin : least = true → fmtEmin f ≤ ex)
    (hlo : 2 ^ f.fb * 2 ^ ex ≤ a ∨ (least = true ∧ ex = fmtEmin f)) (hhi : a < 2 ^ (f.fb + 1) * 2 ^ ex) (k : Nat)
    (hk : k * 2 ^ ex ≤ a) (hk1 : a < (k + 1) * 2 ^ ex) :
    OfPrecision f least (k * 2 ^ ex) ∧ OfPrecision f least ((k + 1) * 2 ^ ex) ∧
      ∀ x, OfPrecision f least x → x ≤ k * 2 ^ ex ∨ (k + 1) * 2 ^ ex ≤ x := by
  have hu : (0 : ℚ) < 2 ^ ex := by positivity
  have hkt : k < 2 ^ (f.fb + 1) := by
    have := lt_of_mul_lt_mul_right (hk.trans_lt hhi) hu.le
    exact_mod_cast this
  refine ⟨⟨k, ex, hkt, hmin, abs_of_nonneg (by positivity)⟩, ?_, fun x hx => ?_⟩
  · rw [show ((k : ℚ) + 1) * 2 ^ ex = ((k + 1 : Nat) : ℚ) * 2 ^ ex by push_cast; ring]
    rcases Nat.lt_or_ge (k + 1) (2 ^ (f.fb + 1)) with h | h
    · exact ⟨k + 1, ex, h, hmin, abs_of_nonneg (by positivity)⟩
    · refine ⟨2 ^ f.fb, ex + 1, Nat.pow_lt_pow_right (by norm_num) (by omega), fun hl => by have := hmin hl; omega, ?_⟩
      rw [abs_of_nonneg (by positivity), show k + 1 = 2 ^ (f.fb + 1) by omega, zpow_add_one₀ two_ne_zero]
      push_cast
      ring
  · obtain ⟨m, e, hm, he, hxe⟩ := hx
    have hmq : (m : ℚ) < 2 ^ (f.fb + 1) := by exact_mod_cast hm
    have hxle : x ≤ m * 2 ^ e := hxe ▸ le_abs_self x
    rcases le_or_gt x 0 with h0 | h0
    · exact .inl (h0.trans (by positivity))
    rw [abs_of_pos h0] at hxe
    rcases le_or_gt ex e with hee | hee
    · obtain ⟨d, rfl⟩ : ∃ d : Nat, e = ex + d := ⟨(e - ex).toNat, by omega⟩
      have hx' : x = ((m * 2 ^ d : Nat) : ℚ) * 2 ^ ex := by rw [hxe, zpow_add₀ two_ne_zero, zpow_natCast]; push_cast; ring
      rw [hx']
      rcases Nat.lt_or_ge k (m * 2 ^ d) with h | h
      · exact .inr (mul_le_mul_of_nonneg_right (by exact_mod_cast h) hu.le)
      · exact .inl (mul_le_mul_of_nonneg_right (by exact_mod_cast h) hu.le)
    · have hfull : 2 ^ f.fb * 2 ^ ex ≤ a := hlo.resolve_right fun ⟨hl, hm⟩ => by have := he hl; omega
      have hkf : 2 ^ f.fb ≤ k := by
        have := lt_of_mul_lt_mul_right (hfull.trans_lt hk1) hu.le
        exact Nat.lt_succ_iff.mp (by exact_mod_cast this)
      refine .inl (hxle.trans ?_)
      calc (m : ℚ) * 2 ^ e ≤ 2 ^ (f.fb + 1) * 2 ^ (ex - 1) := by
            refine mul_le_mul hmq.le (zpow_le_zpow_right₀ (by norm_num) (by omega)) (by positivity) (by positivity)
        _ = 2 ^ f.fb * 2 ^ ex := by rw [zpow_sub_one₀ two_ne_zero, pow_succ]; ring
        _ ≤ k * 2 ^ ex := mul_le_mul_of_nonneg_right (by exact_mod_cast hkf) hu.le

/-! ## What the bits of a format are worth (R56, R57) -/

theorem fvQ_fin (n : Bool) (m : Nat) (e : Int) : fvQ (.fin n m e) = sgnQ n * (m * 2 ^ e) := by
  simp [fvQ, sgnQ]

theorem abs_fvQ_fin (n : Bool) (m : Nat) (e : Int) : |fvQ (.fin n m e)| = m * 2 ^ e := by
  rw [fvQ_fin, abs_sgnQ_mul]
  exact abs_of_nonneg (by positivity)

theorem fvQ_fin_eq_zero {n : Bool} {m : Nat} {e : Int} : fvQ (.fin n m e) = 0 ↔ m = 0 := by
  rw [← abs_eq_zero, abs_fvQ_fin]
  simp [zpow_ne_zero]

/-- What the formats of R56 have in common. -/
structure KnownFmt (f : Fmt) : Prop where
  exps : 1 ≤ f.eb
  fracs : 1 ≤ f.fb
  e4m3 : f.kind = .e4m3 → f.eb = 4 ∧ f.fb = 3

theorem knownFmt_of_mem {f : Fmt} (h : f ∈ [fmtF32, fmtF16, fmtBf16] ++ [fmtE5m2, fmtE4m3, fmtE3m2, fmtE2m3]) : KnownFmt f := by
  simp only [List.cons_append, List.nil_append, List.mem_cons, List.not_mem_nil, or_false] at h
  rcases h with rfl | rfl | rfl | rfl | rfl | rfl | rfl <;> exact ⟨by decide, by decide, by decide⟩

/-- The value of a sign, an exponent field and a fraction field. -/
def fvalAt (f : Fmt) (neg : Bool) (ex fr : Nat) : FVal :=
  let num := if ex = 0 then FVal.fin neg fr (fmtEmin f) else FVal.fin neg (2 ^ f.fb + fr) (fmtEmin f + (ex : Int) - 1)
  match f.kind with
  | .ieee =>
    if ex = 2 ^ f.eb - 1 then
      if fr = 0 then .inf neg else .nan (decide (f.fb ≠ 2) && fr < 2 ^ (f.fb - 1))
    else num
  | .e4m3 => if ex = 15 ∧ fr = 7 then .nan false else num
  | .bare => num

theorem bitAt_eq_testBit (n i : Nat) : bitAt n i = n.testBit i := by
  rw [bitAt, Nat.testBit_eq_decide_div_mod_eq, Nat.shiftRight_eq_div_pow]
  rfl

theorem fval_eq (f : Fmt) (n : Nat) : fval f n = fvalAt f (n.testBit (f.eb + f.fb)) (n / 2 ^ f.fb % 2 ^ f.eb) (n % 2 ^ f.fb) := by
  rw [← bitAt_eq_testBit, ← field_eq]
  rfl

theorem fval_signed (f : Fmt) (neg : Bool) {mag : Nat} (h : mag < 2 ^ (f.eb + f.fb)) :
    fval f (fmtSigned f neg mag) = fvalAt f neg (mag / 2 ^ f.fb) (mag % 2 ^ f.fb) := by
  have hq : mag / 2 ^ f.fb < 2 ^ f.eb := Nat.div_lt_of_lt_mul (by rwa [← pow_add, add_comm])
  rw [fval_eq]
  cases neg
  · rw [fmtSigned, if_neg Bool.false_ne_true, Nat.testBit_lt_two_pow h, Nat.mod_eq_of_lt hq]
  · have hs : 2 ^ (f.eb + f.fb) = 2 ^ f.eb * 2 ^ f.fb := pow_add ..
    rw [fmtSigned, if_pos rfl, Nat.testBit_two_pow_add_eq, Nat.testBit_lt_two_pow h, hs, add_comm, Nat.add_mul_div_right _ _ (by positivity),
      Nat.add_mod_right, Nat.add_mul_mod_self_right, Nat.mod_eq_of_lt hq]
    rfl

/-- Every pattern of a format's width is a sign and a magnitude. -/
theorem eq_signed {f : Fmt} {n : Nat} (h : n < 2 ^ fmtWidth f) :
    ∃ neg mag, mag < 2 ^ (f.eb + f.fb) ∧ n = fmtSigned f neg mag := by
  rw [fmtWidth, show 1 + f.eb + f.fb = (f.eb + f.fb) + 1 by ring, pow_succ] at h
  rcases Nat.lt_or_ge n (2 ^ (f.eb + f.fb)) with hlt | hge
  · exact ⟨false, n, hlt, by simp [fmtSigned]⟩
  · exact ⟨true, n - 2 ^ (f.eb + f.fb), by omega, by simp only [fmtSigned, if_true]; omega⟩

theorem signed_lt {f : Fmt} (neg : Bool) {mag : Nat} (h : mag < 2 ^ (f.eb + f.fb)) : fmtSigned f neg mag < 2 ^ fmtWidth f := by
  rw [fmtWidth, show 1 + f.eb + f.fb = (f.eb + f.fb) + 1 by ring, pow_succ]
  unfold fmtSigned
  split_ifs <;> omega

/-- The worth of a magnitude's bits. -/
def codeQ (f : Fmt) (mag : Nat) : ℚ :=
  if mag / 2 ^ f.fb = 0 then (mag % 2 ^ f.fb : Nat) * 2 ^ fmtEmin f
  else ((2 ^ f.fb + mag % 2 ^ f.fb : Nat) : ℚ) * 2 ^ (fmtEmin f + (mag / 2 ^ f.fb : Nat) - 1)

/-- The magnitude of at most `2 ^ (fb + 1)` units of a place `d` above the least: the leading bit raises the exponent. -/
theorem codeQ_units (f : Fmt) {d r : Nat} (hr : r ≤ 2 ^ (f.fb + 1)) (hd : d = 0 ∨ 2 ^ f.fb ≤ r) :
    codeQ f (d * 2 ^ f.fb + r) = r * 2 ^ (fmtEmin f + d) := by
  have hp : 0 < 2 ^ f.fb := by positivity
  have hdiv : (d * 2 ^ f.fb + r) / 2 ^ f.fb = d + r / 2 ^ f.fb := by rw [add_comm, Nat.add_mul_div_right _ _ hp, add_comm]
  have hmod : (d * 2 ^ f.fb + r) % 2 ^ f.fb = r % 2 ^ f.fb := by rw [add_comm, Nat.add_mul_mod_self_right]
  rw [pow_succ] at hr
  unfold codeQ
  rw [hdiv, hmod]
  rcases Nat.lt_or_ge r (2 ^ f.fb) with hlt | hge
  · obtain rfl : d = 0 := hd.resolve_right (by omega)
    rw [Nat.div_eq_of_lt hlt, Nat.mod_eq_of_lt hlt]
    simp
  rcases Nat.lt_or_ge r (2 * 2 ^ f.fb) with hlt | hge2
  · have h1 : r / 2 ^ f.fb = 1 := by rw [Nat.div_eq_iff hp]; omega
    have h2 : 2 ^ f.fb + r % 2 ^ f.fb = r := by rw [Nat.mod_eq_sub_mul_div, h1]; omega
    rw [h1, if_neg (by omega), h2]
    push_cast
    ring_nf
  · obtain rfl : r = 2 * 2 ^ f.fb := by omega
    rw [Nat.mul_div_cancel _ hp, Nat.mul_mod_left, if_neg (by omega),
      show fmtEmin f + ((d + 2 : Nat) : Int) - 1 = fmtEmin f + d + 1 by push_cast; ring, zpow_add_one₀ two_ne_zero]
    push_cast
    ring

theorem codeQ_strictMono (f : Fmt) : StrictMono (codeQ f) := by
  refine strictMono_nat_of_lt_succ fun n => ?_
  have hp : 0 < 2 ^ f.fb := by positivity
  have hlt := Nat.mod_lt n hp
  have hn := Nat.div_add_mod' n (2 ^ f.fb)
  have hs := pow_succ 2 f.fb
  obtain ⟨d, r, hr, hd, hnr⟩ : ∃ d r, r + 1 ≤ 2 ^ (f.fb + 1) ∧ (d = 0 ∨ 2 ^ f.fb ≤ r) ∧ n = d * 2 ^ f.fb + r := by
    rcases Nat.eq_zero_or_pos (n / 2 ^ f.fb) with h0 | h0
    · exact ⟨0, n, by rw [h0] at hn; omega, .inl rfl, by omega⟩
    · obtain ⟨d, hd⟩ := Nat.exists_eq_add_of_le' h0
      rw [hd, add_mul] at hn
      exact ⟨d, 2 ^ f.fb + n % 2 ^ f.fb, by omega, .inr (by omega), by omega⟩
  have hlast : codeQ f (n + 1) = (r + 1 : Nat) * 2 ^ (fmtEmin f + d) := by
    rw [hnr, add_assoc]; exact codeQ_units f hr (hd.imp_right fun h => by omega)
  rw [hlast, hnr, codeQ_units f (by omega) hd]
  exact mul_lt_mul_of_pos_right (by exact_mod_cast Nat.lt_succ_self r) (by positivity)

theorem fmtMax_lt {f : Fmt} (h : KnownFmt f) : fmtMax f < 2 ^ (f.eb + f.fb) := by
  have hp : 0 < 2 ^ f.fb := by positivity
  have he : 2 ≤ 2 ^ f.eb := by simpa using Nat.pow_le_pow_right (n := 2) (by norm_num) h.exps
  have hs := Nat.mul_le_mul_right (2 ^ f.fb) he
  unfold fmtMax
  rw [pow_add]
  split
  · rw [Nat.sub_mul]; omega
  · omega
  · omega

/-- Exponent and fraction fields that are no special are a subnormal or a normal number. -/
theorem fvalAt_num {f : Fmt} {ex fr : Nat} (neg : Bool) (h : ¬ (f.kind = .ieee ∧ ex = 2 ^ f.eb - 1))
    (h' : ¬ (f.kind = .e4m3 ∧ ex = 15 ∧ fr = 7)) :
    fvalAt f neg ex fr = if ex = 0 then FVal.fin neg fr (fmtEmin f) else FVal.fin neg (2 ^ f.fb + fr) (fmtEmin f + (ex : Int) - 1) := by
  unfold fvalAt
  dsimp only
  split <;> rename_i hk
  · exact if_neg fun he => h ⟨hk, he⟩
  · exact if_neg fun he => h' ⟨hk, he⟩
  · rfl

/-- Up to the largest finite magnitude the bits of a sign and a magnitude are a finite value, of that sign and the magnitude's worth. -/
theorem fvalAt_finite {f : Fmt} (hf : KnownFmt f) (neg : Bool) {mag : Nat} (h : mag ≤ fmtMax f) :
    fvalAt f neg (mag / 2 ^ f.fb) (mag % 2 ^ f.fb) =
      if mag / 2 ^ f.fb = 0 then FVal.fin neg (mag % 2 ^ f.fb) (fmtEmin f)
      else FVal.fin neg (2 ^ f.fb + mag % 2 ^ f.fb) (fmtEmin f + (mag / 2 ^ f.fb : Nat) - 1) := by
  unfold fmtMax at h
  refine fvalAt_num neg ?_ ?_
  · rintro ⟨hk, he⟩
    simp only [hk] at h
    have := Nat.div_mul_le_self mag (2 ^ f.fb)
    have h1 : 2 ≤ 2 ^ f.eb := by simpa using Nat.pow_le_pow_right (n := 2) (by norm_num) hf.exps
    have h2 : 1 * 2 ^ f.fb ≤ (2 ^ f.eb - 1) * 2 ^ f.fb := Nat.mul_le_mul_right _ (by omega)
    have hp : 0 < 2 ^ f.fb := by positivity
    rw [he] at this
    omega
  · rintro ⟨hk, h1, h2⟩
    obtain ⟨he, hb⟩ := hf.e4m3 hk
    simp only [hk, he, hb] at h
    have := Nat.div_add_mod mag (2 ^ f.fb)
    rw [h1, h2, hb] at this
    omega

theorem fval_finite {f : Fmt} (hf : KnownFmt f) (neg : Bool) {mag : Nat} (h : mag ≤ fmtMax f) :
    fvFin (fval f (fmtSigned f neg mag)) = true ∧ fvSign (fval f (fmtSigned f neg mag)) = neg ∧
      fvQ (fval f (fmtSigned f neg mag)) = sgnQ neg * codeQ f mag := by
  rw [fval_signed f neg (h.trans_lt (fmtMax_lt hf)), fvalAt_finite hf neg h, codeQ]
  split_ifs
  · exact ⟨rfl, rfl, fvQ_fin ..⟩
  · exact ⟨rfl, rfl, fvQ_fin ..⟩

theorem fvQ_fmtMax {f : Fmt} (hf : KnownFmt f) : fvQ (fval f (fmtMax f)) = codeQ f (fmtMax f) := by
  have := (fval_finite hf false le_rfl).2.2
  simpa [fmtSigned, sgnQ] using this

/-! ## One rounding to a format (R65-R69) -/

theorem dyLt_iff (m2 : Nat) (e2 : Int) (m1 : Nat) (e1 : Int) : dyLt m2 e2 m1 e1 = true ↔ (m2 : ℚ) * 2 ^ e2 < m1 * 2 ^ e1 := by
  have key : ∀ (x y : Nat) (a : Int) (d : Nat), (x : ℚ) * 2 ^ a < y * 2 ^ (a + d) ↔ x < y * 2 ^ d := fun x y a d => by
    rw [zpow_add₀ two_ne_zero, zpow_natCast, mul_left_comm, mul_comm, mul_lt_mul_iff_right₀ (by positivity)]
    exact_mod_cast Iff.rfl
  have key' : ∀ (x y : Nat) (a : Int) (d : Nat), (x : ℚ) * 2 ^ (a + d) < y * 2 ^ a ↔ x * 2 ^ d < y := fun x y a d => by
    rw [zpow_add₀ two_ne_zero, zpow_natCast, mul_left_comm, mul_comm _ (2 ^ a : ℚ), mul_lt_mul_iff_right₀ (by positivity)]
    exact_mod_cast Iff.rfl
  unfold dyLt
  split_ifs with h
  · obtain ⟨d, rfl⟩ : ∃ d : Nat, e2 = e1 + d := ⟨(e2 - e1).toNat, by omega⟩
    rw [decide_eq_true_iff, key', show (e1 + d - e1).toNat = d by omega]
  · obtain ⟨d, rfl⟩ : ∃ d : Nat, e1 = e2 + d := ⟨(e1 - e2).toNat, by omega⟩
    rw [decide_eq_true_iff, key, show (e2 + d - e2).toNat = d by omega]

theorem bitLen_bounds {m : Nat} (hm : m ≠ 0) : 1 ≤ bitLen m ∧ 2 ^ (bitLen m - 1) ≤ m ∧ m < 2 ^ bitLen m := by
  rw [bitLen, if_neg hm, Nat.add_sub_cancel]
  exact ⟨by omega, Nat.log2_self_le hm, Nat.lt_log2_self⟩

section
variable {K : Type} [Field K] [LinearOrder K] [IsStrictOrderedRing K]

/-- A magnitude has the leading bit of the mantissa that stands for it. -/
theorem Stands.leading {m : Nat} {e : Int} {a : K} (h : Stands m e a) (hm : m ≠ 0) (hb : a = m * 2 ^ e ∨ 2 ≤ bitLen m) :
    (2 : K) ^ (e + bitLen m - 1) ≤ a ∧ a < 2 ^ (e + bitLen m) := by
  obtain ⟨h1, hlo, hhi⟩ := bitLen_bounds hm
  have hlow : ((2 ^ (bitLen m - 1) : Nat) : K) * 2 ^ e = 2 ^ (e + bitLen m - 1) := by
    rw [show e + (bitLen m : Int) - 1 = e + ((bitLen m - 1 : Nat) : Int) by omega, zpow_add₀ two_ne_zero, zpow_natCast]
    push_cast; ring
  have hhigh : ((2 ^ bitLen m : Nat) : K) * 2 ^ e = 2 ^ (e + bitLen m) := by
    rw [zpow_add₀ two_ne_zero, zpow_natCast]
    push_cast; ring
  have even : ∀ j, j ≠ 0 → 2 ^ j % 2 = 0 := fun j hj => by
    obtain ⟨i, rfl⟩ := Nat.exists_eq_succ_of_ne_zero hj
    rw [pow_succ]; omega
  have c1 := h.cmp_even (n := 2 ^ (bitLen m - 1)) fun ha => even _ (by have := hb.resolve_left ha; omega)
  have c2 := h.cmp_even (n := 2 ^ bitLen m) fun ha => even _ (by have := hb.resolve_left ha; omega)
  rw [hlow] at c1
  rw [hhigh] at c2
  constructor
  · rcases hlo.lt_or_eq with h | h
    · exact (c1.1.2 h).le
    · exact (c1.2.2 h).le
  · exact lt_of_not_ge fun hge => by
      rcases hge.lt_or_eq with h | h
      · have := c2.1.1 h; omega
      · have := c2.2.1 h; omega

end

/-- What one rounding of a magnitude to a format is: with the format's least exponent the worth of its bits, without it a number that tells
whether it is tiny (R66). -/
theorem roundMag_spec (f : Fmt) (rm : RMode) (neg : Bool) {m : Nat} {e : Int} {a : ℚ} (hm : m ≠ 0) (hs : Stands m e a)
    (hb : a = m * 2 ^ e ∨ f.fb + 3 ≤ bitLen m) :
    RoundsTo (OfPrecision f true) rm (sgnQ neg * a) (sgnQ neg * codeQ f (roundMag f rm neg m e).mag) ∧
      (∃ p : ℚ, 0 ≤ p ∧ RoundsTo (OfPrecision f false) rm (sgnQ neg * a) (sgnQ neg * p) ∧
        ((roundMag f rm neg m e).tiny = true ↔ p < 2 ^ (1 - (f.bias : ℤ)))) ∧
      ((roundMag f rm neg m e).inexact = true ↔ codeQ f (roundMag f rm neg m e).mag ≠ a) := by
  obtain ⟨hlead, htop⟩ := hs.leading hm (hb.imp_right fun h => by omega)
  have ha : 0 ≤ a := le_trans (by positivity) hlead
  obtain ⟨exU, hexU⟩ : ∃ x, x = e + (bitLen m : Int) - (f.fb + 1 : Nat) := ⟨_, rfl⟩
  obtain ⟨ex, hex⟩ : ∃ x, x = max exU (fmtEmin f) := ⟨_, rfl⟩
  have hstick : ∀ x, exU ≤ x → a = m * 2 ^ e ∨ e + 2 ≤ x := fun x hx => hb.imp_right fun h => by omega
  have hfull : (2 : ℚ) ^ f.fb * 2 ^ exU ≤ a := by
    rw [← zpow_natCast, ← zpow_add₀ two_ne_zero, show (f.fb : Int) + exU = e + bitLen m - 1 by push_cast at hexU; omega]
    exact hlead
  have hover : ∀ x, exU ≤ x → a < 2 ^ (f.fb + 1) * 2 ^ x := fun x hx => htop.trans_le (by
    rw [← zpow_natCast, ← zpow_add₀ two_ne_zero]
    exact zpow_le_zpow_right₀ (by norm_num) (by omega))
  have hlo : (2 : ℚ) ^ f.fb * 2 ^ ex ≤ a ∨ (true = true ∧ ex = fmtEmin f) := by
    rcases le_total exU (fmtEmin f) with h | h
    · exact .inr ⟨rfl, by rw [hex, max_eq_right h]⟩
    · exact .inl (by rw [hex, max_eq_left h]; exact hfull)
  obtain ⟨hr, hri⟩ := roundAt_mult rm neg hs (hstick ex (hex ▸ le_max_left ..))
  obtain ⟨hu, -⟩ := roundAt_mult rm neg hs (hstick exU le_rfl)
  have hmag : codeQ f ((ex - fmtEmin f).toNat * 2 ^ f.fb + (roundAt rm neg m e ex).1) = (roundAt rm neg m e ex).1 * 2 ^ ex := by
    have hpos : (0 : ℚ) < 2 ^ ex := by positivity
    obtain ⟨k, hk, hk1, hc⟩ := hr
    have hc' : (roundAt rm neg m e ex).1 ≤ k + 1 ∧ k ≤ (roundAt rm neg m e ex).1 := by
      rcases hc with ⟨-, h⟩ | ⟨-, h⟩ <;> rw [h] <;> omega
    have hkt : k < 2 ^ (f.fb + 1) := by
      have := lt_of_mul_lt_mul_right (hk.trans_lt (hover ex (hex ▸ le_max_left ..))) hpos.le
      exact_mod_cast this
    rw [codeQ_units f (by omega)]
    · rw [show fmtEmin f + ((ex - fmtEmin f).toNat : Int) = ex by have := hex ▸ le_max_right exU (fmtEmin f); omega]
    · refine hlo.symm.imp (fun h => by omega) fun h => ?_
      have := lt_of_mul_lt_mul_right (h.trans_lt hk1) hpos.le
      have : 2 ^ f.fb < k + 1 := by exact_mod_cast this
      omega
  have hround : roundMag f rm neg m e = ⟨(ex - fmtEmin f).toNat * 2 ^ f.fb + (roundAt rm neg m e ex).1, (roundAt rm neg m e ex).2,
      dyLt (roundAt rm neg m e exU).1 exU 1 (1 - (f.bias : Int)),
      decide (fmtMax f < (ex - fmtEmin f).toNat * 2 ^ f.fb + (roundAt rm neg m e ex).1)⟩ := by rw [hex, hexU]; rfl
  rw [hround]
  dsimp only
  rw [hmag]
  refine ⟨roundsTo_of_mult (fun x => ofPrecision_neg x) hr ha
      (ofPrecision_gap (fun _ => hex ▸ le_max_right ..) hlo (hover ex (hex ▸ le_max_left ..))),
    ⟨_, by positivity, roundsTo_of_mult (fun x => ofPrecision_neg x) hu ha (ofPrecision_gap (by simp) (.inl hfull) (hover exU le_rfl)), ?_⟩, hri⟩
  rw [dyLt_iff]
  simp

/-- The result of a rounding as it is delivered in a format or as a conversion gives it (R67, R69). -/
def roundedOut (f : Fmt) (rm : RMode) (sat conv neg : Bool) (r : Rounded) : Nat × FlagSet :=
  if r.beyond then
    (fmtSigned f neg (if conv = false ∧ sat = false ∧ (rm = .rne ∨ (rm = .rd ∧ neg = true) ∨ (rm = .ru ∧ neg = false)) then fmtInf f
      else fmtMax f), flagOver)
  else (fmtSigned f neg r.mag, ⟨false, false, r.tiny && r.inexact, r.inexact⟩)

theorem deliver_fin (f : Fmt) (rm : RMode) (sat n : Bool) {m : Nat} (hm : m ≠ 0) (e : Int) :
    deliver f rm sat (.fin n m e) = roundedOut f rm sat false n (roundMag f rm n m e) := by
  unfold deliver roundedOut
  dsimp only
  rw [if_neg hm]
  cases rm <;> cases sat <;> cases n <;> rfl

theorem convF_fin (f : Fmt) (rm : RMode) (n : Bool) {m : Nat} (hm : m ≠ 0) (e : Int) :
    convF f rm (.fin n m e) = roundedOut f rm false true n (roundMag f rm n m e) := by
  rw [convF, if_neg hm, roundedOut]
  simp

/-- The result of one rounding is what R65 to R69 give for the number that the mantissa stands for. -/
theorem floatResult_roundedOut {f : Fmt} (hf : KnownFmt f) (rm : RMode) (sat conv neg : Bool) {m : Nat} {e : Int} {a : ℚ} (hm : m ≠ 0)
    (hs : Stands m e a) (hb : a = m * 2 ^ e ∨ f.fb + 3 ≤ bitLen m) :
    FloatResult f rm sat conv neg (sgnQ neg * a) (roundedOut f rm sat conv neg (roundMag f rm neg m e)) := by
  obtain ⟨hr, ⟨p, hp0, hp, htiny⟩, hinexact⟩ := roundMag_spec f rm neg hm hs hb
  have hbeyond : (roundMag f rm neg m e).beyond = decide (fmtMax f < (roundMag f rm neg m e).mag) := rfl
  generalize roundMag f rm neg m e = R at *
  have hcode : 0 ≤ codeQ f R.mag := by
    have := (codeQ_strictMono f).monotone (Nat.zero_le R.mag)
    exact le_trans (by simp [codeQ]) this
  refine ⟨_, _, hr, hp, ?_⟩
  have hle_iff := (codeQ_strictMono f).le_iff_le (a := R.mag) (b := fmtMax f)
  rw [abs_sgnQ_mul, abs_of_nonneg hcode, fvQ_fmtMax hf, roundedOut, hbeyond]
  by_cases hle : R.mag ≤ fmtMax f
  · rw [if_pos (hle_iff.2 hle), if_neg (by simpa using hle)]
    obtain ⟨hfin, hsign, hq⟩ := fval_finite hf neg hle
    refine ⟨signed_lt neg (hle.trans_lt (fmtMax_lt hf)), hfin, hq, hsign, ?_⟩
    have hne : sgnQ neg * codeQ f R.mag ≠ sgnQ neg * a ↔ R.inexact = true := by
      rw [hinexact, ne_eq, mul_right_inj' (sgnQ_ne_zero neg)]
    have hi : decide (sgnQ neg * codeQ f R.mag ≠ sgnQ neg * a) = R.inexact := by rw [Bool.eq_iff_iff, decide_eq_true_iff, hne]
    have ht : decide (|sgnQ neg * p| < 2 ^ (1 - (f.bias : ℤ))) = R.tiny := by
      rw [Bool.eq_iff_iff, decide_eq_true_iff, abs_sgnQ_mul, abs_of_nonneg hp0, htiny]
    rw [Bool.decide_and, hi, ht, Bool.and_comm]
  · rw [if_neg (mt hle_iff.1 hle), if_pos (by simpa using hle)]
    exact ⟨rfl, rfl⟩

/-- A nonzero value delivered in a format. -/
theorem deliver_result {f : Fmt} (hf : KnownFmt f) (rm : RMode) (sat n : Bool) {m : Nat} (hm : m ≠ 0) (e : Int) :
    FloatResult f rm sat false n (fvQ (.fin n m e)) (deliver f rm sat (.fin n m e)) := by
  rw [deliver_fin f rm sat n hm, fvQ_fin]
  exact floatResult_roundedOut hf rm sat false n hm (.exact m e) (.inl rfl)

/-- A nonzero value converted to a format. -/
theorem convF_result {f : Fmt} (hf : KnownFmt f) (rm : RMode) (n : Bool) {m : Nat} (hm : m ≠ 0) (e : Int) :
    FloatResult f rm false true n (fvQ (.fin n m e)) (convF f rm (.fin n m e)) := by
  rw [convF_fin f rm n hm, fvQ_fin]
  exact floatResult_roundedOut hf rm false true n hm (.exact m e) (.inl rfl)

/-- What a number's exponent and fraction fields are worth (R56). -/
theorem fvalAt_worth (f : Fmt) (neg : Bool) (ex fr : Nat) :
    let v := if ex = 0 then FVal.fin neg fr (fmtEmin f) else FVal.fin neg (2 ^ f.fb + fr) (fmtEmin f + (ex : Int) - 1)
    fvFin v = true ∧ fvSign v = neg ∧ fvQ v = sgnQ neg *
      (if ex = 0 then 2 ^ (1 - (f.bias : ℤ)) * (fr / 2 ^ f.fb : ℚ) else 2 ^ ((ex : ℤ) - f.bias) * (1 + fr / 2 ^ f.fb : ℚ)) := by
  have hp : (2 : ℚ) ^ f.fb ≠ 0 := by positivity
  have hmin : (2 : ℚ) ^ fmtEmin f = 2 ^ (1 - (f.bias : ℤ)) / 2 ^ f.fb := by
    rw [fmtEmin, zpow_sub₀ two_ne_zero, zpow_natCast]
  by_cases h : ex = 0
  · simp only [h, if_true]
    exact ⟨rfl, rfl, by rw [fvQ_fin, hmin]; ring⟩
  · simp only [h, if_false]
    refine ⟨rfl, rfl, ?_⟩
    rw [fvQ_fin, show fmtEmin f + (ex : Int) - 1 = fmtEmin f + ((ex : Int) - 1) by ring, zpow_add₀ two_ne_zero, hmin,
      show (ex : ℤ) - f.bias = (1 - (f.bias : ℤ)) + ((ex : Int) - 1) by ring, zpow_add₀ two_ne_zero]
    push_cast
    field_simp

/-! ## Exact sums and products (R65, R68) -/

theorem fvQ_signed (s : Int) (e : Int) : fvQ (.fin (decide (s < 0)) s.natAbs e) = s * 2 ^ e := by
  have h : sgnQ (decide (s < 0)) * (s.natAbs : ℚ) = s := by
    rw [Nat.cast_natAbs, Int.cast_abs]
    rcases lt_or_ge s 0 with h | h
    · rw [abs_of_neg (by exact_mod_cast h), sgnQ, decide_eq_true h]; simp
    · rw [abs_of_nonneg (by exact_mod_cast h), sgnQ, decide_eq_false (by omega)]; simp
  rw [fvQ_fin, ← mul_assoc, h]

/-- A dyadic as an integer number of units that are not above its last place. -/
theorem fvQ_units (n : Bool) (m : Nat) {e x : Int} (h : x ≤ e) :
    fvQ (.fin n m e) = (dyInt n (m * 2 ^ (e - x).toNat) : ℚ) * 2 ^ x := by
  obtain ⟨d, rfl⟩ : ∃ d : Nat, e = x + d := ⟨(e - x).toNat, by omega⟩
  rw [fvQ_fin, show (x + d - x).toNat = d by omega, zpow_add₀ two_ne_zero, zpow_natCast]
  cases n <;> simp [sgnQ, dyInt] <;> ring

/-- A sum of dyadics is exact; a zero sum has the sign that its terms share, or else the one the mode gives. -/
theorem dySum_spec (z n1 n2 : Bool) (m1 m2 : Nat) (e1 e2 : Int) :
    let v := dySum z n1 m1 e1 n2 m2 e2
    fvFin v = true ∧ fvQ v = fvQ (.fin n1 m1 e1) + fvQ (.fin n2 m2 e2) ∧
      (fvQ (.fin n1 m1 e1) + fvQ (.fin n2 m2 e2) = 0 → fvSign v = if n1 = n2 then n1 else z) := by
  by_cases h0 : m1 = 0 ∧ m2 = 0
  · simp only [dySum, h0, and_self, if_true]
    obtain ⟨rfl, rfl⟩ := h0
    exact ⟨rfl, by simp [fvQ_fin], fun _ => rfl⟩
  · have hv : dySum z n1 m1 e1 n2 m2 e2 =
        let s := dyInt n1 (m1 * 2 ^ (e1 - min e1 e2).toNat) + dyInt n2 (m2 * 2 ^ (e2 - min e1 e2).toNat)
        if s = 0 then .fin z 0 0 else .fin (decide (s < 0)) s.natAbs (min e1 e2) := by
      simp only [dySum, h0, if_false]
      rfl
    rw [hv, fvQ_units n1 m1 (min_le_left e1 e2), fvQ_units n2 m2 (min_le_right e1 e2), ← add_mul, ← Int.cast_add]
    have hp1 : m1 * 2 ^ (e1 - min e1 e2).toNat = 0 ↔ m1 = 0 := by simp
    have hp2 : m2 * 2 ^ (e2 - min e1 e2).toNat = 0 ↔ m2 = 0 := by simp
    generalize m1 * 2 ^ (e1 - min e1 e2).toNat = a at *
    generalize m2 * 2 ^ (e2 - min e1 e2).toNat = b at *
    have hs : (((dyInt n1 a + dyInt n2 b : Int) : ℚ) * 2 ^ min e1 e2 = 0) ↔ dyInt n1 a + dyInt n2 b = 0 := by
      simp only [mul_eq_zero, Int.cast_eq_zero, zpow_ne_zero _ (two_ne_zero (α := ℚ)), or_false]
    dsimp only
    by_cases h : dyInt n1 a + dyInt n2 b = 0
    · rw [if_pos h, hs]
      refine ⟨rfl, by rw [h]; simp [fvQ_fin], fun _ => ?_⟩
      rw [if_neg]
      · rfl
      · rintro rfl
        rw [← hp1, ← hp2] at h0
        cases n1 <;> simp [dyInt] at h <;> omega
    · rw [if_neg h, hs]
      exact ⟨rfl, fvQ_signed .., fun h' => absurd h' h⟩

/-- A finite value. -/
theorem exists_of_fvFin {v : FVal} (h : fvFin v = true) : ∃ n m e, v = .fin n m e := by
  cases v <;> simp_all [fvFin]

/-- The sum of two finite values is finite and exact (R65). -/
theorem fvAdd_fin (rm : RMode) {x y : FVal} (hx : fvFin x = true) (hy : fvFin y = true) :
    fvFin (fvAdd rm x y) = true ∧ fvQ (fvAdd rm x y) = fvQ x + fvQ y ∧
      (fvQ x + fvQ y = 0 → fvSign (fvAdd rm x y) = if fvSign x = fvSign y then fvSign x else rm == .rd) := by
  obtain ⟨n1, m1, e1, rfl⟩ := exists_of_fvFin hx
  obtain ⟨n2, m2, e2, rfl⟩ := exists_of_fvFin hy
  exact dySum_spec ..

/-- The product of two finite values is finite and exact, and has the sign of the factors' signs (R65). -/
theorem fvMul_fin {x y : FVal} (hx : fvFin x = true) (hy : fvFin y = true) :
    fvFin (fvMul x y) = true ∧ fvQ (fvMul x y) = fvQ x * fvQ y ∧ fvSign (fvMul x y) = (fvSign x != fvSign y) := by
  obtain ⟨n1, m1, e1, rfl⟩ := exists_of_fvFin hx
  obtain ⟨n2, m2, e2, rfl⟩ := exists_of_fvFin hy
  refine ⟨rfl, ?_, rfl⟩
  rw [fvMul, fvQ_fin, fvQ_fin, fvQ_fin, zpow_add₀ two_ne_zero]
  cases n1 <;> cases n2 <;> simp [sgnQ] <;> ring

theorem fvAdd_nan_left (rm : RMode) (s : Bool) (v : FVal) : fvAdd rm (.nan s) v = .nan (s || isSnan v) := by cases v <;> rfl

theorem fvAdd_nan_right (rm : RMode) (s : Bool) (v : FVal) : fvAdd rm v (.nan s) = .nan (isSnan v || s) := by cases v <;> rfl

theorem fvMul_nan_left (s : Bool) (v : FVal) : fvMul (.nan s) v = .nan (s || isSnan v) := by cases v <;> rfl

theorem fvMul_nan_right (s : Bool) (v : FVal) : fvMul v (.nan s) = .nan (isSnan v || s) := by cases v <;> rfl

/-- A fused sum is the sum of the exact product, or a NaN where the product is one (R65, R68). -/
theorem fvFma_eq (rm : RMode) (x y z : FVal) :
    fvFma rm x y z = if isNan (fvMul x y) = true then .nan (isSnan (fvMul x y) || isSnan z) else fvAdd rm (fvMul x y) z := by
  unfold fvFma
  cases fvMul x y <;> rfl

theorem fvFma_fin (rm : RMode) {x y z : FVal} (hx : fvFin x = true) (hy : fvFin y = true) : fvFma rm x y z = fvAdd rm (fvMul x y) z := by
  rw [fvFma_eq]
  obtain ⟨n, m, e, h⟩ := exists_of_fvFin (fvMul_fin hx hy).1
  rw [h]
  rfl

/-- Sums and products of finite values, of infinities and of NaNs (R65, R68). -/
theorem arithmetic_values (rm : RMode) (n1 : Bool) (m1 : Nat) (e1 : Int) (n2 : Bool) (m2 : Nat) (e2 : Int) (n3 : Bool) (m3 : Nat) (e3 : Int) :
    let a := FVal.fin n1 m1 e1
    let b := FVal.fin n2 m2 e2
    let c := FVal.fin n3 m3 e3
    let is := fun (v : FVal) (q : ℚ) => fvFin v = true ∧ fvQ v = q
    is (fvAdd rm a b) (fvQ a + fvQ b) ∧ is (fvNeg a) (-fvQ a) ∧ fvSign (fvNeg a) = (!n1) ∧
    (fvQ a + fvQ b = 0 → fvSign (fvAdd rm a b) = if n1 = n2 then n1 else rm == .rd) ∧
    is (fvMul a b) (fvQ a * fvQ b) ∧ fvSign (fvMul a b) = (n1 != n2) ∧
    is (fvFma rm a b c) (fvQ a * fvQ b + fvQ c) ∧
    (fvQ a * fvQ b + fvQ c = 0 → fvSign (fvFma rm a b c) = if (n1 != n2) = n3 then n3 else rm == .rd) ∧
    (∀ n, fvAdd rm (.inf n) a = .inf n ∧ fvAdd rm a (.inf n) = .inf n ∧
      fvMul (.inf n) a = (if fvQ a = 0 then .nan true else .inf (n != n1)) ∧
      fvMul a (.inf n) = (if fvQ a = 0 then .nan true else .inf (n != n1)) ∧ fvNeg (.inf n) = .inf (!n) ∧
      (∀ n', fvAdd rm (.inf n) (.inf n') = (if n = n' then .inf n else .nan true) ∧ fvMul (.inf n) (.inf n') = .inf (n != n'))) ∧
    (∀ s v, fvAdd rm (.nan s) v = .nan (s || isSnan v) ∧ fvAdd rm v (.nan s) = .nan (isSnan v || s) ∧
      fvMul (.nan s) v = .nan (s || isSnan v) ∧ fvMul v (.nan s) = .nan (isSnan v || s) ∧ fvNeg (.nan s) = .nan s) ∧
    (∀ x y z, fvFma rm x y z = if isNan (fvMul x y) = true then .nan (isSnan (fvMul x y) || isSnan z) else fvAdd rm (fvMul x y) z) := by
  intro a b c is
  obtain ⟨hs, hq, hz⟩ := fvAdd_fin rm (x := a) (y := b) rfl rfl
  obtain ⟨hm, hmq, hmz⟩ := fvMul_fin (x := a) (y := b) rfl rfl
  obtain ⟨hf, hfq, hfz⟩ := fvAdd_fin rm (y := c) hm rfl
  rw [← fvFma_fin rm (x := a) (y := b) rfl rfl] at hf hfq hfz
  rw [hmq] at hfq hfz
  rw [hmz] at hfz
  refine ⟨⟨hs, hq⟩, ⟨rfl, ?_⟩, rfl, hz, ⟨hm, hmq⟩, hmz, ⟨hf, hfq⟩, fun h => ?_, fun n => ?_, fun s v => ?_, fun x y z => fvFma_eq ..⟩
  · rw [fvNeg, fvQ_fin, fvQ_fin]
    cases n1 <;> simp [sgnQ]
  · rw [hfz h]
    exact ite_congr rfl (fun h => h) fun _ => rfl
  · refine ⟨rfl, rfl, ?_, ?_, rfl, fun n' => ⟨rfl, rfl⟩⟩ <;> simp only [a, fvQ_fin_eq_zero] <;> rfl
  · exact ⟨fvAdd_nan_left .., fvAdd_nan_right .., fvMul_nan_left .., fvMul_nan_right .., rfl⟩

/-! ## Conversion to an integer (R70) -/

/-- The integers as a set of numbers. -/
def IsInt (x : ℚ) : Prop := ∃ j : ℤ, x = j

theorem integer_gap {a : ℚ} (k : Nat) (_ : k * (1 : ℚ) ≤ a) (_ : a < (k + 1) * (1 : ℚ)) :
    IsInt (k * 1) ∧ IsInt ((k + 1) * 1) ∧ ∀ x, IsInt x → x ≤ k * 1 ∨ (k + 1) * 1 ≤ x := by
  refine ⟨⟨k, by simp⟩, ⟨k + 1, by simp⟩, ?_⟩
  rintro _ ⟨j, rfl⟩
  rw [mul_one, mul_one]
  rcases lt_or_ge (k : ℤ) j with h | h
  · exact .inr (by exact_mod_cast h)
  · exact .inl (by exact_mod_cast h)

/-- A finite value is rounded to an integer by the mode, and clamped. -/
theorem convI_fin (rm : RMode) (lo hi : Int) (n : Bool) (m : Nat) (e : Int) :
    ∃ k : ℤ, RoundsTo IsInt rm (fvQ (.fin n m e)) k ∧
      convI rm lo hi (.fin n m e) = if k < lo then (lo, flagOver) else if hi < k then (hi, flagOver)
        else (k, ⟨false, false, false, decide ((k : ℚ) ≠ fvQ (.fin n m e))⟩) := by
  obtain ⟨hr, hi'⟩ := roundAt_mult rm n (Stands.exact (K := ℚ) m e) (ex := 0) (.inl rfl)
  rw [zpow_zero] at hr hi'
  have hk : ((dyInt n (roundAt rm n m e 0).1 : ℤ) : ℚ) = sgnQ n * ((roundAt rm n m e 0).1 * 1) := by
    cases n <;> simp [dyInt, sgnQ]
  refine ⟨dyInt n (roundAt rm n m e 0).1, ?_, ?_⟩
  · rw [hk, fvQ_fin]
    refine roundsTo_of_mult ?_ hr (by positivity) integer_gap
    rintro _ ⟨j, rfl⟩
    exact ⟨-j, by push_cast; rfl⟩
  · have hx : decide (((dyInt n (roundAt rm n m e 0).1 : ℤ) : ℚ) ≠ fvQ (.fin n m e)) = (roundAt rm n m e 0).2 := by
      rw [Bool.eq_iff_iff, decide_eq_true_iff, hi', hk, fvQ_fin, ne_eq, mul_right_inj' (sgnQ_ne_zero n)]
    rw [hx]
    rfl

/-! ## The order of values (R68, R112) -/

theorem fvCmp_fin {x y : FVal} (hx : fvFin x = true) (hy : fvFin y = true) : fvCmp x y = compare (fvQ x) (fvQ y) := by
  obtain ⟨n1, m1, e1, rfl⟩ := exists_of_fvFin hx
  obtain ⟨n2, m2, e2, rfl⟩ := exists_of_fvFin hy
  have hd : ∀ n m k, dyInt n m * 2 ^ k = dyInt n (m * 2 ^ k) := fun n m k => by cases n <;> simp [dyInt]
  have hu : (0 : ℚ) < 2 ^ min e1 e2 := by positivity
  rw [fvQ_units n1 m1 (min_le_left e1 e2), fvQ_units n2 m2 (min_le_right e1 e2)]
  simp only [fvCmp, hd]
  generalize dyInt n1 (m1 * 2 ^ (e1 - min e1 e2).toNat) = a
  generalize dyInt n2 (m2 * 2 ^ (e2 - min e1 e2).toNat) = b
  rcases lt_trichotomy a b with h | h | h
  · rw [if_pos h, eq_comm, compare_lt_iff_lt]
    exact mul_lt_mul_of_pos_right (by exact_mod_cast h) hu
  · rw [if_neg (by omega), if_pos h, h, eq_comm, compare_eq_iff_eq]
  · rw [if_neg (by omega), if_neg (by omega), eq_comm, compare_gt_iff_gt]
    exact mul_lt_mul_of_pos_right (by exact_mod_cast h) hu

theorem fOrder_of_num {x y : FVal} (hx : isNan x = false) (hy : isNan y = false) : fOrder x y = some (fvCmp x y) := by
  simp [fOrder, hx, hy]

theorem isNan_of_fvFin {x : FVal} (h : fvFin x = true) : isNan x = false := by
  cases x <;> simp_all [fvFin, isNan]

/-- The order of operands: none with a NaN, that of their worth, and the infinities at its ends (R112). -/
theorem fOrder_values (x y : FVal) : (isNan x = true ∨ isNan y = true → fOrder x y = none) ∧
    (fvFin x = true → fvFin y = true → fOrder x y = some (compare (fvQ x) (fvQ y))) ∧
    ∀ n, (fvFin x = true → fOrder x (.inf n) = some (if n then .gt else .lt) ∧ fOrder (.inf n) x = some (if n then .lt else .gt)) ∧
      ∀ n', fOrder (.inf n) (.inf n') = some (if n = n' then .eq else if n then .lt else .gt) := by
  refine ⟨fun h => if_pos (by simpa using h), fun hx hy => ?_, fun n => ⟨fun hx => ?_, fun n' => rfl⟩⟩
  · rw [fOrder_of_num (isNan_of_fvFin hx) (isNan_of_fvFin hy), fvCmp_fin hx hy]
  · obtain ⟨k, m, e, rfl⟩ := exists_of_fvFin hx
    exact ⟨rfl, rfl⟩

/-- Whether a value comes first in the order of minima and maxima: the less worth, or -0 before +0 (R68). -/
theorem fvBefore_fin {x y : FVal} (hx : fvFin x = true) (hy : fvFin y = true) :
    fvBefore x y = true ↔ fvQ x < fvQ y ∨ (fvQ x = fvQ y ∧ fvQ x = 0 ∧ fvSign x = true ∧ fvSign y = false) := by
  obtain ⟨n1, m1, e1, rfl⟩ := exists_of_fvFin hx
  obtain ⟨n2, m2, e2, rfl⟩ := exists_of_fvFin hy
  unfold fvBefore
  rw [fvCmp_fin rfl rfl]
  rcases lt_trichotomy (fvQ (.fin n1 m1 e1)) (fvQ (.fin n2 m2 e2)) with h | h | h
  · rw [compare_lt_iff_lt.2 h]; simp [h]
  · rw [compare_eq_iff_eq.2 h]
    have h2 : m1 = 0 ↔ m2 = 0 := by rw [← fvQ_fin_eq_zero (n := n1) (e := e1), h, fvQ_fin_eq_zero]
    simp only [h, lt_self_iff_false, false_or, true_and, fvQ_fin_eq_zero, fvZero, fvSign, Bool.and_eq_true, beq_iff_eq, Bool.not_eq_true', h2]
    tauto
  · rw [compare_gt_iff_gt.2 h]
    simp only [Bool.false_eq_true, false_iff]
    rintro (h' | ⟨h', -⟩) <;> linarith

/-! ## The values that a format has (R56) -/

/-- A finite value of a format is a subnormal of the least exponent, or has the format's leading bit. -/
theorem fval_fin_bounds {f : Fmt} {a : Nat} {n : Bool} {m : Nat} {e : Int} (h : fval f a = .fin n m e) :
    fmtEmin f ≤ e ∧ m < 2 ^ (f.fb + 1) ∧ (e = fmtEmin f ∧ m < 2 ^ f.fb ∨ 2 ^ f.fb ≤ m) ∧
      (f.kind = .ieee → e = fmtEmin f ∨ e + 3 ≤ fmtEmin f + (2 ^ f.eb : Nat)) := by
  rw [fval_eq] at h
  have hfr : a % 2 ^ f.fb < 2 ^ f.fb := Nat.mod_lt _ (by positivity)
  have hex : a / 2 ^ f.fb % 2 ^ f.eb < 2 ^ f.eb := Nat.mod_lt _ (by positivity)
  have hs := pow_succ 2 f.fb
  generalize a % 2 ^ f.fb = fr at *
  generalize a / 2 ^ f.fb % 2 ^ f.eb = ex at *
  have hk : ¬ (f.kind = .ieee ∧ ex = 2 ^ f.eb - 1) := fun ⟨hk, he⟩ => by
    simp only [fvalAt, hk, he, if_true] at h
    split_ifs at h
  have hk' : ¬ (f.kind = .e4m3 ∧ ex = 15 ∧ fr = 7) := fun ⟨hk, he⟩ => by simp [fvalAt, hk, he] at h
  rw [fvalAt_num _ hk hk'] at h
  split_ifs at h with h0
  all_goals
    obtain ⟨rfl, rfl, rfl⟩ := FVal.fin.inj h
    generalize 2 ^ f.eb = E at *
    generalize 2 ^ f.fb = F at *
  · exact ⟨by omega, by omega, by omega, fun _ => .inl rfl⟩
  · exact ⟨by omega, by omega, by omega, fun h1 => by have : ex ≠ E - 1 := fun h2 => hk ⟨h1, h2⟩; omega⟩

/-- Only one pattern of a format is an infinity of a sign. -/
theorem fval_inf {f : Fmt} {a : Nat} (ha : a < 2 ^ fmtWidth f) {n : Bool} (h : fval f a = .inf n) : a = fmtSigned f n (fmtInf f) := by
  obtain ⟨neg, mag, hm, rfl⟩ := eq_signed ha
  rw [fval_signed f neg hm] at h
  by_cases hk : f.kind = .ieee ∧ mag / 2 ^ f.fb = 2 ^ f.eb - 1
  · simp only [fvalAt, hk, if_true] at h
    split_ifs at h with h0
    obtain rfl := FVal.inf.inj h
    have := Nat.div_add_mod' mag (2 ^ f.fb)
    rw [hk.2, h0, add_zero] at this
    rw [fmtInf, this]
  · exfalso
    unfold fvalAt at h
    dsimp only at h
    split at h <;> rename_i hk'
    · rw [if_neg fun he => hk ⟨hk', he⟩] at h
      split_ifs at h
    · split_ifs at h
    · split_ifs at h

/-! ## FMNX (R68, R111) -/

/-- Whether the second of two operands is the result: the one that comes after, or before, the other. -/
theorem fmnxVal_num (mx nan : Bool) (f : Fmt) {a b : Nat} (hx : isNan (fval f a) = false) (hy : isNan (fval f b) = false) :
    fmnxVal mx nan f a b =
      (if (if mx then fvBefore (fval f a) (fval f b) else fvBefore (fval f b) (fval f a)) then b else a, FlagSet.none) := by
  simp only [fmnxVal, hx, hy]
  cases mx <;> rfl

theorem fmnxVal_nan (mx nan : Bool) (f : Fmt) {a b : Nat} (h : isNan (fval f a) = true ∨ isNan (fval f b) = true) :
    fmnxVal mx nan f a b = (if nan = true ∨ (isNan (fval f a) = true ∧ isNan (fval f b) = true) then fmtNan f
      else if isNan (fval f a) = true then b else a, flagNv ([fval f a, fval f b].any isSnan)) := by
  unfold fmnxVal
  cases hx : isNan (fval f a) <;> cases hy : isNan (fval f b) <;> cases nan <;> simp_all

theorem eq_of_not_nan {x : FVal} (h : isNan x = false) : fvFin x = true ∨ ∃ n, x = .inf n := by
  cases x <;> simp_all [isNan, fvFin]

/-- An infinity comes first if it is negative, and last if it is not. -/
theorem fvBefore_inf {n : Bool} {y : FVal} (hy : isNan y = false) (hne : y ≠ .inf n) : fvBefore (.inf n) y = n ∧ fvBefore y (.inf n) = !n := by
  rcases eq_of_not_nan hy with h | ⟨k, rfl⟩
  · obtain ⟨k, m, e, rfl⟩ := exists_of_fvFin h
    cases n <;> exact ⟨rfl, rfl⟩
  · obtain rfl : k = !n := by cases n <;> cases k <;> simp_all
    cases n <;> exact ⟨rfl, rfl⟩

/-- Whether of two values the second is the greater, or the less. -/
def fvSecond (mx : Bool) (x y : FVal) : Bool := if mx then fvBefore x y else fvBefore y x

theorem fvSecond_inf (mx : Bool) {n : Bool} {y : FVal} (hy : isNan y = false) (hne : y ≠ .inf n) :
    fvSecond mx (.inf n) y = (mx == n) ∧ fvSecond mx y (.inf n) = !(mx == n) := by
  obtain ⟨h1, h2⟩ := fvBefore_inf hy hne
  unfold fvSecond
  rw [h1, h2]
  cases mx <;> cases n <;> exact ⟨rfl, rfl⟩

theorem fvSecond_fin (mx : Bool) {x y : FVal} (hx : fvFin x = true) (hy : fvFin y = true) :
    let v := if fvSecond mx x y then y else x
    fvQ v = (if mx then max (fvQ x) (fvQ y) else min (fvQ x) (fvQ y)) ∧
      (fvQ x = 0 → fvQ y = 0 → fvSign v = if mx then fvSign x && fvSign y else fvSign x || fvSign y) := by
  have h1 := fvBefore_fin hx hy
  have h2 := fvBefore_fin hy hx
  cases mx
  · simp only [fvSecond, Bool.false_eq_true, if_false]
    by_cases hb : fvBefore y x = true
    · rw [if_pos hb]
      refine ⟨(min_eq_right ?_).symm, fun hx0 hy0 => ?_⟩
      · rcases h2.1 hb with h | h <;> linarith
      · obtain ⟨-, -, hs, hs'⟩ := (h2.1 hb).resolve_left (by linarith)
        rw [hs, hs', Bool.false_or]
    · rw [if_neg hb]
      rw [h2, not_or, not_lt] at hb
      refine ⟨(min_eq_left hb.1).symm, fun hx0 hy0 => ?_⟩
      have := hb.2
      cases hs : fvSign x <;> cases hs' : fvSign y <;> simp_all
  · simp only [fvSecond, if_true]
    by_cases hb : fvBefore x y = true
    · rw [if_pos hb]
      refine ⟨(max_eq_right ?_).symm, fun hx0 hy0 => ?_⟩
      · rcases h1.1 hb with h | h <;> linarith
      · obtain ⟨-, -, hs, hs'⟩ := (h1.1 hb).resolve_left (by linarith)
        rw [hs, hs', Bool.and_false]
    · rw [if_neg hb]
      rw [h1, not_or, not_lt] at hb
      refine ⟨(max_eq_left hb.1).symm, fun hx0 hy0 => ?_⟩
      have := hb.2
      cases hs : fvSign x <;> cases hs' : fvSign y <;> simp_all

/-- FMNX of two numbers (R68, R111). -/
theorem fmnxVal_values {f : Fmt} (mx nan : Bool) {a b : Nat} (ha : a < 2 ^ fmtWidth f) (hb : b < 2 ^ fmtWidth f)
    (hx : isNan (fval f a) = false) (hy : isNan (fval f b) = false) :
    let x := fval f a
    let y := fval f b
    let o := fmnxVal mx nan f a b
    o.2 = FlagSet.none ∧ (o.1 = a ∨ o.1 = b) ∧
      (∀ n, (x = .inf n → o.1 = if mx = n then b else a) ∧ (y = .inf n → o.1 = if mx = n then a else b)) ∧
      (fvFin x = true → fvFin y = true →
        fvQ (fval f o.1) = (if mx then max (fvQ x) (fvQ y) else min (fvQ x) (fvQ y)) ∧
        (fvQ x = 0 → fvQ y = 0 → fvSign (fval f o.1) = if mx then fvSign x && fvSign y else fvSign x || fvSign y)) := by
  have ho : fmnxVal mx nan f a b = (if fvSecond mx (fval f a) (fval f b) then b else a, FlagSet.none) := fmnxVal_num mx nan f hx hy
  have hsame : ∀ n, fval f a = .inf n → fval f b = .inf n → a = b := fun n h h' => (fval_inf ha h).trans (fval_inf hb h').symm
  dsimp only
  rw [ho]
  refine ⟨rfl, ?_, fun n => ⟨fun h => ?_, fun h => ?_⟩, fun hfx hfy => ?_⟩
  · split_ifs
    · exact .inr rfl
    · exact .inl rfl
  · by_cases he : fval f b = .inf n
    · rw [hsame n h he, ite_self, ite_self]
    · rw [h, (fvSecond_inf mx hy he).1]
      simp
  · by_cases he : fval f a = .inf n
    · rw [hsame n he h, ite_self, ite_self]
    · rw [h, (fvSecond_inf mx hx he).2]
      cases mx <;> cases n <;> rfl
  · rw [apply_ite (fval f)]
    exact fvSecond_fin mx hfx hfy

/-! ## FCLS (R114) -/

/-- The class of a pattern (R114). -/
theorem fclsBit_values (f : Fmt) (a : Nat) :
    let v := fval f a
    let at_ := fun (x y : Nat) => fclsBit f a = if fvSign v then x else y
    (∀ s, v = .nan s → fclsBit f a = if s then 8 else 9) ∧ (∀ n, v = .inf n → at_ 0 7) ∧
      (fvFin v = true → if fvQ v = 0 then at_ 3 4 else if |fvQ v| < 2 ^ (1 - (f.bias : ℤ)) then at_ 2 5 else at_ 1 6) := by
  refine ⟨fun s h => by simp [fclsBit, h], fun n h => by simp [fclsBit, h, fvSign], fun h => ?_⟩
  obtain ⟨n, m, e, hv⟩ := exists_of_fvFin h
  obtain ⟨he, -, hm, -⟩ := fval_fin_bounds hv
  have hone : (2 : ℚ) ^ (1 - (f.bias : ℤ)) = 2 ^ f.fb * 2 ^ fmtEmin f := by
    rw [← zpow_natCast, ← zpow_add₀ two_ne_zero, fmtEmin]; congr 1; ring
  have hsmall : |fvQ (FVal.fin n m e)| < 2 ^ (1 - (f.bias : ℤ)) ↔ m < 2 ^ f.fb := by
    rw [abs_fvQ_fin, hone]
    refine ⟨fun h => ?_, fun h => ?_⟩
    · by_contra hge
      have h1 : (2 : ℚ) ^ f.fb ≤ m := by exact_mod_cast not_lt.1 hge
      have h2 : (2 : ℚ) ^ fmtEmin f ≤ 2 ^ e := zpow_le_zpow_right₀ (by norm_num) he
      exact absurd h (not_lt.2 (mul_le_mul h1 h2 (by positivity) (by positivity)))
    · rw [(hm.resolve_right (by omega)).1]
      exact mul_lt_mul_of_pos_right (by exact_mod_cast h) (by positivity)
  simp only [hv, hsmall, fvQ_fin_eq_zero, fclsBit, fvSign]
  split_ifs <;> rfl

/-! ## The bits of a format (R56, R57) -/

/-- The IEEE-style formats of the float instructions, and the formats of R56. -/
abbrev ieeeFmts : List Fmt := [fmtF32, fmtF16, fmtBf16]
abbrev allFmts : List Fmt := ieeeFmts ++ [fmtE5m2, fmtE4m3, fmtE3m2, fmtE2m3]

theorem ieee_known {f : Fmt} (h : f ∈ ieeeFmts) : KnownFmt f := knownFmt_of_mem (List.mem_append_left _ h)

/-- Only the IEEE-style formats of the instructions have signalling NaNs (R57). -/
theorem snan_iff : ∀ f ∈ allFmts, f.kind = .ieee → (f.fb ≠ 2 ↔ f ∈ ieeeFmts) := by decide

/-- What the fields of a format's bits mean. -/
theorem fval_values {f : Fmt} (hf : f ∈ allFmts) (n : Nat) :
    let neg := n.testBit (f.eb + f.fb)
    let E : ℕ := n / 2 ^ f.fb % 2 ^ f.eb
    let fr : ℕ := n % 2 ^ f.fb
    if f.kind = .ieee ∧ E = 2 ^ f.eb - 1 then
      fval f n = if fr = 0 then .inf neg else .nan (decide (f ∈ ieeeFmts ∧ fr < 2 ^ (f.fb - 1)))
    else if f.kind = .e4m3 ∧ E = 15 ∧ fr = 7 then fval f n = .nan false
    else
      fvFin (fval f n) = true ∧ fvSign (fval f n) = neg ∧
      fvQ (fval f n) = (if neg then -1 else 1) *
        (if E = 0 then 2 ^ (1 - (f.bias : ℤ)) * (fr / 2 ^ f.fb : ℚ) else 2 ^ ((E : ℤ) - f.bias) * (1 + fr / 2 ^ f.fb : ℚ)) := by
  intro neg E fr
  have hv : fval f n = fvalAt f neg E fr := fval_eq f n
  by_cases hspecial : f.kind = .ieee ∧ E = 2 ^ f.eb - 1
  · have hs : (decide (f.fb ≠ 2) && decide (fr < 2 ^ (f.fb - 1))) = decide (f ∈ ieeeFmts ∧ fr < 2 ^ (f.fb - 1)) := by
      simp only [snan_iff f hf hspecial.1, Bool.decide_and]
    rw [if_pos hspecial, hv, ← hs]
    simp only [fvalAt, hspecial.1, hspecial.2, if_true]
  rw [if_neg hspecial]
  by_cases hnan : f.kind = .e4m3 ∧ E = 15 ∧ fr = 7
  · rw [if_pos hnan, hv]
    simp only [fvalAt, hnan.1, hnan.2, and_self, if_true]
  · rw [if_neg hnan, hv, fvalAt_num neg hspecial hnan]
    exact fvalAt_worth f neg E fr

/-! ## Conversions and deliveries of zeros, infinities and NaNs (R67-R69) -/

theorem convF_zero (f : Fmt) (rm : RMode) (n : Bool) (e : Int) : convF f rm (.fin n 0 e) = (fmtSigned f n 0, FlagSet.none) := rfl

theorem convF_inf (f : Fmt) (rm : RMode) (n : Bool) : convF f rm (.inf n) =
    if f.kind = .ieee then (fmtSigned f n (fmtInf f), FlagSet.none) else (fmtSigned f n (fmtMax f), flagOver) := by
  rw [convF]
  cases f.kind <;> rfl

theorem convF_nan (f : Fmt) (rm : RMode) (s : Bool) :
    convF f rm (.nan s) = if f.kind = .bare then (0, flagNv true) else (fmtNan f, flagNv s) := by
  rw [convF]
  cases f.kind <;> rfl

theorem deliver_zero (f : Fmt) (rm : RMode) (sat n : Bool) (e : Int) :
    deliver f rm sat (.fin n 0 e) = (fmtSigned f n 0, FlagSet.none) := rfl

/-! ## Exact results -/

/-- A number of the set that is rounded to stays. -/
theorem RoundsTo.eq_self {G : ℚ → Prop} {rm : RMode} {q r : ℚ} (h : RoundsTo G rm q r) (hq : G q) : r = q := by
  obtain ⟨-, h⟩ := h
  cases rm
  · have := (h q hq).1
    rw [sub_self, abs_zero] at this
    have := abs_nonpos_iff.1 this
    linarith
  · obtain ⟨hle, hsign, hmost⟩ := h
    have habs := le_antisymm hle (hmost q hq le_rfl)
    rcases abs_eq_abs.1 habs with h | h
    · exact h
    · nlinarith
  · exact le_antisymm h.1 (h.2 q hq le_rfl)
  · exact le_antisymm (h.2 q hq le_rfl) h.1

/-- A number of the format raises no flag. -/
theorem FloatResult.exact {f : Fmt} {rm : RMode} {sat conv neg : Bool} {q : ℚ} {out : Nat × FlagSet}
    (h : FloatResult f rm sat conv neg q out) (hq : OfPrecision f true q) (hmax : |q| ≤ fvQ (fval f (fmtMax f))) :
    fvFin (fval f out.1) = true ∧ fvQ (fval f out.1) = q ∧ fvSign (fval f out.1) = neg ∧ out.2 = FlagSet.none := by
  obtain ⟨r, p, hr, -, h⟩ := h
  obtain rfl := hr.eq_self hq
  rw [if_pos hmax] at h
  obtain ⟨-, hfin, hval, hsign, hflags⟩ := h
  exact ⟨hfin, hval, hsign, by rw [hflags]; simp [FlagSet.none]⟩

/-- A number beyond the largest finite one of the format's precision overflows. -/
theorem FloatResult.over {f : Fmt} {rm : RMode} {sat conv neg : Bool} {q : ℚ} {out : Nat × FlagSet}
    (h : FloatResult f rm sat conv neg q out) (hq : OfPrecision f true q) (hmax : fvQ (fval f (fmtMax f)) < |q|) :
    out = (fmtSigned f neg (if conv = false ∧ sat = false ∧ (rm = .rne ∨ (rm = .rd ∧ neg = true) ∨ (rm = .ru ∧ neg = false)) then fmtInf f
      else fmtMax f), flagOver) := by
  obtain ⟨r, p, hr, -, h⟩ := h
  obtain rfl := hr.eq_self hq
  rw [if_neg (not_le.2 hmax)] at h
  exact Prod.ext h.2 h.1

/-! ## Integers of a width (R54, R55) -/

/-- An integer type's reading of a word's bits. -/
def bitsInt (signed : Bool) {w : Nat} (x : BitVec w) : ℤ := if signed then x.toInt else (x.toNat : ℤ)

theorem elemVal_eq (signed : Bool) {w : Nat} (hw : 0 < w) (n : Nat) : elemVal signed w n = bitsInt signed (BitVec.ofNat w n) := by
  rw [← elemVal_mod, ← BitVec.toNat_ofNat]
  cases signed
  · exact elemVal_unsigned _
  · exact elemVal_signed hw _

theorem wrapNat_eq (w : Nat) (i : Int) : wrapNat w i = (BitVec.ofInt w i).toNat := by
  rw [← ofNat_wrapNat, BitVec.toNat_ofNat, Nat.mod_eq_of_lt (wrapNat_lt w i)]

theorem elemVal_wrapNat (signed : Bool) {w : Nat} (hw : 0 < w) (i : Int) :
    elemVal signed w (wrapNat w i) = bitsInt signed (BitVec.ofInt w i) := by
  rw [elemVal_eq signed hw, ofNat_wrapNat]

/-- A clamped integer is read from its bits. -/
theorem bitsInt_clamp (signed : Bool) {w : Nat} (hw : 0 < w) (i : Int) : bitsInt signed (BitVec.ofInt w (clamp signed w i)) = clamp signed w i := by
  have h := loOf_le_hiOf signed w
  have hlo : loOf signed w ≤ clamp signed w i := le_max_left ..
  have hhi : clamp signed w i ≤ hiOf signed w := max_le h (min_le_left ..)
  generalize clamp signed w i = v at *
  cases signed
  · simp only [loOf, hiOf, if_false, Bool.false_eq_true] at hlo hhi
    simp only [bitsInt, Bool.false_eq_true, if_false, BitVec.toNat_ofInt]
    push_cast
    rw [Int.emod_eq_of_lt hlo (by omega), Int.toNat_of_nonneg hlo]
  · simp only [loOf, hiOf, if_true] at hlo hhi
    exact BitVec.toInt_ofInt_eq_self hw hlo (by omega)

theorem fvQ_ofInt (i : Int) : fvQ (ofInt i) = i := by
  rw [ofInt, fvQ_signed, zpow_zero, mul_one]

/-! ## Conversions (R115, R116) -/

/-- An integer converted to a format (R71). -/
theorem cvtVal_ofInt {f : Fmt} (hf : KnownFmt f) (i : CvtInt) (hw : 0 < i.w) (rm : RMode) (sat : Bool) (a : Nat) :
    let v := bitsInt i.signed (BitVec.ofNat i.w a)
    if v = 0 then cvtVal (.ofInt i f) rm sat a = (0, FlagSet.none)
    else FloatResult f rm false true (decide (v < 0)) v (cvtVal (.ofInt i f) rm sat a) := by
  simp only [cvtVal, elemVal_eq i.signed hw]
  generalize bitsInt i.signed (BitVec.ofNat i.w a) = v
  split_ifs with h
  · rw [h]; rfl
  · have := convF_result hf rm (decide (v < 0)) (Int.natAbs_ne_zero.2 h) 0
    rwa [← ofInt, fvQ_ofInt] at this

/-- An integer narrowed (R116): clamped or wrapped, then extended to 32 bits. -/
theorem cvtVal_narrow (src dst : CvtInt) (hs : 0 < src.w) (hd : 0 < dst.w) (rm : RMode) (sat : Bool) (a : Nat) :
    let v := bitsInt src.signed (BitVec.ofNat src.w a)
    let v' := if sat then clamp dst.signed dst.w v else bitsInt dst.signed (BitVec.ofInt dst.w v)
    cvtVal (.narrow src dst) rm sat a = ((BitVec.ofInt 32 v').toNat, flagOv (sat && decide (v' ≠ v))) := by
  simp only [cvtVal, combine_eq, elemVal_eq src.signed hs, elemVal_wrapNat dst.signed hd]
  rw [wrapNat_eq]
  cases sat
  · simp
  · simp [bitsInt_clamp dst.signed hd]

/-- An integer widened. -/
theorem cvtVal_widen (src dst : CvtInt) (hs : 0 < src.w) (rm : RMode) (sat : Bool) (a : Nat) :
    cvtVal (.widen src dst) rm sat a = ((BitVec.ofInt dst.w (bitsInt src.signed (BitVec.ofNat src.w a))).toNat, FlagSet.none) := by
  rw [cvtVal, elemVal_eq src.signed hs, wrapNat_eq]

/-- The numbers of a narrower IEEE-style or FP8 format are numbers of f32 (R69). -/
theorem ofPrecision_mono {f g : Fmt} (hfb : f.fb ≤ g.fb) (hmin : fmtEmin g ≤ fmtEmin f) {q : ℚ} (h : OfPrecision f true q) :
    OfPrecision g true q := by
  obtain ⟨m, e, hm, he, hq⟩ := h
  exact ⟨m, e, hm.trans_le (Nat.pow_le_pow_right two_pos (by omega)), fun _ => hmin.trans (he rfl), hq⟩

/-- A finite value's number is of its format's precision, and at most as large as its largest. -/
theorem fval_ofPrecision {f : Fmt} {a : Nat} (h : fvFin (fval f a) = true) : OfPrecision f true (fvQ (fval f a)) := by
  obtain ⟨n, m, e, hv⟩ := exists_of_fvFin h
  obtain ⟨he, hm, -⟩ := fval_fin_bounds hv
  rw [hv]
  exact ⟨m, e, hm, fun _ => he, abs_fvQ_fin ..⟩

/-! ## Formats within f32 (R69, R116) -/

theorem mag_le_max {f : Fmt} (hf : KnownFmt f) {neg : Bool} {mag : Nat} (hm : mag < 2 ^ (f.eb + f.fb))
    (h : fvFin (fval f (fmtSigned f neg mag)) = true) : mag ≤ fmtMax f := by
  rw [fval_signed f neg hm] at h
  have hdm := Nat.div_add_mod' mag (2 ^ f.fb)
  have hfr := Nat.mod_lt mag (show 2 ^ f.fb > 0 by positivity)
  by_contra hgt
  rw [not_le] at hgt
  unfold fmtMax at hgt
  unfold fvalAt at h
  cases hk : f.kind <;> simp only [hk] at h hgt
  · have hq : mag / 2 ^ f.fb = 2 ^ f.eb - 1 := by
      refine le_antisymm (Nat.le_sub_one_of_lt (Nat.div_lt_of_lt_mul (by rwa [← pow_add, add_comm]))) ?_
      rw [Nat.le_div_iff_mul_le (by positivity)]
      omega
    rw [if_pos hq] at h
    split_ifs at h <;> exact absurd h Bool.false_ne_true
  · obtain ⟨he, hfb⟩ := hf.e4m3 hk
    rw [he, hfb] at hm hgt
    rw [hfb] at h hdm hfr
    rw [if_pos (by omega)] at h
    cases h
  · omega

theorem abs_fval_le_max {f : Fmt} (hf : KnownFmt f) {a : Nat} (ha : a < 2 ^ fmtWidth f) (h : fvFin (fval f a) = true) :
    |fvQ (fval f a)| ≤ codeQ f (fmtMax f) := by
  obtain ⟨neg, mag, hm, rfl⟩ := eq_signed ha
  have hle := mag_le_max hf hm h
  have h0 : 0 ≤ codeQ f mag := by unfold codeQ; split_ifs <;> positivity
  rw [(fval_finite hf neg hle).2.2, abs_sgnQ_mul, abs_of_nonneg h0]
  exact (codeQ_strictMono f).monotone hle

theorem fvQ_max_f32 : fvQ (fval fmtF32 (fmtMax fmtF32)) = (2 ^ 24 - 1) * 2 ^ 104 := by
  rw [show fval fmtF32 (fmtMax fmtF32) = .fin false (2 ^ 24 - 1) 104 by decide]
  norm_num [fvQ]

/-- The narrower formats that convert to f32. -/
abbrev narrowFmts : List Fmt := [fmtF16, fmtBf16, fmtE4m3, fmtE5m2]

/-- Every finite number of a narrower format is a number of f32. -/
theorem narrow_in_f32 {f : Fmt} (hf : f ∈ narrowFmts) {a : Nat} (ha : a < 2 ^ fmtWidth f) (h : fvFin (fval f a) = true) :
    OfPrecision fmtF32 true (fvQ (fval f a)) ∧ |fvQ (fval f a)| ≤ fvQ (fval fmtF32 (fmtMax fmtF32)) := by
  have hall : ∀ g ∈ narrowFmts, g ∈ allFmts ∧ g.fb ≤ fmtF32.fb ∧ fmtEmin fmtF32 ≤ fmtEmin g := by decide
  have hmax : ∀ g ∈ narrowFmts, codeQ g (fmtMax g) ≤ (2 ^ 24 - 1) * 2 ^ 104 := by
    simp only [List.mem_cons, List.not_mem_nil, or_false]
    rintro g (rfl | rfl | rfl | rfl) <;>
      norm_num [codeQ, fmtMax, fmtF16, fmtBf16, fmtE4m3, fmtE5m2, fmtEmin]
  obtain ⟨hmem, hfb, hmin⟩ := hall f hf
  refine ⟨ofPrecision_mono hfb hmin (fval_ofPrecision h), ?_⟩
  rw [fvQ_max_f32]
  exact (abs_fval_le_max (knownFmt_of_mem hmem) ha h).trans (hmax f hf)

/-- A value that is a number of f32 converts to it as it is. -/
theorem convF_f32_exact {v : FVal} (h : fvFin v = true) (hq : OfPrecision fmtF32 true (fvQ v))
    (hmax : |fvQ v| ≤ fvQ (fval fmtF32 (fmtMax fmtF32))) (rm : RMode) :
    let o := convF fmtF32 rm v
    fvFin (fval fmtF32 o.1) = true ∧ fvQ (fval fmtF32 o.1) = fvQ v ∧ fvSign (fval fmtF32 o.1) = fvSign v ∧ o.2 = FlagSet.none := by
  obtain ⟨n, m, e, rfl⟩ := exists_of_fvFin h
  rcases Nat.eq_zero_or_pos m with rfl | hm
  · rw [convF_zero, fvQ_fin_eq_zero.2 rfl]
    cases n <;> exact ⟨rfl, fvQ_fin_eq_zero.2 rfl, rfl, rfl⟩
  · exact (convF_result (ieee_known (by decide)) rm n hm.ne' e).exact hq hmax

/-- A narrower format widened to f32 (R116). -/
theorem cvtVal_toF32 {f : Fmt} (hf : f ∈ narrowFmts) (lo : Nat) (rm : RMode) (sat : Bool) (a : Nat) :
    let v := fval f (a / 2 ^ lo % 2 ^ fmtWidth f)
    let o := cvtVal (.toF32 f lo) rm sat a
    (∀ s, v = .nan s → o = (0x7FC00000, flagNv s)) ∧ (∀ n, v = .inf n → o = (fmtSigned fmtF32 n 0x7F800000, FlagSet.none)) ∧
      (fvFin v = true → fvFin (fval fmtF32 o.1) = true ∧ fvQ (fval fmtF32 o.1) = fvQ v ∧ fvSign (fval fmtF32 o.1) = fvSign v ∧
        o.2 = FlagSet.none) := by
  intro v o
  have ho : o = convF fmtF32 rm v := by
    simp only [o, v, cvtVal, field_eq]
  rw [ho]
  refine ⟨fun s h => by rw [h]; rfl, fun n h => by rw [h]; rfl, fun h => ?_⟩
  obtain ⟨hq, hmax⟩ := narrow_in_f32 hf (Nat.mod_lt _ (by positivity)) h
  exact convF_f32_exact h hq hmax rm

/-- A pair of halves converted to the other half-width format (R116). -/
theorem cvtVal_both (f g : Fmt) (rm : RMode) (sat : Bool) (a : Nat) :
    let x := convF g rm (fval f (a % 2 ^ 16))
    let y := convF g rm (fval f (a / 2 ^ 16 % 2 ^ 16))
    cvtVal (.both f g) rm sat a = (x.1 + y.1 * 2 ^ 16, flagOr x.2 y.2) := by
  simp [cvtVal, eachElem, field_eq]

/-- What the conversions of R116 give. -/
theorem cvtVal_values (rm : RMode) (sat : Bool) (a : Nat) :
    let int := fun (i : CvtInt) => if i.signed then (BitVec.ofNat i.w a).toInt else ((BitVec.ofNat i.w a).toNat : ℤ)
    (∀ f ∈ allFmts, a < 2 ^ 32 → cvtVal (.fromF32 f) rm sat a = convF f rm (fval fmtF32 a)) ∧
    (∀ f ∈ narrowFmts, ∀ lo ∈ [0, 8, 16, 24], lo + fmtWidth f ≤ 32 →
      let v := fval f (a / 2 ^ lo % 2 ^ fmtWidth f)
      let o := cvtVal (.toF32 f lo) rm sat a
      (∀ s, v = .nan s → o = (0x7FC00000, flagNv s)) ∧ (∀ n, v = .inf n → o = (fmtSigned fmtF32 n 0x7F800000, FlagSet.none)) ∧
      (fvFin v = true → fvFin (fval fmtF32 o.1) = true ∧ fvQ (fval fmtF32 o.1) = fvQ v ∧ fvSign (fval fmtF32 o.1) = fvSign v ∧
        o.2 = FlagSet.none)) ∧
    (∀ f ∈ [fmtF16, fmtBf16], ∀ g ∈ [fmtF16, fmtBf16], ∀ fl fh, let x := convF g rm (fval f (a % 2 ^ 16))
      let y := convF g rm (fval f (a / 2 ^ 16 % 2 ^ 16))
      fl = x.2 → fh = y.2 → cvtVal (.both f g) rm sat a = (x.1 + y.1 * 2 ^ 16, flagOr fl fh)) ∧
    (∀ lo hi i, let r := convI rm lo hi (fval fmtF32 a);
      cvtVal (.toInt lo hi i) rm sat a = ((BitVec.ofInt (max 32 i.w) r.1).toNat, r.2)) ∧
    (∀ i f, f ∈ ieeeFmts → 0 < i.w →
      if int i = 0 then cvtVal (.ofInt i f) rm sat a = (0, FlagSet.none)
      else FloatResult f rm false true (decide (int i < 0)) (int i) (cvtVal (.ofInt i f) rm sat a)) ∧
    (∀ src dst : CvtInt, 0 < src.w → 0 < dst.w → dst.w ≤ 32 → let v := int src
      let v' := if sat then clamp dst.signed dst.w v
        else if dst.signed then (BitVec.ofInt dst.w v).toInt else ((BitVec.ofInt dst.w v).toNat : ℤ)
      cvtVal (.narrow src dst) rm sat a = ((BitVec.ofInt 32 v').toNat, flagOv (sat && decide (v' ≠ v)))) ∧
    (∀ src dst : CvtInt, 0 < src.w → cvtVal (.widen src dst) rm sat a = ((BitVec.ofInt dst.w (int src)).toNat, FlagSet.none)) := by
  refine ⟨fun f _ _ => rfl, fun f hf lo _ _ => cvtVal_toF32 hf lo rm sat a, ?_, fun lo hi i => ?_,
    fun i f hf hw => cvtVal_ofInt (ieee_known hf) i hw rm sat a, fun src dst hs hd _ => cvtVal_narrow src dst hs hd rm sat a,
    fun src dst hs => cvtVal_widen src dst hs rm sat a⟩
  · rintro f - g - _ _ x y rfl rfl
    exact cvtVal_both f g rm sat a
  · intro r
    rw [← wrapNat_eq]
    rfl

/-! ## PACK (R117) -/

theorem elemVal_toNat (signed : Bool) {w : Nat} (hw : 0 < w) (x : BitVec w) : elemVal signed w x.toNat = bitsInt signed x := by
  rw [elemVal_eq signed hw, BitVec.ofNat_toNat, BitVec.setWidth_eq]

theorem toNat_append_halves (x y : BitVec 16) : (y ++ x).toNat = x.toNat + y.toNat * 2 ^ 16 := by
  rw [BitVec.toNat_append, ← Nat.shiftLeft_add_eq_or_of_lt x.isLt, Nat.shiftLeft_eq, add_comm]

/-- A half of PACK's clamped forms. -/
theorem combine_clamped (signed : Bool) (x : W32) :
    ((combine signed true 16 (toSigned 32 x.toNat)).1, flagOv (combine signed true 16 (toSigned 32 x.toNat)).2) =
      ((BitVec.ofInt 16 (clamp signed 16 x.toInt)).toNat, flagOv (decide (clamp signed 16 x.toInt ≠ x.toInt))) := by
  have h : toSigned 32 x.toNat = x.toInt := elemVal_signed (by norm_num) x
  rw [combine_eq, h, wrapNat_eq]
  rfl

theorem packVal_values (a b : W32) :
    let two := fun (x y : Nat × FlagSet) => (x.1 + y.1 * 2 ^ 16, flagOr x.2 y.2)
    let clamped := fun (sg : Bool) (x : W32) => let v := clamp sg 16 x.toInt
      ((BitVec.ofInt 16 v).toNat, flagOv (decide (v ≠ x.toInt)))
    packVal .f16x2 a.toNat b.toNat = two (convF fmtF16 .rne (fval fmtF32 a.toNat)) (convF fmtF16 .rne (fval fmtF32 b.toNat)) ∧
    packVal .bf16x2 a.toNat b.toNat = two (convF fmtBf16 .rne (fval fmtF32 a.toNat)) (convF fmtBf16 .rne (fval fmtF32 b.toNat)) ∧
    packVal .i16x2sat a.toNat b.toNat = two (clamped true a) (clamped true b) ∧
    packVal .n16x2sat a.toNat b.toNat = two (clamped false a) (clamped false b) ∧
    packVal .lo16 a.toNat b.toNat = ((b.extractLsb' 0 16 ++ a.extractLsb' 0 16).toNat, FlagSet.none) ∧
    packVal .hi16 a.toNat b.toNat = ((b.extractLsb' 16 16 ++ a.extractLsb' 16 16).toNat, FlagSet.none) := by
  intro two clamped
  refine ⟨rfl, rfl, ?_, ?_, ?_, ?_⟩
  · exact congrArg₂ two (combine_clamped true a) (combine_clamped true b)
  · exact congrArg₂ two (combine_clamped false a) (combine_clamped false b)
  · rw [toNat_append_halves]
    rfl
  · rw [toNat_append_halves]
    rfl

/-! ## Sums with one outcome (R68, R78, R110) -/

theorem fvSum_nan {l : List FVal} (h : l.any isNan = true) : fvSum l = .nan (l.any isSnan) := if_pos h

theorem fvSum_cons {x : FVal} {l : List FVal} (h : (x :: l).any isNan = false) : fvSum (x :: l) = l.foldl (fvAdd .rne) x := by
  rw [fvSum, h]
  rfl

/-- Two numbers that are not infinities of opposite signs have a sum, an infinity where one of them is. -/
theorem fvAdd_num {x y : FVal} (hx : isNan x = false) (hy : isNan y = false) (h : ∀ n, x = .inf n → y ≠ .inf (!n)) :
    isNan (fvAdd .rne x y) = false ∧ ∀ n, fvAdd .rne x y = .inf n ↔ x = .inf n ∨ y = .inf n := by
  rcases eq_of_not_nan hx with hfx | ⟨n, rfl⟩ <;> rcases eq_of_not_nan hy with hfy | ⟨k, rfl⟩
  · obtain ⟨c, m, e, hv⟩ := exists_of_fvFin (fvAdd_fin .rne hfx hfy).1
    obtain ⟨c1, m1, e1, rfl⟩ := exists_of_fvFin hfx
    obtain ⟨c2, m2, e2, rfl⟩ := exists_of_fvFin hfy
    rw [hv]
    simp [isNan]
  · obtain ⟨c1, m1, e1, rfl⟩ := exists_of_fvFin hfx
    simp [fvAdd, isNan]
  · obtain ⟨c2, m2, e2, rfl⟩ := exists_of_fvFin hfy
    simp [fvAdd, isNan]
  · obtain rfl : k = n := by simpa using h n rfl
    simp [fvAdd, isNan]

theorem foldl_fvAdd_snan (l : List FVal) : l.foldl (fvAdd .rne) (.nan true) = .nan true := by
  induction l with
  | nil => rfl
  | cons y l ih => rw [List.foldl_cons, fvAdd_nan_left, Bool.true_or, ih]

theorem foldl_fvAdd_fin {l : List FVal} (hl : l.all fvFin = true) {x : FVal} (hx : fvFin x = true) :
    fvFin (l.foldl (fvAdd .rne) x) = true ∧ fvQ (l.foldl (fvAdd .rne) x) = fvQ x + (l.map fvQ).sum := by
  induction l generalizing x with
  | nil => exact ⟨hx, by simp⟩
  | cons y l ih =>
    rw [List.all_cons, Bool.and_eq_true] at hl
    obtain ⟨hfin, hval, -⟩ := fvAdd_fin .rne hx hl.1
    obtain ⟨h1, h2⟩ := ih hl.2 hfin
    exact ⟨h1, by rw [List.foldl_cons, h2, hval, List.map_cons, List.sum_cons, add_assoc]⟩

/-- Numbers of which some are infinities, of one sign, add up to that infinity. -/
theorem foldl_fvAdd_inf {l : List FVal} {x : FVal} {n : Bool} (h : (x :: l).any isNan = false) (hn : .inf n ∈ x :: l)
    (hno : .inf (!n) ∉ x :: l) : l.foldl (fvAdd .rne) x = .inf n := by
  induction l generalizing x with
  | nil => simpa [eq_comm] using hn
  | cons y l ih =>
    simp only [List.any_cons, Bool.or_eq_false_iff, List.mem_cons, not_or] at h hn hno
    obtain ⟨hx, hy, hl⟩ := h
    obtain ⟨hnx, hny, hnl⟩ := hno
    have hsum := fvAdd_num hx hy fun k hk hk' => by
      subst hk hk'
      cases k <;> cases n <;> simp_all
    refine ih (by simp [hsum.1, hl]) ?_ ?_
    · rw [List.mem_cons, eq_comm, hsum.2, eq_comm (a := x), eq_comm (a := y)]
      tauto
    · rw [List.mem_cons, eq_comm, hsum.2, eq_comm (a := x), eq_comm (a := y)]
      tauto

/-- Infinities of both signs are an invalid sum. -/
theorem foldl_fvAdd_both {l : List FVal} {x : FVal} (h : (x :: l).any isNan = false) (hn : ∀ n, .inf n ∈ x :: l) :
    l.foldl (fvAdd .rne) x = .nan true := by
  induction l generalizing x with
  | nil =>
    have h1 := hn true
    have h2 := hn false
    simp only [List.mem_singleton] at h1 h2
    rw [← h1] at h2
    cases h2
  | cons y l ih =>
    simp only [List.any_cons, Bool.or_eq_false_iff] at h
    obtain ⟨hx, hy, hl⟩ := h
    rw [List.foldl_cons]
    by_cases hop : ∀ n, x = .inf n → y ≠ .inf (!n)
    · have hsum := fvAdd_num hx hy hop
      refine ih (by simp [hsum.1, hl]) fun n => ?_
      have := hn n
      rw [List.mem_cons, List.mem_cons] at this
      rw [List.mem_cons, eq_comm, hsum.2, eq_comm (a := x), eq_comm (a := y)]
      tauto
    · obtain ⟨n, rfl, rfl⟩ : ∃ n, x = .inf n ∧ y = .inf (!n) := by
        simpa only [not_forall, ne_eq, not_not, exists_prop] using hop
      have : fvAdd .rne (.inf n) (.inf (!n)) = .nan true := if_neg (by cases n <;> simp)
      rw [this, foldl_fvAdd_snan]

theorem not_nan_of_all_fin {l : List FVal} (h : l.all fvFin = true) : l.any isNan = false := by
  rw [List.all_eq_true] at h
  rw [List.any_eq_false]
  intro x hx
  rw [isNan_of_fvFin (h x hx)]
  exact Bool.false_ne_true

/-- A sum of finite values is exact. -/
theorem fvSum_fin {l : List FVal} (h : l.all fvFin = true) : fvFin (fvSum l) = true ∧ fvQ (fvSum l) = (l.map fvQ).sum := by
  cases l with
  | nil => exact ⟨rfl, by simp [fvSum, fvQ]⟩
  | cons x l =>
    rw [fvSum_cons (not_nan_of_all_fin h), List.map_cons, List.sum_cons]
    rw [List.all_cons, Bool.and_eq_true] at h
    exact foldl_fvAdd_fin h.2 h.1

theorem fvSum_inf {l : List FVal} (h : l.any isNan = false) {n : Bool} (hn : .inf n ∈ l) (hno : .inf (!n) ∉ l) : fvSum l = .inf n := by
  cases l with
  | nil => cases hn
  | cons x l => rw [fvSum_cons h, foldl_fvAdd_inf h hn hno]

theorem fvSum_both {l : List FVal} (h : l.any isNan = false) (hn : ∀ n, .inf n ∈ l) : fvSum l = .nan true := by
  cases l with
  | nil => cases hn true
  | cons x l => rw [fvSum_cons h, foldl_fvAdd_both h hn]

/-! ## Deliveries of sums -/

theorem decide_fvQ_neg {n : Bool} {m : Nat} (hm : m ≠ 0) (e : Int) : decide (fvQ (.fin n m e) < 0) = n := by
  have : (0 : ℚ) < m * 2 ^ e := by positivity
  rw [fvQ_fin]
  cases n <;> simp [sgnQ] <;> linarith

/-- A finite value delivered: a zero keeps its sign, and another number is rounded once. -/
theorem deliver_finite {f : Fmt} (hf : KnownFmt f) (rm : RMode) (sat : Bool) {v : FVal} (h : fvFin v = true) :
    (fvQ v = 0 → deliver f rm sat v = (fmtSigned f (fvSign v) 0, FlagSet.none)) ∧
      (fvQ v ≠ 0 → FloatResult f rm sat false (decide (fvQ v < 0)) (fvQ v) (deliver f rm sat v)) := by
  obtain ⟨n, m, e, rfl⟩ := exists_of_fvFin h
  rw [ne_eq, fvQ_fin_eq_zero]
  refine ⟨fun h0 => ?_, fun h0 => ?_⟩
  · subst h0
    rfl
  · rw [decide_fvQ_neg h0]
    exact deliver_result hf rm sat n h0 e

/-! ## DP4 (R118) -/

theorem dp4Val_int (sa sb sat : Bool) (d a b : W32) :
    let v := bitsInt (sa || sb) d +
      ((List.range 4).map fun j => bitsInt sa (a.extractLsb' (8 * j) 8) * bitsInt sb (b.extractLsb' (8 * j) 8)).sum
    let v' := if sat then clamp (sa || sb) 32 v else v
    dp4Val (.int sa sb sat) d.toNat a.toNat b.toNat = ((BitVec.ofInt 32 v').toNat, flagOv (sat && decide (v' ≠ v))) := by
  have hsum : ∀ (g : Nat → Int) (x : Int), (List.range 4).foldl (fun acc j => acc + g j) x = x + ((List.range 4).map g).sum :=
    fun g x => by simp [List.range_succ]; ring
  have hbyte : ∀ (s : Bool) (x : W32) (j : Nat), elemVal s 8 (field x.toNat (8 * j) 8) = bitsInt s (x.extractLsb' (8 * j) 8) :=
    fun s x j => elemVal_toNat s (by norm_num) (x.extractLsb' (8 * j) 8)
  simp only [dp4Val, dp4Int, hbyte, hsum, elemVal_toNat (sa || sb) (by norm_num : 0 < 32), combine_eq, wrapNat_eq]
  cases sat
  · simp
  · rfl

/-- A sum delivered in f32: the default NaN with NV for a signalling one or an invalid sum, an infinity, or the sum rounded once. -/
theorem deliver_fvSum (terms : List FVal) :
    let o := deliver fmtF32 .rne false (fvSum terms)
    let q := (terms.map fvQ).sum
    (terms.any isNan = true → o = (0x7FC00000, flagNv (terms.any isSnan))) ∧
    (terms.any isNan = false → (.inf true ∈ terms → .inf false ∈ terms → o = (0x7FC00000, flagNv true)) ∧
      (∀ n, .inf n ∈ terms → .inf (!n) ∉ terms → o = (fmtSigned fmtF32 n 0x7F800000, FlagSet.none))) ∧
    (terms.all fvFin = true → if q = 0 then o.1 % 2 ^ 31 = 0 ∧ o.2 = FlagSet.none
      else FloatResult fmtF32 .rne false false (decide (q < 0)) q o) := by
  intro o q
  refine ⟨fun h => ?_, fun h => ⟨fun ht hf => ?_, fun n hn hno => ?_⟩, fun h => ?_⟩
  · simp only [o, fvSum_nan h]
    rfl
  · simp only [o, fvSum_both h (Bool.forall_bool.2 ⟨hf, ht⟩)]
    rfl
  · simp only [o, fvSum_inf h hn hno]
    rfl
  · obtain ⟨hfin, hq⟩ := fvSum_fin h
    obtain ⟨hzero, hround⟩ := deliver_finite (ieee_known (f := fmtF32) (by decide)) .rne false hfin
    rw [hq] at hzero hround
    split_ifs with h0
    · rw [show o = _ from hzero h0]
      cases fvSign (fvSum terms) <;> exact ⟨by decide, rfl⟩
    · exact hround h0

/-! ## Products of the matrix unit (R77, R195) -/

theorem fvZero_iff (v : FVal) : fvZero v = true ↔ fvFin v = true ∧ fvQ v = 0 := by
  cases v with
  | fin n m e => rw [fvQ_fin_eq_zero]; simp [fvZero, fvFin]
  | nan s => simp [fvZero, fvFin]
  | inf n => simp [fvZero, fvFin]

theorem matProd_eq (a b : FVal) : matProd a b = if fvZero a = true ∨ fvZero b = true then .fin false 0 0 else fvMul a b := by
  simp [matProd]

theorem matProd3_eq (a b c : FVal) : matProd3 a b c =
    if fvZero a = true ∨ fvZero b = true ∨ fvZero c = true then .fin false 0 0 else fvMul (fvMul a b) c := by
  simp [matProd3, or_assoc]

/-! ## A group added to an accumulator (R78) -/

theorem plusZero_nan (s : Bool) : plusZero (.nan s) = .nan s := rfl

theorem plusZero_inf (n : Bool) : plusZero (.inf n) = .inf n := rfl

theorem plusZero_fin {v : FVal} (h : fvFin v = true) :
    fvFin (plusZero v) = true ∧ fvQ (plusZero v) = fvQ v ∧ (fvQ v = 0 → fvSign (plusZero v) = false) := by
  obtain ⟨n, m, e, rfl⟩ := exists_of_fvFin h
  rw [plusZero, fvQ_fin_eq_zero]
  split_ifs with hm
  · exact ⟨rfl, by rw [fvQ_fin_eq_zero.2 rfl, fvQ_fin_eq_zero.2 hm], fun _ => rfl⟩
  · exact ⟨rfl, rfl, fun h => absurd h hm⟩

theorem any_isSnan_of_no_nan {l : List FVal} (h : l.any isNan = false) : l.any isSnan = false := by
  rw [List.any_eq_false] at h ⊢
  intro x hx
  have := h x hx
  cases x <;> simp_all [isNan, isSnan]

theorem all_fin_of_no_inf {l : List FVal} (h : l.any isNan = false) (hno : ∀ n, .inf n ∉ l) : l.all fvFin = true := by
  rw [List.all_eq_true]
  rw [List.any_eq_false] at h
  intro x hx
  rcases eq_of_not_nan (by simpa using h x hx) with hf | ⟨n, rfl⟩
  · exact hf
  · exact absurd hx (hno n)

/-- A group's sum without NaNs: a signalling NaN for infinities of both signs, else an infinity where the group has one. -/
theorem group_sum {ps : List FVal} (h : ps.any isNan = false) :
    ((∀ n, .inf n ∈ ps) → plusZero (fvSum ps) = .nan true) ∧
      ((¬ ∀ n, .inf n ∈ ps) → isNan (plusZero (fvSum ps)) = false ∧ ∀ n, plusZero (fvSum ps) = .inf n ↔ .inf n ∈ ps) := by
  refine ⟨fun hb => by rw [fvSum_both h hb, plusZero_nan], fun hb => ?_⟩
  by_cases hno : ∀ n, .inf n ∉ ps
  · obtain ⟨n, m, e, hv⟩ := exists_of_fvFin (plusZero_fin (fvSum_fin (all_fin_of_no_inf h hno)).1).1
    rw [hv]
    exact ⟨rfl, fun k => by simp [hno k]⟩
  · simp only [not_forall, not_not] at hno hb
    obtain ⟨n, hn⟩ := hno
    obtain ⟨k, hk⟩ := hb
    obtain rfl : k = !n := by cases k <;> cases n <;> simp_all
    rw [fvSum_inf h hn hk, plusZero_inf]
    refine ⟨rfl, fun j => ?_⟩
    cases j <;> cases n <;> simp_all

theorem fvAdd_inf_opposite (n : Bool) : fvAdd .rne (.inf n) (.inf (!n)) = .nan true := if_neg (by cases n <;> simp)

/-- The invalid sums of an accumulator and a group without NaNs. -/
theorem group_invalid {a : FVal} {ps : List FVal} (hn : ps.any isNan = false)
    (h : (∀ n, .inf n ∈ ps) ∨ (∃ n, a = .inf n ∧ .inf (!n) ∈ ps)) : ∃ s, fvAdd .rne a (plusZero (fvSum ps)) = .nan s ∧ s = true := by
  obtain ⟨hboth, hone⟩ := group_sum hn
  by_cases hb : ∀ n, .inf n ∈ ps
  · rw [hboth hb, fvAdd_nan_right]
    exact ⟨_, rfl, Bool.or_true _⟩
  · obtain ⟨n, rfl, hmem⟩ := h.resolve_left hb
    rw [((hone hb).2 (!n)).2 hmem, fvAdd_inf_opposite]
    exact ⟨_, rfl, rfl⟩

/-- A NaN among an accumulator and a group, or infinities that do not add up, make a NaN: a signalling one if a term signals or the sum is
invalid. -/
theorem group_nan {a : FVal} {ps : List FVal}
    (h : ps.any isNan = true ∨ isNan a = true ∨ (∀ n, .inf n ∈ ps) ∨ (∃ n, a = .inf n ∧ .inf (!n) ∈ ps)) :
    ∃ s, fvAdd .rne a (plusZero (fvSum ps)) = .nan s ∧ ((a :: ps).any isSnan = true → s = true) ∧
      (ps.any isNan = false → isNan a = false → s = true) ∧ (ps.any isNan = true → (a :: ps).any isSnan = false → s = false) := by
  rw [List.any_cons]
  cases hn : ps.any isNan with
  | true =>
    rw [fvSum_nan hn, plusZero_nan, fvAdd_nan_right]
    exact ⟨_, rfl, id, nofun, fun _ => id⟩
  | false =>
    rw [any_isSnan_of_no_nan hn, Bool.or_false]
    cases ha : isNan a with
    | true =>
      obtain ⟨s, rfl⟩ : ∃ s, a = .nan s := by cases a <;> simp_all [isNan]
      rw [fvAdd_nan_left]
      exact ⟨_, rfl, fun h => by rw [show s = true from h, Bool.true_or], nofun, nofun⟩
    | false =>
      obtain ⟨s, hs, rfl⟩ := group_invalid hn (by simpa [hn, ha] using h)
      exact ⟨_, hs, fun _ => rfl, fun _ _ => rfl, nofun⟩

theorem accAdd_nan (acc : Nat) (ps : List FVal) :
    let a := fval fmtF32 acc
    let o := accAdd acc ps
    (ps.any isNan = true ∨ isNan a = true ∨ (.inf true ∈ ps ∧ .inf false ∈ ps) ∨ (∃ n, a = .inf n ∧ .inf (!n) ∈ ps) →
      o.1 = 0x7FC00000 ∧ (o.2 = flagNv true ∨ o.2 = FlagSet.none) ∧
      ((a :: ps).any isSnan = true → o.2 = flagNv true) ∧
      (ps.any isNan = false → isNan a = false → o.2 = flagNv true) ∧
      (ps.any isNan = true → (a :: ps).any isSnan = false → o.2 = FlagSet.none)) := by
  intro a o h
  obtain ⟨s, hs, h1, h2, h3⟩ := group_nan (a := a) (ps := ps) (by rwa [Bool.forall_bool, and_comm (a := .inf false ∈ ps)])
  have ho : o = (0x7FC00000, flagNv s) := by
    simp only [o, accAdd, a] at hs ⊢
    rw [hs]
    rfl
  rw [ho]
  refine ⟨rfl, ?_, fun h => by rw [h1 h], fun h h' => by rw [h2 h h'], fun h h' => by rw [h3 h h']; rfl⟩
  cases s
  · exact .inr rfl
  · exact .inl rfl

/-- Infinities of one sign make the accumulator that infinity. -/
theorem accAdd_inf {acc : Nat} {ps : List FVal} (hps : ps.any isNan = false) (ha : isNan (fval fmtF32 acc) = false) {n : Bool}
    (hn : .inf n ∈ fval fmtF32 acc :: ps) (hno : .inf (!n) ∉ fval fmtF32 acc :: ps) :
    accAdd acc ps = (fmtSigned fmtF32 n 0x7F800000, FlagSet.none) := by
  rw [accAdd]
  generalize fval fmtF32 acc = a at *
  rw [List.mem_cons, eq_comm] at hn hno
  rw [not_or] at hno
  obtain ⟨hnum, hinf⟩ := (group_sum hps).2 fun h => hno.2 (h _)
  have hsum := fvAdd_num ha hnum fun k hk hk' => by
    subst hk
    rw [hinf] at hk'
    cases k <;> cases n <;> simp_all
  rw [(hsum.2 n).2 (by rwa [hinf])]
  rfl

theorem fvSign_of_ne_zero {v : FVal} (h : fvFin v = true) (h0 : fvQ v ≠ 0) : fvSign v = decide (fvQ v < 0) := by
  obtain ⟨n, m, e, rfl⟩ := exists_of_fvFin h
  exact (decide_fvQ_neg (mt fvQ_fin_eq_zero.2 h0) e).symm

/-- A finite group adds its exact sum in one rounding; an exact zero is +0. -/
theorem accAdd_fin {acc : Nat} {ps : List FVal} (hps : ps.all fvFin = true) (ha : fvFin (fval fmtF32 acc) = true) :
    let q := fvQ (fval fmtF32 acc) + (ps.map fvQ).sum
    if q = 0 then accAdd acc ps = (0, FlagSet.none)
    else FloatResult fmtF32 .rne false false (decide (q < 0)) q (accAdd acc ps) := by
  intro q
  obtain ⟨hfin, hsum⟩ := fvSum_fin hps
  obtain ⟨hpfin, hpsum, hpsign⟩ := plusZero_fin hfin
  obtain ⟨hofin, hoval, hosign⟩ := fvAdd_fin .rne ha hpfin
  obtain ⟨hzero, hround⟩ := deliver_finite (ieee_known (f := fmtF32) (by decide)) .rne false hofin
  rw [hpsum, hsum] at hoval hosign
  rw [hoval] at hzero hround
  split_ifs with h0
  · rw [accAdd, hzero h0, hosign h0]
    have hsign : (if fvSign (fval fmtF32 acc) = fvSign (plusZero (fvSum ps)) then fvSign (fval fmtF32 acc) else RMode.rne == .rd) = false := by
      by_cases hs : (ps.map fvQ).sum = 0
      · rw [hpsign (hsum.trans hs)]
        cases fvSign (fval fmtF32 acc) <;> rfl
      · have ha0 : fvQ (fval fmtF32 acc) = -(ps.map fvQ).sum := by linarith
        rw [fvSign_of_ne_zero ha (by rw [ha0]; exact neg_ne_zero.2 hs), fvSign_of_ne_zero hpfin (by rwa [hpsum, hsum]), hpsum, hsum, ha0]
        rcases lt_or_gt_of_ne hs with h | h <;> simp [h, h.le]
    rw [hsign]
    rfl
  · exact hround h0

/-! ## Dot products (R78) -/

theorem prodsOf_eq (a b : List FVal) : prodsOf a b = List.zipWith matProd a b := by
  induction a generalizing b with
  | nil => rfl
  | cons x a ih =>
    cases b with
    | nil => rfl
    | cons y b => rw [prodsOf, ih, List.zipWith_cons_cons]

theorem dotGroups_nil (g fuel acc : Nat) : dotGroups g fuel [] acc = (acc, FlagSet.none) := by cases fuel <;> rfl

theorem dotGroups_succ (g fuel : Nat) {ps : List FVal} (h : ps ≠ []) (acc : Nat) :
    dotGroups g (fuel + 1) ps acc =
      ((dotGroups g fuel (ps.drop g) (accAdd acc (ps.take g)).1).1,
        flagOr (accAdd acc (ps.take g)).2 (dotGroups g fuel (ps.drop g) (accAdd acc (ps.take g)).1).2) := by
  rw [dotGroups, if_neg (by simpa using h)]

/-- More fuel than there are products makes no difference. -/
theorem dotGroups_fuel {g : Nat} (hg : 0 < g) {k k' : Nat} {ps : List FVal} (hk : ps.length < k) (hk' : ps.length < k') (acc : Nat) :
    dotGroups g k ps acc = dotGroups g k' ps acc := by
  induction k generalizing k' ps acc with
  | zero => omega
  | succ k ih =>
    obtain ⟨k', rfl⟩ : ∃ j, k' = j + 1 := ⟨k' - 1, by omega⟩
    by_cases h : ps = []
    · rw [h, dotGroups_nil, dotGroups_nil]
    · have hlen : (ps.drop g).length < ps.length := by
        rw [List.length_drop]
        have := List.length_pos_of_ne_nil h
        omega
      rw [dotGroups_succ g k h, dotGroups_succ g k' h, ih (by omega) (show (ps.drop g).length < k' by omega)]

theorem dotInto_nil (g acc : Nat) : dotInto g [] [] acc = (acc, FlagSet.none) := rfl

/-- A dot product is that of its first group, then that of the rest. -/
theorem dotInto_append {g acc : Nat} (hg : 0 < g) {a b as bs : List FVal} (ha : a.length = g) (hb : b.length = g)
    (hl : as.length = bs.length) :
    let o := accAdd acc (List.zipWith matProd a b)
    let p := dotInto g as bs o.1
    dotInto g (a ++ as) (b ++ bs) acc = (p.1, flagOr o.2 p.2) := by
  intro o p
  have hfirst : (List.zipWith matProd a b).length = g := by rw [List.length_zipWith, ha, hb, min_self]
  have hrest : (List.zipWith matProd as bs).length = as.length := by rw [List.length_zipWith, hl, min_self]
  have hps : prodsOf (a ++ as) (b ++ bs) = List.zipWith matProd a b ++ List.zipWith matProd as bs := by
    rw [prodsOf_eq, List.zipWith_append (ha.trans hb.symm)]
  have hne : List.zipWith matProd a b ++ List.zipWith matProd as bs ≠ [] := fun h => by
    have := congrArg List.length h
    rw [List.length_append, hfirst] at this
    simp at this
    omega
  have hp : p = dotGroups g (a ++ as).length (List.zipWith matProd as bs) o.1 := by
    simp only [p, dotInto, prodsOf_eq]
    exact dotGroups_fuel hg (by omega) (by rw [List.length_append]; omega) _
  rw [dotInto, hps, dotGroups_succ _ _ hne, List.take_left' hfirst, List.drop_left' hfirst, ← hp]

/-- The products, the groups and the sums of the matrix unit. -/
theorem matrix_values :
    (∀ a b c, matProd a b = (if fvZero a = true ∨ fvZero b = true then .fin false 0 0 else fvMul a b) ∧
      matProd3 a b c = (if fvZero a = true ∨ fvZero b = true ∨ fvZero c = true then .fin false 0 0 else fvMul (fvMul a b) c)) ∧
    (∀ v, fvZero v = true ↔ fvFin v = true ∧ fvQ v = 0) ∧
    (∀ (acc : W32) (ps : List FVal), let a := fval fmtF32 acc.toNat
      let o := accAdd acc.toNat ps
      let q := fvQ a + (ps.map fvQ).sum
      (ps.any isNan = true ∨ isNan a = true ∨ (.inf true ∈ ps ∧ .inf false ∈ ps) ∨ (∃ n, a = .inf n ∧ .inf (!n) ∈ ps) →
        o.1 = 0x7FC00000 ∧ (o.2 = flagNv true ∨ o.2 = FlagSet.none) ∧
        ((a :: ps).any isSnan = true → o.2 = flagNv true) ∧
        (ps.any isNan = false → isNan a = false → o.2 = flagNv true) ∧
        (ps.any isNan = true → (a :: ps).any isSnan = false → o.2 = FlagSet.none)) ∧
      (ps.any isNan = false → isNan a = false → ∀ n, .inf n ∈ a :: ps → .inf (!n) ∉ a :: ps →
        o = (fmtSigned fmtF32 n 0x7F800000, FlagSet.none)) ∧
      (ps.all fvFin = true → fvFin a = true →
        if q = 0 then o = (0, FlagSet.none) else FloatResult fmtF32 .rne false false (decide (q < 0)) q o)) ∧
    (∀ g acc, 0 < g → dotInto g [] [] acc = (acc, FlagSet.none) ∧
      ∀ a b as bs, a.length = g → b.length = g → as.length = bs.length →
        let o := accAdd acc (List.zipWith matProd a b)
        let p := dotInto g as bs o.1
        dotInto g (a ++ as) (b ++ bs) acc = (p.1, flagOr o.2 p.2)) ∧
    [MmaFmt.e4m3, .e5m2, .o4, .bf16, .f16].map mmaGroup = [32, 32, 32, 8, 8] ∧
    (let i := fun (k : Int) => ofInt k
      let zer := FVal.fin false 0 0
      dotInto 8 ([i 4096, i 1, i (-4096)] ++ List.replicate 5 zer) ([i 4096, i 1, i 4096] ++ List.replicate 5 (.inf false)) 0x80000000 =
        (0x3F800000, FlagSet.none) ∧
      dotInto 8 ([i 3, i (-3)] ++ List.replicate 6 (.fin true 0 0)) ([i 2, i 2] ++ List.replicate 6 (i 5)) 0x80000000 =
        (0, FlagSet.none)) :=
  ⟨fun a b c => ⟨matProd_eq a b, matProd3_eq a b c⟩, fvZero_iff,
    fun acc ps => ⟨accAdd_nan acc.toNat ps, fun hps ha _ hn hno => accAdd_inf hps ha hn hno, fun hps ha => accAdd_fin hps ha⟩,
    fun g acc hg => ⟨dotInto_nil g acc, fun _ _ _ _ ha hb hl => dotInto_append hg ha hb hl⟩, rfl, by decide +kernel⟩

/-! ## Expansions (R59, R61-R64) -/

/-- An MXFP6 element is expanded by one rounding of its scaled number. -/
theorem mx6Expand_values {src dst : Fmt} (hs : src ∈ [fmtE2m3, fmtE3m2]) (hd : dst ∈ allFmts) (scale el : Nat) :
    let v := fval src el
    let o := mx6Expand src dst scale el
    if scale = 255 then o = (fmtNan dst, flagNv true)
    else if fvQ v = 0 then o = (fmtSigned dst (fvSign v) 0, FlagSet.none)
    else FloatResult dst .rne false true (fvSign v) (fvQ v * 2 ^ ((scale : ℤ) - 127)) o := by
  have hbare : ∀ f ∈ [fmtE2m3, fmtE3m2], f.kind = .bare := by decide
  obtain ⟨n, m, e, hv⟩ : ∃ n m e, fval src el = .fin n m e := by
    rw [fval_eq, fvalAt_num _ (by simp [hbare src hs]) (by simp [hbare src hs])]
    split_ifs
    · exact ⟨_, _, _, rfl⟩
    · exact ⟨_, _, _, rfl⟩
  simp only [mx6Expand, hv, fvQ_fin_eq_zero]
  split_ifs with h255 h0
  · rfl
  · rw [h0, convF_zero]
    rfl
  · have hq : fvQ (.fin n m (e + scale - 127)) = fvQ (.fin n m e) * 2 ^ ((scale : ℤ) - 127) := by
      rw [fvQ_fin, fvQ_fin, show e + (scale : ℤ) - 127 = e + (scale - 127) by ring, zpow_add₀ two_ne_zero, mul_assoc, mul_assoc]
    rw [← hq]
    exact convF_result (knownFmt_of_mem hd) .rne n h0 _

/-- A nibble of an O4 unit, and its integer (R63). -/
theorem nibble_eq (u j : Nat) :
    (field u (4 * j) 4 == 8) = (BitVec.ofNat 4 (u / 2 ^ (4 * j)) == 8#4) ∧
      toSigned 4 (field u (4 * j) 4) = (BitVec.ofNat 4 (u / 2 ^ (4 * j))).toInt := by
  refine ⟨?_, ?_⟩
  · rw [field_eq, Bool.eq_iff_iff, beq_iff_eq, beq_iff_eq, ← BitVec.toNat_inj, BitVec.toNat_ofNat]
    rfl
  · rw [field_eq]
    exact (elemVal_mod true 4 _).trans (elemVal_eq true (by norm_num) _)

theorem o4Unit_values (u : Nat) :
    let nib := fun (j : Nat) => BitVec.ofNat 4 (u / 2 ^ (4 * j))
    let o := o4Unit u
    match (List.range 4).filter (fun j => nib j == 8#4) with
    | [] => o = ((List.range 4).map fun j => ofInt (nib j).toInt, false)
    | [m] => o = ((List.range 4).map fun j =>
        if j = m then fval fmtE4m3 (u / 2 ^ (8 * (1 - m / 2)) % 2 ^ 8) else if j / 2 = m / 2 then ofInt (nib j).toInt
        else .fin false 0 0, false)
    | _ => o = (List.replicate 4 (.fin false 0 0), true) := by
  intro nib o
  simp only [o, o4Unit, nibble_eq, nib]
  generalize (List.range 4).filter _ = marks
  match marks with
  | [] => rfl
  | [m] => simp only [field_eq]
  | _ :: _ :: _ => rfl

theorem scaleVal_e8m0 (bs : List Byte) :
    scaleVal .e8m0 bs = if natOf bs = 255 then .nan true else .fin false 1 ((natOf bs : ℤ) - 127) := rfl

/-! ## Integer square roots -/

theorem isqrtFrom_spec (n i r : Nat) (hlo : r * r ≤ n) (hhi : n < (r + 2 ^ (i + 1)) * (r + 2 ^ (i + 1))) :
    isqrtFrom n i r * isqrtFrom n i r ≤ n ∧ n < (isqrtFrom n i r + 1) * (isqrtFrom n i r + 1) := by
  induction i generalizing r with
  | zero =>
    rw [isqrtFrom]
    split_ifs with h
    · exact ⟨h, hhi⟩
    · exact ⟨hlo, not_le.1 h⟩
  | succ i ih =>
    rw [isqrtFrom]
    split_ifs with h
    · exact ih _ h (by rwa [add_assoc, ← two_mul, ← pow_succ'])
    · exact ih _ hlo (not_le.1 h)

/-- The integer square root is the greatest whose square is not above. -/
theorem isqrt_spec (n : Nat) : isqrt n * isqrt n ≤ n ∧ n < (isqrt n + 1) * (isqrt n + 1) := by
  refine isqrtFrom_spec n _ 0 (by omega) ?_
  rcases Nat.eq_zero_or_pos n with rfl | hn
  · positivity
  · obtain ⟨-, -, hlt⟩ := bitLen_bounds hn.ne'
    rw [zero_add, ← pow_add]
    exact hlt.trans_le (Nat.pow_le_pow_right two_pos (by omega))

/-! ## Mantissas with a sticky bit (R113) -/

section
variable {K : Type} [Field K] [LinearOrder K] [IsStrictOrderedRing K]

/-- A floor and a sticky bit stand for what they are the floor of. -/
theorem stands_sticky {r : Nat} {e : Int} {a : K} {whole : Prop} [Decidable whole] (hlo : (r : K) * 2 ^ e ≤ a) (hhi : a < ((r : K) + 1) * 2 ^ e)
    (hex : whole ↔ (r : K) * 2 ^ e = a) : Stands (2 * r + (if whole then 0 else 1)) (e - 1) a := by
  have he : (2 : K) ^ e = 2 * 2 ^ (e - 1) := by rw [← zpow_one_add₀ two_ne_zero]; congr 1; ring
  rw [he] at hlo hhi hex
  split_ifs with h
  · refine .inl ?_
    rw [← hex.1 h]
    push_cast
    ring
  · refine .inr ⟨by omega, ?_, ?_⟩
    · refine lt_of_le_of_ne (hlo.trans' (le_of_eq ?_)) fun h' => h (hex.2 ?_)
      · push_cast; ring
      · rw [← h']; push_cast; ring
    · refine hhi.trans_eq ?_
      push_cast; ring

end

theorem le_bitLen {k m : Nat} (h : 2 ^ k ≤ m) : k + 1 ≤ bitLen m := by
  have hm : m ≠ 0 := by have := Nat.two_pow_pos k; omega
  rw [bitLen, if_neg hm]
  have := (Nat.le_log2 hm).2 h
  omega

/-- The reciprocal of a finite number, rounded once. -/
theorem rcp_result (n : Bool) {m : Nat} (hm : m ≠ 0) (e : Int) :
    FloatResult fmtF32 .rne false false n (1 / fvQ (.fin n m e)) (deliver fmtF32 .rne false (stickyDiv n 1 m (-e))) := by
  obtain ⟨k, hk⟩ : ∃ k, k = 80 + bitLen m := ⟨_, rfl⟩
  obtain ⟨-, -, hmlt⟩ := bitLen_bounds hm
  have hm0 : (0 : ℚ) < m := by positivity
  have hq : 1 / fvQ (.fin n m e) = sgnQ n * (1 / (m * 2 ^ e)) := by
    rw [fvQ_fin, one_div, mul_inv, one_div]
    cases n <;> norm_num [sgnQ]
  have hsplit := Nat.div_add_mod (2 ^ k) m
  have hrem := Nat.mod_lt (2 ^ k) (Nat.pos_of_ne_zero hm)
  have ha : (1 / (m * 2 ^ e) : ℚ) = ((2 ^ k : Nat) : ℚ) / m * 2 ^ (-e - (k : ℤ)) := by
    rw [zpow_sub₀ two_ne_zero, zpow_neg, zpow_natCast]
    push_cast
    field_simp
  have hu : (0 : ℚ) < 2 ^ (-e - (k : ℤ)) := by positivity
  have hs : Stands (2 * (2 ^ k / m) + (if 2 ^ k % m = 0 then 0 else 1)) (-e - (k : ℤ) - 1) (1 / (m * 2 ^ e) : ℚ) := by
    rw [ha]
    generalize 2 ^ k / m = d at *
    generalize 2 ^ k % m = r at *
    rw [← hsplit]
    refine stands_sticky ?_ ?_ ?_
    · refine mul_le_mul_of_nonneg_right ?_ hu.le
      rw [le_div_iff₀ hm0]
      exact_mod_cast (by nlinarith)
    · refine mul_lt_mul_of_pos_right ?_ hu
      rw [div_lt_iff₀ hm0]
      exact_mod_cast (by nlinarith)
    · rw [mul_left_inj' hu.ne', eq_div_iff hm0.ne']
      norm_cast
      constructor <;> intro h <;> nlinarith
  have hbig : 2 ^ 80 ≤ 2 ^ k / m := by
    rw [Nat.le_div_iff_mul_le (Nat.pos_of_ne_zero hm), hk, pow_add]
    exact Nat.mul_le_mul_left _ hmlt.le
  have hlen := le_bitLen (m := 2 * (2 ^ k / m) + (if 2 ^ k % m = 0 then 0 else 1)) (k := 80) (by omega)
  rw [stickyDiv, hq]
  simp only [one_mul, ← hk]
  rw [deliver_fin _ _ _ _ (by omega)]
  exact floatResult_roundedOut (ieee_known (by decide)) .rne false false n (by omega) hs (.inr (by simp only [fmtF32]; omega))

/-! ## Roots (R113): an irrational magnitude rounded to nearest -/

/-- The multiple that a magnitude rounds to to nearest: on either side of it, the middle towards any other number of a set that has none
between two multiples lies beyond the magnitude. -/
theorem middle_of_nearest {G : ℚ → Prop} {a : ℝ} {u : ℚ} {c : Nat} (hm : RoundsMult .rne false a (u : ℝ) c)
    (hgap : ∀ k : Nat, k * (u : ℝ) ≤ a → a < (k + 1) * (u : ℝ) → ∀ x, G x → x ≤ k * u ∨ (k + 1) * u ≤ x) {y : ℚ} (hy : G y) :
    (c * u < y → a ≤ ((c * u + y) / 2 : ℚ)) ∧ (y < c * u → (((c * u + y) / 2 : ℚ) : ℝ) ≤ a) := by
  obtain ⟨k, hge, hlt, hc⟩ := hm
  have hsides : (y : ℝ) ≤ k * u ∨ (k + 1) * (u : ℝ) ≤ y := by exact_mod_cast hgap k hge hlt y hy
  rcases hc with ⟨hup, hc⟩ | ⟨hup, hc⟩ <;> subst c
  · have hmid : (2 * k + 1) * (u : ℝ) ≤ 2 * a := by
      rcases hup with h | ⟨h, -⟩
      · exact h.le
      · exact h.le
    refine ⟨fun h => ?_, fun h => ?_⟩
    · have h' : ((k : ℝ) + 1) * u < y := by exact_mod_cast h
      push_cast
      linarith
    · have h' : (y : ℝ) < (k + 1) * u := by exact_mod_cast h
      have := hsides.resolve_right (not_le.2 h')
      push_cast
      linarith
  · have hmid : 2 * a ≤ (2 * k + 1) * (u : ℝ) := not_lt.1 fun h => hup (.inl h)
    refine ⟨fun h => ?_, fun h => ?_⟩
    · have h' : (k : ℝ) * u < y := by exact_mod_cast h
      have := hsides.resolve_left (not_le.2 h')
      push_cast
      linarith
    · have h' : (y : ℝ) < k * u := by exact_mod_cast h
      push_cast
      linarith

/-- A normal magnitude of f32 that a mantissa stands for, rounded to nearest: a multiple `c` of its last place `2 ^ ex`. It is neither beyond
the format nor tiny. -/
theorem roundMag_normal {m : Nat} {e : Int} {a : ℝ} (hs : Stands m e a) (hb : 26 ≤ bitLen m) (hlo : (-125 : ℤ) ≤ e + bitLen m)
    (hhi : e + bitLen m ≤ 127) :
    ∃ (ex : ℤ) (c : ℕ), -149 ≤ ex ∧ (2 : ℝ) ^ 23 * 2 ^ ex ≤ a ∧ a < 2 ^ 24 * 2 ^ ex ∧ RoundsMult .rne false a (2 ^ ex) c ∧ 0 < c ∧
      ∃ mag ≤ fmtMax fmtF32, codeQ fmtF32 mag = c * 2 ^ ex ∧
        ∃ b, roundMag fmtF32 .rne false m e = ⟨mag, b, false, false⟩ ∧ (b = true ↔ (c : ℝ) * 2 ^ ex ≠ a) := by
  obtain ⟨ex, hex⟩ : ∃ x, x = e + (bitLen m : Int) - 24 := ⟨_, rfl⟩
  have hm : m ≠ 0 := fun h => by rw [h] at hb; exact absurd hb (by decide)
  obtain ⟨hlead, htop⟩ := hs.leading hm (.inr (by omega))
  obtain ⟨hr, hri⟩ := roundAt_mult .rne false hs (ex := ex) (.inr (by omega))
  have hge : (2 : ℝ) ^ 23 * 2 ^ ex ≤ a := by
    rw [← zpow_natCast, ← zpow_add₀ two_ne_zero, show ((23 : Nat) : Int) + ex = e + bitLen m - 1 by omega]
    exact hlead
  have hlt : a < 2 ^ 24 * 2 ^ ex := by
    rw [← zpow_natCast, ← zpow_add₀ two_ne_zero, show ((24 : Nat) : Int) + ex = e + bitLen m by omega]
    exact htop
  have hu : (0 : ℝ) < 2 ^ ex := by positivity
  have hc : 2 ^ 23 ≤ (roundAt .rne false m e ex).1 ∧ (roundAt .rne false m e ex).1 ≤ 2 ^ 24 := by
    obtain ⟨k, hk, hk1, hc⟩ := hr
    have h1 : 2 ^ 23 < k + 1 := by exact_mod_cast lt_of_mul_lt_mul_right (hge.trans_lt hk1) hu.le
    have h2 : k < 2 ^ 24 := by exact_mod_cast lt_of_mul_lt_mul_right (hk.trans_lt hlt) hu.le
    rcases hc with ⟨-, h⟩ | ⟨-, h⟩ <;> rw [h] <;> omega
  have hround : roundMag fmtF32 .rne false m e = ⟨(ex + 149).toNat * 2 ^ 23 + (roundAt .rne false m e ex).1, (roundAt .rne false m e ex).2,
      dyLt (roundAt .rne false m e ex).1 ex 1 (-126),
      decide (fmtMax fmtF32 < (ex + 149).toNat * 2 ^ 23 + (roundAt .rne false m e ex).1)⟩ := by
    have hmax : max ex (-149) = ex := max_eq_left (by omega)
    have : roundMag fmtF32 .rne false m e = ⟨(max ex (-149) + 149).toNat * 2 ^ 23 + (roundAt .rne false m e (max ex (-149))).1,
        (roundAt .rne false m e (max ex (-149))).2, dyLt (roundAt .rne false m e ex).1 ex 1 (-126),
        decide (fmtMax fmtF32 < (max ex (-149) + 149).toNat * 2 ^ 23 + (roundAt .rne false m e (max ex (-149))).1)⟩ := by
      rw [hex]; rfl
    rwa [hmax] at this
  have htiny : dyLt (roundAt .rne false m e ex).1 ex 1 (-126) = false := by
    rw [Bool.eq_false_iff, ne_eq, dyLt_iff, not_lt]
    calc ((1 : ℕ) : ℚ) * 2 ^ (-126 : ℤ) ≤ ((2 ^ 23 : ℕ) : ℚ) * 2 ^ ex := by
          rw [Nat.cast_one, one_mul, Nat.cast_pow, Nat.cast_ofNat, ← zpow_natCast, ← zpow_add₀ two_ne_zero]
          exact zpow_le_zpow_right₀ (by norm_num) (by push_cast; omega)
      _ ≤ _ := mul_le_mul_of_nonneg_right (by exact_mod_cast hc.1) (by positivity)
  have hmax : (ex + 149).toNat * 2 ^ 23 + (roundAt .rne false m e ex).1 ≤ fmtMax fmtF32 := by
    have : fmtMax fmtF32 = 255 * 2 ^ 23 - 1 := rfl
    omega
  refine ⟨ex, _, by omega, hge, hlt, hr, by omega, _, hmax, ?_, (roundAt .rne false m e ex).2, ?_, hri⟩
  · have := codeQ_units fmtF32 (d := (ex + 149).toNat) hc.2 (.inr hc.1)
    rwa [show fmtEmin fmtF32 + (((ex + 149).toNat : Nat) : ℤ) = ex by rw [show fmtEmin fmtF32 = -149 from rfl]; omega] at this
  · rw [hround, htiny, decide_eq_false (not_lt.2 hmax)]

/-- A root delivered in f32: the number nearest to it, with NX where it is not the root itself. -/
theorem deliver_root {m : Nat} {e : Int} {a : ℝ} (hs : Stands m e a) (hb : 26 ≤ bitLen m) (hlo : (-125 : ℤ) ≤ e + bitLen m)
    (hhi : e + bitLen m ≤ 127) :
    let o := deliver fmtF32 .rne false (.fin false m e)
    let r := fvQ (fval fmtF32 o.1)
    fvFin (fval fmtF32 o.1) = true ∧ 0 < r ∧
      (∀ y, OfPrecision fmtF32 true y → (r < y → a ≤ ((r + y) / 2 : ℚ)) ∧ (y < r → (((r + y) / 2 : ℚ) : ℝ) ≤ a)) ∧
      ∃ b, o.2 = ⟨false, false, false, b⟩ ∧ (b = true ↔ (r : ℝ) ≠ a) := by
  obtain ⟨ex, c, hex, hge, hlt, hr, hc, mag, hmag, hcode, b, hround, hb'⟩ := roundMag_normal hs hb hlo hhi
  have hm : m ≠ 0 := fun h => by rw [h] at hb; exact absurd hb (by decide)
  intro o r
  have ho : o = (mag, ⟨false, false, false, b⟩) := by
    simp only [o, deliver_fin _ _ _ _ hm, hround]
    rfl
  obtain ⟨hfin, -, hval⟩ := fval_finite (ieee_known (f := fmtF32) (by decide)) false hmag
  have hr0 : r = c * 2 ^ ex := by
    simp only [r, ho, ← hcode]
    simpa [sgnQ, fmtSigned] using hval
  have hrr : (r : ℝ) = c * 2 ^ ex := by rw [hr0]; push_cast; rfl
  rw [ho, hrr, hr0]
  refine ⟨by simpa [fmtSigned] using hfin, by positivity, fun y hy => ?_, b, rfl, hb'⟩
  refine middle_of_nearest (by rwa [Rat.cast_zpow, Rat.cast_ofNat]) (fun k hk hk1 => ?_) hy
  have hu : (0 : ℝ) < 2 ^ ex := by positivity
  push_cast at hk hk1
  have h1 : 2 ^ 23 < k + 1 := by exact_mod_cast lt_of_mul_lt_mul_right (hge.trans_lt hk1) hu.le
  have h2 : k < 2 ^ 24 := by exact_mod_cast lt_of_mul_lt_mul_right (hk.trans_lt hlt) hu.le
  have hq : (0 : ℚ) < 2 ^ ex := by positivity
  refine (ofPrecision_gap (f := fmtF32) (least := true) (fun _ => hex) (.inl ?_) ?_ k le_rfl ?_).2.2
  · exact mul_le_mul_of_nonneg_right (by exact_mod_cast Nat.le_of_lt_succ h1) hq.le
  · exact mul_lt_mul_of_pos_right (by exact_mod_cast h2) hq
  · linarith

/-! ## sqrt and rsqrt -/

theorem bitLen_le {k m : Nat} (hm : m ≠ 0) (h : m < 2 ^ k) : bitLen m ≤ k := by
  rw [bitLen, if_neg hm]
  exact (Nat.log2_lt hm).2 h

/-- An integer square root with a sticky bit stands for the root of what it is the root of, in units of `2 ^ E`. -/
theorem stands_sqrt {r : Nat} {x : ℝ} (E : ℤ) {whole : Prop} [Decidable whole] (hlo : (r : ℝ) * r ≤ x) (hhi : x < (r + 1) * (r + 1))
    (hex : whole ↔ (r : ℝ) * r = x) : Stands (2 * r + (if whole then 0 else 1)) (E - 1) (Real.sqrt x * 2 ^ E) := by
  have hu : (0 : ℝ) < 2 ^ E := by positivity
  have hr : (0 : ℝ) ≤ r := by positivity
  refine stands_sticky ?_ ?_ ?_
  · exact mul_le_mul_of_nonneg_right (Real.le_sqrt_of_sq_le (by rwa [sq])) hu.le
  · exact mul_lt_mul_of_pos_right ((Real.sqrt_lt' (by positivity)).2 (by rwa [sq])) hu
  · rw [mul_left_inj' hu.ne', hex, eq_comm (b := Real.sqrt x), Real.sqrt_eq_iff_mul_self_eq (by nlinarith) hr, eq_comm]

/-- A root delivered in f32, told by squares: `s` is the square of the root. -/
theorem deliver_sqrt {r : Nat} {x s : ℝ} {E : ℤ} {whole : Prop} [Decidable whole] (hlo : (r : ℝ) * r ≤ x) (hhi : x < (r + 1) * (r + 1))
    (hex : whole ↔ (r : ℝ) * r = x) (hs : s = x * (2 ^ E) ^ 2) (hr : 2 ^ 64 ≤ r) (hr' : r < 2 ^ 129) (hE : -180 ≤ E) (hE' : E ≤ -12) :
    let o := deliver fmtF32 .rne false (.fin false (2 * r + (if whole then 0 else 1)) (E - 1))
    let v := fvQ (fval fmtF32 o.1)
    fvFin (fval fmtF32 o.1) = true ∧ 0 < v ∧
      (∀ y, OfPrecision fmtF32 true y → 0 ≤ y → let mid := (v + y) / 2
        (v < y → s ≤ ((mid ^ 2 : ℚ) : ℝ)) ∧ (y < v → ((mid ^ 2 : ℚ) : ℝ) ≤ s)) ∧
      ∃ b, o.2 = ⟨false, false, false, b⟩ ∧ (b = true ↔ ((v ^ 2 : ℚ) : ℝ) ≠ s) := by
  have hm : 2 ^ 65 ≤ 2 * r + (if whole then 0 else 1) := by omega
  have hm' : 2 * r + (if whole then 0 else 1) < 2 ^ 130 := by split_ifs <;> omega
  have h1 := le_bitLen hm
  have h2 := bitLen_le (by omega) hm'
  have ha : 0 ≤ Real.sqrt x * 2 ^ E := by positivity
  have hx : 0 ≤ x := le_trans (by positivity) hlo
  have hsq : s = (Real.sqrt x * 2 ^ E) ^ 2 := by rw [mul_pow, Real.sq_sqrt hx, hs]
  obtain ⟨hfin, hpos, hmid, b, hb, hb'⟩ := deliver_root (stands_sqrt E hlo hhi hex) (by omega) (by omega) (by omega)
  rw [hsq]
  refine ⟨hfin, hpos, fun y hy h0 => ⟨fun h => ?_, fun h => ?_⟩, b, hb, hb'.trans (not_congr ?_)⟩
  · rw [Rat.cast_pow]
    exact pow_le_pow_left₀ ha ((hmid y hy).1 h) 2
  · rw [Rat.cast_pow]
    exact pow_le_pow_left₀ (by exact_mod_cast (by positivity : (0 : ℚ) ≤ _)) ((hmid y hy).2 h) 2
  · rw [Rat.cast_pow, sq_eq_sq₀ (by exact_mod_cast hpos.le) ha]

/-- The mantissa that a root is taken of, with an even exponent. -/
theorem even_split {m : Nat} (hm : m ≠ 0) (hlt : m < 2 ^ 24) {e : Int} (he : -149 ≤ e) (he' : e ≤ 104) :
    ∃ (m1 : Nat) (j : Int), m1 = (if e % 2 = 0 then m else 2 * m) ∧ j = (if e % 2 = 0 then e else e - 1) / 2 ∧ 1 ≤ m1 ∧ m1 < 2 ^ 25 ∧
      -75 ≤ j ∧ j ≤ 52 ∧ (m : ℝ) * 2 ^ e = m1 * (2 ^ j) ^ 2 := by
  have key : ∀ j : Int, ((2 : ℝ) ^ j) ^ 2 = 2 ^ (2 * j) := fun j => by rw [← zpow_natCast, ← zpow_mul, mul_comm]; rfl
  refine ⟨_, _, rfl, rfl, ?_⟩
  simp only [key]
  split_ifs with h
  · exact ⟨by omega, by omega, by omega, by omega, by rw [show 2 * (e / 2) = e by omega]⟩
  · refine ⟨by omega, by omega, by omega, by omega, ?_⟩
    rw [show 2 * ((e - 1) / 2) = e - 1 by omega, zpow_sub₀ two_ne_zero]
    push_cast
    ring

/-- sqrt of a positive number of f32. -/
theorem sqrt_result {m : Nat} (hm : m ≠ 0) (hlt : m < 2 ^ 24) {e : Int} (he : -149 ≤ e) (he' : e ≤ 104) {q : ℚ} (hq : q = m * 2 ^ e) :
    let o := deliver fmtF32 .rne false (stickySqrt m e)
    let v := fvQ (fval fmtF32 o.1)
    (fvFin (fval fmtF32 o.1) = true ∧ 0 < v ∧
      ∀ y, OfPrecision fmtF32 true y → 0 ≤ y → let mid := (v + y) / 2
        (v < y → q ≤ mid ^ 2) ∧ (y < v → mid ^ 2 ≤ q)) ∧
      o.2 = ⟨false, false, false, decide (v ^ 2 ≠ q)⟩ := by
  obtain ⟨m1, j, hm1, hj, hpos, hlt1, hjlo, hjhi, hval⟩ := even_split hm hlt he he'
  obtain ⟨hlo, hhi⟩ := isqrt_spec (m1 * 2 ^ 128)
  have hs : ((q : ℚ) : ℝ) = ((m1 * 2 ^ 128 : ℕ) : ℝ) * (2 ^ (j - 64)) ^ 2 := by
    rw [hq, zpow_sub₀ two_ne_zero]
    push_cast
    rw [hval]
    norm_num
    ring
  have hsticky : stickySqrt m e = .fin false (2 * isqrt (m1 * 2 ^ 128) + (if isqrt (m1 * 2 ^ 128) * isqrt (m1 * 2 ^ 128) = m1 * 2 ^ 128
      then 0 else 1)) (j - 64 - 1) := by rw [hm1, hj]; rfl
  rw [hsticky]
  generalize isqrt (m1 * 2 ^ 128) = r at *
  have h := deliver_sqrt (whole := r * r = m1 * 2 ^ 128) (by exact_mod_cast hlo) (by exact_mod_cast hhi) (by norm_cast) hs
    (by nlinarith) (by nlinarith) (by omega) (by omega)
  obtain ⟨hfin, hv, hmid, b, hb, hb'⟩ := h
  refine ⟨⟨hfin, hv, fun y hy h0 => ?_⟩, ?_⟩
  · exact_mod_cast hmid y hy h0
  · rw [hb]
    congr 1
    rw [Bool.eq_iff_iff, hb', decide_eq_true_iff]
    norm_cast

/-- rsqrt of a positive number of f32. -/
theorem rsqrt_result {m : Nat} (hm : m ≠ 0) (hlt : m < 2 ^ 24) {e : Int} (he : -149 ≤ e) (he' : e ≤ 104) {q : ℚ} (hq : q = m * 2 ^ e) :
    let o := deliver fmtF32 .rne false (stickyRsqrt m e)
    let v := fvQ (fval fmtF32 o.1)
    (fvFin (fval fmtF32 o.1) = true ∧ 0 < v ∧
      ∀ y, OfPrecision fmtF32 true y → 0 ≤ y → let mid := (v + y) / 2
        (v < y → 1 ≤ q * mid ^ 2) ∧ (y < v → q * mid ^ 2 ≤ 1)) ∧
      o.2 = ⟨false, false, false, decide (q * v ^ 2 ≠ 1)⟩ := by
  obtain ⟨m1, j, hm1, hj, hpos, hlt1, hjlo, hjhi, hval⟩ := even_split hm hlt he he'
  obtain ⟨hlo, hhi⟩ := isqrt_spec (2 ^ 256 / m1)
  have hm0 : (0 : ℝ) < m1 := by exact_mod_cast hpos
  have hq0 : 0 < q := by rw [hq]; positivity
  have hs : ((1 / q : ℚ) : ℝ) = (2 ^ 256 / m1 : ℝ) * (2 ^ (-j - 128)) ^ 2 := by
    rw [hq, zpow_sub₀ two_ne_zero, zpow_neg]
    push_cast
    rw [hval]
    norm_num
    field_simp
    norm_num
  have hsticky : stickyRsqrt m e = .fin false (2 * isqrt (2 ^ 256 / m1) + (if isqrt (2 ^ 256 / m1) * isqrt (2 ^ 256 / m1) * m1 = 2 ^ 256
      then 0 else 1)) (-j - 128 - 1) := by rw [hm1, hj]; rfl
  have hdm := Nat.div_add_mod (2 ^ 256) m1
  have hmod := Nat.mod_lt (2 ^ 256) hpos
  rw [hsticky]
  generalize 2 ^ 256 / m1 = d at *
  generalize isqrt d = r at *
  have hprod : r * r * m1 ≤ 2 ^ 256 := (Nat.mul_le_mul_right m1 hlo).trans (by rw [mul_comm]; omega)
  have hrlo : (r : ℝ) * r ≤ 2 ^ 256 / m1 := by
    rw [le_div_iff₀ hm0]
    exact_mod_cast hprod
  have hrhi : (2 ^ 256 / m1 : ℝ) < (r + 1) * (r + 1) := by
    rw [div_lt_iff₀ hm0]
    exact_mod_cast (by nlinarith)
  have hrex : r * r * m1 = 2 ^ 256 ↔ (r : ℝ) * r = 2 ^ 256 / m1 := by
    rw [eq_div_iff hm0.ne']
    norm_cast
  have hr64 : 2 ^ 64 ≤ r := by
    by_contra hlt'
    have hd : d < 2 ^ 128 := by nlinarith
    have : m1 * d ≤ 2 ^ 25 * 2 ^ 128 := Nat.mul_le_mul hlt1.le hd.le
    omega
  have hr129 : r < 2 ^ 129 := by
    have : r * r ≤ 2 ^ 256 := (Nat.le_mul_of_pos_right _ hpos).trans hprod
    nlinarith
  obtain ⟨hfin, hv, hmid, b, hb, hb'⟩ := deliver_sqrt hrlo hrhi hrex hs hr64 hr129 (by omega) (by omega)
  refine ⟨⟨hfin, hv, fun y hy h0 => ?_⟩, ?_⟩
  · intro mid
    rw [mul_comm q, ← div_le_iff₀ hq0, ← le_div_iff₀ hq0]
    exact_mod_cast hmid y hy h0
  · rw [hb]
    congr 1
    rw [Bool.eq_iff_iff, hb', decide_eq_true_iff, mul_comm q, ne_eq _ (1 : ℚ), ← eq_div_iff hq0.ne']
    norm_cast

/-! ## exp2 and log2 -/

/-- A value that is a number of f32 is delivered as it is. -/
theorem deliver_f32_exact {v : FVal} (h : fvFin v = true) (hq : OfPrecision fmtF32 true (fvQ v))
    (hmax : |fvQ v| ≤ fvQ (fval fmtF32 (fmtMax fmtF32))) (rm : RMode) (sat : Bool) :
    let o := deliver fmtF32 rm sat v
    fvFin (fval fmtF32 o.1) = true ∧ fvQ (fval fmtF32 o.1) = fvQ v ∧ fvSign (fval fmtF32 o.1) = fvSign v ∧ o.2 = FlagSet.none := by
  obtain ⟨n, m, e, rfl⟩ := exists_of_fvFin h
  rcases Nat.eq_zero_or_pos m with rfl | hm
  · rw [deliver_zero, fvQ_fin_eq_zero.2 rfl]
    cases n <;> exact ⟨rfl, fvQ_fin_eq_zero.2 rfl, rfl, rfl⟩
  · exact (deliver_result (ieee_known (by decide)) rm sat n hm.ne' e).exact hq hmax

theorem fvQ_pow (k : ℤ) : fvQ (.fin false 1 k) = 2 ^ k := by simp [fvQ_fin, sgnQ]

theorem ofPrecision_pow {k : ℤ} (hk : -149 ≤ k) : OfPrecision fmtF32 true (fvQ (.fin false 1 k)) :=
  ⟨1, k, by decide, fun _ => hk, abs_fvQ_fin ..⟩

/-- A power of two of f32's range is delivered as it is. -/
theorem deliver_pow {k : ℤ} (hk : -149 ≤ k) (hk' : k ≤ 127) :
    let o := deliver fmtF32 .rne false (.fin false 1 k)
    fvQ (fval fmtF32 o.1) = 2 ^ k ∧ o.2 = FlagSet.none := by
  have hle : |fvQ (.fin false 1 k)| ≤ fvQ (fval fmtF32 (fmtMax fmtF32)) := by
    rw [fvQ_pow, fvQ_max_f32, abs_of_pos (by positivity)]
    exact (zpow_le_zpow_right₀ (by norm_num) hk').trans (by norm_num)
  obtain ⟨-, hval, -, hflags⟩ := deliver_f32_exact rfl (ofPrecision_pow hk) hle .rne false
  exact ⟨hval.trans (fvQ_pow k), hflags⟩

/-- A greater power of two overflows. -/
theorem deliver_pow_over {k : ℤ} (hk : 128 ≤ k) : deliver fmtF32 .rne false (.fin false 1 k) = (0x7F800000, flagOver) := by
  refine (deliver_result (ieee_known (by decide)) .rne false false one_ne_zero k).over (ofPrecision_pow (by omega)) ?_
  rw [fvQ_pow, fvQ_max_f32, abs_of_pos (by positivity)]
  exact lt_of_lt_of_le (by norm_num) (zpow_le_zpow_right₀ (by norm_num) hk)

/-- A number of f32 is exact in fixed point. -/
theorem fxOf_exact (n : Bool) (m : Nat) {e : Int} (he : -448 ≤ e) : ((fxOf n m e : ℤ) : ℚ) = fvQ (.fin n m e) * 2 ^ prec := by
  obtain ⟨d, hd⟩ : ∃ d : Nat, e + (prec : Int) = d := ⟨(e + 448).toNat, by simp only [prec]; omega⟩
  have hz : (2 : ℚ) ^ d = 2 ^ e * 2 ^ prec := by
    rw [← zpow_natCast, ← hd, zpow_add₀ two_ne_zero, zpow_natCast]
  have hpos : (0 : Int) ≤ e + (prec : Int) := by omega
  simp only [fxOf]
  rw [if_pos hpos, hd, Int.toNat_natCast, fvQ_fin]
  push_cast
  rw [hz]
  cases n <;> simp [sgnQ] <;> ring

theorem exp2Val_eq {bits : W32} {n n1 : Bool} {m m1 : Nat} {e e1 : Int} (h : clampDy 1024 n m e = (n1, m1, e1))
    (hx : (fxOf n1 m1 e1 % 2 ^ prec = 0 ∧ -149 ≤ fxOf n1 m1 e1 / 2 ^ prec) ∨ 128 ≤ fxOf n1 m1 e1 / 2 ^ prec) :
    exp2Val bits n m e = deliver fmtF32 .rne false (.fin false 1 (fxOf n1 m1 e1 / 2 ^ prec)) := by
  rw [exp2Val, h]
  dsimp only
  by_cases h1 : fxOf n1 m1 e1 % 2 ^ prec = 0 ∧ -149 ≤ fxOf n1 m1 e1 / 2 ^ prec
  · rw [if_pos h1]
  · rw [if_neg h1, if_pos (hx.resolve_left h1)]

theorem clampDy_small {n : Bool} {m : Nat} {e : Int} (h : |fvQ (.fin n m e)| ≤ 1024) : clampDy 1024 n m e = (n, m, e) := by
  rw [abs_fvQ_fin] at h
  rw [clampDy, if_neg]
  rw [dyLt_iff, not_lt]
  simpa using h

theorem clampDy_large {n : Bool} {m : Nat} {e : Int} (h : 1024 < |fvQ (.fin n m e)|) : clampDy 1024 n m e = (n, 1024, 0) := by
  rw [abs_fvQ_fin] at h
  rw [clampDy, if_pos]
  rw [dyLt_iff]
  simpa using h

/-- exp2 of an integer of the range is that power of two. -/
theorem exp2Val_int (bits : W32) {n : Bool} {m : Nat} {e : Int} (he : -448 ≤ e) {k : ℤ} (hq : fvQ (.fin n m e) = k) (hk : -149 ≤ k)
    (hk' : k ≤ 127) : exp2Val bits n m e = deliver fmtF32 .rne false (.fin false 1 k) := by
  have hx : fxOf n m e = k * 2 ^ prec := by
    have := fxOf_exact n m he
    rw [hq] at this
    exact_mod_cast this
  have hdiv : fxOf n m e / 2 ^ prec = k := by rw [hx, Int.mul_ediv_cancel _ (by positivity)]
  have hsmall : |fvQ (.fin n m e)| ≤ 1024 := by
    rw [hq]
    exact_mod_cast (abs_le.2 ⟨by omega, by omega⟩ : |k| ≤ 1024)
  rw [exp2Val_eq (clampDy_small hsmall) (.inl ⟨by rw [hx, Int.mul_emod_left], by rwa [hdiv]⟩), hdiv]

/-- exp2 of 128 and more overflows. -/
theorem exp2Val_over (bits : W32) {n : Bool} {m : Nat} {e : Int} (he : -448 ≤ e) (hq : 128 ≤ fvQ (.fin n m e)) :
    exp2Val bits n m e = (0x7F800000, flagOver) := by
  have hm : m ≠ 0 := fun h => by rw [fvQ_fin_eq_zero.2 h] at hq; norm_num at hq
  have hn : n = false := (decide_fvQ_neg hm e).symm.trans (decide_eq_false (by linarith))
  have key : ∀ (m1 : Nat) (e1 : Int), -448 ≤ e1 → 128 ≤ fvQ (.fin false m1 e1) → 128 ≤ fxOf false m1 e1 / 2 ^ prec := by
    intro m1 e1 he1 hq1
    have := fxOf_exact false m1 he1
    rw [Int.le_ediv_iff_mul_le (by positivity)]
    have hle : ((128 * 2 ^ prec : ℤ) : ℚ) ≤ (fxOf false m1 e1 : ℤ) := by
      rw [this]
      push_cast
      exact mul_le_mul_of_nonneg_right hq1 (by positivity)
    exact_mod_cast hle
  subst hn
  rcases le_or_gt |fvQ (.fin false m e)| 1024 with h | h
  · have hk := key m e he hq
    rw [exp2Val_eq (clampDy_small h) (.inr hk), deliver_pow_over hk]
  · have hk := key 1024 0 (by norm_num) (by norm_num [fvQ_fin, sgnQ])
    rw [exp2Val_eq (clampDy_large h) (.inr hk), deliver_pow_over hk]

/-- log2 of a power of two is its exponent. -/
theorem log2Val_pow (bits : W32) {m : Nat} (hm : m ≠ 0) (hlt : m < 2 ^ 24) {e : Int} (he : -149 ≤ e) (he' : e ≤ 104) {k : ℤ}
    (hq : (m : ℚ) * 2 ^ e = 2 ^ k) :
    let o := log2Val bits m e
    fvFin (fval fmtF32 o.1) = true ∧ fvQ (fval fmtF32 o.1) = k ∧ fvSign (fval fmtF32 o.1) = decide (k < 0) ∧ o.2 = FlagSet.none := by
  have hmz : (m : ℚ) = 2 ^ (k - e) := by
    rw [zpow_sub₀ two_ne_zero, ← hq, mul_div_cancel_right₀ _ (by positivity)]
  have hke : 0 ≤ k - e := by
    by_contra h
    have h1 : (2 : ℚ) ^ (k - e) < 1 := zpow_lt_one_of_neg₀ (by norm_num) (by omega)
    have h2 : (1 : ℚ) ≤ m := by exact_mod_cast Nat.one_le_iff_ne_zero.2 hm
    linarith
  obtain ⟨j, hj⟩ := Int.eq_ofNat_of_zero_le hke
  obtain rfl : m = 2 ^ j := by
    rw [hj] at hmz
    exact_mod_cast hmz
  have hj24 : j < 24 := (Nat.pow_lt_pow_iff_right (by norm_num)).1 hlt
  have hlen : bitLen (2 ^ j) = j + 1 := by rw [bitLen, if_neg hm, Nat.log2_two_pow]
  have hlog : log2Val bits (2 ^ j) e = deliver fmtF32 .rne false (ofInt k) := by
    simp only [log2Val, hlen, Nat.add_sub_cancel, if_true]
    congr 2
    push_cast
    omega
  have habs : |k| ≤ 149 := abs_le.2 ⟨by omega, by omega⟩
  rw [hlog]
  have hres := deliver_f32_exact (v := ofInt k) rfl ⟨k.natAbs, 0, ?_, fun _ => by decide, by rw [ofInt, abs_fvQ_fin]⟩ ?_ .rne false
  · rwa [fvQ_ofInt] at hres
  · simp only [fmtF32]
    omega
  · rw [fvQ_ofInt, fvQ_max_f32]
    have : ((|k| : ℤ) : ℚ) ≤ (149 : ℤ) := by exact_mod_cast habs
    push_cast at this
    linarith

/-! ## sinpi and cospi -/

/-- A magnitude that is `j` halves, in fixed point. -/
theorem fxOf_halves {n : Bool} {m : Nat} {e : Int} (he : -448 ≤ e) {j : ℤ} (h : 2 * |fvQ (.fin n m e)| = j) :
    2 * fxOf false m e = j * 2 ^ prec := by
  have hx := fxOf_exact false m he
  rw [show fvQ (.fin false m e) = |fvQ (.fin n m e)| by rw [abs_fvQ_fin, fvQ_fin, sgnQ]; simp] at hx
  have : ((2 * fxOf false m e : ℤ) : ℚ) = ((j * 2 ^ prec : ℤ) : ℚ) := by
    push_cast
    rw [hx, ← h]
    ring
  exact_mod_cast this

/-- sinpi of an integer is a zero. -/
theorem sinPi_int {n : Bool} {m : Nat} {e : Int} (he : -448 ≤ e) {k : ℤ} (hq : fvQ (.fin n m e) = k) : sinPi n m e = (.fin n 0 0, true) := by
  have hx : 1 ≤ e ∨ fxOf false m e = |k| * 2 ^ prec := by
    refine .inr ?_
    have := fxOf_halves he (j := 2 * |k|) (by rw [hq]; push_cast; rfl)
    linarith
  have hh : (0 : ℤ) < 2 ^ prec := by positivity
  unfold sinPi
  generalize (2 : ℤ) ^ prec = h at *
  obtain ⟨x, hx', hx01⟩ : ∃ x, (if 1 ≤ e then 0 else fxOf false m e % (2 * h)) = x ∧ (x = 0 ∨ x = h) := by
    refine ⟨_, rfl, ?_⟩
    split_ifs with h1
    · exact .inl rfl
    · rw [hx.resolve_left h1, mul_comm 2 h, mul_comm |k| h, Int.mul_emod_mul_of_pos _ _ hh]
      rcases Int.emod_two_eq |k| with h0 | h0 <;> rw [h0]
      · exact .inl (mul_zero h)
      · exact .inr (mul_one h)
  simp only [hx']
  rcases hx01 with rfl | rfl
  · simp [hh.le, hh.not_ge]
  · simp [hh.le]

/-- cospi halfway between integers is a zero. -/
theorem cosPi_half {n : Bool} {m : Nat} {e : Int} (he : -448 ≤ e) {k : ℤ} (hq : fvQ (.fin n m e) = k + 1 / 2) :
    cosPi m e = (.fin false 0 0, true) := by
  obtain ⟨j, hj⟩ : ∃ j : ℤ, 2 * |fvQ (.fin n m e)| = (2 * j + 1 : ℤ) := by
    rw [hq]
    rcases le_or_gt 0 k with h | h
    · refine ⟨k, ?_⟩
      have : (0 : ℚ) ≤ k := by exact_mod_cast h
      rw [abs_of_pos (by linarith)]
      push_cast
      ring
    · refine ⟨-k - 1, ?_⟩
      have : (k : ℚ) ≤ -1 := by exact_mod_cast Int.le_sub_one_of_lt h
      rw [abs_of_neg (by linarith)]
      push_cast
      ring
  have hx := fxOf_halves he hj
  have he1 : ¬ 1 ≤ e := by
    intro h1
    obtain ⟨d, rfl⟩ : ∃ d : Nat, e = d + 1 := ⟨(e - 1).toNat, by omega⟩
    rw [abs_fvQ_fin, zpow_add_one₀ two_ne_zero, zpow_natCast] at hj
    have : ((2 * (m * (2 ^ d * 2)) : ℕ) : ℤ) = 2 * j + 1 := by exact_mod_cast hj
    push_cast at this
    omega
  have hp : (2 : ℤ) ^ prec = 2 * 2 ^ 447 := (pow_succ' 2 447)
  have hh : (0 : ℤ) < 2 ^ 447 := by positivity
  unfold cosPi
  rw [hp] at hx ⊢
  generalize (2 : ℤ) ^ 447 = h at hx hh ⊢
  obtain ⟨x, hx', hx13⟩ : ∃ x, fxOf false m e % (2 * (2 * h)) = x ∧ (x = h ∨ x = 3 * h) := by
    refine ⟨_, rfl, ?_⟩
    rw [show fxOf false m e = h * (2 * j + 1) by linarith, show 2 * (2 * h) = h * 4 by ring, Int.mul_emod_mul_of_pos _ _ hh]
    rcases Int.emod_two_eq j with h0 | h0
    · exact .inl (by rw [show (2 * j + 1) % 4 = 1 by omega, mul_one])
    · exact .inr (by rw [show (2 * j + 1) % 4 = 3 by omega, mul_comm])
  have hw : (if 2 * h < x then 2 * (2 * h) - x else x) = h := by split_ifs <;> omega
  simp only [he1, if_false, hx', hw, if_true]

/-! ## FSF (R113) -/

theorem fsfVal_nan {bits : W32} {s : Bool} (hx : fval fmtF32 bits.toNat = .nan s) (fn : FsfFn) : fsfVal fn bits = (0x7FC00000, flagNv s) := by
  rw [fsfVal, hx]
  rfl

/-- What FSF makes of an infinity. -/
theorem fsfVal_inf {bits : W32} {n : Bool} (hx : fval fmtF32 bits.toNat = .inf n) (fn : FsfFn) :
    let gives := fun (n : Bool) (mag : Nat) => fsfVal fn bits = (fmtSigned fmtF32 n mag, FlagSet.none)
    let invalid := fsfVal fn bits = (0x7FC00000, flagNv true)
    match fn with
    | .rcp => gives n 0
    | .rsqrt => if n then invalid else gives false 0
    | .sqrt | .log2 => if n then invalid else gives false 0x7F800000
    | .exp2 => gives false (if n then 0 else 0x7F800000)
    | .sinpi | .cospi => invalid
    | .tanh => gives n 0x3F800000
    | .sigm => gives false (if n then 0 else 0x3F800000) := by
  cases fn <;> simp only [fsfVal, hx] <;> cases n <;> rfl

/-- The mantissa and the exponent of a finite f32. -/
theorem f32_bounds {a : Nat} {n : Bool} {m : Nat} {e : Int} (hx : fval fmtF32 a = .fin n m e) : m < 2 ^ 24 ∧ -149 ≤ e ∧ e ≤ 104 := by
  obtain ⟨he, hm, -, htop⟩ := fval_fin_bounds hx
  have hmin : fmtEmin fmtF32 = -149 := rfl
  rw [hmin] at he htop
  refine ⟨hm, he, ?_⟩
  have : e = -149 ∨ e + 3 ≤ -149 + 256 := htop rfl
  omega

/-- A nonzero operand is negative, or its mantissa and exponent are its worth. -/
theorem neg_or_pos_operand (n : Bool) {m : Nat} (hm : m ≠ 0) (e : Int) :
    (n = true ∧ fvQ (.fin n m e) < 0) ∨ (n = false ∧ ¬ fvQ (.fin n m e) < 0 ∧ fvQ (.fin n m e) = m * 2 ^ e) := by
  have hsign := decide_fvQ_neg (n := n) hm e
  cases n
  · exact .inr ⟨rfl, of_decide_eq_false hsign, by rw [fvQ_fin]; exact one_mul _⟩
  · exact .inl ⟨rfl, of_decide_eq_true hsign⟩

section
variable {bits : W32} (h : fvFin (fval fmtF32 bits.toNat) = true)
include h

theorem fsfVal_rcp :
    let x := fval fmtF32 bits.toNat
    if fvQ x = 0 then fsfVal .rcp bits = (fmtSigned fmtF32 (fvSign x) 0x7F800000, FlagSet.none)
    else FloatResult fmtF32 .rne false false (fvSign x) (1 / fvQ x) (fsfVal .rcp bits) := by
  obtain ⟨n, m, e, hx⟩ := exists_of_fvFin h
  simp only [fsfVal, hx, fvQ_fin_eq_zero]
  split_ifs with hm
  · rfl
  · exact rcp_result n hm e

/-- FSF's rsqrt: the nearest number to the root of the reciprocal. -/
theorem fsfVal_rsqrt :
    let x := fval fmtF32 bits.toNat
    let o := fsfVal .rsqrt bits
    let v := fvQ (fval fmtF32 o.1)
    if fvQ x = 0 then o = (fmtSigned fmtF32 (fvSign x) 0x7F800000, FlagSet.none)
    else if fvQ x < 0 then o = (0x7FC00000, flagNv true)
    else (fvFin (fval fmtF32 o.1) = true ∧ 0 < v ∧ ∀ y, OfPrecision fmtF32 true y → 0 ≤ y → let mid := (v + y) / 2
        (v < y → 1 ≤ fvQ x * mid ^ 2) ∧ (y < v → fvQ x * mid ^ 2 ≤ 1)) ∧
      o.2 = ⟨false, false, false, decide (fvQ x * v ^ 2 ≠ 1)⟩ := by
  obtain ⟨n, m, e, hx⟩ := exists_of_fvFin h
  obtain ⟨hlt, he, he'⟩ := f32_bounds hx
  simp only [fsfVal, hx, fvQ_fin_eq_zero]
  by_cases hm : m = 0
  · simp only [hm, if_true]
    rfl
  · rcases neg_or_pos_operand n hm e with ⟨rfl, hneg⟩ | ⟨rfl, hneg, hq⟩
    · simp only [hm, hneg, if_true, if_false]
      rfl
    · simp only [hm, hneg, if_false, Bool.false_eq_true]
      exact rsqrt_result hm hlt he he' hq

/-- FSF's sqrt: the nearest number to the root. -/
theorem fsfVal_sqrt :
    let x := fval fmtF32 bits.toNat
    let o := fsfVal .sqrt bits
    let v := fvQ (fval fmtF32 o.1)
    if fvQ x = 0 then o = (fmtSigned fmtF32 (fvSign x) 0, FlagSet.none)
    else if fvQ x < 0 then o = (0x7FC00000, flagNv true)
    else (fvFin (fval fmtF32 o.1) = true ∧ 0 < v ∧ ∀ y, OfPrecision fmtF32 true y → 0 ≤ y → let mid := (v + y) / 2
        (v < y → fvQ x ≤ mid ^ 2) ∧ (y < v → mid ^ 2 ≤ fvQ x)) ∧
      o.2 = ⟨false, false, false, decide (v ^ 2 ≠ fvQ x)⟩ := by
  obtain ⟨n, m, e, hx⟩ := exists_of_fvFin h
  obtain ⟨hlt, he, he'⟩ := f32_bounds hx
  simp only [fsfVal, hx, fvQ_fin_eq_zero]
  by_cases hm : m = 0
  · simp only [hm, if_true]
    rfl
  · rcases neg_or_pos_operand n hm e with ⟨rfl, hneg⟩ | ⟨rfl, hneg, hq⟩
    · simp only [hm, hneg, if_true, if_false]
      rfl
    · simp only [hm, hneg, if_false, Bool.false_eq_true]
      exact sqrt_result hm hlt he he' hq

theorem fsfVal_exp2 :
    let q := fvQ (fval fmtF32 bits.toNat)
    let o := fsfVal .exp2 bits
    (128 ≤ q → o = (0x7F800000, flagOver)) ∧
      ∀ k : ℤ, q = k → -149 ≤ k → k ≤ 127 → fvQ (fval fmtF32 o.1) = 2 ^ k ∧ o.2 = FlagSet.none := by
  obtain ⟨n, m, e, hx⟩ := exists_of_fvFin h
  obtain ⟨-, he, -⟩ := f32_bounds hx
  simp only [fsfVal, hx]
  refine ⟨fun hq => exp2Val_over bits (by omega) hq, fun k hq hk hk' => ?_⟩
  rw [exp2Val_int bits (by omega) hq hk hk']
  exact deliver_pow hk hk'

theorem fsfVal_log2 :
    let q := fvQ (fval fmtF32 bits.toNat)
    let o := fsfVal .log2 bits
    if q = 0 then o = (fmtSigned fmtF32 true 0x7F800000, FlagSet.none) else if q < 0 then o = (0x7FC00000, flagNv true)
    else ∀ k : ℤ, q = 2 ^ k → fvFin (fval fmtF32 o.1) = true ∧ fvQ (fval fmtF32 o.1) = k ∧
      fvSign (fval fmtF32 o.1) = decide (k < 0) ∧ o.2 = FlagSet.none := by
  obtain ⟨n, m, e, hx⟩ := exists_of_fvFin h
  obtain ⟨hlt, he, he'⟩ := f32_bounds hx
  simp only [fsfVal, hx, fvQ_fin_eq_zero]
  by_cases hm : m = 0
  · simp only [hm, if_true]
    rfl
  · rcases neg_or_pos_operand n hm e with ⟨rfl, hneg⟩ | ⟨rfl, hneg, hq⟩
    · simp only [hm, hneg, if_true, if_false]
      rfl
    · simp only [hm, hneg, if_false, Bool.false_eq_true]
      exact fun k hk => log2Val_pow bits hm hlt he he' (hq ▸ hk)

theorem fsfVal_sinpi :
    let x := fval fmtF32 bits.toNat
    (fvQ x = 0 → fsfVal .sinpi bits = (fmtSigned fmtF32 (fvSign x) 0, FlagSet.none)) ∧
      ∀ k : ℤ, fvQ x = k → k ≠ 0 → fsfVal .sinpi bits = (fmtSigned fmtF32 (decide (k < 0)) 0, FlagSet.none) := by
  obtain ⟨n, m, e, hx⟩ := exists_of_fvFin h
  obtain ⟨-, he, -⟩ := f32_bounds hx
  simp only [fsfVal, hx, fvQ_fin_eq_zero]
  refine ⟨fun hm => by rw [if_pos hm]; rfl, fun k hq hk => ?_⟩
  have hm : m ≠ 0 := fun hm => by
    rw [fvQ_fin_eq_zero.2 hm] at hq
    exact hk (by exact_mod_cast hq.symm)
  have hsign : n = decide (k < 0) := by
    rw [← decide_fvQ_neg (n := n) hm e, hq]
    norm_cast
  rw [if_neg hm, sinPi_int (by omega) hq, ← hsign]
  rfl

theorem fsfVal_cospi (k : ℤ) (hq : fvQ (fval fmtF32 bits.toNat) = k + 1 / 2) :
    fsfVal .cospi bits = (fmtSigned fmtF32 false 0, FlagSet.none) := by
  obtain ⟨n, m, e, hx⟩ := exists_of_fvFin h
  obtain ⟨-, he, -⟩ := f32_bounds hx
  rw [hx] at hq
  simp only [fsfVal, hx]
  rw [cosPi_half (by omega) hq]
  rfl

theorem fsfVal_tanh (hq : fvQ (fval fmtF32 bits.toNat) = 0) :
    fsfVal .tanh bits = (fmtSigned fmtF32 (fvSign (fval fmtF32 bits.toNat)) 0, FlagSet.none) := by
  obtain ⟨n, m, e, hx⟩ := exists_of_fvFin h
  rw [hx, fvQ_fin_eq_zero] at hq
  simp only [fsfVal, hx, hq, if_true]
  rfl

end

/-! ## The tables of FCMP and CVT, and concrete values -/

theorem fmt_constants : allFmts.map fmtMax = [0x7F7FFFFF, 0x7BFF, 0x7F7F, 0x7B, 0x7E, 0x1F, 0x1F] ∧
    (allFmts.take 5).map fmtNan = [0x7FC00000, 0x7E00, 0x7FC0, 0x7E, 0x7F] ∧
    (allFmts.take 4).map fmtInf = [0x7F800000, 0x7C00, 0x7F80, 0x7C] := by decide

/-- Overflow and rounding of conversions at the ends of f16 and E4M3 (R67, R69). -/
theorem conversion_examples :
    let whole := fun (i : Nat) => FVal.fin false i 0
    let nx : FlagSet := ⟨false, false, false, true⟩
    convF fmtF16 .rne (whole 65519) = (0x7BFF, nx) ∧ convF fmtF16 .rz (whole 65519) = (0x7BFF, nx) ∧
    convF fmtF16 .ru (whole 65519) = (0x7BFF, flagOver) ∧ convF fmtE4m3 .rne (whole 460) = (0x7E, nx) ∧
    convF fmtE4m3 .rne (whole 470) = (0x7E, flagOver) := by decide +kernel

/-- Settles O10, clause by clause: what bits are worth, exact sums and products, one rounding, and the tables; the roots and the quotient are
rounded through the sticky mantissa that stands for them. -/
theorem floatValues : Obligations.FloatValues := by
  refine ⟨fun f hf n _ => fval_values hf n, fmt_constants, fun rm n1 m1 e1 n2 m2 e2 n3 m3 e3 => arithmetic_values rm n1 m1 e1 n2 m2 e2 n3 m3 e3,
    fun f hf rm => ⟨fun sat n m e hm => ⟨fun _ => deliver_result (knownFmt_of_mem hf) rm sat n hm e, convF_result (knownFmt_of_mem hf) rm n hm e⟩,
      fun sat n e s => ⟨convF_zero f rm n e, convF_inf f rm n, convF_nan f rm s, fun _ => ⟨deliver_zero f rm sat n e, rfl, rfl⟩⟩⟩,
    conversion_examples, fun rm lo hi _ _ => ⟨fun n m e => convI_fin rm lo hi n m e, fun n s => ⟨rfl, rfl⟩⟩, ?fmnx,
    ⟨by decide, fOrder_values⟩, fun f _ a _ => fclsBit_values f a, ?cvtTable, fun rm sat a _ => cvtVal_values rm sat a, packVal_values, ?dp4,
    by decide, ?fsf, matrix_values, ?mx6, fun u _ => o4Unit_values u, scaleVal_e8m0⟩
  case fmnx =>
    intro f hf mx nan a b ha hb x y o
    by_cases h : isNan x = true ∨ isNan y = true
    · rw [if_pos h]
      exact fmnxVal_nan mx nan f h
    · rw [if_neg h]
      rw [not_or, Bool.not_eq_true, Bool.not_eq_true] at h
      exact fmnxVal_values mx nan ha hb h.1 h.2
  case cvtTable => exact ⟨by decide, by decide, by decide, by decide, by decide, by decide, by decide⟩
  case dp4 =>
    exact fun d a b => ⟨fun sa sb sat => dp4Val_int sa sb sat d a b, fun ea eb => deliver_fvSum _⟩
  case fsf =>
    intro fn bits
    refine ⟨fun s hx => fsfVal_nan hx fn, fun n hx => fsfVal_inf hx fn, fun h => ?_⟩
    cases fn with
    | rcp => exact fsfVal_rcp h
    | rsqrt => exact fsfVal_rsqrt h
    | sqrt => exact fsfVal_sqrt h
    | exp2 => exact fsfVal_exp2 h
    | log2 => exact fsfVal_log2 h
    | sinpi => exact fsfVal_sinpi h
    | cospi => exact fsfVal_cospi h
    | tanh => exact fsfVal_tanh h
    | sigm => trivial
  case mx6 =>
    intro src hs dst hd scale el _ _
    exact mx6Expand_values hs ((by decide : ∀ g ∈ [fmtE4m3, fmtBf16], g ∈ allFmts) dst hd) scale el

end Sys2Proof.Machine

namespace Sys2Proof.Machine

/-! # Vector integer instructions (O2, O4-O7) -/

/-! ## Instructions that leave one result in each lane -/

theorem accFits_noUniform {t : Team} {a : Access} (hf : Fits t (a.rv ++ a.wv)) (hk : a.rk ++ a.wk = []) : AccFits t a :=
  ⟨hf, by simp [hk]⟩

theorem accFits_oneUniform {t : Team} {a : Access} {k : KReg} (hk : k.toNat ≤ 383) (hf : Fits t (a.rv ++ a.wv))
    (hu : a.rk ++ a.wk = [(k.toNat, 1)]) : AccFits t a :=
  ⟨hf, by simp only [hu, List.mem_singleton, forall_eq]; omega⟩

theorem ef_lt {s : State} {u : Nat} {t : Team} (h : Issuing s u t) {a : Access} (ha : AccFits t a) {d : VReg} (hd : v1 d ∈ a.wv) :
    ef t d < 128 := by
  have := h.allotted
  have := (ha.vec _ (List.mem_append_right _ hd)).1
  simp only [v1, ef] at *
  omega

theorem ef_pair_lt {s : State} {u : Nat} {t : Team} (h : Issuing s u t) {a : Access} (ha : AccFits t a) {d : VReg} (hd : v2 d ∈ a.wv) :
    ef t d + 1 < 128 := by
  have := h.allotted
  have := (ha.vec _ (List.mem_append_right _ hd)).1
  simp only [v2, ef] at *
  omega

theorem lregs_congr {r : Nat} {v w : W32} (h : v = w) : lregs [(r, v)] = lregs [(r, w)] := by rw [h]

section
variable {c : Instr} {s : State} {u : Nat} {t : Team} {a : Access} {f : Team → Nat → LaneOut} {g : Option (Team → Nat → ILane)}

/-- A vector instruction of fixed latency with a 32-bit result. -/
theorem laneOp_done (h : Issuing s u t) (hc : exec c s = vecOp a f g s) (ha : AccFits t a) {d : VReg} (hd : v1 d ∈ a.wv)
    (hv : a.vector = true) {val : Nat → W32} (hf : ∀ i, f (latch s t a) i = lregs [(ef t d, val i)]) :
    LaneDone c s u t (ef t d) val := by
  have hdone := vecOp_done h ha hv hc hf fun i _ => outOk_one (ef_lt h ha hd) (val i)
  rwa [flagAll_none] at hdone

/-- A vector instruction of fixed latency with a 64-bit result. -/
theorem pairOp_done (h : Issuing s u t) (hc : exec c s = vecOp a f g s) (ha : AccFits t a) {d : VReg} (hd : v2 d ∈ a.wv)
    (hv : a.vector = true) {val : Nat → Nat} (hf : ∀ i, f (latch s t a) i = lregs (pairOut (ef t d) (val i))) :
    PairDone c s u t (ef t d) val := by
  have hdone := vecOp_done h ha hv hc hf fun i _ => outOk_pair (ef_pair_lt h ha hd) (val i)
  rwa [flagAll_none] at hdone

/-- A vector instruction of fixed latency with a predicate. -/
theorem predOp_done (h : Issuing s u t) (hc : exec c s = vecOp a f g s) (ha : AccFits t a) (hv : a.vector = true) {p : PReg}
    {val : Nat → Bool} (hf : ∀ i, f (latch s t a) i = ⟨[], [(p.toNat, val i)], FlagSet.none⟩) : PredDone c s u t p val := by
  have hdone := vecOp_done h ha hv hc hf fun i _ => ⟨by simp, by simp, by simp, by simpa using p.isLt⟩
  rwa [flagAll_none] at hdone

end

/-! ## Products (R88) -/

/-- Only the low 64 bits of a value go to a pair. -/
theorem pairOut_mod (r v : Nat) : pairOut r (v % 2 ^ 64) = pairOut r v := by
  have h0 : BitVec.ofNat 32 (v % 2 ^ 64) = BitVec.ofNat 32 v := by
    apply BitVec.eq_of_toNat_eq; simp only [BitVec.toNat_ofNat]; omega
  have h1 : BitVec.ofNat 32 (v % 2 ^ 64 / 2 ^ 32) = BitVec.ofNat 32 (v / 2 ^ 32) := by
    apply BitVec.eq_of_toNat_eq; simp only [BitVec.toNat_ofNat]; omega
  rw [pairOut, h0, h1, pairOut]

theorem mulExact_signed {v : MulVar} (h : v ≠ .hiN32 ∧ v ≠ .wideN32) (x y : W32) :
    mulExact v x.toNat y.toNat = x.toInt * y.toInt := by
  have hs (z : W32) : toSigned 32 z.toNat = z.toInt := elemVal_signed (by decide) z
  cases v <;> simp_all [mulExact]

theorem mulOut_lo (r n : Nat) (x y : W32) : mulOut .lo r (mulExact .lo x.toNat y.toNat) n = [(r, x * y + BitVec.ofNat 32 n)] := by
  rw [mulExact_signed (by decide), mulOut, BitVec.ofNat_add, ofNat_wrapNat, BitVec.ofInt_mul, BitVec.ofInt_toInt, BitVec.ofInt_toInt]

theorem mulOut_hiI32 (r n : Nat) (x y : W32) : mulOut .hiI32 r (mulExact .hiI32 x.toNat y.toNat) n =
    [(r, BitVec.ofInt 32 (x.toInt * y.toInt / 2 ^ 32) + BitVec.ofNat 32 n)] := by
  rw [mulExact_signed (by decide), mulOut, BitVec.ofNat_add, ofNat_wrapNat]

theorem mulOut_hiN32 (r n : Nat) (x y : W32) : mulOut .hiN32 r (mulExact .hiN32 x.toNat y.toNat) n =
    [(r, BitVec.ofNat 32 (x.toNat * y.toNat / 2 ^ 32) + BitVec.ofNat 32 n)] := by
  have h : mulExact .hiN32 x.toNat y.toNat / 2 ^ 32 = ((x.toNat * y.toNat / 2 ^ 32 : Nat) : Int) := by
    push_cast [mulExact]; rfl
  rw [mulOut, h, BitVec.ofNat_add, ofNat_wrapNat, BitVec.ofInt_natCast]

theorem mulOut_wideI32 (r n : Nat) (x y : W32) : mulOut .wideI32 r (mulExact .wideI32 x.toNat y.toNat) n =
    pairOut r ((BitVec.ofInt 64 (x.toInt * y.toInt)).toNat + n) := by
  rw [mulExact_signed (by decide), mulOut, pairOut_mod, wrapNat_eq]

theorem mulOut_wideN32 (r n : Nat) (x y : W32) : mulOut .wideN32 r (mulExact .wideN32 x.toNat y.toNat) n =
    pairOut r (x.toNat * y.toNat + n) := by
  have hlt : x.toNat * y.toNat < 2 ^ 64 := (Nat.mul_lt_mul'' x.isLt y.isLt).trans_eq (by norm_num)
  have h : wrapNat 64 (mulExact .wideN32 x.toNat y.toNat) = x.toNat * y.toNat := by
    rw [mulExact, ← Nat.cast_mul, wrapNat_eq, BitVec.ofInt_natCast, BitVec.toNat_ofNat, Nat.mod_eq_of_lt hlt]
  rw [mulOut, pairOut_mod, h]

section
variable {s : State} {u : Nat} {t : Team} {v : MulVar} {d a b : VReg}

/-- IMUL and IMAD of a variant with a 32-bit result differ by their addend. -/
theorem multiply_lane (h : Issuing s u t) (hw : mulWide v = false) (hf : Fits t [v1 a, v1 b, v1 d]) {val : Nat → W32}
    (hv : ∀ i n, mulOut v (ef t d) (mulExact v (vnat t i a) (vnat t i b)) n = [(ef t d, val i + BitVec.ofNat 32 n)]) :
    LaneDone (.imul v d a b) s u t (ef t d) val ∧
      LaneDone (.imad v d a b) s u t (ef t d) fun i => val i + vreg t i (ef t d) := by
  have hm : vMul v d = v1 d := by simp [vMul, hw]
  constructor
  · refine laneOp_done h rfl (accFits_noUniform ?_ rfl) ?_ rfl fun i => congrArg lregs ?_
    · simpa [hm] using hf
    · simp [hm]
    · exact (hv i 0).trans (by simp)
  · refine laneOp_done h rfl (accFits_noUniform ?_ rfl) ?_ rfl fun i => congrArg lregs ?_
    · simpa [hm, Fits] using hf
    · simp [hm]
    · simp only [hw, Bool.false_eq_true, if_false]
      exact (hv i (vnat t i d)).trans (by simp [vnat])

/-- IMUL and IMAD of a variant with a 64-bit result differ by their addend. -/
theorem multiply_pair (h : Issuing s u t) (hw : mulWide v = true) (hf : Fits t [v1 a, v1 b, v2 d]) {val : Nat → Nat}
    (hv : ∀ i n, mulOut v (ef t d) (mulExact v (vnat t i a) (vnat t i b)) n = pairOut (ef t d) (val i + n)) :
    PairDone (.imul v d a b) s u t (ef t d) val ∧
      PairDone (.imad v d a b) s u t (ef t d) fun i => val i + vnat64 t i d := by
  have hm : vMul v d = v2 d := by simp [vMul, hw]
  constructor
  · refine pairOp_done h rfl (accFits_noUniform ?_ rfl) ?_ rfl fun i => congrArg lregs ?_
    · simpa [hm] using hf
    · simp [hm]
    · exact hv i 0
  · refine pairOp_done h rfl (accFits_noUniform ?_ rfl) ?_ rfl fun i => congrArg lregs ?_
    · simpa [hm, Fits] using hf
    · simp [hm]
    · simp only [hw, if_true]
      exact hv i (vnat64 t i d)

end

/-- Settles O2, from what each variant writes of the exact product and an addend. -/
theorem multiplyFormsWriteTheirProduct : Obligations.MultiplyFormsWriteTheirProduct := by
  intro s u t h d a b
  refine ⟨fun hf => ?_, fun hf => ?_⟩
  · obtain ⟨mulLo, madLo⟩ := multiply_lane h rfl hf fun i n => mulOut_lo ..
    obtain ⟨mulHiS, madHiS⟩ := multiply_lane h rfl hf fun i n => mulOut_hiI32 ..
    obtain ⟨mulHiU, madHiU⟩ := multiply_lane h rfl hf fun i n => mulOut_hiN32 ..
    exact ⟨mulLo, mulHiS, mulHiU, madLo, madHiS, madHiU⟩
  · obtain ⟨mulS, madS⟩ := multiply_pair h rfl hf fun i n => mulOut_wideI32 ..
    obtain ⟨mulU, madU⟩ := multiply_pair h rfl hf fun i n => mulOut_wideN32 ..
    exact ⟨mulS, mulU, madS, madU⟩

/-! ## Numbers put together from bits and elements (R54) -/

theorem field_one (n j : Nat) : field n j 1 = (n.testBit j).toNat := by rw [field_eq, pow_one, Nat.toNat_testBit]

theorem toNat_extract {w : Nat} (x : BitVec w) (lo len : Nat) : (x.extractLsb' lo len).toNat = field x.toNat lo len :=
  BitVec.extractLsb'_toNat ..

theorem foldl_add_eq_sum (f : Nat → Nat) (n : Nat) : (List.range n).foldl (fun c j => c + f j) 0 = ∑ j ∈ Finset.range n, f j := by
  induction n with
  | zero => rfl
  | succ n ih => rw [List.range_succ, List.foldl_append, ih, Finset.sum_range_succ]; rfl

theorem packed_fst (w : Nat) (g : Nat → Nat × Bool) (n : Nat) : (packed w g n).1 = ∑ k ∈ Finset.range n, (g k).1 * 2 ^ (w * k) := by
  induction n with
  | zero => rfl
  | succ n ih => rw [packed_succ, ih, Finset.sum_range_succ]

theorem field_sum {w : Nat} {g : Nat → Nat} (h : ∀ j, g j < 2 ^ w) {n j : Nat} (hj : j < n) :
    field (∑ k ∈ Finset.range n, g k * 2 ^ (w * k)) (w * j) w = g j := by
  have hp := field_packed (g := fun j => (g j, false)) h hj
  rwa [packed_fst] at hp

/-- A bit of a sum of bits. -/
theorem getLsbD_sum (g : Nat → Bool) {w j : Nat} (hj : j < w) :
    (BitVec.ofNat w (∑ k ∈ Finset.range w, (g k).toNat * 2 ^ k)).getLsbD j = g j := by
  have hf := field_sum (w := 1) (g := fun k => (g k).toNat) (fun k => Bool.toNat_lt (g k)) hj
  simp only [one_mul, field_one] at hf
  rw [BitVec.getLsbD_ofNat, decide_eq_true hj, Bool.true_and]
  exact (by decide : ∀ p q : Bool, p.toNat = q.toNat → p = q) _ _ hf

/-! ## LOP and LOPI (R90, R91) -/

theorem lopBits_eq_sum (tt a b : Nat) : lopBits tt a b =
    ∑ j ∈ Finset.range 32, (tt.testBit (2 * (a.testBit j).toNat + (b.testBit j).toNat)).toNat * 2 ^ j := by
  rw [← foldl_add_eq_sum, lopBits]
  congr 1
  funext acc j
  rw [bitAt_eq_testBit, field_one, field_one]
  split_ifs with h <;> simp [h]

theorem getLsbD_lopBits (tt : BitVec 4) (x y : W32) {j : Nat} (hj : j < 32) :
    (BitVec.ofNat 32 (lopBits tt.toNat x.toNat y.toNat)).getLsbD j =
      tt.getLsbD (2 * (x.getLsbD j).toNat + (y.getLsbD j).toNat) := by
  rw [lopBits_eq_sum, getLsbD_sum _ hj]
  simp only [BitVec.testBit_toNat]

theorem ofNat_lopiVal (op : LopiOp) (x c : W32) : BitVec.ofNat 32 (lopiVal op x.toNat c.toNat) =
    match op with
    | .and => x &&& c
    | .or => x ||| c
    | .xor => x ^^^ c
    | .andn => x &&& ~~~c := by
  cases op
  case andn =>
    rw [lopiVal, show 2 ^ 32 - 1 - c.toNat = (~~~c).toNat from BitVec.toNat_not.symm, ← BitVec.toNat_and, BitVec.ofNat_toNat,
      BitVec.setWidth_eq]
  all_goals simp [lopiVal, BitVec.ofNat_and, BitVec.ofNat_or, BitVec.ofNat_xor]

/-! ## Shifts (R92) -/

theorem ofNat_shl (x : W32) (n : Nat) : BitVec.ofNat 32 (shiftBits .shl x.toNat n) = x <<< n := by
  apply BitVec.eq_of_toNat_eq
  rw [shiftBits, BitVec.toNat_ofNat, BitVec.toNat_shiftLeft, Nat.shiftLeft_eq, Nat.mod_mod]
  rcases Nat.le_total n 32 with hn | hn
  · rw [Nat.min_eq_left hn]
  · obtain ⟨k, rfl⟩ := Nat.exists_eq_add_of_le' hn
    rw [Nat.min_eq_right hn, pow_add, ← mul_assoc, Nat.mul_mod_left, Nat.mul_mod_left]

theorem ofNat_shr (x : W32) (n : Nat) : BitVec.ofNat 32 (shiftBits .shr x.toNat n) = x >>> n := by
  apply BitVec.eq_of_toNat_eq
  rw [shiftBits, BitVec.toNat_ofNat, BitVec.toNat_ushiftRight, Nat.shiftRight_eq_div_pow,
    Nat.mod_eq_of_lt ((Nat.div_le_self ..).trans_lt x.isLt)]
  rcases Nat.le_total n 32 with hn | hn
  · rw [Nat.min_eq_left hn]
  · rw [Nat.min_eq_right hn, Nat.div_eq_of_lt x.isLt, Nat.div_eq_of_lt (x.isLt.trans_le (Nat.pow_le_pow_right (by decide) hn))]

/-- Beyond a word's width an arithmetic shift leaves copies of the sign. -/
theorem toInt_div_pow (x : W32) {n : Nat} (hn : 32 ≤ n) : x.toInt / 2 ^ n = if x.toInt < 0 then -1 else 0 := by
  have hp : (2 : Int) ^ 32 ≤ 2 ^ n := pow_le_pow_right₀ (by decide) hn
  have hlo : -2 ^ 31 ≤ x.toInt := BitVec.le_toInt x
  have hhi : x.toInt < 2 ^ 31 := BitVec.toInt_lt
  generalize (2 : Int) ^ n = p at *
  split_ifs with h
  · exact (Int.ediv_eq_iff_of_pos (by omega)).2 (by omega)
  · exact Int.ediv_eq_zero_of_lt (by omega) (by omega)

theorem ofNat_sra (x : W32) (n : Nat) : BitVec.ofNat 32 (shiftBits .sra x.toNat n) = x.sshiftRight n := by
  have hx : toSigned 32 x.toNat = x.toInt := elemVal_signed (by decide) x
  rw [shiftBits, ofNat_wrapNat, hx, BitVec.sshiftRight, Int.shiftRight_eq_div_pow]
  rcases Nat.le_total n 32 with hn | hn
  · rw [Nat.min_eq_left hn]; rfl
  · rw [Nat.min_eq_right hn, toInt_div_pow x le_rfl, ← toInt_div_pow x hn]; rfl

theorem ofNat_rot (x : W32) (n : Nat) : BitVec.ofNat 32 (shiftBits .rot x.toNat n) = x.rotateLeft (n % 32) := by
  have hm : n % 32 < 32 := Nat.mod_lt _ (by decide)
  have hlow : x.toNat / 2 ^ (32 - n % 32) < 2 ^ (n % 32) :=
    Nat.div_lt_of_lt_mul (by rw [← pow_add, Nat.sub_add_cancel hm.le]; exact x.isLt)
  have hhigh : x.toNat * 2 ^ (n % 32) % 2 ^ 32 = (x.toNat % 2 ^ (32 - n % 32)) <<< (n % 32) := by
    rw [Nat.shiftLeft_eq, ← Nat.mul_mod_mul_right, ← pow_add, Nat.sub_add_cancel hm.le]
  have hrot : (x.rotateLeft (n % 32)).toNat = shiftBits .rot x.toNat n := by
    rw [BitVec.toNat_rotateLeft, Nat.mod_mod, Nat.shiftLeft_eq, Nat.shiftRight_eq_div_pow, shiftBits, hhigh,
      Nat.shiftLeft_add_eq_or_of_lt hlow]
  rw [← hrot, BitVec.ofNat_toNat, BitVec.setWidth_eq]

/-- Settles O4, from the bits of LOP's table (R90) and from what each shift leaves (R92). -/
theorem logicAndShiftsPerBit : Obligations.LogicAndShiftsPerBit := by
  intro s u t h d a b x y shift
  have hshift (k : ShKind) (w : W32) (n : Nat) : BitVec.ofNat 32 (shiftBits k w.toNat n) = shift k w n := by
    cases k
    case shl => exact ofNat_shl w n
    case shr => exact ofNat_shr w n
    case sra => exact ofNat_sra w n
    case rot => exact ofNat_rot w n
  refine ⟨fun hf => ⟨fun tt => ?lop, fun k clamp => ?shf⟩, fun hf => ⟨fun k n => ?ishi, fun imm hints => ?lopi⟩⟩
  case lop =>
    refine ⟨_, laneOp_done (c := .lop tt d a b) h rfl (accFits_noUniform hf rfl) (.head _) rfl fun i => rfl, fun i _ j hj => ?_⟩
    exact getLsbD_lopBits tt (x i) (y i) hj
  case shf =>
    exact laneOp_done (c := .shf k clamp d a b) h rfl (accFits_noUniform hf rfl) (.head _) rfl fun i => lregs_congr (hshift k (x i) _)
  case ishi =>
    exact laneOp_done (c := .ishi k d a n) h rfl (accFits_noUniform hf rfl) (.head _) rfl fun i => lregs_congr (hshift k (x i) _)
  case lopi =>
    intro c
    have hc : c.toNat = (immBits 9 imm.toNat hints).1 % 2 ^ 32 := BitVec.toNat_ofNat ..
    have hop (op : LopiOp) : LaneDone (.lopi op d a imm hints) s u t (ef t d)
        fun i => BitVec.ofNat 32 (lopiVal op (x i).toNat c.toNat) :=
      laneOp_done (c := .lopi op d a imm hints) h rfl (accFits_noUniform hf rfl) (.head _) rfl fun i => by rw [hc]; rfl
    simp only [ofNat_lopiVal] at hop
    exact ⟨hop .and, hop .or, hop .xor, hop .andn⟩

/-! ## BITS (R93) -/

theorem popcount_eq (x : W32) : popcount x.toNat = (List.range 32).countP x.getLsbD := by
  have key (n : Nat) : ∑ j ∈ Finset.range n, field x.toNat j 1 = (List.range n).countP x.getLsbD := by
    induction n with
    | zero => rfl
    | succ n ih =>
      rw [Finset.sum_range_succ, ih, List.range_succ, List.countP_append, field_one, BitVec.testBit_toNat]
      cases h : x.getLsbD n <;> simp [h]
  rw [popcount, foldl_add_eq_sum, key]

/-- A count of the bits of a word fits its result. -/
theorem toNat_ofNat_le {n : Nat} (h : n ≤ 32) : (BitVec.ofNat 32 n).toNat = n :=
  (BitVec.toNat_ofNat ..).trans (Nat.mod_eq_of_lt (by omega))

theorem clz_spec (x : W32) {n : Nat} (hn : n = 32 - bitLen x.toNat) :
    n ≤ 32 ∧ (∀ j < n, x.getMsbD j = false) ∧ (n < 32 → x.getMsbD n = true) := by
  by_cases h0 : x.toNat = 0
  · obtain rfl : x = 0#32 := BitVec.eq_of_toNat_eq h0
    simp [hn, bitLen]
  · obtain ⟨hpos, -, hlt⟩ := bitLen_bounds h0
    have hle : bitLen x.toNat ≤ 32 := bitLen_le h0 x.isLt
    refine ⟨by omega, fun j hj => ?_, fun _ => ?_⟩
    · rw [BitVec.getMsbD_eq_getLsbD, ← BitVec.testBit_toNat,
        Nat.testBit_lt_two_pow (hlt.trans_le (Nat.pow_le_pow_right (by decide) (by omega))), Bool.and_false]
    · have hi : 32 - 1 - n = x.toNat.log2 := by
        rw [hn, bitLen, if_neg h0] at *; omega
      rw [BitVec.getMsbD_eq_getLsbD, hi, ← BitVec.testBit_toNat, Nat.testBit_log2 h0, Bool.and_true, decide_eq_true]
      omega

theorem ctz_spec (x : W32) {n : Nat} (hn : n = ctz x.toNat) :
    n ≤ 32 ∧ (∀ j < n, x.getLsbD j = false) ∧ (n < 32 → x.getLsbD n = true) := by
  have hbit (j : Nat) : bitAt x.toNat j = x.getLsbD j := by rw [bitAt_eq_testBit, BitVec.testBit_toNat]
  cases hf : (List.range 32).find? (bitAt x.toNat) with
  | none =>
    have hnone := List.find?_range_eq_none.1 hf
    obtain rfl : n = 32 := by rw [hn, ctz, hf]; rfl
    exact ⟨le_rfl, fun j hj => by simpa [hbit] using hnone j hj, fun h => absurd h (lt_irrefl _)⟩
  | some k =>
    obtain ⟨hk, hmem, hless⟩ := List.find?_range_eq_some.1 hf
    obtain rfl : n = k := by rw [hn, ctz, hf]; rfl
    exact ⟨(List.mem_range.1 hmem).le, fun j hj => by simpa [hbit] using hless j hj, fun _ => by rw [← hbit, hk]⟩

theorem getLsbD_brev (x : W32) {j : Nat} (hj : j < 32) : (BitVec.ofNat 32 (brev x.toNat)).getLsbD j = x.getLsbD (31 - j) := by
  have hsum : brev x.toNat = ∑ k ∈ Finset.range 32, (x.getLsbD (31 - k)).toNat * 2 ^ k := by
    rw [brev, foldl_add_eq_sum, ← Finset.sum_range_reflect]
    refine Finset.sum_congr rfl fun k hk => ?_
    have := Finset.mem_range.1 hk
    rw [field_one, BitVec.testBit_toNat, show 31 - (32 - 1 - k) = k by omega]
  rw [hsum, getLsbD_sum _ hj]

theorem ofNat_bfe_unsigned (x y : W32) : BitVec.ofNat 32 (bfe false x.toNat y.toNat) =
    (x.extractLsb' (min (y.extractLsb' 0 8).toNat 32) (min (y.extractLsb' 8 8).toNat 32)).setWidth 32 := by
  simp only [bfe, ← toNat_extract, Bool.false_eq_true, if_false]
  generalize min (y.extractLsb' 0 8).toNat 32 = pos
  generalize min (y.extractLsb' 8 8).toNat 32 = len
  split_ifs with h
  · subst h; simp
  · exact BitVec.ofNat_toNat ..

theorem ofNat_bfe_signed (x y : W32) : BitVec.ofNat 32 (bfe true x.toNat y.toNat) =
    ((x.signExtend 64).extractLsb' (min (y.extractLsb' 0 8).toNat 32) (min (y.extractLsb' 8 8).toNat 32)).signExtend 32 := by
  have hext : wrapNat 64 (toSigned 32 x.toNat) = (x.signExtend 64).toNat := by
    rw [show toSigned 32 x.toNat = x.toInt from elemVal_signed (by decide) x, wrapNat_eq]; rfl
  simp only [bfe, if_true, hext, ← toNat_extract]
  generalize min (y.extractLsb' 0 8).toNat 32 = pos
  generalize min (y.extractLsb' 8 8).toNat 32 = len
  split_ifs with h
  · subst h; simp [BitVec.signExtend]
  · rw [show toSigned len _ = _ from elemVal_signed (Nat.pos_of_ne_zero h) ((x.signExtend 64).extractLsb' pos len), ofNat_wrapNat]
    rfl

theorem testBit_fieldMask (pos len j : Nat) :
    ((2 ^ len - 1) * 2 ^ pos % 2 ^ 32).testBit j = (decide (j < 32) && (decide (pos ≤ j) && decide (j - pos < len))) := by
  rw [Nat.testBit_mod_two_pow, Nat.testBit_mul_two_pow, Nat.testBit_two_pow_sub_one]

theorem getLsbD_bfi (x y z : W32) {pos len j : Nat} (hpos : pos = min (y.extractLsb' 0 8).toNat 32)
    (hlen : len = min (y.extractLsb' 8 8).toNat 32) (hj : j < 32) :
    (BitVec.ofNat 32 (bfi z.toNat x.toNat y.toNat)).getLsbD j =
      if pos ≤ j ∧ j < pos + len then x.getLsbD (j - pos) else z.getLsbD j := by
  have hm : (2 ^ len - 1) * 2 ^ pos % 2 ^ 32 < 2 ^ 32 := Nat.mod_lt _ (by decide)
  rw [BitVec.getLsbD_ofNat, bfi, ← toNat_extract, ← toNat_extract, ← hpos, ← hlen, Nat.testBit_or, Nat.testBit_and, Nat.testBit_and,
    Nat.sub_sub, add_comm 1, Nat.testBit_two_pow_sub_succ hm, testBit_fieldMask, Nat.testBit_mul_two_pow, BitVec.testBit_toNat,
    BitVec.testBit_toNat]
  have hin : pos ≤ j ∧ j < pos + len ↔ pos ≤ j ∧ j - pos < len := by omega
  split_ifs with h
  · obtain ⟨h1, h2⟩ := hin.1 h
    simp [hj, h1, h2]
  · rw [hin, not_and] at h
    by_cases h1 : pos ≤ j <;> simp [hj, h1, h]

theorem toNat_append_eq {n m : Nat} (y : BitVec n) (x : BitVec m) : (y ++ x).toNat = x.toNat + y.toNat * 2 ^ m := by
  rw [BitVec.toNat_append, ← Nat.shiftLeft_add_eq_or_of_lt x.isLt, Nat.shiftLeft_eq, add_comm]

theorem extract_ofNat {w lo len : Nat} (h : lo + len ≤ w) (n : Nat) :
    (BitVec.ofNat w n).extractLsb' lo len = BitVec.ofNat len (field n lo len) := by
  refine BitVec.eq_of_getLsbD_eq fun i hi => ?_
  rw [BitVec.getLsbD_extractLsb', BitVec.getLsbD_ofNat, BitVec.getLsbD_ofNat, field_eq, Nat.testBit_mod_two_pow, Nat.testBit_div_two_pow]
  simp [hi, show lo + i < w by omega, add_comm]

/-- Byte `j` of what BITS.perm leaves (R93): the byte of the pool that a nibble of `z` selects, or eight copies of its sign. -/
def permByte (x y z : W32) (j : Nat) : BitVec 8 :=
  let byte := (y ++ x).extractLsb' (8 * (z.extractLsb' (4 * j) 3).toNat) 8
  if z.getLsbD (4 * j + 3) then (if byte.getLsbD 7 then 0xFF#8 else 0x00#8) else byte

theorem toNat_signFill (fill : Bool) (byte : BitVec 8) :
    (if fill then (if byte.getLsbD 7 then 0xFF#8 else 0x00#8) else byte).toNat =
      if fill then (if 128 ≤ byte.toNat then 255 else 0) else byte.toNat := by
  revert fill byte; decide

theorem permBytes_eq_sum (x y z : W32) :
    permBytes z.toNat x.toNat y.toNat = ∑ k ∈ Finset.range 4, (permByte x y z k).toNat * 2 ^ (8 * k) := by
  simp only [permByte, permBytes, ← foldl_add_eq_sum, toNat_signFill, toNat_extract, toNat_append_eq, bitAt_eq_testBit,
    BitVec.testBit_toNat]

theorem extract_permBytes (x y z : W32) {j : Nat} (hj : j < 4) :
    (BitVec.ofNat 32 (permBytes z.toNat x.toNat y.toNat)).extractLsb' (8 * j) 8 = permByte x y z j := by
  rw [extract_ofNat (by omega), permBytes_eq_sum, field_sum (fun k => (permByte x y z k).isLt) hj, BitVec.ofNat_toNat,
    BitVec.setWidth_eq]

/-- BITS leaves the value of its operation in each lane. -/
theorem bits_done {s : State} {u : Nat} {t : Team} (h : Issuing s u t) (op : BitsOp) {d a b : VReg}
    (hf : Fits t (bitsReads op d a b ++ [v1 d])) {val : Nat → W32}
    (hv : ∀ i, BitVec.ofNat 32 (bitsVal op (vnat t i d) (vnat t i a) (vnat t i b)) = val i) :
    LaneDone (.bits op d a b) s u t (ef t d) val :=
  laneOp_done h rfl (accFits_noUniform hf rfl) (.head _) rfl fun i => lregs_congr (hv i)

/-- Settles O5, operation by operation. -/
theorem bitOperationsResults : Obligations.BitOperationsResults := by
  intro s u t h d a b x y z pos len
  have hown (hf : Fits t [v1 a, v1 b, v1 d]) : Fits t [v1 a, v1 b, v1 d, v1 d] := fun r hr => hf r (by simpa using hr)
  refine ⟨fun hf => ⟨?popc, ?clz, ?ctz, ?brev⟩, fun hf => ⟨?bfeN, ?bfeI, ?bfi, ?perm⟩⟩
  case popc => exact bits_done h .popc hf fun i => congrArg _ (popcount_eq (x i))
  case clz =>
    have hn (i : Nat) : (BitVec.ofNat 32 (32 - bitLen (x i).toNat)).toNat = 32 - bitLen (x i).toNat := toNat_ofNat_le (Nat.sub_le ..)
    exact ⟨_, bits_done h .clz hf fun i => rfl, fun i _ => clz_spec (x i) (hn i)⟩
  case ctz =>
    have hn (i : Nat) : (BitVec.ofNat 32 (ctz (x i).toNat)).toNat = ctz (x i).toNat := toNat_ofNat_le (ctz_spec (x i) rfl).1
    exact ⟨_, bits_done h .ctz hf fun i => rfl, fun i _ => ctz_spec (x i) (hn i)⟩
  case brev => exact ⟨_, bits_done h .brev hf fun i => rfl, fun i _ j hj => getLsbD_brev (x i) hj⟩
  case bfeN => exact bits_done h .bfeN32 hf fun i => ofNat_bfe_unsigned (x i) (y i)
  case bfeI => exact bits_done h .bfeI32 hf fun i => ofNat_bfe_signed (x i) (y i)
  case bfi => exact ⟨_, bits_done h .bfi (hown hf) fun i => rfl, fun i _ j hj => getLsbD_bfi (x i) (y i) (z i) rfl rfl hj⟩
  case perm => exact ⟨_, bits_done h .perm (hown hf) fun i => rfl, fun i _ j hj => extract_permBytes (x i) (y i) (z i) hj⟩

/-! ## ICMP, ICMPI and SEL (R95, R96) -/

theorem sel_decodes (p : PReg) (neg : Bool) (d a b : VReg) :
    decode [0x0B#7 ++ d ++ a ++ b ++ BitVec.ofBool neg ++ p] = some (.ok (.sel p neg d a b), 1) := by
  have hw : 0x0B#7 ++ d ++ a ++ b ++ BitVec.ofBool neg ++ p = packV3 0x0B#7 d a b (BitVec.ofBool neg ++ p) := by
    simp only [packV3]
    exact BitVec.append_assoc
  rw [hw]
  exact Laws.decodesBack (i := .sel p neg d a b) rfl rfl

/-- Settles O6, from the reading of an operand under a signedness (R54) and the layout of SEL's word (R42). -/
theorem compareAndSelect : Obligations.CompareAndSelect := by
  intro s u t h d a b p x y rd
  have hrd (uns : Bool) (v : W32) : elemVal (!uns) 32 v.toNat = rd uns v := by
    rw [elemVal_toNat _ (by decide)]
    cases uns <;> rfl
  refine ⟨fun hf c uns => ?icmp, fun hf c uns imm hints => ?icmpi, fun hf neg => ⟨sel_decodes p neg d a b, ?sel⟩⟩
  case icmp =>
    refine predOp_done (c := .icmp c uns p a b) h rfl (accFits_noUniform hf rfl) rfl fun i => ?_
    rw [← hrd, ← hrd]
    rfl
  case icmpi =>
    refine predOp_done (c := .icmpi c uns p a imm hints) h rfl (accFits_noUniform hf rfl) rfl fun i => ?_
    rw [← hrd, ← hrd, ← wrapNat_eq]
    rfl
  case sel =>
    refine laneOp_done (c := .sel p neg d a b) h rfl (accFits_noUniform hf rfl) (.head _) rfl fun i => ?_
    rw [← apply_ite (vreg t i)]
    rfl

/-! ## IADDI, IADDK, ILEA and MOVK (R87, R97) -/

/-- The lanes of an issuing team share its uniform registers. -/
theorem kregAt_issuing {s : State} {u : Nat} {t : Team} (h : Issuing s u t) (a : Access) (i n : Nat) :
    kregAt (latch s t a) i n = kreg t n := by
  simp [kregAt, latch, h.whole, find?, kreg]

/-- A 32-bit operand is the low half of a uniform register (R87). -/
theorem elemVal_low (signed : Bool) (w : W64) : elemVal signed 32 w.toNat = bitsInt signed (w.extractLsb' 0 32) := by
  rw [elemVal_eq signed (by decide)]
  rfl

section
variable {s : State} {u : Nat} {t : Team} {d a : VReg} {k : KReg}

/-- IADDK of a 32-bit type adds the low half of the uniform register, clamped under .sat (R55, R87). -/
theorem iaddk_done (h : Issuing s u t) (hk : k.toNat ≤ 383) (hf : Fits t [v1 a, v1 d]) (signed sat : Bool) {c : Instr}
    {f : Team → Nat → LaneOut} {g : Option (Team → Nat → ILane)}
    (hc : exec c s = vecOp { noAccess with rv := [v1 a], wv := [v1 d], rk := [(k.toNat, 1)], lat := 4, vector := true } f g s)
    (hone : ∀ t' i, f t' i =
      let r := combine signed sat 32 (elemVal signed 32 (vnat t' i a) + elemVal signed 32 (kregAt t' i k.toNat).toNat)
      ⟨[(ef t' d, BitVec.ofNat 32 r.1)], [], flagOv r.2⟩) :
    let sum := fun (i : Nat) => bitsInt signed (vreg t i (ef t a)) + bitsInt signed ((kreg t k.toNat).extractLsb' 0 32)
    VecDone c s u t (fun i => [(ef t d, BitVec.ofInt 32 (if sat then clamp signed 32 (sum i) else sum i))]) (fun _ => [])
      (flagAll ((lanesOf t).map fun i => flagOv (sat && decide (clamp signed 32 (sum i) ≠ sum i)))) := by
  intro sum
  have ha : AccFits t { noAccess with rv := [v1 a], wv := [v1 d], rk := [(k.toNat, 1)], lat := 4, vector := true } :=
    accFits_oneUniform hk hf rfl
  refine vecOp_done h ha rfl hc (fun i => ?_) fun i _ => outOk_one (ef_lt h ha (.head _)) _
  have hx : elemVal signed 32 (vnat t i a) = bitsInt signed (vreg t i (ef t a)) := elemVal_toNat signed (by decide) _
  rw [hone, kregAt_issuing h, elemVal_low]
  change (⟨[(ef t d, _)], [], _⟩ : LaneOut) = _
  simp only [sum, ← hx, combine_eq, ofNat_wrapNat]
  rfl

/-- IADDK.i32 wraps and sets no flag (R87). -/
theorem iaddk_wrap_done (h : Issuing s u t) (hk : k.toNat ≤ 383) (hf : Fits t [v1 a, v1 d]) :
    LaneDone (.iaddk .i32 d a k) s u t (ef t d) fun i => vreg t i (ef t a) + (kreg t k.toNat).extractLsb' 0 32 := by
  have hdone := iaddk_done (c := .iaddk .i32 d a k) h hk hf true false rfl fun _ _ => rfl
  have hnone : flagOv false = FlagSet.none := rfl
  simp only [bitsInt, if_true, Bool.false_eq_true, if_false, Bool.false_and, hnone, flagAll_none, BitVec.ofInt_add,
    BitVec.ofInt_toInt] at hdone
  exact hdone

end

/-- Settles O7, instruction by instruction. -/
theorem immediateAndUniformOperands : Obligations.ImmediateAndUniformOperands := by
  intro s u t h d a k hk x w lo satAt
  refine ⟨fun hf => ⟨fun imm hints => ?iaddi, iaddk_wrap_done h hk hf, ?iaddkSigned, ?iaddkUnsigned⟩, fun hf => ?iaddk64,
    fun hf sc => ?ilea, fun hf => ⟨?movkLo, ?movkHi⟩, fun hf => ?movk64⟩
  case iaddkSigned => exact iaddk_done h hk hf true true rfl fun _ _ => rfl
  case iaddkUnsigned => exact iaddk_done h hk hf false true rfl fun _ _ => rfl
  case iaddi =>
    refine laneOp_done (c := .iaddi d a imm hints) h rfl (accFits_noUniform hf rfl) (.head _) rfl fun i => ?_
    refine lregs_congr ((BitVec.ofNat_add ..).trans ?_)
    rw [ofNat_wrapNat]
    exact congrArg (· + _) (show BitVec.ofNat 32 (x i).toNat = x i by simp)
  case iaddk64 =>
    refine pairOp_done (c := .iaddk .i64 d a k) h rfl (accFits_oneUniform hk hf rfl) (.head _) rfl fun i => ?_
    refine congrArg lregs ((pairOut_mod ..).trans ?_)
    exact congrArg (fun w : W64 => pairOut (ef t d) (vnat64 t i a + w.toNat)) (kregAt_issuing h ..)
  case ilea =>
    exact pairOp_done (c := .ilea sc d a k) h rfl (accFits_oneUniform hk hf rfl) (.head _) rfl fun i => congrArg lregs (pairOut_mod ..)
  case movkLo => exact laneOp_done (c := .movk .lo d k) h rfl (accFits_oneUniform hk hf rfl) (.head _) rfl fun i => rfl
  case movkHi =>
    refine laneOp_done (c := .movk .hi d k) h rfl (accFits_oneUniform hk hf rfl) (.head _) rfl fun i => ?_
    rw [BitVec.extractLsb', Nat.shiftRight_eq_div_pow]
    rfl
  case movk64 => exact pairOp_done (c := .movk .b64 d k) h rfl (accFits_oneUniform hk hf rfl) (.head _) rfl fun i => rfl

end Sys2Proof.Machine

namespace Sys2Proof.Machine

/-! # Float instructions (O9) -/

section
variable {c : Instr} {s : State} {u : Nat} {t : Team} {a : Access} {f : Team → Nat → LaneOut} {g : Option (Team → Nat → ILane)}

/-- A vector instruction of fixed latency with a 32-bit result and flags. -/
theorem flagOp_done (h : Issuing s u t) (hc : exec c s = vecOp a f g s) (ha : AccFits t a) {d : VReg} (hd : v1 d ∈ a.wv)
    (hv : a.vector = true) {val : Nat → Nat × FlagSet} (hf : ∀ i, f (latch s t a) i = lflag (ef t d) (val i)) :
    VecDone c s u t (fun i => [(ef t d, BitVec.ofNat 32 (val i).1)]) (fun _ => []) (flagAll ((lanesOf t).map fun i => (val i).2)) :=
  vecOp_done h ha hv hc hf fun _ _ => outOk_one (ef_lt h ha hd) _

/-- A vector instruction of fixed latency with a predicate and flags. -/
theorem predFlagOp_done (h : Issuing s u t) (hc : exec c s = vecOp a f g s) (ha : AccFits t a) (hv : a.vector = true) {p : PReg}
    {val : Nat → Bool} {fl : Nat → FlagSet} (hf : ∀ i, f (latch s t a) i = ⟨[], [(p.toNat, val i)], fl i⟩) :
    VecDone c s u t (fun _ => []) (fun i => [(p.toNat, val i)]) (flagAll ((lanesOf t).map fl)) :=
  vecOp_done h ha hv hc hf fun _ _ => ⟨by simp, by simp, by simp, by simpa using p.isLt⟩

end

/-! ## FADD, FSUB, FMUL and FFMA (R109) -/

section
variable {s : State} {u : Nat} {t : Team} {d a b : VReg}

/-- FFMA reads its destination beside its two operands. -/
theorem fits_readsDest (hf : Fits t [v1 a, v1 b, v1 d]) : Fits t [v1 a, v1 b, v1 d, v1 d] :=
  fun r hr => hf r (by simpa using hr)

theorem fop_fits (hf : Fits t [v1 a, v1 b, v1 d]) (op : FOp) :
    Fits t ((if op = .fma then [v1 a, v1 b, v1 d] else [v1 a, v1 b]) ++ [v1 d]) := by
  cases op
  case fma => exact fits_readsDest hf
  all_goals exact hf

/-- An operation of R109 delivers its exact value element by element (R58). -/
theorem fop_done {c : Instr} (h : Issuing s u t) (hf : Fits t [v1 a, v1 b, v1 d]) (op : FOp) (ty : FTy) (rm : RMode) (sat : Bool)
    (hc : exec c s = fopExec op ty rm sat d a b s) :
    let v := fun (r : VReg) (i e : Nat) => fval (ftyFmt ty) (elemAt ty e (vnat t i r))
    let each := fun (i : Nat) =>
      eachElem ty fun e => deliver (ftyFmt ty) rm sat (fopVal op rm (v a i e) (v b i e) (v d i e))
    VecDone c s u t (fun i => [(ef t d, BitVec.ofNat 32 (each i).1)]) (fun _ => [])
      (flagAll ((lanesOf t).map fun i => (each i).2)) :=
  flagOp_done h hc (accFits_noUniform (fop_fits hf op) rfl) (.head _) rfl fun _ => rfl

end

/-! ## FCLS (R114) -/

section
variable {s : State} {u : Nat} {t : Team} {d a : VReg}

/-- The format whose classes FCLS tells. -/
def fclsFmt : FclsTy → Fmt
  | .f32 => fmtF32
  | .f16 => fmtF16
  | .bf16 => fmtBf16

theorem fcls_done (h : Issuing s u t) (hf : Fits t [v1 a, v1 d]) (ty : FclsTy) {bits : Nat → Nat}
    (hb : ∀ i, vnat t i a % 2 ^ fmtWidth (fclsFmt ty) = bits i) :
    LaneDone (.fcls ty d a) s u t (ef t d) fun i => BitVec.twoPow 32 (fclsBit (fclsFmt ty) (bits i)) := by
  have hbit (n : Nat) : BitVec.ofNat 32 (2 ^ n) = BitVec.twoPow 32 n :=
    BitVec.eq_of_toNat_eq (by rw [BitVec.toNat_ofNat, BitVec.toNat_twoPow])
  refine laneOp_done (c := .fcls ty d a) h rfl (accFits_noUniform hf rfl) (.head _) rfl fun i => ?_
  rw [← hbit, ← hb]
  cases ty <;> rfl

end

/-! ## CVT (R115, R116) -/

/-- A conversion reads and writes one register or a pair, as its code says. -/
theorem cvt_done {s : State} {u : Nat} {t : Team} {d a : VReg} (h : Issuing s u t) {code : BitVec 7} {c : Cvt}
    (hc : cvtOf code.toNat = some c) (hf : Fits t [if cvtWideSrc c then v2 a else v1 a, if cvtWideDst c then v2 d else v1 d])
    (rm : RMode) (sat : Bool) :
    let o := fun (i : Nat) => cvtVal c rm sat (if cvtWideSrc c then vnat64 t i a else vnat t i a)
    VecDone (.cvt code rm sat d a) s u t
      (fun i => if cvtWideDst c then pairOut (ef t d) (o i).1 else [(ef t d, BitVec.ofNat 32 (o i).1)]) (fun _ => [])
      (flagAll ((lanesOf t).map fun i => (o i).2)) := by
  intro o
  have hexec : exec (.cvt code rm sat d a) s = execCvt code rm sat d a s := rfl
  simp only [execCvt, hc] at hexec
  have ha := accFits_noUniform (a := { noAccess with
    rv := [if cvtWideSrc c then v2 a else v1 a], wv := [if cvtWideDst c then v2 d else v1 d], lat := 5, vector := true }) hf rfl
  refine vecOp_done h ha rfl hexec (fun i => ?_) fun i _ => ?_
  · cases cvtWideDst c <;> rfl
  · cases hw : cvtWideDst c
    · exact outOk_one (ef_lt h ha (by simp [hw])) _
    · exact outOk_pair (ef_pair_lt h ha (by simp [hw])) _

/-- Settles O9, instruction by instruction. -/
theorem floatInstructionsResults : Obligations.FloatInstructionsResults := by
  intro s u t h d a b p x y z one
  refine ⟨fun hf ty => ?_, fun hf c => ?fcmp, fun hf => ⟨fun fn => ?fsf, ?fcls⟩, fun code c hc hf => cvt_done h hc hf⟩
  · refine ⟨fun rm sat => ⟨fop_done h hf .add ty rm sat rfl, fop_done h hf .sub ty rm sat rfl, fop_done h hf .mul ty rm sat rfl,
      fop_done h hf .fma ty rm sat rfl⟩, fun mx nan => ?fmnx, fun form => ?pack, fun form => ?dp4⟩
    case fmnx => exact flagOp_done (c := .fmnx mx nan ty d a b) h rfl (accFits_noUniform hf rfl) (.head _) rfl fun _ => rfl
    case pack => exact flagOp_done (c := .pack form d a b) h rfl (accFits_noUniform hf rfl) (.head _) rfl fun _ => rfl
    case dp4 =>
      exact flagOp_done (c := .dp4 form d a b) h rfl (accFits_noUniform (fits_readsDest hf) rfl) (.head _) rfl fun _ => rfl
  case fcmp => exact predFlagOp_done (c := .fcmp c p a b) h rfl (accFits_noUniform hf rfl) rfl fun _ => rfl
  case fsf =>
    exact vecLater_done (c := .fsf fn d a) h (a := { noAccess with rv := [v1 a], wv := [v1 d], vector := true })
      (accFits_noUniform hf rfl) rfl rfl fun _ => rfl
  case fcls =>
    refine ⟨fcls_done h hf .f32 fun i => ?_, fcls_done h hf .f16 fun _ => rfl, fcls_done h hf .bf16 fun _ => rfl⟩
    exact Nat.mod_eq_of_lt (vreg t i (ef t a)).isLt

end Sys2Proof.Machine

namespace Sys2Proof.Machine

/-! # Cross-lane instructions (O12) -/

/-! ## Their results, made lane by lane -/

section
variable {c : Instr} {s : State} {u : Nat} {t : Team} {a : Access} {team : Bool} {outs : Team → List (Nat × LaneOut)}

/-- A cross-lane instruction writes the results of its lanes, or leaves them outstanding, as its form says (R119). -/
theorem crossOp_crossDone (h : Issuing s u t) (hc : exec c s = crossOp a team outs s) (ha : AccFits t a) (hv : a.vector = true)
    {regs : List RegRef} (hregs : accWrites t.flow.x a = regs) {out : Nat → List (Nat × W32)} {ps : Nat → List (Nat × Bool)}
    {fl : Nat → FlagSet} (houts : ∀ b, outs (latch s t b) = (lanesOf t).map fun i => (i, ⟨out i, ps i, fl i⟩))
    (hok : ∀ i ∈ lanesOf t, OutOk (out i) (ps i)) : CrossDone c s u t team regs out ps (flagAll ((lanesOf t).map fl)) := by
  cases team
  · exact crossOp_done h ha hv hc _ (houts a) (fun _ => rfl) hok
  · rw [← hregs]
    exact crossLater_done h ha hv hc _ (houts _) fun _ => rfl

/-- One with a 32-bit result. -/
theorem crossReg_done (h : Issuing s u t) (hc : exec c s = crossOp a team outs s) (ha : AccFits t a) (hv : a.vector = true) {d : VReg}
    (hd : v1 d ∈ a.wv) (hregs : accWrites t.flow.x a = [.v (ef t d)]) {val : Nat → W32} {fl : Nat → FlagSet}
    (houts : ∀ b, outs (latch s t b) = (lanesOf t).map fun i => (i, ⟨[(ef t d, val i)], [], fl i⟩)) :
    CrossDone c s u t team [.v (ef t d)] (fun i => [(ef t d, val i)]) (fun _ => []) (flagAll ((lanesOf t).map fl)) :=
  crossOp_crossDone h hc ha hv hregs houts fun _ _ => outOk_one (ef_lt h ha hd) _

/-- One with a 32-bit result that raises no flag. -/
theorem crossPlain_done (h : Issuing s u t) (hc : exec c s = crossOp a team outs s) (ha : AccFits t a) (hv : a.vector = true) {d : VReg}
    (hd : v1 d ∈ a.wv) (hregs : accWrites t.flow.x a = [.v (ef t d)]) {val : Nat → W32}
    (houts : ∀ b, outs (latch s t b) = (lanesOf t).map fun i => (i, lregs [(ef t d, val i)])) :
    CrossDone c s u t team [.v (ef t d)] (fun i => [(ef t d, val i)]) (fun _ => []) FlagSet.none := by
  have hdone := crossReg_done h hc ha hv hd hregs (fl := fun _ => FlagSet.none) houts
  rwa [flagAll_none] at hdone

end

/-! ## The lanes of rows -/

/-- The active lanes of row `w`, ascending. -/
def rowLanes (t : Team) (w : Nat) : List Nat := (lanesOf t).filter fun j => j / 32 == w

/-- The active lanes that share the extent of lane `i` (R119), ascending. -/
def extentOf (t : Team) (team : Bool) (i : Nat) : List Nat := (lanesOf t).filter fun j => team || j / 32 == i / 32

@[simp] theorem extentOf_row (t : Team) (i : Nat) : extentOf t false i = rowLanes t (i / 32) := by simp [extentOf, rowLanes]

@[simp] theorem extentOf_team (t : Team) (i : Nat) : extentOf t true i = lanesOf t := by simp [extentOf]

theorem rowBase_beq (i j : Nat) : (rowBase j == rowBase i) = (j / 32 == i / 32) := by
  rw [Bool.eq_iff_iff, beq_iff_eq, beq_iff_eq, rowBase, rowBase]
  omega

theorem filter_rowBase (t : Team) (team : Bool) (i : Nat) :
    ((lanesOf t).filter fun j => team || rowBase j == rowBase i) = extentOf t team i := by
  simp only [rowBase_beq]
  rfl

theorem sub_rowBase (i : Nat) : i - rowBase i = i % 32 := by
  rw [rowBase]
  omega

theorem mem_lanesOf {t : Team} {i : Nat} : i ∈ lanesOf t ↔ i < t.lanes ∧ laneActive t.flow i = true := by
  simp [lanesOf, activeLanes]

theorem lanesOf_ascending (t : Team) : (lanesOf t).Pairwise (· < ·) := List.pairwise_lt_range.filter _

theorem mem_rowLanes {t : Team} {w i : Nat} : i ∈ rowLanes t w ↔ i ∈ lanesOf t ∧ i / 32 = w := by simp [rowLanes]

theorem rowLanes_ascending (t : Team) (w : Nat) : (rowLanes t w).Pairwise (· < ·) := (lanesOf_ascending t).filter _

/-- The lanes of the rows, the rows ascending, are the lanes of the team. -/
theorem flatten_rowLanes {t : Team} (hl : t.lanes ≤ 1024) : ((List.range 32).map (rowLanes t)).flatten = lanesOf t := by
  have hasc : ((List.range 32).map (rowLanes t)).flatten.Pairwise (· < ·) := by
    refine List.pairwise_flatten.2 ⟨?_, List.pairwise_map.2 (List.pairwise_lt_range.imp fun {w w'} hw i hi j hj => ?_)⟩
    · simpa using fun w _ => rowLanes_ascending t w
    · have := (mem_rowLanes.1 hi).2
      have := (mem_rowLanes.1 hj).2
      omega
  refine hasc.eq_of_mem_iff (lanesOf_ascending t) fun i => ?_
  simp only [List.mem_flatten, List.mem_map, List.mem_range, exists_exists_and_eq_and, mem_rowLanes]
  refine ⟨fun ⟨_, _, hi, _⟩ => hi, fun hi => ⟨i / 32, ?_, hi, rfl⟩⟩
  have := (mem_lanesOf.1 hi).1
  omega

theorem row_lt {t : Team} (hl : t.lanes ≤ 1024) {i : Nat} (hi : i ∈ lanesOf t) : i / 32 < 32 := by
  have := (mem_lanesOf.1 hi).1
  omega

/-! ## SHFL and LMOV (R120, R121) -/

section
variable {s : State} {u : Nat} {t : Team} {d a b : VReg}

theorem shfl_done (h : Issuing s u t) (hf : Fits t [v1 a, v1 b, v1 d]) (kind : ShflKind) (team : Bool) :
    CrossDone (.shfl kind team d a b) s u t team [.v (ef t d)]
      (fun i => [(ef t d, vreg t ((shflSource kind team t.lanes i (vnat t i b)).getD i) (ef t a))]) (fun _ => []) FlagSet.none :=
  crossPlain_done (c := .shfl kind team d a b) h (execShfl.eq_1 ..) (accFits_noUniform hf rfl) rfl (.head _) rfl fun _ => rfl

theorem lmov_done (h : Issuing s u t) (hf : Fits t [v1 a, v1 b, v1 d]) (kind : LmovKind) :
    LaneDone (.lmov kind d a b) s u t (ef t d) fun i =>
      let low := ((lanesOf t).find? fun j => j / 32 == i / 32).getD i
      vreg t (i / 32 * 32 + lmovFrom kind (i % 32) (vnat t low b % 32)) (ef t a) := by
  refine crossPlain_done (c := .lmov kind d a b) (team := false) h (execLmov.eq_1 ..) (accFits_noUniform hf rfl) rfl (.head _) rfl
    fun _ => ?_
  refine List.map_congr_left fun i _ => ?_
  simp only [rowBase_beq, sub_rowBase]
  rfl

end

/-! ## VOTE (R122) -/

/-- A bit of a ballot is the vote of an active lane. -/
theorem getLsbD_ballotWord (t : Team) (q : Nat → Bool) (row : Nat) {j : Nat} (hj : j < 32) :
    (BitVec.ofNat 32 (ballotWord t q row)).getLsbD j = (decide (32 * row + j ∈ lanesOf t) && q (32 * row + j)) := by
  have hmem (k : Nat) : (decide (k < t.lanes) && laneActive t.flow k) = decide (k ∈ lanesOf t) := by
    rw [Bool.eq_iff_iff, decide_eq_true_iff, mem_lanesOf, Bool.and_eq_true, decide_eq_true_iff]
  have hsum : ballotWord t q row =
      ∑ j ∈ Finset.range 32, (decide (32 * row + j ∈ lanesOf t) && q (32 * row + j)).toNat * 2 ^ j := by
    rw [← foldl_add_eq_sum, ballotWord]
    congr 1
    funext acc j
    rw [hmem]
    cases decide (32 * row + j ∈ lanesOf t) && q (32 * row + j) <;> simp
  rw [hsum, getLsbD_sum _ hj]

section
variable {s : State} {u : Nat} {t : Team}

/-- The predicate that VOTE takes of a lane. -/
def votes (t : Team) (q : PReg) (neg : Bool) (i : Nat) : Bool := xor (preg t i q.toNat) neg

/-- A form of VOTE that writes a predicate. -/
theorem vote_pred_done (h : Issuing s u t) {kind : VoteKind} (hk : (kind == .ballot) = false) (team : Bool) (d : VReg) (q : PReg)
    (neg : Bool) {val : Nat → Bool}
    (hval : ∀ i, voteLane kind team t d (votes t q neg) i = ⟨[], [(d.toNat % 8, val i)], FlagSet.none⟩) :
    CrossDone (.vote kind team d q neg) s u t team [.p (d.toNat % 8)] (fun _ => []) (fun i => [(d.toNat % 8, val i)])
      FlagSet.none := by
  have hexec : exec (.vote kind team d q neg) s = execVote kind team d q neg s := rfl
  simp only [execVote, hk, Bool.false_eq_true, if_false] at hexec
  rw [← flagAll_none (lanesOf t)]
  refine crossOp_crossDone h hexec (accFits_noUniform (fits_nil t) rfl) rfl rfl (fun _ => ?_) fun i _ => ?_
  · exact List.map_congr_left fun i _ => congrArg (Prod.mk i) (hval i)
  · exact ⟨by simp, by simp, by simp, by simpa using Nat.mod_lt _ (by decide)⟩

theorem vote_ballot_done (h : Issuing s u t) (team : Bool) {d : VReg} (hf : Fits t [v1 d]) (q : PReg) (neg : Bool) :
    CrossDone (.vote .ballot team d q neg) s u t team [.v (ef t d)]
      (fun i => [(ef t d, BitVec.ofNat 32 (ballotWord t (votes t q neg) (if team then i % 32 else i / 32)))]) (fun _ => [])
      FlagSet.none :=
  crossPlain_done (c := .vote .ballot team d q neg) h (execVote.eq_1 ..) (accFits_noUniform hf rfl) rfl (.head _) rfl fun _ => rfl

end

end Sys2Proof.Machine

namespace Sys2Proof.Machine

/-! # Reductions (O12) -/

/-! ## One combination of words (R123) -/

/-- The reductions of integers. -/
def rdxInteger : RdxOp → Bool
  | .iadd | .imin | .imax | .nmin | .nmax => true
  | .fadd | .fmin | .fmax => false

theorem rdxInteger_eq_false {op : RdxOp} (h : rdxInteger op = false) : op = .fadd ∨ op = .fmin ∨ op = .fmax := by
  cases op <;> simp [rdxInteger] at h ⊢

/-- What an integer reduction makes of two words. -/
def rdxWord : RdxOp → W32 → W32 → W32
  | .imin, x, y => if x.toInt ≤ y.toInt then x else y
  | .imax, x, y => if y.toInt ≤ x.toInt then x else y
  | .nmin, x, y => if x.toNat ≤ y.toNat then x else y
  | .nmax, x, y => if y.toNat ≤ x.toNat then x else y
  | _, x, y => x + y

/-- The identity of a reduction as a word. -/
def rdxUnit (op : RdxOp) : W32 := BitVec.ofNat 32 (rdxIdentity op)

theorem toNat_rdxUnit (op : RdxOp) : (rdxUnit op).toNat = rdxIdentity op := by cases op <;> rfl

theorem toInt_rdxWord_imin (x y : W32) : (rdxWord .imin x y).toInt = min x.toInt y.toInt := by
  rw [min_def, rdxWord, apply_ite BitVec.toInt]

theorem toInt_rdxWord_imax (x y : W32) : (rdxWord .imax x y).toInt = max x.toInt y.toInt := by
  rw [max_comm, max_def, rdxWord, apply_ite BitVec.toInt]

theorem toNat_rdxWord_nmin (x y : W32) : (rdxWord .nmin x y).toNat = min x.toNat y.toNat := by
  rw [min_def, rdxWord, apply_ite BitVec.toNat]

theorem toNat_rdxWord_nmax (x y : W32) : (rdxWord .nmax x y).toNat = max x.toNat y.toNat := by
  rw [max_comm, max_def, rdxWord, apply_ite BitVec.toNat]

theorem rdxStep_words {op : RdxOp} (h : rdxInteger op = true) (x y : W32) :
    rdxStep op x.toNat y.toNat = ((rdxWord op x y).toNat, FlagSet.none) := by
  have hs (z : W32) : toSigned 32 z.toNat = z.toInt := elemVal_signed (by decide) z
  cases op
  case iadd => exact congrArg plainBits (BitVec.toNat_add x y).symm
  case imin | imax => simp only [rdxStep, hs, decide_eq_true_eq, plainBits, rdxWord, apply_ite BitVec.toNat]
  case nmin | nmax => simp only [rdxStep, decide_eq_true_eq, plainBits, rdxWord, apply_ite BitVec.toNat]
  all_goals cases h

theorem rdxWord_assoc {op : RdxOp} (h : rdxInteger op = true) (x y z : W32) :
    rdxWord op (rdxWord op x y) z = rdxWord op x (rdxWord op y z) := by
  cases op
  case iadd => exact BitVec.add_assoc ..
  case imin => exact BitVec.eq_of_toInt_eq (by simp only [toInt_rdxWord_imin, min_assoc])
  case imax => exact BitVec.eq_of_toInt_eq (by simp only [toInt_rdxWord_imax, max_assoc])
  case nmin => exact BitVec.eq_of_toNat_eq (by simp only [toNat_rdxWord_nmin, min_assoc])
  case nmax => exact BitVec.eq_of_toNat_eq (by simp only [toNat_rdxWord_nmax, max_assoc])
  all_goals cases h

theorem toInt_bounds (x : W32) : -2 ^ 31 ≤ x.toInt ∧ x.toInt ≤ 2 ^ 31 - 1 := by
  have := BitVec.le_toInt x
  have := BitVec.toInt_lt (x := x)
  omega

theorem rdxWord_unit {op : RdxOp} (h : rdxInteger op = true) (x : W32) : rdxWord op x (rdxUnit op) = x := by
  obtain ⟨hlo, hhi⟩ := toInt_bounds x
  have hn := x.isLt
  cases op
  case iadd => exact BitVec.add_zero x
  case imin => exact BitVec.eq_of_toInt_eq ((toInt_rdxWord_imin ..).trans (min_eq_left hhi))
  case imax => exact BitVec.eq_of_toInt_eq ((toInt_rdxWord_imax ..).trans (max_eq_left hlo))
  case nmin => exact BitVec.eq_of_toNat_eq ((toNat_rdxWord_nmin ..).trans (min_eq_left (Nat.le_sub_one_of_lt hn)))
  case nmax => exact BitVec.eq_of_toNat_eq ((toNat_rdxWord_nmax ..).trans (max_eq_left (Nat.zero_le _)))
  all_goals cases h

theorem rdxWord_comm {op : RdxOp} (h : rdxInteger op = true) (x y : W32) : rdxWord op x y = rdxWord op y x := by
  cases op
  case iadd => exact BitVec.add_comm ..
  case imin => exact BitVec.eq_of_toInt_eq (by simp only [toInt_rdxWord_imin, min_comm])
  case imax => exact BitVec.eq_of_toInt_eq (by simp only [toInt_rdxWord_imax, max_comm])
  case nmin => exact BitVec.eq_of_toNat_eq (by simp only [toNat_rdxWord_nmin, min_comm])
  case nmax => exact BitVec.eq_of_toNat_eq (by simp only [toNat_rdxWord_nmax, max_comm])
  all_goals cases h

theorem rdxUnit_word {op : RdxOp} (h : rdxInteger op = true) (x : W32) : rdxWord op (rdxUnit op) x = x := by
  rw [rdxWord_comm h, rdxWord_unit h]

/-! ## A reduction of a list of words -/

/-- The words of a list combined from the left. -/
def rdxAll (op : RdxOp) (l : List W32) : W32 := l.foldl (rdxWord op) (rdxUnit op)

section
variable {op : RdxOp} (h : rdxInteger op = true)
include h

theorem rdxAll_cons (x : W32) (l : List W32) : rdxAll op (x :: l) = rdxWord op x (rdxAll op l) := by
  have : Std.Associative (rdxWord op) := ⟨rdxWord_assoc h⟩
  rw [rdxAll, List.foldl_cons, rdxUnit_word h, rdxAll, ← List.foldl_assoc (op := rdxWord op), rdxWord_unit h]

theorem rdxAll_append (l m : List W32) : rdxAll op (l ++ m) = rdxWord op (rdxAll op l) (rdxAll op m) := by
  induction l with
  | nil => exact (rdxUnit_word h _).symm
  | cons x l ih => rw [List.cons_append, rdxAll_cons h, ih, rdxAll_cons h, rdxWord_assoc h]

theorem rdxAll_flatten (ls : List (List W32)) : rdxAll op (ls.map (rdxAll op)) = rdxAll op ls.flatten := by
  induction ls with
  | nil => rfl
  | cons l ls ih => rw [List.map_cons, rdxAll_cons h, ih, List.flatten_cons, rdxAll_append h]

/-- An inactive lane that supplies the identity (R80) adds nothing. -/
theorem rdxAll_units {α : Type} (p : α → Bool) (x : α → W32) (l : List α) :
    rdxAll op (l.map fun j => if p j then x j else rdxUnit op) = rdxAll op ((l.filter p).map x) := by
  induction l with
  | nil => rfl
  | cons j l ih =>
    rw [List.map_cons, rdxAll_cons h, ih]
    cases hp : p j
    · rw [List.filter_cons_of_neg (by simp [hp]), if_neg Bool.false_ne_true, rdxUnit_word h]
    · rw [List.filter_cons_of_pos hp, List.map_cons, rdxAll_cons h, if_pos rfl]

/-! ## The tree (R80) -/

/-- A level of the tree halves the list and keeps its reduction. -/
theorem pairUp_words : ∀ l : List W32, ∃ m : List W32,
    pairUp op (l.map BitVec.toNat) = (m.map BitVec.toNat, FlagSet.none) ∧ rdxAll op m = rdxAll op l ∧ 2 * m.length ≤ l.length + 1
  | [] => ⟨[], rfl, rfl, by simp⟩
  | [x] => ⟨[x], rfl, rfl, by simp⟩
  | x :: y :: l => by
    obtain ⟨m, hm, hall, hlen⟩ := pairUp_words l
    refine ⟨rdxWord op x y :: m, ?_, ?_, by simp only [List.length_cons]; omega⟩
    · simp only [List.map_cons, pairUp, rdxStep_words h, hm, FlagSet.or_none]
    · rw [rdxAll_cons h, hall, rdxAll_cons h, rdxAll_cons h, rdxWord_assoc h]

theorem rdxTree_words (n : Nat) (l : List W32) (hl : l.length ≤ 2 ^ n) :
    rdxTree op n (l.map BitVec.toNat) = ((rdxAll op l).toNat, FlagSet.none) := by
  induction n generalizing l with
  | zero =>
    match l, hl with
    | [], _ => exact congrArg (·, FlagSet.none) (toNat_rdxUnit op).symm
    | [x], _ =>
      rw [rdxAll_cons h, rdxAll, List.foldl_nil, rdxWord_unit h]
      rfl
  | succ n ih =>
    obtain ⟨m, hm, hall, hlen⟩ := pairUp_words h l
    rw [rdxTree, hm, ih m (by rw [pow_succ] at hl; omega), hall]
    rfl

end

/-! ## The reduction of a row and of a team (R123) -/

/-- The active lanes of a row, by their positions in it. -/
theorem rowLanes_eq_map (t : Team) (w : Nat) : rowLanes t w =
    ((List.range 32).filter fun j => decide (32 * w + j < t.lanes) && laneActive t.flow (32 * w + j)).map (32 * w + ·) := by
  refine (rowLanes_ascending t w).eq_of_mem_iff (List.pairwise_map.2 ?_) fun i => ?_
  · exact (List.pairwise_lt_range.filter _).imp fun hij => Nat.add_lt_add_left hij _
  · simp only [mem_rowLanes, mem_lanesOf, List.mem_map, List.mem_filter, List.mem_range, Bool.and_eq_true, decide_eq_true_eq]
    constructor
    · rintro ⟨hi, rfl⟩
      have hsplit : 32 * (i / 32) + i % 32 = i := Nat.div_add_mod ..
      exact ⟨i % 32, ⟨Nat.mod_lt _ (by decide), by rwa [hsplit]⟩, hsplit⟩
    · rintro ⟨j, ⟨hj, hi⟩, rfl⟩
      exact ⟨hi, by omega⟩

/-- The reduction of row `w`, and the identity of a row that the team has not (R80). -/
def rdxRowOr (op : RdxOp) (t : Team) (r w : Nat) : Nat × FlagSet :=
  if w < t.lanes / 32 then rdxRow op t r w else (rdxIdentity op, FlagSet.none)

section
variable {op : RdxOp} (h : rdxInteger op = true) {t : Team}
include h

theorem rdxRow_words (t : Team) (r w : Nat) :
    rdxRow op t r w = ((rdxAll op ((rowLanes t w).map fun i => vreg t i r)).toNat, FlagSet.none) := by
  have hvals : ((List.range 32).map fun j =>
      if decide (32 * w + j < t.lanes) && laneActive t.flow (32 * w + j) then (vreg t (32 * w + j) r).toNat else rdxIdentity op) =
      ((List.range 32).map fun j =>
        if decide (32 * w + j < t.lanes) && laneActive t.flow (32 * w + j) then vreg t (32 * w + j) r
        else rdxUnit op).map BitVec.toNat := by
    rw [List.map_map]
    refine List.map_congr_left fun j _ => ?_
    rw [Function.comp_apply, apply_ite BitVec.toNat, toNat_rdxUnit]
  refine (congrArg (rdxTree op 5) hvals).trans ?_
  rw [rdxTree_words h 5 _ (by simp), rdxAll_units h, rowLanes_eq_map, List.map_map]
  rfl

theorem rdxRowOr_words (hw : t.lanes % 32 = 0) (r w : Nat) :
    rdxRowOr op t r w = ((rdxAll op ((rowLanes t w).map fun i => vreg t i r)).toNat, FlagSet.none) := by
  rw [rdxRowOr]
  split_ifs with hlt
  · exact rdxRow_words h t r w
  · have hnone : rowLanes t w = [] := List.eq_nil_iff_forall_not_mem.2 fun i hi => by
      obtain ⟨hlane, rfl⟩ := mem_rowLanes.1 hi
      have := (mem_lanesOf.1 hlane).1
      omega
    rw [hnone]
    exact congrArg (·, FlagSet.none) (toNat_rdxUnit op).symm

/-- The tree over the rows of a team reduces the team. -/
theorem rdxTree_rows (hw : t.lanes % 32 = 0) (hl : t.lanes ≤ 1024) (r : Nat) :
    rdxTree op 5 (((List.range 32).map (rdxRowOr op t r)).map (·.1)) =
      ((rdxAll op ((lanesOf t).map fun i => vreg t i r)).toNat, FlagSet.none) := by
  have hrows : ((List.range 32).map (rdxRowOr op t r)).map (·.1) =
      ((((List.range 32).map (rowLanes t)).map (List.map fun i => vreg t i r)).map (rdxAll op)).map BitVec.toNat := by
    simp only [List.map_map]
    refine List.map_congr_left fun w _ => ?_
    simp only [Function.comp_apply, rdxRowOr_words h hw]
  rw [hrows, rdxTree_words h 5 _ (by simp), rdxAll_flatten h, ← List.map_flatten, flatten_rowLanes hl]

end

/-! ## What integer reductions give -/

theorem rdxAll_iadd (l : List W32) : rdxAll .iadd l = l.sum := by
  rw [List.sum_eq_foldl]
  rfl

theorem toInt_rdxAll {op : RdxOp} {f : Int → Int → Int} (hf : ∀ x y, (rdxWord op x y).toInt = f x.toInt y.toInt) (l : List W32) :
    rdxAll op l = BitVec.ofInt 32 ((l.map (·.toInt)).foldl f (rdxUnit op).toInt) := by
  rw [List.foldl_map, List.foldl_hom (g₁ := rdxWord op) BitVec.toInt fun x y => (hf x y).symm, BitVec.ofInt_toInt]
  rfl

theorem toNat_rdxAll {op : RdxOp} {f : Nat → Nat → Nat} (hf : ∀ x y, (rdxWord op x y).toNat = f x.toNat y.toNat) (l : List W32) :
    rdxAll op l = BitVec.ofNat 32 ((l.map (·.toNat)).foldl f (rdxUnit op).toNat) := by
  rw [List.foldl_map, List.foldl_hom (g₁ := rdxWord op) BitVec.toNat fun x y => (hf x y).symm, BitVec.ofNat_toNat, BitVec.setWidth_eq]
  rfl

/-- The sum, the least or the greatest of some words. -/
def rdxNumber (op : RdxOp) (l : List W32) : W32 :=
  match op with
  | .iadd => l.sum
  | .imin => BitVec.ofInt 32 ((l.map (·.toInt)).foldl min (2 ^ 31 - 1))
  | .imax => BitVec.ofInt 32 ((l.map (·.toInt)).foldl max (-(2 ^ 31)))
  | .nmin => BitVec.ofNat 32 ((l.map (·.toNat)).foldl min (2 ^ 32 - 1))
  | _ => BitVec.ofNat 32 ((l.map (·.toNat)).foldl max 0)

theorem rdxAll_eq_number {op : RdxOp} (h : rdxInteger op = true) (l : List W32) : rdxAll op l = rdxNumber op l := by
  cases op
  case iadd => exact rdxAll_iadd l
  case imin => exact toInt_rdxAll toInt_rdxWord_imin l
  case imax => exact toInt_rdxAll toInt_rdxWord_imax l
  case nmin => exact toNat_rdxAll toNat_rdxWord_nmin l
  case nmax => exact toNat_rdxAll toNat_rdxWord_nmax l
  all_goals cases h

/-! ## RDX (R123) -/

theorem nth_range_map {α : Type} {d : α} {f : Nat → α} {n i : Nat} (hi : i < n) : nth d ((List.range n).map f) i = f i := by
  have hr : List.range n = rangeFrom 0 n := by simp [rangeFrom]
  rw [hr, nth_rangeFrom_map hi, Nat.zero_add]

/-- What RDX gives lane `i`: the reduction of its row, or of the rows of its team with the flags of every step. -/
def rdxLane (op : RdxOp) (team : Bool) (t : Team) (r i : Nat) : Nat × FlagSet :=
  let rows := (List.range 32).map (rdxRowOr op t r)
  let top := rdxTree op 5 (rows.map (·.1))
  if team then (top.1, flagOr (flagAll (rows.map (·.2))) top.2) else rdxRowOr op t r (i / 32)

theorem rdxOuts_eq {t : Team} (hl : t.lanes ≤ 1024) (op : RdxOp) (team : Bool) (d a : VReg) :
    rdxOuts op team d a t = (lanesOf t).map fun i => (i, lflag (ef t d) (rdxLane op team t (ef t a) i)) := by
  cases team
  · exact List.map_congr_left fun i hi => congrArg (fun o => (i, lflag (ef t d) o)) (nth_range_map (row_lt hl hi))
  · rfl

section
variable {s : State} {u : Nat} {t : Team} {d a : VReg}

theorem rdx_done (h : Issuing s u t) (hl : t.lanes ≤ 1024) (hf : Fits t [v1 a, v1 d]) (op : RdxOp) (team : Bool) :
    CrossDone (.rdx op team d a) s u t team [.v (ef t d)]
      (fun i => [(ef t d, BitVec.ofNat 32 (rdxLane op team t (ef t a) i).1)]) (fun _ => [])
      (flagAll ((lanesOf t).map fun i => (rdxLane op team t (ef t a) i).2)) :=
  crossReg_done (c := .rdx op team d a) h (execRdx.eq_1 ..) (accFits_noUniform hf rfl) rfl (.head _) rfl fun _ => rdxOuts_eq hl op team d a

/-- An integer reduction is that of the lanes of the extent, and raises no flag. -/
theorem rdxLane_words {op : RdxOp} (h : rdxInteger op = true) (hw : t.lanes % 32 = 0) (hl : t.lanes ≤ 1024) (team : Bool) (r i : Nat) :
    rdxLane op team t r i = ((rdxAll op ((extentOf t team i).map fun j => vreg t j r)).toNat, FlagSet.none) := by
  cases team
  · rw [extentOf_row]
    exact rdxRowOr_words h hw r (i / 32)
  · have hquiet : ((List.range 32).map (rdxRowOr op t r)).map (·.2) = (List.range 32).map fun _ => FlagSet.none := by
      rw [List.map_map]
      exact List.map_congr_left fun w _ => congrArg (·.2) (rdxRowOr_words h hw r w)
    rw [extentOf_team, rdxLane, hquiet, flagAll_none, rdxTree_rows h hw hl]
    rfl

theorem rdx_integer_done (h : Issuing s u t) (hw : t.lanes % 32 = 0) (hl : t.lanes ≤ 1024) (hf : Fits t [v1 a, v1 d]) {op : RdxOp}
    (hop : rdxInteger op = true) (team : Bool) :
    CrossDone (.rdx op team d a) s u t team [.v (ef t d)]
      (fun i => [(ef t d, rdxAll op ((extentOf t team i).map fun j => vreg t j (ef t a)))]) (fun _ => []) FlagSet.none := by
  have hdone := rdx_done h hl hf op team
  simpa only [rdxLane_words hop hw hl, flagAll_none, BitVec.ofNat_toNat, BitVec.setWidth_eq] using hdone

end

end Sys2Proof.Machine

namespace Sys2Proof.Machine

/-! # Scans and the statement of cross-lane instructions (O12) -/

/-! ## Flags of several steps -/

theorem flagOr_assoc (f g e : FlagSet) : flagOr (flagOr f g) e = flagOr f (flagOr g e) := by
  simp only [flagOr, Bool.or_assoc]

theorem none_flagOr (f : FlagSet) : flagOr FlagSet.none f = f := by simp [flagOr, FlagSet.none]

theorem flagAll_append (l m : List FlagSet) : flagAll (l ++ m) = flagOr (flagAll l) (flagAll m) := by
  have : Std.Associative flagOr := ⟨flagOr_assoc⟩
  have hfold : m.foldl flagOr (flagOr (flagAll l) FlagSet.none) = flagOr (flagAll l) (flagAll m) := List.foldl_assoc
  rw [flagAll, List.foldl_append]
  rwa [FlagSet.or_none] at hfold

theorem flagAll_snoc (l : List FlagSet) (f : FlagSet) : flagAll (l ++ [f]) = flagOr (flagAll l) f := by
  rw [flagAll_append]
  exact congrArg _ (none_flagOr f)

theorem flagAll_flatten (ls : List (List FlagSet)) : flagAll ls.flatten = flagAll (ls.map flagAll) := by
  induction ls using List.reverseRecOn with
  | nil => rfl
  | append_singleton ls l ih => rw [List.flatten_concat, flagAll_append, ih, List.map_append, List.map_singleton, flagAll_snoc]

/-! ## The fold of a scan (R81) -/

/-- The fold over the values already visited, none before the first. -/
def scanned (op : RdxOp) (vs : List Nat) : Option Nat := if vs = [] then none else some (scanTo op vs).1

/-- The step that takes a value after the values `vs`. -/
def scanStep (op : RdxOp) (vs : List Nat) (x : Nat) : Nat × FlagSet :=
  if vs = [] then plainBits x else rdxStep op (scanTo op vs).1 x

theorem scanTo_snoc (op : RdxOp) (vs : List Nat) (x : Nat) :
    scanTo op (vs ++ [x]) = ((scanStep op vs x).1, flagOr (scanTo op vs).2 (scanStep op vs x).2) := by
  cases vs with
  | nil => rfl
  | cons v vs =>
    simp only [List.cons_append, scanTo, List.foldl_append, List.foldl_cons, List.foldl_nil, scanStep, List.cons_ne_nil, if_false]

theorem scanned_snoc (op : RdxOp) (vs : List Nat) (x : Nat) : scanned op (vs ++ [x]) = some (scanStep op vs x).1 := by
  rw [scanned, if_neg (by simp), scanTo_snoc]

/-- What a lane with value `x` writes after the values `vs`, and the flags of its step. -/
def scanLane (op : RdxOp) (excl : Bool) (vs : List Nat) (x : Nat) : Nat × FlagSet :=
  ((scanTo op (if excl then vs else vs ++ [x])).1, (scanStep op vs x).2)

section
variable (op : RdxOp) (excl : Bool) (r : Nat) (val : Nat → Nat)

theorem scanFold_cons (vs : List Nat) (i : Nat) (l : List Nat) : scanFold op excl r val (scanned op vs) (i :: l) =
    (i, lflag r (scanLane op excl vs (val i))) :: scanFold op excl r val (scanned op (vs ++ [val i])) l := by
  rw [scanned_snoc]
  cases vs with
  | nil => cases excl <;> rfl
  | cons v vs =>
    cases excl
    · simp only [scanLane, Bool.false_eq_true, if_false, scanTo_snoc]
      rfl
    · rfl

theorem scanFold_append (vs l m : List Nat) : scanFold op excl r val (scanned op vs) (l ++ m) =
    scanFold op excl r val (scanned op vs) l ++ scanFold op excl r val (scanned op (vs ++ l.map val)) m := by
  induction l generalizing vs with
  | nil => simp [scanFold]
  | cons i l ih =>
    rw [List.cons_append, scanFold_cons, ih, scanFold_cons, List.cons_append, List.append_assoc, List.singleton_append, List.map_cons]

/-- The fold takes one lane more. -/
theorem scanFold_snoc (l : List Nat) (i : Nat) : scanFold op excl r val none (l ++ [i]) =
    scanFold op excl r val none l ++ [(i, lflag r (scanLane op excl (l.map val) (val i)))] :=
  (scanFold_append op excl r val [] l [i]).trans (congrArg _ (scanFold_cons op excl r val (l.map val) i []))

/-- The flags of the fold are those of its steps. -/
theorem flagAll_scanFold (l : List Nat) :
    flagAll ((scanFold op excl r val none l).map (·.2.flags)) = (scanTo op (l.map val)).2 := by
  induction l using List.reverseRecOn with
  | nil => rfl
  | append_singleton l i ih =>
    rw [scanFold_snoc, List.map_append, List.map_singleton, flagAll_snoc, ih, List.map_append, List.map_singleton, scanTo_snoc]
    rfl

/-! ## The results of an extent (R124) -/

/-- The last step of an extent is no part of an exclusive result. -/
def dropLastFlags (l : List (Nat × LaneOut)) : List (Nat × LaneOut) :=
  match l.getLast? with
  | some e => l.dropLast ++ [(e.1, { e.2 with flags := FlagSet.none })]
  | none => l

theorem dropLastFlags_snoc (l : List (Nat × LaneOut)) (e : Nat × LaneOut) :
    dropLastFlags (l ++ [e]) = l ++ [(e.1, { e.2 with flags := FlagSet.none })] := by
  simp only [dropLastFlags, List.getLast?_concat, List.dropLast_concat]

/-- The results of the lanes `l` of an extent. -/
def scanExtent (l : List Nat) : List (Nat × LaneOut) :=
  if excl then dropLastFlags (scanFold op excl r val none l) else scanFold op excl r val none l

theorem flagAll_scanExtent (l : List Nat) :
    flagAll ((scanExtent op excl r val l).map (·.2.flags)) = (scanTo op ((if excl then l.dropLast else l).map val)).2 := by
  cases excl
  · exact flagAll_scanFold ..
  · rcases List.eq_nil_or_concat l with rfl | ⟨l, i, rfl⟩
    · rfl
    · simp only [scanExtent, if_true, List.concat_eq_append, scanFold_snoc, dropLastFlags_snoc, List.map_append, List.map_singleton,
        flagAll_snoc, FlagSet.or_none, flagAll_scanFold, List.dropLast_concat]

/-- The lanes of an extent whose values lane `i` has in its result. -/
def scanLanes (excl : Bool) (l : List Nat) (i : Nat) : List Nat := l.filter fun j => if excl then decide (j < i) else decide (j ≤ i)

theorem scanLanes_snoc (l : List Nat) {i k : Nat} (hi : i < k) : scanLanes excl (l ++ [k]) i = scanLanes excl l i := by
  rw [scanLanes, List.filter_append, List.filter_singleton]
  cases excl <;> simp [scanLanes, hi.not_ge, hi.not_gt]

theorem scanLanes_last {l : List Nat} {k : Nat} (hk : ∀ j ∈ l, j < k) :
    scanLanes excl (l ++ [k]) k = if excl then l else l ++ [k] := by
  cases excl
  · exact List.filter_eq_self.2 fun j hj => by
      rcases List.mem_append.1 hj with hj | hj
      · simpa using (hk j hj).le
      · simpa using (List.mem_singleton.1 hj).le
  · rw [scanLanes, List.filter_append, List.filter_singleton, List.filter_eq_self.2 fun j hj => by simpa using hk j hj]
    simp

/-- What lane `i` of the extent `l` writes. -/
def scanValue (l : List Nat) (i : Nat) : W32 := BitVec.ofNat 32 (scanTo op ((scanLanes excl l i).map val)).1

theorem scanValue_last {l : List Nat} {k : Nat} (hk : ∀ j ∈ l, j < k) :
    scanValue op excl val (l ++ [k]) k = BitVec.ofNat 32 (scanLane op excl (l.map val) (val k)).1 := by
  rw [scanValue, scanLanes_last excl hk]
  cases excl
  · rw [if_neg Bool.false_ne_true, List.map_append]
    rfl
  · rfl

/-- What a lane writes, without its flags. -/
def written (e : Nat × LaneOut) : Nat × List (Nat × W32) × List (Nat × Bool) := (e.1, e.2.regs, e.2.preds)

theorem scanFold_written {l : List Nat} (hl : l.Pairwise (· < ·)) :
    (scanFold op excl r val none l).map written = l.map fun i => (i, [(r, scanValue op excl val l i)], []) := by
  induction l using List.reverseRecOn with
  | nil => rfl
  | append_singleton l k ih =>
    obtain ⟨hl', -, hlast⟩ := List.pairwise_append.1 hl
    have hk (j : Nat) (hj : j ∈ l) : j < k := hlast j hj k (List.mem_singleton_self k)
    rw [scanFold_snoc, List.map_append, ih hl', List.map_append, List.map_singleton, List.map_singleton, scanValue_last op excl val hk]
    congr 1
    exact List.map_congr_left fun i hi => by rw [scanValue, scanValue, scanLanes_snoc excl l (hk i hi)]

theorem dropLastFlags_written (l : List (Nat × LaneOut)) : (dropLastFlags l).map written = l.map written := by
  rcases List.eq_nil_or_concat l with rfl | ⟨l, e, rfl⟩
  · rfl
  · rw [List.concat_eq_append, dropLastFlags_snoc, List.map_append, List.map_append]
    rfl

theorem scanExtent_written {l : List Nat} (hl : l.Pairwise (· < ·)) :
    (scanExtent op excl r val l).map written = l.map fun i => (i, [(r, scanValue op excl val l i)], []) := by
  rw [← scanFold_written op excl r val hl, scanExtent]
  split_ifs
  · exact dropLastFlags_written _
  · rfl

end

/-! ## SCAN (R124) -/

/-- Results of lanes that occur once are a map over the lanes. -/
theorem exists_flags {l : List Nat} (hnd : l.Nodup) {outs : List (Nat × LaneOut)} {out : Nat → List (Nat × W32)}
    {ps : Nat → List (Nat × Bool)} (h : outs.map written = l.map fun i => (i, out i, ps i)) :
    ∃ fl : Nat → FlagSet, outs = l.map fun i => (i, ⟨out i, ps i, fl i⟩) := by
  induction l generalizing outs with
  | nil => exact ⟨fun _ => FlagSet.none, List.map_eq_nil_iff.1 h⟩
  | cons i l ih =>
    obtain ⟨hi, hl⟩ := List.nodup_cons.1 hnd
    obtain ⟨e, outs, rfl, he, houts⟩ := List.map_eq_cons_iff.1 h
    obtain ⟨fl, rfl⟩ := ih hl houts
    refine ⟨Function.update fl i e.2.flags, ?_⟩
    rw [List.map_cons, Function.update_self]
    congr 1
    · obtain ⟨j, regs, preds, flags⟩ := e
      obtain ⟨rfl, rfl, rfl⟩ : j = i ∧ regs = out i ∧ preds = ps i := by simpa [written] using he
      rfl
    · refine List.map_congr_left fun j hj => ?_
      rw [Function.update_of_ne (ne_of_mem_of_not_mem hj hi)]

/-- The extents of a scan (R119). -/
def scanExtents (t : Team) (team : Bool) : List (List Nat) := if team then [lanesOf t] else (List.range 32).map (rowLanes t)

section
variable (op : RdxOp) (excl : Bool) (d a : VReg) (t : Team)

theorem scanOuts_eq (team : Bool) : scanOuts op team excl d a t =
    ((scanExtents t team).map (scanExtent op excl (ef t d) fun i => vnat t i a)).flatten := by
  cases team
  · rw [scanExtents, if_neg Bool.false_ne_true, List.map_map]
    rfl
  · exact (List.append_nil _).symm

theorem scanOuts_written (hl : t.lanes ≤ 1024) (team : Bool) : (scanOuts op team excl d a t).map written =
    (lanesOf t).map fun i => (i, [(ef t d, scanValue op excl (fun i => vnat t i a) (extentOf t team i) i)], []) := by
  rw [scanOuts_eq]
  cases team
  · rw [scanExtents, if_neg Bool.false_ne_true, List.map_flatten, List.map_map, List.map_map, ← flatten_rowLanes hl, List.map_flatten,
      List.map_map]
    congr 1
    refine List.map_congr_left fun w _ => (scanExtent_written op excl _ _ (rowLanes_ascending t w)).trans ?_
    refine List.map_congr_left fun i hi => ?_
    rw [extentOf_row, (mem_rowLanes.1 hi).2]
  · simp only [scanExtents, if_true, List.map_singleton, List.flatten_singleton, extentOf_team]
    exact scanExtent_written op excl _ _ (lanesOf_ascending t)

theorem flagAll_scanOuts (team : Bool) : flagAll ((scanOuts op team excl d a t).map (·.2.flags)) =
    flagAll ((scanExtents t team).map fun e => (scanTo op ((if excl then e.dropLast else e).map fun j => vnat t j a)).2) := by
  rw [scanOuts_eq, List.map_flatten, flagAll_flatten, List.map_map, List.map_map]
  congr 1
  exact List.map_congr_left fun e _ => flagAll_scanExtent op excl (ef t d) (fun j => vnat t j a) e

end

theorem scan_done {s : State} {u : Nat} {t : Team} {d a : VReg} (h : Issuing s u t) (hl : t.lanes ≤ 1024) (hf : Fits t [v1 a, v1 d])
    (op : RdxOp) (team excl : Bool) :
    CrossDone (.scan op team excl d a) s u t team [.v (ef t d)]
      (fun i => [(ef t d, scanValue op excl (fun i => vnat t i a) (extentOf t team i) i)]) (fun _ => [])
      (flagAll ((scanExtents t team).map fun e => (scanTo op ((if excl then e.dropLast else e).map fun j => vnat t j a)).2)) := by
  obtain ⟨fl, houts⟩ := exists_flags (lanesOf_nodup t) (scanOuts_written op excl d a t hl team)
  have hfl : flagAll ((lanesOf t).map fl) = flagAll ((scanOuts op team excl d a t).map (·.2.flags)) := by
    rw [houts, List.map_map]
    rfl
  have hfits : Fits t [v1 a, v1 d, v1 d] := fun r hr => hf r (by simpa using hr)
  rw [← flagAll_scanOuts op excl d a t team, ← hfl]
  exact crossReg_done (c := .scan op team excl d a) h (execScan.eq_1 ..) (accFits_noUniform hfits rfl) rfl (.head _) rfl
    fun _ => houts

/-- Settles O12, instruction by instruction. -/
theorem crossLaneInstructionsResults : Obligations.CrossLaneInstructionsResults := by
  intro s u t h hw hl d a b team x act dst one none
  refine ⟨fun hf => ⟨fun kind => shfl_done h hf kind team, fun kind => lmov_done h hf kind⟩, fun q neg => ?vote,
    fun hf => ⟨fun op => ?integer, fun op => ?rdx, fun op excl => ?scan⟩⟩
  case vote =>
    intro holds ext pd
    refine ⟨vote_pred_done h rfl team d q neg fun i => ?all, vote_pred_done h rfl team d q neg fun i => ?any,
      vote_pred_done h rfl team d q neg fun i => ?uni,
      fun hf => ⟨_, vote_ballot_done h team hf q neg, fun i _ j hj => getLsbD_ballotWord t (votes t q neg) _ hj⟩⟩
    all_goals
      rw [voteLane, filter_rowBase]
      rfl
  case integer =>
    cases hop : rdxInteger op
    · exact (rdxInteger_eq_false hop).imp_right (Or.imp_right .inl)
    · exact .inr (.inr (.inr ⟨_, rdx_integer_done h hw hl hf hop team, fun i _ => rdxAll_eq_number hop _⟩))
  case rdx =>
    have hdone := rdx_done h hl hf op team
    cases team <;> exact hdone
  case scan =>
    have hdone := scan_done h hl hf op team excl
    cases team <;> cases excl <;> exact hdone

end Sys2Proof.Machine

namespace Sys2Proof.Machine

/-! # The end of a group (O23-O28) -/

/-! ## The latched team (R47) -/

section
variable (s : State) (t : Team) (a : Access)

@[simp] theorem latch_cur : (latch s t a).cur = s.issue := rfl
@[simp] theorem latch_flow : (latch s t a).flow = t.flow := rfl
@[simp] theorem latch_lanes : (latch s t a).lanes = t.lanes := rfl
@[simp] theorem latch_bounds : (latch s t a).bounds = t.bounds := rfl
@[simp] theorem latch_core : (latch s t a).core = t.core := rfl
@[simp] theorem latch_part : (latch s t a).part = t.part := rfl
@[simp] theorem latch_ctx : (latch s t a).ctx = t.ctx := rfl
@[simp] theorem lanesOf_latch : lanesOf (latch s t a) = lanesOf t := rfl
@[simp] theorem kreg_latch (n : Nat) : kreg (latch s t a) n = kreg t n := rfl
@[simp] theorem preg_latch (i p : Nat) : preg (latch s t a) i p = preg t i p := rfl

end

/-! ## What the choice of the next address leaves (R126, R136, R137) -/

/-- What `advance` leaves of a team that is neither traced nor stepped alone. -/
def advanced (t : Team) (fl : Flow) (nexts : List (Nat × Nat)) (un : Option Nat) (redirect snap : Bool) : Team :=
  let b := bookGroup t
  match loopStep fl t.cur.word nexts un with
  | (fl1, nexts1, un1, back) =>
    match chooseNext fl1 nexts1 un1 with
    | none => { b with flow := fl1, status := .ending, counts := [], flight := [], walked := [], asks := [] }
    | some f =>
      let f1 := popLoops f
      let jump := if fl1.uni then un1 != some f1.pc else nexts1.all fun e => e.2 != f1.pc
      let drain := redirect || back || jump || f1.pc != t.cur.next
      { b with
        flow := f1, status := .ready, walked := [], asks := [], counts := if drain then [] else b.counts
        flight := if drain then [] else b.flight, snap := if snap then f1 else b.snap }

theorem bookGroup_keeps (t : Team) : (bookGroup t).cur = t.cur ∧ (bookGroup t).snap = t.snap ∧ (bookGroup t).lanes = t.lanes ∧
    (bookGroup t).flow = t.flow ∧ (bookGroup t).trace = t.trace ∧ (bookGroup t).stepOnce = t.stepOnce := by
  unfold bookGroup
  split <;> exact ⟨rfl, rfl, rfl, rfl, rfl, rfl⟩

theorem bookGroup_counts {t : Team} (h : t.booking = none) : bookGroup t = t := by
  unfold bookGroup
  rw [h]

/-- THE END OF A GROUP SAID ONCE: the team alone changes. -/
theorem advance_eq {s : State} {u : Nat} {t : Team} (hg : getTeam s u = t) (ht : t.trace.on = false) (hs : t.stepOnce = false)
    (fl : Flow) (nexts : List (Nat × Nat)) (un : Option Nat) (redirect snap : Bool) :
    advance s u fl nexts un redirect snap = setTeam s u (advanced t fl nexts un redirect snap) := by
  obtain ⟨hcur, -, -, -, htr, hst⟩ := bookGroup_keeps t
  have h1 : traced (bookGroup t) = false := by simp [traced, htr, ht]
  have h2 : (bookGroup t).stepOnce = false := hst.trans hs
  unfold advance advanced
  simp only [hg, hcur]
  rcases loopStep fl t.cur.word nexts un with ⟨fl1, nexts1, un1, back⟩
  dsimp only
  cases chooseNext fl1 nexts1 un1 with
  | none => simp only [h2, Bool.false_eq_true, if_false]
  | some f => simp only [h1, h2, Bool.false_and, Bool.false_eq_true, if_false]

section
variable {t : Team} {fl fl1 : Flow} {nexts nexts1 : List (Nat × Nat)} {un un1 : Option Nat} {redirect snap back : Bool}

/-- A team with no next address ends. -/
theorem advanced_none (hl : loopStep fl t.cur.word nexts un = (fl1, nexts1, un1, back)) (hc : chooseNext fl1 nexts1 un1 = none) :
    (advanced t fl nexts un redirect snap).status = .ending ∧ (advanced t fl nexts un redirect snap).flow = fl1 := by
  unfold advanced
  simp only [hl, hc, and_self]

/-- A team with a next address goes on there, in its region or in a new one. -/
theorem advanced_some {f : Flow} (hl : loopStep fl t.cur.word nexts un = (fl1, nexts1, un1, back))
    (hc : chooseNext fl1 nexts1 un1 = some f) :
    (advanced t fl nexts un redirect snap).status = .ready ∧ (advanced t fl nexts un redirect snap).flow = popLoops f := by
  unfold advanced
  simp only [hl, hc, and_self]

theorem advanced_moved : Moved t (advanced t fl nexts un redirect snap) := by
  have hb := bookGroup_moved t
  unfold advanced
  rcases loopStep fl t.cur.word nexts un with ⟨fl1, nexts1, un1, back⟩
  dsimp only
  cases chooseNext fl1 nexts1 un1 <;> (rw [hb]; rfl)

/-- Within its region a team keeps its snapshot. -/
theorem advanced_snap : (advanced t fl nexts un redirect false).snap = t.snap := by
  unfold advanced
  rcases loopStep fl t.cur.word nexts un with ⟨fl1, nexts1, un1, back⟩
  dsimp only
  cases chooseNext fl1 nexts1 un1 <;> exact (bookGroup_keeps t).2.1

/-- A new region's snapshot is the place where the team goes on. -/
theorem advanced_newSnap (h : (advanced t fl nexts un redirect true).status = .ready) :
    (advanced t fl nexts un redirect true).snap = (advanced t fl nexts un redirect true).flow := by
  revert h
  unfold advanced
  rcases loopStep fl t.cur.word nexts un with ⟨fl1, nexts1, un1, back⟩
  dsimp only
  cases chooseNext fl1 nexts1 un1 with
  | none => rintro ⟨⟩
  | some f => exact fun _ => rfl

/-- A team that goes on to the word after its group without a transfer keeps its counts. -/
theorem advanced_counts (hl : loopStep fl t.cur.word nexts un = (fl, nexts, un, false)) (hu : fl.uni = false) {e : Nat × Nat}
    (he : e ∈ nexts) (hn : e.2 = t.cur.next) (hb : t.booking = none)
    (hp : (advanced t fl nexts un false snap).flow.pc = t.cur.next) (hr : (advanced t fl nexts un false snap).status = .ready) :
    (advanced t fl nexts un false snap).counts = t.counts := by
  revert hp hr
  unfold advanced
  simp only [hl, bookGroup_counts hb]
  cases chooseNext fl nexts un with
  | none => rintro - ⟨⟩
  | some f =>
    dsimp only
    intro hp _
    have hj : (nexts.all fun e => e.2 != t.cur.next) = false := by
      rw [List.all_eq_false]
      exact ⟨e, he, by simp [hn]⟩
    simp only [hu, hp, hj, Bool.false_eq_true, if_false, bne_self_eq_false, Bool.or_self]

end

/-- The popped loops are no part of the choice. -/
theorem Chosen.popped {nl : Nat} {fl f : Flow} {next : Nat → Nat} (h : Chosen nl fl f next) : Chosen nl fl (popLoops f) next :=
  ⟨h.reached, h.leastNext, h.leastResume, h.active, h.others, h.depth, h.x⟩

theorem loopStep_none {fl : Flow} (h : ∀ e ∈ fl.loops, e.on = false) (w : Nat) (nexts : List (Nat × Nat)) (un : Option Nat) :
    loopStep fl w nexts un = (fl, nexts, un, false) :=
  loopStep_off (t := { Team.blank with flow := fl }) h w nexts un

/-- THE NEXT ADDRESS OF A TEAM WITH ACTIVE LANES SAID ONCE (R126), for what its loops make of the flow and the next addresses. -/
theorem advanced_chosen_of {t : Team} {fl fl1 : Flow} {nl : Nat} {nexts : List (Nat × Nat)} {next : Nat → Nat} {un un1 : Option Nat}
    {back : Bool} (hl : loopStep fl t.cur.word nexts un = (fl1, (activeLanes nl fl1).map fun i => (i, next i), un1, back))
    (huni : fl1.uni = false) (hs : tabSorted fl1.lanes = true) (hne : activeLanes nl fl1 ≠ []) (redirect snap : Bool) :
    let t' := advanced t fl nexts un redirect snap
    ∃ f, t'.flow = popLoops f ∧ f.loops = fl1.loops ∧ t'.status = .ready ∧ t'.flow.uni = false ∧ Chosen nl fl1 t'.flow next := by
  obtain ⟨f, hf, hch, hlo, hu⟩ := chooseNext_chosen next un1 huni hs hne
  obtain ⟨h1, h2⟩ := advanced_some (t := t) (redirect := redirect) (snap := snap) hl hf
  exact ⟨f, h2, hlo, h1, by rw [h2]; exact hu, by rw [h2]; exact hch.popped⟩

/-- The same where no loop is active. -/
theorem advanced_chosen {t : Team} {fl : Flow} {nl : Nat} {next : Nat → Nat} {un : Option Nat}
    (hl : ∀ e ∈ fl.loops, e.on = false) (huni : fl.uni = false) (hs : tabSorted fl.lanes = true) (hne : activeLanes nl fl ≠ [])
    (redirect snap : Bool) :
    let t' := advanced t fl ((activeLanes nl fl).map fun i => (i, next i)) un redirect snap
    t'.status = .ready ∧ t'.flow.loops = fl.loops ∧ t'.flow.uni = false ∧ Chosen nl fl t'.flow next := by
  obtain ⟨f, h1, h2, h3, h4, h5⟩ := advanced_chosen_of (t := t) (loopStep_none hl ..) huni hs hne redirect snap
  refine ⟨h3, ?_, h4, h5⟩
  rw [h1, popLoops_off (by rw [h2]; exact hl), h2]

/-- Where no active lane goes on and lanes wait at the depth, the team goes to the frontier (R126). -/
theorem chooseNext_frontier {fl : Flow} {n : Nat} (huni : fl.uni = false) (hf : frontier fl fl.depth = some n) :
    chooseNext fl [] none = some { mergeAt fl fl.depth n with pc := n, depth := fl.depth, uni := false } := by
  unfold chooseNext
  simp [huni, hf, omin, goTo]

theorem frontier_some {fl : Flow} {d : Nat} (h : waitingAt fl d ≠ []) : ∃ n, frontier fl d = some n := by
  cases hf : frontier fl d with
  | none => exact absurd ((foldl_omin _ none).2.1 hf).2 h
  | some n => exact ⟨n, rfl⟩

theorem advanced_frontier {t : Team} {fl : Flow} {n : Nat} (hl : ∀ e ∈ fl.loops, e.on = false) (huni : fl.uni = false)
    (hs : tabSorted fl.lanes = true) (hf : frontier fl fl.depth = some n) (redirect snap : Bool) :
    let t' := advanced t fl [] none redirect snap
    t'.status = .ready ∧ t'.flow.pc = n ∧ t'.flow.depth = fl.depth ∧
      ∀ i, laneState t'.flow i = if laneState fl i = .waiting n fl.depth then .active else laneState fl i := by
  obtain ⟨hlo, -, hst⟩ := mergeAt_state hs fl.depth n
  obtain ⟨h1, h2⟩ := advanced_some (t := t) (redirect := redirect) (snap := snap) (loopStep_none hl _ [] none)
    (chooseNext_frontier huni hf)
  exact ⟨h1, by rw [h2]; rfl, by rw [h2]; rfl, fun i => by rw [h2]; exact hst i⟩

/-! ## The end of a group in a step (R437) -/

theorem find?_of_teamOnly {s : State} {u : Nat} (t' : Team) : TeamOnly s (setTeam s u t') u :=
  ⟨rfl, fun n hn => by rw [find?_setTeam, if_neg hn]⟩

/-- A group ends that has changed `t0` of its team and nothing else. -/
theorem group_ends {s : State} {u : Nat} {t0 t1 : Team} (hq : Quiet s) (hl : t1 = { t0 with cur := s.issue, booking := t1.booking })
    (ht : t0.trace.on = false) (hs : t0.stepOnce = false) (fl : Flow) (nexts : List (Nat × Nat)) (un : Option Nat)
    (redirect : Bool) :
    let t' := advanced t1 fl nexts un redirect false
    done (advance (setTeam s u t1) u fl nexts un redirect false) = .next (setTeam s u t') ∧
      find? (setTeam s u t').teams u = some t' ∧ TeamOnly s (setTeam s u t') u ∧ Onward s t0 t' := by
  have hm : Moved t1 (advanced t1 fl nexts un redirect false) := advanced_moved
  have hsn : (advanced t1 fl nexts un redirect false).snap = t0.snap := by rw [advanced_snap, hl]
  refine ⟨?_, by rw [find?_setTeam, if_pos rfl], find?_of_teamOnly _, ?_⟩
  · rw [advance_eq (t := t1) (by simp) (by rw [hl]; exact ht) (by rw [hl]; exact hs), setTeam_setTeam,
      done_of_quiet (hq.setTeam ..)]
  · rw [Moved, hsn] at hm
    rw [Onward, hm, hl]

theorem activeLanes_congr {nl : Nat} {a b : Flow} (h : a.lanes = b.lanes) : activeLanes nl a = activeLanes nl b := by
  unfold activeLanes laneActive laneState
  rw [h]

/-! # NOP, LAND and the hints (O23) -/

theorem noAccess_fits (t : Team) : AccFits t noAccess := ⟨fun _ h => absurd h List.not_mem_nil, fun _ h => absurd h List.not_mem_nil⟩

/-- The begin of a hint's group, which books nothing. -/
theorem beginHint_issuing {s : State} {u : Nat} {t : Team} (h : Issuing s u t) :
    beginGroup s none = setTeam s u { t with cur := s.issue, booking := none } := by
  have hg : getTeam s u = t := getTeam_of_find h.team
  have hy : (setTeam s u { t with cur := s.issue, booking := none }).teams.any (fun e => e.2.yielded.contains u) = false := by
    rw [List.any_eq_false]
    intro e he
    rw [List.contains_iff_mem]
    rcases mem_tabPut he with rfl | he
    · exact fun hu => h.unawaited _ (find?_mem h.team) hu
    · exact h.unawaited e he
  unfold beginGroup
  simp only [h.latched, hg, hy, Bool.false_eq_true, if_false, traced, h.untraced, Bool.false_and]

/-- An instruction of no effect, and a hint, end a group that has changed at most the counts `c` of its team. -/
theorem hint_ends {s : State} {u : Nat} {t : Team} (h : Issuing s u t) (c : List Nat) :
    let t' := advanced { t with cur := s.issue, booking := none, counts := c } t.flow (plainNexts { t with cur := s.issue })
      (some s.issue.next) false false
    done (fallThrough (setTeam s u { t with cur := s.issue, booking := none, counts := c }) u false) = .next (setTeam s u t') ∧
      find? (setTeam s u t').teams u = some t' ∧ TeamOnly s (setTeam s u t') u ∧ Onward s { t with counts := c } t' := by
  have hg : getTeam (setTeam s u { t with cur := s.issue, booking := none, counts := c }) u =
      { t with cur := s.issue, booking := none, counts := c } := by simp
  rw [fallThrough, hg]
  exact group_ends (t0 := { t with counts := c }) h.quiet rfl h.untraced h.alone t.flow _ _ false

/-- What O23 says of a team that ends its group with its counts `c`. -/
theorem hint_goesOn {t : Team} {is : Issue} {c : List Nat} (hne : lanesOf t ≠ []) (hu : t.flow.uni = false) (hl : NoLoops t)
    (hs : tabSorted t.flow.lanes = true) :
    let t' := advanced { t with cur := is, booking := none, counts := c } t.flow (plainNexts { t with cur := is }) (some is.next)
      false false
    Chosen t.lanes t.flow t'.flow (fun _ => is.next) ∧ (t'.flow.pc = is.next → t'.counts = c) := by
  obtain ⟨i, hi⟩ := List.exists_mem_of_ne_nil _ hne
  obtain ⟨h1, -, -, h4⟩ := advanced_chosen (t := { t with cur := is, booking := none, counts := c }) (nl := t.lanes) (next := fun _ => is.next)
    (un := some is.next) hl hu hs hne false false
  refine ⟨h4, fun hp => ?_⟩
  exact advanced_counts (t := { t with cur := is, booking := none, counts := c }) (e := (i, is.next)) (loopStep_none hl ..) hu
    (List.mem_map.2 ⟨i, hi, rfl⟩) rfl rfl hp h1

/-- NOP and LAND go on to the next word. -/
theorem noEffect_ends {s : State} {u : Nat} {t : Team} (h : Issuing s u t) :
    ∃ t', issueOp noAccess (fun s u _ => done (fallThrough s u false)) s = .next (setTeam s u t') ∧ Passed s t t' := by
  obtain ⟨t', he, hp⟩ := fallThrough_passed (s1 := setTeam s u (latch s t noAccess)) (t0 := t) (t1 := latch s t noAccess) h noAccess
    (by simp) rfl ⟨rfl, rfl, rfl, rfl, rfl⟩
  refine ⟨t', ?_, hp⟩
  rw [issueOp_issuing h (noAccess_fits t)]
  simp only [show noAccess.vector = false from rfl, Bool.false_and, Bool.false_eq_true, if_false]
  rw [he, setTeam_setTeam, done_of_quiet (h.quiet.setTeam ..)]

/-- An instruction of no effect, or a hint, has ended its group, with the counts `cs` at its end. -/
def HintEnds (c : Instr) (s : State) (u : Nat) (t : Team) : Prop :=
  ∃ t' cs, exec c s = .next (setTeam s u t') ∧ Onward s { t with counts := cs } t' ∧ (c = .nop ∨ c = .land → Passed s t t') ∧
    (lanesOf t ≠ [] → t.flow.uni = false → NoLoops t → tabSorted t.flow.lanes = true →
      Chosen t.lanes t.flow t'.flow (fun _ => s.issue.next) ∧
        ∀ f, c = .hintStall f → t'.flow.pc = s.issue.next → t'.counts = stallCounts f)

theorem hintEnds_of_noEffect {c : Instr} {s : State} {u : Nat} {t : Team} (h : Issuing s u t) (hns : ∀ f, c ≠ .hintStall f)
    (hexec : exec c s = issueOp noAccess (fun s u _ => done (fallThrough s u false)) s) : HintEnds c s u t := by
  obtain ⟨t', he, hp⟩ := noEffect_ends h
  exact ⟨t', t.counts, hexec.trans he, hp.1, fun _ => hp,
    fun hne hu hl hs => ⟨((hp.2 hl hs).1 hne hu).2.2, fun f hf => absurd hf (hns f)⟩⟩

theorem hintEnds_of_hint {c : Instr} {s : State} {u : Nat} {t : Team} (h : Issuing s u t) (cs : List Nat)
    (hexec : exec c s = done (fallThrough (setTeam s u { t with cur := s.issue, booking := none, counts := cs }) u false))
    (hn : ¬ (c = .nop ∨ c = .land)) (hcs : ∀ f, c = .hintStall f → cs = stallCounts f) : HintEnds c s u t := by
  obtain ⟨he, -, -, hw⟩ := hint_ends h cs
  refine ⟨_, cs, hexec.trans he, hw, fun hc => absurd hc hn, fun hne hu hl hs => ?_⟩
  obtain ⟨h1, h2⟩ := hint_goesOn (is := s.issue) (c := cs) hne hu hl hs
  exact ⟨h1, fun f hf hp => (h2 hp).trans (hcs f hf)⟩

/-- Settles O23: NOP and LAND fall through; a stall hint replaces the counts, which the group keeps where it goes on to the next word. -/
theorem instructionsOfNoEffectGoOn : Obligations.InstructionsOfNoEffectGoOn := by
  intro s u t h c hc
  suffices key : HintEnds c s u t by
    obtain ⟨t', cs, he, hw, hp, hgo⟩ := key
    exact ⟨_, t', he, by rw [find?_setTeam, if_pos rfl], find?_of_teamOnly _, hp, by rw [hw], by rw [hw], by rw [hw], by rw [hw], hgo⟩
  rcases hc with rfl | rfl | ⟨f, rfl⟩ | ⟨m, rfl⟩
  · exact hintEnds_of_noEffect h (by simp) rfl
  · exact hintEnds_of_noEffect h (by simp) rfl
  · refine hintEnds_of_hint h (stallCounts f) ?_ (by simp) (by simp)
    show execHintStall f s = _
    rw [execHintStall, h.latched, beginHint_issuing h, modTeam_eq, setTeam_setTeam, getTeam_setTeam, if_pos rfl]
  · refine hintEnds_of_hint h t.counts ?_ (by simp) (by simp)
    show execHintMark m s = _
    rw [execHintMark, h.latched, beginHint_issuing h]
    simp only [getTeam_setTeam, if_true, traced, h.untraced, Bool.false_and, Bool.false_eq_true, if_false]

end Sys2Proof.Machine

namespace Sys2Proof.Machine

/-! # BRA, BRK and JMPI (O24) -/

/-- In normal mode a transfer makes no tile undecided (R345). -/
theorem transferWith_normal {s : State} {u : Nat} (h : (getTeam s u).bounds = false) (fl : Flow → Flow) (nexts : List (Nat × Nat))
    (un : Option Nat) (redirect : Bool) :
    transferWith s u [] fl nexts un redirect = advance s u (fl (getTeam s u).flow) nexts un redirect false := by
  have hs : strayLanes (getTeam s u) nexts = [] := by simp [strayLanes, h]
  have ho : ((lanesOf (getTeam s u)).filter fun i => ([] : List Nat).contains i || ([] : List Nat).contains i) = [] := by simp
  have hn : (nexts.filter fun e => !([] : List Nat).contains e.1) = nexts := by simp
  unfold transferWith
  simp only [hs, ho, hn]
  rfl

theorem transfer_normal {s : State} {u : Nat} (h : (getTeam s u).bounds = false) (fl : Flow → Flow) (nexts : List (Nat × Nat))
    (un : Option Nat) (redirect : Bool) :
    transfer s u fl nexts un redirect = advance s u (fl (getTeam s u).flow) nexts un redirect false :=
  transferWith_normal h fl nexts un redirect

/-- THE END OF A BRANCH SAID ONCE: with the team's change `t0` of its registers and `fl` of its flow, its active lanes go to `next`. -/
theorem branch_ends {s : State} {u : Nat} {t0 t1 : Team} (hq : Quiet s) (hl : t1 = { t0 with cur := s.issue, booking := t1.booking })
    (ht : t0.trace.on = false) (hs : t0.stepOnce = false) {fl : Flow} (hoff : ∀ e ∈ fl.loops, e.on = false) (huni : fl.uni = false)
    (hso : tabSorted fl.lanes = true) (hne : activeLanes t0.lanes fl ≠ []) (next : Nat → Nat) (un : Option Nat) (redirect : Bool) :
    ∃ s' t', done (advance (setTeam s u t1) u fl ((activeLanes t0.lanes fl).map fun i => (i, next i)) un redirect false) = .next s' ∧
      find? s'.teams u = some t' ∧ TeamOnly s s' u ∧ Onward s t0 t' ∧ Chosen t0.lanes fl t'.flow next := by
  obtain ⟨he, hf, ho, hw⟩ := group_ends (u := u) hq hl ht hs fl ((activeLanes t0.lanes fl).map fun i => (i, next i)) un redirect
  obtain ⟨-, -, -, hc⟩ := advanced_chosen (t := t1) (next := next) (un := un) hoff huni hso hne redirect false
  exact ⟨_, _, he, hf, ho, hw, hc⟩

/-- BRA (R129). -/
theorem bra_ends {s : State} {u : Nat} {t : Team} (h : Issuing s u t) (hne : lanesOf t ≠ []) (hu : t.flow.uni = false)
    (hl : NoLoops t) (hs : tabSorted t.flow.lanes = true) (p : PReg) (neg : Bool) (off : BitVec 21) :
    ∃ s' t', exec (.bra p neg off) s = .next s' ∧ find? s'.teams u = some t' ∧ TeamOnly s s' u ∧ Onward s t t' ∧
      Chosen t.lanes t.flow t'.flow
        (fun i => if xor (preg t i p.toNat) neg then wordOff s.issue.word off.toInt else s.issue.next) := by
  set a : Access := { noAccess with rp := [p.toNat], vector := true } with ha
  have hfits : AccFits t a := ⟨(noAccess_fits t).vec, (noAccess_fits t).uni⟩
  obtain ⟨s', t', he, hr⟩ := branch_ends (u := u) (t0 := t) (t1 := latch s t a) h.quiet rfl h.untraced h.alone hl hu hs hne
    (fun i => if xor (preg t i p.toNat) neg then wordOff s.issue.word off.toInt else s.issue.next) (some s.issue.next)
    ((lanesOf t).all fun i => xor (preg t i p.toNat) neg)
  refine ⟨s', t', ?_, hr⟩
  show execBra p neg off s = _
  rw [execBra, issueOp_issuing h hfits, if_neg (by simp [hne])]
  simp only [show (latch s t a).bounds = false from h.mode, Bool.false_eq_true, if_false]
  exact he

/-- BRK (R130): one test of a uniform register sends every active lane. -/
theorem brk_ends {s : State} {u : Nat} {t : Team} (h : Issuing s u t) (hne : lanesOf t ≠ []) (hu : t.flow.uni = false)
    (hl : NoLoops t) (hs : tabSorted t.flow.lanes = true) {a : KReg} (ha : a.toNat ≤ 383) (c : BrkCond) (off : BitVec 13) :
    ∃ s' t', exec (.brk a c off) s = .next s' ∧ find? s'.teams u = some t' ∧ TeamOnly s s' u ∧ Onward s t t' ∧
      Chosen t.lanes t.flow t'.flow
        (fun _ => if brkHolds c (kreg t a.toNat).toInt then wordOff s.issue.word off.toInt else s.issue.next) := by
  set acc : Access := { noAccess with rk := if c = .al then [] else [(a.toNat, 1)] } with hacc
  have hfits : AccFits t acc := by
    refine ⟨(noAccess_fits t).vec, fun e he => ?_⟩
    have : e = (a.toNat, 1) := by
      simp only [hacc, noAccess, List.append_nil] at he
      split_ifs at he with hc
      · exact absurd he List.not_mem_nil
      · exact List.mem_singleton.1 he
    subst this; dsimp only; omega
  have hb : (getTeam (setTeam s u (latch s t acc)) u).bounds = false := by
    rw [getTeam_setTeam, if_pos rfl]; exact h.mode
  have hk : kreg (latch s t acc) a.toNat = kreg t a.toNat := rfl
  have hexec : exec (.brk a c off) s =
      if brkHolds c (kreg t a.toNat).toInt then
        done (advance (setTeam s u (latch s t acc)) u t.flow (allTo t (wordOff s.issue.word off.toInt))
          (some (wordOff s.issue.word off.toInt)) true false)
      else done (advance (setTeam s u (latch s t acc)) u t.flow (allTo t s.issue.next) (some s.issue.next) false false) := by
    show execBrk a c off s = _
    rw [execBrk, issueOp_issuing h hfits]
    simp only [show acc.vector = false from rfl, Bool.false_and, Bool.false_eq_true, if_false, hk, transfer_normal hb, fallThrough,
      getTeam_setTeam, if_true]
    rfl
  have hend := fun (n : Nat) (r : Bool) => branch_ends (u := u) (t0 := t) (t1 := latch s t acc) h.quiet rfl h.untraced h.alone hl hu hs
    hne (fun _ => n) (some n) r
  rw [hexec]
  split
  · exact hend ..
  · exact hend ..

/-! ## JMPI (R131) -/

/-- The check of a target does not depend on the latched group. -/
theorem xlateWalk_setTeam (s : State) (u : Nat) (x : Team) (id va : Nat) (n : Need) :
    xlateWalk (setTeam s u x) id va n = xlateWalk s id va n := by
  simp only [xlateWalk, walk_setTeam]

theorem fetchWord_latch (s : State) (u : Nat) (t x : Team) (a : Access) (va : Nat) :
    fetchWord (setTeam s u x) (latch s t a) va = fetchWord s t va := by
  have hp : placePoison (setTeam s u x) = placePoison s := rfl
  have hb : placeBytes (setTeam s u x) = placeBytes s := rfl
  have ha : askedOf (latch s t a) = askedOf t := rfl
  simp only [fetchWord, xlateWalk_setTeam, hp, hb, ha]
  rfl

theorem landingAt_latch (s : State) (u : Nat) (t x : Team) (a : Access) (va : Nat) :
    landingAt (setTeam s u x) (latch s t a) va = landingAt s t va := by
  simp only [landingAt, xlateWalk_setTeam, fetchWord_latch]
  rfl

theorem landingPages_latch (s : State) (u : Nat) (t x : Team) (a : Access) (as : List Nat) :
    landingPages (setTeam s u x) (latch s t a) as = landingPages s t as := by
  have h : pageKey (setTeam s u x) (latch s t a).ctx = pageKey s t.ctx := funext fun va => pageKey_setTeam ..
  rw [landingPages, landingPages, h]

/-- A walk that brings a leaf changes the walkers, and sets an ACC bit in table space (R363). -/
theorem bring_only (s : State) (die id va : Nat) :
    bring s die id va = { s with walkers := (bring s die id va).walkers, tspace := (bring s die id va).tspace } := by
  have hc : ∀ a m, setCompanion s a m =
      { s with walkers := (setCompanion s a m).walkers, tspace := (setCompanion s a m).tspace } := by
    intro a m
    unfold setCompanion
    dsimp only
    split_ifs <;> rfl
  unfold bring
  split
  · rfl
  · split
    · rfl
    · unfold tlbInstall
      dsimp only
      split_ifs
      · exact hc ..
      · rw [hc]

theorem bring_setTeam (s : State) (u : Nat) (x : Team) (die id va : Nat) :
    bring (setTeam s u x) die id va = setTeam (bring s die id va) u x := by
  have hc : ∀ a m, setCompanion (setTeam s u x) a m = setTeam (setCompanion s a m) u x := by
    intro a m
    unfold setCompanion
    rw [show tableWord (setTeam s u x) = tableWord s from rfl]
    dsimp only
    split_ifs <;> rfl
  unfold bring
  rw [show tlbFind (setTeam s u x) die id va = tlbFind s die id va from rfl, walk_setTeam]
  split
  · rfl
  · split
    · rfl
    · unfold tlbInstall
      dsimp only
      rw [hc, setTeam_walkers]
      split_ifs <;> rfl

theorem foldl_bring_setTeam (u : Nat) (x : Team) (die id : Nat) (l : List (Nat × Nat)) (s : State) :
    l.foldl (fun s e => bring s die id e.2) (setTeam s u x) = setTeam (l.foldl (fun s e => bring s die id e.2) s) u x := by
  induction l generalizing s with
  | nil => rfl
  | cons e l ih => rw [List.foldl_cons, List.foldl_cons, bring_setTeam, ih]

theorem foldl_bring_only (die id : Nat) (l : List (Nat × Nat)) (s : State) :
    let s' := l.foldl (fun s e => bring s die id e.2) s
    s' = { s with walkers := s'.walkers, tspace := s'.tspace } := by
  induction l generalizing s with
  | nil => rfl
  | cons e l ih =>
    rw [List.foldl_cons, ih, bring_only]

/-- JMPI (R131) whose targets may all be landed on. -/
theorem jmpi_ends {s : State} {u : Nat} {t : Team} (h : Issuing s u t) (hne : lanesOf t ≠ []) (hu : t.flow.uni = false)
    (hl : NoLoops t) (hs : tabSorted t.flow.lanes = true) {a : VReg} {k : KReg} (hk : k.toNat ≤ 383) (hf : Fits t [v1 a])
    {target : Nat → Nat} (ht : ∀ i, target i = ((kreg t k.toNat).toNat + vnat t i a) % 2 ^ 64)
    (hland : ∀ i ∈ lanesOf t, landingAt s t (target i) = .ok)
    (hpages : pagesUnknown s (dieOf t.core) t (landingPages s t ((lanesOf t).map target)) = []) :
    ∃ s' t', exec (.jmpi a k) s = .next s' ∧ find? s'.teams u = some t' ∧ Onward s t t' ∧
      s' = { s with teams := s'.teams, walkers := s'.walkers, tspace := s'.tspace } ∧
      (∀ n, n ≠ u → find? s'.teams n = find? s.teams n) ∧ Chosen t.lanes t.flow t'.flow target := by
  set acc : Access := { noAccess with rv := [v1 a], rk := [(k.toNat, 1)], vector := true } with hacc
  set nexts := (lanesOf t).map fun i => (i, target i) with hnx
  set s1 := nexts.foldl (fun s e => bring s (dieOf t.core) t.ctx e.2) s with hs1
  have hfits : AccFits t acc := by
    refine ⟨by simpa [hacc, noAccess] using hf, fun e he => ?_⟩
    have : e = (k.toNat, 1) := by simpa [hacc, noAccess] using he
    subst this; dsimp only; omega
  have hwhole : (latch s t acc).kLane = [] := h.whole
  have hka : ∀ i, kregAt (latch s t acc) i k.toNat = kreg t k.toNat := fun i => by
    rw [kregAt, hwhole]; rfl
  have hbring := foldl_bring_only (dieOf t.core) t.ctx nexts s
  rw [← hs1] at hbring
  have hq : Quiet s1 := by
    rw [hbring]; exact ⟨h.quiet.dev, h.quiet.devNone, h.quiet.ctx, h.quiet.ctxNone⟩
  have hissue : s1.issue = s.issue := by rw [hbring]
  have hteams : s1.teams = s.teams := by rw [hbring]
  obtain ⟨s', t', he, h1, h2, h3, h4⟩ := branch_ends (s := s1) (u := u) (t0 := t) (t1 := latch s t acc) hq (by rw [hissue]; rfl)
    h.untraced h.alone hl hu hs hne target (some s.issue.next) true
  refine ⟨s', t', ?_, h1, ?_, ?_, fun n hn => (h2.others n hn).trans (by rw [hteams]), h4⟩
  · show execJmpi a k s = _
    have hall : ((lanesOf t).filter fun i => !([] : List Nat).contains i) = lanesOf t := by simp
    have hmap : (nexts.map fun e => (e, landingAt s t e.2)) = nexts.map fun e => (e, Landing.ok) := by
      refine List.map_congr_left fun e he => ?_
      obtain ⟨i, hi, rfl⟩ := List.mem_map.1 he
      rw [hland i hi]
    have hsnd : nexts.map (·.2) = (lanesOf t).map target := by simp [hnx]
    have hb : (getTeam (setTeam s1 u (latch s t acc)) u).bounds = false := by
      rw [getTeam_setTeam, if_pos rfl]; exact h.mode
    rw [execJmpi, issueOp_issuing h hfits, if_neg (by simp [hne])]
    simp only [show (latch s t acc).bounds = false from h.mode, Bool.false_eq_true, if_false, hka, show lanesOf (latch s t acc) = lanesOf t from rfl,
      hall, show ∀ i, vnat (latch s t acc) i a = vnat t i a from fun _ => rfl, ← ht, ← hnx, hsnd, landingPages_latch,
      landingAt_latch, hmap, show (latch s t acc).core = t.core from rfl, show (latch s t acc).ctx = t.ctx from rfl,
      show ∀ x y, pagesUnknown (setTeam s u x) (dieOf t.core) (latch s t acc) y = pagesUnknown s (dieOf t.core) t y from fun _ _ => rfl,
      hpages, List.filterMap_map, Function.comp_def, List.filterMap_none, List.isEmpty_nil, Bool.not_true, foldl_bring_setTeam,
      ← hs1, transferWith_normal hb, getTeam_setTeam, if_true]
    exact he
  · rw [Onward, hissue] at h3; exact h3
  · have hr := h2.rest
    rw [hbring] at hr
    rw [hr]

/-- Settles O24: the next addresses of the active lanes are those the branch names, and the least of them is chosen. -/
theorem branchesChooseTheLeastAddress : Obligations.BranchesChooseTheLeastAddress := by
  intro s u t h hne hu hl hs
  refine ⟨fun p neg off => bra_ends h hne hu hl hs p neg off, fun a c off ha => brk_ends h hne hu hl hs ha c off, ?_⟩
  intro a k hk hf target hland hpages
  exact jmpi_ends h hne hu hl hs hk hf (fun _ => rfl) hland hpages

end Sys2Proof.Machine

namespace Sys2Proof.Machine

/-! # CALL, RET, LOOP and SETX (O25) -/

theorem uniFits {t : Team} {a : Access} (h1 : a.rv = []) (h2 : a.wv = []) (h3 : ∀ e ∈ a.rk ++ a.wk, e.1 + e.2 ≤ 384) : AccFits t a :=
  ⟨by rw [h1, h2]; exact fun _ h => absurd h List.not_mem_nil, h3⟩

/-- A uniform instruction that reads one register within the file. -/
theorem readsOne_fits (t : Team) {a : KReg} (ha : a.toNat ≤ 383) : AccFits t { noAccess with rk := [(a.toNat, 1)] } :=
  uniFits rfl rfl fun e he => by
    have : e = (a.toNat, 1) := List.mem_singleton.1 (by simpa [noAccess] using he)
    subst this; dsimp only; omega

/-- A uniform instruction of a team in normal mode runs its effect on the latched team. -/
theorem issueOp_uniform {s : State} {u : Nat} {t : Team} (h : Issuing s u t) {a : Access} (hf : AccFits t a) (hv : a.vector = false)
    (eff : State → Nat → Team → Out) : issueOp a eff s = eff (setTeam s u (latch s t a)) u (latch s t a) := by
  rw [issueOp_issuing h hf, hv]
  simp

/-- A transfer of a team in normal mode, which is `x`. -/
theorem transfer_team {s : State} {u : Nat} {x : Team} (hx : x.bounds = false) (fl : Flow → Flow) (nexts : List (Nat × Nat))
    (un : Option Nat) (redirect : Bool) :
    transfer (setTeam s u x) u fl nexts un redirect = advance (setTeam s u x) u (fl x.flow) nexts un redirect false := by
  have hg : getTeam (setTeam s u x) u = x := by simp
  rw [transfer_normal (by rw [hg]; exact hx), hg]

/-- RET of a team in normal mode (R134). -/
theorem ret_normal {s : State} {u : Nat} {t : Team} (h : Issuing s u t) {a : KReg} (ha : a.toNat ≤ 383) (hd : t.flow.depth ≠ 0) :
    exec (.ret a) s =
      let x := latch s t { noAccess with rk := [(a.toNat, 1)] }
      if (waitingAt t.flow t.flow.depth).isEmpty then
        done (advance (setTeam s u x) u { t.flow with depth := t.flow.depth - 1 } (allTo t (kreg t a.toNat).toNat)
          (some (kreg t a.toNat).toNat) true false)
      else
        done (advance (setTeam s u x) u (setLanes t.flow (lanesOf t) (.waiting (kreg t a.toNat).toNat (t.flow.depth - 1))) [] none
          true false) := by
  set x := latch s t { noAccess with rk := [(a.toNat, 1)] } with hx
  have hb : x.bounds = false := h.mode
  have hstray : (lanesOf x).filter (retStray x (x.flow.depth - 1) ++ strayLanes x (allTo x (kreg x a.toNat).toNat)).contains = [] := by
    simp [retStray, strayLanes, hb]
  show execRet a s = _
  rw [execRet, issueOp_uniform h (readsOne_fits t ha) rfl]
  simp only [← hx, show x.flow.depth ≠ 0 from hd, if_false, hstray, undecideAll, List.foldl_nil, getTeam_setTeam, if_true]
  rfl

/-! ## Lanes that wait at another depth (R134) -/

theorem sorted_setLanes (l : List Nat) (v : LaneState) {fl : Flow} (h : tabSorted fl.lanes = true) :
    tabSorted (setLanes fl l v).lanes = true := by
  induction l generalizing fl with
  | nil => exact h
  | cons i l ih => exact ih (sorted_setLane h i v)

theorem setLanes_only (l : List Nat) (v : LaneState) (fl : Flow) : setLanes fl l v = { fl with lanes := (setLanes fl l v).lanes } := by
  induction l generalizing fl with
  | nil => rfl
  | cons i l ih =>
    rw [setLanes, List.foldl_cons, ← setLanes, ih (setLane fl i v)]
    rfl

theorem frontier_none {fl : Flow} {d : Nat} : frontier fl d = none ↔ waitingAt fl d = [] := by
  rw [frontier, (foldl_omin _ none).2]
  simp

/-- The frontier is the least resume address at the depth. -/
theorem frontier_eq_some {fl : Flow} (hs : tabSorted fl.lanes = true) {d n : Nat} : frontier fl d = some n ↔
    (∃ i, laneState fl i = .waiting n d) ∧ ∀ i r, laneState fl i = .waiting r d → n ≤ r := by
  obtain ⟨h1, -⟩ := foldl_omin (waitingAt fl d) none
  have hmem : ∀ m, frontier fl d = some m → (∃ i, laneState fl i = .waiting m d) ∧ ∀ i r, laneState fl i = .waiting r d → m ≤ r := by
    intro m hm
    obtain ⟨ha, -, hb⟩ := h1 m hm
    obtain ⟨e, he, rfl⟩ := ha.resolve_left (by simp)
    exact ⟨⟨e.1, (mem_waitingAt hs).1 he⟩, fun i r hr => hb (i, r) ((mem_waitingAt hs).2 hr)⟩
  refine ⟨hmem n, fun ⟨⟨i, hi⟩, hn⟩ => ?_⟩
  obtain ⟨m, hm⟩ := frontier_some (List.ne_nil_of_mem ((mem_waitingAt hs).2 hi))
  obtain ⟨⟨j, hj⟩, hle⟩ := hmem m hm
  rw [hm, Nat.le_antisymm (hle i n hi) (hn j m hj)]

/-! ## Loops that stay (R136, R137) -/

theorem loopsEnding_none {fl : Flow} {w : Nat} (h : ∀ i, (loopAt fl i).on = true → loopEnd (loopAt fl i) ≠ w) : loopsEnding fl w = [] := by
  have : ([0, 1, 2].filter fun i => (loopAt fl i).on && loopEnd (loopAt fl i) == w && (loopAt fl i).depth == fl.depth) = [] := by
    rw [List.filter_eq_nil_iff]
    intro i _ hi
    simp only [Bool.and_eq_true, beq_iff_eq] at hi
    exact h i hi.1.1 hi.1.2
  unfold loopsEnding
  dsimp only
  rw [this]
  rfl

theorem loopStep_of_ending {fl : Flow} {w : Nat} (h : loopsEnding fl w = []) (nexts : List (Nat × Nat)) (un : Option Nat) :
    loopStep fl w nexts un = (fl, nexts, un, false) := by
  unfold loopStep
  simp [h, backEdges]

theorem loopClash_off {t : Team} (h : NoLoops t) (i : Nat) (e : LoopEntry) : loopClash t.flow i e = false := by
  unfold loopClash
  rw [loopAt_off h, Bool.false_or, List.any_eq_false]
  intro x hx
  simp [h x hx]

/-- A team within the bodies of its active loops keeps them (R137). -/
theorem popLoops_inside {f : Flow} (h : ∀ e ∈ f.loops, e.on = true → e.depth = f.depth ∧ e.start ≤ f.pc ∧ f.pc ≤ loopEnd e) :
    (popLoops f).loops = f.loops := by
  unfold popLoops
  dsimp only
  conv_rhs => rw [← List.map_id f.loops]
  refine List.map_congr_left fun e he => ?_
  rw [if_neg]
  · rfl
  · intro hc
    simp only [Bool.and_eq_true, Bool.or_eq_true, decide_eq_true_eq, beq_iff_eq] at hc
    obtain ⟨h1, h2, h3⟩ := h e he hc.1
    omega

theorem mem_setAt {α : Type} {l : List α} {i : Nat} {v x : α} (h : x ∈ setAt l i v) : x = v ∨ x ∈ l := by
  induction l generalizing i with
  | nil => exact .inr h
  | cons y l ih =>
    cases i with
    | zero =>
      rcases List.mem_cons.1 h with h | h
      · exact .inl h
      · exact .inr (List.mem_cons_of_mem _ h)
    | succ i =>
      rcases List.mem_cons.1 h with h | h
      · exact .inr (h ▸ List.mem_cons_self)
      · exact (ih h).imp_right (List.mem_cons_of_mem _)

/-- Where every lane goes to `n` and every lane that waits is further on, the team goes to `n`. -/
theorem Chosen.pc_of_ahead {nl n : Nat} {fl f : Flow} (h : Chosen nl fl f fun _ => n) (hne : activeLanes nl fl ≠ [])
    (hw : ∀ i r, laneState fl i = .waiting r fl.depth → n < r) : f.pc = n := by
  rcases h.reached with ⟨i, -, hi⟩ | ⟨i, hi⟩
  · exact hi.symm
  · obtain ⟨j, hj⟩ := List.exists_mem_of_ne_nil _ hne
    exact absurd (h.leastNext j hj) (Nat.not_le.2 (hw i _ hi))

section
variable {s : State} {u : Nat} {t : Team} (h : Issuing s u t) (hne : lanesOf t ≠ []) (hu : t.flow.uni = false) (hl : NoLoops t)
  (hs : tabSorted t.flow.lanes = true)
include h hne hu hl hs

/-- CALL (R134). -/
theorem call_ends (off : BitVec 21) (hd : t.flow.depth ≠ 63) :
    ∃ s' t', exec (.call off) s = .next s' ∧ find? s'.teams u = some t' ∧ TeamOnly s s' u ∧ Onward s { t with k := t'.k } t' ∧
      (∀ n, kreg t' n = if n = 1 then BitVec.ofNat 64 (s.issue.word + 4) else kreg t n) ∧
      Chosen t.lanes { t.flow with depth := t.flow.depth + 1 } t'.flow (fun _ => wordOff s.issue.word off.toInt) := by
  set a : Access := { noAccess with wk := [(1, 1)] } with ha
  have hf : AccFits t a := uniFits rfl rfl fun e he => by
    have : e = (1, 1) := List.mem_singleton.1 (by simpa [ha, noAccess] using he)
    subst this; decide
  set w : W64 := BitVec.ofNat 64 (s.issue.word + 4) with hw
  obtain ⟨s', t', he, h1, h2, h3, h4⟩ := branch_ends (u := u) (t0 := { t with k := tabSet 0#64 t.k 1 w }) (t1 := setK (latch s t a) 1 w)
    (fl := { t.flow with depth := t.flow.depth + 1 }) h.quiet rfl h.untraced h.alone hl hu hs hne
    (fun _ => wordOff s.issue.word off.toInt) (some (wordOff s.issue.word off.toInt)) true
  have hk : t'.k = tabSet 0#64 t.k 1 w := by rw [h3]
  refine ⟨s', t', ?_, h1, h2, by rw [hk]; exact h3, fun n => ?_, h4⟩
  · show execCall off s = _
    rw [execCall, issueOp_uniform h hf rfl]
    simp only [show (latch s t a).flow.depth = t.flow.depth from rfl, hd, if_false, modTeam_eq, setTeam_setTeam, getTeam_setTeam, if_true]
    refine (congrArg done ?_).trans he
    exact transfer_team (x := setK (latch s t a) 1 w) h.mode ..
  · have hk1 : kreg t' n = kreg (setK t 1 w) n := by
      simp only [kreg, hk]
      rfl
    rw [hk1, kreg_setK]
    simp

/-- RET (R134) where no lane waits at this depth. -/
theorem ret_leaves {a : KReg} (ha : a.toNat ≤ 383) (hd : t.flow.depth ≠ 0) (hw : waitingAt t.flow t.flow.depth = []) :
    ∃ s' t', exec (.ret a) s = .next s' ∧ find? s'.teams u = some t' ∧ TeamOnly s s' u ∧ Onward s t t' ∧
      Chosen t.lanes { t.flow with depth := t.flow.depth - 1 } t'.flow (fun _ => (kreg t a.toNat).toNat) := by
  obtain ⟨s', t', he, hr⟩ := branch_ends (u := u) (t0 := t) (t1 := latch s t { noAccess with rk := [(a.toNat, 1)] })
    (fl := { t.flow with depth := t.flow.depth - 1 }) h.quiet rfl h.untraced h.alone hl hu hs hne
    (fun _ => (kreg t a.toNat).toNat) (some (kreg t a.toNat).toNat) true
  refine ⟨s', t', ?_, hr⟩
  rw [ret_normal h ha hd, hw]
  exact he

/-- SETX (R138). -/
theorem setx_ends {a : KReg} (ha : a.toNat ≤ 383) (i : BitVec 7) (hx : (kreg t a.toNat).toNat + i.toNat ≤ 127) :
    ∃ s' t', exec (.setx a i) s = .next s' ∧ find? s'.teams u = some t' ∧ TeamOnly s s' u ∧ Onward s t t' ∧
      Chosen t.lanes { t.flow with x := (kreg t a.toNat).toNat + i.toNat } t'.flow (fun _ => s.issue.next) := by
  set acc : Access := { noAccess with rk := [(a.toNat, 1)] } with hacc
  obtain ⟨s', t', he, hr⟩ := branch_ends (u := u) (t0 := t) (t1 := latch s t acc)
    (fl := { t.flow with x := (kreg t a.toNat).toNat + i.toNat }) h.quiet rfl h.untraced h.alone hl hu hs hne
    (fun _ => s.issue.next) (some s.issue.next) false
  refine ⟨s', t', ?_, hr⟩
  show execSetx a i s = _
  rw [execSetx, issueOp_uniform h (readsOne_fits t ha) rfl]
  have hn : ¬ 127 < (kreg t a.toNat).toNat + i.toNat := by omega
  simp only [kreg_latch, hn, if_false]
  exact he

/-- LOOP with a count of zero (R135). -/
theorem loop_skips {a : KReg} (ha : a.toNat ≤ 383) (l : LoopCtr) (n : BitVec 13) (hc : (kreg t a.toNat).setWidth 32 = 0#32) :
    ∃ s' t', exec (.loop a l n) s = .next s' ∧ find? s'.teams u = some t' ∧ TeamOnly s s' u ∧ Onward s t t' ∧
      Chosen t.lanes t.flow t'.flow (fun _ => s.issue.word + 4 + 4 * n.toNat) ∧ t'.flow.loops = t.flow.loops := by
  set acc : Access := { noAccess with rk := [(a.toNat, 1)] } with hacc
  obtain ⟨he, h1, h2, h3⟩ := group_ends (u := u) (t0 := t) (t1 := latch s t acc) h.quiet rfl h.untraced h.alone t.flow
    (allTo t (s.issue.word + 4 + 4 * n.toNat)) (some (s.issue.word + 4 + 4 * n.toNat)) false
  obtain ⟨-, hlo, -, hch⟩ := advanced_chosen (t := latch s t acc) (next := fun _ => s.issue.word + 4 + 4 * n.toNat)
    (un := some (s.issue.word + 4 + 4 * n.toNat)) hl hu hs hne false false
  refine ⟨_, _, ?_, h1, h2, h3, hch, hlo⟩
  show execLoop a l n s = _
  rw [execLoop, issueOp_uniform h (readsOne_fits t ha) rfl]
  simp only [kreg_latch, BitVec.ofNat_toNat, hc, if_true]
  exact (congrArg done (transfer_team (x := latch s t acc) h.mode ..)).trans he

/-- LOOP with a count above zero (R135): its counter's entry stands at the body's start, where every active lane goes. -/
theorem loop_enters {a : KReg} (ha : a.toNat ≤ 383) (l : LoopCtr) (n : BitVec 13) (hlen : t.flow.loops.length = 3)
    (hc : (kreg t a.toNat).setWidth 32 ≠ 0#32) (hw : ∀ i r, laneState t.flow i = .waiting r t.flow.depth → s.issue.word + 4 < r) :
    ∃ s' t', exec (.loop a l n) s = .next s' ∧ find? s'.teams u = some t' ∧ TeamOnly s s' u ∧ Onward s t t' ∧
      Chosen t.lanes t.flow t'.flow (fun _ => s.issue.word + 4) ∧
      t'.flow.loops =
        setAt t.flow.loops (loopNum l) ⟨(kreg t a.toNat).setWidth 32, true, s.issue.word + 4, n.toNat, t.flow.depth⟩ := by
  set acc : Access := { noAccess with rk := [(a.toNat, 1)] } with hacc
  set e : LoopEntry := ⟨(kreg t a.toNat).setWidth 32, true, s.issue.word + 4, n.toNat, t.flow.depth⟩ with he
  set fl : Flow := { t.flow with loops := setAt t.flow.loops (loopNum l) e } with hfl
  have hnum : loopNum l < t.flow.loops.length := by rw [hlen]; cases l <;> decide
  have hat : ∀ i, loopAt fl i = if i = loopNum l then e else loopAt t.flow i := fun i => nth_setAt _ _ _ _ _ hnum
  have hword : loopEnd e ≠ s.issue.word := by simp only [loopEnd, he]; omega
  have hstep : ∀ nexts un, loopStep fl s.issue.word nexts un = (fl, nexts, un, false) := loopStep_of_ending (loopsEnding_none fun i hi => by
    rw [hat] at hi ⊢
    split_ifs at hi ⊢
    · exact hword
    · rw [loopAt_off hl] at hi; cases hi)
  obtain ⟨hdone, h1, h2, h3⟩ := group_ends (u := u) (t0 := t) (t1 := latch s t acc) h.quiet rfl h.untraced h.alone fl
    (allTo t e.start) (some e.start) false
  obtain ⟨f, hf, hlo, -, -, hch⟩ := advanced_chosen_of (t := latch s t acc) (fl := fl) (nl := t.lanes) (next := fun _ => e.start)
    (un := some e.start) (hstep ..) hu hs hne false false
  have hpc := hch.pc_of_ahead hne (fun i r hr => hw i r hr)
  have hdepth := hch.depth
  refine ⟨_, _, ?_, h1, h2, h3, ⟨hch.reached, hch.leastNext, hch.leastResume, hch.active, hch.others, hch.depth, hch.x⟩, ?_⟩
  · show execLoop a l n s = _
    rw [execLoop, issueOp_uniform h (readsOne_fits t ha) rfl]
    simp only [kreg_latch, latch_cur, latch_flow, BitVec.ofNat_toNat, hc, if_false, ← he, loopClash_off hl, Bool.false_eq_true]
    exact (congrArg done (transfer_team (x := latch s t acc) h.mode ..)).trans hdone
  · have e1 : (advanced (latch s t acc) fl (allTo t e.start) (some e.start) false false).flow = popLoops f := hf
    rw [show (activeLanes t.lanes fl).map (fun i => (i, e.start)) = allTo t e.start from rfl, e1] at hpc hdepth
    rw [e1, popLoops_inside, hlo]
    intro x hx hon
    rw [hlo] at hx
    rcases mem_setAt hx with rfl | hx
    · refine ⟨hdepth.symm, ?_⟩
      rw [show f.pc = e.start from hpc]
      simp only [loopEnd]; omega
    · rw [hl x hx] at hon; cases hon

omit hne in
/-- RET (R134) while lanes wait at this depth. -/
theorem ret_waits {a : KReg} (ha : a.toNat ≤ 383) (hd : t.flow.depth ≠ 0) (hw : waitingAt t.flow t.flow.depth ≠ []) :
    ∃ s' t', exec (.ret a) s = .next s' ∧ find? s'.teams u = some t' ∧ TeamOnly s s' u ∧ Onward s t t' ∧
      t'.flow.depth = t.flow.depth ∧ frontier t.flow t.flow.depth = some t'.flow.pc ∧
      (∀ i ∈ lanesOf t, laneState t'.flow i = .waiting (kreg t a.toNat).toNat (t.flow.depth - 1)) ∧
      ∀ i, laneState t.flow i = .waiting t'.flow.pc t.flow.depth → laneState t'.flow i = .active := by
  set acc : Access := { noAccess with rk := [(a.toNat, 1)] } with hacc
  set caller : LaneState := .waiting (kreg t a.toNat).toNat (t.flow.depth - 1) with hcaller
  set fl := setLanes t.flow (lanesOf t) caller with hfl
  obtain ⟨hloops, -, hst⟩ := setLanes_state (lanesOf t) t.flow caller
  have honly := setLanes_only (lanesOf t) caller t.flow
  have hdepth : fl.depth = t.flow.depth := by rw [hfl, honly]
  have huni : fl.uni = false := by rw [hfl, honly]; exact hu
  have hsorted : tabSorted fl.lanes = true := sorted_setLanes _ _ hs
  have hact : ∀ i ∈ lanesOf t, laneState t.flow i = .active := fun i hi => by
    simpa [laneActive] using (List.mem_filter.1 hi).2
  have hsame : ∀ i r, laneState fl i = .waiting r t.flow.depth ↔ laneState t.flow i = .waiting r t.flow.depth := by
    intro i r
    rw [hst]
    split_ifs with hi
    · rw [hact i hi]
      simp only [hcaller, LaneState.waiting.injEq, reduceCtorEq, iff_false, not_and]
      omega
    · rfl
  obtain ⟨n, hn⟩ := frontier_some hw
  have hnfl : frontier fl fl.depth = some n := by
    rw [hdepth, frontier_eq_some hsorted]
    simpa only [hsame] using (frontier_eq_some hs).1 hn
  obtain ⟨hdone, h1, h2, h3⟩ := group_ends (u := u) (t0 := t) (t1 := latch s t acc) h.quiet rfl h.untraced h.alone fl [] none true
  obtain ⟨-, hpc, hde, hlane⟩ := advanced_frontier (t := latch s t acc) (by rw [hfl, hloops]; exact hl) huni hsorted hnfl true false
  refine ⟨_, _, ?_, h1, h2, h3, hde.trans hdepth, by rw [hpc]; exact hn, fun i hi => ?_, fun i hi => ?_⟩
  · rw [ret_normal h ha hd]
    simp only [List.isEmpty_iff, hw, if_false]
    exact hdone
  · have hi' : laneState fl i = caller := by rw [hst, if_pos hi]
    rw [hlane, if_neg, hi']
    rw [hdepth, hsame, hact i hi]
    simp
  · rw [hpc] at hi
    rw [hlane, hdepth, if_pos ((hsame i n).2 hi)]

end

/-! ## The end of a body (R136) -/

/-- A body's last word, with its counter at `e` alone active: the counter falls, and its lanes go back unless it was one. -/
theorem loopStep_end {fl : Flow} {e : LoopEntry} (hl : fl.loops = [e, LoopEntry.reset, LoopEntry.reset]) (hon : e.on = true)
    (hd : e.depth = fl.depth) (hu : fl.uni = false) {nl w : Nat} (hw : loopEnd e = w) (hne : activeLanes nl fl ≠ []) :
    loopStep fl w ((activeLanes nl fl).map fun i => (i, w + 4)) (some (w + 4)) =
      if e.ctr = 1#32 then
        ({ fl with loops := [{ e with ctr := 0#32, on := false }, LoopEntry.reset, LoopEntry.reset] },
          (activeLanes nl fl).map fun i => (i, w + 4), some (w + 4), false)
      else
        ({ fl with loops := [{ e with ctr := e.ctr - 1#32 }, LoopEntry.reset, LoopEntry.reset] },
          (activeLanes nl fl).map fun i => (i, e.start), some e.start, true) := by
  have h0 : loopAt fl 0 = e := by rw [loopAt, hl]; rfl
  have h1 : loopAt fl 1 = LoopEntry.reset := by rw [loopAt, hl]; rfl
  have h2 : loopAt fl 2 = LoopEntry.reset := by rw [loopAt, hl]; rfl
  have hoff : LoopEntry.reset.on = false := rfl
  have hend : loopsEnding fl w = [0] := by
    simp [loopsEnding, h0, h1, h2, hon, hd, hw, hoff, sortDesc, insertDesc]
  have hdue : ((activeLanes nl fl).map fun i => (i, w + 4)).any (fun e => e.2 == w + 4) = true := by
    obtain ⟨i, hi⟩ := List.exists_mem_of_ne_nil _ hne
    rw [List.any_eq_true]
    exact ⟨(i, w + 4), List.mem_map.2 ⟨i, hi, rfl⟩, by simp⟩
  have hctr : e.ctr - 1#32 = 0#32 ↔ e.ctr = 1#32 := by
    constructor <;> intro h <;> bv_omega
  unfold loopStep
  simp only [hu, Bool.false_eq_true, if_false, hdue, if_true, hend, backEdges, h0, hl, hctr, setAt]
  split_ifs with hc
  · rw [hc]; rfl
  · simp [List.map_map, Function.comp_def]

section
variable {s : State} {u : Nat} {t : Team} {e : LoopEntry} (h : Issuing s u t) (hne : lanesOf t ≠ []) (hu : t.flow.uni = false)
  (hs : tabSorted t.flow.lanes = true) (hl : t.flow.loops = [e, LoopEntry.reset, LoopEntry.reset]) (hon : e.on = true)
  (hd : e.depth = t.flow.depth) (hw : loopEnd e = s.issue.word) (hnext : s.issue.next = s.issue.word + 4)
  (hwait : ∀ i r d, laneState t.flow i ≠ .waiting r d)
include hne hu hs hl hon hd hw hnext hwait

/-- A count of one leaves the loop. -/
theorem loopEnd_leaves (x : Team) (hx : x.cur = s.issue) (hc : e.ctr = 1#32) :
    let t' := advanced x t.flow ((activeLanes t.lanes t.flow).map fun i => (i, s.issue.next)) (some s.issue.next) false false
    t'.flow.pc = s.issue.next ∧ (loopAt t'.flow 0).on = false := by
  have hstep := loopStep_end hl hon hd hu hw hne
  rw [if_pos hc, ← hnext, show s.issue.word = x.cur.word by rw [hx]] at hstep
  obtain ⟨f, h1, h2, -, -, h5⟩ := advanced_chosen_of (t := x) (nl := t.lanes) (next := fun _ => s.issue.next) hstep hu hs hne false false
  refine ⟨h5.pc_of_ahead hne fun i r hi => absurd hi (hwait i r _), ?_⟩
  rw [h1, popLoops_off (by rw [h2]; simp [LoopEntry.reset]), loopAt, h2]
  rfl

/-- A count above one goes back to the body's start. -/
theorem loopEnd_goesBack (x : Team) (hx : x.cur = s.issue) (hc : e.ctr ≠ 1#32) :
    let t' := advanced x t.flow ((activeLanes t.lanes t.flow).map fun i => (i, s.issue.next)) (some s.issue.next) false false
    t'.flow.pc = e.start ∧ loopAt t'.flow 0 = { e with ctr := e.ctr - 1#32 } := by
  have hstep := loopStep_end hl hon hd hu hw hne
  rw [if_neg hc, ← hnext, show s.issue.word = x.cur.word by rw [hx]] at hstep
  obtain ⟨f, h1, h2, -, -, h5⟩ := advanced_chosen_of (t := x) (nl := t.lanes) (next := fun _ => e.start) hstep hu hs hne false false
  have hpc := h5.pc_of_ahead hne fun i r hi => absurd hi (hwait i r _)
  have hdepth := h5.depth
  refine ⟨hpc, ?_⟩
  rw [h1] at hpc hdepth ⊢
  have hoff : LoopEntry.reset.on = false := rfl
  rw [loopAt, popLoops_inside, h2]
  · rfl
  · intro y hy hyon
    rw [h2] at hy
    simp only [List.mem_cons, List.not_mem_nil, or_false] at hy
    rcases hy with rfl | rfl | rfl
    · refine ⟨hd.trans hdepth.symm, ?_⟩
      rw [show f.pc = e.start from hpc]
      simp only [loopEnd]; omega
    · rw [hoff] at hyon; cases hyon
    · rw [hoff] at hyon; cases hyon
end

/-- Settles O25: CALL, RET, LOOP and SETX by the choice of the next address, and the end of a body by the decision of its back-edge. -/
theorem callsLoopsAndX : Obligations.CallsLoopsAndX := by
  refine ⟨fun s u t h hne hu hl hs => ⟨fun off hd => call_ends h hne hu hl hs off hd, fun a ha hd hw => ret_leaves h hne hu hl hs ha hd hw,
    fun a ha hd hw => ret_waits h hu hl hs ha hd hw, ?_, fun a i ha hx => setx_ends h hne hu hl hs ha i hx⟩, ?_⟩
  · intro a l n ha hlen _ count first to_ hw
    by_cases hc : count = 0#32
    · obtain ⟨s', t', h1, h2, h3, h4, h5, h6⟩ := loop_skips h hne hu hl hs ha l n hc
      exact ⟨s', t', h1, h2, h3, h4, by simp only [to_, hc, if_true]; exact h5, by simp only [hc, if_true]; exact h6⟩
    · simp only [to_, hc, if_false] at hw ⊢
      exact loop_enters h hne hu hl hs ha l n hlen hc fun i r hr => hw i r _ hr rfl
  · intro s u t e h hne hu hs hl hon hd hw hnext hwait _
    obtain ⟨he, h1, h2, h3⟩ := group_ends (u := u) (t0 := t) (t1 := latch s t noAccess) h.quiet rfl h.untraced h.alone t.flow
      (plainNexts (latch s t noAccess)) (some s.issue.next) false
    refine ⟨_, _, ?_, h1, h2, h3, loopEnd_leaves hne hu hs hl hon hd hw hnext hwait _ rfl,
      loopEnd_goesBack hne hu hs hl hon hd hw hnext hwait _ rfl⟩
    show execNop s = _
    rw [execNop, issueOp_uniform h (noAccess_fits t) rfl, fallThrough, getTeam_setTeam, if_pos rfl]
    exact he

end Sys2Proof.Machine

namespace Sys2Proof.Machine

/-! # MASK.SET, MASK.PRED and MASK.GET (O26) -/

/-- One lane of `maskTo`. -/
def maskLane (want : Nat → Bool) (f : Flow) (i : Nat) : Flow :=
  match laneState f i with
  | .active => if want i then f else setLane f i .held
  | .held => if want i then setLane f i .active else f
  | _ => f

theorem maskTo_eq (nl : Nat) (fl : Flow) (want : Nat → Bool) : maskTo nl fl want = (List.range nl).foldl (maskLane want) fl := rfl

/-- The state that a mask gives a lane (R139). -/
def masked (want : Bool) (l : LaneState) : LaneState :=
  if l = .active ∨ l = .held then (if want then .active else .held) else l

theorem maskLane_state (want : Nat → Bool) (f : Flow) (i j : Nat) :
    laneState (maskLane want f i) j = if j = i then masked (want i) (laneState f i) else laneState f j := by
  unfold maskLane masked
  by_cases hj : j = i
  · subst hj
    cases hs : laneState f j <;> cases hw : want j <;> simp [laneState_setLane, hs]
  · cases hs : laneState f i <;> cases hw : want i <;> simp [laneState_setLane, hj]

theorem maskLane_keeps (want : Nat → Bool) (f : Flow) (i : Nat) :
    maskLane want f i = { f with lanes := (maskLane want f i).lanes } ∧
      (tabSorted f.lanes = true → tabSorted (maskLane want f i).lanes = true) := by
  unfold maskLane
  split
  · split_ifs
    · exact ⟨rfl, id⟩
    · exact ⟨rfl, fun h => sorted_setLane h ..⟩
  · split_ifs
    · exact ⟨rfl, fun h => sorted_setLane h ..⟩
    · exact ⟨rfl, id⟩
  · exact ⟨rfl, id⟩

theorem foldl_maskLane (want : Nat → Bool) (l : List Nat) (hnd : l.Nodup) (f : Flow) :
    l.foldl (maskLane want) f = { f with lanes := (l.foldl (maskLane want) f).lanes } ∧
      (tabSorted f.lanes = true → tabSorted (l.foldl (maskLane want) f).lanes = true) ∧
      ∀ j, laneState (l.foldl (maskLane want) f) j = if j ∈ l then masked (want j) (laneState f j) else laneState f j := by
  induction l generalizing f with
  | nil => exact ⟨rfl, id, fun _ => rfl⟩
  | cons i l ih =>
    obtain ⟨hi, hnd⟩ := List.nodup_cons.1 hnd
    obtain ⟨h1, h2, h3⟩ := ih hnd (maskLane want f i)
    obtain ⟨k1, k2⟩ := maskLane_keeps want f i
    rw [List.foldl_cons]
    refine ⟨by rw [h1, k1], fun h => h2 (k2 h), fun j => ?_⟩
    rw [h3, maskLane_state]
    by_cases hj : j = i
    · subst hj; simp [hi]
    · simp [hj]

/-- `maskTo` said once: of the flow only the states of lanes change. -/
theorem maskTo_state (nl : Nat) (fl : Flow) (want : Nat → Bool) :
    maskTo nl fl want = { fl with lanes := (maskTo nl fl want).lanes } ∧
      (tabSorted fl.lanes = true → tabSorted (maskTo nl fl want).lanes = true) ∧
      ∀ j, laneState (maskTo nl fl want) j = if j < nl then masked (want j) (laneState fl j) else laneState fl j := by
  obtain ⟨h1, h2, h3⟩ := foldl_maskLane want (List.range nl) List.nodup_range fl
  exact ⟨h1, h2, fun j => by simp only [maskTo_eq, h3, List.mem_range]⟩

theorem masked_waiting {want : Bool} {l : LaneState} {r d : Nat} : masked want l = .waiting r d ↔ l = .waiting r d := by
  unfold masked
  cases l <;> cases want <;> simp

theorem maskTo_waiting {nl : Nat} {fl : Flow} {want : Nat → Bool} {i r d : Nat} :
    laneState (maskTo nl fl want) i = .waiting r d ↔ laneState fl i = .waiting r d := by
  rw [(maskTo_state nl fl want).2.2]
  split_ifs
  · exact masked_waiting
  · rfl

theorem waitingAt_nil {fl : Flow} (hs : tabSorted fl.lanes = true) {d : Nat} :
    waitingAt fl d = [] ↔ ∀ i r, laneState fl i ≠ .waiting r d := by
  rw [List.eq_nil_iff_forall_not_mem]
  exact ⟨fun h i r hi => h (i, r) ((mem_waitingAt hs).2 hi), fun h e he => h e.1 e.2 ((mem_waitingAt hs).1 he)⟩

theorem frontier_congr {a b : Flow} (ha : tabSorted a.lanes = true) (hb : tabSorted b.lanes = true) {d : Nat}
    (h : ∀ i r, laneState a i = .waiting r d ↔ laneState b i = .waiting r d) : frontier a d = frontier b d := by
  cases hf : frontier a d with
  | none =>
    rw [frontier_none, waitingAt_nil ha] at hf
    exact (frontier_none.2 ((waitingAt_nil hb).2 fun i r hi => hf i r ((h i r).2 hi))).symm
  | some n =>
    rw [frontier_eq_some ha] at hf
    exact ((frontier_eq_some hb).2 (by simpa only [h] using hf)).symm

/-- A team in uniform-only mode without waiting lanes goes to its uniform next address (R140). -/
theorem advanced_uniform {t : Team} {fl : Flow} {n : Nat} (hl : ∀ e ∈ fl.loops, e.on = false) (huni : fl.uni = true)
    (hw : waitingAt fl fl.depth = []) (redirect snap : Bool) :
    (advanced t fl [] (some n) redirect snap).flow = { fl with pc := n } := by
  have hc : chooseNext fl [] (some n) = some { fl with pc := n } := by
    simp [chooseNext, huni, frontier, hw, omin, goTo, mergeAt, setLanes]
  rw [(advanced_some (t := t) (loopStep_none hl ..) hc).2]
  exact popLoops_off hl

/-- What a mask leaves a team whose wanted lanes are `want` (R139, R140). -/
structure MaskEnds (s : State) (u : Nat) (t : Team) (want : Nat → Bool) (s' : State) (t' : Team) : Prop where
  team : find? s'.teams u = some t'
  only : TeamOnly s s' u
  onward : Onward s t t'
  some_ : (∃ i < t.lanes, want i = true) → t'.flow.uni = false ∧ Chosen t.lanes { maskTo t.lanes t.flow want with uni := false } t'.flow fun _ => s.issue.next
  none_ : (∀ i < t.lanes, want i = false) → waitingAt t.flow t.flow.depth = [] →
    t'.flow.uni = true ∧ t'.flow.pc = s.issue.next ∧ ∀ i, laneState t'.flow i = laneState (maskTo t.lanes t.flow want) i
  jumps : (∀ i < t.lanes, want i = false) → waitingAt t.flow t.flow.depth ≠ [] →
    frontier t.flow t.flow.depth = some t'.flow.pc ∧ ∀ i, laneState t'.flow i =
      if laneState (maskTo t.lanes t.flow want) i = .waiting t'.flow.pc t.flow.depth then .active
      else laneState (maskTo t.lanes t.flow want) i

/-- The lanes that a mask leaves active, where it wants only active and held ones. -/
theorem mem_activeLanes_maskTo {nl : Nat} {fl : Flow} {want : Nat → Bool}
    (hw : ∀ i, want i = true → laneState fl i = .active ∨ laneState fl i = .held) {i : Nat} :
    i ∈ activeLanes nl (maskTo nl fl want) ↔ i < nl ∧ want i = true := by
  rw [activeLanes, List.mem_filter, List.mem_range, laneActive, beq_iff_eq, (maskTo_state nl fl want).2.2]
  refine and_congr_right fun hi => ?_
  rw [if_pos hi, masked]
  constructor
  · intro h
    split_ifs at h with h1 h2
    · exact h2
    · exact absurd (Or.inl h) h1
  · intro h
    rw [if_pos (hw i h), if_pos h]

theorem mask_ends {s : State} {u : Nat} {t : Team} (h : Issuing s u t) (hl : NoLoops t) (hs : tabSorted t.flow.lanes = true)
    {want : Nat → Bool} (hw : ∀ i, want i = true → laneState t.flow i = .active ∨ laneState t.flow i = .held) {c : Instr} {a : Access}
    (hc : exec c s = done (afterMask (setTeam s u (latch s t a)) u (maskTo t.lanes t.flow want))) :
    ∃ s' t', exec c s = .next s' ∧ MaskEnds s u t want s' t' := by
  set fl := maskTo t.lanes t.flow want with hfl
  obtain ⟨honly, hsort, -⟩ := maskTo_state t.lanes t.flow want
  rw [← hfl] at honly
  have hso : tabSorted fl.lanes = true := hsort hs
  have hlo : ∀ e ∈ fl.loops, e.on = false := by rw [honly]; exact hl
  have hde : fl.depth = t.flow.depth := by rw [honly]
  have hact : ∀ i, i ∈ activeLanes t.lanes fl ↔ i < t.lanes ∧ want i = true := fun i => mem_activeLanes_maskTo hw
  have hnone : activeLanes t.lanes fl = [] ↔ ∀ i < t.lanes, want i = false := by
    rw [List.eq_nil_iff_forall_not_mem]
    simp only [hact, not_and, Bool.not_eq_true]
  have hwait : waitingAt fl fl.depth = [] ↔ waitingAt t.flow t.flow.depth = [] := by
    rw [hde, waitingAt_nil hso, waitingAt_nil hs]
    simp only [hfl, maskTo_waiting, ne_eq]
  have hfr : frontier fl fl.depth = frontier t.flow t.flow.depth := by
    rw [hde]
    exact frontier_congr hso hs fun i r => maskTo_waiting
  have hend := fun (f : Flow) nexts un r => group_ends (u := u) (t0 := t) (t1 := latch s t a) h.quiet rfl h.untraced h.alone f nexts un r
  rw [hc, afterMask, getTeam_setTeam, if_pos rfl]
  rw [latch_lanes, latch_cur]
  by_cases he : activeLanes t.lanes fl = []
  · have hno := hnone.1 he
    have hnot : ¬ ∃ i < t.lanes, want i = true := fun ⟨i, hi, hwi⟩ => by rw [hno i hi] at hwi; cases hwi
    rw [if_pos (List.isEmpty_iff.2 he)]
    by_cases hwt : waitingAt fl fl.depth = []
    · rw [if_pos (List.isEmpty_iff.2 hwt)]
      obtain ⟨h0, h1, h2, h3⟩ := hend { fl with uni := true } [] (some s.issue.next) false
      have hflow := advanced_uniform (t := latch s t a) (fl := { fl with uni := true }) (n := s.issue.next) hlo rfl hwt false false
      refine ⟨_, _, h0, h1, h2, h3, fun hex => absurd hex hnot, fun _ _ => ?_, fun _ hw2 => absurd (hwait.1 hwt) hw2⟩
      rw [hflow]
      exact ⟨rfl, rfl, fun i => rfl⟩
    · rw [if_neg (by simpa [List.isEmpty_iff] using hwt)]
      obtain ⟨h0, h1, h2, h3⟩ := hend { fl with uni := false } [] none true
      obtain ⟨n, hn⟩ := frontier_some hwt
      obtain ⟨-, hpc, -, hst⟩ := advanced_frontier (t := latch s t a) (fl := { fl with uni := false }) hlo rfl hso hn true false
      refine ⟨_, _, h0, h1, h2, h3, fun hex => absurd hex hnot, fun _ hw1 => absurd (hwait.2 hw1) hwt, fun _ _ => ⟨?_, fun i => ?_⟩⟩
      · rw [← hfr, hn, hpc]
      · rw [hst, hpc, ← hde]; rfl
  · rw [if_neg (by simpa [List.isEmpty_iff] using he)]
    obtain ⟨h0, h1, h2, h3⟩ := hend { fl with uni := false } ((activeLanes t.lanes fl).map fun i => (i, s.issue.next)) none false
    obtain ⟨-, -, hu, hch⟩ := advanced_chosen (t := latch s t a) (fl := { fl with uni := false }) (nl := t.lanes)
      (next := fun _ => s.issue.next) (un := none) hlo rfl hso he false false
    have hex : ¬ ∀ i < t.lanes, want i = false := fun hno => he (hnone.2 hno)
    exact ⟨_, _, h0, h1, h2, h3, fun _ => ⟨hu, hch⟩, fun hno => absurd hno hex, fun hno => absurd hno hex⟩

/-- A sum of bits in two halves. -/
theorem sum_halves (f : Nat → Nat) (n : Nat) : ∑ k ∈ Finset.range (n + n), f k * 2 ^ k =
    (∑ k ∈ Finset.range n, f k * 2 ^ k) + (∑ k ∈ Finset.range n, f (n + k) * 2 ^ k) * 2 ^ n := by
  rw [Finset.sum_range_add, Finset.sum_mul]
  congr 1
  refine Finset.sum_congr rfl fun k _ => ?_
  rw [pow_add]; ring

theorem emWord_eq_sum (t : Team) (w : Nat) :
    emWord t.lanes t.flow w = ∑ k ∈ Finset.range 32, (decide (32 * w + k ∈ lanesOf t)).toNat * 2 ^ k := by
  rw [← foldl_add_eq_sum, emWord]
  congr 1
  funext acc k
  have hmem : (decide (32 * w + k < t.lanes) && laneActive t.flow (32 * w + k)) = decide (32 * w + k ∈ lanesOf t) := by
    rw [Bool.eq_iff_iff, decide_eq_true_iff, mem_lanesOf, Bool.and_eq_true, decide_eq_true_iff]
  rw [hmem]
  cases decide (32 * w + k ∈ lanesOf t) <;> simp

/-- Word `j` of em in 64 bits (R139). -/
def emWords (t : Team) (j : Nat) : W64 :=
  BitVec.ofNat 64 (emWord t.lanes t.flow (2 * j) + emWord t.lanes t.flow (2 * j + 1) * 2 ^ 32)

theorem getLsbD_emWords (t : Team) (j : Nat) {b : Nat} (hb : b < 64) :
    (emWords t j).getLsbD b = decide (64 * j + b ∈ lanesOf t) := by
  have hsum := sum_halves (fun k => (decide (64 * j + k ∈ lanesOf t)).toNat) 32
  have hlo : ∀ k, 32 * (2 * j) + k = 64 * j + k := fun k => by omega
  have hhi : ∀ k, 32 * (2 * j + 1) + k = 64 * j + (32 + k) := fun k => by omega
  rw [emWords, emWord_eq_sum, emWord_eq_sum]
  simp only [hlo, hhi]
  rw [← hsum]
  exact getLsbD_sum (fun k => decide (64 * j + k ∈ lanesOf t)) hb

/-- Writes to a run of uniform registers (R41). -/
def setWords (t : Team) (a : Nat) (w : Nat → W64) (m : Nat) : Team := (List.range m).foldl (fun t j => setK t (a + j) (w j)) t

theorem setWords_succ (t : Team) (a : Nat) (w : Nat → W64) (m : Nat) : setWords t a w (m + 1) = setK (setWords t a w m) (a + m) (w m) := by
  rw [setWords, List.range_succ, List.foldl_append]
  rfl

theorem setWords_writes (a : Nat) (w : Nat → W64) (m : Nat) (t : Team) :
    let t' := setWords t a w m
    t' = { t with k := t'.k } ∧ (∀ n, ¬ (a ≤ n ∧ n < a + m) → kreg t' n = kreg t n) ∧
      ∀ j < m, a + j ≠ 0 → kreg t' (a + j) = w j := by
  induction m with
  | zero => exact ⟨rfl, fun _ _ => rfl, fun j hj => absurd hj (Nat.not_lt_zero j)⟩
  | succ m ih =>
    obtain ⟨h1, h2, h3⟩ := ih
    simp only [setWords_succ]
    refine ⟨by rw [setK_eq, h1], fun n hn => ?_, fun j hj h0 => ?_⟩
    · rw [kreg_setK, if_neg (by omega), h2 n (by omega)]
    · rw [kreg_setK]
      by_cases hjm : j = m
      · subst hjm; rw [if_pos ⟨rfl, h0⟩]
      · rw [if_neg (by omega), h3 j (by omega) h0]

theorem maskGet_ends {s : State} {u : Nat} {t : Team} (h : Issuing s u t) {a : KReg} (ha : a.toNat + 16 ≤ 384) :
    ∃ s' t', exec (.maskGet a) s = .next s' ∧
      RegsOnly s s' u t t' no2 no2 (fun n => a.toNat ≤ n ∧ n < a.toNat + 16) FlagSet.none [] ∧
      ∀ j < 16, a.toNat + j ≠ 0 → ∀ b < 64, (kreg t' (a.toNat + j)).getLsbD b = decide (64 * j + b ∈ lanesOf t) := by
  set acc : Access := { noAccess with wk := [(a.toNat, 16)] } with hacc
  have hf : AccFits t acc := uniFits rfl rfl fun e he => by
    have : e = (a.toNat, 16) := List.mem_singleton.1 (by simpa [hacc, noAccess] using he)
    subst this; exact ha
  obtain ⟨t1, ht1⟩ : ∃ t1, setWords (latch s t acc) a.toNat (emWords t) 16 = t1 := ⟨_, rfl⟩
  have hwrites := setWords_writes a.toNat (emWords t) 16 (latch s t acc)
  rw [ht1] at hwrites
  obtain ⟨hb, hkeep, hset⟩ := hwrites
  obtain ⟨s', t', he, -, -, hk, -, hr⟩ := regsOnly_end h acc t1 FlagSet.none no2 no2 (fun n => a.toNat ≤ n ∧ n < a.toNat + 16) []
    (by rw [hb]; simp [latch]) (fun i r _ _ => by rw [hb]; rfl) (fun i p _ _ => by rw [hb]; rfl) (fun n hn => hkeep n hn)
  refine ⟨s', t', ?_, hr, fun j hj h0 b hb => ?_⟩
  · have hexec : exec (.maskGet a) s = done (fallThrough (modTeam (setTeam s u (latch s t acc)) u fun x =>
        setWords x a.toNat (emWords (latch s t acc)) 16) u false) := by
      show execMaskGet a s = _
      rw [execMaskGet, issueOp_uniform h hf rfl]
      simp only [setWords, emWords]
    have hw : emWords (latch s t acc) = emWords t := rfl
    rw [hexec, modTeam_eq, setTeam_setTeam, getTeam_setTeam, if_pos rfl, hw, ht1]
    simpa only [raiseVector, if_true] using he
  · have hk' : kreg t' (a.toNat + j) = kreg t1 (a.toNat + j) := by simp only [kreg, hk]
    rw [hk', hset j hj h0]
    exact getLsbD_emWords t j hb

/-- MASK.SET runs with the bits of its words as what it wants. -/
theorem maskSet_exec {s : State} {u : Nat} {t : Team} (h : Issuing s u t) {a : KReg} (ha : a.toNat + 16 ≤ 384) :
    exec (.maskSet a) s = done (afterMask (setTeam s u (latch s t { noAccess with rk := [(a.toNat, 16)] })) u
      (maskTo t.lanes t.flow fun i => (kreg t (a.toNat + i / 64)).getLsbD (i % 64))) := by
  show execMaskSet a s = _
  rw [execMaskSet, issueOp_uniform h (uniFits rfl rfl fun e he => ?_) rfl]
  · simp only [kreg_latch, latch_lanes, latch_flow, bitAt_eq_testBit, BitVec.testBit_toNat]
  · have : e = (a.toNat, 16) := List.mem_singleton.1 (by simpa [noAccess] using he)
    subst this; exact ha

theorem maskPred_exec {s : State} {u : Nat} {t : Team} (h : Issuing s u t) (a : KReg) (p : PReg) :
    exec (.maskPred a p) s = done (afterMask (setTeam s u (latch s t { noAccess with rp := [p.toNat] })) u
      (maskTo t.lanes t.flow fun i => laneState t.flow i == .active && preg t i p.toNat)) := by
  show execMaskPred a p s = _
  rw [execMaskPred, issueOp_uniform h (uniFits rfl rfl fun e he => absurd he (by simp [noAccess])) rfl]
  simp only [latch_bounds, h.mode, Bool.false_eq_true, if_false, undecideAll, List.foldl_nil, getTeam_setTeam, if_true, latch_lanes,
    latch_flow, preg_latch]
  rfl

/-- A mask that differs only in lanes that are neither active nor held is the same mask. -/
theorem maskTo_congr {nl : Nat} {fl : Flow} {a b : Nat → Bool}
    (h : ∀ i, laneState fl i = .active ∨ laneState fl i = .held → a i = b i) : maskTo nl fl a = maskTo nl fl b := by
  have key : ∀ l : List Nat, l.Nodup → ∀ f : Flow, (∀ i ∈ l, laneState f i = laneState fl i) →
      l.foldl (maskLane a) f = l.foldl (maskLane b) f := by
    intro l
    induction l with
    | nil => exact fun _ _ _ => rfl
    | cons i l ih =>
      intro hnd f hf
      obtain ⟨hi, hnd⟩ := List.nodup_cons.1 hnd
      have hsame : maskLane a f i = maskLane b f i := by
        have hst := hf i List.mem_cons_self
        unfold maskLane
        cases hs : laneState f i
        case active => rw [h i (.inl (hst ▸ hs))]
        case held => rw [h i (.inr (hst ▸ hs))]
        all_goals rfl
      rw [List.foldl_cons, List.foldl_cons, hsame]
      refine ih hnd _ fun j hj => ?_
      rw [maskLane_state, if_neg (by rintro rfl; exact hi hj), hf j (List.mem_cons_of_mem _ hj)]
  exact key _ List.nodup_range fl fun _ _ => rfl

/-- Settles O26: a mask changes lanes one by one, and the team goes on from there; MASK.GET reads em bit by bit. -/
theorem masksSelectLanes : Obligations.MasksSelectLanes := by
  intro s u t h hl hs
  refine ⟨fun c want hc => ?_, fun a ha _ => maskGet_ends h ha⟩
  have hwant : ∀ i, want i = true → laneState t.flow i = .active ∨ laneState t.flow i = .held := by
    intro i hi
    rcases hc with ⟨a, -, -, rfl⟩ | ⟨a, p, -, rfl⟩ <;>
      simp only [Bool.or_eq_true, Bool.and_eq_true, beq_iff_eq] at hi
    · exact hi.imp And.left And.left
    · exact .inl hi.1
  obtain ⟨acc, hexec⟩ : ∃ acc, exec c s = done (afterMask (setTeam s u (latch s t acc)) u (maskTo t.lanes t.flow want)) := by
    rcases hc with ⟨a, rfl, ha, rfl⟩ | ⟨a, p, rfl, rfl⟩
    · refine ⟨{ noAccess with rk := [(a.toNat, 16)] }, (maskSet_exec h ha).trans ?_⟩
      rw [maskTo_congr]
      rintro i (hi | hi) <;> simp [hi]
    · exact ⟨_, maskPred_exec h a p⟩
  obtain ⟨s', t', he, hm⟩ := mask_ends (c := c) h hl hs hwant hexec
  obtain ⟨honly, -, hst⟩ := maskTo_state t.lanes t.flow want
  have hmasked : ∀ i, laneState (maskTo t.lanes t.flow want) i =
      if i < t.lanes ∧ (laneState t.flow i = .active ∨ laneState t.flow i = .held)
      then (if want i then LaneState.active else .held) else laneState t.flow i := by
    intro i
    rw [hst, masked]
    by_cases hi : i < t.lanes <;> simp [hi]
  refine ⟨s', t', he, hm.team, hm.only, hm.onward, fun hex => ?_, fun hno hw => ?_, fun hno hw => ?_⟩
  · obtain ⟨h1, h2⟩ := hm.some_ hex
    exact ⟨h1, { maskTo t.lanes t.flow want with uni := false }, hmasked, by rw [honly], by rw [honly], h2⟩
  · obtain ⟨h1, h2, h3⟩ := hm.none_ hno hw
    exact ⟨h1, h2, fun i => (h3 i).trans (hmasked i)⟩
  · obtain ⟨h1, h2⟩ := hm.jumps hno hw
    exact ⟨h1, fun i => by rw [h2 i, hmasked]⟩

end Sys2Proof.Machine

namespace Sys2Proof.Machine

/-! # EXIT, YIELD and YIELD_RESUME (O27) -/

/-- A BOUNDARY INSTRUCTION OF EITHER MODE SAID ONCE, where its region has stored nothing. -/
theorem boundaryOp_issuing {s : State} {u : Nat} {t : Team} (h : Issuing s u t) (hl : t.log = []) (hz : t.zeros = []) {a : Access}
    (ha : AccFits t a) (hv : a.vector = false) (eff : State → Nat → Team → Out) :
    boundaryOp a eff s = eff (setTeam s u (bounding s t a)) u (latch s t a) := by
  have hg : getTeam (setTeam s u (latch s t a)) u = latch s t a := by simp
  have hp : (latch s t a).pend.any (·.isLoad) = false := by simp [latch, h.arrived]
  rw [boundaryOp, issueOp_uniform h ha hv]
  simp only [hg, hp, Bool.false_eq_true, if_false]
  rw [commitRegion_empty hg hl hz, takeSnap, modTeam_eq, setTeam_setTeam, getTeam_setTeam, if_pos rfl, setTeam_setTeam]
  rfl

section
variable (s : State) (t : Team) (a : Access)

@[simp] theorem bounding_trace : (bounding s t a).trace = t.trace := by simp only [bounding, ended, melded, latch]
@[simp] theorem bounding_stepOnce : (bounding s t a).stepOnce = t.stepOnce := by simp only [bounding, ended, melded, latch]
@[simp] theorem bounding_flow : (bounding s t a).flow = t.flow := by simp only [bounding, ended, melded, latch]
@[simp] theorem bounding_lanes : (bounding s t a).lanes = t.lanes := by simp only [bounding, ended, melded, latch]
@[simp] theorem bounding_cur : (bounding s t a).cur = s.issue := by simp only [bounding, ended, melded, latch]
@[simp] theorem lanesOf_bounding : lanesOf (bounding s t a) = lanesOf t := by simp only [lanesOf, bounding_flow, bounding_lanes]

end

theorem traceAppend_unstaged {s : State} {u : Nat} (h : (getTeam s u).trace.staged = []) : traceAppend s u = s := by
  simp [traceAppend, h]

/-- With no lane waiting anywhere, a team whose lanes have left has no next address (R126). -/
theorem chooseNext_nowhere {fl : Flow} (hw : ∀ d, waitingAt fl d = []) : chooseNext fl [] none = none := by
  have hlow : ∀ d, lowerDepth fl d = none := by
    intro d
    induction d with
    | zero => rfl
    | succ d ih => simp [lowerDepth, hw, ih]
  unfold chooseNext
  cases fl.uni <;> simp [frontier_none.2 (hw fl.depth), omin, hlow]

theorem loopStep_nowhere (fl : Flow) (w : Nat) : loopStep fl w [] none = (fl, [], none, false) := by
  have hdue : (if fl.uni then (none : Option Nat) == some (w + 4) else ([] : List (Nat × Nat)).any (fun e => e.2 == w + 4)) = false := by
    split_ifs <;> rfl
  unfold loopStep
  simp only [hdue, Bool.false_eq_true, if_false]

/-- The flow of a team whose active lanes have exited (R141). -/
def exited (t : Team) : Flow := setLanes t.flow (lanesOf t) .exited

/-- The team at its EXIT, before the choice of the next address, and after it. -/
def exiting (s : State) (t : Team) : Team := { bounding s t noAccess with endPc := s.issue.group }
def exitEnd (s : State) (t : Team) : Team := advanced (exiting s t) (exited t) [] none true true

/-- What EXIT leaves of a team whose region has stored nothing: it keeps the flow it had while it ends. -/
def afterExit (s : State) (t : Team) : Team :=
  if (exitEnd s t).status = .ending then { exitEnd s t with exitFlow := some t.flow } else exitEnd s t

theorem exiting_trace (s : State) (t : Team) : (exiting s t).trace = t.trace := by simp only [exiting, bounding_trace]
theorem exiting_stepOnce (s : State) (t : Team) : (exiting s t).stepOnce = t.stepOnce := by simp only [exiting, bounding_stepOnce]

theorem exitEnd_moved (s : State) (t : Team) : Moved (exiting s t) (exitEnd s t) := advanced_moved

theorem Moved.trace {t t' : Team} (h : Moved t t') : t'.trace = t.trace := by rw [h]

theorem afterExit_trace (s : State) (t : Team) : (afterExit s t).trace = t.trace := by
  have hm := (exitEnd_moved s t).trace.trans (exiting_trace s t)
  unfold afterExit
  generalize exitEnd s t = x at hm ⊢
  split
  · exact hm
  · exact hm

theorem setTeam_afterExit (s : State) (u : Nat) (t : Team) :
    (if (exitEnd s t).status = .ending then setTeam s u { exitEnd s t with exitFlow := some t.flow } else setTeam s u (exitEnd s t)) =
      setTeam s u (afterExit s t) := by
  unfold afterExit
  generalize exitEnd s t = x
  split <;> rfl

/-- EXIT on a team at its boundary. -/
theorem exit_runs {s : State} {u : Nat} {t : Team} (h : Issuing s u t) (hl : t.log = []) (hz : t.zeros = []) :
    exec .exit s =
      let s3 := advance (setTeam s u (exiting s t)) u (exited t) [] none true true
      let s4 := if (getTeam s3 u).status = .ending then modTeam s3 u fun x => { x with exitFlow := some t.flow } else s3
      done (if (getTeam s4 u).status = .ending then traceAppend s4 u else s4) := by
  have hmod : modTeam (setTeam s u (bounding s t noAccess)) u (fun t => { t with endPc := t.cur.group }) =
      setTeam s u (exiting s t) := by
    rw [modTeam_eq, setTeam_setTeam, getTeam_setTeam, if_pos rfl,
      show (bounding s t noAccess).cur.group = s.issue.group by rw [bounding_cur], exiting]
  have hflow : setLanes (bounding s t noAccess).flow (lanesOf (bounding s t noAccess)) .exited = exited t := by
    rw [bounding_flow, lanesOf_bounding, exited]
  show execExit s = _
  rw [execExit, boundaryOp_issuing h hl hz (noAccess_fits t) rfl]
  simp only [latch_bounds, h.mode, Bool.false_eq_true, if_false, undecideAll, List.foldl_nil, hmod]
  rw [getTeam_setTeam, if_pos rfl, hflow, latch_flow]

theorem exit_exec {s : State} {u : Nat} {t : Team} (h : Issuing s u t) (hl : t.log = []) (hz : t.zeros = [])
    (hst : t.trace.staged = []) : exec .exit s = .next (setTeam s u (afterExit s t)) := by
  have hadv : advance (setTeam s u (exiting s t)) u (exited t) [] none true true = setTeam s u (exitEnd s t) := by
    rw [advance_eq (t := exiting s t) (by simp) ((congrArg (·.on) (exiting_trace s t)).trans h.untraced)
      ((exiting_stepOnce s t).trans h.alone), setTeam_setTeam, exitEnd]
  have hstaged : (getTeam (setTeam s u (afterExit s t)) u).trace.staged = [] := by
    rw [getTeam_setTeam, if_pos rfl, afterExit_trace]; exact hst
  rw [exit_runs h hl hz]
  simp only [hadv, getTeam_setTeam, if_true, modTeam_eq, setTeam_setTeam, setTeam_afterExit]
  rw [traceAppend_unstaged hstaged, ite_self, done_of_quiet (h.quiet.setTeam ..)]

theorem exit_ends {s : State} {u : Nat} {t : Team} (h : Issuing s u t) (hl : t.log = []) (hz : t.zeros = [])
    (hst : t.trace.staged = []) (hs : tabSorted t.flow.lanes = true) :
    ∃ s' t', exec .exit s = .next s' ∧ find? s'.teams u = some t' ∧ TeamOnly s s' u ∧
      Onward s { ended t with endPc := s.issue.group, exitFlow := t'.exitFlow, snap := t'.snap } t' ∧
      (t'.status = .ready → t'.snap = t'.flow) ∧
      ((∀ i r d, laneState t.flow i ≠ .waiting r d) → t'.status = .ending ∧ t'.exitFlow = some t.flow ∧
        ∀ i, laneState t'.flow i = if i ∈ lanesOf t then .exited else laneState t.flow i) := by
  have hm := exitEnd_moved s t
  have hsn : (exitEnd s t).status = .ready → (exitEnd s t).snap = (exitEnd s t).flow := advanced_newSnap
  refine ⟨_, afterExit s t, exit_exec h hl hz hst, by rw [find?_setTeam, if_pos rfl], find?_of_teamOnly _, ?_, fun hr => ?_, fun hw => ?_⟩
  · unfold afterExit
    split
    · rw [Onward, hm]; rfl
    · rw [Onward, hm]; rfl
  · unfold afterExit at hr ⊢
    split at hr
    next he => rw [show (exitEnd s t).status = .ready from hr] at he; cases he
    next he => rw [if_neg he]; exact hsn hr
  · have hsorted : tabSorted (exited t).lanes = true := sorted_setLanes _ _ hs
    have hstate : ∀ i, laneState (exited t) i = if i ∈ lanesOf t then .exited else laneState t.flow i :=
      (setLanes_state (lanesOf t) t.flow .exited).2.2
    have hno : ∀ d, waitingAt (exited t) d = [] := fun d => (waitingAt_nil hsorted).2 fun i r => by
      rw [hstate]; split_ifs
      · simp
      · exact hw i r d
    obtain ⟨h1, h2⟩ := advanced_none (t := exiting s t) (redirect := true) (snap := true) (loopStep_nowhere ..)
      (chooseNext_nowhere hno)
    rw [afterExit, if_pos (show (exitEnd s t).status = .ending from h1)]
    exact ⟨h1, rfl, fun i => by rw [← hstate]; exact congrArg (laneState · i) h2⟩

/-! ## YIELD (R142) -/

theorem mem_tabPut_of_ne {α : Type} {t : Tab α} {n m : Nat} {v x : α} (hm : m ≠ n) : (m, x) ∈ tabPut t n v ↔ (m, x) ∈ t := by
  induction t with
  | nil => simp [tabPut, hm]
  | cons e t ih =>
    obtain ⟨k, w⟩ := e
    simp only [tabPut]
    split_ifs with h1 h2
    · subst h1; simp [hm]
    · simp [hm]
    · simp [ih]

theorem mem_teamsOn_setTeam {s : State} {u n core : Nat} {t x : Team} (hn : n ≠ u) :
    (n, x) ∈ teamsOn (setTeam s u t) core ↔ (n, x) ∈ teamsOn s core := by
  simp only [teamsOn, List.mem_filter, setTeam, mem_tabPut_of_ne hn]

/-- The teams of a partition that a yielding team waits for. -/
theorem mem_others {s : State} {u core part n : Nat} {t : Team} :
    n ∈ ((teamsOn (setTeam s u t) core).filter fun e => e.1 != u && e.2.part == part && e.2.status == .ready).map (·.1) ↔
      n ≠ u ∧ ∃ x, (n, x) ∈ teamsOn s core ∧ x.part = part ∧ x.status = .ready := by
  simp only [List.mem_map, List.mem_filter, Bool.and_eq_true, bne_iff_ne, beq_iff_eq, Prod.exists, exists_and_right, exists_eq_right]
  constructor
  · rintro ⟨x, hx, ⟨hn, hp⟩, hr⟩
    exact ⟨hn, x, (mem_teamsOn_setTeam hn).1 hx, hp, hr⟩
  · rintro ⟨hn, x, hx, hp, hr⟩
    exact ⟨x, (mem_teamsOn_setTeam hn).2 hx, ⟨hn, hp⟩, hr⟩

theorem yield_ends {s : State} {u : Nat} {t : Team} (h : Issuing s u t) :
    ∃ s' t', exec .yield s = .next s' ∧ find? s'.teams u = some t' ∧ TeamOnly s s' u ∧ Onward s { t with yielded := t'.yielded } t' ∧
      ∀ n, n ∈ t'.yielded ↔ n ≠ u ∧ ∃ x, (n, x) ∈ teamsOn s t.core ∧ x.part = t.part ∧ x.status = .ready := by
  obtain ⟨t1, he, hp⟩ := fallThrough_passed (s1 := setTeam s u (latch s t noAccess)) (t0 := t) (t1 := latch s t noAccess) h noAccess
    (by simp) rfl ⟨rfl, rfl, rfl, rfl, rfl⟩
  rw [setTeam_setTeam] at he
  set others := ((teamsOn (setTeam s u (latch s t noAccess)) t.core).filter fun e =>
    e.1 != u && e.2.part == t.part && e.2.status == .ready).map (·.1) with ho
  have hw := hp.1
  refine ⟨setTeam s u { t1 with yielded := others }, { t1 with yielded := others }, ?_, by rw [find?_setTeam, if_pos rfl],
    find?_of_teamOnly _, by rw [Onward, hw], fun n => mem_others⟩
  show execYield s = _
  rw [execYield, issueOp_uniform h (noAccess_fits t) rfl]
  simp only [latch_core, latch_part, he, modTeam_eq, setTeam_setTeam, getTeam_setTeam, if_true, ← ho]
  exact done_of_quiet (h.quiet.setTeam ..)

/-- Settles O27: EXIT commits an empty region and lets its lanes go, YIELD records whom it waits for. -/
theorem exitAndYield : Obligations.ExitAndYield := by
  refine ⟨fun s u t h hl hz hst hs => exit_ends h hl hz hst hs, fun s u t h => yield_ends h, fun s u t ht => ?_⟩
  show execYieldResume u s = _
  rw [execYieldResume, ht]

end Sys2Proof.Machine

namespace Sys2Proof.Machine

/-! # Precise stops (O28) -/

theorem coreBusy_congr {s s' : State} {core : Nat} (ht : s'.teams = s.teams) (hq : (getCore s' core).matQ = (getCore s core).matQ) :
    coreBusy s' core = coreBusy s core := by
  rw [coreBusy, coreBusy, teamsOn, teamsOn, ht, hq]

/-- A stop record is a report of no kind, so that it is never dropped (R407). -/
theorem pushRec_stop {s : State} {r : FaultRec} (hr : r.ctx ≠ 0) (hs : r.stopc = true) :
    ∃ c, pushRec s r = setCtx s r.ctx c ∧ r ∈ c.pend := by
  refine ⟨{ getCtx s r.ctx with
    pend := (getCtx s r.ctx).pend ++ [r], due := (getCtx s r.ctx).due || (getCtx s r.ctx).pend.isEmpty }, ?_, by simp⟩
  simp [pushRec, hr, hs]

/-- The state with a team and its core's stop replaced. -/
def stopped (s : State) (u core : Nat) (t : Team) (x : Option Stop) : State :=
  setCore (setTeam s u t) core { getCore s core with stop := x }

section
variable {s : State} {u core : Nat} {t : Team} {x : Option Stop}

theorem stopped_teams : (stopped s u core t x).teams = (setTeam s u t).teams := rfl
theorem stopped_core : getCore (stopped s u core t x) core = { getCore s core with stop := x } := by simp [stopped]

theorem stopOnly_stopped : StopOnly s (stopped s u core t x) u core where
  rest := rfl
  others n hn := by rw [stopped_teams, find?_setTeam, if_neg hn]
  cores n := by
    rw [stopped, getCore_setCore]
    split
    next hn => subst hn; rfl
    · rfl
  bytes := by
    have hc : ∀ n, (getCore (stopped s u core t x) n).spad = (getCore s n).spad ∧
        (getCore (stopped s u core t x) n).tile = (getCore s n).tile := by
      intro n
      rw [stopped, getCore_setCore]
      split
      next hn => subst hn; exact ⟨rfl, rfl⟩
      · exact ⟨rfl, rfl⟩
    exact ⟨fun _ => rfl, fun _ => rfl, fun _ => rfl, fun n a => by rw [(hc n).1], fun n a => by rw [(hc n).2]⟩

theorem StopOnly.putCtx {s1 : State} (h : StopOnly s s1 u core) (n : Nat) (c : Ctx) : StopOnly s (setCtx s1 n c) u core where
  rest := by rw [h.rest]; rfl
  others := h.others
  cores := h.cores
  bytes := ⟨h.bytes.mem, h.bytes.tspace, h.bytes.host, h.bytes.spad, h.bytes.tile⟩
end

/-- THE PRECISE STOP SAID ONCE (R409), on a core that has not stopped, for a team `t1` of a context. -/
theorem preciseStop_recorded {s : State} {u core : Nat} {t1 : Team} {r : FaultRec} (hstop : (getCore s core).stop = none)
    (hr : r.ctx ≠ 0) (ht : r.time = s.mgmt.time) (completed : Bool) :
    let s1 := preciseStop (setTeam s u t1) core (some u) r completed
    find? s1.teams u = some { t1 with stepOnce := false } ∧ StopOnly s s1 u core ∧
      (getCore s1 core).stop = some ⟨some u, r.cause, completed, if coreBusy s1 core then some { r with stopc := true } else none⟩ ∧
      (coreBusy s1 core = false → { r with stopc := true } ∈ (getCtx s1 r.ctx).pend) := by
  set t2 : Team := { t1 with stepOnce := false } with ht2
  set rec : FaultRec := { r with stopc := true } with hrec
  set s2 := stopped s u core t2 (some ⟨some u, r.cause, completed, some rec⟩) with hs2
  set s3 := stopped s u core t2 (some ⟨some u, r.cause, completed, none⟩) with hs3
  have hpre : preciseStop (setTeam s u t1) core (some u) r completed = settleStop s2 core := by
    simp only [preciseStop, getCore_setTeam, hstop, modTeam_eq, modCore_eq, setTeam_setTeam, getTeam_setTeam, if_true]
    rfl
  have hc2 : (getCore s2 core).stop = some ⟨some u, r.cause, completed, some rec⟩ := by rw [hs2, stopped_core]
  have htime : { rec with time := s2.mgmt.time } = rec := by
    have : s2.mgmt.time = rec.time := by rw [hrec, ht]; rfl
    rw [this]
  have hmod : modCore s2 core (fun c => { c with stop := some ⟨some u, r.cause, completed, none⟩ }) = s3 := by
    rw [modCore_eq, hs2, stopped_core, stopped, setCore_setCore]
    rfl
  have hteam : ∀ x, find? (stopped s u core t2 x).teams u = some t2 := fun x => by rw [stopped_teams, find?_setTeam, if_pos rfl]
  obtain ⟨c, hpush, hmem⟩ := pushRec_stop (s := s3) (r := rec) hr rfl
  have hsettle : settleStop s2 core = if coreBusy s2 core then s2 else setCtx s3 rec.ctx c := by
    unfold settleStop
    simp only [hc2, htime, hmod, hpush]
  dsimp only
  rw [hpre, hsettle]
  by_cases hb : coreBusy s2 core = true
  · rw [if_pos hb]
    exact ⟨hteam _, stopOnly_stopped, by rw [hb]; exact hc2, fun hn => by rw [hb] at hn; cases hn⟩
  · rw [if_neg hb]
    have hq : (getCore (setCtx s3 rec.ctx c) core).matQ = (getCore s2 core).matQ := by
      rw [getCore_setCtx, hs3, hs2, stopped_core, stopped_core]
    have hb3 : coreBusy (setCtx s3 rec.ctx c) core = false :=
      (coreBusy_congr (s := s2) (s' := setCtx s3 rec.ctx c) rfl hq).trans (Bool.eq_false_iff.2 hb)
    refine ⟨hteam (some ⟨some u, r.cause, completed, none⟩), stopOnly_stopped.putCtx .., ?_, fun _ => ?_⟩
    · rw [hb3, getCore_setCtx, hs3, stopped_core]; rfl
    · rw [getCtx_setCtx, if_pos rfl]; exact hmem

/-- A team's instruction stops precisely with no other effect, whatever its group has booked. -/
theorem teamStop_stopped {c : Instr} {s : State} {u : Nat} {t t1 : Team} {cause : Nat} {lane : Option Nat} {addr : Nat}
    (hx : t.ctx ≠ 0) (hstop : (getCore s t.core).stop = none) (ht : t1 = { t with cur := s.issue, booking := t1.booking })
    (hc : exec c s = done (teamStop (setTeam s u t1) u cause lane addr)) : StoppedAt c s u t cause 0 lane addr := by
  have hg : getTeam (setTeam s u t1) u = t1 := by simp
  have hcore : t1.core = t.core := by rw [ht]
  have hctx : t1.ctx = t.ctx := by rw [ht]
  set r : FaultRec := { teamRec (setTeam s u t1) u cause lane addr with w5 := 0, w6 := 0, w7 := 0 } with hr
  have hrec : r = { blankRec s cause t.ctx with
      lane := lane, uid := some u, core := t.core, part := t.part, team := t.id, qnum := r.qnum, pc := s.issue.group, addr := addr } := by
    rw [hr, teamRec, hg, ht]
    rfl
  obtain ⟨h1, h2, h3, h4⟩ := preciseStop_recorded (s := s) (u := u) (core := t.core) (t1 := t1) (r := r) hstop
    (by rw [hrec]; exact hx) (by rw [hrec]; rfl) false
  have hts : teamStop (setTeam s u t1) u cause lane addr = preciseStop (setTeam s u t1) t.core (some u) r false := by
    rw [teamStop, teamStopWith, hg, hcore]
  refine ⟨_, _, hc.trans (congrArg done hts), h1, by rw [ht], h2, { r with stopc := true }, ?_, ?_, ?_⟩
  · rw [h3, hrec]; rfl
  · intro hb
    have := h4 hb
    rw [hrec] at this ⊢; exact this
  · rw [hrec]
    exact ⟨rfl, rfl, rfl, rfl, rfl, rfl, rfl, rfl, rfl, rfl, rfl, rfl, rfl⟩

/-! ## The causes of the issue (R39-R41, R52, R53) -/

/-- A register cause stops the instruction before its effect. -/
theorem issueOp_stops {s : State} {u : Nat} {t : Team} (h : Issuing s u t) {a : Access} (hv : a.vector = true → lanesOf t ≠ [])
    {cause : Nat} (hc : accCause (setTeam s u (latch s t a)) (latch s t a) a = some cause) (eff : State → Nat → Team → Out) :
    issueOp a eff s = done (teamStop (setTeam s u (latch s t a)) u cause none 0) := by
  have hb := beginGroup_issuing h a
  rw [h.latched] at hb
  have hn : (a.vector && (lanesOf t).isEmpty) = false := by
    cases hvec : a.vector
    · rfl
    · simp [hv hvec]
  unfold issueOp
  simp only [h.latched, hb, getTeam_setTeam, if_true, lanesOf_latch, hn, Bool.false_eq_true, if_false, hc]

section
variable {s : State} {u : Nat} {t : Team} (h : Issuing s u t) (hx : t.ctx ≠ 0) (hstop : (getCore s t.core).stop = none)
include h hx hstop

/-- An illegal word stops (R52). -/
theorem illegalWord_stops (c : IllegalCause) : Stopped (.illegalWord c) s u t (illegalCause c) 0 := by
  refine teamStop_stopped (t1 := { t with cur := s.issue, booking := none }) hx hstop rfl ?_
  show execIllegalWord c s = _
  rw [execIllegalWord, h.latched, beginHint_issuing h]

/-- A register cause is the instruction's only effect. -/
theorem register_stops {c : Instr} {a : Access} {eff : State → Nat → Team → Out} (hexec : exec c s = issueOp a eff s)
    (hv : a.vector = true → lanesOf t ≠ []) {cause : Nat}
    (hc : accCause (setTeam s u (latch s t a)) (latch s t a) a = some cause) : Stopped c s u t cause 0 :=
  teamStop_stopped (t1 := latch s t a) hx hstop rfl (hexec.trans (issueOp_stops h hv hc eff))

/-- An effect that stops at once. -/
theorem effect_stops {c : Instr} {a : Access} {eff : State → Nat → Team → Out} (hexec : exec c s = issueOp a eff s)
    (hf : AccFits t a) (hv : a.vector = false) {cause : Nat}
    (hc : eff (setTeam s u (latch s t a)) u (latch s t a) = done (teamStop (setTeam s u (latch s t a)) u cause none 0)) :
    Stopped c s u t cause 0 :=
  teamStop_stopped (t1 := latch s t a) hx hstop rfl (hexec.trans ((issueOp_uniform h hf hv eff).trans hc))

theorem iadd_overruns (ty : IntTy) (sat : Bool) (d a b : VReg) (hne : lanesOf t ≠ [])
    (hr : ∃ r ∈ [a, b, d], t.allot < r.toNat + t.flow.x + (vTy ty r).n) : Stopped (.iadd ty sat d a b) s u t 0x44 0 := by
  refine register_stops h hx hstop (c := .iadd ty sat d a b) (a := accTy ty d a b 4) ((execIadd.eq_1 ty sat d a b s).trans (vecOp.eq_1 ..)) (fun _ => hne) ?_
  have hany : ((accTy ty d a b 4).rv ++ (accTy ty d a b 4).wv).any (vUseOver t.flow.x t.allot) = true := by
    obtain ⟨r, hr, hlt⟩ := hr
    rw [List.any_eq_true]
    refine ⟨vTy ty r, ?_, ?_⟩
    · simp only [List.mem_cons, List.not_mem_nil, or_false] at hr
      rcases hr with rfl | rfl | rfl <;> simp [accTy]
    · have hfld : (vTy ty r).fld = r.toNat := by unfold vTy; split <;> rfl
      rw [vUseOver, hfld, decide_eq_true_iff]
      exact hlt
  simp only [accCause, latch_flow, show (latch s t (accTy ty d a b 4)).allot = t.allot from rfl, hany, if_true]

theorem iadd_misaligned (ty : IntTy) (sat : Bool) (d a b : VReg) (hne : lanesOf t ≠ []) (hp : tyPair ty = true)
    (hfit : ∀ r ∈ [a, b, d], r.toNat + t.flow.x + 2 ≤ t.allot) (hr : ∃ r ∈ [a, b, d], (r.toNat + t.flow.x) % 2 = 1) :
    Stopped (.iadd ty sat d a b) s u t 0x45 0 := by
  refine register_stops h hx hstop (c := .iadd ty sat d a b) (a := accTy ty d a b 4) ((execIadd.eq_1 ty sat d a b s).trans (vecOp.eq_1 ..)) (fun _ => hne) ?_
  have huses : (accTy ty d a b 4).rv ++ (accTy ty d a b 4).wv = [a, b, d].map v2 := by simp [accTy, vTy, hp]
  have hover : ((accTy ty d a b 4).rv ++ (accTy ty d a b 4).wv).any (vUseOver t.flow.x t.allot) = false := by
    rw [huses, List.any_map, List.any_eq_false]
    intro r hr
    have := hfit r hr
    rw [Function.comp_apply, vUseOver, decide_eq_true_iff]
    exact Nat.not_lt.2 this
  have hodd : ((accTy ty d a b 4).rv ++ (accTy ty d a b 4).wv).any (vUseOdd t.flow.x) = true := by
    obtain ⟨r, hr, hmod⟩ := hr
    rw [huses, List.any_map, List.any_eq_true]
    exact ⟨r, hr, by simp [vUseOdd, v2, hmod]⟩
  simp only [accCause, latch_flow, show (latch s t (accTy ty d a b 4)).allot = t.allot from rfl, hover, hodd, if_true,
    Bool.false_eq_true, if_false]

theorem maskSet_overruns (a : KReg) (ha : 368 < a.toNat) : Stopped (.maskSet a) s u t 0x46 0 := by
  refine register_stops h hx hstop (c := .maskSet a) (a := { noAccess with rk := [(a.toNat, 16)] }) (execMaskSet.eq_1 a s)
    (fun hv => absurd (show false = true from hv) (by decide)) ?_
  simpa [accCause, noAccess] using ha

theorem call_tooDeep (off : BitVec 21) (hd : t.flow.depth = 63) : Stopped (.call off) s u t 0x4A 0 := by
  refine effect_stops h hx hstop (c := .call off) (a := { noAccess with wk := [(1, 1)] }) (execCall.eq_1 off s) (uniFits rfl rfl fun e he => ?_) rfl ?_
  · have : e = (1, 1) := List.mem_singleton.1 (by simpa [noAccess] using he)
    subst this; decide
  · simp only [latch_flow, hd, if_true]

theorem ret_atTop (a : KReg) (ha : a.toNat ≤ 383) (hd : t.flow.depth = 0) : Stopped (.ret a) s u t 0x4A 0 := by
  refine effect_stops h hx hstop (c := .ret a) (a := { noAccess with rk := [(a.toNat, 1)] }) (execRet.eq_1 a s) (readsOne_fits t ha) rfl ?_
  simp only [latch_flow, hd, if_true]

theorem loop_active (a : KReg) (l : LoopCtr) (n : BitVec 13) (ha : a.toNat ≤ 383) (hc : (kreg t a.toNat).setWidth 32 ≠ 0#32)
    (hon : (loopAt t.flow (loopNum l)).on = true) : Stopped (.loop a l n) s u t 0x4B 0 := by
  refine effect_stops h hx hstop (c := .loop a l n) (a := { noAccess with rk := [(a.toNat, 1)] }) (execLoop.eq_1 a l n s) (readsOne_fits t ha) rfl ?_
  simp only [kreg_latch, latch_flow, BitVec.ofNat_toNat, hc, if_false, loopClash, hon, Bool.true_or, if_true]

theorem setx_tooHigh (a : KReg) (i : BitVec 7) (ha : a.toNat ≤ 383) (hv : 127 < (kreg t a.toNat).toNat + i.toNat) :
    Stopped (.setx a i) s u t 0x50 0 := by
  refine effect_stops h hx hstop (c := .setx a i) (a := { noAccess with rk := [(a.toNat, 1)] }) (execSetx.eq_1 a i s) (readsOne_fits t ha) rfl ?_
  simp only [kreg_latch, hv, if_true]

/-- TRAP and BKPT (R143). -/
theorem trapStop_ends {c : Instr} {cause : Nat} {code : BitVec 16} (hc : exec c s = trapStop cause code s) :
    ∃ s1 t', exec c s = .next (settle s1) ∧ find? s1.teams u = some t' ∧ Passed s t t' ∧ StopOnly s s1 u t.core ∧
      StopRecorded s s1 u t s.issue.group cause code.toNat none 0 true := by
  obtain ⟨t', he, hp⟩ := fallThrough_passed (s1 := setTeam s u (latch s t noAccess)) (t0 := t) (t1 := latch s t noAccess) h noAccess
    (by simp) rfl ⟨rfl, rfl, rfl, rfl, rfl⟩
  rw [setTeam_setTeam] at he
  have hg : getTeam (setTeam s u t') u = t' := by simp
  have hw := hp.1
  have halone : t'.stepOnce = false := by rw [hw]; exact h.alone
  set r : FaultRec := { teamRec (setTeam s u t') u cause none 0 with w5 := code.toNat } with hr
  have hrec : r = { blankRec s cause t.ctx with
      lane := none, uid := some u, core := t.core, part := t.part, team := t.id, qnum := r.qnum, pc := s.issue.group, addr := 0
      w5 := code.toNat } := by
    rw [hr, teamRec, hg, hw]
    rfl
  obtain ⟨h1, h2, h3, h4⟩ := preciseStop_recorded (s := s) (u := u) (core := t.core) (t1 := t') (r := r) hstop
    (by rw [hrec]; exact hx) (by rw [hrec]; rfl) true
  have hlone : modTeam (setTeam s u (latch s t noAccess)) u (fun t => { t with stepOnce := false }) = setTeam s u (latch s t noAccess) := by
    rw [modTeam_eq, setTeam_setTeam, getTeam_setTeam, if_pos rfl, latch, h.alone]
  have hsame : { t' with stepOnce := false } = t' := by rw [← halone]
  have hexec : exec c s = done (preciseStop (setTeam s u t') t.core (some u) r true) := by
    rw [hc, trapStop, issueOp_uniform h (noAccess_fits t) rfl]
    simp only [hlone, he, latch_core]
    rfl
  refine ⟨_, t', hexec, by rw [hsame] at h1; exact h1, hp, h2, { r with stopc := true }, ?_, ?_, ?_⟩
  · rw [h3, hrec]; rfl
  · intro hb
    have := h4 hb
    rw [hrec] at this ⊢; exact this
  · rw [hrec]
    exact ⟨rfl, rfl, rfl, rfl, rfl, rfl, rfl, rfl, rfl, rfl, rfl, rfl, rfl⟩
end

/-- Settles O28: each cause is met at the issue or first in the effect, and TRAP and BKPT stop a team that has gone on. -/
theorem checksStopPrecisely : Obligations.ChecksStopPrecisely := by
  intro s u t h hx hstop
  refine ⟨illegalWord_stops h hx hstop .op, illegalWord_stops h hx hstop .fn, illegalWord_stops h hx hstop .field,
    illegalWord_stops h hx hstop .hint, fun ty sat d a b hne hr => iadd_overruns h hx hstop ty sat d a b hne hr,
    fun ty sat d a b hne hp hfit hr => iadd_misaligned h hx hstop ty sat d a b hne hp hfit hr,
    fun a ha => maskSet_overruns h hx hstop a ha, fun off hd => call_tooDeep h hx hstop off hd,
    fun a ha hd => ret_atTop h hx hstop a ha hd, fun a l n ha hc hon => loop_active h hx hstop a l n ha hc hon,
    fun a i ha hv => setx_tooHigh h hx hstop a i ha hv, ?_⟩
  rintro code c cause (⟨rfl, rfl⟩ | ⟨rfl, rfl⟩)
  · exact trapStop_ends h hx hstop rfl
  · exact trapStop_ends h hx hstop rfl

end Sys2Proof.Machine

namespace Sys2Proof.Machine

/-! # Access faults and their records (O54)

The first clause asks nothing of the core's stop. A team whose core is stopping, and waits only for what was issued to complete, parks at
its fault; by that the stop's own record is formed (R409), which the clause's frame does not allow. -/

/-- The record of a HALT that waits for what the core has issued. -/
def haltRecord (s : State) : FaultRec := { blankRec s 0x5F 1 with stopc := true, core := 0 }

/-- Team 1 is about to load from an absent page, and its core is stopping. Records of context 1 and of the device are counted as lost, which
shows after the step that none has been appended. -/
def haltingDevice : State :=
  { Tests.devBad 0x400000 with
    cores := [(0, { Tests.coreOne with stop := some ⟨none, 0x5F, true, some (haltRecord State.reset)⟩ })]
    ctxs := [(1, { Ctx.reset with st := .active, z := 8, pool := 1000, lost := 1 })], evLost := 1 }

theorem haltingDevice_issuing : Issuing haltingDevice 1 (Tests.teamBad 0x400000) :=
  Tests.issuing_of rfl rfl (Tests.quiet_of rfl rfl rfl rfl rfl)
    ⟨rfl, rfl, rfl, rfl, rfl, rfl, rfl, rfl, by show 16 ≤ 128; decide, rfl, by show 0 < 4; decide⟩

/-- Whether a step leaves one context, records counted as lost, and the stop of core 0 with its record formed. -/
def haltRecorded : Out → Bool
  | .next s => s.ctxs.map (fun e => (e.1, e.2.lost)) == [(1, 1)] && s.evLost != 0 && isStopped s 0
  | _ => false

theorem haltingDevice_recorded : haltRecorded (exec (.ld .b32 .l1 false Tests.argsOne) haltingDevice) = true := by decide +kernel

theorem haltingDevice_faults : lanesOf (Tests.teamBad 0x400000) ≠ [] ∧
    Fits (Tests.teamBad 0x400000) (offUse true 4#7 24#7 ++ [dataUse .b32 5#7]) ∧
    checkLanes haltingDevice (Tests.teamBad 0x400000) 4 .load (globalLanes (Tests.teamBad 0x400000) 4#7 24#7 .none) =
      .fault 0x01 0 0x400000 := by
  unfold Fits
  decide +kernel

/-- Refutes O54: a replayable fault of a team whose core is stopping forms the stop's record as well (R409). -/
theorem not_accessFaultsAndTheirRecords : ¬ Obligations.AccessFaultsAndTheirRecords := by
  rintro ⟨faults, -⟩
  obtain ⟨hne, hfits, hfault⟩ := haltingDevice_faults
  obtain ⟨parks, -⟩ := faults haltingDevice 1 (Tests.teamBad 0x400000) haltingDevice_issuing (by decide) rfl
  obtain ⟨replayable, -⟩ := parks (.ld .b32 .l1 false Tests.argsOne) 0x01 0 0x400000
    (.inl ⟨_, _, _, Tests.argsOne, rfl, hne, hfits, hfault⟩)
  obtain ⟨s1, he, hdebit, -⟩ := replayable (.inl rfl)
  have h := haltingDevice_recorded
  rw [he] at h
  simp only [haltRecorded, Bool.and_eq_true, beq_iff_eq, bne_iff_ne] at h
  obtain ⟨⟨hctxs, hlost⟩, hstop⟩ := h
  have hsame : getCore (settle s1) 0 = getCore s1 0 := by
    rw [getCore, cores_of_settle (lossOnly_of_ctxs hctxs (by decide)) hlost]
    rfl
  have hstill : isStopped (settle s1) 0 = false := by
    rw [isStopped, hsame, hdebit.cores 0]
    rfl
  rw [hstill] at hstop
  cases hstop

end Sys2Proof.Machine

namespace Sys2Proof.Machine

/-! # Stores enter the log (O14) -/

/-! ## What a debit changes (R207-R213) -/

theorem SameBytes.refl (s : State) : SameBytes s s := ⟨fun _ => rfl, fun _ => rfl, fun _ => rfl, fun _ _ => rfl, fun _ _ => rfl⟩

theorem SameBytes.trans {s s1 s2 : State} (h : SameBytes s s1) (k : SameBytes s1 s2) : SameBytes s s2 :=
  ⟨fun a => (k.mem a).trans (h.mem a), fun a => (k.tspace a).trans (h.tspace a), fun a => (k.host a).trans (h.host a),
    fun n a => (k.spad n a).trans (h.spad n a), fun n a => (k.tile n a).trans (h.tile n a)⟩

theorem DebitOnly.trans {s s1 s2 : State} {u : Nat} (h : DebitOnly s s1 u) (k : DebitOnly s1 s2 u) : DebitOnly s s2 u where
  rest := by rw [k.rest, h.rest]
  others n hn := (k.others n hn).trans (h.others n hn)
  cores n := by rw [k.cores, h.cores]
  bytes := h.bytes.trans k.bytes

theorem debitOnly_setTeam (s : State) (u : Nat) (t : Team) : DebitOnly s (setTeam s u t) u where
  rest := rfl
  others n hn := by rw [find?_setTeam, if_neg hn]
  cores _ := rfl
  bytes := ⟨fun _ => rfl, fun _ => rfl, fun _ => rfl, fun _ _ => rfl, fun _ _ => rfl⟩

/-- Of the state only sums of sectors and waiting records differ; the teams are the same. -/
structure SumsOnly (s s' : State) : Prop where
  rest : s' = { s with
    cores := s'.cores, ctxs := s'.ctxs, reserve := s'.reserve, evPend := s'.evPend, evDue := s'.evDue, evLost := s'.evLost }
  cores : ∀ n, getCore s' n = { getCore s n with slice := (getCore s' n).slice }

theorem SumsOnly.refl (s : State) : SumsOnly s s := ⟨rfl, fun _ => rfl⟩

theorem SumsOnly.trans {s s1 s2 : State} (h : SumsOnly s s1) (k : SumsOnly s1 s2) : SumsOnly s s2 :=
  ⟨by rw [k.rest, h.rest], fun n => by rw [k.cores, h.cores]⟩

theorem SumsOnly.teams {s s' : State} (h : SumsOnly s s') : s'.teams = s.teams := by rw [h.rest]

theorem SumsOnly.debitOnly {s s' : State} (h : SumsOnly s s') (u : Nat) : DebitOnly s s' u where
  rest := by rw [h.rest]
  others _ _ := by rw [h.rest]
  cores := h.cores
  bytes := ⟨fun _ => by rw [h.rest], fun _ => by rw [h.rest], fun _ => by rw [h.rest], fun n _ => by rw [h.cores],
    fun n _ => by rw [h.cores]⟩

theorem sumsOnly_setCtx (s : State) (n : Nat) (c : Ctx) : SumsOnly s (setCtx s n c) := ⟨rfl, fun _ => rfl⟩

theorem sumsOnly_slice (s : State) (n x : Nat) : SumsOnly s (setCore s n { getCore s n with slice := x }) := by
  refine ⟨rfl, fun m => ?_⟩
  rw [getCore_setCore]
  split
  next h => subst h; rfl
  · rfl

theorem sumsOnly_pushRec (s : State) (r : FaultRec) : SumsOnly s (pushRec s r) := by
  unfold pushRec
  dsimp only
  split_ifs
  · exact ⟨rfl, fun _ => rfl⟩
  · exact ⟨rfl, fun _ => rfl⟩
  · exact sumsOnly_setCtx ..
  · exact sumsOnly_setCtx ..

theorem sumsOnly_watchLow (s : State) (id : Nat) : SumsOnly s (watchLow s id) := by
  unfold watchLow
  dsimp only
  split_ifs
  · exact (sumsOnly_setCtx ..).trans (sumsOnly_pushRec ..)
  · exact sumsOnly_pushRec ..
  · exact sumsOnly_setCtx ..
  · exact .refl s
  · exact sumsOnly_setCtx ..

theorem sumsOnly_debit8 (s : State) (p : Payer) (id : Nat) : SumsOnly s (debit8 s p id).1 := by
  unfold debit8
  cases p with
  | pool =>
    dsimp only
    split_ifs
    · exact (sumsOnly_setCtx ..).trans (sumsOnly_watchLow ..)
    · exact .refl s
  | core n =>
    dsimp only
    split_ifs
    · exact ((sumsOnly_setCtx ..).trans (sumsOnly_slice ..)).trans (sumsOnly_watchLow ..)
    · exact (sumsOnly_setCtx ..).trans (sumsOnly_slice ..)
    · exact ((sumsOnly_setCtx ..).trans (sumsOnly_slice ..)).trans (sumsOnly_watchLow ..)
    · exact (sumsOnly_setCtx ..).trans (sumsOnly_slice ..)

/-! ## A debit reads no team -/

theorem pushRec_teams (s : State) (T : Tab Team) (r : FaultRec) : pushRec { s with teams := T } r = { pushRec s r with teams := T } := by
  unfold pushRec
  dsimp only
  rw [show getCtx { s with teams := T } r.ctx = getCtx s r.ctx from rfl]
  split_ifs <;> rfl

theorem watchLow_teams (s : State) (T : Tab Team) (id : Nat) : watchLow { s with teams := T } id = { watchLow s id with teams := T } := by
  unfold watchLow
  dsimp only
  rw [show getCtx { s with teams := T } id = getCtx s id from rfl, show availOf { s with teams := T } id = availOf s id from rfl]
  split_ifs
  · exact pushRec_teams (setCtx s id { getCtx s id with above := false, armed := false }) T _
  · exact pushRec_teams s T _
  · rfl
  · rfl
  · rfl

theorem debit8_teams (s : State) (T : Tab Team) (n id : Nat) :
    debit8 { s with teams := T } (.core n) id = ({ (debit8 s (.core n) id).1 with teams := T }, (debit8 s (.core n) id).2) := by
  unfold debit8
  dsimp only
  rw [show getCtx { s with teams := T } id = getCtx s id from rfl, show getCore { s with teams := T } n = getCore s n from rfl]
  split
  · split
    · exact congrArg (·, true) (watchLow_teams (setCore (setCtx s id _) n _) T id)
    · rfl
  · split
    · exact congrArg (·, true) (watchLow_teams (setCore (setCtx s id _) n _) T id)
    · rfl

/-- What a store's debits come to depends on a team's debited blocks, its core and its context alone. -/
theorem debitStores_congr (u : Nat) (l : List LaneStore) {s : State} {T : Tab Team}
    (hd : (getTeam { s with teams := T } u).debited = (getTeam s u).debited)
    (hc : (getTeam { s with teams := T } u).core = (getTeam s u).core)
    (hx : (getTeam { s with teams := T } u).ctx = (getTeam s u).ctx) :
    (debitStores u { s with teams := T } l).2 = (debitStores u s l).2 := by
  induction l generalizing s T with
  | nil => rfl
  | cons e l ih =>
    unfold debitStores
    dsimp only
    rw [hd, hc, hx, debit8_teams]
    split
    · exact ih hd hc hx
    · rcases hr : debit8 s (.core (getTeam s u).core) (getTeam s u).ctx with ⟨s1, b⟩
      have hg : getTeam s1 u = getTeam s u := by
        have := (sumsOnly_debit8 s (.core (getTeam s u).core) (getTeam s u).ctx).teams
        rw [hr] at this
        rw [getTeam, getTeam, this]
      cases b with
      | false => rfl
      | true =>
        have hput : ∀ x : Team, getTeam { s1 with teams := tabPut T u x } u = x := fun x => (tabGet_put ..).trans (if_pos rfl)
        refine ih (s := modTeam s1 u fun t => { t with debited := t.debited ++ [e.addr / 256] })
          (T := tabPut T u { getTeam { s with teams := T } u with debited := (getTeam { s with teams := T } u).debited ++ [e.addr / 256] })
          ?_ ?_ ?_ <;> rw [modTeam_eq, getTeam_setTeam, if_pos rfl, hg]
        · exact (congrArg Team.debited (hput _)).trans (congrArg (· ++ [e.addr / 256]) hd)
        · exact (congrArg Team.core (hput _)).trans hc
        · exact (congrArg Team.ctx (hput _)).trans hx

theorem mem_debited_cons (d : List Nat) {e : LaneStore} (l : List LaneStore) {b : Nat} (he : leafDebits e.leaf = true) :
    (b ∈ d ++ [e.addr / 256] ∨ ∃ x ∈ l, leafDebits x.leaf = true ∧ b = x.addr / 256) ↔
      b ∈ d ∨ ∃ x ∈ e :: l, leafDebits x.leaf = true ∧ b = x.addr / 256 := by
  simp only [List.mem_append, List.mem_singleton, List.exists_mem_cons_iff, he, true_and, or_assoc]

/-- The debits of stores change sums of sectors and what their team has debited: every block that debits (R209). -/
theorem debitStores_only {u : Nat} (l : List LaneStore) {s : State} {t : Team} (ht : find? s.teams u = some t) :
    DebitOnly s (debitStores u s l).1 u ∧ ∃ d, find? (debitStores u s l).1.teams u = some { t with debited := d } ∧
      ((debitStores u s l).2 = none → ∀ b, b ∈ d ↔ b ∈ t.debited ∨ ∃ e ∈ l, leafDebits e.leaf = true ∧ b = e.addr / 256) := by
  induction l generalizing s t with
  | nil => exact ⟨(SumsOnly.refl s).debitOnly u, t.debited, ht, fun _ b => by simp⟩
  | cons e l ih =>
    have hg : getTeam s u = t := getTeam_of_find ht
    unfold debitStores
    dsimp only
    rw [hg]
    split
    next hskip =>
      obtain ⟨h1, d, h2, h3⟩ := ih ht
      refine ⟨h1, d, h2, fun hn b => (h3 hn b).trans ?_⟩
      have hin : leafDebits e.leaf = true → e.addr / 256 ∈ t.debited := by
        intro hl
        simpa [hl] using hskip
      constructor
      · exact Or.imp_right fun ⟨x, hx, hr⟩ => ⟨x, List.mem_cons_of_mem _ hx, hr⟩
      · rintro (hb | ⟨x, hx, hl, rfl⟩)
        · exact .inl hb
        · rcases List.mem_cons.1 hx with rfl | hx
          · exact .inl (hin hl)
          · exact .inr ⟨x, hx, hl, rfl⟩
    next hnew =>
      have hleaf : leafDebits e.leaf = true := by
        by_contra hl
        simp [hl] at hnew
      have hsum := sumsOnly_debit8 s (.core t.core) t.ctx
      rcases hr : debit8 s (.core t.core) t.ctx with ⟨s1, b⟩
      rw [hr] at hsum
      have ht1 : find? s1.teams u = some t := by rw [show s1.teams = s.teams from hsum.teams]; exact ht
      cases b with
      | false => exact ⟨hsum.debitOnly u, t.debited, ht1, fun hn => by cases hn⟩
      | true =>
        have hg1 : getTeam s1 u = t := getTeam_of_find ht1
        dsimp only
        rw [modTeam_eq, hg1]
        obtain ⟨h1, d, h2, h3⟩ := ih (s := setTeam s1 u { t with debited := t.debited ++ [e.addr / 256] })
          (t := { t with debited := t.debited ++ [e.addr / 256] }) (by rw [find?_setTeam, if_pos rfl])
        exact ⟨((hsum.debitOnly u).trans (debitOnly_setTeam ..)).trans h1, d, h2,
          fun hn b => (h3 hn b).trans (mem_debited_cons t.debited l hleaf)⟩

/-! ## The log (R150) -/

theorem find?_logPut (bs : List Byte) (a : Nat) (log : Tab Byte) (x : Nat) :
    find? (logPut log a bs) x = if a ≤ x ∧ x < a + bs.length then bs[x - a]? else find? log x := by
  induction bs generalizing a log with
  | nil => rw [if_neg (by simp)]; rfl
  | cons b bs ih =>
    have hput : logPut log a (b :: bs) = logPut (tabPut log a b) (a + 1) bs := rfl
    rw [hput, ih, find?_put, List.length_cons]
    rcases Nat.lt_trichotomy x a with hx | rfl | hx
    · rw [if_neg (by omega), if_neg (by omega), if_neg (by omega)]
    · rw [if_neg (by omega), if_pos rfl, if_pos (by omega), Nat.sub_self]; rfl
    · obtain ⟨k, rfl⟩ := Nat.exists_eq_add_of_lt hx
      have hk : a + k + 1 - a = k + 1 := by omega
      have hk' : a + k + 1 - (a + 1) = k := by omega
      rw [hk, hk', List.getElem?_cons_succ]
      by_cases hl : k < bs.length
      · rw [if_pos (by omega), if_pos (by omega)]
      · rw [if_neg (by omega), if_neg (by omega), if_neg (by omega)]

theorem find?_logPuts (l : List LaneStore) (log : Tab Byte) (x : Nat) :
    find? (l.foldl (fun g e => logPut g e.addr e.bytes) log) x =
      l.foldl (fun v e => if e.addr ≤ x ∧ x < e.addr + e.bytes.length then e.bytes[x - e.addr]? else v) (find? log x) := by
  induction l generalizing log with
  | nil => rfl
  | cons e l ih => rw [List.foldl_cons, List.foldl_cons, ih, find?_logPut]

/-! ## The stores -/

/-- A team with stores entered in its log and the blocks `d` debited. -/
def logged (t : Team) (pol : Pol) (l : List LaneStore) (d : List Nat) : Team :=
  { t with
    log := l.foldl (fun g e => logPut g e.addr e.bytes) t.log, pols := l.foldl (fun g e => polPut g (e.addr / 256) pol) t.pols
    debited := d }

/-- THE ENTRY OF STORES SAID ONCE, where the log has room and every debit is covered. -/
theorem logStores_enter {s : State} {u : Nat} {t : Team} (h : Issuing s u t) (a : Access) (un : Bool) (pol : Pol) {l : List LaneStore}
    (hroom : logWith t l ≤ t.logSize / 64) (hpaid : (debitStores u s l).2 = none) :
    ∃ s1 d, (∀ k, logStores (setTeam s u (latch s t a)) u un pol l k = k (setTeam s1 u (logged (latch s t a) pol l d))) ∧
      DebitOnly s s1 u ∧ ∀ b, b ∈ d ↔ b ∈ t.debited ∨ ∃ e ∈ l, leafDebits e.leaf = true ∧ b = e.addr / 256 := by
  have hg : getTeam s u = t := getTeam_of_find h.team
  have hput : getTeam { s with teams := tabPut s.teams u (latch s t a) } u = latch s t a := getTeam_of_find ((find?_put ..).trans (if_pos rfl))
  have hpaid1 : (debitStores u (setTeam s u (latch s t a)) l).2 = none :=
    (debitStores_congr u l (T := tabPut s.teams u (latch s t a)) (by rw [hput, hg]; rfl) (by rw [hput, hg]; rfl)
      (by rw [hput, hg]; rfl)).trans hpaid
  obtain ⟨h1, d, h2, h3⟩ := debitStores_only l (s := setTeam s u (latch s t a)) (t := latch s t a) (by rw [find?_setTeam, if_pos rfl])
  refine ⟨(debitStores u (setTeam s u (latch s t a)) l).1, d, fun k => ?_, (debitOnly_setTeam ..).trans h1, h3 hpaid1⟩
  have hfull : ¬ (latch s t a).logSize / 64 < logWith (latch s t a) l := Nat.not_lt.2 hroom
  unfold logStores
  simp only [getTeam_setTeam, if_true, hfull, if_false]
  rcases hr : debitStores u (setTeam s u (latch s t a)) l with ⟨s1, o⟩
  rw [hr] at hpaid1 h2
  obtain rfl : o = none := hpaid1
  dsimp only
  rw [modTeam_eq, getTeam_of_find h2]
  rfl

/-- What O14 says of stores `l` once their instruction has come to the end of its group with its team `t1`. -/
theorem stores_end {s s1 : State} {u : Nat} {t t0 : Team} (h : Issuing s u t) (a : Access) {pol : Pol} {l : List LaneStore} {d : List Nat}
    (hd : DebitOnly s s1 u) (hm : ∀ b, b ∈ d ↔ b ∈ t.debited ∨ ∃ e ∈ l, leafDebits e.leaf = true ∧ b = e.addr / 256)
    (hlog : t0.log = t.log)
    (hf : t0.flow = t.flow ∧ t0.lanes = t.lanes ∧ t0.snap = t.snap ∧ t0.trace = t.trace ∧ t0.stepOnce = t.stepOnce) :
    ∃ s2 t', done (fallThrough (setTeam s1 u { logged t0 pol l d with cur := s.issue, booking := some (bookings t a) }) u false) =
        .next (settle s2) ∧ find? s2.teams u = some t' ∧
      Passed s { t0 with log := t'.log, pols := t'.pols, debited := t'.debited } t' ∧ DebitOnly s s2 u ∧
      (∀ b, b ∈ t'.debited ↔ b ∈ t.debited ∨ ∃ e ∈ l, leafDebits e.leaf = true ∧ b = e.addr / 256) ∧
      ∀ x, find? t'.log x =
        l.foldl (fun v e => if e.addr ≤ x ∧ x < e.addr + e.bytes.length then e.bytes[x - e.addr]? else v) (find? t.log x) := by
  obtain ⟨t', he, hp⟩ := fallThrough_passed (s1 := setTeam s1 u { logged t0 pol l d with cur := s.issue, booking := some (bookings t a) })
    (t0 := logged t0 pol l d) h a (by simp) rfl hf
  have hw := hp.1
  have h1 : t'.log = (logged t0 pol l d).log := by rw [hw]
  have h2 : t'.pols = (logged t0 pol l d).pols := by rw [hw]
  have h3 : t'.debited = d := by rw [hw]; rfl
  refine ⟨setTeam s1 u t', t', by rw [he, setTeam_setTeam]; rfl, by rw [find?_setTeam, if_pos rfl], ?_, hd.trans (debitOnly_setTeam ..),
    by rw [h3]; exact hm, fun x => ?_⟩
  · rw [h1, h2, h3]; exact hp
  · rw [h1, logged, find?_logPuts, hlog]

theorem st_enters {s : State} {u : Nat} {t : Team} (h : Issuing s u t) {w : Width} (pol : Pol) {m : MArgs} {tl : List Touch}
    (hne : lanesOf t ≠ []) (hf : Fits t (offUse true m.a m.b ++ [dataUse w m.t]))
    (hk : checkLanes s t (widthBytes w) .store (globalLanes t m.a m.b m.imm) = .ok tl) :
    exec (.st w pol m) s = logStores (setTeam s u (latch s t (accM true w m true false))) u false pol
      (tl.map fun e => ⟨e.lane, e.addr, storeBytes w t m.t e.lane, e.leaf⟩) fun s1 => done (fallThrough s1 u false) := by
  show execSt w pol m s = _
  rw [execSt, issueOp_issuing h (accM_fits hf true false), if_neg (by simp [hne])]
  simp only [latch_bounds, h.mode, Bool.false_eq_true, if_false]
  rw [checkLanes_latch, show globalLanes (latch s t (accM true w m true false)) m.a m.b m.imm = globalLanes t m.a m.b m.imm from rfl, hk]
  rfl

theorem kst_enters {s : State} {u : Nat} {t : Team} (h : Issuing s u t) {w : Width} (pol : Pol) {a b : KReg} (i : ImmHints) {e : Touch}
    (ha : a.toNat ≤ 383) (hb : b.toNat ≤ 383)
    (hk : checkLanes s t (widthBytes w) .store [⟨0, wrapNat 64 ((kreg t b.toNat).toNat + dispOf i)⟩] = .ok [e]) :
    exec (.kst w pol a b i) s = logStores (setTeam s u (latch s t { noAccess with rk := [(b.toNat, 1), (a.toNat, 1)] })) u true pol
      [⟨0, wrapNat 64 ((kreg t b.toNat).toNat + dispOf i), bytesOf (widthBytes w) (kreg t a.toNat).toNat, e.leaf⟩]
      fun s1 => done (fallThrough (meldLanes s1 u) u false) := by
  have hf : AccFits t { noAccess with rk := [(b.toNat, 1), (a.toNat, 1)] } := uniFits rfl rfl fun x hx => by
    simp only [noAccess, List.append_nil, List.mem_cons, List.not_mem_nil, or_false] at hx
    rcases hx with rfl | rfl <;> (dsimp only; omega)
  show execKst w pol a b i s = _
  rw [execKst, issueOp_uniform h hf rfl]
  simp only [latch_bounds, h.mode, Bool.false_eq_true, if_false, kreg_latch, checkLanes_latch, hk]
  rfl

theorem logged_meld (s : State) (t : Team) (a : Access) (pol : Pol) (l : List LaneStore) (d : List Nat) :
    melded (logged (latch s t a) pol l d) = { logged (melded t) pol l d with cur := s.issue, booking := some (bookings t a) } := by
  simp only [melded, logged, latch]

/-- Settles O14: the stores' debits are paid on the latched team as they would be before, and their bytes enter the log in order. -/
theorem storesEnterTheLog : Obligations.StoresEnterTheLog := by
  intro s u t h c l t0 hc hroom hpaid
  rcases hc with ⟨w, pol, m, tl, rfl, rfl, hne, hf, hk, hl⟩ | ⟨w, pol, a, b, i, e, rfl, rfl, ha, hb, hk, hl⟩
  · obtain ⟨s1, d, h1, h2, h3⟩ := logStores_enter h (accM true w m true false) false pol hroom hpaid
    rw [st_enters h pol hne hf hk, ← hl, h1]
    exact stores_end h _ h2 h3 rfl ⟨rfl, rfl, rfl, rfl, rfl⟩
  · obtain ⟨s1, d, h1, h2, h3⟩ := logStores_enter h { noAccess with rk := [(b.toNat, 1), (a.toNat, 1)] } true pol hroom hpaid
    rw [kst_enters h pol i ha hb hk, ← hl, h1, meldLanes_team, logged_meld]
    exact stores_end h _ h2 h3 rfl ⟨rfl, rfl, rfl, rfl, rfl⟩

end Sys2Proof.Machine

namespace Sys2Proof.Machine

/-! # REGION.COMMIT (O19) -/

/-! ## What a write of a block leaves beside its bytes -/

/-- The teams, the two memories, their writes and the open stores of a state are those of another. -/
structure Aside (s₀ s : State) : Prop where
  teams : s.teams = s₀.teams
  mem : s.mem = s₀.mem
  host : s.hostMem = s₀.hostMem
  hist : s.hist = s₀.hist
  next : s.nextWrite = s₀.nextWrite
  unstored : ∀ b, openDest none s₀ b = false → openDest none s b = false

namespace Aside
variable {s₀ s : State}

theorem refl (s : State) : Aside s s := ⟨rfl, rfl, rfl, rfl, rfl, fun _ h => h⟩

theorem ite {a b : State} {p : Prop} [Decidable p] (ha : Aside s₀ a) (hb : Aside s₀ b) : Aside s₀ (if p then a else b) := by
  split
  · exact ha
  · exact hb

/-- A change to other registers of the device. -/
theorem frame {s' : State} (h : Aside s₀ s) (ht : s'.teams = s.teams) (hm : s'.mem = s.mem) (hh : s'.hostMem = s.hostMem)
    (hw : s'.hist = s.hist) (hn : s'.nextWrite = s.nextWrite) (hc : s'.cores = s.cores) : Aside s₀ s' :=
  ⟨ht.trans h.teams, hm.trans h.mem, hh.trans h.host, hw.trans h.hist, hn.trans h.next, fun b hb => by
    rw [openDest, hc]; exact h.unstored b hb⟩

theorem setCore (h : Aside s₀ s) {n : Nat} {c : Core} (hc : openOps c = openOps (getCore s n)) : Aside s₀ (setCore s n c) := by
  refine ⟨h.teams, h.mem, h.host, h.hist, h.next, fun b hb => ?_⟩
  have hs := h.unstored b hb
  rw [openDest, List.any_eq_false] at hs ⊢
  intro e he
  rcases mem_tabPut he with rfl | he
  · dsimp only
    rw [hc, getCore, tabGet_eq_find?]
    cases hf : find? s.cores n with
    | none => exact Bool.false_ne_true
    | some k => exact hs _ (find?_mem hf)
  · exact hs e he

theorem setCtx (h : Aside s₀ s) {n : Nat} {c : Ctx} : Aside s₀ (setCtx s n c) := h.frame rfl rfl rfl rfl rfl rfl

theorem pushRec (h : Aside s₀ s) {r : FaultRec} : Aside s₀ (pushRec s r) := by
  unfold Machine.pushRec
  exact .ite (.ite (h.frame rfl rfl rfl rfl rfl rfl) (h.frame rfl rfl rfl rfl rfl rfl)) (.ite h.setCtx h.setCtx)

theorem watchLow (h : Aside s₀ s) {id : Nat} : Aside s₀ (watchLow s id) := by
  unfold Machine.watchLow
  exact .ite (.ite (pushRec (.ite h.setCtx h)) (.ite h.setCtx h)) h.setCtx

theorem enterPool (h : Aside s₀ s) {id n : Nat} : Aside s₀ (enterPool s id n) := by
  have h1 : ∀ (c : Ctx) (r : Nat), Aside s₀ { Machine.setCtx s id c with reserve := r } := fun _ _ => h.frame rfl rfl rfl rfl rfl rfl
  dsimp only [Machine.enterPool]
  split_ifs
  · exact (h1 _ _).pushRec.watchLow
  · exact (h1 _ _).watchLow

theorem slice (h : Aside s₀ s) {n x : Nat} : Aside s₀ (Machine.setCore s n { getCore s n with slice := x }) := h.setCore rfl

theorem giveBack (h : Aside s₀ s) {p : Payer} {id n : Nat} : Aside s₀ (giveBack s p id n) := by
  unfold Machine.giveBack
  cases p with
  | pool => exact h.enterPool
  | core c =>
    dsimp only [giveSlice]
    split_ifs
    · exact h.enterPool
    · exact h.slice.enterPool
    · exact h.slice.watchLow

theorem bumpSeq (h : Aside s₀ s) {run n : Nat} : Aside s₀ (bumpSeq s run n) := .ite h (h.frame rfl rfl rfl rfl rfl rfl)
theorem serveRun (h : Aside s₀ s) {run n : Nat} : Aside s₀ (serveRun s run n) := .ite h (h.frame rfl rfl rfl rfl rfl rfl)
theorem activate (h : Aside s₀ s) {b : Nat} : Aside s₀ (activate s b) := .ite h h.serveRun
theorem poundKeep (h : Aside s₀ s) {b : Nat} {dirty : Bool} {pol : Pol} : Aside s₀ (poundKeep s b dirty pol) := h.frame rfl rfl rfl rfl rfl rfl
theorem poundMark (h : Aside s₀ s) {b : Nat} {pol : Pol} : Aside s₀ (poundMark s b pol) := h.frame rfl rfl rfl rfl rfl rfl
theorem setMeta (h : Aside s₀ s) {b : Nat} {m : BlockMeta} : Aside s₀ (setMeta s b m) := h.frame rfl rfl rfl rfl rfl rfl

theorem markDirty (h : Aside s₀ s) {die id va : Nat} : Aside s₀ (markDirty s die id va) := by
  unfold Machine.markDirty
  split
  · exact h
  · exact .ite h (h.frame rfl rfl rfl rfl rfl rfl)

theorem written (h : Aside s₀ s) (f : List Host.Cell → List Host.Cell) : Aside { s₀ with mem := f s₀.mem } { s with mem := f s.mem } :=
  ⟨h.teams, congrArg f h.mem, h.host, h.hist, h.next, h.unstored⟩

/-- The open operations of a core are not those of its L1. -/
theorem l1Victim_open (n i : Nat) (c : Core) : openOps (l1Victim n i c) = openOps c := rfl

theorem l1Keep (h : Aside s₀ s) {core b : Nat} {pol : Pol} {read : Bool} : Aside s₀ (l1Keep s core b pol read) := by
  unfold Machine.l1Keep
  extract_lets c seen c1
  have h1 : openOps c1 = openOps (getCore s core) := by
    simp only [c1]
    split <;> rfl
  refine .ite (h.setCore h1) (.ite (h.setCore ?_) (.ite (h.setCore h1) (h.setCore ?_)))
  · split
    · exact h1
    · exact h1
  · show openOps (if _ then _ else _) = _
    split
    · exact h1
    · exact h1

end Aside

/-- The store of a block that holds no poison writes the bytes that are present (R377). -/
theorem storeBlock_written {s : State} {b : Nat} (hp : (metaOf s b).poison = false) (id : Nat) (pay : Payer) (deb : Bool)
    (bytes : List (Option Byte)) :
    Aside { s with mem := memWriteMasked s.mem (b * 256) bytes } (storeBlock s id pay deb b bytes) := by
  unfold storeBlock
  extract_lets m full v code n o s0 s1 m' s2 s3 s4 s5
  rw [if_neg (by simp [m, hp])]
  have h1 : Aside { s with mem := memWriteMasked s.mem (b * 256) bytes } s1 :=
    (Aside.ite (.refl s) (Aside.refl s).activate : Aside s s0).written (memWriteMasked · (b * 256) bytes)
  have h3 : Aside { s with mem := memWriteMasked s.mem (b * 256) bytes } s3 :=
    .ite (h1.frame rfl rfl rfl rfl rfl rfl) h1.setMeta
  have h4 : Aside { s with mem := memWriteMasked s.mem (b * 256) bytes } s4 := h3.setCtx
  exact (Aside.ite h4 h4.bumpSeq).bumpSeq.serveRun.poundKeep.giveBack

/-! ## The bytes of a write of a block (R386) -/

/-- A write of masked bytes gives memory none but these, and what stands there already. -/
theorem cellAt_enterBytes (s : State) (au : Author) (first a : Nat) (now : Nat → Byte) (bytes : List (Option Byte)) (x : Nat) :
    cellAt a (enterBytes s au first a now bytes).2 x = cellAt a bytes x ∨
      (cellAt a (enterBytes s au first a now bytes).2 x).getD (now x) = now x := by
  rw [enterBytes_eq]
  generalize ((grainsOf a bytes.length).map (·.1)).foldl (enterGrain au first a now bytes) (s, []) = r
  unfold cellAt
  split_ifs with hax
  · dsimp only
    rw [List.getElem?_map, List.getElem?_zipIdx, show a + (x - a) = x by omega]
    cases bytes[x - a]? with
    | none => exact .inl rfl
    | some o =>
      simp only [Option.map_some, Option.getD_some]
      split
      · right; cases o <;> rfl
      · exact .inl rfl
  · exact .inl rfl

/-- Of a state only registers that no byte and no team depends on differ, and the bytes of block `b`, which are the old ones or, where `bytes`
writes them, the new ones: all of them the new ones for an author who has seen `seen` and synchronizes with the newest writes there. -/
structure BlockStored (s s' : State) (b : Nat) (bytes : List (Option Byte)) (seen : List Nat) : Prop where
  teams : s'.teams = s.teams
  host : s'.hostMem = s.hostMem
  mem : ∀ x, memByte s'.mem x = memByte s.mem x ∨ cellAt (b * 256) bytes x = some (memByte s'.mem x)
  all : Synced s seen 0 (b * 256) 256 (memByte s.mem) → ∀ x, memByte s'.mem x = (cellAt (b * 256) bytes x).getD (memByte s.mem x)

theorem memByte_written (bs : List (Option Byte)) (m : List Host.Cell) (a x : Nat) :
    memByte (memWriteMasked m a bs) x = (cellAt a bs x).getD (memByte m x) := by
  rw [memByte_writeMasked, cellAt]
  split_ifs <;> rfl

/-- A WRITE OF A BLOCK SAID ONCE (R377, R386), where it holds no poison and no open matrix operation stores to it. -/
theorem storeOver_stored {s : State} {au : Author} {b : Nat} {bytes : List (Option Byte)} (hau : au.unit = none)
    (hp : (metaOf s b).poison = false) (hu : Unstored s b) (hl : bytes.length ≤ 256) (id : Nat) (pay : Payer) (deb : Bool) :
    BlockStored s (storeOver au s id pay deb b bytes) b bytes au.seen := by
  have hopen : openDest none s (0, b) = false := hu
  rcases hE : enterBytes s au 0 (b * 256) (memByte s.mem) bytes with ⟨s1, bs⟩
  have hs1 := enterBytes_only s au 0 (b * 256) (memByte s.mem) bytes
  rw [hE] at hs1
  dsimp only at hs1
  have hp1 : (metaOf s1 b).poison = false := by rw [hs1]; exact hp
  have hmem1 : s1.mem = s.mem := by rw [hs1]
  have hw := storeBlock_written hp1 id pay deb bs
  have hopen1 : openDest none (storeBlock s1 id pay deb b bs) (0, b) = false :=
    hw.unstored _ (by rw [openDest, show s1.cores = s.cores by rw [hs1]]; exact hopen)
  have heq : storeOver au s id pay deb b bytes = storeBlock s1 id pay deb b bs := by
    simp only [storeOver, storeEntered, hp, Bool.false_and, Bool.false_eq_true, if_false, hau, mixOver, hopen, hE, strikeOver, hopen1]
  have hbyte : ∀ x, memByte (storeBlock s1 id pay deb b bs).mem x = (cellAt (b * 256) bs x).getD (memByte s.mem x) := fun x => by
    rw [hw.mem, memByte_written, hmem1]
  rw [heq]
  refine ⟨hw.teams.trans (by rw [hs1]), hw.host.trans (by rw [hs1]), fun x => ?_, fun hs x => ?_⟩
  · have h := cellAt_enterBytes s au 0 (b * 256) (memByte s.mem) bytes x
    rw [hE] at h
    rw [hbyte]
    rcases h with h | h
    · rw [h]
      cases cellAt (b * 256) bytes x
      · exact .inl rfl
      · exact .inr rfl
    · exact .inl h
  · have h := (enterBytes_synced (s := s) (au := au) (first := 0) (a := b * 256) (bytes := bytes) (now := memByte s.mem) (fun _ h => h)
      fun x hx => ?_).1
    · rw [hE] at h
      rw [hbyte, show bs = bytes from h]
    · unfold cellAt at hx
      split_ifs at hx with hax
      · refine hs x hax ?_
        by_contra hlt
        rw [List.getElem?_eq_none (by omega)] at hx
        cases hx
      · cases hx

theorem cellAt_logBlock (log : List (Nat × Byte)) (b k x : Nat) :
    cellAt (k * 256) (logBlock log b) x = if x / 256 = k then find? log (b * 256 + x % 256) else none := by
  unfold cellAt logBlock
  by_cases hx : x / 256 = k
  · have h1 : k * 256 ≤ x := by omega
    have h2 : x - k * 256 < 256 := by omega
    rw [if_pos h1, if_pos hx, rangeFrom, List.getElem?_map, List.getElem?_map, List.getElem?_range h2]
    exact congrArg (find? log) (show b * 256 + (x - k * 256) = b * 256 + x % 256 by omega)
  · rw [if_neg hx]
    split_ifs with h1
    · rw [List.getElem?_eq_none (by simp [rangeFrom]; omega)]; rfl
    · rfl

/-! ## The commit (R147) -/

/-- A team's write of a block at its home: the team alone is another, which has seen what it has written. -/
structure HomeWritten (s s' : State) (u : Nat) (t : Team) (b k : Nat) : Prop where
  team : ∃ l, find? s'.teams u = some { t with seen := l } ∧ ∀ c, c ∈ l ↔ c ∈ t.seen ∨ c ∈ madeSince s s'
  others : ∀ n, n ≠ u → find? s'.teams n = find? s.teams n
  host : s'.hostMem = s.hostMem
  mem : ∀ x, memByte s'.mem x = memByte s.mem x ∨ cellAt (k * 256) (logBlock t.log b) x = some (memByte s'.mem x)
  all : Synced s t.seen 0 (k * 256) 256 (memByte s.mem) →
    ∀ x, memByte s'.mem x = (cellAt (k * 256) (logBlock t.log b) x).getD (memByte s.mem x)

theorem HomeWritten.aside {s s1 s2 : State} {u b k : Nat} {t : Team} (h : HomeWritten s s1 u t b k) (ha : Aside s1 s2) :
    HomeWritten s s2 u t b k := by
  obtain ⟨l, h1, h2⟩ := h.team
  refine ⟨⟨l, by rw [ha.teams]; exact h1, ?_⟩, fun n hn => by rw [ha.teams]; exact h.others n hn, ha.host.trans h.host, ?_, ?_⟩
  · rw [madeSince, ha.next]; exact h2
  · rw [ha.mem]; exact h.mem
  · rw [ha.mem]; exact h.all

/-- What has been written since is seen by the team that wrote it (R387). -/
theorem teamWrote_seen (s0 : State) {s : State} {u : Nat} {t : Team} (ht : find? s.teams u = some t) :
    let s' := teamWrote s0 s u
    (∃ l, find? s'.teams u = some { t with seen := l } ∧ ∀ c, c ∈ l ↔ c ∈ t.seen ∨ c ∈ madeSince s0 s') ∧
      (∀ n, n ≠ u → find? s'.teams n = find? s.teams n) ∧ s'.hostMem = s.hostMem ∧ s'.mem = s.mem := by
  unfold teamWrote
  split_ifs with h
  · refine ⟨⟨t.seen, ht, fun c => ?_⟩, fun _ _ => rfl, rfl, rfl⟩
    have : c ∉ madeSince s0 s := by rw [mem_madeSince, h]; omega
    simp [this]
  · refine ⟨⟨joinSeen t.seen (madeSince s0 s), ?_, fun c => mem_joinSeen ..⟩, fun n hn => ?_, rfl, rfl⟩
    · rw [modTeam_eq, find?_setTeam, if_pos rfl, getTeam_of_find ht]
    · rw [modTeam_eq, find?_setTeam, if_neg hn]

theorem unstored_iff {s : State} {b : Nat} : Unstored s b ↔ openDest none s (0, b) = false := Iff.rfl

theorem metaOf_markDirty (s : State) (die id va b : Nat) : metaOf (markDirty s die id va) b = metaOf s b := by
  unfold markDirty setCompanion
  split
  · rfl
  · dsimp only
    split <;> rfl

theorem Synced.of_hist {s s' : State} {seen : List Nat} {first a n : Nat} {mem : Nat → Byte} (he : s'.hist = s.hist)
    (h : Synced s seen first a n mem) : Synced s' seen first a n mem := fun x h1 h2 => SyncedAt.congr (h x h1 h2) (by rw [he])

theorem writeHome_written {s : State} {u b k j leaf : Nat} {t : Team} (ht : find? s.teams u = some t)
    (hk : loggedPlace s t.ctx (b * 256) = some (.dev k, leaf)) (hj : k / 256 = j) (hp : (metaOf s j).poison = false) (hu : Unstored s j)
    (deb : Bool) (pol : Pol) : HomeWritten s (writeHome s u b (logBlock t.log b) deb pol) u t b j := by
  have hd := (Aside.refl s).markDirty (die := dieOf t.core) (id := t.ctx) (va := b * 256)
  have hm := metaOf_markDirty s (dieOf t.core) t.ctx (b * 256) j
  unfold writeHome
  simp only [getTeam_of_find ht, hk, hj]
  generalize markDirty s (dieOf t.core) t.ctx (b * 256) = d at hd hm ⊢
  have hs := storeOver_stored (s := d) (au := teamWrites t) (bytes := logBlock t.log b) rfl (by rw [hm]; exact hp)
    (unstored_iff.2 (hd.unstored _ (unstored_iff.1 hu))) (by simp [logBlock, rangeFrom]) t.ctx (.core t.core) deb
  generalize storeOver (teamWrites t) d t.ctx (.core t.core) deb j (logBlock t.log b) = s1 at hs ⊢
  have ht1 : s1.teams = s.teams := hs.teams.trans hd.teams
  obtain ⟨h1, h2, h3, h4⟩ := teamWrote_seen s (s := s1) (u := u) (t := t) (by rw [ht1]; exact ht)
  refine HomeWritten.aside ⟨h1, fun n hn => (h2 n hn).trans (by rw [ht1]), h3.trans (hs.host.trans hd.host), ?_, ?_⟩
    (Aside.refl _).poundMark
  · rw [h4, ← hd.mem]; exact hs.mem
  · rw [h4, ← hd.mem]; exact fun h => hs.all (h.of_hist hd.hist)

/-- A log of one block has one block to commit. -/
theorem logBlocks_single {t : Team} {b : Nat} (hz : t.zeros = []) (hne : t.log ≠ []) (hb : ∀ e ∈ t.log, e.1 / 256 = b) :
    logBlocks t = [b] := by
  obtain ⟨e, l, hl⟩ := List.exists_cons_of_ne_nil hne
  have key : ∀ m : List Nat, (∀ x ∈ m, x = b) → (dedupNat m).filter (· != b) = [] := fun m hm =>
    List.filter_eq_nil_iff.2 fun x hx => by simp [hm x (mem_dedupNat hx)]
  rw [hl] at hb
  have he : e.1 / 256 = b := hb e (List.mem_cons_self ..)
  rw [logBlocks, hz, List.nil_append, hl, List.map_cons, he, dedupNat, key]
  intro x hx
  obtain ⟨y, hy, rfl⟩ := List.mem_map.1 hx
  exact hb y (List.mem_cons_of_mem _ hy)

/-- A log that holds a byte of a block has a byte of it to write. -/
theorem logBlock_any {log : List (Nat × Byte)} {b : Nat} (hne : log ≠ []) (hb : ∀ e ∈ log, e.1 / 256 = b) :
    (logBlock log b).any Option.isSome = true := by
  obtain ⟨⟨a, v⟩, l, rfl⟩ := List.exists_cons_of_ne_nil hne
  have ha : a / 256 = b := hb (a, v) (List.mem_cons_self ..)
  refine List.any_eq_true.2 ⟨some v, List.mem_map.2 ⟨a, (mem_rangeFrom ..).2 (by omega), by simp [find?]⟩, rfl⟩

/-- The commit of a log of one block in device memory (R147, R386). -/
theorem commitBlock_written {s : State} {u b k j leaf : Nat} {t t0 : Team} (ht : find? s.teams u = some t) (hlog : t0.log = t.log)
    (hz : t0.zeros = []) (hne : t.log ≠ []) (hb : ∀ e ∈ t.log, e.1 / 256 = b)
    (hk : loggedPlace s t.ctx (b * 256) = some (.dev k, leaf)) (hj : k / 256 = j) (hp : (metaOf s j).poison = false) (hu : Unstored s j) :
    HomeWritten s (commitBlock u t0 s b) u t b j := by
  unfold commitBlock
  simp only [hz, List.contains_nil, Bool.false_eq_true, if_false, hlog, logBlock_any hne hb, if_true]
  have hw := writeHome_written ht hk hj hp hu (t0.debited.contains b) ((find? t0.pols b).getD .l1)
  split
  · exact hw.aside (Aside.refl _).l1Keep
  · exact hw

theorem loggedPlace_setTeam (s : State) (u : Nat) (t : Team) (id va : Nat) :
    loggedPlace (setTeam s u t) id va = loggedPlace s id va := by
  simp only [loggedPlace, walk_setTeam]

/-- A team at a boundary whose region has stored: it has seen the bytes of `l`. -/
def publishing (t : Team) (l : List Nat) : Team := { ended t with seen := l, snap := t.flow }

/-- The commit of the region of a latched team that has stored to one block, and the snapshot after it. -/
theorem commitRegion_single {s : State} {u b k j leaf : Nat} {t : Team} (hz : t.zeros = []) (hne : t.log ≠ [])
    (hb : ∀ e ∈ t.log, e.1 / 256 = b) (hk : loggedPlace s t.ctx (b * 256) = some (.dev k, leaf)) (hj : k / 256 = j)
    (hp : (metaOf s j).poison = false) (hu : Unstored s j) :
    ∃ s1 l, takeSnap (commitRegion (setTeam s u t) u) u = setTeam s1 u (publishing t l) ∧
      HomeWritten (setTeam s u (melded t)) s1 u (melded t) b j ∧ ∀ c, c ∈ l ↔ c ∈ (melded t).seen ∨ c ∈ madeSince s s1 := by
  obtain ⟨m, hm⟩ : ∃ m, melded t = m := ⟨_, rfl⟩
  have hlog : t.log = m.log := by rw [← hm]; rfl
  have hctx : t.ctx = m.ctx := by rw [← hm]; rfl
  rw [hm]
  have hk1 : loggedPlace (setTeam s u m) m.ctx (b * 256) = some (.dev k, leaf) := by rw [loggedPlace_setTeam, ← hctx]; exact hk
  have hw := commitBlock_written (s := setTeam s u m) (u := u) (t := m) (t0 := t) (by rw [find?_setTeam, if_pos rfl])
    hlog hz (hlog ▸ hne) (hlog ▸ hb) hk1 hj hp hu
  obtain ⟨l, h1, h2⟩ := hw.team
  refine ⟨_, l, ?_, hw, h2⟩
  unfold commitRegion takeSnap
  simp only [getTeam_setTeam, if_true, logBlocks_single hz hne hb, List.foldl_cons, List.foldl_nil, meldLanes_team, modTeam_eq,
    setTeam_setTeam, hm, getTeam_of_find h1]
  rw [publishing, ended, hm, show t.flow = m.flow by rw [← hm]; rfl]

/-- The team of a region boundary that goes on at the word after it: its snapshot is the place where it goes on. -/
theorem boundary_goesOn {s s1 : State} {u : Nat} {t0 t1 : Team} (hg : getTeam s1 u = t1)
    (hl : t1 = { t0 with cur := s.issue, booking := t1.booking }) (ht : t0.trace.on = false) (hs : t0.stepOnce = false) :
    ∃ t', fallThrough s1 u true = setTeam s1 u t' ∧ Passed s { t0 with snap := t'.snap } t' ∧ (t'.status = .ready → t'.snap = t'.flow) := by
  have ht1 : t1.trace.on = false := by rw [hl]; exact ht
  have hs1 : t1.stepOnce = false := by rw [hl]; exact hs
  obtain ⟨t', he, hm, -, hgo⟩ := fallThrough_team hg ht1 hs1 true
  obtain ⟨t2, he2, hst⟩ := fallThrough_snap hg ht1 hs1
  obtain rfl : t' = t2 := by
    have hget := congrArg (fun x => getTeam x u) (he.symm.trans he2)
    simpa using hget
  refine ⟨t', he, ⟨?_, ?_⟩, fun hr => ?_⟩
  · rw [Onward, hm, hl]
  · rw [hl] at hgo; exact hgo
  · rcases hst with ⟨-, h⟩ | h
    · exact h
    · rw [h] at hr; cases hr

/-- REGION.COMMIT of a region that has stored nothing. -/
theorem commit_empty {s : State} {u : Nat} {t : Team} (h : Issuing s u t) (hz : t.zeros = []) (hl : t.log = []) :
    ∃ s' t', exec .regionCommit s = .next s' ∧ find? s'.teams u = some t' ∧ Bounded s t t' ∧ TeamOnly s s' u := by
  obtain ⟨t', he, hp, hsn⟩ := boundary_goesOn (s := s) (s1 := setTeam s u (bounding s t noAccess)) (u := u)
    (t0 := { ended t with snap := t.flow }) (t1 := bounding s t noAccess) (by simp) (by simp only [bounding, ended, melded, latch])
    h.untraced h.alone
  refine ⟨setTeam s u t', t', ?_, by rw [find?_setTeam, if_pos rfl], ⟨hp, hsn⟩, find?_of_teamOnly _⟩
  show execRegionCommit s = _
  rw [execRegionCommit, boundaryOp_issuing h hl hz (noAccess_fits t) rfl, he, setTeam_setTeam, done_of_quiet (h.quiet.setTeam ..)]

/-- A boundary instruction whose region has stored to one block in device memory. -/
theorem boundaryOp_single {s : State} {u b k j leaf : Nat} {t : Team} (h : Issuing s u t) (hz : t.zeros = []) (hne : t.log ≠ [])
    (hb : ∀ e ∈ t.log, e.1 / 256 = b) (hk : loggedPlace s t.ctx (b * 256) = some (.dev k, leaf)) (hj : k / 256 = j)
    (hp : (metaOf s j).poison = false) (hu : Unstored s j) (eff : State → Nat → Team → Out) :
    ∃ s1 l, boundaryOp noAccess eff s = eff (setTeam s1 u (publishing (latch s t noAccess) l)) u (latch s t noAccess) ∧
      HomeWritten (setTeam s u (melded (latch s t noAccess))) s1 u (melded (latch s t noAccess)) b j ∧
      ∀ c, c ∈ l ↔ c ∈ (melded t).seen ∨ c ∈ madeSince s s1 := by
  have hload : (latch s t noAccess).pend.any (·.isLoad) = false := by simp [latch, h.arrived]
  obtain ⟨s1, l, h1, h2, h3⟩ := commitRegion_single (s := s) (u := u) (t := latch s t noAccess) hz hne hb hk hj hp hu
  refine ⟨s1, l, ?_, h2, h3⟩
  rw [boundaryOp, issueOp_uniform h (noAccess_fits t) rfl]
  simp only [getTeam_setTeam, if_true, hload, Bool.false_eq_true, if_false]
  rw [h1]

/-- Settles O19: the one block's bytes enter the order at their home, and the snapshot follows the commit. -/
theorem regionCommitPublishesTheLog : Obligations.RegionCommitPublishesTheLog := by
  intro s u t h hz
  refine ⟨commit_empty h hz, fun b k leaf hne hb hk hp hu => ?_⟩
  obtain ⟨j, hj⟩ : ∃ j, k / 256 = j := ⟨_, rfl⟩
  rw [hj] at hp hu ⊢
  obtain ⟨s1, l, h1, h2, h3⟩ := boundaryOp_single h hz hne hb hk hj hp hu fun s u _ => done (fallThrough s u true)
  obtain ⟨t', he, hpass, hsn⟩ := boundary_goesOn (s := s) (s1 := setTeam s1 u (publishing (latch s t noAccess) l)) (u := u)
    (t0 := { ended t with seen := l, snap := t.flow }) (t1 := publishing (latch s t noAccess) l) (by simp)
    (by simp only [publishing, ended, melded, latch]) h.untraced h.alone
  have hseen : t'.seen = l := by rw [hpass.1]
  intro logged
  have hlog : ∀ x, cellAt (j * 256) (logBlock (melded (latch s t noAccess)).log b) x = logged x := cellAt_logBlock t.log b j
  refine ⟨setTeam s1 u t', t', ?_, by rw [find?_setTeam, if_pos rfl], by rw [hseen]; exact hpass, hsn, fun c => ?_, fun n hn => ?_,
    fun x => ?_, fun x => ?_, fun hs x => ?_⟩
  · show execRegionCommit s = _
    rw [execRegionCommit, h1, he, setTeam_setTeam]; rfl
  · rw [hseen]; exact h3 c
  · rw [find?_setTeam, if_neg hn, h2.others n hn, find?_setTeam, if_neg hn]
  · exact congrArg (memByte · x) h2.host
  · rw [← hlog]
    refine (h2.mem x).imp_right fun h => h
  · rw [← hlog]
    exact h2.all hs x

end Sys2Proof.Machine

namespace Sys2Proof.Machine

/-! # The control commands (O46) -/

/-! ## What the counts of a context are after its records (R207, R213) -/

/-- The counts of a context, its state and what a SAVE keeps of it: all that its waiting records are not. -/
def ctxBody (c : Ctx) : Ctx := { c with above := false, armed := false, pend := [], due := false, lost := 0 }

/-- Of the state only what waits to be reported differs. -/
structure RecordsOnly (s s' : State) : Prop where
  rest : s' = { s with ctxs := s'.ctxs, evPend := s'.evPend, evDue := s'.evDue, evLost := s'.evLost }
  body : ∀ n, ctxBody (getCtx s' n) = ctxBody (getCtx s n)

theorem RecordsOnly.refl (s : State) : RecordsOnly s s := ⟨rfl, fun _ => rfl⟩

theorem RecordsOnly.trans {s s1 s2 : State} (h : RecordsOnly s s1) (k : RecordsOnly s1 s2) : RecordsOnly s s2 :=
  ⟨by rw [k.rest, h.rest], fun n => (k.body n).trans (h.body n)⟩

theorem recordsOnly_setCtx {s : State} {n : Nat} {c : Ctx} (hc : ctxBody c = ctxBody (getCtx s n)) : RecordsOnly s (setCtx s n c) := by
  refine ⟨rfl, fun m => ?_⟩
  rw [getCtx_setCtx]
  split
  next h => rw [h]; exact hc
  · rfl

theorem recordsOnly_pushRec (s : State) (r : FaultRec) : RecordsOnly s (pushRec s r) := by
  unfold pushRec
  dsimp only
  split_ifs
  · exact ⟨rfl, fun _ => rfl⟩
  · exact ⟨rfl, fun _ => rfl⟩
  · exact recordsOnly_setCtx rfl
  · exact recordsOnly_setCtx rfl

theorem recordsOnly_watchLow (s : State) (id : Nat) : RecordsOnly s (watchLow s id) := by
  unfold watchLow
  dsimp only
  split_ifs
  · refine .trans ?_ (recordsOnly_pushRec ..)
    exact recordsOnly_setCtx rfl
  · exact recordsOnly_pushRec ..
  · exact recordsOnly_setCtx rfl
  · exact .refl s
  · exact recordsOnly_setCtx rfl

/-- A change to other registers of the device than its memories and its cores. -/
theorem sameBytes_of_frame {s s' : State} (hm : s'.mem = s.mem) (ht : s'.tspace = s.tspace) (hh : s'.hostMem = s.hostMem)
    (hc : s'.cores = s.cores) : SameBytes s s' :=
  ⟨fun _ => by rw [hm], fun _ => by rw [ht], fun _ => by rw [hh], fun n _ => by rw [getCore, hc]; rfl, fun n _ => by rw [getCore, hc]; rfl⟩

theorem SameBytes.after {s s1 s2 : State} (h : SameBytes s1 s2) (hm : s1.mem = s.mem) (ht : s1.tspace = s.tspace)
    (hh : s1.hostMem = s.hostMem) (hc : s1.cores = s.cores) : SameBytes s s2 := (sameBytes_of_frame hm ht hh hc).trans h

section
variable {s s' : State} (h : RecordsOnly s s')
include h

theorem RecordsOnly.cores : s'.cores = s.cores := by rw [h.rest]
theorem RecordsOnly.reserve : s'.reserve = s.reserve := by rw [h.rest]

theorem RecordsOnly.counts (n : Nat) : (getCtx s' n).pool = (getCtx s n).pool ∧ (getCtx s' n).grant = (getCtx s n).grant ∧
    (getCtx s' n).infl = (getCtx s n).infl ∧ (getCtx s' n).alloc = (getCtx s n).alloc :=
  have hb := h.body n
  ⟨(congrArg Ctx.pool hb :), (congrArg Ctx.grant hb :), (congrArg Ctx.infl hb :), (congrArg Ctx.alloc hb :)⟩

theorem RecordsOnly.bytes : SameBytes s s' := sameBytes_of_frame (by rw [h.rest]) (by rw [h.rest]) (by rw [h.rest]) h.cores

end

/-! ## The check of a command (R204, R218) -/

/-- A command of the right form in a state that allows it is performed. -/
theorem ctlCmd_runs {s : State} {p : Packet} {op : Nat} {operand : Bool} {states : List CtxSt} (hp : performs s false = true)
    (ho : pktOp p = op) (hf : ctlForm p operand = true) (hs : (getCtx s (pktCtx p)).st ∈ states) (act : State → Nat → Ctx → Out) :
    ctlCmd p op operand states act s = act s (pktCtx p) (getCtx s (pktCtx p)) := by
  have hc : states.contains (getCtx s (pktCtx p)).st = true := List.contains_iff_mem.2 hs
  unfold ctlCmd
  simp only [hp, ho, hf, hc, Bool.not_true, bne_self_eq_false, Bool.or_self, Bool.false_eq_true, if_false, if_true]

theorem mem_activeSaved {c : CtxSt} (h : c = .active ∨ c = .saved) : c ∈ [CtxSt.active, CtxSt.saved] := by
  rcases h with rfl | rfl <;> simp

section
variable {s : State} {p : Packet} (hp : performs s false = true)
include hp

/-! ## CREATE and DESTROY (R204, R205, R218) -/

theorem create_completes (ho : pktOp p = 1) (hf : ctlForm p true = true) (hst : (getCtx s (pktCtx p)).st = .free)
    (hran : s.mgmt.ran = true) (ha : p.w1.toNat % 128 = 0) (hn : p.w1.toNat + 128 ≤ s.mgmt.tssize)
    (hd : descOk (pktCtx p) (fun i => tableWord s (p.w1.toNat + 8 * i)) = true) :
    exec (.create p) s = finishCmd
      { setCtx s (pktCtx p) (descCtx (Config.contextKey s.free) fun i => tableWord s (p.w1.toNat + 8 * i)) with
        mgmt := { s.mgmt with created := true } } p .ok 0 := by
  show execCreate p s = _
  rw [execCreate, ctlCmd_runs hp ho hf (by rw [hst]; exact List.mem_singleton.2 rfl)]
  dsimp only
  rw [if_neg (by simp [hran]), if_neg (by simp [ha, hd, hn])]
  rfl

theorem destroy_completes (ho : pktOp p = 2) (hf : ctlForm p false = true)
    (hst : (getCtx s (pktCtx p)).st = .active ∨ (getCtx s (pktCtx p)).st = .saved ∨ (getCtx s (pktCtx p)).st = .fenced) :
    exec (.destroy p) s =
      finishCmd (endCtx (killAll s (pktCtx p)) (pktCtx p)) p .ok (getCtx (killAll s (pktCtx p)) (pktCtx p)).grant := by
  show execDestroy p s = _
  rw [execDestroy, ctlCmd_runs hp ho hf]
  rcases hst with h | h | h <;> simp [h]

/-! ## Ballooning (R214, R215) -/

/-- The context once DEFLATE has moved `n` sectors from the reserve to it. -/
def deflated (s : State) (id n : Nat) : State :=
  { setCtx s id { getCtx s id with pool := (getCtx s id).pool + n, grant := (getCtx s id).grant + n } with reserve := s.reserve - n }

theorem deflate_completes (ho : pktOp p = 3) (hf : ctlForm p true = true)
    (hst : (getCtx s (pktCtx p)).st = .active ∨ (getCtx s (pktCtx p)).st = .saved) (hn : p.w1.toNat ≤ s.reserve)
    (hi : (getCtx s (pktCtx p)).infl = 0) :
    exec (.deflate p) s = finishCmd (watchLow (deflated s (pktCtx p) p.w1.toNat) (pktCtx p)) p .ok p.w1.toNat := by
  show execDeflate p s = _
  rw [execDeflate, ctlCmd_runs hp ho hf (mem_activeSaved hst)]
  simp only [Nat.not_lt.2 hn, if_false, hi, Nat.min_zero, Nat.sub_zero, ne_eq, not_true_eq_false, false_and]
  rw [deflated, ← hi]

/-- INFLATE takes `a` sectors of POOL and `b` of the slices from the grant (R214). -/
def inflateTakes (s : State) (id a b : Nat) : State :=
  modCtx s id fun c => { c with pool := c.pool - a, grant := c.grant - a - b }

/-- They enter the reserve, and `due` more are owed (R214). -/
def inflateEnds (s : State) (id due a b : Nat) : State :=
  watchLow { modCtx s id fun c => { c with infl := c.infl + due } with reserve := s.reserve + a + b } id

theorem inflate_completes (ho : pktOp p = 4) (hf : ctlForm p true = true)
    (hst : (getCtx s (pktCtx p)).st = .active ∨ (getCtx s (pktCtx p)).st = .saved) {id a b : Nat} (hid : pktCtx p = id)
    (ha : min p.w1.toNat (getCtx s id).pool = a) (hb : min (p.w1.toNat - a) (slicesOf s id) = b) :
    exec (.inflate p) s = finishCmd (inflateEnds (if p.w1.toNat - a = 0 then inflateTakes s id a b
      else enterPool (inflateTakes (recallSlices s id) id a b) id (slicesOf s id - b)) id (p.w1.toNat - a - b) a b) p .ok (a + b) := by
  show execInflate p s = _
  rw [execInflate, ctlCmd_runs hp ho hf (mem_activeSaved hst)]
  subst hid
  dsimp only
  rw [ha]
  by_cases howed : p.w1.toNat - a = 0
  · obtain rfl : b = 0 := by rw [← hb, howed, Nat.zero_min]
    simp only [howed, if_true, Nat.zero_min]
    rfl
  · simp only [howed, if_false, hb]
    rfl

end

/-- Sectors enter POOL where no inflate waits for them (R214). -/
theorem enterPool_idle {s : State} {id : Nat} (hi : (getCtx s id).infl = 0) (n : Nat) :
    enterPool s id n = watchLow (setCtx s id { getCtx s id with pool := (getCtx s id).pool + n }) id := by
  unfold enterPool
  simp only [hi, Nat.min_zero, Nat.sub_zero, ne_eq, not_true_eq_false, false_and, if_false, Nat.add_zero]
  congr 1

theorem inflateEnds_counts (s : State) (id due a b : Nat) :
    let s' := inflateEnds s id due a b
    s'.reserve = s.reserve + a + b ∧ s'.cores = s.cores ∧ (getCtx s' id).pool = (getCtx s id).pool ∧
      (getCtx s' id).grant = (getCtx s id).grant ∧ (getCtx s' id).infl = (getCtx s id).infl + due ∧ SameBytes s s' := by
  have h := recordsOnly_watchLow { modCtx s id fun c => { c with infl := c.infl + due } with reserve := s.reserve + a + b } id
  obtain ⟨h1, h2, h3, -⟩ := h.counts id
  have hg : getCtx { modCtx s id fun c => { c with infl := c.infl + due } with reserve := s.reserve + a + b } id =
      { getCtx s id with infl := (getCtx s id).infl + due } := (getCtx_setCtx ..).trans (if_pos rfl)
  rw [hg] at h1 h2 h3
  exact ⟨h.reserve, h.cores, h1, h2, h3, h.bytes.after rfl rfl rfl rfl⟩

theorem inflateTakes_ctx (s : State) (id a b : Nat) : getCtx (inflateTakes s id a b) id =
    { getCtx s id with pool := (getCtx s id).pool - a, grant := (getCtx s id).grant - a - b } := (getCtx_setCtx ..).trans (if_pos rfl)

theorem slicesOf_recalled (s : State) (id : Nat) : slicesOf (recallSlices s id) id = 0 := by
  have key : ∀ l : List (Nat × Core), (l.map fun e => if e.2.ctx = id then (e.1, { e.2 with slice := 0 }) else e).foldl
      (fun a e => if e.2.ctx = id then a + e.2.slice else a) 0 = 0 := by
    intro l
    induction l with
    | nil => rfl
    | cons e l ih =>
      rw [List.map_cons, List.foldl_cons]
      by_cases he : e.2.ctx = id
      · simpa only [he, if_true, Nat.add_zero] using ih
      · simpa only [he, if_false] using ih
  exact key s.cores

/-- What a core holds that is no sector is not recalled. -/
theorem getCore_recallSlices (s : State) (id n : Nat) :
    getCore (recallSlices s id) n = { getCore s n with slice := (getCore (recallSlices s id) n).slice } := by
  unfold getCore recallSlices
  dsimp only
  induction s.cores with
  | nil => rfl
  | cons e l ih =>
    rw [List.map_cons]
    by_cases he : e.2.ctx = id
    · rw [if_pos he, tabGet, tabGet]
      split_ifs
      · rfl
      · exact ih
    · rw [if_neg he, tabGet, tabGet]
      split_ifs
      · rfl
      · exact ih

theorem sameBytes_recallSlices (s : State) (id : Nat) : SameBytes s (recallSlices s id) :=
  ⟨fun _ => rfl, fun _ => rfl, fun _ => rfl, fun n a => by rw [getCore_recallSlices], fun n a => by rw [getCore_recallSlices]⟩

/-- An INFLATE that POOL covers (R214). -/
theorem inflate_covered {s : State} {id : Nat} (hi : (getCtx s id).infl = 0) (n : Nat) :
    let s' := inflateEnds (inflateTakes s id n 0) id 0 n 0
    s'.reserve = s.reserve + n + 0 ∧ (getCtx s' id).grant = (getCtx s id).grant - n - 0 ∧ (getCtx s' id).infl = 0 ∧
      (getCtx s' id).pool = (getCtx s id).pool - n ∧ s'.cores = s.cores ∧ SameBytes s s' := by
  obtain ⟨h1, h2, h3, h4, h5, h6⟩ := inflateEnds_counts (inflateTakes s id n 0) id 0 n 0
  rw [inflateTakes_ctx] at h3 h4 h5
  exact ⟨h1, h4, h5.trans (by rw [hi]), h3, h2, h6.after rfl rfl rfl rfl⟩

/-- An INFLATE that recalls the slices (R214). -/
theorem inflate_recalls {s : State} {id a b due : Nat} (hi : (getCtx s id).infl = 0) (ha : a = (getCtx s id).pool) :
    let s' := inflateEnds (enterPool (inflateTakes (recallSlices s id) id a b) id (slicesOf s id - b)) id due a b
    s'.reserve = s.reserve + a + b ∧ (getCtx s' id).grant = (getCtx s id).grant - a - b ∧ (getCtx s' id).infl = due ∧
      (getCtx s' id).pool = slicesOf s id - b ∧ slicesOf s' id = 0 ∧ SameBytes s s' := by
  have ht : getCtx (inflateTakes (recallSlices s id) id a b) id =
    { getCtx s id with pool := (getCtx s id).pool - a, grant := (getCtx s id).grant - a - b } := inflateTakes_ctx ..
  have hw := recordsOnly_watchLow (setCtx (inflateTakes (recallSlices s id) id a b) id
    { getCtx s id with pool := (getCtx s id).pool - a + (slicesOf s id - b), grant := (getCtx s id).grant - a - b }) id
  obtain ⟨w1, w2, w3, -⟩ := hw.counts id
  rw [getCtx_setCtx, if_pos rfl] at w1 w2 w3
  rw [enterPool_idle (by rw [ht]; exact hi), ht]
  generalize watchLow _ id = s1 at hw w1 w2 w3 ⊢
  obtain ⟨h1, h2, h3, h4, h5, h6⟩ := inflateEnds_counts s1 id due a b
  have hsl : slicesOf (inflateEnds s1 id due a b) id = slicesOf (recallSlices s id) id := by
    rw [slicesOf, h2, hw.cores]; rfl
  refine ⟨h1.trans (by rw [hw.reserve]; rfl), h4.trans w2, h5.trans ?_, h3.trans (w1.trans ?_), hsl.trans (slicesOf_recalled s id),
    (sameBytes_recallSlices s id).trans ((hw.bytes.trans h6).after rfl rfl rfl rfl)⟩
  · rw [w3, hi, Nat.zero_add]
  · show (getCtx s id).pool - a + (slicesOf s id - b) = _
    omega

/-- A DEFLATE moves `n` sectors from the reserve to POOL and to the grant (R215). -/
theorem deflated_counts {s : State} {id : Nat} (hi : (getCtx s id).infl = 0) (n : Nat) :
    let s' := watchLow (deflated s id n) id
    s'.reserve = s.reserve - n ∧ (getCtx s' id).pool = (getCtx s id).pool + n ∧ (getCtx s' id).grant = (getCtx s id).grant + n ∧
      (getCtx s' id).infl = 0 ∧ (getCtx s' id).alloc = (getCtx s id).alloc ∧ SameBytes s s' := by
  have hw := recordsOnly_watchLow (deflated s id n) id
  obtain ⟨h1, h2, h3, h4⟩ := hw.counts id
  have hg : getCtx (deflated s id n) id = { getCtx s id with pool := (getCtx s id).pool + n, grant := (getCtx s id).grant + n } :=
    (getCtx_setCtx ..).trans (if_pos rfl)
  rw [hg] at h1 h2 h3 h4
  exact ⟨hw.reserve, h1, h2, h3.trans hi, h4, hw.bytes.after rfl rfl rfl rfl⟩

/-! ## What DESTROY leaves (R218) -/

/-- The freeing of a page's blocks touches no context, no sector of the reserve and no core's context. -/
theorem freeBlocks_keeps (s : State) (b n : Nat) : (freeBlocks s b n).ctxs = s.ctxs ∧ (freeBlocks s b n).reserve = s.reserve := by
  have hbump : ∀ (l : List (Nat × BlockMeta)) (s : State),
      (l.foldl (fun s e => bumpSeq s e.2.run e.2.len) s).ctxs = s.ctxs ∧
        (l.foldl (fun s e => bumpSeq s e.2.run e.2.len) s).reserve = s.reserve := by
    intro l
    induction l with
    | nil => intro s; exact ⟨rfl, rfl⟩
    | cons e l ih =>
      intro s
      rw [List.foldl_cons]
      have h1 : (bumpSeq s e.2.run e.2.len).ctxs = s.ctxs ∧ (bumpSeq s e.2.run e.2.len).reserve = s.reserve := by
        unfold bumpSeq
        split <;> exact ⟨rfl, rfl⟩
      exact ⟨(ih _).1.trans h1.1, (ih _).2.trans h1.2⟩
  exact hbump (metasOf (dropDest s 0 b n) b n) (dropDest s 0 b n)

theorem freePages_keeps (l : List Leaf) (s : State) :
    (l.foldl (fun s l => freeBlocks s (leafBlock l.bits) (blocksIn l.size)) s).ctxs = s.ctxs ∧
      (l.foldl (fun s l => freeBlocks s (leafBlock l.bits) (blocksIn l.size)) s).reserve = s.reserve := by
  induction l generalizing s with
  | nil => exact ⟨rfl, rfl⟩
  | cons e l ih =>
    obtain ⟨h1, h2⟩ := freeBlocks_keeps s (leafBlock e.bits) (blocksIn e.size)
    rw [List.foldl_cons]
    exact ⟨(ih _).1.trans h1, (ih _).2.trans h2⟩

theorem vacate_ctx (trip : Bool) (id : Nat) (c : Core) : (vacate trip id c).ctx ≠ id ∨ id = 0 := by
  unfold vacate
  split
  next h =>
    by_cases hid : id = 0
    · exact .inr hid
    · exact .inl (Ne.symm hid)
  next h => exact .inl h

/-- The pages of a context that ends are freed. -/
def pagesFreed (s : State) (id : Nat) : State :=
  ((ctxLeaves s id).filter fun l => leafTgt l.bits == 0).foldl (fun s l => freeBlocks s (leafBlock l.bits) (blocksIn l.size)) s

/-- The parts of a state in which a context has ended. -/
theorem endCtx_parts (s : State) (id : Nat) :
    let s0 := pagesFreed s id
    let s1 := endCtx s id
    s1.ctxs = tabErase s0.ctxs id ∧ s1.reserve = s0.reserve + (getCtx s0 id).grant ∧
      s1.cores = s0.cores.map (fun e => (e.1, vacate s.mgmt.trip id e.2)) ∧
      s1.walkers = s0.walkers.map (fun w => { w with
        tlb := w.tlb.filter fun e => e.ctx != id, batches := w.batches.filter fun b => b.ctx != id
        busy := w.busy.filter fun x => x.ctx != id }) ∧
      s1.queues = s0.queues.filter fun q => q.ctx != id := by
  simp only [endCtx, pagesFreed, and_self]

/-- What a context owned is gone (R218). -/
theorem endCtx_leaves (s : State) (id : Nat) :
    let s1 := endCtx s id
    getCtx s1 id = Ctx.reset ∧ s1.reserve = s.reserve + (getCtx s id).grant ∧ (∀ e ∈ s1.cores, e.2.ctx ≠ id ∨ id = 0) ∧
      (∀ w ∈ s1.walkers, ∀ e ∈ w.tlb, e.ctx ≠ id) ∧ (∀ q ∈ s1.queues, q.ctx ≠ id) ∧ ∀ m, m ≠ id → getCtx s1 m = getCtx s m := by
  obtain ⟨hc, hr⟩ := freePages_keeps ((ctxLeaves s id).filter fun l => leafTgt l.bits == 0) s
  obtain ⟨e1, e2, e3, e4, e5⟩ := endCtx_parts s id
  have hc0 : (pagesFreed s id).ctxs = s.ctxs := hc
  have hctx : ∀ m, getCtx (endCtx s id) m = if m = id then Ctx.reset else getCtx s m := fun m => by
    rw [getCtx, e1, tabGet_erase, hc0, getCtx]
  refine ⟨by rw [hctx, if_pos rfl], ?_, fun e he => ?_, fun w hw e he => ?_, fun q hq => ?_, fun m hm => by rw [hctx, if_neg hm]⟩
  · rw [e2, getCtx, hc0, getCtx, show (pagesFreed s id).reserve = s.reserve from hr]
  · rw [e3] at he
    obtain ⟨x, -, rfl⟩ := List.mem_map.1 he
    exact vacate_ctx ..
  · rw [e4] at hw
    obtain ⟨x, -, rfl⟩ := List.mem_map.1 hw
    simpa using (List.mem_filter.1 he).2
  · rw [e5] at hq
    simpa using (List.mem_filter.1 hq).2

/-! ## RESOLVE (R152) -/

section
variable {s : State} {p : Packet} (hp : performs s false = true)
include hp

theorem resolve_completes (ho : pktOp p = 5) (hf : ctlForm p true = true)
    (hst : (getCtx s (pktCtx p)).st = .active ∨ (getCtx s (pktCtx p)).st = .saved) :
    exec (.resolve p) s = finishCmd (resolveRecord s (pktCtx p) p.w1.toNat) p .ok 0 := by
  show execResolve p s = _
  rw [execResolve, ctlCmd_runs hp ho hf (mem_activeSaved hst)]

theorem save_busy (ho : pktOp p = 6) (hf : ctlForm p false = true) (hst : (getCtx s (pktCtx p)).st = .active)
    (hs : ∃ m ∈ servingCores s (pktCtx p), isStopped s m = true) : exec (.save p) s = finishCmd s p .busy 0 := by
  show execSave p s = _
  rw [execSave, ctlCmd_runs hp ho hf (by rw [hst]; exact List.mem_singleton.2 rfl)]
  rw [if_pos (List.any_eq_true.2 hs)]

/-! ## POWER (R445-R448) -/

theorem performs_power : performs s true = true := by
  simp only [performs, Bool.and_eq_true] at hp ⊢
  exact ⟨hp.1, by simp⟩

theorem power_toRun (ho : pktOp p = 8) (hf : ctlForm p true = true) (hid : pktCtx p = 0) (hn : p.w1.toNat = 0)
    (hb : bringUpOk s.mgmt = true) (ht : s.mgmt.trip = true → s.mgmt.temp.toNat ≤ 95) :
    exec (.power p) s = finishCmd { s with mgmt := { s.mgmt with pstate := 0, trip := false, ran := true } } p .ok 0 := by
  have htrip : (s.mgmt.trip && decide (95 < s.mgmt.temp.toNat)) = false := by
    cases h : s.mgmt.trip
    · rfl
    · simpa using ht h
  show execPower p s = _
  simp only [execPower, performs_power hp, ho, hf, hid, hn, hb, htrip, Bool.not_true, bne_self_eq_false, Bool.or_self, Bool.false_eq_true,
    if_false, if_true, show decide (3 ≤ 0) = false from rfl]

theorem power_toSleep (ho : pktOp p = 8) (hf : ctlForm p true = true) (hid : pktCtx p = 0) (hn : p.w1.toNat = 1 ∨ p.w1.toNat = 2)
    (hr : anyResident s = false) (hps : s.mgmt.pstate = 0 ∨ s.mgmt.pstate = p.w1.toNat) :
    exec (.power p) s = finishCmd { s with mgmt := { s.mgmt with pstate := p.w1.toNat } } p .ok 0 := by
  have h3 : ¬ 3 ≤ p.w1.toNat := by omega
  have h0 : ¬ p.w1.toNat = 0 := by omega
  have hstay : ¬ (s.mgmt.pstate ≠ 0 ∧ s.mgmt.pstate ≠ p.w1.toNat) := by
    rintro ⟨h1, h2⟩
    exact hps.elim h1 h2
  show execPower p s = _
  simp only [execPower, performs_power hp, ho, hf, hid, h3, h0, hr, hstay, Bool.not_true, bne_self_eq_false, Bool.or_self,
    Bool.false_eq_true, if_false, decide_false, or_self]

end

/-- A closed record restarts the team it has parked, and no other (R152). -/
theorem resolveRecord_restarts {s : State} {id n u : Nat} {t : Team} (hr : find? (getCtx s id).openRecs n = some u)
    (ht : find? s.teams u = some t) (hs : t.status = .parked) :
    let s1 := resolveRecord s id n
    find? s1.teams u = some { t with
      flow := t.snap, status := .ready, counts := [], flight := [], pend := [], walked := [], yielded := [], asks := []
      trace := { t.trace with syncNext := t.trace.on } } ∧ find? (getCtx s1 id).openRecs n = none ∧
      ∀ m, m ≠ u → find? s1.teams m = find? s.teams m := by
  have hg : getTeam s u = t := getTeam_of_find ht
  unfold resolveRecord
  simp only [hr, getTeam_setCtx, hg, hs, if_true, restartTeam, modTeam_eq]
  refine ⟨by rw [find?_setTeam, if_pos rfl], ?_, fun m hm => by rw [find?_setTeam, if_neg hm]; rfl⟩
  rw [getCtx_setTeam, getCtx_setCtx, if_pos rfl, find?_erase, if_pos rfl]

end Sys2Proof.Machine

namespace Sys2Proof.Machine

/-! # What a SAVE sets of a context stays (O46) -/

/-- What only the commands of the control sequence change of a context: its state, the slot of its SAVE and its saved cores. -/
def ctxHeld (c : Ctx) : CtxSt × Nat × List (Nat × Core) := (c.st, c.saveSlot, c.image)

/-- They are in a state what they are in another, for every context. -/
def Held (s₀ s : State) : Prop := ∀ n, ctxHeld (getCtx s n) = ctxHeld (getCtx s₀ n)

/-- The same of the state with which a loom operation, or an append, ends. -/
def HeldTx (s₀ : State) : TxOut → Prop
  | .done s => Held s₀ s
  | .fault _ _ s => Held s₀ s

def HeldAppend (s₀ : State) : Append → Prop
  | .ok s _ => Held s₀ s
  | .failed | .lost => True

namespace Held
variable {s₀ s : State} {t : Txn}

theorem refl (s : State) : Held s s := fun _ => rfl

theorem ite {a b : State} {p : Prop} [Decidable p] (ha : Held s₀ a) (hb : Held s₀ b) : Held s₀ (if p then a else b) := by
  split
  · exact ha
  · exact hb

theorem foldl {α : Type} {f : State → α → State} {l : List α} (h : Held s₀ s) (hf : ∀ s x, Held s₀ s → Held s₀ (f s x)) :
    Held s₀ (l.foldl f s) := by
  induction l generalizing s with
  | nil => exact h
  | cons x l ih => exact ih (hf s x h)

/-- A change that leaves the contexts. -/
theorem frame {s' : State} (h : Held s₀ s) (hc : s'.ctxs = s.ctxs) : Held s₀ s' := fun n => by rw [getCtx, hc]; exact h n

theorem records {s' : State} (h : Held s₀ s) (hr : RecordsOnly s s') : Held s₀ s' := fun n =>
  (congrArg ctxHeld (hr.body n) : ctxHeld (ctxBody _) = ctxHeld (ctxBody _)).trans (h n)

theorem setCtx (h : Held s₀ s) {n : Nat} {c : Ctx} (hc : ctxHeld c = ctxHeld (getCtx s n)) : Held s₀ (setCtx s n c) := fun m => by
  rw [getCtx_setCtx]
  split
  next hm => rw [hc, hm]; exact h n
  · exact h m

theorem modCtx (h : Held s₀ s) {n : Nat} {f : Ctx → Ctx} (hf : ∀ c, ctxHeld (f c) = ctxHeld c) : Held s₀ (modCtx s n f) :=
  h.setCtx (hf _)

theorem setTeam (h : Held s₀ s) {u : Nat} {x : Team} : Held s₀ (setTeam s u x) := h
theorem setCore (h : Held s₀ s) {n : Nat} {c : Core} : Held s₀ (setCore s n c) := h

/-! ## Sectors (R207-R216) -/

theorem pushRec (h : Held s₀ s) {r : FaultRec} : Held s₀ (pushRec s r) := h.records (recordsOnly_pushRec ..)
theorem watchLow (h : Held s₀ s) {id : Nat} : Held s₀ (watchLow s id) := h.records (recordsOnly_watchLow ..)

theorem enterPool (h : Held s₀ s) {id n : Nat} : Held s₀ (enterPool s id n) := by
  have h1 : ∀ (p g i r : Nat), Held s₀ { Machine.setCtx s id { getCtx s id with pool := p, infl := i, grant := g } with reserve := r } :=
    fun _ _ _ _ => h.setCtx (n := id) rfl
  dsimp only [Machine.enterPool]
  split_ifs
  · exact (h1 _ _ _ _).pushRec.watchLow
  · exact (h1 _ _ _ _).watchLow

theorem returnSlice (h : Held s₀ s) {core : Nat} : Held s₀ (returnSlice s core) := by
  dsimp only [Machine.returnSlice]
  exact .ite h (enterPool h.setCore)

theorem giveBack (h : Held s₀ s) {p : Payer} {id n : Nat} : Held s₀ (giveBack s p id n) := by
  unfold Machine.giveBack
  cases p with
  | pool => exact h.enterPool
  | core c =>
    dsimp only [giveSlice]
    split_ifs
    · exact h.enterPool
    · exact enterPool h.setCore
    · exact watchLow h.setCore

theorem undebit (h : Held s₀ s) {p : Payer} {id n : Nat} : Held s₀ (undebit s p id n) := by
  have h1 : Held s₀ (Machine.modCtx s id fun c => { c with held := c.held - n }) := h.modCtx fun _ => rfl
  exact .ite h h1.giveBack

theorem debit8 (h : Held s₀ s) {p : Payer} {id : Nat} : Held s₀ (debit8 s p id).1 := by
  have h1 : ∀ (a b : Nat), Held s₀ (Machine.setCtx s id { getCtx s id with pool := a, held := b }) := fun _ _ => h.setCtx (n := id) rfl
  have h2 : ∀ a : Nat, Held s₀ (Machine.setCtx s id { getCtx s id with pool := a }) := fun _ => h.setCtx (n := id) rfl
  unfold Machine.debit8
  cases p with
  | pool =>
    dsimp only
    split_ifs
    · exact (h1 _ _).watchLow
    · exact h
  | core n =>
    dsimp only
    split_ifs
    · exact watchLow (setCore (h1 _ _))
    · exact setCore (h2 _)
    · exact watchLow (setCore (h1 _ _))
    · exact setCore (h2 _)

theorem debitN (h : Held s₀ s) {p : Payer} {id n : Nat} : Held s₀ (debitN s p id n).1 := by
  induction n generalizing s with
  | zero => exact h
  | succ n ih =>
    have h1 : Held s₀ (Machine.debit8 s p id).1 := h.debit8
    unfold Machine.debitN
    rcases hr : Machine.debit8 s p id with ⟨s1, b⟩
    rw [hr] at h1
    cases b
    · exact h1
    · exact ih h1

/-! ## Stores (R377, R386) -/

theorem bumpSeq (h : Held s₀ s) {run n : Nat} : Held s₀ (bumpSeq s run n) := .ite h h
theorem serveRun (h : Held s₀ s) {run n : Nat} : Held s₀ (serveRun s run n) := .ite h h
theorem activate (h : Held s₀ s) {b : Nat} : Held s₀ (activate s b) := .ite h h.serveRun

theorem storeBlock (h : Held s₀ s) {id b : Nat} {pay : Payer} {deb : Bool} {bytes : List (Option Byte)} :
    Held s₀ (storeBlock s id pay deb b bytes) := by
  unfold Machine.storeBlock
  extract_lets m full v code n o s0 s1 m' s2 s3 s4 s5
  have h1 : Held s₀ s0 := .ite h h.activate
  have h3 : Held s₀ s3 := .ite h1 h1
  have h4 : Held s₀ s4 := h3.setCtx rfl
  have h5 : Held s₀ s5 := (Held.ite h4 h4.bumpSeq : Held s₀ (if n = o then s4 else Machine.bumpSeq s4 m'.run n)).bumpSeq.serveRun
  exact .ite (.ite h.undebit h) h5.giveBack

theorem enterBytes_ctxs (s : State) (au : Author) (first a : Nat) (now : Nat → Byte) (bytes : List (Option Byte)) :
    (Machine.enterBytes s au first a now bytes).1.ctxs = s.ctxs := by rw [enterBytes_only]

theorem enterBytes (h : Held s₀ s) {au : Author} {first a : Nat} {now : Nat → Byte} {bytes : List (Option Byte)} :
    Held s₀ (enterBytes s au first a now bytes).1 := h.frame (enterBytes_ctxs ..)

theorem spoilBytes (h : Held s₀ s) {id a n : Nat} : Held s₀ (spoilBytes s id a n) := by
  dsimp only [Machine.spoilBytes]
  exact .ite h.enterBytes.storeBlock h

theorem spoilHost (h : Held s₀ s) {a n : Nat} : Held s₀ (spoilHost s a n) :=
  h.foldl fun _ _ k => frame k (enterBytes_ctxs ..)

theorem strikeOver (h : Held s₀ s) {own : Option (Nat × Nat)} {b : Nat × Nat} : Held s₀ (strikeOver own s b) := by
  refine .ite ?_ h
  dsimp only [strikeStores]
  refine foldl h fun _ _ k => ?_
  split
  · exact k.spoilBytes
  · exact k.spoilHost
  · exact k

theorem markDirty (h : Held s₀ s) {die id va : Nat} : Held s₀ (markDirty s die id va) := by
  unfold Machine.markDirty
  split
  · exact h
  · exact .ite h h

theorem bring (h : Held s₀ s) {die id va : Nat} : Held s₀ (bring s die id va) := by
  unfold Machine.bring
  split
  · exact h
  · split
    · exact h
    · have h1 : ∀ a m, Held s₀ (setCompanion s a m) := fun _ _ => .ite h h
      exact .ite (h1 _ _) (h1 _ _)

theorem storeOver (h : Held s₀ s) {au : Author} {id b : Nat} {pay : Payer} {deb : Bool} {bytes : List (Option Byte)} :
    Held s₀ (storeOver au s id pay deb b bytes) := by
  dsimp only [Machine.storeOver, storeEntered]
  exact .ite h.storeBlock (strikeOver h.enterBytes.storeBlock)

theorem hostStore (h : Held s₀ s) {au : Author} {a : Nat} {bytes : List (Option Byte)} : Held s₀ (hostStore au s a bytes) := by
  have h1 : ∀ m bytes, Held s₀ { (Machine.enterBytes s au hostGrains a (memByte s.hostMem) bytes).1 with hostMem := m } :=
    fun _ _ => h.frame (enterBytes_ctxs ..)
  exact (h1 _ _).strikeOver

theorem setMeta (h : Held s₀ s) {b : Nat} {m : BlockMeta} : Held s₀ (setMeta s b m) := h.frame rfl

theorem tableWrite (h : Held s₀ s) {a : Nat} {bytes : List (Option Byte)} : Held s₀ (tableWrite s a bytes) := h.frame rfl

/-! ## Loom operations (R293) -/

theorem txStore (h : Held s₀ s) {sp : Space} {die : Nat} {pay : Payer} {b : Nat} : Held s₀ (txStore sp die pay t s b) := by
  cases sp with
  | table => exact h.tableWrite
  | ctx id =>
    have h1 : ∀ (deb : Bool) (k : Nat) (bytes : List (Option Byte)), Held s₀ (Machine.storeOver deviceWrites
        (Machine.markDirty (Machine.bring s die id (b * 256)) die id (b * 256)) id pay deb k bytes) :=
      fun _ _ _ => storeOver (markDirty h.bring)
    dsimp only [Machine.txStore]
    split
    · split_ifs
      · exact (h1 _ _ _).setMeta
      · exact h1 _ _ _
    · exact hostStore h.bring
    · exact h.bring

theorem spoilRange (h : Held s₀ s) {sp : Space} {r : Nat × Nat} : Held s₀ (spoilRange sp s r) := by
  dsimp only [Machine.spoilRange]
  split
  · exact foldl h fun _ _ k => k.tableWrite
  · refine foldl h fun _ _ k => ?_
    split
    · exact k.spoilBytes
    · exact k.spoilHost
    · exact k

theorem txFinish (h : Held s₀ t.s) {die : Nat} {pay : Payer} : HeldTx s₀ (txFinish t die pay) := by
  unfold Machine.txFinish
  split
  · exact h
  · exact h
  · split_ifs
    · exact h
    · exact h
    · dsimp only
      split_ifs
      · exact undebit h.debitN
      · have h1 : Held s₀ ((txBlocks t).foldl (Machine.txStore t.sp die pay t) (t.spoils.foldl (Machine.spoilRange t.sp)
            (Machine.debitN t.s pay (match t.sp with | .ctx i => i | .table => 0) (txDebits t).length).1)) :=
          foldl (foldl h.debitN fun _ _ k => k.spoilRange) fun _ _ k => k.txStore
        show Held s₀ (keepBegins t (keepFreed t (keepTail t _)))
        unfold keepBegins keepTail
        split <;> split <;> exact h1

/-! ## The append of a slot (R407, R419) -/

theorem txFault_s (t : Txn) (cause addr : Nat) : (txFault t cause addr).s = t.s := by
  unfold txFault
  split <;> rfl

theorem txTouch_s (t : Txn) (id va : Nat) : (txTouch t id va).s = t.s := by
  unfold txTouch
  dsimp only
  split <;> rfl

/-- A translation records a fault or a page, and reads the state. -/
theorem txPlace_s (t : Txn) (va : Nat) (n : Need) : (txPlace t va n).1.s = t.s := by
  unfold txPlace
  split
  · rfl
  · dsimp only
    split <;> simp only [txFault_s, txTouch_s]

theorem txBytes (h : Held s₀ t.s) {va n : Nat} : Held s₀ (txBytes t va n).1.s := by
  have hp : Held s₀ (txPlace t va .load).1.s := by rw [txPlace_s]; exact h
  unfold Machine.txBytes
  generalize txPlace t va .load = r at hp ⊢
  obtain ⟨t1, o⟩ := r
  cases o with
  | none => exact hp
  | some p =>
    dsimp only
    split
    · exact (txFault_s ..).symm ▸ hp
    · unfold txMeets
      split
      · exact frame hp.activate rfl
      · exact hp

theorem txRead (h : Held s₀ t.s) {va n : Nat} : Held s₀ (txRead t va n).1.s := h.txBytes

theorem txPut_s (t : Txn) (va : Nat) (bs : List Byte) : (txPut t va bs).s = t.s := by
  have hp := txPlace_s t va .store
  unfold txPut
  generalize txPlace t va .store = r at hp ⊢
  obtain ⟨t1, o⟩ := r
  cases o <;> exact hp

theorem txPutLong_s (n : Nat) (t : Txn) (va : Nat) (bs : List Byte) : (txPutLong n t va bs).s = t.s := by
  induction n generalizing t va bs with
  | zero => rfl
  | succ n ih =>
    unfold txPutLong
    split
    · rfl
    · exact (ih ..).trans (txPut_s ..)

theorem txSetFill (h : Held s₀ t.s) {hd : Hdr} {x : Nat} {v : Bool} : Held s₀ (txSetFill t hd x v).s := by
  have h1 : Held s₀ (Machine.txRead t (hd.fbm + x % 2 ^ hd.wlg / 8) 1).1.s := h.txRead
  exact (txPut_s ..).symm ▸ h1

theorem txAdvance (h : Held s₀ t.s) {hd : Hdr} {n cl : Nat} : Held s₀ (txAdvance hd n t cl).1.s := by
  induction n generalizing t cl with
  | zero => exact h
  | succ n ih =>
    have h1 : Held s₀ (txFill t hd cl).1.s := h.txRead
    unfold Machine.txAdvance
    generalize txFill t hd cl = r at h1 ⊢
    obtain ⟨t1, b⟩ := r
    cases b
    · exact h1
    · exact ih (Held.txSetFill h1)

theorem txHdr (h : Held s₀ t.s) {a : Nat} : Held s₀ (txHdr t a).1.s := by
  have h1 : Held s₀ (Machine.txBytes t a 64).1.s := h.txBytes
  unfold Machine.txHdr
  split
  · exact h
  · dsimp only
    split
    · exact h1.txRead
    · exact h1

theorem txRing_s (t : Txn) (hd : Hdr) : (txRing t hd).s = t.s := by
  unfold txRing
  dsimp only
  split_ifs <;> rfl

theorem afterCl (h : Held s₀ s) {sp : Space} {a cl : Nat} : Held s₀ (afterCl s sp a cl) := by
  have h1 : Held s₀ (noteQueue s sp a) := .ite h h
  unfold Machine.afterCl
  generalize noteQueue s sp a = s1 at h1 ⊢
  cases sp with
  | table => exact .ite (h1.frame rfl) h1
  | ctx id =>
    have h2 : ∀ p : Prop, [Decidable p] → ∀ b : Bool, Held s₀ (if p then Machine.setCtx s1 id { getCtx s1 id with due := b } else s1) :=
      fun _ _ _ => .ite (h1.setCtx (n := id) rfl) h1
    exact (h2 _ _).frame rfl

theorem appendOne (h : Held s₀ s) {sp : Space} {pay : Payer} {a slg : Nat} {bytes : List Byte} {v : View} :
    HeldAppend s₀ (appendOne s sp pay a slg bytes v) := by
  have h0 : Held s₀ (Machine.txHdr (txStart s sp false) a).1.s := Held.txHdr (t := txStart s sp false) h
  unfold Machine.appendOne
  generalize Machine.txHdr (txStart s sp false) a = r at h0 ⊢
  obtain ⟨t1, hd⟩ := r
  dsimp only
  split
  · exact trivial
  · have h3 : Held s₀ (Machine.txSetFill (txPutLong 300 (txRing t1 hd) (flatSlot hd hd.rl) bytes) hd hd.rl true).s :=
      Held.txSetFill (by rw [txPutLong_s, txRing_s]; exact h0)
    have h4 := h3.txAdvance (hd := hd) (n := hd.rl + 1 - hd.cl) (cl := hd.cl)
    generalize Machine.txAdvance hd _ _ _ = r at h4 ⊢
    obtain ⟨t4, cl⟩ := r
    have h5 : Held s₀ (txLens t4 hd cl (hd.rl + 1)).s := by rw [txLens, txWrite, txPut_s]; exact h4
    have h6 := h5.txFinish (die := loomDie s sp a) (pay := pay)
    dsimp only
    generalize Machine.txFinish _ _ _ = r at h6 ⊢
    cases r with
    | done s1 => exact frame (.ite h6 (afterCl h6) : Held s₀ (if cl = hd.cl then s1 else Machine.afterCl s1 sp a cl)) rfl
    | fault c x s1 =>
      dsimp only
      split <;> exact trivial

theorem traceAppend (h : Held s₀ s) {u : Nat} : Held s₀ (traceAppend s u) := by
  unfold Machine.traceAppend
  dsimp only
  split
  · exact h
  · split
    next s1 n hsent =>
      split at hsent
      · cases hsent
      · unfold appendSlot at hsent
        have ha := h.appendOne (sp := .ctx (getTeam s u).ctx) (pay := .core (getTeam s u).core)
          (a := (getCore s (getTeam s u).core).tbind) (slg := 8) (v := ⟨[], 0⟩)
          (bytes := bytesOf 4 (getTeam s u).id ++ bytesOf 2 (getTeam s u).trace.staged.length ++ (getTeam s u).trace.staged ++
            List.replicate (256 - (bytesOf 4 (getTeam s u).id ++ bytesOf 2 (getTeam s u).trace.staged.length ++
              (getTeam s u).trace.staged).length) 0#8)
        split at hsent
        next s2 m he =>
          rw [he] at ha
          cases hsent
          exact ha
        · cases hsent
    · exact h

/-! ## A team at its region's start, and the stop of a core (R153, R219, R409) -/

theorem spoil (h : Held s₀ s) {n core : Nat} {o : MOp} : Held s₀ (spoil n s core o) :=
  foldl h.setCore fun s r k => by
    dsimp only [spoilSpad]
    exact setCore (enterBytes k)

theorem taintRegs (h : Held s₀ s) {u core : Nat} {regs : List Nat} : Held s₀ (taintRegs s u core regs) := by
  dsimp only [Machine.taintRegs, strike]
  exact .ite (.ite (foldl h.setCore fun _ _ k => k.spoil) h) h

theorem finishIssued (h : Held s₀ s) {u : Nat} : Held s₀ (finishIssued s u) := taintRegs h.setTeam
theorem abortRegion (h : Held s₀ s) {u : Nat} : Held s₀ (abortRegion s u) := setTeam h.undebit
theorem dropWalks (h : Held s₀ s) {u : Nat} : Held s₀ (dropWalks s u) := h

theorem leaveWait (h : Held s₀ s) {u : Nat} : Held s₀ (leaveWait s u) := by
  unfold Machine.leaveWait
  split
  · exact h.setCore
  · exact h

theorem rewindTeam (h : Held s₀ s) {u : Nat} : Held s₀ (rewindTeam s u) :=
  setTeam h.finishIssued.abortRegion.leaveWait.dropWalks.traceAppend

theorem saveRewind (h : Held s₀ s) {u : Nat} : Held s₀ (saveRewind s u) := by
  dsimp only [Machine.saveRewind]
  split_ifs
  · exact h.finishIssued
  · exact setTeam h.rewindTeam
  · exact h

theorem settleStop (h : Held s₀ s) {core : Nat} : Held s₀ (settleStop s core) := by
  unfold Machine.settleStop
  split
  · split
    · split
      · exact h
      · exact pushRec h.setCore
    · exact h
  · exact h

theorem forgetSpad (h : Held s₀ s) {core : Nat} : Held s₀ (forgetSpad s core) := h.frame rfl

theorem leaveCtx (h : Held s₀ s) {core : Nat} : Held s₀ (leaveCtx s core) := by
  have h1 : ∀ id w, Held s₀ (Machine.modCtx (Machine.returnSlice (Machine.forgetSpad s core) core) id fun x =>
      { x with flags := tabSet 0 x.flags core w }) := fun _ _ => h.forgetSpad.returnSlice.modCtx fun _ => rfl
  dsimp only [Machine.leaveCtx]
  exact .ite h (setCore (h1 _ _))

theorem restoreCore (h : Held s₀ s) {id : Nat} {e : Nat × Core × List Byte × Nat} : Held s₀ (restoreCore id s e) := by
  have h1 : Held s₀ (Machine.modCtx (Machine.leaveCtx s e.1) id fun x => { x with flags := tabErase x.flags e.1 }) :=
    h.leaveCtx.modCtx fun _ => rfl
  exact setCore h1

theorem teamJoins (h : Held s₀ s) {u : Nat} {v : View} : Held s₀ (teamJoins s u v) := by
  have h1 : ∀ (p : Prop) [Decidable p] (x : Team), Held s₀ (if p then s else Machine.setTeam s u x) := fun _ _ _ => .ite h h.setTeam
  dsimp only [Machine.teamJoins, raiseClock]
  exact .ite (setCore (h1 _ _)) (h1 _ _)

end Held

/-! ## SAVE (R219) -/

/-- A context that is being saved, with the stops of its cores settled and its teams at their regions' starts. -/
def saveBegun (s : State) (id slot : Nat) : State :=
  let s1 := modCtx s id fun c => { c with st := .saving, saveSlot := slot }
  (servingCores s1 id).foldl settleStop ((residents s1 id).foldl (fun s e => saveRewind s e.1) s1)

theorem saveBegun_held (s : State) (id slot : Nat) :
    (getCtx (saveBegun s id slot) id).st = .saving ∧ (getCtx (saveBegun s id slot) id).saveSlot = slot := by
  have h0 : Held (modCtx s id fun c => { c with st := .saving, saveSlot := slot })
      (modCtx s id fun c => { c with st := .saving, saveSlot := slot }) := .refl _
  have h : Held _ (saveBegun s id slot) := .foldl (.foldl h0 fun _ _ k => k.saveRewind) fun _ _ k => k.settleStop
  have hid := h id
  rw [modCtx_eq, getCtx_setCtx, if_pos rfl] at hid
  exact ⟨congrArg (·.1) hid, congrArg (·.2.1) hid⟩

/-- No team of a context that is not active issues (R9). -/
theorem canIssue_of_saving {s : State} {u : Nat} {t : Team} (ht : find? s.teams u = some t) (hs : (getCtx s t.ctx).st = .saving) :
    canIssue s u = false := by
  unfold canIssue
  simp only [ht, hs, show (CtxSt.saving == CtxSt.active) = false from rfl, Bool.and_false, Bool.false_and]

theorem save_begins {s : State} {p : Packet} (hp : performs s false = true) (ho : pktOp p = 6) (hf : ctlForm p false = true)
    (hst : (getCtx s (pktCtx p)).st = .active) (hs : ∀ m ∈ servingCores s (pktCtx p), isStopped s m = false) :
    exec (.save p) s = .next (settle (saveBegun s (pktCtx p) p.slot)) := by
  have hany : (servingCores s (pktCtx p)).any (isStopped s) = false := List.any_eq_false.2 fun m hm => by simp [hs m hm]
  show execSave p s = _
  rw [execSave, ctlCmd_runs hp ho hf (by rw [hst]; exact List.mem_singleton.2 rfl)]
  simp only [hany, Bool.false_eq_true, if_false]
  rfl

/-! ## RESTORE (R223) -/

theorem restoreCtx_held (s : State) (id : Nat) (c : Ctx) (move : Nat → Nat) :
    (getCtx (restoreCtx s id c move) id).st = .active ∧ (getCtx (restoreCtx s id c move) id).image = [] := by
  have h0 : ∀ (flags : Tab Nat) (T : Tab Team), Held (setCtx s id { c with st := .active, image := [] })
      { setCtx s id { c with st := .active, image := [], flags := flags } with teams := T } := fun flags T n => by
    rw [getCtx_setCtx]
    show ctxHeld (getCtx (setCtx s id _) n) = _
    rw [getCtx_setCtx]
    split <;> rfl
  have h : Held _ (restoreCtx s id c move) := .foldl (.foldl (h0 _ _) fun _ _ k => k.restoreCore) fun _ _ k => .teamJoins k.setTeam
  have hid := h id
  rw [getCtx_setCtx, if_pos rfl] at hid
  exact ⟨congrArg (·.1) hid, congrArg (·.2.2) hid⟩

theorem restore_completes {s : State} {p : Packet} (hp : performs s false = true) (ho : pktOp p = 7) (hf : ctlForm p true = true)
    (hst : (getCtx s (pktCtx p)).st = .saved) {tab : List Nat} (ht : remapTable s p.w1.toNat = some tab)
    (hn : noRepeat ((getCtx s (pktCtx p)).image.map fun e => nth e.1 tab e.1) = true)
    (hm : ((getCtx s (pktCtx p)).image.all fun e => mayRestore s e.2 (nth e.1 tab e.1)) = true) :
    exec (.restore p) s =
      finishCmd (restoreCtx s (pktCtx p) (getCtx s (pktCtx p)) fun x => nth x tab x) p .ok 0 := by
  show execRestore p s = _
  rw [execRestore, ctlCmd_runs hp ho hf (by rw [hst]; exact List.mem_singleton.2 rfl)]
  simp only [ht, hn, hm, Bool.not_true, Bool.false_eq_true, if_false]

/-! ## SAVE_COMPLETE (R219-R221) -/

/-- The state once the slices have returned and the cores have let go, with what is saved of them and of the teams. -/
def saveLeft (s : State) (id : Nat) : State :=
  (servingCores s id).foldl leaveCtx
    ((servingCores s id).foldl returnSlice ((residents s id).foldl (fun s e => saveRewind s e.1) s))

/-- The save area of a context (R220). -/
def savedArea (s : State) (id : Nat) : List Byte :=
  let s1 := (servingCores s id).foldl returnSlice ((residents s id).foldl (fun s e => saveRewind s e.1) s)
  saveArea id (getCtx (saveLeft s id) id) (savedCores s1 id) (savedTeams s1 id)

/-- A team of a saved context is placed on no core. -/
def savedAway (id : Nat) (t : Team) : Team := if t.ctx = id ∧ t.placed = true ∧ t.status ≠ .ended then { t with placed := false } else t

/-- The context is SAVED: its area is written, its cores' tasks are gone, and no team of it is placed. -/
def saveDone (s : State) (id : Nat) : State :=
  let s2 := saveLeft s id
  let s1 := (servingCores s id).foldl returnSlice ((residents s id).foldl (fun s e => saveRewind s e.1) s)
  modCtx { hostPut s2 (getCtx s2 id).savea (savedArea s id) with
    cores := s2.cores.map fun e => (e.1, { e.2 with deque := e.2.deque.filter fun x => x.ctx != id })
    teams := s2.teams.map fun e => (e.1, savedAway id e.2) } id fun c => { c with st := .saved, image := savedCores s1 id }

theorem saveComplete_runs {s : State} {id : Nat} (hst : (getCtx s id).st = .saving)
    (hc : ∀ c ∈ servingCores s id, coreSettled s c = true) (hr : ∀ e ∈ residents s id, canSave e.2 = true) :
    exec (.saveComplete id) s = .next (settle (replyTo (afterCommand (saveDone s id) 0x06 id) 0x06 id
      (getCtx (saveDone s id) id).saveSlot .ok (savedArea s id).length)) := by
  show execSaveComplete id s = _
  unfold execSaveComplete
  dsimp only
  rw [if_pos ⟨hst, List.all_eq_true.2 hc, List.all_eq_true.2 hr⟩]
  rfl

theorem saveDone_ctx (s : State) (id : Nat) :
    (getCtx (saveDone s id) id).st = .saved ∧ (getCtx (saveDone s id) id).savea = (getCtx (saveLeft s id) id).savea := by
  unfold saveDone
  rw [modCtx_eq, getCtx_setCtx, if_pos rfl]
  exact ⟨rfl, rfl⟩

/-- A team of a saved context that has not ended is not placed (R219). -/
theorem saveDone_unplaced {s : State} {id u : Nat} {t : Team} (ht : find? (saveDone s id).teams u = some t) (hx : t.ctx = id)
    (he : t.status ≠ .ended) : t.placed = false := by
  have hm : (u, t) ∈ (saveLeft s id).teams.map fun e => (e.1, savedAway id e.2) := find?_mem ht
  obtain ⟨⟨v, x⟩, -, hxt⟩ := List.mem_map.1 hm
  obtain rfl : savedAway id x = t := congrArg (·.2) hxt
  unfold savedAway at hx he ⊢
  split at hx
  next h => rw [if_pos h]
  next h =>
    rw [if_neg h] at he ⊢
    cases hp : x.placed
    · rfl
    · exact absurd ⟨hx, hp, he⟩ h

/-! ### The first bytes of the area (R205, R220) -/

theorem descWords_ctxId (id : Nat) (c : Ctx) : ∃ x, descWords id c = (id + 65536 * x) :: (descWords id c).tail :=
  ⟨bitNat c.conf + c.ratio * 2 ^ 8, by
    rw [descWords, List.tail_cons]
    congr 1
    omega⟩

theorem length_wordBytes (ws : List Nat) : (wordBytes ws).length = 8 * ws.length := by
  induction ws with
  | nil => rfl
  | cons w ws ih =>
    rw [wordBytes, List.map_cons, List.flatten_cons, List.length_append, bytesOf_length, show ((ws.map (bytesOf 8)).flatten).length =
      8 * ws.length from ih, List.length_cons]
    omega

/-- The area begins with the word that holds the number of its context. -/
theorem saveArea_begins (id : Nat) (c : Ctx) (cores : List (Nat × Core)) (ts : List Team) :
    ∃ x l, saveArea id c cores ts = BitVec.ofNat 8 (id + 65536 * x) :: BitVec.ofNat 8 ((id + 65536 * x) / 256) :: l := by
  obtain ⟨x, hx⟩ := descWords_ctxId id c
  unfold saveArea
  dsimp only
  rw [hx]
  exact ⟨x, _, rfl⟩

theorem length_saveArea (id : Nat) (c : Ctx) (cores : List (Nat × Core)) (ts : List Team) : 0x600 ≤ (saveArea id c cores ts).length := by
  have hflag : (flagImage c).length = 1280 := by
    rw [flagImage, length_wordBytes, List.length_map, List.length_range]
  have hpad : ∀ bs : List Byte, 0x100 ≤ (padTo 0x100 bs).length := fun bs => by
    rw [padTo, List.length_append, List.length_replicate]
    omega
  unfold saveArea
  dsimp only
  simp only [List.length_append, hflag]
  have := hpad (wordBytes (descWords id c) ++ wordBytes [cores.length + ts.length * 2 ^ 32,
    0x600 + (0x600 + (cores.map fun e => coreSection e.1 e.2).flatten.length) * 2 ^ 32])
  omega

/-- The number in the first two bytes of a run that has been written. -/
theorem memNat_write (m : List Host.Cell) (a w : Nat) (l : List Byte) :
    memNat (memWrite m a (BitVec.ofNat 8 w :: BitVec.ofNat 8 (w / 256) :: l)) a 2 = w % 65536 := by
  have h0 : memByte (memWrite m a (BitVec.ofNat 8 w :: BitVec.ofNat 8 (w / 256) :: l)) a = BitVec.ofNat 8 w := by
    rw [memByte_write]; simp
  have h1 : memByte (memWrite m a (BitVec.ofNat 8 w :: BitVec.ofNat 8 (w / 256) :: l)) (a + 1) = BitVec.ofNat 8 (w / 256) := by
    rw [memByte_write]; simp
  show natOf [memByte _ (a + 0), memByte _ (a + 1)] = _
  rw [Nat.add_zero, h0, h1]
  simp only [natOf, BitVec.toNat_ofNat]
  omega

theorem hostMem_hostPut (s : State) (a : Nat) (bs : List Byte) : (hostPut s a bs).hostMem = memWrite s.hostMem a bs := rfl

theorem saveDone_area (s : State) {id : Nat} (hid : id < 2 ^ 16) :
    memNat (saveDone s id).hostMem (getCtx (saveDone s id) id).savea 2 = id ∧ 0x600 ≤ (savedArea s id).length := by
  refine ⟨?_, length_saveArea ..⟩
  obtain ⟨x, l, hl⟩ := saveArea_begins id (getCtx (saveLeft s id) id)
    (savedCores ((servingCores s id).foldl returnSlice ((residents s id).foldl (fun s e => saveRewind s e.1) s)) id)
    (savedTeams ((servingCores s id).foldl returnSlice ((residents s id).foldl (fun s e => saveRewind s e.1) s)) id)
  have hm : (saveDone s id).hostMem = memWrite (saveLeft s id).hostMem (getCtx (saveLeft s id) id).savea (savedArea s id) := by
    simp only [saveDone, modCtx, setCtx, hostMem_hostPut]
  rw [(saveDone_ctx s id).2, hm, show savedArea s id = _ from hl, memNat_write]
  omega

/-- INFLATE (R214): from POOL alone, or with the slices recalled. -/
theorem inflate_ends {s : State} {p : Packet} (hp : performs s false = true) (ho : pktOp p = 4) (hf : ctlForm p true = true) {id n : Nat}
    (hid : pktCtx p = id) (hn : p.w1.toNat = n) (hst : (getCtx s id).st = .active ∨ (getCtx s id).st = .saved)
    (hi : (getCtx s id).infl = 0) :
    let c := getCtx s id
    let a := min n c.pool
    let b := min (n - a) (slicesOf s id)
    ∃ s1, exec (.inflate p) s = finishCmd s1 p .ok (a + b) ∧ s1.reserve = s.reserve + a + b ∧
      (getCtx s1 id).grant = c.grant - a - b ∧ (getCtx s1 id).infl = n - a - b ∧
      (n ≤ c.pool → (getCtx s1 id).pool = c.pool - n ∧ s1.cores = s.cores) ∧
      (c.pool < n → (getCtx s1 id).pool = slicesOf s id - b ∧ slicesOf s1 id = 0) ∧ SameBytes s s1 := by
  intro c a b
  have hrun := inflate_completes hp ho hf (by rw [hid]; exact hst) hid (a := a) (b := b) (by rw [hn]) (by rw [hn])
  rw [hn] at hrun
  refine ⟨_, hrun, ?_⟩
  rcases Nat.lt_or_ge c.pool n with hlt | hle
  · have ha : a = c.pool := Nat.min_eq_right (Nat.le_of_lt hlt)
    rw [if_neg (by omega)]
    obtain ⟨h1, h2, h3, h4, h5, h6⟩ := inflate_recalls (b := b) (due := n - a - b) hi ha
    exact ⟨h1, h2, h3, fun h => absurd h (Nat.not_le.2 hlt), fun _ => ⟨h4, h5⟩, h6⟩
  · have ha : a = n := Nat.min_eq_left hle
    have hb : b = 0 := by
      show min (n - a) _ = 0
      rw [ha, Nat.sub_self, Nat.zero_min]
    rw [ha, hb, Nat.sub_self, if_pos rfl]
    obtain ⟨h1, h2, h3, h4, h5, h6⟩ := inflate_covered hi n
    exact ⟨h1, h2, h3, fun _ => ⟨h4, h5⟩, fun h => absurd h (Nat.not_lt.2 hle), h6⟩

/-- Settles O46, command by command; what a SAVE and a RESTORE set of a context stays through what they do to its cores and its teams. -/
theorem controlCommandsComplete : Obligations.ControlCommandsComplete := by
  refine ⟨fun s p hp => ⟨fun ho hf hst hran ha hn hd => ?_, fun ho hf hst => ?_, fun ho hf hst hn hi => ?_, fun ho hf hst hi => ?_,
    fun ho hf hst u t hr ht hs => ?_, fun ho hf hst hs => save_busy hp ho hf hst hs, fun ho hf hst hs _ => ?_,
    fun ho hf hst tab ht hn hm => ?_, fun ho hf hid => ⟨fun hn hb ht => power_toRun hp ho hf hid hn hb ht,
      fun hn hr hps => power_toSleep hp ho hf hid hn hr hps⟩⟩, fun s id hst hc hr hid => ?_⟩
  · refine ⟨_, if bitAt (tableWord s (p.w1.toNat + 8 * 0)) 16 then Config.contextKey s.free else 0#512,
      create_completes hp ho hf hst hran ha hn hd, ?_, rfl, fun m hm => ?_⟩
    · exact (getCtx_setCtx ..).trans (if_pos rfl)
    · exact (getCtx_setCtx ..).trans (if_neg hm)
  · exact ⟨_, destroy_completes hp ho hf hst, endCtx_leaves ..⟩
  · exact ⟨_, deflate_completes hp ho hf hst hn hi, deflated_counts hi _⟩
  · exact inflate_ends hp ho hf rfl rfl hst hi
  · exact ⟨_, resolve_completes hp ho hf hst, resolveRecord_restarts hr ht hs⟩
  · obtain ⟨h1, h2⟩ := saveBegun_held s (pktCtx p) p.slot
    exact ⟨_, save_begins hp ho hf hst hs, h1, h2, fun u t ht hx => canIssue_of_saving ht (by rw [hx]; exact h1)⟩
  · exact ⟨_, restore_completes hp ho hf hst ht hn hm, restoreCtx_held ..⟩
  · obtain ⟨h1, h2⟩ := saveDone_area s hid
    exact ⟨_, _, saveComplete_runs hst hc hr, (saveDone_ctx s id).1, fun u t ht hx he => saveDone_unplaced ht hx he, h1, h2⟩

end Sys2Proof.Machine

namespace Sys2Proof.Machine

/-! # Instructions of a bounds pass (O11)

The clauses on tiles that become undecided do not ask that the lane table is ordered. A table that lists a lane twice lets an older entry
of a lane speak again when R126 merges the lanes that wait. Only a table that is not in canonical form does so: the clause on BRA excludes it
by `tabSorted`, these do not. -/

/-- A team of a bounds pass whose lane table lists lane 0 twice: active first, and waiting at the team's next address behind it. -/
def teamTwice : Team :=
  { Tests.teamIv with flow := { Tests.teamIv.flow with lanes := [(0, .active), (0, .waiting 0x1004 0)] } }

theorem teamTwice_issuing : IssuingIn true (Tests.devIv teamTwice) 1 teamTwice :=
  Tests.issuing_of rfl rfl (Tests.quiet_of rfl rfl rfl rfl rfl) (by decide +kernel)

/-- Whether a step leaves lane 0 of team 1 exited. -/
def laneZeroExited : Out → Bool
  | .next s => match find? s.teams 1 with
    | some t => laneState t.flow 0 == .exited
    | none => false
  | _ => false

/-- The lane whose tile has become undecided is active again at the team's next address. -/
theorem teamTwice_goesOn : laneZeroExited (exec (.bpassUndec 0#9) (Tests.devIv teamTwice)) = false := by decide +kernel

theorem teamTwice_lanes : 0 ∈ lanesOf teamTwice ∧ (kernelOf (Tests.devIv teamTwice) teamTwice.kid).isSome = true := by decide +kernel

/-- What O11 says of BPASS.undec: the lanes whose tiles become undecided have exited. -/
theorem laneZeroExited_of_undecided {c : Instr} {s : State} {t : Team} (h : IvUndecided c s 1 t) (hl : 0 ∈ lanesOf t)
    (hk : (kernelOf s t.kid).isSome = true) : laneZeroExited (exec c s) = true := by
  obtain ⟨k, hk⟩ := Option.isSome_iff_exists.mp hk
  obtain ⟨s', t', he, ht, -, -, -, -, exited, -⟩ := h k hk
  simp only [he, laneZeroExited, ht, exited 0 hl, beq_self_eq_true]

/-- Refutes O11: a lane whose tile becomes undecided is active again, where the lane table lists it a second time as waiting at the address
that the team goes on at. -/
theorem not_intervalModeInstructions : ¬ Obligations.IntervalModeInstructions := by
  intro h
  obtain ⟨hl, hk⟩ := teamTwice_lanes
  obtain ⟨-, -, -, -, -, -, -, undecides, -⟩ :=
    h (Tests.devIv teamTwice) 1 teamTwice teamTwice_issuing (List.ne_nil_of_mem hl)
  obtain ⟨-, -, undec, -⟩ := undecides .b32 .l1 ⟨0#7, 0#7, 0#7, .none⟩ 0#9 0#9 0#7 0#7 .none (by decide) (by decide)
  exact absurd (laneZeroExited_of_undecided undec hl hk) (by rw [teamTwice_goesOn]; decide)

end Sys2Proof.Machine
